-- ==== Sys2Proof/Word.lean ====
section
/-! DEFINITION. The word and byte types of the management space, and the arithmetic helpers that go with them. -/

namespace Sys2Proof

/-- One management word (R540). -/
abbrev Word := BitVec 32

/-- One byte of an image, of the NVM, or of DRAM data. -/
abbrev Byte := BitVec 8

end Sys2Proof
end

