-- ==== Sys2Proof/Syntax.lean ====
section
/-! DEFINITION. The commands of the block: one constructor for each row of spec/opcode_table.json, with the operands
the row's rule gives it, and the types of those operands. The table gives no bits, so every operand is a value. -/

namespace Sys2Proof

/-- The role of a management access (R521). -/
inductive Role
  | none | operator | installer | maker
  deriving DecidableEq, Repr

/-- MG_ROLE of a role (R521). -/
def Role.code : Role → Nat
  | .none => 0
  | .operator => 1
  | .installer => 2
  | .maker => 3

/-- A request header beat without its opcode (R131): tag, the reserved bits [63:52] and [47:46], DPA, and parity. -/
structure Header where
  tag  : BitVec 64
  rsvd : BitVec 14
  dpa  : BitVec 46
  par  : BitVec 8
  deriving DecidableEq, Repr

/-- A write data beat (05, lanes). -/
structure DataBeat where
  data   : BitVec 512
  be     : BitVec 64
  poison : Bool
  par    : BitVec 9
  deriving DecidableEq, Repr

/-- An upset of a slice's SRAM that has happened before a command: bits of the two copies of a tag entry that have flipped
(R217, R233), numbered as in `Line.flipped` with the parity bit last, a sector of the data array left with a correctable
or an uncorrectable word (R235, R239), or an uncorrectable word of the miss-queue entry of an index (R377). -/
inductive Upset
  | none
  | tag (set : BitVec 9) (way : BitVec 4) (first second : BitVec 47)
  | data (set : BitVec 9) (way : BitVec 4) (sec : BitVec 2) (uncorrectable : Bool)
  | miss (idx : BitVec 18)
  deriving DecidableEq, Repr

/-- What a decision of an arbiter meets: the upset before it, and how many grants the counts it sees lie behind (R187). -/
structure GrantSight where
  upset : Upset
  lag   : Fin 65
  deriving DecidableEq, Repr

/-- A write that disables a port, and whether a header that fails its parity arrives in its cycle (R160). -/
structure PortOff where
  word      : Word
  badHeader : Bool
  deriving DecidableEq, Repr

/-- A subchannel whose clause store is read, and a bit of a store copy that has flipped since the last command that read
it (R298, R300). -/
structure StoreRead where
  sub  : Fin 32
  flip : Option (Fin 16 × Nat)
  deriving DecidableEq, Repr

/-- A codeword that DRAM returned, and whether the read buffer that holds it has an uncorrectable error (R377). -/
structure ReadBack where
  code  : BitVec 1280
  upset : Bool
  deriving DecidableEq, Repr

/-- What discovery finds in a module slot (R408 to R410). -/
structure ModuleProbe where
  /-- The hub acknowledged its address within 3 attempts. -/
  ack      : Bool
  /-- A bus error persisted through 3 attempts. -/
  busErr   : Bool
  /-- The SPD base-configuration CRC is correct. -/
  crcOk    : Bool
  /-- The module type byte is DDR5 RDIMM or MRDIMM. -/
  typeOk   : Bool
  mrdimm   : Bool
  ranks    : BitVec 8
  capacity : BitVec 16
  maxRate  : BitVec 16
  /-- CAPS of the ledger: soft and hard repair, RFM required, per-row counting, buffer loopback. -/
  caps     : BitVec 5
  /-- Encoded chip-select support (R321). -/
  encCs    : Bool
  mfr      : BitVec 16
  date     : BitVec 16
  serial   : BitVec 32
  part     : BitVec 240
  /-- Row, bank-group and bank address bits of the devices. -/
  rowBits  : BitVec 5
  bgBits   : BitVec 3
  bankBits : BitVec 3
  /-- Temperature sensors present, the hub's own first. -/
  sensors  : BitVec 3
  deriving DecidableEq, Repr

/-- A unit that can be fenced, with its index (R515). -/
inductive FenceUnit
  | sub (s : Fin 32)
  | slice (c : Fin 16)
  | port (p : Fin 6)
  deriving DecidableEq, Repr

/-- Save-list items whose CRC failed at a restore (R478, R479): PHY values, calibration state and scheduler settings by
subchannel; the others in the order of R477 (ECC and scrubber, regulator, counters, time and lights, fault records, other
settings); and a mismatch of the image-derived arrays. -/
structure RestoreErr where
  phy    : BitVec 32
  cal    : BitVec 32
  sch    : BitVec 32
  other  : BitVec 6
  arrays : Bool
  deriving DecidableEq, Repr

/-- A power domain of R547. -/
inductive PowerDomain
  | channel (n : Fin 16)
  | modules (n : Fin 16)
  | cacheGroup (g : Fin 4)
  | core
  deriving DecidableEq, Repr

/-- The bits of a write to one of the fence registers (R515, R517). -/
inductive FenceMask
  | sub (mask : BitVec 32)
  | slice (mask : BitVec 16)
  | port (mask : BitVec 6)
  deriving DecidableEq, Repr

/-- What the alert sentence finds an alert to be (R280). -/
inductive AlertClass
  | backoffOnly | writeCrc | caParity
  deriving DecidableEq, Repr

/-- What a sweep measured of one lane: for each reference level (or coarse setting) in ascending order, the set of delay
codes at which it made no error. -/
abbrev Sweep := List (Nat × BitVec 256)

/-- What a Keeper read of a training row gives (R379, R380). -/
inductive RowRead
  | clean | corrected | uncorrectable
  deriving DecidableEq, Repr, Inhabited

/-- What a scheduler slot meets: the answer of a mode-register read and of a training-row read that it issues, and an
uncorrectable error of the queue entry it selects (R377). -/
structure SlotSight where
  mrr   : BitVec 8
  row   : RowRead
  upset : Bool
  deriving DecidableEq, Repr

/-- The sectors of a repaired row that the Keeper read without data: UNCORRECTABLE, and POISON (R392). -/
structure RowLoss where
  ues     : List (BitVec 7)
  poisons : List (BitVec 7)
  deriving DecidableEq, Repr

/-- A measurement of step 9: converged taps by DQ lane, lanes that did not converge, and the write eye width at each preset
by lane. -/
structure EqMeas where
  taps    : List (Nat × List Int)
  loose   : List Nat
  presets : List (Nat × List Nat)
  deriving DecidableEq, Repr, Inhabited

/-- The measurement a step ends with. Lanes are numbered as PHY_TRAIN_STATUS.LANE numbers them. -/
structure TrainMeas where
  /-- Sweeps by lane, first and second measurement (R328). -/
  lanes   : List (Nat × Sweep)
  again   : List (Nat × Sweep)
  /-- Step 1: duty-cycle codes by lane (40 to 49 DQS, 62 and 63 CK) and the impedance trim code. -/
  duty    : List (Nat × Int)
  trim    : Nat
  /-- Step 9, first and second measurement (R328). -/
  eq      : EqMeas
  eqAgain : EqMeas
  /-- Step 10: lanes that made an error. -/
  errors  : List Nat
  /-- Oscillator counts of each device and rank, read at the end of a passing training (R361). -/
  osc     : List (Nat × Nat)
  /-- Reads of the training row that came back CORRECTED, and UNCORRECTABLE (R379, R380). -/
  ces     : Nat
  ues     : Nat
  deriving DecidableEq, Repr, Inhabited

/-- What the Keeper reads of a subchannel's modules after training (R410): spare rows by bank group, and mode register 58
as the fields of SCH_RFM. -/
structure AfterTrain where
  /-- Spare rows of the modules at DIMM positions 0 and 1. -/
  spare0 : BitVec 32
  spare1 : BitVec 32
  raaimt : BitVec 8
  raammt : BitVec 12
  aboRfm : BitVec 4
  deriving DecidableEq, Repr

/-- The commands of the block, in the order of spec/opcode_table.json. -/
inductive Instr
  /-- REGISTER_WRITE (R4). -/
  | registerWrite (role : Role) (addr : BitVec 21) (w : Word)
  /-- REFUSED_READ (R523). -/
  | refusedRead (role : Role) (addr : BitVec 21)
  /-- READ_CLEAR (R3). -/
  | readClear (role : Role) (addr : BitVec 21)
  /-- TIM_NOW_LATCH (R41). -/
  | timNowLatch (role : Role)
  /-- BEACON_ACCEPTED (R31). -/
  | beaconAccepted (beacon : BitVec 64) (hold : Bool)
  /-- BEACON_DISCARDED (R28). -/
  | beaconDiscarded
  /-- HOLDOVER_ENTRY (R35). -/
  | holdoverEntry
  /-- LIGHT_COMMIT_GO (R43). -/
  | lightCommitGo (role : Role)
  /-- LIGHT_COMMIT_DONE (R43). -/
  | lightCommitDone
  /-- LIGHT_OCCURRENCE (R48). -/
  | lightOccurrence (i : Fin 64)
  /-- LIGHT_ON_TIME_END (R50). -/
  | lightOnTimeEnd (i : Fin 64)
  /-- IMAGE_OPEN (R84). -/
  | imageOpen (role : Role) (w : Word)
  /-- IMAGE_ABORT (R84). -/
  | imageAbort (role : Role) (w : Word)
  /-- IMAGE_WINDOW_WRITE (R80). -/
  | imageWindowWrite (role : Role) (at_ : BitVec 18) (w : Word)
  /-- IMAGE_CHECKS_DONE (R82). -/
  | imageChecksDone
  /-- IMAGE_VERDICT (R83). -/
  | imageVerdict (ok : Bool)
  /-- SIG_TIMEOUT (R83). -/
  | sigTimeout
  /-- IMAGE_APPLY_DONE (R90). -/
  | imageApplyDone
  /-- RELOAD_LIGHT_LIST_APPLY (R91). -/
  | reloadLightListApply
  /-- RD64 (R132). -/
  | rd64 (p : Fin 6) (h : Header) (upset : Option (BitVec 18))
  /-- RD256 (R132). -/
  | rd256 (p : Fin 6) (h : Header) (upset : Option (BitVec 18))
  /-- WR64 (R132). -/
  | wr64 (p : Fin 6) (h : Header) (upset : Option (BitVec 18))
  /-- WRP (R147). -/
  | wrp (p : Fin 6) (h : Header) (upset : Option (BitVec 18))
  /-- PREFETCH (R133). -/
  | prefetch (p : Fin 6) (h : Header) (upset : Option (BitVec 18))
  /-- RESERVED_OPCODE (R132). -/
  | reservedOpcode (p : Fin 6) (h : Header) (n : Fin 11)
  /-- WRITE_DATA_BEAT (R130). -/
  | writeDataBeat (p : Fin 6) (d : DataBeat)
  /-- RESPONSE_TRANSFER (R128). -/
  | responseTransfer (p : Fin 6)
  /-- PORT_ENABLE (R157). -/
  | portEnable (role : Role) (p : Fin 6) (w : Word)
  /-- PORT_DISABLE (R159). -/
  | portDisable (role : Role) (p : Fin 6) (w : PortOff)
  /-- DESCRIPTOR_FETCH_START (R118). -/
  | descriptorFetchStart
  /-- DESCRIPTOR_FETCH_RETURN (R118). -/
  | descriptorFetchReturn
  /-- EDT_INVAL_INDEX (R127). -/
  | edtInvalIndex (role : Role)
  /-- EDT_INVAL_RANGE (R127). -/
  | edtInvalRange (role : Role) (count : BitVec 17)
  /-- EDT_INVAL_ALL (R127). -/
  | edtInvalAll (role : Role)
  /-- EDT_INVAL_COMPLETE (R127). -/
  | edtInvalComplete
  /-- DESCRIPTOR_UPDATE (R124). -/
  | descriptorUpdate
  /-- SLICE_GRANT (R165). -/
  | sliceGrant (c : Fin 16) (g : GrantSight)
  /-- ARB_CUTOFF (R171). -/
  | arbCutoff (c : Fin 16)
  /-- ARB_COMMIT (R175). -/
  | arbCommit (role : Role)
  /-- HOLD_LIMIT_WRITE (R174). -/
  | holdLimitWrite (role : Role) (limit : BitVec 12) (mask : BitVec 16)
  /-- ALLOCATION_RETRY (R225). -/
  | allocationRetry (c : Fin 16)
  /-- QUEUE_INSERT (R207). -/
  | queueInsert (c : Fin 16) (write upset : Bool)
  /-- LOCAL_BOUNDARY (R185). -/
  | localBoundary
  /-- REGU_COMMIT (R201). -/
  | reguCommit (role : Role)
  /-- REGU_COMMIT_DONE (R202). -/
  | reguCommitDone
  /-- CLEAN (R243). -/
  | clean (role : Role) (w : Word)
  /-- INVAL (R243). -/
  | inval (role : Role) (w : Word)
  /-- CLEAN_INVAL (R243). -/
  | cleanInval (role : Role) (w : Word)
  /-- DISCARD (R243). -/
  | discard (role : Role) (w : Word)
  /-- MAINTENANCE_SLICE_START (R246). -/
  | maintenanceSliceStart (c : Fin 16)
  /-- MAINTENANCE_COMPLETE (R243). -/
  | maintenanceComplete
  /-- BYPASS_ENTER (R248). -/
  | bypassEnter (role : Role) (c : Fin 16) (w : Word)
  /-- BYPASS_EXIT (R248). -/
  | bypassExit (role : Role) (c : Fin 16) (w : Word)
  /-- BYPASS_ENTRY_COMPLETE (R248). -/
  | bypassEntryComplete (c : Fin 16)
  /-- BYPASS_EXIT_COMPLETE (R248). -/
  | bypassExitComplete (c : Fin 16)
  /-- SCHEDULER_SLOT (R260). -/
  | schedulerSlot (i : Fin 32) (x : SlotSight)
  /-- REFRESH_TICK (R269). -/
  | refreshTick (i : Fin 32)
  /-- PAGE_IDLE_TIMEOUT (R268). -/
  | pageIdleTimeout (i : Fin 32) (rank bg : Fin 8) (bank : Fin 4)
  /-- ALERT (R278). -/
  | alert (i : Fin 32)
  /-- ALERT_BACKOFF_END (R278). -/
  | alertBackoffEnd (i : Fin 32)
  /-- ALERT_CLASSIFICATION (R280). -/
  | alertClassification (i : Fin 32) (k : AlertClass)
  /-- WRITE_RETENTION_EXPIRY (R279). -/
  | writeRetentionExpiry (i : Fin 32)
  /-- QUIESCE (R256). -/
  | quiesce (role : Role) (i : Fin 32) (w : Word)
  /-- QUIESCE_CLEAR (R256). -/
  | quiesceClear (role : Role) (i : Fin 32) (w : Word)
  /-- REFRESH_MODE_CHANGE (R269). -/
  | refreshModeChange (role : Role) (i : Fin 32) (mode : Bool) (w : Word)
  /-- CLAUSE_SWITCH (R300). -/
  | clauseSwitch (role : Role) (i : StoreRead) (w : Word)
  /-- CLAUSE_SWITCH_DONE (R301). -/
  | clauseSwitchDone (i : Fin 32)
  /-- CLAUSE_CHECK (R304). -/
  | clauseCheck (i : Fin 32)
  /-- CLAUSE_COMPARE (R305). -/
  | clauseCompare (i : Fin 32) (parity : Bool)
  /-- HALT_RELOAD_DONE (R307). -/
  | haltReloadDone (i : StoreRead)
  /-- RESUME (R307). -/
  | resume (role : Role) (i : Fin 32) (w : Word)
  /-- SENTENCE_CALL (R312). -/
  | sentenceCall (role : Role) (i : Fin 32) (w : Word)
  /-- SENTENCE_START (R312). -/
  | sentenceStart (i : Fin 32)
  /-- SENTENCE_WAIT_END (R314). -/
  | sentenceWaitEnd (i : Fin 32)
  /-- SENTENCE_POLL (R315). -/
  | sentencePoll (i : Fin 32) (bytes : List (BitVec 8))
  /-- STEP_WAIT_EXPIRY (R281). -/
  | stepWaitExpiry (i : Fin 32)
  /-- SENTENCE_TIMEOUT (R317). -/
  | sentenceTimeout (i : Fin 32)
  /-- CK_STOP (R340). -/
  | ckStop (i : Fin 32)
  /-- CK_START (R340). -/
  | ckStart (i : Fin 32)
  /-- TRACK_FREEZE (R340). -/
  | trackFreeze (i : Fin 32)
  /-- TRACK_RESUME (R340). -/
  | trackResume (i : Fin 32)
  /-- TRAINING_REQUEST (R333). -/
  | trainingRequest (role : Role) (i : Fin 32) (w : Word)
  /-- TRAINING_START (R334). -/
  | trainingStart
  /-- TRAINING_STEP_DONE (R326). -/
  | trainingStepDone (i : Fin 32) (m : TrainMeas) (a : AfterTrain)
  /-- TRAINING_STEP_TIMEOUT (R326). -/
  | trainingStepTimeout (i : Fin 32)
  /-- TRAINING_ABORT (R337). -/
  | trainingAbort (role : Role) (i : Fin 32) (w : Word)
  /-- LOOPBACK_START (R342). -/
  | loopbackStart (role : Role) (i : Fin 32) (w : Word)
  /-- LOOPBACK_STOP (R343). -/
  | loopbackStop (role : Role) (i : Fin 32) (w : Word) (errs : BitVec 32) (lanes : BitVec 40)
  /-- LOOPBACK_DONE (R343). -/
  | loopbackDone (i : Fin 32) (errs : BitVec 32) (lanes : BitVec 40)
  /-- RATE_CHANGE (R341). -/
  | rateChange (n : Fin 16) (rate : BitVec 16)
  /-- PLL_RELOCK (R341). -/
  | pllRelock (n : Fin 16)
  /-- TRACKING_INTERVAL (R348). -/
  | trackingInterval (i : Fin 32)
  /-- RECEIVE_WINDOW_DONE (R356). -/
  | receiveWindowDone (i : Fin 32) (lane : Fin 40) (d0 d1 d2 d3 : Nat) (t1 t2 t3 t4 : Fin 3)
  /-- WINDOW_AGE_EXPIRY (R358). -/
  | windowAgeExpiry (i : Fin 32) (lane : Fin 40)
  /-- OSCILLATOR_RUN_DUE (R360). -/
  | oscillatorRunDue (i : Fin 32)
  /-- OSCILLATOR_RESULT (R361). -/
  | oscillatorResult (i : Fin 32) (counts : List (Nat × Nat))
  /-- WRITE_PROBE_DUE (R360). -/
  | writeProbeDue (i : Fin 32)
  /-- WRITE_PROBE_RESULT (R362). -/
  | writeProbeResult (i : Fin 32) (left right mid : BitVec 40)
  /-- CAL_STORE_DONE (R368). -/
  | calStoreDone (i : Fin 32) (p : Fin 5)
  /-- CAL_RESET (R368). -/
  | calReset (role : Role) (i : Fin 32) (w : Word)
  /-- CLEAR_SUSPECT (R365). -/
  | clearSuspect (role : Role) (i : Fin 32) (w : Word)
  /-- DRAM_READ_RETURN (R374). -/
  | dramReadReturn (i : Fin 32) (x : ReadBack)
  /-- MIRROR_READ_RETURN (R381). -/
  | mirrorReadReturn
  /-- BUCKET_LEAK (R383). -/
  | bucketLeak (i : Fin 32)
  /-- LOG_SELECT (R387). -/
  | logSelect (role : Role) (i : Fin 32) (index : BitVec 5)
  /-- LOG_CLEAR (R387). -/
  | logClear (role : Role) (i : Fin 32) (index : BitVec 5)
  /-- DEVICE_ERASE (R376). -/
  | deviceErase (role : Role) (i : Fin 32) (device : BitVec 5)
  /-- ERASE_END (R376). -/
  | eraseEnd (role : Role) (i : Fin 32) (device : BitVec 5)
  /-- SOFT_REPAIR (R393). -/
  | softRepair (role : Role) (i : Fin 32) (entry : BitVec 5)
  /-- HARD_REPAIR (R394). -/
  | hardRepair (role : Role) (i : Fin 32) (entry : BitVec 5)
  /-- REPAIR_END (R395). -/
  | repairEnd (i : Fin 32) (ok : Bool) (timeUs : BitVec 26) (spare : Word) (ces : List (BitVec 7 × BitVec 5))
    (lost : RowLoss)
  /-- SCRUB_REQUEST (R397). -/
  | scrubRequest (role : Role) (w : Word)
  /-- SCRUB_ABORT (R401). -/
  | scrubAbort (role : Role) (w : Word)
  /-- SCRUB_LINE_ISSUE (R398). -/
  | scrubLineIssue
  /-- SCRUB_LINE_RETURN (R399). -/
  | scrubLineReturn
  /-- INJECTION_ARM (R404). -/
  | injectionArm (role : Role) (w : Word)
  /-- INJECTION_DISARM (R404). -/
  | injectionDisarm (role : Role) (w : Word)
  /-- MODULE_DISCOVERY_DONE (R409). -/
  | moduleDiscoveryDone (m : Fin 32) (p : ModuleProbe)
  /-- ECS_READING (R410). -/
  | ecsReading (m : Fin 32) (a c : BitVec 32)
  /-- LEDGER_SECOND (R412). -/
  | ledgerSecond
  /-- RELEASE (R419). -/
  | release (role : Role) (n : Fin 16)
  /-- RELEASE_DRAIN_TIMEOUT (R419). -/
  | releaseDrainTimeout (n : Fin 16)
  /-- RELEASE_POWER_OFF_ACK (R419). -/
  | releasePowerOffAck (n : Fin 16)
  /-- ATTACH (R420). -/
  | attach (role : Role) (n : Fin 16)
  /-- ATTACH_POWER_GOOD (R420). -/
  | attachPowerGood (n : Fin 16)
  /-- ATTACH_POWER_TIMEOUT (R420). -/
  | attachPowerTimeout (n : Fin 16)
  /-- MEMORY_INIT_DONE (R420). -/
  | memoryInitDone (n : Fin 16)
  /-- RPL_RESUME (R421). -/
  | rplResume (role : Role) (n : Fin 16)
  /-- TAIL_WRITE (R425). -/
  | tailWrite (role : Role) (tail : BitVec 16)
  /-- TENDER_ENABLE (R430). -/
  | tenderEnable (role : Role) (w : Word)
  /-- TENDER_DISABLE (R427). -/
  | tenderDisable (role : Role) (w : Word)
  /-- TENDER_ABORT (R442). -/
  | tenderAbort (role : Role) (w : Word)
  /-- JOB_START (R426). -/
  | jobStart (n : Fin 4)
  /-- ZERO (R436). -/
  | zero (n : Fin 4)
  /-- SANITISE (R437). -/
  | sanitise (n : Fin 4)
  /-- COPY (R436). -/
  | copy (n : Fin 4)
  /-- MOVE (R438). -/
  | move (n : Fin 4)
  /-- TEST (R436). -/
  | test (n : Fin 4)
  /-- SUM (R436). -/
  | sum (n : Fin 4)
  /-- CLEAR (R436). -/
  | clear (n : Fin 4)
  /-- SCAN (R436). -/
  | scan (n : Fin 4)
  /-- BAD_VERB (R428). -/
  | badVerb (n : Fin 4)
  /-- TENDER_LINE_RETURN (R436). -/
  | tenderLineReturn (n : Fin 4)
  /-- CHUNK_TIMEOUT (R438). -/
  | chunkTimeout (n : Fin 4)
  /-- CHUNK_UNLOCK (R439). -/
  | chunkUnlock (n : Fin 4)
  /-- COMPLETION_WRITE_DONE (R430). -/
  | completionWriteDone (n : Fin 4)
  /-- SNAPSHOT_COMMAND (R449). -/
  | snapshotCommand (role : Role) (groups : BitVec 16)
  /-- SNAPSHOT_LATCH (R449). -/
  | snapshotLatch
  /-- SNAPSHOT_COPY_DONE (R450). -/
  | snapshotCopyDone
  /-- COUNTER_CLEAR (R454). -/
  | counterClear (role : Role) (index : BitVec 10) (clash : Nat)
  /-- LIVE_READ (R453). -/
  | liveRead (role : Role)
  /-- CHANNEL_IDLE_EXPIRY (R469). -/
  | channelIdleExpiry (n : Fin 16)
  /-- BLOCK_IDLE_EXPIRY (R469). -/
  | blockIdleExpiry
  /-- POWER_REQUEST_A0 (R471). -/
  | powerRequestA0 (role : Role) (channels : BitVec 16)
  /-- POWER_REQUEST_A1 (R470). -/
  | powerRequestA1 (role : Role) (channels : BitVec 16)
  /-- POWER_REQUEST_S1 (R470). -/
  | powerRequestS1 (role : Role) (channels : BitVec 16)
  /-- POWER_REQUEST_S2 (R470). -/
  | powerRequestS2 (role : Role) (channels : BitVec 16)
  /-- POWER_REQUEST_S3 (R470). -/
  | powerRequestS3 (role : Role) (channels : BitVec 16)
  /-- DRAIN_COMMIT (R470). -/
  | drainCommit (who : Option (Fin 64))
  /-- DRAIN_TIMEOUT (R470). -/
  | drainTimeout (who : Option (Fin 64))
  /-- STATE_ENTRY_DONE (R467). -/
  | stateEntryDone (who : Option (Fin 16))
  /-- STATE_EXIT_DONE (R476). -/
  | stateExitDone (who : Option (Fin 16)) (e : RestoreErr)
  /-- PWR_WAKE_IN (R474). -/
  | pwrWakeIn
  /-- WAKE_TIMER (R474). -/
  | wakeTimer
  /-- HOUSEKEEPING_ROUND (R485). -/
  | housekeepingRound (sites : Vector (Option (BitVec 16)) 24) (mods : Vector (Option (BitVec 16)) 96)
  /-- THERMAL_TRIP (R491). -/
  | thermalTrip (site : Fin 24)
  /-- DOMAIN_POWER_GOOD (R548). -/
  | domainPowerGood (d : PowerDomain) (level : Bool)
  /-- POWER_GOOD_TIMEOUT (R549). -/
  | powerGoodTimeout (d : PowerDomain)
  /-- POWER_LOSS (R549). -/
  | powerLoss (d : PowerDomain)
  /-- SRAM_ACK (R550). -/
  | sramAck
  /-- SRAM_ACK_TIMEOUT (R550). -/
  | sramAckTimeout
  /-- RESET (R536). -/
  | reset
  /-- AON_RESET (R537). -/
  | aonReset
  /-- START_SEQUENCE (R492). -/
  | startSequence (testEn selfTest : Bool)
  /-- START_RECORD_STORED (R497). -/
  | startRecordStored (ok : Bool)
  /-- READY (R492). -/
  | ready
  /-- START_WATCHDOG (R494). -/
  | startWatchdog
  /-- READY_HELD (R500). -/
  | readyHeld
  /-- HARBOUR_CLEAR (R504). -/
  | harbourClear (role : Role) (w : Word)
  /-- FAULT_MESSAGE_TRANSFER (R512). -/
  | faultMessageTransfer
  /-- FENCE_INPUT (R517). -/
  | fenceInput (u : FenceUnit) (level : Bool)
  /-- FENCE_SET (R515). -/
  | fenceSet (role : Role) (units : FenceMask)
  /-- FENCE_CLEAR (R517). -/
  | fenceClear (role : Role) (units : FenceMask)
  /-- RECORD_CLEAR (R511). -/
  | recordClear (role : Role) (index : BitVec 7)
  /-- RECORD_CLEAR_ALL (R511). -/
  | recordClearAll (role : Role) (index : BitVec 7)
  /-- AUDIT_STORE (R530). -/
  | auditStore
  /-- AUDIT_CLEAR (R532). -/
  | auditClear (role : Role) (w : Word)
  /-- AUDIT_CLEAR_DONE (R532). -/
  | auditClearDone
  /-- FACTORY_TRIM_WRITE (R584). -/
  | factoryTrimWrite (role : Role) (at_ : BitVec 13) (w : Word)
  /-- LEDGER_STORE_DONE (R411). -/
  | ledgerStoreDone (m : Fin 32)
  /-- PLL_LOCK_TIMEOUT (R492). -/
  | pllLockTimeout (n : Fin 16)
  deriving DecidableEq, Repr

end Sys2Proof
end

