-- ==== Sys2Proof/Decode.lean ====
section
/-! DEFINITION. The command that a word of spec/opcode_table.json spells. The table gives no row any bits: a command of this
block is an event at its boundary or inside it, and not an instruction word. -/

namespace Sys2Proof

/-- The command spelled by a word of the table's bits: no row has bits, so none is spelled. -/
def decodeTableWord (_nbits _w : Nat) : Option Instr := none

end Sys2Proof
end

