-- ==== Sys2Proof/Config.lean ====
section
/-! DEFINITION. Free values: what spec/ leaves open although the block goes on. Each is a constant without a body, so
that no proof can rest on a value of it; it is applied to `Block.fresh`, the counter of free values drawn so far, or to
the operands it depends on. -/

namespace Sys2Proof.Machine

/-- FCLK cycles from a read's header to its first beat (event RD_LAT of R446). -/
opaque Config.readLatency : Nat → Nat

/-- FCLK cycles of one port or slice in one TCLK period (events CYCLES of R446; FCLK may change, R538). -/
opaque Config.fclkCycles : Nat → Nat

/-- Whether a unit's sample-capture register is occupied when a counted event could be captured (R460). -/
opaque Config.captureBusy : Nat → Bool

/-- The sentence number that a Keeper program, given as its KEEPER_PROG section, names for a purpose (R78 check 9, R280,
R360). -/
opaque Config.keeperSentence : List Byte → Nat → Nat

/-- What a loopback that an abort ends had counted up to it: errors, and the lanes that made one (R343). -/
opaque Config.loopSeen : Nat → Nat

/-- The argument byte of SNT_INIT that stands for the VrefDQ or VrefCA codes of a subchannel's ranks and devices, where they
differ: R326 passes them as one argument each. -/
opaque Config.vrefArg : List Nat → Nat

/-- The levels that the encoded chip-select mode gives the two DCS lanes of a DIMM position for a rank (R321): the DDR5 RCD
specification defines them. -/
opaque Config.encodedCs : Nat → Nat

/-- Whether a slice with some DRAM reads and some write-backs outstanding accepts a new transfer: R170 says that full queues
keep it from doing so and states no size. -/
opaque Config.sliceTakes : Nat → Nat → Bool

/-- The change of DQS-to-DQ delay, in units of 2^-16 fine codes, that a device's oscillator count shows against its baseline at a data
rate: the relation of the DDR5 standard (R361). -/
opaque Config.oscDelay : Nat → Nat → Nat → Int

/-- Whether the last bit of a local-time increment is rounded up: the rounding of the product in the advance of the local
time is not stated (02, discipline of the local time). -/
opaque Config.tickRound : Nat → Bool

/-- Byte of the NVM that a store cut short by a reset leaves at an offset of its copy (R369, R536), and which records of the
audit ring a clear cut short had reached (R532). -/
opaque Config.tornByte : Nat → Nat → Byte

/-- Whether the factory-trim partition, read at step 3 of start, passes its CRC: its layout is not stated (R582, R584). -/
opaque Config.trimsValid : List Byte → Bool

/-- Mode-register values, register numbers, operands and a run time that the DDR5 standard assigns (R589). -/
opaque Config.ddr5 : Nat → Nat

/-- The block's built-in PHY initial values of harbour mode (R502), in the layout of a PHY_INIT section. -/
opaque Config.builtinPhy : Nat → Nat

/-- The window length, ns, that the regulator's computations use while the working light list has no enabled REG_WINDOW
entry: R183 takes W from that entry and states none without it. -/
opaque Config.windowWithout : Nat

/-- What a scratch sector holds after its cache group has lost and regained power (R549): a draw, and the sector. -/
opaque Config.lostScratch : Nat → Nat → BitVec 512

end Sys2Proof.Machine
end

