-- ==== Sys2Proof/Machine/Codes.lean ====
section
/-! DEFINITION. Byte lists and the checksums of R63, R111 and R526: little-endian reading and writing, CRC-16/IBM-3740,
CRC-32/ISO-HDLC and CRC-64/XZ. -/

namespace Sys2Proof.Machine

/-- The little-endian value of a byte list. -/
def leVal : List Byte → Nat
  | [] => 0
  | b :: t => b.toNat + 256 * leVal t

/-- `n` bytes of `v`, least significant first. -/
def leBytes : Nat → Nat → List Byte
  | 0, _ => []
  | n + 1, v => BitVec.ofNat 8 v :: leBytes n (v / 256)

/-- Bytes `off` to `off + n - 1` of a list, as a little-endian value; bytes beyond its end count as absent. -/
def leAt (bs : List Byte) (off n : Nat) : Nat := leVal ((bs.drop off).take n)

/-- Bits `hi` to `lo` of a value. -/
def bitsOf (v hi lo : Nat) : Nat := (v >>> lo) % 2 ^ (hi - lo + 1)

/-- Bit `i` of a value. -/
def bitOf (v i : Nat) : Bool := (v >>> i) % 2 == 1

/-- A mask of indices. -/
def maskOf (l : List Nat) : Nat := l.foldl (fun m n => m ||| (1 <<< n)) 0

/-- Replace bits `hi` to `lo` of `v` by `x`. -/
def putBits (v hi lo x : Nat) : Nat :=
  v - (bitsOf v hi lo <<< lo) + ((x % 2 ^ (hi - lo + 1)) <<< lo)

/-- One bit step of a reflected CRC. -/
def crcStepR (poly c : Nat) : Nat := if c % 2 = 1 then (c / 2) ^^^ poly else c / 2

/-- `n` bit steps of a reflected CRC. -/
def crcStepsR (poly : Nat) : Nat → Nat → Nat
  | 0, c => c
  | n + 1, c => crcStepsR poly n (crcStepR poly c)

/-- A reflected CRC over bytes, from register value `c`. -/
def crcR (poly : Nat) : List Byte → Nat → Nat
  | [], c => c
  | b :: t, c => crcR poly t (crcStepsR poly 8 (c ^^^ b.toNat))

/-- CRC-32/ISO-HDLC (R63). -/
def crc32 (bs : List Byte) : Nat := crcR 0xEDB88320 bs 0xFFFFFFFF ^^^ 0xFFFFFFFF

/-- CRC-64/XZ (R63). -/
def crc64 (bs : List Byte) : Nat := crcR 0xC96C5795D7870F42 bs 0xFFFFFFFFFFFFFFFF ^^^ 0xFFFFFFFFFFFFFFFF

/-- One bit step of CRC-16/IBM-3740. -/
def crcStep16 (c : Nat) : Nat := (if c / 0x8000 % 2 = 1 then (c * 2) ^^^ 0x1021 else c * 2) % 0x10000

/-- `n` bit steps of CRC-16/IBM-3740. -/
def crcSteps16 : Nat → Nat → Nat
  | 0, c => c
  | n + 1, c => crcSteps16 n (crcStep16 c)

/-- CRC-16 over bytes from register value `c`. -/
def crc16From : List Byte → Nat → Nat
  | [], c => c
  | b :: t, c => crc16From t (crcSteps16 8 (c ^^^ (b.toNat * 256)))

/-- CRC-16/IBM-3740 (R111). -/
def crc16 (bs : List Byte) : Nat := crc16From bs 0xFFFF

/-- Even parity: the exclusive or of the low `n` bits of `v`. -/
def xorBits (v : Nat) : Nat → Bool
  | 0 => false
  | n + 1 => xor (bitOf v n) (xorBits v n)

/-- The number of ones among the low `n` bits of `v`. -/
def popCount (v : Nat) : Nat → Nat
  | 0 => 0
  | n + 1 => (v >>> n) % 2 + popCount v n

/-- A signed value as a two's complement field of `w` bits. -/
def ofSigned (w : Nat) (i : Int) : Nat := (i % (2 : Int) ^ w).toNat

/-- The signed value of a two's complement field of `w` bits. -/
def toSigned (w : Nat) (v : Nat) : Int := if v < 2 ^ (w - 1) then (v : Int) else (v : Int) - (2 : Int) ^ w

/-- How much later a 64-bit time is than another, modulo 2^64. -/
def timeSince (a b : Nat) : Nat := (a + 2 ^ 64 - b) % 2 ^ 64

/-- A 64-bit time less another, as a signed number (R31). -/
def timeDiff (a b : Nat) : Int := toSigned 64 (timeSince a b)

/-- `v` kept within `lo` and `hi`. -/
def clampInt (lo hi v : Int) : Int := if v < lo then lo else if hi < v then hi else v

/-- Division rounded up. -/
def ceilDiv (a b : Nat) : Nat := (a + b - 1) / b

/-- The indices below `n` that satisfy `p`, ascending. -/
def indicesWhere (n : Nat) (p : Nat → Bool) : List Nat := (List.range n).filter p

/-- Keep the entries of a list that fail `p`, and find the first that passes. -/
def takeFirst {α : Type} (p : α → Bool) : List α → Option (α × List α)
  | [] => none
  | a :: t => if p a then some (a, t) else
      match takeFirst p t with
      | some (x, r) => some (x, a :: r)
      | none => none

/-- Change the first entry that satisfies `p`. -/
def updFirst {α : Type} (p : α → Bool) (f : α → α) : List α → List α
  | [] => []
  | a :: t => if p a then f a :: t else a :: updFirst p f t

/-- Apply `f` to the last element that satisfies `p`. -/
def updLast {α : Type} (p : α → Bool) (f : α → α) (l : List α) : List α := (updFirst p f l.reverse).reverse

/-- Fold a state through a function over a list of indices. -/
def forEach {σ α : Type} (l : List α) (s : σ) (f : σ → α → σ) : σ := l.foldl f s

end Sys2Proof.Machine
end

