-- ==== Sys2Proof/Machine/Tab.lean ====
section
/-! DEFINITION. Sparse tables: the plain-data form in which every replicated part of the block is held. A table is a
list of (index, value) pairs with rising indices; an index it does not list holds the type's default value, which is
the value at reset. -/

namespace Sys2Proof.Machine

/-- A sparse table over natural-number indices. -/
abbrev Tab (α : Type) := List (Nat × α)

/-- The value at index `k`; the default where the table lists none. -/
def Tab.get {α : Type} [Inhabited α] : Tab α → Nat → α
  | [], _ => default
  | (j, v) :: t, k => if j = k then v else Tab.get t k

/-- Drop every entry of index `k`. -/
def Tab.drop {α : Type} : Tab α → Nat → Tab α
  | [], _ => []
  | (j, v) :: t, k => if j = k then Tab.drop t k else (j, v) :: Tab.drop t k

/-- Put an entry before the first entry of a higher index. -/
def Tab.put {α : Type} : Tab α → Nat → α → Tab α
  | [], k, v => [(k, v)]
  | (j, w) :: t, k, v => if k < j then (k, v) :: (j, w) :: t else (j, w) :: Tab.put t k v

/-- Set index `k` to `v`; the default value leaves no entry. -/
def Tab.set {α : Type} [Inhabited α] [DecidableEq α] (t : Tab α) (k : Nat) (v : α) : Tab α :=
  if v = default then t.drop k else (t.drop k).put k v

/-- Apply `f` to the value at index `k`. -/
def Tab.upd {α : Type} [Inhabited α] [DecidableEq α] (t : Tab α) (k : Nat) (f : α → α) : Tab α :=
  t.set k (f (t.get k))

/-- The indices of a table rise strictly from above `lo`, and no listed value is the default. -/
def Tab.wfFrom {α : Type} [Inhabited α] [DecidableEq α] : Nat → Tab α → Bool
  | _, [] => true
  | lo, (j, v) :: t => decide (lo ≤ j) && decide (v ≠ default) && Tab.wfFrom (j + 1) t

/-- The canonical form: strictly rising indices, no entry equal to the default. Equal tables are then equal lists. -/
def Tab.wf {α : Type} [Inhabited α] [DecidableEq α] (t : Tab α) : Bool := Tab.wfFrom 0 t

end Sys2Proof.Machine
end

