-- ==== Sys2Proof/Machine/RegMap.lean ====
section
/-! DEFINITION. The register map (spec/23_register_map.md R576 to R578 and the field maps of every chapter):
one name per register, one descriptor per field, and the catalogue of every word of the management space.
The tables were set out from the field maps of spec/ by script; a field whose Reset column reads `image` resets
to 0 (R579). -/

namespace Sys2Proof.Machine

/-- Access codes of R1. -/
inductive Access
  | ro | rw | w1c | wo | rc
  deriving DecidableEq, Repr

/-- Change classes of R4; `none` where the field map has a dash. -/
inductive Change
  | none | i | q | s | l
  deriving DecidableEq, Repr

/-- The Role column of a field map (R6): the roles that may write the field. -/
inductive Writers
  | nobody | maker | installer | operator | both
  deriving DecidableEq, Repr

/-- One field of one register instance: byte offset of the word, lowest bit, width, and value at RST_N (R579). -/
structure Fld where
  off   : Nat
  lo    : Nat
  width : Nat
  rst   : Nat
  deriving DecidableEq, Repr

/-- The key under which a field's value is held: one key per bit position of the management space. -/
def Fld.key (f : Fld) : Nat := f.off * 32 + f.lo

/-- Field `f`'s value. A held 0 stands for the reset value and n + 1 for the value n, so that a field nothing has written
has no entry. -/
def fldGet (r : Tab Nat) (f : Fld) : Nat :=
  match r.get f.key with
  | 0 => f.rst
  | n + 1 => n

/-- Set field `f` to `v`, cut to the field's width. -/
def fldSet (r : Tab Nat) (f : Fld) (v : Nat) : Tab Nat :=
  r.set f.key (if v % 2 ^ f.width = f.rst then 0 else v % 2 ^ f.width + 1)

/-- A field in the catalogue: its place in the word, access, class, writers and reset value. -/
structure FieldInfo where
  lo     : Nat
  width  : Nat
  acc    : Access
  cls    : Change
  writers : Writers
  rst    : Nat
  deriving DecidableEq, Repr

/-- Every register of the management space by its name in the manual. -/
inductive RegName
  | TIM_CTL | TIM_STATUS | LGT_CTL | LGT_STATUS | IMG_CTL | IMG_STATUS | IMG_DETAIL | EDT_CFG | EDT_CTL | EDT_INVAL
  | EDT_INVAL_STATUS | EDT_STATUS | EDT_SET_STATUS | PRT_CFG | PRT_CTL | PRT_STATUS | PRT_MID | PRT_OUT | ARB_PREC
  | ARB_COMMIT | ARB_HOLD_LIMIT | ARB_CUTOFF | ARB_CTL | REGU_CTL | REGU_STATUS | REGU_COMMIT_STATUS | REGU_CLASS
  | REGU_GT_CTL | CCH_CFG | CCH_CTL | CCH_STATUS | CCH_ERR | CCH_MNT_CTL | CCH_MNT_STATUS | SCH_CTL | SCH_STATUS
  | SCH_REF | SCH_REF_STATUS | SCH_REF_PARAM | SCH_RFM | SCH_THR | CLS_CTL | CLS_STATUS | CLS_VIOL | SNT_CALL_CTL
  | SNT_CALL_STATUS | SNT_RUN | PHY_CTL | PHY_STATUS | PHY_TRAIN_CTL | PHY_TRAIN_STATUS | PHY_DQ | PHY_DFE
  | PHY_DQS | PHY_LOOP_CTL | PHY_LOOP_STATUS | KPR_TRAIN | CAL_CTL | CAL_STATUS | CAL_WIN | CAL_TRK | CAL_TEMP
  | CAL_EDGE | ECC_CTL | ECC_CE_CFG | ECC_STATUS | ECC_ERASE | ECC_REPAIR_CTL | ECC_REPAIR_STATUS | ECC_INJ_CTL
  | ECC_INJ_PAT | SCB_CTL | SCB_STATUS | MOD_CTL | MOD_STATUS | MOD_RPL_CTL | MOD_RPL_STATUS | MOD_STATE | TND_CTL
  | TND_STATUS | TND_CFG | CTR_CFG | CTR_FILT | CTR_SNAP_STATUS | CTR_STATUS | PWR_CTL | PWR_CMD | PWR_STATUS
  | PWR_CH_STATUS | THM_STATUS | THM_SITE | THM_ZONE | THM_MOD | HBR_STATUS | HBR_REASON | HBR_CTL | HBR_WDOG
  | HBR_CH_STATUS | FLT_CTL | FLT_STATUS | FLT_REC_CLR | FLT_SEV | ROL_LAST | AUD_CTL | AUD_STATUS | GLB_INT_PEND
  | GLB_ID | GLB_REV | GLB_CFG_REJECT | GLB_INT_LINE | NVM_CTL | NVM_STATUS | KPR_CTL | KPR_STATUS | KPR_PROG
  | TIM_NOW_LO | TIM_NOW_HI | TIM_OFFSET | TIM_RATE | TIM_STEP_CNT | TIM_BAD_CNT | TIM_UNIT_ID | LGT_START_LO
  | LGT_START_HI | LGT_PERIOD | LGT_ON | LGT_PHASE | LGT_TARGET | LGT_ARG | LGT_COMMIT | LGT_COMMIT_STATUS
  | IMG_COUNT | IMG_LOADED_ID | IMG_RELOAD_ID | IMG_RELOAD_CNT | EDT_BASE_LO | EDT_BASE_HI | EDT_INVAL_FIRST
  | EDT_ERR_INDEX | EDT_DENY_CNT | EDT_DECODE_CNT | EDT_APERTURE | EDT_SET_RB | PRT_DENY_CNT | ARB_PREC_ACTIVE
  | ARB_CUTOFF_CNT | REGU_COMMIT | REGU_ADMIT | REGU_DELIV_IMG | REGU_DELIV_MEAS | REGU_LIMIT | REGU_TOTAL
  | REGU_SCALE | REGU_DLMISS_CNT | REGU_ARRIVE_LATE_CNT | REGU_MISS | REGU_GT_GUAR | REGU_GT_CEIL | REGU_GT_EFF
  | REGU_GT_SERVED | REGU_GT_CNT | REGU_GT_LAST | CCH_MNT_BASE_LO | CCH_MNT_BASE_HI | CCH_MNT_LIMIT_LO
  | CCH_MNT_LIMIT_HI | CCH_MNT_SETS | CCH_MNT_WAYS | CCH_MNT_WB_CNT | CCH_MNT_REFUSED_CNT | CCH_PIN_DROP_CNT
  | CCH_PIN_FULL_CNT | CCH_PIN_PORTS | SCH_URGENT | SCH_PAGE | SCH_DRAIN | SCH_ABO | SCH_SNT | SCH_REPLAY
  | SCH_REF_FORCED_CNT | SCH_ABO_CNT | SCH_REPLAY_CNT | CLS_SLOT | CLS_BIN | CLS_LAT | CLS_VIOL_CNT | CLS_WINDOW
  | CLS_SHADOW | SNT_PRESENT_LO | SNT_PRESENT_HI | SNT_CALL_ARG | SNT_CALL_RESULT | SNT_ABORT_CNT | PHY_CA | PHY_CS
  | PHY_CK | PHY_TRAIN_FAIL_LO | PHY_TRAIN_FAIL_HI | PHY_LOOP_ERR_CNT | PHY_LOOP_LANES_LO | PHY_LOOP_LANES_HI
  | PHY_TRAIN_TIME | PHY_IMP | PHY_RATE | CAL_POINT_LO | CAL_POINT_HI | CAL_PARAM | CAL_STEP_CNT | CAL_DISAGREE_CNT
  | CAL_NVM_BAD_CNT | ECC_PERSIST | ECC_LEAK_US | ECC_CE_CNT | ECC_UE_CNT | ECC_POISON_READ_CNT | ECC_OVF_CNT
  | ECC_LOG_LOST_CNT | ECC_ERASE_CNT | ECC_LOG_SEL | ECC_LOG_DATA | ECC_UE_REC | ECC_REPAIR_CODE | ECC_REPAIR_RES
  | ECC_INJ_ADDR_LO | ECC_INJ_ADDR_HI | ECC_INJ_STATUS | SCB_RATE | SCB_RANGE | SCB_SUM | MOD_SB_CFG | MOD_RPL_CFG
  | MOD_ID_MFR | MOD_ID_SERIAL | MOD_CAPS | MOD_POWERED | MOD_HOT | MOD_CE | MOD_PERSIST | MOD_UE | MOD_OVF
  | MOD_REASON | TND_RING_BASE_LO | TND_RING_BASE_HI | TND_CMPL_BASE_LO | TND_CMPL_BASE_HI | TND_RING_SIZE
  | TND_TAIL | TND_HEAD | TND_LANE | TND_LANE_CHUNK | CTR_VAL_LO | CTR_VAL_HI | CTR_CTL | CTR_SNAP
  | CTR_SNAP_TIME_LO | CTR_SNAP_TIME_HI | CTR_CLEAR | CTR_LIVE_SEL | CTR_LIVE_LO | CTR_LIVE_MID | CTR_LIVE_HI
  | CTR_OVF | CTR_RANGE | CTR_SAMPLE_WR | CTR_SAMPLE_LOST_CNT | CTR_SNAP_DROP_CNT | CTR_SLOT_SNAP | CTR_SAMPLE
  | PWR_IDLE_A1 | PWR_IDLE_S1 | PWR_IDLE_S2 | PWR_IDLE_S3 | PWR_DRAIN | PWR_CMD_STATUS | PWR_WAKE | THM_CTL
  | THM_ROUND_CNT | THM_RB | FLT_MSG_LOST_CNT | FLT_WR_LOST_CNT | FLT_FENCE_SET_SUB | FLT_FENCE_CLR_SUB
  | FLT_FENCE_SUB | FLT_FENCE_IN_SUB | FLT_FENCE_SET_SLICE | FLT_FENCE_CLR_SLICE | FLT_FENCE_SLICE
  | FLT_FENCE_IN_SLICE | FLT_FENCE_SET_PORT | FLT_FENCE_CLR_PORT | FLT_FENCE_PORT | FLT_FENCE_IN_PORT | FLT_REC
  | ROL_N_WRITE | ROL_O_WRITE | ROL_O_AUDIT | ROL_REFUSED_CNT | AUD_FLAGS | AUD_WRAPS | AUD_LOST_CNT
  deriving DecidableEq, Repr

/-- A register or replicated register: name, base offset, (stride, count) of each index, role-policy group of R576,
and its fields. -/
structure RegInfo where
  name   : RegName
  base   : Nat
  dims   : List (Nat × Nat)
  group  : Nat
  fields : List FieldInfo
  deriving DecidableEq, Repr

/-- Severity defaults of R505 for the sources listed there, and whether the source is fixed. -/
def sourceDefault : Nat → Option (Nat × Bool)
  | 0 => some (3, true) | 1 => some (0, false) | 2 => some (1, false) | 3 => some (0, true) | 4 => some (2, false)
  | 5 => some (1, false) | 16 => some (2, false) | 17 => some (1, false) | 18 => some (0, false) | 19 => some (1, false)
  | 20 => some (2, false) | 21 => some (2, false) | 22 => some (2, false) | 23 => some (1, false) | 24 => some (1, false)
  | 32 => some (2, false) | 33 => some (2, false) | 48 => some (2, false) | 49 => some (1, false) | 50 => some (1, false)
  | 51 => some (2, false) | 52 => some (2, false) | 53 => some (1, false) | 54 => some (0, true) | 55 => some (2, false)
  | 56 => some (2, false) | 57 => some (1, false) | 58 => some (1, false) | 59 => some (2, false) | 60 => some (1, false)
  | 61 => some (2, false) | 64 => some (2, false) | 65 => some (0, false) | 66 => some (1, false) | 67 => some (2, false)
  | 72 => some (2, false) | 73 => some (1, false) | 80 => some (0, true) | 81 => some (1, false) | 82 => some (2, false)
  | 83 => some (3, true)
  | _ => none

/-- Constants of the part fixed by the index (the "by port", "by site" and "by code" entries of R579):
PRT_CFG.PARTNER, THM_SITE.ZONE (R484) and FLT_SEV (R505). -/
def indexReset (n : RegName) (lo i rst : Nat) : Nat :=
  match n, lo with
  | .PRT_CFG, 0 => if i < 4 then 0 else i - 3
  | .THM_SITE, 24 => if i < 16 then i / 4 else if i < 18 then 4 else if i < 20 then 5 else if i < 23 then 6 else 7
  | .FLT_SEV, 31 => match sourceDefault i with | some (_, true) => 1 | _ => 0
  | .FLT_SEV, 30 => match sourceDefault i with | some _ => 1 | none => 0
  | .FLT_SEV, 0 => match sourceDefault i with | some (v, _) => v | none => 0
  | _, _ => rst

namespace Reg

def TIM_CTL_LOSS_LIMIT : Fld := ⟨0x60000, 16, 8, 4⟩
def TIM_CTL_INTERVAL_US : Fld := ⟨0x60000, 4, 12, 100⟩
def TIM_CTL_INT_STEP : Fld := ⟨0x60000, 3, 1, 0⟩
def TIM_CTL_INT_HOLD : Fld := ⟨0x60000, 2, 1, 0⟩
def TIM_CTL_INT_BAD : Fld := ⟨0x60000, 1, 1, 0⟩
def TIM_CTL_INT_BACK : Fld := ⟨0x60000, 0, 1, 0⟩
def TIM_STATUS_HOLD_ERR_US : Fld := ⟨0x60004, 16, 16, 0⟩
def TIM_STATUS_BACKSLEW : Fld := ⟨0x60004, 11, 1, 0⟩
def TIM_STATUS_BAD_BEACON : Fld := ⟨0x60004, 10, 1, 0⟩
def TIM_STATUS_HOLD_ENTERED : Fld := ⟨0x60004, 9, 1, 0⟩
def TIM_STATUS_STEPPED : Fld := ⟨0x60004, 8, 1, 0⟩
def TIM_STATUS_SRC_HOLD : Fld := ⟨0x60004, 3, 1, 0⟩
def TIM_STATUS_STATE : Fld := ⟨0x60004, 0, 3, 0⟩
def LGT_CTL_COUNT (i : Nat) : Fld := ⟨0x61014 + 0x20 * i, 16, 16, 0⟩
def LGT_CTL_ENABLE (i : Nat) : Fld := ⟨0x61014 + 0x20 * i, 8, 1, 0⟩
def LGT_CTL_UNIT (i : Nat) : Fld := ⟨0x61014 + 0x20 * i, 4, 1, 0⟩
def LGT_CTL_VERB (i : Nat) : Fld := ⟨0x61014 + 0x20 * i, 0, 4, 0⟩
def LGT_STATUS_DONE (i : Nat) : Fld := ⟨0x61800 + 0x4 * i, 28, 1, 0⟩
def LGT_STATUS_ACTIVE (i : Nat) : Fld := ⟨0x61800 + 0x4 * i, 27, 1, 0⟩
def LGT_STATUS_BREACH (i : Nat) : Fld := ⟨0x61800 + 0x4 * i, 26, 1, 0⟩
def LGT_STATUS_UNSYNC (i : Nat) : Fld := ⟨0x61800 + 0x4 * i, 25, 1, 0⟩
def LGT_STATUS_LATE (i : Nat) : Fld := ⟨0x61800 + 0x4 * i, 24, 1, 0⟩
def LGT_STATUS_SKIP (i : Nat) : Fld := ⟨0x61800 + 0x4 * i, 16, 8, 0⟩
def LGT_STATUS_REMAIN (i : Nat) : Fld := ⟨0x61800 + 0x4 * i, 0, 16, 0⟩
def IMG_CTL_SIG_TIMEOUT_MS : Fld := ⟨0x400, 16, 16, 100⟩
def IMG_CTL_INT_END : Fld := ⟨0x400, 8, 1, 0⟩
def IMG_CTL_ABORT : Fld := ⟨0x400, 1, 1, 0⟩
def IMG_CTL_OPEN : Fld := ⟨0x400, 0, 1, 0⟩
def IMG_STATUS_STATE : Fld := ⟨0x404, 28, 4, 0⟩
def IMG_STATUS_OPEN_REFUSED : Fld := ⟨0x404, 27, 1, 0⟩
def IMG_STATUS_INDEX : Fld := ⟨0x404, 16, 8, 255⟩
def IMG_STATUS_CODE : Fld := ⟨0x404, 0, 8, 0⟩
def IMG_DETAIL_OFFSET : Fld := ⟨0x408, 12, 20, 0⟩
def IMG_DETAIL_DETAIL : Fld := ⟨0x408, 0, 12, 0⟩
def EDT_CFG_LOC : Fld := ⟨0x30000, 20, 1, 0⟩
def EDT_CFG_GRANULE : Fld := ⟨0x30000, 18, 2, 0⟩
def EDT_CFG_ENTRIES : Fld := ⟨0x30000, 0, 17, 0⟩
def EDT_CTL_INT_INVAL : Fld := ⟨0x3000c, 8, 1, 0⟩
def EDT_CTL_INT_EN : Fld := ⟨0x3000c, 0, 4, 0⟩
def EDT_INVAL_MODE : Fld := ⟨0x30014, 30, 2, 0⟩
def EDT_INVAL_COUNT : Fld := ⟨0x30014, 0, 17, 0⟩
def EDT_INVAL_STATUS_ACCEPT_SEQ : Fld := ⟨0x30018, 16, 16, 0⟩
def EDT_INVAL_STATUS_DONE_SEQ : Fld := ⟨0x30018, 0, 16, 0⟩
def EDT_STATUS_BAD_DESC : Fld := ⟨0x30020, 3, 1, 0⟩
def EDT_STATUS_BAD_CRC : Fld := ⟨0x30020, 2, 1, 0⟩
def EDT_STATUS_FETCH_ERR : Fld := ⟨0x30020, 1, 1, 0⟩
def EDT_STATUS_CACHE_UE : Fld := ⟨0x30020, 0, 1, 0⟩
def EDT_SET_STATUS_SHORT (i : Nat) : Fld := ⟨0x30100 + 0x4 * i, 17, 1, 0⟩
def EDT_SET_STATUS_PRESENT (i : Nat) : Fld := ⟨0x30100 + 0x4 * i, 16, 1, 0⟩
def EDT_SET_STATUS_FENCED (i : Nat) : Fld := ⟨0x30100 + 0x4 * i, 0, 16, 0⟩
def PRT_CFG_RD_BEATS (i : Nat) : Fld := ⟨0x10000 + 0x800 * i, 16, 9, indexReset .PRT_CFG 16 i 256⟩
def PRT_CFG_WR_LIMIT (i : Nat) : Fld := ⟨0x10000 + 0x800 * i, 8, 8, indexReset .PRT_CFG 8 i 128⟩
def PRT_CFG_PARTNER (i : Nat) : Fld := ⟨0x10000 + 0x800 * i, 0, 2, indexReset .PRT_CFG 0 i 0⟩
def PRT_CTL_INT_EN (i : Nat) : Fld := ⟨0x10004 + 0x800 * i, 4, 4, 0⟩
def PRT_CTL_ENABLE (i : Nat) : Fld := ⟨0x10004 + 0x800 * i, 0, 1, 0⟩
def PRT_STATUS_STATE (i : Nat) : Fld := ⟨0x10008 + 0x800 * i, 30, 2, 0⟩
def PRT_STATUS_TAG_RSVD (i : Nat) : Fld := ⟨0x10008 + 0x800 * i, 3, 1, 0⟩
def PRT_STATUS_BAD_OPCODE (i : Nat) : Fld := ⟨0x10008 + 0x800 * i, 2, 1, 0⟩
def PRT_STATUS_DATA_PAR (i : Nat) : Fld := ⟨0x10008 + 0x800 * i, 1, 1, 0⟩
def PRT_STATUS_HDR_PAR (i : Nat) : Fld := ⟨0x10008 + 0x800 * i, 0, 1, 0⟩
def PRT_MID_MASK (i : Nat) : Fld := ⟨0x1000c + 0x800 * i, 16, 10, 0⟩
def PRT_MID_BASE (i : Nat) : Fld := ⟨0x1000c + 0x800 * i, 0, 10, 0⟩
def PRT_OUT_BEATS_RESERVED (i : Nat) : Fld := ⟨0x10010 + 0x800 * i, 16, 9, 0⟩
def PRT_OUT_WR_OUT (i : Nat) : Fld := ⟨0x10010 + 0x800 * i, 0, 8, 0⟩
def ARB_PREC_SCRUB : Fld := ⟨0x18000, 16, 2, 0⟩
def ARB_PREC_KEEPER : Fld := ⟨0x18000, 14, 2, 3⟩
def ARB_PREC_TENDER : Fld := ⟨0x18000, 12, 2, 1⟩
def ARB_PREC_P5 : Fld := ⟨0x18000, 10, 2, 3⟩
def ARB_PREC_P4 : Fld := ⟨0x18000, 8, 2, 1⟩
def ARB_PREC_P3_P0 : Fld := ⟨0x18000, 0, 8, 170⟩
def ARB_COMMIT_GO : Fld := ⟨0x18008, 0, 1, 0⟩
def ARB_HOLD_LIMIT_LIMIT : Fld := ⟨0x1800c, 0, 12, 256⟩
def ARB_CUTOFF_LAST_REQ : Fld := ⟨0x18010, 28, 4, 0⟩
def ARB_CUTOFF_LAST_SLICE : Fld := ⟨0x18010, 24, 4, 0⟩
def ARB_CUTOFF_REQ : Fld := ⟨0x18010, 0, 9, 0⟩
def ARB_CTL_INT_CUTOFF : Fld := ⟨0x18014, 0, 1, 0⟩
def REGU_CTL_DL_LIMIT : Fld := ⟨0x20000, 16, 16, 0⟩
def REGU_CTL_INT_DLMISS : Fld := ⟨0x20000, 7, 1, 0⟩
def REGU_CTL_INT_CAPLOST : Fld := ⟨0x20000, 6, 1, 0⟩
def REGU_CTL_INT_MISS : Fld := ⟨0x20000, 5, 1, 0⟩
def REGU_CTL_SCALE : Fld := ⟨0x20000, 1, 1, 0⟩
def REGU_CTL_ENABLE : Fld := ⟨0x20000, 0, 1, 0⟩
def REGU_STATUS_SCALING : Fld := ⟨0x20004, 8, 1, 0⟩
def REGU_STATUS_LOCAL : Fld := ⟨0x20004, 4, 1, 0⟩
def REGU_STATUS_DLMISS : Fld := ⟨0x20004, 3, 1, 0⟩
def REGU_STATUS_MISS : Fld := ⟨0x20004, 2, 1, 0⟩
def REGU_STATUS_CAP_LOST : Fld := ⟨0x20004, 1, 1, 0⟩
def REGU_STATUS_SCALED : Fld := ⟨0x20004, 0, 1, 0⟩
def REGU_COMMIT_STATUS_BUSY : Fld := ⟨0x2000c, 31, 1, 0⟩
def REGU_COMMIT_STATUS_PENDING : Fld := ⟨0x2000c, 30, 1, 0⟩
def REGU_COMMIT_STATUS_INDEX : Fld := ⟨0x2000c, 16, 8, 255⟩
def REGU_COMMIT_STATUS_CODE : Fld := ⟨0x2000c, 0, 4, 0⟩
def REGU_CLASS_WEIGHT (i : Nat) : Fld := ⟨0x20080 + 0x4 * i, 24, 8, 1⟩
def REGU_CLASS_WAY_QUOTA (i : Nat) : Fld := ⟨0x20080 + 0x4 * i, 16, 5, 0⟩
def REGU_CLASS_BUOY_WR (i : Nat) : Fld := ⟨0x20080 + 0x4 * i, 8, 6, 48⟩
def REGU_CLASS_BUOY_RD (i : Nat) : Fld := ⟨0x20080 + 0x4 * i, 0, 7, 64⟩
def REGU_GT_CTL_VALID (i : Nat) : Fld := ⟨0x21000 + 0x20 * i, 31, 1, 0⟩
def REGU_GT_CTL_TENDER (i : Nat) : Fld := ⟨0x21000 + 0x20 * i, 30, 1, 0⟩
def REGU_GT_CTL_MID (i : Nat) : Fld := ⟨0x21000 + 0x20 * i, 0, 10, 0⟩
def CCH_CFG_NORMAL_WAYS (i : Nat) : Fld := ⟨0x40000 + 0x1000 * i, 8, 4, 0⟩
def CCH_CFG_PINNED_WAYS (i : Nat) : Fld := ⟨0x40000 + 0x1000 * i, 4, 4, 0⟩
def CCH_CFG_SCRATCH_WAYS (i : Nat) : Fld := ⟨0x40000 + 0x1000 * i, 0, 4, 0⟩
def CCH_CTL_INT_EN (i : Nat) : Fld := ⟨0x40004 + 0x1000 * i, 8, 4, 0⟩
def CCH_CTL_BYPASS (i : Nat) : Fld := ⟨0x40004 + 0x1000 * i, 0, 1, 0⟩
def CCH_STATUS_STATE (i : Nat) : Fld := ⟨0x40008 + 0x1000 * i, 30, 2, 0⟩
def CCH_STATUS_TAG_UE (i : Nat) : Fld := ⟨0x40008 + 0x1000 * i, 3, 1, 0⟩
def CCH_STATUS_DATA_UE (i : Nat) : Fld := ⟨0x40008 + 0x1000 * i, 2, 1, 0⟩
def CCH_STATUS_DATA_CE (i : Nat) : Fld := ⟨0x40008 + 0x1000 * i, 1, 1, 0⟩
def CCH_STATUS_TAG_FIX (i : Nat) : Fld := ⟨0x40008 + 0x1000 * i, 0, 1, 0⟩
def CCH_ERR_KIND (i : Nat) : Fld := ⟨0x4000c + 0x1000 * i, 28, 4, 0⟩
def CCH_ERR_SECTOR (i : Nat) : Fld := ⟨0x4000c + 0x1000 * i, 16, 2, 0⟩
def CCH_ERR_WAY (i : Nat) : Fld := ⟨0x4000c + 0x1000 * i, 12, 4, 0⟩
def CCH_ERR_SET (i : Nat) : Fld := ⟨0x4000c + 0x1000 * i, 0, 9, 0⟩
def CCH_MNT_CTL_GO : Fld := ⟨0x50000, 31, 1, 0⟩
def CCH_MNT_CTL_SLICES : Fld := ⟨0x50000, 8, 16, 0⟩
def CCH_MNT_CTL_MODE : Fld := ⟨0x50000, 4, 1, 0⟩
def CCH_MNT_CTL_OP : Fld := ⟨0x50000, 0, 3, 0⟩
def CCH_MNT_STATUS_BUSY : Fld := ⟨0x50004, 31, 1, 0⟩
def CCH_MNT_STATUS_OVERRUN : Fld := ⟨0x50004, 30, 1, 0⟩
def CCH_MNT_STATUS_INT_DONE : Fld := ⟨0x50004, 8, 1, 0⟩
def CCH_MNT_STATUS_CODE : Fld := ⟨0x50004, 0, 4, 0⟩
def SCH_CTL_AGE_CAP (i : Nat) : Fld := ⟨0x80000 + 0x4000 * i, 16, 16, 1024⟩
def SCH_CTL_INT_EN (i : Nat) : Fld := ⟨0x80000 + 0x4000 * i, 12, 4, 0⟩
def SCH_CTL_PAGE_POLICY (i : Nat) : Fld := ⟨0x80000 + 0x4000 * i, 8, 2, 2⟩
def SCH_CTL_QUIESCE (i : Nat) : Fld := ⟨0x80000 + 0x4000 * i, 0, 1, 0⟩
def SCH_STATUS_QUIESCED (i : Nat) : Fld := ⟨0x80004 + 0x4000 * i, 31, 1, 0⟩
def SCH_STATUS_MODE (i : Nat) : Fld := ⟨0x80004 + 0x4000 * i, 30, 1, 0⟩
def SCH_STATUS_SNT_BUSY (i : Nat) : Fld := ⟨0x80004 + 0x4000 * i, 29, 1, 0⟩
def SCH_STATUS_LOCKSTEP_B (i : Nat) : Fld := ⟨0x80004 + 0x4000 * i, 28, 1, 0⟩
def SCH_STATUS_RD_OCC (i : Nat) : Fld := ⟨0x80004 + 0x4000 * i, 16, 7, 0⟩
def SCH_STATUS_WR_OCC (i : Nat) : Fld := ⟨0x80004 + 0x4000 * i, 8, 6, 0⟩
def SCH_STATUS_REPLAY (i : Nat) : Fld := ⟨0x80004 + 0x4000 * i, 3, 1, 0⟩
def SCH_STATUS_ABO (i : Nat) : Fld := ⟨0x80004 + 0x4000 * i, 2, 1, 0⟩
def SCH_STATUS_RAA_BLOCK (i : Nat) : Fld := ⟨0x80004 + 0x4000 * i, 1, 1, 0⟩
def SCH_STATUS_FORCED_REF (i : Nat) : Fld := ⟨0x80004 + 0x4000 * i, 0, 1, 0⟩
def SCH_REF_FORCE_AT (i : Nat) : Fld := ⟨0x80014 + 0x4000 * i, 16, 4, 0⟩
def SCH_REF_PULLIN (i : Nat) : Fld := ⟨0x80014 + 0x4000 * i, 8, 1, 1⟩
def SCH_REF_MODE (i : Nat) : Fld := ⟨0x80014 + 0x4000 * i, 4, 1, 0⟩
def SCH_REF_STATUS_DOUBLE (i : Nat) : Fld := ⟨0x80018 + 0x4000 * i, 31, 1, 0⟩
def SCH_REF_STATUS_WINDOWED (i : Nat) : Fld := ⟨0x80018 + 0x4000 * i, 30, 1, 0⟩
def SCH_REF_STATUS_ON (i : Nat) : Fld := ⟨0x80018 + 0x4000 * i, 29, 1, 0⟩
def SCH_REF_STATUS_MAX_DEBT (i : Nat) : Fld := ⟨0x80018 + 0x4000 * i, 16, 8, 0⟩
def SCH_REF_PARAM_TREFI_NCK (i : Nat) : Fld := ⟨0x8001c + 0x4000 * i, 16, 16, 0⟩
def SCH_REF_PARAM_Q (i : Nat) : Fld := ⟨0x8001c + 0x4000 * i, 8, 4, 0⟩
def SCH_REF_PARAM_P (i : Nat) : Fld := ⟨0x8001c + 0x4000 * i, 0, 4, 0⟩
def SCH_RFM_RFM_REQ (i : Nat) : Fld := ⟨0x80020 + 0x4000 * i, 31, 1, 0⟩
def SCH_RFM_PRAC (i : Nat) : Fld := ⟨0x80020 + 0x4000 * i, 30, 1, 0⟩
def SCH_RFM_ABO_RFM (i : Nat) : Fld := ⟨0x80020 + 0x4000 * i, 24, 4, 0⟩
def SCH_RFM_RAAMMT (i : Nat) : Fld := ⟨0x80020 + 0x4000 * i, 8, 12, 0⟩
def SCH_RFM_RAAIMT (i : Nat) : Fld := ⟨0x80020 + 0x4000 * i, 0, 8, 0⟩
def SCH_THR_LEVEL (i : Nat) : Fld := ⟨0x80028 + 0x4000 * i, 16, 3, 0⟩
def SCH_THR_FLOOR (i : Nat) : Fld := ⟨0x80028 + 0x4000 * i, 8, 3, 0⟩
def SCH_THR_EFFECTIVE (i : Nat) : Fld := ⟨0x80028 + 0x4000 * i, 0, 3, 0⟩
def CLS_CTL_GO (i : Nat) : Fld := ⟨0x80040 + 0x4000 * i, 31, 1, 0⟩
def CLS_CTL_RESUME (i : Nat) : Fld := ⟨0x80040 + 0x4000 * i, 30, 1, 0⟩
def CLS_CTL_BIN (i : Nat) : Fld := ⟨0x80040 + 0x4000 * i, 16, 4, 0⟩
def CLS_CTL_INT_VIOL (i : Nat) : Fld := ⟨0x80040 + 0x4000 * i, 0, 1, 0⟩
def CLS_STATUS_SWITCHING (i : Nat) : Fld := ⟨0x80044 + 0x4000 * i, 31, 1, 0⟩
def CLS_STATUS_HALTED (i : Nat) : Fld := ⟨0x80044 + 0x4000 * i, 30, 1, 0⟩
def CLS_STATUS_ACTIVE_SLOT (i : Nat) : Fld := ⟨0x80044 + 0x4000 * i, 28, 2, 0⟩
def CLS_STATUS_ACTIVE_BIN (i : Nat) : Fld := ⟨0x80044 + 0x4000 * i, 24, 4, 0⟩
def CLS_STATUS_SWITCH_CODE (i : Nat) : Fld := ⟨0x80044 + 0x4000 * i, 16, 4, 0⟩
def CLS_STATUS_REPEAT (i : Nat) : Fld := ⟨0x80044 + 0x4000 * i, 3, 1, 0⟩
def CLS_STATUS_STORE_ERR (i : Nat) : Fld := ⟨0x80044 + 0x4000 * i, 2, 1, 0⟩
def CLS_STATUS_MISMATCH (i : Nat) : Fld := ⟨0x80044 + 0x4000 * i, 1, 1, 0⟩
def CLS_STATUS_VIOLATION (i : Nat) : Fld := ⟨0x80044 + 0x4000 * i, 0, 1, 0⟩
def CLS_VIOL_CLAUSE (i : Nat) : Fld := ⟨0x8004c + 0x4000 * i, 25, 7, 0⟩
def CLS_VIOL_KIND (i : Nat) : Fld := ⟨0x8004c + 0x4000 * i, 24, 1, 0⟩
def CLS_VIOL_CMD (i : Nat) : Fld := ⟨0x8004c + 0x4000 * i, 16, 5, 0⟩
def CLS_VIOL_PHASE (i : Nat) : Fld := ⟨0x8004c + 0x4000 * i, 15, 1, 0⟩
def CLS_VIOL_RANK (i : Nat) : Fld := ⟨0x8004c + 0x4000 * i, 12, 3, 0⟩
def SNT_CALL_CTL_GO (i : Nat) : Fld := ⟨0x78000 + 0x20 * i, 31, 1, 0⟩
def SNT_CALL_CTL_RANKS (i : Nat) : Fld := ⟨0x78000 + 0x20 * i, 16, 8, 0⟩
def SNT_CALL_CTL_URGENT (i : Nat) : Fld := ⟨0x78000 + 0x20 * i, 8, 1, 0⟩
def SNT_CALL_CTL_SENTENCE (i : Nat) : Fld := ⟨0x78000 + 0x20 * i, 0, 6, 0⟩
def SNT_CALL_STATUS_BUSY (i : Nat) : Fld := ⟨0x78008 + 0x20 * i, 31, 1, 0⟩
def SNT_CALL_STATUS_OUTCOME (i : Nat) : Fld := ⟨0x78008 + 0x20 * i, 24, 4, 0⟩
def SNT_CALL_STATUS_STEP (i : Nat) : Fld := ⟨0x78008 + 0x20 * i, 8, 8, 0⟩
def SNT_CALL_STATUS_INT_DONE (i : Nat) : Fld := ⟨0x78008 + 0x20 * i, 0, 1, 0⟩
def SNT_RUN_BUSY (i : Nat) : Fld := ⟨0x78010 + 0x20 * i, 31, 1, 0⟩
def SNT_RUN_SOURCE (i : Nat) : Fld := ⟨0x78010 + 0x20 * i, 30, 1, 0⟩
def SNT_RUN_URGENT (i : Nat) : Fld := ⟨0x78010 + 0x20 * i, 29, 1, 0⟩
def SNT_RUN_HELD_SR (i : Nat) : Fld := ⟨0x78010 + 0x20 * i, 28, 1, 0⟩
def SNT_RUN_SENTENCE (i : Nat) : Fld := ⟨0x78010 + 0x20 * i, 16, 6, 0⟩
def SNT_RUN_STEP (i : Nat) : Fld := ⟨0x78010 + 0x20 * i, 0, 8, 0⟩
def PHY_CTL_INT_EN (i : Nat) : Fld := ⟨0x100000 + 0x8000 * i, 4, 4, 0⟩
def PHY_CTL_AUTO_RETRAIN (i : Nat) : Fld := ⟨0x100000 + 0x8000 * i, 3, 1, 0⟩
def PHY_CTL_FFE_EN (i : Nat) : Fld := ⟨0x100000 + 0x8000 * i, 1, 1, 1⟩
def PHY_CTL_DFE_EN (i : Nat) : Fld := ⟨0x100000 + 0x8000 * i, 0, 1, 1⟩
def PHY_STATUS_RATE (i : Nat) : Fld := ⟨0x100004 + 0x8000 * i, 16, 16, 0⟩
def PHY_STATUS_CK_RUNNING (i : Nat) : Fld := ⟨0x100004 + 0x8000 * i, 3, 1, 0⟩
def PHY_STATUS_TRACK_FROZEN (i : Nat) : Fld := ⟨0x100004 + 0x8000 * i, 2, 1, 1⟩
def PHY_STATUS_LOCKED (i : Nat) : Fld := ⟨0x100004 + 0x8000 * i, 1, 1, 0⟩
def PHY_STATUS_TRAINED (i : Nat) : Fld := ⟨0x100004 + 0x8000 * i, 0, 1, 0⟩
def PHY_TRAIN_CTL_GO (i : Nat) : Fld := ⟨0x100008 + 0x8000 * i, 31, 1, 0⟩
def PHY_TRAIN_CTL_ABORT (i : Nat) : Fld := ⟨0x100008 + 0x8000 * i, 30, 1, 0⟩
def PHY_TRAIN_CTL_STEPS (i : Nat) : Fld := ⟨0x100008 + 0x8000 * i, 1, 10, 1023⟩
def PHY_TRAIN_STATUS_STATE (i : Nat) : Fld := ⟨0x10000c + 0x8000 * i, 29, 3, 0⟩
def PHY_TRAIN_STATUS_OVERRUN (i : Nat) : Fld := ⟨0x10000c + 0x8000 * i, 28, 1, 0⟩
def PHY_TRAIN_STATUS_STEP (i : Nat) : Fld := ⟨0x10000c + 0x8000 * i, 24, 4, 0⟩
def PHY_TRAIN_STATUS_LANE (i : Nat) : Fld := ⟨0x10000c + 0x8000 * i, 16, 8, 255⟩
def PHY_TRAIN_STATUS_CODE (i : Nat) : Fld := ⟨0x10000c + 0x8000 * i, 0, 4, 0⟩
def PHY_DQ_FFE_POST (i j : Nat) : Fld := ⟨0x100400 + 0x8000 * i + 0x4 * j, 28, 4, 0⟩
def PHY_DQ_FFE_PRE (i j : Nat) : Fld := ⟨0x100400 + 0x8000 * i + 0x4 * j, 24, 4, 0⟩
def PHY_DQ_RX_VREF (i j : Nat) : Fld := ⟨0x100400 + 0x8000 * i + 0x4 * j, 16, 7, 0⟩
def PHY_DQ_RX_DESKEW (i j : Nat) : Fld := ⟨0x100400 + 0x8000 * i + 0x4 * j, 8, 8, 0⟩
def PHY_DQ_TX_DESKEW (i j : Nat) : Fld := ⟨0x100400 + 0x8000 * i + 0x4 * j, 0, 8, 0⟩
def PHY_DFE_TAP4 (i j : Nat) : Fld := ⟨0x100500 + 0x8000 * i + 0x4 * j, 24, 5, 0⟩
def PHY_DFE_TAP3 (i j : Nat) : Fld := ⟨0x100500 + 0x8000 * i + 0x4 * j, 16, 5, 0⟩
def PHY_DFE_TAP2 (i j : Nat) : Fld := ⟨0x100500 + 0x8000 * i + 0x4 * j, 8, 5, 0⟩
def PHY_DFE_TAP1 (i j : Nat) : Fld := ⟨0x100500 + 0x8000 * i + 0x4 * j, 0, 6, 0⟩
def PHY_DQS_DCC (i j : Nat) : Fld := ⟨0x100200 + 0x8000 * i + 0x4 * j, 25, 6, 0⟩
def PHY_DQS_GATE_COARSE (i j : Nat) : Fld := ⟨0x100200 + 0x8000 * i + 0x4 * j, 19, 6, 0⟩
def PHY_DQS_GATE_FINE (i j : Nat) : Fld := ⟨0x100200 + 0x8000 * i + 0x4 * j, 12, 7, 0⟩
def PHY_DQS_TX_COARSE (i j : Nat) : Fld := ⟨0x100200 + 0x8000 * i + 0x4 * j, 7, 5, 0⟩
def PHY_DQS_TX_FINE (i j : Nat) : Fld := ⟨0x100200 + 0x8000 * i + 0x4 * j, 0, 7, 0⟩
def PHY_LOOP_CTL_GO (i : Nat) : Fld := ⟨0x100018 + 0x8000 * i, 31, 1, 0⟩
def PHY_LOOP_CTL_STOP (i : Nat) : Fld := ⟨0x100018 + 0x8000 * i, 30, 1, 0⟩
def PHY_LOOP_CTL_LENGTH (i : Nat) : Fld := ⟨0x100018 + 0x8000 * i, 8, 16, 0⟩
def PHY_LOOP_CTL_PATTERN (i : Nat) : Fld := ⟨0x100018 + 0x8000 * i, 4, 2, 2⟩
def PHY_LOOP_CTL_MODE (i : Nat) : Fld := ⟨0x100018 + 0x8000 * i, 0, 2, 0⟩
def PHY_LOOP_STATUS_BUSY (i : Nat) : Fld := ⟨0x10001c + 0x8000 * i, 31, 1, 0⟩
def PHY_LOOP_STATUS_CODE (i : Nat) : Fld := ⟨0x10001c + 0x8000 * i, 0, 4, 0⟩
def KPR_TRAIN_WAITING : Fld := ⟨0x70100, 16, 6, 0⟩
def KPR_TRAIN_RUNNING : Fld := ⟨0x70100, 8, 4, 0⟩
def KPR_TRAIN_MAX_PAR : Fld := ⟨0x70100, 0, 4, 8⟩
def CAL_CTL_RESET (i : Nat) : Fld := ⟨0x104000 + 0x8000 * i, 31, 1, 0⟩
def CAL_CTL_CLEAR_SUSPECT (i : Nat) : Fld := ⟨0x104000 + 0x8000 * i, 30, 1, 0⟩
def CAL_CTL_INT_EN (i : Nat) : Fld := ⟨0x104000 + 0x8000 * i, 8, 4, 0⟩
def CAL_CTL_LEARN (i : Nat) : Fld := ⟨0x104000 + 0x8000 * i, 2, 1, 1⟩
def CAL_CTL_WR_TRACK (i : Nat) : Fld := ⟨0x104000 + 0x8000 * i, 1, 1, 1⟩
def CAL_CTL_RX_TRACK (i : Nat) : Fld := ⟨0x104000 + 0x8000 * i, 0, 1, 1⟩
def CAL_STATUS_NVM_ERR (i : Nat) : Fld := ⟨0x104004 + 0x8000 * i, 6, 1, 0⟩
def CAL_STATUS_CA_MARGIN (i : Nat) : Fld := ⟨0x104004 + 0x8000 * i, 5, 1, 0⟩
def CAL_STATUS_LIMIT_HIT (i : Nat) : Fld := ⟨0x104004 + 0x8000 * i, 4, 1, 0⟩
def CAL_STATUS_POINT_LEARNT (i : Nat) : Fld := ⟨0x104004 + 0x8000 * i, 3, 1, 0⟩
def CAL_STATUS_STARVED (i : Nat) : Fld := ⟨0x104004 + 0x8000 * i, 2, 1, 0⟩
def CAL_STATUS_DISAGREE (i : Nat) : Fld := ⟨0x104004 + 0x8000 * i, 1, 1, 0⟩
def CAL_STATUS_SUSPECT (i : Nat) : Fld := ⟨0x104004 + 0x8000 * i, 0, 1, 0⟩
def CAL_WIN_MAX_AGE_MS (i : Nat) : Fld := ⟨0x104008 + 0x8000 * i, 24, 8, 100⟩
def CAL_WIN_THRESH (i : Nat) : Fld := ⟨0x104008 + 0x8000 * i, 8, 16, 16⟩
def CAL_WIN_WIN_LOG2 (i : Nat) : Fld := ⟨0x104008 + 0x8000 * i, 0, 5, 18⟩
def CAL_TRK_PROBE_PAIRS (i : Nat) : Fld := ⟨0x10400c + 0x8000 * i, 24, 8, 64⟩
def CAL_TRK_PROBE_MS (i : Nat) : Fld := ⟨0x10400c + 0x8000 * i, 16, 8, 10⟩
def CAL_TRK_OSC_MS (i : Nat) : Fld := ⟨0x10400c + 0x8000 * i, 12, 4, 4⟩
def CAL_TRK_INTERVAL_US (i : Nat) : Fld := ⟨0x10400c + 0x8000 * i, 0, 12, 100⟩
def CAL_TEMP_HELD (i : Nat) : Fld := ⟨0x104010 + 0x8000 * i, 31, 1, 0⟩
def CAL_TEMP_MEASURED (i : Nat) : Fld := ⟨0x104010 + 0x8000 * i, 24, 5, 0⟩
def CAL_TEMP_SEGMENT (i : Nat) : Fld := ⟨0x104010 + 0x8000 * i, 16, 3, 0⟩
def CAL_TEMP_T (i : Nat) : Fld := ⟨0x104010 + 0x8000 * i, 0, 16, 0⟩
def CAL_EDGE_DOWN (i j : Nat) : Fld := ⟨0x104100 + 0x8000 * i + 0x4 * j, 26, 6, 0⟩
def CAL_EDGE_UP (i j : Nat) : Fld := ⟨0x104100 + 0x8000 * i + 0x4 * j, 20, 6, 0⟩
def CAL_EDGE_CONV (i j : Nat) : Fld := ⟨0x104100 + 0x8000 * i + 0x4 * j, 17, 1, 0⟩
def CAL_EDGE_RIGHT (i j : Nat) : Fld := ⟨0x104100 + 0x8000 * i + 0x4 * j, 8, 8, 0⟩
def CAL_EDGE_LEFT (i j : Nat) : Fld := ⟨0x104100 + 0x8000 * i + 0x4 * j, 0, 8, 0⟩
def ECC_CTL_INT_REPAIR : Fld := ⟨0x202000, 7, 1, 0⟩
def ECC_CTL_INT_PERSIST : Fld := ⟨0x202000, 6, 1, 0⟩
def ECC_CTL_INT_UE : Fld := ⟨0x202000, 5, 1, 0⟩
def ECC_CTL_INT_OVF : Fld := ⟨0x202000, 4, 1, 0⟩
def ECC_CTL_CE_WB : Fld := ⟨0x202000, 0, 1, 0⟩
def ECC_CE_CFG_BUCKET_SIZE (i : Nat) : Fld := ⟨0x200000 + 0x100 * i, 16, 16, 256⟩
def ECC_CE_CFG_ERASE_AT (i : Nat) : Fld := ⟨0x200000 + 0x100 * i, 8, 4, 0⟩
def ECC_CE_CFG_SOFT_AUTO (i : Nat) : Fld := ⟨0x200000 + 0x100 * i, 3, 1, 0⟩
def ECC_CE_CFG_LOG_FULL (i : Nat) : Fld := ⟨0x200000 + 0x100 * i, 2, 1, 0⟩
def ECC_CE_CFG_MODE (i : Nat) : Fld := ⟨0x200000 + 0x100 * i, 0, 2, 3⟩
def ECC_STATUS_LEVEL (i : Nat) : Fld := ⟨0x200004 + 0x100 * i, 16, 16, 0⟩
def ECC_STATUS_REAL_SUSPECT (i : Nat) : Fld := ⟨0x200004 + 0x100 * i, 7, 1, 0⟩
def ECC_STATUS_REPAIR_FAILED (i : Nat) : Fld := ⟨0x200004 + 0x100 * i, 6, 1, 0⟩
def ECC_STATUS_REPAIR_DONE (i : Nat) : Fld := ⟨0x200004 + 0x100 * i, 5, 1, 0⟩
def ECC_STATUS_POISON_WR (i : Nat) : Fld := ⟨0x200004 + 0x100 * i, 4, 1, 0⟩
def ECC_STATUS_PERSIST (i : Nat) : Fld := ⟨0x200004 + 0x100 * i, 3, 1, 0⟩
def ECC_STATUS_LOG_FULL (i : Nat) : Fld := ⟨0x200004 + 0x100 * i, 2, 1, 0⟩
def ECC_STATUS_UE (i : Nat) : Fld := ⟨0x200004 + 0x100 * i, 1, 1, 0⟩
def ECC_STATUS_BUCKET_OVF (i : Nat) : Fld := ⟨0x200004 + 0x100 * i, 0, 1, 0⟩
def ECC_ERASE_VALID (i : Nat) : Fld := ⟨0x200070 + 0x100 * i, 31, 1, 0⟩
def ECC_ERASE_BY_BLOCK (i : Nat) : Fld := ⟨0x200070 + 0x100 * i, 30, 1, 0⟩
def ECC_ERASE_DEVICE (i : Nat) : Fld := ⟨0x200070 + 0x100 * i, 0, 5, 0⟩
def ECC_REPAIR_CTL_GO (i : Nat) : Fld := ⟨0x200080 + 0x100 * i, 31, 1, 0⟩
def ECC_REPAIR_CTL_HARD (i : Nat) : Fld := ⟨0x200080 + 0x100 * i, 8, 1, 0⟩
def ECC_REPAIR_CTL_ENTRY (i : Nat) : Fld := ⟨0x200080 + 0x100 * i, 0, 5, 0⟩
def ECC_REPAIR_STATUS_BUSY (i : Nat) : Fld := ⟨0x200084 + 0x100 * i, 31, 1, 0⟩
def ECC_REPAIR_STATUS_OVERRUN (i : Nat) : Fld := ⟨0x200084 + 0x100 * i, 30, 1, 0⟩
def ECC_REPAIR_STATUS_TIME_US (i : Nat) : Fld := ⟨0x200084 + 0x100 * i, 0, 26, 0⟩
def ECC_INJ_CTL_ARM : Fld := ⟨0x202040, 31, 1, 0⟩
def ECC_INJ_CTL_DISARM : Fld := ⟨0x202040, 30, 1, 0⟩
def ECC_INJ_CTL_DEVICE_ALL : Fld := ⟨0x202040, 1, 1, 0⟩
def ECC_INJ_CTL_POINT : Fld := ⟨0x202040, 0, 1, 0⟩
def ECC_INJ_PAT_SYM1 : Fld := ⟨0x20204c, 24, 8, 0⟩
def ECC_INJ_PAT_XOR1 : Fld := ⟨0x20204c, 16, 8, 0⟩
def ECC_INJ_PAT_SYM0 : Fld := ⟨0x20204c, 8, 8, 0⟩
def ECC_INJ_PAT_XOR0 : Fld := ⟨0x20204c, 0, 8, 0⟩
def SCB_CTL_GO : Fld := ⟨0x204000, 31, 1, 0⟩
def SCB_CTL_ABORT : Fld := ⟨0x204000, 30, 1, 0⟩
def SCB_CTL_INT_DONE : Fld := ⟨0x204000, 8, 1, 0⟩
def SCB_CTL_RANGE : Fld := ⟨0x204000, 0, 3, 0⟩
def SCB_STATUS_BUSY : Fld := ⟨0x204004, 31, 1, 0⟩
def SCB_STATUS_DONE : Fld := ⟨0x204004, 30, 1, 0⟩
def SCB_STATUS_CURRENT : Fld := ⟨0x204004, 24, 3, 0⟩
def SCB_STATUS_QUEUED : Fld := ⟨0x204004, 0, 8, 0⟩
def MOD_CTL_INT_EN : Fld := ⟨0x2c0000, 0, 3, 0⟩
def MOD_STATUS_RPL_END : Fld := ⟨0x2c0004, 2, 1, 0⟩
def MOD_STATUS_ID_CHG : Fld := ⟨0x2c0004, 1, 1, 0⟩
def MOD_STATUS_VERDICT_CHG : Fld := ⟨0x2c0004, 0, 1, 0⟩
def MOD_RPL_CTL_CMD (i : Nat) : Fld := ⟨0x2c0100 + 0x8 * i, 0, 2, 0⟩
def MOD_RPL_STATUS_STATE (i : Nat) : Fld := ⟨0x2c0104 + 0x8 * i, 29, 3, 0⟩
def MOD_RPL_STATUS_OVERRUN (i : Nat) : Fld := ⟨0x2c0104 + 0x8 * i, 28, 1, 0⟩
def MOD_RPL_STATUS_DRAIN_LOST (i : Nat) : Fld := ⟨0x2c0104 + 0x8 * i, 27, 1, 0⟩
def MOD_RPL_STATUS_CODE (i : Nat) : Fld := ⟨0x2c0104 + 0x8 * i, 0, 4, 0⟩
def MOD_STATE_VERDICT (i : Nat) : Fld := ⟨0x2c1000 + 0x40 * i, 30, 2, 0⟩
def MOD_STATE_PRESENCE (i : Nat) : Fld := ⟨0x2c1000 + 0x40 * i, 28, 2, 0⟩
def MOD_STATE_DISC (i : Nat) : Fld := ⟨0x2c1000 + 0x40 * i, 24, 4, 7⟩
def MOD_STATE_SOFT_ACTIVE (i : Nat) : Fld := ⟨0x2c1000 + 0x40 * i, 16, 8, 0⟩
def MOD_STATE_ERASED_DEV (i : Nat) : Fld := ⟨0x2c1000 + 0x40 * i, 8, 8, 255⟩
def MOD_STATE_NVM_BAD (i : Nat) : Fld := ⟨0x2c1000 + 0x40 * i, 1, 1, 0⟩
def MOD_STATE_ID_CHANGED (i : Nat) : Fld := ⟨0x2c1000 + 0x40 * i, 0, 1, 0⟩
def TND_CTL_ABORT : Fld := ⟨0x240000, 31, 1, 0⟩
def TND_CTL_INT_ERR : Fld := ⟨0x240000, 2, 1, 0⟩
def TND_CTL_INT_DONE : Fld := ⟨0x240000, 1, 1, 0⟩
def TND_CTL_ENABLE : Fld := ⟨0x240000, 0, 1, 0⟩
def TND_STATUS_LANES : Fld := ⟨0x240004, 28, 4, 0⟩
def TND_STATUS_RING_ERR : Fld := ⟨0x240004, 1, 1, 0⟩
def TND_STATUS_JOB_DONE : Fld := ⟨0x240004, 0, 1, 0⟩
def TND_CFG_OUTSTANDING : Fld := ⟨0x240008, 24, 8, 32⟩
def TND_CFG_RETRY : Fld := ⟨0x240008, 16, 4, 3⟩
def TND_CFG_CHUNK_US : Fld := ⟨0x240008, 0, 16, 20⟩
def CTR_CFG_ENABLE (i : Nat) : Fld := ⟨0x281000 + 0x10 * i, 31, 1, 0⟩
def CTR_CFG_CHAIN (i : Nat) : Fld := ⟨0x281000 + 0x10 * i, 30, 1, 0⟩
def CTR_CFG_CLEAR_AT_SNAP (i : Nat) : Fld := ⟨0x281000 + 0x10 * i, 29, 1, 0⟩
def CTR_CFG_SAMPLE (i : Nat) : Fld := ⟨0x281000 + 0x10 * i, 28, 1, 0⟩
def CTR_CFG_USER (i : Nat) : Fld := ⟨0x281000 + 0x10 * i, 27, 1, 0⟩
def CTR_CFG_PRIV (i : Nat) : Fld := ⟨0x281000 + 0x10 * i, 24, 3, 7⟩
def CTR_CFG_NOCLASS (i : Nat) : Fld := ⟨0x281000 + 0x10 * i, 23, 1, 1⟩
def CTR_CFG_RANGE_EN (i : Nat) : Fld := ⟨0x281000 + 0x10 * i, 22, 1, 0⟩
def CTR_CFG_RANGE (i : Nat) : Fld := ⟨0x281000 + 0x10 * i, 20, 2, 0⟩
def CTR_CFG_CLASS (i : Nat) : Fld := ⟨0x281000 + 0x10 * i, 8, 8, 255⟩
def CTR_CFG_EVENT (i : Nat) : Fld := ⟨0x281000 + 0x10 * i, 0, 8, 0⟩
def CTR_FILT_REQ (i : Nat) : Fld := ⟨0x281004 + 0x10 * i, 28, 4, 15⟩
def CTR_FILT_MID_EN (i : Nat) : Fld := ⟨0x281004 + 0x10 * i, 27, 1, 0⟩
def CTR_FILT_MID_MASK (i : Nat) : Fld := ⟨0x281004 + 0x10 * i, 16, 10, 1023⟩
def CTR_FILT_MID (i : Nat) : Fld := ⟨0x281004 + 0x10 * i, 0, 10, 0⟩
def CTR_SNAP_STATUS_BUSY : Fld := ⟨0x28000c, 31, 1, 0⟩
def CTR_SNAP_STATUS_OVERRUN : Fld := ⟨0x28000c, 30, 1, 0⟩
def CTR_SNAP_STATUS_GROUPS : Fld := ⟨0x28000c, 16, 13, 0⟩
def CTR_SNAP_STATUS_SEQ : Fld := ⟨0x28000c, 0, 16, 0⟩
def CTR_STATUS_LOST_IDX : Fld := ⟨0x280004, 16, 10, 0⟩
def CTR_STATUS_LOST_OVF : Fld := ⟨0x280004, 2, 1, 0⟩
def CTR_STATUS_SAMPLE_LOST : Fld := ⟨0x280004, 1, 1, 0⟩
def CTR_STATUS_SNAP_DROP : Fld := ⟨0x280004, 0, 1, 0⟩
def PWR_CTL_INT_EN : Fld := ⟨0x260000, 8, 4, 0⟩
def PWR_CTL_AUTO_S3 : Fld := ⟨0x260000, 3, 1, 0⟩
def PWR_CTL_AUTO_S2 : Fld := ⟨0x260000, 2, 1, 0⟩
def PWR_CTL_AUTO_S1 : Fld := ⟨0x260000, 1, 1, 1⟩
def PWR_CTL_AUTO_A1 : Fld := ⟨0x260000, 0, 1, 1⟩
def PWR_CMD_GO : Fld := ⟨0x260020, 31, 1, 0⟩
def PWR_CMD_CHANNELS : Fld := ⟨0x260020, 8, 16, 0⟩
def PWR_CMD_STATE : Fld := ⟨0x260020, 0, 3, 0⟩
def PWR_STATUS_BLOCK : Fld := ⟨0x260028, 30, 2, 0⟩
def PWR_STATUS_RESTORE_ERR : Fld := ⟨0x260028, 3, 1, 0⟩
def PWR_STATUS_CMD_DONE : Fld := ⟨0x260028, 2, 1, 0⟩
def PWR_STATUS_CMD_FAIL : Fld := ⟨0x260028, 1, 1, 0⟩
def PWR_STATUS_WAKE_LATCHED : Fld := ⟨0x260028, 0, 1, 0⟩
def PWR_CH_STATUS_WAKE_LATCHED (i : Nat) : Fld := ⟨0x260100 + 0x4 * i, 4, 1, 0⟩
def PWR_CH_STATUS_MOVING (i : Nat) : Fld := ⟨0x260100 + 0x4 * i, 3, 1, 0⟩
def PWR_CH_STATUS_STATE (i : Nat) : Fld := ⟨0x260100 + 0x4 * i, 0, 3, 0⟩
def THM_STATUS_TRIP : Fld := ⟨0x261004, 31, 1, 0⟩
def THM_STATUS_DOUBLE : Fld := ⟨0x261004, 3, 1, 0⟩
def THM_STATUS_BROKEN : Fld := ⟨0x261004, 2, 1, 0⟩
def THM_STATUS_THROTTLE : Fld := ⟨0x261004, 1, 1, 0⟩
def THM_STATUS_WARN : Fld := ⟨0x261004, 0, 1, 0⟩
def THM_SITE_VALID (i : Nat) : Fld := ⟨0x261100 + 0x4 * i, 31, 1, indexReset .THM_SITE 31 i 0⟩
def THM_SITE_BROKEN (i : Nat) : Fld := ⟨0x261100 + 0x4 * i, 30, 1, indexReset .THM_SITE 30 i 0⟩
def THM_SITE_STUCK (i : Nat) : Fld := ⟨0x261100 + 0x4 * i, 29, 1, indexReset .THM_SITE 29 i 0⟩
def THM_SITE_MASKED (i : Nat) : Fld := ⟨0x261100 + 0x4 * i, 28, 1, indexReset .THM_SITE 28 i 0⟩
def THM_SITE_ZONE (i : Nat) : Fld := ⟨0x261100 + 0x4 * i, 24, 3, indexReset .THM_SITE 24 i 0⟩
def THM_SITE_READING (i : Nat) : Fld := ⟨0x261100 + 0x4 * i, 0, 16, indexReset .THM_SITE 0 i 0⟩
def THM_ZONE_NO_TRIP (i : Nat) : Fld := ⟨0x261200 + 0x4 * i, 27, 1, 0⟩
def THM_ZONE_THROTTLE (i : Nat) : Fld := ⟨0x261200 + 0x4 * i, 26, 1, 0⟩
def THM_ZONE_WARN (i : Nat) : Fld := ⟨0x261200 + 0x4 * i, 25, 1, 0⟩
def THM_ZONE_LEVEL (i : Nat) : Fld := ⟨0x261200 + 0x4 * i, 16, 3, 0⟩
def THM_ZONE_TEMP (i : Nat) : Fld := ⟨0x261200 + 0x4 * i, 0, 16, 0⟩
def THM_MOD_BROKEN (i : Nat) : Fld := ⟨0x261300 + 0x4 * i, 26, 1, 0⟩
def THM_MOD_THROTTLE (i : Nat) : Fld := ⟨0x261300 + 0x4 * i, 25, 1, 0⟩
def THM_MOD_DOUBLE (i : Nat) : Fld := ⟨0x261300 + 0x4 * i, 24, 1, 0⟩
def THM_MOD_LEVEL (i : Nat) : Fld := ⟨0x261300 + 0x4 * i, 16, 3, 0⟩
def THM_MOD_TEMP (i : Nat) : Fld := ⟨0x261300 + 0x4 * i, 0, 16, 0⟩
def HBR_STATUS_STATE : Fld := ⟨0x600, 29, 3, 1⟩
def HBR_STATUS_CLEAR_ARMED : Fld := ⟨0x600, 28, 1, 0⟩
def HBR_STATUS_STEP : Fld := ⟨0x600, 24, 4, 1⟩
def HBR_STATUS_COUNTER : Fld := ⟨0x600, 16, 8, 0⟩
def HBR_STATUS_HELD : Fld := ⟨0x600, 0, 1, 0⟩
def HBR_REASON_ENTRY : Fld := ⟨0x604, 30, 2, 0⟩
def HBR_REASON_SUBCAUSE : Fld := ⟨0x604, 16, 8, 0⟩
def HBR_REASON_CAUSE : Fld := ⟨0x604, 0, 8, 0⟩
def HBR_CTL_INT_READY : Fld := ⟨0x608, 1, 1, 0⟩
def HBR_CTL_CLEAR : Fld := ⟨0x608, 0, 1, 0⟩
def HBR_WDOG_LIMIT_S : Fld := ⟨0x60c, 0, 8, 30⟩
def HBR_CH_STATUS_HCH_VALID : Fld := ⟨0x610, 20, 1, 0⟩
def HBR_CH_STATUS_HCH : Fld := ⟨0x610, 16, 4, 0⟩
def HBR_CH_STATUS_FAILED : Fld := ⟨0x610, 0, 16, 0⟩
def FLT_CTL_INT_LOST : Fld := ⟨0x208000, 4, 1, 0⟩
def FLT_CTL_INT_SEV : Fld := ⟨0x208000, 0, 4, 12⟩
def FLT_STATUS_MSG_OCC : Fld := ⟨0x208004, 8, 6, 0⟩
def FLT_STATUS_CLR_REFUSED : Fld := ⟨0x208004, 5, 1, 0⟩
def FLT_STATUS_MSG_LOST : Fld := ⟨0x208004, 4, 1, 0⟩
def FLT_STATUS_SEV_SEEN : Fld := ⟨0x208004, 0, 4, 0⟩
def FLT_REC_CLR_GO : Fld := ⟨0x208040, 31, 1, 0⟩
def FLT_REC_CLR_ALL : Fld := ⟨0x208040, 30, 1, 0⟩
def FLT_REC_CLR_INDEX : Fld := ⟨0x208040, 0, 7, 0⟩
def FLT_SEV_FIXED (i : Nat) : Fld := ⟨0x208400 + 0x4 * i, 31, 1, indexReset .FLT_SEV 31 i 0⟩
def FLT_SEV_PRODUCED (i : Nat) : Fld := ⟨0x208400 + 0x4 * i, 30, 1, indexReset .FLT_SEV 30 i 0⟩
def FLT_SEV_SEV (i : Nat) : Fld := ⟨0x208400 + 0x4 * i, 0, 2, indexReset .FLT_SEV 0 i 0⟩
def ROL_LAST_REASON : Fld := ⟨0x80c, 30, 2, 0⟩
def ROL_LAST_ROLE : Fld := ⟨0x80c, 24, 2, 0⟩
def ROL_LAST_OFFSET : Fld := ⟨0x80c, 0, 23, 0⟩
def AUD_CTL_CLEAR : Fld := ⟨0xa00, 31, 1, 0⟩
def AUD_CTL_INT_LOST : Fld := ⟨0xa00, 1, 1, 0⟩
def AUD_CTL_INT_WRAP : Fld := ⟨0xa00, 0, 1, 0⟩
def AUD_STATUS_BUSY : Fld := ⟨0xa04, 31, 1, 0⟩
def AUD_STATUS_QUEUED : Fld := ⟨0xa04, 16, 5, 0⟩
def AUD_STATUS_NEXT : Fld := ⟨0xa04, 0, 12, 0⟩
def GLB_INT_PEND_PEND : Fld := ⟨0x40, 0, 27, 0⟩
def GLB_ID_VENDOR : Fld := ⟨0x0, 16, 16, 5536⟩
def GLB_ID_BLOCK : Fld := ⟨0x0, 0, 16, 5682⟩
def GLB_REV_MAJOR : Fld := ⟨0x4, 8, 8, 2⟩
def GLB_REV_MINOR : Fld := ⟨0x4, 0, 8, 1⟩
def GLB_CFG_REJECT_FLAG : Fld := ⟨0x10, 31, 1, 0⟩
def GLB_CFG_REJECT_COUNT : Fld := ⟨0x10, 23, 8, 0⟩
def GLB_CFG_REJECT_OFFSET : Fld := ⟨0x10, 0, 23, 0⟩
def GLB_INT_LINE_LINE : Fld := ⟨0x44, 0, 8, 0⟩
def NVM_CTL_TRIM_WE : Fld := ⟨0xc00, 0, 1, 0⟩
def NVM_STATUS_SELFTEST_OK : Fld := ⟨0xc04, 31, 1, 0⟩
def NVM_STATUS_BUSY : Fld := ⟨0xc04, 30, 1, 0⟩
def NVM_STATUS_TRIM_VALID : Fld := ⟨0xc04, 29, 1, 0⟩
def KPR_CTL_INT_IDLE : Fld := ⟨0x70000, 0, 1, 0⟩
def KPR_STATUS_ACTIVE : Fld := ⟨0x70004, 8, 8, 0⟩
def KPR_STATUS_TRAIN_IDLE : Fld := ⟨0x70004, 0, 1, 0⟩
def KPR_PROG_CODE_WORDS : Fld := ⟨0x70008, 16, 14, 0⟩
def KPR_PROG_ISA : Fld := ⟨0x70008, 0, 16, 0⟩
def TIM_NOW_LO_NOW : Fld := ⟨0x60008, 0, 32, 0⟩
def TIM_NOW_HI_NOW : Fld := ⟨0x6000c, 0, 32, 0⟩
def TIM_OFFSET_E : Fld := ⟨0x60010, 0, 32, 0⟩
def TIM_RATE_RATE_PPB : Fld := ⟨0x60014, 0, 18, 0⟩
def TIM_STEP_CNT_CNT : Fld := ⟨0x60020, 0, 32, 0⟩
def TIM_BAD_CNT_CNT : Fld := ⟨0x60024, 0, 32, 0⟩
def TIM_UNIT_ID_UNIT_ID : Fld := ⟨0x60028, 0, 12, 0⟩
def LGT_START_LO_START (i : Nat) : Fld := ⟨0x61000 + 0x20 * i, 0, 32, 0⟩
def LGT_START_HI_START (i : Nat) : Fld := ⟨0x61004 + 0x20 * i, 0, 32, 0⟩
def LGT_PERIOD_PERIOD (i : Nat) : Fld := ⟨0x61008 + 0x20 * i, 0, 32, 0⟩
def LGT_ON_ON (i : Nat) : Fld := ⟨0x6100c + 0x20 * i, 0, 24, 0⟩
def LGT_PHASE_PHASE (i : Nat) : Fld := ⟨0x61010 + 0x20 * i, 0, 32, 0⟩
def LGT_TARGET_TARGET (i : Nat) : Fld := ⟨0x61018 + 0x20 * i, 0, 32, 0⟩
def LGT_ARG_ARG (i : Nat) : Fld := ⟨0x6101c + 0x20 * i, 0, 32, 0⟩
def LGT_COMMIT_GO : Fld := ⟨0x60100, 0, 1, 0⟩
def LGT_COMMIT_STATUS_BUSY : Fld := ⟨0x60104, 31, 1, 0⟩
def LGT_COMMIT_STATUS_INDEX : Fld := ⟨0x60104, 8, 6, 63⟩
def LGT_COMMIT_STATUS_CODE : Fld := ⟨0x60104, 0, 4, 0⟩
def IMG_COUNT_VAL : Fld := ⟨0x40c, 0, 32, 0⟩
def IMG_LOADED_ID_VAL : Fld := ⟨0x410, 0, 32, 0⟩
def IMG_RELOAD_ID_VAL : Fld := ⟨0x414, 0, 32, 0⟩
def IMG_RELOAD_CNT_VAL : Fld := ⟨0x418, 0, 32, 0⟩
def EDT_BASE_LO_BASE : Fld := ⟨0x30004, 0, 32, 0⟩
def EDT_BASE_HI_BASE : Fld := ⟨0x30008, 0, 32, 0⟩
def EDT_INVAL_FIRST_FIRST : Fld := ⟨0x30010, 0, 16, 0⟩
def EDT_ERR_INDEX_INDEX : Fld := ⟨0x30024, 0, 16, 0⟩
def EDT_DENY_CNT_CNT : Fld := ⟨0x30028, 0, 32, 0⟩
def EDT_DECODE_CNT_CNT : Fld := ⟨0x3002c, 0, 32, 0⟩
def EDT_APERTURE_SCRATCH_PORT : Fld := ⟨0x30030, 0, 5, 0⟩
def EDT_SET_RB_WORD (i j : Nat) : Fld := ⟨0x30200 + 0x80 * i + 0x4 * j, 0, 32, 0⟩
def PRT_DENY_CNT_CNT (i : Nat) : Fld := ⟨0x10014 + 0x800 * i, 0, 32, 0⟩
def ARB_PREC_ACTIVE_SCRUB : Fld := ⟨0x18004, 16, 2, 0⟩
def ARB_PREC_ACTIVE_KEEPER : Fld := ⟨0x18004, 14, 2, 3⟩
def ARB_PREC_ACTIVE_TENDER : Fld := ⟨0x18004, 12, 2, 1⟩
def ARB_PREC_ACTIVE_P5 : Fld := ⟨0x18004, 10, 2, 3⟩
def ARB_PREC_ACTIVE_P4 : Fld := ⟨0x18004, 8, 2, 1⟩
def ARB_PREC_ACTIVE_P3_P0 : Fld := ⟨0x18004, 0, 8, 170⟩
def ARB_CUTOFF_CNT_CNT : Fld := ⟨0x18018, 0, 32, 0⟩
def REGU_COMMIT_GO : Fld := ⟨0x20008, 0, 1, 0⟩
def REGU_ADMIT_PCT : Fld := ⟨0x20010, 0, 7, 85⟩
def REGU_DELIV_IMG_VAL : Fld := ⟨0x20014, 0, 24, 0⟩
def REGU_DELIV_MEAS_VAL : Fld := ⟨0x20018, 0, 24, 0⟩
def REGU_LIMIT_VAL : Fld := ⟨0x2001c, 0, 24, 0⟩
def REGU_TOTAL_VAL : Fld := ⟨0x20020, 0, 24, 0⟩
def REGU_SCALE_SCALE : Fld := ⟨0x20024, 0, 17, 65536⟩
def REGU_DLMISS_CNT_CNT : Fld := ⟨0x20028, 0, 32, 0⟩
def REGU_ARRIVE_LATE_CNT_CNT : Fld := ⟨0x2002c, 0, 32, 0⟩
def REGU_MISS_MISS (i : Nat) : Fld := ⟨0x20040 + 0x4 * i, 0, 32, 0⟩
def REGU_GT_GUAR_GUAR (i : Nat) : Fld := ⟨0x21004 + 0x20 * i, 0, 24, 0⟩
def REGU_GT_CEIL_CEIL (i : Nat) : Fld := ⟨0x21008 + 0x20 * i, 0, 24, 0⟩
def REGU_GT_EFF_EFF (i : Nat) : Fld := ⟨0x2100c + 0x20 * i, 0, 24, 0⟩
def REGU_GT_SERVED_SERVED (i : Nat) : Fld := ⟨0x21010 + 0x20 * i, 0, 32, 0⟩
def REGU_GT_CNT_DL_MISS (i : Nat) : Fld := ⟨0x21014 + 0x20 * i, 16, 16, 0⟩
def REGU_GT_CNT_MISS (i : Nat) : Fld := ⟨0x21014 + 0x20 * i, 0, 16, 0⟩
def REGU_GT_LAST_LAST_MISS (i : Nat) : Fld := ⟨0x21018 + 0x20 * i, 31, 1, 0⟩
def REGU_GT_LAST_LAST_SERVED (i : Nat) : Fld := ⟨0x21018 + 0x20 * i, 0, 24, 0⟩
def CCH_MNT_BASE_LO_ADDR : Fld := ⟨0x50008, 0, 32, 0⟩
def CCH_MNT_BASE_HI_ADDR : Fld := ⟨0x5000c, 0, 32, 0⟩
def CCH_MNT_LIMIT_LO_ADDR : Fld := ⟨0x50010, 0, 32, 0⟩
def CCH_MNT_LIMIT_HI_ADDR : Fld := ⟨0x50014, 0, 32, 0⟩
def CCH_MNT_SETS_COUNT : Fld := ⟨0x50018, 16, 10, 0⟩
def CCH_MNT_SETS_FIRST : Fld := ⟨0x50018, 0, 9, 0⟩
def CCH_MNT_WAYS_MASK : Fld := ⟨0x5001c, 0, 16, 0⟩
def CCH_MNT_WB_CNT_CNT : Fld := ⟨0x50020, 0, 32, 0⟩
def CCH_MNT_REFUSED_CNT_CNT : Fld := ⟨0x50024, 0, 32, 0⟩
def CCH_PIN_DROP_CNT_CNT : Fld := ⟨0x50028, 0, 32, 0⟩
def CCH_PIN_FULL_CNT_CNT : Fld := ⟨0x5002c, 0, 32, 0⟩
def CCH_PIN_PORTS_PORTS : Fld := ⟨0x50030, 0, 6, 0⟩
def SCH_URGENT_SLACK (i : Nat) : Fld := ⟨0x80008 + 0x4000 * i, 0, 16, 16⟩
def SCH_PAGE_IDLE (i : Nat) : Fld := ⟨0x8000c + 0x4000 * i, 0, 12, 32⟩
def SCH_DRAIN_HI (i : Nat) : Fld := ⟨0x80010 + 0x4000 * i, 8, 6, 40⟩
def SCH_DRAIN_LO (i : Nat) : Fld := ⟨0x80010 + 0x4000 * i, 0, 6, 16⟩
def SCH_ABO_ACT_NCK (i : Nat) : Fld := ⟨0x80024 + 0x4000 * i, 0, 16, 0⟩
def SCH_SNT_WAIT (i : Nat) : Fld := ⟨0x8002c + 0x4000 * i, 0, 16, 64⟩
def SCH_REPLAY_SLOTS (i : Nat) : Fld := ⟨0x80030 + 0x4000 * i, 0, 8, 64⟩
def SCH_REF_FORCED_CNT_CNT (i : Nat) : Fld := ⟨0x80034 + 0x4000 * i, 0, 32, 0⟩
def SCH_ABO_CNT_CNT (i : Nat) : Fld := ⟨0x80038 + 0x4000 * i, 0, 32, 0⟩
def SCH_REPLAY_CNT_CNT (i : Nat) : Fld := ⟨0x8003c + 0x4000 * i, 0, 32, 0⟩
def CLS_SLOT_VALID3 (i : Nat) : Fld := ⟨0x80048 + 0x4000 * i, 31, 1, 0⟩
def CLS_SLOT_STALE3 (i : Nat) : Fld := ⟨0x80048 + 0x4000 * i, 30, 1, 0⟩
def CLS_SLOT_BIN3 (i : Nat) : Fld := ⟨0x80048 + 0x4000 * i, 24, 4, 0⟩
def CLS_SLOT_VALID2 (i : Nat) : Fld := ⟨0x80048 + 0x4000 * i, 23, 1, 0⟩
def CLS_SLOT_STALE2 (i : Nat) : Fld := ⟨0x80048 + 0x4000 * i, 22, 1, 0⟩
def CLS_SLOT_BIN2 (i : Nat) : Fld := ⟨0x80048 + 0x4000 * i, 16, 4, 0⟩
def CLS_SLOT_VALID1 (i : Nat) : Fld := ⟨0x80048 + 0x4000 * i, 15, 1, 0⟩
def CLS_SLOT_STALE1 (i : Nat) : Fld := ⟨0x80048 + 0x4000 * i, 14, 1, 0⟩
def CLS_SLOT_BIN1 (i : Nat) : Fld := ⟨0x80048 + 0x4000 * i, 8, 4, 0⟩
def CLS_SLOT_VALID0 (i : Nat) : Fld := ⟨0x80048 + 0x4000 * i, 7, 1, 0⟩
def CLS_SLOT_STALE0 (i : Nat) : Fld := ⟨0x80048 + 0x4000 * i, 6, 1, 0⟩
def CLS_SLOT_BIN0 (i : Nat) : Fld := ⟨0x80048 + 0x4000 * i, 0, 4, 0⟩
def CLS_BIN_DELIV_PM (i : Nat) : Fld := ⟨0x80050 + 0x4000 * i, 16, 10, 0⟩
def CLS_BIN_DATA_RATE (i : Nat) : Fld := ⟨0x80050 + 0x4000 * i, 0, 16, 0⟩
def CLS_LAT_WL (i : Nat) : Fld := ⟨0x80054 + 0x4000 * i, 16, 16, 0⟩
def CLS_LAT_RL (i : Nat) : Fld := ⟨0x80054 + 0x4000 * i, 0, 16, 0⟩
def CLS_VIOL_CNT_CNT (i : Nat) : Fld := ⟨0x80058 + 0x4000 * i, 0, 32, 0⟩
def CLS_WINDOW_WORD (i j : Nat) : Fld := ⟨0x81000 + 0x4000 * i + 0x4 * j, 0, 32, 0⟩
def CLS_SHADOW_WORD (i j : Nat) : Fld := ⟨0x82000 + 0x4000 * i + 0x4 * j, 0, 32, 0⟩
def SNT_PRESENT_LO_MASK : Fld := ⟨0x74000, 0, 32, 0⟩
def SNT_PRESENT_HI_MASK : Fld := ⟨0x74004, 0, 32, 0⟩
def SNT_CALL_ARG_ARG (i : Nat) : Fld := ⟨0x78004 + 0x20 * i, 0, 32, 0⟩
def SNT_CALL_RESULT_RESULT (i : Nat) : Fld := ⟨0x7800c + 0x20 * i, 0, 32, 0⟩
def SNT_ABORT_CNT_CNT (i : Nat) : Fld := ⟨0x78014 + 0x20 * i, 0, 32, 0⟩
def PHY_CA_DCC (i j : Nat) : Fld := ⟨0x100100 + 0x8000 * i + 0x4 * j, 12, 6, 0⟩
def PHY_CA_EQ (i j : Nat) : Fld := ⟨0x100100 + 0x8000 * i + 0x4 * j, 8, 4, 0⟩
def PHY_CA_DESKEW (i j : Nat) : Fld := ⟨0x100100 + 0x8000 * i + 0x4 * j, 0, 8, 0⟩
def PHY_CS_DCC (i j : Nat) : Fld := ⟨0x100120 + 0x8000 * i + 0x4 * j, 12, 6, 0⟩
def PHY_CS_EQ (i j : Nat) : Fld := ⟨0x100120 + 0x8000 * i + 0x4 * j, 8, 4, 0⟩
def PHY_CS_DESKEW (i j : Nat) : Fld := ⟨0x100120 + 0x8000 * i + 0x4 * j, 0, 8, 0⟩
def PHY_CK_DCC (i j : Nat) : Fld := ⟨0x100130 + 0x8000 * i + 0x4 * j, 12, 6, 0⟩
def PHY_CK_EQ (i j : Nat) : Fld := ⟨0x100130 + 0x8000 * i + 0x4 * j, 8, 4, 0⟩
def PHY_CK_DESKEW (i j : Nat) : Fld := ⟨0x100130 + 0x8000 * i + 0x4 * j, 0, 8, 0⟩
def PHY_TRAIN_FAIL_LO_DQ (i : Nat) : Fld := ⟨0x100010 + 0x8000 * i, 0, 32, 0⟩
def PHY_TRAIN_FAIL_HI_CS (i : Nat) : Fld := ⟨0x100014 + 0x8000 * i, 26, 4, 0⟩
def PHY_TRAIN_FAIL_HI_CA (i : Nat) : Fld := ⟨0x100014 + 0x8000 * i, 18, 8, 0⟩
def PHY_TRAIN_FAIL_HI_DQS (i : Nat) : Fld := ⟨0x100014 + 0x8000 * i, 8, 10, 0⟩
def PHY_TRAIN_FAIL_HI_DQ (i : Nat) : Fld := ⟨0x100014 + 0x8000 * i, 0, 8, 0⟩
def PHY_LOOP_ERR_CNT_CNT (i : Nat) : Fld := ⟨0x100020 + 0x8000 * i, 0, 32, 0⟩
def PHY_LOOP_LANES_LO_DQ (i : Nat) : Fld := ⟨0x100024 + 0x8000 * i, 0, 32, 0⟩
def PHY_LOOP_LANES_HI_DQ (i : Nat) : Fld := ⟨0x100028 + 0x8000 * i, 0, 8, 0⟩
def PHY_TRAIN_TIME_US (i : Nat) : Fld := ⟨0x10002c + 0x8000 * i, 0, 32, 0⟩
def PHY_IMP_TRIM (i : Nat) : Fld := ⟨0x100030 + 0x8000 * i, 16, 16, 0⟩
def PHY_IMP_CA_DRIVE (i : Nat) : Fld := ⟨0x100030 + 0x8000 * i, 8, 2, 0⟩
def PHY_IMP_ODT (i : Nat) : Fld := ⟨0x100030 + 0x8000 * i, 4, 3, 0⟩
def PHY_IMP_DRIVE (i : Nat) : Fld := ⟨0x100030 + 0x8000 * i, 0, 2, 0⟩
def PHY_RATE_RATE (i : Nat) : Fld := ⟨0x100034 + 0x8000 * i, 0, 16, 0⟩
def CAL_POINT_LO_TEMP01 (i : Nat) : Fld := ⟨0x104020 + 0x8000 * i, 0, 32, 0⟩
def CAL_POINT_HI_TEMP23 (i : Nat) : Fld := ⟨0x104024 + 0x8000 * i, 0, 32, 0⟩
def CAL_PARAM_TRAIN_BANK (i : Nat) : Fld := ⟨0x104028 + 0x8000 * i, 28, 2, 0⟩
def CAL_PARAM_TRAIN_BG (i : Nat) : Fld := ⟨0x104028 + 0x8000 * i, 24, 3, 0⟩
def CAL_PARAM_RELEARN (i : Nat) : Fld := ⟨0x104028 + 0x8000 * i, 16, 4, 0⟩
def CAL_PARAM_CAPTURE_ROUNDS (i : Nat) : Fld := ⟨0x104028 + 0x8000 * i, 8, 8, 0⟩
def CAL_PARAM_CAPTURE (i : Nat) : Fld := ⟨0x104028 + 0x8000 * i, 0, 8, 0⟩
def CAL_STEP_CNT_CNT (i : Nat) : Fld := ⟨0x104030 + 0x8000 * i, 0, 32, 0⟩
def CAL_DISAGREE_CNT_CNT (i : Nat) : Fld := ⟨0x104034 + 0x8000 * i, 0, 32, 0⟩
def CAL_NVM_BAD_CNT_CNT (i : Nat) : Fld := ⟨0x104038 + 0x8000 * i, 0, 32, 0⟩
def ECC_PERSIST_SECONDS : Fld := ⟨0x202004, 0, 16, 14400⟩
def ECC_LEAK_US_US : Fld := ⟨0x202008, 0, 24, 1000000⟩
def ECC_CE_CNT_CNT (i : Nat) : Fld := ⟨0x200008 + 0x100 * i, 0, 32, 0⟩
def ECC_UE_CNT_CNT (i : Nat) : Fld := ⟨0x20000c + 0x100 * i, 0, 32, 0⟩
def ECC_POISON_READ_CNT_CNT (i : Nat) : Fld := ⟨0x200010 + 0x100 * i, 0, 32, 0⟩
def ECC_OVF_CNT_CNT (i : Nat) : Fld := ⟨0x200014 + 0x100 * i, 0, 32, 0⟩
def ECC_LOG_LOST_CNT_CNT (i : Nat) : Fld := ⟨0x200018 + 0x100 * i, 0, 32, 0⟩
def ECC_ERASE_CNT_CNT (i : Nat) : Fld := ⟨0x20001c + 0x100 * i, 0, 32, 0⟩
def ECC_LOG_SEL_CLEAR (i : Nat) : Fld := ⟨0x200020 + 0x100 * i, 31, 1, 0⟩
def ECC_LOG_SEL_INDEX (i : Nat) : Fld := ⟨0x200020 + 0x100 * i, 0, 5, 0⟩
def ECC_LOG_DATA_WORD (i j : Nat) : Fld := ⟨0x200040 + 0x100 * i + 0x4 * j, 0, 32, 0⟩
def ECC_UE_REC_WORD (i j : Nat) : Fld := ⟨0x200060 + 0x100 * i + 0x4 * j, 0, 32, 0⟩
def ECC_REPAIR_CODE_CODE (i : Nat) : Fld := ⟨0x200088 + 0x100 * i, 0, 4, 0⟩
def ECC_REPAIR_RES_RES (i : Nat) : Fld := ⟨0x20008c + 0x100 * i, 0, 32, 0⟩
def ECC_INJ_ADDR_LO_DPA : Fld := ⟨0x202044, 0, 32, 0⟩
def ECC_INJ_ADDR_HI_DPA : Fld := ⟨0x202048, 0, 32, 0⟩
def ECC_INJ_STATUS_ARMED : Fld := ⟨0x202050, 31, 1, 0⟩
def ECC_INJ_STATUS_FIRED : Fld := ⟨0x202050, 30, 1, 0⟩
def ECC_INJ_STATUS_KEPT : Fld := ⟨0x202050, 29, 1, 0⟩
def ECC_INJ_STATUS_SUB : Fld := ⟨0x202050, 0, 5, 0⟩
def SCB_RATE_LINES : Fld := ⟨0x204008, 0, 12, 40⟩
def SCB_RANGE_WORD (i j : Nat) : Fld := ⟨0x204100 + 0x10 * i + 0x4 * j, 0, 32, 0⟩
def SCB_SUM_WORD (i j : Nat) : Fld := ⟨0x204200 + 0x40 * i + 0x4 * j, 0, 32, 0⟩
def MOD_SB_CFG_RATE_KHZ : Fld := ⟨0x2c0008, 0, 14, 12500⟩
def MOD_RPL_CFG_PWR_MS : Fld := ⟨0x2c000c, 8, 16, 100⟩
def MOD_RPL_CFG_DRAIN_MS : Fld := ⟨0x2c000c, 0, 8, 10⟩
def MOD_ID_MFR_VAL (i : Nat) : Fld := ⟨0x2c1004 + 0x40 * i, 0, 32, 0⟩
def MOD_ID_SERIAL_VAL (i : Nat) : Fld := ⟨0x2c1008 + 0x40 * i, 0, 32, 0⟩
def MOD_CAPS_VAL (i : Nat) : Fld := ⟨0x2c100c + 0x40 * i, 0, 32, 0⟩
def MOD_POWERED_VAL (i : Nat) : Fld := ⟨0x2c1010 + 0x40 * i, 0, 32, 0⟩
def MOD_HOT_VAL (i : Nat) : Fld := ⟨0x2c1014 + 0x40 * i, 0, 32, 0⟩
def MOD_CE_VAL (i : Nat) : Fld := ⟨0x2c1018 + 0x40 * i, 0, 32, 0⟩
def MOD_PERSIST_VAL (i : Nat) : Fld := ⟨0x2c101c + 0x40 * i, 0, 32, 0⟩
def MOD_UE_VAL (i : Nat) : Fld := ⟨0x2c1020 + 0x40 * i, 0, 32, 0⟩
def MOD_OVF_VAL (i : Nat) : Fld := ⟨0x2c1024 + 0x40 * i, 0, 32, 0⟩
def MOD_REASON_VAL (i : Nat) : Fld := ⟨0x2c1028 + 0x40 * i, 0, 32, 0⟩
def TND_RING_BASE_LO_ADDR : Fld := ⟨0x240010, 0, 32, 0⟩
def TND_RING_BASE_HI_ADDR : Fld := ⟨0x240014, 0, 32, 0⟩
def TND_CMPL_BASE_LO_ADDR : Fld := ⟨0x240018, 0, 32, 0⟩
def TND_CMPL_BASE_HI_ADDR : Fld := ⟨0x24001c, 0, 32, 0⟩
def TND_RING_SIZE_LOG2 : Fld := ⟨0x240020, 0, 4, 4⟩
def TND_TAIL_TAIL : Fld := ⟨0x240024, 0, 16, 0⟩
def TND_HEAD_HEAD : Fld := ⟨0x240028, 0, 16, 0⟩
def TND_LANE_BUSY (i : Nat) : Fld := ⟨0x240040 + 0x4 * i, 31, 1, 0⟩
def TND_LANE_KEPT (i : Nat) : Fld := ⟨0x240040 + 0x4 * i, 20, 1, 0⟩
def TND_LANE_VERB (i : Nat) : Fld := ⟨0x240040 + 0x4 * i, 16, 4, 0⟩
def TND_LANE_SLOT (i : Nat) : Fld := ⟨0x240040 + 0x4 * i, 0, 16, 0⟩
def TND_LANE_CHUNK_CHUNK (i : Nat) : Fld := ⟨0x240050 + 0x4 * i, 0, 21, 0⟩
def CTR_VAL_LO_VAL (i : Nat) : Fld := ⟨0x281008 + 0x10 * i, 0, 32, 0⟩
def CTR_VAL_HI_VAL (i : Nat) : Fld := ⟨0x28100c + 0x10 * i, 0, 16, 0⟩
def CTR_CTL_INT_LOST : Fld := ⟨0x280000, 2, 1, 0⟩
def CTR_CTL_INT_SNAP : Fld := ⟨0x280000, 1, 1, 0⟩
def CTR_CTL_INT_OVF : Fld := ⟨0x280000, 0, 1, 0⟩
def CTR_SNAP_GO : Fld := ⟨0x280008, 31, 1, 0⟩
def CTR_SNAP_GROUPS : Fld := ⟨0x280008, 0, 16, 0⟩
def CTR_SNAP_TIME_LO_T : Fld := ⟨0x280010, 0, 32, 0⟩
def CTR_SNAP_TIME_HI_T : Fld := ⟨0x280014, 0, 32, 0⟩
def CTR_CLEAR_GO : Fld := ⟨0x280018, 31, 1, 0⟩
def CTR_CLEAR_INDEX : Fld := ⟨0x280018, 0, 10, 0⟩
def CTR_LIVE_SEL_INDEX : Fld := ⟨0x28001c, 0, 10, 0⟩
def CTR_LIVE_LO_VAL : Fld := ⟨0x280020, 0, 32, 0⟩
def CTR_LIVE_MID_VAL : Fld := ⟨0x280024, 0, 32, 0⟩
def CTR_LIVE_HI_VAL : Fld := ⟨0x280028, 0, 32, 0⟩
def CTR_OVF_OVF (i : Nat) : Fld := ⟨0x280040 + 0x4 * i, 0, 32, 0⟩
def CTR_RANGE_WORD (i j : Nat) : Fld := ⟨0x280100 + 0x10 * i + 0x4 * j, 0, 32, 0⟩
def CTR_SAMPLE_WR_WRAPS : Fld := ⟨0x280200, 16, 16, 0⟩
def CTR_SAMPLE_WR_NEXT : Fld := ⟨0x280200, 0, 6, 0⟩
def CTR_SAMPLE_LOST_CNT_CNT : Fld := ⟨0x280204, 0, 32, 0⟩
def CTR_SNAP_DROP_CNT_CNT : Fld := ⟨0x280208, 0, 32, 0⟩
def CTR_SLOT_SNAP_WORD (i j : Nat) : Fld := ⟨0x284000 + 0x20 * i + 0x4 * j, 0, 32, 0⟩
def CTR_SAMPLE_WORD (i j : Nat) : Fld := ⟨0x286000 + 0x20 * i + 0x4 * j, 0, 32, 0⟩
def PWR_IDLE_A1_SLOTS : Fld := ⟨0x260004, 0, 16, 256⟩
def PWR_IDLE_S1_US : Fld := ⟨0x260008, 0, 16, 100⟩
def PWR_IDLE_S2_MS : Fld := ⟨0x26000c, 0, 16, 10⟩
def PWR_IDLE_S3_MS : Fld := ⟨0x260010, 0, 16, 1000⟩
def PWR_DRAIN_TIMEOUT_US : Fld := ⟨0x260014, 0, 16, 100⟩
def PWR_CMD_STATUS_BUSY : Fld := ⟨0x260024, 31, 1, 0⟩
def PWR_CMD_STATUS_CODE : Fld := ⟨0x260024, 0, 4, 0⟩
def PWR_WAKE_TIMER_MS : Fld := ⟨0x260030, 8, 24, 0⟩
def PWR_WAKE_EN : Fld := ⟨0x260030, 0, 2, 1⟩
def THM_CTL_INT_EN : Fld := ⟨0x261000, 0, 4, 0⟩
def THM_ROUND_CNT_CNT : Fld := ⟨0x261010, 0, 32, 0⟩
def THM_RB_WORD (i : Nat) : Fld := ⟨0x261400 + 0x4 * i, 0, 32, 0⟩
def FLT_MSG_LOST_CNT_CNT : Fld := ⟨0x208008, 0, 32, 0⟩
def FLT_WR_LOST_CNT_CNT : Fld := ⟨0x20800c, 0, 32, 0⟩
def FLT_FENCE_SET_SUB_U : Fld := ⟨0x208010, 0, 32, 0⟩
def FLT_FENCE_CLR_SUB_U : Fld := ⟨0x208014, 0, 32, 0⟩
def FLT_FENCE_SUB_U : Fld := ⟨0x208018, 0, 32, 0⟩
def FLT_FENCE_IN_SUB_U : Fld := ⟨0x20801c, 0, 32, 0⟩
def FLT_FENCE_SET_SLICE_U : Fld := ⟨0x208020, 0, 16, 0⟩
def FLT_FENCE_CLR_SLICE_U : Fld := ⟨0x208024, 0, 16, 0⟩
def FLT_FENCE_SLICE_U : Fld := ⟨0x208028, 0, 16, 0⟩
def FLT_FENCE_IN_SLICE_U : Fld := ⟨0x20802c, 0, 16, 0⟩
def FLT_FENCE_SET_PORT_U : Fld := ⟨0x208030, 0, 6, 0⟩
def FLT_FENCE_CLR_PORT_U : Fld := ⟨0x208034, 0, 6, 0⟩
def FLT_FENCE_PORT_U : Fld := ⟨0x208038, 0, 6, 0⟩
def FLT_FENCE_IN_PORT_U : Fld := ⟨0x20803c, 0, 6, 0⟩
def FLT_REC_WORD (i j : Nat) : Fld := ⟨0x209000 + 0x20 * i + 0x4 * j, 0, 32, 0⟩
def ROL_N_WRITE_MASK : Fld := ⟨0x800, 0, 32, 0⟩
def ROL_O_WRITE_MASK : Fld := ⟨0x804, 0, 32, 0⟩
def ROL_O_AUDIT_MASK : Fld := ⟨0x808, 0, 32, 0⟩
def ROL_REFUSED_CNT_CNT : Fld := ⟨0x810, 0, 32, 0⟩
def AUD_FLAGS_LOST : Fld := ⟨0xa0c, 1, 1, 0⟩
def AUD_FLAGS_WRAPPED : Fld := ⟨0xa0c, 0, 1, 0⟩
def AUD_WRAPS_WRAPS : Fld := ⟨0xa08, 0, 16, 0⟩
def AUD_LOST_CNT_CNT : Fld := ⟨0xa10, 0, 32, 0⟩

end Reg

/-- The catalogue, part 1. -/
def catalog1 : List RegInfo :=
  [
   ⟨.TIM_CTL, 0x60000, [], 19, [⟨16, 8, .rw, .l, .installer, 4⟩, ⟨4, 12, .rw, .l, .installer, 100⟩, ⟨3, 1, .rw, .l, .both, 0⟩, ⟨2, 1, .rw, .l, .both, 0⟩, ⟨1, 1, .rw, .l, .both, 0⟩, ⟨0, 1, .rw, .l, .both, 0⟩]⟩,
   ⟨.TIM_STATUS, 0x60004, [], 19, [⟨16, 16, .ro, .none, .nobody, 0⟩, ⟨11, 1, .w1c, .l, .both, 0⟩, ⟨10, 1, .w1c, .l, .both, 0⟩, ⟨9, 1, .w1c, .l, .both, 0⟩, ⟨8, 1, .w1c, .l, .both, 0⟩, ⟨3, 1, .ro, .none, .nobody, 0⟩, ⟨0, 3, .ro, .none, .nobody, 0⟩]⟩,
   ⟨.LGT_CTL, 0x61014, [(0x20, 64)], 20, [⟨16, 16, .rw, .s, .both, 0⟩, ⟨8, 1, .rw, .s, .both, 0⟩, ⟨4, 1, .rw, .s, .both, 0⟩, ⟨0, 4, .rw, .s, .both, 0⟩]⟩,
   ⟨.LGT_STATUS, 0x61800, [(0x4, 64)], 20, [⟨28, 1, .ro, .none, .nobody, 0⟩, ⟨27, 1, .ro, .none, .nobody, 0⟩, ⟨26, 1, .w1c, .l, .both, 0⟩, ⟨25, 1, .w1c, .l, .both, 0⟩, ⟨24, 1, .w1c, .l, .both, 0⟩, ⟨16, 8, .rc, .none, .nobody, 0⟩, ⟨0, 16, .ro, .none, .nobody, 0⟩]⟩,
   ⟨.IMG_CTL, 0x400, [], 1, [⟨16, 16, .rw, .l, .installer, 100⟩, ⟨8, 1, .rw, .l, .installer, 0⟩, ⟨1, 1, .wo, .l, .installer, 0⟩, ⟨0, 1, .wo, .l, .installer, 0⟩]⟩,
   ⟨.IMG_STATUS, 0x404, [], 1, [⟨28, 4, .ro, .none, .nobody, 0⟩, ⟨27, 1, .w1c, .l, .installer, 0⟩, ⟨16, 8, .ro, .none, .nobody, 255⟩, ⟨0, 8, .ro, .none, .nobody, 0⟩]⟩,
   ⟨.IMG_DETAIL, 0x408, [], 1, [⟨12, 20, .ro, .none, .nobody, 0⟩, ⟨0, 12, .ro, .none, .nobody, 0⟩]⟩,
   ⟨.EDT_CFG, 0x30000, [], 9, [⟨20, 1, .ro, .i, .nobody, 0⟩, ⟨18, 2, .ro, .i, .nobody, 0⟩, ⟨0, 17, .ro, .i, .nobody, 0⟩]⟩,
   ⟨.EDT_CTL, 0x3000c, [], 9, [⟨8, 1, .rw, .l, .both, 0⟩, ⟨0, 4, .rw, .l, .both, 0⟩]⟩,
   ⟨.EDT_INVAL, 0x30014, [], 9, [⟨30, 2, .wo, .l, .operator, 0⟩, ⟨0, 17, .wo, .l, .operator, 0⟩]⟩,
   ⟨.EDT_INVAL_STATUS, 0x30018, [], 9, [⟨16, 16, .ro, .none, .nobody, 0⟩, ⟨0, 16, .ro, .none, .nobody, 0⟩]⟩,
   ⟨.EDT_STATUS, 0x30020, [], 9, [⟨3, 1, .w1c, .l, .both, 0⟩, ⟨2, 1, .w1c, .l, .both, 0⟩, ⟨1, 1, .w1c, .l, .both, 0⟩, ⟨0, 1, .w1c, .l, .both, 0⟩]⟩,
   ⟨.EDT_SET_STATUS, 0x30100, [(0x4, 8)], 9, [⟨17, 1, .ro, .none, .nobody, 0⟩, ⟨16, 1, .ro, .i, .nobody, 0⟩, ⟨0, 16, .ro, .none, .nobody, 0⟩]⟩,
   ⟨.PRT_CFG, 0x10000, [(0x800, 6)], 6, [⟨16, 9, .rw, .q, .installer, 256⟩, ⟨8, 8, .rw, .q, .installer, 128⟩, ⟨0, 2, .ro, .none, .nobody, 0⟩]⟩,
   ⟨.PRT_CTL, 0x10004, [(0x800, 6)], 6, [⟨4, 4, .rw, .l, .both, 0⟩, ⟨0, 1, .rw, .l, .both, 0⟩]⟩,
   ⟨.PRT_STATUS, 0x10008, [(0x800, 6)], 6, [⟨30, 2, .ro, .none, .nobody, 0⟩, ⟨3, 1, .w1c, .l, .both, 0⟩, ⟨2, 1, .w1c, .l, .both, 0⟩, ⟨1, 1, .w1c, .l, .both, 0⟩, ⟨0, 1, .w1c, .l, .both, 0⟩]⟩,
   ⟨.PRT_MID, 0x1000c, [(0x800, 6)], 6, [⟨16, 10, .rw, .q, .installer, 0⟩, ⟨0, 10, .rw, .q, .installer, 0⟩]⟩,
   ⟨.PRT_OUT, 0x10010, [(0x800, 6)], 6, [⟨16, 9, .ro, .none, .nobody, 0⟩, ⟨0, 8, .ro, .none, .nobody, 0⟩]⟩,
   ⟨.ARB_PREC, 0x18000, [], 7, [⟨16, 2, .rw, .s, .both, 0⟩, ⟨14, 2, .rw, .s, .both, 3⟩, ⟨12, 2, .rw, .s, .both, 1⟩, ⟨10, 2, .rw, .s, .both, 3⟩, ⟨8, 2, .rw, .s, .both, 1⟩, ⟨0, 8, .rw, .s, .both, 170⟩]⟩,
   ⟨.ARB_COMMIT, 0x18008, [], 7, [⟨0, 1, .wo, .l, .both, 0⟩]⟩,
   ⟨.ARB_HOLD_LIMIT, 0x1800c, [], 7, [⟨0, 12, .rw, .l, .installer, 256⟩]⟩,
   ⟨.ARB_CUTOFF, 0x18010, [], 7, [⟨28, 4, .ro, .none, .nobody, 0⟩, ⟨24, 4, .ro, .none, .nobody, 0⟩, ⟨0, 9, .w1c, .l, .both, 0⟩]⟩,
   ⟨.ARB_CTL, 0x18014, [], 7, [⟨0, 1, .rw, .l, .both, 0⟩]⟩,
   ⟨.REGU_CTL, 0x20000, [], 8, [⟨16, 16, .rw, .l, .both, 0⟩, ⟨7, 1, .rw, .l, .both, 0⟩, ⟨6, 1, .rw, .l, .both, 0⟩, ⟨5, 1, .rw, .l, .both, 0⟩, ⟨1, 1, .rw, .s, .both, 0⟩, ⟨0, 1, .rw, .s, .both, 0⟩]⟩,
   ⟨.REGU_STATUS, 0x20004, [], 8, [⟨8, 1, .ro, .none, .nobody, 0⟩, ⟨4, 1, .ro, .none, .nobody, 0⟩, ⟨3, 1, .w1c, .l, .both, 0⟩, ⟨2, 1, .w1c, .l, .both, 0⟩, ⟨1, 1, .w1c, .l, .both, 0⟩, ⟨0, 1, .w1c, .l, .both, 0⟩]⟩,
   ⟨.REGU_COMMIT_STATUS, 0x2000c, [], 8, [⟨31, 1, .ro, .none, .nobody, 0⟩, ⟨30, 1, .ro, .none, .nobody, 0⟩, ⟨16, 8, .ro, .none, .nobody, 255⟩, ⟨0, 4, .ro, .none, .nobody, 0⟩]⟩,
   ⟨.REGU_CLASS, 0x20080, [(0x4, 8)], 8, [⟨24, 8, .rw, .s, .both, 1⟩, ⟨16, 5, .rw, .s, .both, 0⟩, ⟨8, 6, .rw, .s, .both, 48⟩, ⟨0, 7, .rw, .s, .both, 64⟩]⟩,
   ⟨.REGU_GT_CTL, 0x21000, [(0x20, 256)], 8, [⟨31, 1, .rw, .s, .both, 0⟩, ⟨30, 1, .rw, .s, .both, 0⟩, ⟨0, 10, .rw, .s, .both, 0⟩]⟩,
   ⟨.CCH_CFG, 0x40000, [(0x1000, 16)], 10, [⟨8, 4, .ro, .i, .nobody, 0⟩, ⟨4, 4, .ro, .i, .nobody, 0⟩, ⟨0, 4, .ro, .i, .nobody, 0⟩]⟩,
   ⟨.CCH_CTL, 0x40004, [(0x1000, 16)], 10, [⟨8, 4, .rw, .l, .both, 0⟩, ⟨0, 1, .rw, .l, .both, 0⟩]⟩,
   ⟨.CCH_STATUS, 0x40008, [(0x1000, 16)], 10, [⟨30, 2, .ro, .none, .nobody, 0⟩, ⟨3, 1, .w1c, .l, .both, 0⟩, ⟨2, 1, .w1c, .l, .both, 0⟩, ⟨1, 1, .w1c, .l, .both, 0⟩, ⟨0, 1, .w1c, .l, .both, 0⟩]⟩,
   ⟨.CCH_ERR, 0x4000c, [(0x1000, 16)], 10, [⟨28, 4, .ro, .none, .nobody, 0⟩, ⟨16, 2, .ro, .none, .nobody, 0⟩, ⟨12, 4, .ro, .none, .nobody, 0⟩, ⟨0, 9, .ro, .none, .nobody, 0⟩]⟩,
   ⟨.CCH_MNT_CTL, 0x50000, [], 10, [⟨31, 1, .wo, .l, .operator, 0⟩, ⟨8, 16, .rw, .l, .operator, 0⟩, ⟨4, 1, .rw, .l, .operator, 0⟩, ⟨0, 3, .rw, .l, .operator, 0⟩]⟩,
   ⟨.CCH_MNT_STATUS, 0x50004, [], 10, [⟨31, 1, .ro, .none, .nobody, 0⟩, ⟨30, 1, .w1c, .l, .operator, 0⟩, ⟨8, 1, .rw, .l, .operator, 0⟩, ⟨0, 4, .ro, .none, .nobody, 0⟩]⟩,
   ⟨.SCH_CTL, 0x80000, [(0x4000, 32)], 11, [⟨16, 16, .rw, .l, .both, 1024⟩, ⟨12, 4, .rw, .l, .both, 0⟩, ⟨8, 2, .rw, .q, .installer, 2⟩, ⟨0, 1, .rw, .l, .both, 0⟩]⟩,
   ⟨.SCH_STATUS, 0x80004, [(0x4000, 32)], 11, [⟨31, 1, .ro, .none, .nobody, 0⟩, ⟨30, 1, .ro, .none, .nobody, 0⟩, ⟨29, 1, .ro, .none, .nobody, 0⟩, ⟨28, 1, .ro, .i, .nobody, 0⟩, ⟨16, 7, .ro, .none, .nobody, 0⟩, ⟨8, 6, .ro, .none, .nobody, 0⟩, ⟨3, 1, .w1c, .l, .both, 0⟩, ⟨2, 1, .w1c, .l, .both, 0⟩, ⟨1, 1, .w1c, .l, .both, 0⟩, ⟨0, 1, .w1c, .l, .both, 0⟩]⟩,
   ⟨.SCH_REF, 0x80014, [(0x4000, 32)], 11, [⟨16, 4, .rw, .l, .installer, 0⟩, ⟨8, 1, .rw, .l, .both, 1⟩, ⟨4, 1, .rw, .q, .installer, 0⟩]⟩,
   ⟨.SCH_REF_STATUS, 0x80018, [(0x4000, 32)], 11, [⟨31, 1, .ro, .none, .nobody, 0⟩, ⟨30, 1, .ro, .none, .nobody, 0⟩, ⟨29, 1, .ro, .none, .nobody, 0⟩, ⟨16, 8, .ro, .none, .nobody, 0⟩]⟩,
   ⟨.SCH_REF_PARAM, 0x8001c, [(0x4000, 32)], 11, [⟨16, 16, .ro, .none, .nobody, 0⟩, ⟨8, 4, .ro, .none, .nobody, 0⟩, ⟨0, 4, .ro, .none, .nobody, 0⟩]⟩,
   ⟨.SCH_RFM, 0x80020, [(0x4000, 32)], 11, [⟨31, 1, .ro, .none, .nobody, 0⟩, ⟨30, 1, .ro, .none, .nobody, 0⟩, ⟨24, 4, .ro, .none, .nobody, 0⟩, ⟨8, 12, .ro, .none, .nobody, 0⟩, ⟨0, 8, .ro, .none, .nobody, 0⟩]⟩]

/-- The catalogue, part 2. -/
def catalog2 : List RegInfo :=
  [
   ⟨.SCH_THR, 0x80028, [(0x4000, 32)], 11, [⟨16, 3, .ro, .none, .nobody, 0⟩, ⟨8, 3, .rw, .l, .both, 0⟩, ⟨0, 3, .ro, .none, .nobody, 0⟩]⟩,
   ⟨.CLS_CTL, 0x80040, [(0x4000, 32)], 12, [⟨31, 1, .wo, .q, .installer, 0⟩, ⟨30, 1, .wo, .l, .installer, 0⟩, ⟨16, 4, .rw, .q, .installer, 0⟩, ⟨0, 1, .rw, .l, .both, 0⟩]⟩,
   ⟨.CLS_STATUS, 0x80044, [(0x4000, 32)], 12, [⟨31, 1, .ro, .none, .nobody, 0⟩, ⟨30, 1, .ro, .none, .nobody, 0⟩, ⟨28, 2, .ro, .none, .nobody, 0⟩, ⟨24, 4, .ro, .none, .nobody, 0⟩, ⟨16, 4, .ro, .none, .nobody, 0⟩, ⟨3, 1, .w1c, .l, .both, 0⟩, ⟨2, 1, .w1c, .l, .both, 0⟩, ⟨1, 1, .w1c, .l, .both, 0⟩, ⟨0, 1, .w1c, .l, .both, 0⟩]⟩,
   ⟨.CLS_VIOL, 0x8004c, [(0x4000, 32)], 12, [⟨25, 7, .ro, .none, .nobody, 0⟩, ⟨24, 1, .ro, .none, .nobody, 0⟩, ⟨16, 5, .ro, .none, .nobody, 0⟩, ⟨15, 1, .ro, .none, .nobody, 0⟩, ⟨12, 3, .ro, .none, .nobody, 0⟩]⟩,
   ⟨.SNT_CALL_CTL, 0x78000, [(0x20, 32)], 13, [⟨31, 1, .wo, .l, .installer, 0⟩, ⟨16, 8, .rw, .l, .installer, 0⟩, ⟨8, 1, .rw, .l, .installer, 0⟩, ⟨0, 6, .rw, .l, .installer, 0⟩]⟩,
   ⟨.SNT_CALL_STATUS, 0x78008, [(0x20, 32)], 13, [⟨31, 1, .ro, .none, .nobody, 0⟩, ⟨24, 4, .ro, .none, .nobody, 0⟩, ⟨8, 8, .ro, .none, .nobody, 0⟩, ⟨0, 1, .rw, .l, .installer, 0⟩]⟩,
   ⟨.SNT_RUN, 0x78010, [(0x20, 32)], 13, [⟨31, 1, .ro, .none, .nobody, 0⟩, ⟨30, 1, .ro, .none, .nobody, 0⟩, ⟨29, 1, .ro, .none, .nobody, 0⟩, ⟨28, 1, .ro, .none, .nobody, 0⟩, ⟨16, 6, .ro, .none, .nobody, 0⟩, ⟨0, 8, .ro, .none, .nobody, 0⟩]⟩,
   ⟨.PHY_CTL, 0x100000, [(0x8000, 32)], 14, [⟨4, 4, .rw, .l, .both, 0⟩, ⟨3, 1, .rw, .l, .installer, 0⟩, ⟨1, 1, .rw, .q, .installer, 1⟩, ⟨0, 1, .rw, .q, .installer, 1⟩]⟩,
   ⟨.PHY_STATUS, 0x100004, [(0x8000, 32)], 14, [⟨16, 16, .ro, .none, .nobody, 0⟩, ⟨3, 1, .ro, .none, .nobody, 0⟩, ⟨2, 1, .ro, .none, .nobody, 1⟩, ⟨1, 1, .ro, .none, .nobody, 0⟩, ⟨0, 1, .ro, .none, .nobody, 0⟩]⟩,
   ⟨.PHY_TRAIN_CTL, 0x100008, [(0x8000, 32)], 14, [⟨31, 1, .wo, .l, .installer, 0⟩, ⟨30, 1, .wo, .l, .installer, 0⟩, ⟨1, 10, .rw, .l, .installer, 1023⟩]⟩,
   ⟨.PHY_TRAIN_STATUS, 0x10000c, [(0x8000, 32)], 14, [⟨29, 3, .ro, .none, .nobody, 0⟩, ⟨28, 1, .w1c, .l, .installer, 0⟩, ⟨24, 4, .ro, .none, .nobody, 0⟩, ⟨16, 8, .ro, .none, .nobody, 255⟩, ⟨0, 4, .ro, .none, .nobody, 0⟩]⟩,
   ⟨.PHY_DQ, 0x100400, [(0x8000, 32), (0x4, 40)], 14, [⟨28, 4, .rw, .q, .installer, 0⟩, ⟨24, 4, .rw, .q, .installer, 0⟩, ⟨16, 7, .rw, .q, .installer, 0⟩, ⟨8, 8, .rw, .q, .installer, 0⟩, ⟨0, 8, .rw, .q, .installer, 0⟩]⟩,
   ⟨.PHY_DFE, 0x100500, [(0x8000, 32), (0x4, 40)], 14, [⟨24, 5, .rw, .q, .installer, 0⟩, ⟨16, 5, .rw, .q, .installer, 0⟩, ⟨8, 5, .rw, .q, .installer, 0⟩, ⟨0, 6, .rw, .q, .installer, 0⟩]⟩,
   ⟨.PHY_DQS, 0x100200, [(0x8000, 32), (0x4, 10)], 14, [⟨25, 6, .rw, .q, .installer, 0⟩, ⟨19, 6, .rw, .q, .installer, 0⟩, ⟨12, 7, .rw, .q, .installer, 0⟩, ⟨7, 5, .rw, .q, .installer, 0⟩, ⟨0, 7, .rw, .q, .installer, 0⟩]⟩,
   ⟨.PHY_LOOP_CTL, 0x100018, [(0x8000, 32)], 14, [⟨31, 1, .wo, .l, .both, 0⟩, ⟨30, 1, .wo, .l, .both, 0⟩, ⟨8, 16, .rw, .l, .both, 0⟩, ⟨4, 2, .rw, .l, .both, 2⟩, ⟨0, 2, .rw, .l, .both, 0⟩]⟩,
   ⟨.PHY_LOOP_STATUS, 0x10001c, [(0x8000, 32)], 14, [⟨31, 1, .ro, .none, .nobody, 0⟩, ⟨0, 4, .ro, .none, .nobody, 0⟩]⟩,
   ⟨.KPR_TRAIN, 0x70100, [], 21, [⟨16, 6, .ro, .none, .nobody, 0⟩, ⟨8, 4, .ro, .none, .nobody, 0⟩, ⟨0, 4, .rw, .l, .installer, 8⟩]⟩,
   ⟨.CAL_CTL, 0x104000, [(0x8000, 32)], 15, [⟨31, 1, .wo, .l, .installer, 0⟩, ⟨30, 1, .wo, .l, .installer, 0⟩, ⟨8, 4, .rw, .l, .both, 0⟩, ⟨2, 1, .rw, .l, .installer, 1⟩, ⟨1, 1, .rw, .l, .installer, 1⟩, ⟨0, 1, .rw, .l, .installer, 1⟩]⟩,
   ⟨.CAL_STATUS, 0x104004, [(0x8000, 32)], 15, [⟨6, 1, .w1c, .l, .both, 0⟩, ⟨5, 1, .w1c, .l, .both, 0⟩, ⟨4, 1, .w1c, .l, .both, 0⟩, ⟨3, 1, .w1c, .l, .both, 0⟩, ⟨2, 1, .w1c, .l, .both, 0⟩, ⟨1, 1, .w1c, .l, .both, 0⟩, ⟨0, 1, .ro, .none, .nobody, 0⟩]⟩,
   ⟨.CAL_WIN, 0x104008, [(0x8000, 32)], 15, [⟨24, 8, .rw, .l, .installer, 100⟩, ⟨8, 16, .rw, .l, .installer, 16⟩, ⟨0, 5, .rw, .l, .installer, 18⟩]⟩,
   ⟨.CAL_TRK, 0x10400c, [(0x8000, 32)], 15, [⟨24, 8, .rw, .l, .installer, 64⟩, ⟨16, 8, .rw, .l, .installer, 10⟩, ⟨12, 4, .rw, .l, .installer, 4⟩, ⟨0, 12, .rw, .l, .installer, 100⟩]⟩,
   ⟨.CAL_TEMP, 0x104010, [(0x8000, 32)], 15, [⟨31, 1, .ro, .none, .nobody, 0⟩, ⟨24, 5, .ro, .none, .nobody, 0⟩, ⟨16, 3, .ro, .none, .nobody, 0⟩, ⟨0, 16, .ro, .none, .nobody, 0⟩]⟩,
   ⟨.CAL_EDGE, 0x104100, [(0x8000, 32), (0x4, 40)], 15, [⟨26, 6, .ro, .none, .nobody, 0⟩, ⟨20, 6, .ro, .none, .nobody, 0⟩, ⟨17, 1, .ro, .none, .nobody, 0⟩, ⟨8, 8, .ro, .none, .nobody, 0⟩, ⟨0, 8, .ro, .none, .nobody, 0⟩]⟩,
   ⟨.ECC_CTL, 0x202000, [], 16, [⟨7, 1, .rw, .l, .both, 0⟩, ⟨6, 1, .rw, .l, .both, 0⟩, ⟨5, 1, .rw, .l, .both, 0⟩, ⟨4, 1, .rw, .l, .both, 0⟩, ⟨0, 1, .rw, .l, .installer, 0⟩]⟩,
   ⟨.ECC_CE_CFG, 0x200000, [(0x100, 32)], 16, [⟨16, 16, .rw, .l, .installer, 256⟩, ⟨8, 4, .rw, .l, .installer, 0⟩, ⟨3, 1, .rw, .l, .installer, 0⟩, ⟨2, 1, .rw, .l, .installer, 0⟩, ⟨0, 2, .rw, .l, .installer, 3⟩]⟩,
   ⟨.ECC_STATUS, 0x200004, [(0x100, 32)], 16, [⟨16, 16, .ro, .none, .nobody, 0⟩, ⟨7, 1, .w1c, .l, .both, 0⟩, ⟨6, 1, .w1c, .l, .both, 0⟩, ⟨5, 1, .w1c, .l, .both, 0⟩, ⟨4, 1, .w1c, .l, .both, 0⟩, ⟨3, 1, .w1c, .l, .both, 0⟩, ⟨2, 1, .w1c, .l, .both, 0⟩, ⟨1, 1, .w1c, .l, .both, 0⟩, ⟨0, 1, .w1c, .l, .both, 0⟩]⟩,
   ⟨.ECC_ERASE, 0x200070, [(0x100, 32)], 16, [⟨31, 1, .rw, .l, .installer, 0⟩, ⟨30, 1, .ro, .none, .nobody, 0⟩, ⟨0, 5, .rw, .l, .installer, 0⟩]⟩,
   ⟨.ECC_REPAIR_CTL, 0x200080, [(0x100, 32)], 16, [⟨31, 1, .wo, .l, .installer, 0⟩, ⟨8, 1, .rw, .l, .installer, 0⟩, ⟨0, 5, .rw, .l, .installer, 0⟩]⟩,
   ⟨.ECC_REPAIR_STATUS, 0x200084, [(0x100, 32)], 16, [⟨31, 1, .ro, .none, .nobody, 0⟩, ⟨30, 1, .w1c, .l, .installer, 0⟩, ⟨0, 26, .ro, .none, .nobody, 0⟩]⟩,
   ⟨.ECC_INJ_CTL, 0x202040, [], 16, [⟨31, 1, .wo, .l, .installer, 0⟩, ⟨30, 1, .wo, .l, .installer, 0⟩, ⟨1, 1, .rw, .l, .installer, 0⟩, ⟨0, 1, .rw, .l, .installer, 0⟩]⟩,
   ⟨.ECC_INJ_PAT, 0x20204c, [], 16, [⟨24, 8, .rw, .l, .installer, 0⟩, ⟨16, 8, .rw, .l, .installer, 0⟩, ⟨8, 8, .rw, .l, .installer, 0⟩, ⟨0, 8, .rw, .l, .installer, 0⟩]⟩,
   ⟨.SCB_CTL, 0x204000, [], 17, [⟨31, 1, .wo, .l, .both, 0⟩, ⟨30, 1, .wo, .l, .both, 0⟩, ⟨8, 1, .rw, .l, .both, 0⟩, ⟨0, 3, .rw, .l, .both, 0⟩]⟩,
   ⟨.SCB_STATUS, 0x204004, [], 17, [⟨31, 1, .ro, .none, .nobody, 0⟩, ⟨30, 1, .w1c, .l, .both, 0⟩, ⟨24, 3, .ro, .none, .nobody, 0⟩, ⟨0, 8, .ro, .none, .nobody, 0⟩]⟩,
   ⟨.MOD_CTL, 0x2c0000, [], 26, [⟨0, 3, .rw, .l, .both, 0⟩]⟩,
   ⟨.MOD_STATUS, 0x2c0004, [], 26, [⟨2, 1, .w1c, .l, .both, 0⟩, ⟨1, 1, .w1c, .l, .both, 0⟩, ⟨0, 1, .w1c, .l, .both, 0⟩]⟩,
   ⟨.MOD_RPL_CTL, 0x2c0100, [(0x8, 16)], 26, [⟨0, 2, .wo, .l, .operator, 0⟩]⟩,
   ⟨.MOD_RPL_STATUS, 0x2c0104, [(0x8, 16)], 26, [⟨29, 3, .ro, .none, .nobody, 0⟩, ⟨28, 1, .w1c, .l, .operator, 0⟩, ⟨27, 1, .w1c, .l, .operator, 0⟩, ⟨0, 4, .ro, .none, .nobody, 0⟩]⟩,
   ⟨.MOD_STATE, 0x2c1000, [(0x40, 32)], 26, [⟨30, 2, .ro, .none, .nobody, 0⟩, ⟨28, 2, .ro, .none, .nobody, 0⟩, ⟨24, 4, .ro, .none, .nobody, 7⟩, ⟨16, 8, .ro, .none, .nobody, 0⟩, ⟨8, 8, .ro, .none, .nobody, 255⟩, ⟨1, 1, .w1c, .l, .both, 0⟩, ⟨0, 1, .w1c, .l, .both, 0⟩]⟩,
   ⟨.TND_CTL, 0x240000, [], 18, [⟨31, 1, .wo, .l, .operator, 0⟩, ⟨2, 1, .rw, .l, .both, 0⟩, ⟨1, 1, .rw, .l, .both, 0⟩, ⟨0, 1, .rw, .l, .operator, 0⟩]⟩,
   ⟨.TND_STATUS, 0x240004, [], 18, [⟨28, 4, .ro, .none, .nobody, 0⟩, ⟨1, 1, .w1c, .l, .operator, 0⟩, ⟨0, 1, .w1c, .l, .operator, 0⟩]⟩]

/-- The catalogue, part 3. -/
def catalog3 : List RegInfo :=
  [
   ⟨.TND_CFG, 0x240008, [], 18, [⟨24, 8, .rw, .l, .both, 32⟩, ⟨16, 4, .rw, .l, .both, 3⟩, ⟨0, 16, .rw, .l, .both, 20⟩]⟩,
   ⟨.CTR_CFG, 0x281000, [(0x10, 552)], 24, [⟨31, 1, .rw, .s, .both, 0⟩, ⟨30, 1, .rw, .s, .both, 0⟩, ⟨29, 1, .rw, .s, .both, 0⟩, ⟨28, 1, .rw, .s, .both, 0⟩, ⟨27, 1, .rw, .s, .operator, 0⟩, ⟨24, 3, .rw, .s, .both, 7⟩, ⟨23, 1, .rw, .s, .both, 1⟩, ⟨22, 1, .rw, .s, .both, 0⟩, ⟨20, 2, .rw, .s, .both, 0⟩, ⟨8, 8, .rw, .s, .both, 255⟩, ⟨0, 8, .rw, .s, .both, 0⟩]⟩,
   ⟨.CTR_FILT, 0x281004, [(0x10, 552)], 24, [⟨28, 4, .rw, .s, .both, 15⟩, ⟨27, 1, .rw, .s, .both, 0⟩, ⟨16, 10, .rw, .s, .both, 1023⟩, ⟨0, 10, .rw, .s, .both, 0⟩]⟩,
   ⟨.CTR_SNAP_STATUS, 0x28000c, [], 24, [⟨31, 1, .ro, .none, .nobody, 0⟩, ⟨30, 1, .w1c, .l, .both, 0⟩, ⟨16, 13, .ro, .none, .nobody, 0⟩, ⟨0, 16, .ro, .none, .nobody, 0⟩]⟩,
   ⟨.CTR_STATUS, 0x280004, [], 24, [⟨16, 10, .ro, .none, .nobody, 0⟩, ⟨2, 1, .w1c, .l, .both, 0⟩, ⟨1, 1, .w1c, .l, .both, 0⟩, ⟨0, 1, .w1c, .l, .both, 0⟩]⟩,
   ⟨.PWR_CTL, 0x260000, [], 22, [⟨8, 4, .rw, .l, .both, 0⟩, ⟨3, 1, .rw, .l, .both, 0⟩, ⟨2, 1, .rw, .l, .both, 0⟩, ⟨1, 1, .rw, .l, .both, 1⟩, ⟨0, 1, .rw, .l, .both, 1⟩]⟩,
   ⟨.PWR_CMD, 0x260020, [], 22, [⟨31, 1, .wo, .l, .operator, 0⟩, ⟨8, 16, .rw, .l, .operator, 0⟩, ⟨0, 3, .rw, .l, .operator, 0⟩]⟩,
   ⟨.PWR_STATUS, 0x260028, [], 22, [⟨30, 2, .ro, .none, .nobody, 0⟩, ⟨3, 1, .w1c, .l, .both, 0⟩, ⟨2, 1, .w1c, .l, .both, 0⟩, ⟨1, 1, .w1c, .l, .both, 0⟩, ⟨0, 1, .w1c, .l, .both, 0⟩]⟩,
   ⟨.PWR_CH_STATUS, 0x260100, [(0x4, 16)], 22, [⟨4, 1, .w1c, .l, .both, 0⟩, ⟨3, 1, .ro, .none, .nobody, 0⟩, ⟨0, 3, .ro, .none, .nobody, 0⟩]⟩,
   ⟨.THM_STATUS, 0x261004, [], 23, [⟨31, 1, .ro, .none, .nobody, 0⟩, ⟨3, 1, .w1c, .l, .both, 0⟩, ⟨2, 1, .w1c, .l, .both, 0⟩, ⟨1, 1, .w1c, .l, .both, 0⟩, ⟨0, 1, .w1c, .l, .both, 0⟩]⟩,
   ⟨.THM_SITE, 0x261100, [(0x4, 24)], 23, [⟨31, 1, .ro, .none, .nobody, 0⟩, ⟨30, 1, .ro, .none, .nobody, 0⟩, ⟨29, 1, .ro, .none, .nobody, 0⟩, ⟨28, 1, .ro, .none, .nobody, 0⟩, ⟨24, 3, .ro, .none, .nobody, 0⟩, ⟨0, 16, .ro, .none, .nobody, 0⟩]⟩,
   ⟨.THM_ZONE, 0x261200, [(0x4, 8)], 23, [⟨27, 1, .ro, .none, .nobody, 0⟩, ⟨26, 1, .ro, .none, .nobody, 0⟩, ⟨25, 1, .ro, .none, .nobody, 0⟩, ⟨16, 3, .ro, .none, .nobody, 0⟩, ⟨0, 16, .ro, .none, .nobody, 0⟩]⟩,
   ⟨.THM_MOD, 0x261300, [(0x4, 32)], 23, [⟨26, 1, .ro, .none, .nobody, 0⟩, ⟨25, 1, .ro, .none, .nobody, 0⟩, ⟨24, 1, .ro, .none, .nobody, 0⟩, ⟨16, 3, .ro, .none, .nobody, 0⟩, ⟨0, 16, .ro, .none, .nobody, 0⟩]⟩,
   ⟨.HBR_STATUS, 0x600, [], 2, [⟨29, 3, .ro, .none, .nobody, 1⟩, ⟨28, 1, .ro, .none, .nobody, 0⟩, ⟨24, 4, .ro, .none, .nobody, 1⟩, ⟨16, 8, .ro, .none, .nobody, 0⟩, ⟨0, 1, .ro, .none, .nobody, 0⟩]⟩,
   ⟨.HBR_REASON, 0x604, [], 2, [⟨30, 2, .ro, .none, .nobody, 0⟩, ⟨16, 8, .ro, .none, .nobody, 0⟩, ⟨0, 8, .ro, .none, .nobody, 0⟩]⟩,
   ⟨.HBR_CTL, 0x608, [], 2, [⟨1, 1, .rw, .l, .installer, 0⟩, ⟨0, 1, .wo, .l, .installer, 0⟩]⟩,
   ⟨.HBR_WDOG, 0x60c, [], 2, [⟨0, 8, .rw, .l, .installer, 30⟩]⟩,
   ⟨.HBR_CH_STATUS, 0x610, [], 2, [⟨20, 1, .ro, .none, .nobody, 0⟩, ⟨16, 4, .ro, .none, .nobody, 0⟩, ⟨0, 16, .ro, .none, .nobody, 0⟩]⟩,
   ⟨.FLT_CTL, 0x208000, [], 25, [⟨4, 1, .rw, .l, .both, 0⟩, ⟨0, 4, .rw, .l, .both, 12⟩]⟩,
   ⟨.FLT_STATUS, 0x208004, [], 25, [⟨8, 6, .ro, .none, .nobody, 0⟩, ⟨5, 1, .w1c, .l, .both, 0⟩, ⟨4, 1, .w1c, .l, .both, 0⟩, ⟨0, 4, .w1c, .l, .both, 0⟩]⟩,
   ⟨.FLT_REC_CLR, 0x208040, [], 25, [⟨31, 1, .wo, .l, .both, 0⟩, ⟨30, 1, .wo, .l, .both, 0⟩, ⟨0, 7, .rw, .l, .both, 0⟩]⟩,
   ⟨.FLT_SEV, 0x208400, [(0x4, 96)], 25, [⟨31, 1, .ro, .i, .nobody, 0⟩, ⟨30, 1, .ro, .i, .nobody, 0⟩, ⟨0, 2, .rw, .l, .installer, 0⟩]⟩,
   ⟨.ROL_LAST, 0x80c, [], 3, [⟨30, 2, .ro, .none, .nobody, 0⟩, ⟨24, 2, .ro, .none, .nobody, 0⟩, ⟨0, 23, .ro, .none, .nobody, 0⟩]⟩,
   ⟨.AUD_CTL, 0xa00, [], 4, [⟨31, 1, .wo, .l, .maker, 0⟩, ⟨1, 1, .rw, .l, .both, 0⟩, ⟨0, 1, .rw, .l, .both, 0⟩]⟩,
   ⟨.AUD_STATUS, 0xa04, [], 4, [⟨31, 1, .ro, .none, .nobody, 0⟩, ⟨16, 5, .ro, .none, .nobody, 0⟩, ⟨0, 12, .ro, .none, .nobody, 0⟩]⟩,
   ⟨.GLB_INT_PEND, 0x40, [], 0, [⟨0, 27, .w1c, .l, .both, 0⟩]⟩,
   ⟨.GLB_ID, 0x0, [], 0, [⟨16, 16, .ro, .none, .nobody, 5536⟩, ⟨0, 16, .ro, .none, .nobody, 5682⟩]⟩,
   ⟨.GLB_REV, 0x4, [], 0, [⟨8, 8, .ro, .none, .nobody, 2⟩, ⟨0, 8, .ro, .none, .nobody, 1⟩]⟩,
   ⟨.GLB_CFG_REJECT, 0x10, [], 0, [⟨31, 1, .w1c, .l, .both, 0⟩, ⟨23, 8, .ro, .none, .nobody, 0⟩, ⟨0, 23, .ro, .none, .nobody, 0⟩]⟩,
   ⟨.GLB_INT_LINE, 0x44, [], 0, [⟨0, 8, .ro, .none, .nobody, 0⟩]⟩,
   ⟨.NVM_CTL, 0xc00, [], 5, [⟨0, 1, .rw, .l, .maker, 0⟩]⟩,
   ⟨.NVM_STATUS, 0xc04, [], 5, [⟨31, 1, .ro, .none, .nobody, 0⟩, ⟨30, 1, .ro, .none, .nobody, 0⟩, ⟨29, 1, .ro, .none, .nobody, 0⟩]⟩,
   ⟨.KPR_CTL, 0x70000, [], 21, [⟨0, 1, .rw, .l, .installer, 0⟩]⟩,
   ⟨.KPR_STATUS, 0x70004, [], 21, [⟨8, 8, .ro, .none, .nobody, 0⟩, ⟨0, 1, .w1c, .l, .installer, 0⟩]⟩,
   ⟨.KPR_PROG, 0x70008, [], 21, [⟨16, 14, .ro, .i, .nobody, 0⟩, ⟨0, 16, .ro, .i, .nobody, 0⟩]⟩,
   ⟨.TIM_NOW_LO, 0x60008, [], 19, [⟨0, 32, .ro, .none, .nobody, 0⟩]⟩,
   ⟨.TIM_NOW_HI, 0x6000c, [], 19, [⟨0, 32, .ro, .none, .nobody, 0⟩]⟩,
   ⟨.TIM_OFFSET, 0x60010, [], 19, [⟨0, 32, .ro, .none, .nobody, 0⟩]⟩,
   ⟨.TIM_RATE, 0x60014, [], 19, [⟨0, 18, .ro, .none, .nobody, 0⟩]⟩,
   ⟨.TIM_STEP_CNT, 0x60020, [], 19, [⟨0, 32, .rc, .none, .nobody, 0⟩]⟩]

/-- The catalogue, part 4. -/
def catalog4 : List RegInfo :=
  [
   ⟨.TIM_BAD_CNT, 0x60024, [], 19, [⟨0, 32, .rc, .none, .nobody, 0⟩]⟩,
   ⟨.TIM_UNIT_ID, 0x60028, [], 19, [⟨0, 12, .ro, .i, .nobody, 0⟩]⟩,
   ⟨.LGT_START_LO, 0x61000, [(0x20, 64)], 20, [⟨0, 32, .rw, .s, .both, 0⟩]⟩,
   ⟨.LGT_START_HI, 0x61004, [(0x20, 64)], 20, [⟨0, 32, .rw, .s, .both, 0⟩]⟩,
   ⟨.LGT_PERIOD, 0x61008, [(0x20, 64)], 20, [⟨0, 32, .rw, .s, .both, 0⟩]⟩,
   ⟨.LGT_ON, 0x6100c, [(0x20, 64)], 20, [⟨0, 24, .rw, .s, .both, 0⟩]⟩,
   ⟨.LGT_PHASE, 0x61010, [(0x20, 64)], 20, [⟨0, 32, .rw, .s, .both, 0⟩]⟩,
   ⟨.LGT_TARGET, 0x61018, [(0x20, 64)], 20, [⟨0, 32, .rw, .s, .both, 0⟩]⟩,
   ⟨.LGT_ARG, 0x6101c, [(0x20, 64)], 20, [⟨0, 32, .rw, .s, .both, 0⟩]⟩,
   ⟨.LGT_COMMIT, 0x60100, [], 20, [⟨0, 1, .wo, .l, .both, 0⟩]⟩,
   ⟨.LGT_COMMIT_STATUS, 0x60104, [], 20, [⟨31, 1, .ro, .none, .nobody, 0⟩, ⟨8, 6, .ro, .none, .nobody, 63⟩, ⟨0, 4, .ro, .none, .nobody, 0⟩]⟩,
   ⟨.IMG_COUNT, 0x40c, [], 1, [⟨0, 32, .ro, .none, .nobody, 0⟩]⟩,
   ⟨.IMG_LOADED_ID, 0x410, [], 1, [⟨0, 32, .ro, .none, .nobody, 0⟩]⟩,
   ⟨.IMG_RELOAD_ID, 0x414, [], 1, [⟨0, 32, .ro, .none, .nobody, 0⟩]⟩,
   ⟨.IMG_RELOAD_CNT, 0x418, [], 1, [⟨0, 32, .ro, .none, .nobody, 0⟩]⟩,
   ⟨.EDT_BASE_LO, 0x30004, [], 9, [⟨0, 32, .ro, .i, .nobody, 0⟩]⟩,
   ⟨.EDT_BASE_HI, 0x30008, [], 9, [⟨0, 32, .ro, .i, .nobody, 0⟩]⟩,
   ⟨.EDT_INVAL_FIRST, 0x30010, [], 9, [⟨0, 16, .rw, .l, .operator, 0⟩]⟩,
   ⟨.EDT_ERR_INDEX, 0x30024, [], 9, [⟨0, 16, .ro, .none, .nobody, 0⟩]⟩,
   ⟨.EDT_DENY_CNT, 0x30028, [], 9, [⟨0, 32, .rc, .none, .nobody, 0⟩]⟩,
   ⟨.EDT_DECODE_CNT, 0x3002c, [], 9, [⟨0, 32, .rc, .none, .nobody, 0⟩]⟩,
   ⟨.EDT_APERTURE, 0x30030, [], 9, [⟨0, 5, .rw, .l, .installer, 0⟩]⟩,
   ⟨.EDT_SET_RB, 0x30200, [(0x80, 8), (0x4, 20)], 9, [⟨0, 32, .ro, .i, .nobody, 0⟩]⟩,
   ⟨.PRT_DENY_CNT, 0x10014, [(0x800, 6)], 6, [⟨0, 32, .rc, .none, .nobody, 0⟩]⟩,
   ⟨.ARB_PREC_ACTIVE, 0x18004, [], 7, [⟨16, 2, .ro, .none, .nobody, 0⟩, ⟨14, 2, .ro, .none, .nobody, 3⟩, ⟨12, 2, .ro, .none, .nobody, 1⟩, ⟨10, 2, .ro, .none, .nobody, 3⟩, ⟨8, 2, .ro, .none, .nobody, 1⟩, ⟨0, 8, .ro, .none, .nobody, 170⟩]⟩,
   ⟨.ARB_CUTOFF_CNT, 0x18018, [], 7, [⟨0, 32, .rc, .none, .nobody, 0⟩]⟩,
   ⟨.REGU_COMMIT, 0x20008, [], 8, [⟨0, 1, .wo, .l, .both, 0⟩]⟩,
   ⟨.REGU_ADMIT, 0x20010, [], 8, [⟨0, 7, .rw, .s, .both, 85⟩]⟩,
   ⟨.REGU_DELIV_IMG, 0x20014, [], 8, [⟨0, 24, .ro, .none, .nobody, 0⟩]⟩,
   ⟨.REGU_DELIV_MEAS, 0x20018, [], 8, [⟨0, 24, .ro, .none, .nobody, 0⟩]⟩,
   ⟨.REGU_LIMIT, 0x2001c, [], 8, [⟨0, 24, .ro, .none, .nobody, 0⟩]⟩,
   ⟨.REGU_TOTAL, 0x20020, [], 8, [⟨0, 24, .ro, .none, .nobody, 0⟩]⟩,
   ⟨.REGU_SCALE, 0x20024, [], 8, [⟨0, 17, .ro, .none, .nobody, 65536⟩]⟩,
   ⟨.REGU_DLMISS_CNT, 0x20028, [], 8, [⟨0, 32, .rc, .none, .nobody, 0⟩]⟩,
   ⟨.REGU_ARRIVE_LATE_CNT, 0x2002c, [], 8, [⟨0, 32, .rc, .none, .nobody, 0⟩]⟩,
   ⟨.REGU_MISS, 0x20040, [(0x4, 8)], 8, [⟨0, 32, .w1c, .l, .both, 0⟩]⟩,
   ⟨.REGU_GT_GUAR, 0x21004, [(0x20, 256)], 8, [⟨0, 24, .rw, .s, .both, 0⟩]⟩,
   ⟨.REGU_GT_CEIL, 0x21008, [(0x20, 256)], 8, [⟨0, 24, .rw, .s, .both, 0⟩]⟩,
   ⟨.REGU_GT_EFF, 0x2100c, [(0x20, 256)], 8, [⟨0, 24, .ro, .none, .nobody, 0⟩]⟩,
   ⟨.REGU_GT_SERVED, 0x21010, [(0x20, 256)], 8, [⟨0, 32, .ro, .none, .nobody, 0⟩]⟩]

/-- The catalogue, part 5. -/
def catalog5 : List RegInfo :=
  [
   ⟨.REGU_GT_CNT, 0x21014, [(0x20, 256)], 8, [⟨16, 16, .rc, .none, .nobody, 0⟩, ⟨0, 16, .rc, .none, .nobody, 0⟩]⟩,
   ⟨.REGU_GT_LAST, 0x21018, [(0x20, 256)], 8, [⟨31, 1, .ro, .none, .nobody, 0⟩, ⟨0, 24, .ro, .none, .nobody, 0⟩]⟩,
   ⟨.CCH_MNT_BASE_LO, 0x50008, [], 10, [⟨0, 32, .rw, .l, .operator, 0⟩]⟩,
   ⟨.CCH_MNT_BASE_HI, 0x5000c, [], 10, [⟨0, 32, .rw, .l, .operator, 0⟩]⟩,
   ⟨.CCH_MNT_LIMIT_LO, 0x50010, [], 10, [⟨0, 32, .rw, .l, .operator, 0⟩]⟩,
   ⟨.CCH_MNT_LIMIT_HI, 0x50014, [], 10, [⟨0, 32, .rw, .l, .operator, 0⟩]⟩,
   ⟨.CCH_MNT_SETS, 0x50018, [], 10, [⟨16, 10, .rw, .l, .operator, 0⟩, ⟨0, 9, .rw, .l, .operator, 0⟩]⟩,
   ⟨.CCH_MNT_WAYS, 0x5001c, [], 10, [⟨0, 16, .rw, .l, .operator, 0⟩]⟩,
   ⟨.CCH_MNT_WB_CNT, 0x50020, [], 10, [⟨0, 32, .ro, .none, .nobody, 0⟩]⟩,
   ⟨.CCH_MNT_REFUSED_CNT, 0x50024, [], 10, [⟨0, 32, .ro, .none, .nobody, 0⟩]⟩,
   ⟨.CCH_PIN_DROP_CNT, 0x50028, [], 10, [⟨0, 32, .rc, .none, .nobody, 0⟩]⟩,
   ⟨.CCH_PIN_FULL_CNT, 0x5002c, [], 10, [⟨0, 32, .rc, .none, .nobody, 0⟩]⟩,
   ⟨.CCH_PIN_PORTS, 0x50030, [], 10, [⟨0, 6, .rw, .l, .installer, 0⟩]⟩,
   ⟨.SCH_URGENT, 0x80008, [(0x4000, 32)], 11, [⟨0, 16, .rw, .l, .both, 16⟩]⟩,
   ⟨.SCH_PAGE, 0x8000c, [(0x4000, 32)], 11, [⟨0, 12, .rw, .l, .both, 32⟩]⟩,
   ⟨.SCH_DRAIN, 0x80010, [(0x4000, 32)], 11, [⟨8, 6, .rw, .l, .both, 40⟩, ⟨0, 6, .rw, .l, .both, 16⟩]⟩,
   ⟨.SCH_ABO, 0x80024, [(0x4000, 32)], 11, [⟨0, 16, .ro, .none, .nobody, 0⟩]⟩,
   ⟨.SCH_SNT, 0x8002c, [(0x4000, 32)], 11, [⟨0, 16, .rw, .l, .installer, 64⟩]⟩,
   ⟨.SCH_REPLAY, 0x80030, [(0x4000, 32)], 11, [⟨0, 8, .rw, .q, .installer, 64⟩]⟩,
   ⟨.SCH_REF_FORCED_CNT, 0x80034, [(0x4000, 32)], 11, [⟨0, 32, .rc, .none, .nobody, 0⟩]⟩,
   ⟨.SCH_ABO_CNT, 0x80038, [(0x4000, 32)], 11, [⟨0, 32, .rc, .none, .nobody, 0⟩]⟩,
   ⟨.SCH_REPLAY_CNT, 0x8003c, [(0x4000, 32)], 11, [⟨0, 32, .rc, .none, .nobody, 0⟩]⟩,
   ⟨.CLS_SLOT, 0x80048, [(0x4000, 32)], 12, [⟨31, 1, .ro, .none, .nobody, 0⟩, ⟨30, 1, .ro, .none, .nobody, 0⟩, ⟨24, 4, .ro, .none, .nobody, 0⟩, ⟨23, 1, .ro, .none, .nobody, 0⟩, ⟨22, 1, .ro, .none, .nobody, 0⟩, ⟨16, 4, .ro, .none, .nobody, 0⟩, ⟨15, 1, .ro, .none, .nobody, 0⟩, ⟨14, 1, .ro, .none, .nobody, 0⟩, ⟨8, 4, .ro, .none, .nobody, 0⟩, ⟨7, 1, .ro, .none, .nobody, 0⟩, ⟨6, 1, .ro, .none, .nobody, 0⟩, ⟨0, 4, .ro, .none, .nobody, 0⟩]⟩,
   ⟨.CLS_BIN, 0x80050, [(0x4000, 32)], 12, [⟨16, 10, .ro, .none, .nobody, 0⟩, ⟨0, 16, .ro, .none, .nobody, 0⟩]⟩,
   ⟨.CLS_LAT, 0x80054, [(0x4000, 32)], 12, [⟨16, 16, .ro, .none, .nobody, 0⟩, ⟨0, 16, .ro, .none, .nobody, 0⟩]⟩,
   ⟨.CLS_VIOL_CNT, 0x80058, [(0x4000, 32)], 12, [⟨0, 32, .rc, .none, .nobody, 0⟩]⟩,
   ⟨.CLS_WINDOW, 0x81000, [(0x4000, 32), (0x4, 1024)], 12, [⟨0, 32, .ro, .none, .nobody, 0⟩]⟩,
   ⟨.CLS_SHADOW, 0x82000, [(0x4000, 32), (0x4, 256)], 12, [⟨0, 32, .ro, .none, .nobody, 0⟩]⟩,
   ⟨.SNT_PRESENT_LO, 0x74000, [], 13, [⟨0, 32, .ro, .i, .nobody, 0⟩]⟩,
   ⟨.SNT_PRESENT_HI, 0x74004, [], 13, [⟨0, 32, .ro, .i, .nobody, 0⟩]⟩,
   ⟨.SNT_CALL_ARG, 0x78004, [(0x20, 32)], 13, [⟨0, 32, .rw, .l, .installer, 0⟩]⟩,
   ⟨.SNT_CALL_RESULT, 0x7800c, [(0x20, 32)], 13, [⟨0, 32, .ro, .none, .nobody, 0⟩]⟩,
   ⟨.SNT_ABORT_CNT, 0x78014, [(0x20, 32)], 13, [⟨0, 32, .rc, .none, .nobody, 0⟩]⟩,
   ⟨.PHY_CA, 0x100100, [(0x8000, 32), (0x4, 8)], 14, [⟨12, 6, .ro, .none, .nobody, 0⟩, ⟨8, 4, .rw, .q, .installer, 0⟩, ⟨0, 8, .rw, .q, .installer, 0⟩]⟩,
   ⟨.PHY_CS, 0x100120, [(0x8000, 32), (0x4, 4)], 14, [⟨12, 6, .ro, .none, .nobody, 0⟩, ⟨8, 4, .rw, .q, .installer, 0⟩, ⟨0, 8, .rw, .q, .installer, 0⟩]⟩,
   ⟨.PHY_CK, 0x100130, [(0x8000, 32), (0x4, 2)], 14, [⟨12, 6, .rw, .q, .installer, 0⟩, ⟨8, 4, .ro, .none, .nobody, 0⟩, ⟨0, 8, .rw, .q, .installer, 0⟩]⟩,
   ⟨.PHY_TRAIN_FAIL_LO, 0x100010, [(0x8000, 32)], 14, [⟨0, 32, .ro, .none, .nobody, 0⟩]⟩,
   ⟨.PHY_TRAIN_FAIL_HI, 0x100014, [(0x8000, 32)], 14, [⟨26, 4, .ro, .none, .nobody, 0⟩, ⟨18, 8, .ro, .none, .nobody, 0⟩, ⟨8, 10, .ro, .none, .nobody, 0⟩, ⟨0, 8, .ro, .none, .nobody, 0⟩]⟩,
   ⟨.PHY_LOOP_ERR_CNT, 0x100020, [(0x8000, 32)], 14, [⟨0, 32, .rc, .none, .nobody, 0⟩]⟩,
   ⟨.PHY_LOOP_LANES_LO, 0x100024, [(0x8000, 32)], 14, [⟨0, 32, .ro, .none, .nobody, 0⟩]⟩]

/-- The catalogue, part 6. -/
def catalog6 : List RegInfo :=
  [
   ⟨.PHY_LOOP_LANES_HI, 0x100028, [(0x8000, 32)], 14, [⟨0, 8, .ro, .none, .nobody, 0⟩]⟩,
   ⟨.PHY_TRAIN_TIME, 0x10002c, [(0x8000, 32)], 14, [⟨0, 32, .ro, .none, .nobody, 0⟩]⟩,
   ⟨.PHY_IMP, 0x100030, [(0x8000, 32)], 14, [⟨16, 16, .ro, .none, .nobody, 0⟩, ⟨8, 2, .ro, .i, .nobody, 0⟩, ⟨4, 3, .ro, .i, .nobody, 0⟩, ⟨0, 2, .ro, .i, .nobody, 0⟩]⟩,
   ⟨.PHY_RATE, 0x100034, [(0x8000, 32)], 14, [⟨0, 16, .rw, .l, .nobody, 0⟩]⟩,
   ⟨.CAL_POINT_LO, 0x104020, [(0x8000, 32)], 15, [⟨0, 32, .ro, .i, .nobody, 0⟩]⟩,
   ⟨.CAL_POINT_HI, 0x104024, [(0x8000, 32)], 15, [⟨0, 32, .ro, .i, .nobody, 0⟩]⟩,
   ⟨.CAL_PARAM, 0x104028, [(0x8000, 32)], 15, [⟨28, 2, .ro, .i, .nobody, 0⟩, ⟨24, 3, .ro, .i, .nobody, 0⟩, ⟨16, 4, .ro, .i, .nobody, 0⟩, ⟨8, 8, .ro, .i, .nobody, 0⟩, ⟨0, 8, .ro, .i, .nobody, 0⟩]⟩,
   ⟨.CAL_STEP_CNT, 0x104030, [(0x8000, 32)], 15, [⟨0, 32, .rc, .none, .nobody, 0⟩]⟩,
   ⟨.CAL_DISAGREE_CNT, 0x104034, [(0x8000, 32)], 15, [⟨0, 32, .rc, .none, .nobody, 0⟩]⟩,
   ⟨.CAL_NVM_BAD_CNT, 0x104038, [(0x8000, 32)], 15, [⟨0, 32, .rc, .none, .nobody, 0⟩]⟩,
   ⟨.ECC_PERSIST, 0x202004, [], 16, [⟨0, 16, .rw, .l, .installer, 14400⟩]⟩,
   ⟨.ECC_LEAK_US, 0x202008, [], 16, [⟨0, 24, .rw, .l, .installer, 1000000⟩]⟩,
   ⟨.ECC_CE_CNT, 0x200008, [(0x100, 32)], 16, [⟨0, 32, .rc, .none, .nobody, 0⟩]⟩,
   ⟨.ECC_UE_CNT, 0x20000c, [(0x100, 32)], 16, [⟨0, 32, .rc, .none, .nobody, 0⟩]⟩,
   ⟨.ECC_POISON_READ_CNT, 0x200010, [(0x100, 32)], 16, [⟨0, 32, .rc, .none, .nobody, 0⟩]⟩,
   ⟨.ECC_OVF_CNT, 0x200014, [(0x100, 32)], 16, [⟨0, 32, .rc, .none, .nobody, 0⟩]⟩,
   ⟨.ECC_LOG_LOST_CNT, 0x200018, [(0x100, 32)], 16, [⟨0, 32, .rc, .none, .nobody, 0⟩]⟩,
   ⟨.ECC_ERASE_CNT, 0x20001c, [(0x100, 32)], 16, [⟨0, 32, .rc, .none, .nobody, 0⟩]⟩,
   ⟨.ECC_LOG_SEL, 0x200020, [(0x100, 32)], 16, [⟨31, 1, .wo, .l, .both, 0⟩, ⟨0, 5, .rw, .l, .both, 0⟩]⟩,
   ⟨.ECC_LOG_DATA, 0x200040, [(0x100, 32), (0x4, 8)], 16, [⟨0, 32, .ro, .none, .nobody, 0⟩]⟩,
   ⟨.ECC_UE_REC, 0x200060, [(0x100, 32), (0x4, 4)], 16, [⟨0, 32, .ro, .none, .nobody, 0⟩]⟩,
   ⟨.ECC_REPAIR_CODE, 0x200088, [(0x100, 32)], 16, [⟨0, 4, .ro, .none, .nobody, 0⟩]⟩,
   ⟨.ECC_REPAIR_RES, 0x20008c, [(0x100, 32)], 16, [⟨0, 32, .ro, .none, .nobody, 0⟩]⟩,
   ⟨.ECC_INJ_ADDR_LO, 0x202044, [], 16, [⟨0, 32, .rw, .l, .installer, 0⟩]⟩,
   ⟨.ECC_INJ_ADDR_HI, 0x202048, [], 16, [⟨0, 32, .rw, .l, .installer, 0⟩]⟩,
   ⟨.ECC_INJ_STATUS, 0x202050, [], 16, [⟨31, 1, .ro, .none, .nobody, 0⟩, ⟨30, 1, .ro, .none, .nobody, 0⟩, ⟨29, 1, .ro, .none, .nobody, 0⟩, ⟨0, 5, .ro, .none, .nobody, 0⟩]⟩,
   ⟨.SCB_RATE, 0x204008, [], 17, [⟨0, 12, .rw, .l, .both, 40⟩]⟩,
   ⟨.SCB_RANGE, 0x204100, [(0x10, 8), (0x4, 4)], 17, [⟨0, 32, .rw, .l, .both, 0⟩]⟩,
   ⟨.SCB_SUM, 0x204200, [(0x40, 8), (0x4, 16)], 17, [⟨0, 32, .ro, .none, .nobody, 0⟩]⟩,
   ⟨.MOD_SB_CFG, 0x2c0008, [], 26, [⟨0, 14, .rw, .q, .installer, 12500⟩]⟩,
   ⟨.MOD_RPL_CFG, 0x2c000c, [], 26, [⟨8, 16, .rw, .l, .installer, 100⟩, ⟨0, 8, .rw, .l, .installer, 10⟩]⟩,
   ⟨.MOD_ID_MFR, 0x2c1004, [(0x40, 32)], 26, [⟨0, 32, .ro, .none, .nobody, 0⟩]⟩,
   ⟨.MOD_ID_SERIAL, 0x2c1008, [(0x40, 32)], 26, [⟨0, 32, .ro, .none, .nobody, 0⟩]⟩,
   ⟨.MOD_CAPS, 0x2c100c, [(0x40, 32)], 26, [⟨0, 32, .ro, .none, .nobody, 0⟩]⟩,
   ⟨.MOD_POWERED, 0x2c1010, [(0x40, 32)], 26, [⟨0, 32, .ro, .none, .nobody, 0⟩]⟩,
   ⟨.MOD_HOT, 0x2c1014, [(0x40, 32)], 26, [⟨0, 32, .ro, .none, .nobody, 0⟩]⟩,
   ⟨.MOD_CE, 0x2c1018, [(0x40, 32)], 26, [⟨0, 32, .ro, .none, .nobody, 0⟩]⟩,
   ⟨.MOD_PERSIST, 0x2c101c, [(0x40, 32)], 26, [⟨0, 32, .ro, .none, .nobody, 0⟩]⟩,
   ⟨.MOD_UE, 0x2c1020, [(0x40, 32)], 26, [⟨0, 32, .ro, .none, .nobody, 0⟩]⟩,
   ⟨.MOD_OVF, 0x2c1024, [(0x40, 32)], 26, [⟨0, 32, .ro, .none, .nobody, 0⟩]⟩]

/-- The catalogue, part 7. -/
def catalog7 : List RegInfo :=
  [
   ⟨.MOD_REASON, 0x2c1028, [(0x40, 32)], 26, [⟨0, 32, .ro, .none, .nobody, 0⟩]⟩,
   ⟨.TND_RING_BASE_LO, 0x240010, [], 18, [⟨0, 32, .rw, .q, .operator, 0⟩]⟩,
   ⟨.TND_RING_BASE_HI, 0x240014, [], 18, [⟨0, 32, .rw, .q, .operator, 0⟩]⟩,
   ⟨.TND_CMPL_BASE_LO, 0x240018, [], 18, [⟨0, 32, .rw, .q, .operator, 0⟩]⟩,
   ⟨.TND_CMPL_BASE_HI, 0x24001c, [], 18, [⟨0, 32, .rw, .q, .operator, 0⟩]⟩,
   ⟨.TND_RING_SIZE, 0x240020, [], 18, [⟨0, 4, .rw, .q, .operator, 4⟩]⟩,
   ⟨.TND_TAIL, 0x240024, [], 18, [⟨0, 16, .rw, .l, .operator, 0⟩]⟩,
   ⟨.TND_HEAD, 0x240028, [], 18, [⟨0, 16, .ro, .none, .nobody, 0⟩]⟩,
   ⟨.TND_LANE, 0x240040, [(0x4, 4)], 18, [⟨31, 1, .ro, .none, .nobody, 0⟩, ⟨20, 1, .ro, .none, .nobody, 0⟩, ⟨16, 4, .ro, .none, .nobody, 0⟩, ⟨0, 16, .ro, .none, .nobody, 0⟩]⟩,
   ⟨.TND_LANE_CHUNK, 0x240050, [(0x4, 4)], 18, [⟨0, 21, .ro, .none, .nobody, 0⟩]⟩,
   ⟨.CTR_VAL_LO, 0x281008, [(0x10, 552)], 24, [⟨0, 32, .ro, .none, .nobody, 0⟩]⟩,
   ⟨.CTR_VAL_HI, 0x28100c, [(0x10, 552)], 24, [⟨0, 16, .ro, .none, .nobody, 0⟩]⟩,
   ⟨.CTR_CTL, 0x280000, [], 24, [⟨2, 1, .rw, .l, .both, 0⟩, ⟨1, 1, .rw, .l, .both, 0⟩, ⟨0, 1, .rw, .l, .both, 0⟩]⟩,
   ⟨.CTR_SNAP, 0x280008, [], 24, [⟨31, 1, .wo, .l, .both, 0⟩, ⟨0, 16, .rw, .l, .both, 0⟩]⟩,
   ⟨.CTR_SNAP_TIME_LO, 0x280010, [], 24, [⟨0, 32, .ro, .none, .nobody, 0⟩]⟩,
   ⟨.CTR_SNAP_TIME_HI, 0x280014, [], 24, [⟨0, 32, .ro, .none, .nobody, 0⟩]⟩,
   ⟨.CTR_CLEAR, 0x280018, [], 24, [⟨31, 1, .wo, .l, .both, 0⟩, ⟨0, 10, .rw, .l, .both, 0⟩]⟩,
   ⟨.CTR_LIVE_SEL, 0x28001c, [], 24, [⟨0, 10, .rw, .l, .both, 0⟩]⟩,
   ⟨.CTR_LIVE_LO, 0x280020, [], 24, [⟨0, 32, .ro, .none, .nobody, 0⟩]⟩,
   ⟨.CTR_LIVE_MID, 0x280024, [], 24, [⟨0, 32, .ro, .none, .nobody, 0⟩]⟩,
   ⟨.CTR_LIVE_HI, 0x280028, [], 24, [⟨0, 32, .ro, .none, .nobody, 0⟩]⟩,
   ⟨.CTR_OVF, 0x280040, [(0x4, 18)], 24, [⟨0, 32, .w1c, .l, .both, 0⟩]⟩,
   ⟨.CTR_RANGE, 0x280100, [(0x10, 4), (0x4, 4)], 24, [⟨0, 32, .rw, .l, .both, 0⟩]⟩,
   ⟨.CTR_SAMPLE_WR, 0x280200, [], 24, [⟨16, 16, .ro, .none, .nobody, 0⟩, ⟨0, 6, .ro, .none, .nobody, 0⟩]⟩,
   ⟨.CTR_SAMPLE_LOST_CNT, 0x280204, [], 24, [⟨0, 32, .rc, .none, .nobody, 0⟩]⟩,
   ⟨.CTR_SNAP_DROP_CNT, 0x280208, [], 24, [⟨0, 32, .rc, .none, .nobody, 0⟩]⟩,
   ⟨.CTR_SLOT_SNAP, 0x284000, [(0x20, 32), (0x4, 8)], 24, [⟨0, 32, .ro, .none, .nobody, 0⟩]⟩,
   ⟨.CTR_SAMPLE, 0x286000, [(0x20, 64), (0x4, 8)], 24, [⟨0, 32, .ro, .none, .nobody, 0⟩]⟩,
   ⟨.PWR_IDLE_A1, 0x260004, [], 22, [⟨0, 16, .rw, .l, .both, 256⟩]⟩,
   ⟨.PWR_IDLE_S1, 0x260008, [], 22, [⟨0, 16, .rw, .l, .both, 100⟩]⟩,
   ⟨.PWR_IDLE_S2, 0x26000c, [], 22, [⟨0, 16, .rw, .l, .both, 10⟩]⟩,
   ⟨.PWR_IDLE_S3, 0x260010, [], 22, [⟨0, 16, .rw, .l, .both, 1000⟩]⟩,
   ⟨.PWR_DRAIN, 0x260014, [], 22, [⟨0, 16, .rw, .l, .both, 100⟩]⟩,
   ⟨.PWR_CMD_STATUS, 0x260024, [], 22, [⟨31, 1, .ro, .none, .nobody, 0⟩, ⟨0, 4, .ro, .none, .nobody, 0⟩]⟩,
   ⟨.PWR_WAKE, 0x260030, [], 22, [⟨8, 24, .rw, .l, .both, 0⟩, ⟨0, 2, .rw, .l, .both, 1⟩]⟩,
   ⟨.THM_CTL, 0x261000, [], 23, [⟨0, 4, .rw, .l, .both, 0⟩]⟩,
   ⟨.THM_ROUND_CNT, 0x261010, [], 23, [⟨0, 32, .rc, .none, .nobody, 0⟩]⟩,
   ⟨.THM_RB, 0x261400, [(0x4, 64)], 23, [⟨0, 32, .ro, .none, .nobody, 0⟩]⟩,
   ⟨.FLT_MSG_LOST_CNT, 0x208008, [], 25, [⟨0, 32, .rc, .none, .nobody, 0⟩]⟩,
   ⟨.FLT_WR_LOST_CNT, 0x20800c, [], 25, [⟨0, 32, .rc, .none, .nobody, 0⟩]⟩]

/-- The catalogue, part 8. -/
def catalog8 : List RegInfo :=
  [
   ⟨.FLT_FENCE_SET_SUB, 0x208010, [], 25, [⟨0, 32, .wo, .l, .operator, 0⟩]⟩,
   ⟨.FLT_FENCE_CLR_SUB, 0x208014, [], 25, [⟨0, 32, .wo, .l, .operator, 0⟩]⟩,
   ⟨.FLT_FENCE_SUB, 0x208018, [], 25, [⟨0, 32, .ro, .none, .nobody, 0⟩]⟩,
   ⟨.FLT_FENCE_IN_SUB, 0x20801c, [], 25, [⟨0, 32, .ro, .none, .nobody, 0⟩]⟩,
   ⟨.FLT_FENCE_SET_SLICE, 0x208020, [], 25, [⟨0, 16, .wo, .l, .operator, 0⟩]⟩,
   ⟨.FLT_FENCE_CLR_SLICE, 0x208024, [], 25, [⟨0, 16, .wo, .l, .operator, 0⟩]⟩,
   ⟨.FLT_FENCE_SLICE, 0x208028, [], 25, [⟨0, 16, .ro, .none, .nobody, 0⟩]⟩,
   ⟨.FLT_FENCE_IN_SLICE, 0x20802c, [], 25, [⟨0, 16, .ro, .none, .nobody, 0⟩]⟩,
   ⟨.FLT_FENCE_SET_PORT, 0x208030, [], 25, [⟨0, 6, .wo, .l, .operator, 0⟩]⟩,
   ⟨.FLT_FENCE_CLR_PORT, 0x208034, [], 25, [⟨0, 6, .wo, .l, .operator, 0⟩]⟩,
   ⟨.FLT_FENCE_PORT, 0x208038, [], 25, [⟨0, 6, .ro, .none, .nobody, 0⟩]⟩,
   ⟨.FLT_FENCE_IN_PORT, 0x20803c, [], 25, [⟨0, 6, .ro, .none, .nobody, 0⟩]⟩,
   ⟨.FLT_REC, 0x209000, [(0x20, 96), (0x4, 8)], 25, [⟨0, 32, .ro, .none, .nobody, 0⟩]⟩,
   ⟨.ROL_N_WRITE, 0x800, [], 3, [⟨0, 32, .ro, .i, .nobody, 0⟩]⟩,
   ⟨.ROL_O_WRITE, 0x804, [], 3, [⟨0, 32, .ro, .i, .nobody, 0⟩]⟩,
   ⟨.ROL_O_AUDIT, 0x808, [], 3, [⟨0, 32, .ro, .i, .nobody, 0⟩]⟩,
   ⟨.ROL_REFUSED_CNT, 0x810, [], 3, [⟨0, 32, .rc, .none, .nobody, 0⟩]⟩,
   ⟨.AUD_FLAGS, 0xa0c, [], 4, [⟨1, 1, .w1c, .l, .both, 0⟩, ⟨0, 1, .w1c, .l, .both, 0⟩]⟩,
   ⟨.AUD_WRAPS, 0xa08, [], 4, [⟨0, 16, .ro, .none, .nobody, 0⟩]⟩,
   ⟨.AUD_LOST_CNT, 0xa10, [], 4, [⟨0, 32, .rc, .none, .nobody, 0⟩]⟩]

/-- Every register of the management space. -/
def catalog : List RegInfo :=
  catalog1 ++ catalog2 ++ catalog3 ++ catalog4 ++ catalog5 ++ catalog6 ++ catalog7 ++ catalog8

/-- The indices that put a register of these (stride, count) pairs at byte distance `d` from its base, if any
(R577). -/
def RegInfo.indices : List (Nat × Nat) → Nat → Option (List Nat)
  | [], d => if d = 0 then some [] else none
  | (st, n) :: rest, d =>
    let i := d / st
    if i < n then (RegInfo.indices rest (d - st * i)).map (fun l => i :: l) else none

/-- The register at a byte offset, with its indices (R576 to R578), searched in the order of the catalogue. -/
def RegInfo.find : List RegInfo → Nat → Option (RegInfo × List Nat)
  | [], _ => none
  | r :: rest, off =>
    if r.base ≤ off then
      match RegInfo.indices r.dims (off - r.base) with
      | some idx => some (r, idx)
      | none => RegInfo.find rest off
    else RegInfo.find rest off

/-- The register that lies at byte offset `off`, if one does (R8, R577). -/
def findReg (off : Nat) : Option (RegInfo × List Nat) := RegInfo.find catalog off

/-- The field descriptor of a catalogue field at byte offset `off`. -/
def FieldInfo.at_ (f : FieldInfo) (n : RegName) (idx : List Nat) (off : Nat) : Fld :=
  ⟨off, f.lo, f.width, indexReset n f.lo (idx.headD 0) f.rst⟩

end Sys2Proof.Machine
end

