-- ==== Sys2Proof/Machine/State.lean ====
section
/-! DEFINITION. The state of the block: every register, queue, buffer, table, mode, pin and store that spec/ gives it,
as plain data, and the queue of waiting commands. Replicated units are sparse tables whose default is the reset value,
so that the state right after reset lists nothing. -/

namespace Sys2Proof.Machine

/-- Reasons a step could stop with a fault. The block never shuts itself down on a fault (19_fault_reporting), so
no meaning of this model raises one. -/
inductive Fault
  /-- Raised by nobody: kept so that the outcome type has a fault to name. Safe. -/
  | none
  deriving DecidableEq, Repr

/-- Reasons a step is refused. -/
inductive Refusal
  /-- Raised by the dispatcher for a command whose meaning has not been written. Safe: the machine stops. -/
  | notModelled (mnemonic : String)
  /-- Raised by REGISTER_WRITE of the maker to the maker test space, whose contents spec/ does not describe (R523). Safe. -/
  | makerTestSpace
  deriving DecidableEq, Repr

/-! ## Time and lights (02) -/

/-- The disciplined local time of R31 to R37. Registers TIM_* hold the rest. -/
structure TimeSt where
  /-- Local time, whole nanoseconds, modulo 2^64. -/
  ns      : Nat
  /-- Binary fraction of the local time, 32 bits. -/
  frac    : Nat
  /-- Frequency term f, in units of 2^-16 ppb. -/
  f       : Int
  /-- Consecutive accepted beacons within 5 ns. -/
  good    : Nat
  /-- Beacon time of the previous accepted beacon. -/
  bprev   : Nat
  /-- Error bound since holdover entry, in 10^-6 ÷ 32 ns: 256 a TCLK cycle in HOLDOVER (R36), 48,828,125 an AOCLK period of
  10^9 ÷ 32,768 ns in S3 (R37), both exact. -/
  holdAcc : Nat
  /-- Value latched by a read of TIM_NOW_LO for the next read of TIM_NOW_HI (R41). -/
  latch   : Option Nat
  deriving DecidableEq, Repr, Inhabited

/-- Run-time state of one light entry; REMAIN, DONE, ACTIVE and the flags stand in LGT_STATUS. -/
structure LightRt where
  /-- Index k of the next occurrence START + k × PERIOD + PHASE. -/
  next  : Nat
  /-- End of the on-time in progress, ns. -/
  onEnd : Nat
  deriving DecidableEq, Repr, Inhabited

/-! ## Management, roles and audit (20, 21) -/

/-- What else a management write meets in the cycle in which it acts. -/
structure Aux where
  /-- Slices whose transfer in progress has reached a newly written ARB_HOLD_LIMIT (R174). -/
  mask  : BitVec 16
  /-- Bit errors and failing lanes that a loopback stopped by the write had counted (R343). -/
  errs  : BitVec 32
  lanes : BitVec 40
  /-- An increment of the counter falls in the cycle of its clear (R454). -/
  clash : Nat
  /-- A bit of a copy in the clause store that has flipped before a clause switch reads it (R300). -/
  store : Option (Fin 16 × Nat)
  /-- A header whose parity fails transfers in the cycle in which PRT_CTL.ENABLE is written 0 (R160). -/
  badHeader : Bool
  deriving DecidableEq, Repr, Inhabited

/-- One management access held back by a rule (R126, R530, R542). -/
structure MgAccess where
  role  : Role
  addr  : BitVec 21
  /-- MG_WDATA of a write; none for a read. -/
  wdata : Option Word
  aux   : Aux
  deriving DecidableEq, Repr

/-- An audit record before it is stored: the fields of R526 but WRAP and CRC, which the store adds. -/
structure AudRec where
  time    : Nat
  kind    : Nat
  role    : Nat
  outcome : Nat
  offset  : Nat
  old     : Nat
  new     : Nat
  deriving DecidableEq, Repr

/-- The management interface and the audit path. -/
structure MgmtSt where
  /-- MG_ACK, MG_ERR and MG_RDATA of the last access that ended. -/
  ack   : Bool
  err   : Bool
  rdata : Word
  /-- Writes waiting under R9, oldest first. -/
  held  : List MgAccess
  /-- The 16-entry audit queue of R530, oldest first. -/
  audQ  : List AudRec
  /-- Latches of the block's own records: 0 image loader, 1 + s repairs, 33 + s, 65 + c, 81 + p fence bits. -/
  latch : Tab (Option AudRec)
  deriving DecidableEq, Repr, Inhabited

/-! ## Fault records and messages (19) -/

/-- One fault record (R510); LIVE is computed where it is read. -/
structure FltRec where
  valid  : Bool
  form   : Nat
  sev    : Nat
  kind   : Nat
  count  : Nat
  addr   : Nat
  firstT : Nat
  lastT  : Nat
  deriving DecidableEq, Repr, Inhabited

/-- One queued message of R514, before packing. -/
structure FltMsg where
  source : Nat
  kind   : Nat
  sev    : Nat
  form   : Nat
  addr   : Nat
  time   : Nat
  deriving DecidableEq, Repr

/-- The fault unit. -/
structure FaultSt where
  recs    : Tab FltRec
  msgs    : List FltMsg
  /-- Messages dropped since the last FLT_MSG_LOST message was queued (R512). -/
  dropped : Nat
  deriving DecidableEq, Repr, Inhabited

/-! ## Image loader (03) -/

/-- The image loader: bytes accepted so far, the latched verdict, and the sections in force. -/
structure ImageSt where
  /-- Bytes of the load in progress, in order. -/
  bytes   : List Byte
  /-- The last verdict pulse latched from OPEN onward (R83). -/
  verdict : Option Bool
  /-- Role of the OPEN write, for the KIND 1 record (R527). -/
  role    : Nat
  /-- Sections of the applied start image, with later reloads: (TYPE × 64 + INSTANCE, contents). -/
  secs    : Tab (List Byte)
  /-- A start image has been applied since reset (step 4 of R492). -/
  applied : Bool
  /-- The section CRC the clause store keeps with each CLAUSES instance, by bin (R298). -/
  storeCrc : Tab Nat
  /-- A reloaded LIGHT_LIST waits for LGT_COMMIT_STATUS.BUSY to clear (R91). -/
  lightWait : Bool
  deriving DecidableEq, Repr, Inhabited

/-! ## Requests, ports, EDT unit (04, 05) -/

/-- The operation of a request at a slice (R132, R161). -/
inductive ReqOp
  | rd64 | rd256 | wr64 | wrp | prefetch | wrl
  deriving DecidableEq, Repr, Inhabited

/-- One sector's write data: bytes, byte enables, and whether poison is to be written for it (R150, R151). -/
structure WData where
  data   : BitVec 512
  be     : BitVec 64
  poison : Bool
  /-- The data beat failed parity: answered POISON (R150). -/
  parBad : Bool
  deriving DecidableEq, Repr, Inhabited

/-- A place in memory: interleave set, channel and channel-local address (R101). -/
structure Route where
  set  : Nat
  chan : Nat
  cla  : Nat
  deriving DecidableEq, Repr, Inhabited

/-- Which memory a request reaches. -/
inductive Area
  | dram | scratch | edt | counters
  deriving DecidableEq, Repr, Inhabited

/-- One request on its way to a slice or inside it. -/
structure Req where
  id      : Nat
  /-- Requester index of R161. -/
  src     : Nat
  op      : ReqOp
  tag     : BitVec 64
  dpa     : Nat
  area    : Area
  /-- Extent index. -/
  idx     : Nat
  /-- Traffic class 0 to 7; 8 for none (R178). -/
  tc      : Nat
  /-- CACHE_POLICY of the descriptor. -/
  policy  : Nat
  /-- Where the request is served, and the other side of a mirror where writes go to both. -/
  route   : Route
  mirror  : Option Route
  /-- The request is served from the mirror frame because the primary is fenced (R122). -/
  onMirror : Bool
  /-- MIRROR_STALE of the descriptor (R123). -/
  stale   : Bool
  owed    : Bool
  /-- Data of a write: one sector, or four for WRL; empty while the beat has not arrived. -/
  wdata   : List WData
  /-- Lane of a Tender request. -/
  lane    : Nat
  /-- Bypasses the tag lookup: scrubber reads, TEST and verify reads, frame addresses (R398, R432). -/
  direct  : Bool
  /-- A frame address (MODE 1 of R428): the request has no DPA. -/
  raw     : Bool
  deriving DecidableEq, Repr, Inhabited

/-- One response beat (R138). -/
structure Beat where
  id     : Nat
  tag    : BitVec 64
  write  : Bool
  last   : Bool
  sector : Nat
  status : Nat
  dpa    : Nat
  /-- Traffic class, 8 where the request has none yet. -/
  tc     : Nat
  data   : BitVec 512
  /-- LATE, fixed when the beat is first presented (R143). -/
  late   : Option Bool
  deriving DecidableEq, Repr, Inhabited

/-- An accepted request whose response is not complete: beats decided so far, and sectors still to present. -/
structure Outst where
  id    : Nat
  tag   : BitVec 64
  op    : ReqOp
  dpa   : Nat
  /-- Sectors still to be presented, in the order of R139; one entry for a write. -/
  todo  : List Nat
  /-- Decided beats by sector. -/
  ready : Tab (Option Beat)
  deriving DecidableEq, Repr, Inhabited

/-- One upstream port; its state and flags stand in PRT_STATUS. -/
structure PortSt where
  out      : List Outst
  /-- Accepted writes whose data beat has not arrived, oldest first; with tag and DPA where the write has been answered and
  the beat is to be discarded. -/
  needData : List (Nat × Option (BitVec 64 × Nat))
  /-- Data beats that no header had asked for: data of the next writes (R130). -/
  early    : List WData
  rsp      : List Beat
  /-- ENABLE has been written 0 in STOPPED (R157, R160). -/
  off     : Bool
  /-- Requests of which a LATE beat has been presented and beats are still to transfer (R193 counts each once). -/
  lateIds  : List Nat
  deriving DecidableEq, Repr, Inhabited

/-- One descriptor-cache entry (R117). -/
structure DescEnt where
  idx  : Nat
  bits : BitVec 512
  /-- The entry has an uncorrectable error (R119). -/
  bad  : Bool
  deriving DecidableEq, Repr, Inhabited

/-- A descriptor miss: waiting, or fetched (R118). -/
structure Fetch where
  idx       : Nat
  waiters   : List Req
  started   : Bool
  /-- An invalidate covering the index was accepted while the fetch was outstanding (R127). -/
  noInstall : Bool
  /-- Its miss-queue entry holds an uncorrectable error (R377). -/
  bad       : Bool
  deriving DecidableEq, Repr, Inhabited

/-- A queued invalidate (R126, R127). -/
structure Inval where
  mode  : Nat
  first : Nat
  count : Nat
  /-- Sequence number of a software invalidate; none for the Tender's. -/
  seq   : Option Nat
  /-- The cache walk has run, and the first request number given out after it. -/
  walked : Bool
  atId  : Nat
  /-- Requests that took their translation from a fetch outstanding at acceptance, after the walk. -/
  late  : List Nat
  /-- Lane of the Tender whose update it carries, 4 for none. -/
  lane  : Nat
  deriving DecidableEq, Repr, Inhabited

/-- A descriptor update the block is to make (R124). -/
structure DescUpd where
  idx       : Nat
  poison    : Bool
  /-- MIRROR_STALE with STALE_SIDE. -/
  stale     : Option Nat
  /-- Changes of the Tender: STATE, primary frame, migration frame, watermark. -/
  state     : Option Nat
  frame     : Option (Nat × Nat)
  mig       : Option (Nat × Nat)
  watermark : Option Nat
  /-- GEN the Tender expects (R440). -/
  gen       : Option Nat
  /-- Lane of the Tender that asked, 4 for none. -/
  lane      : Nat
  /-- The read of a DRAM-located descriptor has been sent. -/
  asked     : Bool
  deriving DecidableEq, Repr, Inhabited

/-- The EDT unit. -/
structure EdtSt where
  /-- Descriptor cache: for each of 1,024 sets its entries, most recently used first. -/
  cache   : Tab (List DescEnt)
  fetches : List Fetch
  /-- Requests that wait at the EDT unit for room in the miss queue, with their indices (R118). -/
  beyond  : List (Nat × Req)
  inval   : List Inval
  updates : List DescUpd
  /-- Requests that wait for a chunk lock, in order of acceptance (R439). -/
  held    : List Req
  deriving DecidableEq, Repr, Inhabited

/-! ## Slices: arbitration and cache (06, 08) -/

/-- Sector states of R217. -/
inductive Sec
  | i | f | v | d
  deriving DecidableEq, Repr, Inhabited

/-- One line of a normal or pinned way. -/
structure Line where
  tag  : Nat
  cls  : Nat
  pin  : Bool
  ea   : Bool
  st   : Tab Sec
  dat  : Tab (BitVec 512)
  /-- Sectors that hold the SRAM poison pattern (R234). -/
  bad  : Tab Bool
  /-- AGE, held as its difference (exclusive or) from the way number, its value after invalidation (R242). -/
  age  : Nat
  /-- Where the line's write-backs go, extent index and mirror. -/
  route  : Route
  mirror : Option Route
  /-- `route` is the mirror side of the extent (R122, R123); MIRROR_STALE of the descriptor. -/
  onMirror : Bool
  stale  : Bool
  idx    : Nat
  /-- Bits of the two copies of the tag entry, with the parity bit, that have flipped (R217, R233). -/
  flip0  : Nat
  flip1  : Nat
  /-- Write-backs of the line not yet accepted by a write queue. -/
  wbLeft : Nat
  /-- Being evicted or dropped: the line is freed when `wbLeft` is 0 and no fill is in flight. -/
  going  : Bool
  deriving DecidableEq, Repr, Inhabited

/-- Who waits for a sector of a fill. -/
structure Waiter where
  req : Req
  sec : Nat
  deriving DecidableEq, Repr, Inhabited

/-- A write a slice passes to a subchannel write queue. -/
structure WriteBack where
  /-- Age among the reads and writes of the slice; the two sides of a mirror share it. -/
  id     : Nat
  /-- DPA of the sector, where known. -/
  dpa    : Option Nat
  /-- The other half of a lockstep codeword, once known (R102). -/
  other  : Option (BitVec 512 × Bool)
  route  : Route
  sec    : Nat
  data   : BitVec 512
  poison : Bool
  cls    : Nat
  src    : Nat
  /-- Line key the write-back comes from. -/
  way    : Option Nat
  /-- The uncached write to complete when the queue accepts (R222). -/
  req    : Option Req
  idx    : Nat
  /-- 0 not mirrored, 1 primary side, 2 mirror side. -/
  side   : Nat
  /-- What became of the other side of a mirror: 0 undecided, 1 accepted, 2 discarded (R123). -/
  sib    : Nat
  /-- The mirror side of a primary side that is not stale, from which the other half of its lockstep codeword can be
  recovered (R381). -/
  twin   : Option Route
  /-- Status of the uncached write's completion, 0 for OK: OK_CORRECTED after a corrected merge, POISON after a data beat
  that failed parity. -/
  late   : Nat
  /-- Belongs to the software maintenance operation (1) or a Tender's (2 + lane); 0 neither. -/
  mnt    : Nat
  deriving DecidableEq, Repr, Inhabited

/-- A DRAM read a slice needs: a fill of a line, a forwarded read or a merge read. -/
structure Miss where
  id      : Nat
  /-- Line address, DPA[45:8]. -/
  line    : Nat
  sec     : Nat
  route   : Route
  /-- Cache way of the fill, if it allocates. -/
  way     : Option Nat
  waiters : List Waiter
  /-- The fill is to be discarded when it returns (R247, R228). -/
  cancel  : Bool
  /-- Passed to a subchannel read queue. -/
  queued  : Bool
  cls     : Nat
  owed    : Bool
  deadline : Option Nat
  src     : Nat
  demand  : Bool
  idx     : Nat
  /-- DPA of the sector, where known. -/
  dpa     : Option Nat
  /-- A write that waits for the other half of its lockstep codeword. -/
  merge   : Option WriteBack
  /-- The read of the other half of its lockstep codeword that it rides on. -/
  joined  : Option Nat
  deriving DecidableEq, Repr, Inhabited

/-- A maintenance operation in one slice. -/
structure MntRun where
  op      : Nat
  base    : Nat
  limit   : Nat
  /-- Set/way selection: first set, count, way mask; none for a range. -/
  ways    : Option (Nat × Nat × Nat)
  /-- Owner as in `WriteBack.mnt`. -/
  owner   : Nat
  started : Bool
  /-- Requests that the slice had accepted before the operation (R246). -/
  before  : List Nat
  deriving DecidableEq, Repr, Inhabited

/-- One cache slice with its arbiter. -/
structure SliceSt where
  /-- First-in first-out queue of each requester (R163). -/
  q      : Tab (List Req)
  /-- Round-robin pointers by tier (0 to 3, 4 owed), held as their difference from 8 (R167). -/
  ptr    : Tab Nat
  /-- A granted write that waits for its data beat (R169). -/
  grant  : Option Req
  /-- Requests that received WAIT, in order of acceptance, each with the way whose eviction it waits for (R225). -/
  wait   : List (Req × Option Nat)
  miss   : List Miss
  wb     : List WriteBack
  mnt    : List MntRun
  deriving DecidableEq, Repr, Inhabited

/-- The data arrays of all slices. Keys: line (c × 512 + set) × 16 + way; sector line × 4 + sector. -/
structure ArraySt where
  lines   : Tab Line
  scratch : Tab (BitVec 512)
  /-- Scratch sectors that hold the poison pattern (R239). -/
  scrPoison : Tab Bool
  /-- Sectors of the arrays with a correctable (1) or an uncorrectable word (2) that nothing has read yet (R235, R239). -/
  err     : Tab Nat
  deriving DecidableEq, Repr, Inhabited

/-! ## Regulator (07) -/

/-- A recorded window: its length in ns, and each subchannel's retired plus front-starved slots (R197). -/
structure WinRec where
  slots : Tab Nat
  ns    : Nat
  deriving DecidableEq, Repr, Inhabited

/-- The regulator; its tables stand in the registers and the working copy. -/
structure ReguSt where
  served  : Tab Nat
  /-- Entry and units of the last grants of the window, newest first: those a lagging mark may not show yet (R187). -/
  recent  : List (Nat × Nat)
  demand  : Tab Bool
  /-- Deadline misses of the entry in this window (R193). -/
  dlWin   : Tab Nat
  /-- Local time of the last boundary, and the window length W in force, ns. -/
  lastB   : Nat
  w       : Nat
  /-- Retired plus front-starved slots of each subchannel in this window. -/
  slots   : Tab Nat
  /-- The last four windows that were not short, newest first. -/
  hist    : List WinRec
  /-- The shadow words a running check uses (R5), and those of an accepted commit that is pending (R203). -/
  snap    : Tab Nat
  pend    : Tab Nat
  /-- The window contains the exit from S3 (R206). -/
  short   : Bool
  /-- The check runs (R204: not while the light-list check runs). -/
  running : Bool
  deriving DecidableEq, Repr, Inhabited

/-! ## Channel schedulers, clauses and sentences (09, 10) -/

/-- A DRAM address within a subchannel (R99). -/
structure Coord where
  rank : Nat
  bg   : Nat
  bank : Nat
  row  : Nat
  col  : Nat
  deriving DecidableEq, Repr, Inhabited

/-- Source of a queue entry (R249). -/
inductive Source
  | demand | fill | keeper | scrubber | tender | writeback | uncached
  deriving DecidableEq, Repr, Inhabited

/-- A read-queue entry; `slice` and `miss` name the slice read it serves. -/
structure RdEnt where
  slice    : Nat
  miss     : Nat
  at_      : Coord
  cls      : Nat
  owed     : Bool
  deadline : Option Nat
  src      : Source
  arrival  : Nat
  /-- The command counts as delivering (R458): not a merge read, a descriptor fetch or a replay. -/
  counts   : Bool
  /-- A PRE or ACT has issued for the entry. -/
  worked   : Bool
  /-- The read is issued again after a CA parity alert or a halt (R280, R306). -/
  replayed : Bool
  deriving DecidableEq, Repr, Inhabited

/-- A write-queue entry with its codeword; `issued` is the slot of its write command (R279). -/
structure WrEnt where
  at_     : Coord
  cls     : Nat
  owed    : Bool
  src     : Source
  arrival : Nat
  code    : BitVec 1280
  dpa     : Option Nat
  issued  : Option Nat
  counts  : Bool
  worked  : Bool
  /-- The write is issued again after an alert or a halt (R280, R306). -/
  replayed : Bool
  /-- Maintenance operations whose write-back the entry holds, numbered as in `WriteBack.mnt`. -/
  mnt     : List Nat
  deriving DecidableEq, Repr, Inhabited

/-- State of one bank (R258), keyed rank × 32 + bank group × 4 + bank. -/
structure Bank where
  row  : Option Nat
  /-- Slots left on the idle timer; none while no column command has loaded it since the bank opened (R268). -/
  idle : Option Nat
  /-- Rolling activation count of R277. -/
  raa  : Nat
  /-- The idle timer reached zero: a PRE is an opportunistic service command (R268). -/
  due  : Bool
  deriving DecidableEq, Repr, Inhabited

/-- An issued command: class of R286, footprint, and position in nCK (R290). -/
structure HistCmd where
  cls  : Nat
  rank : Nat
  /-- Bank group, or 8 for every bank group. -/
  bg   : Nat
  /-- Bank, or 4 for every bank. -/
  bank : Nat
  pos  : Nat
  deriving DecidableEq, Repr, Inhabited

/-- Why a sentence was requested. -/
inductive Purpose
  | keeper | software | alert | fenceExit | osc | probe | repair | refreshEntry
  /-- SNT_INIT of training steps 4 and 10 (R326), and of a speed change. -/
  | train | speed
  /-- The data buffers into loopback and out of it (R342). -/
  | loopIn | loopOut
  deriving DecidableEq, Repr, Inhabited

/-- A command of a sentence as the pins carry it: class, rank, levels of DCS0_n to DCS3_n (R321), ADDR and DATA of its step
(R311). -/
structure PinCmd where
  cls  : Nat
  rank : Nat
  cs   : Nat
  addr : Nat
  data : Nat
  deriving DecidableEq, Repr, Inhabited

/-- A queued sentence request (R312). -/
structure SntReq where
  num    : Nat
  ranks  : Nat
  args   : Nat
  urgent : Bool
  why    : Purpose
  deriving DecidableEq, Repr, Inhabited

/-- The running sentence: the copy it started with, the step in progress and what remains of it. -/
structure SntRun where
  req     : SntReq
  text    : List Byte
  step    : Nat
  /-- Ranks to which the step's command is still to issue. -/
  left    : List Nat
  /-- A WAIT, a POLL interval or a PHY action is in progress. -/
  waiting : Bool
  polls   : Nat
  /-- An MRR of the POLL or result step has issued and its byte has not come back. -/
  readOut : Bool
  results : Nat
  waited  : Nat
  /-- The pending step has waited SCH_SNT.WAIT slots (R281). -/
  must    : Bool
  touched : List Nat
  deriving DecidableEq, Repr, Inhabited

/-- One subchannel's scheduler, clause memory and sentence slot. Registers SCH_*, CLS_* and SNT_* hold the rest. -/
structure SubSt where
  /-- Slots since the channel domain powered up. -/
  slot    : Nat
  rq      : List RdEnt
  wq      : List WrEnt
  /-- Reads issued whose data has not arrived, oldest first (R280, R306). -/
  inflight : List RdEnt
  /-- Reads to be issued again that wait for room in the read queue (R249, R280, R306). -/
  again   : List RdEnt
  banks   : Tab Bank
  debt    : Tab Int
  credit  : Tab Nat
  hist    : List HistCmd
  /-- Slots left in which the throttle blocks a traffic column command or ACT (R284). -/
  idleLeft : Nat
  /-- Banks of these ranks are to be precharged before their next ACT (R306, R318). -/
  preFirst : List Nat
  /-- A refresh tick series runs (R270, R276). -/
  ticking : Bool
  /-- Alert back-off: RFMab still to issue by rank, and whether the ACT_NCK interval has elapsed. -/
  abo     : Tab Nat
  aboOn   : Bool
  aboLate : Bool
  /-- Alerts that are being classified (R279). -/
  classify : Nat
  /-- Alerts classified so far: (class, slot), newest first. -/
  alerts  : List (Nat × Nat)
  sntQ    : List SntReq
  snt     : Option SntRun
  /-- Ranks left in self-refresh (R318). -/
  selfRef : List Nat
  /-- Clause slots 0 to 3 as section contents, and the checker's shadow. -/
  slots   : Tab (List Byte)
  shadow  : List Byte
  /-- Recency of the slots: larger is more recently active (R301). -/
  recent  : Tab Nat
  /-- Bin of a switch in progress. -/
  switchTo : Option Nat
  /-- Commands issued and not yet seen by the checker, oldest first, and the checker's own history. -/
  toCheck : List HistCmd
  chkHist : List HistCmd
  /-- Clause that the next comparison takes (R305). -/
  cmp     : Nat
  /-- A halt's reload is in progress; slot of the last reload (R307). -/
  reload  : Bool
  lastReload : Option Nat
  /-- The halt outlasts its reload: REPEAT, or no trusted set in the store (R307). -/
  stay    : Bool
  noSet   : Bool
  /-- Every rank is being initialised before entries are accepted again (R309). -/
  initing : Bool
  /-- A violation or mismatch of a refresh in a REPEAT halt stopped every command (R309). -/
  dead    : Bool
  /-- Commands issued in the slot in progress for the sibling's scope-6 clauses (R293). -/
  lastIssued : List HistCmd
  /-- PREab to every rank goes before any other command (R306). -/
  preAll  : Bool
  /-- Bank index of the next REFsb of each rank. -/
  sbNext  : Tab Nat
  /-- Local time of the last refresh tick, ns, and the tick interval in force since then (R275). -/
  tickAt  : Nat
  tickLen : Nat
  /-- Ticks per period of the refresh window, as its on-time took them (R275). -/
  winN    : Nat
  /-- Place and codeword of the last write command on the pins. -/
  lastWrite : Option (Coord × BitVec 1280)
  /-- CK is stopped by CK_STOP of this subchannel (R340). -/
  ckStop  : Bool
  /-- Ranks in power-down (R465). -/
  pd      : List Nat
  /-- The last command of a sentence on the pins. -/
  lastPin : Option PinCmd
  deriving DecidableEq, Repr, Inhabited

/-- A response to the Tender, the Keeper or the scrubber. -/
structure Intern where
  req    : Req
  sec    : Nat
  status : Nat
  data   : BitVec 512
  deriving DecidableEq, Repr, Inhabited

/-! ## PHY, training and calibration (11, 12) -/

/-- Who asked for a training (R332). -/
inductive TrainWhy
  | start | software | alert | attach | speed | harbour
  deriving DecidableEq, Repr, Inhabited

/-- A waiting training: its subchannels (both of a lockstep pair), its steps, and who asked. -/
structure TrainReq where
  subs  : List Nat
  steps : Nat
  why   : TrainWhy
  deriving DecidableEq, Repr, Inhabited

/-- A running training of one subchannel. STEP and STATE stand in PHY_TRAIN_STATUS. -/
structure TrainRun where
  steps : Nat
  why   : TrainWhy
  /-- Local time of its start, and the zone temperature at the start of step 7 (R331). -/
  start : Nat
  temp  : Int
  /-- Values found by the steps that passed, in order. -/
  found : List (Fld × Nat)
  /-- VrefDQ codes found, by device. -/
  vref  : List (Nat × Nat)
  /-- Outcome of the SNT_INIT invocation of the step in progress, once it has ended (R326). -/
  snt   : Option Nat
  deriving DecidableEq, Repr, Inhabited

/-- The PHYs. -/
structure PhySt where
  trainQ : List TrainReq
  /-- Channels whose speed change waits for the switch of its step 4. -/
  speed  : List Nat
  train  : Tab (Option TrainRun)
  /-- Device VrefDQ codes (key s × 128 + rank × 10 + device) and VrefCA codes (s × 8 + rank). -/
  vrefDq : Tab Nat
  vrefCa : Tab Nat
  deriving DecidableEq, Repr, Inhabited

/-- A measured set (R347, R366): a PHY_INIT record, VrefDQ, VrefCA and oscillator baselines. -/
structure CalSet where
  phy    : List Byte
  vrefDq : List Byte
  vrefCa : List Byte
  osc    : List Byte
  /-- Fields of its NVM record. -/
  origin : Nat
  rate   : Nat
  point  : Int
  temp   : Int
  serial : Nat
  time   : Nat
  deriving DecidableEq, Repr, Inhabited

/-- A finished receive window of one lane (R356). -/
structure Win where
  ph2  : Int
  vr2  : Int
  taps : List Int
  deriving DecidableEq, Repr, Inhabited

/-- Tracking state of one DQ lane; the receive trackers' offsets stand in CAL_EDGE. -/
structure LaneCal where
  /-- Outcomes recorded by the four receive trackers (bits 2t fail, 2t + 1 pass) and the two transmit ones (8 to 11). -/
  seen  : Nat
  prev  : Option Win
  fails : Nat
  aged  : Bool
  /-- Transmit edge trackers LEFT and RIGHT (R362). -/
  txL   : Int
  txR   : Int
  deriving DecidableEq, Repr, Inhabited

/-- Live calibration. Controls of a subchannel are numbered by `ctlFld` in Machine/Calibration.lean. -/
structure CalSt where
  /-- Residuals and the values left by the last training, key s × 512 + control. -/
  resid  : Tab Int
  left   : Tab Int
  /-- Measured sets, key s × 8 + point. -/
  sets   : Tab (Option CalSet)
  /-- Lanes, key s × 64 + lane. -/
  lanes  : Tab LaneCal
  /-- Consecutive rounds in the capture band of a point, key s × 8 + point. -/
  band   : Tab Nat
  /-- Oscillator baselines (s × 128 + rank × 10 + device) and corrections applied (s × 16 + device). -/
  oscBase : Tab Nat
  oscAdj : Tab Int
  /-- Points learnt again while their store ran, and subchannels whose RESET waits (R368). -/
  again  : Tab Bool
  resetWait : Tab Bool
  /-- Points whose other copy a RESET has still to write, key s × 8 + point (R368). -/
  other  : Tab Bool
  deriving DecidableEq, Repr, Inhabited

/-- A record store in progress: key 8s + i of a calibration point, 1000 + m of a ledger, 2000 of the start record. -/
structure NvStore where
  key   : Nat
  off   : Nat
  bytes : List Byte
  deriving DecidableEq, Repr, Inhabited

/-! ## Error correction and scrubbing (13) -/

/-- An address-log entry (R386). -/
structure LogEnt where
  valid   : Bool
  rank    : Nat
  bg      : Nat
  bank    : Nat
  col     : Nat
  row     : Nat
  devices : Nat
  dpa     : Option Nat
  count   : Nat
  repair  : Nat
  wbSeen  : Bool
  realSuspect : Bool
  injected : Bool
  persistent : Bool
  firstT  : Nat
  lastT   : Nat
  wbT     : Nat
  deriving DecidableEq, Repr, Inhabited

/-- An armed injection (R404). -/
structure Inj where
  dpa   : Nat
  read  : Bool
  all   : Bool
  sym0  : Nat
  xor0  : Nat
  sym1  : Nat
  xor1  : Nat
  deriving DecidableEq, Repr, Inhabited

/-- A fired WRITE injection whose location is kept (R405). -/
structure InjKept where
  sub  : Nat
  at_  : Coord
  inj  : Inj
  deriving DecidableEq, Repr, Inhabited

/-- A running repair (R392 to R395). -/
structure RepairRun where
  entry : Nat
  hard  : Bool
  role  : Nat
  before : Nat
  deriving DecidableEq, Repr, Inhabited

/-- A read from the mirror frame made after an uncorrectable outcome of the primary (R381). -/
structure MirrorRead where
  /-- Number of the read made from the mirror frame. -/
  id     : Nat
  slice  : Nat
  miss   : Miss
  /-- Subchannel and place of the primary's outcome, with its device (0x1F for none). -/
  sub    : Nat
  at_    : Coord
  device : Nat
  inject : Bool
  suspect : Bool
  dpa    : Option Nat
  /-- A write to the sector was accepted after the primary read. -/
  written : Bool
  /-- The other sector of a lockstep codeword reports the outcome. -/
  quiet  : Bool
  mirror : Route
  deriving DecidableEq, Repr, Inhabited

/-- The error-correction unit; counts and settings stand in the ECC registers. -/
structure EccSt where
  log     : Tab LogEnt
  armed   : Option Inj
  kept    : Option InjKept
  repair  : Tab (Option RepairRun)
  /-- Devices with an active soft repair, key s × 8 + bank group. -/
  soft    : Tab Nat
  mirrors : List MirrorRead
  deriving DecidableEq, Repr, Inhabited

/-- The scrubber. -/
structure ScrubSt where
  /-- DPA of the next line, and the local time of the first read. -/
  pos   : Nat
  start : Nat
  begun : Bool
  /-- Lines in flight: DPA, request number, and whether the mirror frame is read. -/
  line  : Option (Nat × Nat × Bool)
  /-- Sectors of the line written since its read was granted (R400). -/
  stale : Nat
  /-- Sectors of the line, by request number, whose only correction was that of an erased device (R376). -/
  erased : List (Nat × Nat)
  /-- Places from which the line in flight is read, as routes of its sector 0. -/
  frames : List Route
  /-- Descriptor bits the line was translated with. -/
  desc  : BitVec 512
  deriving DecidableEq, Repr, Inhabited

/-! ## The Tender (15) -/

/-- What a lane of the Tender is at. -/
inductive LanePh
  /-- No job. -/
  | free
  /-- Wants to read its job slot; its read is outstanding. -/
  | fetch | fetching
  /-- The job is known; the verb's command makes its next step. -/
  | go
  /-- Waits for a descriptor, a line read, a line or sector write, a descriptor update, a maintenance operation. -/
  | ask | read | write | update | maintain
  /-- The update it waited for was made and its invalidate is complete. -/
  | updated
  /-- Wants to write its completion record; its write is outstanding; the record is kept (R430). -/
  | finish | finishing | kept
  deriving DecidableEq, Repr, Inhabited

/-- One lane of the Tender. -/
structure Lane where
  phase  : LanePh
  /-- Free-running index of its job, and the 64 bytes of the job. -/
  idx    : Nat
  job    : BitVec 512
  /-- Request outstanding. -/
  req    : Option Nat
  /-- Bytes done of the range, or of the pass in progress; line of the chunk of a MOVE. -/
  pos    : Nat
  /-- Step of the verb: pass of SANITISE, element of TEST, state of a MOVE. -/
  stage  : Nat
  /-- Bytes completed, as DONE reports them. -/
  done   : Nat
  /-- Sectors of the line read that CLEAR has still to write. -/
  todo   : List Nat
  /-- Data of the line read, by sector. -/
  line   : List WData
  /-- Counts of RESULT, low and high half, and sectors already counted in each. -/
  low    : Nat
  high   : Nat
  seenLo : List Nat
  seenHi : List Nat
  first  : Option Nat
  /-- UE, or POISON, met where the job goes on. -/
  worst  : Nat
  crc    : Nat
  /-- Extents whose state has been checked, and those claimed, with the GEN of the block's own last update (R440). -/
  checked : List Nat
  claims : List (Nat × Option Nat)
  /-- Chunk of a MOVE, retries made, and the request number at its lock. -/
  chunk  : Nat
  tries  : Nat
  lock   : Option Nat
  /-- CODE and SWAPPED, and the completion record. -/
  code   : Nat
  swapped : Bool
  record : BitVec 256
  deriving DecidableEq, Repr, Inhabited

/-- The Tender. -/
structure TenderSt where
  lanes   : Tab Lane
  /-- Oldest untaken index. -/
  next    : Nat
  /-- A ring error stopped the taking of jobs until ENABLE is written to 0 and then to 1. -/
  stopped : Bool
  /-- Completed jobs that HEAD has not passed. -/
  done    : List Nat
  deriving DecidableEq, Repr, Inhabited

/-! ## Modules (14) -/

/-- The working copy of a life ledger (R411). -/
structure Ledger where
  presence : Nat
  verdict  : Nat
  unsync   : Bool
  erased   : Bool
  reason   : Nat
  mfr      : Nat
  date     : Nat
  serial   : Nat
  part     : List Byte
  type     : Nat
  ranks    : Nat
  capacity : Nat
  maxRate  : Nat
  caps     : Nat
  installT : Nat
  seenT    : Nat
  powered  : Nat
  hot      : Nat
  maxTemp  : Int
  ce       : Nat
  persist  : Nat
  ue       : Nat
  ovf      : Nat
  ecsA     : Nat
  ecsB     : Nat
  hardUsed : Nat
  soft     : Nat
  erasedDev : Option Nat
  res      : List Nat
  resFirst : List Nat
  hist     : List (List Byte)
  deriving DecidableEq, Repr, Inhabited

/-- Module slots and channel replacement; MOD_RPL_STATUS holds the replacement state. -/
structure ModSt where
  ledger  : Tab Ledger
  /-- Error-check-and-scrub baseline of each slot and subchannel, key 2m + x (R415). -/
  ecsBase : Tab (Option Nat)
  /-- Temperature sensors found, as a mask of 3, by slot. -/
  sensors : Tab Nat
  /-- Highest sensor reading of this second's rounds, and whether a sensor was broken. -/
  high    : Tab (Option Int)
  bad     : Tab Bool
  /-- A PERSIST or UE count of this second waits for its store; seconds since the last hourly store. -/
  count   : Tab Bool
  /-- Phase of a replacement command: 1 draining, 2 power off, 3 power on, 4 discovery, 5 training, 6 memory. -/
  phase   : Tab Nat
  /-- Slots whose discovery is outstanding for a replacement. -/
  wait    : Nat
  /-- Discovered geometry by slot: row, bank-group and bank address bits, coded row + 32 × bg + 256 × bank + 2^11. -/
  geom    : Tab Nat
  /-- The encoded chip-select mode is enabled in the register clock driver of a slot (R321). -/
  encCs   : Tab Bool
  deriving DecidableEq, Repr, Inhabited

/-! ## Counters (16) -/

/-- A snapshot: its groups, its instant, and whether CTR_SNAP commanded it (R449). -/
structure Snap where
  groups  : Nat
  instant : Nat
  cmd     : Bool
  deriving DecidableEq, Repr, Inhabited

/-- The performance counters; their configuration and snapshots stand in the registers. -/
structure CtrSt where
  /-- Live general counters, 0 to 551, 48 bits each. -/
  live  : Tab Nat
  /-- Live slot counters, key 4s + k (R456). -/
  slots : Tab Nat
  /-- Latch stages: general counters by index, slot counters at 552 + 4s + k. -/
  latch : Tab Nat
  /-- The snapshot whose copy runs. -/
  copy  : Option Snap
  /-- Command snapshots whose instant lies ahead. -/
  sched : List Snap
  /-- Counters with a capture pending: 1 + counted events since the overflow (R460). -/
  capt  : Tab Nat
  deriving DecidableEq, Repr, Inhabited

/-! ## Power, sensors and start (17, 18, 21) -/

/-- An explicit request for a power state that has not ended; `light` is the light entry that made it, none for PWR_CMD. -/
structure PwrReq where
  light : Option Nat
  state : Nat
  chans : Nat
  /-- The entry has been committed (R467). -/
  committed : Bool
  deriving DecidableEq, Repr, Inhabited

/-- Body bias, assist and supply level of a state record (R480). -/
structure BiasRec where
  logic  : Int
  sram   : Int
  assist : Nat
  mv     : Nat
  deriving DecidableEq, Repr, Inhabited

/-- The power controller. Masks named `Low` hold the complement of the signal, so that 0 is every signal high. -/
structure PwrSt where
  drains  : List PwrReq
  /-- Target of a channel's entry or exit in progress (A0 for an exit). -/
  target  : Tab (Option Nat)
  /-- A wake of the channel is latched (R475). -/
  chWake  : Tab Bool
  /-- The block is in S3, between entry and exit. -/
  inS3    : Bool
  /-- A wake of the block is latched. -/
  blkWake : Bool
  /-- PWR_CHDOM_ON, PWR_MOD_ON, PWR_CG_ON and PWR_CORE_ON lowered. -/
  chLow   : Nat
  modLow  : Nat
  cgLow   : Nat
  coreLow : Bool
  /-- PWR_CHDOM_GOOD, PWR_MOD_GOOD, PWR_CG_GOOD and PWR_CORE_GOOD low. -/
  chBad   : Nat
  modBad  : Nat
  cgBad   : Nat
  coreBad : Bool
  /-- State record in force, and the one that waits for PWR_SRAM_ACK (R550). -/
  bias    : BiasRec
  biasNext : Option BiasRec
  /-- PWR_SRAM_CODE. -/
  sramCode : Nat
  /-- Core power was lost: every output is held until RST_N (R549). -/
  dead    : Bool
  deriving DecidableEq, Repr, Inhabited

/-- Run counts of a threshold (R487); whether it is set stands in the THM registers. -/
structure ThrRun where
  set   : Nat
  clear : Nat
  deriving DecidableEq, Repr, Inhabited

/-- The housekeeping round's memory. -/
structure ThmSt where
  /-- Readings of each site, newest first, at most 256 (R486). -/
  hist   : Tab (List Int)
  /-- Consecutive good rounds of a broken site. -/
  good   : Tab Nat
  /-- Runs of WARN and THROTTLE of each zone (keys z and 8 + z), DOUBLE and THROTTLE of each module (16 + m, 48 + m). -/
  runs   : Tab ThrRun
  /-- Consecutive failed reads of each module sensor, key 3m + sensor, and the sensors judged broken. -/
  fails  : Tab Nat
  broken : Tab Bool
  deriving DecidableEq, Repr, Inhabited

/-- The start sequencer (R492 to R504). -/
structure StartSt where
  /-- Step 1 has ended: management accesses are acknowledged (R542). -/
  open_   : Bool
  /-- Maker test mode (R554). -/
  maker   : Bool
  /-- The READY and HARBOUR outputs. -/
  ready   : Bool
  harbour : Bool
  /-- A start record store runs; what follows it: 0 nothing, 1 the image load, 2 harbour mode. -/
  store   : Option Nat
  /-- Channels that step 5 or step 6 still waits for. -/
  pllWait : Nat
  discWait : Nat
  trainWait : Nat
  initWait : Nat
  /-- Cause and detail of each failed channel (R499), coded cause + 16 × detail. -/
  cause   : Tab Nat
  /-- Harbour channel search: the channel being trained. -/
  search  : Option Nat
  /-- The trainings of step 6 have been requested. -/
  asked   : Bool
  deriving DecidableEq, Repr, Inhabited

/-! ## The whole block -/

/-- Everything but the command queue. -/
structure Block where
  /-- What software reads: every register field that differs from its reset value (class S fields: the shadow, R529). -/
  regs   : Tab Nat
  /-- The working copies of the class S fields, under the keys of their shadows. -/
  work   : Tab Nat
  /-- The 1 MiB non-volatile store; a byte nothing has written reads 0. -/
  nvm    : List Host.Cell
  time   : TimeSt
  lights : Tab LightRt
  /-- Shadow light list a running check uses (R5), and whether the check runs (R204). -/
  lgtSnap : Tab Nat
  lgtRun : Bool
  mg     : MgmtSt
  flt    : FaultSt
  img    : ImageSt
  edt    : EdtSt
  ports  : Tab PortSt
  slices : Tab SliceSt
  arr    : ArraySt
  regu   : ReguSt
  subs   : Tab SubSt
  intern : List Intern
  phy    : PhySt
  cal    : CalSt
  stores : List NvStore
  ecc    : EccSt
  scrub  : ScrubSt
  tnd    : TenderSt
  mod    : ModSt
  ctr    : CtrSt
  pwr    : PwrSt
  thm    : ThmSt
  start  : StartSt
  /-- Number of the next request; numbers rise in order of acceptance. -/
  nextId : Nat
  /-- The model's own: index of the next free value (see Config). -/
  fresh  : Nat
  deriving DecidableEq, Repr, Inhabited

/-- The state of the machine: the block, and the commands that wait, first in first out. -/
structure State where
  block   : Block
  pending : List Instr
  deriving DecidableEq, Repr

/-- The block right after RST_N rises, before step 1 of start (R536, R579): every register at its reset value, every
queue and buffer empty. -/
def State.reset : State := ⟨default, []⟩

end Sys2Proof.Machine
end

