-- ==== Sys2Proof/Machine/Ops.lean ====
section
/-! DEFINITION. The named operations over the block's registers, counters, non-volatile store, audit path, fault tap
and response lanes. Every meaning reads and changes the state through these. -/

namespace Sys2Proof.Machine

open Reg

/-! ## Register fields -/

/-- The value of a register field as software reads it (class S: the shadow). -/
def Block.rd (b : Block) (f : Fld) : Nat := fldGet b.regs f

/-- Whether a one-bit field reads 1. -/
def Block.on (b : Block) (f : Fld) : Bool := b.rd f != 0

/-- Set a register field. -/
def Block.wr (b : Block) (f : Fld) (v : Nat) : Block := { b with regs := fldSet b.regs f v }

/-- Set a one-bit field from a Boolean. -/
def Block.wrB (b : Block) (f : Fld) (v : Bool) : Block := b.wr f (if v then 1 else 0)

/-- The working value of a class S field (R4). -/
def Block.wk (b : Block) (f : Fld) : Nat := fldGet b.work f

/-- Set the working value of a class S field. -/
def Block.wrWork (b : Block) (f : Fld) (v : Nat) : Block := { b with work := fldSet b.work f v }

/-- Add to a counting field that saturates at its highest value. -/
def Block.addSat (b : Block) (f : Fld) (n : Nat) : Block :=
  b.wr f (min (b.rd f + n) (2 ^ f.width - 1))

/-- Increment a saturating count. -/
def Block.bump (b : Block) (f : Fld) : Block := b.addSat f 1

/-- Set bit `i` of a field. -/
def Block.setBitOf (b : Block) (f : Fld) (i : Nat) : Block := b.wr f (b.rd f ||| (1 <<< i))

/-- Clear bit `i` of a field. -/
def Block.clearBitOf (b : Block) (f : Fld) (i : Nat) : Block :=
  if bitOf (b.rd f) i then b.wr f (b.rd f - (1 <<< i)) else b

/-- A bit of a field. -/
def Block.bit (b : Block) (f : Fld) (i : Nat) : Bool := bitOf (b.rd f) i

/-- A register's index of group `g` becomes pending when the cause's enable is 1 (R545). -/
def Block.intr (b : Block) (g : Nat) (enabled : Bool) : Block :=
  if enabled then b.setBitOf GLB_INT_PEND_PEND g else b

/-- The two words of a 64-bit register pair. -/
def Block.rd64 (b : Block) (lo hi : Fld) : Nat := b.rd lo + 2 ^ 32 * b.rd hi

/-- The entries of `t` with keys from `lo` up to but not including `hi` for which `p` holds. -/
def Tab.slice {α : Type} (t : Tab α) (lo hi : Nat) (p : Nat → Bool) : Tab α :=
  t.filter (fun e => decide (lo ≤ e.1) && decide (e.1 < hi) && p e.1)

/-- Replace the entries of `dst` at keys satisfying `p` by those of `src`. -/
def Tab.overlay {α : Type} [Inhabited α] [DecidableEq α] (dst src : Tab α) (p : Nat → Bool) : Tab α :=
  forEach (src.filter (fun e => p e.1)).reverse (dst.filter (fun e => !p e.1)) (fun t e => t.set e.1 e.2)

/-! ## Time -/

/-- The local time in whole nanoseconds (R31). -/
def Block.now (b : Block) : Nat := b.time.ns

/-- Time states of TIM_STATUS.STATE. -/
def timAcquire : Nat := 0
/-- TRACKING. -/
def timTracking : Nat := 1
/-- LOCKED. -/
def timLocked : Nat := 2
/-- HOLDOVER. -/
def timHoldover : Nat := 3
/-- SLEWING_BACK. -/
def timSlewing : Nat := 4

/-- The time state. -/
def Block.timState (b : Block) : Nat := b.rd TIM_STATUS_STATE

/-- Slack of a deadline in 16 ns units (R38). -/
def slackUnits (deadline now : Nat) : Int :=
  let delta : Nat := ((deadline + 2 ^ 28) - (now >>> 4) % 2 ^ 28) % 2 ^ 28
  if delta ≥ 0x8000000 then (delta : Int) - 0x10000000 else (delta : Int)

/-- The deadline of a Jacia tag, if DL_VALID is 1 (R134). -/
def tagDeadline (tag : BitVec 64) : Option Nat :=
  if bitOf tag.toNat 25 then some (bitsOf tag.toNat 53 26) else none

/-- MASTER of a Jacia tag. -/
def tagMaster (tag : BitVec 64) : Nat := bitsOf tag.toNat 63 54
/-- ALLOC of a Jacia tag. -/
def tagAlloc (tag : BitVec 64) : Nat := bitsOf tag.toNat 24 23
/-- STREAM of a Jacia tag. -/
def tagStream (tag : BitVec 64) : Bool := bitOf tag.toNat 22
/-- CONT of a Jacia tag. -/
def tagCont (tag : BitVec 64) : Bool := bitOf tag.toNat 21

/-- The deadline has passed: its slack is below zero; in ACQUIRE no deadline is valid (R40, R143). -/
def Block.lateNow (b : Block) (dl : Option Nat) : Bool :=
  match dl with
  | none => false
  | some d => b.timState != timAcquire && decide (slackUnits d b.now < 0)

/-! ## Non-volatile store (R366, R526, R582) -/

/-- One byte of the store. -/
def Block.nvmByte (b : Block) (a : Nat) : Byte := Tab.get b.nvm a

/-- `n` bytes from offset `a`. -/
def Block.nvmBytes (b : Block) (a n : Nat) : List Byte := (List.range n).map (fun i => b.nvmByte (a + i))

/-- Store bytes from offset `a` in a memory. -/
def memPut (m : List Host.Cell) (a : Nat) : List Byte → List Host.Cell
  | [] => m
  | x :: t => memPut (Tab.set m a x) (a + 1) t

/-- Store bytes from offset `a`. -/
def Block.nvmPut (b : Block) (a : Nat) (bs : List Byte) : Block := { b with nvm := memPut b.nvm a bs }

/-! ## Audit path (R526 to R532) -/

/-- Room in the 16-entry audit queue. -/
def Block.audRoom (b : Block) : Nat := 16 - b.mg.audQ.length

/-- A record is lost: AUD_FLAGS.LOST and AUD_LOST_CNT (R530). -/
def Block.audLost (b : Block) : Block :=
  ((b.wr AUD_FLAGS_LOST 1).bump AUD_LOST_CNT_CNT).intr 4 (b.on AUD_CTL_INT_LOST)

/-- Queue a record of a management write, for which the caller has seen room. With a failed self-test every record is
dropped and counted. -/
def Block.audPut (b : Block) (r : AudRec) : Block :=
  if b.on NVM_STATUS_SELFTEST_OK then { b with mg := { b.mg with audQ := b.mg.audQ ++ [r] } } else b.audLost

/-- Queue a record of the block's own making, or hold it in its latch (R530). -/
def Block.audOwn (b : Block) (slot : Nat) (r : AudRec) : Block :=
  if !b.on NVM_STATUS_SELFTEST_OK then b.audLost
  else if b.audRoom ≠ 0 then { b with mg := { b.mg with audQ := b.mg.audQ ++ [r] } }
  else match b.mg.latch.get slot with
    | none => { b with mg := { b.mg with latch := b.mg.latch.set slot (some r) } }
    | some _ => b.audLost

/-- Move latched records into the queue while it has room, lowest latch first. -/
def Block.audFlush (b : Block) : Block :=
  forEach (List.range 87) b (fun b i =>
    match b.mg.latch.get i with
    | some r => if b.audRoom ≠ 0 then
        { b with mg := { b.mg with audQ := b.mg.audQ ++ [r], latch := b.mg.latch.set i none } } else b
    | none => b)

/-! ## Fault tap (R505 to R514) -/

/-- The location form of R508. -/
def locAddr (type index detail : Nat) : Nat := (type <<< 43) ||| (index <<< 38) ||| detail

/-- DETAIL of a subchannel location without a place: device 0x1F for none. -/
def subDetail (rank bg bank row col device : Nat) : Nat :=
  (rank <<< 35) ||| (bg <<< 32) ||| (bank <<< 30) ||| (row <<< 12) ||| (col <<< 5) ||| device

/-- The unit an event of R505 belongs to. -/
inductive EUnit
  | none | sub (s : Nat) | slice (c : Nat) | port (p : Nat) | channel (n : Nat) | requester (r : Nat)
  deriving DecidableEq, Repr

/-- An event before it enters the tap. -/
structure Event where
  code : Nat
  kind : Nat
  /-- 0 DPA form, 1 location form. -/
  form : Nat
  addr : Nat
  unit_ : EUnit
  /-- Severity that replaces FLT_SEV (R506). -/
  sev  : Option Nat
  deriving DecidableEq, Repr

/-- Severity of an event (R505, R506). -/
def Block.sevOf (b : Block) (e : Event) : Nat :=
  match e.sev with
  | some v => v
  | none => b.rd (FLT_SEV_SEV e.code)

/-- Queue a message, or drop it when 32 are queued (R512). -/
def Block.msgPut (b : Block) (m : FltMsg) : Block :=
  if b.flt.msgs.length < 32 then { b with flt := { b.flt with msgs := b.flt.msgs ++ [m] } }
  else
    let b := { b with flt := { b.flt with dropped := b.flt.dropped + 1 } }
    ((b.wr FLT_STATUS_MSG_LOST 1).bump FLT_MSG_LOST_CNT_CNT).intr 25 (b.on FLT_CTL_INT_LOST)

/-- The record an event leaves (R510). -/
def recUpdate (r : FltRec) (e : Event) (sev t : Nat) : FltRec :=
  if r.valid then { r with count := min (r.count + 1) 0xFFFFFFFF, lastT := t, sev := sev }
  else { valid := true, form := e.form, sev := sev, kind := e.kind, count := min (r.count + 1) 0xFFFFFFFF,
         addr := e.addr, firstT := t, lastT := t }

/-- An event enters the tap at local time `t`: record, message, SEV_SEEN and interrupt (R510, R512), without the
fence of severity 3. -/
def Block.eventAt (b : Block) (e : Event) (t : Nat) : Block :=
  let sev := b.sevOf e
  let b := { b with flt := { b.flt with recs := b.flt.recs.set e.code (recUpdate (b.flt.recs.get e.code) e sev t) } }
  let b := (b.setBitOf FLT_STATUS_SEV_SEEN sev).intr 25 (b.bit FLT_CTL_INT_SEV sev)
  b.msgPut ⟨e.code, e.kind, sev, e.form, e.addr, t⟩

/-- An event at the local time, without its fence. -/
def Block.event0 (b : Block) (e : Event) : Block := b.eventAt e b.now

/-! ## Requests and responses (R138 to R155) -/

/-- Change one port. -/
def Block.updPort (b : Block) (p : Nat) (f : PortSt → PortSt) : Block := { b with ports := b.ports.upd p f }

/-- Change one slice. -/
def Block.updSlice (b : Block) (c : Nat) (f : SliceSt → SliceSt) : Block := { b with slices := b.slices.upd c f }

/-- Change one subchannel. -/
def Block.updSub (b : Block) (s : Nat) (f : SubSt → SubSt) : Block := { b with subs := b.subs.upd s f }

/-- The line key of a way of a set of a slice. -/
def lineKey (c set way : Nat) : Nat := (c * 512 + set) * 16 + way

/-- Change one cache line. -/
def Block.updLine (b : Block) (k : Nat) (f : Line → Line) : Block :=
  { b with arr := { b.arr with lines := b.arr.lines.upd k f } }

/-- The sectors a request covers: every sector of the line for RD256 and WRL, otherwise its own. -/
def opSectors (op : ReqOp) (dpa : Nat) : List Nat :=
  match op with
  | .rd256 => (List.range 4).map (fun i => (dpa / 64 + i) % 4)
  | .wrl => [0, 1, 2, 3]
  | _ => [dpa / 64 % 4]

/-- A write. -/
def ReqOp.isWrite (op : ReqOp) : Bool := op == .wr64 || op == .wrp || op == .wrl

/-- Two requests touch a common sector (R144). -/
def overlaps (opA : ReqOp) (dpaA : Nat) (opB : ReqOp) (dpaB : Nat) : Bool :=
  dpaA / 256 == dpaB / 256 && (opSectors opA dpaA).any (fun s => (opSectors opB dpaB).contains s)

/-- Beats of one outstanding request that can be presented now, in the order of R139, and what remains of it. -/
def readyBeats (o : Outst) : List Nat → List Beat × List Nat
  | [] => ([], [])
  | s :: rest =>
    match o.ready.get s with
    | some bt => let (bs, left) := readyBeats o rest; (bt :: bs, left)
    | none => ([], s :: rest)

/-- Move decided beats to the response lane in the order R139 and R144 allow: a request waits for every older request
of the port that overlaps it. `held` are the older requests still incomplete. -/
def flushOut (held : List Outst) : List Outst → List Outst × List Beat
  | [] => ([], [])
  | o :: rest =>
    if held.any (fun h => overlaps h.op h.dpa o.op o.dpa) then
      let (os, bs) := flushOut (o :: held) rest
      (o :: os, bs)
    else
      let (bs, left) := readyBeats o o.todo
      if left.isEmpty then
        let (os, bs') := flushOut held rest
        (os, bs ++ bs')
      else
        let o' := { o with todo := left }
        let (os, bs') := flushOut (o' :: held) rest
        (o' :: os, bs ++ bs')

/-- The valid entry of the working guarantee table that a request matches: the Tender's entry, or the entry of a
master (R179). -/
def Block.reguEntry (b : Block) (tender : Bool) (master : Nat) : Option Nat :=
  (List.range 256).find? (fun e => b.wk (REGU_GT_CTL_VALID e) != 0 &&
    (if tender then b.wk (REGU_GT_CTL_TENDER e) != 0
     else b.wk (REGU_GT_CTL_TENDER e) == 0 && b.wk (REGU_GT_CTL_MID e) == master))

/-- Whether a status carries data (R140). -/
def statusHasData (st : Nat) : Bool := st == 0 || st == 1

/-- Status codes of responses. -/
def stOK : Nat := 0
/-- OK_CORRECTED. -/
def stCorrected : Nat := 1
/-- POISON. -/
def stPoison : Nat := 2
/-- UE. -/
def stUE : Nat := 3
/-- FENCED. -/
def stFenced : Nat := 4
/-- DENIED. -/
def stDenied : Nat := 5
/-- DECODE. -/
def stDecode : Nat := 6
/-- ABORTED. -/
def stAborted : Nat := 7

/-- Response beats a port has reserved (R155). -/
def PortSt.beatsReserved (q : PortSt) : Nat :=
  (q.out.filter (fun o => o.op = .rd64 || o.op = .rd256)).foldl (fun n o => n + o.todo.length) 0
    + (q.rsp.filter (fun t => !t.write)).length

/-- Writes a port has outstanding (R155). -/
def PortSt.writesOut (q : PortSt) : Nat :=
  (q.out.filter (fun o => o.op = .wr64 || o.op = .wrp)).length + (q.rsp.filter (fun t => t.write)).length

/-- Queue a descriptor update (R124). -/
def Block.descUpd (b : Block) (u : DescUpd) : Block := { b with edt := { b.edt with updates := b.edt.updates ++ [u] } }

/-- The update that sets POISON of an extent. -/
def poisonUpd (idx : Nat) : DescUpd := { (default : DescUpd) with idx := idx, poison := true, lane := 4 }

/-- The update that sets MIRROR_STALE, naming the side that took the write (R123): 0 primary, 1 mirror. -/
def staleUpd (idx side : Nat) : DescUpd := { (default : DescUpd) with idx := idx, stale := some side, lane := 4 }

/-- A fresh request number. -/
def Block.newId (b : Block) : Nat × Block := (b.nextId, { b with nextId := b.nextId + 1 })

end Sys2Proof.Machine
end

