-- ==== Sys2Proof/Machine/Sections.lean ====
section
/-! DEFINITION. Reading the sections of the structure image that are in force (R68): each accessor names the field of
spec/ it reads. Sections are held as their bytes; an absent section reads zero throughout. -/

namespace Sys2Proof.Machine

open Reg

/-- Key of a section: TYPE × 64 + INSTANCE. -/
def secKey (type inst : Nat) : Nat := type * 64 + inst

/-- Bytes of a section in force. -/
def Block.sec (b : Block) (type inst : Nat) : List Byte := b.img.secs.get (secKey type inst)

/-- A section is in force. -/
def Block.hasSec (b : Block) (type inst : Nat) : Bool := !(b.sec type inst).isEmpty

/-- TOPOLOGY. -/
def tyTopology : Nat := 0x0001
/-- INTERLEAVE. -/
def tyInterleave : Nat := 0x0002
/-- EDT. -/
def tyEdt : Nat := 0x0003
/-- CACHE_PART. -/
def tyCachePart : Nat := 0x0004
/-- PHY_INIT. -/
def tyPhyInit : Nat := 0x0005
/-- CAL_POINTS. -/
def tyCalPoints : Nat := 0x0006
/-- LEDGER_THRESH. -/
def tyLedger : Nat := 0x0007
/-- ROLE_POLICY. -/
def tyRole : Nat := 0x0008
/-- KEEPER_PROG. -/
def tyKeeper : Nat := 0x0009
/-- CLAUSES. -/
def tyClauses : Nat := 0x0010
/-- SENTENCES. -/
def tySentences : Nat := 0x0011
/-- THERMAL_POWER. -/
def tyThermal : Nat := 0x0012
/-- SEVERITY. -/
def tySeverity : Nat := 0x0013
/-- LIGHT_LIST. -/
def tyLight : Nat := 0x0014

/-! ## TOPOLOGY (R70) -/

/-- `n` bytes at `off` of channel record `ch`. -/
def Block.topo (b : Block) (ch off n : Nat) : Nat := leAt (b.sec tyTopology 0) (16 * ch + off) n

/-- ENABLE of a channel. -/
def Block.chEnabled (b : Block) (ch : Nat) : Bool := bitOf (b.topo ch 0 1) 0
/-- LOCKSTEP of an enabled channel. -/
def Block.chLockstep (b : Block) (ch : Nat) : Bool := b.chEnabled ch && bitOf (b.topo ch 0 1) 1
/-- The subchannel that keeps the error records of `s`: of a lockstep pair, A. -/
def Block.eccSub (b : Block) (s : Nat) : Nat := if b.chLockstep (s / 2) then s / 2 * 2 else s
/-- SPARE of an enabled channel. -/
def Block.chSpare (b : Block) (ch : Nat) : Bool := b.chEnabled ch && bitOf (b.topo ch 0 1) 2
/-- MODULE_TYPE. -/
def Block.chModType (b : Block) (ch : Nat) : Nat := b.topo ch 1 1
/-- DIMMS. -/
def Block.chDimms (b : Block) (ch : Nat) : Nat := b.topo ch 2 1
/-- RANKS per DIMM. -/
def Block.chRanks (b : Block) (ch : Nat) : Nat := b.topo ch 3 1
/-- GROUP. -/
def Block.chGroup (b : Block) (ch : Nat) : Nat := b.topo ch 4 1
/-- SPEED_BIN. -/
def Block.chBin (b : Block) (ch : Nat) : Nat := b.topo ch 5 1
/-- MAX_RATE. -/
def Block.chMaxRate (b : Block) (ch : Nat) : Nat := b.topo ch 6 2
/-- CAPACITY_GIB. -/
def Block.chCapacity (b : Block) (ch : Nat) : Nat := b.topo ch 8 2
/-- MIN_CHANNELS of the minimum viable topology word. -/
def Block.minChannels (b : Block) : Nat := bitsOf (leAt (b.sec tyTopology 0) 0x120 4) 4 0
/-- REQUIRED of the minimum viable topology word. -/
def Block.requiredMask (b : Block) : Nat := bitsOf (leAt (b.sec tyTopology 0) 0x120 4) 31 16

/-- Ranks of a subchannel: DIMMS × RANKS (R99). -/
def Block.subRanks (b : Block) (s : Nat) : Nat := b.chDimms (s / 2) * b.chRanks (s / 2)

/-! ## INTERLEAVE (R98 to R101) -/

/-- CTL of set `k`. -/
def Block.ivsCtl (b : Block) (k : Nat) : Nat := leAt (b.sec tyInterleave k) 0 4
/-- GROUP_LOG2. -/
def Block.ivsLog2 (b : Block) (k : Nat) : Nat := bitsOf (b.ivsCtl k) 2 0
/-- log2 of the interleave granule in bytes. -/
def Block.ivsGran (b : Block) (k : Nat) : Nat := 8 + bitsOf (b.ivsCtl k) 6 4
/-- HASH. -/
def Block.ivsHash (b : Block) (k : Nat) : Bool := bitOf (b.ivsCtl k) 8
/-- BASE. -/
def Block.ivsBase (b : Block) (k : Nat) : Nat := leAt (b.sec tyInterleave k) 0x08 8
/-- LIMIT. -/
def Block.ivsLimit (b : Block) (k : Nat) : Nat := leAt (b.sec tyInterleave k) 0x10 8
/-- CHAN[j]. -/
def Block.ivsChan (b : Block) (k j : Nat) : Nat := leAt (b.sec tyInterleave k) (0x18 + j) 1
/-- SEL[t]. -/
def Block.ivsSel (b : Block) (k t : Nat) : Nat := leAt (b.sec tyInterleave k) (0x28 + t) 1

/-- The exclusive or of the `k`-bit fields of `q` below bit 40 (R101). -/
def hashFold (q k : Nat) : Nat → Nat → Nat
  | 0, _ => 0
  | n + 1, j => if j < 40 then ((q >>> j) % 2 ^ k) ^^^ hashFold q k n (j + k) else 0

/-- The channel and channel-local address of a set-relative address (R101). -/
def Block.mapSpa (b : Block) (set spa : Nat) : Route :=
  let k := b.ivsLog2 set
  let ig := b.ivsGran set
  let c := spa >>> ig
  let q := c >>> k
  let h := if b.ivsHash set && k != 0 then hashFold q k 41 0 else 0
  let slot := (c % 2 ^ k) ^^^ h
  ⟨set, b.ivsChan set slot, (q <<< ig) ||| (spa % 2 ^ ig)⟩

/-- The DRAM address bit that selector `t` drives (R99, R101). -/
def Block.selBit (b : Block) (set cla t : Nat) : Nat :=
  let v := b.ivsSel set t
  if v = 0x3F then 0 else (cla >>> v) % 2

/-- `n` selector bits from index `t`, least significant first. -/
def Block.selBits (b : Block) (set cla t : Nat) : Nat → Nat
  | 0 => 0
  | n + 1 => b.selBit set cla t + 2 * b.selBits set cla (t + 1) n

/-- The subchannel a routed address reaches; subchannel A serves both of a lockstep channel (R255). -/
def Block.routeSub (b : Block) (r : Route) : Nat :=
  if b.chLockstep r.chan then 2 * r.chan else 2 * r.chan + b.selBit r.set r.cla 0

/-- The DRAM address of a routed address (R99); column bits C3 to C0 are zero. -/
def Block.routeCoord (b : Block) (r : Route) : Coord :=
  { rank := b.selBits r.set r.cla 1 3, bg := b.selBits r.set r.cla 4 3, bank := b.selBits r.set r.cla 7 2,
    col := b.selBits r.set r.cla 9 7 * 16, row := b.selBits r.set r.cla 16 18 }

/-- The routed address of sector `sec` of the same 256-byte line. -/
def Route.sector (r : Route) (sec : Nat) : Route := { r with cla := r.cla / 256 * 256 + sec * 64 }

/-- The block runs in harbour mode (R501). -/
def Block.harbour (b : Block) : Bool := b.rd HBR_STATUS_STATE == 4

/-! ## CAL_POINTS (R351) -/

/-- A byte of the CAL_POINTS section. -/
def Block.calByte (b : Block) (off : Nat) : Nat := leAt (b.sec tyCalPoints 0) off 1
/-- CAPTURE, in 0.25 °C. -/
def Block.calCapture (b : Block) : Int := b.calByte 0x0A
/-- CAPTURE_ROUNDS. -/
def Block.calRounds (b : Block) : Nat := b.calByte 0x0B
/-- RELEARN. -/
def Block.calRelearn (b : Block) : Nat := b.calByte 0x0C
/-- TRAIN_BG. -/
def Block.trainBg (b : Block) : Nat := b.calByte 0x0D
/-- TRAIN_BANK. -/
def Block.trainBank (b : Block) : Nat := b.calByte 0x0E

/-! ## The clause store (R298) -/

/-- The store copy of a bin passes its section CRC. -/
def Block.storeOk (b : Block) (bin : Nat) : Bool := crc32 (b.sec tyClauses bin) == b.img.storeCrc.get bin

/-- A bit of the store copy of a bin flips. -/
def Block.storeFlip (b : Block) (bin bit : Nat) : Block :=
  let text := b.sec tyClauses bin
  let i := bit / 8
  if i < text.length then
    { b with img := { b.img with
        secs := b.img.secs.set (secKey tyClauses bin) (text.set i (text.getD i 0 ^^^ BitVec.ofNat 8 (2 ^ (bit % 8)))) } }
  else b

/-- The upset a command brings to the clause store. -/
def Block.storeUpset (b : Block) (flip : Option (Fin 16 × Nat)) : Block :=
  match flip with
  | some (bin, bit) => b.storeFlip bin bit
  | none => b

/-! ## EDT (R104) -/

/-- log2 of the extent granule G. -/
def Block.granLog (b : Block) : Nat := 28 + 2 * b.rd EDT_CFG_GRANULE
/-- ENTRIES. -/
def Block.edtEntries (b : Block) : Nat := b.rd EDT_CFG_ENTRIES
/-- LOC: the EDT is in scratch. -/
def Block.edtInScratch (b : Block) : Bool := b.on EDT_CFG_LOC
/-- BASE. -/
def Block.edtBase (b : Block) : Nat := b.rd64 EDT_BASE_LO_BASE EDT_BASE_HI_BASE

/-- The EDT has an image. -/
def Block.edtThere (b : Block) : Bool := b.edtEntries != 0

/-- The set whose span holds a DPA. -/
def Block.homeSet (b : Block) (a : Nat) : Option Nat :=
  (List.range 8).find? (fun k => b.hasSec tyInterleave k && decide (b.ivsBase k ≤ a) && decide (a < b.ivsLimit k))

/-- Set and frame of a DRAM-located EDT (R106). -/
def Block.edtFrame (b : Block) : Option (Nat × Nat) :=
  if b.edtThere && !b.edtInScratch then
    (b.homeSet b.edtBase).map (fun k => (k, (b.edtBase - b.ivsBase k) >>> b.granLog))
  else none

/-- The route of an offset in a frame (R105). -/
def Block.frameRoute (b : Block) (f : Nat × Nat) (off : Nat) : Route := b.mapSpa f.1 (f.2 * 2 ^ b.granLog + off)

/-! ## CACHE_PART (R214, R215) -/

/-- SCRATCH_WAYS. -/
def Block.scratchWays (b : Block) : Nat := b.rd (CCH_CFG_SCRATCH_WAYS 0)
/-- PINNED_WAYS. -/
def Block.pinnedWays (b : Block) : Nat := b.rd (CCH_CFG_PINNED_WAYS 0)
/-- Normal ways: way 0 up to the lowest pinned way. -/
def Block.normalWays (b : Block) : Nat := 16 - b.scratchWays - b.pinnedWays

/-! ## Channels and fences (R122, R515) -/

/-- The fence bit of a subchannel. -/
def Block.subFenced (b : Block) (s : Nat) : Bool := b.bit FLT_FENCE_SUB_U s
/-- The fence bit of a slice. -/
def Block.sliceFenced (b : Block) (c : Nat) : Bool := b.bit FLT_FENCE_SLICE_U c
/-- The fence bit of a port. -/
def Block.portFenced (b : Block) (p : Nat) : Bool := b.bit FLT_FENCE_PORT_U p

/-- Channel power states of PWR_CH_STATUS.STATE (R464). -/
def pwA0 : Nat := 0
/-- A1. -/
def pwA1 : Nat := 1
/-- S1. -/
def pwS1 : Nat := 2
/-- S2. -/
def pwS2 : Nat := 3
/-- OFF. -/
def pwOFF : Nat := 5

end Sys2Proof.Machine
end

