-- ==== Sys2Proof/Machine/Counters.lean ====
section
/-! DEFINITION. Performance counters and slot accounting (16_performance_counters): counting an event, snapshots,
clears, live reads and sample records. -/

namespace Sys2Proof.Machine

open Reg

/-- What an outcome of every meaning is made of. -/
abbrev Out := Host.Outcome State Fault Refusal

/-- A command's effect on the block; the queue is left to `step`. -/
def onBlock (s : State) (f : Block → Block) : Out := .next { s with block := f s.block }

/-- Draw the index of the next free value. -/
def Block.draw (b : Block) : Nat × Block := (b.fresh, { b with fresh := b.fresh + 1 })

/-- Attributes an event carries (R446). -/
structure Carry where
  master : Option Nat := none
  dpa    : Option Nat := none
  /-- Traffic class. -/
  tc     : Option Nat := none
  /-- Privilege class of R445: 0 TENANT, 1 PLATFORM, 2 SERVICE. -/
  priv   : Option Nat := none
  req    : Option Nat := none
  tag    : Nat := 0
  deriving DecidableEq, Repr, Inhabited

/-- Group bit of counter `n` (R443). -/
def ctrGroup (n : Nat) : Nat :=
  if n < 48 then 0 else if n < 432 then 4 + (n - 48) / 12 / 4 else if n < 528 then 1
  else if n < 544 then 2 else if n < 552 then 3 else 12

/-- First counter of a unit and how many it has (R443). -/
def ctrPort (p : Nat) : Nat × Nat := (8 * p, 8)
/-- Counters of a subchannel. -/
def ctrSub (s : Nat) : Nat × Nat := (48 + 12 * s, 12)
/-- Counters of a slice. -/
def ctrSlice (c : Nat) : Nat × Nat := (432 + 6 * c, 6)
/-- Counters of the regulator. -/
def ctrRegu : Nat × Nat := (528, 16)
/-- Counters of the Tender. -/
def ctrTender : Nat × Nat := (544, 8)

/-- The range filter of counter `n` passes DPA `a` (R444). -/
def Block.ctrInRange (b : Block) (n a : Nat) : Bool :=
  let r := b.wk (CTR_CFG_RANGE n)
  let base := (b.rd (CTR_RANGE_WORD r 0) + 2 ^ 32 * b.rd (CTR_RANGE_WORD r 1)) % 2 ^ 46 / 64 * 64
  let limit := (b.rd (CTR_RANGE_WORD r 2) + 2 ^ 32 * b.rd (CTR_RANGE_WORD r 3)) % 2 ^ 46 / 64 * 64
  decide (base ≤ a) && decide (a < limit)

/-- Counter `n` of a slice (or not) counts an event (R444). -/
def Block.ctrPasses (b : Block) (n code : Nat) (c : Carry) : Bool :=
  b.wk (CTR_CFG_ENABLE n) != 0 && b.wk (CTR_CFG_EVENT n) == code
  && (match c.tc with
      | some t => bitOf (b.wk (CTR_CFG_CLASS n)) t
      | none => b.wk (CTR_CFG_NOCLASS n) != 0)
  && (match c.priv with
      | some v => bitOf (b.wk (CTR_CFG_PRIV n)) v
      | none => true)
  && (b.wk (CTR_FILT_MID_EN n) == 0 ||
      (match c.master with
       | some m => (m &&& b.wk (CTR_FILT_MID_MASK n)) == (b.wk (CTR_FILT_MID n) &&& b.wk (CTR_FILT_MID_MASK n))
       | none => false))
  && (b.wk (CTR_CFG_RANGE_EN n) == 0 ||
      (match c.dpa with
       | some a => b.ctrInRange n a
       | none => false))
  && (ctrGroup n != 1 || b.wk (CTR_FILT_REQ n) == 15 ||
      (match c.req with
       | some r => b.wk (CTR_FILT_REQ n) == r
       | none => true))

/-- Counter `n` is the even half of a chained pair (R448). -/
def Block.ctrChained (b : Block) (n : Nat) : Bool := n % 2 == 0 && b.wk (CTR_CFG_CHAIN n) != 0

/-- Write a sample record to the ring (R461). -/
def Block.ctrRecord (b : Block) (n skid : Nat) (c : Carry) : Block :=
  let i := b.rd CTR_SAMPLE_WR_NEXT
  let dpa := c.dpa.getD 0
  let t := b.now
  let w4 := 2 ^ 31 + (if c.dpa.isSome then 2 ^ 24 else 0) + skid * 2 ^ 16 + (if ctrGroup n = 0 then 15 else c.req.getD 15) * 2 ^ 12 + n
  let words := [c.tag % 2 ^ 32, c.tag / 2 ^ 32, dpa % 2 ^ 32, dpa / 2 ^ 32, w4, t % 2 ^ 32, t / 2 ^ 32, 0]
  let b := forEach (List.range 8) b (fun b j => b.wr (CTR_SAMPLE_WORD i j) (words.getD j 0))
  let b := b.wr CTR_SAMPLE_WR_NEXT ((i + 1) % 64)
  if i = 63 then b.wr CTR_SAMPLE_WR_WRAPS ((b.rd CTR_SAMPLE_WR_WRAPS + 1) % 65536) else b

/-- Try to capture a counted event of counter `n` for which a capture is pending (R460). -/
def Block.ctrCapture (b : Block) (n skid : Nat) (c : Carry) : Block :=
  let (i, b) := b.draw
  if Config.captureBusy i then
    if skid ≥ 16 then
      let b := { b with ctr := { b.ctr with capt := b.ctr.capt.set n 0 } }
      ((b.wr CTR_STATUS_SAMPLE_LOST 1).bump CTR_SAMPLE_LOST_CNT_CNT).intr 24 (b.on CTR_CTL_INT_LOST)
    else { b with ctr := { b.ctr with capt := b.ctr.capt.set n (skid + 1) } }
  else ({ b with ctr := { b.ctr with capt := b.ctr.capt.set n 0 } }).ctrRecord n skid c

/-- The overflow bit of counter `n` (R447). -/
def Block.ctrOverflow (b : Block) (n : Nat) : Block :=
  (b.setBitOf (CTR_OVF_OVF (n / 32)) (n % 32)).intr 24 (b.on CTR_CTL_INT_OVF)

/-- An increment of `amount` carries counter `n`, or the pair it is the even half of, past its end (R447, R448). -/
def Block.ctrExceeds (b : Block) (n amount : Nat) : Bool :=
  decide (2 ^ 48 ≤ b.ctr.live.get n + amount) && (!b.ctrChained n || decide (2 ^ 48 ≤ b.ctr.live.get (n + 1) + 1))

/-- Counter `n` counts `amount` (R447, R448). -/
def Block.ctrAdd (b : Block) (n amount : Nat) (c : Carry) : Block :=
  let v := b.ctr.live.get n + amount
  let wrapped := decide (2 ^ 48 ≤ v)
  let exceeds := b.ctrExceeds n amount
  let b := { b with ctr := { b.ctr with live := b.ctr.live.set n (v % 2 ^ 48) } }
  let chain := b.ctrChained n
  let b := if chain && wrapped then
      { b with ctr := { b.ctr with live := b.ctr.live.set (n + 1) ((b.ctr.live.get (n + 1) + 1) % 2 ^ 48) } } else b
  let b := if exceeds then b.ctrOverflow n else b
  let samples := b.wk (CTR_CFG_SAMPLE n) != 0 && c.master.isSome && decide (ctrGroup n ≤ 2)
  match b.ctr.capt.get n with
  | 0 => if exceeds && samples then b.ctrCapture n 0 c else b
  | k => if samples then b.ctrCapture n k c else b

/-- An event of a unit with counters `u.1` to `u.1 + u.2 - 1`. -/
def Block.count (b : Block) (u : Nat × Nat) (code amount : Nat) (c : Carry) : Block :=
  forEach (List.range u.2) b (fun b k =>
    let n := u.1 + k
    if n % 2 == 1 && b.ctrChained (n - 1) then b
    else if b.ctrPasses n code c then b.ctrAdd n amount c else b)

/-- A counted slot of subchannel `s` in category `k` (R456); retired and front-starved slots feed the measured estimate
(R197). -/
def Block.countSlot (b : Block) (s k : Nat) : Block :=
  { b with
    ctr := { b.ctr with slots := b.ctr.slots.upd (4 * s + k) (fun v => (v + 1) % 2 ^ 48) }
    regu := if k = 0 ∨ k = 2 then { b.regu with slots := b.regu.slots.upd s (· + 1) } else b.regu }

/-! ## Snapshots (R449 to R452) -/

/-- A key of CTR_CFG[n] or CTR_FILT[n]. -/
def ctrKey (n k : Nat) : Bool := [0x281000 + 0x10 * n, 0x281004 + 0x10 * n].contains (k / 32)

/-- A new configuration of counter `n` waits for its snapshot. -/
def Block.ctrChanged (b : Block) (n : Nat) : Bool :=
  (b.regs.filter (fun e => ctrKey n e.1)) != (b.work.filter (fun e => ctrKey n e.1))

/-- The live count of counter `n` restarts at its snapshot (R452): with CLEAR_AT_SNAP or under a new configuration, a chained
pair as one counter. -/
def Block.ctrRestarts (b : Block) (n : Nat) : Bool :=
  let e := n - n % 2
  let clears (k : Nat) : Bool := b.wk (CTR_CFG_CLEAR_AT_SNAP k) != 0
  clears n || b.ctrChanged n
    || (b.ctrChained e || b.on (CTR_CFG_CHAIN e)) && (clears e || b.ctrChanged e || b.ctrChanged (e + 1))

/-- Latch counter `n` (R452): its count, then the restart and the new configuration. -/
def Block.ctrLatch (b : Block) (n : Nat) (restart : Bool) : Block :=
  let c := { b.ctr with latch := b.ctr.latch.set n (b.ctr.live.get n) }
  let c := if restart then { c with live := c.live.set n 0 } else c
  { b with ctr := c, work := if b.ctrChanged n then b.work.overlay b.regs (ctrKey n) else b.work }

/-- Latch every counter of a set of groups. -/
def Block.ctrLatchGroups (b0 : Block) (groups : Nat) : Block :=
  let b := forEach (List.range 552) b0 (fun b n => if bitOf groups (ctrGroup n) then b.ctrLatch n (b0.ctrRestarts n) else b)
  if bitOf groups 12 then
    forEach (List.range 128) b (fun b k =>
      { b with ctr := { b.ctr with latch := b.ctr.latch.set (552 + k) (b.ctr.slots.get k) } })
  else b

/-- A snapshot's instant arrives (R449, R451). An instant equal to the running copy's joins it. -/
def Block.snapshot (b : Block) (sn : Snap) : Block :=
  match b.ctr.copy with
  | some c =>
    if c.instant = sn.instant then
      let more := sn.groups - (sn.groups &&& c.groups)
      let b := b.ctrLatchGroups more
      { b with ctr := { b.ctr with copy := some { c with groups := c.groups ||| sn.groups } } }
    else
      let same := b.ctr.sched.filter (fun x => x.instant == sn.instant)
      let b := { b with ctr := { b.ctr with sched := b.ctr.sched.filter (fun x => x.instant != sn.instant) } }
      let b := ((b.wr CTR_STATUS_SNAP_DROP 1).bump CTR_SNAP_DROP_CNT_CNT).intr 24 (b.on CTR_CTL_INT_LOST)
      if sn.cmd || same.any (fun x => x.cmd) then b.wr CTR_SNAP_STATUS_OVERRUN 1 else b
  | none =>
    let same := b.ctr.sched.filter (fun x => x.instant == sn.instant)
    let groups := same.foldl (fun g x => g ||| x.groups) sn.groups
    let b := { b with ctr := { b.ctr with sched := b.ctr.sched.filter (fun x => x.instant != sn.instant) } }
    let b := b.ctrLatchGroups groups
    ({ b with ctr := { b.ctr with copy := some { sn with groups := groups } } }).wr CTR_SNAP_STATUS_BUSY 1

/-- The central reader ends its copy (R450). -/
def Block.snapshotDone (b : Block) : Block :=
  match b.ctr.copy with
  | none => b
  | some sn =>
    let b := forEach (List.range 552) b (fun b n =>
      if bitOf sn.groups (ctrGroup n) then
        (b.wr (CTR_VAL_LO_VAL n) (b.ctr.latch.get n % 2 ^ 32)).wr (CTR_VAL_HI_VAL n) (b.ctr.latch.get n / 2 ^ 32)
      else b)
    let b := if bitOf sn.groups 12 then
        forEach (List.range 128) b (fun b k =>
          let v := b.ctr.latch.get (552 + k)
          (b.wr (CTR_SLOT_SNAP_WORD (k / 4) (2 * (k % 4))) (v % 2 ^ 32)).wr
            (CTR_SLOT_SNAP_WORD (k / 4) (2 * (k % 4) + 1)) (v / 2 ^ 32))
      else b
    let b := { b with ctr := { b.ctr with copy := none, latch := [] } }
    let b := b.wr CTR_SNAP_STATUS_BUSY 0
    let b := b.wr CTR_SNAP_STATUS_SEQ ((b.rd CTR_SNAP_STATUS_SEQ + 1) % 65536)
    let b := b.wr CTR_SNAP_STATUS_GROUPS (sn.groups % 2 ^ 13)
    let b := (b.wr CTR_SNAP_TIME_LO_T (sn.instant % 2 ^ 32)).wr CTR_SNAP_TIME_HI_T (sn.instant / 2 ^ 32)
    b.intr 24 (b.on CTR_CTL_INT_SNAP)

/-- CTR_SNAP.GO: a snapshot is scheduled 1,024 ns later (R449). -/
def Block.snapshotCommand (b : Block) : Block :=
  { b with ctr := { b.ctr with
    sched := b.ctr.sched ++ [⟨b.rd CTR_SNAP_GROUPS, (b.now + 1024) % 2 ^ 64, true⟩] } }

/-- The instant of the earliest scheduled snapshot arrives; one whose instant is still to come waits. -/
def Block.snapshotArrives (b : Block) : Block :=
  match takeFirst (fun (x : Snap) => decide (timeSince b.now x.instant < 2 ^ 63)) b.ctr.sched with
  | none => b
  | some (sn, rest) => ({ b with ctr := { b.ctr with sched := rest } }).snapshot sn

/-- SNAPSHOT_LATCH (R449, R451). -/
def execSnapshotLatch (s : State) : Out := onBlock s Block.snapshotArrives

/-- SNAPSHOT_COPY_DONE (R450). -/
def execSnapshotCopyDone (s : State) : Out := onBlock s Block.snapshotDone

/-! ## Clears and live reads (R453, R454) -/

/-- Counters a clear or a live read of `n` names: both halves of a chained pair. -/
def Block.ctrPair (b : Block) (n : Nat) : List Nat :=
  let e := n - n % 2
  if b.ctrChained e then [e, e + 1] else [n]

/-- CTR_CLEAR.GO (R454). `clash` is the amount of a counted increment of the counter in the cycle of the clear, 0 for none: the
clear wins. -/
def Block.ctrClear (b : Block) (clash : Nat) : Block :=
  let n := b.rd CTR_CLEAR_INDEX
  if n ≥ 552 then b
  else
    let ns := b.ctrPair n
    let lost := clash != 0 && b.ctrExceeds (ns.headD 0) clash
    let b := forEach ns b (fun b k => { b with ctr := { b.ctr with live := b.ctr.live.set k 0 } })
    if lost then
      ((b.wr CTR_STATUS_LOST_OVF 1).wr CTR_STATUS_LOST_IDX (ns.headD 0)).intr 24 (b.on CTR_CTL_INT_LOST)
    else b

/-- The live value CTR_LIVE_SEL names, 96 bits (R453). -/
def Block.ctrLive (b : Block) : Nat :=
  let n := b.rd CTR_LIVE_SEL_INDEX
  if n < 552 then
    if b.ctrChained n then b.ctr.live.get n + 2 ^ 48 * b.ctr.live.get (n + 1) else b.ctr.live.get n
  else if n < 680 then b.ctr.slots.get (n - 552) else 0

/-- A read of CTR_LIVE_LO latches the whole value; CTR_LIVE_MID and CTR_LIVE_HI return the rest of it (R453). -/
def Block.ctrLatchLive (b : Block) : Block :=
  let v := b.ctrLive
  ((b.wr CTR_LIVE_LO_VAL (v % 2 ^ 32)).wr CTR_LIVE_MID_VAL (v / 2 ^ 32 % 2 ^ 32)).wr CTR_LIVE_HI_VAL (v / 2 ^ 64)

/-- The value of a counter's sector in the user aperture (R462). -/
def Block.ctrSector (b : Block) (n : Nat) : Nat :=
  let v := b.rd (CTR_VAL_LO_VAL n) + 2 ^ 32 * b.rd (CTR_VAL_HI_VAL n)
  let w := b.rd (CTR_VAL_LO_VAL (n + 1)) + 2 ^ 32 * b.rd (CTR_VAL_HI_VAL (n + 1))
  let value := if b.ctrChained n then v + 2 ^ 48 * w else v
  value + 2 ^ 128 * b.rd64 CTR_SNAP_TIME_LO_T CTR_SNAP_TIME_HI_T + 2 ^ 192 * b.rd CTR_SNAP_STATUS_SEQ

/-- A tenant may read counter `n` with MASTER `m` (R463). -/
def Block.ctrUserOk (b : Block) (n m : Nat) : Bool :=
  b.wk (CTR_CFG_USER n) != 0 && b.wk (CTR_FILT_MID_EN n) != 0 && b.wk (CTR_FILT_MID_MASK n) == 0x3FF
  && b.wk (CTR_FILT_MID n) == m && !(n % 2 == 1 && b.ctrChained (n - 1))

end Sys2Proof.Machine
end

