-- ==== Sys2Proof/Machine/Responses.lean ====
section
/-! DEFINITION. Responses (R138 to R144): the decision of a beat, the order of the response lane, and LATE. -/

namespace Sys2Proof.Machine

open Reg

/-- What an event of a beat carries (R445, R446). -/
def Beat.carry (t : Beat) (p : Nat) : Carry :=
  { master := some (tagMaster t.tag), dpa := some t.dpa, tc := if t.tc < 8 then some t.tc else none
    priv := some (if p = 5 ∨ 0x3FFF00000000 ≤ t.dpa then 1 else 0), req := some p, tag := t.tag.toNat }

/-- Fix LATE of the beat at the head of the response lane, when it is first presented (R143), and count the
request's deadline miss (R193). -/
def Block.presentHead (b : Block) (p : Nat) : Block :=
  match (b.ports.get p).rsp with
  | [] => b
  | h :: t =>
    if h.late.isSome then b
    else
      let late := b.lateNow (tagDeadline h.tag)
      let fresh := late && !(b.ports.get p).lateIds.contains h.id
      let b := b.updPort p (fun q => { q with
        rsp := { h with late := some late } :: t
        lateIds := if fresh then h.id :: q.lateIds else q.lateIds })
      if fresh then
        let b := (b.bump REGU_DLMISS_CNT_CNT).count ctrRegu 5 1
          { (default : Carry) with master := some (tagMaster h.tag), tc := if h.tc < 8 then some h.tc else none, tag := h.tag.toNat }
        match b.reguEntry false (tagMaster h.tag) with
        | none => b
        | some e =>
          let b := b.bump (REGU_GT_CNT_DL_MISS e)
          { b with regu := { b.regu with dlWin := b.regu.dlWin.upd e (· + 1) } }
      else b

/-- Move what can be presented to the response lane of a port. -/
def Block.flushPort (b : Block) (p : Nat) : Block :=
  let (os, bs) := flushOut [] (b.ports.get p).out
  (b.updPort p (fun q => { q with out := os, rsp := q.rsp ++ bs })).presentHead p

/-- Decide the response of one sector of a request: a beat of a port's request, or a return to the Tender, the Keeper
or the scrubber (the scrubber's own writes and those of descriptor updates have none). Data goes with OK and OK_CORRECTED only (R140); a PREFETCH has no response (R133). A write answered
before its data beat has arrived discards the beat (R142). -/
def Block.respond (b : Block) (r : Req) (sec status : Nat) (data : BitVec 512) : Block :=
  if r.src < 6 then
    if r.op = .prefetch then b
    else
      let write := r.op = .wr64 || r.op = .wrp
      let sec := if write then 0 else sec
      let bt (o : Outst) : Beat :=
        { id := r.id, tag := r.tag, write := write, last := decide (o.todo.getLast? = some sec),
          sector := sec, status := status, dpa := r.dpa, tc := r.tc,
          data := if write || !statusHasData status then 0 else data, late := none }
      (b.updPort r.src (fun q => { q with
        out := updFirst (fun o => o.id == r.id) (fun o => { o with ready := o.ready.set sec (some (bt o)) }) q.out
        needData := q.needData.map (fun e => if e.1 = r.id then (e.1, some (r.tag, r.dpa)) else e) })).flushPort r.src
  else if (r.src = 8 ∧ r.op = .wrl) ∨ (r.src = 10 ∧ r.op = .wr64) then b
  else { b with intern := b.intern ++ [⟨r, sec, status, data⟩] }

/-- The same response for every sector of a request. -/
def Block.respondAll (b : Block) (r : Req) (status : Nat) : Block :=
  forEach (opSectors r.op r.dpa) b (fun b s => b.respond r s status 0)

end Sys2Proof.Machine
end

