-- ==== Sys2Proof/Machine/Ledger.lean ====
section
/-! DEFINITION. NVM records with two copies (R367), and the life ledgers of the modules (R411 to R417): their layout,
what feeds them, the verdict, and their stores. -/

namespace Sys2Proof.Machine

open Reg

/-! ## Records of two copies (R367) -/

/-- A byte list padded with zeros, or cut, to `n` bytes. -/
def padTo (n : Nat) (bs : List Byte) : List Byte := (bs ++ List.replicate n 0).take n

/-- A record's bytes with its CRC-32 over all but its last four bytes put in those (R63). -/
def withCrc (n : Nat) (bs : List Byte) : List Byte :=
  let body := padTo (n - 4) bs
  body ++ leBytes 4 (crc32 body)

/-- A copy is valid when its MAGIC and CRC are correct. -/
def recValid (magic : Nat) (bs : List Byte) : Bool :=
  leAt bs 0 4 == magic && leAt bs (bs.length - 4) 4 == crc32 (bs.take (bs.length - 4))

/-- SEQ `y` is greater than `x` in serial order. -/
def seqGreater (y x : Nat) : Bool :=
  let d := (y + 2 ^ 32 - x) % 2 ^ 32
  decide (0 < d) && decide (d < 2 ^ 31)

/-- The newer valid copy of a record of `n` bytes at `offA` or `offB`: 0 for A, 1 for B, with its bytes. -/
def Block.newerCopy (b : Block) (magic offA offB n : Nat) : Option (Nat × List Byte) :=
  let x := b.nvmBytes offA n
  let y := b.nvmBytes offB n
  match recValid magic x, recValid magic y with
  | true, true => if seqGreater (leAt y 4 4) (leAt x 4 4) then some (1, y) else some (0, x)
  | true, false => some (0, x)
  | false, true => some (1, y)
  | false, false => none

/-- Where the next store of a record goes, and its SEQ. -/
def Block.nextCopy (b : Block) (magic offA offB n : Nat) : Nat × Nat :=
  match b.newerCopy magic offA offB n with
  | none => (offA, 1)
  | some (k, bs) => (if k = 0 then offB else offA, (leAt bs 4 4 + 1) % 2 ^ 32)

/-- Begin a record store; while the NVM has failed its self-test nothing is stored (R497). -/
def Block.storeBegin (b : Block) (key off : Nat) (bytes : List Byte) : Block :=
  if b.on NVM_STATUS_SELFTEST_OK then
    ({ b with stores := b.stores ++ [NvStore.mk key off bytes] }).wr NVM_STATUS_BUSY 1
  else b

/-- End the oldest store of a key: its rows are written. -/
def Block.storeEnd (b : Block) (key : Nat) : Block :=
  match takeFirst (fun x => x.key == key) b.stores with
  | none => b
  | some (x, rest) =>
    let b := ({ b with stores := rest }).nvmPut x.off x.bytes
    if rest.isEmpty then b.wr NVM_STATUS_BUSY 0 else b

/-- A store of a key is in progress. -/
def Block.storing (b : Block) (key : Nat) : Bool := b.stores.any (fun x => x.key == key)

/-! ## The ledger record (R411) -/

/-- MAGIC of a ledger. -/
def ledMagic : Nat := 0x4C4D4641

/-- NVM offset of copy `k` of the ledger of slot `m`. -/
def ledOff (m k : Nat) : Nat := 0xC0000 + (2 * m + k) * 0x400

/-- Bytes 0x010 to 0x04F of a ledger: the identity. -/
def Ledger.identity (l : Ledger) : List Byte :=
  leBytes 2 l.mfr ++ leBytes 2 l.date ++ leBytes 4 l.serial ++ padTo 30 l.part ++ leBytes 1 l.type ++ leBytes 1 l.ranks
    ++ leBytes 2 l.capacity ++ leBytes 2 l.maxRate ++ leBytes 4 l.caps ++ List.replicate 16 0

/-- A history entry made of the current identity and counts (R411, R414). -/
def Ledger.entry (l : Ledger) : List Byte :=
  padTo 128 (l.identity ++ leBytes 8 l.installT ++ leBytes 8 l.seenT ++ leBytes 4 l.verdict ++ leBytes 4 l.ce
    ++ leBytes 4 l.persist ++ leBytes 4 l.ue ++ leBytes 4 l.hardUsed ++ leBytes 4 l.powered)

/-- One byte per bank group from a list of counts. -/
def bytesOf (n : Nat) (xs : List Nat) : List Byte := padTo n (xs.map (fun x => BitVec.ofNat 8 x))

/-- The 1,024 bytes of a ledger (R411). -/
def Ledger.bytes (l : Ledger) (m seq : Nat) : List Byte :=
  withCrc 1024 (leBytes 4 ledMagic ++ leBytes 4 seq ++ leBytes 1 m ++ leBytes 1 l.presence ++ leBytes 1 l.verdict
    ++ leBytes 1 ((if l.unsync then 1 else 0) + (if l.erased then 2 else 0)) ++ leBytes 4 l.reason ++ l.identity
    ++ leBytes 8 l.installT ++ leBytes 8 l.seenT ++ leBytes 4 l.powered ++ leBytes 4 l.hot
    ++ leBytes 2 (ofSigned 16 l.maxTemp) ++ leBytes 2 0 ++ leBytes 4 l.ce ++ leBytes 4 l.persist ++ leBytes 4 l.ue
    ++ leBytes 4 l.ovf ++ leBytes 4 l.ecsA ++ leBytes 4 l.ecsB ++ leBytes 4 l.hardUsed ++ leBytes 1 l.soft
    ++ leBytes 1 (l.erasedDev.getD 0xFF) ++ leBytes 6 0 ++ bytesOf 16 l.res ++ bytesOf 16 l.resFirst
    ++ padTo 128 (l.hist.getD 0 []) ++ padTo 128 (l.hist.getD 1 []))

/-- The ledger a record holds. -/
def ledgerOf (bs : List Byte) : Ledger :=
  { presence := leAt bs 0x09 1, verdict := leAt bs 0x0A 1, unsync := bitOf (leAt bs 0x0B 1) 0,
    erased := bitOf (leAt bs 0x0B 1) 1, reason := leAt bs 0x0C 4, mfr := leAt bs 0x10 2, date := leAt bs 0x12 2,
    serial := leAt bs 0x14 4, part := (bs.drop 0x18).take 30, type := leAt bs 0x36 1, ranks := leAt bs 0x37 1,
    capacity := leAt bs 0x38 2, maxRate := leAt bs 0x3A 2, caps := leAt bs 0x3C 4, installT := leAt bs 0x50 8,
    seenT := leAt bs 0x58 8, powered := leAt bs 0x60 4, hot := leAt bs 0x64 4, maxTemp := toSigned 16 (leAt bs 0x68 2),
    ce := leAt bs 0x6C 4, persist := leAt bs 0x70 4, ue := leAt bs 0x74 4, ovf := leAt bs 0x78 4,
    ecsA := leAt bs 0x7C 4, ecsB := leAt bs 0x80 4, hardUsed := leAt bs 0x84 4, soft := leAt bs 0x88 1,
    erasedDev := if leAt bs 0x89 1 = 0xFF then none else some (leAt bs 0x89 1),
    res := ((bs.drop 0x90).take 16).map BitVec.toNat, resFirst := ((bs.drop 0xA0).take 16).map BitVec.toNat,
    hist := [(bs.drop 0xB0).take 128, (bs.drop 0x130).take 128] }

/-- Change the working ledger of a slot. -/
def Block.updLedger (b : Block) (m : Nat) (f : Ledger → Ledger) : Block :=
  { b with mod := { b.mod with ledger := b.mod.ledger.upd m f } }

/-- Store the ledger of slot `m` (R413); while a store of it runs, once more when that ends. -/
def Block.storeLedger (b : Block) (m : Nat) : Block :=
  if b.storing (1000 + m) then { b with cal := { b.cal with again := b.cal.again.set (1000 + m) true } }
  else
    let (off, seq) := b.nextCopy ledMagic (ledOff m 0) (ledOff m 1) 1024
    b.storeBegin (1000 + m) off ((b.mod.ledger.get m).bytes m seq)

/-- A ledger store ends (R411); one that waited on it begins. -/
def Block.ledgerStored (b : Block) (m : Nat) : Block :=
  if b.storing (1000 + m) then
    let b := b.storeEnd (1000 + m)
    if b.cal.again.get (1000 + m) then
      ({ b with cal := { b.cal with again := b.cal.again.set (1000 + m) false } }).storeLedger m
    else b
  else b

/-- LEDGER_STORE_DONE (R411). -/
def execLedgerStoreDone (m : Fin 32) (s : State) : Out := onBlock s (fun b => b.ledgerStored m)

/-! ## Verdict (R416, R417) -/

/-- A threshold that is not 0 is reached. -/
def reached (value threshold : Nat) : Bool := threshold != 0 && decide (threshold ≤ value)

/-- The verdict causes that hold: (REASON bit, verdict). -/
def Block.causes (b : Block) (l : Ledger) : List (Nat × Nat) :=
  let t := b.sec tyLedger 0
  let w (off n : Nat) := leAt t off n
  if t.isEmpty then [] else
  ([ (0, 1, reached l.persist (w 0x00 2)), (1, 2, reached l.persist (w 0x02 2)),
     (2, 1, reached l.ue (w 0x04 2)), (3, 2, reached l.ue (w 0x06 2)), (4, 1, reached l.ovf (w 0x08 2)),
     (5, 1, w 0x0A 1 != 0xFF && l.res.any (fun r => decide (r ≤ w 0x0A 1))),
     (6, if w 0x0B 1 = 1 then 2 else 1, l.erased),
     (7, 1, reached l.hot (w 0x0C 4 * 3600)), (8, 1, reached l.powered (w 0x10 4 * 3600)),
     (9, 1, reached (l.ecsA + l.ecsB) (w 0x14 4)) ].filter (fun c => c.2.2)).map (fun c => (c.1, c.2.1))

/-- The slot of the module that holds a rank of a subchannel (R412). -/
def Block.slotOf (b : Block) (s rank : Nat) : Nat :=
  2 * (s / 2) + (if b.chRanks (s / 2) = 0 then 0 else rank / b.chRanks (s / 2))

/-- A persistent address of the module in slot `m` has no spare row left in its bank group, or its module supports no repair
(R416). -/
def Block.noSpare (b : Block) (m : Nat) : Bool :=
  let l := b.mod.ledger.get m
  [m / 2 * 2, m / 2 * 2 + 1].any (fun s => (List.range 32).any (fun i =>
    let e := b.ecc.log.get (32 * s + i)
    e.valid && e.persistent && b.slotOf s e.rank == m
      && (l.caps % 4 == 0 || l.res.getD (8 * (s % 2) + e.bg) 1 == 0)))

/-- Evaluate the verdict of slot `m` (R417). -/
def Block.judge (b : Block) (m : Nat) : Block :=
  let l := b.mod.ledger.get m
  let cs := b.causes l ++ (if b.noSpare m then [(10, 2)] else [])
  let reason := cs.foldl (fun r c => r ||| (1 <<< c.1)) l.reason
  let verdict := cs.foldl (fun v c => max v c.2) l.verdict
  let b := b.updLedger m (fun l => { l with reason := reason, verdict := verdict })
  if verdict = l.verdict then b
  else
    let b := b.event0 { code := 66, kind := 0, form := 1, addr := locAddr 4 m 0, unit_ := .none, sev := none }
    let b := (b.wr MOD_STATUS_VERDICT_CHG 1).intr 26 (b.bit MOD_CTL_INT_EN 0)
    b.storeLedger m

/-- Feed a ledger and evaluate its verdict. -/
def Block.feed (b : Block) (m : Nat) (f : Ledger → Ledger) : Block := (b.updLedger m f).judge m

/-- Row, bank-group and bank address bits of a slot, once discovered. -/
def Block.geom (b : Block) (m : Nat) : Option (Nat × Nat × Nat) :=
  let g := b.mod.geom.get m
  if g < 2 ^ 11 then none else some (g % 32, g / 32 % 8, g / 256 % 8)

/-- The levels of DCS0_n to DCS3_n for a command to a rank (R321): lanes 2p and 2p + 1 belong to DIMM position p, and no other
lane is driven low. A position in the encoded mode carries the rank's number on both of its lanes. -/
def Block.dcs (b : Block) (s rank : Nat) : Nat :=
  let m := b.slotOf s rank
  let p := m % 2
  let r := if b.chRanks (s / 2) = 0 then rank else rank % b.chRanks (s / 2)
  if b.mod.encCs.get m then 3 * 4 ^ (1 - p) + Config.encodedCs r % 4 * 4 ^ p
  else 15 - 2 ^ (2 * p + r % 2)

/-- A saturating 32-bit ledger count. -/
def sat32 (v : Nat) : Nat := min v 0xFFFFFFFF

/-- One correctable event (R412). -/
def Block.feedCE (b : Block) (m : Nat) : Block := b.feed m (fun l => { l with ce := sat32 (l.ce + 1) })
/-- One bucket overflow. -/
def Block.feedOvf (b : Block) (m : Nat) : Block := b.feed m (fun l => { l with ovf := sat32 (l.ovf + 1) })
/-- One uncorrectable outcome; its store is gathered to the second (R413). -/
def Block.feedUE (b : Block) (m : Nat) : Block :=
  let b := b.feed m (fun l => { l with ue := sat32 (l.ue + 1) })
  { b with mod := { b.mod with count := b.mod.count.set m true } }
/-- One persistent address. -/
def Block.feedPersist (b : Block) (m : Nat) : Block :=
  let b := b.feed m (fun l => { l with persist := sat32 (l.persist + 1) })
  { b with mod := { b.mod with count := b.mod.count.set m true } }

end Sys2Proof.Machine
end

