-- ==== Sys2Proof/Machine/Controls.lean ====
section
/-! DEFINITION. The controls of a PHY and their targets (R323, R345, R347 to R351). -/

namespace Sys2Proof.Machine

open Reg

/-! ## Controls (R323, R345) -/

/-- How a control is held: its register fields (coarse first), whether it is signed, its range, and its word in a
PHY_INIT record. -/
structure Ctl where
  flds   : List Fld
  signed : Bool
  lo     : Int
  hi     : Int
  word   : Nat
  deriving DecidableEq, Repr

/-- Control `c` of subchannel `s`: 7 per DQ lane, 3 per DQS pair, CA, CS and CK deskew and CK duty. -/
def ctlOf (s c : Nat) : Ctl :=
  if c < 280 then
    let l := c / 7
    match c % 7 with
    | 0 => ⟨[PHY_DQ_TX_DESKEW s l], false, 0, 255, 8 * l⟩
    | 1 => ⟨[PHY_DQ_RX_DESKEW s l], false, 0, 255, 8 * l⟩
    | 2 => ⟨[PHY_DQ_RX_VREF s l], false, 0, 127, 8 * l⟩
    | 3 => ⟨[PHY_DFE_TAP1 s l], true, -32, 31, 8 * l + 4⟩
    | 4 => ⟨[PHY_DFE_TAP2 s l], true, -16, 15, 8 * l + 4⟩
    | 5 => ⟨[PHY_DFE_TAP3 s l], true, -16, 15, 8 * l + 4⟩
    | _ => ⟨[PHY_DFE_TAP4 s l], true, -16, 15, 8 * l + 4⟩
  else if c < 310 then
    let j := (c - 280) / 3
    match (c - 280) % 3 with
    | 0 => ⟨[PHY_DQS_TX_COARSE s j, PHY_DQS_TX_FINE s j], false, 0, 4095, 0x140 + 4 * j⟩
    | 1 => ⟨[PHY_DQS_GATE_COARSE s j, PHY_DQS_GATE_FINE s j], false, 0, 8191, 0x140 + 4 * j⟩
    | _ => ⟨[PHY_DQS_DCC s j], true, -32, 31, 0x140 + 4 * j⟩
  else if c < 318 then ⟨[PHY_CA_DESKEW s (c - 310)], false, 0, 255, 0x168 + 4 * (c - 310)⟩
  else if c < 322 then ⟨[PHY_CS_DESKEW s (c - 318)], false, 0, 255, 0x188 + 4 * (c - 318)⟩
  else
    let k := (c - 322) / 2
    if c % 2 = 0 then ⟨[PHY_CK_DESKEW (s / 2 * 2) k], false, 0, 255, 0x198 + 4 * k⟩
    else ⟨[PHY_CK_DCC (s / 2 * 2) k], true, -32, 31, 0x198 + 4 * k⟩

/-- The controls of a subchannel: subchannel A holds those of the CK pairs (R320). -/
def ctlsOf (s : Nat) : List Nat := List.range (if s % 2 = 0 then 326 else 322)

/-- Combine the field values of a control. -/
def Ctl.join (k : Ctl) (read : Fld → Nat) : Int :=
  match k.flds with
  | [f] => if k.signed then toSigned f.width (read f) else (read f : Int)
  | [f, g] => ((128 * read f + read g : Nat) : Int)
  | _ => 0

/-- The value in force of a control. -/
def Block.inForce (b : Block) (s c : Nat) : Int := (ctlOf s c).join b.rd

/-- Set the value in force. -/
def Block.force (b : Block) (s c : Nat) (v : Int) : Block :=
  let k := ctlOf s c
  match k.flds with
  | [f] => b.wr f (ofSigned f.width v)
  | [f, g] => (b.wr f (v.toNat / 128)).wr g (v.toNat % 128)
  | _ => b

/-- A control's value in a PHY_INIT record. -/
def recCtl (rec_ : List Byte) (s c : Nat) : Int :=
  let k := ctlOf s c
  k.join (fun f => bitsOf (leAt rec_ k.word 4) (f.lo + f.width - 1) f.lo)

/-! ## Points, base and target (R347, R350, R351) -/

/-- TEMP of point `i`, in 0.25 °C. -/
def Block.pointTemp (b : Block) (i : Nat) : Int := toSigned 16 (leAt (b.sec tyCalPoints 0) (2 * i) 2)

/-- The measured points of a subchannel, in ascending order. -/
def Block.measured (b : Block) (s : Nat) : List Nat :=
  (List.range 5).filter (fun i => (b.cal.sets.get (8 * s + i)).isSome)

/-- The value of a control in the set of a measured point. -/
def Block.pointVal (b : Block) (s i c : Nat) : Int :=
  match b.cal.sets.get (8 * s + i) with
  | some x => recCtl x.phy s c
  | none => 0

/-- Division rounded to the nearest, halves upward. -/
def roundDiv (n : Int) (d : Nat) : Int := (2 * n + d) / (2 * d)

/-- The neighbours of `T` among ascending measured points: the highest at or below it, and the lowest above it. -/
def Block.bracket (b : Block) (s : Nat) (t : Int) : Option Nat × Option Nat :=
  let ps := b.measured s
  ((ps.filter (fun i => decide (b.pointTemp i ≤ t))).getLast?, ps.find? (fun i => decide (t < b.pointTemp i)))

/-- The base B(T) of a control (R347). -/
def Block.base (b : Block) (s c : Nat) (t : Int) : Int :=
  match b.bracket s t with
  | (none, none) => b.cal.left.get (512 * s + c)
  | (some i, none) => b.pointVal s i c
  | (none, some i) => b.pointVal s i c
  | (some i, some j) =>
    let pa := b.pointTemp i
    let ca := b.pointVal s i c
    ca + roundDiv ((b.pointVal s j c - ca) * (t - pa)) (b.pointTemp j - pa).toNat

/-- T in use. -/
def Block.calT (b : Block) (s : Nat) : Int := toSigned 16 (b.rd (CAL_TEMP_T s))

/-- Residual of a control. -/
def Block.resid (b : Block) (s c : Nat) : Int := b.cal.resid.get (512 * s + c)

/-- Set a residual. -/
def Block.setResid (b : Block) (s c : Nat) (v : Int) : Block :=
  { b with cal := { b.cal with resid := b.cal.resid.set (512 * s + c) v } }

/-- The target of a control. -/
def Block.target (b : Block) (s c : Nat) : Int :=
  let k := ctlOf s c
  clampInt k.lo k.hi (b.base s c (b.calT s) + b.resid s c)

/-- The value in force of every control jumps to its target (R348). -/
def Block.jump (b : Block) (s : Nat) : Block :=
  let vs := (ctlsOf s).map (fun c => (c, b.target s c))
  forEach vs b (fun b e => b.force s e.1 e.2)

end Sys2Proof.Machine
end

