-- ==== Sys2Proof/Machine/Pins.lean ====
section
/-! DEFINITION. Commands on the pins and the test of a clause (R286 to R296): classes, footprints, scopes, histories, and the
commands that the block issues outside a selection (R466, R518). -/

namespace Sys2Proof.Machine

open Reg

/-- The subchannels a command to `s` acts on: the pair of a lockstep channel. -/
def Block.pair (b : Block) (s : Nat) : List Nat :=
  if b.chLockstep (s / 2) then [s / 2 * 2, s / 2 * 2 + 1] else [s]

/-! ## Command classes (R286) -/

/-- ACT. -/
def cmACT : Nat := 0
/-- RD. -/
def cmRD : Nat := 1
/-- RDA. -/
def cmRDA : Nat := 2
/-- WR. -/
def cmWR : Nat := 3
/-- WRA. -/
def cmWRA : Nat := 4
/-- PREpb. -/
def cmPREpb : Nat := 5
/-- PREsb. -/
def cmPREsb : Nat := 6
/-- PREab. -/
def cmPREab : Nat := 7
/-- REFab. -/
def cmREFab : Nat := 8
/-- REFsb. -/
def cmREFsb : Nat := 9
/-- RFMab. -/
def cmRFMab : Nat := 10
/-- RFMsb. -/
def cmRFMsb : Nat := 11
/-- MRR. -/
def cmMRR : Nat := 13
/-- SRE. -/
def cmSRE : Nat := 15
/-- SRX. -/
def cmSRX : Nat := 16
/-- PDE. -/
def cmPDE : Nat := 17
/-- PDX. -/
def cmPDX : Nat := 18

/-- A command class lies in a class or group code of a clause (R286). -/
def classIn (code cls : Nat) : Bool :=
  match code with
  | 24 => cls == 1 || cls == 2 || cls == 13
  | 25 => cls == 3 || cls == 4
  | 26 => (decide (1 ≤ cls) && decide (cls ≤ 4)) || cls == 13
  | 27 => decide (5 ≤ cls) && decide (cls ≤ 7)
  | 28 => decide (8 ≤ cls) && decide (cls ≤ 11)
  | 29 => decide (cls ≤ 18)
  | c => c == cls

/-- A column command, which only phase 0 carries (R259). -/
def isColumn (cls : Nat) : Bool := (decide (1 ≤ cls) && decide (cls ≤ 4)) || cls == 13

/-- A command with its footprint (R287): bank group 8 and bank 4 stand for every one. -/
def mkCmd (cls rank bg bank : Nat) : HistCmd :=
  if cls ≤ 5 then ⟨cls, rank, bg, bank, 0⟩
  else if cls = 6 ∨ cls = 9 ∨ cls = 11 then ⟨cls, rank, 8, bank, 0⟩
  else ⟨cls, rank, 8, 4, 0⟩

/-- Footprints share a bank group. -/
def shareBg (e c : HistCmd) : Bool := e.bg == c.bg || e.bg == 8 || c.bg == 8

/-- Footprints share a bank. -/
def shareBank (e c : HistCmd) : Bool := shareBg e c && (e.bank == c.bank || e.bank == 4 || c.bank == 4)

/-- The scope of a clause holds for an earlier command of the same subchannel (R288); scope 6 is tested apart. -/
def scopeHolds (scope : Nat) (e c : HistCmd) : Bool :=
  match scope with
  | 0 => e.rank == c.rank && shareBank e c
  | 1 => e.rank == c.rank && shareBg e c
  | 2 => e.rank == c.rank && !shareBg e c
  | 3 => e.rank == c.rank
  | 4 => e.rank != c.rank
  | 5 => true
  | _ => false

/-- A clause (R289). -/
structure Clause where
  from_   : Nat
  to_     : Nat
  scope   : Nat
  spacing : Nat
  win     : Nat
  deriving DecidableEq, Repr

/-- The clause a 64-bit word encodes. -/
def clauseOf (w : Nat) : Clause :=
  { from_ := bitsOf w 4 0, to_ := bitsOf w 12 8, scope := bitsOf w 18 16,
    spacing := bitsOf w 29 20 * (if bitOf w 30 then 8 else 1), win := bitsOf w 35 32 }

/-- CLAUSE_COUNT of a set. -/
def clauseCount (text : List Byte) : Nat := min (leAt text 2 2) 128

/-- Word `i` of a set. -/
def clauseWord (text : List Byte) (i : Nat) : Nat := leAt text (0x40 + 8 * i) 8

/-- The clauses of a set, in order. -/
def clausesOf (text : List Byte) : List Clause :=
  (List.range (clauseCount text)).map (fun i => clauseOf (clauseWord text i))

/-- An earlier command meets the position and class conditions of R290. -/
def Clause.near (k : Clause) (e c : HistCmd) : Bool :=
  classIn k.from_ e.cls && classIn k.to_ c.cls && decide (e.pos ≤ c.pos) && decide (c.pos - e.pos < k.spacing)

/-- A clause forbids command `c`, given the subchannel's history and the sibling's (R290, R291). -/
def Clause.forbids (k : Clause) (own sib : List HistCmd) (c : HistCmd) : Bool :=
  let hits :=
    if k.scope = 6 then sib.filter (fun e => k.near e c)
    else own.filter (fun e => k.near e c && scopeHolds k.scope e c)
  decide ((if k.win < 2 then 1 else k.win) ≤ hits.length)

/-- The index of the first clause of a set that forbids a command (R292). -/
def forbiddenBy (cls : List Clause) (own sib : List HistCmd) (c : HistCmd) : Option Nat :=
  (List.range cls.length).find? (fun i =>
    match cls[i]? with
    | some k => k.forbids own sib c
    | none => false)

/-- The text of the active set. -/
def Block.activeSet (b : Block) (s : Nat) : List Byte := (b.subs.get s).slots.get (b.rd (CLS_STATUS_ACTIVE_SLOT s))

/-- The sibling of a subchannel. -/
def sibling (s : Nat) : Nat := s / 2 * 2 + (1 - s % 2)

/-- What counts of the sibling's commands in slot `k` of subchannel `s` (R293): commands before the slot, and for B also
those that A chose in the slot. In a lockstep channel scope 6 never holds. -/
def Block.sibFrom (b : Block) (s k : Nat) (h : List HistCmd) : List HistCmd :=
  if b.chLockstep (s / 2) then [] else h.filter (fun e => decide (e.pos < 8 * k + (if s % 2 = 1 then 8 else 0)))

/-- The sibling's history as the scheduler sees it. -/
def Block.sibHist (b : Block) (s k : Nat) : List HistCmd := b.sibFrom s k (b.subs.get (sibling s)).hist

/-- The sibling's commands as its checker has received them (R304). -/
def Block.sibChecked (b : Block) (s k : Nat) : List HistCmd :=
  b.sibFrom s k ((b.subs.get (sibling s)).chkHist ++ (b.subs.get (sibling s)).toCheck)

/-- The index of the first clause that forbids command `c` of subchannel `s` with `own` as its history and `sib` as its
sibling's: by R292, or because B yields to what A chose later in the same slot (R293). -/
def clauseAgainst (cls : List Clause) (s : Nat) (own sib : List HistCmd) (c : HistCmd) : Option Nat :=
  match forbiddenBy cls own sib c with
  | some i => some i
  | none =>
    if s % 2 = 0 then none
    else (List.range cls.length).find? (fun i =>
      match cls[i]? with
      | some q => q.scope == 6 && sib.any (fun a =>
          decide (c.pos < a.pos) && q.near c a && q.forbids [] (own ++ [c]) a)
      | none => false)

/-- The clauses allow command `c` of subchannel `s` in slot `k` with `own` as its history (R292, R293). -/
def Block.clausesAllow (b : Block) (cls : List Clause) (s k : Nat) (own : List HistCmd) (c : HistCmd) : Bool :=
  (clauseAgainst cls s own (b.sibHist s k) c).isNone

/-! ## Commands outside a selection (R466, R518) -/

/-- The first slot from `k` on, of the next `fuel`, in which the clauses allow a command. -/
def Block.waitSlot (b : Block) (s : Nat) (c : HistCmd) : Nat → Nat → Nat
  | 0, k => k
  | fuel + 1, k =>
    if b.clausesAllow (clausesOf (b.activeSet s)) s k (b.subs.get s).hist { c with pos := 8 * k } then k
    else b.waitSlot s c fuel (k + 1)

/-- Longest wait that a clause can ask for, in slots: 1,023 times 8 nCK. -/
def clauseReach : Nat := 1024

/-- A command that the block issues outside a selection: in the first slot in which the clauses allow it, through the
history and the checkers of the pair as every command (R13, R304). -/
def Block.putPins (b : Block) (s : Nat) (c : HistCmd) : Block :=
  let k := b.waitSlot s c clauseReach (b.subs.get s).slot
  let h := { c with pos := 8 * k }
  let b := b.updSub s (fun u => { u with
    hist := u.hist.filter (fun e => decide (8 * k + 8 ≤ e.pos + 8184 + 8)) ++ [h], slot := k + 1
    pd := if c.cls = cmPDE then u.pd ++ [c.rank] else if c.cls = cmPDX then u.pd.filter (fun r => r != c.rank) else u.pd })
  forEach (b.pair s) b (fun b t => b.updSub t (fun u => { u with toCheck := u.toCheck ++ [h] }))

/-- PREab and SRE to every rank of a subchannel that is not in self-refresh, after PDX where it is in power-down (R518);
the scheduler of a lockstep pair's A issues them on both. -/
def Block.putSleep (b : Block) (s : Nat) : Block :=
  if b.chLockstep (s / 2) && s % 2 == 1 then b
  else
    let u := b.subs.get s
    let ranks := (List.range (b.subRanks s)).filter (fun r => !u.selfRef.contains r)
    let cmds (r : Nat) : List Nat := (if u.pd.contains r then [cmPDX] else []) ++ [cmPREab, cmSRE]
    forEach ranks b (fun b r => forEach (cmds r) b (fun b cls => b.putPins s (mkCmd cls r 8 4)))

end Sys2Proof.Machine
end

