-- ==== Sys2Proof/Machine/Fence.lean ====
section
/-! DEFINITION. Fences (R515 to R520) and the fault event with its severity-3 fence; and how a fence ends the work of a
subchannel: its sentence, training, loopback and repair. -/

namespace Sys2Proof.Machine

open Reg

/-- The plain event of a subchannel (location form, no place). -/
def subEvent (code kind s : Nat) : Event :=
  { code := code, kind := kind, form := 1, addr := locAddr 1 s 0x1F, unit_ := .sub s, sev := none }

/-! ## Kinds of fences -/

/-- Kinds of fenced units, as KIND 2 audit records code them (R527). -/
inductive FenceKind
  | sub | slice | port
  deriving DecidableEq, Repr

/-- The code of a fence kind in a KIND 2 record. -/
def FenceKind.code : FenceKind → Nat
  | .sub => 0
  | .slice => 1
  | .port => 2

/-- The fence register of a kind. -/
def FenceKind.reg : FenceKind → Fld
  | .sub => FLT_FENCE_SUB_U
  | .slice => FLT_FENCE_SLICE_U
  | .port => FLT_FENCE_PORT_U

/-- The input-level register of a kind. -/
def FenceKind.inputs : FenceKind → Fld
  | .sub => FLT_FENCE_IN_SUB_U
  | .slice => FLT_FENCE_IN_SLICE_U
  | .port => FLT_FENCE_IN_PORT_U

/-- How many units of a kind there are. -/
def FenceKind.count : FenceKind → Nat
  | .sub => 32
  | .slice => 16
  | .port => 6

/-- The latch of a fence bit's audit record (R530). -/
def FenceKind.latch : FenceKind → Nat → Nat
  | .sub, i => 33 + i
  | .slice, i => 65 + i
  | .port, i => 81 + i

/-- Causes of KIND 2 records: a FENCE input. -/
def causeInput : Nat := 0
/-- A register write. -/
def causeRegister : Nat := 1
/-- A severity-3 event. -/
def causeSeverity : Nat := 2
/-- A block action. -/
def causeAction : Nat := 3

/-- The KIND 2 record of a fence bit's change (R527). Records of register writes enter the queue, where the write has
waited for room; the others pass through their latch (R530). -/
def Block.audFence (b : Block) (k : FenceKind) (i cause role : Nat) (new : Bool) : Block :=
  let r : AudRec := { time := b.now, kind := 2, role := if cause = causeRegister then role else 0, outcome := 0,
                      offset := k.code ||| (i <<< 8) ||| (cause <<< 16),
                      old := if new then 0 else 1, new := if new then 1 else 0 }
  b.audOwn (k.latch i) r

/-! ## Ending work (R317, R337, R342, R395) -/

/-- End the running sentence of a subchannel with an outcome (R317, R318); `ev` raises its event. -/
def Block.endSentenceWith (ev : Block → Event → Block) (b : Block) (s outcome : Nat) : Block :=
  match (b.subs.get s).snt with
  | none => b
  | some run =>
    let b := b.updSub s (fun u => { u with
      snt := none
      preFirst := u.preFirst ++ run.touched.filter (fun r => !u.preFirst.contains r)
      banks := u.banks.map (fun e =>
        if run.touched.contains (e.1 / 32) then (e.1, { e.2 with row := none, due := false }) else e) })
    let b := (b.wr (SNT_RUN_BUSY s) 0).wr (SNT_RUN_STEP s) run.step
    let b := b.wrB (SNT_RUN_HELD_SR s) (!(b.subs.get s).selfRef.isEmpty)
    let b :=
      if run.req.why = .software then
        let b := (b.wr (SNT_CALL_STATUS_BUSY s) 0).wr (SNT_CALL_STATUS_OUTCOME s) outcome
        let b := (b.wr (SNT_CALL_STATUS_STEP s) run.step).wr (SNT_CALL_RESULT_RESULT s) run.results
        b.intr 13 (b.on (SNT_CALL_STATUS_INT_DONE s))
      else b
    if outcome = 0 then b
    else ev (b.bump (SNT_ABORT_CNT_CNT s)) (subEvent 49 outcome s)

/-- KPR_TRAIN and KPR_STATUS.TRAIN_IDLE follow the trainings (R334, R585). -/
def Block.trainCounts (b : Block) : Block :=
  let waiting := b.phy.trainQ.foldl (fun n q => n + q.subs.length) 0
  let running := (b.phy.train.filter (fun e => e.2.isSome)).length
  let was := b.rd KPR_TRAIN_WAITING + b.rd KPR_TRAIN_RUNNING
  let b := (b.wr KPR_TRAIN_WAITING waiting).wr KPR_TRAIN_RUNNING running
  if was ≠ 0 ∧ waiting + running = 0 then (b.wr KPR_STATUS_TRAIN_IDLE 1).intr 21 (b.on KPR_CTL_INT_IDLE) else b

/-- The CK pairs of channel `n` stop once each subchannel has stopped them, is fenced, or the channel is OFF (R340);
tracking is frozen while they are stopped (R371). -/
def Block.ckSettle (b : Block) (n : Nat) : Block :=
  let off := b.rd (PWR_CH_STATUS_STATE n) == pwOFF
  let down (s : Nat) : Bool := (b.subs.get s).ckStop || b.subFenced s || off
  if down (2 * n) && down (2 * n + 1) then
    forEach [2 * n, 2 * n + 1] b (fun b s => (b.wr (PHY_STATUS_CK_RUNNING s) 0).wr (PHY_STATUS_TRACK_FROZEN s) 1)
  else b

/-- The trackers of every lane of a subchannel restart (R355): no outcome recorded, offsets −16 and +16, +8 and −8. -/
def Block.trackRestart (b : Block) (s : Nat) : Block :=
  let b := { b with cal := { b.cal with lanes := b.cal.lanes.filter (fun e => e.1 / 64 != s) } }
  forEach (List.range 40) b (fun b l =>
    let fresh : LaneCal := { (default : LaneCal) with txL := -16, txR := 16 }
    let b := { b with cal := { b.cal with lanes := b.cal.lanes.set (64 * s + l) fresh } }
    let b := (b.wr (CAL_EDGE_LEFT s l) 0xF0).wr (CAL_EDGE_RIGHT s l) 16
    ((b.wr (CAL_EDGE_UP s l) 8).wr (CAL_EDGE_DOWN s l) 0x38).wr (CAL_EDGE_CONV s l) 0)

/-- Tracking runs again, with fresh trackers, on a subchannel whose CK runs, that is not fenced and that no training
holds (R371). -/
def Block.trackFree (b : Block) (s : Nat) : Block :=
  if b.on (PHY_STATUS_CK_RUNNING s) && !b.subFenced s && (b.phy.train.get s).isNone then
    (b.wr (PHY_STATUS_TRACK_FROZEN s) 0).trackRestart s
  else b

/-- Tracking resumes: the value in force jumps to the target, and the trackers restart (R340, R371). -/
def Block.trackJump (b : Block) (s : Nat) : Block :=
  if b.on (PHY_STATUS_CK_RUNNING s) && !b.subFenced s && (b.phy.train.get s).isNone then
    ((b.jump s).wr (PHY_STATUS_TRACK_FROZEN s) 0).trackRestart s
  else b

/-- A channel fails in the start in progress (R72, R499): its cause and detail. -/
def Block.chFailed (b : Block) (n cause detail : Nat) : Block :=
  let b := b.setBitOf HBR_CH_STATUS_FAILED n
  let st := b.start
  let clear (m : Nat) : Nat := if bitOf m n then m - 2 ^ n else m
  { b with start := { st with
      cause := if st.cause.get n = 0 then st.cause.set n (cause + 16 * detail) else st.cause
      pllWait := clear st.pllWait, initWait := clear st.initWait, trainWait := clear st.trainWait } }

/-- A replacement command ends in FAILED (R418, R422). -/
def Block.rplFail (ev : Block → Event → Block) (b : Block) (n code : Nat) : Block :=
  let b := (b.wr (MOD_RPL_STATUS_STATE n) 5).wr (MOD_RPL_STATUS_CODE n) code
  let b := { b with mod := { b.mod with phase := b.mod.phase.set n 0 } }
  let b := (b.wr MOD_STATUS_RPL_END 1).intr 26 (b.bit MOD_CTL_INT_EN 2)
  ev b { code := 67, kind := 0, form := 1, addr := locAddr 4 (2 * n) 0, unit_ := .channel n, sev := none }

/-- The VrefDQ codes that a training found are in force on every rank (R331). -/
def Block.trainVref (b : Block) (s : Nat) (found : List (Nat × Nat)) : Block :=
  let ranks := b.subRanks s
  { b with phy := { b.phy with
    vrefDq := forEach found b.phy.vrefDq (fun t v =>
      forEach (List.range ranks) t (fun t r => t.set (128 * s + 10 * r + v.1) v.2)) } }

/-- The running training of subchannel `s` stops (R331): the values of the steps that passed stay in force. -/
def Block.trainStop (b : Block) (s lane : Nat) : Block :=
  match b.phy.train.get s with
  | none => b
  | some run =>
    let b := (forEach run.found b (fun b e => b.wr e.1 e.2)).trainVref s run.vref
    let b := { b with phy := { b.phy with train := b.phy.train.set s none } }
    let b := b.updSub s (fun u => { u with sntQ := u.sntQ.filter (fun r => r.why != .train) })
    let b := (b.wr (PHY_TRAIN_STATUS_LANE s) lane).wr (PHY_TRAIN_TIME_US s) ((b.now - run.start) / 1000)
    b.trackFree s

/-- The training of subchannel `s` is marked failed (R339): STATE, CODE and interrupt; at start its channel has failed. In a
lockstep pair one that had passed fails with its partner. -/
def Block.trainMark (b : Block) (s code : Nat) (why : TrainWhy) : Block :=
  let b := ((b.wr (PHY_TRAIN_STATUS_STATE s) 4).wr (PHY_TRAIN_STATUS_CODE s) code).trainCounts
  let b := b.intr 14 (b.bit (PHY_CTL_INT_EN s) 0 || b.bit (PHY_CTL_INT_EN s) 1)
  if why = .start then b.chFailed (s / 2) 6 code else b

/-- Who asked for the training of subchannel `s`, be it running or waiting. -/
def Block.trainWhy (b : Block) (s : Nat) : Option TrainWhy :=
  match (b.pair s).findSome? b.phy.train.get with
  | some run => some run.why
  | none => (b.phy.trainQ.find? (fun q => q.subs.contains s)).map (fun q => q.why)

/-- A training of subchannel `s` fails with a code and a lane (R331, R339): both subchannels of a lockstep pair, waiting or
running. A replacement fails with it (R420). -/
def Block.trainFail (ev : Block → Event → Block) (b : Block) (s code lane : Nat) : Block :=
  match b.trainWhy s with
  | none => b
  | some why =>
    let ran := (b.pair s).any (fun t => (b.phy.train.get t).isSome)
    let b := { b with phy := { b.phy with trainQ := b.phy.trainQ.filter (fun q => !q.subs.contains s) } }
    let b := forEach (b.pair s) b (fun b t =>
      let b := (b.trainStop t lane).trainMark t code why
      if ran then b.wr (PHY_STATUS_TRAINED t) 0 else b)
    let b := forEach (b.pair s) b (fun b t => ev b (subEvent 52 0 t))
    if why = .attach && b.rd (MOD_RPL_STATUS_STATE (s / 2)) = 3 then b.rplFail ev (s / 2) 8 else b

/-- A loopback ends with a code (R342, R343). The errors that one counted up to an abort are free. -/
def Block.loopEnd (b : Block) (s code : Nat) : Block :=
  if b.on (PHY_LOOP_STATUS_BUSY s) then
    let b := if code = 2 then
        let (i, b) := b.draw
        let (j, b) := b.draw
        let (k, b) := b.draw
        ((b.addSat (PHY_LOOP_ERR_CNT_CNT s) (Config.loopSeen i)).wr (PHY_LOOP_LANES_LO_DQ s) (Config.loopSeen j % 2 ^ 32)).wr
          (PHY_LOOP_LANES_HI_DQ s) (Config.loopSeen k % 2 ^ 8)
      else b
    let b := (b.wr (PHY_LOOP_STATUS_BUSY s) 0).wr (PHY_LOOP_STATUS_CODE s) code
    b.intr 14 (b.bit (PHY_CTL_INT_EN s) 2 || (code == 3 && b.bit (PHY_CTL_INT_EN s) 3))
  else b

/-- Change a log entry of a subchannel. -/
def Block.updLog (b : Block) (s i : Nat) (f : LogEnt → LogEnt) : Block :=
  { b with ecc := { b.ecc with log := b.ecc.log.upd (32 * s + i) f } }

/-- A repair ends (R395): `code` of ECC_REPAIR_CODE, the rank's hold time, and for a hard repair the spare rows read
again. -/
def Block.repairEnd (ev : Block → Event → Block) (b : Block) (s code timeUs : Nat) (spare : Option Nat) : Block :=
  match b.ecc.repair.get s with
  | none => b
  | some run =>
    let e := b.ecc.log.get (32 * s + run.entry)
    let m := b.slotOf s e.rank
    let b := { b with ecc := { b.ecc with repair := b.ecc.repair.set s none } }
    let b := (b.wr (ECC_REPAIR_STATUS_BUSY s) 0).wr (ECC_REPAIR_STATUS_TIME_US s) timeUs
    let b := b.wr (ECC_REPAIR_CODE_CODE s) code
    let after := if code = 0 then (if run.hard then 4 else 3) else 5
    let b := b.updLog s run.entry (fun e =>
      if code = 0 then { e with repair := after, persistent := false, wbSeen := false, count := 0 }
      else { e with repair := after })
    let b :=
      if code = 0 then
        let b := b.wr (ECC_STATUS_REPAIR_DONE s) 1
        let b := match run.hard, spare with
          | true, some r => b.wr (ECC_REPAIR_RES_RES s) r
          | _, _ => b
        if run.hard then
          let b := b.updLedger m (fun l => { l with
            hardUsed := sat32 (l.hardUsed + 1)
            res := (List.range 16).map (fun g =>
              if g / 8 = s % 2 then bitsOf (b.rd (ECC_REPAIR_RES_RES s)) (4 * (g % 8) + 3) (4 * (g % 8))
              else l.res.getD g 0) })
          (b.judge m).storeLedger m
        else
          let b := { b with ecc := { b.ecc with soft := b.ecc.soft.upd (8 * s + e.bg) (fun d => d ||| e.devices) } }
          b.feed m (fun l => { l with soft := min (l.soft + 1) 255 })
      else b.wr (ECC_STATUS_REPAIR_FAILED s) 1
    let b := b.intr 16 (b.on ECC_CTL_INT_REPAIR)
    let b := b.audOwn (1 + s)
      { time := b.now, kind := 3, role := run.role, outcome := if code = 0 then 0 else 6,
        offset := s + (if run.hard then 0x100 else 0) + run.entry * 0x10000, old := run.before,
        new := code + 16 * after }
    if code = 0 then b
    else ev b { code := 59, kind := if e.injected then 0x80 else 0, form := 1,
                addr := locAddr 1 s (subDetail e.rank e.bg e.bank e.row e.col 0x1F), unit_ := .sub s, sev := none }

/-! ## Reads that wait (R518) -/

/-- A line being evicted or dropped is freed once its write-backs are accepted and no fill is in flight (R231, R247). -/
def Block.freeLine (b : Block) (k : Nat) : Block :=
  b.updLine k (fun l =>
    if l.going && l.wbLeft == 0 && !(l.st.any (fun e => e.2 == .f)) then { (default : Line) with age := l.age } else l)

/-- A write of slice `c` has left it: accepted by a write queue, or discarded (R123, R222, R231, R518). `w` is no longer in
the slice's list; the other side of a mirror may still be. -/
def Block.wbResolve (b : Block) (c : Nat) (w : WriteBack) (accepted : Bool) : Block :=
  let code := if accepted then 1 else 2
  let same (x : Miss) : Bool := (x.merge.map (fun v => v.id)) == some w.id
  let tell (x : Miss) : Miss := if same x then { x with merge := x.merge.map (fun v => { v with sib := code }) } else x
  let q := b.slices.get c
  let waiting := q.wb.any (fun v => v.id == w.id) || q.miss.any same || b.ecc.mirrors.any (fun m => same m.miss)
  let b := b.updSlice c (fun q => { q with
    wb := updFirst (fun v => v.id == w.id) (fun v => { v with sib := code }) q.wb, miss := q.miss.map tell })
  let b := { b with ecc := { b.ecc with mirrors := b.ecc.mirrors.map (fun m => { m with miss := tell m.miss }) } }
  let b := match w.way with
    | some k => (b.updLine k (fun l => { l with wbLeft := l.wbLeft - 1 })).freeLine k
    | none => b
  let b := if !accepted && w.req.isNone then b.bump FLT_WR_LOST_CNT_CNT else b
  let b :=
    if w.side = 0 then b
    else if accepted && w.sib == 2 then b.descUpd (staleUpd w.idx (w.side - 1))
    else if !accepted && w.sib == 1 then b.descUpd (staleUpd w.idx (2 - w.side))
    else b
  if waiting then b
  else match w.req with
    | some r => b.respond r w.sec (if accepted || w.sib == 1 then (if w.late = 0 then stOK else w.late) else stFenced) 0
    | none => b

/-- The slice read `m` of slice `c`, with the reads that ride on it, is answered with a status and dropped; its sector
returns to I, and a write that waits for it is discarded. -/
def Block.dropMiss (b : Block) (c m status : Nat) : Block :=
  let mine (x : Miss) : Bool := x.id == m || x.joined == some m
  forEach ((b.slices.get c).miss.filter mine) b (fun b x =>
    let b := b.updSlice c (fun q => { q with miss := q.miss.filter (fun y => y.id != x.id) })
    let b := match x.way with
      | some k => (b.updLine k (fun l => if l.st.get x.sec = .f then { l with st := l.st.set x.sec .i } else l)).freeLine k
      | none => b
    let b := match x.merge with
      | some w => b.wbResolve c w false
      | none => b
    forEach x.waiters b (fun b w => b.respond w.req w.sec status 0))

/-- A channel counts as fenced or OFF for R122, R518 and R519. -/
def Block.chDown (b : Block) (n : Nat) : Bool :=
  b.subFenced (2 * n) || b.subFenced (2 * n + 1) || b.sliceFenced n || b.rd (PWR_CH_STATUS_STATE n) == pwOFF

/-- VALID, STALE and BIN of slot `j` in CLS_SLOT. -/
def clsSlotFlds (s j : Nat) : Fld × Fld × Fld :=
  match j with
  | 0 => (CLS_SLOT_VALID0 s, CLS_SLOT_STALE0 s, CLS_SLOT_BIN0 s)
  | 1 => (CLS_SLOT_VALID1 s, CLS_SLOT_STALE1 s, CLS_SLOT_BIN1 s)
  | 2 => (CLS_SLOT_VALID2 s, CLS_SLOT_STALE2 s, CLS_SLOT_BIN2 s)
  | _ => (CLS_SLOT_VALID3 s, CLS_SLOT_STALE3 s, CLS_SLOT_BIN3 s)

/-- Copy the store's set of the active bin into the active slot and the shadow (R306 step 3, R518); false when the
store copy fails its CRC. -/
def Block.reloadClauses (b : Block) (s : Nat) : Block × Bool :=
  let bin := b.rd (CLS_STATUS_ACTIVE_BIN s)
  let slot := b.rd (CLS_STATUS_ACTIVE_SLOT s)
  let text := b.sec tyClauses bin
  if text.isEmpty || !b.storeOk bin then (b, false)
  else
    ((b.updSub s (fun u => { u with slots := u.slots.set slot text, shadow := text })).wr (clsSlotFlds s slot).2.1 0, true)

/-- Sectors of one queue entry: a lockstep entry is one codeword of two (R102, R255). -/
def Block.entrySectors (b : Block) (s : Nat) : Nat := if b.chLockstep (s / 2) then 2 else 1

/-- A fence or a power-off ends what runs on a subchannel: its sentence, its training, its loopback and its repair
(R317, R337, R342, R395). -/
def Block.subStops (ev : Block → Event → Block) (b : Block) (s : Nat) : Block :=
  (((b.endSentenceWith ev s 3).trainFail ev s 6 0xFF).loopEnd s 2).repairEnd ev s 5 0 none

/-! ## The fence (R515 to R520) -/

/-- What a subchannel fence does (R518). -/
def Block.fenceSubEffect (b : Block) (s : Nat) : Block :=
  let u := b.subs.get s
  let halted := b.on (CLS_STATUS_HALTED s)
  let b := b.updSub s (fun u => { u with rq := [], again := [], wq := [], sntQ := [] })
  let b := forEach (u.again ++ u.rq) b (fun b e => b.dropMiss e.slice e.miss stFenced)
  let b := b.addSat FLT_WR_LOST_CNT_CNT (u.wq.length * b.entrySectors s)
  let b := b.subStops Block.event0 s
  let b := if u.sntQ.any (fun r => r.why = .software) then
      ((b.wr (SNT_CALL_STATUS_BUSY s) 0).wr (SNT_CALL_STATUS_OUTCOME s) 6).intr 13 (b.on (SNT_CALL_STATUS_INT_DONE s))
    else b
  let (b, ok) := if halted then b.reloadClauses s else (b, true)
  let b := b.wr (CLS_STATUS_HALTED s) 0
  let b := b.updSub s (fun u => { u with
    reload := false, stay := false, dead := false, noSet := !ok, ticking := false, debt := [], initing := false
    classify := 0, abo := [], aboOn := false, aboLate := false })
  let b := b.wr (PHY_STATUS_TRACK_FROZEN s) 1
  let b :=
    if ok && b.on (PHY_STATUS_TRAINED s) && b.on (PHY_STATUS_LOCKED s) then
      (b.putSleep s).updSub s (fun u => { u with
        banks := u.banks.map (fun e => (e.1, { e.2 with row := none, due := false }))
        selfRef := List.range (b.subRanks s), ckStop := true, pd := [] })
    else b
  b.ckSettle (s / 2)

/-- Set a fence bit and let it act. A bit already set is unchanged. -/
def Block.fenceOne (b : Block) (k : FenceKind) (i cause role : Nat) : Block :=
  if b.bit k.reg i then b
  else
    let b := (b.setBitOf k.reg i).audFence k i cause role true
    match k with
    | .sub => b.fenceSubEffect i
    | .slice =>
      -- requests waiting at the slice are answered FENCED (R519)
      let reqs := (b.slices.get i).q
      let b := b.updSlice i (fun q => { q with q := [] })
      forEach reqs b (fun b e => forEach e.2 b (fun b r => b.respondAll r stFenced))
    | .port => b

/-- Fence a unit; in a lockstep channel the fence of either subchannel fences both (R516). A replacement that fails with it
fences the other subchannel too where MOD_RPL_FAIL has severity 3 (R515). -/
def Block.fence (b : Block) (k : FenceKind) (i cause role : Nat) : Block :=
  let j := i / 2 * 2 + (1 - i % 2)
  let was := b.rd (MOD_RPL_STATUS_STATE (i / 2))
  let b := b.fenceOne k i cause role
  if k = .sub && b.chLockstep (i / 2) then b.fenceOne .sub j cause role
  else if k = .sub && was == 3 && b.rd (MOD_RPL_STATUS_STATE (i / 2)) == 5 && b.rd (FLT_SEV_SEV 67) == 3 then
    b.fenceOne .sub j causeSeverity 0
  else b

/-- Fence both subchannels of a channel by block action. -/
def Block.fenceChannel (b : Block) (n : Nat) : Block :=
  (b.fence .sub (2 * n) causeAction 0).fence .sub (2 * n + 1) causeAction 0

/-- The fence that an event of severity 3 sets (R515). -/
def Block.sevFence (b : Block) (e : Event) : Block :=
  if b.sevOf e = 3 then
    match e.unit_ with
    | .none => b
    | .sub s => b.fence .sub s causeSeverity 0
    | .slice c => b.fence .slice c causeSeverity 0
    | .port p => b.fence .port p causeSeverity 0
    | .channel n => (b.fence .sub (2 * n) causeSeverity 0).fence .sub (2 * n + 1) causeSeverity 0
    | .requester r => if r < 6 then b.fence .port r causeSeverity 0 else b
  else b

/-- A fault event with the fence of severity 3 (R510, R515). -/
def Block.event (b : Block) (e : Event) : Block := (b.event0 e).sevFence e

/-- An event without a unit, in location form. -/
def Block.eventPlain (b : Block) (code kind addr : Nat) : Block :=
  b.event { code := code, kind := kind, form := 1, addr := addr, unit_ := .none, sev := none }

/-- An uncorrectable error in a queue or buffer of the block: an event of source ECC_QUEUE_UE (R377). -/
def Block.queueUe (b : Block) : Block := b.eventPlain 56 0 0

end Sys2Proof.Machine
end

