-- ==== Sys2Proof/Machine/Clauses.lean ====
section
/-! DEFINITION. Sets of timing clauses: the fallback set of R588, the header fields, and switches (R297 to R302). -/

namespace Sys2Proof.Machine

open Reg

/-! ## The fallback set (R588) -/

/-- The clauses of R588: FROM, TO, SCOPE, spacing, WIN. -/
def fallbackClauses : List (Nat × Nat × Nat × Nat × Nat) :=
  [ (0, 26, 0, 32, 0), (27, 0, 0, 32, 0), (0, 27, 0, 56, 0), (0, 0, 0, 88, 0), (0, 0, 1, 8, 0), (0, 0, 2, 8, 0),
    (0, 0, 3, 40, 4), (24, 24, 1, 16, 0), (24, 24, 4, 12, 0), (25, 25, 1, 32, 0), (25, 25, 4, 12, 0),
    (25, 24, 1, 50, 0), (25, 24, 3, 38, 0), (25, 24, 4, 16, 0), (24, 25, 5, 16, 0), (1, 27, 0, 12, 0),
    (3, 27, 0, 82, 0), (2, 0, 0, 44, 0), (4, 0, 0, 114, 0), (8, 0, 3, 960, 0) ] ++
  [ (8, 28, 3, 960, 0), (9, 0, 0, 480, 0), (9, 9, 3, 48, 0), (10, 0, 3, 960, 0), (11, 0, 0, 480, 0),
    (12, 29, 3, 24, 0), (13, 29, 3, 16, 0), (14, 29, 3, 24, 0), (27, 15, 3, 32, 0), (15, 16, 3, 24, 0),
    (16, 29, 3, 976, 0), (17, 18, 3, 12, 0), (18, 29, 3, 12, 0), (8, 8, 6, 80, 0) ]

/-- The word of a clause (R289), UNIT 0. -/
def clauseWordOf (c : Nat × Nat × Nat × Nat × Nat) : Nat :=
  c.1 + c.2.1 * 2 ^ 8 + c.2.2.1 * 2 ^ 16 + c.2.2.2.1 * 2 ^ 20 + c.2.2.2.2 * 2 ^ 32

/-- The fallback set in the form of a CLAUSES section (R588). -/
def fallbackSet : List Byte :=
  leBytes 2 3200 ++ leBytes 2 34 ++ leBytes 2 6240 ++ leBytes 1 2 ++ leBytes 1 0 ++ leBytes 2 972 ++ leBytes 2 288
    ++ leBytes 2 500 ++ leBytes 2 28 ++ leBytes 2 26 ++ leBytes 1 0 ++ leBytes 1 1 ++ leBytes 1 2 ++ leBytes 1 0xFF
    ++ List.replicate 42 0 ++ (fallbackClauses.map (fun c => leBytes 8 (clauseWordOf c))).flatten

/-! ## Header fields of a set (R297) -/

/-- DATA_RATE. -/
def setRate (text : List Byte) : Nat := leAt text 0x00 2
/-- SNT_INIT, SNT_SRE and SNT_SRX. -/
def setInit (text : List Byte) : Nat := leAt text 0x12 1
/-- SNT_SRE. -/
def setSre (text : List Byte) : Nat := leAt text 0x13 1
/-- SNT_SRX. -/
def setSrx (text : List Byte) : Nat := leAt text 0x14 1

/-! ## Switching (R298 to R302) -/

/-- The slot a switch to `bin` uses (R301): one that holds a current copy, otherwise the least recently active that is
not the active one. -/
def Block.switchSlot (b : Block) (s bin : Nat) : Nat × Bool :=
  match (List.range 4).find? (fun j =>
      let f := clsSlotFlds s j
      b.on f.1 && !b.on f.2.1 && b.rd f.2.2 == bin) with
  | some j => (j, true)
  | none =>
    let u := b.subs.get s
    let act := b.rd (CLS_STATUS_ACTIVE_SLOT s)
    let others := (List.range 4).filter (fun j => j != act || !b.on (clsSlotFlds s act).1)
    (others.foldl (fun m j => if u.recent.get j < u.recent.get m then j else m) (others.headD 0), false)

/-- Make a bin active on one subchannel: slot, shadow, header parameters, history (R301). -/
def Block.activate (b : Block) (s bin : Nat) : Block :=
  let text := b.sec tyClauses bin
  let (j, current) := b.switchSlot s bin
  let f := clsSlotFlds s j
  let top := (b.subs.get s).recent.foldl (fun m e => max m e.2) 0
  let b := b.updSub s (fun u => { u with
    slots := if current then u.slots else u.slots.set j text
    shadow := text, recent := u.recent.set j (top + 1), hist := [], chkHist := [], toCheck := [], cmp := 0
    switchTo := none })
  let b := ((b.wr f.1 1).wr f.2.1 0).wr f.2.2 bin
  let b := (b.wr (CLS_STATUS_ACTIVE_SLOT s) j).wr (CLS_STATUS_ACTIVE_BIN s) bin
  let b := (b.wr (CLS_STATUS_SWITCHING s) 0).wr (CLS_STATUS_SWITCH_CODE s) 0
  let b := (b.wr (SCH_REF_PARAM_TREFI_NCK s) (leAt text 4 2)).wr (SCH_REF_PARAM_P s) (leAt text 6 1)
  let b := (b.wr (SCH_REF_PARAM_Q s) (leAt text 7 1)).wr (SCH_ABO_ACT_NCK s) (leAt text 0x0A 2)
  let b := (b.wr (CLS_BIN_DATA_RATE s) (leAt text 0 2)).wr (CLS_BIN_DELIV_PM s) (leAt text 0x0C 2)
  (b.wr (CLS_LAT_RL s) (leAt text 0x0E 2)).wr (CLS_LAT_WL s) (leAt text 0x10 2)

/-- The first check of a switch that fails (R300). -/
def Block.switchCode (b : Block) (s bin : Nat) : Nat :=
  let text := b.sec tyClauses bin
  if text.isEmpty then 1
  else if !b.storeOk bin then 2
  else if setRate text ≠ b.rd (PHY_STATUS_RATE s) then 3
  else if b.chLockstep (s / 2) && s % 2 == 1 then 4
  else 0

/-- A switch that has passed its checks begins, on both subchannels of a lockstep pair (R301). -/
def Block.switchBegin (b : Block) (s bin : Nat) : Block :=
  forEach (b.pair s) b (fun b t =>
    (b.updSub t (fun u => { u with switchTo := some bin })).wr (CLS_STATUS_SWITCHING t) 1)

/-- CLS_CTL.GO (R300): the checks, then the switch begins. -/
def Block.switchGo (b : Block) (s : Nat) : Block :=
  let bin := b.rd (CLS_CTL_BIN s)
  -- the fallback set of harbour mode is no instance of an image (R588)
  let code := if b.harbour then 1 else b.switchCode s bin
  if code ≠ 0 then b.wr (CLS_STATUS_SWITCH_CODE s) code else b.switchBegin s bin

/-- Memory of a subchannel whose STORE_ERR halt outlasted its refresh debt is lost: queued reads answer UE and every rank
is initialised again (R309). `p` is the postponement limit of the set that halted. -/
def Block.haltLost (b : Block) (s p : Nat) : Block :=
  let u := b.subs.get s
  let limit : Int := p * (if b.on (SCH_REF_MODE s) then 4 else 1)
  if u.noSet && u.debt.any (fun e => decide (limit < e.2)) then
    let b := forEach (u.inflight ++ u.again ++ u.rq) b (fun b e => b.dropMiss e.slice e.miss stUE)
    b.updSub s (fun u => { u with rq := [], again := [], inflight := [], initing := true, noSet := false, debt := [] })
  else b.updSub s (fun u => { u with noSet := false })

end Sys2Proof.Machine
end

