-- ==== Sys2Proof/Machine/Sentences.lean ====
section
/-! DEFINITION. Waking a channel (R473, R475), the lights a subchannel is under (R54, R57, R58), and sentences: requests,
starts, steps and ends (R310 to R319), with the PHY actions of R340. -/

namespace Sys2Proof.Machine

open Reg

/-! ## Waking a channel (R473, R475) -/

/-- Power state of channel `n`. -/
def Block.chState (b : Block) (n : Nat) : Nat := b.rd (PWR_CH_STATUS_STATE n)

/-- A wake of channel `n`: an exit begins from A1, S1 or S2; during an entry it is latched; during an exit it is
absorbed. -/
def Block.wake (b : Block) (n : Nat) : Block :=
  match b.pwr.target.get n with
  | some 0 => b
  | some _ =>
    let b := { b with pwr := { b.pwr with chWake := b.pwr.chWake.set n true } }
    b.wr (PWR_CH_STATUS_WAKE_LATCHED n) 1
  | none =>
    let st := b.chState n
    if st = pwA1 ∨ st = pwS1 ∨ st = pwS2 then
      let low := if bitOf b.pwr.chLow n then b.pwr.chLow - 2 ^ n else b.pwr.chLow
      let b := { b with pwr := { b.pwr with target := b.pwr.target.set n (some pwA0), chLow := low } }
      b.wr (PWR_CH_STATUS_MOVING n) 1
    else b

/-! ## Why a power request is refused (R472) -/

/-- Replacement state of channel `n`. -/
def Block.rplState (b : Block) (n : Nat) : Nat := b.rd (MOD_RPL_STATUS_STATE n)

/-- IN_SERVICE. -/
def rpInService : Nat := 0
/-- RELEASING. -/
def rpReleasing : Nat := 1
/-- RELEASED. -/
def rpReleased : Nat := 2
/-- ATTACHING. -/
def rpAttaching : Nat := 3
/-- ATTACHED. -/
def rpAttached : Nat := 4
/-- FAILED. -/
def rpFailed : Nat := 5

/-- A training waits or runs. -/
def Block.trainBusy (b : Block) (s : Nat) : Bool :=
  b.rd (PHY_TRAIN_STATUS_STATE s) == 1 || b.rd (PHY_TRAIN_STATUS_STATE s) == 2

/-- A channel that is not OFF. -/
def Block.chLive (b : Block) (n : Nat) : Bool := b.chState n != pwOFF

/-- The channels a request names: for S3 the whole block. -/
def pwrNamed (state chans : Nat) : List Nat := if state = 4 then List.range 16 else (List.range 16).filter (bitOf chans)

/-- Why a request is refused, 0 for not (R472). -/
def Block.pwrCode (b : Block) (state chans : Nat) : Nat :=
  let named := pwrNamed state chans
  if b.on THM_STATUS_TRIP then 8
  else if state ≠ 0 ∧ (b.rd PWR_STATUS_BLOCK ≠ 0 ∨ b.pwr.inS3 ∨ named.any (fun n => (b.pwr.target.get n).isSome)) then 2
  else if 5 ≤ state ∨ (state ≠ 4 ∧ named.any (fun n => !b.chLive n || b.rplState n != rpInService))
      ∨ named.any (fun n => b.trainBusy (2 * n) || b.trainBusy (2 * n + 1)) then 3
  else if state = 4 ∧ b.edtInScratch then 4
  else if state = 4 ∧ named.any (fun n => b.rplState n == rpReleasing || b.rplState n == rpAttaching) then 5
  else if state = 4 ∧ b.rd PWR_WAKE_EN = 0 then 6
  else if (state = 3 ∨ state = 4) ∧ b.harbour then 7
  else 0

/-! ## Lights over a subchannel (R54, R57, R58, R270) -/

/-- A light has no effect on channel `n`: it is OFF, or a subchannel of it is fenced (R54). -/
def Block.chLightless (b : Block) (n : Nat) : Bool :=
  b.subFenced (2 * n) || b.subFenced (2 * n + 1) || b.chState n == pwOFF

/-- Verb codes of R54's table. -/
def vbRefreshWindow : Nat := 1
/-- QUIET. -/
def vbQuiet : Nat := 2
/-- PROBE_WINDOW. -/
def vbProbeWindow : Nat := 7

/-- An entry of the working light list is enabled, has not reached DONE, has a verb, and names bit `t` of its TARGET. -/
def Block.lightTargets (b : Block) (verb i t : Nat) : Bool :=
  b.wk (LGT_CTL_ENABLE i) != 0 && b.wk (LGT_CTL_VERB i) == verb && bitOf (b.wk (LGT_TARGET_TARGET i)) t
    && !b.on (LGT_STATUS_DONE i)

/-- Entries whose on-time is in progress. -/
def Block.lightActive (b : Block) (i : Nat) : Bool := b.on (LGT_STATUS_ACTIVE i)

/-- A light has no effect on the subchannel: it is fenced or OFF (R54). -/
def Block.lightless (b : Block) (s : Nat) : Bool := b.subFenced s || b.chState (s / 2) == pwOFF

/-- The union of the kinds of the QUIET on-times over subchannel `s` (R54, R57). -/
def Block.quietKinds (b : Block) (s : Nat) : Nat :=
  if b.lightless s then 0
  else (List.range 64).foldl (fun m i =>
    if b.lightActive i && b.wk (LGT_CTL_VERB i) == vbQuiet && bitOf (b.wk (LGT_TARGET_TARGET i)) s
    then m ||| b.wk (LGT_ARG_ARG i) else m) 0

/-- The REFRESH_WINDOW entry that targets subchannel `s` (R270). -/
def Block.refTarget (b : Block) (s : Nat) : Option Nat :=
  (List.range 64).find? (fun i => b.lightTargets vbRefreshWindow i s)

/-- The REFRESH_WINDOW entry whose rules refresh of subchannel `s` follows: the one that targets it, or one that has
reached DONE and whose last on-time runs, since free running starts at the end of that on-time (R270). -/
def Block.refWindow (b : Block) (s : Nat) : Option Nat :=
  match b.refTarget s with
  | some i => some i
  | none => (List.range 64).find? (fun i =>
      b.lightActive i && b.wk (LGT_CTL_VERB i) == vbRefreshWindow && bitOf (b.wk (LGT_TARGET_TARGET i)) s)

/-- An enabled PROBE_WINDOW targets `s`, be it DONE or not, and none of its on-times is in progress: write probes wait
(R58). -/
def Block.probesHeld (b : Block) (s : Nat) : Bool :=
  (List.range 64).any (fun i => b.wk (LGT_CTL_ENABLE i) != 0 && b.wk (LGT_CTL_VERB i) == vbProbeWindow
    && bitOf (b.wk (LGT_TARGET_TARGET i)) s)
  && !((List.range 64).any (fun i => b.lightActive i && b.wk (LGT_CTL_VERB i) == vbProbeWindow
        && bitOf (b.wk (LGT_TARGET_TARGET i)) s))

/-! ## Sentences as stored (R310, R311) -/

/-- Text of sentence `n`. -/
def Block.sentence (b : Block) (n : Nat) : List Byte := b.sec tySentences n

/-- FLAGS.URGENT. -/
def sntUrgent (t : List Byte) : Bool := bitOf (leAt t 1 1) 0
/-- STEP_COUNT. -/
def sntSteps (t : List Byte) : Nat := leAt t 2 2
/-- HOLD. -/
def sntHold (t : List Byte) : Nat := leAt t 4 1
/-- KIND. -/
def sntKind (t : List Byte) : Nat := leAt t 5 1
/-- TIMEOUT_US. -/
def sntTimeout (t : List Byte) : Nat := leAt t 6 2
/-- Step `i`. -/
def sntStep (t : List Byte) (i : Nat) : Nat := leAt t (16 + 8 * i) 8
/-- OP of a step. -/
def stOp (w : Nat) : Nat := bitsOf w 4 0

/-- Code of a purpose, for the Keeper program's choice of sentence. -/
def Purpose.code : Purpose → Nat
  | .keeper => 0
  | .software => 1
  | .alert => 2
  | .fenceExit => 3
  | .osc => 4
  | .probe => 5
  | .repair => 6
  | .refreshEntry => 7
  | .train => 8
  | .speed => 9
  | .loopIn => 10
  | .loopOut => 11

/-- A sentence of a training, which its subchannel takes while it trains, fenced or not (R326, R337). -/
def Purpose.ofTraining (p : Purpose) : Bool := p == .train

/-- The sentence the Keeper program names for a purpose: R589 gives those of the harbour program, and for other uses none,
which the number 6 stands for; those of an image's program are the program's own (free). -/
def Block.keeperSentence (b : Block) (p : Purpose) : Nat :=
  if b.harbour then
    match p with
    | .alert => 3
    | .probe => 4
    | .osc => 5
    | _ => 6
  else Config.keeperSentence (b.sec tyKeeper 0) p.code % 64

/-! ## Requests (R312, R313) -/

/-- A request is urgent: it says so, or FLAGS.URGENT of the sentence's present copy does (R312, R319). -/
def Block.sntIsUrgent (b : Block) (r : SntReq) : Bool := r.urgent || sntUrgent (b.sentence r.num)

/-- Exit from self-refresh: no debt, and the tick series restarts (R276). -/
def Block.restartTicks (b : Block) (s : Nat) : Block :=
  if b.chLockstep (s / 2) && s % 2 == 1 then b
  else b.updSub s (fun u => { u with debt := [], ticking := true, tickAt := b.now, tickLen := 0 })

/-- Change the running training of a subchannel. -/
def Block.updTrain (b : Block) (s : Nat) (f : TrainRun → TrainRun) : Block :=
  { b with phy := { b.phy with train := b.phy.train.upd s (fun r => r.map f) } }

/-- The training of a subchannel learns how its sentence ended (R326). -/
def Block.trainHears (b : Block) (s outcome : Nat) : Block := b.updTrain s (fun r => { r with snt := some outcome })

/-- ECC_REPAIR_CODE of a repair whose sentence ended with `outcome`: ABORTED, and SENTENCE for the others (R395). -/
def repairCode (outcome : Nat) : Nat := if outcome = 3 then 5 else 4

/-- What waited on a sentence that ended, or that was turned away, follows: a training goes on (R326); a repair whose
sentence did not end OK fails (R395); after a fence exit tracking resumes and the ticks restart, or, when it did not end
OK, the block fences the subchannel again by block action (R518). -/
def Block.sntOver (b : Block) (s outcome : Nat) (why : Purpose) : Block :=
  match why with
  | .fenceExit => if outcome = 0 then (b.restartTicks s).trackJump s else b.fence .sub s causeAction 0
  | .train => forEach (b.pair s) b (fun b t => b.trainHears t outcome)
  | .alert => if outcome = 0 then b else b.updSub s (fun u => { u with classify := u.classify - 1 })
  | .repair => if outcome = 0 then b else b.repairEnd Block.event s (repairCode outcome) 0 none
  | _ => b

/-- A request of the subchannel ends without a step (R313). -/
def Block.sntRefused (b : Block) (s outcome : Nat) (why : Purpose) : Block :=
  if why = .software then
    let b := (b.wr (SNT_CALL_STATUS_BUSY s) 0).wr (SNT_CALL_STATUS_OUTCOME s) outcome
    (b.wr (SNT_CALL_STATUS_STEP s) 0).intr 13 (b.on (SNT_CALL_STATUS_INT_DONE s))
  else b.sntOver s outcome why

/-- Request a sentence on a subchannel; the channel wakes for it (R473). -/
def Block.sntRequest (b : Block) (s : Nat) (r : SntReq) : Block :=
  let n := s / 2
  if r.why = .software && decide (4 ≤ (b.subs.get s).sntQ.length) then b.sntRefused s 5 r.why
  else if (b.sentence r.num).isEmpty then b.sntRefused s 4 r.why
  else if (b.subFenced s && !r.why.ofTraining) || b.chState n == pwOFF || b.on (CLS_STATUS_HALTED s) || (b.chLockstep n && s % 2 == 1) then
    b.sntRefused s 6 r.why
  else
    let b := b.updSub s (fun u => { u with sntQ := u.sntQ ++ [r] })
    let b := if r.why = .software then b.wr (SNT_CALL_STATUS_BUSY s) 1 else b
    b.wake n

/-- Every rank of a subchannel, as a mask. -/
def Block.allRanks (b : Block) (s : Nat) : Nat := 2 ^ (b.subRanks s) - 1

/-- A request of the Keeper for all ranks without arguments. -/
def Block.keeperRequest (b : Block) (s : Nat) (p : Purpose) (urgent : Bool) : Block :=
  b.sntRequest s ⟨b.keeperSentence p, b.allRanks s, 0, urgent, p⟩

/-- A request is held back by a QUIET or PROBE_WINDOW (R57, R58, R310), or, unless urgent, by a drain (R470); the alert
sentence waits for the RFMs of a back-off (R280), and every sentence but a training's for the end of a training (R337),
whose commands no QUIET holds. -/
def Block.sntHeld (b : Block) (s : Nat) (r : SntReq) : Bool :=
  let kind := sntKind (b.sentence r.num)
  let q := b.quietKinds s
  if r.why.ofTraining then false
  else if (b.phy.train.get s).isSome then true
  else if r.why == .alert && (b.subs.get s).aboOn then true
  else if !b.sntIsUrgent r && b.pwr.drains.any (fun d => bitOf d.chans (s / 2)) then true
  else match kind with
  | 0 => !b.sntIsUrgent r && bitOf q 3
  | 1 => bitOf q 2 || b.probesHeld s
  | _ => bitOf q 2

/-! ## Steps (R314 to R316) -/

/-- DATA of a step: its own, or the invocation's argument ARG_IDX where ARG_SUB is 1 (R311). -/
def SntRun.data (run : SntRun) (w : Nat) : Nat :=
  if bitOf w 12 then bitsOf run.req.args (8 * bitsOf w 14 13 + 7) (8 * bitsOf w 14 13) else bitsOf w 31 24

/-- Ranks a step addresses (R311, R314); ranks the subchannel does not have are skipped. -/
def Block.stepRanks (b : Block) (s : Nat) (run : SntRun) (w : Nat) : List Nat :=
  let have_ := b.subRanks s
  if bitsOf w 11 8 < 8 then (if bitsOf w 11 8 < have_ then [bitsOf w 11 8] else [])
  else (List.range 8).filter (fun r => bitOf run.req.ranks r && decide (r < have_))

/-- Put the run at its next step that has something to do; steps without a rank end at once. The fuel is the number of
steps that are left. None when the last step has ended. -/
def Block.seekStep (b : Block) (s : Nat) : Nat → SntRun → Option SntRun
  | 0, _ => none
  | fuel + 1, run =>
    if run.step ≥ sntSteps run.text then none
    else
      let w := sntStep run.text run.step
      let base := { run with waited := 0, must := false, polls := 0, readOut := false }
      if stOp w ≤ 18 then
        match b.stepRanks s run w with
        | [] => b.seekStep s fuel { run with step := run.step + 1 }
        | rs => some { base with left := rs, waiting := false }
      else if stOp w = 21 then
        match b.stepRanks s run w with
        | [] => b.seekStep s fuel { run with step := run.step + 1 }
        | rs => some { base with left := rs, waiting := false }
      else some { base with left := [], waiting := true }

/-- A sentence ends, and what waited on it follows. -/
def Block.sentenceEnd (b : Block) (s outcome : Nat) : Block :=
  match (b.subs.get s).snt with
  | none => b
  | some run => (b.endSentenceWith Block.event s outcome).sntOver s outcome run.req.why

/-- The step in progress has ended: the next one becomes pending, or the sentence ends OK. -/
def Block.stepEnded (b : Block) (s : Nat) : Block :=
  match (b.subs.get s).snt with
  | none => b
  | some run =>
    match b.seekStep s 257 { run with step := run.step + 1 } with
    | some run' => (b.updSub s (fun u => { u with snt := some run' })).wr (SNT_RUN_STEP s) run'.step
    | none => b.sentenceEnd s 0

/-- Start the first request that nothing holds: urgent requests first, otherwise in order of arrival (R312). -/
def Block.sentenceStart (b : Block) (s : Nat) : Block :=
  let u := b.subs.get s
  if u.snt.isSome || b.on (CLS_STATUS_HALTED s) then b
  else
    let urgentFirst := u.sntQ.filter b.sntIsUrgent ++ u.sntQ.filter (fun r => !b.sntIsUrgent r)
    match urgentFirst.find? (fun r => !b.sntHeld s r && (r.why.ofTraining || !b.subFenced s)) with
    | none => b
    | some r =>
      let text := b.sentence r.num
      let urgent := b.sntIsUrgent r
      let run : SntRun := { (default : SntRun) with req := { r with urgent := urgent }, text := text }
      let q := match takeFirst (fun x => x == r) u.sntQ with
        | some (_, rest) => rest
        | none => u.sntQ
      let b := b.updSub s (fun u => { u with sntQ := q, snt := some run })
      let b := (b.wr (SNT_RUN_BUSY s) 1).wrB (SNT_RUN_SOURCE s) (decide (r.why = .software))
      let b := ((b.wrB (SNT_RUN_URGENT s) urgent).wr (SNT_RUN_SENTENCE s) r.num).wr (SNT_RUN_STEP s) 0
      match b.seekStep s 257 run with
      | some run' => (b.updSub s (fun u => { u with snt := some run' })).wr (SNT_RUN_STEP s) run'.step
      | none => b.sentenceEnd s 0

/-- SENTENCE_START (R312). -/
def execSentenceStart (i : Fin 32) (s : State) : Out := onBlock s (fun b => b.sentenceStart i)

/-- The WAIT step in progress ends (R314). -/
def Block.waitEnd (b : Block) (s : Nat) : Block :=
  match (b.subs.get s).snt with
  | some run => if run.waiting && stOp (sntStep run.text run.step) == 20 then b.stepEnded s else b
  | none => b

/-- SENTENCE_WAIT_END (R314). -/
def execSentenceWaitEnd (i : Fin 32) (s : State) : Out := onBlock s (fun b => b.waitEnd i)

/-- Store a result byte of a step with RESULT = 1 (R311). -/
def storeResult (results w : Nat) (byte : Nat) : Nat :=
  if bitOf w 15 then putBits results (8 * bitsOf w 17 16 + 7) (8 * bitsOf w 17 16) byte else results

/-- The bytes of the last MRR of a POLL step are compared; the interval to the next MRR has passed (R315). -/
def Block.poll (b : Block) (s : Nat) (bytes : List (BitVec 8)) : Block :=
  match (b.subs.get s).snt with
  | none => b
  | some run =>
    let w := sntStep run.text run.step
    if stOp w = 21 && run.readOut then
      let mask := bitsOf w 47 40
      let ok := !bytes.isEmpty && bytes.all (fun x => (x.toNat &&& mask) == (run.data w &&& mask))
      let run := { run with
        results := storeResult run.results w (bytes.headD 0).toNat, polls := run.polls + 1, readOut := false }
      let b := b.updSub s (fun u => { u with snt := some run })
      if ok then
        if run.left.length ≤ 1 then b.stepEnded s
        else b.updSub s (fun u => { u with snt := some { run with left := run.left.tail, polls := 0 } })
      else if run.polls ≥ bitsOf w 57 48 then b.sentenceEnd s 1
      else b
    else b

/-- SENTENCE_POLL (R315): `bytes` are what every device returned, the device on the lowest DQ lanes first. -/
def execSentencePoll (i : Fin 32) (bytes : List (BitVec 8)) (s : State) : Out := onBlock s (fun b => b.poll i bytes)

/-- STEP_WAIT_EXPIRY (R281): the pending step has waited SCH_SNT.WAIT slots. -/
def Block.stepWaited (b : Block) (s : Nat) : Block :=
  b.updSub s (fun u => { u with snt := u.snt.map (fun r =>
    { r with must := r.must || decide (max 1 (b.rd (SCH_SNT_WAIT s)) ≤ r.waited) }) })

/-- STEP_WAIT_EXPIRY (R281). -/
def execStepWaitExpiry (i : Fin 32) (s : State) : Out := onBlock s (fun b => b.stepWaited i)

/-- TIMEOUT_US elapses before the last step ends (R317). -/
def Block.sentenceTimeout (b : Block) (s : Nat) : Block :=
  match (b.subs.get s).snt with
  | some run => if sntTimeout run.text ≠ 0 then b.sentenceEnd s 2 else b
  | none => b

/-- SENTENCE_TIMEOUT (R317). -/
def execSentenceTimeout (i : Fin 32) (s : State) : Out := onBlock s (fun b => b.sentenceTimeout i)

/-! ## PHY actions (R340) -/

/-- The running sentence waits for PHY action `a`. -/
def Block.phyPending (b : Block) (s a : Nat) : Bool :=
  match (b.subs.get s).snt with
  | some run =>
    let w := sntStep run.text run.step
    run.waiting && stOp w == 23 && run.data w == a
  | none => false

/-- CK_STOP: the pairs stop once the sibling has stopped them, is fenced or OFF; acknowledged either way. -/
def Block.ckStop (b : Block) (s : Nat) : Block :=
  if b.phyPending s 0 then
    let b := forEach (b.pair s) b (fun b t => b.updSub t (fun u => { u with ckStop := true }))
    (b.ckSettle (s / 2)).stepEnded s
  else b

/-- CK_START: CK runs, acknowledged after 64 nCK. -/
def Block.ckStart (b : Block) (s : Nat) : Block :=
  if b.phyPending s 1 then
    let b := forEach (b.pair s) b (fun b t => b.updSub t (fun u => { u with ckStop := false }))
    let b := (b.wr (PHY_STATUS_CK_RUNNING (s / 2 * 2)) 1).wr (PHY_STATUS_CK_RUNNING (s / 2 * 2 + 1)) 1
    b.stepEnded s
  else b

/-- CK_STOP (R340). -/
def execCkStop (i : Fin 32) (s : State) : Out := onBlock s (fun b => b.ckStop i)

/-- CK_START (R340). -/
def execCkStart (i : Fin 32) (s : State) : Out := onBlock s (fun b => b.ckStart i)

end Sys2Proof.Machine
end

