-- ==== Sys2Proof/Machine/Scheduler.lean ====
section
/-! DEFINITION. The channel scheduler (09_channel_scheduler): candidates and keys (R260 to R266), legality (R261),
refresh, refresh management, throttle, the issue of commands, and slot accounting (R456 to R458). -/

namespace Sys2Proof.Machine

open Reg

/-! ## Banks, ranks and time -/

/-- Key of a bank. -/
def bankKey (rank bg bank : Nat) : Nat := rank * 32 + bg * 4 + bank

/-- Row open in the bank of a place. -/
def SubSt.rowOf (u : SubSt) (c : Coord) : Option Nat := (u.banks.get (bankKey c.rank c.bg c.bank)).row

/-- Change the banks of a rank that satisfy `p` on (bank group, bank). -/
def SubSt.updBanks (u : SubSt) (rank : Nat) (p : Nat → Nat → Bool) (f : Bank → Bank) : SubSt :=
  { u with banks := forEach (List.range 32) u.banks (fun t k =>
      if p (k / 4) (k % 4) then t.upd (rank * 32 + k) f else t) }

/-- The subchannel's data rate, never 0 for a division. -/
def Block.rate (b : Block) (s : Nat) : Nat := max 1 (b.rd (PHY_STATUS_RATE s))

/-- `n` nCK in nanoseconds, rounded up. -/
def Block.nckNs (b : Block) (s n : Nat) : Nat := ceilDiv (n * 2000) (b.rate s)

/-- tREFI in force, in halves of an nCK: halved while DOUBLE is 1 (R270). -/
def Block.trefiHalves (b : Block) (s : Nat) : Nat :=
  b.rd (SCH_REF_PARAM_TREFI_NCK s) * (if b.on (SCH_REF_STATUS_DOUBLE s) then 1 else 2)

/-- tREFI in force, in ns, rounded up. -/
def Block.trefi (b : Block) (s : Nat) : Nat := max 1 (ceilDiv (b.trefiHalves s * 1000) (b.rate s))

/-- ⌈`ns` ÷ tREFI⌉ for a tREFI in halves of an nCK at a data rate; an nCK is 2000 ÷ rate ns. -/
def refTicks (rate halves ns : Nat) : Nat := ceilDiv (ns * rate) (max 1 (halves * 1000))

/-- Same-bank refresh mode. -/
def Block.sameBank (b : Block) (s : Nat) : Bool := b.on (SCH_REF_MODE s)

/-- Debt units of one refresh command's worth of ticks (R269). -/
def Block.debtUnit (b : Block) (s : Nat) : Int := if b.sameBank s then 4 else 1

/-- LGT_CTL.UNIT of an entry as a length in ns (02): 16 ns or 1 ms. -/
def Block.lightUnit (b : Block) (i : Nat) : Nat := if b.wk (LGT_CTL_UNIT i) = 0 then 16 else 1000000

/-- PERIOD of a light in ns. -/
def Block.lightPeriod (b : Block) (i : Nat) : Nat := b.wk (LGT_PERIOD_PERIOD i) * b.lightUnit i

/-- N of R270: ticks in each period of the window that targets the subchannel. -/
def Block.windowTicks (b : Block) (s i : Nat) : Nat := refTicks (b.rate s) (b.trefiHalves s) (b.lightPeriod i)

/-- Next on-time start of a light; in ACQUIRE, where no light fires, none (R52). -/
def Block.nextOn (b : Block) (i : Nat) : Option Nat :=
  if b.timState = timAcquire then none
  else some (b.wk (LGT_START_LO_START i) + 2 ^ 32 * b.wk (LGT_START_HI_START i) + (b.lights.get i).next * b.lightPeriod i
    + b.wk (LGT_PHASE_PHASE i) * b.lightUnit i)

/-- The instant `t` falls before the next on-time start of a light. -/
def Block.beforeOn (b : Block) (i t : Nat) : Bool :=
  match b.nextOn i with
  | some n => decide (t < n)
  | none => true

/-! ## Sentence holds (R282, R318) -/

/-- Ranks held against traffic: by the running sentence, by a repair once its sentence no longer waits (R392), by
self-refresh. -/
def Block.heldRanks (b : Block) (s : Nat) : List Nat :=
  let u := b.subs.get s
  let bySnt := match u.snt with
    | some run =>
      match sntHold run.text with
      | 0 => []
      | 1 => (List.range 8).filter (fun r => bitOf run.req.ranks r)
      | _ => List.range 8
    | none => []
  let byRepair := match b.ecc.repair.get s with
    | some r =>
      if u.sntQ.any (fun q => q.why == .repair) then [] else [(b.ecc.log.get (32 * s + r.entry)).rank]
    | none => []
  bySnt ++ byRepair ++ u.selfRef

/-! ## Eligible entries (R250, R253, R263, R266) -/

/-- A read entry is urgent (R263). -/
def Block.urgent (b : Block) (s : Nat) (e : RdEnt) : Bool :=
  let slack := b.rd (SCH_URGENT_SLACK s)
  let cap := b.rd (SCH_CTL_AGE_CAP s)
  (match e.deadline with
   | some d => b.timState != timAcquire && slack != 0 && decide (slackUnits d b.now < (slack : Int))
   | none => false)
  || (cap != 0 && decide (cap < (b.subs.get s).slot - e.arrival))

/-- Unissued write entries. -/
def SubSt.unissued (u : SubSt) : List WrEnt := u.wq.filter (fun e => e.issued.isNone)

/-- Some unissued write entry has aged (R266). -/
def Block.agedWrite (b : Block) (s : Nat) : Bool :=
  let u := b.subs.get s
  let cap := b.rd (SCH_CTL_AGE_CAP s)
  cap != 0 && u.unissued.any (fun e => decide (cap < u.slot - e.arrival))

/-- HI and LO of SCH_DRAIN as they act (R266). -/
def Block.drainHi (b : Block) (s : Nat) : Nat := min 48 (max 1 (b.rd (SCH_DRAIN_HI s)))
/-- LO. -/
def Block.drainLo (b : Block) (s : Nat) : Nat := min (b.rd (SCH_DRAIN_LO s)) (b.drainHi s - 1)

/-- The mode at the start of a slot (R266). -/
def Block.nextMode (b : Block) (s : Nat) : Bool :=
  let w := (b.subs.get s).unissued.length
  let aged := b.agedWrite s
  if b.on (SCH_STATUS_MODE s) then !(decide (w ≤ b.drainLo s) && !aged)
  else decide (b.drainHi s ≤ w) || aged

/-- An entry by its place in a queue. -/
inductive EntRef
  | rd (i : Nat)
  | wr (i : Nat)
  deriving DecidableEq, Repr

/-- Eligible entries in the mode of the slot (R266); a write with an older read to the same column is no candidate
(R253). -/
def Block.eligibleAll (b : Block) (s : Nat) : List EntRef :=
  let u := b.subs.get s
  let write := b.on (SCH_STATUS_MODE s)
  let rds := (List.range u.rq.length).filter (fun i =>
    match u.rq[i]? with
    | some e => !write || b.urgent s e
    | none => false)
  let wrs := (List.range u.wq.length).filter (fun i =>
    match u.wq[i]? with
    | some e => e.issued.isNone && (write || u.rq.isEmpty)
        && !(u.rq.any (fun r => r.at_ == e.at_ && decide (r.arrival ≤ e.arrival)))
    | none => false)
  rds.map .rd ++ wrs.map .wr

/-- The place of an entry. -/
def SubSt.place (u : SubSt) : EntRef → Coord
  | .rd i => (u.rq[i]?.map (fun e => e.at_)).getD default
  | .wr i => (u.wq[i]?.map (fun e => e.at_)).getD default

/-- The class of an entry. -/
def SubSt.entCls (u : SubSt) : EntRef → Nat
  | .rd i => (u.rq[i]?.map (fun e => e.cls)).getD 8
  | .wr i => (u.wq[i]?.map (fun e => e.cls)).getD 8

/-- The arrival slot of an entry. -/
def SubSt.entArr (u : SubSt) : EntRef → Nat
  | .rd i => (u.rq[i]?.map (fun e => e.arrival)).getD 0
  | .wr i => (u.wq[i]?.map (fun e => e.arrival)).getD 0

/-- The eligible entries that the selection of the slot considers: those inserted at least two slots ago (R250). -/
def Block.eligible (b : Block) (s : Nat) : List EntRef :=
  let u := b.subs.get s
  (b.eligibleAll s).filter (fun r => decide (u.entArr r + 2 ≤ u.slot))

/-- An entry is an urgent read. -/
def Block.entUrgent (b : Block) (s : Nat) : EntRef → Bool
  | .rd i => match (b.subs.get s).rq[i]? with
    | some e => b.urgent s e
    | none => false
  | .wr _ => false

/-- The owed mark of an entry (R264). -/
def SubSt.entOwed (u : SubSt) : EntRef → Bool
  | .rd i => (u.rq[i]?.map (fun e => e.owed)).getD false
  | .wr i => (u.wq[i]?.map (fun e => e.owed)).getD false

/-- The entry is to be issued again (R280). -/
def SubSt.entReplayed (u : SubSt) : EntRef → Bool
  | .rd i => (u.rq[i]?.map (fun e => e.replayed)).getD false
  | .wr i => (u.wq[i]?.map (fun e => e.replayed)).getD false

/-! ## next_cmd (R262, R267) -/

/-- The command an entry needs: a column command, ACT, PRE, or none under the precharge rule. -/
def Block.nextCmd (b : Block) (s : Nat) (elig : List EntRef) (r : EntRef) : Option HistCmd :=
  let u := b.subs.get s
  let c := u.place r
  let write := match r with
    | .wr _ => true
    | .rd _ => false
  match u.rowOf c with
  | none => some (mkCmd cmACT c.rank c.bg c.bank)
  | some row =>
    if row = c.row then
      let others := (u.rq.map (fun e => e.at_)) ++ (u.unissued.map (fun e => e.at_))
      let same := others.filter (fun o => o.rank == c.rank && o.bg == c.bg && o.bank == c.bank && o.row == c.row)
      let close := b.rd (SCH_CTL_PAGE_POLICY s) == 1 && decide (same.length ≤ 1)
      some (mkCmd (if write then (if close then cmWRA else cmWR) else (if close then cmRDA else cmRD)) c.rank c.bg c.bank)
    else
      let hit := elig.any (fun x => let d := u.place x
        d.rank == c.rank && d.bg == c.bg && d.bank == c.bank && d.row == row)
      if b.entUrgent s r || !hit then some (mkCmd cmPREpb c.rank c.bg c.bank) else none

/-! ## Service commands (R268 to R278, R281) -/

/-- Whose command a candidate is. -/
inductive Who
  | entry (e : EntRef)
  | refresh (rank bank : Nat)
  | rfm (rank bank : Nat)
  | abo (rank : Nat)
  | step (rank : Nat)
  | idle (key : Nat)
  | preAll (rank : Nat)
  | down (rank : Nat)
  deriving DecidableEq, Repr

/-- A candidate of the selection (R260). -/
structure Cand where
  key : List Nat
  cmd : HistCmd
  who : Who
  deriving DecidableEq, Repr

/-- Whether a refresh of a rank is pending, and whether it is mandatory (R271 to R273). -/
def Block.refreshWanted (b : Block) (s : Nat) (elig : List EntRef) (rank : Nat) : Option Bool :=
  let u := b.subs.get s
  let d := u.debt.get rank
  let k := b.debtUnit s
  let P : Int := b.rd (SCH_REF_PARAM_P s)
  let Q : Int := b.rd (SCH_REF_PARAM_Q s)
  let targeted := elig.any (fun e => (u.place e).rank == rank)
  if u.selfRef.contains rank || !u.ticking then none
  else match b.refWindow s with
  | none =>
    let f0 : Int := b.rd (SCH_REF_FORCE_AT s)
    let F := if f0 = 0 || decide (P < f0) then P else f0
    if decide (F * k ≤ d) then some true
    else if decide (1 ≤ d) && !targeted then some false
    else if decide (-(Q * k) < d) && decide (d ≤ 0) && !targeted && b.on (SCH_REF_PULLIN s) then some false
    else none
  | some i =>
    if b.lightActive i then
      let N : Int := if u.winN = 0 then b.windowTicks s i else u.winN
      if decide ((P - N) * k < d) then some true else none
    else
      -- a forced refresh (R273)
      let tick := u.tickAt + (if u.tickLen = 0 then b.trefi s else u.tickLen)
      if decide (P * k ≤ d) && b.beforeOn i tick && decide (tick ≤ b.now + b.nckNs s 512) then some true
      else none

/-- The refresh of a rank is a forced one. -/
def Block.refreshForced (b : Block) (s : Nat) : Bool :=
  match b.refWindow s with
  | some i => !b.lightActive i
  | none => false

/-- The command a refresh or an RFM issues next: first the exit from power-down (R465), then a precharge of what is open
(R274). `bank` 4 is every bank. -/
def SubSt.refCmd (u : SubSt) (rank bank all sb : Nat) : HistCmd :=
  if u.pd.contains rank then mkCmd cmPDX rank 8 4 else
  let opened := (List.range 32).any (fun k =>
    (bank == 4 || k % 4 == bank) && (u.banks.get (rank * 32 + k)).row.isSome)
  if bank = 4 then mkCmd (if opened then cmPREab else all) rank 8 4
  else mkCmd (if opened then cmPREsb else sb) rank 8 bank

/-- Key of a service command. -/
def svcKey (mandatory : Bool) (order : Nat) : List Nat := [if mandatory then 2 else 0, 0, 0, 0, 0, 3 - order, 0]

/-- Pending refresh commands. -/
def Block.refCands (b : Block) (s : Nat) (elig : List EntRef) : List Cand :=
  let u := b.subs.get s
  (List.range (b.subRanks s)).filterMap (fun r =>
    match b.refreshWanted s elig r with
    | none => none
    | some m =>
      let bank := if b.sameBank s then u.sbNext.get r else 4
      some ⟨svcKey m 0, u.refCmd r bank cmREFab cmREFsb, .refresh r bank⟩)

/-- Pending refresh-management commands and those of an alert back-off (R277, R278). -/
def Block.rfmCands (b : Block) (s : Nat) : List Cand :=
  let u := b.subs.get s
  let imt := b.rd (SCH_RFM_RAAIMT s)
  let mmt := b.rd (SCH_RFM_RAAMMT s)
  let byCount :=
    if b.on (SCH_RFM_RFM_REQ s) then
      u.banks.filterMap (fun e =>
        if imt ≤ e.2.raa ∧ 0 < e.2.raa ∧ !u.selfRef.contains (e.1 / 32) then
          some ⟨svcKey (decide (mmt ≤ e.2.raa)) 1, u.refCmd (e.1 / 32) (e.1 % 4) cmRFMab cmRFMsb, .rfm (e.1 / 32) (e.1 % 4)⟩
        else none)
    else []
  let byAlert :=
    if u.aboOn then
      (u.abo.filter (fun e => e.2 != 0 && !u.selfRef.contains e.1)).map (fun e =>
        Cand.mk (svcKey true 1) (u.refCmd e.1 4 cmRFMab cmRFMsb) (.abo e.1))
    else []
  byAlert ++ byCount

/-- The pending sentence step (R281): the command to the first rank left. -/
def Block.stepCands (b : Block) (s : Nat) : List Cand :=
  match (b.subs.get s).snt with
  | none => []
  | some run =>
    let w := sntStep run.text run.step
    if run.waiting || run.readOut then []
    else match run.left with
    | [] => []
    | r :: _ =>
      let cls := if stOp w = 21 then cmMRR else stOp w
      let must := run.req.urgent || run.must || decide (max 1 (b.rd (SCH_SNT_WAIT s)) ≤ run.waited)
      -- bank commands of a sentence act in the training row (R311, R359)
      [⟨svcKey must 2, mkCmd cls r b.trainBg b.trainBank, .step r⟩]

/-- Precharges of banks whose idle timer has run out (R268). -/
def Block.idleCands (b : Block) (s : Nat) : List Cand :=
  (b.subs.get s).banks.filterMap (fun e =>
    if e.2.due && e.2.row.isSome then
      some ⟨svcKey false 3, mkCmd cmPREpb (e.1 / 32) (e.1 / 4 % 8) (e.1 % 4), .idle e.1⟩
    else none)

/-- Precharges that go first after a halt or a sentence (R306, R318). -/
def Block.preCands (b : Block) (s : Nat) : List Cand :=
  let u := b.subs.get s
  (u.preFirst.filter (fun r => !u.selfRef.contains r)).map (fun r => ⟨[3, 0, 0, 0, 0, 0, 0], mkCmd cmPREab r 8 4, .preAll r⟩)

/-- In A1 a rank whose refresh has issued goes back into power-down (R465). -/
def Block.downCands (b : Block) (s : Nat) (elig : List EntRef) : List Cand :=
  let u := b.subs.get s
  if b.chState (s / 2) != pwA1 then []
  else ((List.range (b.subRanks s)).filter (fun r =>
      !u.pd.contains r && !u.selfRef.contains r && b.refreshWanted s elig r == none)).map (fun r =>
    Cand.mk (svcKey false 3) (mkCmd cmPDE r 8 4) (.down r))

/-! ## Keys and the pool (R260) -/

/-- Lexicographic order of keys. -/
def keyLt : List Nat → List Nat → Bool
  | [], [] => false
  | [], _ :: _ => true
  | _ :: _, [] => false
  | a :: s, b :: t => if a = b then keyLt s t else decide (a < b)

/-- Insert a candidate behind those of equal or higher key. -/
def insertCand (c : Cand) : List Cand → List Cand
  | [] => [c]
  | d :: t => if keyLt d.key c.key then c :: d :: t else d :: insertCand c t

/-- Candidates in descending key order. -/
def sortCands (cs : List Cand) : List Cand := cs.foldl (fun acc c => insertCand c acc) []

/-- Key of an entry (R260): a read goes before a write on equal keys. -/
def Block.entKey (b : Block) (s : Nat) (r : EntRef) (col : Bool) : List Nat :=
  let u := b.subs.get s
  let n (x : Bool) : Nat := if x then 1 else 0
  let cls := u.entCls r
  [1, n (b.entUrgent s r), n (u.entOwed r), n col, n (decide (cls < 8) && decide (0 < u.credit.get cls)),
   u.slot - u.entArr r, match r with
    | .rd _ => 1
    | .wr _ => 0]

/-- The best candidate of each bank among the eligible entries. -/
def Block.entryCands (b : Block) (s : Nat) (elig : List EntRef) : List Cand :=
  let u := b.subs.get s
  let all := elig.filterMap (fun r =>
    match b.nextCmd s elig r with
    | some c => some (Cand.mk (b.entKey s r (isColumn c.cls)) c (.entry r))
    | none => none)
  (sortCands all).foldl (fun (acc : List Cand) c =>
    match c.who with
    | .entry r =>
      let p := u.place r
      let same := acc.any (fun d => match d.who with
        | .entry q => let x := u.place q
          x.rank == p.rank && x.bg == p.bg && x.bank == p.bank
        | _ => false)
      if same then acc else acc ++ [c]
    | _ => acc) []

/-- Refill of class credits (R260, R265). -/
def Block.refill (b : Block) (s : Nat) (elig : List EntRef) : Block :=
  let u := b.subs.get s
  if elig.any (fun e => decide (u.entCls e < 8) && decide (0 < u.credit.get (u.entCls e))) then b
  else b.updSub s (fun u => { u with
    credit := forEach (List.range 8) u.credit (fun t c => t.set c (b.wk (REGU_CLASS_WEIGHT c))) })

/-! ## Legality (R261) -/

/-- A training of the subchannel, or of its lockstep partner, runs. -/
def Block.training (b : Block) (s : Nat) : Bool := (b.pair s).any (fun t => (b.phy.train.get t).isSome)

/-- Steps 2 and 3 of a training run: the CA bus carries patterns and no commands (R330). -/
def Block.trainPattern (b : Block) (s : Nat) : Bool :=
  (b.pair s).any (fun t => (b.phy.train.get t).isSome
    && (b.rd (PHY_TRAIN_STATUS_STEP t) == 2 || b.rd (PHY_TRAIN_STATUS_STEP t) == 3))

/-- What a subchannel may issue at all: 0 nothing, 1 refresh and its precharges, 2 everything. A fenced subchannel issues
nothing, except during a training and, for frame accesses of the Tender, while its channel is ATTACHED (R433). -/
def Block.issueLevel (b : Block) (s : Nat) : Nat :=
  let u := b.subs.get s
  let st := b.chState (s / 2)
  let closed := b.subFenced s && b.rd (MOD_RPL_STATUS_STATE (s / 2)) != 4 && !b.training s
  if closed || b.trainPattern s || b.on THM_STATUS_TRIP || st == pwS1 || st == pwS2 || st == pwOFF || !b.on (PHY_STATUS_LOCKED s) || u.dead || u.noSet
    || (b.chLockstep (s / 2) && s % 2 == 1) then 0
  else if b.on (CLS_STATUS_HALTED s) then (if u.stay && !u.reload then 1 else 0)
  else if b.training s || st == pwA1 then 1
  else 2

/-- ACT is not legal whoever asks for it (R261): a mandatory refresh of its rank or bank index is pending, the activation
count of its bank stands at RAAMMT, or an alert back-off has used up its interval (R274, R277, R278). -/
def Block.actBarred (b : Block) (s : Nat) (refs : List Cand) (c : HistCmd) : Bool :=
  let u := b.subs.get s
  u.aboLate
  || (b.on (SCH_RFM_RFM_REQ s) && decide (b.rd (SCH_RFM_RAAMMT s) ≤ (u.banks.get (bankKey c.rank c.bg c.bank)).raa))
  || refs.any (fun r => r.key.headD 0 == 2 && r.cmd.rank == c.rank &&
      (match r.who with
       | .refresh _ bank => bank == 4 || bank == c.bank
       | _ => false))

/-- The sentence in progress may issue its step: as traffic may, and a training's own sentence during the training
(R330). -/
def Block.stepsIssue (b : Block) (s : Nat) : Bool :=
  b.issueLevel s == 2 || (b.issueLevel s == 1 && (match (b.subs.get s).snt with
    | some run => run.req.why.ofTraining
    | none => false))

/-- What keeps a candidate from issuing but the clauses (R261). -/
def Block.blocked (b : Block) (s : Nat) (refs : List Cand) (c : Cand) : Bool :=
  let u := b.subs.get s
  let level := b.issueLevel s
  let cls := c.cmd.cls
  match c.who with
  | .entry _ =>
    level != 2 || b.on (PHY_LOOP_STATUS_BUSY s) || u.preAll || u.preFirst.contains c.cmd.rank || (b.heldRanks s).contains c.cmd.rank
    || (u.idleLeft != 0 && (isColumn cls || cls == cmACT))
    || (cls == cmACT && b.actBarred s refs c.cmd)
  | .step _ => !b.stepsIssue s || u.preAll || (u.selfRef.contains c.cmd.rank && cls != cmSRX)
    || (cls == cmACT && (u.preFirst.contains c.cmd.rank || b.actBarred s refs c.cmd))
  | .preAll _ => level == 0
  | .idle k => level != 2 || u.preAll || (b.heldRanks s).contains c.cmd.rank || !(u.banks.get k).due
  | _ => level == 0 || u.preAll

/-- Idle slots after a traffic column command by throttle level (R284). -/
def thrIdle : Nat → Nat
  | 0 => 0
  | 1 => 1
  | 2 => 2
  | 3 => 4
  | 4 => 8
  | 5 => 16
  | 6 => 32
  | _ => 64

/-- The effective throttle level (R284). -/
def Block.thrLevel (b : Block) (s : Nat) : Nat := max (b.rd (SCH_THR_LEVEL s)) (b.rd (SCH_THR_FLOOR s))

/-! ## Injection on a write (R404, R405) -/

/-- Symbols of a codeword. -/
def codeLen (lock : Bool) : Nat := if lock then 160 else 80

/-- The pattern of an injection over a codeword, symbol n at bits 8n + 7 to 8n (R404). -/
def Inj.mask (i : Inj) (lock : Bool) : Nat :=
  let len := codeLen lock
  let first := if i.sym0 ≥ len then 0
    else if i.all then
      (List.range 8).foldl (fun m k => m ^^^ (i.xor0 <<< (8 * (i.sym0 / 8 * 8 + k)))) 0
    else i.xor0 <<< (8 * i.sym0)
  let second := if i.sym0 ≥ len ∨ i.sym1 ≥ len then 0 else i.xor1 <<< (8 * i.sym1)
  first ^^^ second

/-- The armed injection names the sector of a DPA, or in a lockstep channel a sector of its codeword. -/
def Block.injHits (b : Block) (lock : Bool) (dpa : Option Nat) (read : Bool) : Option Inj :=
  let unit_ := if lock then 128 else 64
  match b.ecc.armed, dpa with
  | some i, some a => if i.read = read ∧ i.dpa / unit_ = a / unit_ then some i else none
  | _, _ => none

/-- An injection fires (R404). -/
def Block.injFired (b : Block) (s : Nat) (i : Inj) (at_ : Coord) : Block :=
  let kept : Option InjKept := if i.read then none else some ⟨s, at_, i⟩
  let b := { b with ecc := { b.ecc with armed := none, kept := kept } }
  let b := ((b.wr ECC_INJ_STATUS_ARMED 0).wr ECC_INJ_STATUS_FIRED 1).wrB ECC_INJ_STATUS_KEPT kept.isSome
  b.wr ECC_INJ_STATUS_SUB s

/-! ## Issue -/

/-- Log times: rack-time bits [51:20] (R386). -/
def Block.logTime (b : Block) : Nat := bitsOf b.now 51 20

/-- A DRAM write of a sector issues: the kept injection of the place is forgotten, WB_SEEN is set (R389, R405). -/
def Block.writeIssued (b : Block) (s : Nat) (c : Coord) : Block :=
  let b := match b.ecc.kept with
    | some k => if k.sub = s ∧ k.at_ = c then
        ({ b with ecc := { b.ecc with kept := none } }).wr ECC_INJ_STATUS_KEPT 0 else b
    | none => b
  forEach (List.range 32) b (fun b i =>
    let e := b.ecc.log.get (32 * s + i)
    if e.valid && !e.wbSeen && e.rank == c.rank && e.bg == c.bg && e.bank == c.bank && e.row == c.row
        && e.col == c.col / 16 then
      b.updLog s i (fun e => { e with wbSeen := true, wbT := b.logTime })
    else b)

/-- Attributes of a traffic command's event: its class. -/
def clsCarry (cls : Nat) : Carry := { (default : Carry) with tc := if cls < 8 then some cls else none }

/-- Column command of a traffic entry (R279, R280, R458). -/
def Block.issueColumn (b : Block) (s : Nat) (r : EntRef) (c : HistCmd) : Block :=
  let u := b.subs.get s
  let key := bankKey c.rank c.bg c.bank
  let cls := u.entCls r
  let cy := clsCarry cls
  let idle := max 1 (b.rd (SCH_PAGE_IDLE s))
  let close := c.cls == cmRDA || c.cls == cmWRA
  let worked : Bool := match r with
    | .rd i => (u.rq[i]?.map (fun e => e.worked)).getD false
    | .wr i => (u.wq[i]?.map (fun e => e.worked)).getD false
  let b := if worked then b else b.count (ctrSub s) 7 1 cy
  let b := if b.entUrgent s r then b.count (ctrSub s) 8 1 cy else b
  let b := if u.entOwed r then b.count (ctrSub s) 9 1 cy else b
  let b := if u.entReplayed r then
      ((b.bump (SCH_REPLAY_CNT_CNT s)).wr (SCH_STATUS_REPLAY s) 1).intr 11 (b.bit (SCH_CTL_INT_EN s) 3)
    else b
  let b := b.updSub s (fun u => { u with
    banks := u.banks.upd key (fun k =>
      { k with row := if close then none else k.row, idle := if close then none else some idle, due := false })
    credit := if cls < 8 && decide (0 < u.credit.get cls) then u.credit.upd cls (fun n => n - 1) else u.credit })
  match r with
  | .rd i =>
    match u.rq[i]? with
    | none => b
    | some e =>
      let b := b.count (ctrSub s) 2 1 cy
      b.updSub s (fun u => { u with rq := u.rq.eraseIdx i, inflight := u.inflight ++ [{ e with replayed := false }] })
  | .wr i =>
    match u.wq[i]? with
    | none => b
    | some e =>
      let b := (b.count (ctrSub s) 3 1 cy).writeIssued s e.at_
      let (b, code) := match b.injHits (b.chLockstep (s / 2)) e.dpa false with
        | some inj => (b.injFired s inj e.at_, e.code ^^^ BitVec.ofNat 1280 (inj.mask (b.chLockstep (s / 2))))
        | none => (b, e.code)
      b.updSub s (fun u => { u with
        wq := u.wq.set i { e with issued := some u.slot, replayed := false }, lastWrite := some (e.at_, code) })

/-- A bank opens at an ACT: its row, its idle timer not yet loaded, one activation more (R258, R268, R277). -/
def Bank.activate (k : Bank) (row : Nat) (counted : Bool) : Bank :=
  { k with row := some row, idle := none, due := false, raa := if counted then k.raa + 1 else k.raa }

/-- A bank closes. -/
def Bank.close (k : Bank) : Bank := { k with row := none, idle := none, due := false }

/-- A bank's activation count has reached RAAMMT: RAA_BLOCK (R277). -/
def Block.raaReached (b : Block) (s key : Nat) : Block :=
  if b.on (SCH_RFM_RFM_REQ s) && decide (b.rd (SCH_RFM_RAAMMT s) ≤ ((b.subs.get s).banks.get key).raa) then
    (b.wr (SCH_STATUS_RAA_BLOCK s) 1).intr 11 (b.bit (SCH_CTL_INT_EN s) 1)
  else b

/-- Effect of an issued command on bank state, debts and its owner; the history is kept by `slotRun`. -/
def Block.issue (b : Block) (s : Nat) (c : Cand) : Block :=
  let rank := c.cmd.rank
  let key := bankKey rank c.cmd.bg c.cmd.bank
  let cls := c.cmd.cls
  let imt := b.rd (SCH_RFM_RAAIMT s)
  let pre := decide (5 ≤ cls) && decide (cls ≤ 7)
  let pdx (b : Block) : Block := b.updSub s (fun u => { u with pd := u.pd.filter (fun r => r != rank) })
  let onBank (g k : Nat) : Bool := (c.cmd.bg == 8 || g == c.cmd.bg) && (c.cmd.bank == 4 || k == c.cmd.bank)
  let closeAll (b : Block) : Block :=
    b.updSub s (fun u => u.updBanks rank onBank Bank.close)
  let ease (b : Block) : Block :=
    b.updSub s (fun u => u.updBanks rank onBank (fun k => { k with raa := k.raa - imt }))
  match c.who with
  | .entry r =>
    let u := b.subs.get s
    let cy := clsCarry (u.entCls r)
    let mark (b : Block) : Block := b.updSub s (fun u => match r with
      | .rd i => { u with rq := (u.rq[i]?.map (fun e => u.rq.set i { e with worked := true })).getD u.rq }
      | .wr i => { u with wq := (u.wq[i]?.map (fun e => u.wq.set i { e with worked := true })).getD u.wq })
    if isColumn cls then b.issueColumn s r c.cmd
    else if cls = cmACT then
      let row := (u.place r).row
      let b := mark (b.count (ctrSub s) 1 1 cy)
      let b := b.updSub s (fun u => { u with
        banks := u.banks.upd key (fun k => k.activate row (b.on (SCH_RFM_RFM_REQ s))) })
      b.raaReached s key
    else closeAll (mark (b.count (ctrSub s) 4 1 cy))
  | .refresh r bank =>
    if cls = cmPDX then pdx b
    else if pre then closeAll (b.count (ctrSub s) 4 1 default)
    else
      let forced := b.refreshForced s
      let b := ease (b.count (ctrSub s) 5 1 default)
      let b := b.updSub s (fun u => { u with
        debt := u.debt.upd r (fun d => d - 1)
        sbNext := if bank = 4 then u.sbNext else u.sbNext.set r ((bank + 1) % 4) })
      if forced then
        let b := match b.refWindow s with
          | some i => b.wr (LGT_STATUS_BREACH i) 1
          | none => b
        let b := (b.wr (SCH_STATUS_FORCED_REF s) 1).bump (SCH_REF_FORCED_CNT_CNT s)
        (b.intr 11 (b.bit (SCH_CTL_INT_EN s) 0)).event (subEvent 50 0 s)
      else b
  | .rfm _ _ => if cls = cmPDX then pdx b else if pre then closeAll (b.count (ctrSub s) 4 1 default) else ease (b.count (ctrSub s) 6 1 default)
  | .abo r =>
    if cls = cmPDX then pdx b
    else if pre then closeAll (b.count (ctrSub s) 4 1 default)
    else
      let b := ease (b.count (ctrSub s) 6 1 default)
      let b := b.updSub s (fun u => { u with abo := u.abo.upd r (fun n => n - 1) })
      if (b.subs.get s).abo.isEmpty then b.updSub s (fun u => { u with aboOn := false, aboLate := false }) else b
  | .idle _ => closeAll (b.count (ctrSub s) 4 1 default)
  | .preAll r =>
    let b := closeAll (b.count (ctrSub s) 4 1 default)
    b.updSub s (fun u =>
      let left := u.preFirst.filter (fun x => x != r)
      { u with preFirst := left, preAll := u.preAll && left.any (fun x => !u.selfRef.contains x) })
  | .step _ => b
  | .down r => b.updSub s (fun u => { u with pd := u.pd ++ [r] })

/-- What a sentence's command does to the banks, the debt and the activation counts (R258, R269, R277). An ACT opens the
training row (R311, R359). -/
def Block.stepBanks (b : Block) (s : Nat) (c : HistCmd) : Block :=
  let imt := b.rd (SCH_RFM_RAAIMT s)
  let onBank (g k : Nat) : Bool := (c.bg == 8 || g == c.bg) && (c.bank == 4 || k == c.bank)
  let upd (f : Bank → Bank) : Block := b.updSub s (fun u => u.updBanks c.rank onBank f)
  let owe (b : Block) (n : Int) : Block := b.updSub s (fun u => { u with debt := u.debt.upd c.rank (fun d => d - n) })
  let ease (k : Bank) : Bank := { k with raa := k.raa - imt }
  let idle := some (max 1 (b.rd (SCH_PAGE_IDLE s)))
  match c.cls with
  | 0 =>
    let row := match b.geom (b.slotOf s c.rank) with
      | some (rows, _, _) => 2 ^ rows - 1
      | none => 0
    (upd (fun k => k.activate row (b.on (SCH_RFM_RFM_REQ s)))).raaReached s (bankKey c.rank c.bg c.bank)
  | 1 => upd (fun k => { k with idle := idle, due := false })
  | 3 => upd (fun k => { k with idle := idle, due := false })
  | 2 => upd Bank.close
  | 4 => upd Bank.close
  | 5 => upd Bank.close
  | 6 => upd Bank.close
  | 7 => upd Bank.close
  | 8 => owe (upd ease) (b.debtUnit s)
  | 9 => if b.sameBank s then owe (upd ease) 1 else upd ease
  | 10 => upd ease
  | 11 => upd ease
  | _ => b

/-- A command of a sentence takes a rank into self-refresh or out of it (R276, R318): with the last rank's entry the ticks
stop, with the first exit from it they restart. -/
def Block.selfRefresh (b : Block) (s : Nat) (c : HistCmd) : Block :=
  match c.cls with
  | 15 =>
    let b := b.updSub s (fun u => { u with
      selfRef := if u.selfRef.contains c.rank then u.selfRef else u.selfRef ++ [c.rank] })
    if (b.subs.get s).selfRef.length ≥ b.subRanks s then b.updSub s (fun u => { u with ticking := false, debt := [] })
    else b
  | 16 =>
    let all := decide (b.subRanks s ≤ (b.subs.get s).selfRef.length)
    let b := b.updSub s (fun u => { u with selfRef := u.selfRef.filter (fun r => r != c.rank) })
    if all then b.restartTicks s else b
  | _ => b

/-- A Keeper read of a training row has given its outcome, which is counted and does nothing else (R379, R380). -/
def Block.rowRead (b : Block) (s : Nat) (r : RowRead) : Block :=
  match r with
  | .clean => b
  | .corrected => b.bump (ECC_CE_CNT_CNT s)
  | .uncorrectable => b.bump (ECC_UE_CNT_CNT s)

/-- The counter event of a command issued by a sentence (R446). -/
def stepEvent (cls : Nat) : Option Nat :=
  if cls = cmACT then some 1
  else if cls = cmRD ∨ cls = cmRDA then some 2
  else if cls = cmWR ∨ cls = cmWRA then some 3
  else if cls = cmPREpb ∨ cls = cmPREsb ∨ cls = cmPREab then some 4
  else if cls = cmREFab ∨ cls = cmREFsb then some 5
  else if cls = cmRFMab ∨ cls = cmRFMsb then some 6
  else none

/-- The sentence step's command to the rank has issued (R314): `mrr` is the byte an MRR returns, `row` what a read of the
training row gives. -/
def Block.issueStep (b : Block) (s : Nat) (c : Cand) (mrr : Nat) (row : RowRead) : Block :=
  match (b.subs.get s).snt with
  | none => b
  | some run =>
    let b := b.count (ctrSub s) 0xE 1 default
    let b := match stepEvent c.cmd.cls with
      | some code => b.count (ctrSub s) code 1 default
      | none => b
    let b := if c.cmd.cls = cmRD ∨ c.cmd.cls = cmRDA then b.rowRead s row else b
    let w := sntStep run.text run.step
    let rank := c.cmd.rank
    let b := b.updSub s (fun u => { u with lastPin := some ⟨c.cmd.cls, rank, b.dcs s rank, bitsOf w 39 32, run.data w⟩ })
    let run := { run with touched := if run.touched.contains rank then run.touched else run.touched ++ [rank], waited := 0 }
    let b := forEach (b.pair s) b (fun b t => (b.stepBanks t c.cmd).selfRefresh t c.cmd)
    if stOp w = 21 then b.updSub s (fun u => { u with snt := some { run with readOut := true } })
    else
      let run := { run with
        results := if stOp w = 13 then storeResult run.results w mrr else run.results, left := run.left.tail }
      let b := b.updSub s (fun u => { u with snt := some run })
      if run.left.isEmpty then b.stepEnded s else b

/-! ## The slot (R260, R266) -/

/-- Every candidate of the slot. -/
def Block.cands (b : Block) (s : Nat) (elig : List EntRef) : List Cand :=
  b.preCands s ++ b.refCands s elig ++ b.rfmCands s ++ b.stepCands s ++ b.idleCands s ++ b.downCands s elig ++ b.entryCands s elig

/-- A candidate is legal at phase `ph` of the slot, with `own` as the history. -/
def Block.legal (b : Block) (s : Nat) (cls : List Clause) (refs : List Cand) (own : List HistCmd) (ph : Nat) (c : Cand) :
    Bool :=
  let k := (b.subs.get s).slot
  !b.blocked s refs c && b.clausesAllow cls s k own { c.cmd with pos := 8 * k + 4 * ph }

/-- The 8 candidates of the slot with the highest keys (R260). -/
def Block.topCands (b : Block) (s : Nat) (elig : List EntRef) : List Cand := (sortCands (b.cands s elig)).take 8

/-- The command of phase 0 among the top candidates (R260). -/
def Block.pick0 (b : Block) (s : Nat) (elig : List EntRef) : Option Cand :=
  let cls := clausesOf (b.activeSet s)
  let refs := b.refCands s elig
  let ok := b.legal s cls refs (b.subs.get s).hist 0
  match (b.topCands s elig).find? (fun c => isColumn c.cmd.cls && ok c) with
  | some c => some c
  | none => (b.topCands s elig).find? (fun c => !isColumn c.cmd.cls && ok c)

/-- The place of an entry once the column command of phase 0 has taken its read entry out of the queue. -/
def EntRef.after (p0 : Option Cand) (r : EntRef) : EntRef :=
  match p0, r with
  | some ⟨_, c, .entry (.rd j)⟩, .rd i => if isColumn c.cls && decide (j < i) then .rd (i - 1) else .rd i
  | _, r => r

/-- A candidate with the place its entry has after phase 0. -/
def Cand.after (p0 : Option Cand) (c : Cand) : Cand :=
  match c.who with
  | .entry r => { c with who := .entry (r.after p0) }
  | _ => c

/-- The command of phase 1 among the top candidates that are left, once `p0` has issued: legality counts what it did
(R260). -/
def Block.pick1 (b : Block) (s : Nat) (top : List Cand) (p0 : Option Cand) : Option Cand :=
  let cls := clausesOf (b.activeSet s)
  let refs := b.refCands s []
  (((top.filter (fun c => some c != p0)).map (Cand.after p0))).find? (fun c =>
    !isColumn c.cmd.cls && b.legal s cls refs (b.subs.get s).hist 1 c)

/-- A traffic column command delivers (R458). -/
def Block.delivers (b : Block) (s : Nat) (c : Cand) : Bool :=
  match c.who with
  | .entry (.rd i) =>
    match (b.subs.get s).rq[i]? with
    | some e => e.counts && (e.src == .demand || e.src == .fill || e.src == .tender)
    | none => false
  | .entry (.wr i) =>
    match (b.subs.get s).wq[i]? with
    | some e => e.counts && (e.src == .writeback || e.src == .uncached || e.src == .tender)
    | none => false
  | _ => false

/-- The category of the slot (R457): 0 RETIRED, 1 WASTED, 2 FRONT, 3 BACK. -/
def Block.classifySlot (b : Block) (s : Nat) (elig : List EntRef) (p0 : Option Cand) : Nat :=
  let u := b.subs.get s
  if (b.phy.train.get s).isSome || b.on (PHY_LOOP_STATUS_BUSY s) then 1
  else if b.on (CLS_STATUS_HALTED s) then 3
  else if (match p0 with
      | some c => isColumn c.cmd.cls
      | none => false) then
    match p0 with
    | some c => if b.delivers s c then 0 else 1
    | none => 1
  else if u.rq.isEmpty && u.unissued.isEmpty then 2
  else
    let all := elig.map (fun r =>
      let c := b.nextCmd s elig r
      (b.entKey s r (match c with
        | some x => isColumn x.cls
        | none => false), r, c))
    match all.foldl (fun (m : Option (List Nat × EntRef × Option HistCmd)) x =>
        match m with
        | none => some x
        | some y => if keyLt y.1 x.1 then some x else some y) none with
    | none => 3
    | some (_, r, c) =>
      let rank := (u.place r).rank
      if u.selfRef.length ≥ b.subRanks s then 3
      else if u.snt.isSome && (b.heldRanks s).contains rank then 1
      else match c with
      | some x =>
        let at_ := { x with pos := 8 * u.slot }
        let cls := clausesOf (b.activeSet s)
        let write := match r with
          | .wr _ => true
          | .rd _ => false
        let other (code : Nat) : Bool :=
          if write then code == 1 || code == 2 || code == 13 || code == 24 else code == 3 || code == 4 || code == 25
        let sib := b.sibHist s u.slot
        let bad := cls.filter (fun k => k.forbids u.hist sib at_)
        let cand : Cand := ⟨[], x, .entry r⟩
        if isColumn x.cls && !b.blocked s (b.refCands s elig) cand && !bad.isEmpty && bad.all (fun k => other k.from_)
        then 1 else 3
      | none => 3

/-- Count down the idle timers of open banks (R268). -/
def Block.idleTimers (b : Block) (s : Nat) : Block :=
  b.updSub s (fun u => { u with banks := u.banks.map (fun e =>
    if e.2.row.isSome then (e.1, { e.2 with idle := e.2.idle.map (fun n => n - 1) }) else e) })

/-- Under the adaptive policy a PRE of every open bank whose idle timer stands at zero is wanted (R268). -/
def Block.idleDue (b : Block) (s : Nat) : Block :=
  let adaptive := decide (2 ≤ b.rd (SCH_CTL_PAGE_POLICY s))
  b.updSub s (fun u => { u with banks := u.banks.map (fun e =>
    if e.2.row.isSome then (e.1, { e.2 with due := e.2.due || (adaptive && e.2.idle == some 0) }) else e) })

/-- Free issued writes whose retention has ended (R279), unless an alert is being classified. -/
def Block.freeWrites (b : Block) (s : Nat) : Block :=
  let keep := max 16 (b.rd (SCH_REPLAY_SLOTS s))
  b.updSub s (fun u =>
    if u.classify ≠ 0 then u
    else { u with wq := u.wq.filter (fun e => match e.issued with
      | some i => decide (u.slot ≤ i + keep)
      | none => true) })

/-- Reads that are to be issued again come back while the read queue has room (R249). -/
def Block.readsAgain (b : Block) (s : Nat) : Block :=
  b.updSub s (fun u =>
    let room := 64 - u.rq.length
    { u with rq := u.again.take room ++ u.rq, again := u.again.drop room })

/-- Issue a selected command: history, the checkers of the pair (R304), effect. -/
def Block.issueAt (b : Block) (s ph mrr : Nat) (row : RowRead) (c : Option Cand) : Block :=
  match c with
  | none => b
  | some c =>
    let k := (b.subs.get s).slot
    let h := { c.cmd with pos := 8 * k + 4 * ph }
    let b := b.updSub s (fun u => { u with
      hist := u.hist.filter (fun e => decide (8 * k + 8 ≤ e.pos + 8184 + 8)) ++ [h], lastIssued := u.lastIssued ++ [h] })
    let b := forEach (b.pair s) b (fun b t => b.updSub t (fun u => { u with toCheck := u.toCheck ++ [h] }))
    match c.who with
    | .step _ => b.issueStep s c mrr row
    | _ => b.issue s c

/-- The entry that would issue its column command has an uncorrectable error of its fields (R377): a read is answered UE, a
write is dropped. -/
def Block.entryUpset (b : Block) (s : Nat) (c : Option Cand) : Block :=
  match c with
  | some ⟨_, _, .entry (.rd i)⟩ =>
    match (b.subs.get s).rq[i]? with
    | some e => ((b.updSub s (fun u => { u with rq := u.rq.eraseIdx i })).dropMiss e.slice e.miss stUE).queueUe
    | none => b
  | some ⟨_, _, .entry (.wr i)⟩ => (b.updSub s (fun u => { u with wq := u.wq.eraseIdx i })).queueUe
  | _ => b

/-- One slot of subchannel `s` (R260): free writes, change mode, select, issue, classify, count. -/
def Block.slotRun (b : Block) (s mrr : Nat) (row : RowRead) (upset : Bool) : Block :=
  let lockB := b.chLockstep (s / 2) && s % 2 == 1
  let st := b.chState (s / 2)
  let counted := !b.subFenced s && st != pwS2 && st != pwOFF
  if lockB then b
  else
    let b := ((b.freeWrites s).readsAgain s).idleDue s
    let mode := b.nextMode s
    let b := if mode = b.on (SCH_STATUS_MODE s) then b else (b.wrB (SCH_STATUS_MODE s) mode).count (ctrSub s) 0xC 1 default
    let b := if upset then b.entryUpset s (b.pick0 s (b.eligible s)) else b
    let elig := b.eligible s
    let b := b.refill s elig
    let top := b.topCands s elig
    let p0 := b.pick0 s elig
    let cat := b.classifySlot s (b.eligibleAll s) p0
    let u := b.subs.get s
    let thr := u.idleLeft != 0
    let col := match p0 with
      | some ⟨_, c, .entry _⟩ => isColumn c.cls
      | _ => false
    let b := b.idleTimers s
    let b := b.updSub s (fun u => { u with lastIssued := [], snt := u.snt.map (fun r => { r with waited := r.waited + 1 }) })
    let b := b.issueAt s 0 mrr row p0
    let b := b.issueAt s 1 mrr row (b.pick1 s top p0)
    let b := b.updSub s (fun u => { u with
      idleLeft := if col then thrIdle (b.thrLevel s) else u.idleLeft - 1, slot := u.slot + 1 })
    if counted then
      let b := forEach (b.pair s) b (fun b t =>
        b.countSlot t (if (b.phy.train.get t).isSome || b.on (PHY_LOOP_STATUS_BUSY t) then 1 else cat))
      let b := b.count (ctrSub s) 0xF 1 default
      let b := (b.count (ctrSub s) 0xA u.rq.length default).count (ctrSub s) 0xB u.wq.length default
      if thr then b.count (ctrSub s) 0xD 1 default else b
    else b

/-! ## Commands of the power path (R465, R466) -/

/-- A command that a power transition issues: through the history and the checkers as every command (R13, R304, R466), with
what it does to the banks and to self-refresh. -/
def Block.putCmd (b : Block) (s : Nat) (c : HistCmd) : Block :=
  forEach (b.pair s) (b.putPins s c) (fun b t => (b.stepBanks t c).selfRefresh t c)

/-- A power transition runs sentence `n` for every rank to its end: its commands in order, a WAIT of COUNT nCK as the slots
it takes; what its PHY steps do the transition does itself. -/
def Block.putSentence (b : Block) (s n : Nat) : Block :=
  let text := b.sentence n
  forEach (List.range (sntSteps text)) b (fun b i =>
    let w := sntStep text i
    let ranks := if bitsOf w 11 8 < 8 then [bitsOf w 11 8] else List.range (b.subRanks s)
    if stOp w ≤ 18 then
      forEach (ranks.filter (fun r => decide (r < b.subRanks s))) b (fun b r =>
        b.putCmd s (mkCmd (stOp w) r b.trainBg b.trainBank))
    else if stOp w = 20 ∧ bitsOf w 59 58 = 0 then
      b.updSub s (fun u => { u with slot := u.slot + ceilDiv (bitsOf w 57 48) 8 })
    else b)

/-- The subchannels of channel `n` whose own scheduler issues commands: not fenced, and of a lockstep pair A alone. -/
def Block.powerSubs (b : Block) (n : Nat) : List Nat :=
  [2 * n, 2 * n + 1].filter (fun s => !b.subFenced s && !(b.chLockstep n && s % 2 == 1))

/-- PDE or PDX to every rank of channel `n` outside self-refresh (R465). -/
def Block.powerDown (b : Block) (n : Nat) (enter : Bool) : Block :=
  forEach (b.powerSubs n) b (fun b s =>
    let u := b.subs.get s
    let ranks := (List.range (b.subRanks s)).filter (fun r => !u.selfRef.contains r && u.pd.contains r != enter)
    forEach ranks b (fun b r => b.putCmd s (mkCmd (if enter then cmPDE else cmPDX) r 8 4)))

/-- SNT_SRE of the active bin on each subchannel of channel `n` that is not in self-refresh, after PDX from A1 (R465). -/
def Block.powerSre (b : Block) (n : Nat) : Block :=
  let b := b.powerDown n false
  forEach (b.powerSubs n) b (fun b s =>
    if (b.subs.get s).selfRef.length < b.subRanks s then b.putSentence s (setSre (b.activeSet s)) else b)

/-- SNT_SRX of the active bin on each subchannel of channel `n` (R465). -/
def Block.powerSrx (b : Block) (n : Nat) : Block :=
  forEach (b.powerSubs n) b (fun b s => b.putSentence s (setSrx (b.activeSet s)))

/-! ## Refresh ticks, timers and modes (R268, R269, R270) -/

/-- A refresh tick (R269): every rank's debt grows; none while ticks are stopped (R276). -/
def Block.refreshTick (b : Block) (s : Nat) : Block :=
  if (b.subs.get s).ticking then
    let k := b.debtUnit s
    b.updSub s (fun u => { u with
      debt := forEach (List.range (b.subRanks s)) u.debt (fun t r => t.upd r (fun d => d + k)), tickAt := b.now
      tickLen := b.trefi s })
  else b

/-- REFRESH_TICK (R269). -/
def execRefreshTick (i : Fin 32) (s : State) : Out := onBlock s (fun b => b.refreshTick i)

/-- PAGE_IDLE_TIMEOUT (R268): the idle timer of an open bank reaches zero under the adaptive policy. -/
def Block.pageIdle (b : Block) (s rank bg bank : Nat) : Block :=
  let k := bankKey rank bg bank
  let e := (b.subs.get s).banks.get k
  if decide (2 ≤ b.rd (SCH_CTL_PAGE_POLICY s)) && e.row.isSome && e.idle == some 0 then
    b.updSub s (fun u => { u with banks := u.banks.upd k (fun e => { e with due := true }) })
  else b

/-- PAGE_IDLE_TIMEOUT (R268). -/
def execPageIdleTimeout (i : Fin 32) (rank bg : Fin 8) (bank : Fin 4) (s : State) : Out :=
  onBlock s (fun b => b.pageIdle i rank bg bank)

/-- WRITE_RETENTION_EXPIRY (R279): the oldest issued entry is freed once it has been retained for its slots. -/
def Block.retentionEnds (b : Block) (s : Nat) : Block :=
  let keep := max 16 (b.rd (SCH_REPLAY_SLOTS s))
  b.updSub s (fun u =>
    if u.classify ≠ 0 then u
    else match takeFirst (fun e => match e.issued with
        | some i => decide (i + keep < u.slot)
        | none => false) u.wq with
      | some (_, rest) => { u with wq := rest }
      | none => u)

/-- WRITE_RETENTION_EXPIRY (R279). -/
def execWriteRetentionExpiry (i : Fin 32) (s : State) : Out := onBlock s (fun b => b.retentionEnds i)

/-- Each rank's debt is converted at a change of refresh mode, so that no debt is lost (R269). -/
def Block.convertDebt (b : Block) (s : Nat) (toSameBank : Bool) : Block :=
  b.updSub s (fun u => { u with debt := forEach u.debt.reverse ([] : Tab Int) (fun t e =>
    t.set e.1 (if toSameBank then 4 * e.2 else -((-e.2) / 4))) })

/-! ## Alerts and replay (R278 to R280) -/

/-- A subchannel samples ALERT_n (R278, R280): a PRAC module starts or extends a back-off; the Keeper's alert sentence is
requested. A fenced subchannel, whose ranks are in self-refresh, has no alert. -/
def Block.alert (b : Block) (s : Nat) : Block :=
  let st := b.chState (s / 2)
  if st == pwS2 || st == pwOFF || b.subFenced s then b
  else
    let prac := b.on (SCH_RFM_PRAC s)
    let u := b.subs.get s
    let b :=
      if prac && !u.aboOn then
        let b := b.updSub s (fun u => { u with
          aboOn := true, aboLate := false
          abo := forEach (List.range (b.subRanks s)) u.abo (fun t r => t.set r (b.rd (SCH_RFM_ABO_RFM s))) })
        ((b.wr (SCH_STATUS_ABO s) 1).bump (SCH_ABO_CNT_CNT s)).intr 11 (b.bit (SCH_CTL_INT_EN s) 2)
      else b
    let b := b.updSub s (fun u => { u with classify := u.classify + 1 })
    b.keeperRequest s .alert true

/-- The ALERT_n ball of channel `n` falls (R558): both subchannels sample it; a lockstep pair has one scheduler (R255). -/
def Block.alertBall (b : Block) (n : Nat) : Block :=
  if b.chLockstep n then b.alert (2 * n) else (b.alert (2 * n)).alert (2 * n + 1)

/-- ALERT (R278): the alert of subchannel `i` is one of its channel's ball. -/
def execAlert (i : Fin 32) (s : State) : Out := onBlock s (fun b => b.alertBall (i / 2))

/-- ALERT_BACKOFF_END (R278): ACT becomes illegal until the back-off RFMs have issued. -/
def Block.backoffEnd (b : Block) (s : Nat) : Block :=
  b.updSub s (fun u => if u.aboOn then { u with aboLate := true } else u)

/-- ALERT_BACKOFF_END (R278). -/
def execAlertBackoffEnd (i : Fin 32) (s : State) : Out := onBlock s (fun b => b.backoffEnd i)

/-- Replay of retained writes, and with `reads` of every read whose data has not arrived (R280, R306). Each is counted
when its command issues again; reads come back as the read queue has room (R249). -/
def Block.replay (b : Block) (s : Nat) (reads : Bool) : Block :=
  let b := b.updSub s (fun u => { u with
    wq := u.wq.map (fun e => if e.issued.isSome then { e with issued := none, counts := false, replayed := true } else e)
    again := if reads then u.inflight.map (fun e => { e with counts := false, replayed := true }) ++ u.again else u.again
    inflight := if reads then [] else u.inflight })
  if reads then b.readsAgain s else b

/-! ## Quiesce (R256) -/

/-- The scheduler that serves subchannel `s`: that of subchannel A for a lockstep pair (R255). -/
def Block.schedOf (b : Block) (s : Nat) : Nat := if b.chLockstep (s / 2) then s / 2 * 2 else s

/-- QUIESCED of the scheduler that serves a subchannel: both queues empty, nothing retained, no sentence running. It
reads 1 only while QUIESCE is set. -/
def Block.quiesced (b : Block) (s : Nat) : Bool :=
  let s := b.schedOf s
  let u := b.subs.get s
  b.on (SCH_CTL_QUIESCE s) && u.rq.isEmpty && u.wq.isEmpty && u.snt.isNone

end Sys2Proof.Machine
end

