-- ==== Sys2Proof/Machine/Training.lean ====
section
/-! DEFINITION. Training (R326 to R339): requests, starts, the outcome of each step, and the end of a training with the
values it leaves; alert classification (R280, R338); loopback (R342, R343). -/

namespace Sys2Proof.Machine

open Reg

/-! ## PHY_INIT (R325) -/

/-- `n` bytes at `off` of the PHY_INIT section. -/
def Block.phyInit (b : Block) (off n : Nat) : Nat := leAt (b.sec tyPhyInit 0) off n

/-- Minimum and maximum of LIMIT entry `k`. -/
def Block.limit (b : Block) (k : Nat) : Nat × Nat := (b.phyInit (0x60 + 4 * k) 2, b.phyInit (0x62 + 4 * k) 2)

/-- A value is inside LIMIT entry `k`. -/
def Block.inLimit (b : Block) (k : Nat) (v : Int) : Bool :=
  decide (((b.limit k).1 : Int) ≤ v) && decide (v ≤ ((b.limit k).2 : Int))

/-! ## Requests (R332 to R335) -/

/-- A subchannel is quiesced for a training: QUIESCED reads 1 or it is fenced (R333). -/
def Block.trainReady (b : Block) (s : Nat) : Bool := b.quiesced s || b.subFenced s

/-- Place a training in WAITING (R334); the channel wakes for it (R473). -/
def Block.trainAsk (b : Block) (s steps : Nat) (why : TrainWhy) : Block :=
  let subs := b.pair s
  if subs.any b.trainBusy then b
  else
    let b := { b with phy := { b.phy with trainQ := b.phy.trainQ ++ [TrainReq.mk subs (steps ||| 0x400) why] } }
    (forEach subs b (fun b t =>
      (b.wr (PHY_TRAIN_STATUS_STATE t) 1).wr (PHY_TRAIN_STATUS_CODE t) 0)).trainCounts.wake (s / 2)

/-- PHY_TRAIN_CTL.GO (R333). -/
def Block.trainGo (b : Block) (s : Nat) : Block :=
  if (b.pair s).any b.trainBusy then b.wr (PHY_TRAIN_STATUS_OVERRUN s) 1
  else if !((b.pair s).all b.trainReady) then b.wr (PHY_TRAIN_STATUS_CODE s) 7
  else b.trainAsk s (b.rd (PHY_TRAIN_CTL_STEPS s) * 2) .software

/-- MAX_PAR as it acts. -/
def Block.maxPar (b : Block) : Nat := min 8 (max 1 (b.rd KPR_TRAIN_MAX_PAR))

/-- The first selected step above `n`. -/
def nextStep (steps n : Nat) : Option Nat := (List.range 11).find? (fun k => decide (n < k) && bitOf steps k)

/-- One argument of SNT_INIT for codes that R326 passes together: their common value, free where they differ. -/
def vrefByte : List Nat → Nat
  | [] => 0
  | c :: t => (if t.all (· == c) then c else Config.vrefArg (c :: t)) % 256

/-- The arguments of SNT_INIT (R326): argument 0 VrefDQ, those `found` in place of those in force, argument 1 VrefCA. -/
def Block.initArgs (b : Block) (s : Nat) (found : List (Nat × Nat)) : Nat :=
  let ranks := List.range (b.subRanks s)
  let dq := (List.range 10).flatMap (fun d => match found.find? (fun e => e.1 == d) with
    | some e => [e.2]
    | none => ranks.map (fun r => b.phy.vrefDq.get (128 * s + 10 * r + d)))
  vrefByte dq + 256 * vrefByte (ranks.map (fun r => b.phy.vrefCa.get (8 * s + r)))

/-- Steps 4 and 10 begin with SNT_INIT of the active bin (R326): once, when both subchannels of a lockstep pair have
reached the step. -/
def Block.trainSentence (b : Block) (s k : Nat) : Block :=
  let b := b.updTrain s (fun r => { r with snt := none })
  if (b.pair s).all (fun t => (b.phy.train.get t).isSome && b.rd (PHY_TRAIN_STATUS_STEP t) == k) then
    let a := b.schedOf s
    let found := match b.phy.train.get s with
      | some r => r.vref
      | none => []
    b.sntRequest a ⟨setInit (b.activeSet a), b.allRanks a, b.initArgs s found, true, .train⟩
  else b

/-- A training reaches step `k`: the history restarts empty at step 4 (R330), and steps 4 and 10 run their sentence. -/
def Block.enterStep (b : Block) (s k : Nat) : Block :=
  let b := b.wr (PHY_TRAIN_STATUS_STEP s) k
  let b := if k = 4 ∨ k = 10 then b.trainSentence s k else b
  let b := if k = 4 then b.updSub s (fun u => { u with hist := [], chkHist := [], toCheck := [] }) else b
  if k = 7 then b.updTrain s (fun r => { r with temp := toSigned 16 (b.rd (CAL_TEMP_T s)) }) else b

/-- Start a training of one subchannel: tracking freezes (R371), the fail masks clear. -/
def Block.trainBegin (b : Block) (s steps : Nat) (why : TrainWhy) : Block :=
  let run : TrainRun := { steps := steps, why := why, start := b.now, temp := toSigned 16 (b.rd (CAL_TEMP_T s)),
                          found := [], vref := [], snt := none }
  let b := { b with phy := { b.phy with train := b.phy.train.set s (some run) } }
  let b := ((b.wr (PHY_TRAIN_STATUS_STATE s) 2).wr (PHY_TRAIN_STATUS_LANE s) 0xFF).wr (PHY_TRAIN_STATUS_CODE s) 0
  let b := (b.wr (PHY_TRAIN_FAIL_LO_DQ s) 0).wr (PHY_TRAIN_FAIL_HI_DQ s) 0
  let b := ((b.wr (PHY_TRAIN_FAIL_HI_DQS s) 0).wr (PHY_TRAIN_FAIL_HI_CA s) 0).wr (PHY_TRAIN_FAIL_HI_CS s) 0
  let b := (b.wr (PHY_STATUS_TRACK_FROZEN s) 1).wr (PHY_STATUS_TRAINED s) 0
  -- CK runs and the module leaves self-refresh: training issues commands to it
  let b := (b.wr (PHY_STATUS_CK_RUNNING (s / 2 * 2)) 1).wr (PHY_STATUS_CK_RUNNING (s / 2 * 2 + 1)) 1
  let b := b.updSub s (fun u => { u with ckStop := false, selfRef := [], debt := if u.ticking then u.debt else [] })
  b.enterStep s ((nextStep steps 0).getD 10)

/-- The oldest waiting training starts when its subchannels fit under MAX_PAR (R334). A training after alerts waits until
its subchannel is quiesced (R338), that of a speed change until the sentences before it have ended, and every training
until its channel is in A0 (R473), no switch is in progress (R299) and no sentence runs. -/
def Block.trainStart (b : Block) : Block :=
  match b.phy.trainQ with
  | [] => b
  | q :: rest =>
    let running := (b.phy.train.filter (fun e => e.2.isSome)).length
    let ready := (q.why != .alert || q.subs.all b.trainReady)
      && q.subs.all (fun s =>
        let u := b.subs.get s
        b.chState (s / 2) == pwA0 && (b.pwr.target.get (s / 2)).isNone && u.snt.isNone
        && u.switchTo.isNone && (q.why != .speed || u.sntQ.isEmpty))
    if running + q.subs.length ≤ b.maxPar && ready then
      let b := { b with phy := { b.phy with trainQ := rest } }
      (forEach q.subs b (fun b t => b.trainBegin t q.steps q.why)).trainCounts
    else b

/-- TRAINING_START (R334). -/
def execTrainingStart (s : State) : Out := onBlock s Block.trainStart

/-- PHY_TRAIN_CTL.ABORT (R337). -/
def Block.trainAbort (b : Block) (s : Nat) : Block :=
  b.trainFail Block.event s 6 0xFF

/-! ## Measurements (R326 to R328) -/

/-- The longest run of consecutive ones from bit 0 to bit 255: its first and last code; the lowest of equal lengths. -/
def longestRun (m : BitVec 256) : Option (Nat × Nat) :=
  let step (acc : Option (Nat × Nat) × Option Nat) (i : Nat) : Option (Nat × Nat) × Option Nat :=
    if m.getLsbD i then
      let first := acc.2.getD i
      let best := match acc.1 with
        | none => some (first, i)
        | some (x, y) => if y - x < i - first then some (first, i) else some (x, y)
      (best, some first)
    else (acc.1, none)
  ((List.range 256).foldl step (none, none)).1

/-- Width of a span in codes. -/
def spanWidth : Option (Nat × Nat) → Nat
  | none => 0
  | some (x, y) => y - x + 1

/-- The level with the widest passing span, lowest level among equals (R327). -/
def widestLevel (w : Sweep) : Option (Nat × (Nat × Nat)) :=
  w.foldl (fun acc e =>
    match longestRun e.2 with
    | none => acc
    | some r => match acc with
      | none => some (e.1, r)
      | some (l, q) => if spanWidth (some q) < spanWidth (some r) then some (e.1, r) else some (l, q)) none

/-- Phase centre, reference, width and height of a lane (R327). -/
def centre (w : Sweep) : Option (Nat × Nat × Nat × Nat) :=
  match widestLevel w with
  | none => none
  | some (_, (x, y)) =>
    let c := (x + y) / 2
    let levels := (w.filter (fun e => match longestRun e.2 with
      | some (p, q) => decide (p ≤ c) && decide (c ≤ q)
      | none => false)).map (fun e => e.1)
    let lo := levels.foldl min (levels.headD 0)
    let hi := levels.foldl max 0
    some (c, (lo + hi) / 2, y - x + 1, hi - lo)

/-- A lane's result in a step: values found, or a failure code. -/
inductive LaneRes
  | ok (found : List (Fld × Nat))
  | bad (code : Nat)
  deriving DecidableEq, Repr

/-- The controls of a lane: DESKEW of CA, CS and CK lanes by LANE number. -/
def deskewFld (s lane : Nat) : Option Fld :=
  if 50 ≤ lane ∧ lane < 58 then some (PHY_CA_DESKEW s (lane - 50))
  else if 58 ≤ lane ∧ lane < 62 then some (PHY_CS_DESKEW s (lane - 58))
  else if 62 ≤ lane ∧ lane < 64 then some (PHY_CK_DESKEW (s / 2 * 2) (lane - 62))
  else none

/-- Steps 2 and 3: the centre of the passing window of a CS or CA lane. -/
def Block.windowLane (b : Block) (s k lane : Nat) (w : Sweep) : LaneRes :=
  match widestLevel w, deskewFld s lane with
  | some (_, (x, y)), some f =>
    if y - x + 1 < b.phyInit (if k = 2 then 0x08 else 0x0A) 2 then .bad 2
    else if !b.inLimit (if k = 2 then 1 else 0) ((x + y) / 2 : Nat) then .bad 3
    else .ok [(f, (x + y) / 2)]
  | _, _ => .bad 1

/-- Step 5: the 0-to-1 transition nearest the starting value; bit c of row k is the device's sample at 128 × k + c. -/
def Block.levelLane (b : Block) (s lane : Nat) (w : Sweep) : LaneRes :=
  let j := lane - 40
  let at_ (p : Nat) : Bool := match w.find? (fun e => e.1 == p / 128) with
    | some e => e.2.getLsbD (p % 128)
    | none => false
  let start := 128 * b.rd (PHY_DQS_TX_COARSE s j) + b.rd (PHY_DQS_TX_FINE s j)
  let edges := (List.range 4096).filter (fun p => p != 0 && at_ p && !at_ (p - 1))
  let dist (p : Nat) : Nat := (p - start) + (start - p)
  match edges with
  | [] => .bad 1
  | e :: t =>
    let p := t.foldl (fun m q => if dist q < dist m then q else m) e
    if !b.inLimit 3 (p : Nat) then .bad 3
    else .ok [(PHY_DQS_TX_COARSE s j, p / 128), (PHY_DQS_TX_FINE s j, p % 128)]

/-- Step 6: the centre of the preamble's first low half-cycle; bit c of row k tells that the preamble was detected low at
128 × k + c. -/
def gateLane (s lane : Nat) (w : Sweep) : LaneRes :=
  let j := lane - 40
  let at_ (p : Nat) : Bool := match w.find? (fun e => e.1 == p / 128) with
    | some e => e.2.getLsbD (p % 128)
    | none => false
  match (List.range 8192).find? at_ with
  | none => .bad 1
  | some first =>
    let last := match (List.range 8192).find? (fun p => decide (first < p) && !at_ p) with
      | some p => p - 1
      | none => 8191
    let c := (first + last) / 2
    .ok [(PHY_DQS_GATE_COARSE s j, c / 128), (PHY_DQS_GATE_FINE s j, c % 128)]

/-- Step 7: the two-dimensional centre of a DQ lane. -/
def Block.readLane (b : Block) (s lane : Nat) (w : Sweep) : LaneRes :=
  match centre w with
  | none => .bad 1
  | some (c, r, width, height) =>
    if width < b.phyInit 0x0C 2 ∨ height < b.phyInit 0x0E 1 then .bad 2
    else .ok [(PHY_DQ_RX_DESKEW s lane, c), (PHY_DQ_RX_VREF s lane, r)]

/-- Width of a lane's passing span at one reference level. -/
def widthAt (w : Sweep) (level : Nat) : Nat :=
  match w.find? (fun e => e.1 == level) with
  | some e => spanWidth (longestRun e.2)
  | none => 0

/-- Step 8: the device's reference is the level at which the sum of its four widths is greatest (R328); phase centre, width
and height of each lane are those of R327. -/
def Block.writeDevice (b : Block) (s d : Nat) (ws : List (Nat × Sweep)) : List (Nat × LaneRes) × Option (Nat × Nat) :=
  let mine : List (Nat × Sweep) := ws.filter (fun e => e.1 / 4 == d)
  let levels : List Nat := match mine with
    | [] => []
    | e :: _ => e.2.map (fun x => x.1)
  let total (l : Nat) : Nat := mine.foldl (fun n e => n + widthAt e.2 l) 0
  match levels with
  | [] => ([], none)
  | l0 :: rest =>
    let best := rest.foldl (fun m l => if total m < total l then l else m) l0
    let lanes := mine.map (fun e =>
      (e.1, match centre e.2 with
        | none => LaneRes.bad 1
        | some (c, _, width, height) =>
          if width < b.phyInit 0x10 2 ∨ height < b.phyInit 0x12 1 then .bad 2
          else if !b.inLimit 4 (c : Nat) || !b.inLimit 5 (best : Nat) then .bad 3
          else .ok [(PHY_DQ_TX_DESKEW s e.1, c)]))
    (lanes, some (d, best))

/-- Lanes a step measures. -/
def stepLanes : Nat → List Nat
  | 2 => [58, 59, 60, 61]
  | 3 => [50, 51, 52, 53, 54, 55, 56, 57]
  | 5 => (List.range 10).map (· + 40)
  | 6 => (List.range 10).map (· + 40)
  | _ => List.range 40

/-- The sweep of a lane in a measurement. -/
def sweepOf (ws : List (Nat × Sweep)) (lane : Nat) : Sweep :=
  match ws.find? (fun e => e.1 == lane) with
  | some e => e.2
  | none => []

/-- The result of one lane in a swept step; step 8 is judged by device. -/
def Block.laneRes (b : Block) (s k lane : Nat) (w : Sweep) : LaneRes :=
  match k with
  | 2 => b.windowLane s 2 lane w
  | 3 => b.windowLane s 3 lane w
  | 5 => b.levelLane s lane w
  | 6 => gateLane s lane w
  | _ => b.readLane s lane w

/-- What a step came to: values found, device references, or a failure with its code and lanes. -/
structure StepRes where
  found  : List (Fld × Nat) := []
  vref   : List (Nat × Nat) := []
  code   : Nat := 0
  failed : List Nat := []
  deriving DecidableEq, Repr, Inhabited

/-- Gather lane results: the values of the lanes that passed, and the first failing lane's code. -/
def gather (rs : List (Nat × LaneRes)) : StepRes :=
  rs.foldl (fun a e => match e.2 with
    | .ok f => { a with found := a.found ++ f }
    | .bad c => { a with code := if a.failed.isEmpty then c else a.code, failed := a.failed ++ [e.1] }) {}

/-- Preset values from PHY_INIT (R325). -/
def Block.preset (b : Block) (p : Nat) : Nat × Nat :=
  (bitsOf (b.phyInit (0x40 + 2 * p) 2) 3 0, bitsOf (b.phyInit (0x40 + 2 * p) 2) 7 4)

/-- Step 9: taps of each lane, and the preset of the widest write eye (R326), the lowest among equals. -/
def Block.equaliseLane (b : Block) (s lane : Nat) (m : EqMeas) : LaneRes :=
  if m.loose.contains lane then .bad 4
  else
    let taps := match m.taps.find? (fun e => e.1 == lane) with
      | some e => e.2
      | none => []
    let ws := match m.presets.find? (fun e => e.1 == lane) with
      | some e => e.2.take (b.phyInit 0x07 1)
      | none => []
    let best := (List.range ws.length).foldl (fun q i => if ws.getD q 0 < ws.getD i 0 then i else q) 0
    let (pre, post) := b.preset best
    if !b.inLimit 7 (pre : Nat) || !b.inLimit 8 (post : Nat) then .bad 3
    else .ok [(PHY_DFE_TAP1 s lane, ofSigned 6 (taps.getD 0 0)), (PHY_DFE_TAP2 s lane, ofSigned 5 (taps.getD 1 0)),
              (PHY_DFE_TAP3 s lane, ofSigned 5 (taps.getD 2 0)), (PHY_DFE_TAP4 s lane, ofSigned 5 (taps.getD 3 0)),
              (PHY_DQ_FFE_PRE s lane, pre), (PHY_DQ_FFE_POST s lane, post)]

/-- Step 1 may change the CK controls (R336): the channel does not run yet, both subchannels run step 1 in the same training,
which is that of a lockstep pair, or the sibling is fenced, OFF or in self-refresh. -/
def Block.ckFree (b : Block) (s : Nat) : Bool :=
  let t := s / 2 * 2 + (1 - s % 2)
  let starting := match b.phy.train.get s with
    | some r => r.why == .start || r.why == .harbour || r.why == .attach
    | none => false
  starting || b.chLockstep (s / 2) || b.subFenced t || b.chState (s / 2) == pwOFF
  || (b.subRanks t != 0 && decide (b.subRanks t ≤ (b.subs.get t).selfRef.length))

/-- Step 1: duty-cycle codes; a detector at a range end fails. -/
def Block.clockRes (b : Block) (s : Nat) (m : TrainMeas) : StepRes :=
  let use := m.duty.filter (fun e => e.1 < 50 || b.ckFree s)
  gather (use.map (fun e =>
    (e.1, if e.2 ≤ -32 ∨ 31 ≤ e.2 then LaneRes.bad 4
      else if 40 ≤ e.1 ∧ e.1 < 50 then .ok [(PHY_DQS_DCC s (e.1 - 40), ofSigned 6 e.2)]
      else if 62 ≤ e.1 ∧ e.1 < 64 then .ok [(PHY_CK_DCC (s / 2 * 2) (e.1 - 62), ofSigned 6 e.2)]
      else .ok [])))

/-- Outcome of the sentence of the training's step in progress (R326). -/
def Block.trainOutcome (b : Block) (s : Nat) : Nat :=
  match b.phy.train.get s with
  | some r => r.snt.getD 0
  | none => 0

/-- Judge a measurement of step `k` (R326 to R329). -/
def Block.judgeStep (b : Block) (s k : Nat) (m : TrainMeas) : StepRes :=
  match k with
  | 1 =>
    let r := b.clockRes s m
    { r with found := r.found ++ [(PHY_IMP_TRIM s, m.trim)] }
  | 4 => if b.trainOutcome s = 0 then {} else { code := 8 }
  | 10 => if b.trainOutcome s ≠ 0 then { code := 8 } else if m.errors.isEmpty then {} else { code := 5, failed := m.errors }
  | 8 =>
    let judge (ws : List (Nat × Sweep)) := (List.range 10).map (fun d => b.writeDevice s d ws)
    let one := judge m.lanes
    -- a lane measured again stands with the device's other lanes as first measured
    let two := judge (m.again ++ m.lanes.filter (fun e => !m.again.any (fun x => x.1 == e.1)))
    (List.range 10).foldl (fun a d =>
      let x := one.getD d ([], none)
      let r := gather x.1
      let miss := x.2.isNone
      let y := two.getD d ([], none)
      let r2 := gather y.1
      if r.failed.isEmpty && !miss then { a with found := a.found ++ r.found, vref := a.vref ++ x.2.toList }
      else if r2.failed.isEmpty && y.2.isSome then { a with found := a.found ++ r2.found, vref := a.vref ++ y.2.toList }
      else
        let bad := if y.2.isNone then [4 * d] else r2.failed
        { a with code := if a.failed.isEmpty then (if y.2.isNone then 1 else r2.code) else a.code,
                 failed := a.failed ++ bad }) {}
  | 9 => gather ((List.range 40).map (fun l =>
      match b.equaliseLane s l m.eq with
      | .ok f => (l, .ok f)
      | .bad _ => (l, b.equaliseLane s l m.eqAgain)))
  | k =>
    gather ((stepLanes k).map (fun l =>
      match b.laneRes s k l (sweepOf m.lanes l) with
      | .ok f => (l, .ok f)
      | .bad _ => (l, b.laneRes s k l (sweepOf m.again l))))

/-! ## Marking failing lanes -/

/-- PHY_TRAIN_FAIL_LO and _HI for the lanes that failed. -/
def Block.failMask (b : Block) (s : Nat) (lanes : List Nat) : Block :=
  forEach lanes b (fun b l =>
    if l < 32 then b.setBitOf (PHY_TRAIN_FAIL_LO_DQ s) l
    else if l < 40 then b.setBitOf (PHY_TRAIN_FAIL_HI_DQ s) (l - 32)
    else if l < 50 then b.setBitOf (PHY_TRAIN_FAIL_HI_DQS s) (l - 40)
    else if l < 58 then b.setBitOf (PHY_TRAIN_FAIL_HI_CA s) (l - 50)
    else if l < 62 then b.setBitOf (PHY_TRAIN_FAIL_HI_CS s) (l - 58)
    else b)

/-- Mark a subchannel CAL_SUSPECT (R365): `lane` is the failing lane, whose device the event carries. -/
def Block.suspect (b : Block) (s lane : Nat) : Block :=
  if b.on (CAL_STATUS_SUSPECT s) then b
  else
    let dev := if lane < 40 then lane / 4 else if lane < 50 then lane - 40 else 0x1F
    let b := (b.wr (CAL_STATUS_SUSPECT s) 1).intr 15 (b.bit (CAL_CTL_INT_EN s) 0)
    b.event { code := 53, kind := 0, form := 1, addr := locAddr 1 s dev, unit_ := .sub s, sev := none }

end Sys2Proof.Machine
end

