-- ==== Sys2Proof/Machine/Calibration.lean ====
section
/-! DEFINITION. Live calibration (12_live_calibration): controls, measured sets and interpolation, tracking of the receive
and transmit sides, learning, and the records of the sets. -/

namespace Sys2Proof.Machine

open Reg

/-! ## PHY_INIT records (R325) -/

/-- One word of a record: fields shifted to their places. -/
def Block.recWord (b : Block) (fs : List Fld) : List Byte :=
  leBytes 4 (fs.foldl (fun w f => w + (b.rd f <<< f.lo)) 0)

/-- The values in force of a subchannel as a PHY_INIT record (R325). -/
def Block.phyRecord (b : Block) (s : Nat) : List Byte :=
  let a := s / 2 * 2
  padTo 512
    (((List.range 40).map (fun l =>
        b.recWord [PHY_DQ_TX_DESKEW s l, PHY_DQ_RX_DESKEW s l, PHY_DQ_RX_VREF s l, PHY_DQ_FFE_PRE s l, PHY_DQ_FFE_POST s l]
        ++ b.recWord [PHY_DFE_TAP1 s l, PHY_DFE_TAP2 s l, PHY_DFE_TAP3 s l, PHY_DFE_TAP4 s l])).flatten
     ++ ((List.range 10).map (fun j =>
        b.recWord [PHY_DQS_TX_FINE s j, PHY_DQS_TX_COARSE s j, PHY_DQS_GATE_FINE s j, PHY_DQS_GATE_COARSE s j,
          PHY_DQS_DCC s j])).flatten
     ++ ((List.range 8).map (fun k => b.recWord [PHY_CA_DESKEW s k, PHY_CA_EQ s k])).flatten
     ++ ((List.range 4).map (fun k => b.recWord [PHY_CS_DESKEW s k, PHY_CS_EQ s k])).flatten
     ++ ((List.range 2).map (fun k => b.recWord [PHY_CK_DESKEW a k, PHY_CK_DCC a k])).flatten)

/-- Load every field of a PHY_INIT record into the PHY of a subchannel. -/
def Block.loadRecord (b : Block) (s : Nat) (rec_ : List Byte) : Block :=
  let fld (b : Block) (word : Nat) (f : Fld) : Block := b.wr f (bitsOf (leAt rec_ word 4) (f.lo + f.width - 1) f.lo)
  let b := forEach (ctlsOf s) b (fun b c => forEach (ctlOf s c).flds b (fun b f => fld b (ctlOf s c).word f))
  let b := forEach (List.range 40) b (fun b l =>
    fld (fld b (8 * l) (PHY_DQ_FFE_PRE s l)) (8 * l) (PHY_DQ_FFE_POST s l))
  let b := forEach (List.range 8) b (fun b k => fld b (0x168 + 4 * k) (PHY_CA_EQ s k))
  forEach (List.range 4) b (fun b k => fld b (0x188 + 4 * k) (PHY_CS_EQ s k))

/-! ## Measured points (R350) -/

/-- SEGMENT and MEASURED of CAL_TEMP. -/
def Block.calView (b : Block) (s : Nat) : Block :=
  let mask := (b.measured s).foldl (fun m i => m + 2 ^ i) 0
  (b.wr (CAL_TEMP_MEASURED s) mask).wr (CAL_TEMP_SEGMENT s)
    (match (b.bracket s (b.calT s)).1 with
     | some i => i
     | none => 7)

/-- The set of measured points has changed: every residual becomes (value in force) − B′(T) (R350). -/
def Block.rebase (b : Block) (s : Nat) : Block :=
  let t := b.calT s
  let vs := (ctlsOf s).map (fun c => (c, b.inForce s c - b.base s c t))
  (forEach vs b (fun b e => b.setResid s e.1 e.2)).calView s

/-! ## Records (R366 to R370) -/

/-- MAGIC of a calibration record. -/
def calMagic : Nat := 0x53434641

/-- NVM offset of copy `k` of point `i` of subchannel `s`. -/
def calOff (s i k : Nat) : Nat := ((5 * s + i) * 2 + k) * 0x800

/-- Serial numbers of a channel's modules, as a record carries them; 0 for a position without a module. -/
def Block.calSerial (b : Block) (n : Nat) : Nat :=
  let of_ (d : Nat) : Nat := if d < b.chDimms n then (b.mod.ledger.get (2 * n + d)).serial else 0
  of_ 0 + 2 ^ 32 * of_ 1

/-- The bytes of a record: STATE 1 with a set, STATE 0 without. -/
def calBytes (s i seq : Nat) (x : Option CalSet) : List Byte :=
  let head := leBytes 4 calMagic ++ leBytes 4 seq ++ leBytes 1 s ++ leBytes 1 i
  match x with
  | none => withCrc 2048 head
  | some x => withCrc 2048 (head ++ leBytes 1 1 ++ leBytes 1 x.origin ++ leBytes 2 x.rate ++ leBytes 2 (ofSigned 16 x.point)
      ++ leBytes 2 (ofSigned 16 x.temp) ++ leBytes 6 0 ++ leBytes 8 x.serial ++ leBytes 8 x.time ++ List.replicate 24 0
      ++ padTo 512 x.phy ++ padTo 80 x.vrefDq ++ padTo 8 x.vrefCa ++ padTo 160 x.osc)

/-- The set a record holds. -/
def calSetOf (bs : List Byte) : CalSet :=
  { phy := (bs.drop 0x40).take 512, vrefDq := (bs.drop 0x240).take 80, vrefCa := (bs.drop 0x290).take 8,
    osc := (bs.drop 0x298).take 160, origin := leAt bs 0x0B 1, rate := leAt bs 0x0C 2,
    point := toSigned 16 (leAt bs 0x0E 2), temp := toSigned 16 (leAt bs 0x10 2), serial := leAt bs 0x18 8,
    time := leAt bs 0x20 8 }

/-- Store the set of a point: at once, or again when its running store ends (R368). -/
def Block.calStore (b : Block) (s i : Nat) : Block :=
  let key := 8 * s + i
  if b.storing key then { b with cal := { b.cal with again := b.cal.again.set key true } }
  else
    let (off, seq) := b.nextCopy calMagic (calOff s i 0) (calOff s i 1) 2048
    b.storeBegin key off (calBytes s i seq (b.cal.sets.get key))

/-- Store a copy of a point with STATE 0. -/
def Block.calClearCopy (b : Block) (s i : Nat) : Block :=
  let (off, seq) := b.nextCopy calMagic (calOff s i 0) (calOff s i 1) 2048
  b.storeBegin (8 * s + i) off (calBytes s i seq none)

/-- RESET's stores: both copies of every point with STATE 0, one store of a point at a time (R368). -/
def Block.calClearStores (b : Block) (s : Nat) : Block :=
  forEach (List.range 5) b (fun b i =>
    let b := b.calClearCopy s i
    { b with cal := { b.cal with other := b.cal.other.set (8 * s + i) (b.storing (8 * s + i)) } })

/-- Every set of a subchannel becomes EMPTY (R354). -/
def Block.calEmpty (b : Block) (s : Nat) : Block :=
  let b := { b with cal := { b.cal with sets := b.cal.sets.filter (fun e => e.1 / 8 != s),
                                        again := b.cal.again.filter (fun e => e.1 / 8 != s) } }
  b.rebase s

/-- A store of a point of the subchannel runs. -/
def Block.calStoring (b : Block) (s : Nat) : Bool := (List.range 5).any (fun i => b.storing (8 * s + i))

/-- CAL_CTL.RESET (R368): at once, or when running stores end. -/
def Block.calReset (b : Block) (s : Nat) : Block :=
  if b.calStoring s then { b with cal := { b.cal with resetWait := b.cal.resetWait.set s true } }
  else (b.calEmpty s).calClearStores s

/-- A point learnt again while its store ran is stored once more (R368), not while the subchannel is CAL_SUSPECT (R365). -/
def Block.calStoreAgain (b : Block) (s i : Nat) : Block :=
  let key := 8 * s + i
  if b.cal.again.get key && !b.storing key && !b.on (CAL_STATUS_SUSPECT s) then
    ({ b with cal := { b.cal with again := b.cal.again.set key false } }).calStore s i
  else b

/-- SUSPECT is cleared (R365); the stores it held begin. -/
def Block.unsuspect (b : Block) (s : Nat) : Block :=
  forEach (List.range 5) (b.wr (CAL_STATUS_SUSPECT s) 0) (fun b i => b.calStoreAgain s i)

/-- A record store of point `i` ends; what waits on it follows (R368). -/
def Block.calStoreDone (b : Block) (s i : Nat) : Block :=
  let key := 8 * s + i
  if !b.storing key then b
  else
    let b := b.storeEnd key
    if b.cal.other.get key then
      ({ b with cal := { b.cal with other := b.cal.other.set key false } }).calClearCopy s i
    else if b.cal.resetWait.get s then
      if b.calStoring s then b
      else
        let b := { b with cal := { b.cal with resetWait := b.cal.resetWait.set s false } }
        (b.calEmpty s).calClearStores s
    else b.calStoreAgain s i

/-- CAL_STORE_DONE (R368). -/
def execCalStoreDone (i : Fin 32) (p : Fin 5) (s : State) : Out := onBlock s (fun b => b.calStoreDone i p)

/-- The set in force of a subchannel. -/
def Block.currentSet (b : Block) (s i origin : Nat) (t : Int) : CalSet :=
  { phy := b.phyRecord s
    vrefDq := (List.range 80).map (fun k => BitVec.ofNat 8 (b.phy.vrefDq.get (128 * s + k)))
    vrefCa := (List.range 8).map (fun r => BitVec.ofNat 8 (b.phy.vrefCa.get (8 * s + r)))
    osc := ((List.range 80).map (fun k => leBytes 2 (b.cal.oscBase.get (128 * s + k)))).flatten
    origin := origin, rate := b.rd (PHY_STATUS_RATE s), point := b.pointTemp i, temp := t, serial := b.calSerial (s / 2),
    time := b.now }

/-- Point `i` becomes MEASURED with the values in force, is stored, and the residuals are rebased (R352, R354). In
harbour mode no point is learnt and no set is stored (R501). -/
def Block.learn (b : Block) (s i origin : Nat) (t : Int) : Block :=
  if b.harbour then b
  else
    let b := { b with cal := { b.cal with sets := b.cal.sets.set (8 * s + i) (some (b.currentSet s i origin t)) } }
    let b := if origin = 0 then (b.wr (CAL_STATUS_POINT_LEARNT s) 1).intr 15 (b.bit (CAL_CTL_INT_EN s) 3) else b
    (b.rebase s).calStore s i

/-- The base at the current T as a loaded value of every control, with what the controls do not cover from the lowest
measured set. -/
def Block.calLoadBase (b : Block) (s : Nat) : Block :=
  match b.measured s with
  | [] => b.loadRecord s ((b.sec tyPhyInit 0).drop (0x100 + 512 * s) |>.take 512)
  | i :: _ =>
    let b := match b.cal.sets.get (8 * s + i) with
      | some x =>
        let b := b.loadRecord s x.phy
        { b with
          phy := { b.phy with
            vrefDq := forEach (List.range 80) b.phy.vrefDq (fun t k => t.set (128 * s + k) (x.vrefDq.getD k 0).toNat)
            vrefCa := forEach (List.range 8) b.phy.vrefCa (fun t k => t.set (8 * s + k) (x.vrefCa.getD k 0).toNat) }
          cal := { b.cal with
            oscBase := forEach (List.range 80) b.cal.oscBase (fun t k => t.set (128 * s + k) (leAt x.osc (2 * k) 2)) } }
      | none => b
    let b := { b with cal := { b.cal with resid := b.cal.resid.filter (fun e => e.1 / 512 != s) } }
    b.jump s

/-- Start's reading of the records of a subchannel (R369, R370). -/
def Block.calLoad (b : Block) (s : Nat) : Block :=
  let b := forEach (List.range 5) b (fun b i =>
    let x := b.nvmBytes (calOff s i 0) 2048
    let y := b.nvmBytes (calOff s i 1) 2048
    let bad := (if recValid calMagic x then 0 else 1) + (if recValid calMagic y then 0 else 1)
    let b := b.addSat (CAL_NVM_BAD_CNT_CNT s) bad
    let b := if bad = 0 then b else b.wr (CAL_STATUS_NVM_ERR s) 1
    let set := match b.newerCopy calMagic (calOff s i 0) (calOff s i 1) 2048 with
      | none => none
      | some (_, bs) =>
        let c := calSetOf bs
        if leAt bs 0x0A 1 = 1 ∧ c.rate = b.rd (PHY_STATUS_RATE s) ∧ c.point = b.pointTemp i
            ∧ c.serial = b.calSerial (s / 2) then some c else none
    { b with cal := { b.cal with sets := b.cal.sets.set (8 * s + i) set } })
  let b := b.calLoadBase s
  let vs := (ctlsOf s).map (fun c => (512 * s + c, b.inForce s c))
  ({ b with cal := { b.cal with
      left := forEach vs b.cal.left (fun t e => t.set e.1 e.2)
      resid := b.cal.resid.filter (fun e => e.1 / 512 != s) } }).calView s

/-! ## The end of a passing training (R331, R354, R361) -/

/-- The values found are the measured set at the training's temperature. -/
def Block.calTrained (b : Block) (s : Nat) (t : Int) (osc : List (Nat × Nat)) : Block :=
  let b := { b with cal := { b.cal with
    oscBase := forEach osc b.cal.oscBase (fun m e => m.set (128 * s + e.1) e.2)
    oscAdj := b.cal.oscAdj.filter (fun e => e.1 / 16 != s) } }
  let b := b.unsuspect s
  let vs := (ctlsOf s).map (fun c => (512 * s + c, b.inForce s c))
  let b := { b with cal := { b.cal with left := forEach vs b.cal.left (fun m e => m.set e.1 e.2) } }
  let b := b.rebase s
  match (List.range 5).find? (fun i =>
      let d := t - b.pointTemp i
      decide (d ≤ b.calCapture) && decide (-d ≤ b.calCapture) && b.hasSec tyCalPoints 0) with
  | some i => b.learn s i 1 t
  | none => b

/-! ## Tracking (R348, R352, R353) -/

/-- TRACKING_INTERVAL (R348): every control moves at most one code toward its target. -/
def Block.trackStep (b : Block) (s : Nat) : Block :=
  if b.on (PHY_STATUS_TRACK_FROZEN s) then b
  else
    let vs := (ctlsOf s).map (fun c => (c, b.inForce s c, b.target s c))
    forEach vs b (fun b e =>
      if e.2.1 < e.2.2 then b.force s e.1 (e.2.1 + 1)
      else if e.2.2 < e.2.1 then b.force s e.1 (e.2.1 - 1) else b)

/-- TRACKING_INTERVAL (R348). -/
def execTrackingInterval (i : Fin 32) (s : State) : Out := onBlock s (fun b => b.trackStep i)

/-- A lane's tracking state. -/
def Block.lane (b : Block) (s l : Nat) : LaneCal := b.cal.lanes.get (64 * s + l)

/-- Change a lane's tracking state. -/
def Block.updLane (b : Block) (s l : Nat) (f : LaneCal → LaneCal) : Block :=
  { b with cal := { b.cal with lanes := b.cal.lanes.upd (64 * s + l) f } }

/-- The calibration part of a housekeeping round: T first, then learning (R346, R352, R353). `t` is none while the zone's
sensor is broken. -/
def Block.calRound (b : Block) (s : Nat) (t : Option Int) : Block :=
  let b := match t with
    | some t => (b.wr (CAL_TEMP_T s) (ofSigned 16 t)).wr (CAL_TEMP_HELD s) 0
    | none => b.wr (CAL_TEMP_HELD s) 1
  let b := b.calView s
  if !b.hasSec tyCalPoints 0 then b
  else
    let t := b.calT s
    let cap := b.calCapture
    let b := { b with cal := { b.cal with band := forEach (List.range 5) b.cal.band (fun m i =>
      let d := t - b.pointTemp i
      if d ≤ cap ∧ -d ≤ cap then m.upd (8 * s + i) (fun n => min 255 (n + 1)) else m.set (8 * s + i) 0) } }
    let settled := (List.range 40).all (fun l => b.on (CAL_EDGE_CONV s l) && !(b.lane s l).aged)
    -- nothing is learnt while live tracking is frozen: values written then are stored in no set (R344)
    let ready := settled && b.on (CAL_CTL_LEARN s) && !b.on (CAL_STATUS_SUSPECT s) && !b.on (PHY_STATUS_TRACK_FROZEN s)
    let moved := (ctlsOf s).any (fun c => decide (b.calRelearn ≤ (b.resid s c).natAbs))
    match (List.range 5).find? (fun i =>
        decide (b.calRounds ≤ b.cal.band.get (8 * s + i)) && b.cal.band.get (8 * s + i) != 0
        && ready && ((b.cal.sets.get (8 * s + i)).isNone || moved)) with
    | some i => b.learn s i 0 t
    | none => b

/-! ## Receive windows (R355 to R358) -/

/-- The four receive trackers: field, outward direction, lowest and highest offset. -/
def edgeTrackers (s l : Nat) : List (Fld × Int × Int × Int) :=
  [(CAL_EDGE_LEFT s l, -1, -64, 63), (CAL_EDGE_RIGHT s l, 1, -64, 63), (CAL_EDGE_UP s l, 1, -32, 31),
   (CAL_EDGE_DOWN s l, -1, -32, 31)]

/-- Offset of a receive tracker. -/
def Block.edge (b : Block) (f : Fld) : Int := toSigned f.width (b.rd f)

/-- The sign of a value. -/
def signOf (v : Int) : Int := if 0 < v then 1 else if v < 0 then -1 else 0

/-- Shift the two trackers of an axis after a residual step. -/
def Block.shiftEdges (b : Block) (fs : List Fld) (lo hi d : Int) : Block :=
  forEach fs b (fun b f => b.wr f (ofSigned f.width (clampInt lo hi (b.edge f + d))))

/-- A tracking step of a control's residual; it is counted. -/
def Block.stepResid (b : Block) (s c : Nat) (d : Int) : Block :=
  (b.setResid s c (b.resid s c + d)).bump (CAL_STEP_CNT_CNT s)

/-- A receive window of a lane completes (R356): the disagreement counts of its four probes, in the order LEFT, RIGHT, UP,
DOWN, and the tap estimates. -/
def Block.window (b : Block) (s l : Nat) (ds : List Nat) (taps : List Int) : Block :=
  if b.on (PHY_STATUS_TRACK_FROZEN s) || !b.on (CAL_CTL_RX_TRACK s) then b
  else
    let thresh := b.rd (CAL_WIN_THRESH s)
    let ts := edgeTrackers s l
    let b := forEach (List.range 4) b (fun b t =>
      match ts[t]? with
      | some (f, dir, lo, hi) =>
        let inside := decide (thresh ≤ ds.getD t 0)
        let b := b.wr f (ofSigned f.width (clampInt lo hi (b.edge f + (if inside then -dir else dir))))
        b.updLane s l (fun q => { q with seen := q.seen ||| (1 <<< (2 * t + (if inside then 0 else 1))) })
      | none => b)
    let b := b.updLane s l (fun q => { q with aged := false })
    let conv := (b.lane s l).seen % 256 == 255
    let b := b.wrB (CAL_EDGE_CONV s l) conv
    let w : Win := { ph2 := b.edge (CAL_EDGE_LEFT s l) + b.edge (CAL_EDGE_RIGHT s l)
                     vr2 := b.edge (CAL_EDGE_UP s l) + b.edge (CAL_EDGE_DOWN s l), taps := taps }
    match (b.lane s l).prev with
    | none => b.updLane s l (fun q => { q with prev := some w })
    | some p =>
      if !conv then b.updLane s l (fun q => { q with prev := some w })
      else if 4 < (w.ph2 - p.ph2).natAbs ∨ 2 < (w.vr2 - p.vr2).natAbs
          ∨ (List.range 4).any (fun k => decide (1 < (w.taps.getD k 0 - p.taps.getD k 0).natAbs)) then
        let b := (b.bump (CAL_DISAGREE_CNT_CNT s)).wr (CAL_STATUS_DISAGREE s) 1
        let b := b.intr 15 (b.bit (CAL_CTL_INT_EN s) 1)
        let n := (b.lane s l).fails + 1
        let b := b.updLane s l (fun q => { q with prev := some w, fails := if n = 64 then 0 else n })
        if n = 64 then b.event { code := 54, kind := 0, form := 1, addr := locAddr 1 s (l / 4), unit_ := .sub s, sev := none }
        else b
      else
        let mph := (w.ph2 + p.ph2).tdiv 4
        let mvr := (w.vr2 + p.vr2).tdiv 4
        let b := if mph = 0 then b
          else (b.stepResid s (7 * l + 1) (signOf mph)).shiftEdges [CAL_EDGE_LEFT s l, CAL_EDGE_RIGHT s l] (-64) 63 (-signOf mph)
        let b := if mvr = 0 then b
          else (b.stepResid s (7 * l + 2) (signOf mvr)).shiftEdges [CAL_EDGE_UP s l, CAL_EDGE_DOWN s l] (-32) 31 (-signOf mvr)
        let b := forEach (List.range 4) b (fun b k =>
          let x := w.taps.getD k 0
          if x = p.taps.getD k 0 ∧ x ≠ 0 then b.stepResid s (7 * l + 3 + k) x else b)
        b.updLane s l (fun q => { q with prev := none, fails := 0 })

/-- RECEIVE_WINDOW_DONE (R356): `taps` code the four sign-sign estimates, 0 for −1, 1 for 0, 2 for +1. -/
def execReceiveWindowDone (i : Fin 32) (lane : Fin 40) (d0 d1 d2 d3 : Nat) (t1 t2 t3 t4 : Fin 3) (s : State) : Out :=
  onBlock s (fun b => b.window i lane [d0, d1, d2, d3] ([t1, t2, t3, t4].map (fun x => (x.val : Int) - 1)))

/-- WINDOW_AGE_EXPIRY (R358). -/
def Block.windowAged (b : Block) (s l : Nat) : Block :=
  if b.on (PHY_STATUS_TRACK_FROZEN s) then b
  else
    let b := b.updLane s l (fun q => { q with prev := none, aged := true })
    (b.wr (CAL_STATUS_STARVED s) 1).intr 15 (b.bit (CAL_CTL_INT_EN s) 2)

/-- WINDOW_AGE_EXPIRY (R358). -/
def execWindowAgeExpiry (i : Fin 32) (lane : Fin 40) (s : State) : Out := onBlock s (fun b => b.windowAged i lane)

/-! ## The write side (R360 to R364) -/

/-- A request of this purpose waits or runs: runs missed meanwhile are not made up (R360). -/
def Block.sntPending (b : Block) (s : Nat) (p : Purpose) : Bool :=
  let u := b.subs.get s
  u.sntQ.any (fun r => r.why == p) || (match u.snt with
    | some r => r.req.why == p
    | none => false)

/-- The Keeper's periodic oscillator or probe sentence is due; none is requested in S1 or S2 (R473). -/
def Block.writeSideDue (b : Block) (s : Nat) (p : Purpose) : Block :=
  let st := b.chState (s / 2)
  if !b.on (CAL_CTL_WR_TRACK s) || b.sntPending s p || st == pwS1 || st == pwS2 then b else b.keeperRequest s p false

/-- OSCILLATOR_RUN_DUE (R360). -/
def execOscillatorRunDue (i : Fin 32) (s : State) : Out := onBlock s (fun b => b.writeSideDue i .osc)

/-- WRITE_PROBE_DUE (R360). -/
def execWriteProbeDue (i : Fin 32) (s : State) : Out := onBlock s (fun b => b.writeSideDue i .probe)

/-- A step of TX_DESKEW of a lane stays within its plausible limit (R364). -/
def Block.txPlausible (b : Block) (s l : Nat) (d : Int) : Bool :=
  let k := ctlOf s (7 * l)
  b.inLimit 4 (clampInt k.lo k.hi (b.base s (7 * l) (b.calT s) + b.resid s (7 * l) + d))

/-- A transmit step of TX_DESKEW of a lane, checked against its plausible limit (R364). -/
def Block.txStep (b : Block) (s l : Nat) (d : Int) : Block :=
  if b.txPlausible s l d then b.stepResid s (7 * l) d
  else (((b.wr (CAL_STATUS_LIMIT_HIT s) 1)).suspect s l)

/-- An oscillator run's counts, keyed rank × 10 + device (R361). -/
def Block.oscResult (b : Block) (s : Nat) (counts : List (Nat × Nat)) : Block :=
  if b.on (PHY_STATUS_TRACK_FROZEN s) then b
  else
    forEach (List.range 10) b (fun b d =>
      let mine := counts.filter (fun e => e.1 % 10 == d)
      if mine.isEmpty then b
      else
        let sum := mine.foldl (fun (n : Int) e =>
          n + Config.oscDelay e.2 (b.cal.oscBase.get (128 * s + e.1)) (b.rd (PHY_STATUS_RATE s))) 0
        let have_ := b.cal.oscAdj.get (16 * s + d)
        -- the average over the ranks against the correction applied: one code or more moves it one code
        let diff := sum - 65536 * mine.length * have_
        let step := if 65536 * mine.length ≤ diff.natAbs then signOf diff else 0
        if step = 0 then b
        else
          -- the correction counts as applied where a lane takes it
          let b := if (List.range 4).any (fun q => b.txPlausible s (4 * d + q) step) then
              { b with cal := { b.cal with oscAdj := b.cal.oscAdj.set (16 * s + d) (have_ + step) } }
            else b
          forEach (List.range 4) b (fun b q => b.txStep s (4 * d + q) step))

/-- OSCILLATOR_RESULT (R361). -/
def execOscillatorResult (i : Fin 32) (counts : List (Nat × Nat)) (s : State) : Out :=
  onBlock s (fun b => b.oscResult i counts)

/-- A write probe's read-backs (R362, R363): the lanes with errors at the LEFT tracker, at the RIGHT one and at offset 0. -/
def Block.probeResult (b : Block) (s : Nat) (left right mid : BitVec 40) : Block :=
  if left = BitVec.allOnes 40 ∧ right = BitVec.allOnes 40 ∧ mid = BitVec.allOnes 40 then
    (b.wr (CAL_STATUS_CA_MARGIN s) 1).suspect s 0xFF
  else if b.on (PHY_STATUS_TRACK_FROZEN s) then b
  else
    forEach (List.range 40) b (fun b l =>
      let eL := left.getLsbD l
      let eR := right.getLsbD l
      let b := b.updLane s l (fun q => { q with
        txL := q.txL + (if eL then 1 else -1), txR := q.txR + (if eR then -1 else 1)
        seen := q.seen ||| (1 <<< (8 + (if eL then 0 else 1))) ||| (1 <<< (10 + (if eR then 0 else 1))) })
      let q := b.lane s l
      let m := q.txL + q.txR
      if q.seen / 256 = 15 ∧ 2 ≤ m.natAbs then b.txStep s l (signOf m) else b)

/-- WRITE_PROBE_RESULT (R362). -/
def execWriteProbeResult (i : Fin 32) (left right mid : BitVec 40) (s : State) : Out :=
  onBlock s (fun b => b.probeResult i left right mid)

/-! ## PHY actions on tracking (R340, R371) -/

/-- TRACK_FREEZE. -/
def Block.trackFreeze (b : Block) (s : Nat) : Block :=
  if b.phyPending s 2 then
    (forEach (b.pair s) b (fun b t => b.wr (PHY_STATUS_TRACK_FROZEN t) 1)).stepEnded s
  else b

/-- TRACK_RESUME: the value in force jumps to the target and the trackers restart. -/
def Block.trackResume (b : Block) (s : Nat) : Block :=
  if b.phyPending s 3 then
    (forEach (b.pair s) b Block.trackJump).stepEnded s
  else b

/-- TRACK_FREEZE (R340). -/
def execTrackFreeze (i : Fin 32) (s : State) : Out := onBlock s (fun b => b.trackFreeze i)

/-- TRACK_RESUME (R340). -/
def execTrackResume (i : Fin 32) (s : State) : Out := onBlock s (fun b => b.trackResume i)

end Sys2Proof.Machine
end

