-- ==== Sys2Proof/Machine/Lights.lean ====
section
/-! DEFINITION. The light list (R42 to R61) but for the verbs' actions: the legality check, commits, the counting of
occurrences, on-times; and the disciplined local time (R28 to R37). -/

namespace Sys2Proof.Machine

open Reg

/-! ## Entries -/

/-- One light entry as its words give it. -/
structure LightEnt where
  start  : Nat
  period : Nat
  on     : Nat
  phase  : Nat
  count  : Nat
  enable : Bool
  unit_  : Nat
  verb   : Nat
  target : Nat
  arg    : Nat
  deriving DecidableEq, Repr, Inhabited

/-- Entry `i` read through a table of fields (the shadow, the working copy or a snapshot). -/
def lightEnt (t : Tab Nat) (i : Nat) : LightEnt :=
  { start := fldGet t (LGT_START_LO_START i) + 2 ^ 32 * fldGet t (LGT_START_HI_START i)
    period := fldGet t (LGT_PERIOD_PERIOD i), on := fldGet t (LGT_ON_ON i), phase := fldGet t (LGT_PHASE_PHASE i)
    count := fldGet t (LGT_CTL_COUNT i), enable := fldGet t (LGT_CTL_ENABLE i) != 0, unit_ := fldGet t (LGT_CTL_UNIT i)
    verb := fldGet t (LGT_CTL_VERB i), target := fldGet t (LGT_TARGET_TARGET i), arg := fldGet t (LGT_ARG_ARG i) }

/-- Length of the entry's unit in ns. -/
def LightEnt.unitNs (e : LightEnt) : Nat := if e.unit_ = 0 then 16 else 1000000
/-- PERIOD in ns. -/
def LightEnt.periodNs (e : LightEnt) : Nat := e.period * e.unitNs
/-- PHASE in ns. -/
def LightEnt.phaseNs (e : LightEnt) : Nat := e.phase * e.unitNs
/-- ON in ns. -/
def LightEnt.onNs (e : LightEnt) : Nat := e.on * 16
/-- Instant of occurrence `k`. -/
def LightEnt.instant (e : LightEnt) (k : Nat) : Nat := e.start + k * e.periodNs + e.phaseNs
/-- First occurrence at or after an instant. -/
def LightEnt.firstFrom (e : LightEnt) (t : Nat) : Nat :=
  if t ≤ e.instant 0 ∨ e.periodNs = 0 then 0 else ceilDiv (t - e.instant 0) e.periodNs
/-- The entry takes part in firing. -/
def LightEnt.armed (e : LightEnt) : Bool := e.enable && e.verb != 0

/-- A windowed verb. -/
def verbWindowed (v : Nat) : Bool := v == 1 || v == 2 || v == 7

/-- The working entry `i`. -/
def Block.lightW (b : Block) (i : Nat) : LightEnt := lightEnt b.work i

/-! ## Legality (R43, R55) -/

/-- What a subchannel's refresh gives the check: the data rate, tREFI in halves of an nCK, P, Q, and REF_SLOT in nCK. -/
structure RefPar where
  rate   : Nat
  halves : Nat
  p      : Nat
  q      : Nat
  slot   : Nat
  deriving DecidableEq, Repr, Inhabited

/-- Refresh parameters a subchannel uses now. -/
def Block.refPar (b : Block) (s : Nat) : Option RefPar :=
  let text := b.activeSet s
  if text.isEmpty then none
  else some ⟨b.rate s, b.trefiHalves s, b.rd (SCH_REF_PARAM_P s), b.rd (SCH_REF_PARAM_Q s), leAt text 8 2⟩

/-- REFRESH_LIMIT holds for a target (R55), in exact arithmetic: an nCK is 2000 ÷ rate ns. -/
def RefPar.ok (r : RefPar) (e : LightEnt) : Bool :=
  decide (e.periodNs * r.rate ≤ (r.p + r.q) * r.halves * 1000)
  && decide (refTicks r.rate r.halves e.periodNs * r.slot * 2000 ≤ e.onNs * r.rate)

/-- Lowest code an enabled entry of a verb fails, 0 for none. `lower` are the enabled entries of lower index. -/
def LightEnt.code (e : LightEnt) (par : Nat → Option RefPar) (harbour : Bool) (lower : List LightEnt) : Nat :=
  let win := verbWindowed e.verb || (e.verb == 6 && e.on != 0)
  let inst := decide (3 ≤ e.verb ∧ e.verb ≤ 5) || e.verb == 8
  if 9 ≤ e.verb then 1
  else if e.start % 16 ≠ 0 ∨ e.period = 0 ∨ e.periodNs < e.phaseNs + e.onNs ∨ (inst ∧ e.on ≠ 0)
      ∨ (verbWindowed e.verb ∧ e.on = 0) then 2
  else if (match e.verb with
      | 3 => decide (8 ≤ e.target)
      | 4 => e.target == 0 || decide (2 ^ 16 ≤ e.target)
      | 6 => (e.target == 0 && e.arg != 4) || decide (2 ^ 16 ≤ e.target)
      | 5 => e.target != 0
      | 8 => e.target != 0
      | _ => e.target == 0) then 3
  else if (match e.verb with
      | 2 => e.arg == 0 || decide (16 ≤ e.arg)
      | 6 => e.arg == 0 || decide (5 ≤ e.arg) || (e.arg == 4 && win)
      | 8 => false
      | _ => e.arg != 0) then 4
  else if e.verb = 1 ∧ (List.range 32).any (fun s => bitOf e.target s && (match par s with
      | some r => !r.ok e
      | none => false)) then 5
  else if e.verb = 1 ∧ lower.any (fun x => x.verb == 1 && (x.target &&& e.target) != 0) then 6
  else if e.verb = 5 ∧ (harbour ∨ lower.any (fun x => x.verb == 5)) then 7
  else if e.verb = 2 ∧ (e.periodNs < 2 * e.onNs ∨ 10000000 < e.onNs) then 8
  else if e.verb = 7 ∧ (100000000 < e.periodNs ∨ e.onNs < 1000) then 9
  else 0

/-- The result of a check over all entries: CODE and INDEX (R43). -/
def lightJudge (t : Tab Nat) (par : Nat → Option RefPar) (harbour reguOn : Bool) : Nat × Nat :=
  let ents := (List.range 64).map (fun i => (i, lightEnt t i))
  let on := ents.filter (fun e => e.2.armed)
  match on.find? (fun e => e.2.code par harbour ((on.filter (fun x => decide (x.1 < e.1))).map (fun x => x.2)) != 0) with
  | some e => (e.2.code par harbour ((on.filter (fun x => decide (x.1 < e.1))).map (fun x => x.2)), e.1)
  | none => if reguOn && !(on.any (fun e => e.2.verb == 5)) then (7, 0x3F) else (0, 0x3F)

/-! ## Counting occurrences (R45, R50) -/

/-- `n` occurrences of an entry are used up: REMAIN and DONE. -/
def Block.lightUse (b : Block) (i n : Nat) : Block :=
  let b := { b with lights := b.lights.upd i (fun l => { l with next := l.next + n }) }
  if b.wk (LGT_CTL_COUNT i) = 0 then b
  else
    let left := b.rd (LGT_STATUS_REMAIN i) - n
    let b := b.wr (LGT_STATUS_REMAIN i) left
    if left = 0 then b.wr (LGT_STATUS_DONE i) 1 else b

/-- `n` occurrences are skipped. -/
def Block.lightSkip (b : Block) (i n : Nat) : Block :=
  if n = 0 then b else (b.addSat (LGT_STATUS_SKIP i) n).lightUse i n

/-- Restart an entry at an instant (R45, R53): earlier occurrences are skipped. In ACQUIRE nothing is counted (R52). -/
def Block.lightRestart (b : Block) (i t : Nat) : Block :=
  let e := b.lightW i
  let b := { b with lights := b.lights.set i default }
  let b := (b.wr (LGT_STATUS_DONE i) 0).wr (LGT_STATUS_REMAIN i) (if e.armed then e.count else 0)
  if e.armed && b.timState != timAcquire then
    let k := e.firstFrom t
    b.lightSkip i (if e.count = 0 then k else min k e.count)
  else b

/-- Subchannels that a refresh window of `before` held and none holds now run their ticks freely from now (R270). -/
def Block.freeRun (before b : Block) : Block :=
  forEach (List.range 32) b (fun b s =>
    if (before.refWindow s).isSome && (b.refWindow s).isNone then
      b.updSub s (fun u => { u with tickAt := b.now, tickLen := 0 })
    else b)

/-- The channels a POWER entry acts on: those of its TARGET that are neither fenced nor OFF (R54). -/
def Block.lightChans (b : Block) (e : LightEnt) : List Nat :=
  (List.range 16).filter (fun n => bitOf e.target n && !b.chLightless n)

/-- The end of an on-time (R46, R50): a windowed POWER requests A0 of its channels; a refusal sets BREACH (R60). -/
def Block.lightEnd (b : Block) (i : Nat) : Block :=
  if b.lightActive i then
    let e := b.lightW i
    let b := b.wr (LGT_STATUS_ACTIVE i) 0
    let chans := b.lightChans e
    if e.verb ≠ 6 ∨ chans = [] then b
    else if b.pwrCode 0 (maskOf chans) ≠ 0 then b.wr (LGT_STATUS_BREACH i) 1
    else forEach chans b Block.wake
  else b

/-! ## Commits (R43 to R47) -/

/-- Keys of the words of the light list. -/
def isLightKey (k : Nat) : Bool := decide (0x61000 ≤ k / 32) && decide (k / 32 < 0x61800)

/-- LGT_COMMIT.GO (R43, R44, R204): the shadow is taken as it stands; the check waits for a running regulator check. -/
def Block.lightGo (b : Block) : Block :=
  if b.on LGT_COMMIT_STATUS_BUSY then b
  else
    ({ b with lgtSnap := b.regs.filter (fun e => isLightKey e.1), lgtRun := !b.regu.running }).wr LGT_COMMIT_STATUS_BUSY 1

/-- Put a checked list into the working entries (R45, R46): changed or newly enabled entries restart. -/
def Block.lightTake (b : Block) (t : Tab Nat) : Block :=
  let changed := (List.range 64).filter (fun i => lightEnt t i != b.lightW i)
  let b := forEach changed b (fun b i => b.lightEnd i)
  let b := { b with work := b.work.overlay t isLightKey }
  forEach changed b (fun b i => b.lightRestart i b.now)

/-- The light-list check ends (R43). A regulator check that waited behind it starts (R204). -/
def Block.lightDone (b : Block) : Block :=
  if b.on LGT_COMMIT_STATUS_BUSY && b.lgtRun then
    let regulating := b.wk REGU_CTL_ENABLE != 0
      || (b.on REGU_COMMIT_STATUS_PENDING && fldGet b.regu.pend REGU_CTL_ENABLE != 0)
    let (code, idx) := lightJudge b.lgtSnap b.refPar b.harbour regulating
    let t := b.lgtSnap
    let b := ((b.wr LGT_COMMIT_STATUS_BUSY 0).wr LGT_COMMIT_STATUS_CODE code).wr LGT_COMMIT_STATUS_INDEX idx
    let b := { b with lgtRun := false, lgtSnap := [] }
    let b := if code = 0 then b.lightTake t else b
    if b.on REGU_COMMIT_STATUS_BUSY then { b with regu := { b.regu with running := true } } else b
  else b

/-- LIGHT_COMMIT_DONE (R43). -/
def execLightCommitDone (s : State) : Out := onBlock s (fun b => Block.freeRun b b.lightDone)

/-! ## Lists in sections (R42, R76, R91) -/

/-- The fields of entry `i` and the place of each in a record: word offset. -/
def lightFlds (i : Nat) : List (Fld × Nat) :=
  [(LGT_START_LO_START i, 0x04), (LGT_START_HI_START i, 0x08), (LGT_PERIOD_PERIOD i, 0x0C), (LGT_ON_ON i, 0x10),
   (LGT_PHASE_PHASE i, 0x14), (LGT_CTL_COUNT i, 0x18), (LGT_CTL_ENABLE i, 0x18), (LGT_CTL_UNIT i, 0x18),
   (LGT_CTL_VERB i, 0x18), (LGT_TARGET_TARGET i, 0x1C), (LGT_ARG_ARG i, 0x20)]

/-- COUNT of a LIGHT_LIST section (R76). -/
def lightCount (sec : List Byte) : Nat := bitsOf (leAt sec 0 4) 6 0

/-- The table of fields a LIGHT_LIST section gives; entries it leaves out are zero. -/
def lightTable (sec : List Byte) : Tab Nat :=
  forEach (List.range (lightCount sec)) ([] : Tab Nat) (fun t r =>
    let off := 8 + 36 * r
    let i := leAt sec off 1 % 64
    forEach (lightFlds i) t (fun t f => fldSet t f.1 (bitsOf (leAt sec (off + f.2) 4) (f.1.lo + f.1.width - 1) f.1.lo)))

/-- Load a LIGHT_LIST section into every shadow entry (R91). -/
def Block.lightShadow (b : Block) (sec : List Byte) : Block :=
  { b with regs := b.regs.overlay (lightTable sec) isLightKey }

/-- The default light list at step 7 of start (R42, R492). -/
def Block.lightDefault (b : Block) : Block :=
  let b := b.lightShadow (b.sec tyLight 0)
  b.lightTake (b.regs.filter (fun e => isLightKey e.1))

/-- Occurrences passed in S3 count as skipped on exit; in ACQUIRE occurrences are not counted (R52). -/
def Block.lightsResume (b : Block) : Block :=
  if b.timState = timAcquire then b
  else forEach (List.range 64) b (fun b i =>
    let e := b.lightW i
    let k := e.firstFrom b.now
    let nx := (b.lights.get i).next
    if e.armed && !b.on (LGT_STATUS_DONE i) && decide (nx < k) then
      b.lightSkip i (if e.count = 0 then k - nx else min (k - nx) (b.rd (LGT_STATUS_REMAIN i)))
    else b)

/-! ## Local time (R28 to R37) -/

/-- Rounding to the nearest whole number, halves away from zero, of a value in units of 2^-16. -/
def rnd16 (x : Int) : Int := if 0 ≤ x then (x + 32768) / 65536 else -((-x + 32768) / 65536)

/-- RATE_PPB. -/
def Block.ppb (b : Block) : Int := toSigned 18 (b.rd TIM_RATE_RATE_PPB)

/-- Set the rate register. -/
def Block.setPpb (b : Block) (r : Int) : Block := b.wr TIM_RATE_RATE_PPB (ofSigned 18 r)

/-- Load the local time. The regulation window in progress keeps its length, which a step does not change (R184). -/
def Block.setNow (b : Block) (ns : Nat) : Block :=
  { b with time := { b.time with ns := ns % 2 ^ 64 }
           regu := { b.regu with lastB := timeSince (b.regu.lastB + ns) b.now } }

/-- The local time `n` × 2^-32 ns later. -/
def TimeSt.advance (t : TimeSt) (n : Nat) : TimeSt :=
  let total := t.ns * 2 ^ 32 + t.frac + n
  { t with ns := total / 2 ^ 32 % 2 ^ 64, frac := total % 2 ^ 32 }

/-- 4 ns × (1 + rate × 10^-9) in 2^-32 ns, truncated or, where `up` says so and the product is not whole, one more. -/
def tickInc (ppb : Int) (up : Bool) : Nat :=
  let num : Int := 4 * 2 ^ 32 * (1000000000 + ppb)
  (num / 1000000000 + (if num % 1000000000 ≠ 0 ∧ up then 1 else 0)).toNat

/-- The error bound grows, and TIM_STATUS shows it (R36, R37). -/
def Block.holdGrow (b : Block) (n : Nat) : Block :=
  let acc := b.time.holdAcc + n
  ({ b with time := { b.time with holdAcc := acc } }).wr TIM_STATUS_HOLD_ERR_US (min 65535 (ceilDiv acc 32000000000))

/-- One TCLK cycle of local time: 4 ns × (1 + RATE_PPB × 10^-9), in 2^-32 ns; the last bit of the product is not stated
and is free. In HOLDOVER the error bound grows by 2 ppm (R36). -/
def Block.tick (b : Block) : Block :=
  let (i, b) := b.draw
  let b := { b with time := b.time.advance (tickInc b.ppb (Config.tickRound i)) }
  if b.timState = timHoldover then b.holdGrow 256 else b

/-- A discarded beacon sequence (R28). As for an accepted one, the beacon logic hears nothing in S3 or without power to
the core domain (log 8). -/
def Block.beaconBad (b : Block) : Block :=
  if b.pwr.inS3 || b.pwr.dead then b
  else ((b.wr TIM_STATUS_BAD_BEACON 1).bump TIM_BAD_CNT_CNT).intr 19 (b.on TIM_CTL_INT_BAD)

/-- BEACON_DISCARDED (R28). -/
def execBeaconDiscarded (s : State) : Out := onBlock s Block.beaconBad

/-- The loss timer runs out (R35); in ACQUIRE never. -/
def Block.holdover (b : Block) : Block :=
  if b.timState = timAcquire ∨ b.timState = timHoldover then b
  else
    let b := b.setPpb (rnd16 b.time.f)
    let b := { b with time := { b.time with holdAcc := 0 } }
    let b := ((b.wr TIM_STATUS_STATE timHoldover).wr TIM_STATUS_HOLD_ENTERED 1).intr 19 (b.on TIM_CTL_INT_HOLD)
    b.eventPlain 2 0 0

/-- HOLDOVER_ENTRY (R35). -/
def execHoldoverEntry (s : State) : Out := onBlock s Block.holdover

/-- An offset the slew can take, or a forward step (R38, R39): the local time, the rate, the run of good beacons and the
state follow the offset `e` over the interval `t`. -/
def Block.steer (b : Block) (t e : Int) : Block × Bool × Bool :=
  let step := decide (1000 ≤ e)
  let rate := b.ppb
  let b :=
    if step then
      let b := b.setNow (b.now + e.toNat)
      ((b.wr TIM_STATUS_STEPPED 1).bump TIM_STEP_CNT_CNT).intr 19 (b.on TIM_CTL_INT_STEP)
    else
      let g : Int := if 0 < t then (e * 1000000000 * 65536).tdiv t else 0
      let f := clampInt (-6553600000) 6553600000 (b.time.f + g.tdiv 16)
      let rate := clampInt (-100000) 100000 (rnd16 (f + g.tdiv 2))
      ({ b with time := { b.time with f := f } }).setPpb rate
  let good := if e.natAbs ≤ 5 then b.time.good + 1 else 0
  let b := { b with time := { b.time with good := min 8 good } }
  let b := if step then b.setPpb rate else b
  (b.wr TIM_STATUS_STATE (if 8 ≤ good then timLocked else timTracking), step, false)

/-- What every accepted beacon does first: the source's hold bit, and the end of the HOLDOVER error bound. -/
def Block.beaconSeen (b : Block) (srcHold : Bool) : Block :=
  let b := (b.wrB TIM_STATUS_SRC_HOLD srcHold).wr TIM_STATUS_HOLD_ERR_US 0
  { b with time := { b.time with holdAcc := 0 } }

/-- The first beacon, in ACQUIRE, loads the local time (R31). -/
def Block.beaconFirst (b : Block) (beacon : Nat) : Block :=
  let b := (b.setNow beacon).wr TIM_STATUS_STATE timTracking
  { b with time := { b.time with frac := 0, f := 0, good := 0, bprev := beacon } }

/-- A later beacon is kept and its offset `e` shown. -/
def Block.beaconNext (b : Block) (beacon : Nat) (e : Int) : Block :=
  let b := b.wr TIM_OFFSET_E (ofSigned 32 (clampInt (-(2 ^ 31)) (2 ^ 31 - 1) e))
  { b with time := { b.time with bprev := beacon } }

/-- The local time is 1,000 ns or more ahead: it slews back (R31). -/
def Block.slewBack (b : Block) : Block :=
  let b := ((b.setPpb (-100000)).wr TIM_STATUS_STATE timSlewing).wr TIM_STATUS_BACKSLEW 1
  ({ b with time := { b.time with good := 0 } }).intr 19 (b.on TIM_CTL_INT_BACK)

/-- What an accepted beacon does to the time (R31): the block, and whether it stepped forward, and whether it was the
first. -/
def Block.discipline (b : Block) (beacon : Nat) (srcHold : Bool) : Block × Bool × Bool :=
  let t : Int := timeDiff beacon b.time.bprev
  let e : Int := timeDiff beacon b.now
  let first := decide (b.timState = timAcquire)
  let b := b.beaconSeen srcHold
  if first then (b.beaconFirst beacon, false, true)
  else if e ≤ -1000 then ((b.beaconNext beacon e).slewBack, false, false)
  else (b.beaconNext beacon e).steer t e

/-- A read of TIM_NOW_LO latches the local time (R41). -/
def Block.nowLatch (b : Block) : Block := { b with time := { b.time with latch := some b.now } }

end Sys2Proof.Machine
end

