-- ==== Sys2Proof/Machine/Modules.lean ====
section
/-! DEFINITION. Memory modules (14): discovery, identity and history, the seconds and error-check-and-scrub counts of the
ledgers, geometry, and the choice of a speed bin (R73). -/

namespace Sys2Proof.Machine

open Reg

/-! ## Discovery (R408, R409) -/

/-- The topology names slot `m`, or harbour discovery takes every slot (R502). -/
def Block.slotNamed (b : Block) (m : Nat) : Bool :=
  b.harbour || (b.chEnabled (m / 2) && decide (m % 2 < b.chDimms (m / 2)))

/-- DISC of a probe (R409). In harbour mode there is no topology to differ from. -/
def Block.discOf (b : Block) (m : Nat) (p : ModuleProbe) : Nat :=
  let n := m / 2
  if !p.ack then 1
  else if p.busErr then 4
  else if !p.crcOk || !p.typeOk then 2
  else if p.ranks.toNat = 4 ∧ !p.encCs then 3
  else if !b.harbour && ((if p.mrdimm then 2 else 1) != b.chModType n || p.ranks.toNat != b.chRanks n) then 3
  else 0

/-- The type and the 30 bytes of the part number as the ledger holds them. -/
def partBytes (p : ModuleProbe) : List Byte := (List.range 30).map (fun i => p.part.extractLsb' (8 * i) 8)

/-- The ledger a new identity starts with (R414, R415); a spare-row count of RES_FIRST that is not read yet stands as 256. -/
def Block.newLedger (b : Block) (p : ModuleProbe) (hist : List (List Byte)) : Ledger :=
  { (default : Ledger) with
    presence := 1, unsync := b.timState == timAcquire, mfr := p.mfr.toNat, date := p.date.toNat
    serial := p.serial.toNat, part := partBytes p, type := if p.mrdimm then 2 else 1, ranks := p.ranks.toNat
    capacity := p.capacity.toNat, maxRate := p.maxRate.toNat, caps := p.caps.toNat, installT := b.now, seenT := b.now
    resFirst := List.replicate 16 256, hist := hist }

/-- A discovery with result OK updates the ledger (R414). -/
def Block.identify (b : Block) (m : Nat) (p : ModuleProbe) : Block :=
  let l := b.mod.ledger.get m
  let fresh (b : Block) (hist : List (List Byte)) : Block :=
    let b := { b with mod := { b.mod with ecsBase := (b.mod.ecsBase.set (2 * m) none).set (2 * m + 1) none } }
    (b.updLedger m (fun _ => b.newLedger p hist)).storeLedger m
  if l.presence = 0 then fresh b []
  else if l.mfr = p.mfr.toNat ∧ l.date = p.date.toNat ∧ l.serial = p.serial.toNat ∧ l.part = partBytes p then
    let b := b.updLedger m (fun l => { l with presence := 1, seenT := b.now })
    if l.presence = 1 then b else b.storeLedger m
  else
    let b := fresh b [l.entry, l.hist.getD 0 []]
    let b := b.event { code := 65, kind := 0, form := 1, addr := locAddr 4 m 0, unit_ := .none, sev := none }
    let b := (b.wr (MOD_STATE_ID_CHANGED m) 1).wr MOD_STATUS_ID_CHG 1
    let b := b.intr 26 (b.bit MOD_CTL_INT_EN 1)
    let n := m / 2
    (b.calEmpty (2 * n)).calEmpty (2 * n + 1)

/-- Code of a discovered geometry. -/
def geomCode (p : ModuleProbe) : Nat := p.rowBits.toNat + 32 * p.bgBits.toNat + 256 * p.bankBits.toNat + 2 ^ 11

/-- SHORT of the interleave sets that contain channel `n` (R103): a selector that is not constant drives an address bit
the devices of a module do not have. -/
def Block.judgeShort (b : Block) (m : Nat) : Block :=
  match b.geom m with
  | none => b
  | some (rows, bgs, banks) =>
    forEach (List.range 8) b (fun b k =>
      let mine := b.hasSec tyInterleave k && (List.range (2 ^ b.ivsLog2 k)).any (fun j => b.ivsChan k j == m / 2)
      let drives (t n lim : Nat) : Bool := (List.range n).any (fun i => decide (lim ≤ i) && b.ivsSel k (t + i) != 0x3F)
      if mine && (drives 4 3 bgs || drives 7 2 banks || drives 16 18 rows) then b.wr (EDT_SET_STATUS_SHORT k) 1 else b)

/-- The DRAM address exceeds the discovered geometry of its slot (R103). -/
def Block.beyondGeom (b : Block) (s : Nat) (c : Coord) : Bool :=
  match b.geom (b.slotOf s c.rank) with
  | none => false
  | some (rows, bgs, banks) => decide (2 ^ rows ≤ c.row) || decide (2 ^ bgs ≤ c.bg) || decide (2 ^ banks ≤ c.bank)

/-- The place lies in the rank's training row (R359): the highest row of the discovered devices, in the bank of
CAL_POINTS. -/
def Block.inTrainRow (b : Block) (s : Nat) (c : Coord) : Bool :=
  match b.geom (b.slotOf s c.rank) with
  | none => false
  | some (rows, _, _) =>
    c.row == 2 ^ rows - 1 && c.bg == b.trainBg && c.bank == b.trainBank

/-- What a probe leaves: DISC, presence, identity, sensors and geometry, and the event of a failure. -/
def Block.discovered (b : Block) (m : Nat) (p : ModuleProbe) : Block :=
  let d := b.discOf m p
  let b := b.wr (MOD_STATE_DISC m) d
  if d = 0 then
    let b := b.identify m p
    let b := { b with mod := { b.mod with sensors := b.mod.sensors.set m p.sensors.toNat
                                          geom := b.mod.geom.set m (geomCode p)
                                          encCs := b.mod.encCs.set m (p.ranks.toNat == 4) } }
    b.judgeShort m
  else
    let b := if d = 1 ∧ (b.mod.ledger.get m).presence = 1 then
        (b.updLedger m (fun l => { l with presence := 2 })).storeLedger m else b
    b.event { code := 64, kind := d, form := 1, addr := locAddr 4 m 0, unit_ := .channel (m / 2), sev := none }

/-! ## Speed bins (R73, R299) -/

/-- Rated speed of a channel's modules: the lowest of those discovered. -/
def Block.ratedSpeed (b : Block) (n : Nat) : Nat :=
  let rs := (List.range (b.chDimms n)).map (fun d => (b.mod.ledger.get (2 * n + d)).maxRate)
  rs.foldl min (b.chMaxRate n)

/-- The bin a channel runs (R73): the record's own when its modules reach MAX_RATE, otherwise one the image provides for
the modules' rate. -/
def Block.selectBin (b : Block) (n : Nat) : Option Nat :=
  let rate := b.ratedSpeed n
  if rate = b.chMaxRate n then some (b.chBin n)
  else (List.range 16).find? (fun k => b.hasSec tyClauses k && setRate (b.sec tyClauses k) == rate)

/-- The Keeper switches both subchannels of a channel to a bin (R299, R300): with the checks, without a quiesce condition;
whether they passed. -/
def Block.channelSwitch (b : Block) (n bin : Nat) : Block × Bool :=
  let subs := if b.chLockstep n then [2 * n] else [2 * n, 2 * n + 1]
  let b := forEach subs b (fun b s =>
    let code := b.switchCode s bin
    if code ≠ 0 then b.wr (CLS_STATUS_SWITCH_CODE s) code else b.switchBegin s bin)
  (b, subs.all (fun s => (b.subs.get s).switchTo.isSome))

/-- Run a channel at a bin: rate and lock of both subchannels, then the switch (R299). -/
def Block.setBin (b : Block) (n bin : Nat) : Block × Bool :=
  let rate := setRate (b.sec tyClauses bin)
  let b := forEach [2 * n, 2 * n + 1] b (fun b s =>
    ((b.wr (PHY_STATUS_RATE s) rate).wr (PHY_RATE_RATE s) rate).wr (PHY_STATUS_LOCKED s) 1)
  b.channelSwitch n bin

/-! ## Ledger feeding (R410, R412, R413) -/

/-- An hourly error-check-and-scrub reading of one subchannel is added as the increase since the last (R412, R415). -/
def Block.ecsOne (b : Block) (m x v : Nat) : Block :=
  let old := b.mod.ecsBase.get (2 * m + x)
  let b := { b with mod := { b.mod with ecsBase := b.mod.ecsBase.set (2 * m + x) (some v) } }
  match old with
  | none => b
  | some o => b.feed m (fun l =>
      if x = 0 then { l with ecsA := sat32 (l.ecsA + (v - o)) } else { l with ecsB := sat32 (l.ecsB + (v - o)) })

/-- The hourly reading cannot be made on subchannel `s` (R410): its sentence is held by QUIET bit 3 (R57) or by a training,
or refused (R314); a channel in S1 or S2 is not woken for it (R473). -/
def Block.ecsMissed (b : Block) (s : Nat) : Bool :=
  let st := b.chState (s / 2)
  bitOf (b.quietKinds s) 3 || st == pwS1 || st == pwS2 || st == pwOFF || b.subFenced s || b.on (CLS_STATUS_HALTED (b.schedOf s))
    || (b.phy.train.get s).isSome

/-- ECS_READING (R410): the counts of the devices of a module on subchannels A and B; a reading that is missed is taken at the
next hour. -/
def Block.ecsReading (b : Block) (m a c : Nat) : Block :=
  if (b.mod.ledger.get m).presence ≠ 1 then b
  else
    let one (b : Block) (x v : Nat) : Block := if b.ecsMissed (m / 2 * 2 + x) then b else b.ecsOne m x v
    one (one b 0 a) 1 c

/-- ECS_READING (R410). -/
def execEcsReading (m : Fin 32) (a c : BitVec 32) (s : State) : Out :=
  onBlock s (fun b => b.ecsReading m a.toNat c.toNat)

/-- One second of a slot's ledger (R412, R413). -/
def Block.ledgerSecond (b : Block) (m : Nat) : Block :=
  let n := m / 2
  let l := b.mod.ledger.get m
  let waiting := b.mod.count.get m
  let high := b.mod.high.get m
  let bad := b.mod.bad.get m
  let b := { b with mod := { b.mod with count := b.mod.count.set m false, high := b.mod.high.set m none
                                        bad := b.mod.bad.set m false } }
  let b :=
    if l.presence = 1 ∧ b.chState n ≠ pwOFF then
      let b := b.feed m (fun l =>
        let l := { l with powered := sat32 (l.powered + 1) }
        match high with
        | some t => if bad then l else { l with
            hot := if 340 ≤ t then sat32 (l.hot + 1) else l.hot
            maxTemp := if l.maxTemp < t then t else l.maxTemp }
        | none => l)
      if (b.mod.ledger.get m).powered % 3600 = 0 then b.storeLedger m else b
    else b
  if waiting then b.storeLedger m else b

/-- LEDGER_SECOND (R412). -/
def execLedgerSecond (s : State) : Out :=
  onBlock s (fun b => if b.pwr.inS3 then b else forEach (List.range 32) b (fun b m => b.ledgerSecond m))

/-- A copy that is neither valid nor blank: torn (R369, R413). -/
def recTorn (magic : Nat) (bs : List Byte) : Bool := !recValid magic bs && bs.any (fun x => x != 0)

/-- The ledgers are read from the NVM at start. -/
def Block.ledgersLoad (b : Block) : Block :=
  forEach (List.range 32) b (fun b m =>
    let torn := recTorn ledMagic (b.nvmBytes (ledOff m 0) 1024) || recTorn ledMagic (b.nvmBytes (ledOff m 1) 1024)
    let b := if torn then b.wr (MOD_STATE_NVM_BAD m) 1 else b
    match b.newerCopy ledMagic (ledOff m 0) (ledOff m 1) 1024 with
    | some (_, bs) => b.updLedger m (fun _ => ledgerOf bs)
    | none => b)

/-- Take the spare rows of the module at DIMM position `d` into ECC_REPAIR_RES and its ledger. -/
def Block.takeSpare (b : Block) (s d spare : Nat) : Block :=
  let m := s / 2 * 2 + d
  let l := b.mod.ledger.get m
  let pick (old : List Nat) : List Nat := (List.range 16).map (fun g =>
    if g / 8 = s % 2 then bitsOf spare (4 * (g % 8) + 3) (4 * (g % 8)) else old.getD g 0)
  let b := b.wr (ECC_REPAIR_RES_RES s) spare
  b.feed m (fun x => { x with
    res := pick l.res
    resFirst := (List.range 16).map (fun g => if l.resFirst.getD g 0 = 256 then (pick l.resFirst).getD g 0 else l.resFirst.getD g 0) })

/-- Take the readings into the ledgers and SCH_RFM. -/
def Block.afterTrain (b : Block) (s : Nat) (a : AfterTrain) : Block :=
  let caps := (b.mod.ledger.get (s / 2 * 2)).caps
  let b := b.takeSpare s 0 a.spare0.toNat
  let b := if b.chDimms (s / 2) = 2 then b.takeSpare s 1 a.spare1.toNat else b
  let b := (b.wrB (SCH_RFM_RFM_REQ s) (bitOf caps 2)).wrB (SCH_RFM_PRAC s) (bitOf caps 3)
  ((b.wr (SCH_RFM_RAAIMT s) a.raaimt.toNat).wr (SCH_RFM_RAAMMT s) a.raammt.toNat).wr (SCH_RFM_ABO_RFM s) a.aboRfm.toNat

end Sys2Proof.Machine
end

