-- ==== Sys2Proof/Machine/Start.lean ====
section
/-! DEFINITION. Start-up and harbour mode (18): the start record, the steps of R492, the channels' progress through
discovery, training and initialisation, and the harbour channel of R502. -/

namespace Sys2Proof.Machine

open Reg

/-! ## The start record (R496 to R500) -/

/-- MAGIC of the start record. -/
def startMagic : Nat := 0x54534641

/-- NVM offset of copy `k`. -/
def startOff (k : Nat) : Nat := 0xD0000 + 0x100 * k

/-- The store key of the start record. -/
def startKey : Nat := 2000

/-- Replace `n` bytes at an offset. -/
def setAt (bs : List Byte) (off n v : Nat) : List Byte := bs.take off ++ leBytes n v ++ bs.drop (off + n)

/-- The start record as last written: a store still running, the newer valid copy, or a blank record. -/
def Block.startRec (b : Block) : List Byte :=
  match (b.stores.filter (fun x => x.key == startKey)).getLast? with
  | some x => x.bytes
  | none => match b.newerCopy startMagic (startOff 0) (startOff 1) 256 with
    | some (_, bs) => bs
    | none => padTo 256 (leBytes 4 startMagic)

/-- Where the next store of the start record goes. -/
def Block.startNext (b : Block) : Nat :=
  match (b.stores.filter (fun x => x.key == startKey)).getLast? with
  | some x => if x.off = startOff 0 then startOff 1 else startOff 0
  | none => (b.nextCopy startMagic (startOff 0) (startOff 1) 256).1

/-- Store a changed start record, SEQ one greater. -/
def Block.startPut (b : Block) (f : List Byte → List Byte) : Block :=
  let old := b.startRec
  let bs := setAt (f old) 4 4 ((leAt old 4 4 + 1) % 2 ^ 32)
  b.storeBegin startKey b.startNext (withCrc 256 bs)

/-- COUNTER, FLAGS, NEXT and ENTRIES of a start record. -/
def recCounter (r : List Byte) : Nat := leAt r 8 1
/-- FLAGS. -/
def recFlags (r : List Byte) : Nat := leAt r 9 1
/-- NEXT. -/
def recNext (r : List Byte) : Nat := leAt r 0x0A 1 % 8

/-- Set COUNTER and FLAGS. -/
def recSet (r : List Byte) (counter flags : Nat) : List Byte := setAt (setAt r 8 1 counter) 9 1 flags

/-- A record with a history entry written at NEXT (R498). -/
def recHistory (r entry : List Byte) : List Byte :=
  let i := recNext r
  let r := r.take (0x20 + 24 * i) ++ padTo 24 entry ++ r.drop (0x38 + 24 * i)
  setAt (setAt r 0x0A 1 ((i + 1) % 8)) 0x0B 1 (min 8 (leAt r 0x0B 1 + 1))

/-- IMAGE_ID of the image being loaded, once its header was accepted. -/
def Block.imageId (b : Block) : Nat := if 64 ≤ b.img.bytes.length then leAt b.img.bytes 0x18 4 else 0

/-- A history entry (R498). -/
def Block.histEntry (b : Block) (cause step sub detail counter : Nat) : List Byte :=
  leBytes 8 b.now ++ leBytes 1 cause ++ leBytes 1 step ++ leBytes 1 sub ++ leBytes 1 0 ++ leBytes 4 b.imageId
    ++ leBytes 2 (b.rd HBR_CH_STATUS_FAILED) ++ leBytes 1 detail ++ leBytes 1 counter ++ leBytes 4 0

/-- HBR_REASON and HBR_STATUS.COUNTER follow the record. -/
def Block.showRecord (b : Block) : Block :=
  let r := b.startRec
  let i := (recNext r + 7) % 8
  let has := leAt r 0x0B 1 != 0
  let b := b.wr HBR_STATUS_COUNTER (recCounter r)
  let b := b.wr HBR_REASON_CAUSE (if has then leAt r (0x20 + 24 * i + 8) 1 else 0)
  b.wr HBR_REASON_SUBCAUSE (if has then leAt r (0x20 + 24 * i + 0x0A) 1 else 0)

/-- A start fails (R495). -/
def Block.startFail (b : Block) (cause sub detail : Nat) : Block :=
  let r := b.startRec
  let e := b.histEntry cause (b.rd HBR_STATUS_STEP) sub detail (recCounter r)
  let b := b.startPut (fun r => recSet (recHistory r e) (recCounter r) (recFlags r / 2 * 2))
  let b := b.showRecord
  let b := b.wr HBR_STATUS_STATE 3
  let b := { b with start := { b.start with store := none, pllWait := 0, discWait := 0, trainWait := 0, initWait := 0 } }
  b.eventPlain 0 0 0

/-! ## Built-in contents of harbour mode (R501, R588, R589) -/

/-- A step word of a fallback sentence. -/
def sntWord (op rankSel arg data addr mask count cunit result : Nat) : Nat :=
  op + rankSel * 2 ^ 8 + (if arg < 4 then 2 ^ 12 + arg * 2 ^ 13 else 0) + (if result < 4 then 2 ^ 15 + result * 2 ^ 16 else 0)
    + data % 256 * 2 ^ 24 + addr % 256 * 2 ^ 32 + mask * 2 ^ 40 + count * 2 ^ 48 + cunit * 2 ^ 58

/-- A fallback sentence as section contents (R310). -/
def sntText (n flags hold kind timeout : Nat) (steps : List Nat) : List Byte :=
  leBytes 1 n ++ leBytes 1 flags ++ leBytes 2 steps.length ++ leBytes 1 hold ++ leBytes 1 kind ++ leBytes 2 timeout
    ++ leBytes 8 0 ++ (steps.map (leBytes 8)).flatten

/-- The fallback sentences 0 to 5 (R589); the values and register numbers that the DDR5 standard assigns are free. -/
def fallbackSentence : Nat → List Byte
  | 0 => sntText 0 0 1 0 100
      [sntWord 12 8 4 (Config.ddr5 0) 0 0 0 0 4, sntWord 12 8 4 (Config.ddr5 1) 8 0 0 0 4, sntWord 12 8 0 0 10 0 0 0 4,
       sntWord 12 8 1 0 11 0 0 0 4, sntWord 12 8 4 (Config.ddr5 2) 13 0 0 0 4, sntWord 14 8 4 (Config.ddr5 3) 0 0 0 0 4,
       sntWord 20 0 4 0 0 0 1 1 4, sntWord 14 8 4 (Config.ddr5 4) 0 0 0 0 4, sntWord 21 8 4 (Config.ddr5 0) 0 255 1 0 4]
  | 1 => sntText 1 0 2 0 10 [sntWord 7 8 4 0 0 0 0 0 4, sntWord 15 8 4 0 0 0 0 0 4, sntWord 23 0 4 0 0 0 0 0 4]
  | 2 => sntText 2 0 2 0 10
      [sntWord 23 0 4 1 0 0 0 0 4, sntWord 20 0 4 0 0 0 16 0 4, sntWord 16 8 4 0 0 0 0 0 4, sntWord 23 0 4 3 0 0 0 0 4]
  | 3 => sntText 3 1 2 0 100
      [sntWord 13 8 4 0 (Config.ddr5 5) 0 0 0 0, sntWord 13 8 4 0 (Config.ddr5 6) 0 0 0 1,
       sntWord 12 8 4 (Config.ddr5 7) (Config.ddr5 5) 0 0 0 4, sntWord 12 8 4 (Config.ddr5 8) (Config.ddr5 6) 0 0 0 4]
  | 4 => sntText 4 0 1 1 1000 [sntWord 3 8 4 0 0 0 0 0 4, sntWord 1 8 4 0 0 0 0 0 4]
  | _ => sntText 5 0 1 2 100
      [sntWord 14 8 4 (Config.ddr5 9) 0 0 0 0 4, sntWord 20 0 4 0 0 0 (Config.ddr5 10 % 1024) 1 4,
       sntWord 13 8 4 0 (Config.ddr5 11) 0 0 0 0, sntWord 13 8 4 0 (Config.ddr5 12) 0 0 0 1]

/-- Palug's default THERMAL_POWER section (R480); the state records are not given there and are zero biases at 850 mV. -/
def defaultThermal : List Byte :=
  padTo 0x100 (leBytes 2 380 ++ leBytes 2 420 ++ leBytes 2 472 ++ leBytes 2 340 ++ leBytes 2 380 ++ leBytes 1 12
    ++ leBytes 1 2 ++ leBytes 1 4 ++ leBytes 1 64 ++ leBytes 1 8 ++ leBytes 1 2 ++ leBytes 2 (ofSigned 16 (-160))
    ++ leBytes 2 600 ++ List.replicate 44 0
    ++ ((List.range 4).map (fun _ => List.replicate 4 0 ++ leBytes 2 850 ++ List.replicate 2 0)).flatten)

/-- Put a section in force. -/
def Block.putSec (b : Block) (type inst : Nat) (bs : List Byte) : Block :=
  { b with img := { b.img with secs := b.img.secs.set (secKey type inst) bs } }

/-- A subchannel's bin of the fallback set reads 0xF. -/
def fallbackBin : Nat := 15

/-- Enter harbour mode (R497, R501): the built-in contents, and the discovery of every slot. -/
def Block.enterHarbour (b : Block) (entry : Nat) : Block :=
  let b := { b with img := { b.img with secs := [] } }
  let b := b.putSec tyClauses fallbackBin fallbackSet
  let b := { b with img := { b.img with storeCrc := Tab.set [] fallbackBin (crc32 fallbackSet) } }
  let b := forEach (List.range 6) b (fun b n => b.putSec tySentences n (fallbackSentence n))
  let b := b.putSec tyThermal 0 defaultThermal
  let b := b.putSec tyPhyInit 0 ((List.range 0x4100).map (fun i => BitVec.ofNat 8 (Config.builtinPhy i)))
  let b := (b.wr SNT_PRESENT_LO_MASK 0x3F).wr SNT_PRESENT_HI_MASK 0
  let b := forEach (List.range 16) b (fun b c =>
    let b := ((b.wr (CCH_CFG_SCRATCH_WAYS c) 4).wr (CCH_CFG_PINNED_WAYS c) 0).wr (CCH_CFG_NORMAL_WAYS c) 12
    (b.wr (CCH_STATUS_STATE c) 2).wr (CCH_CTL_BYPASS c) 1)
  let b := (b.wr EDT_CFG_ENTRIES 0).wr EDT_CFG_GRANULE 1
  let b := { b with start := { b.start with harbour := true, discWait := 2 ^ 32 - 1, search := none } }
  ((b.wr HBR_STATUS_STATE 4).wr HBR_REASON_ENTRY entry).intr 2 (b.on HBR_CTL_INT_READY)

/-- The topology of the channel harbour mode tries: DIMM position 0 alone (R502). -/
def Block.harbourTopo (b : Block) (n : Nat) : Block :=
  let l := b.mod.ledger.get (2 * n)
  let rec_ := leBytes 1 1 ++ leBytes 1 l.type ++ leBytes 1 1 ++ leBytes 1 l.ranks ++ leBytes 1 0 ++ leBytes 1 fallbackBin
    ++ leBytes 2 3200 ++ leBytes 2 l.capacity ++ List.replicate 6 0
  b.putSec tyTopology 0 (padTo 0x128 (List.replicate (16 * n) 0 ++ rec_))

/-- Bits of a count that is a power of two. -/
def log2Of : Nat → Nat → Nat
  | 0, _ => 0
  | f + 1, n => if n ≤ 1 then 0 else 1 + log2Of f (n / 2)

/-- The targets of R503 in order, for `rows`, `bgs`, `banks` and `ranks` address bits, up to `m` CLA bits. -/
def harbourTargets (rows bgs banks ranks : Nat) : List Nat :=
  [9, 10, 11, 12, 0] ++ (List.range bgs).map (· + 4) ++ (List.range banks).map (· + 7) ++ [13, 14, 15]
    ++ (List.range rows).map (· + 16) ++ (List.range ranks).map (· + 1)

/-- Interleave set 0 of the harbour channel (R503). -/
def Block.harbourSet (b : Block) (n : Nat) : Block :=
  let l := b.mod.ledger.get (2 * n)
  let (rows, bgs, banks) := (b.geom (2 * n)).getD (0, 0, 0)
  let m := 30 + log2Of 16 l.capacity
  let ts := (harbourTargets rows bgs banks (log2Of 4 l.ranks)).take (m - 6)
  let sel := (List.range 34).map (fun t =>
    match (List.range ts.length).find? (fun i => ts[i]? == some t) with
    | some i => BitVec.ofNat 8 (6 + i)
    | none => 0x3F)
  let text := leBytes 4 0 ++ leBytes 4 0 ++ leBytes 8 0 ++ leBytes 8 (2 ^ m) ++ leBytes 1 n ++ List.replicate 15 0xFF
    ++ sel ++ List.replicate 6 0
  (b.putSec tyInterleave 0 text).wr (EDT_SET_STATUS_PRESENT 0) 1

/-- The search goes on at channel `from_` (R502): the next channel whose DIMM position 0 discovered OK is trained with all
ten steps at 3,200 MT/s. Without one, harbour mode runs without DRAM. -/
def Block.harbourNext (b : Block) (from_ : Nat) : Block :=
  match (List.range 16).find? (fun n => decide (from_ ≤ n) && b.rd (MOD_STATE_DISC (2 * n)) == 0) with
  | some n =>
    let b := ((b.harbourTopo n).setBin n fallbackBin).1
    let b := forEach [2 * n, 2 * n + 1] b (fun b s =>
      b.loadRecord s ((b.sec tyPhyInit 0).drop (0x100 + 512 * s) |>.take 512))
    let b := { b with start := { b.start with search := some n } }
    (b.trainAsk (2 * n) 0x7FE .harbour).trainAsk (2 * n + 1) 0x7FE .harbour
  | none =>
    let b := { b with start := { b.start with search := none } }
    forEach (List.range 16) b (fun b n => b.fenceChannel n)

/-- The harbour search after a training or a discovery ends. -/
def Block.harbourSettle (b : Block) : Block :=
  match b.start.search with
  | none => b
  | some n =>
    if (b.pair (2 * n) ++ b.pair (2 * n + 1)).any b.trainBusy then b
    else if b.on (PHY_STATUS_TRAINED (2 * n)) && b.on (PHY_STATUS_TRAINED (2 * n + 1)) then
      let b := { b with start := { b.start with search := none } }
      let b := ((b.wr HBR_CH_STATUS_HCH_VALID 1).wr HBR_CH_STATUS_HCH n).harbourSet n
      forEach ((List.range 16).filter (fun k => k != n)) b (fun b k => b.fenceChannel k)
    else ((b.setBitOf HBR_CH_STATUS_FAILED n).fenceChannel n).harbourNext (n + 1)

/-! ## Channels in step 5 and step 6 (R492, R339, R409, R493) -/

/-- Enabled channels that have not failed in this start. -/
def Block.liveChannels (b : Block) : List Nat :=
  (List.range 16).filter (fun n => b.chEnabled n && !b.bit HBR_CH_STATUS_FAILED n)

/-- Remove a bit of a mask. -/
def maskDrop (m i : Nat) : Nat := if bitOf m i then m - 2 ^ i else m

/-- A channel fails in the start in progress and is fenced. -/
def Block.startChFail (b : Block) (n cause detail : Nat) : Block := (b.chFailed n cause detail).fenceChannel n

/-- Step 5: the PLLs of the enabled channels lock at their start rate; a channel the topology leaves disabled is OFF. -/
def Block.enterStep5 (b : Block) : Block :=
  let b := b.wr HBR_STATUS_STEP 5
  let b := forEach (List.range 16) b (fun b n =>
    if b.chEnabled n then
      forEach [2 * n, 2 * n + 1] b (fun b s =>
        let rate := setRate (b.sec tyClauses (b.chBin n))
        (b.wr (PHY_STATUS_RATE s) rate).wr (PHY_RATE_RATE s) rate)
    else
      let b := b.wr (PWR_CH_STATUS_STATE n) pwOFF
      { b with pwr := { b.pwr with chLow := b.pwr.chLow ||| (1 <<< n), modLow := b.pwr.modLow ||| (1 <<< n) } })
  { b with start := { b.start with pllWait := maskOf b.liveChannels, asked := false } }

/-- Step 6: discovery of the slots the topology names. -/
def Block.enterStep6 (b : Block) : Block :=
  let slots := (List.range 32).filter (fun m => b.liveChannels.contains (m / 2) && decide (m % 2 < b.chDimms (m / 2)))
  ({ b with start := { b.start with discWait := maskOf slots } }).wr HBR_STATUS_STEP 6

/-- After discovery: calibration records are read and every enabled subchannel's training is requested, in ascending
order, with START_STEPS (R332, R334, R370). A channel without a bin for its modules' rate fails. -/
def Block.askTrainings (b : Block) : Block :=
  let b := { b with start := { b.start with asked := true } }
  let b := forEach b.liveChannels b (fun b n =>
    match b.selectBin n with
    | some k =>
      let (b, ok) := b.setBin n k
      if ok then (b.calLoad (2 * n)).calLoad (2 * n + 1) else b.startChFail n 5 0
    | none => b.startChFail n 5 0)
  let b := { b with start := { b.start with trainWait := maskOf b.liveChannels } }
  let steps := b.phyInit 0x16 2
  forEach b.liveChannels b (fun b n => (b.trainAsk (2 * n) steps .start).trainAsk (2 * n + 1) steps .start)

/-- Channels whose two trainings have passed go on to memory initialisation. -/
def Block.trainedOn (b : Block) : Block :=
  forEach (List.range 16) b (fun b n =>
    if bitOf b.start.trainWait n && b.on (PHY_STATUS_TRAINED (2 * n)) && b.on (PHY_STATUS_TRAINED (2 * n + 1))
        && !(b.trainBusy (2 * n)) && !(b.trainBusy (2 * n + 1)) then
      let b := { b with start := { b.start with trainWait := maskDrop b.start.trainWait n
                                                initWait := b.start.initWait ||| (1 <<< n) } }
      forEach [2 * n, 2 * n + 1] b (fun b s => b.updSub s (fun u => { u with initing := true }))
    else b)

/-- Fence the subchannels whose training failed at start (R339). -/
def Block.fenceFailed (b : Block) : Block :=
  forEach (List.range 32) b (fun b s =>
    if b.bit HBR_CH_STATUS_FAILED (s / 2) && b.rd (PHY_TRAIN_STATUS_STATE s) == 4 then b.fence .sub s causeAction 0 else b)

/-- The block zeroes a DRAM-located EDT (R107): a write of each descriptor leaves through the write queues. -/
def Block.edtZero (b : Block) : Block :=
  match b.edtFrame with
  | none => b
  | some f =>
    forEach (List.range b.edtEntries) b (fun b i =>
      let (id, b) := b.newId
      let r := b.frameRoute f ((b.edtBase + 64 * i) % 2 ^ b.granLog)
      let w : WriteBack := { (default : WriteBack) with
        id := id, route := r.sector (i % 4), sec := i % 4, cls := 8, src := 7, idx := i, dpa := some (b.edtBase + 64 * i) }
      (b.updSlice r.chan (fun q => { q with wb := q.wb ++ [w] })).wake r.chan)

/-- Step 6 ends: the minimum topology (R72), then step 7 (R492). -/
def Block.endStep6 (b : Block) : Block :=
  let failed := b.rd HBR_CH_STATUS_FAILED
  let ok := (List.range 16).filter (fun n => b.chEnabled n && !b.chSpare n && !bitOf failed n)
  if ok.length < b.minChannels ∨ (b.requiredMask &&& failed) ≠ 0 then
    let first := ((List.range 16).filter (fun n => bitOf failed n)).headD 0
    let cd := b.start.cause.get first
    b.startFail 8 (cd % 16) (cd / 16)
  else ((b.edtZero).wr HBR_STATUS_STEP 7).lightDefault

/-- Carry the start as far as what has ended allows. -/
def Block.startSettle (b : Block) : Block :=
  if b.harbour then b.harbourSettle
  else if b.rd HBR_STATUS_STATE ≠ 1 then b
  else
    let b := if b.rd HBR_STATUS_STEP = 5 ∧ b.start.pllWait = 0 then b.enterStep6 else b
    let b := if b.rd HBR_STATUS_STEP = 6 ∧ b.start.discWait = 0 ∧ !b.start.asked then b.askTrainings else b
    let b := if b.rd HBR_STATUS_STEP = 6 ∧ b.start.asked then b.fenceFailed.trainedOn else b
    if b.rd HBR_STATUS_STEP = 6 ∧ b.start.asked ∧ b.start.trainWait = 0 ∧ b.start.initWait = 0 then b.endStep6 else b

/-! ## Steps 1 to 3 (R492, R497, R531) -/

/-- A ring record is valid when its CRC is correct; a blank record is not one. -/
def audValid (bs : List Byte) : Bool := leAt bs 0x1C 4 == crc32 (bs.take 0x1C)

/-- WRAP `y` is greater than `x` in serial order over 16 bits (R367, R531). -/
def wrapGreater (y x : Nat) : Bool :=
  let d := (y + 2 ^ 16 - x) % 2 ^ 16
  decide (0 < d) && decide (d < 2 ^ 15)

/-- NEXT and AUD_WRAPS from the newest valid record (R531). -/
def Block.auditScan (b : Block) : Block :=
  let best := (List.range 4096).foldl (fun (m : Option (Nat × Nat)) i =>
    let bs := b.nvmBytes (0xA0000 + 32 * i) 32
    if audValid bs then
      let w := leAt bs 8 2
      match m with
      | none => some (w, i)
      | some (w0, i0) => if w = w0 ∨ wrapGreater w w0 then some (w, i) else some (w0, i0)
    else m) none
  match best with
  | none => (b.wr AUD_STATUS_NEXT 0).wr AUD_WRAPS_WRAPS 0
  | some (w, i) => (b.wr AUD_STATUS_NEXT ((i + 1) % 4096)).wr AUD_WRAPS_WRAPS (if i = 4095 then (w + 1) % 65536 else w)

/-- Step 3 of start (R497). -/
def Block.startStep3 (b : Block) (selfTest : Bool) : Block :=
  let b := (b.wrB NVM_STATUS_SELFTEST_OK selfTest).wr HBR_STATUS_STEP 3
  if !selfTest then b.enterHarbour 2
  else
    let b := b.wrB NVM_STATUS_TRIM_VALID (Config.trimsValid (b.nvmBytes 0xD8000 0x8000))
    let b := b.auditScan.ledgersLoad
    let blank := (b.newerCopy startMagic (startOff 0) (startOff 1) 256).isNone
    let b := if blank then (b.startPut (fun r => recSet r 0 0)).eventPlain 1 0 0 else b
    let r := b.startRec
    let r := if bitOf (recFlags r) 0 then
        recHistory r (b.histEntry 10 0 0 0 (recCounter r)) else r
    if 3 ≤ recCounter r then
      let b := if bitOf (recFlags (b.startRec)) 0 then b.startPut (fun _ => recSet r (recCounter r) (recFlags r / 2 * 2)) else b
      b.showRecord.enterHarbour 1
    else
      let b := b.startPut (fun _ => recSet r (recCounter r + 1) (recFlags r / 2 * 2 + 1))
      ({ b with start := { b.start with store := some 1 } }).showRecord

/-- The start record store ends (R497): the start goes on to the image load, or fails when it cannot be stored. -/
def Block.startStored (b : Block) (ok : Bool) : Block :=
  if !b.storing startKey then b
  else
    let b := if ok then b.storeEnd startKey
      else
        let rest := match takeFirst (fun x => x.key == startKey) b.stores with
          | some (_, r) => r
          | none => b.stores
        let b := { b with stores := rest }
        if rest.isEmpty then b.wr NVM_STATUS_BUSY 0 else b
    match b.start.store with
    | none => b
    | some _ =>
      if ok then
        if b.storing startKey then b
        else ({ b with start := { b.start with store := none } }).wr HBR_STATUS_STEP 4
      else b.startFail 3 0 0

/-- START_RECORD_STORED (R497). -/
def execStartRecordStored (ok : Bool) (s : State) : Out := onBlock s (fun b => b.startStored ok)

/-! ## Ready, held and watchdog (R492, R494, R500, R504) -/

/-- Step 8. -/
def Block.becomeReady (b : Block) : Block :=
  let b := b.startSettle
  if b.rd HBR_STATUS_STATE = 1 ∧ b.rd HBR_STATUS_STEP = 7 ∧ b.slices.all (fun e => e.2.wb.isEmpty) then
    let b := (b.wr HBR_STATUS_STEP 8).wr HBR_STATUS_STATE 2
    let b := { b with start := { b.start with ready := true } }
    let b := b.startPut (fun r => setAt (recSet r (recCounter r) (recFlags r / 2 * 2)) 0x10 8 b.now)
    (b.showRecord).intr 2 (b.on HBR_CTL_INT_READY)
  else b

/-- READY (R492); the EDT has been zeroed (R107). -/
def execReady (s : State) : Out := onBlock s Block.becomeReady

/-- READY has held for 10 s without a severity-3 event (R500). -/
def Block.readyHeld (b : Block) : Block :=
  if b.rd HBR_STATUS_STATE = 2 ∧ !b.on HBR_STATUS_HELD ∧ !b.pwr.inS3 then
    let b := b.startPut (fun r => recSet r 0 (recFlags r % 2))
    (b.showRecord).wr HBR_STATUS_HELD 1
  else b

/-- READY_HELD (R500). -/
def execReadyHeld (s : State) : Out := onBlock s Block.readyHeld

/-- START_WATCHDOG (R494). -/
def execStartWatchdog (s : State) : Out :=
  onBlock s (fun b => if b.rd HBR_STATUS_STATE = 1 ∧ b.start.open_ then b.startFail 9 0 0 else b)

/-- HBR_CTL.CLEAR in harbour mode entered by the count (R504). -/
def Block.harbourClear (b : Block) : Block :=
  let b := b.startPut (fun r => recSet r 2 (recFlags r % 2 + 2))
  (b.showRecord).wr HBR_STATUS_CLEAR_ARMED 1

/-! ## Commands of steps 5 and 6 -/

/-- Step 4 of a speed change, once the PLL has locked at a new rate: the switch of both subchannels, with the checks of R300
(10, speed change table). One that a check refuses ends the speed change, quiesced. -/
def Block.speedOn (b : Block) (n : Nat) : Block :=
  let rate := b.rd (PHY_STATUS_RATE (2 * n))
  match (List.range 16).find? (fun k => b.hasSec tyClauses k && setRate (b.sec tyClauses k) == rate) with
  | none => b
  | some k =>
    let (b, ok) := b.channelSwitch n k
    if ok then { b with phy := { b.phy with speed := b.phy.speed ++ [n] } } else b

/-- Steps 5 to 7 of a speed change, once both subchannels have switched: SNT_SRX and SNT_INIT of the new bin, then a
training with all ten steps (10, speed change table; R332). -/
def Block.speedSwitched (b : Block) (n : Nat) : Block :=
  if b.phy.speed.contains n && [2 * n, 2 * n + 1].all (fun s => (b.subs.get s).switchTo.isNone) then
    let b := { b with phy := { b.phy with speed := b.phy.speed.filter (fun x => x != n) } }
    forEach [2 * n, 2 * n + 1] b (fun b s =>
      let text := b.activeSet s
      let ask (b : Block) (num args : Nat) : Block := b.sntRequest s ⟨num, b.allRanks s, args, false, .speed⟩
      (ask (ask b (setSrx text) 0) (setInit text) (b.initArgs s [])).trainAsk s 0x7FE .speed)
  else b

/-- A channel PLL locks: in step 5, or after a rate change (R341, R492). -/
def Block.pllLocked (b : Block) (n : Nat) : Block :=
  let inStart := bitOf b.start.pllWait n
  let fresh := !b.on (PHY_STATUS_LOCKED (2 * n))
  let b := (b.wr (PHY_STATUS_LOCKED (2 * n)) 1).wr (PHY_STATUS_LOCKED (2 * n + 1)) 1
  if inStart then ({ b with start := { b.start with pllWait := maskDrop b.start.pllWait n } }).startSettle
  else if fresh && b.rd HBR_STATUS_STATE == 2 && (b.pwr.target.get n).isNone then b.speedOn n
  else b

/-- PLL_RELOCK (R341). -/
def execPllRelock (n : Fin 16) (s : State) : Out := onBlock s (fun b => b.pllLocked n)

/-- PLL_LOCK_TIMEOUT (R492): the channel is fenced with cause PLL. -/
def execPllLockTimeout (n : Fin 16) (s : State) : Out :=
  onBlock s (fun b => if bitOf b.start.pllWait n.val then (b.startChFail n 4 0).startSettle else b)

/-- RATE_CHANGE (R341): written by the Keeper; refused unless every rank of both subchannels is in self-refresh and CK is
stopped. A speed change empties the calibration sets (R354). -/
def Block.rateChange (b : Block) (n rate : Nat) : Block :=
  let still (s : Nat) : Bool :=
    decide (b.subRanks s ≤ (b.subs.get s).selfRef.length) && !b.on (PHY_STATUS_CK_RUNNING s)
  if still (2 * n) && still (2 * n + 1) then
    forEach [2 * n, 2 * n + 1] b (fun b s =>
      let b := (b.wr (PHY_STATUS_RATE s) rate).wr (PHY_RATE_RATE s) rate
      (b.wr (PHY_STATUS_LOCKED s) 0).calEmpty s)
  else b

/-- RATE_CHANGE (R341). -/
def execRateChange (n : Fin 16) (rate : BitVec 16) (s : State) : Out := onBlock s (fun b => b.rateChange n rate.toNat)

/-- A replacement goes on after the last discovery of its channel (R420): the bin, then the trainings. -/
def Block.attachTrain (b : Block) (n : Nat) : Block :=
  match b.selectBin n with
  | none => b.rplFail Block.event n 7
  | some k =>
    let (b, ok) := b.setBin n k
    if !ok then b.rplFail Block.event n 7
    else
    let b := (b.calLoadBase (2 * n)).calLoadBase (2 * n + 1)
    let b := { b with mod := { b.mod with phase := b.mod.phase.set n 5 } }
    (b.trainAsk (2 * n) 0x7FE .attach).trainAsk (2 * n + 1) 0x7FE .attach

/-- A discovery of the start (R408) or of harbour mode (R502) has ended. -/
def Block.discoveredStart (b : Block) (m : Nat) (p : ModuleProbe) : Block :=
  let b := { b with start := { b.start with discWait := maskDrop b.start.discWait m } }
  let b := b.discovered m p
  if b.harbour then
    if b.start.discWait = 0 then b.harbourNext 0 else b
  else
    let d := b.rd (MOD_STATE_DISC m)
    (if d = 0 then b else b.startChFail (m / 2) 5 d).startSettle

/-- A discovery that an ATTACH awaits has ended (R420). -/
def Block.discoveredSwap (b : Block) (m : Nat) (p : ModuleProbe) : Block :=
  let n := m / 2
  let b := { b with mod := { b.mod with wait := maskDrop b.mod.wait m } }
  let b := b.discovered m p
  if b.rd (MOD_STATE_DISC m) ≠ 0 then b.rplFail Block.event n 6
  else if bitOf b.mod.wait (2 * n) || bitOf b.mod.wait (2 * n + 1) then b
  else b.attachTrain n

/-- Discovery of slot `m` ends (R409), in a start, in harbour mode or in a replacement. -/
def Block.discoveryDone (b : Block) (m : Nat) (p : ModuleProbe) : Block :=
  if bitOf b.start.discWait m then b.discoveredStart m p
  else if bitOf b.mod.wait m && b.mod.phase.get (m / 2) == 4 then b.discoveredSwap m p
  else b

/-- MODULE_DISCOVERY_DONE (R409). -/
def execModuleDiscoveryDone (m : Fin 32) (p : ModuleProbe) (s : State) : Out := onBlock s (fun b => b.discoveryDone m p)

/-- A channel enters S1: SNT_SRE runs (R465), every rank is in self-refresh and CK is stopped. -/
def Block.sleepS1 (b : Block) (n : Nat) : Block :=
  let b := b.powerSre n
  let b := forEach [2 * n, 2 * n + 1] b (fun b s => b.updSub s (fun u => { u with
    selfRef := List.range (b.subRanks s), ckStop := true, ticking := false, debt := [], pd := []
    banks := u.banks.map (fun e => (e.1, { e.2 with row := none, due := false })) }))
  (b.ckSettle n).wr (PWR_CH_STATUS_STATE n) pwS1

/-- Memory initialisation of a channel ends (R420, R492, R493, R309): it fails when a subchannel has halted. -/
def Block.initDone (b : Block) (n : Nat) : Block :=
  let ss := [2 * n, 2 * n + 1]
  let halted := ss.any (fun s => b.on (CLS_STATUS_HALTED s))
  let clear (b : Block) : Block := forEach ss b (fun b s => b.updSub s (fun u => { u with initing := false }))
  if bitOf b.start.initWait n then
    let b := clear ({ b with start := { b.start with initWait := maskDrop b.start.initWait n } })
    let b := if halted then b.startChFail n 7 0 else if b.chSpare n then b.sleepS1 n else b
    b.startSettle
  else if b.mod.phase.get n = 6 then
    let b := clear b
    let b := { b with mod := { b.mod with phase := b.mod.phase.set n 0 } }
    let b := (b.wr (MOD_RPL_STATUS_STATE n) 4).wr (MOD_RPL_STATUS_CODE n) 0
    (b.wr MOD_STATUS_RPL_END 1).intr 26 (b.bit MOD_CTL_INT_EN 2)
  else clear b

/-- MEMORY_INIT_DONE (R420). -/
def execMemoryInitDone (n : Fin 16) (s : State) : Out := onBlock s (fun b => b.initDone n)

/-! ## The end of a training step (R326, R328, R331) -/

/-- Step 8 of a speed change: once neither subchannel of the channel trains, QUIESCE is cleared on those whose training
passed; a failed one stays quiesced (R339). -/
def Block.speedOver (b : Block) (n : Nat) : Block :=
  if b.trainBusy (2 * n) || b.trainBusy (2 * n + 1) then b
  else forEach [2 * n, 2 * n + 1] b (fun b t =>
    if b.on (PHY_STATUS_TRAINED t) then b.wr (SCH_CTL_QUIESCE t) 0 else b)

/-- A passing training: the values replace those in force, and what asked for it goes on. -/
def Block.trainPass (b : Block) (s : Nat) (run : TrainRun) (m : TrainMeas) (a : AfterTrain) : Block :=
  let b := (forEach run.found b (fun b e => b.wr e.1 e.2)).trainVref s run.vref
  let b := { b with phy := { b.phy with train := b.phy.train.set s none } }
  let b := ((b.wr (PHY_TRAIN_STATUS_STATE s) 3).wr (PHY_TRAIN_STATUS_CODE s) 0).wr (PHY_STATUS_TRAINED s) 1
  let b := b.wr (PHY_TRAIN_TIME_US s) ((b.now - run.start) / 1000)
  let b := ((b.calTrained s run.temp m.osc).afterTrain s a).trackFree s
  let b := b.trainCounts.intr 14 (b.bit (PHY_CTL_INT_EN s) 0)
  match run.why with
  | .attach =>
    let n := s / 2
    if b.rd (MOD_RPL_STATUS_STATE n) = 3 ∧ b.on (PHY_STATUS_TRAINED (2 * n)) ∧ b.on (PHY_STATUS_TRAINED (2 * n + 1))
        ∧ !b.trainBusy (2 * n) ∧ !b.trainBusy (2 * n + 1) then
      { b with mod := { b.mod with phase := b.mod.phase.set n 6 } }
    else b
  | .alert =>
    -- a lockstep pair goes on when both have passed (R335)
    if (b.pair s).any b.trainBusy then b else forEach (b.pair s) b (fun b t => b.wr (SCH_CTL_QUIESCE t) 0)
  | .speed => b.speedOver (s / 2)
  | _ => b.startSettle

/-- A failing training, with what follows: LIMITS at a retraining marks CAL_SUSPECT (R329, R364). -/
def Block.trainFails (b : Block) (s code lane : Nat) (failed : List Nat) : Block :=
  let why := (b.phy.train.get s).map (fun r => r.why)
  let b := b.failMask s failed
  let b := b.trainFail Block.event s code lane
  let b := if code = 3 ∧ why ≠ some .start ∧ why ≠ some .harbour then (b.wr (CAL_STATUS_LIMIT_HIT s) 1).suspect s lane else b
  let b := if why = some .speed then b.speedOver (s / 2) else b
  b.startSettle

/-- Steps 4 and 10 end after their sentence (R326). -/
def Block.stepHeard (b : Block) (s k : Nat) : Bool :=
  (k != 4 && k != 10) || (match b.phy.train.get s with
    | some run => run.snt.isSome
    | none => false)

/-- The step in progress ends with a measurement. At start and at ATTACH the refresh ticks begin at the end of step 4
(R270). -/
def Block.stepDone (b : Block) (s : Nat) (m : TrainMeas) (a : AfterTrain) : Block :=
  match b.phy.train.get s with
  | none => b
  | some run =>
    let k := b.rd (PHY_TRAIN_STATUS_STEP s)
    let r := b.judgeStep s k m
    if !b.stepHeard s k then b
    else if r.code ≠ 0 then b.trainFails s r.code (r.failed.headD 0xFF) r.failed
    else
      let run := { run with found := run.found ++ r.found, vref := run.vref ++ r.vref }
      let b := { b with phy := { b.phy with train := b.phy.train.set s (some run) } }
      let fresh := run.why == .start || run.why == .harbour || run.why == .attach
      let b := if k = 4 ∧ fresh then b.restartTicks s else b
      match nextStep run.steps k with
      | some j => b.enterStep s j
      | none => b.trainPass s run m a

/-- TRAINING_STEP_DONE (R326). -/
def execTrainingStepDone (i : Fin 32) (m : TrainMeas) (a : AfterTrain) (s : State) : Out :=
  onBlock s (fun b => ((b.addSat (ECC_CE_CNT_CNT (b.eccSub i)) m.ces).addSat
    (ECC_UE_CNT_CNT (b.eccSub i)) m.ues).stepDone i m a)

/-- TRAINING_STEP_TIMEOUT (R326). -/
def execTrainingStepTimeout (i : Fin 32) (s : State) : Out :=
  onBlock s (fun b => if (b.phy.train.get i).isSome then b.trainFails i 4 0xFF [] else b)

end Sys2Proof.Machine
end

