-- ==== Sys2Proof/Machine/Checker.lean ====
section
/-! DEFINITION. The clause checker (R304 to R309), the classification of an alert (R280, R338), and loopback
(R342, R343). -/

namespace Sys2Proof.Machine

open Reg

/-! ## Halts (R306, R307, R309) -/

/-- Slots within which a second violation after a reload is a repeat (R307). -/
def repeatSlots : Nat := 2 ^ 20

/-- What CLS_VIOL records of a violation or mismatch. -/
structure Viol where
  clause   : Nat
  mismatch : Bool
  cls      : Nat
  phase    : Nat
  rank     : Nat
  deriving DecidableEq, Repr

/-- The bit of CLS_STATUS a violation or mismatch sets. -/
def Viol.bit (v : Viol) (s : Nat) : Fld := if v.mismatch then CLS_STATUS_MISMATCH s else CLS_STATUS_VIOLATION s

/-- Load CLS_VIOL. -/
def Block.loadViol (b : Block) (s : Nat) (v : Viol) : Block :=
  let b := (b.wr (CLS_VIOL_CLAUSE s) v.clause).wrB (CLS_VIOL_KIND s) v.mismatch
  ((b.wr (CLS_VIOL_CMD s) v.cls).wr (CLS_VIOL_PHASE s) v.phase).wr (CLS_VIOL_RANK s) v.rank

/-- A violation or a mismatch on subchannel `s` (R306, R307, R309). While a reload is in progress, or no command may
issue at all, it sets its bit and no more; during refresh under REPEAT it stops every command. -/
def Block.haltSub (b : Block) (s : Nat) (v : Viol) : Block :=
  let u := b.subs.get s
  let b := (b.wr (v.bit s) 1).intr 12 (b.on (CLS_CTL_INT_VIOL s))
  let halted := b.on (CLS_STATUS_HALTED s)
  if halted && (u.reload || u.noSet || u.dead) then b
  else
    let again := match u.lastReload with
      | some t => decide (u.slot - t ≤ repeatSlots)
      | none => false
    let b := (b.loadViol s v).bump (CLS_VIOL_CNT_CNT s)
    let kind := (if v.mismatch then 1 else 0) + (if again then 2 else 0)
    let b := if again then b.wr (CLS_STATUS_REPEAT s) 1 else b
    let b := b.event0 (subEvent 48 kind s)
    let b :=
      if halted then forEach (b.pair s) b (fun b t => b.updSub t (fun u => { u with dead := true, noSet := true }))
      else
        let b := b.sentenceEnd (b.schedOf s) 7
        forEach (b.pair s) b (fun b t =>
          (b.updSub t (fun u => { u with reload := true, stay := again })).wr (CLS_STATUS_HALTED t) 1)
    b.sevFence (subEvent 48 kind s)

/-- The checker takes the oldest issued command it has not seen (R304). -/
def Block.clauseCheck (b : Block) (s : Nat) : Block :=
  let u := b.subs.get s
  let oldest := u.toCheck.foldl (fun m c => match m with
    | none => some c
    | some (d : HistCmd) => if c.pos < d.pos then some c else some d) none
  match oldest with
  | none => b
  | some c =>
    let k := c.pos / 8
    let rest := match takeFirst (fun x => x == c) u.toCheck with
      | some (_, r) => r
      | none => []
    let found := clauseAgainst (clausesOf u.shadow) s u.chkHist (b.sibChecked s k) c
    let b := b.updSub s (fun u => { u with
      toCheck := rest, chkHist := u.chkHist.filter (fun e => decide (c.pos ≤ e.pos + 8184)) ++ [c] })
    match found with
    | none => b
    | some i => b.haltSub s ⟨i, false, c.cls, c.pos % 8 / 4, c.rank⟩

/-- CLAUSE_CHECK (R304). -/
def execClauseCheck (i : Fin 32) (s : State) : Out := onBlock s (fun b => b.clauseCheck i)

/-- The comparison of one clause of the active slot with the shadow (R305); `parity` reports a parity error in either
copy. -/
def Block.clauseCompare (b : Block) (s : Nat) (parity : Bool) : Block :=
  let u := b.subs.get s
  let i := u.cmp
  let differs := clauseWord (b.activeSet s) i != clauseWord u.shadow i
  let b := b.updSub s (fun u => { u with cmp := (u.cmp + 1) % 128 })
  if parity || differs then b.haltSub s ⟨i, true, 0, 0, 0⟩ else b

/-- CLAUSE_COMPARE (R305). -/
def execClauseCompare (i : Fin 32) (parity : Bool) (s : State) : Out := onBlock s (fun b => b.clauseCompare i parity)

/-- Step 4 of R306: every bank CLOSED, and PREab to every rank, but those in self-refresh, before any other command. -/
def Block.closeRanks (b : Block) (s : Nat) : Block :=
  let ranks := (List.range (b.subRanks s)).filter (fun r => !(b.subs.get s).selfRef.contains r)
  b.updSub s (fun u => { u with
    preAll := !ranks.isEmpty
    preFirst := ranks ++ u.preFirst.filter (fun r => !ranks.contains r)
    banks := u.banks.map (fun e => (e.1, { e.2 with row := none, due := false })) })

/-- The reload of a halt ends (R306 steps 3 to 5, R307, R309). -/
def Block.reloadDone (b : Block) (s : Nat) : Block :=
  forEach (b.pair s) b (fun b t =>
    let u := b.subs.get t
    if !(u.reload && b.on (CLS_STATUS_HALTED t)) then b
    else
      let (b, ok) := b.reloadClauses t
      if !ok then
        let b := b.updSub t (fun u => { u with reload := false, stay := true, noSet := true })
        ((b.wr (CLS_STATUS_STORE_ERR t) 1).intr 12 (b.on (CLS_CTL_INT_VIOL t))).event (subEvent 48 4 t)
      else
        let b := (b.updSub t (fun u => { u with reload := false, lastReload := some u.slot })).closeRanks t
        if u.stay then b
        else
          let b := if u.noSet then b.haltLost t (b.rd (SCH_REF_PARAM_P t)) else b
          (b.replay t true).wr (CLS_STATUS_HALTED t) 0)

/-- HALT_RELOAD_DONE (R307). -/
def execHaltReloadDone (i : StoreRead) (s : State) : Out :=
  onBlock s (fun b => (b.storeUpset i.flip).reloadDone i.sub)

/-- The switch in progress ends (R301); a halt is left by a switch that succeeds (R307), with what
steps 4 and 5 of R306 do. -/
def Block.switchDone (b : Block) (s : Nat) : Block :=
  match (b.subs.get s).switchTo with
  | none => b
  | some bin =>
    forEach (b.pair s) b (fun b t =>
      let halted := b.on (CLS_STATUS_HALTED t)
      let p := b.rd (SCH_REF_PARAM_P t)
      let b := b.activate t bin
      if halted then
        let b := ((b.wr (CLS_STATUS_HALTED t) 0).haltLost t p).closeRanks t
        (b.updSub t (fun u => { u with stay := false, reload := false, dead := false })).replay t true
      else b)
    |>.speedSwitched (s / 2)

/-- CLAUSE_SWITCH_DONE (R301). -/
def execClauseSwitchDone (i : Fin 32) (s : State) : Out := onBlock s (fun b => b.switchDone i)

/-- CLS_CTL.RESUME (R307): a halt that outlasted its reload begins another. -/
def Block.clsResume (b : Block) (s : Nat) : Block :=
  if b.on (CLS_STATUS_HALTED s) && !(b.subs.get s).reload then
    forEach (b.pair s) b (fun b t => b.updSub t (fun u => { u with reload := true, stay := false, dead := false }))
  else b

/-! ## Alert classification (R280, R338) -/

/-- Number of a class in the list of classified alerts. -/
def alertNum : AlertClass → Nat
  | .backoffOnly => 0
  | .writeCrc => 1
  | .caParity => 2

/-- The steps of the retraining after repeated alerts (R338): 5, 8 and 10, or 2, 3, 4 and 10. -/
def alertSteps : AlertClass → Nat
  | .backoffOnly => 0
  | .writeCrc => 0x520
  | .caParity => 0x41C

/-- The third alert of one class within 1,024 slots (R280), and what follows it: a failed memory initialisation (R493),
or a retraining under AUTO_RETRAIN (R338). -/
def Block.alertThird (b : Block) (s : Nat) (k : AlertClass) : Block :=
  let b := b.updSub s (fun u => { u with alerts := u.alerts.filter (fun a => a.1 != alertNum k) })
  let b := b.event (subEvent 51 0 s)
  let b := if bitOf b.start.initWait (s / 2) then (b.startChFail (s / 2) 7 0).startSettle else b
  if b.on (PHY_CTL_AUTO_RETRAIN s) && alertSteps k != 0 then
    let b := forEach (b.pair s) b (fun b t => b.wr (SCH_CTL_QUIESCE t) 1)
    b.trainAsk s (alertSteps k) .alert
  else b

/-- The alert sentence's result classifies the alert (R280). -/
def Block.alertClass (b : Block) (s : Nat) (k : AlertClass) : Block :=
  let u := b.subs.get s
  if u.classify = 0 then b
  else
    let recent := u.alerts.filter (fun a => a.1 == alertNum k && decide (u.slot - a.2 < 1024))
    let b := b.updSub s (fun u => { u with classify := u.classify - 1, alerts := (alertNum k, u.slot) :: u.alerts.take 16 })
    let b := match k with
      | .backoffOnly => b
      | .writeCrc => b.replay s false
      | .caParity => b.replay s true
    if 2 ≤ recent.length then b.alertThird s k else b

/-- ALERT_CLASSIFICATION (R280). -/
def execAlertClassification (i : Fin 32) (k : AlertClass) (s : State) : Out := onBlock s (fun b => b.alertClass i k)

/-! ## Loopback (R342, R343) -/

/-- Every module of the channel is an MRDIMM whose discovered capabilities include buffer loopback. -/
def Block.farLoop (b : Block) (s : Nat) : Bool :=
  let n := s / 2
  b.chDimms n != 0 && (List.range (b.chDimms n)).all (fun d =>
    let l := b.mod.ledger.get (2 * n + d)
    l.type == 2 && bitOf l.caps 4)

/-- The condition of the selected mode holds, and no training runs (R342). -/
def Block.loopAllowed (b : Block) (s : Nat) : Bool :=
  (b.phy.train.get s).isNone && b.quiesced s &&
  match b.rd (PHY_LOOP_CTL_MODE s) with
  | 1 => true
  | 2 => b.subRanks s != 0 && decide (b.subRanks s ≤ (b.subs.get s).selfRef.length)
  | 3 => b.farLoop s
  | _ => false

/-- PHY_LOOP_CTL.GO (R342). A GO while a loopback runs changes nothing. -/
def Block.loopGo (b : Block) (s : Nat) : Block :=
  if b.on (PHY_LOOP_STATUS_BUSY s) then b
  else if b.loopAllowed s then
    let b := (b.wr (PHY_LOOP_LANES_LO_DQ s) 0).wr (PHY_LOOP_LANES_HI_DQ s) 0
    let b := (b.wr (PHY_LOOP_STATUS_BUSY s) 1).wr (PHY_LOOP_STATUS_CODE s) 0
    -- mode 3: the Keeper places the data buffers in loopback by sentence
    if b.rd (PHY_LOOP_CTL_MODE s) = 3 then b.keeperRequest (b.schedOf s) .loopIn false else b
  else (b.wr (PHY_LOOP_STATUS_CODE s) 1).intr 14 (b.bit (PHY_CTL_INT_EN s) 2)

/-- A running loopback reports its bit errors and ends (R343); in mode 3 it begins after the sentence that places the data
buffers in loopback, and a sentence takes them out of it (R342). -/
def Block.loopReport (b : Block) (s errs lanes : Nat) : Block :=
  if b.on (PHY_LOOP_STATUS_BUSY s) && !b.sntPending (b.schedOf s) .loopIn then
    let b := (b.addSat (PHY_LOOP_ERR_CNT_CNT s) errs).wr (PHY_LOOP_LANES_LO_DQ s) (lanes % 2 ^ 32)
    let b := (b.wr (PHY_LOOP_LANES_HI_DQ s) (lanes / 2 ^ 32)).loopEnd s (if errs = 0 then 0 else 3)
    if b.rd (PHY_LOOP_CTL_MODE s) = 3 then b.keeperRequest (b.schedOf s) .loopOut false else b
  else b

/-- LOOPBACK_DONE (R343): with LENGTH 0 a loopback runs until STOP. -/
def execLoopbackDone (i : Fin 32) (errs : BitVec 32) (lanes : BitVec 40) (s : State) : Out :=
  onBlock s (fun b => if b.rd (PHY_LOOP_CTL_LENGTH i) = 0 then b else b.loopReport i errs.toNat lanes.toNat)

end Sys2Proof.Machine
end

