-- ==== Sys2Proof/Machine/Codec.lean ====
section
/-! DEFINITION. The DRAM code (R372 to R376): Reed-Solomon over GF(2^8), its encoding, the poison pattern, and the four
outcomes of decoding. A codeword is held as a value whose byte n is symbol n. -/

namespace Sys2Proof.Machine

/-! ## GF(2^8) -/

/-- Multiply by α (0x02) modulo 0x11D. -/
def gfDouble (a : Nat) : Nat := if a < 128 then 2 * a else (2 * a) ^^^ 0x11D

/-- The product of `a` and the low `n` bits of `b`. -/
def gfMulN : Nat → Nat → Nat → Nat
  | 0, _, _ => 0
  | n + 1, a, b => (if b % 2 = 1 then a else 0) ^^^ gfMulN n (gfDouble a) (b / 2)

/-- Product in the field. -/
def gfMul (a b : Nat) : Nat := gfMulN 8 a b

/-- Power by repeated squaring over the low `n` bits of `e`. -/
def gfPowN : Nat → Nat → Nat → Nat
  | 0, _, _ => 1
  | n + 1, a, e => gfMul (if e % 2 = 1 then a else 1) (gfPowN n (gfMul a a) (e / 2))

/-- Power in the field. -/
def gfPow (a e : Nat) : Nat := gfPowN 8 a e

/-- Inverse of a non-zero element. -/
def gfInv (a : Nat) : Nat := gfPow a 254

/-- α to the power `e`. -/
def gfAlpha (e : Nat) : Nat := gfPow 2 (e % 255)

/-! ## Polynomials, lowest coefficient first -/

/-- Sum of two polynomials. -/
def polyAdd : List Nat → List Nat → List Nat
  | [], q => q
  | p, [] => p
  | a :: p, b :: q => (a ^^^ b) :: polyAdd p q

/-- Product of two polynomials. -/
def polyMul : List Nat → List Nat → List Nat
  | [], _ => []
  | a :: p, q => polyAdd (q.map (gfMul a)) (0 :: polyMul p q)

/-- Value of a polynomial. -/
def polyEval (x : Nat) : List Nat → Nat
  | [] => 0
  | a :: p => a ^^^ gfMul x (polyEval x p)

/-- Formal derivative: the odd coefficients, each one place down. -/
def polyDeriv : List Nat → List Nat
  | [] => []
  | [_] => []
  | _ :: a :: p => a :: 0 :: polyDeriv p

/-- g(x) with roots α^0 to α^(r − 1). -/
def genPoly (r : Nat) : List Nat := (List.range r).foldl (fun g i => polyMul g [gfAlpha i, 1]) [1]

/-! ## Encoding (R372, R373) -/

/-- Symbols of a codeword and its check symbols: 80 and 16, or 160 and 32 in lockstep. -/
def wordLen (lock : Bool) : Nat := if lock then 160 else 80
/-- Check symbols. -/
def checkLen (lock : Bool) : Nat := if lock then 32 else 16
/-- Data symbols. -/
def dataLen (lock : Bool) : Nat := if lock then 128 else 64

/-- Symbol `n` of a codeword. -/
def symbolOf (w n : Nat) : Nat := (w >>> (8 * n)) % 256

/-- One step of the division by g: `rem` holds the remainder, highest coefficient first; `g` the coefficients of g below
its leading one, highest first. -/
def remStep (g rem : List Nat) (a : Nat) : List Nat :=
  let f := rem.headD 0 ^^^ a
  List.zipWith (fun r c => r ^^^ gfMul f c) (rem.drop 1 ++ [0]) g

/-- The check symbols of data bytes. -/
def checkSymbols (lock : Bool) (data : List Nat) : List Nat :=
  let r := checkLen lock
  let g := ((genPoly r).take r).reverse
  data.foldl (remStep g) (List.replicate r 0)

/-- A value from symbols, symbol 0 lowest. -/
def ofSymbols : List Nat → Nat
  | [] => 0
  | a :: t => a % 256 + 256 * ofSymbols t

/-- The codeword of a data value: data symbols first, then the check symbols. -/
def encodeData (lock : Bool) (data : Nat) : Nat :=
  let bytes := (List.range (dataLen lock)).map (symbolOf data)
  data % 2 ^ (8 * dataLen lock) + ofSymbols (checkSymbols lock bytes) <<< (8 * dataLen lock)

/-- The poison pattern: all-zero data with every check symbol inverted (R375). -/
def poisonWord (lock : Bool) : Nat := (2 ^ (8 * checkLen lock) - 1) <<< (8 * dataLen lock)

/-! ## Devices (R372, R373) -/

/-- The symbols of device `d`. -/
def deviceSymbols (lock : Bool) (d : Nat) : List Nat :=
  let first :=
    if !lock then 8 * d
    else if d < 8 then 8 * d
    else if d < 10 then 128 + 8 * (d - 8)
    else if d < 18 then 64 + 8 * (d - 10)
    else 144 + 8 * (d - 18)
  (List.range 8).map (fun k => first + k)

/-- Subchannel of the pair (0 for A, or the only one) on which symbol `n` lies, and its number among the 80 symbols there
(R373). -/
def symbolPlace (lock : Bool) (n : Nat) : Nat × Nat :=
  if !lock || decide (n < 64) then (0, n)
  else if n < 128 then (1, n - 64)
  else if n < 144 then (0, n - 64)
  else (1, n - 80)

/-- The symbol of a subchannel's number `p`. -/
def symbolAt (lock : Bool) (half p : Nat) : Nat :=
  if !lock then p
  else if p < 64 then 64 * half + p
  else 64 + p + 16 * half

/-- DQ lane and beat of the BL16 burst that carry bit `m` of symbol `n`, after its subchannel (R372). -/
def bitPin (lock : Bool) (n m : Nat) : Nat × Nat × Nat :=
  let (half, p) := symbolPlace lock n
  (half, 4 * (p / 8) + m % 4, 2 * (p % 8) + m / 4)

/-- The level of a DQ lane in a beat of the burst of a codeword. -/
def pinLevel (lock : Bool) (w half lane beat : Nat) : Bool :=
  bitOf w (8 * symbolAt lock half (8 * (lane / 4) + beat / 2) + 4 * (beat % 2) + lane % 4)

/-- How many devices a codeword lies on. -/
def deviceCount (lock : Bool) : Nat := if lock then 20 else 10

/-- The devices of the data symbols. -/
def dataDevices (lock : Bool) : List Nat :=
  if lock then List.range 8 ++ (List.range 8).map (· + 10) else List.range 8

/-! ## Decoding (R374 to R376) -/

/-- The syndromes of a word, from that of root α^0 on. -/
def syndromes (lock : Bool) (w : Nat) : List Nat :=
  let sym := (List.range (wordLen lock)).map (symbolOf w)
  (List.range (checkLen lock)).map (fun j =>
    let x := gfAlpha j
    sym.foldl (fun acc c => gfMul acc x ^^^ c) 0)

/-- Locators of symbols: symbol n is the coefficient of x^(len − 1 − n). -/
def locators (lock : Bool) (syms : List Nat) : List Nat := syms.map (fun n => gfAlpha (wordLen lock - 1 - n))

/-- The product of (1 + X x) over locators. -/
def locatorPoly (xs : List Nat) : List Nat := xs.foldl (fun p x => polyMul p [1, x]) [1]

/-- The syndromes are those of some error confined to symbols with these locators: they satisfy the recurrence of the
locator polynomial. -/
def confinedTo (synd : List Nat) (lam : List Nat) : Bool :=
  let v := lam.length - 1
  (List.range (synd.length - v)).all (fun t =>
    (List.range (v + 1)).foldl (fun acc i => acc ^^^ gfMul (lam.getD i 0) (synd.getD (v + t - i) 0)) 0 == 0)

/-- The error values at the locators (Forney). -/
def errorValues (synd lam : List Nat) (xs : List Nat) : List Nat :=
  let omega := (polyMul synd lam).take xs.length
  let der := polyDeriv lam
  xs.map (fun x =>
    let i := gfInv x
    gfMul x (gfMul (polyEval i omega) (gfInv (polyEval i der))))

/-- The error pattern confined to symbols, if the syndromes allow one. -/
def solveFor (lock : Bool) (synd syms : List Nat) : Option Nat :=
  let xs := locators lock syms
  let lam := locatorPoly xs
  if confinedTo synd lam then
    let vals := errorValues synd lam xs
    some ((List.zip syms vals).foldl (fun m e => m ^^^ (e.2 <<< (8 * e.1))) 0)
  else none

/-- What decoding a codeword gives: CLEAN, CORRECTED with its error pattern and devices, POISON, UNCORRECTABLE. -/
inductive Decoded
  | clean
  | corrected (error : Nat) (devices : List Nat)
  | poison
  | bad
  deriving DecidableEq, Repr

/-- The devices an error pattern touches. -/
def touched (lock : Bool) (error : Nat) (ds : List Nat) : List Nat :=
  ds.filter (fun d => (deviceSymbols lock d).any (fun n => symbolOf error n != 0))

/-- The word is the poison pattern, alone or with an error confined to one device of the data symbols (R375). -/
def isPoison (lock : Bool) (synd : List Nat) : Bool :=
  let diff := List.zipWith (· ^^^ ·) synd (syndromes lock (poisonWord lock))
  diff.all (· == 0) || (dataDevices lock).any (fun d => confinedTo diff (locatorPoly (locators lock (deviceSymbols lock d))))

/-- Decode a word; `erased` is the erased device of a lockstep pair (R374 to R376). -/
def decodeWord (lock : Bool) (erased : Option Nat) (w : Nat) : Decoded :=
  let synd := syndromes lock w
  if synd.all (· == 0) then .clean
  else if isPoison lock synd then .poison
  else
    let ds := List.range (deviceCount lock)
    match erased with
    | none =>
      match ds.findSome? (fun d => (solveFor lock synd (deviceSymbols lock d)).map (fun e => (e, d))) with
      | some (e, d) => .corrected e [d]
      | none => .bad
    | some x =>
      match solveFor lock synd (deviceSymbols lock x) with
      | some e => .corrected e [x]
      | none =>
        match (ds.filter (· != x)).findSome? (fun d => solveFor lock synd (deviceSymbols lock x ++ deviceSymbols lock d)) with
        | some e => .corrected e (touched lock e ds)
        | none => .bad

/-- The data of the half a sector occupies: the whole word of an independent subchannel, the half of an even sector (A) or
an odd one (B) of a lockstep pair. -/
def halfData (lock : Bool) (w sec : Nat) : BitVec 512 :=
  BitVec.ofNat 512 (if lock && sec % 2 == 1 then w >>> 512 else w)

/-- The data value of a codeword from the data of its sectors. -/
def joinData (lock : Bool) (even odd : BitVec 512) : Nat := if lock then even.toNat + odd.toNat <<< 512 else even.toNat

end Sys2Proof.Machine
end

