-- ==== Sys2Proof/Machine/Ecc.lean ====
section
/-! DEFINITION. Accounting of DRAM outcomes (R376, R379 to R395): the leaky bucket, the address log, persistence, repair,
erasure, and error injection (R404 to R406). In a lockstep channel subchannel A keeps the records of the pair. -/

namespace Sys2Proof.Machine

open Reg

/-- Location form of a place of a subchannel (R508). -/
def placeAddr (s : Nat) (c : Coord) (device : Nat) : Nat :=
  locAddr 1 s (subDetail c.rank c.bg c.bank c.row (c.col / 16) device)

/-- KIND of an ECC event: [7] INJECTED (R508). -/
def injKind (inj : Bool) : Nat := if inj then 0x80 else 0

/-! ## The bucket (R383, R384) -/

/-- One addition to the bucket; at BUCKET_SIZE it overflows. -/
def Block.bucketAdd (b : Block) (s : Nat) (at_ : Coord) : Block :=
  let level := b.rd (ECC_STATUS_LEVEL s) + 1
  if max 1 (b.rd (ECC_CE_CFG_BUCKET_SIZE s)) ≤ level then
    let b := ((b.wr (ECC_STATUS_LEVEL s) 0).wr (ECC_STATUS_BUCKET_OVF s) 1).bump (ECC_OVF_CNT_CNT s)
    let b := (b.intr 16 (b.on ECC_CTL_INT_OVF)).event (subEvent 57 0 s)
    b.feedOvf (b.slotOf s at_.rank)
  else b.wr (ECC_STATUS_LEVEL s) level

/-- A write of ECC_CE_CFG has been performed: the level is 0 (R384), and with MODE 1 no log is kept, so that entries are
freed unless a repair of them runs (R387, R388). -/
def Block.bucketSet (b : Block) (s : Nat) : Block :=
  let b := b.wr (ECC_STATUS_LEVEL s) 0
  if b.rd (ECC_CE_CFG_MODE s) = 1 then
    forEach (List.range 32) b (fun b i => b.updLog s i (fun e => if e.repair = 2 then e else default))
  else b

/-- A leak (R383). -/
def Block.bucketLeak (b : Block) (s : Nat) : Block := b.wr (ECC_STATUS_LEVEL s) (b.rd (ECC_STATUS_LEVEL s) - 1)

/-- BUCKET_LEAK (R383). -/
def execBucketLeak (i : Fin 32) (s : State) : Out := onBlock s (fun b => b.bucketLeak i)

/-! ## Repair (R392 to R395) -/

/-- The module of a rank supports soft (bit 0) or hard (bit 1) repair. -/
def Block.repairCap (b : Block) (s rank bit_ : Nat) : Bool := bitOf (b.mod.ledger.get (b.slotOf s rank)).caps bit_

/-- Spare rows of a bank group as last read (ECC_REPAIR_RES). -/
def Block.spareRows (b : Block) (s bg : Nat) : Nat := bitsOf (b.rd (ECC_REPAIR_RES_RES s)) (4 * bg + 3) (4 * bg)

/-- A soft repair is active in the bank group on one of the devices (R393). -/
def Block.softActive (b : Block) (s : Nat) (e : LogEnt) : Bool := (b.ecc.soft.get (8 * s + e.bg) &&& e.devices) != 0

/-- A repair of a log entry starts: the entry is PENDING, and the Keeper requests its sentence on the entry's rank. -/
def Block.repairStart (b : Block) (s i : Nat) (hard : Bool) (role : Nat) : Block :=
  let e := b.ecc.log.get (32 * s + i)
  let b := { b with ecc := { b.ecc with repair := b.ecc.repair.set s (some ⟨i, hard, role, e.repair⟩) } }
  let b := (b.updLog s i (fun e => { e with repair := 2 })).wr (ECC_REPAIR_STATUS_BUSY s) 1
  b.sntRequest s ⟨b.keeperSentence .repair, 2 ^ e.rank, 0, hard, .repair⟩

/-- A soft repair is not possible because one is active already: NO_RESOURCE, and the entry stays offered for a hard
repair (R393); with no spare row left the module's verdict is REPLACE (R416). -/
def Block.softRefused (b : Block) (s i : Nat) : Block :=
  let e := b.ecc.log.get (32 * s + i)
  let b := b.updLog s i (fun e => { e with repair := 6 })
  if b.spareRows s e.bg = 0 then b.judge (b.slotOf s e.rank) else b

/-- An automatic soft repair (R393). -/
def Block.softAuto (b : Block) (s i : Nat) : Block :=
  let e := b.ecc.log.get (32 * s + i)
  if !b.on (ECC_CE_CFG_SOFT_AUTO s) || e.repair != 1 || !b.repairCap s e.rank 0 || (b.ecc.repair.get s).isSome then b
  else if b.softActive s e then b.softRefused s i
  else b.repairStart s i false 0

/-- A write of ECC_REPAIR_CTL with GO (R393 to R395). -/
def Block.repairGo (b : Block) (s role : Nat) : Block :=
  let i := b.rd (ECC_REPAIR_CTL_ENTRY s)
  let e := b.ecc.log.get (32 * s + i)
  let hard := b.on (ECC_REPAIR_CTL_HARD s)
  let code (b : Block) (n : Nat) : Block := b.wr (ECC_REPAIR_CODE_CODE s) n
  if !(e.valid && e.persistent) || b.rd (ECC_CE_CFG_MODE s) = 1 then code b 3
  else if hard then
    if !(b.quiesced s || b.subFenced s) then code b 1
    else if b.spareRows s e.bg = 0 || !b.repairCap s e.rank 1 then code b 2
    else b.repairStart s i true role
  else if !b.repairCap s e.rank 0 then code b 2
  else if b.softActive s e then code (b.softRefused s i) 2
  else b.repairStart s i false role

/-- A write of ECC_REPAIR_CTL while a repair runs is ignored (R395). -/
def Block.repairBusy (b : Block) (s : Nat) : Bool := (b.ecc.repair.get s).isSome

/-! ## Erasure (R376) -/

/-- The erased device of a lockstep pair. -/
def Block.erased (b : Block) (s : Nat) : Option Nat :=
  if b.chLockstep (s / 2) && b.on (ECC_ERASE_VALID s) && decide (b.rd (ECC_ERASE_DEVICE s) < 20)
  then some (b.rd (ECC_ERASE_DEVICE s)) else none

/-- The ledger of a slot records an erased device (R376, R413). -/
def Block.ledgerErase (b : Block) (m d : Nat) : Block :=
  ((b.updLedger m (fun l => { l with erased := true, erasedDev := some d })).judge m).storeLedger m

/-- The block erases device `d` of a pair (R376). -/
def Block.eraseByBlock (b : Block) (s rank d : Nat) : Block :=
  let b := ((b.wr (ECC_ERASE_VALID s) 1).wr (ECC_ERASE_BY_BLOCK s) 1).wr (ECC_ERASE_DEVICE s) d
  (b.event (subEvent 61 0 s)).ledgerErase (b.slotOf s rank) d

/-- A write of ECC_ERASE has been performed (R376): installer firmware's erasure is not by the block. -/
def Block.eraseWritten (b : Block) (s : Nat) : Block :=
  let b := b.wr (ECC_ERASE_BY_BLOCK s) 0
  match b.erased s with
  | some d => b.ledgerErase (b.slotOf s 0) d
  | none => b

/-- One device accounts for ERASE_AT persistent entries of a lockstep pair (R376). -/
def Block.eraseCheck (b : Block) (s rank : Nat) (devs : List Nat) : Block :=
  let at_ := b.rd (ECC_CE_CFG_ERASE_AT s)
  if !b.chLockstep (s / 2) || at_ = 0 || (b.erased s).isSome then b
  else
    let full := devs.find? (fun d =>
      decide (at_ ≤ ((List.range 32).filter (fun i =>
        let e := b.ecc.log.get (32 * s + i)
        e.valid && e.persistent && bitOf e.devices d)).length))
    match full with
    | some d => b.eraseByBlock s rank d
    | none => b

/-! ## The address log (R385, R386, R389, R390) -/

/-- A time of the log lies within ECC_PERSIST.SECONDS of now. -/
def Block.withinPersist (b : Block) (t : Nat) : Bool :=
  decide ((b.logTime + 2 ^ 32 - t) % 2 ^ 32 * 2 ^ 20 ≤ max 1 (b.rd ECC_PERSIST_SECONDS) * 1000000000)

/-- The valid entry of a place. -/
def Block.logFind (b : Block) (s : Nat) (c : Coord) : Option Nat :=
  (List.range 32).find? (fun i =>
    let e := b.ecc.log.get (32 * s + i)
    e.valid && e.rank == c.rank && e.bg == c.bg && e.bank == c.bank && e.row == c.row && e.col == c.col / 16)

/-- The entry a new address takes (R385): a free one, or with LOG_FULL 0 that of oldest LAST_T that is not persistent. -/
def Block.logSlot (b : Block) (s : Nat) : Option Nat :=
  match (List.range 32).find? (fun i => !(b.ecc.log.get (32 * s + i)).valid) with
  | some i => some i
  | none =>
    if b.on (ECC_CE_CFG_LOG_FULL s) then none
    else
      let age (i : Nat) : Nat := (b.logTime + 2 ^ 32 - (b.ecc.log.get (32 * s + i)).lastT) % 2 ^ 32
      match (List.range 32).filter (fun i => !(b.ecc.log.get (32 * s + i)).persistent) with
      | [] => none
      | i :: t => some (t.foldl (fun m j => if age m < age j then j else m) i)

/-- A set of devices; of a lockstep pair, A's are 0 to 9 and B's 10 to 19 (R373). -/
def deviceBits (devs : List Nat) : Nat := devs.foldl (fun m d => m ||| (1 <<< d)) 0

/-- An entry becomes PERSISTENT (R390). -/
def Block.becomePersistent (b : Block) (s i : Nat) (c : Coord) (devs : List Nat) : Block :=
  let m := b.slotOf s c.rank
  let can := b.repairCap s c.rank 0 || b.repairCap s c.rank 1
  let b := b.updLog s i (fun e => { e with persistent := true, repair := if can then 1 else 6 })
  let b := (b.wr (ECC_STATUS_PERSIST s) 1).intr 16 (b.on ECC_CTL_INT_PERSIST)
  let k := b.rd SCB_STATUS_CURRENT
  let b := if b.on SCB_STATUS_BUSY then b.bump (SCB_SUM_WORD k 10) else b
  let dev := match devs with
    | [d] => d
    | _ => 0x1F
  let b := b.event { code := 58, kind := 0, form := 1, addr := placeAddr s c dev, unit_ := .sub s, sev := none }
  let b := b.eraseCheck s c.rank devs
  (b.feedPersist m).softAuto s i

/-- A correctable event enters the log (R385, R389). The answer's second part says that it does not feed the bucket: it
belongs to a persistent address. -/
def Block.logEvent (b : Block) (s : Nat) (c : Coord) (dpa : Option Nat) (devs : List Nat) (inj susp : Bool) :
    Block × Bool :=
  match b.logFind s c with
  | some i =>
    let e := b.ecc.log.get (32 * s + i)
    let new := !inj && !e.persistent && e.wbSeen && b.withinPersist e.wbT
    let b := b.updLog s i (fun e => { e with
      count := min (e.count + 1) 65535, devices := e.devices ||| deviceBits devs, lastT := b.logTime
      dpa := if dpa.isSome then dpa else e.dpa, injected := inj, realSuspect := e.realSuspect || susp
      wbSeen := e.wbSeen && (inj || new || e.persistent) })
    if new then (b.becomePersistent s i c devs, true) else (b, e.persistent)
  | none =>
    match b.logSlot s with
    | none => ((b.bump (ECC_LOG_LOST_CNT_CNT s)).wr (ECC_STATUS_LOG_FULL s) 1, false)
    | some i =>
      (b.updLog s i (fun _ => { (default : LogEnt) with
        valid := true, rank := c.rank, bg := c.bg, bank := c.bank, col := c.col / 16, row := c.row
        devices := deviceBits devs, dpa := dpa, count := 1, injected := inj, realSuspect := susp
        firstT := b.logTime, lastT := b.logTime }), false)

/-- A correctable event of a DRAM read (R379, R383, R405). -/
def Block.ceEvent (b : Block) (s : Nat) (c : Coord) (dpa : Option Nat) (devs : List Nat) (inj susp : Bool) : Block :=
  let b := b.bump (ECC_CE_CNT_CNT s)
  let b := if susp then b.wr (ECC_STATUS_REAL_SUSPECT s) 1 else b
  let mode := b.rd (ECC_CE_CFG_MODE s)
  let (b, persistent) := if bitOf mode 1 then b.logEvent s c dpa devs inj susp else (b, false)
  let b := if bitOf mode 0 && !inj && !persistent then b.bucketAdd s c else b
  if inj then b else b.feedCE (b.slotOf s c.rank)

/-! ## Uncorrectable outcomes (R380) -/

/-- Load ECC_UE_REC. -/
def Block.loadUeRec (b : Block) (s : Nat) (c : Coord) (dpa : Option Nat) (inj susp recovered : Bool) : Block :=
  let n (x : Bool) (k : Nat) : Nat := if x then 2 ^ k else 0
  let a := dpa.getD 0
  let b := b.wr (ECC_UE_REC_WORD s 0) (c.rank + c.bg * 2 ^ 4 + c.bank * 2 ^ 8 + c.col / 16 * 2 ^ 16)
  let b := b.wr (ECC_UE_REC_WORD s 1) (c.row + 0x1F * 2 ^ 24)
  let b := b.wr (ECC_UE_REC_WORD s 2) (a % 2 ^ 32)
  b.wr (ECC_UE_REC_WORD s 3) (a / 2 ^ 32 + n recovered 28 + n susp 29 + n inj 30 + n dpa.isSome 31)

/-- The event of an ECC source: DPA form where the DPA is known (R508). -/
def eccEvent (code s : Nat) (c : Coord) (dpa : Option Nat) (inj : Bool) : Event :=
  match dpa with
  | some a => { code := code, kind := injKind inj, form := 0, addr := a, unit_ := .sub s, sev := none }
  | none => { code := code, kind := injKind inj, form := 1, addr := placeAddr s c 0x1F, unit_ := .sub s, sev := none }

/-- An UNCORRECTABLE outcome of a DRAM read (R380, R405). -/
def Block.ueEvent (b : Block) (s : Nat) (c : Coord) (dpa : Option Nat) (inj susp recovered : Bool) : Block :=
  let b := ((b.bump (ECC_UE_CNT_CNT s)).wr (ECC_STATUS_UE s) 1).intr 16 (b.on ECC_CTL_INT_UE)
  let b := if susp then b.wr (ECC_STATUS_REAL_SUSPECT s) 1 else b
  let b := b.loadUeRec s c dpa inj susp recovered
  let b := b.event (eccEvent 55 s c dpa inj)
  if inj then b else b.feedUE (b.slotOf s c.rank)

/-! ## Decoding a read (R374, R379, R382, R404 to R406) -/

/-- What a decoded read answers. -/
inductive RdOut
  /-- Readable; `erasure` where the one correction was that of the erased device (R376). -/
  | ok (corrected erasure : Bool)
  | poison
  | ue (injected suspect : Bool)
  deriving DecidableEq, Repr

/-- The status of an outcome. -/
def RdOut.status : RdOut → Nat
  | .ok c _ => if c then stCorrected else stOK
  | .poison => stPoison
  | .ue _ _ => stUE

/-- Decode the codeword read from a place: a READ injection is applied first; CORRECTED and POISON are accounted for.
An UNCORRECTABLE outcome is left to the caller. -/
def Block.decodeRead (b : Block) (s : Nat) (c : Coord) (dpa : Option Nat) (code : Nat) : Block × RdOut × Nat :=
  let lock := b.chLockstep (s / 2)
  let fired := b.injHits lock dpa true
  let (b, code, mask, inj) := match fired with
    | some i => (b.injFired s i c, code ^^^ i.mask lock, i.mask lock, true)
    | none =>
      match b.ecc.kept with
      | some k => (b, code, k.inj.mask lock, decide (k.sub = s ∧ k.at_ = c))
      | none => (b, code, 0, false)
  match decodeWord lock (b.erased s) code with
  | .clean => (b, .ok false false, code)
  | .poison => (b.bump (ECC_POISON_READ_CNT_CNT s), .poison, code)
  | .bad => (b, .ue inj (inj && syndromes lock code != syndromes lock mask), code)
  | .corrected e devs =>
    let fixed := code ^^^ e
    if (b.erased s).isSome && devs.all (fun d => some d == b.erased s) then
      (b.bump (ECC_ERASE_CNT_CNT s), .ok true true, fixed)
    else (b.ceEvent s c dpa devs inj (inj && e != mask), .ok true false, fixed)

/-! ## Log registers (R386, R387) -/

/-- Word `w` of a log entry. -/
def LogEnt.word (e : LogEnt) (w : Nat) : Nat :=
  let n (x : Bool) (k : Nat) : Nat := if x then 2 ^ k else 0
  match w with
  | 0 => e.rank + e.bg * 2 ^ 4 + e.bank * 2 ^ 8 + e.col * 2 ^ 16
  | 1 => e.row + (e.devices % 2 ^ 10 ||| e.devices / 2 ^ 10) * 2 ^ 20
  | 2 => e.dpa.getD 0 % 2 ^ 32
  | 3 => e.dpa.getD 0 / 2 ^ 32 + n e.dpa.isSome 31
  | 4 => e.count + e.repair * 2 ^ 16 + n e.wbSeen 27 + n e.realSuspect 28 + n e.injected 29 + n e.persistent 30
      + n e.valid 31
  | 5 => e.firstT
  | 6 => e.lastT
  | _ => e.wbT

/-- A write of ECC_LOG_SEL loads a copy of the selected entry (R387). -/
def Block.logSelect (b : Block) (s : Nat) : Block :=
  let e := b.ecc.log.get (32 * s + b.rd (ECC_LOG_SEL_INDEX s))
  forEach (List.range 8) b (fun b w => b.wr (ECC_LOG_DATA_WORD s w) (e.word w))

/-- ECC_LOG_SEL.CLEAR is refused for a persistent entry that is PENDING (R387). -/
def Block.logHeld (b : Block) (s i : Nat) : Bool :=
  let e := b.ecc.log.get (32 * s + i)
  e.persistent && e.repair == 2

/-- ECC_LOG_SEL.CLEAR frees the selected entry. -/
def Block.logClear (b : Block) (s : Nat) : Block := b.updLog s (b.rd (ECC_LOG_SEL_INDEX s)) (fun _ => default)

/-! ## Repair ends (R392, R395) -/

/-- The Keeper writes the 128 sectors of a repaired row back (R392): DRAM writes that set WB_SEEN (R389) and forget a kept
injection (R405). A sector that read uncorrectable or poisoned is written with the poison pattern, which its event tells. -/
def Block.rowBack (b : Block) (s : Nat) (place : Nat → Coord) (bad : List Nat) : Block :=
  let b := forEach (List.range 128) b (fun b col => b.writeIssued s (place col))
  forEach bad b (fun b col =>
    (b.wr (ECC_STATUS_POISON_WR s) 1).event
      { code := 60, kind := 0, form := 1, addr := placeAddr s (place col) 0x1F, unit_ := .sub s, sev := none })

/-- A repair sentence ends: the row's columns that read corrected (with their device), uncorrectable or poisoned, its
outcome, the hold time, and for a hard repair the spare rows read again. With `ok` the row has been written back. -/
def Block.repairDone (b : Block) (s : Nat) (ok : Bool) (timeUs spare : Nat) (ces : List (Nat × Nat))
    (ues poisons : List Nat) : Block :=
  match b.ecc.repair.get s with
  | none => b
  | some run =>
    let e := b.ecc.log.get (32 * s + run.entry)
    let place (col : Nat) : Coord := ⟨e.rank, e.bg, e.bank, e.row, col * 16⟩
    let b := forEach ces b (fun b x => b.ceEvent s (place x.1) none [x.2] false false)
    let b := forEach ues b (fun b x => b.ueEvent s (place x) none false false false)
    let b := b.addSat (ECC_POISON_READ_CNT_CNT s) poisons.length
    let b := if ok then b.rowBack s place (ues ++ poisons) else b
    b.repairEnd Block.event s (if ok then 0 else 4) timeUs (some spare)

/-- REPAIR_END (R395). An uncorrectable error in the Keeper's row buffer ends the repair with `ok` false (R377). -/
def execRepairEnd (i : Fin 32) (ok : Bool) (timeUs : BitVec 26) (spare : Word) (ces : List (BitVec 7 × BitVec 5))
    (lost : RowLoss) (s : State) : Out :=
  onBlock s (fun b => b.repairDone i ok timeUs.toNat spare.toNat (ces.map (fun x => (x.1.toNat, x.2.toNat)))
    (lost.ues.map BitVec.toNat) (lost.poisons.map BitVec.toNat))

/-! ## Injection registers (R404) -/

/-- ECC_INJ_CTL.ARM: the pending injection is replaced, and a kept location is forgotten. -/
def Block.injArm (b : Block) : Block :=
  let i : Inj := { dpa := (b.rd ECC_INJ_ADDR_LO_DPA + 2 ^ 32 * b.rd ECC_INJ_ADDR_HI_DPA) % 2 ^ 46 / 64 * 64
                   read := b.on ECC_INJ_CTL_POINT, all := b.on ECC_INJ_CTL_DEVICE_ALL
                   sym0 := b.rd ECC_INJ_PAT_SYM0, xor0 := b.rd ECC_INJ_PAT_XOR0
                   sym1 := b.rd ECC_INJ_PAT_SYM1, xor1 := b.rd ECC_INJ_PAT_XOR1 }
  let b := { b with ecc := { b.ecc with armed := some i, kept := none } }
  (b.wr ECC_INJ_STATUS_ARMED 1).wr ECC_INJ_STATUS_KEPT 0

/-- ECC_INJ_CTL.DISARM. -/
def Block.injDisarm (b : Block) : Block :=
  let b := { b with ecc := { b.ecc with armed := none, kept := none } }
  (b.wr ECC_INJ_STATUS_ARMED 0).wr ECC_INJ_STATUS_KEPT 0

end Sys2Proof.Machine
end

