-- ==== Sys2Proof/Machine/Cache.lean ====
section
/-! DEFINITION. The arrays of the cache slices (R213 to R225, R231, R237): sets and tags, presence, recency, victim
choice, eviction and the dropping of lines, and scratch placement. -/

namespace Sys2Proof.Machine

open Reg

/-! ## Addresses (R213, R237) -/

/-- The cache set of a DPA. -/
def cacheSet (a : Nat) : Nat :=
  bitsOf a 16 8 ^^^ bitsOf a 25 17 ^^^ bitsOf a 34 26 ^^^ bitsOf a 43 35 ^^^ bitsOf a 45 44

/-- The tag of a DPA. -/
def cacheTag (a : Nat) : Nat := bitsOf a 45 17

/-- The DPA of the line of a tag in a set. -/
def lineDpa (set tag : Nat) : Nat :=
  let hi := tag * 2 ^ 17
  hi + ((set ^^^ cacheSet hi) * 2 ^ 8)

/-- Slice, set and way of a line key. -/
def keySlice (k : Nat) : Nat := k / 8192
/-- Set. -/
def keySet (k : Nat) : Nat := k / 16 % 512
/-- Way. -/
def keyWay (k : Nat) : Nat := k % 16

/-- A line of the arrays. -/
def Block.line (b : Block) (k : Nat) : Line := b.arr.lines.get k

/-- The DPA of the line at a key. -/
def Block.keyDpa (b : Block) (k : Nat) : Nat := lineDpa (keySet k) (b.line k).tag

/-- The slice and the sector key of a scratch offset (R237). -/
def Block.scratchPlace (b : Block) (x : Nat) : Nat × Nat :=
  let c := bitsOf x 11 8
  let way := 16 - b.scratchWays + bitsOf x 24 21
  (c, lineKey c (bitsOf x 20 12) way * 4 + bitsOf x 7 6)

/-- Bytes of configured scratch. -/
def Block.scratchSize (b : Block) : Nat := b.scratchWays * 2 ^ 21

/-! ## Presence (R217) -/

/-- A line is present when a sector of it is not I; one being evicted or dropped no longer answers. -/
def Line.present (l : Line) : Bool := !l.st.isEmpty && !l.going

/-- The way of a slice that holds the line of a DPA. -/
def Block.findLine (b : Block) (c a : Nat) : Option Nat :=
  ((List.range (16 - b.scratchWays)).map (lineKey c (cacheSet a))).find? (fun k =>
    let l := b.line k
    l.present && l.tag == cacheTag a)

/-- Ways of a set by partition (R214). -/
def Block.normalKeys (b : Block) (c set : Nat) : List Nat := (List.range b.normalWays).map (lineKey c set)
/-- Pinned ways. -/
def Block.pinnedKeys (b : Block) (c set : Nat) : List Nat :=
  (List.range b.pinnedWays).map (fun i => lineKey c set (b.normalWays + i))

/-- A way is busy (R225): a fill is in flight, a write-back is not accepted, or it waits for the allocation that evicted
it. -/
def Block.wayBusy (b : Block) (k : Nat) : Bool :=
  let l := b.line k
  l.going || l.wbLeft != 0 || l.st.any (fun e => e.2 == .f)
  || (b.slices.get (keySlice k)).wait.any (fun w => w.2 == some k)

/-! ## SRAM errors (R217, R233 to R235) -/

/-- An SRAM error of slice `c` (R233 to R235): `pos` is its bit in CCH_STATUS. -/
def Block.cchErr (b : Block) (c pos set way sec : Nat) : Block :=
  let bit := match pos with
    | 0 => CCH_STATUS_TAG_FIX c
    | 1 => CCH_STATUS_DATA_CE c
    | 2 => CCH_STATUS_DATA_UE c
    | _ => CCH_STATUS_TAG_UE c
  let b := ((b.wr bit 1).wr (CCH_ERR_KIND c) (pos + 1)).wr (CCH_ERR_SECTOR c) sec
  ((b.wr (CCH_ERR_WAY c) way).wr (CCH_ERR_SET c) set).intr 10 (b.bit (CCH_CTL_INT_EN c) pos)

/-- Code of a sector state in the tag (R217). -/
def Sec.code : Sec → Nat
  | .i => 0
  | .f => 1
  | .v => 2
  | .d => 3

/-- The sector state of a code. -/
def Sec.ofCode (n : Nat) : Sec :=
  match n with
  | 0 => .i
  | 1 => .f
  | 2 => .v
  | _ => .d

/-- A tag entry with the bits of `m` flipped: TAG in [28:0], CLASS in [31:29], PIN 32, EA 33, ST[0] to ST[3] from 34 on, AGE
in [45:42]. -/
def Line.flipped (l : Line) (m : Nat) : Line :=
  { l with
    tag := l.tag ^^^ bitsOf m 28 0, cls := l.cls ^^^ bitsOf m 31 29, pin := l.pin != bitOf m 32, ea := l.ea != bitOf m 33
    st := forEach (List.range 4) l.st (fun t s =>
      t.set s (Sec.ofCode ((l.st.get s).code ^^^ bitsOf m (35 + 2 * s) (34 + 2 * s))))
    age := l.age ^^^ bitsOf m 45 42 }

/-- A sector state, its data and whether it holds the poison pattern are written. -/
def Block.writeCell (b : Block) (k sec : Nat) (st : Sec) (data : BitVec 512) (bad : Bool) : Block :=
  let b := b.updLine k (fun l => { l with st := l.st.set sec st, dat := l.dat.set sec data, bad := l.bad.set sec bad })
  { b with arr := { b.arr with err := b.arr.err.set (4 * k + sec) 0 } }

/-- Sector `sec` of line `k` is read from the data array (R235): `true` where its reader is to be answered UE. A clean sector
with an uncorrectable word returns to I; a dirty one takes the poison pattern, which the extent's POISON flag tells. -/
def Block.dataRead (b : Block) (k sec : Nat) : Block × Bool :=
  let c := keySlice k
  match b.arr.err.get (4 * k + sec) with
  | 0 => (b, false)
  | 1 =>
    ({ b with arr := { b.arr with err := b.arr.err.set (4 * k + sec) 0 } }.cchErr c 1 (keySet k) (keyWay k) sec, false)
  | _ =>
    let b := b.cchErr c 2 (keySet k) (keyWay k) sec
    if (b.line k).st.get sec = .v then (b.writeCell k sec .i 0 false, false)
    else
      let b := (b.writeCell k sec .d 0 true).descUpd (poisonUpd (b.line k).idx)
      (b.event { code := 33, kind := 0, form := 0, addr := b.keyDpa k + 64 * sec, unit_ := .slice c, sev := none }, true)

/-! ## Recency (R223, R242) -/

/-- AGE of a way. -/
def Block.ageOf (b : Block) (k : Nat) : Nat := (b.line k).age ^^^ keyWay k

/-- Set AGE of a way. -/
def Block.setAge (b : Block) (k v : Nat) : Block := b.updLine k (fun l => { l with age := v ^^^ keyWay k })

/-- Move a normal way to AGE `v`; the ways between shift by one, so that ages stay a ranking. -/
def Block.moveAge (b : Block) (k v : Nat) : Block :=
  if decide (b.normalWays ≤ keyWay k) then b
  else
    let old := b.ageOf k
    let b' := forEach (b.normalKeys (keySlice k) (keySet k)) b (fun b j =>
      let a := b.ageOf j
      if v ≤ a ∧ a < old then b.setAge j (a + 1)
      else if old < a ∧ a ≤ v then b.setAge j (a - 1)
      else b)
    b'.setAge k v

/-! ## Write-backs and dropping (R231, R236, R247) -/

/-- Where the writes of a request or a line go: each side's route, with its number and the standing of the other side.
A line served from the mirror alone has its primary side discarded already (R122, R123). -/
def writeSides (onMirror : Bool) (route : Route) (mirror : Option Route) : List (Route × Nat × Nat) :=
  match onMirror, mirror with
  | false, none => [(route, 0, 0)]
  | false, some m => [(route, 1, 0), (m, 2, 0)]
  | true, none => [(route, 2, 2)]
  | true, some m => [(route, 2, 0), (m, 1, 0)]

/-- The mirror side from which a side's frame can be recovered (R381). -/
def twinOf (onMirror stale : Bool) (mirror : Option Route) (side : Nat) : Option Route :=
  if side = 1 ∧ !onMirror ∧ !stale then mirror else none

/-- The write-backs of one sector: to its frame, and for a mirrored extent to the mirror frame. -/
def Block.lineWriteBacks (b : Block) (k sec mnt : Nat) : Block × List WriteBack :=
  let l := b.line k
  let (id, b) := b.newId
  (b, (writeSides l.onMirror l.route l.mirror).map (fun x => { (default : WriteBack) with
    id := id, dpa := some (b.keyDpa k + 64 * sec), route := x.1.sector sec, sec := sec
    data := l.dat.get sec, poison := l.bad.get sec, cls := l.cls, src := 0, way := some k
    idx := l.idx, side := x.2.1, sib := x.2.2, mnt := mnt, twin := twinOf l.onMirror l.stale l.mirror x.2.1 }))

/-- Send the dirty sectors of a line towards the write queues. -/
def Block.sendDirty (b : Block) (k mnt : Nat) : Block :=
  let c := keySlice k
  let secs := (List.range 4).filter (fun s => (b.line k).st.get s == .d)
  let b := if mnt = 1 then b.addSat CCH_MNT_WB_CNT_CNT secs.length else b
  forEach secs b (fun b s =>
    let (b, ws) := (b.dataRead k s).1.lineWriteBacks k s mnt
    let b := b.count (ctrSlice c) 5 1
      { (default : Carry) with dpa := some (b.keyDpa k + 64 * s), tc := some (b.line k).cls }
    let b := (b.updSlice c (fun q => { q with wb := q.wb ++ ws })).updLine k (fun l => { l with
      wbLeft := l.wbLeft + ws.length, st := l.st.set s .v })
    forEach ws b (fun b w => b.wake w.route.chan))

/-- Fills of a line are not installed any more (R247). -/
def Block.cancelFills (b : Block) (k : Nat) : Block :=
  let mark (x : Miss) : Miss := if x.way = some k then { x with cancel := true } else x
  let b := b.updSlice (keySlice k) (fun q => { q with miss := q.miss.map mark })
  { b with ecc := { b.ecc with mirrors := b.ecc.mirrors.map (fun m => { m with miss := mark m.miss }) } }

/-- Drop a line: it no longer answers, and its way is freed once its write-backs are accepted and its fills are back. -/
def Block.dropLine (b : Block) (k : Nat) (writeBack : Bool) (mnt : Nat) : Block :=
  let b := if writeBack then b.sendDirty k mnt else b
  let b := b.cancelFills k
  let b := b.updLine k (fun l => { l with
    going := true, st := l.st.filter (fun e => e.2 == .f), bad := [], pin := false, ea := false })
  b.freeLine k

/-- The tag entry at a key is accessed (R233): where one copy fails parity, the other is used and the failing one
rewritten; where both fail, or both pass but disagree, the entry is rewritten as not present. -/
def Block.tagCheck (b : Block) (k : Nat) : Block :=
  let l := b.line k
  let fails (m : Nat) : Bool := xorBits m 47
  if l.flip0 = 0 ∧ l.flip1 = 0 then b
  else if (fails l.flip0 && fails l.flip1) || (!fails l.flip0 && !fails l.flip1 && l.flip0 != l.flip1) then
    let b := b.cchErr (keySlice k) 3 (keySet k) (keyWay k) 0
    let b := (b.updLine k (fun l => { l with flip0 := 0, flip1 := 0 })).dropLine k false 0
    b.event { code := 32, kind := 0, form := 1, addr := locAddr 2 (keySlice k) (keySet k + keyWay k * 512)
              unit_ := .slice (keySlice k), sev := none }
  else
    let one := fails l.flip0 || fails l.flip1
    let b := b.updLine k (fun l =>
      { l.flipped (if fails l.flip0 then l.flip1 else l.flip0) with flip0 := 0, flip1 := 0 })
    if one then b.cchErr (keySlice k) 0 (keySet k) (keyWay k) 0 else b

/-- The tags of a set are read; scratch ways hold none. -/
def Block.tagsRead (b : Block) (c set : Nat) : Block :=
  forEach (List.range (16 - b.scratchWays)) b (fun b w => b.tagCheck (lineKey c set w))

/-- An upset happens in slice `c`. -/
def Block.upset (b : Block) (c : Nat) (u : Upset) : Block :=
  match u with
  | .none => b
  | .tag set way first second =>
    if way.toNat < 16 - b.scratchWays then
      b.updLine (lineKey c set.toNat way.toNat) (fun l => { l with
        flip0 := l.flip0 ^^^ first.toNat, flip1 := l.flip1 ^^^ second.toNat })
    else b
  | .data set way sec uncorrectable =>
    let at_ := lineKey c set.toNat way.toNat * 4 + sec.toNat
    { b with arr := { b.arr with err := b.arr.err.set at_ (if uncorrectable then 2 else 1) } }
  | .miss i => { b with edt := { b.edt with
      fetches := b.edt.fetches.map (fun f => if f.idx = i.toNat then { f with bad := true } else f) } }

/-! ## Victim choice (R225) -/

/-- What the victim choice answers: a free way, a way to evict first, or WAIT; `pinned` tells in which partition. -/
inductive Victim
  | way (k : Nat) (pinned : Bool)
  | evict (k : Nat)
  | wait
  deriving DecidableEq, Repr

/-- WAY_QUOTA of a class as it acts. -/
def Block.wayQuota (b : Block) (t : Nat) : Nat := min 16 (b.wk (REGU_CLASS_WAY_QUOTA t))

/-- The way of highest AGE among some. -/
def Block.oldest (b : Block) (ks : List Nat) : Option Nat :=
  ks.foldl (fun m k => match m with
    | none => some k
    | some j => if b.ageOf j < b.ageOf k then some k else some j) none

/-- Choose among the normal ways. -/
def Block.normalVictim (b : Block) (c set t : Nat) : Victim :=
  let keys := b.normalKeys c set
  let cand := keys.filter (fun k => !b.wayBusy k)
  if cand.isEmpty then .wait
  else match cand.find? (fun k => !(b.line k).present) with
  | some k => .way k false
  | none =>
    match b.oldest (cand.filter (fun k => (b.line k).ea)) with
    | some k => .evict k
    | none =>
      let mine := keys.filter (fun k => (b.line k).present && (b.line k).cls == t)
      let pool := if b.wayQuota t ≤ mine.length then cand.filter (fun k => (b.line k).cls == t) else cand
      match b.oldest pool with
      | some k => .evict k
      | none => .wait

/-- The victim of an allocation (R225); an allocation that finds no pinned way counts and goes on as a normal one. -/
def Block.victim (b : Block) (c set t : Nat) (pinned : Bool) : Block × Victim :=
  if pinned then
    match (b.pinnedKeys c set).find? (fun k => !(b.line k).present && !b.wayBusy k) with
    | some k => (b, .way k true)
    | none => let b := b.bump CCH_PIN_FULL_CNT_CNT; (b, b.normalVictim c set t)
  else (b, b.normalVictim c set t)

/-! ## Allocation decision (R219, R152, R210) -/

/-- How a miss allocates. -/
inductive Alloc
  | none | normal (ea : Bool) | pinned
  deriving DecidableEq, Repr

/-- A continuation write from P4 (R152). -/
def Req.isCont (r : Req) : Bool := r.src == 4 && r.op == .wrp && tagCont r.tag

/-- The table of R219 with its exceptions, in their order. A prefetch follows it too (R224). -/
def Block.allocOf (b : Block) (r : Req) : Alloc :=
  let hint := tagAlloc r.tag
  let base : Alloc := match r.policy with
    | 1 => .none
    | 2 => .pinned
    | _ => match hint with
      | 1 => .none
      | 2 => if decide (r.src < 6) && b.bit CCH_PIN_PORTS_PORTS r.src then .pinned else .normal false
      | 3 => .normal true
      | _ => .normal false
  if decide (6 ≤ r.src) || r.area != .dram || r.direct then .none
  else
    let want := if r.isCont && r.policy != 1 then .normal false else base
    match want with
    | .normal _ => if b.wayQuota r.tc = 0 then .none else want
    | w => w

/-- Take a free way for the line of a request: all sectors I, recency set (R223). -/
def Block.takeWay (b : Block) (k : Nat) (r : Req) (pinned ea stream : Bool) : Block :=
  let old := (b.line k).age
  let base := r.dpa / 256 * 256
  let b := b.updLine k (fun _ => { (default : Line) with
    tag := cacheTag base, cls := r.tc, pin := pinned, ea := ea, age := old
    route := r.route, mirror := r.mirror, onMirror := r.onMirror, stale := r.stale, idx := r.idx })
  b.moveAge k (if stream then 15 else 0)

end Sys2Proof.Machine
end

