-- ==== Sys2Proof/Machine/Slice.lean ====
section
/-! DEFINITION. What a slice does with a granted request (R217 to R230, R233 to R239): scratch and cached accesses, the
reads it asks of DRAM and the writes it passes on, the SRAM upsets it meets, and the end of a DRAM read. -/

namespace Sys2Proof.Machine

open Reg

/-! ## Attributes and status -/

/-- Offset of a DPA in the reserved region, if it lies there (R95). -/
def reservedOff (a : Nat) : Option Nat :=
  if 0x3FFF00000000 ≤ a ∧ a < 0x400000000000 then some (a - 0x3FFF00000000) else none

/-- What an event of a request carries (R445, R446): P5 and the reserved region are PLATFORM, the block's own requesters
SERVICE. -/
def Req.carry (r : Req) : Carry :=
  { master := if r.src < 6 then some (tagMaster r.tag) else none
    dpa := if r.raw then none else some r.dpa
    tc := if r.tc < 8 then some r.tc else none
    priv := some (if 6 ≤ r.src then 2 else if r.src = 5 ∨ (reservedOff r.dpa).isSome then 1 else 0)
    req := some r.src, tag := r.tag.toNat }

/-- Deadline a request takes to the subchannel queue (R192). -/
def Req.deadline (r : Req) : Option Nat := if r.src < 6 then tagDeadline r.tag else none

/-- State of a slice (R248): 0 NORMAL, 1 ENTERING, 2 BYPASS, 3 EXITING. -/
def Block.sliceState (b : Block) (c : Nat) : Nat := b.rd (CCH_STATUS_STATE c)

/-! ## Write data (R147 to R151) -/

/-- The bit mask of a byte-enable mask: 0xFF for each enabled byte. -/
def beMask (be : BitVec 64) : BitVec 512 :=
  BitVec.ofNat 512 ((List.range 64).foldl (fun m i => if bitOf be.toNat i then m ||| (0xFF <<< (8 * i)) else m) 0)

/-- Enabled bytes of `new` over `old`. -/
def mergeData (old new : BitVec 512) (be : BitVec 64) : BitVec 512 :=
  let m := beMask be
  (new &&& m) ||| (old &&& ~~~m)

/-- The data of a single-sector write. -/
def Req.data (r : Req) : WData := r.wdata.headD default

/-- Every byte is enabled. -/
def allOnes : BitVec 64 := BitVec.allOnes 64

/-- A write that replaces its sector without a merge: a WR64, a WRP with every byte enabled (R148), or one whose data the
requester marks as bad (R151). A beat that failed parity takes a WRP's merge read (R150). -/
def Req.whole (r : Req) : Bool :=
  r.op == .wr64 || r.data.be == allOnes || (r.data.poison && !r.data.parBad)

/-- A WRP that enables no byte (R148). -/
def Req.empty (r : Req) : Bool := r.op == .wrp && r.data.be == 0 && !r.data.parBad

/-- The write stores poison. -/
def WData.bad (w : WData) : Bool := w.poison || w.parBad

/-- Status of a whole write (R150, R151). -/
def WData.status (w : WData) : Nat := if w.parBad then stPoison else stOK

/-- What a sector holds: correct data (`corrected` on its way here), poison, or nothing readable. -/
inductive SecVal
  | data (d : BitVec 512) (corrected : Bool)
  | poison
  | ue
  deriving DecidableEq, Repr

/-- Status a read of the sector answers. -/
def SecVal.status : SecVal → Nat
  | .data _ c => if c then stCorrected else stOK
  | .poison => stPoison
  | .ue => stUE

/-- Data a read of the sector answers. -/
def SecVal.bits : SecVal → BitVec 512
  | .data d _ => d
  | _ => 0

/-- The merge of a partial write (R149, R150): what it leaves in the sector, if it writes, and its status. -/
def SecVal.merge (v : SecVal) (w : WData) : Option SecVal × Nat :=
  if w.parBad then (some .poison, stPoison)
  else match v with
    | .data d c => (some (.data (mergeData d w.data w.be) false), if c then stCorrected else stOK)
    | .poison => (none, stPoison)
    | .ue => (none, stUE)

/-- A scrubber request writes the sectors of a line for which `p` does not hold. -/
def Req.spare (r : Req) (p : Nat → Bool) : Req :=
  { r with wdata := (List.range r.wdata.length).map (fun i => if p i then ⟨0, 0, false, false⟩ else r.wdata.getD i default) }

/-- Change the write-backs of the scrubber that have not been performed at a slice: they wait for a chunk lock, for their
grant, or as requests in WAIT. -/
def Block.mapScrubs (b : Block) (f : Req → Req) : Block :=
  let g (r : Req) : Req := if r.src = 8 ∧ r.op = .wrl then f r else r
  { b with
    edt := { b.edt with held := b.edt.held.map g }
    slices := b.slices.map (fun e => (e.1, { e.2 with
      q := e.2.q.map (fun x => (x.1, x.2.map g)), grant := e.2.grant.map g, wait := e.2.wait.map (fun w => (g w.1, w.2)) })) }

/-- The scrubber's copy of sector `sec` of a line read from a place of `p` is stale (R400). -/
def Block.scrubStale (b : Block) (p : Route → Bool) (sec : Nat) : Block :=
  if b.scrub.frames.any p then { b with scrub := { b.scrub with stale := b.scrub.stale ||| (1 <<< sec) } } else b

/-- A write to a sector of a route is accepted at its slice: a mirror read of it recovers nothing (R381), and what the
scrubber holds of the sector, read or about to be written back, is stale (R400). `other` is the mirror side it writes too. -/
def Block.noteWrite (b : Block) (route : Route) (other : Option Route) (sec : Nat) : Block :=
  let places := route.sector sec :: (other.map (fun m => m.sector sec)).toList
  let at_ (r : Route) : Bool := places.contains (r.sector sec)
  let mark (m : MirrorRead) : MirrorRead :=
    if m.miss.sec = sec ∧ at_ m.miss.route then { m with written := true } else m
  let b := { b with ecc := { b.ecc with mirrors := b.ecc.mirrors.map mark } }
  (b.mapScrubs (fun r => if at_ r.route then r.spare (· == sec) else r)).scrubStale at_ sec

/-- The scrubber's read of a line is granted: writes accepted before it do not make its copy stale (R400). A line read
from two frames keeps the marks it has. -/
def Block.scrubGranted (b : Block) (r : Req) : Block :=
  match b.scrub.line with
  | some (_, id, false) =>
    if r.src = 8 ∧ r.op = .rd256 ∧ r.id = id then { b with scrub := { b.scrub with stale := 0 } } else b
  | _ => b

/-! ## Scratch (R237 to R239) -/

/-- A sector of the data array as scratch. -/
def Block.scratchVal (b : Block) (k : Nat) : SecVal :=
  if b.arr.err.get k = 2 then .ue else if b.arr.scrPoison.get k then .poison else .data (b.arr.scratch.get k) false

/-- Write a scratch sector. -/
def Block.scratchPut (b : Block) (k : Nat) (data : BitVec 512) (bad : Bool) : Block :=
  { b with arr := { b.arr with
      scratch := b.arr.scratch.set k (if bad then 0 else data)
      scrPoison := b.arr.scrPoison.set k bad, err := b.arr.err.set k 0 } }

/-- Scratch sector `k` is read from the data array: a correctable word is corrected in place, an uncorrectable one stays
(R235, R239). -/
def Block.scratchRead (b : Block) (k : Nat) : Block :=
  let line := k / 4
  match b.arr.err.get k with
  | 0 => b
  | 1 =>
    { b with arr := { b.arr with err := b.arr.err.set k 0 } }.cchErr (keySlice line) 1 (keySet line) (keyWay line) (k % 4)
  | _ => b.cchErr (keySlice line) 2 (keySet line) (keyWay line) (k % 4)

/-- An access of scratch: `off sec` is the aperture offset of a sector of the request's line, `secs` the sectors that are
to be served. -/
def Block.scratchAccess (b : Block) (r : Req) (secs : List Nat) (off : Nat → Nat) : Block :=
  let key (b : Block) (s : Nat) : Nat := (b.scratchPlace (off s)).2
  match r.op with
  | .prefetch => b
  | .rd64 | .rd256 =>
    forEach secs b (fun b s =>
      let b := b.scratchRead (key b s)
      let v := b.scratchVal (key b s)
      b.respond r s v.status v.bits)
  | .wrl =>
    forEach secs b (fun b s =>
      let w := r.wdata.getD s default
      let b := if w.be = 0 then b else b.scratchPut (key b s) w.data w.bad
      b.respond r s stOK 0)
  | _ =>
    forEach secs b (fun b s =>
      let w := r.data
      if r.empty then b.respond r s stOK 0
      else if r.whole || w.parBad then (b.scratchPut (key b s) w.data w.bad).respond r s w.status 0
      else
        let b := b.scratchRead (key b s)
        match (b.scratchVal (key b s)).merge w with
        | (some (.data d _), st) => (b.scratchPut (key b s) d false).respond r s st 0
        | (_, st) => b.respond r s st 0)

/-! ## DRAM reads and writes of a slice -/

/-- Set a sector of a line. -/
def Block.fillSec (b : Block) (k sec : Nat) (st : Sec) (v : SecVal) : Block :=
  b.writeCell k sec st v.bits (v == .poison)

/-- DPA of a sector of a request, where it is known: for the EDT that of the descriptor in the EDT (R380). -/
def Block.dramDpa (b : Block) (r : Req) (sec : Nat) : Option Nat :=
  let a := r.dpa / 256 * 256 + 64 * sec
  if r.raw then none else if r.area = .edt then some (b.edtBase + a % 2 ^ 30) else some a

/-- Ask DRAM for a sector; `way` names the line that it fills (R226). -/
def Block.addMiss (b : Block) (c : Nat) (r : Req) (sec : Nat) (way : Option Nat) (waits : Bool) : Block :=
  let (id, b) := b.newId
  let cls := match way with
    | some k => if waits then r.tc else (b.line k).cls
    | none => r.tc
  let x : Miss := { (default : Miss) with
    id := id, line := r.dpa / 256, sec := sec, route := r.route.sector sec, way := way
    waiters := if waits then [⟨r, sec⟩] else [], cls := cls, owed := r.owed, deadline := r.deadline, src := r.src
    demand := waits, idx := r.idx, dpa := b.dramDpa r sec }
  let b := b.updSlice c (fun q => { q with miss := q.miss ++ [x] })
  let b := match way with
    | some k => b.updLine k (fun l => { l with st := l.st.set sec .f, dat := l.dat.set sec 0, bad := l.bad.set sec false })
    | none => b
  b.wake r.route.chan

/-- Pass a sector to the write queues without a line (R222), with the age `id`: the completion follows acceptance, with
status `late`. -/
def Block.passWriteAt (b : Block) (c id : Nat) (r : Req) (sec : Nat) (data : BitVec 512) (bad : Bool) (late : Nat)
    (answer : Bool) : Block :=
  let ws : List WriteBack := (writeSides r.onMirror r.route r.mirror).map (fun x => { (default : WriteBack) with
    id := id, dpa := b.dramDpa r sec, route := x.1.sector sec, sec := sec
    data := if bad then 0 else data, poison := bad, cls := r.tc, src := r.src
    req := if answer then some r else none, idx := r.idx, side := x.2.1, sib := x.2.2, late := late
    twin := twinOf r.onMirror r.stale r.mirror x.2.1 })
  let b := b.updSlice c (fun q => { q with wb := q.wb ++ ws })
  forEach ws b (fun b w => b.wake w.route.chan)

/-- Pass a sector to the write queues now. -/
def Block.passWrite (b : Block) (c : Nat) (r : Req) (sec : Nat) (data : BitVec 512) (bad : Bool) (late : Nat) : Block :=
  let (id, b) := b.newId
  b.passWriteAt c id r sec data bad late true

/-- The sectors of its line a request asks for: an RD256 of the EDT frame pointer region only those that hold descriptors
(R97). -/
def Block.wantedSecs (b : Block) (r : Req) : List Nat :=
  (opSectors r.op r.dpa).filter (fun s =>
    r.area != .edt || decide ((r.dpa / 256 * 256 + 64 * s) % 2 ^ 30 / 64 < b.edtEntries))

/-- A request that takes no tag lookup or finds no line and allocates none (R222, R248). -/
def Block.uncached (b : Block) (c : Nat) (r : Req) : Block :=
  let missed (b : Block) : Block := b.count (ctrSlice c) 3 1 r.carry
  match r.op with
  | .prefetch => b
  | .rd64 | .rd256 => forEach (b.wantedSecs r) b (fun b s => (missed b).addMiss c r s none true)
  | .wrl =>
    forEach [0, 1, 2, 3] b (fun b s =>
      let w := r.wdata.getD s default
      if w.be = 0 then b.respond r s stOK 0 else (missed b).passWrite c r s w.data w.bad 0)
  | _ =>
    let s := r.dpa / 64 % 4
    if r.empty then b.respond r s stOK 0
    else if r.whole then (missed b).passWrite c r s r.data.data r.data.bad r.data.status
    else (missed b).addMiss c r s none true

/-! ## Hits -/

/-- A hit moves recency and clears EA as R223 says; a prefetch hits under STREAM (R224). -/
def Block.touch (b : Block) (k : Nat) (r : Req) : Block :=
  if (b.line k).ea then
    if r.src < 6 && tagAlloc r.tag = 0 then b.updLine k (fun l => { l with ea := false }) else b
  else if r.op == .prefetch || (r.src < 6 && tagStream r.tag) then b
  else b.moveAge k 0

/-- What a V or D sector of a line holds. -/
def Block.secVal (b : Block) (k sec : Nat) : SecVal :=
  let l := b.line k
  if b.arr.err.get (4 * k + sec) = 2 then .ue else if l.bad.get sec then .poison else .data (l.dat.get sec) false

/-- Join the fill in flight for a sector of a line (R218). -/
def Block.joinFill (b : Block) (c k sec : Nat) (r : Req) : Block :=
  let mine (x : Miss) : Bool := x.way == some k && x.sec == sec && !x.cancel
  let add (x : Miss) : Miss := if mine x then { x with waiters := x.waiters ++ [⟨r, sec⟩] } else x
  let b := b.updSlice c (fun q => { q with miss := q.miss.map add })
  { b with ecc := { b.ecc with mirrors := b.ecc.mirrors.map (fun m => { m with miss := add m.miss }) } }

/-- Detach the fill in flight for a sector that a whole write replaces (R228). -/
def Block.detachFill (b : Block) (c k sec : Nat) : Block :=
  let cut (x : Miss) : Miss :=
    if x.way = some k ∧ x.sec = sec then { x with way := none, cancel := true } else x
  let b := b.updSlice c (fun q => { q with miss := q.miss.map cut })
  { b with ecc := { b.ecc with mirrors := b.ecc.mirrors.map (fun m => { m with miss := cut m.miss }) } }

/-! ## Cached accesses -/

/-- Sectors of a line in the order of a fill: `first`, then ascending modulo 4 (R226). -/
def fillOrder (first : Nat) : List Nat := (List.range 4).map (fun i => (first + i) % 4)

/-- A request stays in its slice and is tried again (R225). -/
def Block.park (b : Block) (c : Nat) (r : Req) (pref : Option Nat) : Block :=
  b.updSlice c (fun q => { q with wait := q.wait ++ [(r, pref)] })

/-- An access without a line to the same 64 bytes has not entered its subchannel queue: it holds later requests back (R209). -/
def Block.behindRefused (b : Block) (c : Nat) (r : Req) : Bool :=
  let q := b.slices.get c
  let hit (o : Req) : Bool := o.area == r.area && !o.raw && overlaps o.op o.dpa r.op r.dpa && decide (o.id != r.id)
  q.miss.any (fun x => x.way.isNone && !x.queued && x.waiters.any (fun w => w.req.src != 11 && hit w.req))
  || q.wb.any (fun w => (w.req.map hit).getD false)

/-- Find a way for the line of a request (R225): `pref` is the way whose eviction it waited for. The answer is the way
taken, or that the request waits. -/
def Block.allocate (b : Block) (c : Nat) (r : Req) (pinned ea : Bool) (pref : Option Nat) : Block × Option Nat :=
  let stream := r.op == .prefetch || (r.src < 6 && tagStream r.tag)
  let park (b : Block) (w : Option Nat) : Block := b.park c r w
  let free (b : Block) (k : Nat) : Bool := !(b.line k).present && !b.wayBusy k
  match pref with
  | some k =>
    if free b k then (b.takeWay k r false ea stream, some k) else (park b pref, none)
  | none =>
    match b.victim c (cacheSet r.dpa) r.tc pinned with
    | (b, .way k p) => (b.takeWay k r p (ea && !p) stream, some k)
    | (b, .wait) => if r.op = .prefetch then (b, none) else (park b none, none)
    | (b, .evict k) =>
      let b := b.count (ctrSlice c) 9 1 { (default : Carry) with dpa := some (b.keyDpa k), tc := some (b.line k).cls }
      let b := b.dropLine k true 0
      if free b k then (b.takeWay k r false ea stream, some k) else (park b (some k), none)

/-- Decide how a request that finds no line allocates, and find its way: none where it allocates none. -/
def Block.placeLine (b : Block) (c : Nat) (r : Req) (pref : Option Nat) : Block × Option (Option Nat) :=
  let how := if b.sliceState c = 1 then .none else b.allocOf r
  match how with
  | .none => (b, none)
  | .normal ea => let (b, k) := b.allocate c r false ea pref; (b, some k)
  | .pinned =>
    -- a pinned allocation that finds no pinned way goes on as a normal one, under its class's quota
    let full := (b.pinnedKeys c (cacheSet r.dpa)).all (fun k => (b.line k).present || b.wayBusy k)
    if full && b.wayQuota r.tc = 0 then (b.bump CCH_PIN_FULL_CNT_CNT, none)
    else let (b, k) := b.allocate c r true false pref; (b, some k)

/-- Fetch the sectors of a line that are in I, in the order of a fill; `want` are those the request waits for. -/
def Block.fetchLine (b : Block) (c k : Nat) (r : Req) (first : Nat) (want : List Nat) : Block :=
  forEach (fillOrder first) b (fun b s =>
    if (b.line k).st.get s = .i then b.addMiss c r s (some k) (want.contains s) else b)

/-- A read, or a prefetch (R218, R220, R221, R224). -/
def Block.readAccess (b : Block) (c : Nat) (r : Req) (pref : Option Nat) : Block :=
  let pre := r.op == .prefetch
  let first := r.dpa / 64 % 4
  let want := if pre then [] else opSectors r.op r.dpa
  match b.findLine c r.dpa with
  | some k =>
    if pre then
      let full := (List.range 4).all (fun s => (b.line k).st.get s != .i)
      if full || b.sliceState c == 1 || b.allocOf r == .none
        || decide (32 ≤ (b.subs.get (b.routeSub r.route)).rq.length) then b
      else (b.touch k r).fetchLine c k r first []
    else
      let b := b.touch k r
      -- upsets first, so that a clean sector they drop is fetched below
      let (b, ues) := want.foldl (fun (acc : Block × List Nat) s =>
        let st := (acc.1.line k).st.get s
        if st = .v ∨ st = .d then
          let (b, ue) := acc.1.dataRead k s
          (b, if ue then s :: acc.2 else acc.2)
        else acc) (b, [])
      let missing := want.filter (fun s => (b.line k).st.get s == .i)
      let b := forEach want b (fun b s =>
        let st := (b.line k).st.get s
        if st = .i then b.count (ctrSlice c) 3 1 r.carry
        else
          let b := b.count (ctrSlice c) 2 1 r.carry
          if st = .f then b.joinFill c k s r
          else if ues.contains s then b.respond r s stUE 0
          else let v := b.secVal k s; b.respond r s v.status v.bits)
      if missing.isEmpty then b
      else if b.sliceState c = 1 then forEach missing b (fun b s => b.addMiss c r s none true)
      else b.fetchLine c k r (missing.headD first) want
  | none =>
    if pre && decide (32 ≤ (b.subs.get (b.routeSub r.route)).rq.length) then b
    else match b.placeLine c r pref with
    | (b, none) => b.uncached c r
    | (b, some none) => b
    | (b, some (some k)) =>
      let b := if pre then b else forEach want b (fun b _ => b.count (ctrSlice c) 3 1 r.carry)
      b.fetchLine c k r first want

/-- A whole write of a sector of a line (R228, R230). -/
def Block.writeSec (b : Block) (c k sec : Nat) (w : WData) : Block :=
  let b := if (b.line k).st.get sec = .f then b.detachFill c k sec else b
  b.fillSec k sec .d (if w.bad then .poison else .data w.data false)

/-- A WR64 or WRP (R20, R221, R228, R230). -/
def Block.writeAccess (b : Block) (c : Nat) (r : Req) (pref : Option Nat) : Block :=
  let s := r.dpa / 64 % 4
  let w := r.data
  if r.empty then b.respond r s stOK 0
  else match b.findLine c r.dpa with
  | some k =>
    let st := (b.line k).st.get s
    if st = .i ∧ b.sliceState c = 1 then b.uncached c r
    else if r.whole then
      let b := b.touch k r
      let b := if st = .i then b else b.count (ctrSlice c) 2 1 r.carry
      (b.writeSec c k s w).respond r s w.status 0
    else
      let b := b.touch k r
      let (b, ue) := if st = .v ∨ st = .d then b.dataRead k s else (b, false)
      let st := (b.line k).st.get s
      if st = .i then (b.count (ctrSlice c) 3 1 r.carry).addMiss c r s (some k) true
      else
        let b := b.count (ctrSlice c) 2 1 r.carry
        if st = .f then b.joinFill c k s r
        else
          match (if ue then SecVal.ue else b.secVal k s).merge w with
          | (some v, code) => (b.fillSec k s .d v).respond r s code 0
          | (none, code) => b.respond r s code 0
  | none =>
    match b.placeLine c r pref with
    | (b, none) => b.uncached c r
    | (b, some none) => b
    | (b, some (some k)) =>
      if r.whole then (b.writeSec c k s w).respond r s w.status 0
      else (b.count (ctrSlice c) 3 1 r.carry).addMiss c r s (some k) true

/-- A whole-line write of the Tender (R161): into a present line, otherwise to the write queues. -/
def Block.lineAccess (b : Block) (c : Nat) (r : Req) : Block :=
  match b.findLine c r.dpa with
  | some k =>
    let b := (b.touch k r).count (ctrSlice c) 2 4 r.carry
    forEach [0, 1, 2, 3] b (fun b s =>
      let w := r.wdata.getD s default
      let b := if w.be = 0 then b else b.writeSec c k s w
      b.respond r s stOK 0)
  | none => b.uncached c r

/-! ## The access (R217 to R230) -/

/-- The scratch offset of sector `s` of the line of a request to scratch or to a scratch-located EDT. -/
def Block.scratchOff (b : Block) (r : Req) (s : Nat) : Nat :=
  let a := r.dpa / 256 * 256 + 64 * s
  if r.area = .edt then b.edtBase + a % 2 ^ 30 else a % 2 ^ 31

/-- The part of an access that a retry repeats. -/
def Block.sliceTry (b : Block) (c : Nat) (r : Req) (pref : Option Nat) : Block :=
  if r.area = .scratch ∨ (r.area = .edt ∧ b.edtInScratch) then
    b.scratchAccess r (b.wantedSecs r) (b.scratchOff r)
  else if r.direct || r.area == .edt || b.sliceState c == 2 || b.sliceState c == 3 then b.uncached c r
  else
    let b := b.tagsRead c (cacheSet r.dpa)
    if b.behindRefused c r then (if r.op = .prefetch then b else b.park c r pref)
    else match r.op with
    | .prefetch | .rd64 | .rd256 => b.readAccess c r pref
    | .wrl => b.lineAccess c r
    | _ => b.writeAccess c r pref

/-- Requests in WAIT that a request to the same 64 bytes stays behind (R225). -/
def Block.waitsBehind (b : Block) (c : Nat) (r : Req) : Bool :=
  (b.slices.get c).wait.any (fun w => overlaps w.1.op w.1.dpa r.op r.dpa && w.1.area == r.area && w.1.raw == r.raw)

/-- A request is performed at its slice. Writes are noted, and a write that stores poison in an extent sets the extent's
POISON flag (R150, R151). -/
def Block.sliceAccess (b : Block) (c : Nat) (r : Req) : Block :=
  let b := b.scrubGranted r
  let b :=
    if r.area = .edt ∧ !b.edtInScratch ∧ r.op.isWrite ∧ !r.empty then b.noteWrite r.route r.mirror (r.dpa / 64 % 4)
    else if r.area = .dram then
      match r.op with
      | .wrl =>
        let b := forEach [0, 1, 2, 3] b (fun b s =>
          if (r.wdata.getD s default).be = 0 ∨ r.src = 8 then b else b.noteWrite r.route r.mirror s)
        if r.raw then b
        else if r.wdata.any (fun w => w.poison && w.be != 0) then b.descUpd (poisonUpd r.idx) else b
      | .wr64 | .wrp =>
        if r.empty then b
        else
          let b := b.noteWrite r.route r.mirror (r.dpa / 64 % 4)
          if r.data.bad && !r.raw then b.descUpd (poisonUpd r.idx) else b
      | _ => b
    else b
  if b.waitsBehind c r then (if r.op = .prefetch then b else b.park c r none) else b.sliceTry c r none

/-- Retry the requests in WAIT of a slice in their order, each once (R225). -/
def Block.retryWaits (b : Block) (c : Nat) : Block :=
  let ws := (b.slices.get c).wait
  let b := b.updSlice c (fun q => { q with wait := [] })
  forEach ws b (fun b w =>
    if b.waitsBehind c w.1 then b.park c w.1 w.2 else b.sliceTry c w.1 w.2)

/-- ALLOCATION_RETRY (R225). -/
def execAllocationRetry (c : Fin 16) (s : State) : Out := onBlock s (fun b => b.retryWaits c)

/-! ## The end of a DRAM read (R227 to R229, R391) -/

/-- Serve the waiters of a read in order (R218, R228): what the sector holds after them, whether one of them wrote, and
the uncached writes that go on to the write queues. -/
def Block.serveWaiters (b : Block) (v : SecVal) (uncached : Bool) :
    List Waiter → Block × SecVal × Bool × List (Req × SecVal × Nat)
  | [] => (b, v, false, [])
  | w :: rest =>
    let r := w.req
    if r.op = .wrp ∨ r.op = .wr64 then
      match v.merge r.data with
      | (some n, st) =>
        let b := if uncached then b else b.respond r w.sec st 0
        let (b, last, _, more) := b.serveWaiters n uncached rest
        (b, last, true, (r, n, st) :: more)
      | (none, st) => (b.respond r w.sec st 0).serveWaiters v uncached rest
    else (b.respond r w.sec v.status v.bits).serveWaiters v uncached rest

/-- A corrected sector that is not installed goes to the write queue at once (R391), unless a newer write of it is on its
way. -/
def Block.fixBack (b : Block) (c : Nat) (x : Miss) (data : BitVec 512) : Block :=
  let newer := (b.slices.get c).wb.any (fun w => w.route == x.route)
    || (b.subs.get (b.routeSub x.route)).wq.any (fun e => e.at_ == b.routeCoord x.route)
  if newer then b
  else
    let r : Req := { (default : Req) with
      src := x.src, tc := x.cls, dpa := x.line * 256, route := x.route, idx := x.idx, raw := x.dpa.isNone }
    b.passWriteAt c x.id r x.sec data false 0 false

/-- The way of a fill is still its own: the line has not gone, and its sector still waits for this fill. -/
def Block.fillHeld (b : Block) (x : Miss) (k : Nat) : Bool := !(b.line k).going && (b.line k).st.get x.sec == .f

/-- A fill of line `k` has its value, and its waiting requests have been served: the sector is installed. -/
def Block.fillDone (b : Block) (c : Nat) (x : Miss) (k : Nat) (last : SecVal) (dirty : Bool) : Block :=
  match last with
  | .ue => b.fillSec k x.sec .i .ue
  | _ =>
    (b.count (ctrSlice c) 4 1 { (default : Carry) with dpa := x.dpa, tc := if x.cls < 8 then some x.cls else none }).fillSec k
      x.sec (if dirty then .d else .v) last

/-- A fill whose way is no longer its own has its value: nothing is installed, and what a waiting write merged, or a correction,
goes to DRAM (R391). -/
def Block.fillLost (b : Block) (c : Nat) (x : Miss) (k : Nat) (last : SecVal) (wrote fixed : Bool) : Block :=
  let b := if wrote then
      forEach (x.waiters.take 1) b (fun b w =>
        b.passWriteAt c x.id { w.req with route := (b.line k).route } x.sec last.bits (last == .poison) 0 false)
    else if fixed then b.fixBack c x last.bits
    else b
  (b.updLine k (fun l => if l.going then { l with st := l.st.set x.sec .i } else l)).freeLine k

/-- An uncached read has its value: the writes that waited for it go to DRAM, and so does a correction (R391). -/
def Block.readPassed (b : Block) (c : Nat) (x : Miss) (last : SecVal) (writes : List (Req × SecVal × Nat)) (fixed : Bool) :
    Block :=
  if x.cancel then b
  else if !writes.isEmpty then
    forEach writes b (fun b w => b.passWriteAt c x.id w.1 x.sec w.2.1.bits (w.2.1 == .poison) w.2.2 true)
  else if fixed then b.fixBack c x last.bits
  else b

/-- A read has brought a corrected sector that ECC_CTL.CE_WB has written back, for a request that is not the Tender's (R391). -/
def Block.fixedUp (b : Block) (x : Miss) (v : SecVal) : Bool :=
  match v with
  | .data _ corrected => corrected && b.on ECC_CTL_CE_WB && decide (x.src < 6)
  | _ => false

/-- A DRAM read of slice `c` ends with a value. The read is no longer in the slice's list. -/
def Block.finishMiss (b : Block) (c : Nat) (x : Miss) (v : SecVal) : Block :=
  match x.merge with
  | some w =>
    -- the other half of a lockstep codeword (R102): unreadable or poisoned, it poisons the codeword
    let half := match v with
      | .data d _ => (d, false)
      | _ => (0, true)
    b.updSlice c (fun q => { q with wb := { w with other := some half } :: q.wb })
  | none =>
    match x.way with
    | some k =>
      let b := b.tagCheck k
      let held := b.fillHeld x k && !x.cancel
      let (b, last, wrote, _) := b.serveWaiters v false x.waiters
      let fixed := b.fixedUp x v
      if held then b.fillDone c x k last (wrote || fixed) else b.fillLost c x k last wrote fixed
    | none =>
      let (b, last, _, writes) := b.serveWaiters v (!x.cancel) x.waiters
      b.readPassed c x last writes (b.fixedUp x v)

end Sys2Proof.Machine
end

