-- ==== Sys2Proof/Machine/Queues.lean ====
section
/-! DEFINITION. Between the slices and the subchannel queues (R207 to R209, R249 to R256, R518): insertion, forwarding
from the write queue, lockstep codewords, and the return of DRAM reads and mirror reads (R374, R380, R381). -/

namespace Sys2Proof.Machine

open Reg

/-! ## Who may enter (R207, R208, R250, R256, R518) -/

/-- How a subchannel meets an entry: 0 it is discarded, 1 it waits, 2 it may enter. Entries wait while it trains (R335). Frame accesses of the Tender enter a
fenced subchannel of an ATTACHED channel (R433). -/
def Block.subDoor (b : Block) (s : Nat) (raw : Bool) : Nat :=
  let n := s / 2
  let u := b.subs.get s
  let attached := raw && b.rd (MOD_RPL_STATUS_STATE n) == 4
  let st := b.chState n
  let leaving := u.sntQ.any (fun q => q.why = .fenceExit) ||
    (match u.snt with
     | some run => run.req.why = .fenceExit
     | none => false)
  if (b.subFenced s && !attached) || st == pwOFF then 0
  else if (b.on (SCH_CTL_QUIESCE s) && !attached) || st != pwA0 || (b.pwr.target.get n).isSome || u.initing || leaving
      || (b.phy.train.get s).isSome then 1
  else 2

/-- The read buoy of a class as it acts (R205, R207): at its maximum in harbour mode, for no class, and for an owed
request. -/
def Block.buoyRd (b : Block) (cls : Nat) (owed : Bool) : Nat :=
  if b.harbour || decide (8 ≤ cls) || owed then 64 else min 64 (b.wk (REGU_CLASS_BUOY_RD cls))

/-- The write buoy of a class. -/
def Block.buoyWr (b : Block) (cls : Nat) (owed : Bool) : Nat :=
  if b.harbour || decide (8 ≤ cls) || owed then 48 else min 48 (b.wk (REGU_CLASS_BUOY_WR cls))

/-! ## Reads -/

/-- A read has a write waiting on it, or is the merge of a lockstep codeword. -/
def Miss.merges (x : Miss) : Bool := x.merge.isSome || x.waiters.any (fun w => w.req.op == .wrp || w.req.op == .wr64)

/-- An older access to the same 64 bytes holds a read back (R209): a write not yet passed on, or a read whose write has
still to follow. -/
def Block.readHeld (b : Block) (c : Nat) (x : Miss) : Bool :=
  let q := b.slices.get c
  let older (y : Miss) : Bool := y.id < x.id && y.route == x.route && (y.merges || !y.queued)
  q.wb.any (fun w => w.route == x.route && decide (w.id < x.id)) || q.miss.any older

/-- Source of a read entry (R249). -/
def Miss.source (x : Miss) : Source :=
  if x.src < 6 then (if x.demand then .demand else .fill)
  else if x.src = 6 then .tender else if x.src = 8 then .scrubber
  else if x.src = 11 then .fill else .keeper

/-- What a codeword gives the slice: the sector's value, without accounting. -/
def Block.wordVal (b : Block) (s sec code : Nat) : SecVal :=
  let lock := b.chLockstep (s / 2)
  match decodeWord lock (b.erased s) code with
  | .clean => .data (halfData lock code sec) false
  | .corrected e _ => .data (halfData lock (code ^^^ e) sec) true
  | .poison => .poison
  | .bad => .ue

/-- A line of the scrubber waits at the slice while its subchannel is halted or its rank held (R401). -/
def Block.lineHeld (b : Block) (s rank : Nat) : Bool :=
  b.on (CLS_STATUS_HALTED (b.eccSub s)) || (b.heldRanks (b.eccSub s)).contains rank

/-- Whether a read may be passed on now: 0 no, 1 it waits at its class buoy or for room, 2 yes, 3 it is answered FENCED. -/
def Block.readReady (b : Block) (c : Nat) (x : Miss) : Nat :=
  let s := b.routeSub x.route
  let u := b.subs.get s
  if x.queued || b.readHeld c x || (x.src == 8 && b.lineHeld s (b.routeCoord x.route).rank) then 0
  else match b.subDoor s (x.dpa.isNone && x.src == 6) with
  | 0 => 3
  | 1 => 0
  | _ =>
    if u.rq.any (fun e => e.arrival == u.slot) then 0
    else if u.rq.length + u.again.length < b.buoyRd x.cls x.owed then 2 else 1

/-- Take a read out of a slice's list. -/
def Block.takeMiss (b : Block) (c id : Nat) : Block :=
  b.updSlice c (fun q => { q with miss := q.miss.filter (fun y => y.id != id) })

/-- Pass a read into its subchannel (R250, R251): it joins the read of the other half of its lockstep codeword, is served
from a write entry, or is queued. -/
def Block.passRead (b : Block) (c : Nat) (x : Miss) (upset : Bool) : Block :=
  let s := b.routeSub x.route
  let u := b.subs.get s
  let at_ := b.routeCoord x.route
  if upset then b.queueUe.dropMiss c x.id stUE
  else
    let partner := (b.slices.get c).miss.find? (fun y =>
      b.chLockstep (s / 2) && y.queued && y.joined.isNone && y.route != x.route && b.routeSub y.route == s
        && b.routeCoord y.route == at_)
    let queue (b : Block) (j : Option Nat) : Block := b.updSlice c (fun q => { q with
      miss := updFirst (fun y => y.id == x.id) (fun y => { y with queued := true, joined := j }) q.miss })
    match (u.wq.filter (fun e => e.at_ == at_)).getLast? with
    | some e =>
      let v := b.wordVal s x.sec e.code.toNat
      let b := if v = .poison then b.bump (ECC_POISON_READ_CNT_CNT s) else b
      (b.takeMiss c x.id).finishMiss c x v
    | none =>
      match partner with
      | some y => queue b (some y.id)
      | none =>
        let e : RdEnt := { slice := c, miss := x.id, at_ := at_, cls := x.cls, owed := x.owed, deadline := x.deadline
                           src := x.source, arrival := u.slot, worked := false, replayed := false
                           counts := !x.merges && x.src != 9 && x.src != 10 }
        (queue b none).updSub s (fun u => { u with rq := u.rq ++ [e] })

/-- Offer the reads of a slice, oldest first (R207 to R209). -/
def Block.insertRead (b : Block) (c : Nat) (upset : Bool) : Block :=
  match (b.slices.get c).miss.find? (fun x => decide (2 ≤ b.readReady c x)) with
  | some x => if b.readReady c x = 3 then b.dropMiss c x.id stFenced else b.passRead c x upset
  | none =>
    match (b.slices.get c).miss.find? (fun x => b.readReady c x == 1) with
    | some x => b.count (ctrSlice c) 8 1 { (default : Carry) with tc := if x.cls < 8 then some x.cls else none }
    | none => b

/-! ## Writes -/

/-- Owed mark of a write (R188, R232). -/
def WriteBack.owed (w : WriteBack) : Bool := (w.req.map (fun r => r.owed)).getD false

/-- A write to a frame address (R433). -/
def WriteBack.raw (w : WriteBack) : Bool := (w.req.map (fun r => r.raw)).getD false

/-- An older access to the same 64 bytes holds a write back. -/
def Block.writeHeld (b : Block) (c : Nat) (w : WriteBack) : Bool :=
  let q := b.slices.get c
  q.wb.any (fun v => v.route == w.route && decide (v.id < w.id))
  || q.miss.any (fun y => y.route == w.route && decide (y.id < w.id) && (y.merges || !y.queued))
  || q.miss.any (fun y => match y.merge with
      | some v => v.route == w.route && decide (v.id < w.id)
      | none => false)

/-- Whether a write may be passed on now, as `readReady`. -/
def Block.writeReady (b : Block) (c : Nat) (w : WriteBack) : Nat :=
  let s := b.routeSub w.route
  let u := b.subs.get s
  if b.writeHeld c w then 0
  else match b.subDoor s w.raw with
  | 0 => 3
  | 1 => 0
  | _ =>
    if u.wq.any (fun e => e.arrival == u.slot) then 0
    else if u.wq.length < b.buoyWr w.cls w.owed then 2 else 1

/-- Source of a write entry. -/
def WriteBack.source (w : WriteBack) : Source :=
  match w.req with
  | none => .writeback
  | some r => if r.src < 6 then .uncached else if r.src = 6 then .tender else if r.src = 8 then .scrubber else .keeper

/-- The other half of the codeword of a lockstep write (R102), where the block holds it: a write of the slice that goes
with it, the newest write entry, or the cache. -/
def Block.otherHalf (b : Block) (c : Nat) (w : WriteBack) : Option (BitVec 512 × Bool) × Option WriteBack :=
  let s := b.routeSub w.route
  let at_ := b.routeCoord w.route
  match w.other with
  | some h => (some h, none)
  | none =>
    match (b.slices.get c).wb.find? (fun v =>
        v.route != w.route && b.routeSub v.route == s && b.routeCoord v.route == at_ && !b.writeHeld c v) with
    | some v => (some (v.data, v.poison), some v)
    | none =>
      match ((b.subs.get s).wq.filter (fun e => e.at_ == at_)).getLast? with
      | some e => match b.wordVal s (w.sec ^^^ 1) e.code.toNat with
        | .data d _ => (some (d, false), none)
        | _ => (some (0, true), none)
      | none =>
        match w.dpa.bind (fun a => b.findLine c a) with
        | some k =>
          let st := (b.line k).st.get (w.sec ^^^ 1)
          if st = .v ∨ st = .d then (some ((b.line k).dat.get (w.sec ^^^ 1), (b.line k).bad.get (w.sec ^^^ 1)), none)
          else (none, none)
        | none => (none, none)

/-- The codeword of a write; in a lockstep channel a poisoned half poisons the codeword. -/
def Block.writeWord (b : Block) (s : Nat) (w : WriteBack) (other : BitVec 512 × Bool) : BitVec 1280 :=
  let lock := b.chLockstep (s / 2)
  let code :=
    if w.poison || (lock && other.2) then poisonWord lock
    else if !lock then encodeData false w.data.toNat
    else if w.sec % 2 = 0 then encodeData true (joinData true w.data other.1)
    else encodeData true (joinData true other.1 w.data)
  BitVec.ofNat 1280 code

/-- Put a write into its write queue (R252: the newest unissued entry of its column takes its data), or drop it there on an error of its fields (R377). -/
def Block.acceptWrite (b : Block) (c : Nat) (w : WriteBack) (other : BitVec 512 × Bool) (upset : Bool) : Block :=
  let s := b.routeSub w.route
  let at_ := b.routeCoord w.route
  let code := b.writeWord s w other
  let own : List Nat := if w.mnt = 0 then [] else [w.mnt]
  let b :=
    if upset then b.queueUe
    else b.updSub s (fun u =>
      let hits (e : WrEnt) : Bool := e.at_ == at_ && e.issued.isNone
      if u.wq.any hits then
        { u with wq := updLast hits (fun e => { e with code := code, dpa := w.dpa, mnt := e.mnt ++ own }) u.wq }
      else
        { u with wq := u.wq ++ [{ at_ := at_, cls := w.cls, owed := w.owed, src := w.source, arrival := u.slot
                                  code := code, dpa := w.dpa, issued := none, counts := true, worked := false
                                  replayed := false
                                  mnt := own }] })
  let b := if w.src = 8 then b else b.scrubStale (fun r => r.sector w.sec == w.route) w.sec
  b.wbResolve c w true

/-- Take a write out of a slice's list. -/
def Block.takeWb (b : Block) (c : Nat) (w : WriteBack) : Block :=
  b.updSlice c (fun q => { q with wb := q.wb.filter (fun v => !(v.id == w.id && v.side == w.side)) })

/-- Pass a write into its subchannel: both halves of a lockstep codeword go together, and a half the block does not hold
is read first. -/
def Block.passWb (b : Block) (c : Nat) (w : WriteBack) (upset : Bool) : Block :=
  let s := b.routeSub w.route
  if !b.chLockstep (s / 2) then (b.takeWb c w).acceptWrite c w (0, false) upset
  else match b.otherHalf c w with
  | (some h, some v) =>
    let b := ((b.takeWb c w).takeWb c v).acceptWrite c w h upset
    -- the partner's half is in the entry: replace it in place
    let b := if upset then b else b.updSub s (fun u => { u with
      wq := u.wq.map (fun e => if e.at_ == b.routeCoord w.route && e.issued.isNone && v.mnt != 0 then
        { e with mnt := e.mnt ++ [v.mnt] } else e) })
    b.wbResolve c v true
  | (some h, none) => (b.takeWb c w).acceptWrite c w h upset
  | (none, _) =>
    let b := b.takeWb c w
    let x : Miss := { (default : Miss) with
      id := w.id, line := (w.dpa.getD 0) / 256, sec := w.sec ^^^ 1, route := w.route.sector (w.sec ^^^ 1)
      cls := w.cls, owed := w.owed, src := 7, idx := w.idx, dpa := w.dpa.map (· ^^^ 64), merge := some w }
    b.updSlice c (fun q => { q with miss := q.miss ++ [x] })

/-- Offer the writes of a slice, oldest first. -/
def Block.insertWrite (b : Block) (c : Nat) (upset : Bool) : Block :=
  match (b.slices.get c).wb.find? (fun w => decide (2 ≤ b.writeReady c w)) with
  | some w => if b.writeReady c w = 3 then (b.takeWb c w).wbResolve c w false else b.passWb c w upset
  | none =>
    match (b.slices.get c).wb.find? (fun w => b.writeReady c w == 1) with
    | some w => b.count (ctrSlice c) 8 1 { (default : Carry) with tc := if w.cls < 8 then some w.cls else none }
    | none => b

/-- QUEUE_INSERT (R207, R250): slice `c` offers its reads or its writes; `upset` is an uncorrectable error of the entry's
fields (R377). -/
def execQueueInsert (c : Fin 16) (write upset : Bool) (s : State) : Out :=
  onBlock s (fun b => if write then b.insertWrite c upset else b.insertRead c upset)

/-! ## The return of reads (R374, R380, R381) -/

/-- The mirror frame that recovers a read, if its extent has one that may serve (R123, R381). -/
def Block.mirrorOf (b : Block) (x : Miss) : Option Route :=
  let pick (onMirror stale : Bool) (m : Option Route) : Option Route :=
    if onMirror || stale then none
    else match m with
      | some r => if b.chDown r.chan then none else some (r.sector x.sec)
      | none => none
  match x.merge, x.way with
  | some w, _ => pick false false w.twin
  | none, some k => let l := b.line k; pick l.onMirror l.stale l.mirror
  | none, none =>
    match x.waiters with
    | w :: _ => if w.req.src ≤ 6 then pick w.req.onMirror w.req.stale w.req.mirror else none
    | [] => none

/-- Read the sector of `x` from its mirror frame before answering (R381). -/
def Block.mirrorStart (b : Block) (c s : Nat) (x : Miss) (m : Route) (inj susp quiet : Bool) : Block :=
  let (id, b) := b.newId
  let r : Req := { (default : Req) with
    id := id, src := 11, op := .rd64, dpa := x.line * 256 + 64 * x.sec, tc := x.cls, route := m, idx := x.idx }
  let y : Miss := { (default : Miss) with
    id := id, line := x.line, sec := x.sec, route := m, waiters := [⟨r, x.sec⟩], cls := x.cls, owed := x.owed
    deadline := x.deadline, src := 11, idx := x.idx, dpa := x.dpa }
  let rec_ : MirrorRead := { id := id, slice := c, miss := x, sub := s, at_ := b.routeCoord x.route, device := 0x1F
                             inject := inj, suspect := susp, dpa := x.dpa, written := false, quiet := quiet, mirror := m }
  let b := b.updSlice c (fun q => { q with miss := q.miss ++ [y] })
  ({ b with ecc := { b.ecc with mirrors := b.ecc.mirrors ++ [rec_] } }).wake m.chan

/-- An uncorrectable read of slice `c`: a mirror read, or its outcome (R380). -/
def Block.readUe (b : Block) (c s : Nat) (x : Miss) (inj susp quiet : Bool) : Block :=
  match b.mirrorOf x with
  | some m => b.mirrorStart c s x m inj susp quiet
  | none =>
    let b := if quiet then b else b.ueEvent (b.eccSub s) (b.routeCoord x.route) x.dpa inj susp false
    b.finishMiss c x .ue

/-- The scrubber's read of a sector found nothing to correct but the erased device: its summary does not count it (R376). -/
def Block.scrubErased (b : Block) (x : Miss) : Block :=
  { b with scrub := { b.scrub with
      erased := b.scrub.erased ++ (x.waiters.filter (fun w => w.req.src == 8)).map (fun w => (w.req.id, w.sec)) } }

/-- The codeword of the oldest read in flight on a subchannel returns; with `upset` an uncorrectable error of its buffer
has it answered UE (R377). -/
def Block.readReturn (b : Block) (s code : Nat) (upset : Bool) : Block :=
  match (b.subs.get s).inflight with
  | [] => b
  | e :: rest =>
    let b := b.updSub s (fun u => { u with inflight := rest })
    let lock := b.chLockstep (s / 2)
    let c := e.slice
    let xs := (b.slices.get c).miss.filter (fun x => x.id == e.miss || x.joined == some e.miss)
    match xs with
    | [] => b
    | x :: _ =>
      if upset then (b.dropMiss c e.miss stUE).queueUe
      else
      let (b, out, fixed) := b.decodeRead (b.eccSub s) e.at_ x.dpa code
      let b := b.updSlice c (fun q => { q with
        miss := q.miss.filter (fun y => !(y.id == e.miss || y.joined == some e.miss)) })
      forEach xs b (fun b y =>
        match out with
        | .ok corrected erasure =>
          (if erasure then b.scrubErased y else b).finishMiss c y (.data (halfData lock fixed y.sec) corrected)
        | .poison => b.finishMiss c y .poison
        | .ue inj susp => b.readUe c s y inj susp (y.id != x.id))

/-- DRAM_READ_RETURN (R374): `code` is the codeword the pins deliver. -/
def execDramReadReturn (i : Fin 32) (x : ReadBack) (s : State) : Out :=
  onBlock s (fun b => b.readReturn i x.code.toNat x.upset)

/-- The answer to a mirror read has come back (R381). -/
def Block.mirrorReturn (b : Block) : Block :=
  match takeFirst (fun (n : Intern) => n.req.src == 11) b.intern with
  | none => b
  | some (n, rest) =>
    let b := { b with intern := rest }
    match takeFirst (fun (m : MirrorRead) => m.id == n.req.id) b.ecc.mirrors with
    | none => b
    | some (m, others) =>
      let b := { b with ecc := { b.ecc with mirrors := others } }
      let good := statusHasData n.status
      let b := if m.quiet then b else b.ueEvent (b.eccSub m.sub) m.at_ m.dpa m.inject m.suspect good
      if good then
        let x := m.miss
        let b := b.finishMiss m.slice x (.data n.data true)
        if m.written || x.merges then b
        else
          let r : Req := { (default : Req) with
            src := x.src, tc := x.cls, dpa := x.line * 256, route := x.route, idx := x.idx, raw := x.dpa.isNone }
          let (id, b) := b.newId
          b.passWriteAt m.slice id r x.sec n.data false 0 false
      else b.finishMiss m.slice m.miss .ue

/-- MIRROR_READ_RETURN (R381). -/
def execMirrorReadReturn (s : State) : Out := onBlock s Block.mirrorReturn

end Sys2Proof.Machine
end

