-- ==== Sys2Proof/Machine/Maint.lean ====
section
/-! DEFINITION. Cache maintenance (R243 to R247) and slice bypass (R236, R242, R248). -/

namespace Sys2Proof.Machine

open Reg

/-! ## Operations -/

/-- CLEAN. -/
def mntClean : Nat := 1
/-- INVAL. -/
def mntInval : Nat := 2
/-- CLEAN_INVAL. -/
def mntCleanInval : Nat := 3
/-- DISCARD. -/
def mntDiscard : Nat := 4
/-- Owner of the walk of ENTERING. -/
def mntBypass : Nat := 20

/-- A run reads the tag entry at a key: of its sets and ways, or for a range of every set. -/
def MntRun.walks (m : MntRun) (k : Nat) : Bool :=
  match m.ways with
  | some (first, count, mask) => decide (first ≤ keySet k) && decide (keySet k < first + count) && bitOf mask (keyWay k)
  | none => true

/-- A run selects a present line (R244, R245); scratch ways hold no lines. -/
def Block.mntSelects (b : Block) (m : MntRun) (k : Nat) : Bool :=
  (b.line k).present && decide (keyWay k < 16 - b.scratchWays) &&
  (match m.ways with
   | some _ => m.walks k
   | none => let a := b.keyDpa k; decide (m.base ≤ a) && decide (a < m.limit))

/-- Act on one selected line (R243, R247). -/
def Block.mntLine (b : Block) (m : MntRun) (k : Nat) : Block :=
  let pinned := (b.line k).pin
  if m.op = mntClean then b.sendDirty k m.owner
  else if m.op = mntDiscard then
    if pinned then (if m.owner = 1 then b.bump CCH_MNT_REFUSED_CNT_CNT else b) else b.dropLine k false m.owner
  else
    let b := if pinned then b.bump CCH_PIN_DROP_CNT_CNT else b
    b.dropLine k true m.owner

/-- Act on every line of slice `c` that a run selects, once the tags it reads are checked (R233). -/
def Block.mntApply (b : Block) (c : Nat) (m : MntRun) : Block :=
  let read := (b.arr.lines.filter (fun e => keySlice e.1 == c && m.walks e.1 && decide (keyWay e.1 < 16 - b.scratchWays)))
  let b := forEach (read.map (fun e => e.1)) b Block.tagCheck
  let keys := (b.arr.lines.filter (fun e => keySlice e.1 == c && b.mntSelects m e.1)).map (fun e => e.1)
  forEach keys b (fun b k => b.mntLine m k)

/-- Write-backs of an owner that slice `c` has not yet passed on. -/
def Block.mntPassing (b : Block) (c owner : Nat) : Bool :=
  let q := b.slices.get c
  q.wb.any (fun w => w.mnt == owner) || q.miss.any (fun x => (x.merge.map (fun w => w.mnt)) == some owner)

/-- Write-backs of an owner that wait in a write queue. -/
def Block.mntQueued (b : Block) (owner : Nat) : Bool :=
  b.subs.any (fun e => e.2.wq.any (fun w => w.issued.isNone && w.mnt.contains owner))

/-- A started run has reached its completion point in slice `c` (R243). In ENTERING and EXITING it ends with the change of
state (R247). -/
def Block.mntDone (b : Block) (c : Nat) (m : MntRun) : Bool :=
  m.started && b.sliceState c != 1 && b.sliceState c != 3 && !b.mntPassing c m.owner
  && (m.op == mntInval || m.op == mntDiscard || !b.mntQueued m.owner)

/-- Numbers of the requests that slice `c` has accepted and not performed (R246): writes that wait for their data, a fill or a
merge read, and everything in WAIT. -/
def Block.inSlice (b : Block) (c : Nat) : List Nat :=
  let q := b.slices.get c
  let writes (ws : List Waiter) : List Nat := (ws.filter (fun w => w.req.op.isWrite)).map (fun w => w.req.id)
  (q.grant.map (fun r => r.id)).toList ++ q.wait.map (fun w => w.1.id) ++ q.miss.flatMap (fun x => writes x.waiters)
    ++ (b.ecc.mirrors.filter (fun x => x.slice == c)).flatMap (fun x => writes x.miss.waiters)

/-- Hand a run to slice `c`; in BYPASS it is complete at once (R247). -/
def Block.mntGive (b : Block) (c : Nat) (m : MntRun) : Block :=
  if b.sliceState c = 2 then b
  else
    let m := { m with started := b.sliceState c != 0, before := b.inSlice c }
    b.updSlice c (fun q => { q with mnt := q.mnt ++ [m] })

/-! ## Order with requests (R246) -/

/-- A range run covers the line of a DPA. -/
def MntRun.covers (m : MntRun) (a : Nat) : Bool :=
  m.ways.isNone && decide (m.base ≤ a / 256 * 256) && decide (a / 256 * 256 < m.limit)

/-- A request to a DPA is held at slice `c` by a range operation. -/
def Block.mntHolds (b : Block) (c a : Nat) : Bool := (b.slices.get c).mnt.any (fun m => m.covers a)

/-- Every request that slice `c` accepted before the run has been performed, but for reads that wait only for their data. -/
def Block.mntClear (b : Block) (c : Nat) (m : MntRun) : Bool := !(b.inSlice c).any m.before.contains

/-- The first run of slice `c` that has not started starts, if it may (R246). -/
def Block.mntStart (b : Block) (c : Nat) : Block :=
  match (b.slices.get c).mnt.find? (fun m => !m.started) with
  | none => b
  | some m =>
    if b.sliceState c != 0 || !b.mntClear c m then b
    else
      let b := b.updSlice c (fun q => { q with
        mnt := updFirst (fun m => !m.started) (fun m => { m with started := true }) q.mnt })
      b.mntApply c m

/-- MAINTENANCE_SLICE_START (R246). -/
def execMaintenanceSliceStart (c : Fin 16) (s : State) : Out := onBlock s (fun b => b.mntStart c)

/-- Retire the runs that are complete, and end the software operation once no slice holds a run of it (R243). -/
def Block.mntRetire (b : Block) : Block :=
  let b := forEach (List.range 16) b (fun b c =>
    let done := (b.slices.get c).mnt.filter (fun m => b.mntDone c m)
    if done.isEmpty then b
    else b.updSlice c (fun q => { q with mnt := q.mnt.filter (fun m => !done.contains m) }))
  if b.on CCH_MNT_STATUS_BUSY && !b.slices.any (fun e => e.2.mnt.any (fun m => m.owner == 1)) then
    let b := b.wr CCH_MNT_STATUS_BUSY 0
    let b := b.wr CCH_MNT_STATUS_CODE (if b.rd CCH_MNT_REFUSED_CNT_CNT = 0 then 0 else 1)
    b.intr 10 (b.on CCH_MNT_STATUS_INT_DONE)
  else b

/-- MAINTENANCE_COMPLETE (R243). -/
def execMaintenanceComplete (s : State) : Out := onBlock s Block.mntRetire

/-! ## CCH_MNT_CTL.GO -/

/-- An operation that is refused before any line is touched. -/
def Block.mntRefuse (b : Block) (code : Nat) : Block :=
  (b.wr CCH_MNT_STATUS_CODE code).intr 10 (b.on CCH_MNT_STATUS_INT_DONE)

/-- A write of CCH_MNT_CTL with GO while no operation runs (R243 to R245). -/
def Block.mntGo (b : Block) : Block :=
  let op := b.rd CCH_MNT_CTL_OP
  let b := ((b.wr CCH_MNT_WB_CNT_CNT 0).wr CCH_MNT_REFUSED_CNT_CNT 0).wr CCH_MNT_STATUS_CODE 0
  if op = 0 then b
  else if 4 < op then b.mntRefuse 3
  else if b.on CCH_MNT_CTL_MODE then
    let first := b.rd CCH_MNT_SETS_FIRST
    let count := if b.rd CCH_MNT_SETS_COUNT = 0 then 512 else b.rd CCH_MNT_SETS_COUNT
    let mask := b.rd CCH_MNT_WAYS_MASK
    let slices := b.rd CCH_MNT_CTL_SLICES
    if 512 < first + count ∨ mask = 0 ∨ slices = 0 then b.mntRefuse 4
    else if mask >>> (16 - b.scratchWays) != 0 then b.mntRefuse 2
    else
      let m : MntRun := { op := op, base := 0, limit := 0, ways := some (first, count, mask), owner := 1, started := false, before := [] }
      forEach (List.range 16) (b.wr CCH_MNT_STATUS_BUSY 1) (fun b c => if bitOf slices c then b.mntGive c m else b)
  else
    let base := b.rd64 CCH_MNT_BASE_LO_ADDR CCH_MNT_BASE_HI_ADDR / 256 * 256
    let limit := b.rd64 CCH_MNT_LIMIT_LO_ADDR CCH_MNT_LIMIT_HI_ADDR / 256 * 256
    if limit ≤ base ∨ 2 ^ 46 < base ∨ 2 ^ 46 < limit then b.mntRefuse 4
    else
      let m : MntRun := { op := op, base := base, limit := limit, ways := none, owner := 1, started := false, before := [] }
      forEach (List.range 16) (b.wr CCH_MNT_STATUS_BUSY 1) (fun b c => b.mntGive c m)

/-- The Tender's maintenance of a range in one slice (08, maintenance operations). -/
def Block.mntTender (b : Block) (c op base limit lane : Nat) : Block :=
  b.mntGive c { op := op, base := base, limit := limit, ways := none, owner := 2 + lane, started := false, before := [] }

/-- A Tender's operation still runs in some slice. -/
def Block.mntBusy (b : Block) (lane : Nat) : Bool :=
  b.slices.any (fun e => e.2.mnt.any (fun m => m.owner == 2 + lane))

/-! ## Bypass (R248) -/

/-- The invalidation of R242 in slice `c`: no line is present, and AGE is the way number. Fills and write-backs of dropped
lines no longer name a way. -/
def Block.invalidateTags (b : Block) (c : Nat) : Block :=
  let cut (x : Miss) : Miss := if x.way.isSome then { x with way := none, cancel := true } else x
  let b := b.updSlice c (fun q => { q with
    miss := q.miss.map cut, wb := q.wb.map (fun w => { w with way := none }) })
  { b with
    arr := { b.arr with lines := b.arr.lines.filter (fun e => keySlice e.1 != c) }
    ecc := { b.ecc with mirrors := b.ecc.mirrors.map (fun m => if m.slice = c then { m with miss := cut m.miss } else m) } }

/-- The walk of ENTERING: a CLEAN_INVAL of every line. -/
def bypassWalk : MntRun :=
  { op := mntCleanInval, base := 0, limit := 0, ways := some (0, 512, 65535), owner := mntBypass, started := false
    before := [] }

/-- Enter ENTERING: hits are served until the walk has run. -/
def Block.bypassEnter (b : Block) (c : Nat) : Block :=
  (b.wr (CCH_STATUS_STATE c) 1).updSlice c (fun q => { q with
    mnt := q.mnt.map (fun m => { m with started := true }) ++ [bypassWalk] })

/-- The walk of ENTERING runs, once. -/
def Block.bypassRun (b : Block) (c : Nat) : Block :=
  if (b.slices.get c).mnt.contains bypassWalk then
    (b.updSlice c (fun q => { q with mnt := q.mnt.filter (fun m => m != bypassWalk) })).mntApply c bypassWalk
  else b

/-- What CCH_CTL.BYPASS asks of a slice in NORMAL or BYPASS; in ENTERING and EXITING it is looked at again at their end. -/
def Block.bypassWish (b : Block) (c : Nat) : Block :=
  let want := b.on (CCH_CTL_BYPASS c)
  match b.sliceState c with
  | 0 => if want then b.bypassEnter c else b
  | 2 => if want then b else b.wr (CCH_STATUS_STATE c) 3
  | _ => b

/-- The walk of ENTERING has visited every set; the state ends once every write-back of it has been accepted. -/
def Block.bypassEntered (b : Block) (c : Nat) : Block :=
  let b := if b.sliceState c = 1 then b.bypassRun c else b
  if b.sliceState c = 1 ∧ !b.mntPassing c mntBypass then
    let b := (b.wr (CCH_STATUS_STATE c) 2).updSlice c (fun q => { q with mnt := [] })
    b.bypassWish c
  else b

/-- BYPASS_ENTRY_COMPLETE (R248). -/
def execBypassEntryComplete (c : Fin 16) (s : State) : Out := onBlock s (fun b => b.bypassEntered c)

/-- The invalidation of EXITING ends. -/
def Block.bypassExited (b : Block) (c : Nat) : Block :=
  if b.sliceState c = 3 then
    let b := (b.invalidateTags c).wr (CCH_STATUS_STATE c) 0
    (b.updSlice c (fun q => { q with mnt := [] })).bypassWish c
  else b

/-- BYPASS_EXIT_COMPLETE (R248). -/
def execBypassExitComplete (c : Fin 16) (s : State) : Out := onBlock s (fun b => b.bypassExited c)

/-- A cleared slice fence runs the walk of ENTERING and leaves the slice in BYPASS (R519). -/
def Block.sliceUnfenced (b : Block) (c : Nat) : Block := (b.wr (CCH_CTL_BYPASS c) 1).bypassWish c

end Sys2Proof.Machine
end

