-- ==== Sys2Proof/Machine/Regulator.lean ====
section
/-! DEFINITION. The regulator (07_bandwidth_regulation): owed marks and ceilings, window boundaries, guarantee misses, the
deliverable estimate and admission, and the commit of its tables. -/

namespace Sys2Proof.Machine

open Reg

/-! ## Entries and marks (R179, R186, R189) -/

/-- The working ENABLE. -/
def Block.regulating (b : Block) : Bool := b.wk REGU_CTL_ENABLE != 0

/-- The entry a request matches (R179). -/
def Block.entryOf (b : Block) (r : Req) : Option Nat :=
  if r.src < 6 then b.reguEntry false (tagMaster r.tag)
  else if r.src = 6 then b.reguEntry true 0
  else none

/-- Served units of an entry in this window. -/
def Block.served (b : Block) (e : Nat) : Nat := b.regu.served.get e

/-- Served units as an arbiter sees them that does not see the last `lag` grants yet (R187). -/
def Block.seen (b : Block) (lag e : Nat) : Nat :=
  b.served e - ((b.regu.recent.take lag).filter (fun x => x.1 == e)).foldl (fun n x => n + x.2) 0

/-- A request is owed, as an arbiter sees it (R186, R187). -/
def Block.owedSeen (b : Block) (lag : Nat) (r : Req) : Bool :=
  b.regulating && (match b.entryOf r with
    | some e => decide (b.seen lag e < b.rd (REGU_GT_EFF_EFF e))
    | none => false)

/-- A request is owed now. -/
def Block.owedNow (b : Block) (r : Req) : Bool := b.owedSeen 0 r

/-- A ceiling holds the request, as an arbiter sees it (R187, R189). -/
def Block.ceilingSeen (b : Block) (lag : Nat) (r : Req) : Bool :=
  b.regulating && (match b.entryOf r with
    | some e => b.wk (REGU_GT_CEIL_CEIL e) != 0 && decide (b.wk (REGU_GT_CEIL_CEIL e) ≤ b.seen lag e)
    | none => false)

/-- A ceiling holds the request now. -/
def Block.ceilingHolds (b : Block) (r : Req) : Bool := b.ceilingSeen 0 r

/-- Units of a transfer (R180). -/
def ReqOp.units (op : ReqOp) : Nat := if op = .rd256 ∨ op = .wrl then 4 else 1

/-- A granted transfer counts (R180, R446). -/
def Block.reguGrant (b : Block) (r : Req) (owed : Bool) : Block :=
  match b.entryOf r with
  | none => b
  | some e =>
    let n := r.op.units
    let b := { b with regu := { b.regu with
      served := b.regu.served.upd e (fun v => min (v + n) 0xFFFFFFFF), recent := ((e, n) :: b.regu.recent).take 64 } }
    let b := b.count ctrRegu 1 n r.carry
    if owed then b.count ctrRegu 2 n r.carry else b

/-- A candidate is owed: its entry's demand flag is set (R190). -/
def Block.reguDemand (b : Block) (r : Req) : Block :=
  match b.entryOf r with
  | some e => if b.owedNow r then { b with regu := { b.regu with demand := b.regu.demand.set e true } } else b
  | none => b

/-- The deadline of an arriving request has passed already (R191). -/
def Block.reguArrive (b : Block) (r : Req) : Block :=
  if b.lateNow r.deadline then (b.bump REGU_ARRIVE_LATE_CNT_CNT).count ctrRegu 6 1 r.carry else b

/-! ## The deliverable estimate (R183, R196 to R198) -/

/-- PERIOD of the enabled REG_WINDOW entry of the working light list, ns; without one, a free value (R183). -/
def Block.windowNs (b : Block) : Nat :=
  match (List.range 64).find? (fun i => let e := b.lightW i; e.enable && e.verb == 5) with
  | some i => (b.lightW i).periodNs
  | none => Config.windowWithout

/-- A subchannel is running for the estimates. -/
def Block.reguRunning (b : Block) (s : Nat) : Bool :=
  let n := s / 2
  let st := b.chState n
  b.chEnabled n && !b.chSpare n && !b.subFenced s && st != pwOFF && st != pwS2

/-- DELIV_PM of the running speed bin; subchannel A's set serves a lockstep pair. -/
def Block.delivPm (b : Block) (s : Nat) : Nat := leAt (b.activeSet (b.eccSub s)) 0x0C 2

/-- U_img for a window length in ns (R196). -/
def Block.uImg (b : Block) (w : Nat) : Nat :=
  ((List.range 32).filter b.reguRunning).foldl (fun n s =>
    n + b.rd (PHY_STATUS_RATE s) * w / 16000 * b.delivPm s / 1000) 0

/-- U_meas (R197). -/
def Block.uMeas (b : Block) (w : Nat) : Nat :=
  let len := b.regu.hist.foldl (fun n x => n + x.ns) 0
  if len = 0 then b.uImg w
  else
    let total := b.regu.hist.foldl (fun n x =>
      ((List.range 32).filter b.reguRunning).foldl (fun n s => n + x.slots.get s) n) 0
    total * w / len

/-- PCT as it acts. -/
def pctOf (v : Nat) : Nat := min 100 (max 1 v)

/-- The admission limit for a percentage (R198). -/
def Block.reguLimit (b : Block) (w pct : Nat) : Nat := min (b.uImg w) (b.uMeas w) * pctOf pct / 100

/-- The committed total of a table of words (R198). -/
def reguTotal (t : Tab Nat) : Nat :=
  (List.range 256).foldl (fun n e =>
    if fldGet t (REGU_GT_CTL_VALID e) != 0 then n + fldGet t (REGU_GT_GUAR_GUAR e) else n) 0

/-- Recompute the limit and every effective guarantee (R198 to R200). -/
def Block.reguCompute (b : Block) (byCommit : Bool) : Block :=
  let w := b.regu.w
  let cap (v : Nat) : Nat := min v 0xFFFFFF
  let limit := b.reguLimit w (b.wk REGU_ADMIT_PCT)
  let total := reguTotal b.work
  let was := b.rd REGU_SCALE_SCALE
  let scale := if total ≤ limit then 65536 else limit * 65536 / total
  let b := (b.wr REGU_DELIV_IMG_VAL (cap (b.uImg w))).wr REGU_DELIV_MEAS_VAL (cap (b.uMeas w))
  let b := ((b.wr REGU_LIMIT_VAL (cap limit)).wr REGU_TOTAL_VAL (cap total)).wr REGU_SCALE_SCALE scale
  let b := forEach (List.range 256) b (fun b e =>
    let guar := b.wk (REGU_GT_GUAR_GUAR e)
    b.wr (REGU_GT_EFF_EFF e)
      (if b.wk (REGU_GT_CTL_VALID e) = 0 then 0 else if total ≤ limit then guar else guar * limit / total))
  let above := decide (limit < total)
  let b := b.wrB REGU_STATUS_SCALING above
  let b := if above then b.wr REGU_STATUS_SCALED 1 else b
  if above && was == 65536 && !byCommit then
    ((b.wr REGU_STATUS_CAP_LOST 1).intr 8 (b.on REGU_CTL_INT_CAPLOST)).eventPlain 24 0 0
  else b

/-! ## Boundaries (R182, R184, R185, R194) -/

/-- Step 1: guarantee misses and deadline-miss limits of the closing window. -/
def Block.reguMisses (b : Block) (short : Bool) : Block :=
  forEach (List.range 256) b (fun b e =>
    let valid := b.wk (REGU_GT_CTL_VALID e) != 0
    let served := b.served e
    let miss := valid && b.regu.demand.get e && decide (served < b.rd (REGU_GT_EFF_EFF e))
    let b :=
      if short then b
      else
        let b := (b.wrB (REGU_GT_LAST_LAST_MISS e) miss).wr (REGU_GT_LAST_LAST_SERVED e) (min served 0xFFFFFF)
        if miss then
          let b := (b.setBitOf (REGU_MISS_MISS (e / 32)) (e % 32)).bump (REGU_GT_CNT_MISS e)
          let b := (b.wr REGU_STATUS_MISS 1).intr 8 (b.on REGU_CTL_INT_MISS)
          b.count ctrRegu 4 1 { (default : Carry) with master := some (b.wk (REGU_GT_CTL_MID e)) }
        else b
    let dl := b.rd REGU_CTL_DL_LIMIT
    if valid && dl != 0 && decide (dl ≤ b.regu.dlWin.get e) then
      (b.wr REGU_STATUS_DLMISS 1).intr 8 (b.on REGU_CTL_INT_DLMISS)
    else b)

/-- Keys of the class S fields of the regulator. -/
def isReguKey (k : Nat) : Bool :=
  let off := k / 32
  (off == 0x20000 && decide (k % 32 ≤ 1)) || off == 0x20010 || (decide (0x20080 ≤ off) && decide (off < 0x200A0))
  || (decide (0x21000 ≤ off) && decide (off < 0x23000) && decide (off % 0x20 ≤ 8))

/-- Put a checked table into the working copy (R203). -/
def Block.reguTake (b : Block) (t : Tab Nat) : Block :=
  let was := b.regulating
  let b := ({ b with work := b.work.overlay t isReguKey }).wr REGU_COMMIT_STATUS_PENDING 0
  let b := { b with regu := { b.regu with pend := [] } }
  if !was then
    let b := b.wr REGU_STATUS_LOCAL 0
    { b with regu := { b.regu with served := [], recent := [], demand := [], dlWin := [], slots := [], lastB := b.now, w := b.windowNs } }
  else b

/-- A window boundary (R182). -/
def Block.reguBoundary (b : Block) (own : Bool) : Block :=
  if !b.regulating then b
  else
    let len := timeSince b.now b.regu.lastB
    let short := b.regu.short || decide (2 * len < b.regu.w)
    let b := (b.wrB REGU_STATUS_LOCAL own).count ctrRegu 7 1 default
    let b := if own then b.count ctrRegu 8 1 default else b
    let b := b.reguMisses short
    let hist := if short then b.regu.hist else ((WinRec.mk b.regu.slots len) :: b.regu.hist).take 4
    let b := { b with regu := { b.regu with hist := hist } }
    let commit := b.on REGU_COMMIT_STATUS_PENDING
    let b := if commit then b.reguTake b.regu.pend else b
    let b := { b with regu := { b.regu with w := b.windowNs, lastB := b.now, short := false, slots := [] } }
    let b := b.reguCompute commit
    let b := if b.on REGU_STATUS_SCALING then b.count ctrRegu 9 1 default else b
    { b with regu := { b.regu with served := [], recent := [], demand := [], dlWin := [] } }

/-! ## Commits (R201 to R205) -/

/-- REGU_COMMIT.GO: the shadow is taken as it stands; the check waits for a running light-list check. -/
def Block.reguGo (b : Block) : Block :=
  if b.harbour || b.on REGU_COMMIT_STATUS_BUSY then b
  else
    ({ b with regu := { b.regu with
        snap := b.regs.filter (fun e => isReguKey e.1), running := !b.lgtRun } }).wr REGU_COMMIT_STATUS_BUSY 1

/-- CODE and INDEX of the check of a table (R202). -/
def Block.reguJudge (b : Block) (t : Tab Nat) : Nat × Nat :=
  let g (f : Fld) : Nat := fldGet t f
  let valid (e : Nat) : Bool := g (REGU_GT_CTL_VALID e) != 0
  let tender (e : Nat) : Bool := g (REGU_GT_CTL_TENDER e) != 0
  let on := (List.range 256).filter valid
  let enable := g REGU_CTL_ENABLE != 0
  let w := b.windowNs
  let dup (p : Nat → Nat → Bool) : Option Nat := on.find? (fun e => on.any (fun d => decide (d < e) && p d e))
  if enable && g REGU_CTL_SCALE == 0 && decide (b.reguLimit w (g REGU_ADMIT_PCT) < reguTotal t) then (1, 0xFF)
  else match dup (fun d e => !tender d && !tender e && g (REGU_GT_CTL_MID d) == g (REGU_GT_CTL_MID e)) with
  | some e => (2, e)
  | none =>
    match dup (fun d e => tender d && tender e) with
    | some e => (3, e)
    | none =>
      match on.find? (fun e =>
          g (REGU_GT_CEIL_CEIL e) != 0 && decide (g (REGU_GT_CEIL_CEIL e) < g (REGU_GT_GUAR_GUAR e))) with
      | some e => (4, e)
      | none =>
        let window := (List.range 64).any (fun i =>
          let e := b.lightW i; e.enable && e.verb == 5 && !b.on (LGT_STATUS_DONE i))
        if enable && !window then (5, 0xFF)
        else match (List.range 8).find? (fun c =>
            g (REGU_CLASS_WEIGHT c) == 0 || g (REGU_CLASS_BUOY_RD c) == 0 || g (REGU_CLASS_BUOY_WR c) == 0) with
          | some c => (6, c)
          | none => (0, 0xFF)

/-- The regulator check ends (R202, R203). A light-list check that waited behind it starts (R204). -/
def Block.reguDone (b : Block) : Block :=
  if b.on REGU_COMMIT_STATUS_BUSY && b.regu.running then
    let t := b.regu.snap
    let (code, idx) := b.reguJudge t
    let b := ((b.wr REGU_COMMIT_STATUS_BUSY 0).wr REGU_COMMIT_STATUS_CODE code).wr REGU_COMMIT_STATUS_INDEX idx
    let b := { b with regu := { b.regu with running := false, snap := [] } }
    let b :=
      if code != 0 then b
      else if b.regulating then
        ({ b with regu := { b.regu with pend := t } }).wr REGU_COMMIT_STATUS_PENDING 1
      else (b.reguTake t).reguCompute true
    if b.on LGT_COMMIT_STATUS_BUSY then { b with lgtRun := true } else b
  else b

/-- REGU_COMMIT_DONE (R202). -/
def execReguCommitDone (s : State) : Out := onBlock s Block.reguDone

end Sys2Proof.Machine
end

