-- ==== Sys2Proof/Machine/Edt.lean ====
section
/-! DEFINITION. The EDT unit (04_addresses_and_extents): descriptors and their checks, lookup, the descriptor cache and its
fetches, routing with migration, mirrors and fences, the reserved region, invalidates, and the block's own updates. -/

namespace Sys2Proof.Machine

open Reg

/-! ## The descriptor (R110 to R112) -/

/-- A descriptor's bits. -/
abbrev Desc := BitVec 512

/-- Bits `hi` to `lo` of word `w`. -/
def dField (d : Desc) (w hi lo : Nat) : Nat := bitsOf d.toNat (64 * w + hi) (64 * w + lo)
/-- VALID. -/
def dValid (d : Desc) : Bool := dField d 0 0 0 == 1
/-- STATE. -/
def dState (d : Desc) : Nat := dField d 0 3 1
/-- TC. -/
def dTc (d : Desc) : Nat := dField d 0 6 4
/-- MIRROR_EN. -/
def dMirrorEn (d : Desc) : Bool := dField d 0 7 7 == 1
/-- CACHE_POLICY. -/
def dPolicy (d : Desc) : Nat := dField d 0 9 8
/-- SCRUB_POLICY. -/
def dScrub (d : Desc) : Nat := dField d 0 11 10
/-- POISON. -/
def dPoison (d : Desc) : Bool := dField d 0 12 12 == 1
/-- MIRROR_STALE. -/
def dStale (d : Desc) : Bool := dField d 0 15 15 == 1
/-- OWNER_CNT. -/
def dOwnerCnt (d : Desc) : Nat := dField d 0 18 16
/-- STALE_SIDE. -/
def dSide (d : Desc) : Nat := dField d 0 19 19
/-- GEN. -/
def dGen (d : Desc) : Nat := dField d 0 47 32
/-- OWNER k. -/
def dOwner (d : Desc) (k : Nat) : Nat := dField d 1 (16 * k + 9) (16 * k)
/-- Primary set and frame. -/
def dFrame (d : Desc) : Nat × Nat := (dField d 2 2 0, dField d 2 31 16)
/-- Mirror set and frame. -/
def dMirror (d : Desc) : Nat × Nat := (dField d 2 34 32, dField d 2 63 48)
/-- Migration target set and frame. -/
def dMig (d : Desc) : Nat × Nat := (dField d 3 2 0, dField d 3 31 16)
/-- WATERMARK. -/
def dMark (d : Desc) : Nat := dField d 3 52 32
/-- CRC as stored. -/
def dCrc (d : Desc) : Nat := dField d 7 63 48

/-- NORMAL. -/
def xsNormal : Nat := 0
/-- MIGRATING. -/
def xsMigrating : Nat := 1
/-- FENCED. -/
def xsFenced : Nat := 2
/-- SANITISING. -/
def xsSanitising : Nat := 3
/-- DISABLED. -/
def xsDisabled : Nat := 4

/-- The CRC is correct (R111). -/
def dCrcOk (d : Desc) : Bool := crc16 (leBytes 62 d.toNat) == dCrc d

/-- Replace a field. -/
def dPut (d : Desc) (w hi lo v : Nat) : Desc := BitVec.ofNat 512 (putBits d.toNat (64 * w + hi) (64 * w + lo) v)

/-- Frames of a set (R105). -/
def Block.frames (b : Block) (k : Nat) : Nat := (b.ivsLimit k - b.ivsBase k) >>> b.granLog

/-- A set and frame exist. -/
def Block.frameOk (b : Block) (f : Nat × Nat) : Bool := b.hasSec tyInterleave f.1 && decide (f.2 < b.frames f.1)

/-- Chunks of an extent. -/
def Block.chunks (b : Block) : Nat := 2 ^ (b.granLog - 12)

/-- The frames a descriptor names (R112). -/
def dNames (d : Desc) : List (Nat × Nat) :=
  dFrame d :: ((if dMirrorEn d then [dMirror d] else []) ++ (if dState d = xsMigrating then [dMig d] else []))

/-- A valid descriptor is malformed (R112). -/
def Block.malformed (b : Block) (d : Desc) : Bool :=
  decide (5 ≤ dState d) || dPolicy d == 3 || dOwnerCnt d == 0 || decide (5 ≤ dOwnerCnt d)
  || (dNames d).any (fun f => !b.frameOk f || some f == b.edtFrame)
  || (dMirrorEn d && (dMirror d).1 == (dFrame d).1)
  || (dState d == xsMigrating && decide (b.chunks < dMark d))

/-- Extent index of a DPA. -/
def Block.extentOf (b : Block) (a : Nat) : Nat := a >>> b.granLog

/-- The extent that holds a DRAM-located EDT is withheld (R106). -/
def Block.withheld (b : Block) (i : Nat) : Bool := b.edtThere && !b.edtInScratch && b.extentOf b.edtBase == i

/-! ## Routing (R120 to R123) -/

/-- The route of an offset of an extent in its own frame, or once moved in the migration target (R120). -/
def Block.homeRoute (b : Block) (d : Desc) (off : Nat) : Route :=
  let moved := dState d == xsMigrating && decide (off / 4096 < dMark d)
  b.frameRoute (if moved then dMig d else dFrame d) off

/-- The block decodes no request to a route: its address exceeds the discovered geometry (R103), or lies in a training row
(R359). -/
def Block.noPlace (b : Block) (p : Route) : Bool :=
  b.beyondGeom (b.routeSub p) (b.routeCoord p) || b.inTrainRow (b.routeSub p) (b.routeCoord p)

/-- Where an offset of an extent is served: none is FENCED. The answer is the route, the other side writes also go to, and
whether the route is the mirror's (R120 to R123). -/
def Block.serveAt (b : Block) (d : Desc) (off : Nat) : Option (Route × Option Route × Bool) :=
  let p := b.homeRoute d off
  let downP := b.chDown p.chan
  if !dMirrorEn d then (if downP then none else some (p, none, false))
  else
    let m := b.frameRoute (dMirror d) off
    let downM := b.chDown m.chan
    if !dStale d then
      if !downP then some (p, some m, false) else if !downM then some (m, none, true) else none
    else if dSide d = 0 then (if downP then none else some (p, some m, false))
    else if downM then none
    else some (m, if downP then none else some p, true)

/-- What a lookup answers. -/
inductive Resolved
  | deny | decode | fenced
  | go (r : Req)
  deriving DecidableEq, Repr

/-- Route a request through a descriptor (R103, R113, R359); DECODE goes before FENCED (R141). -/
def Block.routeReq (b : Block) (r : Req) (d : Desc) : Resolved :=
  let off := r.dpa % 2 ^ b.granLog
  match b.serveAt d off with
  | none => if b.noPlace (b.homeRoute d off) then .decode else .fenced
  | some (p, m, onM) =>
    if b.noPlace p then .decode
    else .go { r with idx := b.extentOf r.dpa, tc := dTc d, policy := if r.src < 6 then dPolicy d else 1
                      route := p, mirror := m, onMirror := onM, stale := dStale d, area := .dram }

/-- A master owns the extent (R114). -/
def ownerOk (d : Desc) (m : Nat) : Bool := (List.range (dOwnerCnt d)).any (fun k => dOwner d k == m)

/-- The checks of R113 on a descriptor without fault, for a port's request. -/
def Block.resolve (b : Block) (r : Req) (d : Desc) : Resolved :=
  if !dValid d then .decode
  else if !ownerOk d (tagMaster r.tag) then .deny
  else if dState d = xsDisabled ∨ dState d = xsSanitising then .deny
  else if dState d = xsFenced then .fenced
  else b.routeReq r d

/-! ## Towards the slice -/

/-- The slice that serves a request (R116, R237). -/
def Block.reqSlice (b : Block) (r : Req) : Nat :=
  if r.area = .scratch ∨ (r.area = .edt ∧ b.edtInScratch) then
    (b.scratchPlace (b.scratchOff r (r.dpa / 64 % 4))).1
  else r.route.chan

/-- Put a request into its requester's queue at its slice; a fenced slice answers it FENCED (R163, R519). -/
def Block.sendReq (b : Block) (r : Req) : Block :=
  let c := b.reqSlice r
  if b.sliceFenced c then b.respondAll r stFenced
  else
    let b := b.updSlice c (fun q => { q with q := q.q.upd r.src (· ++ [r]) })
    if r.area = .dram then b.wake r.route.chan else b

/-- A chunk of an extent is locked by a MOVE (R439). -/
def Block.chunkLocked (b : Block) (idx a : Nat) : Bool :=
  b.tnd.lanes.any (fun e => e.2.lock.isSome && bitsOf e.2.job.toNat 79 64 == idx
    && e.2.chunk == a % 2 ^ b.granLog / 4096)

/-- A request that has passed its lookup: a write to a locked chunk waits at the EDT unit, and so does a later request
of its port to the same 64 bytes; a read of the chunk does not allocate (R439). A MOVE's own requests pass. -/
def Block.afterLookup (b : Block) (r : Req) : Block :=
  let locked := r.area == .dram && !r.raw && b.chunkLocked r.idx r.dpa
  let behind := b.edt.held.any (fun h => h.src == r.src && overlaps h.op h.dpa r.op r.dpa)
  if (locked && r.op.isWrite) || behind then { b with edt := { b.edt with held := b.edt.held ++ [r] } }
  else
    let r := if locked then { r with policy := 1 } else r
    (b.reguArrive r).sendReq r

/-- Every DECODE of the EDT unit or an aperture counts (R115). -/
def Block.answerDecode (b : Block) (r : Req) : Block := (b.bump EDT_DECODE_CNT_CNT).respondAll r stDecode

/-- Act on the outcome of a lookup. -/
def Block.applyResolved (b : Block) (r : Req) (x : Resolved) : Block :=
  match x with
  | .deny => (b.bump EDT_DENY_CNT_CNT).respondAll r stDenied
  | .decode => b.answerDecode r
  | .fenced => b.respondAll r stFenced
  | .go r => b.afterLookup r

/-! ## The descriptor cache (R117) -/

/-- The cached descriptor of an index. -/
def Block.descCached (b : Block) (i : Nat) : Option Desc :=
  ((b.edt.cache.get (i % 1024)).find? (fun e => e.idx == i)).map (fun e => e.bits)

/-- Put an entry at the most recent place of its set; the least recent of nine leaves. -/
def Block.descPut (b : Block) (i : Nat) (d : Desc) : Block :=
  { b with edt := { b.edt with
      cache := b.edt.cache.upd (i % 1024) (fun s => ((DescEnt.mk i d false) :: s.filter (fun e => e.idx != i)).take 8) } }

/-- The cached entry of an index has an uncorrectable error (R119). -/
def Block.descBad (b : Block) (i : Nat) : Bool :=
  (b.edt.cache.get (i % 1024)).any (fun e => e.idx == i && e.bad)

/-- The cached entry of an index takes an uncorrectable error. -/
def Block.descUpset (b : Block) (u : Option (BitVec 18)) : Block :=
  match u with
  | none => b
  | some i => { b with edt := { b.edt with
      cache := b.edt.cache.upd (i.toNat % 1024) (fun s =>
        s.map (fun e => if e.idx = i.toNat then { e with bad := true } else e)) } }

/-- Drop the entries of a set of indices. -/
def Block.descDrop (b : Block) (p : Nat → Bool) : Block :=
  { b with edt := { b.edt with cache := b.edt.cache.map (fun e => (e.1, e.2.filter (fun x => !p x.idx))) } }

/-! ## Fetches (R118, R119) -/

/-- Reserved-region DPA of a descriptor. -/
def edtAddr (i : Nat) : Nat := 0x3FFFC0000000 + 64 * i

/-- A request of the EDT unit itself for a descriptor. -/
def Block.edtReq (b : Block) (src i : Nat) (op : ReqOp) : Req :=
  { (default : Req) with
    src := src, op := op, dpa := edtAddr i, area := .edt, idx := i, tc := 8, policy := 1
    route := match b.edtFrame with
      | some f => b.frameRoute f ((b.edtBase + 64 * i) % 2 ^ b.granLog)
      | none => default }

/-- The EDT line of a descriptor in DRAM lies beyond the discovered geometry, or in a training row (R103). -/
def Block.edtNoPlace (b : Block) (r : Req) : Bool := !b.edtInScratch && b.noPlace r.route

/-- The EDT line of a descriptor lies on a fenced or OFF channel. -/
def Block.edtDown (b : Block) (r : Req) : Bool :=
  if b.edtInScratch then b.sliceFenced (b.reqSlice r) else b.chDown r.route.chan

/-- Read a descriptor for the EDT unit; the answer comes back in `intern`. -/
def Block.edtRead (b : Block) (src i : Nat) : Block :=
  let (id, b) := b.newId
  let r := { b.edtReq src i .rd64 with id := id }
  if b.edtNoPlace r then { b with intern := b.intern ++ [⟨r, i % 4, stDecode, 0⟩] }
  else if b.edtDown r then { b with intern := b.intern ++ [⟨r, i % 4, stFenced, 0⟩] }
  else b.sliceAccess (b.reqSlice r) r

/-- A request joins the fetch of its extent's descriptor, or a new one. -/
def Block.fetchAdd (b : Block) (i : Nat) (r : Req) : Block :=
  { b with edt := { b.edt with
    fetches :=
      if b.edt.fetches.any (fun f => f.idx == i) then
        updFirst (fun f => f.idx == i) (fun f => { f with waiters := f.waiters ++ [r] }) b.edt.fetches
      else b.edt.fetches ++ [Fetch.mk i [r] false false false] } }

/-- The miss queue is full (R118, R156). -/
def Block.missFull (b : Block) : Bool := decide (64 ≤ (b.edt.fetches.filter (fun f => !f.started)).length)

/-- The miss queue has room again: the requests that wait at the EDT unit enter it in order. -/
def Block.overEnter (b : Block) : Block :=
  forEach b.edt.beyond ({ b with edt := { b.edt with beyond := [] } }) (fun b x =>
    if b.edt.beyond.isEmpty && (!b.missFull || b.edt.fetches.any (fun f => f.idx == x.1)) then b.fetchAdd x.1 x.2
    else { b with edt := { b.edt with beyond := b.edt.beyond ++ [x] } })

/-- Start the oldest waiting fetch while fewer than 32 are outstanding. -/
def Block.fetchStart (b : Block) : Block :=
  if 32 ≤ (b.edt.fetches.filter (fun f => f.started)).length then b
  else match b.edt.fetches.find? (fun f => !f.started) with
  | none => b
  | some f =>
    let b := { b with edt := { b.edt with
      fetches := updFirst (fun f => !f.started) (fun f => { f with started := true }) b.edt.fetches } }
    b.overEnter.edtRead 9 f.idx

/-- DESCRIPTOR_FETCH_START (R118). -/
def execDescriptorFetchStart (s : State) : Out := onBlock s Block.fetchStart

/-- A request waits for the descriptor of its extent; a distinct miss that finds the miss queue full waits at the EDT
unit. -/
def Block.fetchWait (b : Block) (i : Nat) (r : Req) : Block :=
  if b.edt.fetches.any (fun f => f.idx == i) then b.fetchAdd i r
  else if b.missFull then { b with edt := { b.edt with beyond := b.edt.beyond ++ [(i, r)] } }
  else (b.fetchAdd i r).fetchStart

/-- An error of the EDT unit (R115, R119): bit `pos` of EDT_STATUS, the index, and the event unless every waiter is a
prefetch (R133). -/
def Block.edtError (b : Block) (pos i : Nat) (a : Option Nat) (quiet : Bool) : Block :=
  let bit := match pos with
    | 0 => EDT_STATUS_CACHE_UE
    | 1 => EDT_STATUS_FETCH_ERR
    | 2 => EDT_STATUS_BAD_CRC
    | _ => EDT_STATUS_BAD_DESC
  let code := match pos with
    | 0 => 23
    | 1 => 20
    | 2 => 21
    | _ => 22
  let b := ((b.wr bit 1).wr EDT_ERR_INDEX_INDEX i).intr 9 (bitOf (b.rd EDT_CTL_INT_EN) pos)
  if quiet then b
  else match a with
    | some a => b.event { code := code, kind := 0, form := 0, addr := a, unit_ := .none, sev := none }
    | none => b.eventPlain code 0 0

/-- Which error of R115 a descriptor read has, if any: 1 FETCH_ERR, 2 BAD_CRC, 3 BAD_DESC. -/
def Block.descFault (b : Block) (status : Nat) (d : Desc) : Option Nat :=
  if !statusHasData status then some 1
  else if !dValid d then none
  else if !dCrcOk d then some 2
  else if b.malformed d then some 3
  else none

/-- Give a waiting request its descriptor, or the status of a failed fetch. The Tender and the scrubber take the bits;
a write of theirs that waited for a chunk lock is routed. -/
def Block.resume (b : Block) (r : Req) (status : Nat) (d : Desc) : Block :=
  if r.src < 6 then
    if status = stOK then b.applyResolved r (b.resolve r d) else b.respondAll r status
  else if r.op.isWrite then
    if status = stOK then b.applyResolved r (b.routeReq r d) else b.respondAll r status
  else { b with intern := b.intern ++ [⟨r, 0, status, d⟩] }

/-- An invalidate covers an index. -/
def Inval.covers (v : Inval) (i : Nat) : Bool :=
  match v.mode with
  | 1 => i == v.first
  | 2 => decide (v.first ≤ i) && decide (i < v.first + v.count)
  | _ => true

/-- The waiters of a fetch that was outstanding when an invalidate was accepted take an old copy (R127). -/
def Block.invalLate (b : Block) (f : Fetch) : Block :=
  if f.noInstall then
    { b with edt := { b.edt with inval := b.edt.inval.map (fun v =>
        if v.covers f.idx then { v with late := v.late ++ f.waiters.map (fun r => r.id) } else v) } }
  else b

/-- A fetch returns (R115, R118, R119, R127); an uncorrectable error of its miss-queue entry has its requests answered UE
(R377). A fetch that returns while an invalidate covers it is not installed. -/
def Block.fetchReturn (b : Block) : Block :=
  match takeFirst (fun (n : Intern) => n.req.src == 9) b.intern with
  | none => b
  | some (n, rest) =>
    let b := { b with intern := rest }
    let i := n.req.idx
    match takeFirst (fun (f : Fetch) => f.idx == i && f.started) b.edt.fetches with
    | none => b
    | some (f, others) =>
      let b := { b with edt := { b.edt with fetches := others } }
      let all (b : Block) (st : Nat) : Block := forEach f.waiters (b.invalLate f) (fun b r => b.resume r st n.data)
      if f.bad then all b.queueUe stUE
      else if n.status = stFenced then all b stFenced
      else match b.descFault n.status n.data with
        | some pos =>
          let dpa := (f.waiters.find? (fun r => r.op != .prefetch)).map (fun r => r.dpa)
          all (b.edtError pos i dpa dpa.isNone) stDenied
        | none =>
          all (if f.noInstall || b.edt.inval.any (fun v => v.covers i) then b else b.descPut i n.data) stOK

/-- DESCRIPTOR_FETCH_RETURN (R118). -/
def execDescriptorFetchReturn (s : State) : Out := onBlock s Block.fetchReturn

/-! ## Lookup (R113, R141) -/

/-- The cached entry of extent `i`, asked for by a request to DPA `a`: one with an uncorrectable error is dropped, with its
event (R119). -/
def Block.descMeet (b : Block) (i a : Nat) : Block :=
  if b.descBad i then (b.edtError 0 i (some a) false).descDrop (· == i) else b

/-- The EDT lookup of a port's request outside the reserved region. -/
def Block.lookup (b : Block) (r : Req) : Block :=
  let i := b.extentOf r.dpa
  if b.edtEntries ≤ i ∨ b.withheld i then b.answerDecode r
  else
    let b := b.descMeet i r.dpa
    match b.descCached i with
    | some d => (b.descPut i d).applyResolved r (b.resolve r d)
    | none => b.fetchWait i r

/-- The Tender's or the scrubber's lookup of an extent: its descriptor, or none while it waits for one. -/
def Block.askDesc (b : Block) (r : Req) : Block × Option Desc :=
  let i := b.extentOf r.dpa
  let b := b.descMeet i r.dpa
  match b.descCached i with
  | some d => (b.descPut i d, some d)
  | none => (b.fetchWait i { r with idx := i }, none)

/-! ## The reserved region (R95 to R97, R462, R463) -/

/-- A scratch offset falls inside a scratch-located EDT. -/
def Block.inScratchEdt (b : Block) (off : Nat) : Bool :=
  b.edtThere && b.edtInScratch && decide (b.edtBase ≤ off) && decide (off < b.edtBase + 64 * b.edtEntries)

/-- A requester may use the scratch aperture. -/
def Block.scratchFrom (b : Block) (src : Nat) : Bool := src == 5 || src == 6 || b.bit EDT_APERTURE_SCRATCH_PORT src

/-- What the reserved region answers a request at once, or the request as it goes on. -/
inductive Aperture
  | answer (status : Nat)
  | counters
  /-- The EDT line lies on a fenced or OFF channel (R119). -/
  | fenced (r : Req)
  | go (r : Req)
  deriving DecidableEq, Repr

/-- Decode a request to the reserved region, offset `off` (R95, R96). -/
def Block.aperture (b : Block) (r : Req) (off : Nat) : Aperture :=
  let r := { r with tc := 0, policy := 1 }
  let line := if r.op = .rd256 ∨ r.op = .wrl then off / 256 * 256 else off / 64 * 64
  if off < 2 ^ 31 then
    if !b.scratchFrom r.src then .answer stDenied
    else if (opSectors r.op off).any (fun s => b.inScratchEdt (off / 256 * 256 + 64 * s)) then .answer stDenied
    else if b.scratchSize ≤ line then .answer stDecode
    else .go { r with area := .scratch }
  else if off < 0xC0000000 then
    if 6 ≤ r.src ∨ r.op.isWrite then .answer stDenied
    else if 552 * 64 ≤ off - 2 ^ 31 then .answer stDecode
    else .counters
  else if r.src != 5 && r.src != 6 then .answer stDenied
  else if (opSectors r.op off).all (fun s =>
      decide (b.edtEntries ≤ (off / 256 * 256 + 64 * s) % 2 ^ 30 / 64)) then .answer stDecode
  else
    let e := b.edtReq r.src ((off - 0xC0000000) / 64) r.op
    let r := { r with area := .edt, route := e.route, idx := e.idx }
    if b.edtNoPlace r then .answer stDecode else if b.edtDown r then .fenced r else .go r

/-- The sectors of a counter read (R462, R463). -/
def Block.counterRead (b : Block) (r : Req) (off : Nat) : Block :=
  forEach (opSectors r.op off) b (fun b s =>
    let n := ((off - 2 ^ 31) / 256 * 256 + 64 * s) / 64
    if b.ctrUserOk n (tagMaster r.tag) then b.respond r s stOK (BitVec.ofNat 512 (b.ctrSector n))
    else b.respond r s stDenied 0)

/-- Beats of an RD256 beyond the EDT answer DECODE on their own (R97). -/
def Block.goneBeats (b : Block) (r : Req) : Block :=
  let gone := (opSectors r.op r.dpa).filter (fun s => !(b.wantedSecs r).contains s)
  forEach gone b (fun b s => (b.bump EDT_DECODE_CNT_CNT).respond r s stDecode 0)

/-- A port's request to the reserved region; a prefetch there is dropped (R133). -/
def Block.reservedAccess (b : Block) (r : Req) (off : Nat) : Block :=
  if r.op = .prefetch then b
  else match b.aperture r off with
  | .answer st => if st = stDecode then b.answerDecode r else b.respondAll r st
  | .counters =>
    let r := { r with area := .counters, tc := 0 }
    (b.reguArrive r).counterRead r off
  | .fenced r => forEach (b.wantedSecs r) (b.goneBeats r) (fun b s => b.respond r s stFenced 0)
  | .go r => (b.goneBeats r).afterLookup r

/-! ## Invalidates (R126, R127) -/

/-- The queue of the invalidate path has room. -/
def Block.invalRoom (b : Block) : Bool := decide (b.edt.inval.length < 4)

/-- Accept an invalidate; fetches outstanding in its range will not be installed. -/
def Block.invalAccept (b : Block) (v : Inval) : Block :=
  { b with edt := { b.edt with
      inval := b.edt.inval ++ [v]
      fetches := b.edt.fetches.map (fun f => if f.started && v.covers f.idx then { f with noInstall := true } else f) } }

/-- A write of EDT_INVAL, accepted (R126): it takes the next sequence number. -/
def Block.invalWrite (b : Block) : Block :=
  let mode := b.rd EDT_INVAL_MODE
  if mode = 0 then b
  else
    let seq := (b.rd EDT_INVAL_STATUS_ACCEPT_SEQ + 1) % 65536
    let b := b.wr EDT_INVAL_STATUS_ACCEPT_SEQ seq
    b.invalAccept { mode := mode, first := b.rd EDT_INVAL_FIRST_FIRST, count := max 1 (b.rd EDT_INVAL_COUNT)
                    seq := some seq, walked := false, atId := 0, late := [], lane := 4 }

/-- Change a lane of the Tender. -/
def Block.updTnd (b : Block) (n : Nat) (f : Lane → Lane) : Block :=
  { b with tnd := { b.tnd with lanes := b.tnd.lanes.upd n f } }

/-- The update a lane waits for has ended with a CODE, 0 for success. -/
def Block.laneUpdated (b : Block) (n code : Nat) : Block :=
  if n < 4 then b.updTnd n (fun l => if l.phase = .update then { l with phase := .updated, code := code } else l) else b

/-- The oldest invalidate runs: the cache walk, then the wait for outstanding fetches and for the requests translated
before it (R127). -/
def Block.invalRun (b : Block) : Block :=
  match b.edt.inval with
  | [] => b
  | v :: rest =>
    let (b, v) :=
      if v.walked then (b, v)
      else
        let v := { v with walked := true, atId := b.nextId }
        ((({ b with edt := { b.edt with inval := v :: rest } }).descDrop v.covers), v)
    let fetching := b.edt.fetches.any (fun f => f.noInstall && v.covers f.idx)
    let waiting := b.slices.any (fun e => e.2.q.any (fun q => q.2.any (fun r =>
      r.area == .dram && !r.raw && v.covers r.idx && (decide (r.id < v.atId) || v.late.contains r.id))))
    if fetching || waiting then b
    else
      let b := { b with edt := { b.edt with inval := rest } }
      let b := match v.seq with
        | some n => (b.wr EDT_INVAL_STATUS_DONE_SEQ n).intr 9 (b.on EDT_CTL_INT_INVAL)
        | none => b
      b.laneUpdated v.lane 0

/-! ## Updates by the block (R124, R440) -/

/-- The descriptor an update leaves, GEN and CRC not yet touched. A side already named stays (R123). -/
def DescUpd.apply (u : DescUpd) (d : Desc) : Desc :=
  let d := if u.poison then dPut d 0 12 12 1 else d
  let d := match u.stale with
    | some side => if dStale d then d else dPut (dPut d 0 15 15 1) 0 19 19 side
    | none => d
  let d := match u.state with
    | some v => dPut d 0 3 1 v
    | none => d
  let d := match u.frame with
    | some f => dPut (dPut d 2 2 0 f.1) 2 31 16 f.2
    | none => d
  let d := match u.mig with
    | some f => dPut (dPut d 3 2 0 f.1) 3 31 16 f.2
    | none => d
  match u.watermark with
  | some w => dPut d 3 52 32 w
  | none => d

/-- GEN incremented and the CRC recomputed. -/
def dSeal (d : Desc) : Desc :=
  let d := dPut d 0 47 32 (dGen d + 1)
  dPut d 7 63 48 (crc16 (leBytes 62 d.toNat))

/-- The block's own update moved GEN of an extent on: lanes that claim it follow (R440). -/
def Block.genMoved (b : Block) (i old : Nat) : Block :=
  { b with tnd := { b.tnd with lanes := b.tnd.lanes.map (fun e => (e.1, { e.2 with
      claims := e.2.claims.map (fun c => if c = (i, some old) then (i, some ((old + 1) % 65536)) else c) })) } }

/-- Note the GEN a lane's update left. -/
def Block.genNote (b : Block) (n i gen : Nat) : Block :=
  if n < 4 then b.updTnd n (fun l => { l with
    claims := l.claims.map (fun c => if c.1 = i then (i, some gen) else c) }) else b

/-- An update moves the line the scrubber holds to another frame: its write-back is cancelled (R400). -/
def Block.scrubMoved (b : Block) (i : Nat) (old new : Desc) : Block :=
  match b.scrub.line with
  | some (a, _, _) =>
    let off := a % 2 ^ b.granLog
    if b.extentOf a = i ∧ b.serveAt old off ≠ b.serveAt new off then { b with scrub := { b.scrub with stale := 15 } } else b
  | none => b

/-- Write-backs of the scrubber that wait in an extent whose lines an update moves are cancelled (R400). -/
def Block.scrubsMoved (b : Block) (i : Nat) (old new : Desc) : Block :=
  b.mapScrubs (fun r =>
    let off := r.dpa % 2 ^ b.granLog
    if b.extentOf r.dpa = i ∧ b.serveAt old off ≠ b.serveAt new off then r.spare (fun _ => true) else r)

/-- What a read of the descriptor makes of an update: `put` stores the new descriptor. -/
def Block.updateWith (b : Block) (u : DescUpd) (status : Nat) (d : Desc) (put : Block → Desc → Block) : Block :=
  if status = stFenced then b.laneUpdated u.lane 6
  else match b.descFault status d with
  | some pos => (b.edtError pos u.idx (some (u.idx <<< b.granLog)) false).laneUpdated u.lane 5
  | none =>
    if !dValid d then b.laneUpdated u.lane 11
    else if (match u.gen with
        | some g => g != dGen d
        | none => false) then b.laneUpdated u.lane 11
    else
      let n := u.apply d
      if n = d then (b.genNote u.lane u.idx (dGen d)).laneUpdated u.lane 0
      else
        let b := put (((b.genMoved u.idx (dGen d)).scrubMoved u.idx d n).scrubsMoved u.idx d n) (dSeal n)
        let b := b.genNote u.lane u.idx ((dGen d + 1) % 65536)
        b.invalAccept { mode := 1, first := u.idx, count := 1, seq := none, walked := false, atId := 0, late := []
                        lane := u.lane }

/-- A write to a descriptor has been granted and waits for its data: an update's read comes after it (R124). -/
def Block.edtWriting (b : Block) (i : Nat) : Bool :=
  b.slices.any (fun e => (e.2.grant.map (fun r => r.area == .edt && r.op.isWrite && r.idx == i)).getD false)

/-- The oldest update makes its next step: its read, and once that is back its write and its invalidate, for which the
invalidate queue must have room. -/
def Block.updateStep (b : Block) : Block :=
  match b.edt.updates with
  | [] => b
  | u :: rest =>
    if !b.edtThere then ({ b with edt := { b.edt with updates := rest } }).laneUpdated u.lane 4
    else if !u.asked then
      if b.edtWriting u.idx then b
      else ({ b with edt := { b.edt with updates := { u with asked := true } :: rest } }).edtRead 10 u.idx
    else if !b.invalRoom then b
    else match takeFirst (fun (n : Intern) => n.req.src == 10) b.intern with
      | none => b
      | some (n, others) =>
        let b := { b with intern := others, edt := { b.edt with updates := rest } }
        b.updateWith u n.status n.data (fun b d =>
          let w := { b.edtReq 10 u.idx .wr64 with wdata := [⟨d, allOnes, false, false⟩] }
          b.sliceAccess (b.reqSlice w) w)

/-- DESCRIPTOR_UPDATE (R124). -/
def execDescriptorUpdate (s : State) : Out := onBlock s Block.updateStep

/-- An update is between its read and its write: no other write to the descriptor goes between (R124). -/
def Block.updating (b : Block) (i : Nat) : Bool :=
  match b.edt.updates with
  | u :: _ => u.asked && u.idx == i
  | [] => false

/-! ## Candidates (R163, R164, R189, R246) -/

/-- The head of a requester's queue is a candidate at slice `c`, whose arbiter does not see the last `lag` grants yet. -/
def Block.isCandidate (b : Block) (c lag : Nat) (r : Req) : Bool :=
  !b.ceilingSeen lag r
  && !(r.area == .dram && !r.raw && b.mntHolds c r.dpa)
  && !(r.area == .edt && r.op.isWrite && b.updating r.idx)

/-- The candidates of slice `c` by requester. -/
def Block.candidates (b : Block) (c lag : Nat) : List (Nat × Req) :=
  (List.range 9).filterMap (fun i =>
    match (b.slices.get c).q.get i with
    | r :: _ => if b.isCandidate c lag r then some (i, r) else none
    | [] => none)

/-- Every candidate that is owed sets its entry's demand flag (R190). -/
def Block.demandSeen (b : Block) (slices : List Nat) : Block :=
  forEach slices b (fun b c => forEach (b.candidates c 0) b (fun b e => b.reguDemand e.2))

end Sys2Proof.Machine
end

