-- ==== Sys2Proof/Machine/Ports.lean ====
section
/-! DEFINITION. The upstream ports (05_ports_and_tags): headers, data beats, responses and port states. -/

namespace Sys2Proof.Machine

open Reg

/-! ## Port states (R157 to R160) -/

/-- DISABLED. -/
def ptDisabled : Nat := 0
/-- ENABLED. -/
def ptEnabled : Nat := 1
/-- DRAINING. -/
def ptDraining : Nat := 2
/-- STOPPED. -/
def ptStopped : Nat := 3

/-- State of a port. -/
def Block.portState (b : Block) (p : Nat) : Nat := b.rd (PRT_STATUS_STATE p)

/-- Nothing of the port is outstanding. -/
def PortSt.idle (q : PortSt) : Bool := q.out.isEmpty && q.rsp.isEmpty

/-- A port leaves DRAINING, or STOPPED after ENABLE = 0, once nothing is outstanding. A beat of a write that was cut off is
still discarded when it comes (R142, R173). -/
def Block.portSettle (b : Block) (p : Nat) : Block :=
  let st := b.portState p
  if (st = ptDraining ∨ (st = ptStopped ∧ (b.ports.get p).off)) ∧ (b.ports.get p).idle then
    (b.wr (PRT_STATUS_STATE p) ptDisabled).updPort p (fun q => { q with
      needData := q.needData.filter (fun e => e.2.isSome), early := [], off := false })
  else b

/-- A write of PRT_CTL.ENABLE has been performed (R157, R159, R160). -/
def Block.portCtl (b : Block) (p : Nat) : Block :=
  let st := b.portState p
  if b.on (PRT_CTL_ENABLE p) then (if st = ptDisabled then b.wr (PRT_STATUS_STATE p) ptEnabled else b)
  else
    let b := if st = ptEnabled then b.wr (PRT_STATUS_STATE p) ptDraining
      else if st = ptStopped then b.updPort p (fun q => { q with off := true })
      else b
    b.portSettle p

/-- A bit of PRT_STATUS is set. -/
def Block.portFlag (b : Block) (p pos : Nat) : Block :=
  let f := match pos with
    | 0 => PRT_STATUS_HDR_PAR p
    | 1 => PRT_STATUS_DATA_PAR p
    | 2 => PRT_STATUS_BAD_OPCODE p
    | _ => PRT_STATUS_TAG_RSVD p
  (b.wr f 1).intr 6 (bitOf (b.rd (PRT_CTL_INT_EN p)) pos)

/-- RSP_H of a beat (R138). -/
def Beat.header (t : Beat) : Nat :=
  let one (x : Bool) (k : Nat) : Nat := if x then 2 ^ k else 0
  t.tag.toNat + t.status % 8 * 2 ^ 64 + one (t.late == some true) 69 + t.sector % 4 * 2 ^ 70 + one t.last 72
    + one t.write 73

/-- RSP_PAR of a beat: bits [7:0] over each 64 bits of RSP_D, [10:8] over RSP_H[31:0], [63:32] and [79:64] (R128). -/
def Beat.parity (t : Beat) : Nat :=
  let one (x : Bool) (k : Nat) : Nat := if x then 2 ^ k else 0
  (List.range 8).foldl (fun n i => n + one (xorBits (t.data.toNat >>> (64 * i)) 64) i) 0
    + one (xorBits t.header 32) 8 + one (xorBits (t.header >>> 32) 32) 9 + one (xorBits (t.header >>> 64) 16) 10

/-- The core's outputs are held at 0: in S3, and from a loss of core power to RST_N (R534, R549). -/
def Block.isolated (b : Block) : Bool := b.pwr.inS3 || b.pwr.dead

/-- What the response lane of a port shows: RSP_H, RSP_D and RSP_PAR of the beat at its head, held until it transfers
(R128); none while RSP_VALID is 0. -/
def Block.rspLane (b : Block) (p : Nat) : Option (Nat × BitVec 512 × Nat) :=
  if b.isolated then none
  else match (b.ports.get p).rsp with
  | t :: _ => some (t.header, t.data, t.parity)
  | [] => none

/-- FLT_MSG of a message (R514): SOURCE, KIND, SEVERITY, FORM, ADDRESS, TIME, PARITY and VALID. -/
def FltMsg.word (m : FltMsg) : Nat :=
  let low := m.source % 2 ^ 9 + m.kind % 2 ^ 8 * 2 ^ 9 + m.sev % 4 * 2 ^ 17 + m.form % 2 * 2 ^ 19 + m.addr % 2 ^ 46 * 2 ^ 20
    + m.time / 16 % 2 ^ 28 * 2 ^ 66
  low + (if xorBits low 94 then 2 ^ 94 else 0) + 2 ^ 95

/-- FLT_MSG while FLT_MSG_VALID is 1: the head of the message queue (R512). -/
def Block.fltLane (b : Block) : Option Nat := if b.isolated then none else b.flt.msgs.head?.map FltMsg.word

/-- The READY output (R535). -/
def Block.readyOut (b : Block) : Bool := b.start.ready && !b.isolated

/-- The HARBOUR output, of the always-on domain (R535). -/
def Block.harbourOut (b : Block) : Bool := b.rd HBR_STATUS_STATE == 4

/-- THERM_TRIP_N, of the always-on domain (R490, R535). -/
def Block.tripOutN (b : Block) : Bool := !b.on THM_STATUS_TRIP

/-- An event of a port in location form. -/
def portEvent (code p : Nat) : Event :=
  { code := code, kind := 0, form := 1, addr := locAddr 3 p 0, unit_ := .port p, sev := none }

/-! ## Headers (R128 to R137, R155) -/

/-- REQ_H of a header with an opcode (R131). -/
def headerBits (h : Header) (opcode : Nat) : Nat :=
  h.tag.toNat * 2 ^ 64 + h.rsvd.toNat / 4 * 2 ^ 52 + opcode * 2 ^ 48 + h.rsvd.toNat % 4 * 2 ^ 46 + h.dpa.toNat

/-- REQ_H_PAR is correct. -/
def headerParityOk (h : Header) (opcode : Nat) : Bool :=
  (List.range 8).all (fun i => xorBits (headerBits h opcode >>> (16 * i)) 16 == bitOf h.par.toNat i)

/-- The opcode of a request. -/
def ReqOp.opcode : ReqOp → Nat
  | .rd64 => 0
  | .rd256 => 1
  | .wr64 => 2
  | .wrp => 3
  | _ => 4

/-- Reserved tag bits, or CONT where it is ignored (R136). -/
def tagRsvd (p : Nat) (op : ReqOp) (tag : BitVec 64) : Bool :=
  bitsOf tag.toNat 20 16 != 0 || (tagCont tag && !(p == 4 && op == .wrp))

/-- RD_BEATS as it acts. -/
def Block.rdBeats (b : Block) (p : Nat) : Nat := min 256 (max 1 (b.rd (PRT_CFG_RD_BEATS p)))
/-- WR_LIMIT as it acts. -/
def Block.wrLimit (b : Block) (p : Nat) : Nat := min 128 (max 1 (b.rd (PRT_CFG_WR_LIMIT p)))

/-- REQ_H_READY for a request of an opcode (R155 to R157, R520). -/
def Block.hdrReady (b : Block) (p : Nat) (op : ReqOp) : Bool :=
  let q := b.ports.get p
  b.portState p == ptEnabled && !b.portFenced p && !b.missFull && !b.on THM_STATUS_TRIP
  && b.rd PWR_STATUS_BLOCK == 0 && !b.pwr.inS3 && !b.pwr.dead &&
  (match op with
   | .rd64 => decide (q.beatsReserved + 1 ≤ b.rdBeats p)
   | .rd256 => decide (q.beatsReserved + 4 ≤ b.rdBeats p)
   | .prefetch => true
   | _ => decide (q.writesOut < b.wrLimit p))

/-- Traffic class of a DPA as far as the block knows it when a header arrives. -/
def Block.classNow (b : Block) (a : Nat) : Option Nat :=
  if (reservedOff a).isSome then some 0 else (b.descCached (b.extentOf a)).map dTc

/-- Change every request of a number wherever it waits. -/
def Block.mapReq (b : Block) (f : Req → Req) : Block :=
  { b with
    edt := { b.edt with
      fetches := b.edt.fetches.map (fun x => { x with waiters := x.waiters.map f })
      beyond := b.edt.beyond.map (fun x => (x.1, f x.2)), held := b.edt.held.map f }
    slices := b.slices.map (fun e => (e.1, { e.2 with
      q := e.2.q.map (fun x => (x.1, x.2.map f)), grant := e.2.grant.map f })) }

/-- Drop every waiting request that satisfies `p`. -/
def Block.dropReq (b : Block) (p : Req → Bool) : Block :=
  { b with
    edt := { b.edt with
      fetches := b.edt.fetches.map (fun x => { x with waiters := x.waiters.filter (fun r => !p r) })
      beyond := b.edt.beyond.filter (fun x => !p x.2)
      held := b.edt.held.filter (fun r => !p r) }
    slices := forEach b.slices ([] : Tab SliceSt) (fun t e => t.set e.1 { e.2 with
      q := forEach e.2.q ([] : Tab (List Req)) (fun u x => u.set x.1 (x.2.filter (fun r => !p r)))
      grant := match e.2.grant with
        | some r => if p r then none else some r
        | none => none }) }

/-- Prefetches of a port not yet granted at their slices (R155). -/
def Block.prefetches (b : Block) (p : Nat) : Nat :=
  let mine (r : Req) : Bool := r.src == p && r.op == .prefetch
  let count (rs : List Req) : Nat := (rs.filter mine).length
  b.edt.fetches.foldl (fun n f => n + count f.waiters) 0 + count b.edt.held + count (b.edt.beyond.map (fun x => x.2))
    + b.slices.foldl (fun n e => e.2.q.foldl (fun n x => n + count x.2) n) 0

/-- The header's parity failed (R160): the port stops; writes without data are answered ABORTED. -/
def Block.hdrParity (b : Block) (p : Nat) : Block :=
  let b := ((b.demandSeen (List.range 16)).wr (PRT_STATUS_STATE p) ptStopped).portFlag p 0
  let lost := ((b.ports.get p).needData.filter (fun e => e.2.isNone)).map (fun e => e.1)
  let outs := (b.ports.get p).out.filter (fun o => lost.contains o.id)
  let b := b.dropReq (fun r => lost.contains r.id)
  let b := forEach outs b (fun b o =>
    b.respond { (default : Req) with id := o.id, src := p, op := o.op, tag := o.tag, dpa := o.dpa, tc := 8 } 0 stAborted 0)
  (b.event (portEvent 16 p)).portSettle p

/-- Enter an accepted request among the outstanding ones: a write takes a data beat that came too early, or waits for
its beat. -/
def Block.enter (b : Block) (p : Nat) (r : Req) : Block × Req :=
  if r.op = .prefetch then (b, r)
  else
    let write := r.op.isWrite
    let o : Outst := { id := r.id, tag := r.tag, op := r.op, dpa := r.dpa
                       todo := if write then [0] else opSectors r.op r.dpa, ready := [] }
    let b := b.updPort p (fun q => { q with out := q.out ++ [o] })
    if !write then (b, r)
    else match (b.ports.get p).early with
      | w :: rest => (b.updPort p (fun q => { q with early := rest }), { r with wdata := [w] })
      | [] => (b.updPort p (fun q => { q with needData := q.needData ++ [(r.id, none)] }), r)

/-- A header transfers (R132, R141). -/
def Block.header (b : Block) (p : Nat) (h : Header) (op : ReqOp) : Block :=
  if !b.hdrReady p op then b.count (ctrPort p) 8 1 default
  else if !headerParityOk h op.opcode then b.hdrParity p
  else
    let (id, b) := b.newId
    let a := h.dpa.toNat / 64 * 64
    let r : Req := { (default : Req) with id := id, src := p, op := op, tag := h.tag, dpa := a, tc := 8 }
    let b := b.count (ctrPort p) 1 1 { r.carry with tc := b.classNow a }
    let b := if tagRsvd p op h.tag then b.portFlag p 3 else b
    if op = .prefetch ∧ 32 ≤ b.prefetches p then b
    else
      let (b, r) := b.enter p r
      if (tagMaster h.tag &&& b.rd (PRT_MID_MASK p)) != b.rd (PRT_MID_BASE p) then
        (b.bump (PRT_DENY_CNT_CNT p)).respondAll r stDenied
      else match reservedOff a with
        | some off => b.reservedAccess r off
        | none => b.lookup r

/-- RD64 (R132): `upset` names the descriptor-cache entry that has taken an uncorrectable error before it (R119). -/
def execRd64 (p : Fin 6) (h : Header) (upset : Option (BitVec 18)) (s : State) : Out :=
  onBlock s (fun b => (b.descUpset upset).header p h .rd64)

/-- RD256 (R132). -/
def execRd256 (p : Fin 6) (h : Header) (upset : Option (BitVec 18)) (s : State) : Out :=
  onBlock s (fun b => (b.descUpset upset).header p h .rd256)

/-- WR64 (R132). -/
def execWr64 (p : Fin 6) (h : Header) (upset : Option (BitVec 18)) (s : State) : Out :=
  onBlock s (fun b => (b.descUpset upset).header p h .wr64)

/-- WRP (R147). -/
def execWrp (p : Fin 6) (h : Header) (upset : Option (BitVec 18)) (s : State) : Out :=
  onBlock s (fun b => (b.descUpset upset).header p h .wrp)

/-- PREFETCH (R133). -/
def execPrefetch (p : Fin 6) (h : Header) (upset : Option (BitVec 18)) (s : State) : Out :=
  onBlock s (fun b => (b.descUpset upset).header p h .prefetch)

/-- A header with a reserved opcode (R132). -/
def Block.badOpcode (b : Block) (p : Nat) (h : Header) (opcode : Nat) : Block :=
  if !b.hdrReady p .rd64 then b.count (ctrPort p) 8 1 default
  else if !headerParityOk h opcode then b.hdrParity p
  else
    let (id, b) := b.newId
    let r : Req := { (default : Req) with
      id := id, src := p, op := .rd64, tag := h.tag, dpa := h.dpa.toNat / 64 * 64, tc := 8 }
    let b := b.count (ctrPort p) 1 1 { r.carry with tc := b.classNow r.dpa }
    let b := if tagRsvd p .rd64 h.tag then b.portFlag p 3 else b
    let (b, r) := b.enter p r
    ((b.portFlag p 2).event (portEvent 18 p)).respondAll r stDecode

/-- RESERVED_OPCODE (R132): opcodes 5 to 15. -/
def execReservedOpcode (p : Fin 6) (h : Header) (n : Fin 11) (s : State) : Out :=
  onBlock s (fun b => b.badOpcode p h (5 + n))

/-! ## Data beats (R130, R142, R150, R151) -/

/-- REQ_D_PAR is correct. -/
def beatParityOk (d : DataBeat) : Bool :=
  (List.range 8).all (fun i => xorBits (d.data.toNat >>> (64 * i)) 64 == bitOf d.par.toNat i)
  && xorBits d.be.toNat 64 == bitOf d.par.toNat 8

/-- REQ_D_READY (R156, R157). -/
def Block.dataReady (b : Block) (p : Nat) : Bool :=
  let st := b.portState p
  !b.missFull && (st == ptEnabled || st == ptStopped || (st == ptDraining && !(b.ports.get p).needData.isEmpty))

/-- A beat failed parity (R150). -/
def Block.dataParity (b : Block) (p : Nat) (dpa : Option Nat) : Block :=
  (b.portFlag p 1).event (match dpa with
    | some a => { code := 17, kind := 0, form := 0, addr := a, unit_ := .port p, sev := none }
    | none => portEvent 17 p)

/-- The slice whose granted write waits for its data. -/
def Block.grantOf (b : Block) (id : Nat) : Option Nat :=
  (b.slices.find? (fun e => (e.2.grant.map (fun r => r.id)) == some id)).map (fun e => e.1)

/-- A data beat transfers. It belongs to the oldest write header without one; a write already answered discards it. -/
def Block.dataBeat (b : Block) (p : Nat) (d : DataBeat) : Block :=
  if !b.dataReady p then b
  else
    let q := b.ports.get p
    let w : WData := { data := d.data, be := d.be, poison := d.poison, parBad := !beatParityOk d }
    match q.needData with
    | [] =>
      if b.portState p = ptStopped then b
      else
        let b := b.count (ctrPort p) 3 1 { (default : Carry) with req := some p }
        let b := if w.parBad then b.dataParity p none else b
        b.updPort p (fun q => { q with early := q.early ++ [w] })
    | (_, some (tag, dpa)) :: rest =>
      let b := b.updPort p (fun q => { q with needData := rest })
      let r : Req := { (default : Req) with src := p, op := .wr64, tag := tag, dpa := dpa, tc := 8 }
      b.count (ctrPort p) 3 1 { r.carry with tc := b.classNow dpa }
    | (id, none) :: rest =>
      let b := b.updPort p (fun q => { q with needData := rest })
      match q.out.find? (fun o => o.id == id) with
      | none => b
      | some o =>
        let r : Req := { (default : Req) with src := p, op := o.op, tag := o.tag, dpa := o.dpa, tc := 8 }
        let b := b.count (ctrPort p) 3 1 { r.carry with tc := b.classNow o.dpa }
          let b := if w.parBad then b.dataParity p (some o.dpa) else b
          let b := b.mapReq (fun r => if r.src = p ∧ r.id = id then { r with wdata := [w] } else r)
          match b.grantOf id with
          | none => b
          | some c =>
            match (b.slices.get c).grant with
            | some r => (b.updSlice c (fun q => { q with grant := none })).sliceAccess c r
            | none => b

/-- WRITE_DATA_BEAT (R130). -/
def execWriteDataBeat (p : Fin 6) (d : DataBeat) (s : State) : Out := onBlock s (fun b => b.dataBeat p d)

/-! ## Responses (R128, R138 to R143, R155) -/

/-- The head of the response lane transfers: its buffer beat or its write is released (R155). -/
def Block.rspTransfer (b : Block) (p : Nat) : Block :=
  match (if b.isolated then [] else (b.ports.get p).rsp) with
  | [] => b
  | t :: rest =>
    let cy := t.carry p
    let ok := statusHasData t.status
    let first := !t.write && t.sector == t.dpa / 64 % 4
    let b := if !t.write && ok then b.count (ctrPort p) 2 1 cy else b
    let b := if first then
        let (i, b) := b.draw
        b.count (ctrPort p) 4 (Config.readLatency i) cy
      else b
    let b := if !t.write && t.last then b.count (ctrPort p) 5 1 cy else b
    let b := if t.late = some true then b.count (ctrPort p) 6 1 cy else b
    let b := if ok then b else b.count (ctrPort p) 7 1 cy
    let b := b.updPort p (fun q => { q with
      rsp := rest, lateIds := if t.last then q.lateIds.filter (· != t.id) else q.lateIds })
    (b.presentHead p).portSettle p

/-- RESPONSE_TRANSFER (R128). -/
def execResponseTransfer (p : Fin 6) (s : State) : Out := onBlock s (fun b => b.rspTransfer p)

end Sys2Proof.Machine
end

