-- ==== Sys2Proof/Machine/Arbiter.lean ====
section
/-! DEFINITION. Slice arbitration (06_slice_arbitration): candidates, the decision, grants and cut-offs. -/

namespace Sys2Proof.Machine

open Reg

/-! ## Window boundaries (R182, R185, R190) -/

/-- A window boundary, with the demand flags of the closing window and those of the new one (R182, R190). -/
def Block.windowBoundary (b : Block) (own : Bool) : Block :=
  ((b.demandSeen (List.range 16)).reguBoundary own).demandSeen (List.range 16)

/-- No boundary has arrived within 2 × W of the previous one, or within W of one that the regulator generated (R185). -/
def Block.localDue (b : Block) : Bool :=
  !b.pwr.inS3 && !b.pwr.dead
  && decide (b.regu.w * (if b.on REGU_STATUS_LOCAL then 1 else 2) ≤ timeSince b.now b.regu.lastB)

/-- LOCAL_BOUNDARY (R185). -/
def execLocalBoundary (s : State) : Out := onBlock s (fun b => if b.localDue then b.windowBoundary true else b)

/-! ## The decision (R165 to R170) -/

/-- Precedence level of a requester in use (R175). -/
def Block.precOf (b : Block) (i : Nat) : Nat :=
  match i with
  | 4 => b.rd ARB_PREC_ACTIVE_P4
  | 5 => b.rd ARB_PREC_ACTIVE_P5
  | 6 => b.rd ARB_PREC_ACTIVE_TENDER
  | 7 => b.rd ARB_PREC_ACTIVE_KEEPER
  | 8 => b.rd ARB_PREC_ACTIVE_SCRUB
  | n => bitsOf (b.rd ARB_PREC_ACTIVE_P3_P0) (2 * n + 1) (2 * n)

/-- A requester that can carry the owed mark (R161). -/
def canOwe (i : Nat) : Bool := decide (i ≤ 6)

/-- Tier of a candidate: 4 for the owed tier, otherwise its level. -/
def Block.tierOf (b : Block) (lag i : Nat) (r : Req) : Nat := if canOwe i && b.owedSeen lag r then 4 else b.precOf i

/-- The round-robin pointer of a tier; 8 after reset (R167). -/
def SliceSt.pointer (q : SliceSt) (tier : Nat) : Nat := q.ptr.get tier ^^^ 8

/-- The decision of R165: the winner and its tier. -/
def Block.decide_ (b : Block) (c lag : Nat) (cands : List (Nat × Req)) : Option (Nat × Nat) :=
  let tiers := cands.map (fun e => b.tierOf lag e.1 e.2)
  let tier := tiers.foldl max 0
  let set := (cands.filter (fun e => b.tierOf lag e.1 e.2 == tier)).map (fun e => e.1)
  let p := (b.slices.get c).pointer tier
  (((List.range 9).map (fun k => (p + k + 1) % 9)).find? (fun i => set.contains i)).map (fun i => (i, tier))

/-- A write whose data beat has not arrived keeps the slice input (R169). -/
def Req.needsData (r : Req) : Bool := r.op.isWrite && r.wdata.isEmpty

/-- The slice accepts a new transfer (R170): always while nothing of it is outstanding. -/
def Block.sliceTakes (b : Block) (c : Nat) : Bool :=
  let q := b.slices.get c
  (q.miss.isEmpty && q.wb.isEmpty) || Config.sliceTakes q.miss.length q.wb.length

/-- A decision cycle of slice `c`: grant, and the transfer's access (R165, R168, R180, R188). -/
def Block.arbitrate (b : Block) (c lag : Nat) : Block :=
  let b := b.demandSeen [c]
  if b.sliceFenced c || (b.slices.get c).grant.isSome || !b.sliceTakes c then b
  else
    let cands := b.candidates c lag
    match b.decide_ c lag cands with
    | none => b
    | some (i, tier) =>
      match (b.slices.get c).q.get i with
      | [] => b
      | r :: rest =>
        let owed := tier == 4
        let r := { r with owed := owed }
        let b := b.updSlice c (fun q => { q with q := q.q.set i rest, ptr := q.ptr.set tier (i ^^^ 8) })
        let b := forEach (cands.filter (fun e => e.1 != i)) b (fun b e =>
          b.count (ctrSlice c) 6 1 { (default : Carry) with req := some e.1 })
        let b := (b.count (ctrSlice c) 1 r.op.units r.carry).reguGrant r owed
        let b := b.demandSeen [c]
        if r.needsData then b.updSlice c (fun q => { q with grant := some r }) else b.sliceAccess c r

/-- SLICE_GRANT (R165): `up` is an SRAM upset of the slice before it (R233, R235), and `lag` how many of the last grants fell
in the cycles that its arbiter does not see yet (R187). -/
def execSliceGrant (c : Fin 16) (g : GrantSight) (s : State) : Out :=
  onBlock s (fun b => (b.upset c g.upset).arbitrate c g.lag)

/-! ## Cut-off (R171 to R174) -/

/-- The granted transfer of slice `c` is cut off. -/
def Block.cutoff (b : Block) (c : Nat) : Block :=
  match (b.slices.get c).grant with
  | none => b
  | some r =>
    let b := b.updSlice c (fun q => { q with grant := none })
    let b := b.respondAll r stAborted
    let b := (b.setBitOf ARB_CUTOFF_REQ r.src).bump ARB_CUTOFF_CNT_CNT
    let b := ((b.wr ARB_CUTOFF_LAST_SLICE c).wr ARB_CUTOFF_LAST_REQ r.src).intr 7 (b.on ARB_CTL_INT_CUTOFF)
    let b := b.count (ctrSlice c) 7 1 { (default : Carry) with req := some r.src }
    b.event { code := 19, kind := r.src, form := 1, addr := locAddr 6 r.src c, unit_ := .requester r.src, sev := none }

/-- ARB_CUTOFF (R171): the transfer has held the input for ARB_HOLD_LIMIT cycles without its last beat. -/
def execArbCutoff (c : Fin 16) (s : State) : Out := onBlock s (fun b => b.cutoff c)

/-- Transfers whose count has reached a newly written limit are cut off at once (R174); with several, the lower slice is
recorded last (06, registers). -/
def Block.cutoffMask (b : Block) (mask : Nat) : Block :=
  forEach ((List.range 16).reverse) b (fun b c => if bitOf mask c then b.cutoff c else b)

/-! ## Precedence commits (R175) -/

/-- ARB_COMMIT.GO: the shadow levels become active. -/
def Block.arbCommit (b : Block) : Block :=
  let b := (b.wr ARB_PREC_ACTIVE_SCRUB (b.rd ARB_PREC_SCRUB)).wr ARB_PREC_ACTIVE_KEEPER (b.rd ARB_PREC_KEEPER)
  let b := (b.wr ARB_PREC_ACTIVE_TENDER (b.rd ARB_PREC_TENDER)).wr ARB_PREC_ACTIVE_P5 (b.rd ARB_PREC_P5)
  (b.wr ARB_PREC_ACTIVE_P4 (b.rd ARB_PREC_P4)).wr ARB_PREC_ACTIVE_P3_P0 (b.rd ARB_PREC_P3_P0)

end Sys2Proof.Machine
end

