-- ==== Sys2Proof/Machine/Scrub.lean ====
section
/-! DEFINITION. The scrubber (R397 to R402): passes, the reading of a line from its frames, and its write-back. -/

namespace Sys2Proof.Machine

open Reg

/-! ## Passes (R397, R401, R402) -/

/-- BASE of a range. -/
def Block.scbBase (b : Block) (k : Nat) : Nat :=
  (b.rd (SCB_RANGE_WORD k 0) + 2 ^ 32 * b.rd (SCB_RANGE_WORD k 1)) / 256 * 256

/-- LIMIT of a range. -/
def Block.scbLimit (b : Block) (k : Nat) : Nat :=
  (b.rd (SCB_RANGE_WORD k 2) + 2 ^ 32 * b.rd (SCB_RANGE_WORD k 3)) / 256 * 256

/-- OUTCOME DONE. -/
def scbDone : Nat := 0
/-- ABORTED. -/
def scbAborted : Nat := 1
/-- S3. -/
def scbS3 : Nat := 2

/-- A pass of range `k` begins: its summary is cleared and RUNNING is set. -/
def Block.passBegin (b : Block) (k : Nat) : Block :=
  let b := forEach (List.range 16) b (fun b w => b.wr (SCB_SUM_WORD k w) 0)
  let b := b.wr (SCB_SUM_WORD k 0) (2 ^ 30)
  let b := ((b.wr SCB_STATUS_BUSY 1).wr SCB_STATUS_CURRENT k).clearBitOf SCB_STATUS_QUEUED k
  { b with scrub := { (default : ScrubSt) with pos := b.scbBase k } }

/-- The running pass ends with an outcome (R402). -/
def Block.passFinish (b : Block) (outcome : Nat) : Block :=
  let k := b.rd SCB_STATUS_CURRENT
  let b := b.wr (SCB_SUM_WORD k 0) (2 ^ 31 + outcome)
  let b := b.wr (SCB_SUM_WORD k 3) (if b.scrub.begun then (b.now - b.scrub.start) / 1000000 else 0)
  let b := (b.wr SCB_STATUS_BUSY 0).wr SCB_STATUS_DONE 1
  ({ b with scrub := default }).intr 17 (b.on SCB_CTL_INT_DONE)

/-- Start queued passes in ascending order until one has lines to scrub; a range whose LIMIT is not above BASE ends at
once. -/
def Block.passNext (b : Block) : Block :=
  forEach (List.range 8) b (fun b k =>
    if !b.on SCB_STATUS_BUSY && b.bit SCB_STATUS_QUEUED k then
      let b := b.passBegin k
      if b.scbLimit k ≤ b.scbBase k then b.passFinish scbDone else b
    else b)

/-- The running pass ends, and the next queued one starts. -/
def Block.passEnd (b : Block) (outcome : Nat) : Block := (b.passFinish outcome).passNext

/-- A pass of range `k` is asked for (R397): false where one runs or is queued already. -/
def Block.passAsk (b : Block) (k : Nat) : Block × Bool :=
  if (b.on SCB_STATUS_BUSY && b.rd SCB_STATUS_CURRENT == k) || b.bit SCB_STATUS_QUEUED k then (b, false)
  else ((b.setBitOf SCB_STATUS_QUEUED k).passNext, true)

/-- SCB_CTL.ABORT (R401): queued passes remain. -/
def Block.passAbort (b : Block) : Block := if b.on SCB_STATUS_BUSY then b.passEnd scbAborted else b

/-- Entry to S3 ends the running pass; queued passes are forgotten with it. -/
def Block.passS3 (b : Block) : Block :=
  (if b.on SCB_STATUS_BUSY then b.passFinish scbS3 else b).wr SCB_STATUS_QUEUED 0

/-- Add to a count of the running pass's summary. -/
def Block.sumAdd (b : Block) (w n : Nat) : Block := b.addSat (SCB_SUM_WORD (b.rd SCB_STATUS_CURRENT) w) n

/-! ## Reading a line (R398) -/

/-- Skip to DPA `to_` of the running range: its lines count as skipped, and the pass ends at LIMIT. -/
def Block.scrubSkip (b : Block) (to_ : Nat) : Block :=
  let limit := b.scbLimit (b.rd SCB_STATUS_CURRENT)
  let next := min limit to_
  let b := b.sumAdd 9 ((next - b.scrub.pos) / 256)
  let b := { b with scrub := { b.scrub with pos := next } }
  if limit ≤ next then b.passEnd scbDone else b

/-- The scrubber's request for a line of a frame. -/
def scrubReq (id a idx : Nat) (route : Route) : Req :=
  { (default : Req) with id := id, src := 8, op := .rd256, dpa := a, area := .dram, idx := idx, tc := 8, policy := 1
                         route := route, direct := true }

/-- Frames of a line that can be read: not on a fenced or OFF channel, and not in a training row. -/
def Block.scrubFrames (b : Block) (d : Desc) (a : Nat) : List Route :=
  let off := a % 2 ^ b.granLog
  let all := b.homeRoute d off :: (if dMirrorEn d then [b.frameRoute (dMirror d) off] else [])
  all.filter (fun r => !b.chDown r.chan && !b.noPlace r)

/-- Send the reads of a line. -/
def Block.scrubRead (b : Block) (a idx : Nat) (frames : List Route) : Block :=
  match frames with
  | [] => b.scrubSkip (a + 256)
  | f :: more =>
    let (id, b) := b.newId
    let b := if b.scrub.begun then b else
      let k := b.rd SCB_STATUS_CURRENT
      let b := { b with scrub := { b.scrub with begun := true, start := b.now } }
      (b.wr (SCB_SUM_WORD k 1) (b.now % 2 ^ 32)).wr (SCB_SUM_WORD k 2) (b.now / 2 ^ 32 % 2 ^ 32)
    let b := { b with scrub := { b.scrub with
      line := some (a, id, !more.isEmpty), stale := 0, erased := [], frames := frames.map (fun (r : Route) => r.sector 0), pos := a + 256 } }
    let b := b.sendReq (scrubReq id a idx f)
    match more with
    | [] => b
    | m :: _ => let (id2, b) := b.newId; b.sendReq (scrubReq id2 a idx m)

/-- The line at a DPA whose descriptor is known (R398). -/
def Block.scrubLine (b : Block) (a : Nat) (d : Desc) : Block :=
  let i := b.extentOf a
  let next := (i + 1) * 2 ^ b.granLog
  if !dValid d || b.malformed d || dState d == xsDisabled || dState d == xsSanitising || dState d == xsFenced
    || dScrub d == 1 then b.scrubSkip next
  else ({ b with scrub := { b.scrub with desc := d } }).scrubRead a i (b.scrubFrames d a)

/-- The answer to the scrubber's own question for a descriptor. -/
def Block.scrubAnswer (b : Block) : Option (Intern × List Intern) :=
  takeFirst (fun (n : Intern) => n.req.src == 8 && n.req.area == .edt) b.intern

/-- The scrubber waits for a descriptor. -/
def Block.scrubAsking (b : Block) : Bool :=
  b.edt.fetches.any (fun f => f.waiters.any (fun r => r.src == 8)) || b.edt.beyond.any (fun x => x.2.src == 8)

/-- QUIET holds a new scrub burst (R57), and so does a drained power request (R470). -/
def Block.scrubHeld (b : Block) (frames : List Route) : Bool :=
  frames.any (fun r => bitOf (b.quietKinds (b.routeSub r)) 0
    || b.pwr.drains.any (fun q => bitOf q.chans r.chan))

/-- The line at the position, whose descriptor is `d`, unless its frames are held. -/
def Block.scrubGo (b : Block) (d : Desc) : Block :=
  let a := b.scrub.pos
  if b.scrubHeld (b.scrubFrames d a) then b else b.scrubLine a d

/-- The scrubber's rate allows its next line. -/
def Block.scrubIssue (b : Block) : Block :=
  if !b.on SCB_STATUS_BUSY || b.scrub.line.isSome || b.scrubAsking then b
  else
    let a := b.scrub.pos
    let i := b.extentOf a
    let next := (i + 1) * 2 ^ b.granLog
    match b.scrubAnswer with
    | some (n, rest) =>
      let b := { b with intern := rest }
      if b.extentOf n.req.dpa ≠ i then b
      else if n.status = stOK then b.scrubGo n.data else b.scrubSkip next
    | none =>
      if 0x3FFF00000000 ≤ a then b.scrubSkip (b.scbLimit (b.rd SCB_STATUS_CURRENT))
      else if b.withheld i then
        match b.edtFrame with
        | some f =>
          let r := b.frameRoute f (a % 2 ^ b.granLog)
          let frames := if b.chDown r.chan || b.noPlace r then [] else [r]
          if b.scrubHeld frames then b else b.scrubRead a i frames
        | none => b.scrubSkip next
      else if b.edtEntries ≤ i then b.scrubSkip next
      else
        let (b, d) := b.askDesc { scrubReq 0 a i default with area := .edt }
        match d with
        | some d => b.scrubGo d
        | none => b

/-- SCRUB_LINE_ISSUE (R398). -/
def execScrubLineIssue (s : State) : Out := onBlock s Block.scrubIssue

/-! ## The return of a line (R399, R400) -/

/-- What the cache holds of a sector: state and value, at the slice that serves the line. -/
def Block.scrubCached (b : Block) (a sec : Nat) : Sec × SecVal :=
  match b.serveAt b.scrub.desc (a % 2 ^ b.granLog) with
  | none => (.i, .ue)
  | some (r, _, _) =>
    if b.sliceState r.chan = 2 ∨ b.sliceState r.chan = 3 then (.i, .ue)
    else match b.findLine r.chan a with
    | some k =>
      match (b.line k).st.get sec with
      | .v => (.v, b.secVal k sec)
      | .d => (.d, b.secVal k sec)
      | _ => (.i, .ue)
    | none => (.i, .ue)

/-- What the scrubber does with one sector. -/
inductive ScrubAct
  /-- Needs no action: written unchanged if the line is written. -/
  | keep (data : BitVec 512) (poison : Bool)
  /-- Left alone. -/
  | skip
  /-- Corrected. -/
  | fix (data : BitVec 512)
  /-- Rewritten from the cache or the other frame. -/
  | recover (data : BitVec 512)
  /-- The poison pattern is written. -/
  | poison
  deriving DecidableEq, Repr

/-- The table of R399 for one sector of a frame: `other` is the sector as read from the other frame. -/
def scrubAct (status : Nat) (data : BitVec 512) (cache : Sec × SecVal) (other : Option (Nat × BitVec 512)) : ScrubAct :=
  if status = stOK then .keep data false
  else if status = stPoison then .keep 0 true
  else if status = stCorrected then (if cache.1 = .d then .keep data false else .fix data)
  else match cache with
    | (.v, .data d _) => .recover d
    | (.d, _) => .skip
    | _ => match other with
      | some (st, d) => if statusHasData st then .recover d else .poison
      | none => .poison

/-- The action writes. -/
def ScrubAct.acts : ScrubAct → Bool
  | .fix _ => true
  | .recover _ => true
  | .poison => true
  | _ => false

/-- The data a WRL carries for a sector. -/
def ScrubAct.wdata : ScrubAct → WData
  | .keep d p => ⟨d, allOnes, p, false⟩
  | .skip => ⟨0, 0, false, false⟩
  | .fix d => ⟨d, allOnes, false, false⟩
  | .recover d => ⟨d, allOnes, false, false⟩
  | .poison => ⟨0, allOnes, true, false⟩

/-- Counts of an uncorrectable sector (R402). -/
def Block.scrubUe (b : Block) (a : Nat) : Block :=
  let k := b.rd SCB_STATUS_CURRENT
  let put (b : Block) (w : Nat) : Block := (b.wr (SCB_SUM_WORD k w) (a % 2 ^ 32)).wr (SCB_SUM_WORD k (w + 1)) (a / 2 ^ 32)
  let b := if b.rd (SCB_SUM_WORD k 7) = 0 then put b 11 else b
  (put b 13).sumAdd 7 1

/-- Sectors read, counted in 64 bits. -/
def Block.sumChecked (b : Block) (n : Nat) : Block :=
  let k := b.rd SCB_STATUS_CURRENT
  let v := b.rd (SCB_SUM_WORD k 4) + 2 ^ 32 * b.rd (SCB_SUM_WORD k 5) + n
  (b.wr (SCB_SUM_WORD k 4) (v % 2 ^ 32)).wr (SCB_SUM_WORD k 5) (v / 2 ^ 32)

/-- A sector of a line read by the scrubber is counted (R399, R404), by its status `st`; a correction of the erased device
alone is not (R376). -/
def Block.scrubSeen (b : Block) (addr st : Nat) (erasure : Bool) : Block :=
  if st = stCorrected then (if erasure then b else b.sumAdd 6 1) else if st = stUE then b.scrubUe addr else b

/-- A sector's repair is counted, and a poison write told (R399, R400). -/
def Block.scrubActed (b : Block) (sub addr : Nat) (act : ScrubAct) : Block :=
  match act with
  | .recover _ => b.sumAdd 8 1
  | .poison =>
    ((b.sumAdd 15 1).wr (ECC_STATUS_POISON_WR sub) 1).event
      { code := 60, kind := 0, form := 0, addr := addr, unit_ := .sub sub, sev := none }
  | .keep _ _ => b
  | .skip => b
  | .fix _ => b

/-- Act on the sectors of one frame of the line: counts, then the write-back of what is not cancelled. -/
def Block.scrubFrame (b : Block) (a id : Nat) (ans : List Intern) (other : List Intern) : Block :=
  let mine := ans.filter (fun n => n.req.id == id)
  match mine with
  | [] => b
  | n0 :: _ =>
    let both (sec : Nat) : Option (Nat × BitVec 512) :=
      if dStale b.scrub.desc then none
      else (other.find? (fun n => n.sec == sec)).map (fun n => (n.status, n.data))
    let at_ (sec : Nat) : Intern := (mine.find? (fun n => n.sec == sec)).getD n0
    let newer (b : Block) (sec : Nat) : Bool := bitOf b.scrub.stale sec ||
      b.slices.any (fun e => e.2.wb.any (fun w => w.dpa == some (a + 64 * sec)))
    let b := b.sumChecked 4
    let acts := [0, 1, 2, 3].map (fun s =>
      (s, scrubAct (at_ s).status (at_ s).data (b.scrubCached a s) (both s)))
    let b := forEach [0, 1, 2, 3] b (fun b s => b.scrubSeen (a + 64 * s) (at_ s).status (b.scrub.erased.contains (id, s)))
    let live := acts.filter (fun e => !newer b e.1)
    if !live.any (fun e => e.2.acts) then b
    else
      let b := forEach live b (fun b e => b.scrubActed (b.routeSub n0.req.route) (a + 64 * e.1) e.2)
      let (wid, b) := b.newId
      b.afterLookup { n0.req with
        id := wid, op := .wrl
        wdata := acts.map (fun e => if newer b e.1 then ⟨0, 0, false, false⟩ else e.2.wdata) }

/-- The sectors of the line in flight have all come back (R399); the pass ends after its last line. -/
def Block.scrubReturn (b : Block) : Block :=
  match b.scrub.line with
  | none => { b with intern := b.intern.filter (fun n => n.req.src != 8 || n.req.area == .edt) }
  | some (a, id, both) =>
    let ours (n : Intern) : Bool := n.req.src == 8 && n.req.area != .edt && (n.req.id == id || (both && n.req.id == id + 1))
    let ans := b.intern.filter ours
    if ans.length < (if both then 8 else 4) then b
    else
      let b := { b with intern := b.intern.filter (fun n => n.req.src != 8) }
      let one := ans.filter (fun n => n.req.id == id)
      let two := ans.filter (fun n => n.req.id != id)
      let gone (l : List Intern) : Bool := l.any (fun n => n.status == stFenced)
      let b : Block :=
        if gone one && (gone two || !both) then b.sumAdd 9 1
        else
          let b := if gone one then b else b.scrubFrame a id one two
          if both && !gone two then b.scrubFrame a (id + 1) two one else b
      let b : Block := { b with scrub := { b.scrub with line := none, stale := 0, erased := [], frames := [] } }
      if b.scbLimit (b.rd SCB_STATUS_CURRENT) ≤ b.scrub.pos then b.passEnd scbDone else b

/-- SCRUB_LINE_RETURN (R399). -/
def execScrubLineReturn (s : State) : Out := onBlock s Block.scrubReturn

end Sys2Proof.Machine
end

