-- ==== Sys2Proof/Machine/Tender.lean ====
section
/-! DEFINITION. The Tender (15): the job ring and its lanes, what a job asks of memory, chunk locks, completion records,
and one step of each verb. A lane keeps one line in flight. -/

namespace Sys2Proof.Machine

open Reg

/-! ## The ring and the job (R424, R425, R428) -/

/-- Lane `n`. -/
def Block.tlane (b : Block) (n : Nat) : Lane := b.tnd.lanes.get n

/-- N. -/
def Block.ringN (b : Block) : Nat := 2 ^ (min 12 (max 4 (b.rd TND_RING_SIZE_LOG2)))

/-- TND_RING_BASE. -/
def Block.ringBase (b : Block) : Nat := b.rd64 TND_RING_BASE_LO_ADDR TND_RING_BASE_HI_ADDR % 2 ^ 46 / 4096 * 4096

/-- TND_CMPL_BASE. -/
def Block.cmplBase (b : Block) : Nat := b.rd64 TND_CMPL_BASE_LO_ADDR TND_CMPL_BASE_HI_ADDR % 2 ^ 46 / 4096 * 4096

/-- Bits of word `w` of a job. -/
def jField (j : BitVec 512) (w hi lo : Nat) : Nat := bitsOf j.toNat (64 * w + hi) (64 * w + lo)
/-- VERB. -/
def jVerb (j : BitVec 512) : Nat := jField j 0 3 0
/-- FENCE. -/
def jFence (j : BitVec 512) : Bool := jField j 0 8 8 == 1
/-- INT. -/
def jInt (j : BitVec 512) : Bool := jField j 0 9 9 == 1
/-- MODE. -/
def jMode (j : BitVec 512) : Bool := jField j 0 10 10 == 1
/-- CHECK. -/
def jCheck (j : BitVec 512) : Bool := jField j 0 11 11 == 1
/-- PASSES. -/
def jPasses (j : BitVec 512) : Nat := jField j 0 18 16
/-- JOB_ID. -/
def jId (j : BitVec 512) : Nat := jField j 0 63 32
/-- SRC. -/
def jSrc (j : BitVec 512) : Nat := jField j 1 63 0
/-- DST. -/
def jDst (j : BitVec 512) : Nat := jField j 2 63 0
/-- LENGTH. -/
def jLen (j : BitVec 512) : Nat := jField j 3 40 0
/-- PATTERN over a sector. -/
def jPattern (j : BitVec 512) : BitVec 512 :=
  BitVec.ofNat 512 ((List.range 8).foldl (fun m i => m + jField j 4 63 0 * 2 ^ (64 * i)) 0)
/-- EXPECT. -/
def jExpect (j : BitVec 512) : Nat := jField j 5 63 0
/-- Set and frame of a MODE 1 address or of the target of a MOVE. -/
def jFrame (a : Nat) : Nat × Nat := (bitsOf a 50 48, bitsOf a 47 32)

/-- ZERO. -/
def vbZero : Nat := 1
/-- SANITISE. -/
def vbSanitise : Nat := 2
/-- COPY. -/
def vbCopy : Nat := 3
/-- MOVE. -/
def vbMove : Nat := 4
/-- TEST. -/
def vbTest : Nat := 5
/-- SUM. -/
def vbSum : Nat := 6
/-- CLEAR. -/
def vbClear : Nat := 7
/-- SCAN. -/
def vbScan : Nat := 8

/-- A verb of R428. -/
def jKnown (j : BitVec 512) : Bool := decide (1 ≤ jVerb j) && decide (jVerb j ≤ 8)

/-- The arguments of a job are as R428 demands. -/
def jArgsOk (j : BitVec 512) : Bool :=
  let v := jVerb j
  let len := jLen j
  let src := jSrc j
  let dst := jDst j
  jField j 0 7 4 == 0 && jField j 0 15 12 == 0 && jField j 0 31 19 == 0 && jField j 3 63 41 == 0
  && jField j 6 63 0 == 0 && jField j 7 63 0 == 0
  && (!jMode j || v == vbZero || v == vbTest || v == vbSum || v == vbScan)
  && (if v = vbMove then src / 2 ^ 16 == 0 && len == 0
      else decide (256 ≤ len) && decide (len ≤ 2 ^ 40) && len % 256 == 0 &&
        (if jMode j then src / 2 ^ 51 == 0 && src % 2 ^ 32 % 256 == 0 else src / 2 ^ 46 == 0 && src % 256 == 0))
  && (if v = vbCopy then
        dst / 2 ^ 46 == 0 && dst % 256 == 0 && (decide (src + len ≤ dst) || decide (dst + len ≤ src))
      else if v = vbMove then dst % 2 ^ 32 == 0 && dst / 2 ^ 51 == 0
      else dst == 0)

/-! ## Completion (R427, R429, R430) -/

/-- A ring error: RING_ERR, and no further jobs are taken. -/
def Block.ringErr (b : Block) (event : Bool) : Block :=
  let b := { b with tnd := { b.tnd with stopped := true } }
  let b := (b.wr TND_STATUS_RING_ERR 1).intr 18 (b.on TND_CTL_INT_ERR)
  if event then b.eventPlain 72 0 0 else b

/-- A request of lane `n` of the Tender. -/
def tndReq (n id a : Nat) (op : ReqOp) : Req :=
  { (default : Req) with id := id, src := 6, op := op, dpa := a, tc := 0, policy := 1, lane := n }

/-- What the way to a DPA answers the Tender. -/
inductive TndWay
  /-- The descriptor is being fetched. -/
  | wait
  /-- The access ends with a status. -/
  | status (st : Nat)
  /-- The request, with the descriptor of its extent where it has one. -/
  | go (r : Req) (d : Option Desc)
  deriving DecidableEq, Repr

/-- Find the way of a request by DPA: an aperture of the reserved region, or the descriptor of its extent (R113 without
the owner check). The question for a descriptor is marked by the opcode PREFETCH, which the Tender never uses. -/
def Block.tndWay (b : Block) (r : Req) : Block × TndWay :=
  if 2 ^ 46 ≤ r.dpa then (b.bump EDT_DECODE_CNT_CNT, .status stDecode)
  else match reservedOff r.dpa with
  | some off =>
    match b.aperture r off with
    | .answer st => (if st = stDecode then b.bump EDT_DECODE_CNT_CNT else b, .status st)
    | .counters => (b, .status stDenied)
    | .fenced _ => (b, .status stFenced)
    | .go r => (b, .go r none)
  | none =>
    let i := b.extentOf r.dpa
    if b.edtEntries ≤ i ∨ b.withheld i then (b.bump EDT_DECODE_CNT_CNT, .status stDecode)
    else match b.askDesc { r with op := .prefetch, idx := i } with
    | (b, none) => (b, .wait)
    | (b, some d) =>
      if !dValid d then (b.bump EDT_DECODE_CNT_CNT, .status stDecode)
      else if dState d = xsFenced then (b, .status stFenced)
      else (b, .go { r with idx := i } (some d))

/-- Send the completion record of lane `n`; where the record's place cannot be reached, the write is answered at once. -/
def Block.sendRecord (b : Block) (n : Nat) : Block :=
  let l := b.tlane n
  let a := b.cmplBase + 32 * (l.idx % b.ringN)
  let (id, b) := b.newId
  let half := a / 32 % 2
  let w : WData := { data := (l.record.setWidth 512) <<< (256 * half), be := (BitVec.allOnes 32).setWidth 64 <<< (32 * half)
                     poison := false, parBad := false }
  let r := { tndReq n id (a / 64 * 64) .wrp with wdata := [w] }
  let fail (b : Block) (st : Nat) : Block :=
    let b := b.updTnd n (fun l => { l with phase := .finishing, req := some id })
    { b with intern := b.intern ++ [⟨r, 0, st, 0⟩] }
  match b.tndWay r with
  | (b, .wait) => b.updTnd n (fun l => { l with phase := .finish, req := some id })
  | (b, .status st) => fail b st
  | (b, .go r none) => (b.updTnd n (fun l => { l with phase := .finishing, req := some id })).afterLookup r
  | (b, .go r (some d)) =>
    if dState d ≠ xsNormal then fail b stDenied
    else match b.routeReq r d with
    | .go r => (b.updTnd n (fun l => { l with phase := .finishing, req := some id })).afterLookup { r with tc := 0 }
    | .fenced => fail b stFenced
    | .decode => fail (b.bump EDT_DECODE_CNT_CNT) stDecode
    | .deny => fail b stDenied

/-- The address of R429's FIRST for byte `off` of the job's range: in MODE 1 with the frame that holds the byte. -/
def Block.jAddr (b : Block) (j : BitVec 512) (off : Nat) : Nat :=
  if jMode j then
    let x := jSrc j % 2 ^ 32 + off
    x % 2 ^ b.granLog + 2 ^ 32 * (jSrc j / 2 ^ 32 % 2 ^ 16 + x / 2 ^ b.granLog) + 2 ^ 48 * (jSrc j / 2 ^ 48)
  else jSrc j + off

/-! ## Chunk locks (R439) -/

/-- Route a request that a lock held again, with the descriptor as it then stands. -/
def Block.reroute (b : Block) (r : Req) : Block :=
  match b.descCached (b.extentOf r.dpa) with
  | some d => b.applyResolved r (if r.src < 6 then b.resolve r d else b.routeReq r d)
  | none => b.fetchWait (b.extentOf r.dpa) r

/-- Unlock the chunk of lane `n`; a scrubber write to a chunk that has moved is cancelled (R400). -/
def Block.unlock (b : Block) (n : Nat) (moved : Bool) : Block :=
  let l := b.tlane n
  if l.lock.isNone then b
  else
    let i := jSrc l.job
    let mine (r : Req) : Bool := r.area == .dram && r.idx == i && r.dpa % 2 ^ b.granLog / 4096 == l.chunk
    let out := b.edt.held.filter mine
    let b := b.updTnd n (fun l => { l with lock := none })
    let b := { b with edt := { b.edt with held := b.edt.held.filter (fun r => !mine r) } }
    forEach out b (fun b r => if r.src = 8 ∧ moved then b else b.reroute r)

/-- End the job of lane `n` with a CODE, 0 for its own ending (R429). -/
def Block.finish (b : Block) (n code : Nat) : Block :=
  let b := b.unlock n false
  let l := b.tlane n
  let result := if jVerb l.job = vbSum then l.crc else l.low + 2 ^ 32 * l.high
  let rec_ := jId l.job + 2 ^ 32 * (code + 16 * jVerb l.job + (if l.first.isSome then 2 ^ 8 else 0)
      + (if l.swapped then 2 ^ 9 else 0))
    + 2 ^ 64 * l.done + 2 ^ 128 * (result % 2 ^ 64) + 2 ^ 192 * (l.first.getD 0 % 2 ^ 64)
  let b := { b with edt := { b.edt with
    updates := b.edt.updates.map (fun (u : DescUpd) => if u.lane = n then { u with lane := 4 } else u)
    inval := b.edt.inval.map (fun (v : Inval) => if v.lane = n then { v with lane := 4 } else v) } }
  let b := b.updTnd n (fun l => { l with
    phase := .finish, code := code, record := BitVec.ofNat 256 rec_, req := none, claims := [] })
  let b := if 3 ≤ code then b.eventPlain 73 (16 * n + code) 0 else b
  b.sendRecord n

/-- End the job with FIRST at byte `off` of its range. -/
def Block.finishAt (b : Block) (n code off : Nat) : Block :=
  (b.updTnd n (fun l => { l with first := some (l.first.getD (b.jAddr l.job off)) })).finish n code

/-- The code of a status that is not data; a transfer that was cut off ends its job with ABORTED (R172). -/
def codeOf (st : Nat) : Nat :=
  if st = stAborted then 12 else if st = stPoison then 8 else if st = stUE then 7 else if st = stFenced then 6 else if st = stDenied then 5 else 4

/-- HEAD advances over completed jobs (R426). -/
def headStep : Nat → Nat → List Nat → Nat × List Nat
  | 0, h, d => (h, d)
  | k + 1, h, d => if d.contains h then headStep k ((h + 1) % 65536) (d.filter (· != h)) else (h, d)

/-- The write of a completion record is answered (R430). -/
def Block.recordDone (b : Block) (n : Nat) : Block :=
  let l := b.tlane n
  match l.req with
  | none => b
  | some id =>
    if l.phase ≠ .finishing then b
    else match takeFirst (fun (x : Intern) => x.req.src == 6 && x.req.id == id) b.intern with
    | none => b
    | some (x, rest) =>
      let b := { b with intern := rest }
      if statusHasData x.status then
        let b := b.count ctrTender (if l.code = 0 then 5 else 6) 1 default
        let (h, d) := headStep 65536 (b.rd TND_HEAD_HEAD) (l.idx :: b.tnd.done)
        let b := { b with tnd := { b.tnd with done := d } }
        let b := (b.wr TND_HEAD_HEAD h).updTnd n (fun _ => default)
        if jInt l.job then (b.wr TND_STATUS_JOB_DONE 1).intr 18 (b.on TND_CTL_INT_DONE) else b
      else (b.updTnd n (fun l => { l with phase := .kept, req := none, stage := 0 })).ringErr true

/-- COMPLETION_WRITE_DONE (R430). -/
def execCompletionWriteDone (n : Fin 4) (s : State) : Out := onBlock s (fun b => b.recordDone n)

/-! ## Taking jobs (R426, R427) -/

/-- A lane runs a job (R468, TND_STATUS.LANES). -/
def Lane.runs (l : Lane) : Bool :=
  match l.phase with
  | .free => false
  | .fetch => false
  | .fetching => false
  | _ => true

/-- The job of lane `n` waits for an earlier one (R426). -/
def Block.fenceWaits (b : Block) (n : Nat) : Bool :=
  let l := b.tlane n
  l.phase == .go && jFence l.job && (List.range 4).any (fun m =>
    m != n && (b.tlane m).runs && decide ((l.idx + 65536 - (b.tlane m).idx) % 65536 < 32768))

/-- S3 is drained for: no lane takes a job. -/
def Block.tndDrained (b : Block) : Bool := b.pwr.inS3 || b.pwr.drains.any (fun q => q.state == 4)

/-- Read the job slot of the oldest untaken index for lane `n`. -/
def Block.jobFetch (b : Block) (n : Nat) : Block :=
  let (id, b) := b.newId
  let r := tndReq n id (b.ringBase + 64 * (b.tnd.next % b.ringN)) .rd64
  let fail (b : Block) : Block := (b.updTnd n (fun _ => default)).ringErr true
  let sent (b : Block) : Block := b.updTnd n (fun l => { l with phase := .fetching, req := some id })
  match b.tndWay r with
  | (b, .wait) => b.updTnd n (fun l => { l with phase := .fetch, req := some id })
  | (b, .status _) => fail b
  | (b, .go r none) => (sent b).afterLookup r
  | (b, .go r (some d)) =>
    if dState d ≠ xsNormal then fail b
    else match b.routeReq r d with
    | .go r => (sent b).afterLookup { r with tc := 0 }
    | .decode => fail (b.bump EDT_DECODE_CNT_CNT)
    | _ => fail b

/-- Lane `n` takes the next job, if it may. -/
def Block.jobStart (b : Block) (n : Nat) : Block :=
  let busy (m : Nat) : Bool :=
    let l := b.tlane m
    l.phase == .fetch || l.phase == .fetching || l.phase == .kept || l.stage == 99 || b.fenceWaits m
  if b.on TND_CTL_ENABLE && !b.tnd.stopped && (b.tlane n).phase == .free && !(List.range 4).any busy
      && b.tnd.next != b.rd TND_TAIL_TAIL && !b.tndDrained then b.jobFetch n
  else b

/-- JOB_START (R426). -/
def execJobStart (n : Fin 4) (s : State) : Out := onBlock s (fun b => b.jobStart n)

/-! ## Access to memory (R431 to R435) -/

/-- Lines in flight across the lanes. -/
def Block.tndFlying (b : Block) : Nat := (b.tnd.lanes.filter (fun e => e.2.phase == .read || e.2.phase == .write)).length

/-- OUTSTANDING as it acts. -/
def Block.tndLimit (b : Block) : Nat := min 64 (max 1 (b.rd TND_CFG_OUTSTANDING))

/-- A new line or chunk on a channel waits: QUIET bit 1 (R57), a drained power request (R470), or OUTSTANDING. -/
def Block.tndHeld (b : Block) (r : Route) : Bool :=
  bitOf (b.quietKinds (b.routeSub r)) 1 || b.pwr.drains.any (fun q => bitOf q.chans r.chan)
  || decide (b.tndLimit ≤ b.tndFlying)

/-- A lane's access of a line waits; a line whose read is done completes (R57, R435), and only OUTSTANDING holds it. -/
def Block.lineHolds (b : Block) (n : Nat) (r : Route) : Bool :=
  let l := b.tlane n
  if l.line.isEmpty && l.todo.isEmpty then b.tndHeld r else decide (b.tndLimit ≤ b.tndFlying)

/-- States a verb allows (R431); `dst` for the destination of a COPY. -/
def stateAllowed (verb st : Nat) : Bool :=
  if verb = vbTest then st == xsDisabled
  else if verb = vbSanitise then st == xsSanitising
  else st == xsNormal || st == xsMigrating || st == xsDisabled

/-- What an attempt at a line finds. -/
inductive LineWay
  | wait
  | held
  /-- The line lies in a training row and is passed over (R359). -/
  | pass
  /-- The address answers DECODE. -/
  | decode
  | ends (code : Nat)
  | badState (ext : Nat)
  | go (r : Req)
  deriving DecidableEq, Repr

/-- The way to the line at DPA `a` for lane `n`, with the state check at the first access of an extent. -/
def Block.lineDpa0 (b : Block) (n a : Nat) (r : Req) : Block × LineWay :=
  match b.tndWay r with
  | (b, .wait) => (b, .wait)
  | (b, .status st) =>
    (b, if st = stFenced ∧ (reservedOff a).isNone ∧ !(b.tlane n).checked.contains (b.extentOf a)
        then .badState (b.extentOf a) else .ends (codeOf st))
  | (b, .go r none) => (b, if b.tndLimit ≤ b.tndFlying then .held else .go r)
  | (b, .go r (some d)) =>
    let i := b.extentOf a
    let l := b.tlane n
    if !l.checked.contains i && !stateAllowed (jVerb l.job) (dState d) then (b, .badState i)
    else
      let b := b.updTnd n (fun l => if l.checked.contains i then l else { l with checked := i :: l.checked })
      let p := match b.serveAt d (a % 2 ^ b.granLog) with
        | some (p, _, _) => p
        | none => b.homeRoute d (a % 2 ^ b.granLog)
      if b.inTrainRow (b.routeSub p) (b.routeCoord p) then (b, .pass)
      else match b.routeReq r d with
      | .go r => (b, if b.lineHolds n r.route then .held else .go r)
      | .fenced => (b, .ends 6)
      | .decode => (b, .decode)
      | .deny => (b, .ends 5)

/-- The way to byte `off` of a frame address (MODE 1, R433). -/
def Block.lineFrame (b : Block) (n a off : Nat) (r : Req) : LineWay :=
  let (k, f) := jFrame a
  let x := a % 2 ^ 32 + off
  let g := 2 ^ b.granLog
  let fr := (k, f + x / g)
  if !b.frameOk fr then .decode
  else
    let p := b.frameRoute fr (x % g)
    let s := b.routeSub p
    let c := b.routeCoord p
    if b.inTrainRow s c then .pass
    else if b.beyondGeom s c then .decode
    else if b.chDown p.chan && b.rd (MOD_RPL_STATUS_STATE p.chan) != 4 then .ends 6
    else if b.lineHolds n p then .held
    else .go { r with area := .dram, route := p, raw := true, direct := true, tc := 0 }

/-- Begin an access of lane `n` at byte `off` of its range, or of its destination: `f` completes the request. A line that
is passed over leaves the access to `skip`. -/
def Block.access (b : Block) (n off : Nat) (dst : Bool) (op : ReqOp) (ph : LanePh) (f : Req → Req) (skip : Block → Block) :
    Block :=
  let l := b.tlane n
  let base := if dst then jDst l.job else jSrc l.job
  let (id, b) := b.newId
  let way :=
    if jMode l.job then (b, b.lineFrame n base off (tndReq n id (off % 2 ^ 46) op))
    else b.lineDpa0 n (base + off) (tndReq n id (base + off) op)
  match way with
  | (b, .wait) => b.updTnd n (fun l => { l with phase := .ask, req := some id })
  | (b, .held) => b
  | (b, .pass) => skip b
  | (b, .decode) => (b.bump EDT_DECODE_CNT_CNT).finishAt n 4 off
  | (b, .ends c) => b.finishAt n c off
  | (b, .badState i) =>
    (b.updTnd n (fun l => { l with first := some (i * 2 ^ b.granLog) })).finish n 3
  | (b, .go r) =>
    let b := b.updTnd n (fun l => { l with phase := ph, req := some id })
    let line := (op == .rd256 || op == .wrl)
    let cy := { (default : Carry) with dpa := r.carry.dpa, tc := some r.tc }
    let b := if line then b.count ctrTender (if op.isWrite then 2 else 1) 1 cy else b
    b.afterLookup (f r)

/-- Four sectors of one value. -/
def lineOf (v : BitVec 512) : List WData := List.replicate 4 ⟨v, allOnes, false, false⟩

/-- Write a whole line of lane `n`. -/
def Block.writeLine (b : Block) (n off : Nat) (dst : Bool) (ws : List WData) (skip : Block → Block) : Block :=
  b.access n off dst .wrl .write (fun r => { r with wdata := ws }) skip

/-- Read a line of lane `n`; `direct` reads DRAM whatever the cache holds (R432). -/
def Block.readLine (b : Block) (n off : Nat) (direct : Bool) (skip : Block → Block) : Block :=
  b.access n off false .rd256 .read (fun r => { r with direct := r.direct || direct }) skip

/-- Move a lane on. -/
def Block.laneGo (b : Block) (n : Nat) (f : Lane → Lane) : Block := b.updTnd n (fun l => f { l with phase := .go, req := none })

/-- Count a sector in the low half of RESULT, with FIRST. -/
def Lane.countLow (l : Lane) (addr : Nat) : Lane := { l with low := l.low + 1, first := some (l.first.getD addr) }

/-- Count a sector in the high half. -/
def Lane.countHigh (l : Lane) (addr : Nat) : Lane := { l with high := l.high + 1, first := some (l.first.getD addr) }

/-- Count a sector once in the low half (TEST). -/
def Lane.onceLow (l : Lane) (addr : Nat) : Lane :=
  if l.seenLo.contains addr then l else { l.countLow addr with seenLo := addr :: l.seenLo }

/-- Count a sector once in the high half (TEST). -/
def Lane.onceHigh (l : Lane) (addr : Nat) : Lane :=
  if l.seenHi.contains addr then l else { l.countHigh addr with seenHi := addr :: l.seenHi }

/-! ## Steps of the verbs -/

/-- The common beginning of a verb's step: lane `n` runs a job of the verb that may begin, and its arguments hold; harbour
mode allows ZERO and TEST in MODE 1 (R427, R501). -/
def Block.verbStep (b : Block) (n verb : Nat) (f : Block → Block) : Block :=
  let l := b.tlane n
  if !(l.phase == .go || l.phase == .updated || l.phase == .maintain) || jVerb l.job != verb || b.fenceWaits n then b
  else if !jArgsOk l.job then b.finish n 2
  else if b.harbour && verb != vbZero && verb != vbTest then b.finish n 13
  else if b.harbour && !jMode l.job then b.finishAt n 4 0
  else f b

/-- ZERO (R436): the next line. -/
def Block.zeroStep (b : Block) (n : Nat) : Block :=
  let l := b.tlane n
  let next (l : Lane) : Lane := { l with pos := l.pos + 256, done := l.pos + 256 }
  if jLen l.job ≤ l.pos then b.finish n 0
  else b.writeLine n l.pos false (lineOf 0) (fun b => b.laneGo n next)

/-- ZERO (R436). -/
def execZero (n : Fin 4) (s : State) : Out := onBlock s (fun b => b.verbStep n vbZero (fun b => b.zeroStep n))

/-- A descriptor update of lane `n` begins; GEN is compared with the value of the lane's last update (R440). -/
def Block.laneUpdate (b : Block) (n : Nat) (u : DescUpd) : Block :=
  let gen := ((b.tlane n).claims.find? (fun c => c.1 == u.idx)).bind (fun c => c.2)
  (b.updTnd n (fun l => { l with phase := .update })).descUpd { u with lane := n, gen := gen }

/-- An extent is claimed by a MOVE or SANITISE of another lane (R431). -/
def Block.claimed (b : Block) (n i : Nat) : Bool :=
  (List.range 4).any (fun m => m != n && (b.tlane m).claims.any (fun c => c.1 == i))

/-- Claim an extent. -/
def Lane.claim (l : Lane) (i : Nat) : Lane :=
  if l.claims.any (fun c => c.1 == i) then l else { l with claims := l.claims ++ [(i, none)], checked := i :: l.checked }

/-- First and number of the extents of a range. -/
def Block.jExtents (b : Block) (j : BitVec 512) : Nat × Nat :=
  let first := b.extentOf (jSrc j)
  (first, b.extentOf (jSrc j + jLen j - 1) + 1 - first)

/-- Set the next extent of the range to SANITISING (R437, 1). -/
def Block.saniMark (b : Block) (n : Nat) : Block :=
  let l := b.tlane n
  let (first, count) := b.jExtents l.job
  if count ≤ l.chunk then b.laneGo n (fun l => { l with stage := 1, chunk := 0 })
  else
    let i := first + l.chunk
    let a := max (jSrc l.job) (i * 2 ^ b.granLog)
    let bad (b : Block) : Block :=
      (b.updTnd n (fun l => { l with first := some (i * 2 ^ b.granLog) })).finish n 3
    let (id, b) := b.newId
    match b.tndWay (tndReq n id a .rd64) with
    | (b, .wait) => b.updTnd n (fun l => { l with phase := .ask, req := some id })
    | (b, .status st) => if st = stFenced ∧ (reservedOff a).isNone then bad b else b.finishAt n (codeOf st) (a - jSrc l.job)
    | (b, .go _ none) => b.finishAt n 4 (a - jSrc l.job)
    | (b, .go _ (some d)) =>
      if b.claimed n i || !(dState d == xsNormal || dState d == xsDisabled || dState d == xsSanitising) then bad b
      else
        (b.updTnd n (fun l => l.claim i)).laneUpdate n
          { (default : DescUpd) with idx := i, state := some xsSanitising }

/-- Data of pass `p` of a SANITISE (R437, 3). -/
def saniData (j : BitVec 512) (p : Nat) : BitVec 512 :=
  if jPasses j + 1 ≤ p then 0 else if p % 2 = 0 then ~~~ jPattern j else jPattern j

/-- SANITISE (R437): the next step. Stages: 0 marking, 1 and 2 the INVAL, 3 the passes (numbered by `tries`), 4 the
verify, 5 the ending. -/
def Block.saniStep (b : Block) (n : Nat) : Block :=
  let l := b.tlane n
  let len := jLen l.job
  if l.phase = .updated then
    if l.code ≠ 0 then b.finish n l.code
    else b.laneGo n (fun l => { l with chunk := l.chunk + 1 })
  else match l.stage with
  | 0 => b.saniMark n
  | 1 =>
    let b := forEach (List.range 16) b (fun b c => b.mntTender c mntInval (jSrc l.job) (jSrc l.job + len) n)
    b.updTnd n (fun l => { l with phase := .maintain, stage := 2 })
  | 2 => if b.mntBusy n then b else b.laneGo n (fun l => { l with stage := 3, pos := 0, tries := 0 })
  | 3 =>
    if len ≤ l.pos then
      if jPasses l.job + 1 ≤ l.tries then b.laneGo n (fun l => { l with stage := 4, pos := 0 })
      else b.laneGo n (fun l => { l with pos := 0, tries := l.tries + 1 })
    else b.writeLine n l.pos false (lineOf (saniData l.job l.tries))
      (fun b => b.laneGo n (fun l => { l with pos := l.pos + 256 }))
  | 4 =>
    if len ≤ l.pos then
      if l.low = 0 then b.laneGo n (fun l => { l with stage := 5, chunk := 0 }) else b.finish n 9
    else b.readLine n l.pos true (fun b => b.laneGo n (fun l => { l with pos := l.pos + 256, done := l.pos + 256 }))
  | _ =>
    let (first, count) := b.jExtents l.job
    if count ≤ l.chunk then b.finish n 0
    else b.laneUpdate n { (default : DescUpd) with idx := first + l.chunk, state := some xsDisabled }

/-- SANITISE (R437). -/
def execSanitise (n : Fin 4) (s : State) : Out := onBlock s (fun b => b.verbStep n vbSanitise (fun b => b.saniStep n))

/-- Destination data of a line copied: a sector that could not be read is poisoned (R436). -/
def copyLine (ws : List WData) : List WData := ws.map (fun w => { w with be := allOnes })

/-- The code a COPY or a MOVE ends with. -/
def Lane.copyCode (l : Lane) : Nat := l.worst

/-- COPY (R436): the next line is read, and once it is here written. -/
def Block.copyStep (b : Block) (n : Nat) : Block :=
  let l := b.tlane n
  let next (l : Lane) : Lane := { l with pos := l.pos + 256, done := l.pos + 256, line := [] }
  if jLen l.job ≤ l.pos then b.finish n l.copyCode
  else if l.line.isEmpty then b.readLine n l.pos false (fun b => b.laneGo n next)
  else b.writeLine n l.pos true (copyLine l.line) (fun b => b.laneGo n next)

/-- COPY (R436). -/
def execCopy (n : Fin 4) (s : State) : Out := onBlock s (fun b => b.verbStep n vbCopy (fun b => b.copyStep n))

/-- An attempt at a chunk is abandoned (R438, R446). -/
def Block.chunkDrop (b : Block) (n : Nat) : Block :=
  (b.unlock n false).count ctrTender 4 1 default

/-- MOVE at its start: the checks of R431 and the change to MIGRATING. -/
def Block.moveStart (b : Block) (n : Nat) : Block :=
  let l := b.tlane n
  let i := jSrc l.job
  let target := jFrame (jDst l.job)
  let a := i * 2 ^ b.granLog
  let ends (b : Block) (c : Nat) : Block := (b.updTnd n (fun l => { l with first := some a })).finish n c
  let (id, b) := b.newId
  match b.tndWay (tndReq n id a .rd64) with
  | (b, .wait) => b.updTnd n (fun l => { l with phase := .ask, req := some id })
  | (b, .status st) => ends b (if st = stFenced ∧ (reservedOff a).isNone then 3 else codeOf st)
  | (b, .go _ none) => ends b 4
  | (b, .go _ (some d)) =>
    let resumes := dState d == xsMigrating && dMig d == target
    if b.claimed n i || !(dState d == xsNormal || resumes) then ends b 3
    else if !b.frameOk target then ends b 4
    else
      let b := b.updTnd n (fun l => { l.claim i with stage := 1 })
      if resumes then
        b.laneGo n (fun l => { l with
          chunk := dMark d, claims := l.claims.map (fun c => if c.1 = i then (i, some (dGen d)) else c) })
      else
        b.laneUpdate n { (default : DescUpd) with
          idx := i, state := some xsMigrating, mig := some target, watermark := some 0 }

/-- A request checked before the lock has still to be accepted by its slice (R438, wait_passed). -/
def Block.chunkPassing (b : Block) (i k lock : Nat) : Bool :=
  b.slices.any (fun e => e.2.q.any (fun q => q.2.any (fun r =>
    r.area == .dram && !r.raw && r.idx == i && r.dpa % 2 ^ b.granLog / 4096 == k && decide (r.id < lock))))

/-- One line of the chunk of a MOVE: RD256 from the old frame, WRL to the target. Its own requests pass the lock. -/
def Block.moveLine (b : Block) (n : Nat) : Block :=
  let l := b.tlane n
  let i := jSrc l.job
  let off := l.chunk * 4096 + l.pos
  let a := i * 2 ^ b.granLog + off
  let (id, b) := b.newId
  let send (b : Block) (r : Req) (ph : LanePh) (ev : Nat) : Block :=
    let b := (b.updTnd n (fun l => { l with phase := ph, req := some id })).count ctrTender ev 1
      { (default : Carry) with dpa := r.carry.dpa, tc := some r.tc }
    (b.reguArrive r).sendReq r
  match b.tndWay (tndReq n id a .rd256) with
  | (b, .wait) => b.updTnd n (fun l => { l with phase := .ask, req := some id })
  | (b, .status st) => b.finish n (codeOf st)
  | (b, .go _ none) => b.finish n 4
  | (b, .go r (some d)) =>
    match b.serveAt d off with
    | none =>
      if b.noPlace (b.homeRoute d off) then (b.bump EDT_DECODE_CNT_CNT).finish n 4 else b.finish n 6
    | some (p, _, _) =>
      let t := b.frameRoute (jFrame (jDst l.job)) off
      let reserved (q : Route) : Bool := b.inTrainRow (b.routeSub q) (b.routeCoord q)
      if reserved p || reserved t then b.laneGo n (fun l => { l with pos := l.pos + 256, line := [] })
      else if b.tndLimit ≤ b.tndFlying then b
      else if l.line.isEmpty then
        match b.routeReq r d with
        | .go r => send b r .read 1
        | .decode => (b.bump EDT_DECODE_CNT_CNT).finish n 4
        | _ => b.finish n 6
      else if b.chDown t.chan then b.finish n 6
      else if b.beyondGeom (b.routeSub t) (b.routeCoord t) then (b.bump EDT_DECODE_CNT_CNT).finish n 4
      else send b { r with op := .wrl, area := .dram, idx := i, tc := dTc d, route := t, direct := true
                           wdata := copyLine l.line } .write 2

/-- MOVE (R438): the next step. Stages: 0 start, 1 next chunk, 2 locked, 3 maintenance, 4 copy, 5 watermark update (ended
by CHUNK_UNLOCK), 6 swap. -/
def Block.moveStep (b : Block) (n : Nat) : Block :=
  let l := b.tlane n
  let i := jSrc l.job
  if l.phase = .updated ∧ l.code ≠ 0 then b.finish n l.code
  else if l.phase = .updated ∧ l.stage = 6 then (b.updTnd n (fun l => { l with swapped := true })).finish n l.copyCode
  else if l.phase = .updated ∧ l.stage = 5 then b
  else match l.stage with
  | 0 => b.moveStart n
  | 1 =>
    if b.chunks ≤ l.chunk then
      (b.updTnd n (fun l => { l with stage := 6 })).laneUpdate n { (default : DescUpd) with
        idx := i, state := some xsNormal, frame := some (jFrame (jDst l.job)), mig := some (0, 0), watermark := some 0 }
    else
      let off := l.chunk * 4096
      let quiet := match b.descCached i with
        | some d => (match b.serveAt d off with
          | some (p, _, _) => b.tndHeld p
          | none => false)
        | none => false
      if quiet || b.tndHeld (b.frameRoute (jFrame (jDst l.job)) off) then b
      else b.laneGo n (fun l => { l with lock := some b.nextId, stage := 2, pos := 0, line := [] })
  | 2 =>
    if b.chunkPassing i l.chunk (l.lock.getD 0) then b
    else
      let a := i * 2 ^ b.granLog + l.chunk * 4096
      let b := forEach (List.range 16) b (fun b c => b.mntTender c mntCleanInval a (a + 4096) n)
      b.updTnd n (fun l => { l with phase := .maintain, stage := 3 })
  | 3 => if b.mntBusy n then b else b.laneGo n (fun l => { l with stage := 4, pos := 0 })
  | 4 =>
    if 4096 ≤ l.pos then
      (b.updTnd n (fun l => { l with stage := 5 })).laneUpdate n
        { (default : DescUpd) with idx := i, watermark := some (l.chunk + 1) }
    else b.moveLine n
  | _ => b

/-- MOVE (R438). -/
def execMove (n : Fin 4) (s : State) : Out := onBlock s (fun b => b.verbStep n vbMove (fun b => b.moveStep n))

/-- The chunk of lane `n` was not copied in time (R438): it is abandoned and tried again, or the job ends. -/
def Block.chunkTimeout (b : Block) (n : Nat) : Block :=
  let l := b.tlane n
  if l.lock.isNone || !(l.stage == 2 || l.stage == 3 || l.stage == 4) then b
  else
    let b := b.chunkDrop n
    if b.rd TND_CFG_RETRY ≤ l.tries then b.finish n 10
    else b.laneGo n (fun l => { l with stage := 1, tries := l.tries + 1, line := [] })

/-- CHUNK_TIMEOUT (R438). -/
def execChunkTimeout (n : Fin 4) (s : State) : Out := onBlock s (fun b => b.chunkTimeout n)

/-- The watermark update of a chunk is complete: the chunk is unlocked and the next one follows (R438, R439). -/
def Block.chunkUnlock (b : Block) (n : Nat) : Block :=
  let l := b.tlane n
  if l.phase ≠ .updated ∨ l.stage ≠ 5 then b
  else if l.code ≠ 0 then (b.chunkDrop n).finish n l.code
  else
    let b := (b.unlock n true).count ctrTender 3 1 default
    b.laneGo n (fun l => { l with stage := 1, chunk := l.chunk + 1, done := l.done + 4096, tries := 0, line := [] })

/-- CHUNK_UNLOCK (R439). -/
def execChunkUnlock (n : Fin 4) (s : State) : Out := onBlock s (fun b => b.chunkUnlock n)

/-- What element `e` of March C− expects and writes: none where it reads or writes nothing (R436). -/
def marchOf (p : BitVec 512) (e : Nat) : Option (BitVec 512) × Option (BitVec 512) :=
  match e with
  | 0 => (none, some p)
  | 1 => (some p, some (~~~ p))
  | 2 => (some (~~~ p), some p)
  | 3 => (some p, some (~~~ p))
  | 4 => (some (~~~ p), some p)
  | _ => (some p, none)

/-- Byte of the range that element `e` of March C− is at: elements 3 and 4 descend. -/
def marchOff (len e pos : Nat) : Nat := if e = 3 ∨ e = 4 then len - 256 - pos else pos

/-- The line of element `stage` is done. -/
def Lane.marchNext (l : Lane) : Lane :=
  { l with pos := l.pos + 256, line := [], done := if l.stage = 5 then l.pos + 256 else l.done }

/-- TEST (R436): the next access. -/
def Block.testStep (b : Block) (n : Nat) : Block :=
  let l := b.tlane n
  let len := jLen l.job
  if len ≤ l.pos then
    if 5 ≤ l.stage then b.finish n (if l.low = 0 then 0 else 9)
    else b.laneGo n (fun l => { l with stage := l.stage + 1, pos := 0 })
  else
    let off := marchOff len l.stage l.pos
    let skip (b : Block) : Block := b.laneGo n Lane.marchNext
    match marchOf (jPattern l.job) l.stage with
    | (none, some w) => b.writeLine n off false (lineOf w) skip
    | (some _, some w) =>
      if l.line.isEmpty then b.readLine n off true skip else b.writeLine n off false (lineOf w) skip
    | _ => b.readLine n off true skip

/-- TEST (R436). -/
def execTest (n : Fin 4) (s : State) : Out := onBlock s (fun b => b.verbStep n vbTest (fun b => b.testStep n))

/-- SUM (R436): the next line, or the end with the comparison. The register of the checksum is held complemented, so that
a new job's is 0. -/
def Block.sumStep (b : Block) (n : Nat) : Block :=
  let l := b.tlane n
  if jLen l.job ≤ l.pos then b.finish n (if jCheck l.job ∧ l.crc ≠ jExpect l.job then 9 else 0)
  else b.readLine n l.pos false (fun b => b.laneGo n (fun l => { l with pos := l.pos + 256, done := l.pos + 256 }))

/-- SUM (R436). -/
def execSum (n : Fin 4) (s : State) : Out := onBlock s (fun b => b.verbStep n vbSum (fun b => b.sumStep n))

/-- CLEAR (R436): the next line is read, then each of its bad sectors is written with PATTERN. -/
def Block.clearStep (b : Block) (n : Nat) : Block :=
  let l := b.tlane n
  if jLen l.job ≤ l.pos then b.finish n 0
  else match l.todo with
  | [] => b.readLine n l.pos false (fun b => b.laneGo n (fun l => { l with pos := l.pos + 256, done := l.pos + 256 }))
  | s :: _ => b.access n (l.pos + 64 * s) false .wr64 .write
      (fun r => { r with wdata := [⟨jPattern l.job, allOnes, false, false⟩] }) id

/-- CLEAR (R436). -/
def execClear (n : Fin 4) (s : State) : Out := onBlock s (fun b => b.verbStep n vbClear (fun b => b.clearStep n))

/-- SCAN (R436): the next line. -/
def Block.scanStep (b : Block) (n : Nat) : Block :=
  let l := b.tlane n
  if jLen l.job ≤ l.pos then b.finish n 0
  else b.readLine n l.pos false (fun b => b.laneGo n (fun l => { l with pos := l.pos + 256, done := l.pos + 256 }))

/-- SCAN (R436). -/
def execScan (n : Fin 4) (s : State) : Out := onBlock s (fun b => b.verbStep n vbScan (fun b => b.scanStep n))

/-- BAD_VERB (R428): a job with an undefined verb. -/
def execBadVerb (n : Fin 4) (s : State) : Out :=
  onBlock s (fun b =>
    let l := b.tlane n
    if l.phase == .go && !jKnown l.job && !b.fenceWaits n then b.finish n 1 else b)

/-! ## The return of a line (R436) -/

/-- Sector answers of a request of lane `n`, in the order of the line. -/
def Block.tndAnswers (b : Block) (id : Nat) : List Intern :=
  b.intern.filter (fun x => x.req.src == 6 && x.req.id == id && x.req.op != .prefetch)

/-- The answer for sector `s`. -/
def answerAt (xs : List Intern) (s : Nat) : Nat × BitVec 512 :=
  ((xs.find? (fun x => x.sec == s)).map (fun x => (x.status, x.data))).getD (stUE, 0)

/-- Statuses by sector of a line, ascending. -/
def lineAnswers (xs : List Intern) : List (Nat × Nat × BitVec 512) :=
  [0, 1, 2, 3].map (fun s => (s, answerAt xs s))

/-- UE outranks POISON as the code a job goes on with (R436). -/
def Lane.met (l : Lane) (st : Nat) : Lane := { l with worst := if st = stUE ∨ l.worst = 7 then 7 else 8 }

/-- Keep a line for COPY or MOVE; its unreadable sectors are counted and will be poisoned. `base` is the address of the
line's copy in the job's form. -/
def Lane.takeLine (l : Lane) (base : Nat) (as : List (Nat × Nat × BitVec 512)) : Lane :=
  let l := as.foldl (fun (l : Lane) a =>
    if statusHasData a.2.1 then l else (l.countLow (base + 64 * a.1)).met a.2.1) l
  { l with line := as.map (fun a =>
      if statusHasData a.2.1 then ⟨a.2.2, allOnes, false, false⟩ else ⟨0, allOnes, true, false⟩) }

/-- The line read by lane `n` is here. -/
def Block.lineRead (b : Block) (n : Nat) (xs : List Intern) : Block :=
  let l := b.tlane n
  let v := jVerb l.job
  let as := lineAnswers xs
  let off := if v = vbTest then marchOff (jLen l.job) l.stage l.pos else l.pos
  let a := b.jAddr l.job off
  if as.any (fun x => x.2.1 == stFenced) then b.finishAt n 6 (if v = vbMove then 0 else off)
  else if v = vbCopy then b.laneGo n (fun l => l.takeLine (jDst l.job + off) as)
  else if v = vbMove then
    b.laneGo n (fun l => l.takeLine (jSrc l.job * 2 ^ b.granLog + l.chunk * 4096 + l.pos) as)
  else if v = vbSanitise then
    b.laneGo n (fun l =>
      let l := as.foldl (fun (l : Lane) x =>
        if x.2.1 = stOK ∧ x.2.2 = 0 then l else l.countLow (a + 64 * x.1)) l
      { l with pos := l.pos + 256, done := l.pos + 256 })
  else if v = vbTest then
    let want := ((marchOf (jPattern l.job) l.stage).1).getD 0
    b.laneGo n (fun l =>
      let l := as.foldl (fun (l : Lane) x =>
        let l := if x.2.1 = stCorrected then l.onceHigh (a + 64 * x.1) else l
        if statusHasData x.2.1 && x.2.2 == want then l else l.onceLow (a + 64 * x.1)) l
      if l.stage = 5 then l.marchNext else { l with line := lineOf 0 })
  else if v = vbSum then
    match as.find? (fun x => !statusHasData x.2.1) with
    | some x =>
      let good := as.filter (fun y => decide (y.1 < x.1))
      let crc := good.foldl (fun c y => crcR 0xC96C5795D7870F42 (leBytes 64 y.2.2.toNat) (c ^^^ 0xFFFFFFFFFFFFFFFF)
        ^^^ 0xFFFFFFFFFFFFFFFF) l.crc
      let b := b.updTnd n (fun l => { l with crc := crc, done := l.pos + 64 * x.1 })
      b.finishAt n (codeOf x.2.1) (off + 64 * x.1)
    | none =>
      b.laneGo n (fun l => { l with
        pos := l.pos + 256, done := l.pos + 256
        crc := as.foldl (fun c y => crcR 0xC96C5795D7870F42 (leBytes 64 y.2.2.toNat) (c ^^^ 0xFFFFFFFFFFFFFFFF)
          ^^^ 0xFFFFFFFFFFFFFFFF) l.crc })
  else if v = vbClear then
    let bad := (as.filter (fun x => !statusHasData x.2.1)).map (fun x => x.1)
    b.laneGo n (fun l =>
      if bad.isEmpty then { l with pos := l.pos + 256, done := l.pos + 256 } else { l with todo := bad })
  else
    b.laneGo n (fun l =>
      let l := as.foldl (fun (l : Lane) x =>
        if x.2.1 = stPoison then l.countLow (a + 64 * x.1)
        else if statusHasData x.2.1 then l else l.countHigh (a + 64 * x.1)) l
      { l with pos := l.pos + 256, done := l.pos + 256 })

/-- The line or sector written by lane `n` has been taken. -/
def Block.lineWritten (b : Block) (n : Nat) (xs : List Intern) : Block :=
  let l := b.tlane n
  let v := jVerb l.job
  let off := if v = vbTest then marchOff (jLen l.job) l.stage l.pos else l.pos
  match xs.find? (fun x => !statusHasData x.status) with
  | some x => b.finishAt n (codeOf x.status) (if v = vbMove then 0 else off)
  | none =>
    if v = vbTest then b.laneGo n Lane.marchNext
    else if v = vbClear then
      match l.todo with
      | [] => b.laneGo n id
      | s :: rest =>
        b.laneGo n (fun l =>
          let l := { (l.countLow (b.jAddr l.job (l.pos + 64 * s))) with todo := rest }
          if rest.isEmpty then { l with pos := l.pos + 256, done := l.pos + 256 } else l)
    else if v = vbSanitise then b.laneGo n (fun l => { l with pos := l.pos + 256 })
    else if v = vbMove then b.laneGo n (fun l => { l with pos := l.pos + 256, line := [] })
    else b.laneGo n (fun l => { l with pos := l.pos + 256, done := l.pos + 256, line := [] })

/-- The answer to a lane's question for a descriptor (R113, R119). -/
def Block.tndDescAnswer (b : Block) (n : Nat) : Option (Intern × List Intern) :=
  takeFirst (fun (x : Intern) => x.req.src == 6 && some x.req.id == (b.tlane n).req && x.req.op == .prefetch) b.intern

/-- The job slot read by lane `n` is here (R427). -/
def Block.jobRead (b : Block) (n : Nat) (x : Intern) : Block :=
  if statusHasData x.status then
    let i := b.tnd.next
    let b := { b with tnd := { b.tnd with next := (i + 1) % 65536 } }
    b.updTnd n (fun _ => { (default : Lane) with phase := .go, idx := i, job := x.data })
  else (b.updTnd n (fun _ => default)).ringErr true

/-- What lane `n` waits for has come back. -/
def Block.laneReturn (b : Block) (n : Nat) : Block :=
  let l := b.tlane n
  match l.phase with
  | .fetch | .ask | .finish =>
    match b.tndDescAnswer n with
    | none => b
    | some (x, rest) =>
      let b := { b with intern := rest }
      if l.phase = .fetch then
        if x.status = stOK then b.jobFetch n else (b.updTnd n (fun _ => default)).ringErr true
      else if l.phase = .ask then
        if x.status = stOK then b.updTnd n (fun l => { l with phase := .go })
        else b.finishAt n (codeOf x.status) (if jVerb l.job = vbMove then 0 else l.pos)
      else if x.status = stOK then b.sendRecord n
      else
        let (id, b) := b.newId
        let b := b.updTnd n (fun l => { l with phase := .finishing, req := some id })
        { b with intern := b.intern ++ [⟨tndReq n id 0 .wrp, 0, x.status, 0⟩] }
  | .fetching | .read | .write =>
    match l.req with
    | none => b
    | some id =>
      let xs := b.tndAnswers id
      let want := match xs with
        | x :: _ => if x.req.op = .rd256 ∨ x.req.op = .wrl then 4 else 1
        | [] => 4
      if xs.length < want then b
      else
        let b := { b with intern := b.intern.filter (fun x => !(x.req.src == 6 && x.req.id == id)) }
        match l.phase, xs with
        | .fetching, x :: _ => b.jobRead n x
        | .read, _ => b.lineRead n xs
        | _, _ => b.lineWritten n xs
  | _ => b

/-- TENDER_LINE_RETURN (R436). -/
def execTenderLineReturn (n : Fin 4) (s : State) : Out := onBlock s (fun b => b.laneReturn n)

/-! ## Control (R425, R427, R430, R442) -/

/-- A write of TND_TAIL has been performed. -/
def Block.tailWritten (b : Block) : Block :=
  if b.ringN < (b.rd TND_TAIL_TAIL + 65536 - b.rd TND_HEAD_HEAD) % 65536 then b.ringErr false else b

/-- ENABLE written from 0 to 1 (R425, R430): kept records are written again, then jobs are taken. -/
def Block.tndEnabled (b : Block) : Block :=
  let b := { b with tnd := { b.tnd with stopped := false } }
  forEach (List.range 4) b (fun b n =>
    if (b.tlane n).phase = .kept then (b.updTnd n (fun l => { l with stage := 99 })).sendRecord n else b)

/-- ABORT (R442): every active job ends with ABORTED. -/
def Block.tndAbort (b : Block) : Block :=
  forEach (List.range 4) b (fun b n =>
    let l := b.tlane n
    if l.runs && l.phase != .finish && l.phase != .finishing && l.phase != .kept then
      let b := if l.lock.isSome then b.chunkDrop n else b
      b.finish n 12
    else b)

/-- TND_STATUS.LANES. -/
def Block.tndLanes (b : Block) : Nat := (List.range 4).foldl (fun m n => if (b.tlane n).runs then m + 2 ^ n else m) 0

/-- TND_LANE of lane `n`. -/
def Block.tndLaneWord (b : Block) (n : Nat) : Nat :=
  let l := b.tlane n
  if !l.runs then 0
  else l.idx % b.ringN + jVerb l.job * 2 ^ 16 + (if l.phase = .kept then 2 ^ 20 else 0) + 2 ^ 31

/-- TND_LANE_CHUNK of lane `n`. -/
def Block.tndChunkWord (b : Block) (n : Nat) : Nat :=
  let l := b.tlane n
  if l.runs && jVerb l.job == vbMove && l.lock.isSome then l.chunk else 0

end Sys2Proof.Machine
end

