-- ==== Sys2Proof/Machine/Faults.lean ====
section
/-! DEFINITION. The fault unit's commands (19): fence inputs, fence sets and clears, record clears, LIVE, and the message
queue to the collector. -/

namespace Sys2Proof.Machine

open Reg

/-! ## Messages (R512) -/

/-- The head message transfers. An entry that frees after drops lets one FLT_MSG_LOST message in, whose KIND is the number
dropped, saturating at 255. -/
def Block.msgTransfer (b : Block) : Block :=
  match (if b.isolated then [] else b.flt.msgs) with
  | [] => b
  | _ :: rest =>
    let d := b.flt.dropped
    let b := { b with flt := { b.flt with msgs := rest, dropped := 0 } }
    if d = 0 then b else b.eventPlain 5 (min d 255) 0

/-- FAULT_MESSAGE_TRANSFER (R512). -/
def execFaultMessageTransfer (s : State) : Out := onBlock s Block.msgTransfer

/-! ## Setting fences (R515 to R517, R422) -/

/-- Kind and index of a unit. -/
def fenceUnitOf : FenceUnit → FenceKind × Nat
  | .sub s => (.sub, s)
  | .slice c => (.slice, c)
  | .port p => (.port, p)

/-- The level of a FENCE input: while it is 1 the unit's bit is set. A collector's fence during ATTACHING fails the
attach (R422). -/
def Block.fenceInput (b : Block) (k : FenceKind) (i : Nat) (level : Bool) : Block :=
  if level then
    let b := ((b.demandSeen (List.range 16)).setBitOf k.inputs i).fence k i causeInput 0
    if k = .sub ∧ b.rd (MOD_RPL_STATUS_STATE (i / 2)) = 3 then b.rplFail Block.event (i / 2) 9 else b
  else b.clearBitOf k.inputs i

/-- FENCE_INPUT (R517). -/
def execFenceInput (u : FenceUnit) (level : Bool) (s : State) : Out :=
  onBlock s (fun b => b.fenceInput (fenceUnitOf u).1 (fenceUnitOf u).2 level)

/-- A write of FLT_FENCE_SET: the named units are fenced (R515). -/
def Block.fenceSet (b : Block) (k : FenceKind) (mask role : Nat) : Block :=
  forEach (indicesWhere k.count (bitOf mask)) (b.demandSeen (List.range 16)) (fun b i => b.fence k i causeRegister role)

/-! ## Clearing fences (R516 to R519) -/

/-- What a fence clear of a subchannel sets going (R518): SNT_SRX of the active bin as an urgent sentence, whose end lets
tracking and the ticks go on; without ranks in self-refresh both go on at once. A sentence that cannot be run leaves the
subchannel fenced again. -/
def Block.fenceExit (b : Block) (s : Nat) : Block :=
  if (b.subs.get s).selfRef.isEmpty then (b.restartTicks s).trackJump s
  else
    let n := (b.subs.get s).sntQ.length
    let b := b.sntRequest s ⟨setSrx (b.activeSet s), b.allRanks s, 0, true, .fenceExit⟩
    if (b.subs.get s).sntQ.length = n then b.fence .sub s causeAction 0 else b

/-- Whether a clear of a unit is refused (R517; R549 for a channel that lost power), and the block after the store reload that a halted subchannel's clear
makes. -/
def Block.clearRefused (b : Block) (k : FenceKind) (i : Nat) : Bool × Block :=
  if b.bit k.inputs i then (true, b)
  else match k with
    | .sub =>
      if !b.on (PHY_STATUS_TRAINED i) || b.rd (MOD_RPL_STATUS_STATE (i / 2)) != 0 || bitOf b.pwr.modBad (i / 2) then (true, b)
      else if (b.subs.get i).noSet then
        let (b', ok) := b.reloadClauses i
        if ok then (false, b'.updSub i (fun u => { u with noSet := false })) else (true, b)
      else (false, b)
    | _ => (false, b)

/-- A fence bit is cleared, with its record. -/
def Block.fenceDrop (b : Block) (k : FenceKind) (i cause role : Nat) : Block :=
  if b.bit k.reg i then (b.clearBitOf k.reg i).audFence k i cause role false else b

/-- A refused clear. -/
def Block.clrRefuse (b : Block) : Block := (b.wr FLT_STATUS_CLR_REFUSED 1).intr 25 (b.on FLT_CTL_INT_LOST)

/-- A clear that may be made acts. -/
def Block.clearOne (b : Block) (k : FenceKind) (i cause role : Nat) : Block :=
  if b.bit k.reg i then
    let b := b.fenceDrop k i cause role
    match k with
    | .sub => b.fenceExit i
    | .slice => b.sliceUnfenced i
    | .port => b
  else b

/-- A write of FLT_FENCE_CLR (R517). The two subchannels of a lockstep pair, of which the fence of either fences both
(R516), are cleared by one write that names both. -/
def Block.fenceClear (b : Block) (k : FenceKind) (mask role : Nat) : Block :=
  forEach (indicesWhere k.count (bitOf mask)) b (fun b i =>
    let (no, b) := b.clearRefused k i
    if no then b.clrRefuse
    else if k = .sub && b.chLockstep (i / 2) then
      let j := i / 2 * 2 + (1 - i % 2)
      if i % 2 = 0 && bitOf mask j && !(b.clearRefused k j).1 then
        let b := (b.clearRefused k j).2
        (b.fenceDrop k j causeRegister role).clearOne k i causeRegister role
      else b
    else b.clearOne k i causeRegister role)

/-! ## Records (R511) -/

/-- The condition that LIVE of a code follows (R505). -/
def Block.live (b : Block) (code : Nat) : Bool :=
  let any (n : Nat) (f : Nat → Fld) : Bool := (List.range n).any (fun i => b.on (f i))
  match code with
  | 2 => b.timState == timHoldover
  | 16 => (List.range 6).any (fun p => b.portState p == ptStopped)
  | 24 => b.on REGU_STATUS_SCALING
  | 48 => any 32 CLS_STATUS_HALTED
  | 53 => any 32 CAL_STATUS_SUSPECT
  | 61 => any 32 ECC_ERASE_VALID
  | 72 => b.on TND_STATUS_RING_ERR
  | 80 => any 8 THM_ZONE_WARN
  | 81 => any 8 THM_ZONE_THROTTLE || any 32 THM_MOD_THROTTLE
  | 82 => any 24 THM_SITE_BROKEN || any 32 THM_MOD_BROKEN
  | 83 => b.on THM_STATUS_TRIP
  | _ => false

/-- Clear one record: while its condition holds, VALID stays and the stamps take the time of the clear. -/
def Block.recClear (b : Block) (code : Nat) : Block :=
  if code < 96 then
    let live := b.live code
    let t := if live then b.now else 0
    { b with flt := { b.flt with recs := b.flt.recs.upd code (fun r =>
      { r with valid := live, count := 0, firstT := t, lastT := t }) } }
  else b

/-- A write of FLT_REC_CLR with GO. -/
def Block.recClearGo (b : Block) (all : Bool) : Block :=
  if all then forEach (List.range 96) b (fun b c => b.recClear c) else b.recClear (b.rd FLT_REC_CLR_INDEX)

/-- One word of a fault record as software reads it. -/
def Block.fltRecWord (b : Block) (code w : Nat) : Nat :=
  let r := b.flt.recs.get code
  let bit (v : Bool) (k : Nat) : Nat := if v then 2 ^ k else 0
  match w with
  | 0 => bit r.valid 31 + bit (b.live code) 30 + r.form % 2 * 2 ^ 29 + r.sev % 4 * 2 ^ 24 + r.kind % 256 * 2 ^ 16
  | 1 => r.count
  | 2 => r.addr % 2 ^ 32
  | 3 => r.addr / 2 ^ 32 % 2 ^ 14
  | 4 => r.firstT % 2 ^ 32
  | 5 => r.firstT / 2 ^ 32 % 2 ^ 32
  | 6 => r.lastT % 2 ^ 32
  | _ => r.lastT / 2 ^ 32 % 2 ^ 32

end Sys2Proof.Machine
end

