-- ==== Sys2Proof/Machine/Audit.lean ====
section
/-! DEFINITION. The audit ring (R526 to R532): the layout of a record, its store at NEXT, and the maker's clear. The
queue and the latches in front of the ring stand in Machine/Ops.lean. -/

namespace Sys2Proof.Machine

open Reg

/-- NVM offset of ring record `i`. -/
def audOff (i : Nat) : Nat := 0xA0000 + 32 * i

/-- The latch that holds the KIND 4 record of a clear in progress; no other record passes through it. -/
def audClearLatch : Nat := 87

/-- The 32 bytes of a record (R526). -/
def AudRec.bytes (r : AudRec) (wrap : Nat) : List Byte :=
  withCrc 32 (leBytes 8 r.time ++ leBytes 2 wrap ++ leBytes 1 r.kind ++ leBytes 1 r.role ++ leBytes 1 r.outcome
    ++ leBytes 3 0 ++ leBytes 4 r.offset ++ leBytes 4 r.old ++ leBytes 4 r.new)

/-- Store one record at NEXT, which advances modulo 4,096 (R531). -/
def Block.audWrite (b : Block) (r : AudRec) : Block :=
  let i := b.rd AUD_STATUS_NEXT
  let b := b.nvmPut (audOff i) (r.bytes (b.rd AUD_WRAPS_WRAPS))
  if i = 4095 then
    let b := (b.wr AUD_STATUS_NEXT 0).wr AUD_WRAPS_WRAPS (b.rd AUD_WRAPS_WRAPS + 1)
    (b.wr AUD_FLAGS_WRAPPED 1).intr 4 (b.on AUD_CTL_INT_WRAP)
  else b.wr AUD_STATUS_NEXT (i + 1)

/-- The head of the audit queue is stored, and latched records move up (R530). While a clear runs the queue waits
(R532). -/
def Block.audStore (b : Block) : Block :=
  if b.on AUD_STATUS_BUSY then b
  else match b.mg.audQ with
    | [] => b.audFlush
    | r :: rest => (({ b with mg := { b.mg with audQ := rest } }).audWrite r).audFlush

/-- AUD_CTL.CLEAR written by the maker (R532); without effect while a clear runs. -/
def Block.audClear (b : Block) : Block :=
  if b.on AUD_STATUS_BUSY then b
  else
    let r : AudRec := { time := b.now, kind := 4, role := 3, outcome := 0, offset := 0, old := b.rd AUD_WRAPS_WRAPS
                        new := b.rd AUD_STATUS_NEXT }
    ({ b with mg := { b.mg with latch := b.mg.latch.set audClearLatch (some r) } }).wr AUD_STATUS_BUSY 1

/-- The clear ends: every record is zero but the KIND 4 record at index 0 with WRAP 0 (R532). -/
def Block.audCleared (b : Block) : Block :=
  match b.on AUD_STATUS_BUSY, b.mg.latch.get audClearLatch with
  | true, some r =>
    let ring (a : Nat) : Bool := decide (0xA0000 ≤ a) && decide (a < 0xC0000)
    let b := { b with nvm := b.nvm.filter (fun e => !ring e.1)
                      mg := { b.mg with latch := b.mg.latch.set audClearLatch none } }
    let b := b.nvmPut (audOff 0) (r.bytes 0)
    ((b.wr AUD_STATUS_NEXT 1).wr AUD_WRAPS_WRAPS 0).wr AUD_STATUS_BUSY 0
  | _, _ => b

/-- AUDIT_CLEAR_DONE (R532). -/
def execAuditClearDone (s : State) : Out := onBlock s Block.audCleared

end Sys2Proof.Machine
end

