-- ==== Sys2Proof/Machine/Domains.lean ====
section
/-! DEFINITION. What power domains hold: the save list (R477, R580), a channel domain switched off and brought back
(R465, R476, R478), and the bias and assist records (R480, R481, R550). -/

namespace Sys2Proof.Machine

open Reg

/-! ## The save list (R477) -/

/-- A field of the save list. -/
def RegInfo.saved (r : RegInfo) (f : FieldInfo) : Bool :=
  match r.name with
  | .PHY_DQ | .PHY_DFE | .PHY_DQS | .PHY_CA | .PHY_CS | .PHY_CK => true
  | .CAL_TEMP => f.lo == 24
  | .CLS_STATUS => f.lo == 28 || f.lo == 24
  | .ECC_CTL | .ECC_PERSIST | .ECC_LEAK_US | .ECC_CE_CFG | .ECC_ERASE | .SCB_RATE | .SCB_RANGE => true
  | .REGU_CTL | .REGU_ADMIT | .REGU_CLASS | .REGU_GT_CTL | .REGU_GT_GUAR | .REGU_GT_CEIL => true
  | .CTR_CFG | .CTR_FILT | .CTR_RANGE | .TIM_CTL | .FLT_SEV | .TND_HEAD => true
  | .LGT_START_LO | .LGT_START_HI | .LGT_PERIOD | .LGT_ON | .LGT_PHASE | .LGT_CTL | .LGT_TARGET | .LGT_ARG => true
  | .LGT_STATUS => f.lo == 0
  | _ => f.acc == .rw && [6, 7, 9, 10, 11, 12, 18, 22, 23, 26].contains r.group

/-- What stays in place beside the save list: fields of class I (R479); and state that the rules of its own chapter leave
only on events that are no power transition: the start, the fences, the replacement states, the ring position, the trip,
the identities of the image, the states of ports and slices (R476), and what training and discovery left. -/
def RegInfo.stays (r : RegInfo) (f : FieldInfo) : Bool :=
  f.cls == .i ||
  match r.name with
  | .PHY_STATUS => f.lo == 16 || f.lo == 0
  | .PHY_RATE | .PHY_IMP | .SCH_RFM | .ECC_REPAIR_RES => true
  | .PRT_STATUS | .CCH_STATUS => f.lo == 30
  | .HBR_STATUS | .HBR_REASON | .HBR_CH_STATUS | .MOD_STATE | .NVM_STATUS | .AUD_STATUS | .AUD_WRAPS => true
  | .MOD_RPL_STATUS => f.acc == .ro
  | .FLT_FENCE_SUB | .FLT_FENCE_SLICE | .FLT_FENCE_PORT | .FLT_FENCE_IN_SUB | .FLT_FENCE_IN_SLICE
  | .FLT_FENCE_IN_PORT => true
  | .IMG_STATUS => f.acc == .ro
  | .IMG_LOADED_ID | .IMG_RELOAD_ID | .IMG_RELOAD_CNT | .SNT_PRESENT_LO | .SNT_PRESENT_HI | .EDT_SET_STATUS => true
  | .PWR_STATUS | .PWR_CH_STATUS | .PWR_CMD_STATUS => true
  | .THM_STATUS => f.acc == .ro
  | .TIM_STATUS => f.acc == .ro
  | .TIM_RATE | .TIM_UNIT_ID | .ARB_PREC_ACTIVE => true
  | _ => false

/-- Return the fields for which `p` holds to their reset values. -/
def Block.loseRegs (b : Block) (p : RegInfo → List Nat → FieldInfo → Bool) : Block :=
  { b with regs := b.regs.filter (fun e =>
      match findReg (e.1 / 32) with
      | some (r, idx) =>
        (match r.fields.find? (fun f => f.lo == e.1 % 32) with
         | some f => !(p r idx f)
         | none => true)
      | none => true) }

/-- A register of a channel domain (R580): the SCH, CLS, PHY and CAL groups. -/
def RegInfo.inChannel (r : RegInfo) : Bool := [11, 12, 14, 15].contains r.group

/-- Subchannel of a channel-domain register. -/
def subOfIdx (idx : List Nat) : Nat := idx.headD 64

/-! ## A channel domain off and on (R465, R477, R478) -/

/-- Forget tracking state of a subchannel that is not saved. -/
def Block.calForget (b : Block) (s : Nat) (all : Bool) : Block :=
  { b with cal := { b.cal with
      lanes := b.cal.lanes.filter (fun e => e.1 / 64 != s)
      band := b.cal.band.filter (fun e => e.1 / 8 != s)
      resid := if all then b.cal.resid.filter (fun e => e.1 / 512 != s) else b.cal.resid
      oscBase := if all then b.cal.oscBase.filter (fun e => e.1 / 128 != s) else b.cal.oscBase } }

/-- The domain of channel `n` goes off, which ends what still runs on its subchannels (R317, R337, R395): with `keep` its items of the save list are kept, otherwise nothing is. -/
def Block.chOff (b : Block) (n : Nat) (keep : Bool) : Block :=
  let b := forEach [2 * n, 2 * n + 1] b (fun b s => b.subStops Block.event s)
  let b := b.loseRegs (fun r idx f =>
    r.inChannel && subOfIdx idx / 2 == n && f.cls != .i && !(keep && (r.saved f || r.stays f)))
  let b := { b with pwr := { b.pwr with target := b.pwr.target.set n none } }
  let b := b.wr (PWR_CH_STATUS_MOVING n) 0
  forEach [2 * n, 2 * n + 1] b (fun b s =>
    let b := b.calForget s (!keep)
    b.updSub s (fun u => { (default : SubSt) with
      sntQ := if keep then u.sntQ else [], selfRef := List.range (b.subRanks s), ckStop := true }))

/-- A save-list item or array that cannot be used (R478, R479). -/
def Block.restoreErr (b : Block) (kind : Nat) : Block :=
  ((b.wr PWR_STATUS_RESTORE_ERR 1).intr 22 (b.bit PWR_CTL_INT_EN 3)).event
    { code := 4, kind := kind, form := 1, addr := 0, unit_ := .none, sev := if kind = 1 then some 3 else none }

/-- The clause memory of a subchannel is loaded again from the store at its saved slot and bin; without a good store copy
it stays empty and the subchannel issues nothing. -/
def Block.clauseRestore (b : Block) (s : Nat) : Block :=
  let bin := b.rd (CLS_STATUS_ACTIVE_BIN s)
  let slot := b.rd (CLS_STATUS_ACTIVE_SLOT s)
  let text := b.sec tyClauses bin
  if text.isEmpty || !b.storeOk bin then b.updSub s (fun u => { u with noSet := true })
  else
    let f := clsSlotFlds s slot
    let b := ((b.wr f.1 1).wr f.2.1 0).wr f.2.2 bin
    (b.updSub s (fun u => { u with slots := u.slots.set slot text })).activate s bin

/-- The save-list items of a subchannel are restored; a failed one is not used (R478). -/
def Block.restoreSub (b : Block) (s : Nat) (e : RestoreErr) : Block :=
  let lose (b : Block) (p : RegInfo → Bool) : Block :=
    (b.loseRegs (fun r idx f => r.inChannel && subOfIdx idx == s && r.saved f && p r)).restoreErr 0
  let b := if e.phy.getLsbD s then lose b (fun r => r.group == 14) else b
  let b := if e.cal.getLsbD s then
      { (lose b (fun r => r.group == 15)).calForget s true with
        cal := { b.cal with sets := b.cal.sets.filter (fun x => x.1 / 8 != s) } }
    else b
  let b := if e.sch.getLsbD s then lose b (fun r => r.group == 11 || r.group == 12) else b
  (b.wr (PHY_STATUS_LOCKED s) 1).clauseRestore s

/-- Channel `n` accepts work again (R465): out of standby and self-refresh with CK running, tracking resumed at the target,
ticks restarted; SNT_SRX of the active bin runs. A fenced subchannel stays in self-refresh. -/
def Block.chWakeUp (b : Block) (n : Nat) : Block :=
  let ss := [2 * n, 2 * n + 1].filter (fun s => !b.subFenced s)
  let b := b.powerSrx n
  let b := if ss.isEmpty then b
    else (b.wr (PHY_STATUS_CK_RUNNING (2 * n)) 1).wr (PHY_STATUS_CK_RUNNING (2 * n + 1)) 1
  forEach ss b (fun b s =>
    let b := (b.updSub s (fun u => { u with selfRef := [], ckStop := false })).restartTicks s
    b.trackJump s)

/-- The end of an exit of channel `n` from state `st`. -/
def Block.chReturn (b : Block) (n st : Nat) (e : RestoreErr) : Block :=
  let ss := [2 * n, 2 * n + 1]
  let b := if st = pwS2 then forEach ss b (fun b s => b.restoreSub s e) else b
  let b := if st = pwS1 ∨ st = pwS2 then b.chWakeUp n else b.powerDown n false
  let b := { b with pwr := { b.pwr with target := b.pwr.target.set n none, chWake := b.pwr.chWake.set n false } }
  let b := (b.wr (PWR_CH_STATUS_STATE n) pwA0).wr (PWR_CH_STATUS_MOVING n) 0
  if st = pwS2 then
    forEach (ss.filter (fun s => e.phy.getLsbD s || e.cal.getLsbD s)) b (fun b s =>
      (b.wr (SCH_CTL_QUIESCE s) 1).trainAsk s 0x7FE .speed)
  else b

/-! ## Bias and assist (R480, R481, R550) -/

/-- State record `k` of the section in force: A0, A1, S1, S3. -/
def Block.biasOf (b : Block) (k : Nat) : BiasRec :=
  let t := b.sec tyThermal 0
  let o := 0x40 + 8 * k
  { logic := toSigned 8 (leAt t o 1), sram := toSigned 8 (leAt t (o + 1) 1), assist := leAt t (o + 2) 1 % 8
    mv := leAt t (o + 4) 2 }

/-- The record the core takes (R481). -/
def Block.coreRecord (b : Block) : Nat :=
  if b.pwr.inS3 then 3
  else if (List.range 16).any (fun n => b.chEnabled n && b.chState n == pwA0) then 0 else 1

/-- PWR_SRAM_CODE of a level. -/
def sramCodeOf (mv : Nat) : Nat := (mv - 700) / 5 % 64

/-- A state transition takes the record of the core's state (R481, R550): a higher level is asked for first and the biases
follow its acknowledgement; at a lower level the biases come first. -/
def Block.biasStep (b : Block) : Block :=
  let r := b.biasOf b.coreRecord
  let p := b.pwr
  if r.mv > p.bias.mv then { b with pwr := { p with biasNext := some r, sramCode := sramCodeOf r.mv } }
  else { b with pwr := { p with bias := r, biasNext := none, sramCode := sramCodeOf r.mv } }

/-- PWR_SRAM_ACK rises at the new level: the new bias and assist values are applied. -/
def Block.sramAck (b : Block) : Block :=
  match b.pwr.biasNext with
  | some r => { b with pwr := { b.pwr with bias := r, biasNext := none } }
  | none => b

/-- SRAM_ACK (R550). -/
def execSramAck (s : State) : Out := onBlock s Block.sramAck

/-- No acknowledgement within 20 µs: the previous record stays in force, its level requested again. -/
def Block.sramLate (b : Block) : Block :=
  match b.pwr.biasNext with
  | some _ => ({ b with pwr := { b.pwr with biasNext := none, sramCode := sramCodeOf b.pwr.bias.mv } }).eventPlain 4 0 0
  | none => b

/-- SRAM_ACK_TIMEOUT (R550). -/
def execSramAckTimeout (s : State) : Out := onBlock s Block.sramLate

end Sys2Proof.Machine
end

