-- ==== Sys2Proof/Machine/Replace.lean ====
section
/-! DEFINITION. Hot replacement of a channel's modules (R418 to R422): RELEASE, ATTACH and RESUME, and the slot of the
scheduler, after which a drain of RELEASE may have ended. -/

namespace Sys2Proof.Machine

open Reg

/-- A refused command: its CODE, and nothing else. -/
def Block.rplRefuse (b : Block) (n code : Nat) : Block := b.wr (MOD_RPL_STATUS_CODE n) code

/-- A command ends well. -/
def Block.rplEnd (b : Block) (n state : Nat) : Block :=
  let b := { b with mod := { b.mod with phase := b.mod.phase.set n 0 } }
  let b := (b.wr (MOD_RPL_STATUS_STATE n) state).wr (MOD_RPL_STATUS_CODE n) 0
  (b.wr MOD_STATUS_RPL_END 1).intr 26 (b.bit MOD_CTL_INT_EN 2)

/-- Phase of a replacement command. -/
def Block.rplPhase (b : Block) (n p : Nat) : Block := { b with mod := { b.mod with phase := b.mod.phase.set n p } }

/-! ## RELEASE (R419) -/

/-- The channels of an interleave set. -/
def Block.setChans (b : Block) (k : Nat) : List Nat := (List.range (2 ^ b.ivsLog2 k)).map (fun j => b.ivsChan k j)

/-- The extents a job reads or writes by DPA. -/
def Block.jobExtents (b : Block) (j : BitVec 512) : List Nat :=
  if jMode j then []
  else if jVerb j = vbMove then [jSrc j]
  else
    let span (a : Nat) : List Nat :=
      (List.range (b.extentOf (a + jLen j - 1) + 1 - b.extentOf a)).map (fun k => b.extentOf a + k)
    span (jSrc j) ++ (if jVerb j = vbCopy then span (jDst j) else [])

/-- The sets a job names by frame. -/
def jobSets (j : BitVec 512) : List Nat :=
  (if jMode j then (jFrame (jSrc j)).1 :: (if jVerb j = vbCopy then [(jFrame (jDst j)).1] else []) else [])
    ++ (if jVerb j = vbMove then [(jFrame (jDst j)).1] else [])

/-- The job of lane `n` has a frame on channel `c`: by a frame it names, or by a frame of an extent it names. A descriptor
that is not cached counts as naming the channel. -/
def Block.jobOnChan (b : Block) (n c : Nat) : Bool :=
  let l := b.tlane n
  let on (k : Nat) : Bool := (b.setChans k).contains c
  l.runs && ((jobSets l.job).any on || (b.jobExtents l.job).any (fun i =>
    match b.descCached i with
    | some d => (dNames d).any (fun f => on f.1)
    | none => true))

/-- Why a RELEASE is refused, 0 for none (R418, R419). -/
def Block.releaseCode (b : Block) (n : Nat) : Nat :=
  let st := b.rplState n
  if !(st == rpInService || st == rpAttached || st == rpFailed) then 1
  else if b.sliceState n ≠ 2 then 2
  else if (List.range 4).any (fun l => b.jobOnChan l n) then 3
  else if b.harbour then 4
  else 0

/-- Steps 2 to 6: the fences, the ledgers, self-refresh, and the request for power-off. -/
def Block.releaseOff (b : Block) (n : Nat) : Block :=
  let b := b.fenceChannel n
  let b := forEach [2 * n, 2 * n + 1] b (fun b s => b.subStops Block.event s)
  let b := forEach [2 * n, 2 * n + 1] b (fun b m => if decide (m % 2 < b.chDimms n) then b.storeLedger m else b)
  let b := forEach [2 * n, 2 * n + 1] b (fun b s => b.updSub s (fun u => { u with
    selfRef := List.range (b.subRanks s), ckStop := true, ticking := false, debt := []
    banks := u.banks.map (fun e => (e.1, { e.2 with row := none, due := false })) }))
  let b := (b.ckSettle n).rplPhase n 2
  { b with pwr := { b.pwr with chLow := b.pwr.chLow ||| (1 <<< n), modLow := b.pwr.modLow ||| (1 <<< n) } }

/-- Step 1 has ended: both subchannels are quiesced, or fenced. -/
def Block.releaseCheck (b : Block) (n : Nat) : Block :=
  if b.rplState n = rpReleasing ∧ b.mod.phase.get n = 1 ∧ [2 * n, 2 * n + 1].all (fun s => b.quiesced s || b.subFenced s)
  then b.releaseOff n else b

/-- RELEASE. -/
def Block.release (b : Block) (n : Nat) : Block :=
  let code := b.releaseCode n
  if code ≠ 0 then b.rplRefuse n code
  else
    let b := ((b.wr (MOD_RPL_STATUS_STATE n) rpReleasing).wr (MOD_RPL_STATUS_CODE n) 0).rplPhase n 1
    let b := if b.subFenced (2 * n) && b.subFenced (2 * n + 1) then b
      else forEach [2 * n, 2 * n + 1] b (fun b s => b.wr (SCH_CTL_QUIESCE s) 1)
    b.releaseCheck n

/-- RELEASE_DRAIN_TIMEOUT (R419). -/
def Block.releaseLate (b : Block) (n : Nat) : Block :=
  if b.rplState n = rpReleasing ∧ b.mod.phase.get n = 1 then (b.wr (MOD_RPL_STATUS_DRAIN_LOST n) 1).releaseOff n else b

/-- RELEASE_DRAIN_TIMEOUT (R419). -/
def execReleaseDrainTimeout (n : Fin 16) (s : State) : Out := onBlock s (fun b => b.releaseLate n)

/-- The power manager acknowledges power-off (R419, R548): the channel is OFF, and what its modules held in force by power
alone is lost (R393). -/
def Block.releasedOff (b : Block) (n : Nat) : Block :=
  if b.rplState n = rpReleasing ∧ b.mod.phase.get n = 2 then
    let b := (b.chOff n false).wr (PWR_CH_STATUS_STATE n) pwOFF
    let b := { b with
      pwr := { b.pwr with chBad := b.pwr.chBad ||| (1 <<< n), modBad := b.pwr.modBad ||| (1 <<< n)
                          chWake := b.pwr.chWake.set n false }
      ecc := { b.ecc with soft := b.ecc.soft.filter (fun e => e.1 / 16 != n) } }
    let b := (b.updLedger (2 * n) (fun l => { l with soft := 0 })).updLedger (2 * n + 1) (fun l => { l with soft := 0 })
    (b.rplEnd n rpReleased).biasStep
  else b

/-- RELEASE_POWER_OFF_ACK (R419). -/
def execReleasePowerOffAck (n : Fin 16) (s : State) : Out := onBlock s (fun b => b.releasedOff n)

/-- SCHEDULER_SLOT (R260): `mrr` is the byte that an MRR issued in the slot returns, `row` what a read of the training row
by a sentence gives, and `upset` an uncorrectable error of the queue entry that would issue (R377). The drain of a RELEASE ends when both
subchannels are quiesced (R419). -/
def execSchedulerSlot (i : Fin 32) (x : SlotSight) (s : State) : Out :=
  onBlock s (fun b => (b.slotRun i x.mrr.toNat x.row x.upset).releaseCheck (i.val / 2))

/-! ## ATTACH and RESUME (R420, R421) -/

/-- ATTACH: power is requested. -/
def Block.attach (b : Block) (n : Nat) : Block :=
  if b.rplState n ≠ rpReleased then b.rplRefuse n 1
  else
    let b := ((b.wr (MOD_RPL_STATUS_STATE n) rpAttaching).wr (MOD_RPL_STATUS_CODE n) 0).rplPhase n 3
    { b with pwr := { b.pwr with chLow := maskDrop b.pwr.chLow n, modLow := maskDrop b.pwr.modLow n } }

/-- Power-good: the channel is in A0, and its slots are discovered. -/
def Block.attachPower (b : Block) (n : Nat) : Block :=
  if b.rplState n = rpAttaching ∧ b.mod.phase.get n = 3 then
    let b := { b with pwr := { b.pwr with chBad := maskDrop b.pwr.chBad n, modBad := maskDrop b.pwr.modBad n } }
    let b := (b.wr (PWR_CH_STATUS_STATE n) pwA0).rplPhase n 4
    let slots := [2 * n, 2 * n + 1].filter (fun m => decide (m % 2 < b.chDimms n))
    let b := { b with mod := { b.mod with wait := slots.foldl (fun w m => w ||| (1 <<< m)) b.mod.wait } }
    (if slots.isEmpty then b.attachTrain n else b).biasStep
  else b

/-- ATTACH_POWER_GOOD (R420). -/
def execAttachPowerGood (n : Fin 16) (s : State) : Out := onBlock s (fun b => b.attachPower n)

/-- ATTACH_POWER_TIMEOUT (R420): FAILED with CODE NO_POWER. -/
def execAttachPowerTimeout (n : Fin 16) (s : State) : Out :=
  onBlock s (fun b =>
    if b.rplState n = rpAttaching ∧ b.mod.phase.get n.val = 3 then b.rplFail Block.event n 5 else b)

/-- RESUME (R421): the fences clear by block action, whatever the replacement state; a raised FENCE input keeps its own
(R517). -/
def Block.rplResume (b : Block) (n : Nat) : Block :=
  if b.rplState n ≠ rpAttached then b.rplRefuse n 1
  else
    let b := b.rplEnd n rpInService
    let b := forEach [2 * n, 2 * n + 1] b (fun b s => b.wr (SCH_CTL_QUIESCE s) 0)
    let held := [2 * n, 2 * n + 1].any (fun s => b.bit FLT_FENCE_IN_SUB_U s)
    if b.chLockstep n then
      if held then b else (b.fenceDrop .sub (2 * n + 1) causeAction 0).clearOne .sub (2 * n) causeAction 0
    else forEach [2 * n, 2 * n + 1] b (fun b s =>
      if b.bit FLT_FENCE_IN_SUB_U s then b else b.clearOne .sub s causeAction 0)

/-- A write of MOD_RPL_CTL (R418, R422). -/
def Block.rplGo (b : Block) (n cmd : Nat) : Block :=
  if cmd = 0 then b
  else if b.rplState n = rpReleasing ∨ b.rplState n = rpAttaching then b.wr (MOD_RPL_STATUS_OVERRUN n) 1
  else if cmd = 1 then b.release n
  else if cmd = 2 then b.attach n
  else b.rplResume n

end Sys2Proof.Machine
end

