-- ==== Sys2Proof/Machine/Image.lean ====
section
/-! DEFINITION. The image loader (03): the stream and its checks (R64 to R69, R80 to R82, R587), the contents of each
section, the cross-checks (R78), the light list (R79), the verdict, and the applies (R86 to R92). -/

namespace Sys2Proof.Machine

open Reg

/-- Image states of IMG_STATUS.STATE. -/
def imReceiving : Nat := 1
/-- CHECKING. -/
def imChecking : Nat := 2
/-- AWAIT_SIG. -/
def imAwait : Nat := 3
/-- APPLYING. -/
def imApplying : Nat := 4
/-- DONE. -/
def imDone : Nat := 5
/-- FAILED. -/
def imFailed : Nat := 6
/-- CHECKED. -/
def imChecked : Nat := 7

/-- IMG_STATUS.STATE. -/
def Block.imState (b : Block) : Nat := b.rd IMG_STATUS_STATE

/-! ## The end of a load (R85, R87, R94) -/

/-- KIND of the image in progress; 0 before the header was accepted. -/
def Block.imKind (b : Block) : Nat := if 64 ≤ b.img.bytes.length then leAt b.img.bytes 0x10 4 % 2 else 0

/-- A load ends in a state with a CODE: the registers, the KIND 1 record and the interrupt. `old` is the identity before
the load. The bytes of an accepted header are kept, for a later history entry. -/
def Block.imEnd (b : Block) (state code index detail offset old : Nat) : Block :=
  let kind := b.imKind
  let b := (b.wr IMG_STATUS_STATE state).wr IMG_STATUS_CODE code
  let b := b.wr IMG_STATUS_INDEX index
  let b := (b.wr IMG_DETAIL_DETAIL detail).wr IMG_DETAIL_OFFSET offset
  let b := b.audOwn 0 { time := b.now, kind := 1, role := b.img.role, outcome := if code = 0 then 0 else 6
                        offset := code + kind * 2 ^ 8 + state * 2 ^ 9, old := old, new := b.imageId }
  let b := { b with img := { b.img with bytes := b.img.bytes.take 64, verdict := none, lightWait := false } }
  b.intr 1 (b.on IMG_CTL_INT_END)

/-- A load fails; at start the start fails with it (R87). -/
def Block.imFail (b : Block) (code index detail offset : Nat) : Block :=
  let old := if b.imKind = 1 then b.rd IMG_RELOAD_ID_VAL else b.rd IMG_LOADED_ID_VAL
  let b := b.imEnd imFailed code index detail offset old
  if b.rd HBR_STATUS_STATE = 1 then b.startFail (if code = 14 ∨ code = 15 then 2 else 1) 0 code else b

/-! ## Header (R64, R65, R587) -/

/-- SIG_OFFSET of the image being loaded. -/
def imSig (bs : List Byte) : Nat := leAt bs 0x20 4
/-- LENGTH. -/
def imLen (bs : List Byte) : Nat := leAt bs 0x0C 4
/-- SECTION_COUNT. -/
def imCount (bs : List Byte) : Nat := leAt bs 0x14 4
/-- End of the directory. -/
def imDirEnd (bs : List Byte) : Nat := 0x40 + 16 * imCount bs

/-- The KIND that the block's state allows (R86, R88, R89). -/
def Block.imWants (b : Block) : Nat := if b.rd HBR_STATUS_STATE = 2 then 1 else 0

/-- CODE of the header checks, in the order of R587; 0 where all pass. A directory that would reach SIG_OFFSET leaves no
SECTION_COUNT right. -/
def headerCode (bs : List Byte) (major minor wants : Nat) : Nat :=
  let rev := leAt bs 8 4
  let len := imLen bs
  let sig := imSig bs
  let sigLen := leAt bs 0x24 4
  let kind := leAt bs 0x10 4
  if leAt bs 0 4 ≠ 0x534E4641 then 1
  else if leAt bs 6 2 ≠ 1 ∨ leAt bs 0x28 16 ≠ 0 then 2
  else if bitsOf rev 31 16 ≠ 0 ∨ bitsOf rev 15 8 ≠ major ∨ minor < bitsOf rev 7 0 then 3
  else if len % 64 ≠ 0 ∨ len < 256 ∨ 1048576 < len ∨ sig % 64 ≠ 0 ∨ sigLen < 64 ∨ 4096 < sigLen ∨ sig + sigLen ≠ len then 4
  else if 1 < kind then 2
  else if kind ≠ wants then 16
  else if imCount bs = 0 ∨ 32 < imCount bs ∨ sig < imDirEnd bs then 8
  else 0

/-! ## Directory (R66 to R69) -/

/-- A directory entry. -/
structure DirEnt where
  type  : Nat
  inst  : Nat
  flags : Nat
  off   : Nat
  len   : Nat
  crc   : Nat
  deriving DecidableEq, Repr, Inhabited

/-- The directory of an image. -/
def dirOf (bs : List Byte) : List DirEnt :=
  (List.range (imCount bs)).map (fun i =>
    let d := 0x40 + 16 * i
    { type := leAt bs d 2, inst := leAt bs (d + 2) 1, flags := leAt bs (d + 3) 1, off := leAt bs (d + 4) 4
      len := leAt bs (d + 8) 4, crc := leAt bs (d + 12) 4 })

/-- The table of R68: instances, maximum LENGTH, and whether the type is reloadable. -/
def typeInfo : Nat → Option (Nat × Nat × Bool)
  | 0x01 => some (1, 1024, false)
  | 0x02 => some (8, 512, false)
  | 0x03 => some (1, 64, false)
  | 0x04 => some (1, 256, false)
  | 0x05 => some (1, 131072, false)
  | 0x06 => some (1, 64, false)
  | 0x07 => some (1, 256, false)
  | 0x08 => some (1, 1024, false)
  | 0x09 => some (1, 65536, false)
  | 0x10 => some (16, 1088, true)
  | 0x11 => some (64, 2064, true)
  | 0x12 => some (1, 4096, true)
  | 0x13 => some (1, 512, true)
  | 0x14 => some (1, 2312, true)
  | _ => none

/-- The types that every start image holds. -/
def requiredTypes : List Nat := [1, 2, 3, 4, 5, 6, 7, 8, 9, 0x12, 0x13, 0x14]

/-- The next multiple of 64. -/
def up64 (n : Nat) : Nat := ceilDiv n 64 * 64

/-- The first failure of entry `i`, which follows the entries `before` and byte `prev`: CODE and INDEX. -/
def entryCode (e : DirEnt) (i kind sig prev : Nat) (before : List DirEnt) : Option (Nat × Nat) :=
  let info := typeInfo e.type
  let badFlags := decide (2 ≤ e.flags) || (match info with
    | some (_, _, r) => (e.flags == 1) != r
    | none => false)
  let maxLen := match info with
    | some (_, m, _) => m
    | none => 65536
  let badType := match info with
    | some (n, _, _) => decide (n ≤ e.inst)
    | none => decide (e.type < 0x8000)
  if badType then some (9, i)
  else if badFlags || decide (maxLen < e.len) || e.off % 64 != 0 || decide (sig < e.off + e.len)
      || (i == 0 && e.off != up64 prev) || decide (e.off < prev)
      || before.any (fun x => x.type == e.type && x.inst == e.inst) then some (8, i)
  else match info with
    | some (_, _, false) => if kind = 1 then some (16, 0xFF) else none
    | _ => none

/-- The directory checks over the entries from index `i`. -/
def dirWalk (kind sig : Nat) : List DirEnt → Nat → Nat → List DirEnt → Option (Nat × Nat)
  | [], _, _, _ => none
  | e :: t, i, prev, before =>
    match entryCode e i kind sig prev before with
    | some c => some c
    | none => dirWalk kind sig t (i + 1) (e.off + e.len) (e :: before)

/-- The directory checks (R82 step 2): CODE and INDEX of the first failure. -/
def dirCode (bs : List Byte) : Option (Nat × Nat) :=
  let kind := leAt bs 0x10 4
  match dirWalk kind (imSig bs) (dirOf bs) 0 (imDirEnd bs) [] with
  | some c => some c
  | none => if kind = 0 ∧ requiredTypes.any (fun t => !(dirOf bs).any (fun e => e.type == t)) then some (10, 0xFF) else none

/-- The section that padding byte `k` belongs to: the section that follows it, or the last (R94); none inside a section. -/
def padOwner (bs : List Byte) (k : Nat) : Option Nat :=
  let ds := dirOf bs
  if k < imDirEnd bs ∨ imSig bs ≤ k ∨ ds.any (fun e => decide (e.off ≤ k) && decide (k < e.off + e.len)) then none
  else match (List.range ds.length).find? (fun i => match ds[i]? with
      | some e => decide (k < e.off)
      | none => false) with
    | some i => some i
    | none => some (ds.length - 1)

/-- The first section that ends at byte count `n` and whose CRC is wrong. -/
def crcBad (bs : List Byte) (n : Nat) : Option Nat :=
  let ds := dirOf bs
  (List.range ds.length).find? (fun i => match ds[i]? with
    | some e => e.off + e.len == n && crc32 ((bs.drop e.off).take e.len) != e.crc
    | none => false)

/-- IMAGE_CRC is right (R64). -/
def imageCrcOk (bs : List Byte) : Bool :=
  crc64 (bs.take 0x38 ++ (bs.take (imSig bs)).drop 0x40) == leAt bs 0x38 8

/-- One byte of the stream is accepted, with the checks that it completes (R82 steps 1 to 4). -/
def Block.imByte (b : Block) (x : Byte) : Block :=
  if b.imState ≠ imReceiving then b
  else
    let k := b.img.bytes.length
    let bs := b.img.bytes ++ [x]
    let b := { b with img := { b.img with bytes := bs } }
    if k + 1 < 64 then b
    else
      let hc := if k + 1 = 64 then headerCode bs (b.rd GLB_REV_MAJOR) (b.rd GLB_REV_MINOR) b.imWants else 0
      if hc ≠ 0 then ({ b with img := { b.img with bytes := bs.take 60 } }).imFail hc 0xFF 0 0
      else if k + 1 < imDirEnd bs then b
      else match (if k + 1 = imDirEnd bs then dirCode bs else none) with
        | some (c, i) => b.imFail c i 0 0
        | none =>
          match (if x ≠ 0 then padOwner bs k else none) with
          | some i => b.imFail 8 i 0 0
          | none =>
            match crcBad bs (k + 1) with
            | some i => b.imFail 7 i 0 0
            | none =>
              if k + 1 = imLen bs then
                if imageCrcOk bs then b.wr IMG_STATUS_STATE imChecking else b.imFail 6 0xFF 0 0
              else b

/-- A word written to the image load window at byte offset `off` of the window (R80); none where it is ignored. -/
def Block.imWindow (b : Block) (off : Nat) (w : Word) : Option Block :=
  if b.imState ≠ imReceiving ∨ b.rd HBR_STATUS_STATE = 3 then none
  else if off ≠ b.rd IMG_COUNT_VAL then some (b.imFail 5 0xFF 0 0)
  else
    let b := b.wr IMG_COUNT_VAL (off + 4)
    some (forEach (leBytes 4 w.toNat) b Block.imByte)

/-! ## OPEN and ABORT (R84) -/

/-- A load is in progress. -/
def Block.imBusy (b : Block) : Bool := decide (imReceiving ≤ b.imState) && decide (b.imState ≤ imApplying)

/-- Loads open at step 4 of start, while the start has not failed, after READY, and in harbour mode (R86 to R89, R495). -/
def Block.imMayOpen (b : Block) : Bool :=
  let st := b.rd HBR_STATUS_STATE
  (st == 1 && b.rd HBR_STATUS_STEP == 4) || st == 2 || st == 4

/-- IMG_CTL.OPEN. -/
def Block.imOpen (b : Block) (role : Nat) : Block :=
  if b.imBusy then b.wr IMG_STATUS_OPEN_REFUSED 1
  else if !b.imMayOpen then b
  else
    let b := { b with img := { b.img with bytes := [], verdict := none, role := role, lightWait := false } }
    let b := ((b.wr IMG_COUNT_VAL 0).wr IMG_STATUS_STATE imReceiving).wr IMG_STATUS_CODE 0
    ((b.wr IMG_STATUS_INDEX 0xFF).wr IMG_DETAIL_DETAIL 0).wr IMG_DETAIL_OFFSET 0

/-- The load in progress fails with ABORTED; without effect in APPLYING and where no load runs (R84, R93). -/
def Block.imAbort (b : Block) : Block :=
  if b.imBusy && b.imState != imApplying then b.imFail 18 0xFF 0 0 else b

/-! ## Contents of the sections -/

/-- The offset of the first field that is wrong. -/
def firstBad : List (Nat × Bool) → Option Nat
  | [] => none
  | (o, ok) :: t => if ok then firstBad t else some o

/-- `n` bytes at `off` are zero. -/
def zeroAt (bs : List Byte) (off n : Nat) : Bool := leAt bs off n == 0

/-- A value lies within bounds. -/
def within (lo v hi : Nat) : Bool := decide (lo ≤ v) && decide (v ≤ hi)

/-- TOPOLOGY (R70). -/
def topologyBad (bs : List Byte) : Option Nat :=
  firstBad ([(0, bs.length == 0x128)] ++ ((List.range 16).map (fun n =>
      let o := 16 * n
      let v (i : Nat) : Nat := leAt bs (o + i) 1
      (o, decide (v 0 < 8)) :: (if bitOf (v 0) 0 then
        [(o + 1, decide (v 1 ≤ 2)), (o + 2, within 1 (v 2) 2), (o + 3, v 3 == 1 || v 3 == 2 || v 3 == 4),
         (o + 4, decide (v 4 ≤ 7)), (o + 5, decide (v 5 ≤ 15)), (o + 8, within 1 (leAt bs (o + 8) 2) 256),
         (o + 10, zeroAt bs (o + 10) 6)] else []))).flatten
    ++ (List.range 8).map (fun g => (0x100 + 4 * g, decide (leAt bs (0x100 + 4 * g) 4 < 4)))
    ++ [(0x120, within 1 (bitsOf (leAt bs 0x120 4) 4 0) 16), (0x124, decide (leAt bs 0x124 4 < 2 ^ 12))])

/-- The channels of the slots of a set. -/
def Block.ivsChans (c : Block) (k : Nat) : List Nat := (List.range (2 ^ c.ivsLog2 k)).map (c.ivsChan k)

/-- INTERLEAVE of set `k` (R98 to R100), in the candidate image `c`. -/
def Block.interleaveBad (c : Block) (k : Nat) : Option Nat :=
  let bs := c.sec tyInterleave k
  let ctl := c.ivsCtl k
  let gran := 2 ^ (28 + 2 * bitsOf (leAt (c.sec tyEdt 0) 0 4) 1 0)
  let n := 2 ^ c.ivsLog2 k
  let base := c.ivsBase k
  let limit := c.ivsLimit k
  let slot (j : Nat) : Nat := c.ivsChan k j
  let sel (t : Nat) : Nat := c.ivsSel k t
  let m := log2Of 46 ((limit - base) / n)
  let named := ((List.range 34).map sel).filter (fun v => v != 0x3F)
  let chans := (c.ivsChans k).filter c.chEnabled
  let lock := chans.any c.chLockstep
  let ranks := ((List.range 3).filter (fun i => sel (1 + i) != 0x3F)).length
  firstBad ([(0, bs.length == 0x50),
      (0, bitOf ctl 3 == false && bitOf ctl 7 == false && bitsOf ctl 11 9 == 0 && bitsOf ctl 31 14 == 0
        && decide (c.ivsLog2 k ≤ 4) && decide (bitsOf ctl 6 4 ≤ 4)),
      (4, zeroAt bs 4 4), (8, base % gran == 0), (0x10, limit % gran == 0 && decide (base < limit))]
    ++ (List.range 16).map (fun j => (0x18 + j, if j < n then
        decide (slot j < 16) && (List.range j).all (fun i => slot i != slot j) else slot j == 0xFF))
    ++ (List.range 34).map (fun t => (0x28 + t, within 6 (sel t) 39 || sel t == 0x3F))
    ++ [(0x4A, zeroAt bs 0x4A 6), (0x10, limit - base == n * 2 ^ m && decide (m ≤ 40)),
      (0x28, (List.range 40).all (fun v => (named.filter (fun x => x == v)).length == (if 6 ≤ v ∧ v < m then 1 else 0)))]
    ++ (if lock then [(0x28, sel 0 == 6), (0x31, sel 9 == 7)] else [(0x31, sel 9 == 6), (0x32, sel 10 == 7)])
    ++ [(0x29, (List.range ranks).all (fun i => sel (1 + i) != 0x3F)),
      (0x29, chans.all (fun ch => decide (2 ^ ranks ≤ c.chDimms ch * c.chRanks ch))),
      (0x10, chans.all (fun ch => decide (2 ^ m ≤ c.chDimms ch * c.chCapacity ch * 2 ^ 30)))])

/-- SCRATCH_WAYS of a CACHE_PART section. -/
def Block.partScratch (c : Block) : Nat := bitsOf (leAt (c.sec tyCachePart 0) 0 4) 3 0
/-- PINNED_WAYS of a CACHE_PART section. -/
def Block.partPinned (c : Block) : Nat := bitsOf (leAt (c.sec tyCachePart 0) 0 4) 7 4
/-- GRANULE of an EDT section. -/
def Block.secGranule (c : Block) : Nat := bitsOf (leAt (c.sec tyEdt 0) 0 4) 1 0
/-- LOC of an EDT section. -/
def Block.secLoc (c : Block) : Bool := bitOf (leAt (c.sec tyEdt 0) 0 4) 8
/-- ENTRIES of an EDT section. -/
def Block.secEntries (c : Block) : Nat := leAt (c.sec tyEdt 0) 4 4
/-- BASE of an EDT section. -/
def Block.secBase (c : Block) : Nat := leAt (c.sec tyEdt 0) 8 8

/-- EDT (R104). -/
def Block.edtBad (c : Block) : Option Nat :=
  let ctl := leAt (c.sec tyEdt 0) 0 4
  firstBad [(0, (c.sec tyEdt 0).length == 0x10),
    (0, bitsOf ctl 7 2 == 0 && bitsOf ctl 31 9 == 0 && c.secGranule != 3),
    (4, within 1 c.secEntries 65536 && decide (c.secEntries ≤ 2 ^ (46 - (28 + 2 * c.secGranule)))),
    (8, !c.secLoc || (c.secBase % 4096 == 0 && decide (c.secBase + 64 * c.secEntries ≤ c.partScratch * 2 ^ 21)))]

/-- CACHE_PART (R215). -/
def cachePartBad (bs : List Byte) : Option Nat :=
  firstBad ([(0, bs.length == 0x20), (0, decide (leAt bs 0 4 < 256) && decide (bitsOf (leAt bs 0 4) 3 0 ≤ 12)
      && decide (bitsOf (leAt bs 0 4) 7 4 ≤ 14))]
    ++ (List.range 8).map (fun t => (4 + t, decide (leAt bs (4 + t) 1 ≤ 16)))
    ++ [(0x0C, decide (leAt bs 0x0C 4 < 64)), (0x10, decide (leAt bs 0x10 4 < 2 ^ 16)), (0x14, zeroAt bs 0x14 12)])

/-- The bounds of LIMIT entry `k` of a PHY_INIT section. -/
def limitOk (bs : List Byte) (k v : Nat) : Bool := within (leAt bs (0x60 + 4 * k) 2) v (leAt bs (0x62 + 4 * k) 2)

/-- One RECORD of PHY_INIT: reserved bytes, the CK words of subchannel B, and the plausible limits (R325). -/
def phyRecordBad (bs : List Byte) (s : Nat) : List (Nat × Bool) :=
  let o := 0x100 + 512 * s
  let w (off : Nat) : Nat := leAt bs (o + off) 4
  [(o + 0x1A0, zeroAt bs (o + 0x1A0) 96), (o + 0x198, s % 2 == 0 || leAt bs (o + 0x198) 8 == leAt bs (o - 512 + 0x198) 8)]
    ++ (List.range 40).map (fun l => (o + 8 * l, limitOk bs 4 (bitsOf (w (8 * l)) 7 0)
        && limitOk bs 7 (bitsOf (w (8 * l)) 27 24) && limitOk bs 8 (bitsOf (w (8 * l)) 31 28)))
    ++ (List.range 10).map (fun j => (o + 0x140 + 4 * j, limitOk bs 3 (bitsOf (w (0x140 + 4 * j)) 11 0)))
    ++ (List.range 8).map (fun j => (o + 0x168 + 4 * j, limitOk bs 0 (bitsOf (w (0x168 + 4 * j)) 7 0)))
    ++ (List.range 4).map (fun j => (o + 0x188 + 4 * j, limitOk bs 1 (bitsOf (w (0x188 + 4 * j)) 7 0)))
    ++ (List.range 2).map (fun j => (o + 0x198 + 4 * j, limitOk bs 2 (bitsOf (w (0x198 + 4 * j)) 7 0)))

/-- PHY_INIT (R325). -/
def phyInitBad (bs : List Byte) : Option Nat :=
  let v (i : Nat) : Nat := leAt bs i 1
  let steps := leAt bs 0x16 2
  firstBad ([(0, bs.length == 0x4100), (0, leAt bs 0 4 == 1), (4, decide (v 4 ≤ 2)), (5, decide (v 5 ≤ 7)),
      (6, decide (v 6 ≤ 2)), (7, within 1 (v 7) 8), (0x0F, v 0x0F == 1 || v 0x0F == 2 || v 0x0F == 4 || v 0x0F == 8),
      (0x13, decide (16 ≤ v 0x13)), (0x14, within 64 (leAt bs 0x14 2) 4096),
      (0x16, bitOf steps 1 && bitOf steps 4 && bitOf steps 10 && !bitOf steps 0 && decide (steps < 2 ^ 11)),
      (0x18, zeroAt bs 0x18 40)]
    ++ (List.range 8).map (fun p => (0x40 + 2 * p, v (0x41 + 2 * p) == 0))
    ++ [(0x50, zeroAt bs 0x50 16), (0x84, zeroAt bs 0x84 28), (0xA0, zeroAt bs 0xA0 96)]
    ++ ((List.range 32).map (phyRecordBad bs)).flatten)

/-- TEMP of point `i` in a CAL_POINTS section. -/
def calTemp (bs : List Byte) (i : Nat) : Int := toSigned 16 (leAt bs (2 * i) 2)

/-- CAL_POINTS (R351). -/
def calPointsBad (bs : List Byte) : Option Nat :=
  let v (i : Nat) : Nat := leAt bs i 1
  firstBad ([(0, bs.length == 0x20)]
    ++ (List.range 5).map (fun i => (2 * i, decide (-160 ≤ calTemp bs i) && decide (calTemp bs i ≤ 500)))
    ++ (List.range 4).map (fun i => (2 * i + 2, decide (40 ≤ (calTemp bs (i + 1) - calTemp bs i).natAbs)))
    ++ [(0x0A, within 1 (v 0x0A) 20), (0x0B, decide (1 ≤ v 0x0B)), (0x0C, within 1 (v 0x0C) 15), (0x0D, decide (v 0x0D ≤ 7)),
      (0x0E, decide (v 0x0E ≤ 3)), (0x0F, zeroAt bs 0x0F 17)])

/-- LEDGER_THRESH (R416). -/
def ledgerBad (bs : List Byte) : Option Nat :=
  let watch (o : Nat) : Bool := leAt bs (o + 2) 2 == 0 || decide (leAt bs o 2 ≤ leAt bs (o + 2) 2)
  firstBad [(0, bs.length == 0x40), (0, watch 0), (4, watch 4), (0x0B, decide (leAt bs 0x0B 1 ≤ 1)), (0x18, zeroAt bs 0x18 40)]

/-- ROLE_POLICY (R524). -/
def rolePolicyBad (bs : List Byte) : Option Nat :=
  firstBad ([(0, bs.length == 0x40), (0, leAt bs 0 4 == 1)]
    ++ [4, 8, 12].map (fun o => (o, decide (leAt bs o 4 < 2 ^ 27)))
    ++ [(4, bitOf (leAt bs 4 4) 1 && bitOf (leAt bs 4 4) 2), (0x10, zeroAt bs 0x10 48)])

/-- KEEPER_PROG (R74). -/
def keeperBad (bs : List Byte) : Option Nat :=
  let words := leAt bs 4 4
  firstBad ([(0, decide (64 ≤ bs.length)), (0, leAt bs 0 2 == 1), (4, within 1 words 16368 && bs.length == 64 + 4 * words)]
    ++ (List.range 8).map (fun k => (8 + 4 * k, decide (leAt bs (8 + 4 * k) 4 < words)))
    ++ [(0x28, (List.range 24).all (fun i => leAt bs (0x28 + i) 1 == 0xFF))])

/-- A class or group code of R286. -/
def classCode (c : Nat) : Bool := decide (c ≤ 18) || within 24 c 29

/-- A clause word within its encoding (R289). -/
def clauseWordOk (w : Nat) : Bool :=
  classCode (bitsOf w 4 0) && bitsOf w 7 5 == 0 && classCode (bitsOf w 12 8) && bitsOf w 15 13 == 0
  && decide (bitsOf w 18 16 ≤ 6) && bitOf w 19 == false && decide (1 ≤ bitsOf w 29 20) && bitOf w 31 == false
  && bitsOf w 63 36 == 0

/-- CLAUSES (R297). -/
def clausesBad (bs : List Byte) : Option Nat :=
  let rate := leAt bs 0 2
  let n := leAt bs 2 2
  let trefi := leAt bs 4 2
  firstBad ([(0, decide (64 ≤ bs.length)), (0, within 3200 rate 12800 && rate % 400 == 0),
      (2, within 1 n 128 && bs.length == 64 + 8 * n), (4, decide (1 ≤ trefi)), (6, within 1 (leAt bs 6 1) 8),
      (7, decide (leAt bs 7 1 ≤ 8)), (8, decide (leAt bs 8 2 ≤ trefi)), (0x0C, within 1 (leAt bs 0x0C 2) 1000),
      (0x12, decide (setInit bs ≤ 63)), (0x13, decide (setSre bs ≤ 63)), (0x14, decide (setSrx bs ≤ 63)),
      (0x15, decide (leAt bs 0x15 1 ≤ 63) || leAt bs 0x15 1 == 0xFF), (0x16, zeroAt bs 0x16 42)]
    ++ (List.range n).map (fun i => (64 + 8 * i, clauseWordOk (clauseWord bs i))))

/-- A step within its encoding (R311). -/
def stepOk (w : Nat) : Bool :=
  let op := stOp w
  let addr := bitsOf w 39 32
  let count := bitsOf w 57 48
  (decide (op ≤ 18) || op == 20 || op == 21 || op == 23) && bitsOf w 7 5 == 0 && decide (bitsOf w 11 8 ≤ 8)
  && bitsOf w 23 18 == 0 && bitsOf w 59 58 != 3 && bitsOf w 63 60 == 0
  && (if op = 0 ∨ op = 1 ∨ op = 3 ∨ op = 5 then decide (addr < 128)
      else op == 12 || op == 13 || op == 21 || addr == 0)
  && (if op = 21 then decide (1 ≤ count) else op == 20 || count == 0)
  && (op != 23 || decide (bitsOf w 31 24 ≤ 3))

/-- SENTENCES of instance `n` (R310). -/
def sentenceBad (bs : List Byte) (n : Nat) : Option Nat :=
  firstBad ([(0, decide (16 ≤ bs.length)), (0, leAt bs 0 1 == n), (1, decide (leAt bs 1 1 ≤ 1)),
      (2, within 1 (sntSteps bs) 256 && bs.length == 16 + 8 * sntSteps bs), (4, decide (sntHold bs ≤ 2)),
      (5, decide (sntKind bs ≤ 2)), (8, zeroAt bs 8 8)]
    ++ (List.range (sntSteps bs)).map (fun i => (16 + 8 * i, stepOk (sntStep bs i))))

/-- THERMAL_POWER (R480). -/
def thermalBad (bs : List Byte) : Option Nat :=
  let t (i : Nat) : Int := toSigned 16 (leAt bs (2 * i) 2)
  let v (i : Nat) : Nat := leAt bs i 1
  firstBad ([(0, bs.length == 0x100), (0, decide (t 0 < t 1)), (2, decide (t 1 < t 2)),
      (4, decide (400 ≤ t 2) && decide (t 2 ≤ 500)), (6, decide (t 3 < t 4)), (8, decide (t 4 ≤ 420)),
      (0x0A, within 1 (v 0x0A) 40), (0x0B, within 1 (v 0x0B) 15), (0x0C, within 1 (v 0x0C) 15), (0x0D, decide (16 ≤ v 0x0D)),
      (0x0E, within 1 (v 0x0E) 40), (0x0F, decide (v 0x0F ≤ 7)), (0x14, zeroAt bs 0x14 44)]
    ++ ((List.range 4).map (fun k =>
      let o := 0x40 + 8 * k
      let bias (i : Nat) : Bool := decide ((toSigned 8 (v (o + i))).natAbs ≤ 30)
      [(o, bias 0), (o + 1, bias 1), (o + 2, decide (v (o + 2) ≤ (if k = 3 then 7 else 3))), (o + 3, v (o + 3) == 0),
       (o + 4, within 800 (leAt bs (o + 4) 2) 950), (o + 6, zeroAt bs (o + 6) 2)])).flatten
    ++ [(0x60, zeroAt bs 0x60 160)])

/-- SEVERITY (R507). -/
def severityBad (bs : List Byte) : Option Nat :=
  firstBad ((0, bs.length == 0x60) :: (List.range 96).map (fun c => (c,
    match sourceDefault c with
    | some (v, true) => leAt bs c 1 == v
    | some (_, false) => decide (leAt bs c 1 < 4)
    | none => leAt bs c 1 == 0)))

/-- LIGHT_LIST (R76, R77): COUNT is [6:0] of the first word, and nothing is asked of its other bits. -/
def lightListBad (bs : List Byte) : Option Nat :=
  let n := lightCount bs
  let rec_ (r : Nat) : Nat := leAt bs (8 + 36 * r) 4
  firstBad ([(0, decide (8 ≤ bs.length) && decide (n ≤ 64)), (4, zeroAt bs 4 4), (0, bs.length == 8 + 36 * n)]
    ++ (List.range (min n 64)).map (fun r => (8 + 36 * r, decide (rec_ r < 64) && (List.range r).all (fun q => rec_ q != rec_ r))))

/-- The offset of the first wrong field of a section of the candidate image. -/
def Block.contentBad (c : Block) (e : DirEnt) : Option Nat :=
  let bs := c.sec e.type e.inst
  match e.type with
  | 0x01 => topologyBad bs
  | 0x02 => c.interleaveBad e.inst
  | 0x03 => c.edtBad
  | 0x04 => cachePartBad bs
  | 0x05 => phyInitBad bs
  | 0x06 => calPointsBad bs
  | 0x07 => ledgerBad bs
  | 0x08 => rolePolicyBad bs
  | 0x09 => keeperBad bs
  | 0x10 => clausesBad bs
  | 0x11 => sentenceBad bs e.inst
  | 0x12 => thermalBad bs
  | 0x13 => severityBad bs
  | 0x14 => lightListBad bs
  | _ => none

/-! ## Cross-checks (R78) -/

/-- The interleave sets a candidate image defines. -/
def Block.setsOf (c : Block) : List Nat := (List.range 8).filter (fun k => c.hasSec tyInterleave k)
/-- Its enabled channels. -/
def Block.enabledOf (c : Block) : List Nat := (List.range 16).filter c.chEnabled
/-- Its enabled channels that are not spare. -/
def Block.workersOf (c : Block) : List Nat := c.enabledOf.filter (fun n => !c.chSpare n)

/-- Highest MAX_RATE of a module type with a DIMM count (check 2). -/
def rateTop (type dimms : Nat) : Nat :=
  if type = 1 ∧ dimms = 1 then 8800 else if type = 1 ∧ dimms = 2 then 6400 else if type = 2 ∧ dimms = 1 then 12800 else 0

/-- The sentences a Keeper program names. -/
def keeperNames (prog : List Byte) : List Nat :=
  [Purpose.alert, Purpose.osc, Purpose.probe, Purpose.repair].map (fun p => Config.keeperSentence prog p.code % 64)

/-- The sentences a clause set names. -/
def setNames (bs : List Byte) : List Nat := [setInit bs, setSre bs, setSrx bs] ++ (if leAt bs 0x15 1 = 0xFF then [] else [leAt bs 0x15 1])

/-- The checks of R78 in DETAIL order: the first that fails. -/
def Block.crossCode (c : Block) : Option Nat :=
  let sets := c.setsOf
  let on := c.enabledOf
  let chans := c.ivsChans
  let tier (k : Nat) : Nat := bitsOf (c.ivsCtl k) 13 12
  let groupTier (n : Nat) : Nat := leAt (c.sec tyTopology 0) (0x100 + 4 * c.chGroup n) 4
  let names := keeperNames (c.sec tyKeeper 0)
    ++ ((List.range 16).map (fun i => if c.hasSec tyClauses i then setNames (c.sec tyClauses i) else [])).flatten
  let top := sets.foldl (fun m k => max m (c.ivsLimit k)) 0
  let temps := c.sec tyCalPoints 0
  firstBad [
    (1, !c.workersOf.isEmpty),
    (2, on.all (fun n => within 3200 (c.chMaxRate n) (rateTop (c.chModType n) (c.chDimms n)))),
    (3, sets.all (fun k => !(chans k).any c.chLockstep || (chans k).all c.chLockstep)),
    (4, sets.all (fun k => (chans k).all (fun n => c.chEnabled n
      && sets.all (fun j => j == k || !(chans j).contains n)))),
    (5, sets.all (fun k => !(chans k).any c.chSpare || (chans k).length == 1)),
    (6, sets.all (fun k => (chans k).all (fun n => groupTier n == tier k))),
    (7, sets.all (fun k => decide (c.ivsLimit k ≤ 0x3FFF00000000)
      && sets.all (fun j => j == k || decide (c.ivsLimit k ≤ c.ivsBase j) || decide (c.ivsLimit j ≤ c.ivsBase k)))),
    (8, on.all (fun n => c.hasSec tyClauses (c.chBin n))),
    (9, names.all (fun i => c.hasSec tySentences i)),
    (10, !c.secLoc || decide (c.secEntries * 64 ≤ c.partScratch * 2 ^ 21)),
    (11, c.secLoc || (c.secBase % 2 ^ 22 == 0 && sets.any (fun k => decide (c.ivsBase k ≤ c.secBase)
      && decide (c.secBase + 64 * c.secEntries ≤ c.ivsLimit k) && !(chans k).any c.chSpare))),
    (12, decide (top ≤ c.secEntries * 2 ^ (28 + 2 * c.secGranule))),
    (13, decide (c.partScratch + c.partPinned + 2 ≤ 16)),
    (14, decide (c.minChannels ≤ c.workersOf.length)
      && (List.range 16).all (fun n => !bitOf c.requiredMask n || c.workersOf.contains n)),
    (15, (List.range 4).all (fun i => decide (calTemp temps i < calTemp temps (i + 1))))]

/-! ## The light list of an image (R79) -/

/-- Refresh parameters a start image gives a subchannel. -/
def Block.imageRefPar (c : Block) (s : Nat) : Option RefPar :=
  let text := c.sec tyClauses (c.chBin (s / 2))
  if c.chEnabled (s / 2) && !text.isEmpty then
    some ⟨max 1 (setRate text), 2 * leAt text 4 2, leAt text 6 1, leAt text 7 1, leAt text 8 2⟩
  else none

/-- DETAIL and OFFSET of a light list that fails; none where it passes. A failure without any enabled REG_WINDOW entry names
no record. -/
def lightListCode (bs : List Byte) (par : Nat → Option RefPar) (reguOn : Bool) : Option (Nat × Nat) :=
  let t := lightTable bs
  let (code, idx) := lightJudge t par false reguOn
  if code = 0 then none
  else if code = 7 ∧ !((lightEnt t idx).armed && (lightEnt t idx).verb == 5) then some (code, 0)
  else
    let r := (List.range (lightCount bs)).find? (fun r => leAt bs (8 + 36 * r) 4 == idx)
    some (code, match r with
      | some r => 8 + 36 * r
      | none => 0)

/-! ## The checks after the stream (R82 step 5) -/

/-- The section CRCs that the clause store takes from an image, by bin (R298). -/
def imCrcs (bs : List Byte) (was : Tab Nat) : Tab Nat :=
  forEach ((dirOf bs).filter (fun e => e.type == tyClauses)) was (fun t e => t.set e.inst e.crc)

/-- The sections a directory lists, but the informational ones. -/
def imSecs (bs : List Byte) : Tab (List Byte) :=
  forEach ((dirOf bs).filter (fun e => decide (e.type < 0x8000))) ([] : Tab (List Byte))
    (fun t e => t.set (secKey e.type e.inst) ((bs.drop e.off).take e.len))

/-- The candidate image: its sections alone, so that every accessor of a section reads the image being checked. -/
def Block.candidate (b : Block) : Block := { b with img := { b.img with secs := imSecs b.img.bytes } }

/-- A subchannel runs its active set: it has been given one, and no halt with STORE_ERR has left it without (R90, R307). -/
def Block.runsSet (b : Block) (s : Nat) : Bool := !(b.activeSet s).isEmpty && !(b.subs.get s).noSet

/-- A clause set is running or about to run (R90). -/
def Block.setInUse (b : Block) (bin : Nat) : Bool :=
  (List.range 32).any (fun s => b.chEnabled (s / 2)
    && (b.runsSet s && b.rd (CLS_STATUS_ACTIVE_BIN s) == bin || (b.subs.get s).switchTo == some bin))

/-- The first failure of the content checks: CODE, INDEX, DETAIL and OFFSET. -/
def Block.imJudge (b : Block) : Option (Nat × Nat × Nat × Nat) :=
  let bs := b.img.bytes
  let c := b.candidate
  let ds := dirOf bs
  let ent (i : Nat) : DirEnt := ds.getD i default
  match (List.range ds.length).find? (fun i => (c.contentBad (ent i)).isSome) with
  | some i => some (11, i, 0, (c.contentBad (ent i)).getD 0)
  | none =>
    let lightAt := (List.range ds.length).find? (fun i => (ent i).type == tyLight)
    let judgeLight (par : Nat → Option RefPar) (on : Bool) : Option (Nat × Nat × Nat × Nat) :=
      match lightAt with
      | none => none
      | some i =>
        match lightListCode (c.sec tyLight 0) par on with
        | some (d, o) => some (13, i, d, o)
        | none => none
    if b.imKind = 0 then
      match c.crossCode with
      | some d => some (12, 0xFF, d, 0)
      | none => judgeLight c.imageRefPar false
    else
      match (List.range ds.length).find? (fun i => (ent i).type == tyClauses && b.setInUse (ent i).inst) with
      | some i => some (17, i, 0, 0)
      | none => judgeLight b.refPar (b.wk REGU_CTL_ENABLE != 0
          || (b.on REGU_COMMIT_STATUS_PENDING && fldGet b.regu.pend REGU_CTL_ENABLE != 0))

/-- A latched verdict decides a load in AWAIT_SIG (R83, R88). -/
def Block.imDecide (b : Block) : Block :=
  if b.imState ≠ imAwait then b
  else match b.img.verdict with
    | none => b
    | some false => b.imFail 14 0xFF 0 0
    | some true =>
      if b.harbour then b.imEnd imChecked 0 0xFF 0 0 (b.rd IMG_LOADED_ID_VAL)
      else
        let has := b.imKind == 1 && !(Tab.get (imSecs b.img.bytes) (secKey tyLight 0)).isEmpty
        ({ b with img := { b.img with lightWait := has } }).wr IMG_STATUS_STATE imApplying

/-- IMAGE_CHECKS_DONE (R82). -/
def Block.imChecks (b : Block) : Block :=
  if b.imState ≠ imChecking ∨ b.rd HBR_STATUS_STATE = 3 then b
  else match b.imJudge with
    | some (code, idx, detail, off) => b.imFail code idx detail off
    | none => (b.wr IMG_STATUS_STATE imAwait).imDecide

/-- IMAGE_CHECKS_DONE (R82). -/
def execImageChecksDone (s : State) : Out := onBlock s Block.imChecks

/-- IMAGE_VERDICT (R83): latched from OPEN onward, the last one used. -/
def execImageVerdict (ok : Bool) (s : State) : Out :=
  onBlock s (fun b =>
    if b.imBusy && b.rd HBR_STATUS_STATE != 3 then
      ({ b with img := { b.img with verdict := some ok } }).imDecide
    else b)

/-- SIG_TIMEOUT (R83). -/
def execSigTimeout (s : State) : Out :=
  onBlock s (fun b => if b.imState = imAwait ∧ b.rd HBR_STATUS_STATE ≠ 3 then b.imFail 15 0xFF 0 0 else b)

/-! ## The applies (R86, R90 to R92) -/

/-- Load the severities of a SEVERITY section (R507). -/
def Block.loadSeverity (b : Block) (bs : List Byte) : Block :=
  forEach (List.range 96) b (fun b c => b.wr (FLT_SEV_SEV c) (leAt bs c 1))

/-- SNT_PRESENT follows the sentences in force. -/
def Block.showSentences (b : Block) : Block :=
  let m := maskOf ((List.range 64).filter (fun n => b.hasSec tySentences n))
  (b.wr SNT_PRESENT_LO_MASK (m % 2 ^ 32)).wr SNT_PRESENT_HI_MASK (m / 2 ^ 32)

/-- The registers a start image sets (step 4 of R492): every class I field, and those R70, R216, R248 and R507 load. -/
def Block.applyStart (b : Block) : Block :=
  let bs := b.img.bytes
  let b := { b with img := { b.img with secs := imSecs bs, storeCrc := imCrcs bs [], applied := true } }
  let part := b.sec tyCachePart 0
  let role := b.sec tyRole 0
  let b := (b.wrB EDT_CFG_LOC b.secLoc).wr EDT_CFG_GRANULE b.secGranule
  let b := (b.wr EDT_CFG_ENTRIES b.secEntries).wr EDT_BASE_LO_BASE (b.secBase % 2 ^ 32)
  let b := b.wr EDT_BASE_HI_BASE (b.secBase / 2 ^ 32)
  let b := forEach (List.range 8) b (fun b k => b.wrB (EDT_SET_STATUS_PRESENT k) (b.hasSec tyInterleave k))
  let b := forEach (List.range 16) b (fun b c =>
    let b := (b.wr (CCH_CFG_SCRATCH_WAYS c) b.partScratch).wr (CCH_CFG_PINNED_WAYS c) b.partPinned
    let b := b.wr (CCH_CFG_NORMAL_WAYS c) (16 - b.partScratch - b.partPinned)
    if bitOf (leAt part 0x10 4) c then (b.wr (CCH_CTL_BYPASS c) 1).wr (CCH_STATUS_STATE c) 2 else b)
  let b := forEach (List.range 8) b (fun b t =>
    let q := leAt part (4 + t) 1
    (b.wr (REGU_CLASS_WAY_QUOTA t) q).wrWork (REGU_CLASS_WAY_QUOTA t) q)
  let b := (b.wr CCH_PIN_PORTS_PORTS (leAt part 0x0C 4)).wr TIM_UNIT_ID_UNIT_ID (leAt (b.sec tyTopology 0) 0x124 4)
  let b := ((b.wr ROL_N_WRITE_MASK (leAt role 4 4)).wr ROL_O_WRITE_MASK (leAt role 8 4)).wr ROL_O_AUDIT_MASK (leAt role 12 4)
  let b := (b.wr KPR_PROG_CODE_WORDS (leAt (b.sec tyKeeper 0) 4 4)).wr KPR_PROG_ISA (leAt (b.sec tyKeeper 0) 0 2)
  let b := (b.loadSeverity (b.sec tySeverity 0)).showSentences
  let b := forEach b.enabledOf b (fun b n =>
    let b := b.wrB (SCH_STATUS_LOCKSTEP_B (2 * n + 1)) (b.chLockstep n)
    forEach [2 * n, 2 * n + 1] b (fun b s =>
      b.loadRecord s ((b.sec tyPhyInit 0).drop (0x100 + 512 * s) |>.take 512)))
  b.wr IMG_LOADED_ID_VAL b.imageId

/-- A reload replaces its sections (R90); slots that hold an older copy of a replaced clause set become STALE (R302). -/
def Block.applyReload (b : Block) : Block :=
  let new := imSecs b.img.bytes
  let b := { b with img := { b.img with
    secs := b.img.secs.overlay new (fun k => !(Tab.get new k).isEmpty), storeCrc := imCrcs b.img.bytes b.img.storeCrc } }
  let b := forEach (List.range 16) b (fun b bin =>
    if (Tab.get new (secKey tyClauses bin)).isEmpty then b
    else
      forEach (List.range 32) b (fun b s => forEach (List.range 4) b (fun b j =>
        let f := clsSlotFlds s j
        if b.on f.1 && b.rd f.2.2 == bin then b.wr f.2.1 1 else b)))
  let b := if (Tab.get new (secKey tySeverity 0)).isEmpty then b else b.loadSeverity (b.sec tySeverity 0)
  b.showSentences

/-- The apply ends (R86, R90). -/
def Block.imApplied (b : Block) : Block :=
  if b.imState ≠ imApplying ∨ b.img.lightWait ∨ b.rd HBR_STATUS_STATE = 3 then b
  else if b.imKind = 1 then
    let old := b.rd IMG_RELOAD_ID_VAL
    let b := b.applyReload
    let b := b.wr IMG_RELOAD_ID_VAL b.imageId
    (b.wr IMG_RELOAD_CNT_VAL (b.rd IMG_RELOAD_CNT_VAL + 1)).imEnd imDone 0 0xFF 0 0 old
  else
    let old := b.rd IMG_LOADED_ID_VAL
    (b.applyStart.imEnd imDone 0 0xFF 0 0 old).enterStep5

/-- IMAGE_APPLY_DONE (R90). -/
def execImageApplyDone (s : State) : Out := onBlock s Block.imApplied

/-- RELOAD_LIGHT_LIST_APPLY (R91): every shadow entry, then a commit, once LGT_COMMIT_STATUS.BUSY reads 0. -/
def Block.imLight (b : Block) : Block :=
  if b.imState = imApplying ∧ b.img.lightWait ∧ !b.on LGT_COMMIT_STATUS_BUSY then
    let b := b.lightShadow (Tab.get (imSecs b.img.bytes) (secKey tyLight 0))
    ({ b with img := { b.img with lightWait := false } }).lightGo
  else b

/-- RELOAD_LIGHT_LIST_APPLY (R91). -/
def execReloadLightListApply (s : State) : Out := onBlock s Block.imLight

end Sys2Proof.Machine
end

