-- ==== Sys2Proof/Machine/Power.lean ====
section
/-! DEFINITION. Power states (17, R464 to R483, R547 to R549): work in flight, idle timers, requests, drains, entries,
exits, wakes, and losses of power. -/

namespace Sys2Proof.Machine

open Reg

/-! ## Work in flight (R468) -/

/-- A request waits at slice `c`. -/
def Block.sliceWork (b : Block) (c : Nat) : Bool :=
  let q := b.slices.get c
  q.q.any (fun e => !e.2.isEmpty) || !q.wait.isEmpty || q.grant.isSome

/-- Subchannel `s` has work in flight. -/
def Block.subWork (b : Block) (s : Nat) : Bool :=
  let u := b.subs.get s
  !u.rq.isEmpty || !u.again.isEmpty || !u.wq.isEmpty || !u.inflight.isEmpty || !u.sntQ.isEmpty || u.snt.isSome || b.trainBusy s
  || b.on (PHY_LOOP_STATUS_BUSY s)

/-- Channel `n` has work in flight: in its subchannels, at its slice, or on the way from any slice to it. -/
def Block.chWork (b : Block) (n : Nat) : Bool :=
  b.sliceWork n || b.subWork (2 * n) || b.subWork (2 * n + 1)
  || b.slices.any (fun e => e.2.miss.any (fun x => x.route.chan == n) || e.2.wb.any (fun w => w.route.chan == n))
  || b.ecc.mirrors.any (fun x => x.mirror.chan == n)

/-- The block has work in flight; `idle` asks for the idle timer, which a load in progress holds too. -/
def Block.blockWork (b : Block) (idle : Bool) : Bool :=
  (List.range 16).any b.chWork || b.ports.any (fun e => !e.2.out.isEmpty || !e.2.rsp.isEmpty || !e.2.needData.isEmpty)
  || !b.edt.fetches.isEmpty || !b.edt.held.isEmpty || !b.edt.updates.isEmpty
  || (List.range 4).any (fun l => (b.tlane l).runs)
  || b.imState == imApplying || (idle && b.imBusy)

/-! ## Requests (R470 to R472) -/

/-- A request ends: PWR_CMD's with its CODE and interrupts, a POWER light's with BREACH where it failed (R60, R472). -/
def Block.pwrEnded (b : Block) (light : Option Nat) (code : Nat) : Block :=
  match light with
  | none =>
    let b := ((b.wr PWR_CMD_STATUS_BUSY 0).wr PWR_CMD_STATUS_CODE code).wr PWR_STATUS_CMD_DONE 1
    let b := b.intr 22 (b.bit PWR_CTL_INT_EN 2)
    if code = 0 then b else (b.wr PWR_STATUS_CMD_FAIL 1).intr 22 (b.bit PWR_CTL_INT_EN 1)
  | some i => if code = 0 then b else b.wr (LGT_STATUS_BREACH i) 1

/-- Remove the first request of a source. -/
def Block.pwrDrop (b : Block) (p : PwrReq → Bool) : Block :=
  match takeFirst p b.pwr.drains with
  | some (_, rest) => { b with pwr := { b.pwr with drains := rest } }
  | none => b

/-- A request for a state (R470, R471): refused, done at once, or a drain begins. -/
def Block.pwrAsk (b : Block) (light : Option Nat) (state chans : Nat) : Block :=
  let code := b.pwrCode state chans
  if code ≠ 0 then b.pwrEnded light code
  else if state = 0 then (forEach (pwrNamed 0 chans) b Block.wake).pwrEnded light 0
  else
    let deeper := if state = 4 then List.range 16 else (pwrNamed state chans).filter (fun n => decide (b.chState n < state))
    if deeper.isEmpty then b.pwrEnded light 0
    else
      let b := if light.isNone then b.wr PWR_CMD_STATUS_BUSY 1 else b
      let b := if state = 4 then b.passS3.imAbort else b
      { b with pwr := { b.pwr with
          drains := b.pwr.drains ++ [{ light := light, state := state, chans := maskOf deeper, committed := false }] } }

/-- PWR_CMD.GO; ignored while BUSY. -/
def Block.pwrGo (b : Block) : Block :=
  if b.on PWR_CMD_STATUS_BUSY then b else b.pwrAsk none (b.rd PWR_CMD_STATE) (b.rd PWR_CMD_CHANNELS)

/-! ## Commits (R467) -/

/-- An entry of channel `n` to a state begins. -/
def Block.chEnter (b : Block) (n st : Nat) : Block :=
  let low := if st = pwS2 then b.pwr.chLow ||| (1 <<< n) else b.pwr.chLow
  ({ b with pwr := { b.pwr with target := b.pwr.target.set n (some st), chLow := low } }).wr (PWR_CH_STATUS_MOVING n) 1

/-- The entry to S3 begins: ports stop, every slice in NORMAL walks its sets as in ENTERING, and the ledgers are stored
(R476). -/
def Block.s3Begin (b : Block) : Block :=
  let b := (b.wr PWR_STATUS_BLOCK 1).passS3
  let b := forEach ((List.range 16).filter (fun c => b.sliceState c == 0)) b (fun b c =>
    b.mntApply c { bypassWalk with owner := 0, started := true })
  forEach ((List.range 32).filter (fun m => (b.mod.ledger.get m).presence == 1)) b Block.storeLedger

/-- Requests whose entries are done end OK. -/
def Block.pwrSettle (b : Block) : Block :=
  let ended (q : PwrReq) : Bool := q.committed && q.state != 4 && (List.range 16).all (fun n => !bitOf q.chans n ||
    (match b.pwr.target.get n with
     | some t => t == 0
     | none => true))
  forEach (b.pwr.drains.filter ended) ({ b with pwr := { b.pwr with drains := b.pwr.drains.filter (fun q => !ended q) } })
    (fun b q => b.pwrEnded q.light 0)

/-- The conditions of a drained request hold: no work in flight, and nothing moves. -/
def Block.pwrReady (b : Block) (q : PwrReq) : Bool :=
  let still (n : Nat) : Bool := (b.pwr.target.get n).isNone
  if q.state = 4 then !b.blockWork false && (List.range 16).all still
  else (List.range 16).all (fun n => !bitOf q.chans n || (!b.chWork n && still n && b.chLive n))

/-- DRAIN_COMMIT (R470): `who` is the light entry of the request, none for PWR_CMD. -/
def Block.drainCommit (b : Block) (who : Option Nat) : Block :=
  let mine (q : PwrReq) : Bool := q.light == who && !q.committed
  match b.pwr.drains.find? mine with
  | none => b
  | some q =>
    if !b.pwrReady q || b.rd PWR_STATUS_BLOCK != 0 || b.pwr.inS3 then b
    else
      let b := { b with pwr := { b.pwr with drains := updFirst mine (fun q => { q with committed := true }) b.pwr.drains } }
      if q.state = 4 then b.s3Begin
      else (forEach ((List.range 16).filter (fun n => bitOf q.chans n && decide (b.chState n < q.state))) b
        (fun b n => b.chEnter n q.state)).pwrSettle

/-- DRAIN_COMMIT (R470). -/
def execDrainCommit (who : Option (Fin 64)) (s : State) : Out := onBlock s (fun b => b.drainCommit (who.map Fin.val))

/-- DRAIN_TIMEOUT (R470). -/
def Block.drainLate (b : Block) (who : Option Nat) : Block :=
  let mine (q : PwrReq) : Bool := q.light == who && !q.committed
  if b.pwr.drains.any mine then (b.pwrDrop mine).pwrEnded who 1 else b

/-- DRAIN_TIMEOUT (R470). -/
def execDrainTimeout (who : Option (Fin 64)) (s : State) : Out := onBlock s (fun b => b.drainLate (who.map Fin.val))

/-- The block runs: READY or in harbour mode, awake, and not tripped. -/
def Block.running (b : Block) : Bool :=
  (b.rd HBR_STATUS_STATE == 2 || b.harbour) && b.rd PWR_STATUS_BLOCK == 0 && !b.pwr.inS3 && !b.on THM_STATUS_TRIP
  && !b.pwr.dead

/-- CHANNEL_IDLE_EXPIRY (R469). -/
def Block.chIdle (b : Block) (n : Nat) : Block :=
  if !b.running || b.chWork n || (b.pwr.target.get n).isSome || b.rplState n != rpInService then b
  else
    let st := b.chState n
    if st = pwA0 ∧ b.on PWR_CTL_AUTO_A1 then b.chEnter n pwA1
    else if st = pwA1 ∧ b.on PWR_CTL_AUTO_S1 then b.chEnter n pwS1
    else if st = pwS1 ∧ b.on PWR_CTL_AUTO_S2 ∧ !b.harbour then b.chEnter n pwS2
    else b

/-- CHANNEL_IDLE_EXPIRY (R469). -/
def execChannelIdleExpiry (n : Fin 16) (s : State) : Out := onBlock s (fun b => b.chIdle n)

/-- BLOCK_IDLE_EXPIRY (R469): an automatic request, which drains nothing. -/
def Block.blockIdle (b : Block) : Block :=
  let asleep (n : Nat) : Bool := (b.chState n == pwS2 || !b.chLive n) && (b.pwr.target.get n).isNone
  if b.running && b.on PWR_CTL_AUTO_S3 && (List.range 16).all asleep && !b.blockWork true && b.pwrCode 4 0 == 0 then
    b.s3Begin
  else b

/-- BLOCK_IDLE_EXPIRY (R469). -/
def execBlockIdleExpiry (s : State) : Out := onBlock s Block.blockIdle

/-! ## Wakes of the block (R474, R475) -/

/-- Power-up of the core, the cache groups and every channel that was not OFF begins (R476). -/
def Block.s3Leave (b : Block) : Block :=
  let low := maskOf ((List.range 16).filter (fun n => !b.chLive n))
  ({ b with pwr := { b.pwr with coreLow := false, cgLow := 0, chLow := low, blkWake := false } }).wr PWR_STATUS_BLOCK 2

/-- A wake source of the block fires: without effect while it is awake, latched during entry, absorbed during exit. -/
def Block.blockWake (b : Block) (source : Nat) : Block :=
  if !b.bit PWR_WAKE_EN source then b
  else if b.rd PWR_STATUS_BLOCK = 1 then
    let b := { b with pwr := { b.pwr with blkWake := true } }
    (b.wr PWR_STATUS_WAKE_LATCHED 1).intr 22 (b.bit PWR_CTL_INT_EN 0)
  else if b.pwr.inS3 ∧ b.rd PWR_STATUS_BLOCK = 0 ∧ !b.on THM_STATUS_TRIP then b.s3Leave
  else b

/-- PWR_WAKE_IN (R474). -/
def execPwrWakeIn (s : State) : Out := onBlock s (fun b => b.blockWake 0)

/-- WAKE_TIMER (R474): it runs from S3 being reached. -/
def execWakeTimer (s : State) : Out := onBlock s (fun b => if b.pwr.inS3 then b.blockWake 1 else b)

/-! ## The end of an entry (R465, R467, R475) -/

/-- The entry of channel `n` ends; a latched wake begins the exit at once. S2 waits for the power manager. -/
def Block.chEntered (b : Block) (n : Nat) : Block :=
  match b.pwr.target.get n with
  | none => b
  | some st =>
    if st = pwA0 ∨ (st = pwS2 ∧ !bitOf b.pwr.chBad n) then b
    else
      let b := if st = pwA1 then (b.powerDown n true).wr (PWR_CH_STATUS_STATE n) pwA1 else b.sleepS1 n
      let b := if st = pwS2 then (b.chOff n true).wr (PWR_CH_STATUS_STATE n) pwS2 else b
      let wake := b.pwr.chWake.get n
      let b := { b with pwr := { b.pwr with target := b.pwr.target.set n none, chWake := b.pwr.chWake.set n false } }
      let b := (b.wr (PWR_CH_STATUS_MOVING n) 0).pwrSettle
      (if wake then b.wake n else b).biasStep

/-- The entry to S3 may end: every write-back is in the modules, and every store in the NVM. -/
def Block.s3May (b : Block) : Bool :=
  b.rd PWR_STATUS_BLOCK == 1 && !(List.range 16).any b.chWork && (List.range 16).all (fun n => (b.pwr.target.get n).isNone)
  && b.stores.isEmpty && b.mg.audQ.isEmpty && !b.mg.latch.any (fun e => e.2.isSome) && b.edt.updates.isEmpty

/-- S3 is reached: the core, the cache groups and every channel are off. -/
def Block.s3Entered (b : Block) : Block :=
  if !b.s3May then b
  else
    let on := (List.range 16).filter b.chLive
    let b := forEach on b (fun b n =>
      if b.chState n = pwS2 then b else ((b.sleepS1 n).chOff n true).wr (PWR_CH_STATUS_STATE n) pwS2)
    let b := { b with pwr := { b.pwr with
      inS3 := true, coreLow := true, cgLow := 15, chLow := b.pwr.chLow ||| maskOf on } }
    let b := (b.wr PWR_STATUS_BLOCK 0).biasStep
    let b := match takeFirst (fun q => q.state == 4 && q.committed) b.pwr.drains with
      | some (q, rest) => ({ b with pwr := { b.pwr with drains := rest } }).pwrEnded q.light 0
      | none => b
    if b.pwr.blkWake then b.s3Leave else b

/-- STATE_ENTRY_DONE (R467): of a channel, or of the block. -/
def execStateEntryDone (who : Option (Fin 16)) (s : State) : Out :=
  onBlock s (fun b => match who with
    | some n => b.chEntered n
    | none => b.s3Entered)

/-! ## The end of an exit (R465, R476 to R479) -/

/-- The exit of channel `n` ends: from S2 once its domain is powered. -/
def Block.chExited (b : Block) (n : Nat) (e : RestoreErr) : Block :=
  if b.pwr.target.get n = some pwA0 ∧ !(b.chState n = pwS2 ∧ bitOf b.pwr.chBad n) ∧ b.rd PWR_STATUS_BLOCK ≠ 2 then
    (b.chReturn n (b.chState n) e).biasStep
  else b

/-- The groups whose registers an item of the save list holds (R477). -/
def itemGroups : Nat → List Nat
  | 0 => [16, 17]
  | 1 => [8]
  | 2 => [24]
  | 3 => [19, 20]
  | 4 => [25]
  | _ => [6, 7, 9, 10, 18, 22, 23, 26]

/-- Whether a field key belongs to a class S field. -/
def isShadowKey (k : Nat) : Bool :=
  match findReg (k / 32) with
  | some (r, _) => r.fields.any (fun f => f.lo == k % 32 && f.cls == .s)
  | none => false

/-- An item of the save list that fails its CRC takes its reset values (R478). -/
def Block.loseItem (b : Block) (k : Nat) : Block :=
  let mine (r : RegInfo) : Bool := (itemGroups k).contains r.group
  let b := b.loseRegs (fun r _ f => mine r && r.saved f)
  let key (e : Nat × Nat) : Bool :=
    match findReg (e.1 / 32) with
    | some (r, _) => mine r
    | none => false
  let b := { b with work := b.work.filter (fun e => !key e) }
  let b := if k = 3 then { b with time := { b.time with f := 0 } } else b
  let b := if k = 4 then { b with flt := { b.flt with recs := [] } } else b
  b.restoreErr 0

/-- What S3 leaves of everything but registers (R476, R477): queues, buffers, counts, logs and caches are empty; DONE of
each light follows its REMAIN. -/
def Block.s3Forget (b : Block) : Block :=
  let b := { b with
    edt := default, ports := [], slices := [], arr := default, intern := [], scrub := default
    tnd := { (default : TenderSt) with next := b.rd TND_HEAD_HEAD }
    ecc := { (default : EccSt) with soft := b.ecc.soft }
    regu := { (default : ReguSt) with lastB := b.now, w := b.regu.w, short := b.regulating }
    ctr := default, thm := default, lgtSnap := [], lgtRun := false
    flt := { b.flt with msgs := [], dropped := 0 }
    img := { b.img with verdict := none, lightWait := false }
    mg := { b.mg with audQ := [], latch := [] } }
  forEach (List.range 64) b (fun b i =>
    let e := b.lightW i
    b.wrB (LGT_STATUS_DONE i) (e.armed && e.count != 0 && b.rd (LGT_STATUS_REMAIN i) == 0))

/-- Exit from S3, in the order of R476. -/
def Block.s3Exited (b : Block) (e : RestoreErr) : Block :=
  let on := (List.range 16).filter b.chLive
  if b.rd PWR_STATUS_BLOCK ≠ 2 ∨ b.pwr.coreBad ∨ b.pwr.cgBad ≠ 0
      ∨ on.any (fun n => bitOf b.pwr.chBad n && !b.subFenced (2 * n)) then b
  else
    let b := b.loseRegs (fun r _ f => !(r.saved f || r.stays f))
    let b := { b with regs := b.regs.overlay b.work isShadowKey }
    let b := b.s3Forget
    let b := if e.arrays then b.restoreErr 1 else b
    let b := forEach (List.range 6) b (fun b k => if e.other.getLsbD k then b.loseItem k else b)
    let b := { b with pwr := { b.pwr with inS3 := false } }
    let b := b.wr PWR_STATUS_BLOCK 0
    let b := if b.timState = timAcquire then b else (b.setPpb (rnd16 b.time.f)).wr TIM_STATUS_STATE timHoldover
    let b := b.lightsResume
    let b := forEach (on.filter (fun n => !bitOf b.pwr.chBad n)) b (fun b n => b.chReturn n pwS2 e)
    let b := forEach (List.range 16) b (fun b c =>
      let st := b.sliceState c
      if st = 1 then b.wr (CCH_STATUS_STATE c) 2 else if st = 3 then b.wr (CCH_STATUS_STATE c) 0 else b)
    let b := if e.arrays then forEach (List.range 6) b (fun b p => b.wr (PRT_STATUS_STATE p) ptDisabled) else b
    b.biasStep

/-- The end of an exit of a channel or of the block. -/
def Block.stateExited (b : Block) (who : Option Nat) (e : RestoreErr) : Block :=
  match who with
  | some n => b.chExited n e
  | none => b.s3Exited e

/-! ## The power manager's signals (R547 to R549) -/

/-- A domain's GOOD follows its ON (R548). Module power is acknowledged to RELEASE and ATTACH alone. -/
def Block.domainGood (b : Block) (d : PowerDomain) (level : Bool) : Block :=
  let p := b.pwr
  let mask (m low i : Nat) : Nat := if level = bitOf low i then m else if level then maskDrop m i else m ||| (1 <<< i)
  match d with
  | .channel n => { b with pwr := { p with chBad := mask p.chBad p.chLow n } }
  | .modules _ => b
  | .cacheGroup g => { b with pwr := { p with cgBad := mask p.cgBad p.cgLow g } }
  | .core => if level = p.coreLow then b else { b with pwr := { p with coreBad := !level } }

/-- DOMAIN_POWER_GOOD (R548). -/
def execDomainPowerGood (d : PowerDomain) (level : Bool) (s : State) : Out := onBlock s (fun b => b.domainGood d level)

/-- GOOD did not rise within 50 µs of ON, outside a replacement: the wake fails (R549). -/
def Block.goodLate (b : Block) (d : PowerDomain) : Block :=
  let p := b.pwr
  match d with
  | .channel n =>
    if bitOf p.chLow n || !bitOf p.chBad n || b.mod.phase.get n.val != 0 then b
    else
      let b := { b with pwr := { p with target := p.target.set n none, chWake := p.chWake.set n false } }
      (b.wr (PWR_CH_STATUS_MOVING n) 0).fenceChannel n
  | .modules _ => b
  | .cacheGroup g => if bitOf p.cgBad g && b.rd PWR_STATUS_BLOCK == 2 then b.wr PWR_STATUS_BLOCK 0 else b
  | .core => if p.coreBad && b.rd PWR_STATUS_BLOCK == 2 then b.wr PWR_STATUS_BLOCK 0 else b

/-- POWER_GOOD_TIMEOUT (R549). -/
def execPowerGoodTimeout (d : PowerDomain) (s : State) : Out := onBlock s (fun b => b.goodLate d)

/-- Channel `n` has lost its power or its modules' (R549): it is fenced, untrained, and returns only through ATTACH. -/
def Block.chPowerLost (b : Block) (n : Nat) : Block :=
  let b := b.fenceChannel n
  let b := { b with pwr := { b.pwr with modBad := b.pwr.modBad ||| (1 <<< n) } }
  forEach [2 * n, 2 * n + 1] b (fun b s => b.wr (PHY_STATUS_TRAINED s) 0)

/-- The modules of channel `n` have lost their power, and their soft repairs with it (R396, R412). -/
def Block.softLost (b : Block) (n : Nat) : Block :=
  let b := { b with ecc := { b.ecc with soft := b.ecc.soft.filter (fun e => e.1 / 16 != n) } }
  (b.updLedger (2 * n) (fun l => { l with soft := 0 })).updLedger (2 * n + 1) (fun l => { l with soft := 0 })

/-- Cache group `g` has lost its power (R236, R548): its lines are gone but for sectors whose fill is on the way and lines
whose write-backs are (R519), and each sector of its scratch ways holds a free value. -/
def Block.groupLost (b : Block) (g : Nat) : Block :=
  let mine (k : Nat) : Bool := keySlice k / 4 == g
  let keep (e : Nat × Line) : Option (Nat × Line) :=
    if mine e.1 then
      let l := { e.2 with st := e.2.st.filter (fun x => x.2 == .f), pin := false }
      if l.st.isEmpty && l.wbLeft == 0 then none else some (e.1, l)
    else some e
  let lo := lineKey (4 * g) 0 0 * 4
  let hi := lineKey (4 * g + 4) 0 0 * 4
  let lost := (List.range (hi - lo)).filterMap (fun i =>
    let k := lo + i
    let v := Config.lostScratch b.fresh k
    if 16 - b.scratchWays ≤ keyWay (k / 4) ∧ v ≠ 0 then some (k, v) else none)
  let scr := b.arr.scratch
  { b with
    fresh := b.fresh + 1
    arr := { b.arr with
      lines := b.arr.lines.filterMap keep
      scratch := scr.filter (fun e => decide (e.1 < lo)) ++ lost ++ scr.filter (fun e => decide (hi ≤ e.1))
      scrPoison := b.arr.scrPoison.filter (fun e => !mine (e.1 / 4))
      err := b.arr.err.filter (fun e => !mine (e.1 / 4)) } }

/-- GOOD falls while ON is 1: a loss of power (R549). -/
def Block.powerLost (b : Block) (d : PowerDomain) : Block :=
  let p := b.pwr
  match d with
  | .channel n =>
    if bitOf p.chLow n || bitOf p.chBad n then b
    else
      let b := (b.chPowerLost n).chOff n false
      { b with pwr := { b.pwr with chBad := b.pwr.chBad ||| (1 <<< n.val) } }
  | .modules n => if bitOf p.modLow n || bitOf p.modBad n then b else (b.chPowerLost n).softLost n
  | .cacheGroup g =>
    if bitOf p.cgLow g || bitOf p.cgBad g then b
    else
      let b := { b with pwr := { p with cgBad := p.cgBad ||| (1 <<< g.val) } }
      (forEach (List.range 4) b (fun b i => b.fence .slice (4 * g + i) causeAction 0)).groupLost g
  | .core => if p.coreLow || p.coreBad then b else { b with pwr := { p with coreBad := true, dead := true } }

/-- POWER_LOSS (R549). -/
def execPowerLoss (d : PowerDomain) (s : State) : Out := onBlock s (fun b => b.powerLost d)

end Sys2Proof.Machine
end

