-- ==== Sys2Proof/Machine/Thermal.lean ====
section
/-! DEFINITION. Temperature (17, R484 to R491): the housekeeping round with its validity, thresholds and throttle levels,
and the critical trip. -/

namespace Sys2Proof.Machine

open Reg

/-! ## The THERMAL_POWER section in force (R480) -/

/-- A signed temperature at `off` of the section. -/
def Block.thmTemp (b : Block) (off : Nat) : Int := toSigned 16 (leAt (b.sec tyThermal 0) off 2)
/-- A byte at `off` of the section. -/
def Block.thmByte (b : Block) (off : Nat) : Nat := leAt (b.sec tyThermal 0) off 1
/-- Set point of a die or module threshold. -/
def Block.dieWarn (b : Block) : Int := b.thmTemp 0
/-- DIE_THROTTLE. -/
def Block.dieThrottle (b : Block) : Int := b.thmTemp 2
/-- MOD_DOUBLE. -/
def Block.modDouble (b : Block) : Int := b.thmTemp 6
/-- MOD_THROTTLE. -/
def Block.modThrottle (b : Block) : Int := b.thmTemp 8

/-- A reading is plausible. -/
def Block.plausible (b : Block) (v : Int) : Bool := decide (b.thmTemp 0x10 ≤ v) && decide (v ≤ b.thmTemp 0x12)

/-! ## Sites (R484, R486) -/

/-- A site is judged broken. -/
def Block.siteBroken (b : Block) (i : Nat) : Bool := b.on (THM_SITE_BROKEN i)

/-- The zone of a site. -/
def Block.siteZone (b : Block) (i : Nat) : Nat := b.rd (THM_SITE_ZONE i)

/-- An event of a temperature site, or of a zone by one of its sites. -/
def siteEvent (code i : Nat) : Event :=
  { code := code, kind := 0, form := 1, addr := locAddr 5 i 0, unit_ := .none, sev := none }

/-- An event of a module slot. -/
def slotEvent (code m : Nat) : Event :=
  { code := code, kind := 0, form := 1, addr := locAddr 4 m 0, unit_ := .none, sev := none }

/-- A sensor is judged broken: THM_STATUS and its event. -/
def Block.sensorEvent (b : Block) (e : Event) : Block :=
  ((b.wr THM_STATUS_BROKEN 1).intr 23 (bitOf (b.rd THM_CTL_INT_EN) 2)).event e

/-- The readings of site `i` over the last STUCK_ROUNDS rounds are the same (R486). -/
def Block.unchanged (b : Block) (i : Nat) : Bool :=
  let n := b.thmByte 0x0D
  let h := (b.thm.hist.get i).take (n + 1)
  h.length == n + 1 && h.all (fun v => some v == h.head?)

/-- Site `j` has changed by more than STUCK_DELTA over the same rounds. -/
def Block.changed (b : Block) (j : Nat) : Bool :=
  let h := (b.thm.hist.get j).take (b.thmByte 0x0D + 1)
  match h with
  | [] => false
  | v :: t =>
    let hi := t.foldl (fun m x => if m < x then x else m) v
    let lo := t.foldl (fun m x => if x < m then x else m) v
    decide ((b.thmByte 0x0E : Int) < hi - lo)

/-- Site `i` is stuck: zone 7, with its one site, never is. -/
def Block.stuck (b : Block) (i : Nat) : Bool :=
  b.unchanged i && (List.range 24).any (fun j => j != i && b.siteZone j == b.siteZone i && !b.siteBroken j
    && (match (b.thm.hist.get j).head? with
        | some v => b.plausible v
        | none => false) && b.changed j)

/-- Step 1 for one site: the conversion enters READING and the site's readings; a failed one interrupts them. -/
def Block.siteConvert (b : Block) (i : Nat) (r : Option Int) : Block :=
  match r with
  | some v =>
    let b := b.wr (THM_SITE_READING i) (ofSigned 16 v)
    { b with thm := { b.thm with hist := b.thm.hist.upd i (fun h => (v :: h).take 256) } }
  | none => { b with thm := { b.thm with hist := b.thm.hist.set i [] } }

/-- Step 3 for one site. `isStuck` is judged over all sites before any is changed. -/
def Block.siteJudge (b : Block) (i : Nat) (r : Option Int) (isStuck : Bool) : Block :=
  let ok := match r with
    | some v => b.plausible v
    | none => false
  let moved := match b.thm.hist.get i with
    | v :: w :: _ => v != w
    | _ => false
  let good (b : Block) (n : Nat) : Block := { b with thm := { b.thm with good := b.thm.good.set i n } }
  if b.siteBroken i then
    if ok && moved then
      let n := b.thm.good.get i + 1
      if b.thmByte 0x0C ≤ n then
        let b := (b.wr (THM_SITE_BROKEN i) 0).wr (THM_SITE_STUCK i) 0
        good ((b.wr (THM_SITE_MASKED i) 0).wr (THM_SITE_VALID i) 1) 0
      else good b n
    else good b 0
  else if !ok || isStuck then
    let b := ((b.wr (THM_SITE_BROKEN i) 1).wrB (THM_SITE_STUCK i) (ok && isStuck)).wr (THM_SITE_MASKED i) 1
    (good (b.wr (THM_SITE_VALID i) 0) 0).sensorEvent (siteEvent 82 i)
  else b.wr (THM_SITE_VALID i) 1

/-! ## Thresholds and levels (R487, R488) -/

/-- One round of a threshold: its run counts, whether it is set after the round, and whether the round set it. -/
def ThrRun.step (r : ThrRun) (isSet : Bool) (t s hyst : Int) (setDwell clearDwell : Nat) : ThrRun × Bool × Bool :=
  let up := if s ≤ t then min 15 (r.set + 1) else 0
  let down := if t ≤ s - hyst then min 15 (r.clear + 1) else 0
  if !isSet && decide (setDwell ≤ up) then (⟨up, down⟩, true, true)
  else if isSet && decide (clearDwell ≤ down) then (⟨up, down⟩, false, false)
  else (⟨up, down⟩, isSet, false)

/-- One round of the threshold with key `k`. -/
def Block.threshold (b : Block) (k : Nat) (isSet : Bool) (t s : Int) : Block × Bool × Bool :=
  let (r, now, fresh) := (b.thm.runs.get k).step isSet t s (b.thmByte 0x0A) (b.thmByte 0x0B) (b.thmByte 0x0C)
  ({ b with thm := { b.thm with runs := b.thm.runs.set k r } }, now, fresh)

/-- The level after a round (R488). -/
def levelStep (level : Nat) (isSet fresh : Bool) (t s : Int) : Nat :=
  if fresh then max level 1
  else if isSet then (if s < t then min (level + 1) 7 else level)
  else level - 1

/-- A throttle threshold sets. -/
def Block.throttleEvent (b : Block) (e : Event) : Block :=
  ((b.wr THM_STATUS_THROTTLE 1).intr 23 (bitOf (b.rd THM_CTL_INT_EN) 1)).event e

/-- The reading a site counts with: its own, or DIE_THROTTLE where it is broken. -/
def Block.siteTemp (b : Block) (i : Nat) : Int :=
  if b.siteBroken i then b.dieThrottle else toSigned 16 (b.rd (THM_SITE_READING i))

/-- Steps 4 and 5 for zone `z`. -/
def Block.zoneRound (b : Block) (z : Nat) : Block :=
  let sites := (List.range 24).filter (fun i => b.siteZone i == z)
  let first := sites.headD 0
  let top := sites.foldl (fun m i => if b.siteTemp m < b.siteTemp i then i else m) first
  let t := b.siteTemp top
  let b := (b.wr (THM_ZONE_TEMP z) (ofSigned 16 t)).wrB (THM_ZONE_NO_TRIP z) (sites.all b.siteBroken)
  let (b, warn, freshW) := b.threshold z (b.on (THM_ZONE_WARN z)) t b.dieWarn
  let b := b.wrB (THM_ZONE_WARN z) warn
  let b := if freshW then
      ((b.wr THM_STATUS_WARN 1).intr 23 (bitOf (b.rd THM_CTL_INT_EN) 0)).event (siteEvent 80 top) else b
  let (b, thr, freshT) := b.threshold (8 + z) (b.on (THM_ZONE_THROTTLE z)) t b.dieThrottle
  let b := (b.wrB (THM_ZONE_THROTTLE z) thr).wr (THM_ZONE_LEVEL z) (levelStep (b.rd (THM_ZONE_LEVEL z)) thr freshT t b.dieThrottle)
  if freshT then b.throttleEvent (siteEvent 81 top) else b

/-! ## Module sensors (R485, R486) -/

/-- One sensor of a module read: failures in a row, broken or not; its reading where it counts. -/
def Block.sensorRead (b : Block) (k : Nat) (r : Option Int) : Block :=
  let fails := match r with
    | some _ => 0
    | none => min 3 (b.thm.fails.get k + 1)
  let broken := match r with
    | some v => !b.plausible v
    | none => b.thm.broken.get k || fails == 3
  { b with thm := { b.thm with fails := b.thm.fails.set k fails, broken := b.thm.broken.set k broken } }

/-- Steps 2 to 5 for the module of slot `m`. -/
def Block.moduleRound (b : Block) (m : Nat) (read : Nat → Option Int) : Block :=
  let present := (List.range 3).filter (bitOf (b.mod.sensors.get m))
  if present.isEmpty || !b.chLive (m / 2) then b
  else
    let old (k : Nat) : Bool := b.thm.broken.get (3 * m + k)
    let b := forEach present b (fun b k => b.sensorRead (3 * m + k) (read k))
    let bad := present.filter (fun k => b.thm.broken.get (3 * m + k))
    let b := b.wrB (THM_MOD_BROKEN m) (!bad.isEmpty)
    let b := forEach (bad.filter (fun k => !old k)) b (fun b _ => b.sensorEvent (slotEvent 82 m))
    let vals := (present.filter (fun k => !bad.contains k)).filterMap read
    let b := if bad.isEmpty then b else { b with mod := { b.mod with bad := b.mod.bad.set m true } }
    match vals with
    | [] => b
    | v :: vs =>
      let t := vs.foldl (fun m x => if m < x then x else m) v
      let b := { b with mod := { b.mod with high := b.mod.high.upd m (fun h => match h with
        | some x => some (if x < t then t else x)
        | none => some t) } }
      let b := b.wr (THM_MOD_TEMP m) (ofSigned 16 t)
      let (b, dbl, freshD) := b.threshold (16 + m) (b.on (THM_MOD_DOUBLE m)) t b.modDouble
      let b := b.wrB (THM_MOD_DOUBLE m) dbl
      let b := if freshD then (b.wr THM_STATUS_DOUBLE 1).intr 23 (bitOf (b.rd THM_CTL_INT_EN) 3) else b
      let (b, thr, freshT) := b.threshold (48 + m) (b.on (THM_MOD_THROTTLE m)) t b.modThrottle
      let b := (b.wrB (THM_MOD_THROTTLE m) thr).wr (THM_MOD_LEVEL m)
        (levelStep (b.rd (THM_MOD_LEVEL m)) thr freshT t b.modThrottle)
      if freshT then b.throttleEvent (slotEvent 81 m) else b

/-- Thermal level of channel `n` (R488). -/
def Block.thermalLevel (b : Block) (n : Nat) : Nat :=
  let zones := (n / 4 :: [4, 5, 6, 7]).map (fun z => b.rd (THM_ZONE_LEVEL z))
  let mods := [2 * n, 2 * n + 1].map (fun m =>
    max (b.rd (THM_MOD_LEVEL m)) (if b.on (THM_MOD_BROKEN m) then b.thmByte 0x0F else 0))
  (zones ++ mods).foldl max 0

/-- Step 6 and the calibration part of step 7 for channel `n`, whose registers its domain holds. -/
def Block.channelRound (b : Block) (n : Nat) : Block :=
  if b.chState n = pwS2 ∨ !b.chLive n then b
  else
    let double := [2 * n, 2 * n + 1].any (fun m => b.on (THM_MOD_DOUBLE m) || b.on (THM_MOD_BROKEN m))
    forEach [2 * n, 2 * n + 1] b (fun b s =>
      let b := (b.wr (SCH_THR_LEVEL s) (b.thermalLevel n)).wrB (SCH_REF_STATUS_DOUBLE s) double
      b.calRound s (if b.siteBroken n then none else some (b.siteTemp n)))

/-- The housekeeping round (R485). -/
def Block.housekeeping (b : Block) (sites : Nat → Option Int) (mods : Nat → Option Int) : Block :=
  if b.pwr.inS3 || b.pwr.dead || b.on THM_STATUS_TRIP || !b.hasSec tyThermal 0 then b
  else
    let b := forEach (List.range 24) b (fun b i => b.siteConvert i (sites i))
    let stuck := (List.range 24).filter b.stuck
    let b := forEach (List.range 24) b (fun b i => b.siteJudge i (sites i) (stuck.contains i))
    let b := forEach (List.range 8) b Block.zoneRound
    let b := forEach (List.range 32) b (fun b m => b.moduleRound m (fun k => mods (3 * m + k)))
    let b := forEach (List.range 16) b Block.channelRound
    b.bump THM_ROUND_CNT_CNT

/-- Entry `i` of a list of readings, in 0.25 °C; none for a failed conversion or read. -/
def reading (l : List (Option (BitVec 16))) (i : Nat) : Option Int :=
  match l[i]? with
  | some (some v) => some v.toInt
  | _ => none

/-- HOUSEKEEPING_ROUND (R485): the conversions of the 24 sites, and the reads of sensor k of slot m at 3m + k. -/
def execHousekeepingRound (sites : Vector (Option (BitVec 16)) 24) (mods : Vector (Option (BitVec 16)) 96) (s : State) : Out :=
  onBlock s (fun b => b.housekeeping (reading sites.toList) (reading mods.toList))

/-! ## The critical trip (R490, R491) -/

/-- A trip issues the write with entry `e` (R491): the row is opened where it is not, and the codeword leaves. -/
def Block.tripWrite (b : Block) (s : Nat) (e : WrEnt) : Block :=
  let c := e.at_
  let key := bankKey c.rank c.bg c.bank
  let row := ((b.subs.get s).banks.get key).row
  let opens := if row = some c.row then [] else if row.isSome then [cmPREpb, cmACT] else [cmACT]
  let b := forEach (opens ++ [cmWR]) b (fun b cls =>
    let b := match stepEvent cls with
      | some code => b.count (ctrSub s) code 1 (clsCarry e.cls)
      | none => b
    b.putPins s (mkCmd cls c.rank c.bg c.bank))
  let b := b.updSub s (fun u => { u with
    banks := u.banks.upd key (fun k => { k with row := some c.row }), lastWrite := some (c, e.code) })
  b.writeIssued s c

/-- The unissued writes that a trip still issues on subchannel `s`: none in self-refresh or while the scheduler is halted. -/
def Block.tripWrites (b : Block) (s : Nat) : List WrEnt :=
  let u := b.subs.get s
  if u.selfRef.length ≥ b.subRanks s || b.on (CLS_STATUS_HALTED s) then [] else u.wq.filter (fun e => e.issued.isNone)

/-- Everything that a trip abandons on subchannel `s`: its sentence, training and loopback end as aborted, its reads are
dropped, and, unless it is in self-refresh already, its writes issue and every rank enters self-refresh. -/
def Block.tripSub (b : Block) (s : Nat) : Block :=
  let b := b.updSub s (fun u => { u with sntQ := [] })
  let b := b.subStops Block.event0 s
  let b := (forEach (b.tripWrites s) b (fun b e => b.tripWrite s e)).putSleep s
  b.updSub s (fun u => { u with
    rq := [], again := [], wq := [], inflight := [], pd := [], selfRef := List.range (b.subRanks s), ckStop := true, ticking := false, debt := []
    banks := u.banks.map (fun e => (e.1, { e.2 with row := none, due := false })) })

/-- THERM_TRIP_N falls (R491). -/
def Block.trip (b : Block) (site : Nat) : Block :=
  if b.on THM_STATUS_TRIP || b.siteBroken site then b
  else
    let b := b.wr THM_STATUS_TRIP 1
    let b := if b.on PWR_CMD_STATUS_BUSY then b.pwrEnded none 8 else b
    let moving := (List.range 16).filter (fun n => (b.pwr.target.get n).isSome)
    let b := { b with pwr := { b.pwr with drains := [], target := [], chWake := [], blkWake := false } }
    let b := forEach moving b (fun b n => b.wr (PWR_CH_STATUS_MOVING n) 0)
    let b := b.wr PWR_STATUS_BLOCK 0
    let b := forEach ((List.range 16).filter (fun n => b.chLive n && b.chState n != pwS2)) b (fun b n =>
      ((b.tripSub (2 * n)).tripSub (2 * n + 1)).ckSettle n)
    let b := forEach (List.range 16) b (fun b n =>
      if b.rplState n = rpReleasing ∨ b.rplState n = rpAttaching then b.rplFail Block.event0 n 10 else b)
    let b := { b with
      scrub := default, intern := [], slices := [], tnd := { b.tnd with lanes := [] }, ecc := { b.ecc with mirrors := [] }
      edt := { b.edt with fetches := [], beyond := [], held := [], updates := [] } }
    let b := forEach (List.range 6) b (fun b p => b.updPort p (fun q => { q with out := [], needData := [], early := [] }))
    let b := (b.wr SCB_STATUS_BUSY 0).wr SCB_STATUS_QUEUED 0
    b.event (siteEvent 83 site)

/-- THERMAL_TRIP (R490). -/
def execThermalTrip (site : Fin 24) (s : State) : Out := onBlock s (fun b => b.trip site)

end Sys2Proof.Machine
end

