-- ==== Sys2Proof/Machine/Verbs.lean ====
section
/-! DEFINITION. The firing of lights and their verbs (R48 to R61), accepted beacons with what they do to the lights (R31,
R51, R53), and the resets (R536, R537). -/

namespace Sys2Proof.Machine

open Reg

/-! ## Verbs (R54 to R61) -/

/-- A MARK occurrence (R61): its message, stamped with the occurrence instant, and the counters of MARK. -/
def Block.lightMark (b : Block) (i instant : Nat) : Block :=
  let arg := (b.lightW i).arg
  let b := b.count ctrRegu 10 1 default
  b.eventAt { code := 3, kind := 0, form := 1, addr := arg + i * 2 ^ 32, unit_ := .none, sev := none } (instant % 2 ^ 64)

/-- Begin the on-time of an occurrence. -/
def Block.lightBegin (b : Block) (i instant : Nat) : Block :=
  let b := b.lightEnd i
  let e := b.lightW i
  let on := e.onNs
  -- a refresh window takes its number of ticks anew, and its series restarts with a tick (R270, R275)
  let b := if e.verb = vbRefreshWindow then
      forEach ((List.range 32).filter (fun s => bitOf e.target s && !b.lightless s)) b (fun b s =>
        (b.updSub s (fun u => { u with winN := b.windowTicks s i })).refreshTick s)
    else b
  { (b.wr (LGT_STATUS_ACTIVE i) 1) with lights := b.lights.upd i (fun l => { l with onEnd := instant + on }) }

/-- The action of an occurrence of entry `i`. A SCRUB_PASS that finds its range busy counts as skipped (R59). Fenced and OFF
channels take no POWER request (R54). -/
def Block.lightAct (b : Block) (i instant : Nat) : Block :=
  let e := b.lightW i
  match e.verb with
  | 3 =>
    let (b, ok) := b.passAsk (e.target % 8)
    if ok then b else b.addSat (LGT_STATUS_SKIP i) 1
  | 4 => b.snapshot ⟨e.target, instant % 2 ^ 64, false⟩
  | 5 => b.windowBoundary false
  | 6 =>
    let b := if e.on = 0 then b else b.lightBegin i instant
    let chans := maskOf (b.lightChans e)
    if chans = 0 ∧ e.arg ≠ 4 then b else b.pwrAsk (some i) e.arg chans
  | 8 => b.lightMark i instant
  | _ => b.lightBegin i instant

/-! ## Firing (R48 to R52) -/

/-- The light engine runs: not in ACQUIRE, not in S3. -/
def Block.lightsRun (b : Block) : Bool := b.timState != timAcquire && !b.pwr.inS3 && !b.pwr.dead

/-- An entry has an occurrence at or before the local time. -/
def Block.lightDue (b : Block) (i : Nat) : Bool :=
  let e := b.lightW i
  b.lightsRun && e.armed && !b.on (LGT_STATUS_DONE i) && decide (e.instant (b.lights.get i).next ≤ b.now)

/-- Rank of a verb among the occurrences of one TCLK cycle (R49). -/
def verbRank (v : Nat) : Nat := if v = 8 then 0 else if v = 4 then 1 else if v = 5 then 2 else 3

/-- The entries in the order in which they act in one TCLK cycle (R49). -/
def Block.lightOrder (b : Block) : List Nat :=
  ((List.range 4).map (fun r => (List.range 64).filter (fun i => verbRank (b.lightW i).verb == r))).flatten

/-- An occurrence that fires while STATE is not LOCKED sets UNSYNC (R52, LGT_STATUS). -/
def Block.lightUnsync (b : Block) (i : Nat) : Block :=
  if b.timState = timLocked then b else b.wr (LGT_STATUS_UNSYNC i) 1

/-- One occurrence of entry `i` fires. -/
def Block.lightFire (b : Block) (i : Nat) : Block :=
  if b.lightDue i then ((b.lightUnsync i).lightUse i 1).lightAct i ((b.lightW i).instant (b.lights.get i).next)
  else b

/-- LIGHT_OCCURRENCE (R48): the occurrence of entry `i`, after those due in the same cycle that act before it (R49). -/
def Block.lightOccur (b : Block) (i : Nat) : Block :=
  let order := b.lightOrder
  forEach (order.take (order.idxOf i + 1)) b Block.lightFire

/-- An on-time runs to its scheduled end (R50); light execution is held in S3 (R52). -/
def Block.lightOnTimeOver (b : Block) (i : Nat) : Block :=
  if b.lightsRun && decide ((b.lights.get i).onEnd ≤ b.now) then b.lightEnd i else b

/-- LIGHT_ON_TIME_END (R50). -/
def execLightOnTimeEnd (i : Fin 64) (s : State) : Out := onBlock s (fun b => Block.freeRun b (b.lightOnTimeOver i))

/-- LIGHT_OCCURRENCE (R48). -/
def execLightOccurrence (i : Fin 64) (s : State) : Out := onBlock s (fun b => b.lightOccur i)

/-! ## Beacons (R31, R51, R53) -/

/-- A forward step has passed occurrences of entry `i` (R51): the last one passed fires once with LATE, the others are
skipped. A windowed verb whose whole on-time was passed performs no action. -/
def Block.lightStepped (b : Block) (i : Nat) : Block :=
  let e := b.lightW i
  let b := if b.lightActive i && decide ((b.lights.get i).onEnd ≤ b.now) then b.lightEnd i else b
  if !b.lightDue i then b
  else
    let next := (b.lights.get i).next
    let passed := (b.now - e.instant next) / max 1 e.periodNs + 1
    let passed := if e.count = 0 then passed else min passed (b.rd (LGT_STATUS_REMAIN i))
    let b := b.lightSkip i (passed - 1)
    let t := e.instant (next + (passed - 1))
    let b := ((b.wr (LGT_STATUS_LATE i) 1).lightUnsync i).lightUse i 1
    let windowed := verbWindowed e.verb || (e.verb == 6 && e.on != 0)
    if windowed && decide (t + e.onNs ≤ b.now) then b else b.lightAct i t

/-- An accepted beacon (R31), with the first beacon's and a forward step's effects on the lights. -/
def Block.beaconTaken (b : Block) (beacon : Nat) (hold : Bool) : Block :=
  if b.pwr.inS3 || b.pwr.dead then b
  else
    let (b, stepped, first) := b.discipline beacon hold
    if first then forEach ((List.range 64).filter (fun i => (b.lightW i).armed)) b (fun b i => b.lightRestart i b.now)
    else if stepped then Block.freeRun b (forEach b.lightOrder b Block.lightStepped)
    else b

/-- BEACON_ACCEPTED (R31): the beacon time and TB_HOLD. -/
def execBeaconAccepted (beacon : BitVec 64) (hold : Bool) (s : State) : Out :=
  onBlock s (fun b => b.beaconTaken beacon.toNat hold)

/-! ## Resets (R536, R537, R579) -/

/-- The NVM after a reset: a store in progress leaves its copy torn, a clear of the ring leaves it partly zeroed. -/
def Block.nvmTorn (b : Block) : Block :=
  let (k, b) := b.draw
  let b := forEach b.stores b (fun b x => b.nvmPut x.off ((List.range x.bytes.length).map (Config.tornByte k)))
  if b.on AUD_STATUS_BUSY then
    forEach (List.range 4096) b (fun b i =>
      if (Config.tornByte k (2 ^ 20 + i)).toNat % 2 = 0 then b.nvmPut (audOff i) (List.replicate 32 0) else b)
  else b

/-- The block as RST_N leaves it: everything at reset but the NVM, and the model's own numbering. -/
def Block.afterReset (b : Block) : Block :=
  let b := b.nvmTorn
  { (default : Block) with nvm := b.nvm, fresh := b.fresh }

/-- RESET (R536). -/
def execReset (s : State) : Out := onBlock s Block.afterReset

/-- AON_RESET (R537): it acts as RST_N low as well; no part of the always-on domain that a reset does not clear is visible
after RST_N (R579). -/
def execAonReset (s : State) : Out := onBlock s Block.afterReset

end Sys2Proof.Machine
end

