-- ==== Sys2Proof/Machine/Readback.lean ====
section
/-! DEFINITION. What a management read returns: the words of the registers, those that show state held elsewhere, and the
NVM window (R1, R525, R579 to R583). -/

namespace Sys2Proof.Machine

open Reg

/-- A bit at a position. -/
def bitAt (v : Bool) (k : Nat) : Nat := if v then 2 ^ k else 0

/-- The word a register's fields give; WO fields read zero (R1). -/
def Block.plainWord (b : Block) (r : RegInfo) (idx : List Nat) (off : Nat) : Nat :=
  r.fields.foldl (fun w f => if f.acc = .wo then w else w + b.rd (f.at_ r.name idx off) * 2 ^ f.lo) 0

/-- Groups of each interrupt line (R545). -/
def lineGroups : Nat → List Nat
  | 0 => [0, 1, 2, 4]
  | 1 => [6, 7]
  | 2 => [8, 9, 10]
  | 3 => [11, 12, 13, 14, 15]
  | 4 => [16, 17]
  | 5 => [18, 24]
  | 6 => [19, 20, 21, 22, 23]
  | 7 => [25, 26]
  | _ => []

/-- Level of INT_LINE[k] (R545); the output itself is held at 0 while the core is off (R534). -/
def Block.intLine (b : Block) (k : Nat) : Bool := (lineGroups k).any (fun g => b.bit GLB_INT_PEND_PEND g)

/-- The built-in policy is in use: in harbour mode and before an image has been applied (R525). -/
def Block.builtinPolicy (b : Block) : Bool := b.harbour || !b.img.applied

/-- A mask of the policy in use (R525). -/
def Block.policy (b : Block) (f : Fld) : Nat := if b.builtinPolicy then 0x07FFFFFF else b.rd f

/-- Entry points of R74 that are running. -/
def Block.keeperActive (b : Block) : Nat :=
  let chans := List.range 16
  let trains (p : TrainWhy → Bool) : Bool := b.phy.train.any (fun e => match e.2 with
    | some t => p t.why
    | none => false)
  let target (p : Nat → Bool) : Bool := chans.any (fun n => match b.pwr.target.get n with
    | some t => p t
    | none => false)
  bitAt (b.rd HBR_STATUS_STATE == 1 && decide (5 ≤ b.rd HBR_STATUS_STEP)) 0
    + bitAt (trains (fun w => w == .start || w == .harbour)) 2 + bitAt (trains (fun w => !(w == .start || w == .harbour))) 3
    + bitAt (target (fun t => t != pwA0)) 4 + bitAt (target (fun t => t == pwA0)) 5
    + bitAt (chans.any (fun n => b.rplState n == rpReleasing || b.rplState n == rpAttaching)) 6
    + bitAt (b.ecc.repair.any (fun e => e.2.isSome)) 7

/-- A word of a clause set: half `k % 2` of clause `k / 2` (10, registers). -/
def clauseHalf (text : List Byte) (k : Nat) : Nat :=
  if k / 2 < clauseCount text then clauseWord text (k / 2) / 2 ^ (32 * (k % 2)) % 2 ^ 32 else 0

/-- The highest debt among the ranks of a subchannel. -/
def Block.maxDebt (b : Block) (s : Nat) : Int :=
  match (List.range (b.subRanks s)).map (fun r => (b.subs.get s).debt.get r) with
  | [] => 0
  | d :: ds => ds.foldl max d

/-- Channels of an interleave set that are fenced or OFF. -/
def Block.setDown (b : Block) (k : Nat) : Nat :=
  if b.hasSec tyInterleave k then
    (b.setChans k).foldl (fun m n => if b.chDown n then m ||| 2 ^ n else m) 0
  else 0

/-- One of the ledger words of a module slot (14, registers). -/
def Ledger.word (l : Ledger) : RegName → Nat
  | .MOD_ID_MFR => l.mfr + 2 ^ 16 * l.date
  | .MOD_ID_SERIAL => l.serial
  | .MOD_CAPS => l.caps
  | .MOD_POWERED => l.powered
  | .MOD_HOT => l.hot
  | .MOD_CE => l.ce
  | .MOD_PERSIST => l.persist
  | .MOD_UE => l.ue
  | .MOD_OVF => l.ovf
  | .MOD_REASON => l.reason
  | _ => 0

/-- Registers that show state held elsewhere: `w` is the word their own fields give. -/
def Block.shownWord (b : Block) (n : RegName) (i j w : Nat) : Nat :=
  match n with
  | .GLB_INT_LINE => (List.range 8).foldl (fun m k => m + bitAt (b.intLine k) k) 0
  | .ROL_N_WRITE => b.policy ROL_N_WRITE_MASK
  | .ROL_O_WRITE => b.policy ROL_O_WRITE_MASK
  | .ROL_O_AUDIT => b.policy ROL_O_AUDIT_MASK
  | .AUD_STATUS => w + b.mg.audQ.length * 2 ^ 16
  | .NVM_STATUS => if b.on NVM_STATUS_BUSY then w else w + bitAt (!b.mg.audQ.isEmpty || b.on AUD_STATUS_BUSY) 30
  | .PRT_OUT => (b.ports.get i).beatsReserved * 2 ^ 16 + (b.ports.get i).writesOut
  | .REGU_GT_SERVED => min (b.regu.served.get i) 0xFFFFFFFF
  | .EDT_SET_STATUS => w + b.setDown i
  | .EDT_SET_RB => leAt (b.sec tyInterleave i) (4 * j) 4
  | .TIM_NOW_LO => b.now % 2 ^ 32
  | .TIM_NOW_HI => (b.time.latch.getD b.now) / 2 ^ 32 % 2 ^ 32
  | .KPR_STATUS => w + b.keeperActive * 2 ^ 8
  | .SCH_STATUS =>
    if b.chLockstep (i / 2) && i % 2 == 1 then bitAt (b.on (SCH_STATUS_LOCKSTEP_B i)) 28
    else
      let u := b.subs.get i
      w + bitAt (b.quiesced i) 31 + bitAt u.snt.isSome 29 + u.rq.length * 2 ^ 16 + u.wq.length * 2 ^ 8
  | .SCH_REF_STATUS =>
    w + bitAt (b.refTarget i).isSome 30
      + bitAt (match b.refWindow i with | some l => b.lightActive l | none => false) 29
      + ofSigned 8 (b.maxDebt i) * 2 ^ 16
  | .SCH_THR => w + b.thrLevel i
  | .CLS_WINDOW => clauseHalf ((b.subs.get i).slots.get (j / 256)) (j % 256)
  | .CLS_SHADOW => clauseHalf (b.subs.get i).shadow j
  | .PHY_IMP => w + b.phyInit 4 1 + b.phyInit 5 1 * 2 ^ 4 + b.phyInit 6 1 * 2 ^ 8
  | .CAL_POINT_LO => leAt (b.sec tyCalPoints 0) 0 4
  | .CAL_POINT_HI => leAt (b.sec tyCalPoints 0) 4 4
  | .CAL_PARAM =>
    b.calByte 0x0A + b.calRounds * 2 ^ 8 + b.calRelearn * 2 ^ 16 + b.trainBg * 2 ^ 24 + b.trainBank * 2 ^ 28
  | .MOD_STATE =>
    let l := b.mod.ledger.get i
    bitsOf w 27 24 * 2 ^ 24 + w % 4 + l.verdict * 2 ^ 30 + l.presence * 2 ^ 28 + l.soft * 2 ^ 16
      + (l.erasedDev.getD 0xFF) * 2 ^ 8
  | .MOD_ID_MFR | .MOD_ID_SERIAL | .MOD_CAPS | .MOD_POWERED | .MOD_HOT | .MOD_CE | .MOD_PERSIST | .MOD_UE | .MOD_OVF
  | .MOD_REASON => (b.mod.ledger.get i).word n
  | .TND_STATUS => w + b.tndLanes * 2 ^ 28
  | .TND_LANE => b.tndLaneWord i
  | .TND_LANE_CHUNK => b.tndChunkWord i
  | .THM_RB => leAt (b.sec tyThermal 0) (4 * i) 4
  | .FLT_STATUS => w + b.flt.msgs.length * 2 ^ 8
  | .FLT_REC => b.fltRecWord i j
  | _ => w

/-- An instance that reads zero: the SCH registers of subchannel B of a lockstep channel other than SCH_STATUS (R255), and
ECC_ERASE but for subchannel A of a lockstep channel (13, registers). -/
def Block.idleInstance (b : Block) (r : RegInfo) (i : Nat) : Bool :=
  (r.group == 11 && r.name != .SCH_STATUS && b.chLockstep (i / 2) && i % 2 == 1)
    || (r.name == .ECC_ERASE && !(b.chLockstep (i / 2) && i % 2 == 0))

/-- The domain of a channel register is off (R580). -/
def Block.regOff (b : Block) (r : RegInfo) (i : Nat) : Bool :=
  r.inChannel && (b.chState (i / 2) == pwS2 || b.chState (i / 2) == pwOFF)

/-- The word a register reads, before the read acts on RC fields. -/
def Block.regWord (b : Block) (r : RegInfo) (idx : List Nat) (off : Nat) : Nat :=
  let i := idx.headD 0
  if b.regOff r i then
    if b.chState (i / 2) = pwOFF then 0
    else b.plainWord { r with fields := r.fields.filter (fun f => r.saved f) } idx off
  else if b.idleInstance r i then 0
  else if r.name = .PHY_CK && i % 2 == 1 then b.plainWord r idx (off - 0x8000)
  else b.shownWord r.name i (idx.getD 1 0) (b.plainWord r idx off)

/-- First offset of the maker test space (R523). -/
def testSpace : Nat := 0x500000

/-- A reserved area of the NVM window (R582). -/
def nvmReserved (x : Nat) : Bool :=
  (decide (0xD0200 ≤ x) && decide (x < 0xD8000)) || decide (0xE0000 ≤ x)

/-- A word of the NVM window (R582, R583): zero in a reserved area, and while the self-test has failed. -/
def Block.nvmWord (b : Block) (x : Nat) : Nat :=
  if !b.on NVM_STATUS_SELFTEST_OK || nvmReserved x then 0 else leVal (b.nvmBytes x 4)

/-- The word at a byte offset of the management space (R8, R576). -/
def Block.readWord (b : Block) (off : Nat) : Nat :=
  if testSpace ≤ off then 0
  else if 0x400000 ≤ off then b.nvmWord (off - 0x400000)
  else match findReg off with
    | some (r, idx) => b.regWord r idx off
    | none => 0

end Sys2Proof.Machine
end

