-- ==== Sys2Proof/Machine/Registers.lean ====
section
/-! DEFINITION. Management accesses (R1 to R9, R521 to R530, R540 to R542, R580 to R586): how a write is judged, recorded
and performed, what it sets going, and reads. -/

namespace Sys2Proof.Machine

open Reg

/-! ## Answers and refusals -/

/-- The access has ended: MG_ACK with MG_ERR and MG_RDATA (R540). -/
def Block.mgAnswer (b : Block) (err : Bool) (data : Nat) : Block :=
  { b with mg := { b.mg with ack := true, err := err, rdata := BitVec.ofNat 32 data } }

/-- Load ROL_LAST (R521, R523). -/
def Block.rolLast (b : Block) (reason : Nat) (role : Role) (off : Nat) : Block :=
  ((b.wr ROL_LAST_REASON reason).wr ROL_LAST_ROLE role.code).wr ROL_LAST_OFFSET off

/-- A dropped class Q write (R581): OFFSET keeps the first since FLAG was 0. -/
def Block.cfgReject (b : Block) (off : Nat) : Block :=
  let b := if b.on GLB_CFG_REJECT_FLAG then b else b.wr GLB_CFG_REJECT_OFFSET off
  (b.wr GLB_CFG_REJECT_FLAG 1).bump GLB_CFG_REJECT_COUNT

/-- The KIND 0 record of a write (R526, R527). -/
def Block.writeRec (b : Block) (role : Role) (off outcome old : Nat) (w : Word) : AudRec :=
  { time := b.now, kind := 0, role := role.code, outcome := outcome, offset := off % 2 ^ 23, old := old, new := w.toNat }

/-- The audit queue has room for `n` records of one write (R530); with a failed self-test no write waits. -/
def Block.recRoom (b : Block) (n : Nat) : Bool := !b.on NVM_STATUS_SELFTEST_OK || decide (min n 16 ≤ b.audRoom)

/-! ## Judging a write -/

/-- The Role column names the role; any name serves the maker (R522). -/
def Writers.allow (w : Writers) (role : Role) : Bool :=
  match role, w with
  | .maker, .nobody => false
  | .maker, _ => true
  | .installer, .installer => true
  | .installer, .both => true
  | .operator, .operator => true
  | .operator, .both => true
  | _, _ => false

/-- The write would change the field, whose register reads `old` (R1, R4, R522). -/
def FieldInfo.changes (f : FieldInfo) (old w : Nat) : Bool :=
  let v := w >>> f.lo % 2 ^ f.width
  let o := old >>> f.lo % 2 ^ f.width
  match f.acc with
  | .rw => v != o
  | .w1c => v &&& o != 0
  | .wo => v != 0
  | _ => false

/-- The role policy grants the role a group; it does not apply to the maker (R522). -/
def Block.policyOk (b : Block) (role : Role) (g : Nat) : Bool :=
  match role with
  | .maker => true
  | .installer => bitOf (b.policy ROL_N_WRITE_MASK) g
  | .operator => bitOf (b.policy ROL_O_WRITE_MASK) g
  | .none => false

/-- The unit that owns a class Q field is quiesced: a port in DISABLED (R158), a scheduler (R257, R344), the PHY of the
trained values (R344), the sideband during start (14), the Tender while disabled and idle (15). -/
def Block.ownerQuiet (b : Block) (r : RegInfo) (i : Nat) : Bool :=
  match r.group with
  | 6 => b.portState i == ptDisabled
  | 11 => b.quiesced i
  | 12 => b.quiesced i
  | 14 => if r.name = .PHY_CTL then b.quiesced i else b.on (PHY_STATUS_TRACK_FROZEN i) && !b.trainBusy i
  | 18 => !b.on TND_CTL_ENABLE && b.tndLanes == 0
  | 26 => b.rd HBR_STATUS_STATE == 1
  | _ => true

/-- Writes a rule declares ignored because of the block's state (R586): ENABLE = 1 of P0 to P4 in harbour mode, and
HBR_CTL.CLEAR outside harbour mode or after entry with ENTRY = NVM. -/
def Block.ruleIgnores (b : Block) (n : RegName) (i w : Nat) : Bool :=
  match n with
  | .PRT_CTL => b.harbour && decide (i < 5) && bitOf w 0
  | .HBR_CTL => bitOf w 0 && (!b.harbour || b.rd HBR_REASON_ENTRY == 2)
  | _ => false

/-- A register whose writes have no effect: instances that read zero, and PHY_CK of subchannel B. -/
def Block.deafInstance (b : Block) (r : RegInfo) (i : Nat) : Bool :=
  b.idleInstance r i || (r.group == 11 && b.chLockstep (i / 2) && i % 2 == 1) || (r.name == .PHY_CK && i % 2 == 1)

/-- What becomes of a write. -/
inductive Verdict
  /-- Refused for rights or role None; OUTCOME and REASON have this code (R523). -/
  | refuse (reason : Nat)
  /-- Not performed for another reason, with its OUTCOME; a dropped class Q write also sets GLB_CFG_REJECT (R586). -/
  | reject (outcome : Nat) (drop : Bool)
  /-- Accepted by the image load window. -/
  | window
  /-- Performed on the factory trims. -/
  | trim
  /-- Performed on a register. -/
  | go (r : RegInfo) (idx : List Nat)
  deriving DecidableEq, Repr

/-- Judge a write to a register (R4, R522, R586), whose word reads `old`. -/
def Block.judgeReg (b : Block) (role : Role) (r : RegInfo) (idx : List Nat) (old w : Nat) : Verdict :=
  let i := idx.headD 0
  let ch := r.fields.filter (fun f => f.changes old w)
  if r.name = .PHY_RATE then .reject 4 false
  else if ch.any (fun f => !f.writers.allow role) then .refuse 1
  else if !ch.isEmpty && !b.policyOk role r.group then .refuse 2
  else if b.regOff r i || b.ruleIgnores r.name i w then .reject 4 false
  else if ch.any (fun f => f.cls == .q) && !b.deafInstance r i && !b.ownerQuiet r i then .reject 4 true
  else if r.name = .ECC_LOG_SEL && bitOf w 31 && b.logHeld i (w % 32) then .reject 4 true
  else .go r idx

/-- Judge a write to a byte offset (R8, R521 to R523, R582, R584). -/
def Block.judgeWrite (b : Block) (role : Role) (off : Nat) (w : Word) : Verdict :=
  if role = .none then .refuse 3
  else if testSpace ≤ off then .refuse 1
  else if 0x400000 ≤ off then
    let x := off - 0x400000
    if nvmReserved x then .reject 5 false
    else if x < 0xD0200 || role != .maker then .refuse 1
    else if !b.on NVM_CTL_TRIM_WE then .reject 4 false
    else .trim
  else if 0x300000 ≤ off then
    if role = .operator then .refuse 1
    else if !b.policyOk role 1 then .refuse 2
    else if (b.imWindow (off - 0x300000) w).isNone then .reject 4 false
    else .window
  else match findReg off with
    | some (r, idx) => b.judgeReg role r idx (b.regWord r idx off) w.toNat
    | none => .reject 5 false

/-! ## Performing a write -/

/-- A field that keeps its value although its register is written: BYPASS in harbour mode (R248), SEV of a fixed source
(R505), ENABLE = 1 in STOPPED (R160), and the fields of PHY_CA, PHY_CS and PHY_CK that read zero. -/
def Block.fieldKept (b : Block) (n : RegName) (i : Nat) (f : FieldInfo) (v : Nat) : Bool :=
  match n with
  | .CCH_CTL => f.lo == 0 && b.harbour
  | .FLT_SEV => f.lo == 0 && b.on (FLT_SEV_FIXED i)
  | .PRT_CTL => f.lo == 0 && v == 1 && b.portState i == ptStopped
  | .PHY_CA => f.lo == 12
  | .PHY_CS => f.lo == 12
  | .PHY_CK => f.lo == 8
  | _ => false

/-- Store the fields of a word by their access codes (R1); class S fields go to the shadow (R4). -/
def Block.storeWord (b : Block) (r : RegInfo) (idx : List Nat) (off w : Nat) : Block :=
  forEach r.fields b (fun b f =>
    let x := f.at_ r.name idx off
    let v := w >>> f.lo % 2 ^ f.width
    if b.fieldKept r.name (idx.headD 0) f v then b
    else match f.acc with
      | .rw => b.wr x v
      | .wo => b.wr x v
      | .w1c => b.wr x (b.rd x - (b.rd x &&& v))
      | _ => b)

/-- Action fields hold nothing after their action. -/
def Block.dropActions (b : Block) (r : RegInfo) (idx : List Nat) (off : Nat) : Block :=
  forEach r.fields b (fun b f => if f.acc = .wo then b.wr (f.at_ r.name idx off) 0 else b)

/-- Registers of cache maintenance that a write leaves alone while an operation runs (08, registers). -/
def isMnt (n : RegName) : Bool :=
  [RegName.CCH_MNT_CTL, .CCH_MNT_BASE_LO, .CCH_MNT_BASE_HI, .CCH_MNT_LIMIT_LO, .CCH_MNT_LIMIT_HI, .CCH_MNT_SETS,
    .CCH_MNT_WAYS, .CCH_MNT_WB_CNT, .CCH_MNT_REFUSED_CNT].contains n

/-- SNT_CALL_CTL.GO (R312): without effect while a call is queued or runs. -/
def Block.sentenceCall (b : Block) (s : Nat) : Block :=
  if b.on (SNT_CALL_STATUS_BUSY s) then b
  else b.sntRequest s ⟨b.rd (SNT_CALL_CTL_SENTENCE s), b.rd (SNT_CALL_CTL_RANKS s), b.rd (SNT_CALL_ARG_ARG s),
    b.on (SNT_CALL_CTL_URGENT s), .software⟩

/-- Fence bits that a write of a fence register names: the unit, and the mask (R515, R517). -/
def fenceReg : RegName → Option (FenceKind × Bool)
  | .FLT_FENCE_SET_SUB => some (.sub, true)
  | .FLT_FENCE_CLR_SUB => some (.sub, false)
  | .FLT_FENCE_SET_SLICE => some (.slice, true)
  | .FLT_FENCE_CLR_SLICE => some (.slice, false)
  | .FLT_FENCE_SET_PORT => some (.port, true)
  | .FLT_FENCE_CLR_PORT => some (.port, false)
  | _ => none

/-- Records of changed fence bits that a write gives: one for each bit it changes, the sibling's of a lockstep pair among
them (R516, R528, R530). -/
def Block.fenceRecs (b : Block) (n : RegName) (w : Nat) : Nat :=
  match fenceReg n with
  | none => 0
  | some (k, set) =>
    let sib (i : Nat) : Nat := i / 2 * 2 + (1 - i % 2)
    let paired (i : Nat) : Bool := k == .sub && b.chLockstep (i / 2)
    let changes (i : Nat) : Bool :=
      if set then bitOf w i || (paired i && bitOf w (sib i))
      else bitOf w i && !(b.clearRefused k i).1 && (!paired i || (bitOf w (sib i) && !(b.clearRefused k (sib i)).1))
    ((List.range k.count).filter (fun i => b.bit k.reg i != set && changes i)).length

/-- What a performed write of a register sets going. The fields have been stored; `old` is the word before. -/
def Block.writeEffect (b : Block) (role : Role) (n : RegName) (i old w : Nat) (x : Aux) : Block :=
  let act (c : Bool) (f : Block → Block) (b : Block) : Block := if c then f b else b
  match n with
  | .GLB_CFG_REJECT => act (bitOf w 31) (fun b => b.wr GLB_CFG_REJECT_COUNT 0) b
  | .IMG_CTL => act (bitOf w 0) (fun b => b.imOpen role.code) (act (bitOf w 1) Block.imAbort b)
  | .EDT_INVAL => b.invalWrite
  | .PRT_CTL => if x.badHeader && !bitOf w 0 && b.portState i == ptEnabled then b.hdrParity i else b.portCtl i
  | .ARB_COMMIT => act (bitOf w 0) Block.arbCommit b
  | .ARB_HOLD_LIMIT => b.cutoffMask x.mask.toNat
  | .LGT_COMMIT => act (bitOf w 0) Block.lightGo b
  | .REGU_COMMIT => act (bitOf w 0) Block.reguGo b
  | .CCH_CTL => b.bypassWish i
  | .CCH_MNT_CTL => act (bitOf w 31) Block.mntGo b
  | .SCH_REF => act (bitOf old 4 != bitOf w 4) (fun b => b.convertDebt i (bitOf w 4)) b
  | .CLS_CTL => act (bitOf w 31) (fun b => (b.storeUpset x.store).switchGo i) (act (bitOf w 30) (fun b => b.clsResume i) b)
  | .SNT_CALL_CTL => act (bitOf w 31) (fun b => b.sentenceCall i) b
  | .PHY_TRAIN_CTL => act (bitOf w 31) (fun b => b.trainGo i) (act (bitOf w 30) (fun b => b.trainAbort i) b)
  | .PHY_LOOP_CTL =>
    act (bitOf w 31) (fun b => b.loopGo i) (act (bitOf w 30) (fun b => b.loopReport i x.errs.toNat x.lanes.toNat) b)
  | .CAL_CTL =>
    act (bitOf w 31) (fun b => b.calReset i) (act (bitOf w 30) (fun b => b.unsuspect i) b)
  | .ECC_CE_CFG => b.bucketSet i
  | .ECC_LOG_SEL => act (bitOf w 31) (fun b => b.logClear i) (b.logSelect i)
  | .ECC_ERASE => b.eraseWritten i
  | .ECC_REPAIR_CTL => act (bitOf w 31) (fun b => b.repairGo i role.code) b
  | .ECC_INJ_CTL => act (bitOf w 30) Block.injDisarm (act (bitOf w 31) Block.injArm b)
  | .SCB_CTL => act (bitOf w 31) (fun b => (b.passAsk (w % 8)).1) (act (bitOf w 30) Block.passAbort b)
  | .MOD_RPL_CTL => b.rplGo i (w % 4)
  | .TND_TAIL => b.tailWritten
  | .TND_CTL => act (bitOf w 31) Block.tndAbort (act (!bitOf old 0 && bitOf w 0) Block.tndEnabled b)
  | .CTR_SNAP => act (bitOf w 31) Block.snapshotCommand b
  | .CTR_CLEAR => act (bitOf w 31) (fun b => b.ctrClear x.clash) b
  | .PWR_CMD => act (bitOf w 31) Block.pwrGo b
  | .HBR_CTL => act (bitOf w 0) Block.harbourClear b
  | .FLT_REC_CLR => act (bitOf w 31) (fun b => b.recClearGo (bitOf w 30)) b
  | .AUD_CTL => act (bitOf w 31) Block.audClear b
  | .FLT_FENCE_SET_SUB => b.fenceSet .sub w role.code
  | .FLT_FENCE_CLR_SUB => b.fenceClear .sub w role.code
  | .FLT_FENCE_SET_SLICE => b.fenceSet .slice w role.code
  | .FLT_FENCE_CLR_SLICE => b.fenceClear .slice w role.code
  | .FLT_FENCE_SET_PORT => b.fenceSet .port w role.code
  | .FLT_FENCE_CLR_PORT => b.fenceClear .port w role.code
  | _ => b

/-- Perform a write on a register: its fields, then its effect. A write to a deaf instance, to a maintenance register
while an operation runs, or to ECC_REPAIR_CTL while a repair runs (R395), changes nothing but OVERRUN. -/
def Block.performReg (b : Block) (role : Role) (r : RegInfo) (idx : List Nat) (off old : Nat) (w : Word) (x : Aux) : Block :=
  let i := idx.headD 0
  if b.deafInstance r i then b
  else if isMnt r.name && b.on CCH_MNT_STATUS_BUSY then b.wr CCH_MNT_STATUS_OVERRUN 1
  else if r.name = .ECC_REPAIR_CTL && b.repairBusy i then b.wr (ECC_REPAIR_STATUS_OVERRUN i) 1
  else ((b.storeWord r idx off w.toNat).writeEffect role r.name i old w.toNat x).dropActions r idx off

/-- A performed register write is recorded (R528). -/
def Block.recorded (b : Block) (role : Role) (r : RegInfo) : Bool :=
  match role with
  | .maker => true
  | .installer => true
  | .operator => bitOf (b.policy ROL_O_AUDIT_MASK &&& b.policy ROL_O_WRITE_MASK) r.group
      || r.name == .MOD_RPL_CTL || r.name == .HBR_CTL
  | .none => false

/-- One management write: none while a rule holds it back (R126, R530). -/
def Block.tryWrite (b : Block) (role : Role) (off : Nat) (w : Word) (x : Aux) : Option Block :=
  let old := b.readWord off
  let note (b : Block) (outcome : Nat) : Block := b.audPut (b.writeRec role off outcome old w)
  match b.judgeWrite role off w with
  | .refuse reason =>
    if b.recRoom 1 then
      some ((note ((b.rolLast reason role off).bump ROL_REFUSED_CNT_CNT) reason).mgAnswer true 0)
    else none
  | .reject outcome drop =>
    if b.recRoom 1 then some ((note (if drop then b.cfgReject off else b) outcome).mgAnswer true 0) else none
  | .window => (b.imWindow (off - 0x300000) w).map (fun b => b.mgAnswer false 0)
  | .trim =>
    if b.recRoom 1 then some ((note (b.nvmPut (off - 0x400000) (leBytes 4 w.toNat)) 0).mgAnswer false 0) else none
  | .go r idx =>
    let rec_ := b.recorded role r
    if r.name = .EDT_INVAL ∧ bitsOf w.toNat 31 30 ≠ 0 ∧ !b.invalRoom then none
    else if b.recRoom ((if rec_ then 1 else 0) + b.fenceRecs r.name w.toNat) then
      some (((if rec_ then note b 0 else b).performReg role r idx off old w x).mgAnswer false 0)
    else none

/-! ## Reads -/

/-- RC fields are cleared by the read (R1, R3). -/
def Block.readClears (b : Block) (off : Nat) : Block :=
  match findReg off with
  | some (r, idx) =>
    if b.regOff r (idx.headD 0) then b
    else forEach r.fields b (fun b f => if f.acc = .rc then b.wr (f.at_ r.name idx off) 0 else b)
  | none => b

/-- One management read (R1, R41, R453, R521, R523). -/
def Block.doRead (b : Block) (role : Role) (off : Nat) : Block :=
  if role = .none || decide (testSpace ≤ off) then (b.rolLast 3 role off).mgAnswer true 0
  else
    let b := if off = TIM_NOW_LO_NOW.off then b.nowLatch else if off = CTR_LIVE_LO_VAL.off then b.ctrLatchLive else b
    let v := b.readWord off
    let b := if off = TIM_NOW_HI_NOW.off then { b with time := { b.time with latch := none } } else b
    (b.readClears off).mgAnswer false v

/-! ## Accesses that wait (R126, R530, R542) -/

/-- Accesses are acknowledged: step 1 of start has ended, and the block is neither in S3 nor without core power. -/
def Block.mgOpen (b : Block) : Bool := b.start.open_ && !b.pwr.inS3 && !b.pwr.dead

/-- One access; none while a rule holds it back. -/
def Block.tryAccess (b : Block) (a : MgAccess) : Option Block :=
  if !b.mgOpen then none
  else match a.wdata with
    | some w => b.tryWrite a.role (4 * a.addr.toNat) w a.aux
    | none => some (b.doRead a.role (4 * a.addr.toNat))

/-- An access arrives: it is done, or it waits without MG_ACK. -/
def Block.mgAccess (b : Block) (a : MgAccess) : Block :=
  match (if b.mg.held.isEmpty then b.tryAccess a else none) with
  | some b => b
  | none => { b with mg := { b.mg with held := b.mg.held ++ [a], ack := false } }

/-- Do waiting accesses, oldest first, until one has still to wait. -/
def mgDrain : List MgAccess → Block → Block
  | [], b => { b with mg := { b.mg with held := [] } }
  | a :: rest, b =>
    match b.tryAccess a with
    | some b => mgDrain rest b
    | none => { b with mg := { b.mg with held := a :: rest } }

/-- What held an access back may be gone. -/
def Block.mgRetry (b : Block) : Block := mgDrain b.mg.held b

end Sys2Proof.Machine
end

