-- ==== Sys2Proof/Machine/Writes.lean ====
section
/-! DEFINITION. The commands of the management interface: register writes and reads, each with the role of its access, and
the events that end a wait of one. A command with a row of its own names its register; its `w` gives the fields that the
row leaves to the writer. -/

namespace Sys2Proof.Machine

open Reg

/-- A word with one of its fields set to a value. -/
def withField (w : Word) (f : Fld) (v : Nat) : Word :=
  BitVec.ofNat 32 (putBits w.toNat (f.lo + f.width - 1) f.lo (v % 2 ^ f.width))

/-- An access reaches the block. -/
def access (role : Role) (addr : BitVec 21) (data : Option Word) (x : Aux) (s : State) : Out :=
  onBlock s (fun b => b.mgAccess { role := role, addr := addr, wdata := data, aux := x })

/-- A write of a register at a byte offset. -/
def writeReg (role : Role) (off : Nat) (w : Word) (x : Aux) (s : State) : Out :=
  access role (BitVec.ofNat 21 (off / 4)) (some w) x s

/-- A read of a register at a byte offset. -/
def readReg (role : Role) (off : Nat) (s : State) : Out := access role (BitVec.ofNat 21 (off / 4)) none default s

/-- The maker's access to the maker test space, which spec/ does not describe (R523). -/
def isMakerTest (role : Role) (addr : BitVec 21) : Bool := role == .maker && decide (testSpace ≤ 4 * addr.toNat)

/-- REGISTER_WRITE (R4): a write of any offset. -/
def execRegisterWrite (role : Role) (addr : BitVec 21) (w : Word) (s : State) : Out :=
  if isMakerTest role addr then .refused .makerTestSpace else access role addr (some w) default s

/-- REFUSED_READ (R523): a read with role None, or of the maker test space. -/
def execRefusedRead (role : Role) (addr : BitVec 21) (s : State) : Out :=
  if isMakerTest role addr then .refused .makerTestSpace else access role addr none default s

/-- READ_CLEAR (R3): a read of a register with RC fields. -/
def execReadClear (role : Role) (addr : BitVec 21) (s : State) : Out :=
  if isMakerTest role addr then .refused .makerTestSpace else access role addr none default s

/-- TIM_NOW_LATCH (R41): a read of TIM_NOW_LO. -/
def execTimNowLatch (role : Role) (s : State) : Out := readReg role TIM_NOW_LO_NOW.off s

/-- LIVE_READ (R453): a read of CTR_LIVE_LO. -/
def execLiveRead (role : Role) (s : State) : Out := readReg role CTR_LIVE_LO_VAL.off s

/-- IMAGE_WINDOW_WRITE (R80): word `at_` of the image load window. -/
def execImageWindowWrite (role : Role) (at_ : BitVec 18) (w : Word) (s : State) : Out :=
  writeReg role (0x300000 + 4 * at_.toNat) w default s

/-- FACTORY_TRIM_WRITE (R584): word `at_` of the factory-trim partition. -/
def execFactoryTrimWrite (role : Role) (at_ : BitVec 13) (w : Word) (s : State) : Out :=
  writeReg role (0x4D8000 + 4 * at_.toNat) w default s


/-- LIGHT_COMMIT_GO (R43): LGT_COMMIT.GO. -/
def execLightCommitGo (role : Role) (s : State) : Out :=
  writeReg role LGT_COMMIT_GO.off (withField (0 : Word) LGT_COMMIT_GO 1) default s

/-- IMAGE_OPEN (R84): IMG_CTL with OPEN. -/
def execImageOpen (role : Role) (w : Word) (s : State) : Out :=
  writeReg role IMG_CTL_OPEN.off (withField w IMG_CTL_OPEN 1) default s

/-- IMAGE_ABORT (R84): IMG_CTL with ABORT and without OPEN. -/
def execImageAbort (role : Role) (w : Word) (s : State) : Out :=
  writeReg role IMG_CTL_ABORT.off (withField (withField w IMG_CTL_OPEN 0) IMG_CTL_ABORT 1) default s

/-- PORT_ENABLE (R157): PRT_CTL with ENABLE = 1. -/
def execPortEnable (role : Role) (p : Fin 6) (w : Word) (s : State) : Out :=
  writeReg role (PRT_CTL_ENABLE p).off (withField w (PRT_CTL_ENABLE p) 1) default s

/-- PORT_DISABLE (R159): PRT_CTL with ENABLE = 0; with `badHeader` a header that fails its parity transfers in the same cycle
(R160). -/
def execPortDisable (role : Role) (p : Fin 6) (w : PortOff) (s : State) : Out :=
  writeReg role (PRT_CTL_ENABLE p).off (withField w.word (PRT_CTL_ENABLE p) 0)
    { (default : Aux) with badHeader := w.badHeader } s

/-- EDT_INVAL_INDEX (R127): EDT_INVAL with MODE 1; the index stands in EDT_INVAL_FIRST. -/
def execEdtInvalIndex (role : Role) (s : State) : Out :=
  writeReg role EDT_INVAL_MODE.off (withField (0 : Word) EDT_INVAL_MODE 1) default s

/-- EDT_INVAL_RANGE (R127): EDT_INVAL with MODE 2 and COUNT. -/
def execEdtInvalRange (role : Role) (count : BitVec 17) (s : State) : Out :=
  writeReg role EDT_INVAL_MODE.off (withField (withField (0 : Word) EDT_INVAL_MODE 2) EDT_INVAL_COUNT count.toNat) default s

/-- EDT_INVAL_ALL (R127): EDT_INVAL with MODE 3. -/
def execEdtInvalAll (role : Role) (s : State) : Out :=
  writeReg role EDT_INVAL_MODE.off (withField (0 : Word) EDT_INVAL_MODE 3) default s

/-- ARB_COMMIT (R175): ARB_COMMIT.GO. -/
def execArbCommit (role : Role) (s : State) : Out :=
  writeReg role ARB_COMMIT_GO.off (withField (0 : Word) ARB_COMMIT_GO 1) default s

/-- HOLD_LIMIT_WRITE (R174): ARB_HOLD_LIMIT; `mask` names the slices whose transfer in progress has reached the new limit. -/
def execHoldLimitWrite (role : Role) (limit : BitVec 12) (mask : BitVec 16) (s : State) : Out :=
  writeReg role ARB_HOLD_LIMIT_LIMIT.off (withField (0 : Word) ARB_HOLD_LIMIT_LIMIT limit.toNat) { (default : Aux) with mask := mask } s

/-- REGU_COMMIT (R201): REGU_COMMIT.GO. -/
def execReguCommit (role : Role) (s : State) : Out :=
  writeReg role REGU_COMMIT_GO.off (withField (0 : Word) REGU_COMMIT_GO 1) default s

/-- CLEAN (R243): CCH_MNT_CTL with GO and OP = CLEAN; `w` gives MODE and SLICES. -/
def execClean (role : Role) (w : Word) (s : State) : Out :=
  writeReg role CCH_MNT_CTL_GO.off (withField (withField w CCH_MNT_CTL_GO 1) CCH_MNT_CTL_OP mntClean) default s

/-- INVAL (R243): CCH_MNT_CTL with GO and OP = INVAL; `w` gives MODE and SLICES. -/
def execInval (role : Role) (w : Word) (s : State) : Out :=
  writeReg role CCH_MNT_CTL_GO.off (withField (withField w CCH_MNT_CTL_GO 1) CCH_MNT_CTL_OP mntInval) default s

/-- CLEAN_INVAL (R243): CCH_MNT_CTL with GO and OP = CLEAN_INVAL; `w` gives MODE and SLICES. -/
def execCleanInval (role : Role) (w : Word) (s : State) : Out :=
  writeReg role CCH_MNT_CTL_GO.off (withField (withField w CCH_MNT_CTL_GO 1) CCH_MNT_CTL_OP mntCleanInval) default s

/-- DISCARD (R243): CCH_MNT_CTL with GO and OP = DISCARD; `w` gives MODE and SLICES. -/
def execDiscard (role : Role) (w : Word) (s : State) : Out :=
  writeReg role CCH_MNT_CTL_GO.off (withField (withField w CCH_MNT_CTL_GO 1) CCH_MNT_CTL_OP mntDiscard) default s

/-- BYPASS_ENTER (R248): CCH_CTL with BYPASS = 1. -/
def execBypassEnter (role : Role) (c : Fin 16) (w : Word) (s : State) : Out :=
  writeReg role (CCH_CTL_BYPASS c).off (withField w (CCH_CTL_BYPASS c) 1) default s

/-- BYPASS_EXIT (R248): CCH_CTL with BYPASS = 0. -/
def execBypassExit (role : Role) (c : Fin 16) (w : Word) (s : State) : Out :=
  writeReg role (CCH_CTL_BYPASS c).off (withField w (CCH_CTL_BYPASS c) 0) default s

/-- QUIESCE (R256): SCH_CTL with QUIESCE = 1. -/
def execQuiesce (role : Role) (i : Fin 32) (w : Word) (s : State) : Out :=
  writeReg role (SCH_CTL_QUIESCE i).off (withField w (SCH_CTL_QUIESCE i) 1) default s

/-- QUIESCE_CLEAR (R256): SCH_CTL with QUIESCE = 0. -/
def execQuiesceClear (role : Role) (i : Fin 32) (w : Word) (s : State) : Out :=
  writeReg role (SCH_CTL_QUIESCE i).off (withField w (SCH_CTL_QUIESCE i) 0) default s

/-- REFRESH_MODE_CHANGE (R269): SCH_REF with MODE. -/
def execRefreshModeChange (role : Role) (i : Fin 32) (mode : Bool) (w : Word) (s : State) : Out :=
  writeReg role (SCH_REF_MODE i).off (withField w (SCH_REF_MODE i) mode.toNat) default s

/-- CLAUSE_SWITCH (R300): CLS_CTL with GO; `w` gives BIN. -/
def execClauseSwitch (role : Role) (i : StoreRead) (w : Word) (s : State) : Out :=
  writeReg role (CLS_CTL_GO i.sub).off (withField (withField w (CLS_CTL_GO i.sub) 1) (CLS_CTL_RESUME i.sub) 0)
    { (default : Aux) with store := i.flip } s

/-- RESUME (R307): CLS_CTL with RESUME. -/
def execResume (role : Role) (i : Fin 32) (w : Word) (s : State) : Out :=
  writeReg role (CLS_CTL_RESUME i).off (withField (withField w (CLS_CTL_RESUME i) 1) (CLS_CTL_GO i) 0) default s

/-- SENTENCE_CALL (R312): SNT_CALL_CTL with GO; `w` gives the sentence, ranks and urgency. -/
def execSentenceCall (role : Role) (i : Fin 32) (w : Word) (s : State) : Out :=
  writeReg role (SNT_CALL_CTL_GO i).off (withField w (SNT_CALL_CTL_GO i) 1) default s

/-- TRAINING_REQUEST (R333): PHY_TRAIN_CTL with GO; `w` gives STEPS. -/
def execTrainingRequest (role : Role) (i : Fin 32) (w : Word) (s : State) : Out :=
  writeReg role (PHY_TRAIN_CTL_GO i).off (withField (withField w (PHY_TRAIN_CTL_GO i) 1) (PHY_TRAIN_CTL_ABORT i) 0) default s

/-- TRAINING_ABORT (R337): PHY_TRAIN_CTL with ABORT. -/
def execTrainingAbort (role : Role) (i : Fin 32) (w : Word) (s : State) : Out :=
  writeReg role (PHY_TRAIN_CTL_ABORT i).off (withField (withField w (PHY_TRAIN_CTL_ABORT i) 1) (PHY_TRAIN_CTL_GO i) 0) default s

/-- LOOPBACK_START (R342): PHY_LOOP_CTL with GO; `w` gives MODE, PATTERN and LENGTH. -/
def execLoopbackStart (role : Role) (i : Fin 32) (w : Word) (s : State) : Out :=
  writeReg role (PHY_LOOP_CTL_GO i).off (withField (withField w (PHY_LOOP_CTL_GO i) 1) (PHY_LOOP_CTL_STOP i) 0) default s

/-- LOOPBACK_STOP (R343): PHY_LOOP_CTL with STOP; `errs` and `lanes` are what the loopback had counted. -/
def execLoopbackStop (role : Role) (i : Fin 32) (w : Word) (errs : BitVec 32) (lanes : BitVec 40) (s : State) : Out :=
  writeReg role (PHY_LOOP_CTL_STOP i).off (withField (withField w (PHY_LOOP_CTL_STOP i) 1) (PHY_LOOP_CTL_GO i) 0) { (default : Aux) with errs := errs, lanes := lanes } s

/-- CAL_RESET (R368): CAL_CTL with RESET. -/
def execCalReset (role : Role) (i : Fin 32) (w : Word) (s : State) : Out :=
  writeReg role (CAL_CTL_RESET i).off (withField w (CAL_CTL_RESET i) 1) default s

/-- CLEAR_SUSPECT (R365): CAL_CTL with CLEAR_SUSPECT. -/
def execClearSuspect (role : Role) (i : Fin 32) (w : Word) (s : State) : Out :=
  writeReg role (CAL_CTL_RESET i).off (withField (withField w (CAL_CTL_CLEAR_SUSPECT i) 1) (CAL_CTL_RESET i) 0) default s

/-- LOG_SELECT (R387): ECC_LOG_SEL with INDEX. -/
def execLogSelect (role : Role) (i : Fin 32) (index : BitVec 5) (s : State) : Out :=
  writeReg role (ECC_LOG_SEL_INDEX i).off (withField (0 : Word) (ECC_LOG_SEL_INDEX i) index.toNat) default s

/-- LOG_CLEAR (R387): ECC_LOG_SEL with CLEAR. -/
def execLogClear (role : Role) (i : Fin 32) (index : BitVec 5) (s : State) : Out :=
  writeReg role (ECC_LOG_SEL_INDEX i).off (withField (withField (0 : Word) (ECC_LOG_SEL_INDEX i) index.toNat) (ECC_LOG_SEL_CLEAR i) 1) default s

/-- DEVICE_ERASE (R376): ECC_ERASE with VALID = 1. -/
def execDeviceErase (role : Role) (i : Fin 32) (device : BitVec 5) (s : State) : Out :=
  writeReg role (ECC_ERASE_VALID i).off (withField (withField (0 : Word) (ECC_ERASE_DEVICE i) device.toNat) (ECC_ERASE_VALID i) 1) default s

/-- ERASE_END (R376): ECC_ERASE with VALID = 0. -/
def execEraseEnd (role : Role) (i : Fin 32) (device : BitVec 5) (s : State) : Out :=
  writeReg role (ECC_ERASE_VALID i).off (withField (0 : Word) (ECC_ERASE_DEVICE i) device.toNat) default s

/-- SOFT_REPAIR (R393): ECC_REPAIR_CTL with GO and HARD = 0. -/
def execSoftRepair (role : Role) (i : Fin 32) (entry : BitVec 5) (s : State) : Out :=
  writeReg role (ECC_REPAIR_CTL_GO i).off (withField (withField (withField (0 : Word) (ECC_REPAIR_CTL_ENTRY i) entry.toNat) (ECC_REPAIR_CTL_HARD i) 0) (ECC_REPAIR_CTL_GO i) 1) default s

/-- HARD_REPAIR (R394): ECC_REPAIR_CTL with GO and HARD = 1. -/
def execHardRepair (role : Role) (i : Fin 32) (entry : BitVec 5) (s : State) : Out :=
  writeReg role (ECC_REPAIR_CTL_GO i).off (withField (withField (withField (0 : Word) (ECC_REPAIR_CTL_ENTRY i) entry.toNat) (ECC_REPAIR_CTL_HARD i) 1) (ECC_REPAIR_CTL_GO i) 1) default s

/-- SCRUB_REQUEST (R397): SCB_CTL with GO; `w` gives RANGE. -/
def execScrubRequest (role : Role) (w : Word) (s : State) : Out :=
  writeReg role SCB_CTL_GO.off (withField (withField w SCB_CTL_GO 1) SCB_CTL_ABORT 0) default s

/-- SCRUB_ABORT (R401): SCB_CTL with ABORT. -/
def execScrubAbort (role : Role) (w : Word) (s : State) : Out :=
  writeReg role SCB_CTL_GO.off (withField (withField w SCB_CTL_ABORT 1) SCB_CTL_GO 0) default s

/-- INJECTION_ARM (R404): ECC_INJ_CTL with ARM; `w` gives POINT and DEVICE_ALL. -/
def execInjectionArm (role : Role) (w : Word) (s : State) : Out :=
  writeReg role ECC_INJ_CTL_ARM.off (withField (withField w ECC_INJ_CTL_ARM 1) ECC_INJ_CTL_DISARM 0) default s

/-- INJECTION_DISARM (R404): ECC_INJ_CTL with DISARM. -/
def execInjectionDisarm (role : Role) (w : Word) (s : State) : Out :=
  writeReg role ECC_INJ_CTL_ARM.off (withField (withField w ECC_INJ_CTL_DISARM 1) ECC_INJ_CTL_ARM 0) default s

/-- RELEASE (R419): MOD_RPL_CTL with CMD = 1. -/
def execRelease (role : Role) (n : Fin 16) (s : State) : Out :=
  writeReg role (MOD_RPL_CTL_CMD n).off (withField (0 : Word) (MOD_RPL_CTL_CMD n) 1) default s

/-- ATTACH (R420): MOD_RPL_CTL with CMD = 2. -/
def execAttach (role : Role) (n : Fin 16) (s : State) : Out :=
  writeReg role (MOD_RPL_CTL_CMD n).off (withField (0 : Word) (MOD_RPL_CTL_CMD n) 2) default s

/-- RPL_RESUME (R421): MOD_RPL_CTL with CMD = 3. -/
def execRplResume (role : Role) (n : Fin 16) (s : State) : Out :=
  writeReg role (MOD_RPL_CTL_CMD n).off (withField (0 : Word) (MOD_RPL_CTL_CMD n) 3) default s

/-- TAIL_WRITE (R425): TND_TAIL. -/
def execTailWrite (role : Role) (tail : BitVec 16) (s : State) : Out :=
  writeReg role TND_TAIL_TAIL.off (withField (0 : Word) TND_TAIL_TAIL tail.toNat) default s

/-- TENDER_ENABLE (R430): TND_CTL with ENABLE = 1. -/
def execTenderEnable (role : Role) (w : Word) (s : State) : Out :=
  writeReg role TND_CTL_ENABLE.off (withField (withField w TND_CTL_ENABLE 1) TND_CTL_ABORT 0) default s

/-- TENDER_DISABLE (R427): TND_CTL with ENABLE = 0. -/
def execTenderDisable (role : Role) (w : Word) (s : State) : Out :=
  writeReg role TND_CTL_ENABLE.off (withField (withField w TND_CTL_ENABLE 0) TND_CTL_ABORT 0) default s

/-- TENDER_ABORT (R442): TND_CTL with ABORT. -/
def execTenderAbort (role : Role) (w : Word) (s : State) : Out :=
  writeReg role TND_CTL_ABORT.off (withField w TND_CTL_ABORT 1) default s

/-- SNAPSHOT_COMMAND (R449): CTR_SNAP with GO. -/
def execSnapshotCommand (role : Role) (groups : BitVec 16) (s : State) : Out :=
  writeReg role CTR_SNAP_GO.off (withField (withField (0 : Word) CTR_SNAP_GROUPS groups.toNat) CTR_SNAP_GO 1) default s

/-- COUNTER_CLEAR (R454): CTR_CLEAR with GO; `clash` is the amount of an increment of the counter in the cycle of the clear, 0 for none. -/
def execCounterClear (role : Role) (index : BitVec 10) (clash : Nat) (s : State) : Out :=
  writeReg role CTR_CLEAR_GO.off (withField (withField (0 : Word) CTR_CLEAR_INDEX index.toNat) CTR_CLEAR_GO 1) { (default : Aux) with clash := clash } s

/-- POWER_REQUEST_A0 (R471): PWR_CMD with GO and STATE A0. -/
def execPowerRequestA0 (role : Role) (channels : BitVec 16) (s : State) : Out :=
  writeReg role PWR_CMD_GO.off (withField (withField (withField (0 : Word) PWR_CMD_CHANNELS channels.toNat) PWR_CMD_STATE 0) PWR_CMD_GO 1) default s

/-- POWER_REQUEST_A1 (R470): PWR_CMD with GO and STATE A1. -/
def execPowerRequestA1 (role : Role) (channels : BitVec 16) (s : State) : Out :=
  writeReg role PWR_CMD_GO.off (withField (withField (withField (0 : Word) PWR_CMD_CHANNELS channels.toNat) PWR_CMD_STATE 1) PWR_CMD_GO 1) default s

/-- POWER_REQUEST_S1 (R470): PWR_CMD with GO and STATE S1. -/
def execPowerRequestS1 (role : Role) (channels : BitVec 16) (s : State) : Out :=
  writeReg role PWR_CMD_GO.off (withField (withField (withField (0 : Word) PWR_CMD_CHANNELS channels.toNat) PWR_CMD_STATE 2) PWR_CMD_GO 1) default s

/-- POWER_REQUEST_S2 (R470): PWR_CMD with GO and STATE S2. -/
def execPowerRequestS2 (role : Role) (channels : BitVec 16) (s : State) : Out :=
  writeReg role PWR_CMD_GO.off (withField (withField (withField (0 : Word) PWR_CMD_CHANNELS channels.toNat) PWR_CMD_STATE 3) PWR_CMD_GO 1) default s

/-- POWER_REQUEST_S3 (R470): PWR_CMD with GO and STATE S3. -/
def execPowerRequestS3 (role : Role) (channels : BitVec 16) (s : State) : Out :=
  writeReg role PWR_CMD_GO.off (withField (withField (withField (0 : Word) PWR_CMD_CHANNELS channels.toNat) PWR_CMD_STATE 4) PWR_CMD_GO 1) default s

/-- HARBOUR_CLEAR (R504): HBR_CTL with CLEAR. -/
def execHarbourClear (role : Role) (w : Word) (s : State) : Out :=
  writeReg role HBR_CTL_CLEAR.off (withField w HBR_CTL_CLEAR 1) default s

/-- RECORD_CLEAR (R511): FLT_REC_CLR with GO and INDEX. -/
def execRecordClear (role : Role) (index : BitVec 7) (s : State) : Out :=
  writeReg role FLT_REC_CLR_GO.off (withField (withField (0 : Word) FLT_REC_CLR_INDEX index.toNat) FLT_REC_CLR_GO 1) default s

/-- RECORD_CLEAR_ALL (R511): FLT_REC_CLR with GO and ALL. -/
def execRecordClearAll (role : Role) (index : BitVec 7) (s : State) : Out :=
  writeReg role FLT_REC_CLR_GO.off (withField (withField (withField (0 : Word) FLT_REC_CLR_INDEX index.toNat) FLT_REC_CLR_GO 1) FLT_REC_CLR_ALL 1) default s

/-- AUDIT_CLEAR (R532): AUD_CTL with CLEAR. -/
def execAuditClear (role : Role) (w : Word) (s : State) : Out :=
  writeReg role AUD_CTL_CLEAR.off (withField w AUD_CTL_CLEAR 1) default s

/-- Fence set registers by unit (R515). -/
def fenceSetReg : FenceMask → Nat × Word
  | .sub m => (FLT_FENCE_SET_SUB_U.off, m)
  | .slice m => (FLT_FENCE_SET_SLICE_U.off, m.setWidth 32)
  | .port m => (FLT_FENCE_SET_PORT_U.off, m.setWidth 32)

/-- Fence clear registers by unit (R517). -/
def fenceClrReg : FenceMask → Nat × Word
  | .sub m => (FLT_FENCE_CLR_SUB_U.off, m)
  | .slice m => (FLT_FENCE_CLR_SLICE_U.off, m.setWidth 32)
  | .port m => (FLT_FENCE_CLR_PORT_U.off, m.setWidth 32)

/-- FENCE_SET (R515): a write of FLT_FENCE_SET. -/
def execFenceSet (role : Role) (units : FenceMask) (s : State) : Out :=
  writeReg role (fenceSetReg units).1 (fenceSetReg units).2 default s

/-- FENCE_CLEAR (R517): a write of FLT_FENCE_CLR. -/
def execFenceClear (role : Role) (units : FenceMask) (s : State) : Out :=
  writeReg role (fenceClrReg units).1 (fenceClrReg units).2 default s

/-! ## Events that end a wait -/

/-- EDT_INVAL_COMPLETE (R127): the oldest invalidate completes, and a held write of EDT_INVAL finds room. -/
def execEdtInvalComplete (s : State) : Out := onBlock s (fun b => b.invalRun.mgRetry)

/-- AUDIT_STORE (R530): the oldest queued record is stored, and a held write finds room for its records. -/
def execAuditStore (s : State) : Out := onBlock s (fun b => b.audStore.mgRetry)

/-- STATE_EXIT_DONE (R476): the exit of a channel, or with `who = none` of the block from S3, after which a waiting access
is done. -/
def execStateExitDone (who : Option (Fin 16)) (e : RestoreErr) (s : State) : Out :=
  onBlock s (fun b => (b.stateExited (who.map Fin.val) e).mgRetry)

/-- START_SEQUENCE (R492, R554): the sampled TEST_EN_N and the outcome of the NVM self-test. Steps 1 to 3 end, and a
waiting access is done (R542). -/
def execStartSequence (testEn selfTest : Bool) (s : State) : Out :=
  onBlock s (fun b =>
    if b.start.open_ || b.start.maker || b.pwr.dead then b
    else if !testEn then { b with start := { b.start with maker := true } }
    else (({ b with start := { b.start with open_ := true } }).startStep3 selfTest).mgRetry)

end Sys2Proof.Machine
end

