-- ==== Sys2Proof/Machine/Idle.lean ====
section
/-! DEFINITION. What happens with time alone: one TCLK cycle of local time and the counts that go with it, or in S3 one
AOCLK period (R31, R37, R446, R538). The step takes it when no command waits. -/

namespace Sys2Proof.Machine

open Reg

/-- Counts that run with every FCLK cycle, for `n` cycles: CYCLES of ports and slices, RSP_STALL of a port whose response
beat is not taken, CEIL_HELD for each requester a ceiling holds, LANE_BUSY of the Tender (R446); owed candidates set their demand flags (R190). -/
def Block.countCycles (b : Block) (n : Nat) : Block :=
  let b := forEach (List.range 6) b (fun b p =>
    let b := b.count (ctrPort p) 10 n default
    if (b.ports.get p).rsp.isEmpty then b else b.count (ctrPort p) 9 n default)
  let b := forEach (List.range 16) b (fun b c =>
    let b := b.count (ctrSlice c) 10 n default
    forEach (List.range 9) b (fun b i =>
      match (b.slices.get c).q.get i with
      | r :: _ => if b.ceilingHolds r then
          b.count ctrRegu 3 n { (default : Carry) with master := some (tagMaster r.tag) } else b
      | [] => b))
  (b.demandSeen (List.range 16)).count ctrTender 7 (n * popCount b.tndLanes 4) default

/-- One AOCLK period of the always-on domain in S3: 1 / 32,768 s of local time, whose error bound grows at 50 ppm
(R37). -/
def Block.aoTick (b : Block) : Block :=
  let b := { b with time := b.time.advance 131072000000000 }
  b.holdGrow 48828125

/-- Time passes and nothing else happens. Without core power nothing does (R549). -/
def Block.idle (b : Block) : Block :=
  if b.pwr.dead then b
  else if b.pwr.inS3 then b.aoTick
  else
    let (i, b) := b.tick.draw
    b.countCycles (Config.fclkCycles i)

end Sys2Proof.Machine
end

