-- ==== Sys2Proof/Machine/Dispatch.lean ====
section
/-! DEFINITION. One arm per command, each a direct call of its meaning. -/

namespace Sys2Proof.Machine

def exec (i : Instr) (s : State) : Host.Outcome State Fault Refusal :=
  match i with
  | .registerWrite role addr w => Sys2Proof.Machine.execRegisterWrite role addr w s
  | .refusedRead role addr => Sys2Proof.Machine.execRefusedRead role addr s
  | .readClear role addr => Sys2Proof.Machine.execReadClear role addr s
  | .timNowLatch role => Sys2Proof.Machine.execTimNowLatch role s
  | .beaconAccepted beacon hold => Sys2Proof.Machine.execBeaconAccepted beacon hold s
  | .beaconDiscarded => Sys2Proof.Machine.execBeaconDiscarded s
  | .holdoverEntry => Sys2Proof.Machine.execHoldoverEntry s
  | .lightCommitGo role => Sys2Proof.Machine.execLightCommitGo role s
  | .lightCommitDone => Sys2Proof.Machine.execLightCommitDone s
  | .lightOccurrence ix => Sys2Proof.Machine.execLightOccurrence ix s
  | .lightOnTimeEnd ix => Sys2Proof.Machine.execLightOnTimeEnd ix s
  | .imageOpen role w => Sys2Proof.Machine.execImageOpen role w s
  | .imageAbort role w => Sys2Proof.Machine.execImageAbort role w s
  | .imageWindowWrite role at_ w => Sys2Proof.Machine.execImageWindowWrite role at_ w s
  | .imageChecksDone => Sys2Proof.Machine.execImageChecksDone s
  | .imageVerdict ok => Sys2Proof.Machine.execImageVerdict ok s
  | .sigTimeout => Sys2Proof.Machine.execSigTimeout s
  | .imageApplyDone => Sys2Proof.Machine.execImageApplyDone s
  | .reloadLightListApply => Sys2Proof.Machine.execReloadLightListApply s
  | .rd64 p h upset => Sys2Proof.Machine.execRd64 p h upset s
  | .rd256 p h upset => Sys2Proof.Machine.execRd256 p h upset s
  | .wr64 p h upset => Sys2Proof.Machine.execWr64 p h upset s
  | .wrp p h upset => Sys2Proof.Machine.execWrp p h upset s
  | .prefetch p h upset => Sys2Proof.Machine.execPrefetch p h upset s
  | .reservedOpcode p h n => Sys2Proof.Machine.execReservedOpcode p h n s
  | .writeDataBeat p d => Sys2Proof.Machine.execWriteDataBeat p d s
  | .responseTransfer p => Sys2Proof.Machine.execResponseTransfer p s
  | .portEnable role p w => Sys2Proof.Machine.execPortEnable role p w s
  | .portDisable role p w => Sys2Proof.Machine.execPortDisable role p w s
  | .descriptorFetchStart => Sys2Proof.Machine.execDescriptorFetchStart s
  | .descriptorFetchReturn => Sys2Proof.Machine.execDescriptorFetchReturn s
  | .edtInvalIndex role => Sys2Proof.Machine.execEdtInvalIndex role s
  | .edtInvalRange role count => Sys2Proof.Machine.execEdtInvalRange role count s
  | .edtInvalAll role => Sys2Proof.Machine.execEdtInvalAll role s
  | .edtInvalComplete => Sys2Proof.Machine.execEdtInvalComplete s
  | .descriptorUpdate => Sys2Proof.Machine.execDescriptorUpdate s
  | .sliceGrant c up => Sys2Proof.Machine.execSliceGrant c up s
  | .arbCutoff c => Sys2Proof.Machine.execArbCutoff c s
  | .arbCommit role => Sys2Proof.Machine.execArbCommit role s
  | .holdLimitWrite role limit mask => Sys2Proof.Machine.execHoldLimitWrite role limit mask s
  | .allocationRetry c => Sys2Proof.Machine.execAllocationRetry c s
  | .queueInsert c write upset => Sys2Proof.Machine.execQueueInsert c write upset s
  | .localBoundary => Sys2Proof.Machine.execLocalBoundary s
  | .reguCommit role => Sys2Proof.Machine.execReguCommit role s
  | .reguCommitDone => Sys2Proof.Machine.execReguCommitDone s
  | .clean role w => Sys2Proof.Machine.execClean role w s
  | .inval role w => Sys2Proof.Machine.execInval role w s
  | .cleanInval role w => Sys2Proof.Machine.execCleanInval role w s
  | .discard role w => Sys2Proof.Machine.execDiscard role w s
  | .maintenanceSliceStart c => Sys2Proof.Machine.execMaintenanceSliceStart c s
  | .maintenanceComplete => Sys2Proof.Machine.execMaintenanceComplete s
  | .bypassEnter role c w => Sys2Proof.Machine.execBypassEnter role c w s
  | .bypassExit role c w => Sys2Proof.Machine.execBypassExit role c w s
  | .bypassEntryComplete c => Sys2Proof.Machine.execBypassEntryComplete c s
  | .bypassExitComplete c => Sys2Proof.Machine.execBypassExitComplete c s
  | .schedulerSlot ix mrr => Sys2Proof.Machine.execSchedulerSlot ix mrr s
  | .refreshTick ix => Sys2Proof.Machine.execRefreshTick ix s
  | .pageIdleTimeout ix rank bg bank => Sys2Proof.Machine.execPageIdleTimeout ix rank bg bank s
  | .alert ix => Sys2Proof.Machine.execAlert ix s
  | .alertBackoffEnd ix => Sys2Proof.Machine.execAlertBackoffEnd ix s
  | .alertClassification ix k => Sys2Proof.Machine.execAlertClassification ix k s
  | .writeRetentionExpiry ix => Sys2Proof.Machine.execWriteRetentionExpiry ix s
  | .quiesce role ix w => Sys2Proof.Machine.execQuiesce role ix w s
  | .quiesceClear role ix w => Sys2Proof.Machine.execQuiesceClear role ix w s
  | .refreshModeChange role ix mode w => Sys2Proof.Machine.execRefreshModeChange role ix mode w s
  | .clauseSwitch role ix w => Sys2Proof.Machine.execClauseSwitch role ix w s
  | .clauseSwitchDone ix => Sys2Proof.Machine.execClauseSwitchDone ix s
  | .clauseCheck ix => Sys2Proof.Machine.execClauseCheck ix s
  | .clauseCompare ix parity => Sys2Proof.Machine.execClauseCompare ix parity s
  | .haltReloadDone ix => Sys2Proof.Machine.execHaltReloadDone ix s
  | .resume role ix w => Sys2Proof.Machine.execResume role ix w s
  | .sentenceCall role ix w => Sys2Proof.Machine.execSentenceCall role ix w s
  | .sentenceStart ix => Sys2Proof.Machine.execSentenceStart ix s
  | .sentenceWaitEnd ix => Sys2Proof.Machine.execSentenceWaitEnd ix s
  | .sentencePoll ix bytes => Sys2Proof.Machine.execSentencePoll ix bytes s
  | .stepWaitExpiry ix => Sys2Proof.Machine.execStepWaitExpiry ix s
  | .sentenceTimeout ix => Sys2Proof.Machine.execSentenceTimeout ix s
  | .ckStop ix => Sys2Proof.Machine.execCkStop ix s
  | .ckStart ix => Sys2Proof.Machine.execCkStart ix s
  | .trackFreeze ix => Sys2Proof.Machine.execTrackFreeze ix s
  | .trackResume ix => Sys2Proof.Machine.execTrackResume ix s
  | .trainingRequest role ix w => Sys2Proof.Machine.execTrainingRequest role ix w s
  | .trainingStart => Sys2Proof.Machine.execTrainingStart s
  | .trainingStepDone ix m a => Sys2Proof.Machine.execTrainingStepDone ix m a s
  | .trainingStepTimeout ix => Sys2Proof.Machine.execTrainingStepTimeout ix s
  | .trainingAbort role ix w => Sys2Proof.Machine.execTrainingAbort role ix w s
  | .loopbackStart role ix w => Sys2Proof.Machine.execLoopbackStart role ix w s
  | .loopbackStop role ix w errs lanes => Sys2Proof.Machine.execLoopbackStop role ix w errs lanes s
  | .loopbackDone ix errs lanes => Sys2Proof.Machine.execLoopbackDone ix errs lanes s
  | .rateChange n rate => Sys2Proof.Machine.execRateChange n rate s
  | .pllRelock n => Sys2Proof.Machine.execPllRelock n s
  | .trackingInterval ix => Sys2Proof.Machine.execTrackingInterval ix s
  | .receiveWindowDone ix lane d0 d1 d2 d3 t1 t2 t3 t4 => Sys2Proof.Machine.execReceiveWindowDone ix lane d0 d1 d2 d3 t1 t2 t3 t4 s
  | .windowAgeExpiry ix lane => Sys2Proof.Machine.execWindowAgeExpiry ix lane s
  | .oscillatorRunDue ix => Sys2Proof.Machine.execOscillatorRunDue ix s
  | .oscillatorResult ix counts => Sys2Proof.Machine.execOscillatorResult ix counts s
  | .writeProbeDue ix => Sys2Proof.Machine.execWriteProbeDue ix s
  | .writeProbeResult ix left right mid => Sys2Proof.Machine.execWriteProbeResult ix left right mid s
  | .calStoreDone ix p => Sys2Proof.Machine.execCalStoreDone ix p s
  | .calReset role ix w => Sys2Proof.Machine.execCalReset role ix w s
  | .clearSuspect role ix w => Sys2Proof.Machine.execClearSuspect role ix w s
  | .dramReadReturn ix code => Sys2Proof.Machine.execDramReadReturn ix code s
  | .mirrorReadReturn => Sys2Proof.Machine.execMirrorReadReturn s
  | .bucketLeak ix => Sys2Proof.Machine.execBucketLeak ix s
  | .logSelect role ix index => Sys2Proof.Machine.execLogSelect role ix index s
  | .logClear role ix index => Sys2Proof.Machine.execLogClear role ix index s
  | .deviceErase role ix device => Sys2Proof.Machine.execDeviceErase role ix device s
  | .eraseEnd role ix device => Sys2Proof.Machine.execEraseEnd role ix device s
  | .softRepair role ix entry => Sys2Proof.Machine.execSoftRepair role ix entry s
  | .hardRepair role ix entry => Sys2Proof.Machine.execHardRepair role ix entry s
  | .repairEnd ix ok timeUs spare ces ues => Sys2Proof.Machine.execRepairEnd ix ok timeUs spare ces ues s
  | .scrubRequest role w => Sys2Proof.Machine.execScrubRequest role w s
  | .scrubAbort role w => Sys2Proof.Machine.execScrubAbort role w s
  | .scrubLineIssue => Sys2Proof.Machine.execScrubLineIssue s
  | .scrubLineReturn => Sys2Proof.Machine.execScrubLineReturn s
  | .injectionArm role w => Sys2Proof.Machine.execInjectionArm role w s
  | .injectionDisarm role w => Sys2Proof.Machine.execInjectionDisarm role w s
  | .moduleDiscoveryDone m p => Sys2Proof.Machine.execModuleDiscoveryDone m p s
  | .ecsReading m a c => Sys2Proof.Machine.execEcsReading m a c s
  | .ledgerSecond => Sys2Proof.Machine.execLedgerSecond s
  | .release role n => Sys2Proof.Machine.execRelease role n s
  | .releaseDrainTimeout n => Sys2Proof.Machine.execReleaseDrainTimeout n s
  | .releasePowerOffAck n => Sys2Proof.Machine.execReleasePowerOffAck n s
  | .attach role n => Sys2Proof.Machine.execAttach role n s
  | .attachPowerGood n => Sys2Proof.Machine.execAttachPowerGood n s
  | .attachPowerTimeout n => Sys2Proof.Machine.execAttachPowerTimeout n s
  | .memoryInitDone n => Sys2Proof.Machine.execMemoryInitDone n s
  | .rplResume role n => Sys2Proof.Machine.execRplResume role n s
  | .tailWrite role tail => Sys2Proof.Machine.execTailWrite role tail s
  | .tenderEnable role w => Sys2Proof.Machine.execTenderEnable role w s
  | .tenderDisable role w => Sys2Proof.Machine.execTenderDisable role w s
  | .tenderAbort role w => Sys2Proof.Machine.execTenderAbort role w s
  | .jobStart n => Sys2Proof.Machine.execJobStart n s
  | .zero n => Sys2Proof.Machine.execZero n s
  | .sanitise n => Sys2Proof.Machine.execSanitise n s
  | .copy n => Sys2Proof.Machine.execCopy n s
  | .move n => Sys2Proof.Machine.execMove n s
  | .test n => Sys2Proof.Machine.execTest n s
  | .sum n => Sys2Proof.Machine.execSum n s
  | .clear n => Sys2Proof.Machine.execClear n s
  | .scan n => Sys2Proof.Machine.execScan n s
  | .badVerb n => Sys2Proof.Machine.execBadVerb n s
  | .tenderLineReturn n => Sys2Proof.Machine.execTenderLineReturn n s
  | .chunkTimeout n => Sys2Proof.Machine.execChunkTimeout n s
  | .chunkUnlock n => Sys2Proof.Machine.execChunkUnlock n s
  | .completionWriteDone n => Sys2Proof.Machine.execCompletionWriteDone n s
  | .snapshotCommand role groups => Sys2Proof.Machine.execSnapshotCommand role groups s
  | .snapshotLatch => Sys2Proof.Machine.execSnapshotLatch s
  | .snapshotCopyDone => Sys2Proof.Machine.execSnapshotCopyDone s
  | .counterClear role index clash => Sys2Proof.Machine.execCounterClear role index clash s
  | .liveRead role => Sys2Proof.Machine.execLiveRead role s
  | .channelIdleExpiry n => Sys2Proof.Machine.execChannelIdleExpiry n s
  | .blockIdleExpiry => Sys2Proof.Machine.execBlockIdleExpiry s
  | .powerRequestA0 role channels => Sys2Proof.Machine.execPowerRequestA0 role channels s
  | .powerRequestA1 role channels => Sys2Proof.Machine.execPowerRequestA1 role channels s
  | .powerRequestS1 role channels => Sys2Proof.Machine.execPowerRequestS1 role channels s
  | .powerRequestS2 role channels => Sys2Proof.Machine.execPowerRequestS2 role channels s
  | .powerRequestS3 role channels => Sys2Proof.Machine.execPowerRequestS3 role channels s
  | .drainCommit who => Sys2Proof.Machine.execDrainCommit who s
  | .drainTimeout who => Sys2Proof.Machine.execDrainTimeout who s
  | .stateEntryDone who => Sys2Proof.Machine.execStateEntryDone who s
  | .stateExitDone who e => Sys2Proof.Machine.execStateExitDone who e s
  | .pwrWakeIn => Sys2Proof.Machine.execPwrWakeIn s
  | .wakeTimer => Sys2Proof.Machine.execWakeTimer s
  | .housekeepingRound sites mods => Sys2Proof.Machine.execHousekeepingRound sites mods s
  | .thermalTrip site => Sys2Proof.Machine.execThermalTrip site s
  | .domainPowerGood d level => Sys2Proof.Machine.execDomainPowerGood d level s
  | .powerGoodTimeout d => Sys2Proof.Machine.execPowerGoodTimeout d s
  | .powerLoss d => Sys2Proof.Machine.execPowerLoss d s
  | .sramAck => Sys2Proof.Machine.execSramAck s
  | .sramAckTimeout => Sys2Proof.Machine.execSramAckTimeout s
  | .reset => Sys2Proof.Machine.execReset s
  | .aonReset => Sys2Proof.Machine.execAonReset s
  | .startSequence testEn selfTest => Sys2Proof.Machine.execStartSequence testEn selfTest s
  | .startRecordStored ok => Sys2Proof.Machine.execStartRecordStored ok s
  | .ready => Sys2Proof.Machine.execReady s
  | .startWatchdog => Sys2Proof.Machine.execStartWatchdog s
  | .readyHeld => Sys2Proof.Machine.execReadyHeld s
  | .harbourClear role w => Sys2Proof.Machine.execHarbourClear role w s
  | .faultMessageTransfer => Sys2Proof.Machine.execFaultMessageTransfer s
  | .fenceInput u level => Sys2Proof.Machine.execFenceInput u level s
  | .fenceSet role units => Sys2Proof.Machine.execFenceSet role units s
  | .fenceClear role units => Sys2Proof.Machine.execFenceClear role units s
  | .recordClear role index => Sys2Proof.Machine.execRecordClear role index s
  | .recordClearAll role index => Sys2Proof.Machine.execRecordClearAll role index s
  | .auditStore => Sys2Proof.Machine.execAuditStore s
  | .auditClear role w => Sys2Proof.Machine.execAuditClear role w s
  | .auditClearDone => Sys2Proof.Machine.execAuditClearDone s
  | .factoryTrimWrite role at_ w => Sys2Proof.Machine.execFactoryTrimWrite role at_ w s
  | .ledgerStoreDone m => Sys2Proof.Machine.execLedgerStoreDone m s
  | .pllLockTimeout n => Sys2Proof.Machine.execPllLockTimeout n s

end Sys2Proof.Machine
end

