-- ==== Sys2Proof/WellFormed.lean ====
section
/-! DEFINITION. Which operands a command can have: those that its rule and the widths of the hardware admit. A command
with other operands stands for nothing that can happen to the block; its meaning is defined all the same. -/

namespace Sys2Proof

/-- A register at the offset has a field that a read clears (R1, R3). -/
def Machine.readsClear (off : Nat) : Bool :=
  match Machine.findReg off with
  | some (r, _) => r.fields.any (fun f => f.acc == .rc)
  | none => false

/-- A sweep names each level once, in ascending order (R327). -/
def Sweep.wf : Sweep → Bool
  | [] => true
  | [_] => true
  | (a, _) :: (b, m) :: rest => decide (a < b) && Sweep.wf ((b, m) :: rest)

/-- Lanes of a measurement of step 9 are DQ lanes. -/
def EqMeas.wf (m : EqMeas) : Bool :=
  m.taps.all (fun e => decide (e.1 < 40)) && m.loose.all (fun l => decide (l < 40))
    && m.presets.all (fun e => decide (e.1 < 40))

/-- Lanes of a measurement are those of PHY_TRAIN_STATUS.LANE, and its sweeps are sweeps (R326). -/
def TrainMeas.wf (m : TrainMeas) : Bool :=
  (m.lanes ++ m.again).all (fun e => decide (e.1 < 64) && Sweep.wf e.2)
    && m.duty.all (fun e => decide (e.1 < 64)) && m.eq.wf && m.eqAgain.wf
    && m.errors.all (fun l => decide (l < 40)) && m.osc.all (fun e => decide (e.1 < 80 ∧ e.2 < 2 ^ 16))

/-- The command can occur: these six have operands that their types do not bound as the rules do; the operand types of every
other command admit no value that its rule excludes. -/
def Instr.wf : Instr → Bool
  | .refusedRead role addr => role == .none || decide (Machine.testSpace ≤ 4 * addr.toNat)
  | .readClear _ addr => Machine.readsClear (4 * addr.toNat)
  | .sentencePoll _ bytes => decide (bytes.length ≤ 20)
  | .trainingStepDone _ m _ => m.wf
  | .receiveWindowDone _ _ d0 d1 d2 d3 _ _ _ _ => decide (d0 < 2 ^ 25 ∧ d1 < 2 ^ 25 ∧ d2 < 2 ^ 25 ∧ d3 < 2 ^ 25)
  | .oscillatorResult _ counts => counts.all (fun e => decide (e.1 < 80 ∧ e.2 < 2 ^ 16))
  | _ => true

end Sys2Proof
end

