-- ==== Sys2Proof/Safety.lean ====
section
/-! DEFINITION. What a safe run is, in the terms the claims use. -/

namespace Sys2Proof

open Machine

/-- The step answers a next state. -/
def Machine.State.runs (s : State) : Prop := ∃ t, step s = .next t

/-- The non-volatile store is in its canonical form: offsets strictly rising, no byte equal to what an unlisted offset
reads. -/
def Machine.State.nvmWf (s : State) : Bool := Tab.wf s.block.nvm

/-- Commands whose meaning can store to the NVM: writes of any offset and of the factory trims (R582, R584), the events that
end a store or a clear (R366, R411, R497, R530, R532), the resets, which tear a store in progress (R369, R536), and the events
after which a waiting write goes on (R126, R530, R542). -/
def Instr.storesNvm : Instr → Bool
  | .registerWrite .. => true
  | .factoryTrimWrite .. => true
  | .edtInvalComplete => true
  | .auditStore => true
  | .auditClearDone => true
  | .stateExitDone .. => true
  | .startSequence .. => true
  | .ledgerStoreDone .. => true
  | .calStoreDone .. => true
  | .startRecordStored .. => true
  | .reset => true
  | .aonReset => true
  | _ => false

/-- Every command that waits can occur. -/
def Machine.State.queueWf (s : State) : Bool := s.pending.all Instr.wf

/-- A run of `k` steps meets no refusal and no fault. -/
def Machine.State.safeFor : Nat → State → Bool
  | 0, _ => true
  | k + 1, s =>
    match step s with
    | .next t => State.safeFor k t
    | .fault _ => false
    | .refused _ => false

/-- Command `c` completes: it answers a next state whose queue is the one it found, and whose block has `P`. -/
def Machine.State.answers (s : State) (c : Instr) (P : Block → Prop) : Prop :=
  ∃ t, exec c s = .next t ∧ t.pending = s.pending ∧ P t.block

/-- Register fields whose keys are not among `ks` read the same in `t` as in `b`. -/
def Machine.Block.regsBut (b t : Block) (ks : List Nat) : Prop := ∀ g : Fld, g.key ∉ ks → t.rd g = b.rd g

/-- A key of a register of the performance counters (0x280000 to 0x2BFFFF). -/
def Machine.isCtrKey (k : Nat) : Bool := decide (0x280000 * 32 ≤ k) && decide (k < 0x2C0000 * 32)

/-- Register fields read the same in `t` as in `b`, but for those of the keys `ks`, for the registers of the performance
counters, which every counted event may change (R444), and for the pending interrupts. -/
def Machine.Block.regsButCounted (b t : Block) (ks : List Nat) : Prop :=
  ∀ g : Fld, g.key ∉ ks → isCtrKey g.key = false → g.key ≠ Reg.GLB_INT_PEND_PEND.key → t.rd g = b.rd g

/-- `t` is `b` but for the registers, and of these only fields of the keys `ks` may differ: every other register field, the
stores, queues, buffers and the NVM are as in `b`. -/
def Machine.Block.onlyRegs (b t : Block) (ks : List Nat) : Prop := t = { b with regs := t.regs } ∧ b.regsBut t ks

/-- Step `run.step` of a sentence of subchannel `i` has ended (R314, R317): the next step that has something to do is the one in
progress, or the sentence has ended with outcome OK, which a call of software shows with its results. -/
def Machine.Block.stepPassed (b t : Block) (i : Nat) (run : SntRun) : Prop :=
  match b.seekStep i 257 { run with step := run.step + 1 } with
  | some next => (t.subs.get i).snt = some next ∧ t.rd (Reg.SNT_RUN_STEP i) = next.step % 2 ^ 8
  | none => (t.subs.get i).snt = none ∧ t.rd (Reg.SNT_RUN_BUSY i) = 0 ∧
      (run.req.why = .software → t.rd (Reg.SNT_CALL_STATUS_BUSY i) = 0 ∧ t.rd (Reg.SNT_CALL_STATUS_OUTCOME i) = 0 ∧
        t.rd (Reg.SNT_CALL_RESULT_RESULT i) = run.results % 2 ^ 32)

/-- A management write of `w` at byte offset `off` meets nothing that refuses, drops or delays it: accesses are acknowledged
(R540, R542), none waits before it, it is judged performed (R4, R522, R586), and the audit queue has room (R530). -/
def Machine.State.grants (s : State) (role : Role) (off : Nat) (w : Word) : Prop :=
  s.block.mgOpen = true ∧ s.block.mg.held = [] ∧ (∃ r idx, s.block.judgeWrite role off w = .go r idx) ∧
    s.block.recRoom 1 = true

/-- The access has been acknowledged without an error (R540). -/
def Machine.Block.acked (b : Block) : Prop := b.mg.ack = true ∧ b.mg.err = false

/-- Keys the record of a write may change, when a failed self-test lets the queue take no records (R530). -/
def Machine.audKeys : List Nat := [Reg.AUD_FLAGS_LOST.key, Reg.AUD_LOST_CNT_CNT.key, Reg.GLB_INT_PEND_PEND.key]

/-- A management write was performed: it is acknowledged without an error (R540); the accesses that wait and the latches of
the audit path are as before, and register fields other than those of the keys `ks` and of a lost record keep their values.
Its record joins the audit queue (R528). -/
def Machine.Block.wrote (b t : Block) (ks : List Nat) : Prop :=
  t.acked ∧ t.mg.held = b.mg.held ∧ t.mg.latch = b.mg.latch ∧ b.regsBut t (ks ++ audKeys)

/-- A load has ended in `state` with CODE `code`, and but for the image registers, its record and its interrupt the block is as
it was: registers, working values, sections in force, tables and memories (R82). `ks` are keys the command writes besides. -/
def Machine.Block.loadEnded (b t : Block) (state code : Nat) (ks : List Nat) : Prop :=
  t.rd Reg.IMG_STATUS_STATE = state ∧ t.rd Reg.IMG_STATUS_CODE = code ∧ t.img.secs = b.img.secs ∧
    t.img.applied = b.img.applied ∧ t.img.verdict = none ∧ t = { b with regs := t.regs, mg := t.mg, img := t.img } ∧
    b.regsBut t ([Reg.IMG_STATUS_STATE.key, Reg.IMG_STATUS_CODE.key, Reg.IMG_STATUS_INDEX.key, Reg.IMG_DETAIL_DETAIL.key,
      Reg.IMG_DETAIL_OFFSET.key] ++ audKeys ++ ks)

/-- Neither copy of a tag of the set of address `a` in slice `c` holds an upset bit (R217). -/
def Machine.Block.soundTags (b : Block) (c a : Nat) : Prop :=
  ∀ w : Nat, w < 16 → (b.line (lineKey c (cacheSet a) w)).flip0 = 0 ∧ (b.line (lineKey c (cacheSet a) w)).flip1 = 0

/-- No cell of the arrays of slice `c` holds an upset bit (R217). -/
def Machine.Block.soundSlice (b : Block) (c : Nat) : Prop :=
  ∀ k : Nat, keySlice k = c → (b.line k).flip0 = 0 ∧ (b.line k).flip1 = 0 ∧ ∀ n : Nat, n < 4 → b.arr.err.get (4 * k + n) = 0

/-- Sector `n` of line `k` waits for its fill, in a line that stays, and the line's tag is sound. -/
def Machine.Block.waits (b : Block) (k n : Nat) : Prop :=
  (b.line k).going = false ∧ (b.line k).st.get n = .f ∧ (b.line k).flip0 = 0 ∧ (b.line k).flip1 = 0

/-- No sentence, training, loopback or repair of subchannel `i` runs, and no training waits. -/
def Machine.Block.subStill (b : Block) (i : Nat) : Prop :=
  (b.subs.get i).snt = none ∧ b.phy.train.get i = none ∧ b.phy.trainQ = [] ∧ b.rd (Reg.PHY_LOOP_STATUS_BUSY i) = 0
    ∧ b.ecc.repair.get i = none

/-! ## Counters (16) -/

/-- The counters of the groups `g` have latched (R449, R452): each its count, its restart from 0 with CLEAR_AT_SNAP or under a new
configuration (a chained pair as one counter), and the configuration of its shadow; the slot counters of group 12 too. No other counter has changed. -/
def Machine.Block.latched (b t : Block) (g : Nat) : Prop :=
  (∀ n : Nat, n < 552 →
    (bitOf g (ctrGroup n) = true → t.ctr.latch.get n = b.ctr.live.get n
      ∧ t.ctr.live.get n
          = (if b.ctrRestarts n then 0 else b.ctr.live.get n)
      ∧ ∀ f : Fld, f.key / 32 = 0x281000 + 0x10 * n ∨ f.key / 32 = 0x281004 + 0x10 * n → t.wk f = b.rd f)
    ∧ (bitOf g (ctrGroup n) = false → t.ctr.latch.get n = b.ctr.latch.get n ∧ t.ctr.live.get n = b.ctr.live.get n))
  ∧ ∀ k : Nat, k < 128 →
    t.ctr.latch.get (552 + k) = if bitOf g 12 then b.ctr.slots.get k else b.ctr.latch.get (552 + k)

/-! ## The Tender (15) -/

/-- What an access of lane `n` to byte `off` of its job's range, or of its destination, would meet (R431, R433). -/
def Machine.Block.lanePath (b : Block) (n off : Nat) (dst : Bool) (op : ReqOp) : LineWay :=
  let l := b.tlane n
  let base := if dst then jDst l.job else jSrc l.job
  if jMode l.job then b.newId.2.lineFrame n base off (tndReq n b.nextId (off % 2 ^ 46) op)
  else (b.newId.2.lineDpa0 n (base + off) (tndReq n b.nextId (base + off) op)).2

/-- Lane `n` waits in phase `ph` for the answers to request `r`, which has entered the Tender's queue of its slice. Nothing else
has changed but the order of the descriptor cache, a wake-up of the channel, and what the performance counters count. -/
def Machine.Block.laneSent (b t : Block) (n : Nat) (r : Req) (ph : LanePh) : Prop :=
  (∃ cs, t.tlane n = { b.tlane n with phase := ph, req := some b.nextId, checked := cs }) ∧
    (∀ m : Nat, m ≠ n → t.tlane m = b.tlane m) ∧
    (∀ c : Nat, t.slices.get c = { b.slices.get c with q := (t.slices.get c).q } ∧
      ∀ p : Nat, (t.slices.get c).q.get p = (b.slices.get c).q.get p ++ (if c = b.reqSlice r ∧ p = 6 then [r] else [])) ∧
    t = { b with regs := t.regs, ctr := t.ctr, fresh := t.fresh, nextId := b.nextId + 1, slices := t.slices, pwr := t.pwr
                 edt := { b.edt with cache := t.edt.cache }, tnd := { b.tnd with lanes := t.tnd.lanes } } ∧
    b.regsButCounted t [(Reg.PWR_CH_STATUS_WAKE_LATCHED r.route.chan).key, (Reg.PWR_CH_STATUS_MOVING r.route.chan).key]

/-- Command `c` sends the access of lane `n` that has a way to its memory: `op` at byte `off` with these data. -/
def Machine.State.laneSends (s : State) (c : Instr) (n off : Nat) (dst : Bool) (op : ReqOp) (data : List WData) (direct : Bool) :
    Prop :=
  ∀ r : Req, s.block.lanePath n off dst op = .go r → s.block.sliceFenced (s.block.reqSlice r) = false →
    s.answers c (fun b => s.block.laneSent b n { r with wdata := data, direct := r.direct || direct }
      (if op.isWrite then .write else .read))

/-- The job of lane `n` has ended with CODE `code` (R429): the lane unlocks, gives up its claims, and holds the completion record
until its write is answered; the other lanes and the Tender's registers are as before. -/
def Machine.Block.laneEnded (b t : Block) (n code : Nat) : Prop :=
  let l := t.tlane n
  let job := (b.tlane n).job
  (l.phase = .finish ∨ l.phase = .finishing) ∧ l.code = code ∧ l.lock = none ∧ l.claims = [] ∧ l.job = job ∧
    bitsOf l.record.toNat 31 0 = jId job ∧ bitsOf l.record.toNat 35 32 = code ∧ bitsOf l.record.toNat 39 36 = jVerb job ∧
    bitOf l.record.toNat 40 = l.first.isSome ∧ bitOf l.record.toNat 41 = l.swapped ∧
    bitsOf l.record.toNat 127 64 = l.done % 2 ^ 64 ∧ bitsOf l.record.toNat 255 192 = l.first.getD 0 % 2 ^ 64 ∧
    (∀ m : Nat, m ≠ n → t.tlane m = b.tlane m) ∧ t.tnd = { b.tnd with lanes := t.tnd.lanes } ∧
    (∀ g : Fld, 0x240000 * 32 ≤ g.key → g.key < 0x240100 * 32 → t.rd g = b.rd g) ∧
    t.nvm = b.nvm ∧ t.img = b.img ∧ t.mod = b.mod ∧ t.cal = b.cal ∧ t.phy = b.phy ∧ t.mg = b.mg ∧ t.work = b.work

end Sys2Proof
end

