-- ==== Sys2Proof/Certificates/Slice0/Obligations.lean ====
section
/-! DEFINITION. The statements for the provers, family by family in the table's order. -/

open Sys2Proof Sys2Proof.Machine Sys2Proof.Machine.Reg

/-- The queue's rule: the step takes the command at the front and runs it on the state with the queue's rest. -/
def Obligations.FrontCommandRuns : Prop :=
  ∀ (b : Block) (c : Instr) (rest : List Instr), step ⟨b, c :: rest⟩ = exec c ⟨b, rest⟩

/-- The model's choice (log entry 1): on an empty queue one TCLK cycle passes, which moves the local time by
4 ns × (1 + RATE_PPB × 10^-9) in units of 2^-32 ns, truncated or rounded up, modulo 2^64 ns (R31); in S3 one period of the
always-on clock (R37); without core power nothing moves (R549). The NVM and the working values stay. -/
def Obligations.EmptyQueuePassesTime : Prop :=
  ∀ b : Block, ∃ t : Block, step ⟨b, []⟩ = .next ⟨t, []⟩ ∧ t.nvm = b.nvm ∧ t.work = b.work ∧
    (b.pwr.dead = true → t = b) ∧
    (b.pwr.dead = false → b.pwr.inS3 = true →
      t.time.ns * 2 ^ 32 + t.time.frac = (b.time.ns * 2 ^ 32 + b.time.frac + 131072000000000) % 2 ^ 96) ∧
    (b.pwr.dead = false → b.pwr.inS3 = false → ∃ r : Nat, r ≤ 1 ∧
      t.time.ns * 2 ^ 32 + t.time.frac
        = (b.time.ns * 2 ^ 32 + b.time.frac
            + (4 * 2 ^ 32 * (1000000000 + toSigned 18 (b.rd TIM_RATE_RATE_PPB)) / 1000000000 + (r : Int)).toNat) % 2 ^ 96)

/-- No command meets a fault, none changes the queue of waiting commands, and the only refusal is the maker's access to the maker
test space, whose contents spec/ does not describe (R523). -/
def Obligations.CommandsCompleteAndKeepTheQueue : Prop :=
  ∀ (c : Instr) (s : State),
    (∃ t : State, exec c s = .next t ∧ t.pending = s.pending) ∨
    (exec c s = .refused .makerTestSpace ∧ ∃ addr : BitVec 21, 0x500000 ≤ 4 * addr.toNat ∧
      ((∃ w, c = .registerWrite .maker addr w) ∨ c = .refusedRead .maker addr ∨ c = .readClear .maker addr))

/-- R34, R158, R167, R579: after reset the NVM is in canonical form (nothing listed), no command waits, every port is DISABLED,
the time is in ACQUIRE and counts from zero, every round-robin pointer holds 8, and REGU_SCALE, REGU_ADMIT, SCB_RATE and the
arbiter's precedence levels hold the reset values that spec/ gives. -/
def Obligations.ResetLeavesTheSpecValues : Prop :=
  State.reset.nvmWf = true ∧ State.reset.block.nvm = [] ∧ State.reset.pending = []
  ∧ (∀ p : Fin 6, State.reset.block.portState p = ptDisabled)
  ∧ State.reset.block.rd TIM_STATUS_STATE = timAcquire ∧ State.reset.block.now = 0
  ∧ (∀ c t : Nat, (State.reset.block.slices.get c).pointer t = 8)
  ∧ State.reset.block.rd REGU_SCALE_SCALE = 65536 ∧ State.reset.block.rd REGU_ADMIT_PCT = 85
  ∧ State.reset.block.rd SCB_RATE_LINES = 40
  ∧ (∀ e ∈ [(ARB_PREC_SCRUB, ARB_PREC_ACTIVE_SCRUB), (ARB_PREC_KEEPER, ARB_PREC_ACTIVE_KEEPER), (ARB_PREC_TENDER, ARB_PREC_ACTIVE_TENDER),
      (ARB_PREC_P5, ARB_PREC_ACTIVE_P5), (ARB_PREC_P4, ARB_PREC_ACTIVE_P4)],
      State.reset.block.rd e.1 = State.reset.block.rd e.2)

/-- Every step keeps the canonical form of the NVM: offsets strictly rising, no listed byte zero. -/
def Obligations.EveryStepKeepsNvmForm : Prop :=
  ∀ s t : State, s.nvmWf = true → step s = .next t → t.nvmWf = true

/-- Only the commands named by `Instr.storesNvm` change a byte of the NVM. -/
def Obligations.OnlyStoresChangeNvm : Prop :=
  ∀ (c : Instr) (s t : State), c.storesNvm = false → exec c s = .next t →
    ∀ a : Nat, t.block.nvmByte a = s.block.nvmByte a

/-- R521, R523: a write with role None is refused: MG_ERR, ROL_LAST with REASON 3, its role and its offset, one more refusal
counted, a record with OUTCOME NO_ROLE, and no other field changed; a read with role None, or of the maker test space with a
role other than the maker's, returns zero with MG_ERR and loads ROL_LAST, and no read is counted or recorded. Writes to the
calibration, ledger and start-record areas of the NVM window and to the audit ring are refused for every role, the maker included. -/
def Obligations.RefusedAccessesAreReported : Prop :=
  ∀ (s : State) (addr : BitVec 21), s.block.mgOpen = true → s.block.mg.held = [] →
    (∀ w : Word, s.block.recRoom 1 = true →
      s.answers (.registerWrite .none addr w) (fun b =>
        b.mg.ack = true ∧ b.mg.err = true ∧ b.rd ROL_LAST_REASON = 3 ∧ b.rd ROL_LAST_ROLE = 0
        ∧ b.rd ROL_LAST_OFFSET = 4 * addr.toNat
        ∧ b.rd ROL_REFUSED_CNT_CNT = min (s.block.rd ROL_REFUSED_CNT_CNT + 1) 0xFFFFFFFF
        ∧ (s.block.rd NVM_STATUS_SELFTEST_OK ≠ 0 → b.mg.audQ = s.block.mg.audQ ++
            [{ time := s.block.now, kind := 0, role := 0, outcome := 3, offset := 4 * addr.toNat,
               old := s.block.readWord (4 * addr.toNat), new := w.toNat }])
        ∧ b = { s.block with regs := b.regs, mg := b.mg }
        ∧ s.block.regsBut b ([ROL_LAST_REASON.key, ROL_LAST_ROLE.key, ROL_LAST_OFFSET.key, ROL_REFUSED_CNT_CNT.key] ++ audKeys)))
    ∧ (∀ role : Role, role = .none ∨ (role ≠ .maker ∧ 0x500000 ≤ 4 * addr.toNat) →
      s.answers (.refusedRead role addr) (fun b =>
        b.mg.ack = true ∧ b.mg.err = true ∧ b.mg.rdata = 0 ∧ b.rd ROL_LAST_REASON = 3 ∧ b.rd ROL_LAST_ROLE = role.code
        ∧ b.rd ROL_LAST_OFFSET = 4 * addr.toNat ∧ b.mg.audQ = s.block.mg.audQ
        ∧ b = { s.block with regs := b.regs, mg := b.mg }
        ∧ s.block.regsBut b [ROL_LAST_REASON.key, ROL_LAST_ROLE.key, ROL_LAST_OFFSET.key]))
    ∧ (∀ (role : Role) (w : Word), s.block.recRoom 1 = true → role ≠ .none → 0x400000 ≤ 4 * addr.toNat → 4 * addr.toNat < 0x4D0200 →
    s.answers (.registerWrite role addr w) (fun b =>
      b.mg.ack = true ∧ b.mg.err = true ∧ b.rd ROL_LAST_REASON = 1 ∧ b.rd ROL_LAST_ROLE = role.code
      ∧ b.rd ROL_LAST_OFFSET = 4 * addr.toNat
      ∧ b.rd ROL_REFUSED_CNT_CNT = min (s.block.rd ROL_REFUSED_CNT_CNT + 1) 0xFFFFFFFF
      ∧ (s.block.rd NVM_STATUS_SELFTEST_OK ≠ 0 → ∃ r : AudRec, b.mg.audQ = s.block.mg.audQ ++ [r] ∧ r.outcome = 1)
      ∧ ∀ a : Nat, b.nvmByte a = s.block.nvmByte a))

/-- R4, class S: a write of LGT_PERIOD changes the shadow entry's word to the word written, while every working value stays.
R1: a read of a register with RC fields returns their values and then clears them; nothing else changes. -/
def Obligations.ShadowWritesAndReadClears : Prop :=
  (∀ (s : State) (role : Role) (i : Fin 64) (w : Word),
      s.grants role (LGT_PERIOD_PERIOD i).off w →
      s.answers (.registerWrite role (BitVec.ofNat 21 ((LGT_PERIOD_PERIOD i).off / 4)) w) (fun b =>
        b.rd (LGT_PERIOD_PERIOD i) = w.toNat ∧ s.block.wrote b [(LGT_PERIOD_PERIOD i).key]
        ∧ b = { s.block with regs := b.regs, mg := b.mg }))
  ∧ ∀ (s : State) (role : Role) (addr : BitVec 21) (r : RegInfo) (idx : List Nat),
    s.block.mgOpen = true → s.block.mg.held = [] → role ≠ .none → 4 * addr.toNat < 0x500000 →
    findReg (4 * addr.toNat) = some (r, idx) → r.fields.any (fun f => f.acc == .rc) = true →
    s.block.regOff r (idx.headD 0) = false →
    s.answers (.readClear role addr) (fun b =>
      b.acked ∧ b.mg.rdata = BitVec.ofNat 32 (s.block.readWord (4 * addr.toNat))
      ∧ (∀ f ∈ r.fields, f.acc = .rc → b.rd (f.at_ r.name idx (4 * addr.toNat)) = 0)
      ∧ s.block.regsBut b ((r.fields.filter (fun f => f.acc == .rc)).map (fun f => (f.at_ r.name idx (4 * addr.toNat)).key))
      ∧ b = { s.block with regs := b.regs, mg := b.mg })

/-- R542: before step 1 of start has ended, in S3 and without core power no access is acknowledged: it waits, and changes
nothing else. -/
def Obligations.ClosedInterfaceHoldsAccesses : Prop :=
  ∀ (s : State) (role : Role) (addr : BitVec 21) (w : Word),
    s.block.start.open_ = false ∨ s.block.pwr.inS3 = true ∨ s.block.pwr.dead = true → 4 * addr.toNat < 0x500000 →
    s.answers (.registerWrite role addr w) (fun b => b.mg.ack = false
      ∧ b.mg.held = s.block.mg.held ++ [{ role := role, addr := addr, wdata := some w, aux := default }]
      ∧ b = { s.block with mg := { b.mg with audQ := s.block.mg.audQ, latch := s.block.mg.latch, err := s.block.mg.err,
                                             rdata := s.block.mg.rdata } })

/-- R8: a management read of an offset that holds no register returns zero; a write to such an offset is ignored and answered with
MG_ERR. (R586: the write is recorded with OUTCOME NO_REGISTER and no field changes. The reserved NVM areas of R582 hold none either.) -/
def Obligations.OffsetsWithoutRegister : Prop :=
  ∀ (s : State) (role : Role) (addr : BitVec 21), s.block.mgOpen = true → s.block.mg.held = [] → role ≠ .none →
    (4 * addr.toNat < 0x300000 ∧ findReg (4 * addr.toNat) = none) ∨ (0x4D0200 ≤ 4 * addr.toNat ∧ 4 * addr.toNat < 0x4D8000)
      ∨ (0x4E0000 ≤ 4 * addr.toNat ∧ 4 * addr.toNat < 0x500000) →
    (∃ t : State, readReg role (4 * addr.toNat) s = .next t ∧ t.pending = s.pending ∧ t.block.acked ∧ t.block.mg.rdata = 0
      ∧ t.block = { s.block with mg := t.block.mg })
    ∧ ∀ w : Word, s.block.recRoom 1 = true →
      s.answers (.registerWrite role addr w) (fun b =>
        b.mg.ack = true ∧ b.mg.err = true
        ∧ (s.block.rd NVM_STATUS_SELFTEST_OK ≠ 0 → b.mg.audQ = s.block.mg.audQ ++
            [{ time := s.block.now, kind := 0, role := role.code, outcome := 5, offset := 4 * addr.toNat, old := 0, new := w.toNat }])
        ∧ s.block.regsBut b audKeys ∧ b = { s.block with regs := b.regs, mg := b.mg })

/-- R41: a read of TIM_NOW_LO latches the local time and returns its lower half; the next read of TIM_NOW_HI returns the
upper half of the same value. No register changes. -/
def Obligations.TimeReadReturnsOneValue : Prop :=
  ∀ (s : State) (role : Role), role ≠ .none → s.block.mgOpen = true → s.block.mg.held = [] →
    s.answers (.timNowLatch role) (fun b => b.acked ∧ b.mg.rdata = BitVec.ofNat 32 s.block.now
      ∧ b = { s.block with mg := b.mg, time := { s.block.time with latch := some s.block.now } })
    ∧ ∀ t : State, exec (.timNowLatch role) s = .next t →
      ∃ u : State, readReg role TIM_NOW_HI_NOW.off t = .next u ∧ u.block.acked
        ∧ u.block.mg.rdata = BitVec.ofNat 32 (s.block.now / 2 ^ 32)
        ∧ u.block = { s.block with mg := u.block.mg, time := { s.block.time with latch := none } }

/-- R31: the first beacon, in ACQUIRE with no light armed, loads the local time; a later one moves the local time only
forward, by the offset and only for an offset of 1,000 ns or more (with no light in use); an offset of -1,000 ns or less
slews back at -100 ppm; any other offset sets a rate of at most 100 ppm either way and leaves the local time. -/
def Obligations.BeaconsDisciplineTheTime : Prop :=
  ∀ (s : State) (beacon : BitVec 64) (hold : Bool), s.block.pwr.inS3 = false → s.block.pwr.dead = false →
    (s.block.rd TIM_STATUS_STATE = timAcquire → (∀ i, i < 64 → (s.block.lightW i).armed = false) →
      s.answers (.beaconAccepted beacon hold) (fun b => b.now = beacon.toNat ∧ b.rd TIM_STATUS_STATE = timTracking
        ∧ b.rd TIM_RATE_RATE_PPB = s.block.rd TIM_RATE_RATE_PPB ∧ b.time.frac = 0 ∧ b.time.f = 0))
    ∧ (s.block.rd TIM_STATUS_STATE ≠ timAcquire → timeDiff beacon.toNat s.block.now ≤ -1000 →
      s.answers (.beaconAccepted beacon hold) (fun b => b.now = s.block.now ∧ b.rd TIM_STATUS_STATE = timSlewing
        ∧ b.rd TIM_STATUS_BACKSLEW = 1 ∧ b.rd TIM_RATE_RATE_PPB = 2 ^ 18 - 100000))
    ∧ (s.block.rd TIM_STATUS_STATE ≠ timAcquire → -1000 < timeDiff beacon.toNat s.block.now →
        timeDiff beacon.toNat s.block.now < 1000 →
      s.answers (.beaconAccepted beacon hold) (fun b => b.now = s.block.now
        ∧ (b.rd TIM_STATUS_STATE = timTracking ∨ b.rd TIM_STATUS_STATE = timLocked)
        ∧ ∃ r : Int, -100000 ≤ r ∧ r ≤ 100000 ∧ b.rd TIM_RATE_RATE_PPB = ofSigned 18 r))
    ∧ (s.block.rd TIM_STATUS_STATE ≠ timAcquire → 1000 ≤ timeDiff beacon.toNat s.block.now →
        (∀ i, i < 64 → (s.block.lightW i).armed = false ∧ s.block.lightActive i = false) →
      s.answers (.beaconAccepted beacon hold) (fun b => b.now = (s.block.now + (timeDiff beacon.toNat s.block.now).toNat) % 2 ^ 64
        ∧ b.rd TIM_STATUS_STEPPED = 1 ∧ b.rd TIM_STEP_CNT_CNT = min (s.block.rd TIM_STEP_CNT_CNT + 1) 0xFFFFFFFF))

/-- R35: when the loss timer runs out the block enters HOLDOVER from TRACKING, LOCKED and SLEWING_BACK, at the rate rnd(f),
and sets HOLD_ENTERED; its event is recorded under source 2. In ACQUIRE, and in HOLDOVER, nothing happens.
R28: a discarded beacon sequence sets TIM_STATUS.BAD_BEACON and increments TIM_BAD_CNT, which saturates; with its interrupt
enabled, group 19 becomes pending. Nothing else changes. (While the beacon input is down, in S3 and without core power, the
model counts nothing: log entry 8.)
Where the condition of an event does not hold nothing changes: the model's choice, log entry 3. -/
def Obligations.HoldoverAndDiscardedBeacons : Prop :=
  ∀ s : State,
    (s.block.rd TIM_STATUS_STATE = timAcquire ∨ s.block.rd TIM_STATUS_STATE = timHoldover →
      exec .holdoverEntry s = .next s)
    ∧ (s.block.rd TIM_STATUS_STATE ≠ timAcquire → s.block.rd TIM_STATUS_STATE ≠ timHoldover →
      s.answers .holdoverEntry (fun b => b.rd TIM_STATUS_STATE = timHoldover ∧ b.rd TIM_STATUS_HOLD_ENTERED = 1
        ∧ b.rd TIM_RATE_RATE_PPB = ofSigned 18 (rnd16 s.block.time.f) ∧ b.now = s.block.now
        ∧ (b.flt.recs.get 2).valid = true ∧ (b.flt.recs.get 2).lastT = s.block.now
        ∧ (s.block.rd TIM_CTL_INT_HOLD ≠ 0 → b.bit GLB_INT_PEND_PEND 19 = true)
        ∧ b = { s.block with regs := b.regs, time := b.time, flt := b.flt }
        ∧ s.block.regsBut b [TIM_RATE_RATE_PPB.key, TIM_STATUS_STATE.key, TIM_STATUS_HOLD_ENTERED.key, GLB_INT_PEND_PEND.key,
            FLT_STATUS_SEV_SEEN.key, FLT_STATUS_MSG_LOST.key, FLT_MSG_LOST_CNT_CNT.key]))
    ∧ (s.block.pwr.inS3 = true ∨ s.block.pwr.dead = true → exec .beaconDiscarded s = .next s)
    ∧ (s.block.pwr.inS3 = false → s.block.pwr.dead = false → s.answers .beaconDiscarded (fun b =>
    b.rd TIM_STATUS_BAD_BEACON = 1
    ∧ b.rd TIM_BAD_CNT_CNT = min (s.block.rd TIM_BAD_CNT_CNT + 1) 0xFFFFFFFF
    ∧ (s.block.rd TIM_CTL_INT_BAD ≠ 0 → b.bit GLB_INT_PEND_PEND 19 = true)
    ∧ (s.block.rd TIM_CTL_INT_BAD = 0 → b.rd GLB_INT_PEND_PEND = s.block.rd GLB_INT_PEND_PEND)
    ∧ s.block.onlyRegs b [TIM_STATUS_BAD_BEACON.key, TIM_BAD_CNT_CNT.key, GLB_INT_PEND_PEND.key]))

/-- R43, R44, R204: LGT_COMMIT.GO takes the shadow light list as it stands and sets BUSY; a check that finds a failing entry
changes no working value, clears BUSY and shows CODE and INDEX, and one that passes makes every working value of the list the
checked one. -/
def Obligations.LightCommitChecksTheShadow : Prop :=
  ∀ s : State,
    (∀ role : Role, s.grants role LGT_COMMIT_GO.off (withField (0 : Word) LGT_COMMIT_GO 1) →
        s.block.rd LGT_COMMIT_STATUS_BUSY = 0 →
      s.answers (.lightCommitGo role) (fun b => b.rd LGT_COMMIT_STATUS_BUSY = 1
        ∧ (∀ f : Fld, isLightKey f.key = true → fldGet b.lgtSnap f = s.block.rd f)
        ∧ b.lgtRun = !s.block.regu.running ∧ s.block.wrote b [LGT_COMMIT_GO.key, LGT_COMMIT_STATUS_BUSY.key]
        ∧ b = { s.block with regs := b.regs, mg := b.mg, lgtSnap := b.lgtSnap, lgtRun := b.lgtRun }))
    ∧ (∀ code idx : Nat, s.block.rd LGT_COMMIT_STATUS_BUSY ≠ 0 → s.block.lgtRun = true → 0 < code → code < 16 → idx < 64 →
        s.block.rd REGU_COMMIT_STATUS_BUSY = 0 → s.block.rd REGU_COMMIT_STATUS_PENDING = 0 →
        lightJudge s.block.lgtSnap s.block.refPar s.block.harbour (s.block.wk REGU_CTL_ENABLE != 0) = (code, idx) →
      s.answers .lightCommitDone (fun b => b.rd LGT_COMMIT_STATUS_BUSY = 0 ∧ b.rd LGT_COMMIT_STATUS_CODE = code
        ∧ b.rd LGT_COMMIT_STATUS_INDEX = idx ∧ b.work = s.block.work ∧ b.lights = s.block.lights
        ∧ s.block.regsBut b [LGT_COMMIT_STATUS_BUSY.key, LGT_COMMIT_STATUS_CODE.key, LGT_COMMIT_STATUS_INDEX.key]))
    ∧ (lightJudge s.block.lgtSnap s.block.refPar s.block.harbour (s.block.wk REGU_CTL_ENABLE != 0) = (0, 0x3F) →
        s.block.rd LGT_COMMIT_STATUS_BUSY ≠ 0 → s.block.lgtRun = true → s.block.rd REGU_COMMIT_STATUS_PENDING = 0 →
      s.answers .lightCommitDone (fun b => b.rd LGT_COMMIT_STATUS_BUSY = 0 ∧ b.rd LGT_COMMIT_STATUS_CODE = 0
        ∧ ∀ f : Fld, isLightKey f.key = true → b.wk f = fldGet s.block.lgtSnap f))

/-- R48, R50, R61: with no other entry due, a due occurrence of a MARK entry sends its message, stamped with the occurrence
instant, and uses up one occurrence: REMAIN falls by one, and at zero DONE is set. R50: an on-time that has run to its
scheduled end clears ACTIVE. -/
def Obligations.LightsFireAndEnd : Prop :=
  ∀ (s : State) (i : Fin 64),
    (s.block.lightDue i = true → (s.block.lightW i).verb = 8 → (∀ j, j < 64 → j ≠ i.val → s.block.lightDue j = false) →
        (s.block.lightW i).count ≠ 0 →
      s.answers (.lightOccurrence i) (fun b =>
        (b.lights.get i).next = (s.block.lights.get i).next + 1
        ∧ b.rd (LGT_STATUS_REMAIN i) = (s.block.rd (LGT_STATUS_REMAIN i) - 1) % 2 ^ 16
        ∧ (s.block.rd (LGT_STATUS_REMAIN i) = 1 → b.rd (LGT_STATUS_DONE i) = 1)
        ∧ (b.flt.recs.get 3).lastT = (s.block.lightW i).instant (s.block.lights.get i).next % 2 ^ 64
        ∧ (s.block.flt.msgs.length < 32 → ∃ sev, b.flt.msgs = s.block.flt.msgs ++
            [{ source := 3, kind := 0, sev := sev, form := 1, addr := (s.block.lightW i).arg + i.val * 2 ^ 32,
               time := (s.block.lightW i).instant (s.block.lights.get i).next % 2 ^ 64 }])))
    ∧ (s.block.lightsRun = true → (s.block.lights.get i).onEnd ≤ s.block.now → s.block.lightActive i = true →
        (s.block.lightW i).verb ≠ 6 →
      s.answers (.lightOnTimeEnd i) (fun b => b.rd (LGT_STATUS_ACTIVE i) = 0
        ∧ b = { s.block with regs := b.regs, subs := b.subs } ∧ s.block.regsBut b [(LGT_STATUS_ACTIVE i).key]))

/-- R80, R82, R83, R84: outside start a load in progress fails on ABORT, on a window write out of sequence, on a failed check,
on a rejecting verdict and without a verdict in time, each with its code, and leaves the block as it was before OPEN. -/
def Obligations.FailedLoadsLeaveTheBlock : Prop :=
  ∀ s : State, s.block.rd HBR_STATUS_STATE ≠ 1 → s.block.rd HBR_STATUS_STATE ≠ 3 →
    (∀ (role : Role) (w : Word),
        s.grants role IMG_CTL_ABORT.off (withField (withField w IMG_CTL_OPEN 0) IMG_CTL_ABORT 1) →
        s.block.imBusy = true → s.block.imState ≠ imApplying →
      s.answers (.imageAbort role w) (fun b => b.acked ∧ s.block.loadEnded b imFailed 18
        [IMG_CTL_OPEN.key, IMG_CTL_ABORT.key, IMG_CTL_INT_END.key, IMG_CTL_SIG_TIMEOUT_MS.key]))
    ∧ (∀ (role : Role) (at_ : BitVec 18) (w : Word), s.block.mgOpen = true → s.block.mg.held = [] →
        role ≠ .none → role ≠ .operator → s.block.policyOk role 1 = true →
        s.block.imState = imReceiving → 4 * at_.toNat ≠ s.block.rd IMG_COUNT_VAL →
      s.answers (.imageWindowWrite role at_ w) (fun b => b.acked ∧ s.block.loadEnded b imFailed 5 []))
    ∧ (∀ code idx detail off : Nat, s.block.imState = imChecking → s.block.imJudge = some (code, idx, detail, off) →
        0 < code → code < 256 →
      s.answers .imageChecksDone (fun b => s.block.loadEnded b imFailed code []))
    ∧ (s.block.imState = imAwait → s.answers (.imageVerdict false) (fun b => s.block.loadEnded b imFailed 14 []))
    ∧ (s.block.imState = imAwait → s.answers .sigTimeout (fun b => s.block.loadEnded b imFailed 15 []))

/-- R84: outside start, OPEN in a state without a load in progress opens one: RECEIVING, IMG_COUNT 0, no code; OPEN alone in a
load that is in progress is refused with OPEN_REFUSED and leaves the load as it is.
R80, R82, R83: the window takes a word at IMG_COUNT; checks that pass lead to AWAIT_SIG; a verdict that comes earlier is
latched, and an OK verdict in AWAIT_SIG of a running block leads to APPLYING. -/
def Obligations.ImageLoadsReachApplying : Prop :=
  ∀ s : State, (s.block.rd HBR_STATUS_STATE = 2 →
    (∀ (role : Role) (at_ : BitVec 18) (w : Word), s.block.mgOpen = true → s.block.mg.held = [] →
        role ≠ .none → role ≠ .operator → s.block.policyOk role 1 = true → s.block.imState = imReceiving →
        4 * at_.toNat = s.block.rd IMG_COUNT_VAL → s.block.img.bytes.length + 4 < 64 →
      s.answers (.imageWindowWrite role at_ w) (fun b => b.acked ∧ b.rd IMG_COUNT_VAL = 4 * at_.toNat + 4
        ∧ b.img = { s.block.img with bytes := s.block.img.bytes ++ leBytes 4 w.toNat }
        ∧ s.block.regsBut b [IMG_COUNT_VAL.key] ∧ b = { s.block with regs := b.regs, mg := b.mg, img := b.img }))
    ∧ (s.block.imState = imChecking → s.block.imJudge = none → s.block.img.verdict = none →
      s.answers .imageChecksDone (fun b => b.rd IMG_STATUS_STATE = imAwait ∧ s.block.onlyRegs b [IMG_STATUS_STATE.key]))
    ∧ (∀ ok : Bool, s.block.imState = imReceiving ∨ s.block.imState = imChecking →
      s.answers (.imageVerdict ok) (fun b => b = { s.block with img := { s.block.img with verdict := some ok } }))
    ∧ (s.block.imState = imAwait →
      s.answers (.imageVerdict true) (fun b => b.rd IMG_STATUS_STATE = imApplying
        ∧ s.block.regsBut b [IMG_STATUS_STATE.key] ∧ b.img.secs = s.block.img.secs
        ∧ b = { s.block with regs := b.regs, img := b.img })))
    ∧ (∀ (role : Role) (w : Word), s.grants role IMG_CTL_OPEN.off (withField w IMG_CTL_OPEN 1) →
    (s.block.imBusy = false → s.block.imMayOpen = true →
      s.answers (.imageOpen role w) (fun b => b.acked ∧ b.rd IMG_STATUS_STATE = imReceiving ∧ b.rd IMG_COUNT_VAL = 0
        ∧ b.rd IMG_STATUS_CODE = 0 ∧ b.rd IMG_STATUS_INDEX = 0xFF ∧ b.img.bytes = [] ∧ b.img.verdict = none
        ∧ b.img.role = role.code ∧ b.img.secs = s.block.img.secs
        ∧ b = { s.block with regs := b.regs, mg := b.mg, img := b.img }))
    ∧ (s.block.imBusy = true → bitOf w.toNat 1 = false →
      s.answers (.imageOpen role w) (fun b => b.acked ∧ b.rd IMG_STATUS_OPEN_REFUSED = 1 ∧ b.img = s.block.img
        ∧ s.block.wrote b [IMG_STATUS_OPEN_REFUSED.key, IMG_CTL_OPEN.key, IMG_CTL_ABORT.key, IMG_CTL_INT_END.key,
            IMG_CTL_SIG_TIMEOUT_MS.key]
        ∧ b = { s.block with regs := b.regs, mg := b.mg })))

/-- R90, R91: at the end of the apply of a reload image the state is DONE, IMG_RELOAD_ID takes IMAGE_ID and IMG_RELOAD_CNT
increments. A LIGHT_LIST apply, once BUSY reads 0, overwrites every shadow entry and commits it as LGT_COMMIT.GO does. -/
def Obligations.ReloadAppliesTakeEffect : Prop :=
  ∀ s : State, s.block.imState = imApplying →
    (s.block.rd HBR_STATUS_STATE = 2 → s.block.imKind = 1 → s.block.img.lightWait = false →
      s.answers .imageApplyDone (fun b => b.rd IMG_STATUS_STATE = imDone ∧ b.rd IMG_STATUS_CODE = 0
        ∧ b.rd IMG_RELOAD_ID_VAL = s.block.imageId % 2 ^ 32
        ∧ b.rd IMG_RELOAD_CNT_VAL = (s.block.rd IMG_RELOAD_CNT_VAL + 1) % 2 ^ 32
        ∧ b.rd IMG_LOADED_ID_VAL = s.block.rd IMG_LOADED_ID_VAL ∧ b.work = s.block.work))
    ∧ (s.block.img.lightWait = true → s.block.rd LGT_COMMIT_STATUS_BUSY = 0 →
      s.answers .reloadLightListApply (fun b => b.rd LGT_COMMIT_STATUS_BUSY = 1 ∧ b.img.lightWait = false
        ∧ (∀ f : Fld, isLightKey f.key = true →
            b.rd f = fldGet (lightTable (Tab.get (imSecs s.block.img.bytes) (secKey tyLight 0))) f
            ∧ fldGet b.lgtSnap f = b.rd f)
        ∧ b.work = s.block.work))

/-- R132, R137, R163: a header that is accepted, passes the master filter and names an extent whose cached descriptor is valid,
NORMAL, owned by the master and served from its frame (with no error in its cache entry), enters its port's queue at the slice of its channel with the class and
the cache policy of the descriptor. It takes the next number; a response is owed for every opcode but PREFETCH. No other queue of
a slice and no memory changes. -/
def Obligations.HeadersReachTheirSlice : Prop :=
  ∀ (s : State) (p : Fin 6) (h : Header) (d : Desc) (rt : Route) (a : Nat) (e : Instr × ReqOp),
    e ∈ [(Instr.rd64 p h none, ReqOp.rd64), (.rd256 p h none, .rd256), (.wr64 p h none, .wr64), (.wrp p h none, .wrp),
      (.prefetch p h none, .prefetch)] →
    a = h.dpa.toNat / 64 * 64 →
    s.block.hdrReady p e.2 = true → headerParityOk h e.2.opcode = true → (e.2 = .prefetch → s.block.prefetches p < 32) →
    (tagMaster h.tag &&& s.block.rd (PRT_MID_MASK p)) = s.block.rd (PRT_MID_BASE p) →
    reservedOff a = none → s.block.extentOf a < s.block.edtEntries → s.block.withheld (s.block.extentOf a) = false →
    s.block.descCached (s.block.extentOf a) = some d → s.block.descBad (s.block.extentOf a) = false → dValid d = true → ownerOk d (tagMaster h.tag) = true →
    dState d = xsNormal → s.block.serveAt d (a % 2 ^ s.block.granLog) = some (rt, none, false) →
    s.block.beyondGeom (s.block.routeSub rt) (s.block.routeCoord rt) = false →
    s.block.inTrainRow (s.block.routeSub rt) (s.block.routeCoord rt) = false →
    s.block.chunkLocked (s.block.extentOf a) a = false → s.block.edt.held = [] → s.block.sliceFenced rt.chan = false →
    s.answers e.1 (fun b =>
      (∃ r : Req, (b.slices.get rt.chan).q.get p = (s.block.slices.get rt.chan).q.get p ++ [r] ∧ r.id = s.block.nextId
        ∧ r.src = p.val ∧ r.op = e.2 ∧ r.tag = h.tag ∧ r.dpa = a ∧ r.route = rt ∧ r.tc = dTc d ∧ r.policy = dPolicy d)
      ∧ (∀ c q : Nat, c ≠ rt.chan ∨ q ≠ p.val → (b.slices.get c).q.get q = (s.block.slices.get c).q.get q)
      ∧ (b.ports.get p).out.map (fun o => o.id) = (s.block.ports.get p).out.map (fun o => o.id)
          ++ (if e.2 = .prefetch then [] else [s.block.nextId])
      ∧ (b.ports.get p).rsp = (s.block.ports.get p).rsp
      ∧ b = { s.block with regs := b.regs, nextId := s.block.nextId + 1, fresh := b.fresh, ctr := b.ctr, ports := b.ports,
                           edt := b.edt, slices := b.slices, pwr := b.pwr }
      ∧ s.block.regsButCounted b [(PRT_STATUS_TAG_RSVD p).key, REGU_ARRIVE_LATE_CNT_CNT.key, (PWR_CH_STATUS_MOVING rt.chan).key,
          (PWR_CH_STATUS_WAKE_LATCHED rt.chan).key])

/-- R132, R137: a header that the master filter of its port rejects is answered DENIED in every response beat and counted in
PRT_DENY_CNT; a header with a reserved opcode is answered DECODE in one beat and sets BAD_OPCODE. (On a port with nothing
outstanding, and with the event's severity below 3.) Neither reaches a slice. R155: with REQ_H_READY low nothing is accepted. -/
def Obligations.RefusedHeadersAreAnswered : Prop :=
  ∀ (s : State) (p : Fin 6) (h : Header),
    (∀ e ∈ [(Instr.rd64 p h none, ReqOp.rd64), (.rd256 p h none, .rd256), (.wr64 p h none, .wr64), (.wrp p h none, .wrp)],
      s.block.hdrReady p e.2 = true → headerParityOk h e.2.opcode = true →
      (tagMaster h.tag &&& s.block.rd (PRT_MID_MASK p)) ≠ s.block.rd (PRT_MID_BASE p) →
      (s.block.ports.get p).out = [] → (s.block.ports.get p).rsp = [] →
      s.answers e.1 (fun b =>
        b.rd (PRT_DENY_CNT_CNT p) = min (s.block.rd (PRT_DENY_CNT_CNT p) + 1) 0xFFFFFFFF
        ∧ (b.ports.get p).rsp.length = (if e.2 = .rd256 then 4 else 1) ∧ (b.ports.get p).out = []
        ∧ (∀ t ∈ (b.ports.get p).rsp, t.status = stDenied ∧ t.tag = h.tag ∧ t.data = 0)
        ∧ b.slices = s.block.slices ∧ b.edt = s.block.edt ∧ b.arr = s.block.arr))
    ∧ (∀ n : Fin 11, s.block.hdrReady p .rd64 = true → headerParityOk h (5 + n) = true →
      s.block.rd (FLT_SEV_SEV 18) ≠ 3 → (s.block.ports.get p).out = [] → (s.block.ports.get p).rsp = [] →
      s.answers (.reservedOpcode p h n) (fun b =>
        b.rd (PRT_STATUS_BAD_OPCODE p) = 1 ∧ (b.flt.recs.get 18).valid = true
        ∧ (∃ t : Beat, (b.ports.get p).rsp = [t] ∧ t.status = stDecode ∧ t.tag = h.tag ∧ t.last = true ∧ t.data = 0)
        ∧ b.slices = s.block.slices ∧ b.edt = s.block.edt ∧ b.arr = s.block.arr))
    ∧ ∀ op : Instr × ReqOp, op ∈ [(Instr.rd64 p h none, ReqOp.rd64), (.rd256 p h none, .rd256), (.wr64 p h none, .wr64),
        (.wrp p h none, .wrp), (.prefetch p h none, .prefetch)] → s.block.hdrReady p op.2 = false →
      s.answers op.1 (fun b => b = { s.block with regs := b.regs, ctr := b.ctr, fresh := b.fresh } ∧ s.block.regsButCounted b [])

/-- R130: a data beat that no header waits for is kept as the data of the next write; otherwise it goes to the oldest write
header without one, wherever that request stands. R128: the head of the response lane transfers, and leaves it. -/
def Obligations.BeatsTransferInOrder : Prop :=
  ∀ (s : State) (p : Fin 6),
    (∀ d : DataBeat, beatParityOk d = true → s.block.missFull = false → s.block.portState p = ptEnabled →
        (s.block.ports.get p).needData = [] →
      s.answers (.writeDataBeat p d) (fun b =>
        b.ports.get p = { s.block.ports.get p with early := (s.block.ports.get p).early ++ [⟨d.data, d.be, d.poison, false⟩] }
        ∧ (∀ q : Nat, q ≠ p.val → b.ports.get q = s.block.ports.get q)
        ∧ b = { s.block with regs := b.regs, ctr := b.ctr, fresh := b.fresh, ports := b.ports } ∧ s.block.regsButCounted b []))
    ∧ (∀ (d : DataBeat) (id : Nat) (rest : List (Nat × Option (BitVec 64 × Nat))) (o : Outst), beatParityOk d = true → s.block.missFull = false →
        s.block.portState p = ptEnabled → (s.block.ports.get p).needData = (id, none) :: rest →
        (s.block.ports.get p).out.find? (fun x => x.id == id) = some o → s.block.grantOf id = none →
      s.answers (.writeDataBeat p d) (fun b =>
        (b.ports.get p).needData = rest
        ∧ (∀ c q : Nat, (b.slices.get c).q.get q = ((s.block.slices.get c).q.get q).map (fun r =>
            if r.src = p.val ∧ r.id = id then { r with wdata := [⟨d.data, d.be, d.poison, false⟩] } else r))
        ∧ b.arr = s.block.arr ∧ s.block.regsButCounted b []))
    ∧ ∀ (t : Beat) (rest : List Beat), s.block.isolated = false → (s.block.ports.get p).rsp = t :: rest →
      s.answers (.responseTransfer p) (fun b =>
        (b.ports.get p).rsp.map (fun x => { x with late := none }) = rest.map (fun x => { x with late := none })
        ∧ (b.ports.get p).out = (s.block.ports.get p).out ∧ (rest = [] → (s.block.ports.get p).out = [] →
            s.block.portState p = ptDraining → b.portState p = ptDisabled)
        ∧ b.slices = s.block.slices ∧ b.arr = s.block.arr)

/-- R157, R159, R160: ENABLE = 1 takes a DISABLED port to ENABLED and leaves a STOPPED one as it is; ENABLE = 0 takes an ENABLED
port to DRAINING while something is outstanding and otherwise to DISABLED. When a header with a parity error comes in the cycle of
the write of ENABLE = 0, the port is STOPPED (with the event's severity below 3). -/
def Obligations.PortsOpenAndClose : Prop :=
  ∀ (s : State) (role : Role) (p : Fin 6) (w : Word),
    (s.grants role (PRT_CTL_ENABLE p).off (withField w (PRT_CTL_ENABLE p) 1) →
      s.answers (.portEnable role p w) (fun b =>
        (s.block.portState p = ptDisabled → b.portState p = ptEnabled)
        ∧ (s.block.portState p = ptStopped → b.portState p = ptStopped ∧ b.rd (PRT_CTL_ENABLE p) = s.block.rd (PRT_CTL_ENABLE p))
        ∧ s.block.wrote b [(PRT_CTL_ENABLE p).key, (PRT_CTL_INT_EN p).key, (PRT_STATUS_STATE p).key]
        ∧ b = { s.block with regs := b.regs, mg := b.mg }))
    ∧ (s.grants role (PRT_CTL_ENABLE p).off (withField w (PRT_CTL_ENABLE p) 0) → s.block.portState p = ptEnabled →
      ((s.block.ports.get p).off = false → s.block.rd (FLT_SEV_SEV 16) ≠ 3 →
        s.answers (.portDisable role p ⟨w, true⟩) (fun b => b.portState p = ptStopped ∧ b.rd (PRT_CTL_ENABLE p) = 0
          ∧ b.rd (PRT_STATUS_HDR_PAR p) = 1))
      ∧ s.answers (.portDisable role p ⟨w, false⟩) (fun b =>
        b.portState p = (if (s.block.ports.get p).idle then ptDisabled else ptDraining) ∧ b.rd (PRT_CTL_ENABLE p) = 0
        ∧ (b.ports.get p).out = (s.block.ports.get p).out ∧ (b.ports.get p).rsp = (s.block.ports.get p).rsp
        ∧ s.block.wrote b [(PRT_CTL_ENABLE p).key, (PRT_CTL_INT_EN p).key, (PRT_STATUS_STATE p).key]
        ∧ b = { s.block with regs := b.regs, mg := b.mg, ports := b.ports }))

/-- R126, R127: a write of EDT_INVAL with a MODE, while the queue has room, takes the next sequence number and is queued with its
range, and fetches outstanding in its range will not be installed. The oldest invalidate, with no such fetch outstanding and no
older request of its range at a slice, drops every cached descriptor of its range and completes: DONE_SEQ takes its number. -/
def Obligations.InvalidatesCompleteInOrder : Prop :=
  ∀ s : State,
    (∀ (role : Role) (n : BitVec 17) (e : Instr × Nat),
      e ∈ [(Instr.edtInvalIndex role, 1), (.edtInvalRange role n, 2), (.edtInvalAll role, 3)] →
      s.grants role EDT_INVAL_MODE.off
        (withField (withField 0 EDT_INVAL_MODE e.2) EDT_INVAL_COUNT (if e.2 = 2 then n.toNat else 0)) →
      s.block.invalRoom = true →
      s.answers e.1 (fun b => ∃ v : Inval, b.edt.inval = s.block.edt.inval ++ [v] ∧ v.mode = e.2
        ∧ v.first = s.block.rd EDT_INVAL_FIRST_FIRST ∧ (e.2 = 2 → v.count = max 1 n.toNat)
        ∧ v.seq = some ((s.block.rd EDT_INVAL_STATUS_ACCEPT_SEQ + 1) % 65536)
        ∧ b.rd EDT_INVAL_STATUS_ACCEPT_SEQ = (s.block.rd EDT_INVAL_STATUS_ACCEPT_SEQ + 1) % 65536
        ∧ b.edt.fetches = s.block.edt.fetches.map (fun f =>
            if f.started && v.covers f.idx then { f with noInstall := true } else f)
        ∧ b.edt.cache = s.block.edt.cache ∧ b = { s.block with regs := b.regs, mg := b.mg, edt := b.edt }
        ∧ s.block.wrote b [EDT_INVAL_MODE.key, EDT_INVAL_COUNT.key, EDT_INVAL_STATUS_ACCEPT_SEQ.key]))
    ∧ ∀ (v : Inval) (rest : List Inval) (n : Nat), s.block.edt.inval = v :: rest → v.walked = false → v.seq = some n → n < 65536 →
      v.lane = 4 → s.block.mg.held = [] → (∀ f ∈ s.block.edt.fetches, ¬ (f.noInstall = true ∧ v.covers f.idx = true)) →
      s.block.slices = [] →
      s.answers .edtInvalComplete (fun b => b.edt.inval = rest ∧ b.rd EDT_INVAL_STATUS_DONE_SEQ = n
        ∧ (∀ i : Nat, v.covers i = true → b.descCached i = none)
        ∧ (∀ i : Nat, v.covers i = false → b.descCached i = s.block.descCached i)
        ∧ b.edt.fetches = s.block.edt.fetches ∧ s.block.regsBut b [EDT_INVAL_STATUS_DONE_SEQ.key, GLB_INT_PEND_PEND.key]
        ∧ b = { s.block with regs := b.regs, edt := b.edt, mg := b.mg })

/-- R118, R119, R127: while fewer than 32 fetches are outstanding the oldest waiting one starts; a fetch that returns a sound valid
descriptor installs it in the descriptor cache, unless an invalidate of its range was accepted meanwhile, and one that returns a
valid descriptor with a wrong CRC sets BAD_CRC with the index and installs nothing. R377: one whose miss-queue entry holds an
uncorrectable error is recorded under source 56 (with its severity below 3) and installs nothing. -/
def Obligations.DescriptorFetches : Prop :=
  ∀ s : State,
    (∀ f : Fetch, (s.block.edt.fetches.filter (fun x => x.started)).length < 32 →
        s.block.edt.fetches.find? (fun x => !x.started) = some f → s.block.edt.beyond = [] →
        s.block.edtNoPlace (s.block.edtReq 9 f.idx .rd64) = false → s.block.edtDown (s.block.edtReq 9 f.idx .rd64) = true →
      s.answers .descriptorFetchStart (fun b =>
        b.edt = { s.block.edt with fetches := updFirst (fun x => !x.started) (fun x => { x with started := true }) s.block.edt.fetches }
        ∧ (∃ m : Intern, b.intern = s.block.intern ++ [m] ∧ m.req.src = 9 ∧ m.req.idx = f.idx ∧ m.status = stFenced)
        ∧ b = { s.block with edt := b.edt, intern := b.intern, nextId := s.block.nextId + 1 }))
    ∧ (∀ f : Fetch, (s.block.edt.fetches.filter (fun x => x.started)).length < 32 →
        s.block.edt.fetches.find? (fun x => !x.started) = some f → s.block.edt.beyond = [] → s.block.edtInScratch = true →
        f.idx < s.block.edtEntries →
        s.block.sliceFenced (s.block.reqSlice (s.block.edtReq 9 f.idx .rd64)) = false → s.block.slices = [] →
      s.answers .descriptorFetchStart (fun b =>
        b.edt = { s.block.edt with fetches := updFirst (fun x => !x.started) (fun x => { x with started := true }) s.block.edt.fetches }
        ∧ ∃ m : Intern, b.intern = s.block.intern ++ [m] ∧ m.req.src = 9 ∧ m.req.idx = f.idx
          ∧ m.status = (s.block.scratchVal (s.block.scratchPlace (s.block.edtBase + edtAddr f.idx % 2 ^ 30)).2).status
          ∧ m.data = (s.block.scratchVal (s.block.scratchPlace (s.block.edtBase + edtAddr f.idx % 2 ^ 30)).2).bits))
    ∧ ∀ (n : Intern) (rest : List Intern) (f : Fetch) (others : List Fetch), f.waiters = [] →
        takeFirst (fun (m : Intern) => m.req.src == 9) s.block.intern = some (n, rest) →
        takeFirst (fun (x : Fetch) => x.idx == n.req.idx && x.started) s.block.edt.fetches = some (f, others) →
        statusHasData n.status = true → dValid n.data = true →
      (f.bad = false → dCrcOk n.data = true → s.block.malformed n.data = false →
        s.answers .descriptorFetchReturn (fun b =>
          b.descCached n.req.idx = (if f.noInstall || s.block.edt.inval.any (fun v => v.covers n.req.idx) then s.block.descCached n.req.idx else some n.data)
          ∧ b.intern = rest ∧ b.edt.fetches = others ∧ b = { s.block with edt := b.edt, intern := rest }))
      ∧ (f.bad = true → s.block.rd (FLT_SEV_SEV 56) ≠ 3 → s.answers .descriptorFetchReturn (fun b =>
          b.edt = { s.block.edt with fetches := others } ∧ b.intern = rest ∧ (b.flt.recs.get 56).valid = true))
      ∧ (f.bad = false → dCrcOk n.data = false → n.req.idx < 2 ^ 16 →
        s.answers .descriptorFetchReturn (fun b =>
          b.rd EDT_STATUS_BAD_CRC = 1 ∧ b.rd EDT_ERR_INDEX_INDEX = n.req.idx ∧ b.edt = { s.block.edt with fetches := others }
          ∧ b.intern = rest))

/-- R124: an update of the block whose read has returned a sound valid descriptor, and which changes a field, writes that
descriptor with GEN incremented modulo 2^16 and a correct CRC, every bit outside the fields it names, GEN and CRC kept, and
invalidates the cached copy. An update of the POISON flag names that flag alone. -/
def Obligations.DescriptorUpdatesKeepTheRest : Prop :=
  (∀ d : Desc, dGen (dSeal d) = (dGen d + 1) % 65536 ∧ dCrcOk (dSeal d) = true
      ∧ ∀ i : Nat, i < 496 → i < 32 ∨ 48 ≤ i → (dSeal d).getLsbD i = d.getLsbD i)
  ∧ (∀ (i : Nat) (d : Desc), dPoison ((poisonUpd i).apply d) = true
      ∧ ∀ k : Nat, k ≠ 12 → ((poisonUpd i).apply d).getLsbD k = d.getLsbD k)
  ∧ ∀ (s : State) (u : DescUpd) (rest : List DescUpd) (n : Intern) (others : List Intern),
      s.block.edt.updates = u :: rest → u.asked = true → u.gen = none → 4 ≤ u.lane → s.block.invalRoom = true →
      takeFirst (fun (m : Intern) => m.req.src == 10) s.block.intern = some (n, others) →
      statusHasData n.status = true → dValid n.data = true → dCrcOk n.data = true → s.block.malformed n.data = false →
      u.apply n.data ≠ n.data → s.block.edtThere = true → s.block.edtInScratch = true → s.block.slices = [] →
      u.idx < s.block.edtEntries → s.block.scrub.line = none → s.block.tnd.lanes = [] →
      s.answers .descriptorUpdate (fun b =>
        b.scratchVal (b.scratchPlace (b.edtBase + edtAddr u.idx % 2 ^ 30)).2 = .data (dSeal (u.apply n.data)) false
        ∧ b.edt.updates = rest ∧ b.intern = others ∧ b.edt.cache = s.block.edt.cache
        ∧ ∃ v : Inval, b.edt.inval = s.block.edt.inval ++ [v] ∧ v.mode = 1 ∧ v.first = u.idx ∧ v.seq = none)

/-- R165, R167, R190: the arbiter grants a candidate of the highest tier present, the owed tier above every precedence level,
as the counts of `lag` grants before show it (R187), and in that tier the first after the pointer in round robin: a candidate of the tier other than the last winner goes before it. -/
def Obligations.TheHighestTierIsServedInTurn : Prop :=
  ∀ (b : Block) (c lag i t : Nat) (cands : List (Nat × Req)), b.decide_ c lag cands = some (i, t) → (∀ e ∈ cands, e.1 < 9) →
    (∃ r : Req, (i, r) ∈ cands ∧ b.tierOf lag i r = t) ∧ (∀ e ∈ cands, b.tierOf lag e.1 e.2 ≤ t)
    ∧ (∀ e ∈ cands, canOwe e.1 = true → b.owedSeen lag e.2 = true → 4 ≤ t)
    ∧ (i = (b.slices.get c).pointer t → ∀ e ∈ cands, b.tierOf lag e.1 e.2 = t → e.1 = i)

/-- R163, R165, R169, R171, R180: a granted write without its data beat keeps the input of its slice; the pointer of its tier takes
its requester, whose queue loses its head, and no other queue changes. A cut-off answers the transfer ABORTED, frees the input,
and is counted and named (with its event below severity 3).
R217, R218, R220: a granted RD64 of a port that hits a sector in V or D of a line of a slice in NORMAL is answered OK with the
sector's data, and no sector of the arrays changes. (Nothing else is outstanding at the port, the set's tags and the sector have no
error, and no older access to the sector is refused by a queue, R209.) -/
def Obligations.GrantsHitsAndCutoffs : Prop :=
  ∀ (s : State) (c : Fin 16),
    (∀ (up : Upset) (lag : Fin 65) (i t : Nat) (r : Req) (rest : List Req), s.block.sliceFenced c = false →
        (s.block.slices.get c).grant = none → s.block.sliceTakes c = true →
        s.block.decide_ c lag (s.block.candidates c lag) = some (i, t) → (s.block.slices.get c).q.get i = r :: rest →
        r.op.isWrite = true → r.wdata = [] → i < 9 →
      s.answers (.sliceGrant c ⟨up, lag⟩) (fun b =>
        (b.slices.get c).grant = some { r with owed := t == 4 } ∧ (b.slices.get c).q.get i = rest
        ∧ (b.slices.get c).pointer t = i ∧ (∀ j : Nat, j ≠ i → (b.slices.get c).q.get j = (s.block.slices.get c).q.get j)
        ∧ (∀ d : Nat, d ≠ c.val → b.slices.get d = s.block.slices.get d)
        ∧ (∀ e : Nat, s.block.entryOf r = some e →
            b.regu.served.get e = min (s.block.regu.served.get e + r.op.units) 0xFFFFFFFF)
        ∧ b = { s.block with regs := b.regs, ctr := b.ctr, fresh := b.fresh, slices := b.slices, regu := b.regu
                             arr := (s.block.upset c up).arr, edt := (s.block.upset c up).edt }
        ∧ s.block.regsButCounted b []))
    ∧ (∀ (r : Req) (o : Outst), (s.block.slices.get c).grant = some r → r.src < 6 → r.op = .wr64 ∨ r.op = .wrp →
        (s.block.ports.get r.src).out = [o] → o.id = r.id → o.todo = [0] → (s.block.ports.get r.src).rsp = [] →
        s.block.rd (FLT_SEV_SEV 19) ≠ 3 →
      s.answers (.arbCutoff c) (fun b =>
        (b.slices.get c).grant = none ∧ (∃ t : Beat, (b.ports.get r.src).rsp = [t] ∧ t.status = stAborted ∧ t.write = true ∧ t.last = true)
        ∧ (b.ports.get r.src).out = [] ∧ b.bit ARB_CUTOFF_REQ r.src = true
        ∧ b.rd ARB_CUTOFF_CNT_CNT = min (s.block.rd ARB_CUTOFF_CNT_CNT + 1) 0xFFFFFFFF
        ∧ b.rd ARB_CUTOFF_LAST_SLICE = c ∧ b.rd ARB_CUTOFF_LAST_REQ = r.src
        ∧ (∀ i : Nat, (b.slices.get c).q.get i = (s.block.slices.get c).q.get i) ∧ b.arr = s.block.arr))
    ∧ (∀ (lag : Fin 65) (i t k : Nat) (r : Req) (rest : List Req) (o : Outst),
    s.block.sliceFenced c = false → (s.block.slices.get c).grant = none → (s.block.slices.get c).wait = [] →
    s.block.sliceTakes c = true → s.block.soundTags c r.dpa → s.block.behindRefused c r = false →
    s.block.decide_ c lag (s.block.candidates c lag) = some (i, t) → (s.block.slices.get c).q.get i = r :: rest →
    r.op = .rd64 → r.src < 6 → r.area = .dram → r.direct = false → r.raw = false → s.block.sliceState c = 0 →
    s.block.scrub.line = none → s.block.findLine c r.dpa = some k →
    (s.block.line k).st.get (r.dpa / 64 % 4) = .v ∨ (s.block.line k).st.get (r.dpa / 64 % 4) = .d →
    (s.block.line k).bad.get (r.dpa / 64 % 4) = false → s.block.arr.err.get (4 * k + r.dpa / 64 % 4) = 0 →
    (s.block.ports.get r.src).out = [o] → o.id = r.id → o.todo = [r.dpa / 64 % 4] → (s.block.ports.get r.src).rsp = [] →
    s.answers (.sliceGrant c ⟨.none, lag⟩) (fun b =>
      (∃ x : Beat, (b.ports.get r.src).rsp = [x] ∧ x.status = stOK ∧ x.data = (s.block.line k).dat.get (r.dpa / 64 % 4)
        ∧ x.tag = r.tag ∧ x.write = false ∧ x.last = true ∧ x.sector = r.dpa / 64 % 4)
      ∧ (b.ports.get r.src).out = []
      ∧ (∀ j n : Nat, (b.line j).st.get n = (s.block.line j).st.get n ∧ (b.line j).dat.get n = (s.block.line j).dat.get n
          ∧ (b.line j).tag = (s.block.line j).tag)
      ∧ (b.slices.get c).miss = (s.block.slices.get c).miss ∧ (b.slices.get c).wb = (s.block.slices.get c).wb
      ∧ b.arr.scratch = s.block.arr.scratch ∧ b.subs = s.block.subs))

/-- R174, R175: ARB_COMMIT.GO makes every shadow precedence level active and changes no shadow. A write of ARB_HOLD_LIMIT sets
LIMIT and cuts off the transfers that have reached it, and no other. -/
def Obligations.ArbiterSettingsTakeEffect : Prop :=
  ∀ (s : State) (role : Role),
    (s.grants role ARB_COMMIT_GO.off (withField (0 : Word) ARB_COMMIT_GO 1) →
      s.answers (.arbCommit role) (fun b =>
        b.rd ARB_PREC_ACTIVE_SCRUB = s.block.rd ARB_PREC_SCRUB % 4 ∧ b.rd ARB_PREC_ACTIVE_KEEPER = s.block.rd ARB_PREC_KEEPER % 4
        ∧ b.rd ARB_PREC_ACTIVE_TENDER = s.block.rd ARB_PREC_TENDER % 4 ∧ b.rd ARB_PREC_ACTIVE_P5 = s.block.rd ARB_PREC_P5 % 4
        ∧ b.rd ARB_PREC_ACTIVE_P4 = s.block.rd ARB_PREC_P4 % 4 ∧ b.rd ARB_PREC_ACTIVE_P3_P0 = s.block.rd ARB_PREC_P3_P0 % 256
        ∧ s.block.wrote b [ARB_COMMIT_GO.key, ARB_PREC_ACTIVE_SCRUB.key, ARB_PREC_ACTIVE_KEEPER.key, ARB_PREC_ACTIVE_TENDER.key,
            ARB_PREC_ACTIVE_P5.key, ARB_PREC_ACTIVE_P4.key, ARB_PREC_ACTIVE_P3_P0.key]
        ∧ b = { s.block with regs := b.regs, mg := b.mg }))
    ∧ ∀ (limit : BitVec 12) (mask : BitVec 16),
        s.grants role ARB_HOLD_LIMIT_LIMIT.off (withField (0 : Word) ARB_HOLD_LIMIT_LIMIT limit.toNat) →
      s.answers (.holdLimitWrite role limit mask) (fun b =>
        b.acked ∧ b.rd ARB_HOLD_LIMIT_LIMIT = limit.toNat
        ∧ (∀ c : Nat, c < 16 → (b.slices.get c).grant = if mask.getLsbD c then none else (s.block.slices.get c).grant)
        ∧ (mask = 0 → s.block.wrote b [ARB_HOLD_LIMIT_LIMIT.key] ∧ b = { s.block with regs := b.regs, mg := b.mg }))

/-- R207, R250: a slice passes the oldest read or write that may go into the queue of its subchannel, while the queue holds fewer
entries than the buoy of its class; a write's codeword is the encoding of its data (R374).
R225, R228: a request that waited for the eviction of a way is retried; a WR64 whose way has become free takes it and leaves
its sector dirty with its data, and it is answered OK. -/
def Obligations.QueueEntriesAndRetries : Prop :=
  ∀ (s : State) (c : Fin 16),
    (∀ x : Miss, s.block.readReady c x = 2 → ((s.block.subs.get (s.block.routeSub x.route)).rq.length
        < s.block.buoyRd x.cls x.owed))
    ∧ (∀ x : Miss, (s.block.slices.get c).miss = [x] → s.block.readReady c x = 2 →
        (s.block.subs.get (s.block.routeSub x.route)).wq = [] →
      s.answers (.queueInsert c false false) (fun b =>
        (∃ e : RdEnt, (b.subs.get (s.block.routeSub x.route)).rq = (s.block.subs.get (s.block.routeSub x.route)).rq ++ [e]
          ∧ e.slice = c.val ∧ e.miss = x.id ∧ e.at_ = s.block.routeCoord x.route ∧ e.cls = x.cls ∧ e.owed = x.owed
          ∧ e.deadline = x.deadline ∧ e.arrival = (s.block.subs.get (s.block.routeSub x.route)).slot)
        ∧ (b.slices.get c).miss = [{ x with queued := true, joined := none }]
        ∧ b = { s.block with slices := b.slices, subs := b.subs }))
    ∧ (∀ x : Miss, (s.block.slices.get c).miss = [x] → s.block.readReady c x = 1 →
      s.answers (.queueInsert c false false) (fun b =>
        b = { s.block with regs := b.regs, ctr := b.ctr, fresh := b.fresh } ∧ s.block.regsButCounted b []))
    ∧ (∀ w : WriteBack, (s.block.slices.get c).wb = [w] → s.block.writeReady c w = 2 →
        s.block.chLockstep (s.block.routeSub w.route / 2) = false → (s.block.subs.get (s.block.routeSub w.route)).wq = [] →
      s.answers (.queueInsert c true false) (fun b =>
        (∃ e : WrEnt, (b.subs.get (s.block.routeSub w.route)).wq = [e] ∧ e.at_ = s.block.routeCoord w.route ∧ e.cls = w.cls
          ∧ e.code = BitVec.ofNat 1280 (if w.poison then poisonWord false else encodeData false w.data.toNat) ∧ e.issued = none
          ∧ e.arrival = (s.block.subs.get (s.block.routeSub w.route)).slot)
        ∧ (b.slices.get c).wb = []))
    ∧ (∀ (r : Req) (k : Nat) (w : WData), (s.block.slices.get c).wait = [(r, some k)] → r.op = .wr64 →
    r.area = .dram → r.direct = false → r.raw = false → r.wdata = [w] → w.poison = false → w.parBad = false →
    s.block.sliceState c = 0 → s.block.soundTags c r.dpa → s.block.behindRefused c r = false → s.block.findLine c r.dpa = none → s.block.allocOf r = .normal false → keySlice k = c.val →
    (s.block.line k).st = [] → (s.block.line k).going = false → (s.block.line k).wbLeft = 0 → r.src < 6 →
    s.answers (.allocationRetry c) (fun b =>
      (b.slices.get c).wait = [] ∧ (b.line k).tag = cacheTag r.dpa ∧ (b.line k).st.get (r.dpa / 64 % 4) = .d
      ∧ (b.line k).dat.get (r.dpa / 64 % 4) = w.data ∧ (∀ n : Nat, n ≠ r.dpa / 64 % 4 → (b.line k).st.get n = .i)
      ∧ (∀ j n : Nat, j ≠ k → (b.line j).st.get n = (s.block.line j).st.get n ∧ (b.line j).dat.get n = (s.block.line j).dat.get n)
      ∧ (∀ d i : Nat, (b.slices.get d).q.get i = (s.block.slices.get d).q.get i)))

/-- R182, R185, R198, R199: a boundary that the regulator makes itself, when none has come in time, sets LOCAL, starts a new
window with every served count zero, and sets each effective guarantee: GUAR while the committed total is within the limit, its
share of the limit above it, zero for an entry that is not valid.
R182, R194: at the end of a window that is not short, an entry that was owed and was served less than its effective guarantee
has missed: its miss count rises, its bit and REGU_STATUS.MISS are set, and LAST shows the miss and the units served.
Where the condition of an event does not hold nothing changes: the model's choice, log entry 3. -/
def Obligations.WindowsStartAndCountMisses : Prop :=
  (∀ s : State, (s.block.localDue = false → exec .localBoundary s = .next s)
    ∧ (s.block.localDue = true → s.block.regulating = true → s.block.rd REGU_COMMIT_STATUS_PENDING = 0 →
      s.answers .localBoundary (fun b =>
        b.rd REGU_STATUS_LOCAL = 1 ∧ b.regu.served = [] ∧ b.regu.dlWin = [] ∧ b.regu.slots = [] ∧ b.regu.lastB = s.block.now
        ∧ b.regu.w = s.block.windowNs ∧ b.work = s.block.work
        ∧ (∀ e : Nat, e < 256 → b.rd (REGU_GT_EFF_EFF e) =
            if s.block.wk (REGU_GT_CTL_VALID e) = 0 then 0
            else if reguTotal s.block.work ≤ b.reguLimit b.regu.w (s.block.wk REGU_ADMIT_PCT) then
              s.block.wk (REGU_GT_GUAR_GUAR e) % 2 ^ 24
            else s.block.wk (REGU_GT_GUAR_GUAR e) * b.reguLimit b.regu.w (s.block.wk REGU_ADMIT_PCT)
              / reguTotal s.block.work % 2 ^ 24))))
  ∧ ∀ (b : Block) (e : Nat), e < 256 → b.wk (REGU_GT_CTL_VALID e) ≠ 0 → b.regu.demand.get e = true →
    b.served e < b.rd (REGU_GT_EFF_EFF e) → b.rd (REGU_GT_EFF_EFF e) < 2 ^ 24 →
    (b.reguMisses false).rd (REGU_GT_CNT_MISS e) = min (b.rd (REGU_GT_CNT_MISS e) + 1) 0xFFFF
    ∧ (b.reguMisses false).bit (REGU_MISS_MISS (e / 32)) (e % 32) = true ∧ (b.reguMisses false).rd REGU_STATUS_MISS = 1
    ∧ (b.reguMisses false).rd (REGU_GT_LAST_LAST_MISS e) = 1 ∧ (b.reguMisses false).rd (REGU_GT_LAST_LAST_SERVED e) = b.served e

/-- R5, R201 to R204: REGU_COMMIT.GO takes the shadow tables as they stand and sets BUSY, or does nothing while BUSY; a check that
fails changes no working value and shows CODE and INDEX; one that passes makes the checked tables the working ones at once when
the regulator is off, and otherwise leaves them pending. -/
def Obligations.RegulatorCommits : Prop :=
  ∀ s : State,
    (∀ role : Role, s.grants role REGU_COMMIT_GO.off (withField (0 : Word) REGU_COMMIT_GO 1) → s.block.harbour = false →
      s.answers (.reguCommit role) (fun b =>
        b.rd REGU_COMMIT_STATUS_BUSY = 1 ∧ b.work = s.block.work
        ∧ (s.block.rd REGU_COMMIT_STATUS_BUSY = 0 → b.regu.running = !s.block.lgtRun
            ∧ ∀ f : Fld, isReguKey f.key = true → fldGet b.regu.snap f = s.block.rd f)
        ∧ (s.block.rd REGU_COMMIT_STATUS_BUSY = 1 → b.regu = s.block.regu)
        ∧ s.block.wrote b [REGU_COMMIT_GO.key, REGU_COMMIT_STATUS_BUSY.key]
        ∧ b = { s.block with regs := b.regs, mg := b.mg, regu := b.regu }))
    ∧ ∀ code idx : Nat, s.block.rd REGU_COMMIT_STATUS_BUSY ≠ 0 → s.block.regu.running = true →
        s.block.reguJudge s.block.regu.snap = (code, idx) → code < 16 → idx < 256 →
      s.answers .reguCommitDone (fun b =>
        b.rd REGU_COMMIT_STATUS_BUSY = 0 ∧ b.rd REGU_COMMIT_STATUS_CODE = code ∧ b.rd REGU_COMMIT_STATUS_INDEX = idx
        ∧ (code ≠ 0 ∨ s.block.regulating = true → b.work = s.block.work)
        ∧ (code = 0 → s.block.regulating = true →
            b.rd REGU_COMMIT_STATUS_PENDING = 1 ∧ b.regu.pend = s.block.regu.snap)
        ∧ (code = 0 → s.block.regulating = false →
            ∀ f : Fld, b.wk f = if isReguKey f.key then fldGet s.block.regu.snap f else s.block.wk f))

/-- R243 to R245, R247: a range operation is handed to every slice in NORMAL, sets BUSY and clears its counts; a set/way operation
whose ways include a scratch way is refused with CODE SCRATCH_WAY before any line is touched. A slice that starts an operation
acts on every present line it selects: CLEAN keeps the line and leaves no sector dirty; INVAL and CLEAN_INVAL drop it; DISCARD drops
it unless it is pinned. (The arrays of the slice hold no error.)
R243, R247: when no slice holds a run of the software operation that is not at its completion point, the operation ends: BUSY
falls, and CODE tells whether a pinned line was refused. -/
def Obligations.MaintenanceRunsToItsEnd : Prop :=
  ∀ (s : State),
    (∀ (role : Role) (w : Word) (e : Instr × Nat),
      e ∈ [(Instr.clean role w, mntClean), (.inval role w, mntInval), (.cleanInval role w, mntCleanInval), (.discard role w, mntDiscard)] →
      s.grants role CCH_MNT_CTL_GO.off (withField (withField w CCH_MNT_CTL_GO 1) CCH_MNT_CTL_OP e.2) →
      s.block.rd CCH_MNT_STATUS_BUSY = 0 →
      (bitOf w.toNat CCH_MNT_CTL_MODE.lo = false →
        s.block.rd64 CCH_MNT_BASE_LO_ADDR CCH_MNT_BASE_HI_ADDR / 256 < s.block.rd64 CCH_MNT_LIMIT_LO_ADDR CCH_MNT_LIMIT_HI_ADDR / 256 →
        s.block.rd64 CCH_MNT_LIMIT_LO_ADDR CCH_MNT_LIMIT_HI_ADDR ≤ 2 ^ 46 → (∀ c, c < 16 → s.block.sliceState c = 0) →
        s.answers e.1 (fun b => b.rd CCH_MNT_STATUS_BUSY = 1 ∧ b.rd CCH_MNT_WB_CNT_CNT = 0 ∧ b.rd CCH_MNT_REFUSED_CNT_CNT = 0
          ∧ (∀ c : Nat, c < 16 → ∃ m : MntRun, (b.slices.get c).mnt = (s.block.slices.get c).mnt ++ [m] ∧ m.op = e.2 ∧ m.ways = none
              ∧ m.base = s.block.rd64 CCH_MNT_BASE_LO_ADDR CCH_MNT_BASE_HI_ADDR / 256 * 256
              ∧ m.limit = s.block.rd64 CCH_MNT_LIMIT_LO_ADDR CCH_MNT_LIMIT_HI_ADDR / 256 * 256 ∧ m.owner = 1 ∧ m.started = false)
          ∧ s.block.wrote b [CCH_MNT_CTL_GO.key, CCH_MNT_CTL_SLICES.key, CCH_MNT_CTL_MODE.key, CCH_MNT_CTL_OP.key,
              CCH_MNT_STATUS_BUSY.key, CCH_MNT_STATUS_CODE.key, CCH_MNT_WB_CNT_CNT.key, CCH_MNT_REFUSED_CNT_CNT.key]
          ∧ b = { s.block with regs := b.regs, mg := b.mg, slices := b.slices }))
      ∧ (bitOf w.toNat CCH_MNT_CTL_MODE.lo = true → bitsOf w.toNat 23 8 ≠ 0 → s.block.rd CCH_MNT_SETS_COUNT ≠ 0 →
        s.block.rd CCH_MNT_SETS_FIRST + s.block.rd CCH_MNT_SETS_COUNT ≤ 512 →
        s.block.rd CCH_MNT_WAYS_MASK >>> (16 - s.block.scratchWays) ≠ 0 →
        s.answers e.1 (fun b => b.acked ∧ b.rd CCH_MNT_STATUS_CODE = 2 ∧ b.rd CCH_MNT_STATUS_BUSY = 0 ∧ b.slices = s.block.slices
          ∧ b.arr = s.block.arr)))
    ∧ (∀ (c : Fin 16) (m : MntRun), (s.block.slices.get c).mnt.find? (fun x => !x.started) = some m → s.block.sliceState c = 0 →
        s.block.mntClear c m = true → s.block.soundSlice c →
      s.answers (.maintenanceSliceStart c) (fun b =>
        (b.slices.get c).mnt = updFirst (fun x => !x.started) (fun x => { x with started := true }) (s.block.slices.get c).mnt
        ∧ ∀ k : Nat, keySlice k = c.val →
            (s.block.mntSelects m k = false → b.line k = s.block.line k)
            ∧ (s.block.mntSelects m k = true → m.op = mntClean → (b.line k).present = true
                ∧ ∀ n : Nat, n < 4 → (b.line k).st.get n = (if (s.block.line k).st.get n = .d then .v else (s.block.line k).st.get n))
            ∧ (s.block.mntSelects m k = true → m.op = mntInval ∨ m.op = mntCleanInval → (b.line k).present = false)
            ∧ (s.block.mntSelects m k = true → m.op = mntDiscard → (s.block.line k).pin = false → (b.line k).present = false)
            ∧ (s.block.mntSelects m k = true → m.op = mntDiscard → (s.block.line k).pin = true → b.line k = s.block.line k)))
    ∧ (∀ (c : Fin 16) (q : SliceSt), s.block.rd CCH_MNT_STATUS_BUSY ≠ 0 → s.block.slices = [(c.val, q)] →
    (∀ m ∈ q.mnt, s.block.mntDone c m = true) →
    s.answers .maintenanceComplete (fun b => b.rd CCH_MNT_STATUS_BUSY = 0
      ∧ b.rd CCH_MNT_STATUS_CODE = (if s.block.rd CCH_MNT_REFUSED_CNT_CNT = 0 then 0 else 1) ∧ (b.slices.get c).mnt = []
      ∧ (s.block.rd CCH_MNT_STATUS_INT_DONE ≠ 0 → b.bit GLB_INT_PEND_PEND 10 = true)
      ∧ b = { s.block with regs := b.regs, slices := b.slices }
      ∧ s.block.regsBut b [CCH_MNT_STATUS_BUSY.key, CCH_MNT_STATUS_CODE.key, GLB_INT_PEND_PEND.key]))

/-- R242, R248: a slice goes from NORMAL to ENTERING when BYPASS is written 1, with its lines as they are, and then a walk drops every
line of it (arrays without errors); to BYPASS when the write-backs of that walk are accepted; to EXITING when BYPASS is written 0; and
back to NORMAL, with no line present. A write of BYPASS 1 in harbour mode changes nothing. (That the walk is run by the first
BYPASS_ENTRY_COMPLETE is the model's choice, log entry 40.) -/
def Obligations.SlicesEnterAndLeaveBypass : Prop :=
  ∀ (s : State) (c : Fin 16),
    (∀ (role : Role) (w : Word), s.grants role (CCH_CTL_BYPASS c).off (withField w (CCH_CTL_BYPASS c) 1) →
      (s.block.harbour = false → s.block.sliceState c = 0 →
        s.answers (.bypassEnter role c w) (fun b => b.acked ∧ b.sliceState c = 1 ∧ b.rd (CCH_CTL_BYPASS c) = 1
          ∧ b.arr = s.block.arr
          ∧ (b.slices.get c).mnt = (s.block.slices.get c).mnt.map (fun m => { m with started := true }) ++ [bypassWalk]))
      ∧ (s.block.harbour = true → s.block.sliceState c ≠ 0 →
        s.answers (.bypassEnter role c w) (fun b => b.acked ∧ b.rd (CCH_CTL_BYPASS c) = s.block.rd (CCH_CTL_BYPASS c)
          ∧ b.arr = s.block.arr)))
    ∧ (∀ (role : Role) (w : Word), s.grants role (CCH_CTL_BYPASS c).off (withField w (CCH_CTL_BYPASS c) 0) →
        s.block.harbour = false → s.block.sliceState c = 2 →
      s.answers (.bypassExit role c w) (fun b => b.sliceState c = 3 ∧ b.rd (CCH_CTL_BYPASS c) = 0
        ∧ s.block.wrote b [(CCH_CTL_BYPASS c).key, (CCH_CTL_INT_EN c).key, (CCH_STATUS_STATE c).key]
        ∧ b = { s.block with regs := b.regs, mg := b.mg }))
    ∧ (s.block.sliceState c = 1 → (s.block.slices.get c).mnt.contains bypassWalk = true → s.block.soundSlice c →
      s.answers (.bypassEntryComplete c) (fun b =>
        (∀ k : Nat, keySlice k = c.val → keyWay k < 16 - s.block.scratchWays → (b.line k).present = false)
        ∧ (∀ k : Nat, keySlice k ≠ c.val → b.line k = s.block.line k)
        ∧ (b.sliceState c = 1 ∨ ∀ w ∈ (b.slices.get c).wb, w.mnt ≠ mntBypass)))
    ∧ (s.block.sliceState c = 1 → (s.block.slices.get c).mnt.contains bypassWalk = false →
        s.block.mntPassing c mntBypass = false → s.block.rd (CCH_CTL_BYPASS c) = 1 →
      s.answers (.bypassEntryComplete c) (fun b => b.sliceState c = 2 ∧ (b.slices.get c).mnt = [] ∧ b.arr = s.block.arr
        ∧ s.block.onlyRegs { b with slices := s.block.slices } [(CCH_STATUS_STATE c).key]))
    ∧ (s.block.sliceState c = 3 → s.block.rd (CCH_CTL_BYPASS c) = 0 →
      s.answers (.bypassExitComplete c) (fun b => b.sliceState c = 0
        ∧ (∀ k : Nat, keySlice k = c.val → b.line k = default) ∧ (∀ k : Nat, keySlice k ≠ c.val → b.line k = s.block.line k)
        ∧ (∀ i : Nat, (b.slices.get c).q.get i = (s.block.slices.get c).q.get i) ∧ b.arr.scratch = s.block.arr.scratch
        ∧ s.block.regsBut b [(CCH_STATUS_STATE c).key]))

/-- R259 to R261, R290 to R292: of the two commands of a slot neither is forbidden by a clause of the active set, the second in the
state that the first has left; each is one of the eight best candidates, the second another than the first and no column
command; and a column command of the eight that is legal at phase 0 makes the first command a column command. -/
def Obligations.SlotsKeepTheClauses : Prop :=
  ∀ (b : Block) (i : Nat) (elig : List EntRef),
    (∀ c : Cand, b.pick0 i elig = some c → c ∈ b.topCands i elig
      ∧ b.clausesAllow (clausesOf (b.activeSet i)) i (b.subs.get i).slot (b.subs.get i).hist
        { c.cmd with pos := 8 * (b.subs.get i).slot } = true)
    ∧ (∀ (top : List Cand) (p0 : Option Cand) (c : Cand), b.pick1 i top p0 = some c → isColumn c.cmd.cls = false
        ∧ (∃ d ∈ top, some d ≠ p0 ∧ c = d.after p0)
        ∧ b.clausesAllow (clausesOf (b.activeSet i)) i (b.subs.get i).slot (b.subs.get i).hist
            { c.cmd with pos := 8 * (b.subs.get i).slot + 4 } = true)
    ∧ (∀ c ∈ b.topCands i elig, isColumn c.cmd.cls = true →
        b.legal i (clausesOf (b.activeSet i)) (b.refCands i elig) (b.subs.get i).hist 0 c = true →
        ∃ d : Cand, b.pick0 i elig = some d ∧ isColumn d.cmd.cls = true)
    ∧ (b.topCands i elig).length ≤ 8

/-- R250, R260, R266, R284: on a running subchannel whose only work is an eligible read of the open row of its bank, the slot issues
the RD at phase 0 as the clauses allow it: the read leaves the queue and waits for its data, its row stays open, the checker (of
both subchannels in lockstep, R304) is given the command, and the throttle's idle slots begin. The slot number advances. R280: a
read that a replay has made issue again is counted and sets REPLAY. -/
def Obligations.EligibleReadIssues : Prop :=
  ∀ (s : State) (i : Fin 32) (mrr : BitVec 8) (row : RowRead) (e : RdEnt) (u : SubSt), u = s.block.subs.get i →
    (s.block.chLockstep (i / 2) = false ∨ i.val % 2 = 0) → u.rq = [e] → u.wq = [] → e.arrival + 2 ≤ u.slot →
    u.again = [] → s.block.rplState (i / 2) ≠ rpReleasing → u.rowOf e.at_ = some e.at_.row → s.block.rd (SCH_CTL_PAGE_POLICY i) = 0 → s.block.on (SCH_STATUS_MODE i) = false →
    s.block.issueLevel i = 2 → s.block.on (PHY_LOOP_STATUS_BUSY i) = false → u.ticking = false → u.aboOn = false →
    s.block.on (SCH_RFM_RFM_REQ i) = false → u.snt = none → s.block.ecc.repair.get i = none → u.selfRef = [] →
    u.preFirst = [] → u.preAll = false → u.idleLeft = 0 → (∀ x ∈ u.banks, x.2.due = false) →
    s.block.clausesAllow (clausesOf (s.block.activeSet i)) i u.slot u.hist
      { mkCmd cmRD e.at_.rank e.at_.bg e.at_.bank with pos := 8 * u.slot } = true →
    s.answers (.schedulerSlot i ⟨mrr, row, false⟩) (fun b =>
      (b.subs.get i).rq = [] ∧ (b.subs.get i).inflight = u.inflight ++ [{ e with replayed := false }] ∧ (b.subs.get i).wq = []
      ∧ (b.subs.get i).slot = u.slot + 1 ∧ (b.subs.get i).rowOf e.at_ = some e.at_.row
      ∧ (b.subs.get i).lastIssued = [{ mkCmd cmRD e.at_.rank e.at_.bg e.at_.bank with pos := 8 * u.slot }]
      ∧ (b.subs.get i).toCheck = u.toCheck ++ [{ mkCmd cmRD e.at_.rank e.at_.bg e.at_.bank with pos := 8 * u.slot }]
      ∧ (b.subs.get i).idleLeft = thrIdle (s.block.thrLevel i)
      ∧ (∀ j : Nat, j ≠ i.val → b.subs.get j = (if j ∈ s.block.pair i then { s.block.subs.get j with
            toCheck := (s.block.subs.get j).toCheck ++ [{ mkCmd cmRD e.at_.rank e.at_.bg e.at_.bank with pos := 8 * u.slot }] }
          else s.block.subs.get j))
      ∧ (e.replayed = true → b.rd (SCH_STATUS_REPLAY i) = 1
          ∧ b.rd (SCH_REPLAY_CNT_CNT i) = min (s.block.rd (SCH_REPLAY_CNT_CNT i) + 1) 0xFFFFFFFF)
      ∧ b = { s.block with regs := b.regs, ctr := b.ctr, fresh := b.fresh, subs := b.subs, regu := b.regu }
      ∧ s.block.regsButCounted b (if e.replayed then [(SCH_STATUS_REPLAY i).key, (SCH_REPLAY_CNT_CNT i).key] else []))

/-- R268, R269, R279: a refresh tick adds one to the debt of every rank of the subchannel, or four in same-bank mode; an idle timer
that stands at zero under the adaptive policy makes a precharge of its bank due; an issued write whose retention has ended is freed,
and none is while an alert is being classified.
R255, R256, R269: QUIESCE = 1 refuses every new entry of the subchannel, and QUIESCE = 0 ends that; a change of the refresh mode
converts every rank's debt: times 4 into same-bank mode, divided by 4 rounded up out of it. (The scheduler of subchannel B of a
lockstep pair takes no writes.)
Where the condition of an event does not hold nothing changes: the model's choice, log entry 3. -/
def Obligations.SchedulerTimersAndModes : Prop :=
  ∀ (s : State) (i : Fin 32),
    ((s.block.subs.get i).ticking = true →
      s.answers (.refreshTick i) (fun b =>
        (∀ r : Nat, (b.subs.get i).debt.get r = (s.block.subs.get i).debt.get r
            + (if r < s.block.subRanks i then (if s.block.sameBank i then 4 else 1) else 0))
        ∧ (b.subs.get i).tickAt = s.block.now ∧ (b.subs.get i).banks = (s.block.subs.get i).banks
        ∧ (∀ j : Nat, j ≠ i.val → b.subs.get j = s.block.subs.get j) ∧ b = { s.block with subs := b.subs }))
    ∧ ((s.block.subs.get i).ticking = false → exec (.refreshTick i) s = .next s)
    ∧ (∀ (rank bg : Fin 8) (bank : Fin 4), 2 ≤ s.block.rd (SCH_CTL_PAGE_POLICY i) →
        ((s.block.subs.get i).banks.get (bankKey rank bg bank)).row.isSome = true →
        ((s.block.subs.get i).banks.get (bankKey rank bg bank)).idle = some 0 →
      s.answers (.pageIdleTimeout i rank bg bank) (fun b =>
        (b.subs.get i).banks.get (bankKey rank bg bank)
          = { (s.block.subs.get i).banks.get (bankKey rank bg bank) with due := true }
        ∧ (∀ k : Nat, k ≠ bankKey rank bg bank → (b.subs.get i).banks.get k = (s.block.subs.get i).banks.get k)
        ∧ b = { s.block with subs := b.subs }))
    ∧ (∀ (e : WrEnt) (rest : List WrEnt) (n : Nat), (s.block.subs.get i).wq = e :: rest → e.issued = some n →
        n + max 16 (s.block.rd (SCH_REPLAY_SLOTS i)) < (s.block.subs.get i).slot →
      s.answers (.writeRetentionExpiry i) (fun b =>
        (b.subs.get i).wq = (if (s.block.subs.get i).classify ≠ 0 then e :: rest else rest) ∧ b = { s.block with subs := b.subs }))
    ∧ (∀ (role : Role) (w : Word), s.block.chLockstep (i / 2) = false ∨ i.val % 2 = 0 →
    (∀ q : Bool, s.grants role (SCH_CTL_QUIESCE i).off (withField w (SCH_CTL_QUIESCE i) q.toNat) →
      s.answers (if q then .quiesce role i w else .quiesceClear role i w) (fun b =>
        b.rd (SCH_CTL_QUIESCE i) = q.toNat ∧ (q = true → b.subDoor i false ≠ 2) ∧ b.subs = s.block.subs
        ∧ s.block.wrote b [(SCH_CTL_QUIESCE i).key, (SCH_CTL_AGE_CAP i).key, (SCH_CTL_INT_EN i).key, (SCH_CTL_PAGE_POLICY i).key]
        ∧ b = { s.block with regs := b.regs, mg := b.mg }))
    ∧ ∀ mode : Bool, s.grants role (SCH_REF_MODE i).off (withField w (SCH_REF_MODE i) mode.toNat) →
      s.answers (.refreshModeChange role i mode w) (fun b =>
        b.rd (SCH_REF_MODE i) = mode.toNat
        ∧ (∀ r : Nat, (b.subs.get i).debt.get r =
            if s.block.sameBank i = mode then (s.block.subs.get i).debt.get r
            else if mode then 4 * (s.block.subs.get i).debt.get r else -((-(s.block.subs.get i).debt.get r) / 4))
        ∧ (b.subs.get i).banks = (s.block.subs.get i).banks ∧ (∀ j : Nat, j ≠ i.val → b.subs.get j = s.block.subs.get j)
        ∧ s.block.wrote b [(SCH_REF_MODE i).key, (SCH_REF_FORCE_AT i).key, (SCH_REF_PULLIN i).key]
        ∧ b = { s.block with regs := b.regs, mg := b.mg, subs := b.subs }))

/-- R278 to R280: an alert on a module with per-row counting starts a back-off: every rank owes ABO_RFM refresh-management commands,
ABO is set and counted, and the alert is to be classified. When its ACT_NCK have passed, ACT is held. A class of write CRC or CA
parity, not for the third time in 1,024 slots, makes every retained write unissued, and CA parity makes every read whose data has not arrived
issue again (as many as the read queue has room for). -/
def Obligations.AlertsBackOffAndReplay : Prop :=
  ∀ (s : State) (i : Fin 32),
    (s.block.on (SCH_RFM_PRAC i) = true → (s.block.subs.get i).aboOn = false → s.block.chState (i / 2) ≠ pwS2 →
        s.block.chState (i / 2) ≠ pwOFF → s.block.chLockstep (i / 2) = false → s.block.subFenced i = false →
        s.block.on (CLS_STATUS_HALTED i) = false → s.block.sentence (s.block.keeperSentence .alert) ≠ [] →
      s.answers (.alert i) (fun b =>
        (b.subs.get i).aboOn = true ∧ (b.subs.get i).aboLate = false ∧ (b.subs.get i).classify = (s.block.subs.get i).classify + 1
        ∧ (∀ r : Nat, r < s.block.subRanks i → (b.subs.get i).abo.get r = s.block.rd (SCH_RFM_ABO_RFM i))
        ∧ b.rd (SCH_STATUS_ABO i) = 1 ∧ b.rd (SCH_ABO_CNT_CNT i) = min (s.block.rd (SCH_ABO_CNT_CNT i) + 1) 0xFFFFFFFF
        ∧ (b.subs.get i).rq = (s.block.subs.get i).rq ∧ (b.subs.get i).wq = (s.block.subs.get i).wq))
    ∧ ((s.block.subs.get i).aboOn = true →
      s.answers (.alertBackoffEnd i) (fun b => b.subs.get i = { s.block.subs.get i with aboLate := true }
        ∧ (∀ j : Nat, j ≠ i.val → b.subs.get j = s.block.subs.get j) ∧ b = { s.block with subs := b.subs }))
    ∧ ∀ k : AlertClass, (s.block.subs.get i).classify ≠ 0 → (s.block.subs.get i).again = [] →
        (s.block.subs.get i).rq.length + (s.block.subs.get i).inflight.length ≤ 64 →
        ((s.block.subs.get i).alerts.filter (fun a =>
          a.1 == alertNum k && decide ((s.block.subs.get i).slot - a.2 < 1024))).length < 2 →
      s.answers (.alertClassification i k) (fun b =>
        (b.subs.get i).classify = (s.block.subs.get i).classify - 1
        ∧ (b.subs.get i).wq = (if k = .backoffOnly then (s.block.subs.get i).wq
            else (s.block.subs.get i).wq.map (fun e => if e.issued.isSome then { e with issued := none, counts := false, replayed := true } else e))
        ∧ (b.subs.get i).rq = (if k = .caParity then
            (s.block.subs.get i).inflight.map (fun e => { e with counts := false, replayed := true }) ++ (s.block.subs.get i).rq
            else (s.block.subs.get i).rq)
        ∧ (b.subs.get i).inflight = (if k = .caParity then [] else (s.block.subs.get i).inflight)
        ∧ b = { s.block with subs := b.subs })

/-- R300, R301: CLS_CTL.GO checks the bin of the write, with the image store's copy as the command says it is read (log entry 103):
the first failing check shows its code and changes nothing else, and a switch that passes begins. When it ends, the subchannel's active set and its shadow are the image's set of the bin, the histories
are empty, and the header's parameters are in force. (A subchannel of its own, not halted, of a channel that changes no speed; no harbour mode, in which the code is 1.) -/
def Obligations.ClauseSwitches : Prop :=
  ∀ (s : State) (i : Fin 32), s.block.chLockstep (i / 2) = false →
    (∀ (role : Role) (w : Word) (up : Option (Fin 16 × Nat)) (bin code : Nat), bin = bitsOf w.toNat 19 16 →
        code = (if s.block.harbour then 1 else (s.block.storeUpset up).switchCode i bin) →
        s.grants role (CLS_CTL_GO i).off (withField (withField w (CLS_CTL_GO i) 1) (CLS_CTL_RESUME i) 0) →
      s.answers (.clauseSwitch role ⟨i, up⟩ w) (fun b =>
        (code ≠ 0 → b.rd (CLS_STATUS_SWITCH_CODE i) = code ∧ b.subs = s.block.subs)
        ∧ (code = 0 → b.rd (CLS_STATUS_SWITCHING i) = 1
            ∧ b.subs.get i = { s.block.subs.get i with switchTo := some bin })
        ∧ (∀ j : Nat, j ≠ i.val → b.subs.get j = s.block.subs.get j)
        ∧ s.block.wrote b [(CLS_CTL_GO i).key, (CLS_CTL_RESUME i).key, (CLS_CTL_BIN i).key, (CLS_CTL_INT_VIOL i).key,
            (CLS_STATUS_SWITCH_CODE i).key, (CLS_STATUS_SWITCHING i).key]
        ∧ b = { s.block.storeUpset up with regs := b.regs, mg := b.mg, subs := b.subs }))
    ∧ ∀ bin : Nat, (s.block.subs.get i).switchTo = some bin → bin < 16 → s.block.on (CLS_STATUS_HALTED i) = false →
        (s.block.switchSlot i bin).2 = false → s.block.phy.speed.contains (i / 2) = false →
      s.answers (.clauseSwitchDone i) (fun b =>
        b.rd (CLS_STATUS_ACTIVE_BIN i) = bin ∧ b.activeSet i = s.block.sec tyClauses bin
        ∧ (b.subs.get i).shadow = s.block.sec tyClauses bin ∧ (b.subs.get i).hist = [] ∧ (b.subs.get i).chkHist = []
        ∧ (b.subs.get i).switchTo = none ∧ b.rd (CLS_STATUS_SWITCHING i) = 0 ∧ b.rd (CLS_STATUS_SWITCH_CODE i) = 0
        ∧ b.rd (SCH_REF_PARAM_TREFI_NCK i) = leAt (s.block.sec tyClauses bin) 4 2
        ∧ b.rd (CLS_BIN_DATA_RATE i) = setRate (s.block.sec tyClauses bin)
        ∧ b.rd (CLS_LAT_RL i) = leAt (s.block.sec tyClauses bin) 0x0E 2
        ∧ (b.subs.get i).rq = (s.block.subs.get i).rq ∧ (b.subs.get i).wq = (s.block.subs.get i).wq
        ∧ (∀ j : Nat, j ≠ i.val → b.subs.get j = s.block.subs.get j) ∧ b = { s.block with regs := b.regs, subs := b.subs })

/-- R304 to R306: the checker takes an issued command into its history and, when the shadow allows it, changes nothing else; a
command that the shadow forbids halts the subchannel, sets VIOLATION, loads CLS_VIOL and counts; so does, with MISMATCH, a difference
between the active slot and the shadow. An equal clause only moves the comparison on. (On a subchannel of its own that is not halted
and runs no sentence, the event below severity 3, with no reload before.) -/
def Obligations.CheckerHaltsOnFaults : Prop :=
  ∀ (s : State) (i : Fin 32), s.block.chLockstep (i / 2) = false → s.block.on (CLS_STATUS_HALTED i) = false →
    (s.block.subs.get i).snt = none → s.block.rd (FLT_SEV_SEV 48) ≠ 3 → (s.block.subs.get i).lastReload = none →
    (∀ c : HistCmd, (s.block.subs.get i).toCheck = [c] →
      (clauseAgainst (clausesOf (s.block.subs.get i).shadow) i (s.block.subs.get i).chkHist (s.block.sibChecked i (c.pos / 8)) c
          = none →
        s.answers (.clauseCheck i) (fun b =>
          b.subs.get i = { s.block.subs.get i with
            toCheck := [], chkHist := (s.block.subs.get i).chkHist.filter (fun e => decide (c.pos ≤ e.pos + 8184)) ++ [c] }
          ∧ (∀ j : Nat, j ≠ i.val → b.subs.get j = s.block.subs.get j) ∧ b = { s.block with subs := b.subs }))
      ∧ (∀ k : Nat, k < 128 → clauseAgainst (clausesOf (s.block.subs.get i).shadow) i (s.block.subs.get i).chkHist
          (s.block.sibChecked i (c.pos / 8)) c = some k →
        s.answers (.clauseCheck i) (fun b =>
          b.rd (CLS_STATUS_HALTED i) = 1 ∧ b.rd (CLS_STATUS_VIOLATION i) = 1 ∧ (b.subs.get i).reload = true
          ∧ b.rd (CLS_VIOL_CLAUSE i) = k ∧ b.rd (CLS_VIOL_KIND i) = 0 ∧ b.rd (CLS_VIOL_CMD i) = c.cls % 32
          ∧ b.rd (CLS_VIOL_RANK i) = c.rank % 8
          ∧ b.rd (CLS_VIOL_CNT_CNT i) = min (s.block.rd (CLS_VIOL_CNT_CNT i) + 1) 0xFFFFFFFF
          ∧ (b.flt.recs.get 48).valid = true ∧ (b.subs.get i).rq = (s.block.subs.get i).rq)))
    ∧ (clauseWord (s.block.activeSet i) (s.block.subs.get i).cmp = clauseWord (s.block.subs.get i).shadow (s.block.subs.get i).cmp →
      s.answers (.clauseCompare i false) (fun b =>
        b.subs.get i = { s.block.subs.get i with cmp := ((s.block.subs.get i).cmp + 1) % 128 } ∧ b = { s.block with subs := b.subs }))
    ∧ (clauseWord (s.block.activeSet i) (s.block.subs.get i).cmp ≠ clauseWord (s.block.subs.get i).shadow (s.block.subs.get i).cmp →
      ∀ parity : Bool, s.answers (.clauseCompare i parity) (fun b =>
        b.rd (CLS_STATUS_HALTED i) = 1 ∧ b.rd (CLS_STATUS_MISMATCH i) = 1 ∧ b.rd (CLS_VIOL_KIND i) = 1
        ∧ (b.subs.get i).reload = true ∧ b.rd (CLS_VIOL_CLAUSE i) = (s.block.subs.get i).cmp % 128))

/-- R306, R307: a reload whose store copy is sound puts it into the active slot and the shadow, closes every bank, makes retained
writes and reads without data issue again and, unless a repeat holds the halt, ends the halt; with an unsound store copy the
subchannel stays halted with STORE_ERR and without a trusted set. RESUME begins another reload. (On a subchannel of its own; the event
below severity 3, memory not lost.) -/
def Obligations.HaltsEndByReload : Prop :=
  ∀ (s : State) (i : Fin 32) (up : Option (Fin 16 × Nat)), s.block.chLockstep (i / 2) = false →
    s.block.on (CLS_STATUS_HALTED i) = true →
    ((s.block.subs.get i).reload = true → (s.block.subs.get i).noSet = false →
        (s.block.sec tyClauses (s.block.rd (CLS_STATUS_ACTIVE_BIN i))).isEmpty = false →
        (s.block.storeUpset up).storeOk (s.block.rd (CLS_STATUS_ACTIVE_BIN i)) = true →
      s.answers (.haltReloadDone ⟨i, up⟩) (fun b =>
        b.activeSet i = (s.block.storeUpset up).sec tyClauses (s.block.rd (CLS_STATUS_ACTIVE_BIN i))
        ∧ (b.subs.get i).shadow = (s.block.storeUpset up).sec tyClauses (s.block.rd (CLS_STATUS_ACTIVE_BIN i)) ∧ (b.subs.get i).reload = false
        ∧ (∀ k : Nat, ((b.subs.get i).banks.get k).row = none)
        ∧ ((s.block.subs.get i).stay = false → b.rd (CLS_STATUS_HALTED i) = 0 ∧ (∀ e ∈ (b.subs.get i).wq, e.issued = none)
            ∧ (b.subs.get i).inflight = [])
        ∧ ((s.block.subs.get i).stay = true → b.rd (CLS_STATUS_HALTED i) = s.block.rd (CLS_STATUS_HALTED i))))
    ∧ ((s.block.subs.get i).reload = true → (s.block.storeUpset up).storeOk (s.block.rd (CLS_STATUS_ACTIVE_BIN i)) = false →
        s.block.rd (FLT_SEV_SEV 48) ≠ 3 →
      s.answers (.haltReloadDone ⟨i, up⟩) (fun b => b.rd (CLS_STATUS_STORE_ERR i) = 1
        ∧ b.rd (CLS_STATUS_HALTED i) = s.block.rd (CLS_STATUS_HALTED i) ∧ (b.subs.get i).noSet = true
        ∧ (b.subs.get i).reload = false ∧ (b.subs.get i).rq = (s.block.subs.get i).rq))
    ∧ ∀ (role : Role) (w : Word),
        s.grants role (CLS_CTL_RESUME i).off (withField (withField w (CLS_CTL_RESUME i) 1) (CLS_CTL_GO i) 0) →
        (s.block.subs.get i).reload = false →
      s.answers (.resume role i w) (fun b =>
        b.subs.get i = { s.block.subs.get i with reload := true, stay := false, dead := false }
        ∧ (∀ j : Nat, j ≠ i.val → b.subs.get j = s.block.subs.get j)
        ∧ s.block.wrote b [(CLS_CTL_GO i).key, (CLS_CTL_RESUME i).key, (CLS_CTL_BIN i).key, (CLS_CTL_INT_VIOL i).key]
        ∧ b = { s.block with regs := b.regs, mg := b.mg, subs := b.subs })

/-- R312, R313: a call of a sentence that the image holds, with room in the queue and a subchannel that can run it, joins the queue
and sets BUSY; a call of a missing one ends at once with outcome 4 and nothing queued. The first request that nothing holds starts
when none runs, an urgent one by the text of its start before another: its step in progress is the first with something to do, and SNT_RUN names the sentence. -/
def Obligations.SentencesQueueAndStart : Prop :=
  ∀ (s : State) (i : Fin 32),
    (∀ (role : Role) (w : Word), s.grants role (SNT_CALL_CTL_GO i).off (withField w (SNT_CALL_CTL_GO i) 1) →
        s.block.rd (SNT_CALL_STATUS_BUSY i) = 0 → (s.block.subs.get i).sntQ.length < 4 →
        s.block.subFenced i = false → s.block.chState (i / 2) ≠ pwOFF → s.block.on (CLS_STATUS_HALTED i) = false →
        s.block.chLockstep (i / 2) = false →
      ((s.block.sentence (w.toNat % 64)).isEmpty = false →
        s.answers (.sentenceCall role i w) (fun b => b.acked ∧ b.rd (SNT_CALL_STATUS_BUSY i) = 1
          ∧ (b.subs.get i).sntQ = (s.block.subs.get i).sntQ ++ [
              { num := w.toNat % 64, ranks := bitsOf w.toNat 23 16, args := s.block.rd (SNT_CALL_ARG_ARG i),
                urgent := bitOf w.toNat 8, why := .software }]
          ∧ (b.subs.get i).snt = (s.block.subs.get i).snt ∧ (∀ j : Nat, j ≠ i.val → b.subs.get j = s.block.subs.get j)))
      ∧ ((s.block.sentence (w.toNat % 64)).isEmpty = true →
        s.answers (.sentenceCall role i w) (fun b => b.acked ∧ b.rd (SNT_CALL_STATUS_BUSY i) = 0
          ∧ b.rd (SNT_CALL_STATUS_OUTCOME i) = 4 ∧ b.subs = s.block.subs)))
    ∧ ∀ (q : SntReq) (rest : List SntReq) (run : SntRun), (s.block.subs.get i).sntQ = q :: rest →
        s.block.sntIsUrgent q = true ∨ rest = [] → s.block.sntHeld i q = false → (s.block.subs.get i).snt = none →
        q.why.ofTraining = true ∨ s.block.subFenced i = false → s.block.on (CLS_STATUS_HALTED i) = false → q.num < 64 →
        s.block.seekStep i 257 { (default : SntRun) with
          req := { q with urgent := s.block.sntIsUrgent q }, text := s.block.sentence q.num } = some run →
      s.answers (.sentenceStart i) (fun b =>
        (b.subs.get i).snt = some run ∧ (b.subs.get i).sntQ = rest ∧ b.rd (SNT_RUN_BUSY i) = 1
        ∧ b.rd (SNT_RUN_SENTENCE i) = q.num ∧ b.rd (SNT_RUN_SOURCE i) = (if q.why = .software then 1 else 0)
        ∧ b.rd (SNT_RUN_STEP i) = run.step % 2 ^ 8 ∧ (∀ j : Nat, j ≠ i.val → b.subs.get j = s.block.subs.get j)
        ∧ b = { s.block with regs := b.regs, subs := b.subs }
        ∧ s.block.regsBut b [(SNT_RUN_BUSY i).key, (SNT_RUN_SENTENCE i).key, (SNT_RUN_SOURCE i).key, (SNT_RUN_URGENT i).key,
            (SNT_RUN_STEP i).key])

/-- R281, R314, R315, R317: a WAIT step ends when its wait has passed; a POLL step whose bytes all match ends at its last rank, and
one that does not match polls again while polls are left; a step that has waited SCH_SNT.WAIT slots becomes mandatory; a sentence
with a time limit ends with outcome TIMEOUT when it runs out. (The sentence was not requested by a fence exit, one that times out
also by no repair, and its abort event is below severity 3.) -/
def Obligations.SentenceStepsEnd : Prop :=
  ∀ (s : State) (i : Fin 32) (run : SntRun), (s.block.subs.get i).snt = some run → run.req.why ≠ .fenceExit →
    (run.waiting = true → stOp (sntStep run.text run.step) = 20 →
      s.answers (.sentenceWaitEnd i) (fun b => s.block.stepPassed b i run ∧ (b.subs.get i).rq = (s.block.subs.get i).rq))
    ∧ (∀ bytes : List (BitVec 8), stOp (sntStep run.text run.step) = 21 → run.readOut = true → bytes ≠ [] →
        bitOf (sntStep run.text run.step) 15 = false →
      ((∀ x ∈ bytes, x.toNat &&& bitsOf (sntStep run.text run.step) 47 40
            = run.data (sntStep run.text run.step) &&& bitsOf (sntStep run.text run.step) 47 40) → run.left.length ≤ 1 →
        s.answers (.sentencePoll i bytes) (fun b => s.block.stepPassed b i { run with polls := run.polls + 1, readOut := false }))
      ∧ ((∃ x ∈ bytes, x.toNat &&& bitsOf (sntStep run.text run.step) 47 40
            ≠ run.data (sntStep run.text run.step) &&& bitsOf (sntStep run.text run.step) 47 40) →
          run.polls + 1 < bitsOf (sntStep run.text run.step) 57 48 →
        s.answers (.sentencePoll i bytes) (fun b =>
          (b.subs.get i).snt = some { run with polls := run.polls + 1, readOut := false } ∧ b = { s.block with subs := b.subs })))
    ∧ (max 1 (s.block.rd (SCH_SNT_WAIT i)) ≤ run.waited →
      s.answers (.stepWaitExpiry i) (fun b =>
        b.subs.get i = { s.block.subs.get i with snt := some { run with must := true } }
        ∧ (∀ j : Nat, j ≠ i.val → b.subs.get j = s.block.subs.get j) ∧ b = { s.block with subs := b.subs }))
    ∧ (sntTimeout run.text ≠ 0 → run.req.why ≠ .repair → s.block.rd (FLT_SEV_SEV 49) ≠ 3 →
      s.answers (.sentenceTimeout i) (fun b => (b.subs.get i).snt = none ∧ b.rd (SNT_RUN_BUSY i) = 0
        ∧ b.rd (SNT_ABORT_CNT_CNT i) = min (s.block.rd (SNT_ABORT_CNT_CNT i) + 1) 0xFFFFFFFF
        ∧ (run.req.why = .software → b.rd (SNT_CALL_STATUS_OUTCOME i) = 2 ∧ b.rd (SNT_CALL_STATUS_BUSY i) = 0)))

/-- R340, R371: the PHY actions of a sentence's step. CK_STOP stops the channel's CK once both subchannels have stopped it, and
freezes their tracking; CK_START runs it; TRACK_FREEZE freezes the subchannel's tracking; TRACK_RESUME frees it where CK runs and no
fence or training holds. Each is acknowledged: the step ends. (On a subchannel of its own, the sentence not a fence exit's.) -/
def Obligations.PhyActionsOfSentences : Prop :=
  ∀ (s : State) (i : Fin 32) (run : SntRun), s.block.chLockstep (i / 2) = false → (s.block.subs.get i).snt = some run →
    run.req.why ≠ .fenceExit →
    (s.block.phyPending i 0 = true →
      s.answers (.ckStop i) (fun b => s.block.stepPassed b i run ∧ (b.subs.get i).ckStop = true
        ∧ ((s.block.subs.get (i / 2 * 2 + (1 - i % 2))).ckStop = true →
            b.rd (PHY_STATUS_CK_RUNNING i) = 0 ∧ b.rd (PHY_STATUS_TRACK_FROZEN i) = 1)))
    ∧ (s.block.phyPending i 1 = true →
      s.answers (.ckStart i) (fun b => s.block.stepPassed b i run ∧ (b.subs.get i).ckStop = false
        ∧ b.rd (PHY_STATUS_CK_RUNNING i) = 1))
    ∧ (s.block.phyPending i 2 = true →
      s.answers (.trackFreeze i) (fun b => s.block.stepPassed b i run ∧ b.rd (PHY_STATUS_TRACK_FROZEN i) = 1))
    ∧ (s.block.phyPending i 3 = true → s.block.on (PHY_STATUS_CK_RUNNING i) = true → s.block.subFenced i = false →
        s.block.phy.train.get i = none →
      s.answers (.trackResume i) (fun b => s.block.stepPassed b i run ∧ b.rd (PHY_STATUS_TRACK_FROZEN i) = 0
        ∧ b.rd (CAL_EDGE_LEFT i 0) = 0xF0 ∧ b.rd (CAL_EDGE_RIGHT i 0) = 16))

/-- R326, R331, R333, R334, R337: a GO on a quiesced or fenced subchannel whose training neither waits nor runs queues one with the
selected steps and step 10; otherwise it is refused with NOT_QUIESCED, or sets OVERRUN. The oldest waiting training starts when it
fits under MAX_PAR and its channel is ready: it runs its first step, with tracking frozen and TRAINED cleared. A step that passes
hands over to the next selected one with the values found so far; the last one puts the values into force and sets TRAINED. A step
that fails, a step past its limit, and ABORT end it as FAILED with the code. (On a subchannel of its own; the ends are those of a
training that software requested while READY, its event below severity 3, and the values found so far are PHY fields, which every
step keeps. Steps 4 and 10 end once their sentence has; the reads of a training row that came back CORRECTED or UNCORRECTABLE
count.)
Where the condition of an event does not hold nothing changes: the model's choice, log entry 3. -/
def Obligations.TrainingsRunTheirSteps : Prop :=
  ∀ (s : State) (i : Fin 32), s.block.chLockstep (i / 2) = false →
    (∀ (role : Role) (w : Word),
        s.grants role (PHY_TRAIN_CTL_GO i).off (withField (withField w (PHY_TRAIN_CTL_GO i) 1) (PHY_TRAIN_CTL_ABORT i) 0) →
      (s.block.trainBusy i = false → s.block.trainReady i = true →
        s.answers (.trainingRequest role i w) (fun b => b.acked ∧ b.rd (PHY_TRAIN_STATUS_STATE i) = 1
          ∧ b.rd (PHY_TRAIN_STATUS_CODE i) = 0
          ∧ b.phy = { s.block.phy with trainQ := s.block.phy.trainQ ++ [⟨[i.val], (bitsOf w.toNat 10 1 * 2) ||| 0x400, .software⟩] }
          ∧ b = { s.block with regs := b.regs, mg := b.mg, phy := b.phy, pwr := b.pwr }))
      ∧ (s.block.trainBusy i = false → s.block.trainReady i = false →
        s.answers (.trainingRequest role i w) (fun b => b.rd (PHY_TRAIN_STATUS_CODE i) = 7
          ∧ s.block.wrote b [(PHY_TRAIN_CTL_GO i).key, (PHY_TRAIN_CTL_ABORT i).key, (PHY_TRAIN_CTL_STEPS i).key,
              (PHY_TRAIN_STATUS_CODE i).key] ∧ b = { s.block with regs := b.regs, mg := b.mg }))
      ∧ (s.block.trainBusy i = true →
        s.answers (.trainingRequest role i w) (fun b => b.rd (PHY_TRAIN_STATUS_OVERRUN i) = 1
          ∧ s.block.wrote b [(PHY_TRAIN_CTL_GO i).key, (PHY_TRAIN_CTL_ABORT i).key, (PHY_TRAIN_CTL_STEPS i).key,
              (PHY_TRAIN_STATUS_OVERRUN i).key] ∧ b = { s.block with regs := b.regs, mg := b.mg })))
    ∧ (∀ (q : TrainReq) (rest : List TrainReq), s.block.phy.trainQ = q :: rest → q.subs = [i.val] →
      ((s.block.phy.train.filter (fun e => e.2.isSome)).length + 1 ≤ s.block.maxPar → q.why = .software →
          s.block.chState (i / 2) = pwA0 → s.block.pwr.target.get (i / 2) = none → (s.block.subs.get i).snt = none →
          (s.block.subs.get i).switchTo = none →
        s.answers .trainingStart (fun b => b.rd (PHY_TRAIN_STATUS_STATE i) = 2 ∧ b.rd (PHY_TRAIN_STATUS_CODE i) = 0
          ∧ b.rd (PHY_TRAIN_STATUS_STEP i) = (nextStep q.steps 0).getD 10 ∧ b.rd (PHY_STATUS_TRAINED i) = 0
          ∧ b.rd (PHY_STATUS_TRACK_FROZEN i) = 1 ∧ b.rd (PHY_STATUS_CK_RUNNING i) = 1 ∧ b.phy.trainQ = rest
          ∧ (∃ run : TrainRun, b.phy.train.get i = some run ∧ run.steps = q.steps ∧ run.why = q.why ∧ run.found = []
              ∧ run.start = s.block.now)
          ∧ (∀ j : Nat, j ≠ i.val → b.phy.train.get j = s.block.phy.train.get j ∧ b.subs.get j = s.block.subs.get j)
          ∧ (b.subs.get i).rq = (s.block.subs.get i).rq ∧ (b.subs.get i).wq = (s.block.subs.get i).wq
          ∧ b = { s.block with regs := b.regs, phy := b.phy, subs := b.subs }))
      ∧ (s.block.maxPar < (s.block.phy.train.filter (fun e => e.2.isSome)).length + 1 → exec .trainingStart s = .next s))
    ∧ ∀ run : TrainRun, s.block.phy.train.get i = some run → run.why = .software → s.block.rd HBR_STATUS_STATE = 2 →
        s.block.rd (FLT_SEV_SEV 52) ≠ 3 → (∀ e ∈ run.found, 0x100000 ≤ e.1.off ∧ e.1.off < 0x200000) →
      (∀ (m : TrainMeas) (a : AfterTrain) (r : StepRes), r = s.block.judgeStep i (s.block.rd (PHY_TRAIN_STATUS_STEP i)) m →
        (s.block.stepHeard i (s.block.rd (PHY_TRAIN_STATUS_STEP i)) = false →
          s.answers (.trainingStepDone i m a) (fun b => b = { s.block with regs := b.regs }
            ∧ s.block.regsBut b [(ECC_CE_CNT_CNT i).key, (ECC_UE_CNT_CNT i).key]))
        ∧ (s.block.stepHeard i (s.block.rd (PHY_TRAIN_STATUS_STEP i)) = true →
        (∀ j : Nat, r.code = 0 → nextStep run.steps (s.block.rd (PHY_TRAIN_STATUS_STEP i)) = some j → j ≠ 4 → j ≠ 10 →
          s.answers (.trainingStepDone i m a) (fun b => b.rd (PHY_TRAIN_STATUS_STEP i) = j
            ∧ (∃ next : TrainRun, b.phy.train.get i = some next ∧ next.found = run.found ++ r.found
                ∧ (∀ e ∈ next.found, 0x100000 ≤ e.1.off ∧ e.1.off < 0x200000) ∧ next.vref = run.vref ++ r.vref ∧ next.steps = run.steps ∧ next.start = run.start)
            ∧ s.block.regsBut b [(PHY_TRAIN_STATUS_STEP i).key, (ECC_CE_CNT_CNT i).key, (ECC_UE_CNT_CNT i).key]
            ∧ b.rd (ECC_CE_CNT_CNT i) = min (s.block.rd (ECC_CE_CNT_CNT i) + m.ces) 0xFFFFFFFF
            ∧ b.rd (ECC_UE_CNT_CNT i) = min (s.block.rd (ECC_UE_CNT_CNT i) + m.ues) 0xFFFFFFFF
            ∧ b = { s.block with regs := b.regs, phy := b.phy }))
        ∧ (r.code = 0 → nextStep run.steps (s.block.rd (PHY_TRAIN_STATUS_STEP i)) = none →
          s.answers (.trainingStepDone i m a) (fun b => b.rd (PHY_TRAIN_STATUS_STATE i) = 3 ∧ b.rd (PHY_TRAIN_STATUS_CODE i) = 0
            ∧ b.rd (PHY_STATUS_TRAINED i) = 1 ∧ b.rd (CAL_STATUS_SUSPECT i) = 0 ∧ b.phy.train.get i = none
            ∧ ∀ l : Fin 40, ∀ f ∈ [PHY_DQ_TX_DESKEW i l, PHY_DQ_RX_DESKEW i l, PHY_DQ_RX_VREF i l],
                b.rd f = (forEach (run.found ++ r.found) s.block (fun b e => b.wr e.1 e.2)).rd f))
        ∧ (r.code ≠ 0 → r.code ≠ 3 → r.code < 16 → r.failed.headD 0xFF < 256 →
          s.answers (.trainingStepDone i m a) (fun b => b.rd (PHY_TRAIN_STATUS_STATE i) = 4 ∧ b.rd (PHY_TRAIN_STATUS_CODE i) = r.code
            ∧ b.rd (PHY_TRAIN_STATUS_LANE i) = r.failed.headD 0xFF ∧ b.rd (PHY_STATUS_TRAINED i) = 0
            ∧ b.phy.train.get i = none ∧ (b.flt.recs.get 52).valid = true))))
      ∧ s.answers (.trainingStepTimeout i) (fun b => b.rd (PHY_TRAIN_STATUS_STATE i) = 4 ∧ b.rd (PHY_TRAIN_STATUS_CODE i) = 4
          ∧ b.rd (PHY_TRAIN_STATUS_LANE i) = 0xFF ∧ b.rd (PHY_STATUS_TRAINED i) = 0 ∧ b.phy.train.get i = none
          ∧ (b.flt.recs.get 52).valid = true)
      ∧ ∀ (role : Role) (w : Word),
          s.grants role (PHY_TRAIN_CTL_ABORT i).off (withField (withField w (PHY_TRAIN_CTL_ABORT i) 1) (PHY_TRAIN_CTL_GO i) 0) →
        s.answers (.trainingAbort role i w) (fun b => b.acked ∧ b.rd (PHY_TRAIN_STATUS_STATE i) = 4
          ∧ b.rd (PHY_TRAIN_STATUS_CODE i) = 6 ∧ b.rd (PHY_STATUS_TRAINED i) = 0 ∧ b.phy.train.get i = none
          ∧ (b.flt.recs.get 52).valid = true)

/-- R341 to R343, R492: a loopback whose condition holds (mode 1 on a quiesced subchannel that does not train) runs, and one whose
mode is 0 is refused; STOP, and the end of its bursts, report its bit errors (of a mode 3 loopback once the
sentence that places the data buffers has ended; another takes them out). A rate change takes effect only with every rank in
self-refresh and CK stopped: both subchannels take the rate, lose lock and every calibration set; a relock outside start and speed
changes sets LOCKED. In step 5 of start a channel that locks is waited for no longer, and one that does not fails.
Where the condition of an event does not hold nothing changes: the model's choice, log entry 3. -/
def Obligations.LoopbacksAndChannelRates : Prop :=
  ∀ s : State,
    (∀ (role : Role) (i : Fin 32) (w : Word),
        s.grants role (PHY_LOOP_CTL_GO i).off (withField (withField w (PHY_LOOP_CTL_GO i) 1) (PHY_LOOP_CTL_STOP i) 0) →
        s.block.rd (PHY_LOOP_STATUS_BUSY i) = 0 →
      (bitsOf w.toNat 1 0 = 1 → s.block.quiesced i = true → s.block.phy.train.get i = none →
        s.answers (.loopbackStart role i w) (fun b => b.rd (PHY_LOOP_STATUS_BUSY i) = 1 ∧ b.rd (PHY_LOOP_STATUS_CODE i) = 0
          ∧ b.rd (PHY_LOOP_LANES_LO_DQ i) = 0 ∧ b.rd (PHY_LOOP_LANES_HI_DQ i) = 0
          ∧ s.block.wrote b [(PHY_LOOP_CTL_GO i).key, (PHY_LOOP_CTL_STOP i).key, (PHY_LOOP_CTL_LENGTH i).key,
              (PHY_LOOP_CTL_PATTERN i).key, (PHY_LOOP_CTL_MODE i).key, (PHY_LOOP_STATUS_BUSY i).key, (PHY_LOOP_STATUS_CODE i).key,
              (PHY_LOOP_LANES_LO_DQ i).key, (PHY_LOOP_LANES_HI_DQ i).key]
          ∧ b = { s.block with regs := b.regs, mg := b.mg }))
      ∧ (bitsOf w.toNat 1 0 = 0 →
        s.answers (.loopbackStart role i w) (fun b => b.acked ∧ b.rd (PHY_LOOP_STATUS_BUSY i) = 0
          ∧ b.rd (PHY_LOOP_STATUS_CODE i) = 1 ∧ b = { s.block with regs := b.regs, mg := b.mg })))
    ∧ (∀ (i : Fin 32) (errs : BitVec 32) (lanes : BitVec 40), s.block.rd (PHY_LOOP_STATUS_BUSY i) = 1 →
      s.block.sntPending (s.block.schedOf i) .loopIn = false → ∀ e : Instr,
        (∃ (role : Role) (w : Word), e = .loopbackStop role i w errs lanes ∧
          s.grants role (PHY_LOOP_CTL_STOP i).off (withField (withField w (PHY_LOOP_CTL_STOP i) 1) (PHY_LOOP_CTL_GO i) 0))
        ∨ (e = .loopbackDone i errs lanes ∧ s.block.rd (PHY_LOOP_CTL_LENGTH i) ≠ 0) →
      s.answers e (fun b => b.rd (PHY_LOOP_STATUS_BUSY i) = 0 ∧ b.rd (PHY_LOOP_STATUS_CODE i) = (if errs = 0 then 0 else 3)
        ∧ b.rd (PHY_LOOP_ERR_CNT_CNT i) = min (s.block.rd (PHY_LOOP_ERR_CNT_CNT i) + errs.toNat) 0xFFFFFFFF
        ∧ b.rd (PHY_LOOP_LANES_LO_DQ i) = lanes.toNat % 2 ^ 32 ∧ b.rd (PHY_LOOP_LANES_HI_DQ i) = lanes.toNat / 2 ^ 32
        ∧ b = { s.block with regs := b.regs, mg := b.mg, subs := b.subs, pwr := b.pwr }
        ∧ (b.rd (PHY_LOOP_CTL_MODE i) ≠ 3 → b.subs = s.block.subs ∧ b.pwr = s.block.pwr)))
    ∧ ∀ n : Fin 16,
      (∀ rate : BitVec 16,
        ((∀ i ∈ [2 * n.val, 2 * n.val + 1], s.block.subRanks i ≤ (s.block.subs.get i).selfRef.length
            ∧ s.block.rd (PHY_STATUS_CK_RUNNING i) = 0) →
          s.answers (.rateChange n rate) (fun b => (∀ i ∈ [2 * n.val, 2 * n.val + 1],
              b.rd (PHY_STATUS_RATE i) = rate.toNat ∧ b.rd (PHY_RATE_RATE i) = rate.toNat ∧ b.rd (PHY_STATUS_LOCKED i) = 0
              ∧ b.rd (CAL_TEMP_MEASURED i) = 0 ∧ ∀ p : Fin 5, b.cal.sets.get (8 * i + p) = none)
            ∧ b = { s.block with regs := b.regs, cal := b.cal }))
        ∧ (s.block.rd (PHY_STATUS_CK_RUNNING (2 * n.val)) ≠ 0 ∨ s.block.rd (PHY_STATUS_CK_RUNNING (2 * n.val + 1)) ≠ 0 →
          exec (.rateChange n rate) s = .next s))
      ∧ (bitOf s.block.start.pllWait n = false → s.block.rd HBR_STATUS_STATE ≠ 2 ∨ s.block.on (PHY_STATUS_LOCKED (2 * n.val)) = true →
        s.answers (.pllRelock n) (fun b => b.rd (PHY_STATUS_LOCKED (2 * n.val)) = 1 ∧ b.rd (PHY_STATUS_LOCKED (2 * n.val + 1)) = 1
          ∧ s.block.onlyRegs b [(PHY_STATUS_LOCKED (2 * n.val)).key, (PHY_STATUS_LOCKED (2 * n.val + 1)).key]))
      ∧ (bitOf s.block.start.pllWait n = true → s.block.start.pllWait ≠ 2 ^ n.val → s.block.rd HBR_STATUS_STATE = 1 →
          s.block.rd HBR_STATUS_STEP = 5 → s.block.phy.train.get (2 * n.val) = none → s.block.phy.train.get (2 * n.val + 1) = none →
        s.answers (.pllRelock n) (fun b => b.rd (PHY_STATUS_LOCKED (2 * n.val)) = 1 ∧ b.rd (PHY_STATUS_LOCKED (2 * n.val + 1)) = 1
          ∧ b = { s.block with regs := b.regs, start := { s.block.start with pllWait := s.block.start.pllWait - 2 ^ n.val } }
          ∧ s.block.regsBut b [(PHY_STATUS_LOCKED (2 * n.val)).key, (PHY_STATUS_LOCKED (2 * n.val + 1)).key])
        ∧ s.answers (.pllLockTimeout n) (fun b => b.bit HBR_CH_STATUS_FAILED n = true ∧ b.subFenced (2 * n.val) = true
          ∧ b.subFenced (2 * n.val + 1) = true ∧ bitOf b.start.pllWait n = false
          ∧ (s.block.start.cause.get n = 0 → b.start.cause.get n = 4) ∧ b.rd HBR_STATUS_STEP = 5))

/-- R348, R352, R355 to R364, R368: while tracking runs, every control moves one code toward its target at an interval; a finished
receive window moves each tracker one step, inward when its disagreements reach THRESH; a window that grows too old is abandoned; an
oscillator result moves the transmit deskew of a device's lanes one code toward the delay its counts give, within their limit; a
write probe moves the transmit trackers of every lane, and one that fails everywhere sets CA_MARGIN and SUSPECT. The Keeper's due
sentences are requested. A store that ends puts its record into the NVM; RESET empties every set and stores that in one copy of each
point, then in the other; CLEAR_SUSPECT
clears SUSPECT (no store waits for that). Frozen tracking moves nothing. (Events below severity 3.)
Where the condition of an event does not hold nothing changes: the model's choice, log entry 3. -/
def Obligations.CalibrationTracks : Prop :=
  ∀ (s : State) (i : Fin 32),
    (s.block.on (PHY_STATUS_TRACK_FROZEN i) = true → exec (.trackingInterval i) s = .next s
      ∧ (∀ lane : Fin 40, exec (.windowAgeExpiry i lane) s = .next s) ∧ ∀ counts, exec (.oscillatorResult i counts) s = .next s)
    ∧ (s.block.on (PHY_STATUS_TRACK_FROZEN i) = false →
      s.answers (.trackingInterval i) (fun b =>
        (∀ c ∈ ctlsOf i, b.inForce i c = (if s.block.inForce i c < s.block.target i c then s.block.inForce i c + 1
          else if s.block.target i c < s.block.inForce i c then s.block.inForce i c - 1 else s.block.inForce i c))
        ∧ (∀ g : Fld, (∀ c ∈ ctlsOf i, ∀ f ∈ (ctlOf i c).flds, f.key ≠ g.key) → b.rd g = s.block.rd g)
        ∧ b = { s.block with regs := b.regs })
      ∧ (∀ lane : Fin 40,
        s.answers (.windowAgeExpiry i lane) (fun b => b.lane i lane = { s.block.lane i lane with prev := none, aged := true }
          ∧ b.rd (CAL_STATUS_STARVED i) = 1 ∧ b = { s.block with regs := b.regs, cal := b.cal }
          ∧ s.block.regsBut b [(CAL_STATUS_STARVED i).key, GLB_INT_PEND_PEND.key])
        ∧ ∀ (d0 d1 d2 d3 : Nat) (t1 t2 t3 t4 : Fin 3) (th : Nat), th = s.block.rd (CAL_WIN_THRESH i) →
            s.block.on (CAL_CTL_RX_TRACK i) = true → (s.block.lane i lane).prev = none →
          s.answers (.receiveWindowDone i lane d0 d1 d2 d3 t1 t2 t3 t4) (fun b =>
            b.edge (CAL_EDGE_LEFT i lane) = clampInt (-64) 63 (s.block.edge (CAL_EDGE_LEFT i lane) + (if th ≤ d0 then 1 else -1))
            ∧ b.edge (CAL_EDGE_RIGHT i lane) = clampInt (-64) 63 (s.block.edge (CAL_EDGE_RIGHT i lane) + (if th ≤ d1 then -1 else 1))
            ∧ b.edge (CAL_EDGE_UP i lane) = clampInt (-32) 31 (s.block.edge (CAL_EDGE_UP i lane) + (if th ≤ d2 then -1 else 1))
            ∧ b.edge (CAL_EDGE_DOWN i lane) = clampInt (-32) 31 (s.block.edge (CAL_EDGE_DOWN i lane) + (if th ≤ d3 then 1 else -1))
            ∧ (b.lane i lane).prev = some ⟨b.edge (CAL_EDGE_LEFT i lane) + b.edge (CAL_EDGE_RIGHT i lane),
                b.edge (CAL_EDGE_UP i lane) + b.edge (CAL_EDGE_DOWN i lane), [t1, t2, t3, t4].map (fun x => (x.val : Int) - 1)⟩
            ∧ (b.lane i lane).aged = false ∧ b = { s.block with regs := b.regs, cal := b.cal }
            ∧ s.block.regsBut b [(CAL_EDGE_LEFT i lane).key, (CAL_EDGE_RIGHT i lane).key, (CAL_EDGE_UP i lane).key,
                (CAL_EDGE_DOWN i lane).key, (CAL_EDGE_CONV i lane).key]))
      ∧ (∀ (d : Fin 10) (n : Nat) (step : Int),
          step = (let diff := Config.oscDelay n (s.block.cal.oscBase.get (128 * i + d)) (s.block.rd (PHY_STATUS_RATE i))
              - 65536 * s.block.cal.oscAdj.get (16 * i + d)
            if 65536 ≤ diff.natAbs then signOf diff else 0) →
          (∀ q : Fin 4, s.block.txPlausible i (4 * d + q) step = true) →
        s.answers (.oscillatorResult i [(d.val, n)]) (fun b =>
          (∀ q : Fin 4, b.resid i (7 * (4 * d + q)) = s.block.resid i (7 * (4 * d + q)) + step)
          ∧ b.cal.oscAdj.get (16 * i + d) = s.block.cal.oscAdj.get (16 * i + d) + step
          ∧ b = { s.block with regs := b.regs, cal := b.cal } ∧ s.block.regsBut b [(CAL_STEP_CNT_CNT i).key]))
      ∧ ∀ left right mid : BitVec 40, left ≠ BitVec.allOnes 40 → s.block.rd (FLT_SEV_SEV 53) ≠ 3 →
        s.answers (.writeProbeResult i left right mid) (fun b => ∀ l : Fin 40,
          (b.lane i l).txL = (s.block.lane i l).txL + (if left.getLsbD l then 1 else -1)
          ∧ (b.lane i l).txR = (s.block.lane i l).txR + (if right.getLsbD l then -1 else 1)))
    ∧ (s.block.rd (FLT_SEV_SEV 53) ≠ 3 →
      s.answers (.writeProbeResult i (BitVec.allOnes 40) (BitVec.allOnes 40) (BitVec.allOnes 40)) (fun b =>
        b.rd (CAL_STATUS_CA_MARGIN i) = 1 ∧ b.rd (CAL_STATUS_SUSPECT i) = 1 ∧ b.cal = s.block.cal))
    ∧ (∀ e ∈ [(Instr.oscillatorRunDue i, Purpose.osc), (.writeProbeDue i, .probe)],
      (s.block.on (CAL_CTL_WR_TRACK i) = false → exec e.1 s = .next s)
      ∧ (s.block.on (CAL_CTL_WR_TRACK i) = true → s.block.sntPending i e.2 = false → s.block.chState (i / 2) = pwA0 →
          (s.block.sentence (s.block.keeperSentence e.2)).isEmpty = false → s.block.subFenced i = false →
          s.block.on (CLS_STATUS_HALTED i) = false → s.block.chLockstep (i / 2) = false ∨ i.val % 2 = 0 →
        s.answers e.1 (fun b => (b.subs.get i).sntQ = (s.block.subs.get i).sntQ ++
            [⟨s.block.keeperSentence e.2, s.block.allRanks i, 0, false, e.2⟩]
          ∧ (b.subs.get i).snt = (s.block.subs.get i).snt ∧ (∀ j : Nat, j ≠ i.val → b.subs.get j = s.block.subs.get j)
          ∧ b = { s.block with regs := b.regs, pwr := b.pwr, subs := b.subs })))
    ∧ (∀ (p : Fin 5) (x : NvStore) (rest : List NvStore), s.block.stores = x :: rest → x.key = 8 * i + p →
        (s.block.cal.resetWait.get i = false → s.block.cal.again.get (8 * i + p) = false →
          s.block.cal.other.get (8 * i + p) = false →
        s.answers (.calStoreDone i p) (fun b => b.nvmBytes x.off x.bytes.length = x.bytes ∧ b.stores = rest
        ∧ (∀ a : Nat, a < x.off ∨ x.off + x.bytes.length ≤ a → b.nvmByte a = s.block.nvmByte a)
        ∧ (rest = [] → b.rd NVM_STATUS_BUSY = 0)
        ∧ b = { s.block with regs := b.regs, stores := b.stores, nvm := b.nvm } ∧ s.block.regsBut b [NVM_STATUS_BUSY.key]))
        ∧ (s.block.cal.other.get (8 * i + p) = true → s.block.on NVM_STATUS_SELFTEST_OK = true →
        s.answers (.calStoreDone i p) (fun b => b.nvmBytes x.off x.bytes.length = x.bytes ∧ b.rd NVM_STATUS_BUSY = 1
          ∧ (∃ y : NvStore, b.stores = rest ++ [y] ∧ y.key = 8 * i + p ∧ ∃ seq : Nat, y.bytes = calBytes i p seq none)
          ∧ b.cal = { s.block.cal with other := b.cal.other } ∧ b.cal.other.get (8 * i + p) = false)))
    ∧ ∀ (role : Role) (w : Word), (∀ p : Fin 5, s.block.cal.again.get (8 * i + p) = false) →
      (s.grants role (CAL_CTL_RESET i).off (withField w (CAL_CTL_RESET i) 1) →
        (s.block.calStoring i = false → s.block.on NVM_STATUS_SELFTEST_OK = true →
          s.answers (.calReset role i w) (fun b => (∀ p : Fin 5, b.cal.sets.get (8 * i + p) = none)
            ∧ b.stores.length = s.block.stores.length + 5 ∧ b.rd NVM_STATUS_BUSY = 1 ∧ b.rd (CAL_TEMP_MEASURED i) = 0
            ∧ b.nvm = s.block.nvm ∧ b = { s.block with regs := b.regs, mg := b.mg, cal := b.cal, stores := b.stores }))
        ∧ (s.block.calStoring i = true →
          s.answers (.calReset role i w) (fun b => b.cal = { s.block.cal with resetWait := b.cal.resetWait }
            ∧ b.cal.resetWait.get i = true ∧ b.stores = s.block.stores)))
      ∧ (s.grants role (CAL_CTL_RESET i).off (withField (withField w (CAL_CTL_CLEAR_SUSPECT i) 1) (CAL_CTL_RESET i) 0) →
        s.answers (.clearSuspect role i w) (fun b => b.rd (CAL_STATUS_SUSPECT i) = 0
          ∧ s.block.wrote b [(CAL_CTL_RESET i).key, (CAL_CTL_CLEAR_SUSPECT i).key, (CAL_CTL_INT_EN i).key, (CAL_CTL_LEARN i).key,
              (CAL_CTL_WR_TRACK i).key, (CAL_CTL_RX_TRACK i).key, (CAL_STATUS_SUSPECT i).key]
          ∧ b = { s.block with regs := b.regs, mg := b.mg }))

/-- R374, R379 to R381: the codeword of the oldest read in flight of an independent subchannel returns to the fill that asked for it.
CLEAN: the sector takes the data, and nothing is counted. CORRECTED: it takes the corrected data, one correctable error is counted,
and the sector is dirty under CE_WB for a host's read. UNCORRECTABLE, with no mirror frame that may serve: the sector is left
invalid and one uncorrectable error counted. A mirror read that returns data recovers the fill: the sector takes the data, the error
is counted with RECOVERED, and the data is written to the primary frame; one that does not leaves the sector invalid. (No injection is
armed or kept; the line still waits for the fill, its tag is sound, and the fill has no waiter and was not cancelled; the error
events are below severity 3.) A codeword that meets an uncorrectable error in the read buffer leaves the sector invalid. -/
def Obligations.DramReadsAreDecoded : Prop :=
  ∀ s : State,
    (∀ (i : Fin 32) (code : BitVec 1280) (e : RdEnt) (rest : List RdEnt) (x : Miss) (k : Nat),
      s.block.chLockstep (i / 2) = false → (s.block.subs.get i).inflight = e :: rest → (s.block.slices.get e.slice).miss = [x] →
      x.id = e.miss → x.waiters = [] → x.merge = none → x.cancel = false → x.way = some k → s.block.waits k x.sec → s.block.ecc.armed = none →
      s.block.ecc.kept = none →
      (decodeWord false none code.toNat = .clean →
        s.answers (.dramReadReturn i ⟨code, false⟩) (fun b =>
          (b.subs.get i).inflight = rest ∧ (b.slices.get e.slice).miss = [] ∧ (b.line k).st.get x.sec = .v
          ∧ b.secVal k x.sec = .data (halfData false code.toNat x.sec) false
          ∧ (∀ n : Nat, n ≠ x.sec → (b.line k).st.get n = (s.block.line k).st.get n ∧ (b.line k).dat.get n = (s.block.line k).dat.get n)
          ∧ (∀ j : Nat, j ≠ k → b.line j = s.block.line j)
          ∧ b = { s.block with regs := b.regs, ctr := b.ctr, fresh := b.fresh, subs := b.subs, slices := b.slices, arr := b.arr }
          ∧ s.block.regsButCounted b []))
      ∧ (∀ (err : Nat) (devs : List Nat), decodeWord false none code.toNat = .corrected err devs →
          (∀ n ∈ [57, 58, 61], s.block.rd (FLT_SEV_SEV n) ≠ 3) →
        s.answers (.dramReadReturn i ⟨code, false⟩) (fun b =>
          (b.line k).st.get x.sec = (if s.block.on ECC_CTL_CE_WB && decide (x.src < 6) then .d else .v)
          ∧ b.secVal k x.sec = .data (halfData false (code.toNat ^^^ err) x.sec) false
          ∧ b.rd (ECC_CE_CNT_CNT i) = min (s.block.rd (ECC_CE_CNT_CNT i) + 1) 0xFFFFFFFF
          ∧ b.rd (ECC_UE_CNT_CNT i) = s.block.rd (ECC_UE_CNT_CNT i)))
      ∧ (decodeWord false none code.toNat = .bad → s.block.mirrorOf x = none → s.block.rd (FLT_SEV_SEV 55) ≠ 3 →
        s.answers (.dramReadReturn i ⟨code, false⟩) (fun b =>
          (b.line k).st.get x.sec = .i ∧ b.rd (ECC_UE_CNT_CNT i) = min (s.block.rd (ECC_UE_CNT_CNT i) + 1) 0xFFFFFFFF
          ∧ b.rd (ECC_STATUS_UE i) = 1 ∧ b.rd (ECC_CE_CNT_CNT i) = s.block.rd (ECC_CE_CNT_CNT i)
          ∧ (b.flt.recs.get 55).valid = true))
      ∧ (x.joined = none → s.answers (.dramReadReturn i ⟨code, true⟩) (fun b => (b.subs.get i).inflight = rest
          ∧ (b.slices.get e.slice).miss = [] ∧ (b.line k).st.get x.sec = .i
          ∧ b.rd (ECC_CE_CNT_CNT i) = s.block.rd (ECC_CE_CNT_CNT i) ∧ b.rd (ECC_UE_CNT_CNT i) = s.block.rd (ECC_UE_CNT_CNT i))))
    ∧ ∀ (n : Intern) (rest : List Intern) (m : MirrorRead) (others : List MirrorRead) (k : Nat),
      takeFirst (fun (a : Intern) => a.req.src == 11) s.block.intern = some (n, rest) →
      takeFirst (fun (a : MirrorRead) => a.id == n.req.id) s.block.ecc.mirrors = some (m, others) →
      m.quiet = false → m.written = false → s.block.waits k m.miss.sec → m.sub < 32 → m.dpa.getD 0 < 2 ^ 46 → m.miss.waiters = [] → m.miss.merge = none →
      m.miss.cancel = false → m.miss.way = some k → s.block.rd (FLT_SEV_SEV 55) ≠ 3 →
      s.answers .mirrorReadReturn (fun b =>
        b.intern = rest ∧ b.ecc.mirrors = others
        ∧ b.rd (ECC_UE_CNT_CNT (s.block.eccSub m.sub)) = min (s.block.rd (ECC_UE_CNT_CNT (s.block.eccSub m.sub)) + 1) 0xFFFFFFFF
        ∧ bitOf (b.rd (ECC_UE_REC_WORD (s.block.eccSub m.sub) 3)) 28 = statusHasData n.status
        ∧ (statusHasData n.status = true → b.secVal k m.miss.sec = .data n.data false
            ∧ (b.line k).st.get m.miss.sec = (if s.block.on ECC_CTL_CE_WB && decide (m.miss.src < 6) then .d else .v)
            ∧ ∃ w ∈ (b.slices.get m.slice).wb, w.data = n.data ∧ w.sec = m.miss.sec ∧ w.poison = false ∧ w.src = m.miss.src)
        ∧ (statusHasData n.status = false → (b.line k).st.get m.miss.sec = .i))

/-- R313, R376, R383, R387, R392 to R395: a leak lowers the bucket by one. ECC_LOG_SEL shows the selected entry, and CLEAR frees it unless a
repair of it is pending. Installer firmware erases a device of a lockstep pair, which the ledger records, and ends the erasure. A soft
repair of a persistent entry starts where its module can and none is active there; a hard one only with the subchannel quiesced or
fenced and a spare row in the bank group, otherwise with CODE 1 or 2. Its sentence joins the queue; where the
image has none, or the subchannel is fenced, the repair fails (log entry 119). A repair that ends sets the entry's REPAIR and CODE,
and one that succeeds ends the entry's persistence. The POISON sectors the Keeper read are counted, and told when the row is written
back. (The logs are kept; events below severity 3.) -/
def Obligations.LogErasureAndRepair : Prop :=
  ∀ (s : State) (i : Fin 32),
    s.answers (.bucketLeak i) (fun b => b.rd (ECC_STATUS_LEVEL i) = s.block.rd (ECC_STATUS_LEVEL i) - 1
      ∧ s.block.onlyRegs b [(ECC_STATUS_LEVEL i).key])
    ∧ (∀ (role : Role) (n : BitVec 5),
      (s.grants role (ECC_LOG_SEL_INDEX i).off (withField (0 : Word) (ECC_LOG_SEL_INDEX i) n.toNat) →
        s.answers (.logSelect role i n) (fun b =>
          (∀ w : Fin 8, b.rd (ECC_LOG_DATA_WORD i w) = (s.block.ecc.log.get (32 * i + n.toNat)).word w % 2 ^ 32)
          ∧ s.block.wrote b ([(ECC_LOG_SEL_INDEX i).key, (ECC_LOG_SEL_CLEAR i).key] ++
              (List.range 8).map (fun w => (ECC_LOG_DATA_WORD i w).key))
          ∧ b = { s.block with regs := b.regs, mg := b.mg }))
      ∧ (s.grants role (ECC_LOG_SEL_INDEX i).off
            (withField (withField (0 : Word) (ECC_LOG_SEL_INDEX i) n.toNat) (ECC_LOG_SEL_CLEAR i) 1) →
        s.answers (.logClear role i n) (fun b =>
          b.ecc.log.get (32 * i + n.toNat) = default
          ∧ (∀ j : Nat, j ≠ 32 * i + n.toNat → b.ecc.log.get j = s.block.ecc.log.get j)
          ∧ s.block.wrote b ([(ECC_LOG_SEL_INDEX i).key, (ECC_LOG_SEL_CLEAR i).key] ++
              (List.range 8).map (fun w => (ECC_LOG_DATA_WORD i w).key))
          ∧ b = { s.block with regs := b.regs, mg := b.mg, ecc := { s.block.ecc with log := b.ecc.log } }))
      ∧ (n.toNat < 20 → s.block.chLockstep (i / 2) = true → i.val % 2 = 0 →
        (s.grants role (ECC_ERASE_VALID i).off (withField (withField (0 : Word) (ECC_ERASE_DEVICE i) n.toNat) (ECC_ERASE_VALID i) 1) →
          s.answers (.deviceErase role i n) (fun b => b.erased i = some n.toNat ∧ b.rd (ECC_ERASE_BY_BLOCK i) = 0
            ∧ (b.mod.ledger.get (s.block.slotOf i 0)).erased = true
            ∧ (b.mod.ledger.get (s.block.slotOf i 0)).erasedDev = some n.toNat))
        ∧ (s.grants role (ECC_ERASE_VALID i).off (withField (0 : Word) (ECC_ERASE_DEVICE i) n.toNat) →
          s.answers (.eraseEnd role i n) (fun b => b.erased i = none
            ∧ s.block.wrote b [(ECC_ERASE_VALID i).key, (ECC_ERASE_BY_BLOCK i).key, (ECC_ERASE_DEVICE i).key]
            ∧ b = { s.block with regs := b.regs, mg := b.mg }))))
    ∧ (∀ (role : Role) (n : BitVec 5) (e : LogEnt), e = s.block.ecc.log.get (32 * i + n.toNat) → e.valid = true →
        e.persistent = true → s.block.ecc.repair.get i = none → s.block.rd (ECC_CE_CFG_MODE i) ≠ 1 → s.block.rd (FLT_SEV_SEV 59) ≠ 3 →
        s.block.chLockstep (i / 2) = false → s.block.chState (i / 2) ≠ pwOFF → s.block.on (CLS_STATUS_HALTED i) = false →
      ∀ c ∈ [(Instr.softRepair role i n, false), (.hardRepair role i n, true)],
      s.grants role (ECC_REPAIR_CTL_GO i).off (withField (withField (withField (0 : Word) (ECC_REPAIR_CTL_ENTRY i) n.toNat)
          (ECC_REPAIR_CTL_HARD i) c.2.toNat) (ECC_REPAIR_CTL_GO i) 1) →
      (s.block.repairCap i e.rank c.2.toNat = true → (c.2 = false → s.block.softActive i e = false) →
          (c.2 = true → (s.block.quiesced i || s.block.subFenced i) = true ∧ s.block.spareRows i e.bg ≠ 0) →
        ((s.block.sentence (s.block.keeperSentence .repair)).isEmpty = false → s.block.subFenced i = false →
          s.answers c.1 (fun b => b.ecc.repair.get i = some ⟨n.toNat, c.2, role.code, e.repair⟩ ∧ b.rd (ECC_REPAIR_STATUS_BUSY i) = 1
            ∧ b.ecc.log.get (32 * i + n.toNat) = { e with repair := 2 }
            ∧ (∀ j : Nat, j ≠ 32 * i + n.toNat → b.ecc.log.get j = s.block.ecc.log.get j)
            ∧ (b.subs.get i).sntQ = (s.block.subs.get i).sntQ ++ [⟨s.block.keeperSentence .repair, 2 ^ e.rank, 0, c.2, .repair⟩]))
        ∧ ((s.block.sentence (s.block.keeperSentence .repair)).isEmpty = true ∨ s.block.subFenced i = true →
          s.answers c.1 (fun b => b.ecc.repair.get i = none ∧ b.rd (ECC_REPAIR_STATUS_BUSY i) = 0
            ∧ b.rd (ECC_REPAIR_CODE_CODE i) = 4 ∧ b.rd (ECC_STATUS_REPAIR_FAILED i) = 1
            ∧ b.ecc.log.get (32 * i + n.toNat) = { e with repair := 5 })))
      ∧ (c.2 = true → (s.block.quiesced i || s.block.subFenced i) = false ∨ s.block.spareRows i e.bg = 0 →
        s.answers c.1 (fun b => b.acked
          ∧ b.rd (ECC_REPAIR_CODE_CODE i) = (if s.block.quiesced i || s.block.subFenced i then 2 else 1) ∧ b.ecc = s.block.ecc)))
    ∧ ∀ (ok : Bool) (t : BitVec 26) (spare : Word) (poisons : List (BitVec 7)) (run : RepairRun),
        s.block.ecc.repair.get i = some run → s.block.rd (FLT_SEV_SEV 59) ≠ 3 → s.block.rd (FLT_SEV_SEV 60) ≠ 3 →
      s.answers (.repairEnd i ok t spare [] ⟨[], poisons⟩) (fun b =>
        b.ecc.repair.get i = none ∧ b.rd (ECC_REPAIR_STATUS_BUSY i) = 0 ∧ b.rd (ECC_REPAIR_STATUS_TIME_US i) = t.toNat
        ∧ b.rd (ECC_REPAIR_CODE_CODE i) = (if ok then 0 else 4)
        ∧ b.ecc.log.get (32 * i + run.entry) = (if ok then { s.block.ecc.log.get (32 * i + run.entry) with
              repair := if run.hard then 4 else 3, persistent := false, wbSeen := false, count := 0
              wbT := (b.ecc.log.get (32 * i + run.entry)).wbT }
            else { s.block.ecc.log.get (32 * i + run.entry) with repair := 5 })
        ∧ b.rd (ECC_POISON_READ_CNT_CNT i) = min (s.block.rd (ECC_POISON_READ_CNT_CNT i) + poisons.length) 0xFFFFFFFF
        ∧ (ok = true → poisons ≠ [] → b.rd (ECC_STATUS_POISON_WR i) = 1 ∧ (b.flt.recs.get 60).valid = true)
        ∧ (ok = true → b.rd (ECC_STATUS_REPAIR_DONE i) = 1)
        ∧ (ok = false → b.rd (ECC_STATUS_REPAIR_FAILED i) = 1 ∧ (b.flt.recs.get 59).valid = true))

/-- R397 to R399, R401, R402, R404: a request for a range starts its pass at BASE with a cleared summary, or is queued while another
runs, or starts nothing for a range that runs or is queued. ABORT ends the running pass with ABORTED. The next line of a range whose
descriptor is cached, without an error, is read from its frame; under SCRUB_POLICY 1 the whole extent is skipped. A line that came back without errors
is counted and nothing is written, and the pass ends at LIMIT with DONE. An injection is armed from its registers, or disarmed. -/
def Obligations.ScrubPassesAndInjection : Prop :=
  ∀ s : State,
    (∀ (role : Role) (w : Word) (k : Nat), k = w.toNat % 8 →
        s.grants role SCB_CTL_GO.off (withField (withField w SCB_CTL_GO 1) SCB_CTL_ABORT 0) →
      (s.block.rd SCB_STATUS_BUSY = 0 → s.block.rd SCB_STATUS_QUEUED = 0 → s.block.scbBase k < s.block.scbLimit k →
        s.answers (.scrubRequest role w) (fun b => b.rd SCB_STATUS_BUSY = 1 ∧ b.rd SCB_STATUS_CURRENT = k
          ∧ b.rd (SCB_SUM_WORD k 0) = 2 ^ 30 ∧ (∀ j : Nat, 0 < j → j < 16 → b.rd (SCB_SUM_WORD k j) = 0)
          ∧ b.scrub = { (default : ScrubSt) with pos := s.block.scbBase k }
          ∧ s.block.wrote b ([SCB_CTL_GO.key, SCB_CTL_ABORT.key, SCB_CTL_RANGE.key, SCB_CTL_INT_DONE.key, SCB_STATUS_BUSY.key,
              SCB_STATUS_CURRENT.key, SCB_STATUS_QUEUED.key] ++ (List.range 16).map (fun j => (SCB_SUM_WORD k j).key))
          ∧ b = { s.block with regs := b.regs, mg := b.mg, scrub := b.scrub }))
      ∧ (s.block.rd SCB_STATUS_BUSY = 1 →
        s.answers (.scrubRequest role w) (fun b =>
          b.rd SCB_STATUS_QUEUED = (if s.block.rd SCB_STATUS_CURRENT = k then s.block.rd SCB_STATUS_QUEUED
            else s.block.rd SCB_STATUS_QUEUED ||| (1 <<< k))
          ∧ s.block.wrote b [SCB_CTL_GO.key, SCB_CTL_ABORT.key, SCB_CTL_RANGE.key, SCB_CTL_INT_DONE.key, SCB_STATUS_QUEUED.key]
          ∧ b = { s.block with regs := b.regs, mg := b.mg })))
    ∧ (∀ (role : Role) (w : Word), s.grants role SCB_CTL_GO.off (withField (withField w SCB_CTL_ABORT 1) SCB_CTL_GO 0) →
      (s.block.rd SCB_STATUS_BUSY = 1 → s.block.rd SCB_STATUS_QUEUED = 0 →
        s.answers (.scrubAbort role w) (fun b => b.rd SCB_STATUS_BUSY = 0 ∧ b.rd SCB_STATUS_DONE = 1 ∧ b.scrub = default
          ∧ b.rd (SCB_SUM_WORD (s.block.rd SCB_STATUS_CURRENT) 0) = 2 ^ 31 + scbAborted
          ∧ (∀ j : Nat, 3 < j → j < 16 → b.rd (SCB_SUM_WORD (s.block.rd SCB_STATUS_CURRENT) j)
              = s.block.rd (SCB_SUM_WORD (s.block.rd SCB_STATUS_CURRENT) j))
          ∧ b = { s.block with regs := b.regs, mg := b.mg, scrub := default })))
    ∧ (∀ (d : Desc) (a : Nat), a = s.block.scrub.pos → s.block.rd SCB_STATUS_BUSY = 1 → s.block.scrub.line = none →
        s.block.edt.fetches = [] → s.block.intern = [] → a < 0x3FFF00000000 → s.block.withheld (s.block.extentOf a) = false →
        s.block.extentOf a < s.block.edtEntries → s.block.descCached (s.block.extentOf a) = some d →
        s.block.scrubHeld (s.block.scrubFrames d a) = false → s.block.edt.beyond = [] →
        s.block.descBad (s.block.extentOf a) = false →
      (∀ f : Route, s.block.scrubFrames d a = [f] → dValid d = true → s.block.malformed d = false → dState d = xsNormal →
          dScrub d = 0 → s.block.sliceFenced f.chan = false →
        s.answers .scrubLineIssue (fun b => b.scrub.line = some (a, s.block.nextId, false) ∧ b.scrub.pos = a + 256
          ∧ b.scrub.begun = true ∧ (s.block.scrub.begun = false → b.scrub.start = s.block.now)
          ∧ (∃ r : Req, (b.slices.get f.chan).q.get 8 = (s.block.slices.get f.chan).q.get 8 ++ [r] ∧ r.id = s.block.nextId
              ∧ r.op = .rd256 ∧ r.dpa = a ∧ r.route = f)
          ∧ b.arr = s.block.arr ∧ b.subs = s.block.subs ∧ b.edt.fetches = []))
      ∧ (dScrub d = 1 → (s.block.extentOf a + 1) * 2 ^ s.block.granLog < s.block.scbLimit (s.block.rd SCB_STATUS_CURRENT) →
        s.answers .scrubLineIssue (fun b => b.scrub = { s.block.scrub with pos := (s.block.extentOf a + 1) * 2 ^ s.block.granLog }
          ∧ b.rd (SCB_SUM_WORD (s.block.rd SCB_STATUS_CURRENT) 9)
              = min (s.block.rd (SCB_SUM_WORD (s.block.rd SCB_STATUS_CURRENT) 9)
                  + ((s.block.extentOf a + 1) * 2 ^ s.block.granLog - a) / 256) 0xFFFFFFFF
          ∧ b = { s.block with regs := b.regs, edt := b.edt, scrub := b.scrub })))
    ∧ (∀ (a id k : Nat), k = s.block.rd SCB_STATUS_CURRENT → s.block.scrub.line = some (a, id, false) →
        s.block.rd SCB_STATUS_BUSY = 1 → s.block.rd SCB_STATUS_QUEUED = 0 → s.block.intern.length = 4 →
        (∀ n ∈ s.block.intern, n.req.src = 8 ∧ n.req.area = .dram ∧ n.req.id = id ∧ n.status = stOK) →
        s.block.intern.map (fun n => n.sec) = [0, 1, 2, 3] →
      s.answers .scrubLineReturn (fun b =>
        b.rd (SCB_SUM_WORD k 4) + 2 ^ 32 * b.rd (SCB_SUM_WORD k 5)
          = (s.block.rd (SCB_SUM_WORD k 4) + 2 ^ 32 * s.block.rd (SCB_SUM_WORD k 5) + 4) % 2 ^ 64
        ∧ b.scrub.line = none
        ∧ (s.block.scrub.pos < s.block.scbLimit k → b.rd SCB_STATUS_BUSY = 1 ∧ b.scrub.pos = s.block.scrub.pos)
        ∧ (s.block.scbLimit k ≤ s.block.scrub.pos → b.rd SCB_STATUS_BUSY = 0 ∧ b.rd SCB_STATUS_DONE = 1
            ∧ b.rd (SCB_SUM_WORD k 0) = 2 ^ 31 + scbDone)
        ∧ b = { s.block with regs := b.regs, intern := [], scrub := b.scrub }))
    ∧ ∀ (role : Role) (w : Word),
      (s.grants role ECC_INJ_CTL_ARM.off (withField (withField w ECC_INJ_CTL_ARM 1) ECC_INJ_CTL_DISARM 0) →
        s.answers (.injectionArm role w) (fun b =>
          b.ecc = { s.block.ecc with kept := none, armed := some {
            dpa := (s.block.rd ECC_INJ_ADDR_LO_DPA + 2 ^ 32 * s.block.rd ECC_INJ_ADDR_HI_DPA) % 2 ^ 46 / 64 * 64,
            read := bitOf w.toNat 0, all := bitOf w.toNat 1, sym0 := s.block.rd ECC_INJ_PAT_SYM0,
            xor0 := s.block.rd ECC_INJ_PAT_XOR0, sym1 := s.block.rd ECC_INJ_PAT_SYM1, xor1 := s.block.rd ECC_INJ_PAT_XOR1 } }
          ∧ b.rd ECC_INJ_STATUS_ARMED = 1 ∧ b.rd ECC_INJ_STATUS_KEPT = 0
          ∧ s.block.wrote b [ECC_INJ_CTL_ARM.key, ECC_INJ_CTL_DISARM.key, ECC_INJ_CTL_DEVICE_ALL.key, ECC_INJ_CTL_POINT.key,
              ECC_INJ_STATUS_ARMED.key, ECC_INJ_STATUS_KEPT.key]
          ∧ b = { s.block with regs := b.regs, mg := b.mg, ecc := b.ecc }))
      ∧ (s.grants role ECC_INJ_CTL_ARM.off (withField (withField w ECC_INJ_CTL_DISARM 1) ECC_INJ_CTL_ARM 0) →
        s.answers (.injectionDisarm role w) (fun b =>
          b.ecc = { s.block.ecc with armed := none, kept := none } ∧ b.rd ECC_INJ_STATUS_ARMED = 0 ∧ b.rd ECC_INJ_STATUS_KEPT = 0
          ∧ s.block.wrote b [ECC_INJ_CTL_ARM.key, ECC_INJ_CTL_DISARM.key, ECC_INJ_CTL_DEVICE_ALL.key, ECC_INJ_CTL_POINT.key,
              ECC_INJ_STATUS_ARMED.key, ECC_INJ_STATUS_KEPT.key]
          ∧ b = { s.block with regs := b.regs, mg := b.mg, ecc := b.ecc }))

/-- R409 to R413, R414: in step 6 of start a discovery ends with its DISC; one that is OK in a slot that never held a module starts a
new ledger with the module's identity, and one that is not fails its channel, which is fenced. An hourly reading adds the increase
since the last one to ECS_A and ECS_B; a subchannel that is fenced, halted, in training, asleep or quiet misses it. Each second every present, powered module ages by one, and counts a hot second. A store of a
ledger that ends puts its bytes into the NVM.
Where the condition of an event does not hold nothing changes: the model's choice, log entry 3. -/
def Obligations.ModulesKeepTheirLedgers : Prop :=
  ∀ s : State,
    (∀ (m : Fin 32) (p : ModuleProbe) (b0 : Block), b0 = { s.block with start := { s.block.start with
          discWait := s.block.start.discWait - 2 ^ m.val } } → bitOf s.block.start.discWait m = true →
        s.block.start.discWait ≠ 2 ^ m.val → s.block.rd HBR_STATUS_STATE = 1 → s.block.rd HBR_STATUS_STEP = 6 →
        s.block.start.asked = false → s.block.phy.trainQ = [] → s.block.phy.train = [] →
      s.answers (.moduleDiscoveryDone m p) (fun b => b.rd (MOD_STATE_DISC m) = s.block.discOf m p
        ∧ b.start.discWait = s.block.start.discWait - 2 ^ m.val ∧ b.rd HBR_STATUS_STEP = 6
        ∧ (s.block.discOf m p = 0 → (s.block.mod.ledger.get m).presence = 0 →
            b.mod.ledger.get m = s.block.newLedger p [] ∧ b.mod.geom.get m = geomCode p ∧ b.mod.sensors.get m = p.sensors.toNat
            ∧ (∀ j : Nat, j ≠ m.val → b.mod.ledger.get j = s.block.mod.ledger.get j) ∧ b.start = b0.start)
        ∧ (s.block.discOf m p ≠ 0 → b.bit HBR_CH_STATUS_FAILED (m / 2) = true ∧ b.subFenced (m / 2 * 2) = true
            ∧ b.subFenced (m / 2 * 2 + 1) = true ∧ (b.flt.recs.get 64).valid = true)))
    ∧ (∀ (m : Fin 32) (a c : BitVec 32) (oa oc : Nat), (s.block.mod.ledger.get m).presence = 1 → s.block.chState (m / 2) = pwA0 →
        bitOf (s.block.quietKinds (2 * (m / 2 : Nat))) 3 = false → bitOf (s.block.quietKinds (2 * (m / 2 : Nat) + 1)) 3 = false →
        (∀ x : Fin 2, s.block.subFenced (m / 2 * 2 + x) = false ∧ s.block.on (CLS_STATUS_HALTED (s.block.schedOf (m / 2 * 2 + x))) = false
          ∧ s.block.phy.train.get (m / 2 * 2 + x) = none) →
        s.block.mod.ecsBase.get (2 * m) = some oa → s.block.mod.ecsBase.get (2 * m + 1) = some oc →
      s.answers (.ecsReading m a c) (fun b =>
        (b.mod.ledger.get m).ecsA = min ((s.block.mod.ledger.get m).ecsA + (a.toNat - oa)) 0xFFFFFFFF
        ∧ (b.mod.ledger.get m).ecsB = min ((s.block.mod.ledger.get m).ecsB + (c.toNat - oc)) 0xFFFFFFFF
        ∧ b.mod.ecsBase.get (2 * m) = some a.toNat ∧ b.mod.ecsBase.get (2 * m + 1) = some c.toNat
        ∧ (∀ j : Nat, j ≠ m.val → b.mod.ledger.get j = s.block.mod.ledger.get j)))
    ∧ (∀ (m : Fin 32) (a c : BitVec 32), (∀ x : Fin 2, s.block.ecsMissed (m / 2 * 2 + x) = true) →
        exec (.ecsReading m a c) s = .next s)
    ∧ (s.block.pwr.inS3 = true → exec .ledgerSecond s = .next s)
    ∧ (s.block.pwr.inS3 = false →
      s.answers .ledgerSecond (fun b => ∀ m : Fin 32, b.mod.high.get m = none ∧ b.mod.count.get m = false
        ∧ ((s.block.mod.ledger.get m).presence ≠ 1 → b.mod.ledger.get m = s.block.mod.ledger.get m)
        ∧ ((s.block.mod.ledger.get m).presence = 1 → s.block.chState (m / 2) ≠ pwOFF →
            (b.mod.ledger.get m).powered = min ((s.block.mod.ledger.get m).powered + 1) 0xFFFFFFFF
            ∧ (b.mod.ledger.get m).ce = (s.block.mod.ledger.get m).ce ∧ (b.mod.ledger.get m).serial = (s.block.mod.ledger.get m).serial
            ∧ ∀ t : Int, s.block.mod.high.get m = some t → s.block.mod.bad.get m = false →
              (b.mod.ledger.get m).hot = (if 340 ≤ t then min ((s.block.mod.ledger.get m).hot + 1) 0xFFFFFFFF
                else (s.block.mod.ledger.get m).hot)
              ∧ (b.mod.ledger.get m).maxTemp = max (s.block.mod.ledger.get m).maxTemp t)))
    ∧ ∀ (m : Fin 32) (x : NvStore) (rest : List NvStore), s.block.stores = x :: rest → x.key = 1000 + m →
        s.block.cal.again.get (1000 + m) = false →
      s.answers (.ledgerStoreDone m) (fun b => b.nvmBytes x.off x.bytes.length = x.bytes ∧ b.stores = rest
        ∧ (∀ a : Nat, a < x.off ∨ x.off + x.bytes.length ≤ a → b.nvmByte a = s.block.nvmByte a)
        ∧ (rest = [] → b.rd NVM_STATUS_BUSY = 0)
        ∧ b = { s.block with regs := b.regs, stores := b.stores, nvm := b.nvm } ∧ s.block.regsBut b [NVM_STATUS_BUSY.key])

/-- R418 to R422: RELEASE that nothing refuses quiesces both subchannels and drains; a refused command shows its CODE and changes no
state, and one while a command runs sets OVERRUN. At the drain's timeout the channel is fenced with DRAIN_LOST and power-off requested;
acknowledged, it is OFF and RELEASED. ATTACH requests power; power-good starts the discovery of its slots, and its lack ends in FAILED
with NO_POWER. Memory initialisation ends in ATTACHED, from which RESUME clears QUIESCE and the fences. (No training waits or runs on the
channel, and it is not in lockstep.) -/
def Obligations.ReplacementGoesThroughItsStates : Prop :=
  ∀ (s : State) (n : Fin 16), s.block.chLockstep n = false → s.block.phy.trainQ = [] → s.block.phy.train = [] →
    (∀ (role : Role) (c : Nat × Instr), c ∈ [(1, Instr.release role n), (2, .attach role n), (3, .rplResume role n)] →
        s.grants role (MOD_RPL_CTL_CMD n).off (withField (0 : Word) (MOD_RPL_CTL_CMD n) c.1) →
      (s.block.rplState n = rpReleasing ∨ s.block.rplState n = rpAttaching →
        s.answers c.2 (fun b => b.rd (MOD_RPL_STATUS_OVERRUN n) = 1
          ∧ s.block.wrote b [(MOD_RPL_CTL_CMD n).key, (MOD_RPL_STATUS_OVERRUN n).key]
          ∧ b = { s.block with regs := b.regs, mg := b.mg }))
      ∧ (s.block.rplState n = rpInService → c.1 ≠ 1 →
        s.answers c.2 (fun b => b.rd (MOD_RPL_STATUS_CODE n) = 1
          ∧ s.block.wrote b [(MOD_RPL_CTL_CMD n).key, (MOD_RPL_STATUS_CODE n).key]
          ∧ b = { s.block with regs := b.regs, mg := b.mg })))
    ∧ (∀ role : Role, s.grants role (MOD_RPL_CTL_CMD n).off (withField (0 : Word) (MOD_RPL_CTL_CMD n) 1) →
        s.block.rplState n ≠ rpReleasing → s.block.rplState n ≠ rpAttaching →
      (s.block.releaseCode n = 0 → s.block.subFenced (2 * n) = false → (s.block.subs.get (2 * n)).rq ≠ [] →
        s.answers (.release role n) (fun b => b.rplState n = rpReleasing ∧ b.rd (MOD_RPL_STATUS_CODE n) = 0
          ∧ b.rd (SCH_CTL_QUIESCE (2 * n)) = 1 ∧ b.rd (SCH_CTL_QUIESCE (2 * n + 1)) = 1 ∧ b.mod.phase.get n = 1
          ∧ s.block.wrote b [(MOD_RPL_CTL_CMD n).key, (MOD_RPL_STATUS_STATE n).key, (MOD_RPL_STATUS_CODE n).key,
              (SCH_CTL_QUIESCE (2 * n)).key, (SCH_CTL_QUIESCE (2 * n + 1)).key]
          ∧ b = { s.block with regs := b.regs, mg := b.mg, mod := { s.block.mod with phase := b.mod.phase } }))
      ∧ (s.block.releaseCode n ≠ 0 →
        s.answers (.release role n) (fun b => b.rd (MOD_RPL_STATUS_CODE n) = s.block.releaseCode n
          ∧ s.block.wrote b [(MOD_RPL_CTL_CMD n).key, (MOD_RPL_STATUS_CODE n).key]
          ∧ b = { s.block with regs := b.regs, mg := b.mg })))
    ∧ (s.block.rplState n = rpReleasing → s.block.mod.phase.get n = 1 →
      s.answers (.releaseDrainTimeout n) (fun b => b.rd (MOD_RPL_STATUS_DRAIN_LOST n) = 1 ∧ b.rplState n = rpReleasing
        ∧ b.subFenced (2 * n) = true ∧ b.subFenced (2 * n + 1) = true ∧ b.mod.phase.get n = 2
        ∧ (∀ i ∈ [2 * n.val, 2 * n.val + 1], (s.block.subFenced i = false → (b.subs.get i).rq = [] ∧ (b.subs.get i).wq = [])
            ∧ (b.subs.get i).selfRef = List.range (b.subRanks i) ∧ (b.subs.get i).ckStop = true)
        ∧ bitOf b.pwr.chLow n = true ∧ bitOf b.pwr.modLow n = true))
    ∧ (s.block.rplState n = rpReleasing → s.block.mod.phase.get n = 2 →
      s.answers (.releasePowerOffAck n) (fun b => b.rplState n = rpReleased ∧ b.rd (MOD_RPL_STATUS_CODE n) = 0
        ∧ b.chState n = pwOFF ∧ b.mod.phase.get n = 0 ∧ (b.mod.ledger.get (2 * n)).soft = 0
        ∧ (b.mod.ledger.get (2 * n + 1)).soft = 0 ∧ b.rd MOD_STATUS_RPL_END = 1
        ∧ b.pwr.chBad = s.block.pwr.chBad ||| (1 <<< n.val) ∧ b.nvm = s.block.nvm
        ∧ (∀ j : Nat, j ≠ 2 * n.val → j ≠ 2 * n.val + 1 → b.subs.get j = s.block.subs.get j)))
    ∧ (∀ role : Role, s.grants role (MOD_RPL_CTL_CMD n).off (withField (0 : Word) (MOD_RPL_CTL_CMD n) 2) →
        s.block.rplState n = rpReleased →
      s.answers (.attach role n) (fun b => b.rplState n = rpAttaching ∧ b.rd (MOD_RPL_STATUS_CODE n) = 0 ∧ b.mod.phase.get n = 3
        ∧ bitOf b.pwr.chLow n = false ∧ bitOf b.pwr.modLow n = false
        ∧ s.block.wrote b [(MOD_RPL_CTL_CMD n).key, (MOD_RPL_STATUS_STATE n).key, (MOD_RPL_STATUS_CODE n).key]
        ∧ b = { s.block with regs := b.regs, mg := b.mg, mod := b.mod, pwr := b.pwr }))
    ∧ (s.block.rplState n = rpAttaching → s.block.mod.phase.get n = 3 →
      (s.block.chDimms n = 1 →
        s.answers (.attachPowerGood n) (fun b => b.chState n = pwA0 ∧ b.mod.phase.get n = 4 ∧ b.rplState n = rpAttaching
          ∧ b.mod.wait = s.block.mod.wait ||| (1 <<< (2 * n.val))
          ∧ s.block.onlyRegs { b with mod := s.block.mod, pwr := s.block.pwr } [(PWR_CH_STATUS_STATE n).key]))
      ∧ (s.block.rd (FLT_SEV_SEV 67) ≠ 3 →
        s.answers (.attachPowerTimeout n) (fun b => b.rplState n = rpFailed ∧ b.rd (MOD_RPL_STATUS_CODE n) = 5
          ∧ b.mod.phase.get n = 0 ∧ b.rd MOD_STATUS_RPL_END = 1 ∧ (b.flt.recs.get 67).valid = true
          ∧ b = { s.block with regs := b.regs, mod := b.mod, flt := b.flt })))
    ∧ (bitOf s.block.start.initWait n = false → s.block.mod.phase.get n = 6 →
      s.answers (.memoryInitDone n) (fun b => b.rplState n = rpAttached ∧ b.rd (MOD_RPL_STATUS_CODE n) = 0 ∧ b.mod.phase.get n = 0
        ∧ (b.subs.get (2 * n)).initing = false ∧ (b.subs.get (2 * n + 1)).initing = false ∧ b.rd MOD_STATUS_RPL_END = 1
        ∧ b = { s.block with regs := b.regs, mod := b.mod, subs := b.subs }))
    ∧ ∀ role : Role, s.grants role (MOD_RPL_CTL_CMD n).off (withField (0 : Word) (MOD_RPL_CTL_CMD n) 3) →
        s.block.rplState n = rpAttached →
        (∀ i ∈ [2 * n.val, 2 * n.val + 1], s.block.bit FLT_FENCE_IN_SUB_U i = false ∧ (s.block.subs.get i).selfRef = []) →
      s.answers (.rplResume role n) (fun b => b.rplState n = rpInService ∧ b.rd (MOD_RPL_STATUS_CODE n) = 0
        ∧ ∀ i ∈ [2 * n.val, 2 * n.val + 1], b.rd (SCH_CTL_QUIESCE i) = 0 ∧ b.subFenced i = false
          ∧ (s.block.subFenced i = true → (b.subs.get i).ticking = true))

/-- R425 to R428, R430, R442: a TAIL within N of HEAD is taken, and one above sets RING_ERR and stops the taking of jobs. ENABLE from 0
to 1 takes jobs again and writes kept records again; ENABLE 0 stops nothing that runs; ABORT ends every job that runs with ABORTED. A
free lane of the enabled Tender reads the job at the oldest untaken index, asking for the descriptor of the ring's extent where it is
not cached. A job whose verb is not defined ends with BAD_VERB. A completion record that is answered OK frees its lane, and HEAD
passes a job with no earlier one open; answered otherwise, it is kept, and RING_ERR stops the taking of jobs.
Where the condition of an event does not hold nothing changes: the model's choice, log entry 3. -/
def Obligations.TenderTakesAndEndsJobs : Prop :=
  ∀ s : State,
    (∀ (role : Role) (tail : BitVec 16), s.grants role TND_TAIL_TAIL.off (withField (0 : Word) TND_TAIL_TAIL tail.toNat) →
      s.answers (.tailWrite role tail) (fun b => b.rd TND_TAIL_TAIL = tail.toNat
        ∧ (if s.block.ringN < (tail.toNat + 65536 - s.block.rd TND_HEAD_HEAD) % 65536 then
            b.rd TND_STATUS_RING_ERR = 1 ∧ b.tnd = { s.block.tnd with stopped := true }
            ∧ s.block.wrote b [TND_TAIL_TAIL.key, TND_STATUS_RING_ERR.key]
          else b.tnd = s.block.tnd ∧ s.block.wrote b [TND_TAIL_TAIL.key])
        ∧ b = { s.block with regs := b.regs, mg := b.mg, tnd := b.tnd }))
    ∧ (∀ (role : Role) (w : Word), s.grants role TND_CTL_ENABLE.off (withField (withField w TND_CTL_ENABLE 1) TND_CTL_ABORT 0) →
      s.answers (.tenderEnable role w) (fun b => b.rd TND_CTL_ENABLE = 1
        ∧ (s.block.rd TND_CTL_ENABLE = 0 → b.tnd.stopped = false)
        ∧ (∀ n : Fin 4, (s.block.tlane n).phase ≠ .kept → b.tlane n = s.block.tlane n)
        ∧ (∀ n : Fin 4, (s.block.tlane n).phase = .kept → s.block.rd TND_CTL_ENABLE = 0 →
            ((b.tlane n).phase = .finish ∨ (b.tlane n).phase = .finishing) ∧ (b.tlane n).record = (s.block.tlane n).record)
        ∧ ((∀ n : Fin 4, (s.block.tlane n).phase ≠ .kept) →
            s.block.wrote b [TND_CTL_ABORT.key, TND_CTL_ENABLE.key, TND_CTL_INT_DONE.key, TND_CTL_INT_ERR.key]
            ∧ b = { s.block with regs := b.regs, mg := b.mg, tnd := { s.block.tnd with stopped := b.tnd.stopped } })))
    ∧ (∀ (role : Role) (w : Word), s.grants role TND_CTL_ENABLE.off (withField (withField w TND_CTL_ENABLE 0) TND_CTL_ABORT 0) →
      s.answers (.tenderDisable role w) (fun b => b.rd TND_CTL_ENABLE = 0
        ∧ s.block.wrote b [TND_CTL_ABORT.key, TND_CTL_ENABLE.key, TND_CTL_INT_DONE.key, TND_CTL_INT_ERR.key]
        ∧ b = { s.block with regs := b.regs, mg := b.mg }))
    ∧ (∀ (role : Role) (w : Word), s.grants role TND_CTL_ABORT.off (withField w TND_CTL_ABORT 1) →
      s.answers (.tenderAbort role w) (fun b => b.acked
        ∧ ∀ n : Fin 4,
          ((s.block.tlane n).phase = .free ∨ (s.block.tlane n).phase = .fetch ∨ (s.block.tlane n).phase = .fetching →
            b.tlane n = s.block.tlane n)
          ∧ ((s.block.tlane n).runs = true → (s.block.tlane n).phase ≠ .finish → (s.block.tlane n).phase ≠ .finishing →
              (s.block.tlane n).phase ≠ .kept →
            ((b.tlane n).phase = .finish ∨ (b.tlane n).phase = .finishing) ∧ (b.tlane n).code = 12 ∧ (b.tlane n).lock = none
            ∧ bitsOf (b.tlane n).record.toNat 35 32 = 12 ∧ bitsOf (b.tlane n).record.toNat 31 0 = jId (s.block.tlane n).job)))
    ∧ ∀ n : Fin 4,
      (s.block.rd TND_CTL_ENABLE = 0 ∨ s.block.tnd.stopped = true ∨ s.block.tnd.next = s.block.rd TND_TAIL_TAIL
          ∨ (s.block.tlane n).phase ≠ .free → exec (.jobStart n) s = .next s)
      ∧ (s.block.on TND_CTL_ENABLE = true → s.block.tnd.stopped = false → (s.block.tlane n).phase = .free →
          (∀ m : Fin 4, (s.block.tlane m).phase ∉ [.fetch, .fetching, .kept] ∧ (s.block.tlane m).stage ≠ 99
            ∧ s.block.fenceWaits m = false) →
          s.block.tnd.next ≠ s.block.rd TND_TAIL_TAIL → s.block.tndDrained = false → s.block.edt.held = [] →
          (∀ e ∈ s.block.tnd.lanes, e.2.lock = none) → ∀ a : Nat, a = s.block.ringBase + 64 * (s.block.tnd.next % s.block.ringN) →
        (∀ (r r' : Req) (d : Desc) (b1 : Block), s.block.newId.2.tndWay (tndReq n s.block.nextId a .rd64) = (b1, .go r (some d)) →
            dState d = xsNormal → b1.routeReq r d = .go r' → s.block.sliceFenced (s.block.reqSlice r') = false →
          s.answers (.jobStart n) (fun b => s.block.laneSent b n { r' with tc := 0 } .fetching))
        ∧ (∀ f : Fetch, a < 2 ^ 46 → reservedOff a = none → s.block.extentOf a < s.block.edtEntries →
            s.block.withheld (s.block.extentOf a) = false → s.block.descCached (s.block.extentOf a) = none →
            s.block.edt.fetches = [f] → f.idx = s.block.extentOf a →
          s.answers (.jobStart n) (fun b => (b.tlane n).phase = .fetch ∧ (b.tlane n).req = some s.block.nextId
            ∧ (b.edt.fetches.map (fun x => (x.idx, x.waiters.length))) = [(f.idx, f.waiters.length + 1)]
            ∧ (∀ m : Nat, m ≠ n.val → b.tlane m = s.block.tlane m)
            ∧ b = { s.block with nextId := s.block.nextId + 1, edt := { s.block.edt with fetches := b.edt.fetches }
                                 tnd := { s.block.tnd with lanes := b.tnd.lanes } })))
      ∧ ((s.block.tlane n).phase = .go → jKnown (s.block.tlane n).job = false → s.block.fenceWaits n = false →
        s.answers (.badVerb n) (fun b => s.block.laneEnded b n 1))
      ∧ (jKnown (s.block.tlane n).job = true → exec (.badVerb n) s = .next s)
      ∧ ∀ (id : Nat) (x : Intern) (rest : List Intern) (l : Lane), l = s.block.tlane n → l.phase = .finishing → l.req = some id →
          takeFirst (fun (y : Intern) => y.req.src == 6 && y.req.id == id) s.block.intern = some (x, rest) →
        (statusHasData x.status = true →
          s.answers (.completionWriteDone n) (fun b => b.tlane n = default ∧ b.intern = rest
            ∧ (jInt l.job = true → b.rd TND_STATUS_JOB_DONE = 1)
            ∧ (s.block.tnd.done = [] → l.idx = s.block.rd TND_HEAD_HEAD → l.idx < 65536 →
                b.rd TND_HEAD_HEAD = (l.idx + 1) % 65536 ∧ b.tnd.done = [])
            ∧ (s.block.tnd.done = [] → l.idx ≠ s.block.rd TND_HEAD_HEAD →
                b.rd TND_HEAD_HEAD = s.block.rd TND_HEAD_HEAD ∧ b.tnd.done = [l.idx])
            ∧ (∀ m : Nat, m ≠ n.val → b.tlane m = s.block.tlane m)
            ∧ b = { s.block with regs := b.regs, ctr := b.ctr, fresh := b.fresh, intern := b.intern
                                 tnd := { s.block.tnd with lanes := b.tnd.lanes, done := b.tnd.done } }
            ∧ s.block.regsButCounted b [TND_HEAD_HEAD.key, TND_STATUS_JOB_DONE.key]))
        ∧ (statusHasData x.status = false →
          s.answers (.completionWriteDone n) (fun b => (b.tlane n).phase = .kept ∧ (b.tlane n).record = l.record
            ∧ b.rd TND_STATUS_RING_ERR = 1 ∧ b.tnd.stopped = true ∧ b.tnd.done = s.block.tnd.done
            ∧ (b.flt.recs.get 72).valid = true ∧ b.rd TND_HEAD_HEAD = s.block.rd TND_HEAD_HEAD ∧ b.intern = rest
            ∧ (∀ m : Nat, m ≠ n.val → b.tlane m = s.block.tlane m)
            ∧ b = { s.block with regs := b.regs, flt := b.flt, intern := b.intern, tnd := b.tnd }))

/-- R427, R428, R431, R436 to R440: a lane whose job's arguments hold sends the line its verb asks for: ZERO zero data, TEST its
pattern and then reads past the cache, SANITISE the data of the pass, COPY a read and then a write of the line to DST, and SUM, CLEAR
and SCAN reads. At the end of the range the job ends with its verb's CODE; bad arguments end with BAD_ARGS and, in harbour mode, verbs
but ZERO and TEST with HARBOUR. SANITISE marks each extent SANITISING; MOVE sets MIGRATING with its target, locks each chunk, updates
the watermark, and at the last chunk changes the frame. A chunk not copied in time is tried again, up to RETRY. A returned line moves
its job on.
Where the condition of an event does not hold nothing changes: the model's choice, log entry 3. -/
def Obligations.TenderVerbsDoTheirWork : Prop :=
  ∀ (s : State) (n : Fin 4) (l : Lane), l = s.block.tlane n →
    (l.phase = .go → s.block.fenceWaits n = false →
      (∀ e ∈ [(vbZero, Instr.zero n), (vbSanitise, .sanitise n), (vbCopy, .copy n), (vbMove, .move n), (vbTest, .test n), (vbSum, .sum n),
          (vbClear, .clear n), (vbScan, .scan n)],
        (jVerb l.job ≠ e.1 → exec e.2 s = .next s)
        ∧ (jVerb l.job = e.1 → jArgsOk l.job = false → s.answers e.2 (fun b => s.block.laneEnded b n 2))
        ∧ (jVerb l.job = e.1 → jArgsOk l.job = true → s.block.harbour = true → e.1 ≠ vbZero → e.1 ≠ vbTest →
            s.answers e.2 (fun b => s.block.laneEnded b n 13)))
      ∧ (jArgsOk l.job = true → s.block.harbour = false →
        (∀ e ∈ [(Instr.zero n, vbZero, l.stage, 0), (.copy n, vbCopy, l.stage, l.worst), (.clear n, vbClear, l.stage, 0),
            (.scan n, vbScan, l.stage, 0), (.test n, vbTest, 5, if l.low = 0 then 0 else 9),
            (.sum n, vbSum, l.stage, if jCheck l.job = true ∧ l.crc ≠ jExpect l.job then 9 else 0)],
          jVerb l.job = e.2.1 → l.stage = e.2.2.1 → jLen l.job ≤ l.pos → e.2.2.2 < 16 →
          s.answers e.1 (fun b => s.block.laneEnded b n e.2.2.2))
        ∧ (s.block.edt.held = [] → (∀ e ∈ s.block.tnd.lanes, e.2.lock = none) → l.pos < jLen l.job →
          (jVerb l.job = vbZero → s.laneSends (.zero n) n l.pos false .wrl (lineOf 0) false)
          ∧ (jVerb l.job = vbTest → l.stage = 0 → s.laneSends (.test n) n l.pos false .wrl (lineOf (jPattern l.job)) false)
          ∧ (jVerb l.job = vbTest → l.stage = 1 → l.line = [] → s.laneSends (.test n) n l.pos false .rd256 [] true)
          ∧ (jVerb l.job = vbSanitise → l.stage = 3 →
              s.laneSends (.sanitise n) n l.pos false .wrl (lineOf (saniData l.job l.tries)) false)
          ∧ (jVerb l.job = vbSanitise → l.stage = 4 → s.laneSends (.sanitise n) n l.pos false .rd256 [] true)
          ∧ (jVerb l.job = vbCopy → l.line = [] → s.laneSends (.copy n) n l.pos false .rd256 [] false)
          ∧ (jVerb l.job = vbCopy → l.line ≠ [] → s.laneSends (.copy n) n l.pos true .wrl (copyLine l.line) false)
          ∧ (jVerb l.job = vbSum → s.laneSends (.sum n) n l.pos false .rd256 [] false)
          ∧ (jVerb l.job = vbScan → s.laneSends (.scan n) n l.pos false .rd256 [] false)
          ∧ (jVerb l.job = vbClear → l.todo = [] → s.laneSends (.clear n) n l.pos false .rd256 [] false)
          ∧ (∀ (k : Nat) (t : List Nat), jVerb l.job = vbClear → l.todo = k :: t →
              s.laneSends (.clear n) n (l.pos + 64 * k) false .wr64 [⟨jPattern l.job, allOnes, false, false⟩] false))
        ∧ (∀ (i a : Nat) (r : Req) (d : Desc),
            (s.block.newId.2.tndWay (tndReq n s.block.nextId a .rd64)).2 = .go r (some d) → s.block.claimed n i = false →
            l.claims = [] → dState d = xsNormal → l.stage = 0 →
          (jVerb l.job = vbSanitise → l.chunk < (s.block.jExtents l.job).2 → i = (s.block.jExtents l.job).1 + l.chunk →
              a = max (jSrc l.job) (i * 2 ^ s.block.granLog) →
            s.answers (.sanitise n) (fun b => (b.tlane n).phase = .update ∧ (b.tlane n).claims = [(i, none)]
              ∧ b.edt.updates = s.block.edt.updates ++ [{ (default : DescUpd) with idx := i, state := some xsSanitising, lane := n }]
              ∧ (∀ m : Nat, m ≠ n.val → b.tlane m = s.block.tlane m)
              ∧ b = { s.block with nextId := s.block.nextId + 1, tnd := { s.block.tnd with lanes := b.tnd.lanes }
                                   edt := { s.block.edt with cache := b.edt.cache, updates := b.edt.updates } }))
          ∧ (jVerb l.job = vbMove → i = jSrc l.job → a = i * 2 ^ s.block.granLog → s.block.frameOk (jFrame (jDst l.job)) = true →
            s.answers (.move n) (fun b => (b.tlane n).phase = .update ∧ (b.tlane n).stage = 1 ∧ (b.tlane n).claims = [(i, none)]
              ∧ b.edt.updates = s.block.edt.updates ++ [{ (default : DescUpd) with
                  idx := i, state := some xsMigrating, mig := some (jFrame (jDst l.job)), watermark := some 0, lane := n }]
              ∧ (∀ m : Nat, m ≠ n.val → b.tlane m = s.block.tlane m)
              ∧ b = { s.block with nextId := s.block.nextId + 1, tnd := { s.block.tnd with lanes := b.tnd.lanes }
                                   edt := { s.block.edt with cache := b.edt.cache, updates := b.edt.updates } })))
        ∧ (jVerb l.job = vbMove →
          (l.stage = 1 → l.chunk < s.block.chunks → (∀ r : Route, s.block.tndHeld r = false) →
            s.answers (.move n) (fun b =>
              b.tlane n = { l with lock := some s.block.nextId, stage := 2, pos := 0, line := [], req := none }
              ∧ (∀ m : Nat, m ≠ n.val → b.tlane m = s.block.tlane m)
              ∧ b = { s.block with tnd := { s.block.tnd with lanes := b.tnd.lanes } }))
          ∧ (∀ e ∈ [(4, 5, { (default : DescUpd) with idx := jSrc l.job, watermark := some (l.chunk + 1) }),
              (1, 6, { (default : DescUpd) with
                idx := jSrc l.job, state := some xsNormal, frame := some (jFrame (jDst l.job)), mig := some (0, 0), watermark := some 0 })],
            l.stage = e.1 → (e.1 = 4 → 4096 ≤ l.pos) → (e.1 = 1 → s.block.chunks ≤ l.chunk) →
            s.answers (.move n) (fun b => b.tlane n = { l with phase := .update, stage := e.2.1 }
              ∧ b.edt.updates = s.block.edt.updates
                  ++ [{ e.2.2 with lane := n, gen := (l.claims.find? (fun c => c.1 == jSrc l.job)).bind (fun c => c.2) }]
              ∧ (∀ m : Nat, m ≠ n.val → b.tlane m = s.block.tlane m)
              ∧ b = { s.block with edt := { s.block.edt with updates := b.edt.updates }
                                   tnd := { s.block.tnd with lanes := b.tnd.lanes } })))))
    ∧ (s.block.edt.held = [] → l.lock.isSome = true →
      (l.stage = 2 ∨ l.stage = 3 ∨ l.stage = 4 →
        (l.tries < s.block.rd TND_CFG_RETRY →
          s.answers (.chunkTimeout n) (fun b =>
            b.tlane n = { l with phase := .go, req := none, lock := none, stage := 1, tries := l.tries + 1, line := [] }
            ∧ (∀ m : Nat, m ≠ n.val → b.tlane m = s.block.tlane m)
            ∧ b = { s.block with regs := b.regs, ctr := b.ctr, fresh := b.fresh, tnd := { s.block.tnd with lanes := b.tnd.lanes } }
            ∧ s.block.regsButCounted b []))
        ∧ (s.block.rd TND_CFG_RETRY ≤ l.tries → s.answers (.chunkTimeout n) (fun b => s.block.laneEnded b n 10)))
      ∧ (l.phase = .updated → l.stage = 5 →
        (l.code = 0 →
          s.answers (.chunkUnlock n) (fun b =>
            b.tlane n = { l with phase := .go, req := none, lock := none, stage := 1, chunk := l.chunk + 1, done := l.done + 4096
                                 tries := 0, line := [] }
            ∧ (∀ m : Nat, m ≠ n.val → b.tlane m = s.block.tlane m)
            ∧ b = { s.block with regs := b.regs, ctr := b.ctr, fresh := b.fresh, tnd := { s.block.tnd with lanes := b.tnd.lanes } }
            ∧ s.block.regsButCounted b []))
        ∧ (l.code ≠ 0 → l.code < 16 → s.answers (.chunkUnlock n) (fun b => s.block.laneEnded b n l.code))))
    ∧ ∀ (id : Nat) (xs : List Intern), l.req = some id → s.block.tndAnswers id = xs →
      (l.phase = .fetching → ∀ x : Intern, xs = [x] → x.req.op = .rd64 →
        (statusHasData x.status = true →
          s.answers (.tenderLineReturn n) (fun b =>
            b.tlane n = { (default : Lane) with phase := .go, idx := s.block.tnd.next, job := x.data }
            ∧ b.tnd.next = (s.block.tnd.next + 1) % 65536 ∧ (∀ m : Nat, m ≠ n.val → b.tlane m = s.block.tlane m)
            ∧ b = { s.block with intern := b.intern, tnd := { s.block.tnd with lanes := b.tnd.lanes, next := b.tnd.next } }))
        ∧ (statusHasData x.status = false →
          s.answers (.tenderLineReturn n) (fun b => b.tlane n = default ∧ b.rd TND_STATUS_RING_ERR = 1 ∧ b.tnd.stopped = true
            ∧ b.tnd.next = s.block.tnd.next ∧ b.rd TND_HEAD_HEAD = s.block.rd TND_HEAD_HEAD ∧ (b.flt.recs.get 72).valid = true
            ∧ (∀ m : Nat, m ≠ n.val → b.tlane m = s.block.tlane m)
            ∧ b = { s.block with regs := b.regs, flt := b.flt, intern := b.intern, tnd := b.tnd })))
      ∧ (l.phase = .write → xs.length = 4 → (∀ x ∈ xs, statusHasData x.status = true) → jVerb l.job = vbZero ∨ jVerb l.job = vbCopy →
        s.answers (.tenderLineReturn n) (fun b =>
          b.tlane n = { l with phase := .go, req := none, pos := l.pos + 256, done := l.pos + 256, line := [] }
          ∧ (∀ m : Nat, m ≠ n.val → b.tlane m = s.block.tlane m)
          ∧ b = { s.block with intern := b.intern, tnd := { s.block.tnd with lanes := b.tnd.lanes } }))
      ∧ (l.phase = .read → xs.length = 4 → jVerb l.job = vbScan →
        ((∀ x ∈ lineAnswers xs, x.2.1 ≠ stFenced) →
          s.answers (.tenderLineReturn n) (fun b => (b.tlane n).phase = .go ∧ (b.tlane n).pos = l.pos + 256
            ∧ (b.tlane n).done = l.pos + 256
            ∧ (b.tlane n).low = l.low + ((lineAnswers xs).filter (fun x => x.2.1 == stPoison)).length
            ∧ (b.tlane n).high = l.high + ((lineAnswers xs).filter (fun x => x.2.1 != stPoison && !statusHasData x.2.1)).length
            ∧ (∀ m : Nat, m ≠ n.val → b.tlane m = s.block.tlane m)
            ∧ b = { s.block with intern := b.intern, tnd := { s.block.tnd with lanes := b.tnd.lanes } }))
        ∧ ((∃ x ∈ lineAnswers xs, x.2.1 = stFenced) → s.answers (.tenderLineReturn n) (fun b => s.block.laneEnded b n 6
            ∧ (b.tlane n).first = some (l.first.getD (s.block.jAddr l.job l.pos)))))

/-- R449 to R454: CTR_SNAP.GO schedules a snapshot of its groups 1,024 ns ahead. Where no copy runs, each counter of the groups latches
its count, restarts from 0 with CLEAR_AT_SNAP or under a new configuration, and takes its shadow configuration; while a copy runs the
snapshot is dropped and counted, unless it has the running copy's instant, which it joins; snapshots of one instant are one. The copy moves the latches of the selected groups into the bank, increments SEQ and loads the time.
CTR_CLEAR sets a counter, or both halves of a chained pair, to 0, also where an increment by `clash` falls together with it. A read of CTR_LIVE_LO
latches the whole live value.
Where the condition of an event does not hold nothing changes: the model's choice, log entry 3. -/
def Obligations.SnapshotsAndClearsOfCounters : Prop :=
  ∀ s : State,
    (∀ (role : Role) (groups : BitVec 16),
        s.grants role CTR_SNAP_GO.off (withField (withField (0 : Word) CTR_SNAP_GROUPS groups.toNat) CTR_SNAP_GO 1) →
      s.answers (.snapshotCommand role groups) (fun b =>
        b.ctr = { s.block.ctr with sched := s.block.ctr.sched ++ [⟨groups.toNat, (s.block.now + 1024) % 2 ^ 64, true⟩] }
        ∧ s.block.wrote b [CTR_SNAP_GO.key, CTR_SNAP_GROUPS.key] ∧ b = { s.block with regs := b.regs, mg := b.mg, ctr := b.ctr }))
    ∧ (∀ (sn : Snap) (rest : List Snap),
        takeFirst (fun (x : Snap) => decide (timeSince s.block.now x.instant < 2 ^ 63)) s.block.ctr.sched = some (sn, rest) →
      (∀ g : Nat, g = (rest.filter (fun x => x.instant == sn.instant)).foldl (fun g x => g ||| x.groups) sn.groups →
          s.block.ctr.copy = none →
        s.answers .snapshotLatch (fun b => b.ctr.copy = some { sn with groups := g } ∧ b.rd CTR_SNAP_STATUS_BUSY = 1
          ∧ b.ctr.sched = rest.filter (fun x => x.instant != sn.instant) ∧ s.block.latched b g
          ∧ b = { s.block with regs := b.regs, work := b.work, ctr := { s.block.ctr with
              live := b.ctr.live, latch := b.ctr.latch, copy := b.ctr.copy, sched := b.ctr.sched } }
          ∧ s.block.regsBut b [CTR_SNAP_STATUS_BUSY.key]))
      ∧ (∀ c : Snap, s.block.ctr.copy = some c → c.instant = sn.instant →
        s.answers .snapshotLatch (fun b => b.ctr.copy = some { c with groups := c.groups ||| sn.groups } ∧ b.ctr.sched = rest
          ∧ s.block.latched b (sn.groups - (sn.groups &&& c.groups))
          ∧ b = { s.block with work := b.work, ctr := { s.block.ctr with
              live := b.ctr.live, latch := b.ctr.latch, copy := b.ctr.copy, sched := b.ctr.sched } }))
      ∧ (∀ c : Snap, s.block.ctr.copy = some c → c.instant ≠ sn.instant →
        s.answers .snapshotLatch (fun b => b.rd CTR_STATUS_SNAP_DROP = 1
          ∧ b.rd CTR_SNAP_DROP_CNT_CNT = min (s.block.rd CTR_SNAP_DROP_CNT_CNT + 1) 0xFFFFFFFF
          ∧ (sn.cmd = true → b.rd CTR_SNAP_STATUS_OVERRUN = 1)
          ∧ ((∃ x ∈ rest, x.instant = sn.instant ∧ x.cmd = true) → b.rd CTR_SNAP_STATUS_OVERRUN = 1)
          ∧ s.block.onlyRegs { b with ctr := s.block.ctr } [CTR_STATUS_SNAP_DROP.key, CTR_SNAP_DROP_CNT_CNT.key,
              CTR_SNAP_STATUS_OVERRUN.key, GLB_INT_PEND_PEND.key]
          ∧ b.ctr = { s.block.ctr with sched := rest.filter (fun x => x.instant != sn.instant) })))
    ∧ (∀ sn : Snap, s.block.ctr.copy = some sn →
      s.answers .snapshotCopyDone (fun b =>
        (∀ n : Nat, n < 552 →
          (bitOf sn.groups (ctrGroup n) = true → b.rd (CTR_VAL_LO_VAL n) = s.block.ctr.latch.get n % 2 ^ 32
            ∧ b.rd (CTR_VAL_HI_VAL n) = s.block.ctr.latch.get n / 2 ^ 32 % 2 ^ 16)
          ∧ (bitOf sn.groups (ctrGroup n) = false → b.rd (CTR_VAL_LO_VAL n) = s.block.rd (CTR_VAL_LO_VAL n)
            ∧ b.rd (CTR_VAL_HI_VAL n) = s.block.rd (CTR_VAL_HI_VAL n)))
        ∧ (bitOf sn.groups 12 = true → ∀ k : Nat, k < 128 →
            b.rd (CTR_SLOT_SNAP_WORD (k / 4) (2 * (k % 4))) = s.block.ctr.latch.get (552 + k) % 2 ^ 32
            ∧ b.rd (CTR_SLOT_SNAP_WORD (k / 4) (2 * (k % 4) + 1)) = s.block.ctr.latch.get (552 + k) / 2 ^ 32 % 2 ^ 32)
        ∧ b.rd CTR_SNAP_STATUS_SEQ = (s.block.rd CTR_SNAP_STATUS_SEQ + 1) % 65536 ∧ b.rd CTR_SNAP_STATUS_BUSY = 0
        ∧ b.rd CTR_SNAP_STATUS_GROUPS = sn.groups % 2 ^ 13 ∧ b.rd CTR_SNAP_TIME_LO_T = sn.instant % 2 ^ 32
        ∧ b.rd CTR_SNAP_TIME_HI_T = sn.instant / 2 ^ 32 % 2 ^ 32
        ∧ (s.block.rd CTR_CTL_INT_SNAP ≠ 0 → b.bit GLB_INT_PEND_PEND 24 = true)
        ∧ b = { s.block with regs := b.regs, ctr := { s.block.ctr with copy := none, latch := [] } }
        ∧ s.block.regsButCounted b []))
    ∧ (s.block.ctr.copy = none → exec .snapshotCopyDone s = .next s)
    ∧ (∀ (role : Role) (index : BitVec 10) (clash : Nat),
        s.grants role CTR_CLEAR_GO.off (withField (withField (0 : Word) CTR_CLEAR_INDEX index.toNat) CTR_CLEAR_GO 1) →
      (552 ≤ index.toNat → s.answers (.counterClear role index clash) (fun b => s.block.wrote b [CTR_CLEAR_GO.key, CTR_CLEAR_INDEX.key]
          ∧ b = { s.block with regs := b.regs, mg := b.mg }))
      ∧ (index.toNat < 552 →
        s.answers (.counterClear role index clash) (fun b =>
          (∀ n : Nat, b.ctr.live.get n = if n ∈ s.block.ctrPair index.toNat then 0 else s.block.ctr.live.get n)
          ∧ (clash ≠ 0 → s.block.ctrExceeds ((s.block.ctrPair index.toNat).headD 0) clash = true →
              b.rd CTR_STATUS_LOST_OVF = 1 ∧ b.rd CTR_STATUS_LOST_IDX = (s.block.ctrPair index.toNat).headD 0)
          ∧ (clash = 0 → s.block.wrote b [CTR_CLEAR_GO.key, CTR_CLEAR_INDEX.key])
          ∧ s.block.wrote b [CTR_CLEAR_GO.key, CTR_CLEAR_INDEX.key, CTR_STATUS_LOST_OVF.key, CTR_STATUS_LOST_IDX.key]
          ∧ b = { s.block with regs := b.regs, mg := b.mg, ctr := { s.block.ctr with live := b.ctr.live } })))
    ∧ ∀ role : Role, role ≠ .none → s.block.mgOpen = true → s.block.mg.held = [] →
      s.answers (.liveRead role) (fun b => b.acked ∧ b.mg.rdata = BitVec.ofNat 32 s.block.ctrLive
        ∧ b.rd CTR_LIVE_LO_VAL = s.block.ctrLive % 2 ^ 32 ∧ b.rd CTR_LIVE_MID_VAL = s.block.ctrLive / 2 ^ 32 % 2 ^ 32
        ∧ b.rd CTR_LIVE_HI_VAL = s.block.ctrLive / 2 ^ 64 % 2 ^ 32
        ∧ s.block.onlyRegs { b with mg := s.block.mg } [CTR_LIVE_LO_VAL.key, CTR_LIVE_MID_VAL.key, CTR_LIVE_HI_VAL.key])

/-- R467, R469 to R472: a request for a state is ignored while one runs, refused with its CODE, and done at once where it names A0 or
nothing shallower; otherwise it drains. A drained request commits when no work in flight remains, and then its channels' entries begin;
one whose drain times out fails with DRAIN_TIMEOUT. An idle channel moves to the next state that its AUTO bit allows, and an idle block
to S3.
Where the condition of an event does not hold nothing changes: the model's choice, log entry 3. -/
def Obligations.PowerRequestsDrainAndCommit : Prop :=
  ∀ s : State,
    (∀ (role : Role) (channels : BitVec 16),
      ∀ e ∈ [(0, Instr.powerRequestA0 role channels), (1, .powerRequestA1 role channels), (2, .powerRequestS1 role channels),
          (3, .powerRequestS2 role channels), (4, .powerRequestS3 role channels)],
        s.grants role PWR_CMD_GO.off (withField (withField (withField (0 : Word) PWR_CMD_CHANNELS channels.toNat) PWR_CMD_STATE e.1)
          PWR_CMD_GO 1) →
      (s.block.rd PWR_CMD_STATUS_BUSY ≠ 0 →
        s.answers e.2 (fun b => s.block.wrote b [PWR_CMD_GO.key, PWR_CMD_CHANNELS.key, PWR_CMD_STATE.key]
          ∧ b = { s.block with regs := b.regs, mg := b.mg }))
      ∧ (s.block.rd PWR_CMD_STATUS_BUSY = 0 → s.block.pwrCode e.1 channels.toNat ≠ 0 →
        s.answers e.2 (fun b => b.rd PWR_CMD_STATUS_CODE = s.block.pwrCode e.1 channels.toNat ∧ b.rd PWR_STATUS_CMD_FAIL = 1
          ∧ b.rd PWR_STATUS_CMD_DONE = 1 ∧ b.rd PWR_CMD_STATUS_BUSY = 0
          ∧ s.block.wrote b [PWR_CMD_GO.key, PWR_CMD_CHANNELS.key, PWR_CMD_STATE.key, PWR_CMD_STATUS_BUSY.key, PWR_CMD_STATUS_CODE.key,
              PWR_STATUS_CMD_DONE.key, PWR_STATUS_CMD_FAIL.key]
          ∧ b = { s.block with regs := b.regs, mg := b.mg }))
      ∧ (s.block.rd PWR_CMD_STATUS_BUSY = 0 → s.block.pwrCode e.1 channels.toNat = 0 →
        (e.1 = 0 → s.answers e.2 (fun b => b.rd PWR_CMD_STATUS_CODE = 0 ∧ b.rd PWR_STATUS_CMD_DONE = 1
          ∧ (∀ n : Fin 16, bitOf channels.toNat n = true → s.block.pwr.target.get n = none → 1 ≤ s.block.chState n →
              s.block.chState n ≤ 3 → b.pwr.target.get n = some pwA0 ∧ b.rd (PWR_CH_STATUS_MOVING n) = 1
                ∧ bitOf b.pwr.chLow n = false)
          ∧ (∀ n : Fin 16, bitOf channels.toNat n = false → b.pwr.target.get n = s.block.pwr.target.get n
              ∧ b.rd (PWR_CH_STATUS_MOVING n) = s.block.rd (PWR_CH_STATUS_MOVING n))
          ∧ b = { s.block with regs := b.regs, mg := b.mg, pwr := b.pwr }))
        ∧ (1 ≤ e.1 → e.1 ≤ 3 → ∀ l : List Nat, l = (pwrNamed e.1 channels.toNat).filter (fun n => decide (s.block.chState n < e.1)) →
          (l = [] → s.answers e.2 (fun b => b.rd PWR_CMD_STATUS_CODE = 0 ∧ b.rd PWR_STATUS_CMD_DONE = 1
              ∧ s.block.wrote b [PWR_CMD_GO.key, PWR_CMD_CHANNELS.key, PWR_CMD_STATE.key, PWR_CMD_STATUS_BUSY.key, PWR_CMD_STATUS_CODE.key,
                  PWR_STATUS_CMD_DONE.key]
              ∧ b = { s.block with regs := b.regs, mg := b.mg }))
          ∧ (l ≠ [] → s.answers e.2 (fun b => b.rd PWR_CMD_STATUS_BUSY = 1
              ∧ b.pwr = { s.block.pwr with drains := s.block.pwr.drains ++ [⟨none, e.1, maskOf l, false⟩] }
              ∧ s.block.wrote b [PWR_CMD_GO.key, PWR_CMD_CHANNELS.key, PWR_CMD_STATE.key, PWR_CMD_STATUS_BUSY.key]
              ∧ b = { s.block with regs := b.regs, mg := b.mg, pwr := b.pwr })))
        ∧ (e.1 = 4 → s.block.rd SCB_STATUS_BUSY = 0 → s.block.imBusy = false →
          s.answers e.2 (fun b => b.rd PWR_CMD_STATUS_BUSY = 1
            ∧ b.pwr = { s.block.pwr with drains := s.block.pwr.drains ++ [⟨none, 4, maskOf (List.range 16), false⟩] }
            ∧ s.block.wrote b [PWR_CMD_GO.key, PWR_CMD_CHANNELS.key, PWR_CMD_STATE.key, PWR_CMD_STATUS_BUSY.key, SCB_STATUS_QUEUED.key]
            ∧ b = { s.block with regs := b.regs, mg := b.mg, pwr := b.pwr }))))
    ∧ (∀ (who : Option (Fin 64)) (q : PwrReq), s.block.pwr.drains = [q] → q.light = who.map Fin.val → q.committed = false →
      (s.block.pwrReady q = false → exec (.drainCommit who) s = .next s)
      ∧ (s.block.pwrReady q = true → s.block.rd PWR_STATUS_BLOCK = 0 → s.block.pwr.inS3 = false →
        (1 ≤ q.state → q.state ≤ 3 → (∃ n : Fin 16, bitOf q.chans n = true ∧ s.block.chState n < q.state) →
          s.answers (.drainCommit who) (fun b => b.pwr.drains = [{ q with committed := true }]
            ∧ (∀ n : Fin 16, b.pwr.target.get n = (if bitOf q.chans n = true ∧ s.block.chState n < q.state then some q.state
                else s.block.pwr.target.get n))
            ∧ (∀ n : Fin 16, bitOf q.chans n = true → s.block.chState n < q.state → b.rd (PWR_CH_STATUS_MOVING n) = 1
                ∧ (q.state = pwS2 → bitOf b.pwr.chLow n = true))
            ∧ b = { s.block with regs := b.regs, pwr := { s.block.pwr with
                drains := b.pwr.drains, target := b.pwr.target, chLow := b.pwr.chLow } }
            ∧ s.block.regsBut b ((List.range 16).map (fun n => (PWR_CH_STATUS_MOVING n).key))))
        ∧ (q.state = 4 → (∀ c : Fin 16, s.block.sliceState c ≠ 0) → (∀ m : Fin 32, (s.block.mod.ledger.get m).presence ≠ 1) →
            s.block.rd SCB_STATUS_BUSY = 0 →
          s.answers (.drainCommit who) (fun b => b.rd PWR_STATUS_BLOCK = 1
            ∧ b.pwr = { s.block.pwr with drains := [{ q with committed := true }] }
            ∧ s.block.onlyRegs { b with pwr := s.block.pwr } [PWR_STATUS_BLOCK.key, SCB_STATUS_QUEUED.key])))
      ∧ (∀ i : Fin 64, who = some i → s.answers (.drainTimeout who) (fun b => b.rd (LGT_STATUS_BREACH i) = 1 ∧ b.pwr.drains = []
          ∧ s.block.onlyRegs { b with pwr := s.block.pwr } [(LGT_STATUS_BREACH i).key] ∧ b.pwr = { s.block.pwr with drains := [] }))
      ∧ (who = none → s.answers (.drainTimeout who) (fun b => b.rd PWR_CMD_STATUS_CODE = 1 ∧ b.rd PWR_CMD_STATUS_BUSY = 0
          ∧ b.rd PWR_STATUS_CMD_DONE = 1 ∧ b.rd PWR_STATUS_CMD_FAIL = 1
          ∧ s.block.onlyRegs { b with pwr := s.block.pwr } [PWR_CMD_STATUS_BUSY.key, PWR_CMD_STATUS_CODE.key,
              PWR_STATUS_CMD_DONE.key, PWR_STATUS_CMD_FAIL.key, GLB_INT_PEND_PEND.key]
          ∧ b.pwr = { s.block.pwr with drains := [] })))
    ∧ (∀ n : Fin 16, s.block.running = true → s.block.pwr.target.get n = none → s.block.rplState n = rpInService →
      (s.block.chWork n = true → exec (.channelIdleExpiry n) s = .next s)
      ∧ (s.block.chWork n = false →
        ∀ e ∈ [(pwA0, PWR_CTL_AUTO_A1, pwA1), (pwA1, PWR_CTL_AUTO_S1, pwS1), (pwS1, PWR_CTL_AUTO_S2, pwS2)], s.block.chState n = e.1 →
          (s.block.on e.2.1 = false → exec (.channelIdleExpiry n) s = .next s)
          ∧ (s.block.on e.2.1 = true → (e.2.2 = pwS2 → s.block.harbour = false) →
            s.answers (.channelIdleExpiry n) (fun b => b.rd (PWR_CH_STATUS_MOVING n) = 1
              ∧ b.pwr = { s.block.pwr with target := s.block.pwr.target.set n (some e.2.2)
                                           chLow := if e.2.2 = pwS2 then s.block.pwr.chLow ||| (1 <<< n.val) else s.block.pwr.chLow }
              ∧ s.block.onlyRegs { b with pwr := s.block.pwr } [(PWR_CH_STATUS_MOVING n).key]))))
    ∧ (s.block.blockWork true = true ∨ s.block.on PWR_CTL_AUTO_S3 = false → exec .blockIdleExpiry s = .next s)
    ∧ (s.block.running = true → s.block.on PWR_CTL_AUTO_S3 = true → s.block.blockWork true = false → s.block.pwrCode 4 0 = 0 →
        (∀ n : Fin 16, (s.block.chState n = pwS2 ∨ s.block.chState n = pwOFF) ∧ s.block.pwr.target.get n = none
          ∧ s.block.sliceState n ≠ 0) → (∀ m : Fin 32, (s.block.mod.ledger.get m).presence ≠ 1) → s.block.rd SCB_STATUS_BUSY = 0 →
      s.answers .blockIdleExpiry (fun b => b.rd PWR_STATUS_BLOCK = 1
        ∧ s.block.onlyRegs b [PWR_STATUS_BLOCK.key, SCB_STATUS_QUEUED.key]))

/-- R465, R467, R474 to R476, R479: the end of an entry leaves its channel in its state, in self-refresh with its clocks stopped from S1
on, and in A1 with every rank in power-down; a wake latched meanwhile begins the exit at once; S2 waits for the power manager. An exit leaves the channel in A0. S3 is
reached when every store and write-back has ended: the core, the cache groups and every channel are off. There an enabled wake source
powers them up again, one during the entry is latched, and the exit ends in HOLDOVER with the descriptor cache and the lanes empty;
arrays that fail their check leave every port DISABLED.
Where the condition of an event does not hold nothing changes: the model's choice, log entry 3. -/
def Obligations.EntriesExitsAndWakes : Prop :=
  ∀ s : State,
    (∀ n : Fin 16,
      (s.block.pwr.target.get n = none → exec (.stateEntryDone (some n)) s = .next s)
      ∧ (s.block.pwr.target.get n = some pwS2 → bitOf s.block.pwr.chBad n = false → exec (.stateEntryDone (some n)) s = .next s)
      ∧ (s.block.pwr.drains = [] → ∀ e : RestoreErr,
        (s.block.pwr.target.get n = some pwA1 →
          s.answers (.stateEntryDone (some n)) (fun b => b.chState n = pwA1
            ∧ (s.block.pwr.chWake.get n = false → b.pwr.target.get n = none ∧ b.rd (PWR_CH_STATUS_MOVING n) = 0)
            ∧ (s.block.pwr.chWake.get n = true → b.pwr.target.get n = some pwA0 ∧ b.rd (PWR_CH_STATUS_MOVING n) = 1)
            ∧ b.pwr.chWake.get n = false ∧ (∀ m : Nat, m ≠ n.val → b.pwr.target.get m = s.block.pwr.target.get m)
            ∧ (∀ i ∈ s.block.powerSubs n, ∀ r : Nat, r < s.block.subRanks i → r ∉ (s.block.subs.get i).selfRef → r ∈ (b.subs.get i).pd)
            ∧ (∀ j : Nat, (b.subs.get j).rq = (s.block.subs.get j).rq ∧ (b.subs.get j).wq = (s.block.subs.get j).wq
                ∧ (b.subs.get j).banks = (s.block.subs.get j).banks ∧ (b.subs.get j).selfRef = (s.block.subs.get j).selfRef)
            ∧ s.block.onlyRegs { b with pwr := s.block.pwr, subs := s.block.subs }
                [(PWR_CH_STATUS_STATE n).key, (PWR_CH_STATUS_MOVING n).key]))
        ∧ (s.block.pwr.target.get n = some pwS1 → s.block.pwr.chWake.get n = false →
          s.answers (.stateEntryDone (some n)) (fun b => b.chState n = pwS1 ∧ b.pwr.target.get n = none
            ∧ (∀ i ∈ [2 * n.val, 2 * n.val + 1], (b.subs.get i).selfRef = List.range (s.block.subRanks i)
                ∧ (b.subs.get i).ckStop = true ∧ (b.subs.get i).ticking = false ∧ b.rd (PHY_STATUS_CK_RUNNING i) = 0)
            ∧ (∀ j : Nat, j ≠ 2 * n.val → j ≠ 2 * n.val + 1 → b.subs.get j = s.block.subs.get j)
            ∧ s.block.onlyRegs { b with pwr := s.block.pwr, subs := s.block.subs } [(PWR_CH_STATUS_STATE n).key,
                (PWR_CH_STATUS_MOVING n).key, (PHY_STATUS_CK_RUNNING (2 * n)).key, (PHY_STATUS_CK_RUNNING (2 * n + 1)).key,
                (PHY_STATUS_TRACK_FROZEN (2 * n)).key, (PHY_STATUS_TRACK_FROZEN (2 * n + 1)).key,
                (SCH_STATUS_RAA_BLOCK (2 * n)).key, (SCH_STATUS_RAA_BLOCK (2 * n + 1)).key, GLB_INT_PEND_PEND.key]))
        ∧ (s.block.pwr.target.get n = some pwS2 → bitOf s.block.pwr.chBad n = true → s.block.pwr.chWake.get n = false →
            s.block.subStill (2 * n) → s.block.subStill (2 * n + 1) →
          s.answers (.stateEntryDone (some n)) (fun b => b.chState n = pwS2 ∧ b.pwr.target.get n = none
            ∧ (∀ i ∈ [2 * n.val, 2 * n.val + 1], (b.subs.get i).ckStop = true ∧ (b.subs.get i).rq = [] ∧ (b.subs.get i).wq = [])
            ∧ (∀ j : Nat, j ≠ 2 * n.val → j ≠ 2 * n.val + 1 → b.subs.get j = s.block.subs.get j)
            ∧ b = { s.block with regs := b.regs, pwr := b.pwr, subs := b.subs, cal := b.cal }))
        ∧ (s.block.pwr.target.get n = some pwA0 → s.block.rd PWR_STATUS_BLOCK ≠ 2 → s.block.mg.held = [] →
          (s.block.chState n = pwA1 →
            s.answers (.stateExitDone (some n) e) (fun b => b.chState n = pwA0 ∧ b.pwr.target.get n = none
              ∧ b.rd (PWR_CH_STATUS_MOVING n) = 0 ∧ b.pwr.chWake.get n = false
              ∧ (∀ i ∈ s.block.powerSubs n, ∀ r : Nat, r < s.block.subRanks i → r ∉ (s.block.subs.get i).selfRef → r ∉ (b.subs.get i).pd)
              ∧ (∀ j : Nat, (b.subs.get j).rq = (s.block.subs.get j).rq ∧ (b.subs.get j).wq = (s.block.subs.get j).wq
                  ∧ (b.subs.get j).banks = (s.block.subs.get j).banks ∧ (b.subs.get j).selfRef = (s.block.subs.get j).selfRef)
              ∧ s.block.onlyRegs { b with pwr := s.block.pwr, subs := s.block.subs }
                  [(PWR_CH_STATUS_STATE n).key, (PWR_CH_STATUS_MOVING n).key]))
          ∧ (s.block.chState n = pwS1 → (∀ i ∈ [2 * n.val, 2 * n.val + 1], s.block.subFenced i = false) →
            s.answers (.stateExitDone (some n) e) (fun b => b.chState n = pwA0 ∧ b.pwr.target.get n = none
              ∧ (∀ i ∈ [2 * n.val, 2 * n.val + 1], (b.subs.get i).selfRef = [] ∧ (b.subs.get i).ckStop = false
                  ∧ (s.block.chLockstep n = false ∨ i % 2 = 0 → (b.subs.get i).ticking = true) ∧ b.rd (PHY_STATUS_CK_RUNNING i) = 1)
              ∧ (∀ j : Nat, j ≠ 2 * n.val → j ≠ 2 * n.val + 1 → b.subs.get j = s.block.subs.get j)
              ∧ b.slices = s.block.slices ∧ b.nvm = s.block.nvm ∧ b.mod = s.block.mod))
          ∧ (s.block.chState n = pwS2 → bitOf s.block.pwr.chBad n = true → exec (.stateExitDone (some n) e) s = .next s))))
    ∧ (s.block.s3May = false → exec (.stateEntryDone none) s = .next s)
    ∧ (s.block.s3May = true → (∀ i : Nat, i < 32 → s.block.subStill i) →
      s.answers (.stateEntryDone none) (fun b => b.pwr.inS3 = true ∧ b.nvm = s.block.nvm ∧ b.mod = s.block.mod ∧ b.img = s.block.img
        ∧ (∀ n : Fin 16, s.block.chState n ≠ pwOFF → b.chState n = pwS2)
        ∧ (s.block.pwr.blkWake = false → b.rd PWR_STATUS_BLOCK = 0 ∧ b.pwr.coreLow = true ∧ b.pwr.cgLow = 15
            ∧ ∀ n : Fin 16, s.block.chState n ≠ pwOFF → bitOf b.pwr.chLow n = true)
        ∧ (s.block.pwr.blkWake = true → b.rd PWR_STATUS_BLOCK = 2 ∧ b.pwr.coreLow = false ∧ b.pwr.cgLow = 0
            ∧ ∀ n : Fin 16, bitOf b.pwr.chLow n = decide (s.block.chState n = pwOFF))))
    ∧ (∀ e : RestoreErr, s.block.mg.held = [] → s.block.rd PWR_STATUS_BLOCK = 2 → s.block.pwr.coreBad = false → s.block.pwr.cgBad = 0 → s.block.pwr.chBad = 0 →
      s.answers (.stateExitDone none e) (fun b => b.pwr.inS3 = false ∧ b.rd PWR_STATUS_BLOCK = 0 ∧ b.edt = default
        ∧ b.tnd = { (default : TenderSt) with next := s.block.rd TND_HEAD_HEAD } ∧ b.nvm = s.block.nvm ∧ b.mod.ledger = s.block.mod.ledger
        ∧ (s.block.rd TIM_STATUS_STATE ≠ timAcquire → b.rd TIM_STATUS_STATE = timHoldover) ∧ b.now = s.block.now
        ∧ (e.arrays = true → b.rd PWR_STATUS_RESTORE_ERR = 1 ∧ ∀ p : Fin 6, b.portState p = ptDisabled)))
    ∧ ∀ e ∈ [(0, Instr.pwrWakeIn), (1, .wakeTimer)],
      (s.block.bit PWR_WAKE_EN e.1 = false → exec e.2 s = .next s)
      ∧ (s.block.bit PWR_WAKE_EN e.1 = true →
        (s.block.rd PWR_STATUS_BLOCK = 0 → s.block.pwr.inS3 = false → exec e.2 s = .next s)
        ∧ (s.block.rd PWR_STATUS_BLOCK = 1 → (e.1 = 1 → s.block.pwr.inS3 = true) →
          s.answers e.2 (fun b => b.rd PWR_STATUS_WAKE_LATCHED = 1 ∧ b.pwr = { s.block.pwr with blkWake := true }
            ∧ s.block.onlyRegs { b with pwr := s.block.pwr } [PWR_STATUS_WAKE_LATCHED.key, GLB_INT_PEND_PEND.key]))
        ∧ (s.block.rd PWR_STATUS_BLOCK = 0 → s.block.pwr.inS3 = true → s.block.on THM_STATUS_TRIP = false →
          s.answers e.2 (fun b => b.rd PWR_STATUS_BLOCK = 2 ∧ b.pwr.coreLow = false ∧ b.pwr.cgLow = 0 ∧ b.pwr.blkWake = false
            ∧ (∀ n : Fin 16, bitOf b.pwr.chLow n = decide (s.block.chState n = pwOFF))
            ∧ b.pwr = { s.block.pwr with coreLow := false, cgLow := 0, chLow := b.pwr.chLow, blkWake := false }
            ∧ s.block.onlyRegs { b with pwr := s.block.pwr } [PWR_STATUS_BLOCK.key])))

/-- R485, R486, R488, R490, R491, R548 to R550: a housekeeping round counts itself, takes each site's reading, judges one broken whose
conversion fails, and gives every awake channel its thermal level and DOUBLE. The comparator of a valid site trips the block for good:
whatever runs or waits is abandoned, every awake rank is in self-refresh, and the cache keeps its lines. GOOD follows ON; a GOOD that
does not rise fails the wake, and one that falls is a loss of power: of a channel or its modules both subchannels are fenced, of a cache
group its slices, and of the core everything stops. A new bias record is applied when the supply is acknowledged, and dropped when it is
not. (No training waits or runs.)
Where the condition of an event does not hold nothing changes: the model's choice, log entry 3. -/
def Obligations.ThermalAndPowerEventsAct : Prop :=
  ∀ s : State, s.block.phy.trainQ = [] → s.block.phy.train = [] →
    (∀ (sites : Vector (Option (BitVec 16)) 24) (mods : Vector (Option (BitVec 16)) 96),
      (s.block.pwr.inS3 = true ∨ s.block.pwr.dead = true ∨ s.block.on THM_STATUS_TRIP = true →
        exec (.housekeepingRound sites mods) s = .next s)
      ∧ (s.block.pwr.inS3 = false → s.block.pwr.dead = false → s.block.on THM_STATUS_TRIP = false → s.block.hasSec tyThermal 0 = true →
        s.answers (.housekeepingRound sites mods) (fun b =>
          b.rd THM_ROUND_CNT_CNT = min (s.block.rd THM_ROUND_CNT_CNT + 1) 0xFFFFFFFF
          ∧ (∀ (i : Fin 24) (v : BitVec 16), sites[i] = some v → b.rd (THM_SITE_READING i) = v.toNat)
          ∧ (∀ i : Fin 24, sites[i] = none → s.block.siteBroken i = false → b.siteBroken i = true
              ∧ b.rd (THM_SITE_MASKED i) = 1 ∧ b.rd (THM_SITE_VALID i) = 0 ∧ b.rd (THM_SITE_STUCK i) = 0
              ∧ b.rd THM_STATUS_BROKEN = 1 ∧ (b.flt.recs.get 82).valid = true)
          ∧ (∀ (i : Fin 24) (v : BitVec 16), sites[i] = some v → s.block.siteBroken i = false → s.block.plausible v.toInt = true →
              (s.block.thm.hist.get i).length < s.block.thmByte 0x0D → b.rd (THM_SITE_VALID i) = 1 ∧ b.siteBroken i = false)
          ∧ (∀ i : Fin 32, s.block.chState (i / 2) ≠ pwS2 → s.block.chState (i / 2) ≠ pwOFF →
              b.rd (SCH_THR_LEVEL i) = b.thermalLevel (i / 2) % 8
              ∧ b.on (SCH_REF_STATUS_DOUBLE i) = [2 * (i.val / 2), 2 * (i.val / 2) + 1].any (fun m =>
                  b.on (THM_MOD_DOUBLE m) || b.on (THM_MOD_BROKEN m)))
          ∧ b.nvm = s.block.nvm ∧ b.edt = s.block.edt ∧ b.tnd = s.block.tnd ∧ b.img = s.block.img ∧ b.time = s.block.time)))
    ∧ (∀ site : Fin 24,
      (s.block.on THM_STATUS_TRIP = true ∨ s.block.siteBroken site = true → exec (.thermalTrip site) s = .next s)
      ∧ (s.block.on THM_STATUS_TRIP = false → s.block.siteBroken site = false →
        s.answers (.thermalTrip site) (fun b => b.rd THM_STATUS_TRIP = 1 ∧ b.rd PWR_STATUS_BLOCK = 0
          ∧ (s.block.rd PWR_CMD_STATUS_BUSY = 1 → b.rd PWR_CMD_STATUS_CODE = 8 ∧ b.rd PWR_CMD_STATUS_BUSY = 0)
          ∧ (b.flt.recs.get 83).valid = true
          ∧ b.pwr.drains = [] ∧ b.pwr.target = [] ∧ b.slices = [] ∧ b.intern = [] ∧ b.tnd.lanes = [] ∧ b.scrub = default
          ∧ b.rd SCB_STATUS_BUSY = 0 ∧ b.edt.fetches = [] ∧ b.edt.beyond = [] ∧ b.edt.held = [] ∧ b.edt.updates = []
          ∧ (∀ p : Fin 6, (b.ports.get p).out = [])
          ∧ (∀ i : Fin 32, s.block.chState (i / 2) ≠ pwOFF → s.block.chState (i / 2) ≠ pwS2 → (b.subs.get i).rq = []
              ∧ (b.subs.get i).wq = [] ∧ (b.subs.get i).inflight = [] ∧ (b.subs.get i).selfRef = List.range (s.block.subRanks i)
              ∧ (b.subs.get i).ckStop = true)
          ∧ b.arr = s.block.arr ∧ b.nvm = s.block.nvm ∧ b.img = s.block.img ∧ b.time = s.block.time)))
    ∧ (∀ (n : Fin 16) (level : Bool),
      (bitOf s.block.pwr.chLow n = level → exec (.domainPowerGood (.channel n) level) s = .next s)
      ∧ (bitOf s.block.pwr.chLow n ≠ level →
        s.answers (.domainPowerGood (.channel n) level) (fun b =>
          (∀ k : Nat, bitOf b.pwr.chBad k = if k = n.val then !level else bitOf s.block.pwr.chBad k)
          ∧ b = { s.block with pwr := { s.block.pwr with chBad := b.pwr.chBad } }))
      ∧ exec (.domainPowerGood (.modules n) level) s = .next s
      ∧ (s.block.pwr.coreLow ≠ level →
        s.answers (.domainPowerGood .core level) (fun b => b = { s.block with pwr := { s.block.pwr with coreBad := !level } })))
    ∧ (∀ n : Fin 16,
      (bitOf s.block.pwr.chLow n = true ∨ bitOf s.block.pwr.chBad n = false → exec (.powerGoodTimeout (.channel n)) s = .next s)
      ∧ (bitOf s.block.pwr.chLow n = false → bitOf s.block.pwr.chBad n = true → s.block.mod.phase.get n = 0 →
        s.answers (.powerGoodTimeout (.channel n)) (fun b => b.subFenced (2 * n) = true ∧ b.subFenced (2 * n + 1) = true
          ∧ b.pwr.target.get n = none ∧ b.rd (PWR_CH_STATUS_MOVING n) = 0 ∧ b.nvm = s.block.nvm
          ∧ (∀ m : Nat, m ≠ n.val → b.pwr.target.get m = s.block.pwr.target.get m)
          ∧ ∀ k : Nat, k < 32 → k ≠ 2 * n.val → k ≠ 2 * n.val + 1 → b.subFenced k = s.block.subFenced k))
      ∧ (bitOf s.block.pwr.chLow n = true ∨ bitOf s.block.pwr.chBad n = true → exec (.powerLoss (.channel n)) s = .next s)
      ∧ (bitOf s.block.pwr.chLow n = false → bitOf s.block.pwr.chBad n = false →
        s.answers (.powerLoss (.channel n)) (fun b => b.subFenced (2 * n) = true ∧ b.subFenced (2 * n + 1) = true
          ∧ b.rd (PHY_STATUS_TRAINED (2 * n)) = 0 ∧ b.rd (PHY_STATUS_TRAINED (2 * n + 1)) = 0
          ∧ bitOf b.pwr.chBad n = true ∧ bitOf b.pwr.modBad n = true ∧ b.pwr.target.get n = none ∧ b.nvm = s.block.nvm
          ∧ (∀ i ∈ [2 * n.val, 2 * n.val + 1], (b.subs.get i).rq = [] ∧ (b.subs.get i).wq = [])))
      ∧ (bitOf s.block.pwr.modLow n = false → bitOf s.block.pwr.modBad n = false →
        s.answers (.powerLoss (.modules n)) (fun b => b.subFenced (2 * n) = true ∧ b.subFenced (2 * n + 1) = true
          ∧ b.rd (PHY_STATUS_TRAINED (2 * n)) = 0 ∧ b.rd (PHY_STATUS_TRAINED (2 * n + 1)) = 0
          ∧ bitOf b.pwr.modBad n = true ∧ (b.mod.ledger.get (2 * n)).soft = 0 ∧ (b.mod.ledger.get (2 * n + 1)).soft = 0
          ∧ b.nvm = s.block.nvm)))
    ∧ (∀ g : Fin 4,
      (bitOf s.block.pwr.cgBad g = true → s.block.rd PWR_STATUS_BLOCK = 2 →
        s.answers (.powerGoodTimeout (.cacheGroup g)) (fun b => b.rd PWR_STATUS_BLOCK = 0 ∧ s.block.onlyRegs b [PWR_STATUS_BLOCK.key]))
      ∧ (bitOf s.block.pwr.cgLow g = false → bitOf s.block.pwr.cgBad g = false →
        s.answers (.powerLoss (.cacheGroup g)) (fun b => (∀ i : Fin 4, b.sliceFenced (4 * g.val + i.val) = true)
          ∧ bitOf b.pwr.cgBad g = true ∧ b.nvm = s.block.nvm
          ∧ ∀ c : Nat, c < 16 → c / 4 ≠ g.val → b.sliceFenced c = s.block.sliceFenced c)))
    ∧ (s.block.pwr.coreLow = false → s.block.pwr.coreBad = false →
      s.answers (.powerLoss .core) (fun b => b = { s.block with pwr := { s.block.pwr with coreBad := true, dead := true } }))
    ∧ (s.block.pwr.biasNext = none → exec .sramAck s = .next s ∧ exec .sramAckTimeout s = .next s)
    ∧ ∀ r : BiasRec, s.block.pwr.biasNext = some r →
      s.answers .sramAck (fun b => b = { s.block with pwr := { s.block.pwr with bias := r, biasNext := none } })
      ∧ s.answers .sramAckTimeout (fun b => (b.flt.recs.get 4).valid = true
          ∧ b = { s.block with regs := b.regs, flt := b.flt
                               pwr := { s.block.pwr with biasNext := none, sramCode := sramCodeOf s.block.pwr.bias.mv } }
          ∧ s.block.regsBut b [FLT_STATUS_SEV_SEEN.key, FLT_STATUS_MSG_LOST.key, FLT_MSG_LOST_CNT_CNT.key, GLB_INT_PEND_PEND.key])

/-- R492, R494, R495, R497, R500, R504, R536: a reset returns everything but the NVM to its reset state. The start opens the management
interface after step 1; where the NVM self-test fails, or the start record's COUNTER is 3 or more, it enters harbour mode with its
ENTRY, and else counts the start, sets IN_PROGRESS and stores the record. The stored record lets the image load begin, and a failed
store ends the start. Step 7 ends in READY, and the watchdog ends any other start. READY that has held clears COUNTER, and HBR_CTL.CLEAR
sets it to 2. (What a reset leaves of a store in progress is free; no access waits.)
Where the condition of an event does not hold nothing changes: the model's choice, log entry 3. -/
def Obligations.StartsRunToReadyOrHarbour : Prop :=
  ∀ s : State,
    (∀ e ∈ [Instr.reset, .aonReset],
      s.answers e (fun b => b = { (default : Block) with nvm := b.nvm, fresh := b.fresh }
        ∧ (s.block.stores = [] → s.block.on AUD_STATUS_BUSY = false → b.nvm = s.block.nvm)))
    ∧ (∀ (testEn selfTest : Bool), s.block.start.open_ = true ∨ s.block.start.maker = true ∨ s.block.pwr.dead = true →
        exec (.startSequence testEn selfTest) s = .next s)
    ∧ (s.block.start.open_ = false → s.block.start.maker = false → s.block.pwr.dead = false →
      (∀ selfTest : Bool, s.answers (.startSequence false selfTest) (fun b =>
          b = { s.block with start := { s.block.start with maker := true } }))
      ∧ (s.block.mg.held = [] →
        s.answers (.startSequence true false) (fun b => b.start.open_ = true ∧ b.start.harbour = true ∧ b.rd HBR_STATUS_STATE = 4
          ∧ b.rd HBR_REASON_ENTRY = 2 ∧ b.rd NVM_STATUS_SELFTEST_OK = 0 ∧ b.stores = s.block.stores ∧ b.nvm = s.block.nvm
          ∧ (∀ c : Fin 16, b.sliceState c = 2) ∧ b.edtEntries = 0 ∧ b.start.discWait = 2 ^ 32 - 1))
      ∧ (s.block.mg.held = [] → s.block.stores = [] → ∀ (k : Nat) (r : List Byte),
          s.block.newerCopy startMagic (startOff 0) (startOff 1) 256 = some (k, r) →
        (recCounter r < 3 →
          s.answers (.startSequence true true) (fun b => b.start.open_ = true ∧ b.start.store = some 1 ∧ b.rd HBR_STATUS_STEP = 3
            ∧ recCounter b.startRec = recCounter r + 1 ∧ bitOf (recFlags b.startRec) 0 = true
            ∧ b.rd HBR_STATUS_COUNTER = recCounter r + 1 ∧ b.rd NVM_STATUS_BUSY = 1 ∧ b.nvm = s.block.nvm
            ∧ b.rd HBR_STATUS_STATE = s.block.rd HBR_STATUS_STATE))
        ∧ (3 ≤ recCounter r → bitOf (recFlags r) 0 = false →
          s.answers (.startSequence true true) (fun b => b.start.open_ = true ∧ b.start.harbour = true ∧ b.rd HBR_STATUS_STATE = 4
            ∧ b.rd HBR_REASON_ENTRY = 1 ∧ b.rd HBR_STATUS_COUNTER = recCounter r ∧ b.stores = [] ∧ b.nvm = s.block.nvm
            ∧ (∀ c : Fin 16, b.sliceState c = 2) ∧ b.edtEntries = 0))))
    ∧ (∀ ok : Bool, s.block.storing startKey = false → exec (.startRecordStored ok) s = .next s)
    ∧ (∀ (x : NvStore) (k : Nat), s.block.stores = [x] → x.key = startKey → s.block.start.store = some k →
      s.answers (.startRecordStored true) (fun b => b.nvmBytes x.off x.bytes.length = x.bytes ∧ b.stores = []
        ∧ (∀ a : Nat, a < x.off ∨ x.off + x.bytes.length ≤ a → b.nvmByte a = s.block.nvmByte a)
        ∧ b.rd HBR_STATUS_STEP = 4 ∧ b.rd NVM_STATUS_BUSY = 0
        ∧ b = { s.block with regs := b.regs, stores := [], nvm := b.nvm, start := { s.block.start with store := none } }
        ∧ s.block.regsBut b [HBR_STATUS_STEP.key, NVM_STATUS_BUSY.key])
      ∧ s.answers (.startRecordStored false) (fun b => b.rd HBR_STATUS_STATE = 3 ∧ b.rd HBR_STATUS_STEP = s.block.rd HBR_STATUS_STEP
        ∧ b.start.store = none ∧ (b.flt.recs.get 0).valid = true ∧ b.nvm = s.block.nvm
        ∧ b = { s.block with regs := b.regs, stores := b.stores, flt := b.flt, start := b.start }))
    ∧ (s.block.rd HBR_STATUS_STATE = 2 → exec .ready s = .next s ∧ exec .startWatchdog s = .next s)
    ∧ (s.block.rd HBR_STATUS_STATE = 1 →
      (s.block.rd HBR_STATUS_STEP = 7 →
        s.answers .ready (fun b => b.rd HBR_STATUS_STATE = 2 ∧ b.rd HBR_STATUS_STEP = 8 ∧ b.start = { s.block.start with ready := true }
          ∧ (s.block.rd HBR_CTL_INT_READY = 1 → b.bit GLB_INT_PEND_PEND 2 = true)
          ∧ b = { s.block with regs := b.regs, stores := b.stores, start := b.start }
          ∧ s.block.regsBut b [HBR_STATUS_STATE.key, HBR_STATUS_STEP.key, HBR_STATUS_COUNTER.key, HBR_REASON_CAUSE.key,
              HBR_REASON_SUBCAUSE.key, NVM_STATUS_BUSY.key, GLB_INT_PEND_PEND.key]))
      ∧ (s.block.start.open_ = true →
        s.answers .startWatchdog (fun b => b.rd HBR_STATUS_STATE = 3 ∧ b.rd HBR_STATUS_STEP = s.block.rd HBR_STATUS_STEP
          ∧ (b.flt.recs.get 0).valid = true ∧ b.nvm = s.block.nvm
          ∧ b.start = { s.block.start with store := none, pllWait := 0, discWait := 0, trainWait := 0, initWait := 0 }
          ∧ b = { s.block with regs := b.regs, stores := b.stores, flt := b.flt, start := b.start }
          ∧ s.block.regsBut b [HBR_STATUS_STATE.key, HBR_STATUS_COUNTER.key, HBR_REASON_CAUSE.key, HBR_REASON_SUBCAUSE.key,
              NVM_STATUS_BUSY.key, GLB_INT_PEND_PEND.key, FLT_STATUS_SEV_SEEN.key, FLT_STATUS_MSG_LOST.key, FLT_MSG_LOST_CNT_CNT.key])))
    ∧ (s.block.rd HBR_STATUS_HELD = 1 ∨ s.block.rd HBR_STATUS_STATE ≠ 2 → exec .readyHeld s = .next s)
    ∧ (s.block.rd HBR_STATUS_STATE = 2 → s.block.rd HBR_STATUS_HELD = 0 → s.block.pwr.inS3 = false → s.block.stores = [] →
        s.block.rd NVM_STATUS_SELFTEST_OK = 1 →
      s.answers .readyHeld (fun b => b.rd HBR_STATUS_HELD = 1 ∧ b.rd HBR_STATUS_COUNTER = 0 ∧ recCounter b.startRec = 0
        ∧ b = { s.block with regs := b.regs, stores := b.stores }
        ∧ s.block.regsBut b [HBR_STATUS_HELD.key, HBR_STATUS_COUNTER.key, HBR_REASON_CAUSE.key, HBR_REASON_SUBCAUSE.key,
            NVM_STATUS_BUSY.key]))
    ∧ ∀ (role : Role) (w : Word), s.grants role HBR_CTL_CLEAR.off (withField w HBR_CTL_CLEAR 1) → s.block.stores = [] →
        s.block.rd NVM_STATUS_SELFTEST_OK = 1 →
      s.block.harbour = true ∧ s.block.rd HBR_REASON_ENTRY ≠ 2
      ∧ s.answers (.harbourClear role w) (fun b => b.rd HBR_STATUS_CLEAR_ARMED = 1 ∧ b.rd HBR_STATUS_COUNTER = 2
        ∧ recCounter b.startRec = 2 ∧ bitOf (recFlags b.startRec) 1 = true ∧ b.rd HBR_STATUS_STATE = s.block.rd HBR_STATUS_STATE
        ∧ s.block.wrote b [HBR_CTL_CLEAR.key, HBR_CTL_INT_READY.key, HBR_STATUS_CLEAR_ARMED.key, HBR_STATUS_COUNTER.key, HBR_REASON_CAUSE.key,
            HBR_REASON_SUBCAUSE.key, NVM_STATUS_BUSY.key]
        ∧ b = { s.block with regs := b.regs, mg := b.mg, stores := b.stores })

/-- R511, R512, R515 to R517: a transfer takes the head message, and after drops lets one FLT_MSG_LOST message in with their number. A
FENCE input at 1 sets its unit's bit, and at 0 only its own level. A write of FLT_FENCE_SET fences the units it names, with the sibling
in a lockstep channel. A clear is refused with CLR_REFUSED while the input is 1 or, for a subchannel, while it is not trained, its channel
is not IN_SERVICE or has lost its modules; else it clears the bit. A record clear leaves count and stamps 0, but for a record whose
condition holds. (No training waits or runs, and the audit queue has room.)
Where the condition of an event does not hold nothing changes: the model's choice, log entry 3. -/
def Obligations.FencesMessagesAndRecords : Prop :=
  ∀ s : State, s.block.phy.trainQ = [] → s.block.phy.train = [] →
    (s.block.flt.msgs = [] → exec .faultMessageTransfer s = .next s)
    ∧ (∀ (m : FltMsg) (rest : List FltMsg), s.block.isolated = false → s.block.flt.msgs = m :: rest →
      (s.block.flt.dropped = 0 →
        s.answers .faultMessageTransfer (fun b => b = { s.block with flt := { s.block.flt with msgs := rest } }))
      ∧ (s.block.flt.dropped ≠ 0 → rest.length < 32 →
        s.answers .faultMessageTransfer (fun b => b.flt.dropped = 0 ∧ (b.flt.recs.get 5).valid = true
          ∧ b.flt.msgs = rest ++ [⟨5, min s.block.flt.dropped 255, s.block.rd (FLT_SEV_SEV 5), 1, 0, s.block.now⟩]
          ∧ (∀ k : Nat, k ≠ 5 → b.flt.recs.get k = s.block.flt.recs.get k)
          ∧ s.block.onlyRegs { b with flt := s.block.flt } [FLT_STATUS_SEV_SEEN.key, GLB_INT_PEND_PEND.key])))
    ∧ (∀ u : FenceUnit,
      s.answers (.fenceInput u false) (fun b => b.bit (fenceUnitOf u).1.inputs (fenceUnitOf u).2 = false
        ∧ (∀ j : Nat, j ≠ (fenceUnitOf u).2 → b.bit (fenceUnitOf u).1.inputs j = s.block.bit (fenceUnitOf u).1.inputs j)
        ∧ s.block.onlyRegs b [(fenceUnitOf u).1.inputs.key])
      ∧ s.answers (.fenceInput u true) (fun b => b.bit (fenceUnitOf u).1.inputs (fenceUnitOf u).2 = true
        ∧ b.bit (fenceUnitOf u).1.reg (fenceUnitOf u).2 = true ∧ b.nvm = s.block.nvm
        ∧ (s.block.bit (fenceUnitOf u).1.reg (fenceUnitOf u).2 = true → (fenceUnitOf u).1 ≠ .sub →
            s.block.onlyRegs { b with regu := s.block.regu } [(fenceUnitOf u).1.inputs.key])))
    ∧ (∀ (role : Role) (m : BitVec 6), s.grants role FLT_FENCE_SET_PORT_U.off (m.setWidth 32) → s.block.recRoom 16 = true →
      s.answers (.fenceSet role (.port m)) (fun b => (∀ p : Fin 6, b.bit FLT_FENCE_PORT_U p = (s.block.bit FLT_FENCE_PORT_U p || m.getLsbD p))
        ∧ s.block.wrote b [FLT_FENCE_SET_PORT_U.key, FLT_FENCE_PORT_U.key]
        ∧ b = { s.block with regs := b.regs, mg := b.mg, regu := b.regu }))
    ∧ (∀ (role : Role) (m : BitVec 16), s.grants role FLT_FENCE_SET_SLICE_U.off (m.setWidth 32) → s.block.recRoom 16 = true →
      s.answers (.fenceSet role (.slice m)) (fun b => b.acked
        ∧ (∀ c : Fin 16, b.sliceFenced c = (s.block.sliceFenced c || m.getLsbD c))
        ∧ (∀ c : Fin 16, s.block.sliceFenced c = false → m.getLsbD c = true → (b.slices.get c).q = [])
        ∧ b.subs = s.block.subs ∧ b.nvm = s.block.nvm ∧ b.arr = s.block.arr))
    ∧ (∀ (role : Role) (m : BitVec 32), s.grants role FLT_FENCE_SET_SUB_U.off m → s.block.recRoom 16 = true →
      s.answers (.fenceSet role (.sub m)) (fun b => b.acked
        ∧ (∀ i : Fin 32, m.getLsbD i = true → b.subFenced i = true
            ∧ (s.block.chLockstep (i / 2) = true → b.subFenced (i / 2 * 2) = true ∧ b.subFenced (i / 2 * 2 + 1) = true))
        ∧ (∀ i : Fin 32, m.getLsbD i = false → s.block.chLockstep (i / 2) = false → b.subFenced i = s.block.subFenced i)
        ∧ (∀ i : Fin 32, m.getLsbD i = true → s.block.subFenced i = false → (b.subs.get i).rq = [] ∧ (b.subs.get i).wq = [])
        ∧ b.nvm = s.block.nvm))
    ∧ (∀ (role : Role) (m : BitVec 6), s.grants role FLT_FENCE_CLR_PORT_U.off (m.setWidth 32) → s.block.recRoom 16 = true →
      s.answers (.fenceClear role (.port m)) (fun b =>
        (∀ p : Fin 6, b.bit FLT_FENCE_PORT_U p
          = (s.block.bit FLT_FENCE_PORT_U p && !(m.getLsbD p && !s.block.bit FLT_FENCE_IN_PORT_U p)))
        ∧ ((∃ p : Fin 6, m.getLsbD p = true ∧ s.block.bit FLT_FENCE_IN_PORT_U p = true) → b.rd FLT_STATUS_CLR_REFUSED = 1)
        ∧ s.block.wrote b [FLT_FENCE_CLR_PORT_U.key, FLT_FENCE_PORT_U.key, FLT_STATUS_CLR_REFUSED.key]
        ∧ b = { s.block with regs := b.regs, mg := b.mg }))
    ∧ (∀ (role : Role) (c : Fin 16), s.grants role FLT_FENCE_CLR_SLICE_U.off ((BitVec.ofNat 16 (2 ^ c.val)).setWidth 32) →
        s.block.recRoom 16 = true →
      (s.block.bit FLT_FENCE_IN_SLICE_U c = true →
        s.answers (.fenceClear role (.slice (BitVec.ofNat 16 (2 ^ c.val)))) (fun b => b.rd FLT_STATUS_CLR_REFUSED = 1
          ∧ s.block.wrote b [FLT_FENCE_CLR_SLICE_U.key, FLT_STATUS_CLR_REFUSED.key] ∧ b = { s.block with regs := b.regs, mg := b.mg }))
      ∧ (s.block.bit FLT_FENCE_IN_SLICE_U c = false → s.block.sliceFenced c = true → s.block.sliceState c = 2 →
        s.answers (.fenceClear role (.slice (BitVec.ofNat 16 (2 ^ c.val)))) (fun b => b.sliceFenced c = false
          ∧ b.rd (CCH_CTL_BYPASS c) = 1 ∧ (∀ d : Fin 16, d ≠ c → b.sliceFenced d = s.block.sliceFenced d) ∧ b.nvm = s.block.nvm)))
    ∧ (∀ (role : Role) (i : Fin 32), s.grants role FLT_FENCE_CLR_SUB_U.off (BitVec.ofNat 32 (2 ^ i.val)) → s.block.recRoom 16 = true →
        s.block.chLockstep (i / 2) = false →
      (s.block.bit FLT_FENCE_IN_SUB_U i = true ∨ s.block.rd (PHY_STATUS_TRAINED i) = 0 ∨ s.block.rplState (i / 2) ≠ rpInService
          ∨ bitOf s.block.pwr.modBad (i / 2) = true →
        s.answers (.fenceClear role (.sub (BitVec.ofNat 32 (2 ^ i.val)))) (fun b => b.rd FLT_STATUS_CLR_REFUSED = 1
          ∧ s.block.wrote b [FLT_FENCE_CLR_SUB_U.key, FLT_STATUS_CLR_REFUSED.key] ∧ b = { s.block with regs := b.regs, mg := b.mg }))
      ∧ (s.block.bit FLT_FENCE_IN_SUB_U i = false → s.block.rd (PHY_STATUS_TRAINED i) = 1 → s.block.rplState (i / 2) = rpInService →
          bitOf s.block.pwr.modBad (i / 2) = false → (s.block.subs.get i).noSet = false → (s.block.subs.get i).selfRef = [] →
          s.block.subFenced i = true →
        s.answers (.fenceClear role (.sub (BitVec.ofNat 32 (2 ^ i.val)))) (fun b => b.subFenced i = false
          ∧ (b.subs.get i).ticking = true ∧ (b.subs.get i).tickAt = s.block.now
          ∧ (∀ j : Fin 32, j ≠ i → b.subFenced j = s.block.subFenced j)
          ∧ (∀ j : Nat, j ≠ i.val → b.subs.get j = s.block.subs.get j)
          ∧ b = { s.block with regs := b.regs, mg := b.mg, subs := b.subs, cal := b.cal })))
    ∧ ∀ (role : Role) (index : BitVec 7),
      (s.grants role FLT_REC_CLR_GO.off (withField (withField (0 : Word) FLT_REC_CLR_INDEX index.toNat) FLT_REC_CLR_GO 1) →
        s.answers (.recordClear role index) (fun b =>
          (∀ k : Nat, b.flt.recs.get k = if k = index.toNat ∧ k < 96 then
            { s.block.flt.recs.get k with valid := s.block.live k, count := 0, firstT := if s.block.live k then s.block.now else 0
                                          lastT := if s.block.live k then s.block.now else 0 }
            else s.block.flt.recs.get k)
          ∧ s.block.wrote b [FLT_REC_CLR_GO.key, FLT_REC_CLR_ALL.key, FLT_REC_CLR_INDEX.key]
          ∧ b = { s.block with regs := b.regs, mg := b.mg, flt := { s.block.flt with recs := b.flt.recs } }))
      ∧ (s.grants role FLT_REC_CLR_GO.off
          (withField (withField (withField (0 : Word) FLT_REC_CLR_INDEX index.toNat) FLT_REC_CLR_GO 1) FLT_REC_CLR_ALL 1) →
        s.answers (.recordClearAll role index) (fun b =>
          (∀ k : Nat, k < 96 → b.flt.recs.get k = { s.block.flt.recs.get k with
            valid := s.block.live k, count := 0, firstT := if s.block.live k then s.block.now else 0
            lastT := if s.block.live k then s.block.now else 0 })
          ∧ s.block.wrote b [FLT_REC_CLR_GO.key, FLT_REC_CLR_ALL.key, FLT_REC_CLR_INDEX.key]
          ∧ b = { s.block with regs := b.regs, mg := b.mg, flt := { s.block.flt with recs := b.flt.recs } }))

/-- R526, R528, R530 to R532, R584: the head of the audit queue is stored at NEXT, which advances modulo 4,096; at its return to 0
AUD_WRAPS increments and WRAPPED is set. AUD_CTL.CLEAR sets BUSY, and its end leaves a ring of zeros but for the KIND 4 record at index 0,
with NEXT 1 and AUD_WRAPS 0; while it runs the queue waits. With TRIM_WE the maker's write to the factory trims stores its four bytes;
without it, and by any other role, nothing is stored, and the refused write is answered with MG_ERR and recorded.
Where the condition of an event does not hold nothing changes: the model's choice, log entry 3. -/
def Obligations.AuditRingAndTrims : Prop :=
  ∀ s : State,
    (s.block.mg.held = [] →
      (s.block.on AUD_STATUS_BUSY = true ∨ (s.block.mg.audQ = [] ∧ s.block.mg.latch = []) → exec .auditStore s = .next s)
      ∧ ∀ (r : AudRec) (rest : List AudRec) (i : Nat), s.block.on AUD_STATUS_BUSY = false → s.block.mg.audQ = r :: rest →
          s.block.mg.latch = [] → i = s.block.rd AUD_STATUS_NEXT →
        s.answers .auditStore (fun b => b.nvmBytes (audOff i) 32 = r.bytes (s.block.rd AUD_WRAPS_WRAPS)
          ∧ (∀ a : Nat, a < audOff i ∨ audOff i + 32 ≤ a → b.nvmByte a = s.block.nvmByte a)
          ∧ b.rd AUD_STATUS_NEXT = (i + 1) % 4096 ∧ b.mg = { s.block.mg with audQ := rest }
          ∧ (i ≠ 4095 → b.rd AUD_WRAPS_WRAPS = s.block.rd AUD_WRAPS_WRAPS)
          ∧ (i = 4095 → b.rd AUD_WRAPS_WRAPS = (s.block.rd AUD_WRAPS_WRAPS + 1) % 65536 ∧ b.rd AUD_FLAGS_WRAPPED = 1)
          ∧ b = { s.block with regs := b.regs, nvm := b.nvm, mg := b.mg }
          ∧ s.block.regsBut b [AUD_STATUS_NEXT.key, AUD_WRAPS_WRAPS.key, AUD_FLAGS_WRAPPED.key, GLB_INT_PEND_PEND.key]))
    ∧ (∀ (role : Role) (w : Word), s.grants role AUD_CTL_CLEAR.off (withField w AUD_CTL_CLEAR 1) →
      (s.block.rd AUD_STATUS_BUSY = 1 →
        s.answers (.auditClear role w) (fun b =>
          s.block.wrote b [AUD_CTL_CLEAR.key, AUD_CTL_INT_LOST.key, AUD_CTL_INT_WRAP.key] ∧ b = { s.block with regs := b.regs, mg := b.mg }))
      ∧ (s.block.rd AUD_STATUS_BUSY = 0 →
        s.answers (.auditClear role w) (fun b => b.acked ∧ b.rd AUD_STATUS_BUSY = 1
          ∧ b.mg.latch.get audClearLatch = some { time := s.block.now, kind := 4, role := 3, outcome := 0, offset := 0
                                                  old := s.block.rd AUD_WRAPS_WRAPS, new := s.block.rd AUD_STATUS_NEXT }
          ∧ (∀ k : Nat, k ≠ audClearLatch → b.mg.latch.get k = s.block.mg.latch.get k)
          ∧ s.block.regsBut b ([AUD_CTL_CLEAR.key, AUD_CTL_INT_LOST.key, AUD_CTL_INT_WRAP.key, AUD_STATUS_BUSY.key] ++ audKeys)
          ∧ b = { s.block with regs := b.regs, mg := b.mg })))
    ∧ (s.block.rd AUD_STATUS_BUSY = 0 ∨ s.block.mg.latch.get audClearLatch = none → exec .auditClearDone s = .next s)
    ∧ (∀ r : AudRec, s.block.rd AUD_STATUS_BUSY = 1 → s.block.mg.latch.get audClearLatch = some r →
      s.answers .auditClearDone (fun b => b.nvmBytes (audOff 0) 32 = r.bytes 0
        ∧ (∀ a : Nat, 0xA0020 ≤ a → a < 0xC0000 → b.nvmByte a = 0)
        ∧ (∀ a : Nat, a < 0xA0000 ∨ 0xC0000 ≤ a → b.nvmByte a = s.block.nvmByte a)
        ∧ b.rd AUD_STATUS_NEXT = 1 ∧ b.rd AUD_WRAPS_WRAPS = 0 ∧ b.rd AUD_STATUS_BUSY = 0
        ∧ b.mg.latch.get audClearLatch = none ∧ b.mg.audQ = s.block.mg.audQ
        ∧ b = { s.block with regs := b.regs, nvm := b.nvm, mg := { s.block.mg with latch := b.mg.latch } }
        ∧ s.block.regsBut b [AUD_STATUS_NEXT.key, AUD_WRAPS_WRAPS.key, AUD_STATUS_BUSY.key]))
    ∧ ∀ (at_ : BitVec 13) (w : Word), s.block.mgOpen = true → s.block.mg.held = [] → s.block.recRoom 1 = true →
      (s.block.rd NVM_CTL_TRIM_WE = 1 →
        s.answers (.factoryTrimWrite .maker at_ w) (fun b => b.nvmBytes (0xD8000 + 4 * at_.toNat) 4 = leBytes 4 w.toNat
          ∧ (∀ a : Nat, a < 0xD8000 + 4 * at_.toNat ∨ 0xD8004 + 4 * at_.toNat ≤ a → b.nvmByte a = s.block.nvmByte a)
          ∧ (s.block.rd NVM_STATUS_SELFTEST_OK = 1 → b.mg.audQ = s.block.mg.audQ ++ [s.block.writeRec .maker (0x4D8000 + 4 * at_.toNat) 0
              (s.block.readWord (0x4D8000 + 4 * at_.toNat)) w])
          ∧ s.block.wrote b [] ∧ b = { s.block with regs := b.regs, nvm := b.nvm, mg := b.mg }))
      ∧ (s.block.rd NVM_CTL_TRIM_WE = 0 →
        s.answers (.factoryTrimWrite .maker at_ w) (fun b => b.mg.ack = true ∧ b.mg.err = true
          ∧ (s.block.rd NVM_STATUS_SELFTEST_OK = 1 → b.mg.audQ = s.block.mg.audQ ++ [s.block.writeRec .maker (0x4D8000 + 4 * at_.toNat) 4
              (s.block.readWord (0x4D8000 + 4 * at_.toNat)) w])
          ∧ s.block.regsBut b audKeys ∧ b = { s.block with regs := b.regs, mg := b.mg }))
      ∧ ∀ role : Role, role ≠ .maker → s.answers (.factoryTrimWrite role at_ w) (fun b => b.mg.ack = true ∧ b.mg.err = true
          ∧ b.rd ROL_LAST_OFFSET = 0x4D8000 + 4 * at_.toNat ∧ b.rd ROL_LAST_ROLE = role.code
          ∧ b.rd ROL_REFUSED_CNT_CNT = min (s.block.rd ROL_REFUSED_CNT_CNT + 1) 0xFFFFFFFF
          ∧ s.block.regsBut b ([ROL_LAST_REASON.key, ROL_LAST_ROLE.key, ROL_LAST_OFFSET.key, ROL_REFUSED_CNT_CNT.key] ++ audKeys)
          ∧ b = { s.block with regs := b.regs, mg := b.mg })
end

