-- ==== Sys2Proof/Laws/Tab.lean ====
section
/-! SUPPORT. Laws of sparse tables and of the non-volatile store's list: reads after writes, and the canonical form that
every write keeps. -/

namespace Sys2Proof.Machine

variable {α : Type}

/-! ## Reads after writes -/

theorem Tab.get_drop_self [Inhabited α] (t : Tab α) (k : Nat) : (t.drop k).get k = default := by
  induction t with
  | nil => rfl
  | cons e t ih =>
    obtain ⟨j, v⟩ := e
    by_cases h : j = k <;> simp [Tab.drop, Tab.get, h, ih]

theorem Tab.get_drop_of_ne [Inhabited α] (t : Tab α) {j k : Nat} (h : j ≠ k) : (t.drop k).get j = t.get j := by
  induction t with
  | nil => rfl
  | cons e t ih =>
    obtain ⟨i, v⟩ := e
    by_cases hk : i = k
    · subst hk; simp [Tab.drop, Tab.get, ih, Ne.symm h]
    · simp only [Tab.drop, hk, if_false, Tab.get, ih]

theorem Tab.get_put_self [Inhabited α] (t : Tab α) (k : Nat) (v : α) (h : ∀ e ∈ t, e.1 ≠ k) : (t.put k v).get k = v := by
  induction t with
  | nil => simp [Tab.put, Tab.get]
  | cons e t ih =>
    obtain ⟨j, w⟩ := e
    have hj : j ≠ k := h (j, w) (by simp)
    have ht : ∀ e ∈ t, e.1 ≠ k := fun e he => h e (by simp [he])
    by_cases hlt : k < j <;> simp [Tab.put, Tab.get, hlt, hj, ih ht]

theorem Tab.get_put_of_ne [Inhabited α] (t : Tab α) (v : α) {j k : Nat} (h : j ≠ k) : (t.put k v).get j = t.get j := by
  induction t with
  | nil => simp [Tab.put, Tab.get, Ne.symm h]
  | cons e t ih =>
    obtain ⟨i, w⟩ := e
    by_cases hlt : k < i
    · simp [Tab.put, Tab.get, hlt, Ne.symm h]
    · simp only [Tab.put, hlt, if_false, Tab.get, ih]

theorem Tab.not_mem_drop (t : Tab α) (k : Nat) : ∀ e ∈ t.drop k, e.1 ≠ k := by
  induction t with
  | nil => simp [Tab.drop]
  | cons e t ih =>
    obtain ⟨j, v⟩ := e
    by_cases h : j = k
    · simpa [Tab.drop, h] using ih
    · intro e he
      simp only [Tab.drop, h, if_false, List.mem_cons] at he
      rcases he with rfl | he
      · exact h
      · exact ih e he

@[simp] theorem Tab.get_set_self [Inhabited α] [DecidableEq α] (t : Tab α) (k : Nat) (v : α) : (t.set k v).get k = v := by
  unfold Tab.set
  split
  · next h => rw [Tab.get_drop_self, h]
  · exact Tab.get_put_self _ _ _ (Tab.not_mem_drop t k)

theorem Tab.get_set_of_ne [Inhabited α] [DecidableEq α] (t : Tab α) (v : α) {j k : Nat} (h : j ≠ k) :
    (t.set k v).get j = t.get j := by
  unfold Tab.set
  split
  · exact Tab.get_drop_of_ne t h
  · rw [Tab.get_put_of_ne _ _ h, Tab.get_drop_of_ne t h]

/-- Reading any index after a write. -/
theorem Tab.get_set [Inhabited α] [DecidableEq α] (t : Tab α) (j k : Nat) (v : α) :
    (t.set k v).get j = if j = k then v else t.get j := by
  by_cases h : j = k
  · subst h; simp
  · simp [h, Tab.get_set_of_ne t v h]

/-! ## The canonical form -/

theorem Tab.wfFrom_mono [Inhabited α] [DecidableEq α] (t : Tab α) {lo lo' : Nat} (h : lo' ≤ lo) (w : t.wfFrom lo = true) :
    t.wfFrom lo' = true := by
  cases t with
  | nil => rfl
  | cons e t =>
    obtain ⟨j, v⟩ := e
    simp only [Tab.wfFrom, Bool.and_eq_true, decide_eq_true_eq] at w ⊢
    exact ⟨⟨Nat.le_trans h w.1.1, w.1.2⟩, w.2⟩

theorem Tab.wfFrom_drop [Inhabited α] [DecidableEq α] (t : Tab α) (k lo : Nat) (w : t.wfFrom lo = true) :
    (t.drop k).wfFrom lo = true := by
  induction t generalizing lo with
  | nil => rfl
  | cons e t ih =>
    obtain ⟨j, v⟩ := e
    simp only [Tab.wfFrom, Bool.and_eq_true, decide_eq_true_eq] at w
    by_cases h : j = k
    · simp only [Tab.drop, h, if_true]
      exact ih lo (Tab.wfFrom_mono t (by omega) w.2)
    · simp only [Tab.drop, h, if_false, Tab.wfFrom, Bool.and_eq_true, decide_eq_true_eq]
      exact ⟨w.1, ih _ w.2⟩

theorem Tab.wfFrom_put [Inhabited α] [DecidableEq α] (t : Tab α) (k lo : Nat) (v : α) (hv : v ≠ default) (hk : lo ≤ k)
    (hne : ∀ e ∈ t, e.1 ≠ k) (w : t.wfFrom lo = true) : (t.put k v).wfFrom lo = true := by
  induction t generalizing lo with
  | nil => simp [Tab.put, Tab.wfFrom, hv, hk]
  | cons e t ih =>
    obtain ⟨j, x⟩ := e
    have hj : j ≠ k := hne (j, x) (by simp)
    simp only [Tab.wfFrom, Bool.and_eq_true, decide_eq_true_eq] at w
    by_cases hlt : k < j
    · simp only [Tab.put, hlt, if_true, Tab.wfFrom, Bool.and_eq_true, decide_eq_true_eq]
      exact ⟨⟨hk, hv⟩, ⟨by omega, w.1.2⟩, w.2⟩
    · simp only [Tab.put, hlt, if_false, Tab.wfFrom, Bool.and_eq_true, decide_eq_true_eq]
      exact ⟨w.1, ih (j + 1) (by omega) (fun e he => hne e (by simp [he])) w.2⟩

/-- A write keeps the canonical form. -/
theorem Tab.wf_set [Inhabited α] [DecidableEq α] (t : Tab α) (k : Nat) (v : α) (w : t.wf = true) : (t.set k v).wf = true := by
  unfold Tab.set
  split
  · exact Tab.wfFrom_drop t k 0 w
  · next h => exact Tab.wfFrom_put _ k 0 v h (Nat.zero_le _) (Tab.not_mem_drop t k) (Tab.wfFrom_drop t k 0 w)

theorem Tab.wfFrom_filter [Inhabited α] [DecidableEq α] (t : Tab α) (p : Nat × α → Bool) (lo : Nat)
    (w : t.wfFrom lo = true) : Tab.wfFrom lo (List.filter p t) = true := by
  induction t generalizing lo with
  | nil => rfl
  | cons e t ih =>
    obtain ⟨j, v⟩ := e
    simp only [Tab.wfFrom, Bool.and_eq_true, decide_eq_true_eq] at w
    by_cases h : p (j, v) = true
    · rw [List.filter_cons_of_pos h]
      simp only [Tab.wfFrom, Bool.and_eq_true, decide_eq_true_eq]
      exact ⟨w.1, ih _ w.2⟩
    · rw [List.filter_cons_of_neg h]
      exact ih lo (Tab.wfFrom_mono t (by omega) w.2)

/-- Leaving entries out keeps the canonical form. -/
theorem Tab.wf_filter [Inhabited α] [DecidableEq α] (t : Tab α) (p : Nat × α → Bool) (w : t.wf = true) :
    Tab.wf (List.filter p t) = true := Tab.wfFrom_filter t p 0 w

/-! ## Bytes of the store -/

/-- Storing bytes keeps the canonical form. -/
theorem memPut_wf (m : List Host.Cell) (a : Nat) (bs : List Byte) (w : Tab.wf m = true) :
    Tab.wf (memPut m a bs) = true := by
  induction bs generalizing m a with
  | nil => exact w
  | cons x t ih => exact ih _ _ (Tab.wf_set m a x w)

/-- Outside the stored bytes every byte reads as before. -/
theorem memPut_get_of_outside (m : List Host.Cell) (a x : Nat) (bs : List Byte) (h : x < a ∨ a + bs.length ≤ x) :
    Tab.get (memPut m a bs) x = Tab.get m x := by
  induction bs generalizing m a with
  | nil => rfl
  | cons v t ih =>
    simp only [List.length_cons] at h
    rw [memPut, ih _ _ (by omega), Tab.get_set_of_ne _ _ (by omega)]

/-- A stored byte reads back. -/
theorem memPut_get (m : List Host.Cell) (a i : Nat) (bs : List Byte) (h : i < bs.length) :
    Tab.get (memPut m a bs) (a + i) = bs.getD i 0 := by
  induction bs generalizing m a i with
  | nil => simp at h
  | cons v t ih =>
    cases i with
    | zero =>
      rw [memPut, memPut_get_of_outside _ _ _ _ (by omega)]
      simp
    | succ j =>
      have := ih (Tab.set m a v) (a + 1) j (by simpa using h)
      rw [memPut, show a + (j + 1) = a + 1 + j by omega, this]
      simp

end Sys2Proof.Machine
end

