-- ==== Sys2Proof/Laws/State.lean ====
section
/-! SUPPORT. What the named updates of the block leave unchanged, one lemma per field per update, and what a register
field reads after them. -/

namespace Sys2Proof.Machine

variable (b : Block) (f g : Fld) (v n i : Nat) (p q : Bool)

/-! ## `Block.wr` -/

@[simp] theorem Block.wr_work : (b.wr f v).work = b.work := (rfl)
@[simp] theorem Block.wr_nvm : (b.wr f v).nvm = b.nvm := (rfl)
@[simp] theorem Block.wr_time : (b.wr f v).time = b.time := (rfl)
@[simp] theorem Block.wr_lights : (b.wr f v).lights = b.lights := (rfl)
@[simp] theorem Block.wr_lgtSnap : (b.wr f v).lgtSnap = b.lgtSnap := (rfl)
@[simp] theorem Block.wr_lgtRun : (b.wr f v).lgtRun = b.lgtRun := (rfl)
@[simp] theorem Block.wr_mg : (b.wr f v).mg = b.mg := (rfl)
@[simp] theorem Block.wr_flt : (b.wr f v).flt = b.flt := (rfl)
@[simp] theorem Block.wr_img : (b.wr f v).img = b.img := (rfl)
@[simp] theorem Block.wr_edt : (b.wr f v).edt = b.edt := (rfl)
@[simp] theorem Block.wr_ports : (b.wr f v).ports = b.ports := (rfl)
@[simp] theorem Block.wr_slices : (b.wr f v).slices = b.slices := (rfl)
@[simp] theorem Block.wr_arr : (b.wr f v).arr = b.arr := (rfl)
@[simp] theorem Block.wr_regu : (b.wr f v).regu = b.regu := (rfl)
@[simp] theorem Block.wr_subs : (b.wr f v).subs = b.subs := (rfl)
@[simp] theorem Block.wr_intern : (b.wr f v).intern = b.intern := (rfl)
@[simp] theorem Block.wr_phy : (b.wr f v).phy = b.phy := (rfl)
@[simp] theorem Block.wr_cal : (b.wr f v).cal = b.cal := (rfl)
@[simp] theorem Block.wr_stores : (b.wr f v).stores = b.stores := (rfl)
@[simp] theorem Block.wr_ecc : (b.wr f v).ecc = b.ecc := (rfl)
@[simp] theorem Block.wr_scrub : (b.wr f v).scrub = b.scrub := (rfl)
@[simp] theorem Block.wr_tnd : (b.wr f v).tnd = b.tnd := (rfl)
@[simp] theorem Block.wr_mod : (b.wr f v).mod = b.mod := (rfl)
@[simp] theorem Block.wr_ctr : (b.wr f v).ctr = b.ctr := (rfl)
@[simp] theorem Block.wr_pwr : (b.wr f v).pwr = b.pwr := (rfl)
@[simp] theorem Block.wr_thm : (b.wr f v).thm = b.thm := (rfl)
@[simp] theorem Block.wr_start : (b.wr f v).start = b.start := (rfl)
@[simp] theorem Block.wr_nextId : (b.wr f v).nextId = b.nextId := (rfl)
@[simp] theorem Block.wr_fresh : (b.wr f v).fresh = b.fresh := (rfl)

/-! ## `Block.wrB` -/

@[simp] theorem Block.wrB_work : (b.wrB f p).work = b.work := (rfl)
@[simp] theorem Block.wrB_nvm : (b.wrB f p).nvm = b.nvm := (rfl)
@[simp] theorem Block.wrB_time : (b.wrB f p).time = b.time := (rfl)
@[simp] theorem Block.wrB_lights : (b.wrB f p).lights = b.lights := (rfl)
@[simp] theorem Block.wrB_lgtSnap : (b.wrB f p).lgtSnap = b.lgtSnap := (rfl)
@[simp] theorem Block.wrB_lgtRun : (b.wrB f p).lgtRun = b.lgtRun := (rfl)
@[simp] theorem Block.wrB_mg : (b.wrB f p).mg = b.mg := (rfl)
@[simp] theorem Block.wrB_flt : (b.wrB f p).flt = b.flt := (rfl)
@[simp] theorem Block.wrB_img : (b.wrB f p).img = b.img := (rfl)
@[simp] theorem Block.wrB_edt : (b.wrB f p).edt = b.edt := (rfl)
@[simp] theorem Block.wrB_ports : (b.wrB f p).ports = b.ports := (rfl)
@[simp] theorem Block.wrB_slices : (b.wrB f p).slices = b.slices := (rfl)
@[simp] theorem Block.wrB_arr : (b.wrB f p).arr = b.arr := (rfl)
@[simp] theorem Block.wrB_regu : (b.wrB f p).regu = b.regu := (rfl)
@[simp] theorem Block.wrB_subs : (b.wrB f p).subs = b.subs := (rfl)
@[simp] theorem Block.wrB_intern : (b.wrB f p).intern = b.intern := (rfl)
@[simp] theorem Block.wrB_phy : (b.wrB f p).phy = b.phy := (rfl)
@[simp] theorem Block.wrB_cal : (b.wrB f p).cal = b.cal := (rfl)
@[simp] theorem Block.wrB_stores : (b.wrB f p).stores = b.stores := (rfl)
@[simp] theorem Block.wrB_ecc : (b.wrB f p).ecc = b.ecc := (rfl)
@[simp] theorem Block.wrB_scrub : (b.wrB f p).scrub = b.scrub := (rfl)
@[simp] theorem Block.wrB_tnd : (b.wrB f p).tnd = b.tnd := (rfl)
@[simp] theorem Block.wrB_mod : (b.wrB f p).mod = b.mod := (rfl)
@[simp] theorem Block.wrB_ctr : (b.wrB f p).ctr = b.ctr := (rfl)
@[simp] theorem Block.wrB_pwr : (b.wrB f p).pwr = b.pwr := (rfl)
@[simp] theorem Block.wrB_thm : (b.wrB f p).thm = b.thm := (rfl)
@[simp] theorem Block.wrB_start : (b.wrB f p).start = b.start := (rfl)
@[simp] theorem Block.wrB_nextId : (b.wrB f p).nextId = b.nextId := (rfl)
@[simp] theorem Block.wrB_fresh : (b.wrB f p).fresh = b.fresh := (rfl)

/-! ## `Block.addSat` -/

@[simp] theorem Block.addSat_work : (b.addSat f n).work = b.work := (rfl)
@[simp] theorem Block.addSat_nvm : (b.addSat f n).nvm = b.nvm := (rfl)
@[simp] theorem Block.addSat_time : (b.addSat f n).time = b.time := (rfl)
@[simp] theorem Block.addSat_lights : (b.addSat f n).lights = b.lights := (rfl)
@[simp] theorem Block.addSat_lgtSnap : (b.addSat f n).lgtSnap = b.lgtSnap := (rfl)
@[simp] theorem Block.addSat_lgtRun : (b.addSat f n).lgtRun = b.lgtRun := (rfl)
@[simp] theorem Block.addSat_mg : (b.addSat f n).mg = b.mg := (rfl)
@[simp] theorem Block.addSat_flt : (b.addSat f n).flt = b.flt := (rfl)
@[simp] theorem Block.addSat_img : (b.addSat f n).img = b.img := (rfl)
@[simp] theorem Block.addSat_edt : (b.addSat f n).edt = b.edt := (rfl)
@[simp] theorem Block.addSat_ports : (b.addSat f n).ports = b.ports := (rfl)
@[simp] theorem Block.addSat_slices : (b.addSat f n).slices = b.slices := (rfl)
@[simp] theorem Block.addSat_arr : (b.addSat f n).arr = b.arr := (rfl)
@[simp] theorem Block.addSat_regu : (b.addSat f n).regu = b.regu := (rfl)
@[simp] theorem Block.addSat_subs : (b.addSat f n).subs = b.subs := (rfl)
@[simp] theorem Block.addSat_intern : (b.addSat f n).intern = b.intern := (rfl)
@[simp] theorem Block.addSat_phy : (b.addSat f n).phy = b.phy := (rfl)
@[simp] theorem Block.addSat_cal : (b.addSat f n).cal = b.cal := (rfl)
@[simp] theorem Block.addSat_stores : (b.addSat f n).stores = b.stores := (rfl)
@[simp] theorem Block.addSat_ecc : (b.addSat f n).ecc = b.ecc := (rfl)
@[simp] theorem Block.addSat_scrub : (b.addSat f n).scrub = b.scrub := (rfl)
@[simp] theorem Block.addSat_tnd : (b.addSat f n).tnd = b.tnd := (rfl)
@[simp] theorem Block.addSat_mod : (b.addSat f n).mod = b.mod := (rfl)
@[simp] theorem Block.addSat_ctr : (b.addSat f n).ctr = b.ctr := (rfl)
@[simp] theorem Block.addSat_pwr : (b.addSat f n).pwr = b.pwr := (rfl)
@[simp] theorem Block.addSat_thm : (b.addSat f n).thm = b.thm := (rfl)
@[simp] theorem Block.addSat_start : (b.addSat f n).start = b.start := (rfl)
@[simp] theorem Block.addSat_nextId : (b.addSat f n).nextId = b.nextId := (rfl)
@[simp] theorem Block.addSat_fresh : (b.addSat f n).fresh = b.fresh := (rfl)

/-! ## `Block.bump` -/

@[simp] theorem Block.bump_work : (b.bump f).work = b.work := (rfl)
@[simp] theorem Block.bump_nvm : (b.bump f).nvm = b.nvm := (rfl)
@[simp] theorem Block.bump_time : (b.bump f).time = b.time := (rfl)
@[simp] theorem Block.bump_lights : (b.bump f).lights = b.lights := (rfl)
@[simp] theorem Block.bump_lgtSnap : (b.bump f).lgtSnap = b.lgtSnap := (rfl)
@[simp] theorem Block.bump_lgtRun : (b.bump f).lgtRun = b.lgtRun := (rfl)
@[simp] theorem Block.bump_mg : (b.bump f).mg = b.mg := (rfl)
@[simp] theorem Block.bump_flt : (b.bump f).flt = b.flt := (rfl)
@[simp] theorem Block.bump_img : (b.bump f).img = b.img := (rfl)
@[simp] theorem Block.bump_edt : (b.bump f).edt = b.edt := (rfl)
@[simp] theorem Block.bump_ports : (b.bump f).ports = b.ports := (rfl)
@[simp] theorem Block.bump_slices : (b.bump f).slices = b.slices := (rfl)
@[simp] theorem Block.bump_arr : (b.bump f).arr = b.arr := (rfl)
@[simp] theorem Block.bump_regu : (b.bump f).regu = b.regu := (rfl)
@[simp] theorem Block.bump_subs : (b.bump f).subs = b.subs := (rfl)
@[simp] theorem Block.bump_intern : (b.bump f).intern = b.intern := (rfl)
@[simp] theorem Block.bump_phy : (b.bump f).phy = b.phy := (rfl)
@[simp] theorem Block.bump_cal : (b.bump f).cal = b.cal := (rfl)
@[simp] theorem Block.bump_stores : (b.bump f).stores = b.stores := (rfl)
@[simp] theorem Block.bump_ecc : (b.bump f).ecc = b.ecc := (rfl)
@[simp] theorem Block.bump_scrub : (b.bump f).scrub = b.scrub := (rfl)
@[simp] theorem Block.bump_tnd : (b.bump f).tnd = b.tnd := (rfl)
@[simp] theorem Block.bump_mod : (b.bump f).mod = b.mod := (rfl)
@[simp] theorem Block.bump_ctr : (b.bump f).ctr = b.ctr := (rfl)
@[simp] theorem Block.bump_pwr : (b.bump f).pwr = b.pwr := (rfl)
@[simp] theorem Block.bump_thm : (b.bump f).thm = b.thm := (rfl)
@[simp] theorem Block.bump_start : (b.bump f).start = b.start := (rfl)
@[simp] theorem Block.bump_nextId : (b.bump f).nextId = b.nextId := (rfl)
@[simp] theorem Block.bump_fresh : (b.bump f).fresh = b.fresh := (rfl)

/-! ## `Block.setBitOf` -/

@[simp] theorem Block.setBitOf_work : (b.setBitOf f i).work = b.work := (rfl)
@[simp] theorem Block.setBitOf_nvm : (b.setBitOf f i).nvm = b.nvm := (rfl)
@[simp] theorem Block.setBitOf_time : (b.setBitOf f i).time = b.time := (rfl)
@[simp] theorem Block.setBitOf_lights : (b.setBitOf f i).lights = b.lights := (rfl)
@[simp] theorem Block.setBitOf_lgtSnap : (b.setBitOf f i).lgtSnap = b.lgtSnap := (rfl)
@[simp] theorem Block.setBitOf_lgtRun : (b.setBitOf f i).lgtRun = b.lgtRun := (rfl)
@[simp] theorem Block.setBitOf_mg : (b.setBitOf f i).mg = b.mg := (rfl)
@[simp] theorem Block.setBitOf_flt : (b.setBitOf f i).flt = b.flt := (rfl)
@[simp] theorem Block.setBitOf_img : (b.setBitOf f i).img = b.img := (rfl)
@[simp] theorem Block.setBitOf_edt : (b.setBitOf f i).edt = b.edt := (rfl)
@[simp] theorem Block.setBitOf_ports : (b.setBitOf f i).ports = b.ports := (rfl)
@[simp] theorem Block.setBitOf_slices : (b.setBitOf f i).slices = b.slices := (rfl)
@[simp] theorem Block.setBitOf_arr : (b.setBitOf f i).arr = b.arr := (rfl)
@[simp] theorem Block.setBitOf_regu : (b.setBitOf f i).regu = b.regu := (rfl)
@[simp] theorem Block.setBitOf_subs : (b.setBitOf f i).subs = b.subs := (rfl)
@[simp] theorem Block.setBitOf_intern : (b.setBitOf f i).intern = b.intern := (rfl)
@[simp] theorem Block.setBitOf_phy : (b.setBitOf f i).phy = b.phy := (rfl)
@[simp] theorem Block.setBitOf_cal : (b.setBitOf f i).cal = b.cal := (rfl)
@[simp] theorem Block.setBitOf_stores : (b.setBitOf f i).stores = b.stores := (rfl)
@[simp] theorem Block.setBitOf_ecc : (b.setBitOf f i).ecc = b.ecc := (rfl)
@[simp] theorem Block.setBitOf_scrub : (b.setBitOf f i).scrub = b.scrub := (rfl)
@[simp] theorem Block.setBitOf_tnd : (b.setBitOf f i).tnd = b.tnd := (rfl)
@[simp] theorem Block.setBitOf_mod : (b.setBitOf f i).mod = b.mod := (rfl)
@[simp] theorem Block.setBitOf_ctr : (b.setBitOf f i).ctr = b.ctr := (rfl)
@[simp] theorem Block.setBitOf_pwr : (b.setBitOf f i).pwr = b.pwr := (rfl)
@[simp] theorem Block.setBitOf_thm : (b.setBitOf f i).thm = b.thm := (rfl)
@[simp] theorem Block.setBitOf_start : (b.setBitOf f i).start = b.start := (rfl)
@[simp] theorem Block.setBitOf_nextId : (b.setBitOf f i).nextId = b.nextId := (rfl)
@[simp] theorem Block.setBitOf_fresh : (b.setBitOf f i).fresh = b.fresh := (rfl)

/-! ## `Block.clearBitOf` -/

@[simp] theorem Block.clearBitOf_work : (b.clearBitOf f i).work = b.work := by unfold Block.clearBitOf; split <;> rfl
@[simp] theorem Block.clearBitOf_nvm : (b.clearBitOf f i).nvm = b.nvm := by unfold Block.clearBitOf; split <;> rfl
@[simp] theorem Block.clearBitOf_time : (b.clearBitOf f i).time = b.time := by unfold Block.clearBitOf; split <;> rfl
@[simp] theorem Block.clearBitOf_lights : (b.clearBitOf f i).lights = b.lights := by unfold Block.clearBitOf; split <;> rfl
@[simp] theorem Block.clearBitOf_lgtSnap : (b.clearBitOf f i).lgtSnap = b.lgtSnap := by unfold Block.clearBitOf; split <;> rfl
@[simp] theorem Block.clearBitOf_lgtRun : (b.clearBitOf f i).lgtRun = b.lgtRun := by unfold Block.clearBitOf; split <;> rfl
@[simp] theorem Block.clearBitOf_mg : (b.clearBitOf f i).mg = b.mg := by unfold Block.clearBitOf; split <;> rfl
@[simp] theorem Block.clearBitOf_flt : (b.clearBitOf f i).flt = b.flt := by unfold Block.clearBitOf; split <;> rfl
@[simp] theorem Block.clearBitOf_img : (b.clearBitOf f i).img = b.img := by unfold Block.clearBitOf; split <;> rfl
@[simp] theorem Block.clearBitOf_edt : (b.clearBitOf f i).edt = b.edt := by unfold Block.clearBitOf; split <;> rfl
@[simp] theorem Block.clearBitOf_ports : (b.clearBitOf f i).ports = b.ports := by unfold Block.clearBitOf; split <;> rfl
@[simp] theorem Block.clearBitOf_slices : (b.clearBitOf f i).slices = b.slices := by unfold Block.clearBitOf; split <;> rfl
@[simp] theorem Block.clearBitOf_arr : (b.clearBitOf f i).arr = b.arr := by unfold Block.clearBitOf; split <;> rfl
@[simp] theorem Block.clearBitOf_regu : (b.clearBitOf f i).regu = b.regu := by unfold Block.clearBitOf; split <;> rfl
@[simp] theorem Block.clearBitOf_subs : (b.clearBitOf f i).subs = b.subs := by unfold Block.clearBitOf; split <;> rfl
@[simp] theorem Block.clearBitOf_intern : (b.clearBitOf f i).intern = b.intern := by unfold Block.clearBitOf; split <;> rfl
@[simp] theorem Block.clearBitOf_phy : (b.clearBitOf f i).phy = b.phy := by unfold Block.clearBitOf; split <;> rfl
@[simp] theorem Block.clearBitOf_cal : (b.clearBitOf f i).cal = b.cal := by unfold Block.clearBitOf; split <;> rfl
@[simp] theorem Block.clearBitOf_stores : (b.clearBitOf f i).stores = b.stores := by unfold Block.clearBitOf; split <;> rfl
@[simp] theorem Block.clearBitOf_ecc : (b.clearBitOf f i).ecc = b.ecc := by unfold Block.clearBitOf; split <;> rfl
@[simp] theorem Block.clearBitOf_scrub : (b.clearBitOf f i).scrub = b.scrub := by unfold Block.clearBitOf; split <;> rfl
@[simp] theorem Block.clearBitOf_tnd : (b.clearBitOf f i).tnd = b.tnd := by unfold Block.clearBitOf; split <;> rfl
@[simp] theorem Block.clearBitOf_mod : (b.clearBitOf f i).mod = b.mod := by unfold Block.clearBitOf; split <;> rfl
@[simp] theorem Block.clearBitOf_ctr : (b.clearBitOf f i).ctr = b.ctr := by unfold Block.clearBitOf; split <;> rfl
@[simp] theorem Block.clearBitOf_pwr : (b.clearBitOf f i).pwr = b.pwr := by unfold Block.clearBitOf; split <;> rfl
@[simp] theorem Block.clearBitOf_thm : (b.clearBitOf f i).thm = b.thm := by unfold Block.clearBitOf; split <;> rfl
@[simp] theorem Block.clearBitOf_start : (b.clearBitOf f i).start = b.start := by unfold Block.clearBitOf; split <;> rfl
@[simp] theorem Block.clearBitOf_nextId : (b.clearBitOf f i).nextId = b.nextId := by unfold Block.clearBitOf; split <;> rfl
@[simp] theorem Block.clearBitOf_fresh : (b.clearBitOf f i).fresh = b.fresh := by unfold Block.clearBitOf; split <;> rfl

/-! ## `Block.intr` -/

@[simp] theorem Block.intr_work : (b.intr i p).work = b.work := by unfold Block.intr; split <;> rfl
@[simp] theorem Block.intr_nvm : (b.intr i p).nvm = b.nvm := by unfold Block.intr; split <;> rfl
@[simp] theorem Block.intr_time : (b.intr i p).time = b.time := by unfold Block.intr; split <;> rfl
@[simp] theorem Block.intr_lights : (b.intr i p).lights = b.lights := by unfold Block.intr; split <;> rfl
@[simp] theorem Block.intr_lgtSnap : (b.intr i p).lgtSnap = b.lgtSnap := by unfold Block.intr; split <;> rfl
@[simp] theorem Block.intr_lgtRun : (b.intr i p).lgtRun = b.lgtRun := by unfold Block.intr; split <;> rfl
@[simp] theorem Block.intr_mg : (b.intr i p).mg = b.mg := by unfold Block.intr; split <;> rfl
@[simp] theorem Block.intr_flt : (b.intr i p).flt = b.flt := by unfold Block.intr; split <;> rfl
@[simp] theorem Block.intr_img : (b.intr i p).img = b.img := by unfold Block.intr; split <;> rfl
@[simp] theorem Block.intr_edt : (b.intr i p).edt = b.edt := by unfold Block.intr; split <;> rfl
@[simp] theorem Block.intr_ports : (b.intr i p).ports = b.ports := by unfold Block.intr; split <;> rfl
@[simp] theorem Block.intr_slices : (b.intr i p).slices = b.slices := by unfold Block.intr; split <;> rfl
@[simp] theorem Block.intr_arr : (b.intr i p).arr = b.arr := by unfold Block.intr; split <;> rfl
@[simp] theorem Block.intr_regu : (b.intr i p).regu = b.regu := by unfold Block.intr; split <;> rfl
@[simp] theorem Block.intr_subs : (b.intr i p).subs = b.subs := by unfold Block.intr; split <;> rfl
@[simp] theorem Block.intr_intern : (b.intr i p).intern = b.intern := by unfold Block.intr; split <;> rfl
@[simp] theorem Block.intr_phy : (b.intr i p).phy = b.phy := by unfold Block.intr; split <;> rfl
@[simp] theorem Block.intr_cal : (b.intr i p).cal = b.cal := by unfold Block.intr; split <;> rfl
@[simp] theorem Block.intr_stores : (b.intr i p).stores = b.stores := by unfold Block.intr; split <;> rfl
@[simp] theorem Block.intr_ecc : (b.intr i p).ecc = b.ecc := by unfold Block.intr; split <;> rfl
@[simp] theorem Block.intr_scrub : (b.intr i p).scrub = b.scrub := by unfold Block.intr; split <;> rfl
@[simp] theorem Block.intr_tnd : (b.intr i p).tnd = b.tnd := by unfold Block.intr; split <;> rfl
@[simp] theorem Block.intr_mod : (b.intr i p).mod = b.mod := by unfold Block.intr; split <;> rfl
@[simp] theorem Block.intr_ctr : (b.intr i p).ctr = b.ctr := by unfold Block.intr; split <;> rfl
@[simp] theorem Block.intr_pwr : (b.intr i p).pwr = b.pwr := by unfold Block.intr; split <;> rfl
@[simp] theorem Block.intr_thm : (b.intr i p).thm = b.thm := by unfold Block.intr; split <;> rfl
@[simp] theorem Block.intr_start : (b.intr i p).start = b.start := by unfold Block.intr; split <;> rfl
@[simp] theorem Block.intr_nextId : (b.intr i p).nextId = b.nextId := by unfold Block.intr; split <;> rfl
@[simp] theorem Block.intr_fresh : (b.intr i p).fresh = b.fresh := by unfold Block.intr; split <;> rfl

/-! ## `Block.wrWork` -/

@[simp] theorem Block.wrWork_regs : (b.wrWork f v).regs = b.regs := (rfl)
@[simp] theorem Block.wrWork_nvm : (b.wrWork f v).nvm = b.nvm := (rfl)
@[simp] theorem Block.wrWork_time : (b.wrWork f v).time = b.time := (rfl)
@[simp] theorem Block.wrWork_lights : (b.wrWork f v).lights = b.lights := (rfl)
@[simp] theorem Block.wrWork_lgtSnap : (b.wrWork f v).lgtSnap = b.lgtSnap := (rfl)
@[simp] theorem Block.wrWork_lgtRun : (b.wrWork f v).lgtRun = b.lgtRun := (rfl)
@[simp] theorem Block.wrWork_mg : (b.wrWork f v).mg = b.mg := (rfl)
@[simp] theorem Block.wrWork_flt : (b.wrWork f v).flt = b.flt := (rfl)
@[simp] theorem Block.wrWork_img : (b.wrWork f v).img = b.img := (rfl)
@[simp] theorem Block.wrWork_edt : (b.wrWork f v).edt = b.edt := (rfl)
@[simp] theorem Block.wrWork_ports : (b.wrWork f v).ports = b.ports := (rfl)
@[simp] theorem Block.wrWork_slices : (b.wrWork f v).slices = b.slices := (rfl)
@[simp] theorem Block.wrWork_arr : (b.wrWork f v).arr = b.arr := (rfl)
@[simp] theorem Block.wrWork_regu : (b.wrWork f v).regu = b.regu := (rfl)
@[simp] theorem Block.wrWork_subs : (b.wrWork f v).subs = b.subs := (rfl)
@[simp] theorem Block.wrWork_intern : (b.wrWork f v).intern = b.intern := (rfl)
@[simp] theorem Block.wrWork_phy : (b.wrWork f v).phy = b.phy := (rfl)
@[simp] theorem Block.wrWork_cal : (b.wrWork f v).cal = b.cal := (rfl)
@[simp] theorem Block.wrWork_stores : (b.wrWork f v).stores = b.stores := (rfl)
@[simp] theorem Block.wrWork_ecc : (b.wrWork f v).ecc = b.ecc := (rfl)
@[simp] theorem Block.wrWork_scrub : (b.wrWork f v).scrub = b.scrub := (rfl)
@[simp] theorem Block.wrWork_tnd : (b.wrWork f v).tnd = b.tnd := (rfl)
@[simp] theorem Block.wrWork_mod : (b.wrWork f v).mod = b.mod := (rfl)
@[simp] theorem Block.wrWork_ctr : (b.wrWork f v).ctr = b.ctr := (rfl)
@[simp] theorem Block.wrWork_pwr : (b.wrWork f v).pwr = b.pwr := (rfl)
@[simp] theorem Block.wrWork_thm : (b.wrWork f v).thm = b.thm := (rfl)
@[simp] theorem Block.wrWork_start : (b.wrWork f v).start = b.start := (rfl)
@[simp] theorem Block.wrWork_nextId : (b.wrWork f v).nextId = b.nextId := (rfl)
@[simp] theorem Block.wrWork_fresh : (b.wrWork f v).fresh = b.fresh := (rfl)

/-! ## `Block.updPort` -/

@[simp] theorem Block.updPort_regs (h : PortSt → PortSt) : (b.updPort n h).regs = b.regs := (rfl)
@[simp] theorem Block.updPort_work (h : PortSt → PortSt) : (b.updPort n h).work = b.work := (rfl)
@[simp] theorem Block.updPort_nvm (h : PortSt → PortSt) : (b.updPort n h).nvm = b.nvm := (rfl)
@[simp] theorem Block.updPort_time (h : PortSt → PortSt) : (b.updPort n h).time = b.time := (rfl)
@[simp] theorem Block.updPort_lights (h : PortSt → PortSt) : (b.updPort n h).lights = b.lights := (rfl)
@[simp] theorem Block.updPort_lgtSnap (h : PortSt → PortSt) : (b.updPort n h).lgtSnap = b.lgtSnap := (rfl)
@[simp] theorem Block.updPort_lgtRun (h : PortSt → PortSt) : (b.updPort n h).lgtRun = b.lgtRun := (rfl)
@[simp] theorem Block.updPort_mg (h : PortSt → PortSt) : (b.updPort n h).mg = b.mg := (rfl)
@[simp] theorem Block.updPort_flt (h : PortSt → PortSt) : (b.updPort n h).flt = b.flt := (rfl)
@[simp] theorem Block.updPort_img (h : PortSt → PortSt) : (b.updPort n h).img = b.img := (rfl)
@[simp] theorem Block.updPort_edt (h : PortSt → PortSt) : (b.updPort n h).edt = b.edt := (rfl)
@[simp] theorem Block.updPort_slices (h : PortSt → PortSt) : (b.updPort n h).slices = b.slices := (rfl)
@[simp] theorem Block.updPort_arr (h : PortSt → PortSt) : (b.updPort n h).arr = b.arr := (rfl)
@[simp] theorem Block.updPort_regu (h : PortSt → PortSt) : (b.updPort n h).regu = b.regu := (rfl)
@[simp] theorem Block.updPort_subs (h : PortSt → PortSt) : (b.updPort n h).subs = b.subs := (rfl)
@[simp] theorem Block.updPort_intern (h : PortSt → PortSt) : (b.updPort n h).intern = b.intern := (rfl)
@[simp] theorem Block.updPort_phy (h : PortSt → PortSt) : (b.updPort n h).phy = b.phy := (rfl)
@[simp] theorem Block.updPort_cal (h : PortSt → PortSt) : (b.updPort n h).cal = b.cal := (rfl)
@[simp] theorem Block.updPort_stores (h : PortSt → PortSt) : (b.updPort n h).stores = b.stores := (rfl)
@[simp] theorem Block.updPort_ecc (h : PortSt → PortSt) : (b.updPort n h).ecc = b.ecc := (rfl)
@[simp] theorem Block.updPort_scrub (h : PortSt → PortSt) : (b.updPort n h).scrub = b.scrub := (rfl)
@[simp] theorem Block.updPort_tnd (h : PortSt → PortSt) : (b.updPort n h).tnd = b.tnd := (rfl)
@[simp] theorem Block.updPort_mod (h : PortSt → PortSt) : (b.updPort n h).mod = b.mod := (rfl)
@[simp] theorem Block.updPort_ctr (h : PortSt → PortSt) : (b.updPort n h).ctr = b.ctr := (rfl)
@[simp] theorem Block.updPort_pwr (h : PortSt → PortSt) : (b.updPort n h).pwr = b.pwr := (rfl)
@[simp] theorem Block.updPort_thm (h : PortSt → PortSt) : (b.updPort n h).thm = b.thm := (rfl)
@[simp] theorem Block.updPort_start (h : PortSt → PortSt) : (b.updPort n h).start = b.start := (rfl)
@[simp] theorem Block.updPort_nextId (h : PortSt → PortSt) : (b.updPort n h).nextId = b.nextId := (rfl)
@[simp] theorem Block.updPort_fresh (h : PortSt → PortSt) : (b.updPort n h).fresh = b.fresh := (rfl)

/-! ## `Block.updSlice` -/

@[simp] theorem Block.updSlice_regs (h : SliceSt → SliceSt) : (b.updSlice n h).regs = b.regs := (rfl)
@[simp] theorem Block.updSlice_work (h : SliceSt → SliceSt) : (b.updSlice n h).work = b.work := (rfl)
@[simp] theorem Block.updSlice_nvm (h : SliceSt → SliceSt) : (b.updSlice n h).nvm = b.nvm := (rfl)
@[simp] theorem Block.updSlice_time (h : SliceSt → SliceSt) : (b.updSlice n h).time = b.time := (rfl)
@[simp] theorem Block.updSlice_lights (h : SliceSt → SliceSt) : (b.updSlice n h).lights = b.lights := (rfl)
@[simp] theorem Block.updSlice_lgtSnap (h : SliceSt → SliceSt) : (b.updSlice n h).lgtSnap = b.lgtSnap := (rfl)
@[simp] theorem Block.updSlice_lgtRun (h : SliceSt → SliceSt) : (b.updSlice n h).lgtRun = b.lgtRun := (rfl)
@[simp] theorem Block.updSlice_mg (h : SliceSt → SliceSt) : (b.updSlice n h).mg = b.mg := (rfl)
@[simp] theorem Block.updSlice_flt (h : SliceSt → SliceSt) : (b.updSlice n h).flt = b.flt := (rfl)
@[simp] theorem Block.updSlice_img (h : SliceSt → SliceSt) : (b.updSlice n h).img = b.img := (rfl)
@[simp] theorem Block.updSlice_edt (h : SliceSt → SliceSt) : (b.updSlice n h).edt = b.edt := (rfl)
@[simp] theorem Block.updSlice_ports (h : SliceSt → SliceSt) : (b.updSlice n h).ports = b.ports := (rfl)
@[simp] theorem Block.updSlice_arr (h : SliceSt → SliceSt) : (b.updSlice n h).arr = b.arr := (rfl)
@[simp] theorem Block.updSlice_regu (h : SliceSt → SliceSt) : (b.updSlice n h).regu = b.regu := (rfl)
@[simp] theorem Block.updSlice_subs (h : SliceSt → SliceSt) : (b.updSlice n h).subs = b.subs := (rfl)
@[simp] theorem Block.updSlice_intern (h : SliceSt → SliceSt) : (b.updSlice n h).intern = b.intern := (rfl)
@[simp] theorem Block.updSlice_phy (h : SliceSt → SliceSt) : (b.updSlice n h).phy = b.phy := (rfl)
@[simp] theorem Block.updSlice_cal (h : SliceSt → SliceSt) : (b.updSlice n h).cal = b.cal := (rfl)
@[simp] theorem Block.updSlice_stores (h : SliceSt → SliceSt) : (b.updSlice n h).stores = b.stores := (rfl)
@[simp] theorem Block.updSlice_ecc (h : SliceSt → SliceSt) : (b.updSlice n h).ecc = b.ecc := (rfl)
@[simp] theorem Block.updSlice_scrub (h : SliceSt → SliceSt) : (b.updSlice n h).scrub = b.scrub := (rfl)
@[simp] theorem Block.updSlice_tnd (h : SliceSt → SliceSt) : (b.updSlice n h).tnd = b.tnd := (rfl)
@[simp] theorem Block.updSlice_mod (h : SliceSt → SliceSt) : (b.updSlice n h).mod = b.mod := (rfl)
@[simp] theorem Block.updSlice_ctr (h : SliceSt → SliceSt) : (b.updSlice n h).ctr = b.ctr := (rfl)
@[simp] theorem Block.updSlice_pwr (h : SliceSt → SliceSt) : (b.updSlice n h).pwr = b.pwr := (rfl)
@[simp] theorem Block.updSlice_thm (h : SliceSt → SliceSt) : (b.updSlice n h).thm = b.thm := (rfl)
@[simp] theorem Block.updSlice_start (h : SliceSt → SliceSt) : (b.updSlice n h).start = b.start := (rfl)
@[simp] theorem Block.updSlice_nextId (h : SliceSt → SliceSt) : (b.updSlice n h).nextId = b.nextId := (rfl)
@[simp] theorem Block.updSlice_fresh (h : SliceSt → SliceSt) : (b.updSlice n h).fresh = b.fresh := (rfl)

/-! ## `Block.updSub` -/

@[simp] theorem Block.updSub_regs (h : SubSt → SubSt) : (b.updSub n h).regs = b.regs := (rfl)
@[simp] theorem Block.updSub_work (h : SubSt → SubSt) : (b.updSub n h).work = b.work := (rfl)
@[simp] theorem Block.updSub_nvm (h : SubSt → SubSt) : (b.updSub n h).nvm = b.nvm := (rfl)
@[simp] theorem Block.updSub_time (h : SubSt → SubSt) : (b.updSub n h).time = b.time := (rfl)
@[simp] theorem Block.updSub_lights (h : SubSt → SubSt) : (b.updSub n h).lights = b.lights := (rfl)
@[simp] theorem Block.updSub_lgtSnap (h : SubSt → SubSt) : (b.updSub n h).lgtSnap = b.lgtSnap := (rfl)
@[simp] theorem Block.updSub_lgtRun (h : SubSt → SubSt) : (b.updSub n h).lgtRun = b.lgtRun := (rfl)
@[simp] theorem Block.updSub_mg (h : SubSt → SubSt) : (b.updSub n h).mg = b.mg := (rfl)
@[simp] theorem Block.updSub_flt (h : SubSt → SubSt) : (b.updSub n h).flt = b.flt := (rfl)
@[simp] theorem Block.updSub_img (h : SubSt → SubSt) : (b.updSub n h).img = b.img := (rfl)
@[simp] theorem Block.updSub_edt (h : SubSt → SubSt) : (b.updSub n h).edt = b.edt := (rfl)
@[simp] theorem Block.updSub_ports (h : SubSt → SubSt) : (b.updSub n h).ports = b.ports := (rfl)
@[simp] theorem Block.updSub_slices (h : SubSt → SubSt) : (b.updSub n h).slices = b.slices := (rfl)
@[simp] theorem Block.updSub_arr (h : SubSt → SubSt) : (b.updSub n h).arr = b.arr := (rfl)
@[simp] theorem Block.updSub_regu (h : SubSt → SubSt) : (b.updSub n h).regu = b.regu := (rfl)
@[simp] theorem Block.updSub_intern (h : SubSt → SubSt) : (b.updSub n h).intern = b.intern := (rfl)
@[simp] theorem Block.updSub_phy (h : SubSt → SubSt) : (b.updSub n h).phy = b.phy := (rfl)
@[simp] theorem Block.updSub_cal (h : SubSt → SubSt) : (b.updSub n h).cal = b.cal := (rfl)
@[simp] theorem Block.updSub_stores (h : SubSt → SubSt) : (b.updSub n h).stores = b.stores := (rfl)
@[simp] theorem Block.updSub_ecc (h : SubSt → SubSt) : (b.updSub n h).ecc = b.ecc := (rfl)
@[simp] theorem Block.updSub_scrub (h : SubSt → SubSt) : (b.updSub n h).scrub = b.scrub := (rfl)
@[simp] theorem Block.updSub_tnd (h : SubSt → SubSt) : (b.updSub n h).tnd = b.tnd := (rfl)
@[simp] theorem Block.updSub_mod (h : SubSt → SubSt) : (b.updSub n h).mod = b.mod := (rfl)
@[simp] theorem Block.updSub_ctr (h : SubSt → SubSt) : (b.updSub n h).ctr = b.ctr := (rfl)
@[simp] theorem Block.updSub_pwr (h : SubSt → SubSt) : (b.updSub n h).pwr = b.pwr := (rfl)
@[simp] theorem Block.updSub_thm (h : SubSt → SubSt) : (b.updSub n h).thm = b.thm := (rfl)
@[simp] theorem Block.updSub_start (h : SubSt → SubSt) : (b.updSub n h).start = b.start := (rfl)
@[simp] theorem Block.updSub_nextId (h : SubSt → SubSt) : (b.updSub n h).nextId = b.nextId := (rfl)
@[simp] theorem Block.updSub_fresh (h : SubSt → SubSt) : (b.updSub n h).fresh = b.fresh := (rfl)

/-! ## `Block.updLine` -/

@[simp] theorem Block.updLine_regs (h : Line → Line) : (b.updLine n h).regs = b.regs := (rfl)
@[simp] theorem Block.updLine_work (h : Line → Line) : (b.updLine n h).work = b.work := (rfl)
@[simp] theorem Block.updLine_nvm (h : Line → Line) : (b.updLine n h).nvm = b.nvm := (rfl)
@[simp] theorem Block.updLine_time (h : Line → Line) : (b.updLine n h).time = b.time := (rfl)
@[simp] theorem Block.updLine_lights (h : Line → Line) : (b.updLine n h).lights = b.lights := (rfl)
@[simp] theorem Block.updLine_lgtSnap (h : Line → Line) : (b.updLine n h).lgtSnap = b.lgtSnap := (rfl)
@[simp] theorem Block.updLine_lgtRun (h : Line → Line) : (b.updLine n h).lgtRun = b.lgtRun := (rfl)
@[simp] theorem Block.updLine_mg (h : Line → Line) : (b.updLine n h).mg = b.mg := (rfl)
@[simp] theorem Block.updLine_flt (h : Line → Line) : (b.updLine n h).flt = b.flt := (rfl)
@[simp] theorem Block.updLine_img (h : Line → Line) : (b.updLine n h).img = b.img := (rfl)
@[simp] theorem Block.updLine_edt (h : Line → Line) : (b.updLine n h).edt = b.edt := (rfl)
@[simp] theorem Block.updLine_ports (h : Line → Line) : (b.updLine n h).ports = b.ports := (rfl)
@[simp] theorem Block.updLine_slices (h : Line → Line) : (b.updLine n h).slices = b.slices := (rfl)
@[simp] theorem Block.updLine_regu (h : Line → Line) : (b.updLine n h).regu = b.regu := (rfl)
@[simp] theorem Block.updLine_subs (h : Line → Line) : (b.updLine n h).subs = b.subs := (rfl)
@[simp] theorem Block.updLine_intern (h : Line → Line) : (b.updLine n h).intern = b.intern := (rfl)
@[simp] theorem Block.updLine_phy (h : Line → Line) : (b.updLine n h).phy = b.phy := (rfl)
@[simp] theorem Block.updLine_cal (h : Line → Line) : (b.updLine n h).cal = b.cal := (rfl)
@[simp] theorem Block.updLine_stores (h : Line → Line) : (b.updLine n h).stores = b.stores := (rfl)
@[simp] theorem Block.updLine_ecc (h : Line → Line) : (b.updLine n h).ecc = b.ecc := (rfl)
@[simp] theorem Block.updLine_scrub (h : Line → Line) : (b.updLine n h).scrub = b.scrub := (rfl)
@[simp] theorem Block.updLine_tnd (h : Line → Line) : (b.updLine n h).tnd = b.tnd := (rfl)
@[simp] theorem Block.updLine_mod (h : Line → Line) : (b.updLine n h).mod = b.mod := (rfl)
@[simp] theorem Block.updLine_ctr (h : Line → Line) : (b.updLine n h).ctr = b.ctr := (rfl)
@[simp] theorem Block.updLine_pwr (h : Line → Line) : (b.updLine n h).pwr = b.pwr := (rfl)
@[simp] theorem Block.updLine_thm (h : Line → Line) : (b.updLine n h).thm = b.thm := (rfl)
@[simp] theorem Block.updLine_start (h : Line → Line) : (b.updLine n h).start = b.start := (rfl)
@[simp] theorem Block.updLine_nextId (h : Line → Line) : (b.updLine n h).nextId = b.nextId := (rfl)
@[simp] theorem Block.updLine_fresh (h : Line → Line) : (b.updLine n h).fresh = b.fresh := (rfl)

/-! ## `Block.nvmPut` -/

@[simp] theorem Block.nvmPut_regs (bs : List Byte) : (b.nvmPut n bs).regs = b.regs := (rfl)
@[simp] theorem Block.nvmPut_work (bs : List Byte) : (b.nvmPut n bs).work = b.work := (rfl)
@[simp] theorem Block.nvmPut_time (bs : List Byte) : (b.nvmPut n bs).time = b.time := (rfl)
@[simp] theorem Block.nvmPut_lights (bs : List Byte) : (b.nvmPut n bs).lights = b.lights := (rfl)
@[simp] theorem Block.nvmPut_lgtSnap (bs : List Byte) : (b.nvmPut n bs).lgtSnap = b.lgtSnap := (rfl)
@[simp] theorem Block.nvmPut_lgtRun (bs : List Byte) : (b.nvmPut n bs).lgtRun = b.lgtRun := (rfl)
@[simp] theorem Block.nvmPut_mg (bs : List Byte) : (b.nvmPut n bs).mg = b.mg := (rfl)
@[simp] theorem Block.nvmPut_flt (bs : List Byte) : (b.nvmPut n bs).flt = b.flt := (rfl)
@[simp] theorem Block.nvmPut_img (bs : List Byte) : (b.nvmPut n bs).img = b.img := (rfl)
@[simp] theorem Block.nvmPut_edt (bs : List Byte) : (b.nvmPut n bs).edt = b.edt := (rfl)
@[simp] theorem Block.nvmPut_ports (bs : List Byte) : (b.nvmPut n bs).ports = b.ports := (rfl)
@[simp] theorem Block.nvmPut_slices (bs : List Byte) : (b.nvmPut n bs).slices = b.slices := (rfl)
@[simp] theorem Block.nvmPut_arr (bs : List Byte) : (b.nvmPut n bs).arr = b.arr := (rfl)
@[simp] theorem Block.nvmPut_regu (bs : List Byte) : (b.nvmPut n bs).regu = b.regu := (rfl)
@[simp] theorem Block.nvmPut_subs (bs : List Byte) : (b.nvmPut n bs).subs = b.subs := (rfl)
@[simp] theorem Block.nvmPut_intern (bs : List Byte) : (b.nvmPut n bs).intern = b.intern := (rfl)
@[simp] theorem Block.nvmPut_phy (bs : List Byte) : (b.nvmPut n bs).phy = b.phy := (rfl)
@[simp] theorem Block.nvmPut_cal (bs : List Byte) : (b.nvmPut n bs).cal = b.cal := (rfl)
@[simp] theorem Block.nvmPut_stores (bs : List Byte) : (b.nvmPut n bs).stores = b.stores := (rfl)
@[simp] theorem Block.nvmPut_ecc (bs : List Byte) : (b.nvmPut n bs).ecc = b.ecc := (rfl)
@[simp] theorem Block.nvmPut_scrub (bs : List Byte) : (b.nvmPut n bs).scrub = b.scrub := (rfl)
@[simp] theorem Block.nvmPut_tnd (bs : List Byte) : (b.nvmPut n bs).tnd = b.tnd := (rfl)
@[simp] theorem Block.nvmPut_mod (bs : List Byte) : (b.nvmPut n bs).mod = b.mod := (rfl)
@[simp] theorem Block.nvmPut_ctr (bs : List Byte) : (b.nvmPut n bs).ctr = b.ctr := (rfl)
@[simp] theorem Block.nvmPut_pwr (bs : List Byte) : (b.nvmPut n bs).pwr = b.pwr := (rfl)
@[simp] theorem Block.nvmPut_thm (bs : List Byte) : (b.nvmPut n bs).thm = b.thm := (rfl)
@[simp] theorem Block.nvmPut_start (bs : List Byte) : (b.nvmPut n bs).start = b.start := (rfl)
@[simp] theorem Block.nvmPut_nextId (bs : List Byte) : (b.nvmPut n bs).nextId = b.nextId := (rfl)
@[simp] theorem Block.nvmPut_fresh (bs : List Byte) : (b.nvmPut n bs).fresh = b.fresh := (rfl)
/-! ## Register fields -/

/-- A field reads what was written to it, cut to its width. -/
@[simp] theorem Block.rd_wr_self : (b.wr f v).rd f = v % 2 ^ f.width := by
  simp only [Block.rd, Block.wr, fldGet, fldSet, Tab.get_set_self]
  split
  · next h => split at h <;> simp_all
  · next h => split at h <;> simp_all

/-- A write leaves every field of another key alone. -/
theorem Block.rd_wr_of_ne (h : g.key ≠ f.key) : (b.wr f v).rd g = b.rd g := by
  simp [Block.rd, Block.wr, fldGet, fldSet, Tab.get_set_of_ne _ _ h]

/-- Reads of one field see only that field. -/
theorem Block.rd_congr {c : Block} (h : c.regs = b.regs) : c.rd f = b.rd f := by simp [Block.rd, h]

theorem Block.rd_lt_of_rst (h : b.regs = []) : b.rd f = f.rst := by simp [Block.rd, fldGet, h, Tab.get]

@[simp] theorem Block.rd_wrWork : (b.wrWork f v).rd g = b.rd g := (rfl)
@[simp] theorem Block.rd_updPort (h : PortSt → PortSt) : (b.updPort n h).rd g = b.rd g := (rfl)
@[simp] theorem Block.rd_updSlice (h : SliceSt → SliceSt) : (b.updSlice n h).rd g = b.rd g := (rfl)
@[simp] theorem Block.rd_updSub (h : SubSt → SubSt) : (b.updSub n h).rd g = b.rd g := (rfl)
@[simp] theorem Block.rd_updLine (h : Line → Line) : (b.updLine n h).rd g = b.rd g := (rfl)
@[simp] theorem Block.rd_nvmPut (bs : List Byte) : (b.nvmPut n bs).rd g = b.rd g := (rfl)

/-- The interrupt unit writes only its pending bits (R545). -/
theorem Block.rd_intr (h : g.key ≠ Reg.GLB_INT_PEND_PEND.key) : (b.intr i p).rd g = b.rd g := by
  unfold Block.intr Block.setBitOf
  split
  · exact Block.rd_wr_of_ne _ _ _ _ h
  · rfl

theorem Block.rd_wrB_of_ne (h : g.key ≠ f.key) : (b.wrB f p).rd g = b.rd g := Block.rd_wr_of_ne _ _ _ _ h
theorem Block.rd_addSat_of_ne (h : g.key ≠ f.key) : (b.addSat f n).rd g = b.rd g := Block.rd_wr_of_ne _ _ _ _ h
theorem Block.rd_bump_of_ne (h : g.key ≠ f.key) : (b.bump f).rd g = b.rd g := Block.rd_wr_of_ne _ _ _ _ h
theorem Block.rd_setBitOf_of_ne (h : g.key ≠ f.key) : (b.setBitOf f i).rd g = b.rd g := Block.rd_wr_of_ne _ _ _ _ h

@[simp] theorem Block.rd_wrB_self : (b.wrB f p).rd f = (if p then 1 else 0) % 2 ^ f.width := Block.rd_wr_self _ _ _

/-- A saturating count (R1, R3). -/
@[simp] theorem Block.rd_bump_self : (b.bump f).rd f = min (b.rd f + 1) (2 ^ f.width - 1) := by
  rw [Block.bump, Block.addSat, Block.rd_wr_self]
  exact Nat.mod_eq_of_lt (by have := Nat.two_pow_pos f.width; omega)

/-! ## One command on the block -/

/-- A meaning that acts on the block alone answers a next state and leaves the queue. -/
theorem onBlock_next (s : State) (h : Block → Block) : onBlock s h = .next { s with block := h s.block } := rfl

@[simp] theorem forEach_nil {σ α : Type} (s : σ) (h : σ → α → σ) : forEach [] s h = s := rfl
@[simp] theorem forEach_cons {σ α : Type} (a : α) (l : List α) (s : σ) (h : σ → α → σ) :
    forEach (a :: l) s h = forEach l (h s a) h := rfl
theorem forEach_append {σ α : Type} (l m : List α) (s : σ) (h : σ → α → σ) :
    forEach (l ++ m) s h = forEach m (forEach l s h) h := by simp [forEach]

/-- What each round keeps, all of them keep. -/
theorem forEach_keeps {σ α β : Type} (k : σ → β) (l : List α) (s : σ) (h : σ → α → σ) (hk : ∀ s a, k (h s a) = k s) :
    k (forEach l s h) = k s := by
  induction l generalizing s with
  | nil => rfl
  | cons a t ih => rw [forEach_cons, ih, hk]

/-- What each round keeps true stays true. -/
theorem forEach_inv {σ α : Type} (P : σ → Prop) (l : List α) (s : σ) (h : σ → α → σ) (hk : ∀ s a, a ∈ l → P s → P (h s a))
    (h0 : P s) : P (forEach l s h) := by
  induction l generalizing s with
  | nil => exact h0
  | cons a t ih => exact ih _ (fun s x hx => hk s x (by simp [hx])) (hk _ _ (by simp) h0)

/-- Rounds that change nothing change nothing together. -/
theorem forEach_fixed {σ α : Type} (l : List α) (s : σ) (h : σ → α → σ) (hk : ∀ a ∈ l, h s a = s) : forEach l s h = s := by
  induction l with
  | nil => rfl
  | cons a t ih => rw [forEach_cons, hk a (by simp), ih (fun x hx => hk x (by simp [hx]))]

end Sys2Proof.Machine
end

