-- ==== Sys2Proof/Laws/NvmKeep.lean ====
section
/-! SUPPORT. The rules by which an operation is shown to leave the non-volatile store as it is. -/

namespace Sys2Proof.Machine

/-- The block's store is `n`. -/
def KeepNvm (n : List Host.Cell) (b : Block) : Prop := b.nvm = n
/-- The store of a pair's block is `n`. -/
def KeepNvm1 {α : Type} (n : List Host.Cell) (p : Block × α) : Prop := p.1.nvm = n
/-- The store of a pair's block is `n`. -/
def KeepNvm2 {α : Type} (n : List Host.Cell) (p : α × Block) : Prop := p.2.nvm = n

theorem keepNvm_refl (b : Block) : KeepNvm b.nvm b := rfl

theorem keepNvm_intro {c d : Block} (h : KeepNvm d.nvm c) : c.nvm = d.nvm := h

theorem keepNvm_id (b : Block) : KeepNvm b.nvm (id b) := rfl

theorem keepNvm_eq {n : List Host.Cell} {c d : Block} (e : c.nvm = d.nvm) (h : KeepNvm n d) : KeepNvm n c := e.trans h

theorem keepNvm_named {G : Prop} {n : List Host.Cell} (x : Block) (h : KeepNvm n x) (k : KeepNvm n x → G) : G := k h

theorem keepNvm1_named {α : Type} {G : Prop} {n : List Host.Cell} (x : Block × α) (h : KeepNvm1 n x) (k : KeepNvm1 n x → G) : G := k h

/-- A local function to a block is put in its place. -/
theorem keepNvm_fn {α : Type} {G : Prop} (_ : α → Block) (k : G) : G := k
theorem keepNvm_fn2 {α β : Type} {G : Prop} (_ : α → β → Block) (k : G) : G := k

theorem keepNvm_fn3 {α β γ : Type} {G : Prop} (_ : α → β → γ → Block) (k : G) : G := k
theorem keepNvm_fn4 {α β γ δ : Type} {G : Prop} (_ : α → β → γ → δ → Block) (k : G) : G := k

theorem keepNvm_forEach {α : Type} {n : List Host.Cell} {l : List α} {s : Block} {F : Block → α → Block} (h : KeepNvm n s)
    (hF : ∀ c a, KeepNvm n c → KeepNvm n (F c a)) : KeepNvm n (forEach l s F) :=
  forEach_inv (KeepNvm n) l s F (fun c a _ hc => hF c a hc) h

theorem keepNvm_mk {n : List Host.Cell} {d : Block} {x0 : Tab Nat} {x1 : Tab Nat} {x3 : TimeSt} {x4 : Tab LightRt} {x5 : Tab Nat} {x6 : Bool} {x7 : MgmtSt} {x8 : FaultSt} {x9 : ImageSt} {x10 : EdtSt} {x11 : Tab PortSt} {x12 : Tab SliceSt} {x13 : ArraySt} {x14 : ReguSt} {x15 : Tab SubSt} {x16 : List Intern} {x17 : PhySt} {x18 : CalSt} {x19 : List NvStore} {x20 : EccSt} {x21 : ScrubSt} {x22 : TenderSt} {x23 : ModSt} {x24 : CtrSt} {x25 : PwrSt} {x26 : ThmSt} {x27 : StartSt} {x28 : Nat} {x29 : Nat}
    (h : KeepNvm n d) :
    KeepNvm n (Block.mk x0 x1 d.nvm x3 x4 x5 x6 x7 x8 x9 x10 x11 x12 x13 x14 x15 x16 x17 x18 x19 x20 x21 x22 x23 x24 x25 x26 x27 x28 x29) := h

theorem keepNvm1_mk {α : Type} {n : List Host.Cell} {c : Block} {a : α} (h : KeepNvm n c) : KeepNvm1 n (c, a) := h
theorem keepNvm2_mk {α : Type} {n : List Host.Cell} {c : Block} {a : α} (h : KeepNvm n c) : KeepNvm2 n (a, c) := h

theorem keepNvm_ite {n : List Host.Cell} {P : Prop} [Decidable P] {c d : Block} (h : KeepNvm n c) (k : KeepNvm n d) :
    KeepNvm n (if P then c else d) := by by_cases hp : P <;> simp [hp, h, k]
theorem keepNvm1_ite {α : Type} {n : List Host.Cell} {P : Prop} [Decidable P] {c d : Block × α} (h : KeepNvm1 n c)
    (k : KeepNvm1 n d) : KeepNvm1 n (if P then c else d) := by by_cases hp : P <;> simp [hp, h, k]
theorem keepNvm2_ite {α : Type} {n : List Host.Cell} {P : Prop} [Decidable P] {c d : α × Block} (h : KeepNvm2 n c)
    (k : KeepNvm2 n d) : KeepNvm2 n (if P then c else d) := by by_cases hp : P <;> simp [hp, h, k]

theorem keepNvm_of1 {α : Type} {n : List Host.Cell} {p : Block × α} (h : KeepNvm1 n p) : KeepNvm n p.1 := h
theorem keepNvm_of2 {α : Type} {n : List Host.Cell} {p : α × Block} (h : KeepNvm2 n p) : KeepNvm n p.2 := h

theorem keepNvm1_foldl {α β : Type} {n : List Host.Cell} {l : List α} {s : Block × β} {F : Block × β → α → Block × β}
    (h : KeepNvm1 n s) (hF : ∀ c a, KeepNvm1 n c → KeepNvm1 n (F c a)) : KeepNvm1 n (l.foldl F s) :=
  forEach_inv (KeepNvm1 n) l s F (fun c a _ hc => hF c a hc) h
theorem keepNvm2_foldl {α β : Type} {n : List Host.Cell} {l : List α} {s : β × Block} {F : β × Block → α → β × Block}
    (h : KeepNvm2 n s) (hF : ∀ c a, KeepNvm2 n c → KeepNvm2 n (F c a)) : KeepNvm2 n (l.foldl F s) :=
  forEach_inv (KeepNvm2 n) l s F (fun c a _ hc => hF c a hc) h

theorem keepNvm_fst {α : Type} {n : List Host.Cell} {p : Block × α} {x : Block} {y : α} (e : p = (x, y))
    (h : KeepNvm n p.1) : KeepNvm n x := by subst e; exact h

theorem keepNvm_snd {α : Type} {n : List Host.Cell} {p : α × Block} {x : Block} {y : α} (e : p = (y, x))
    (h : KeepNvm n p.2) : KeepNvm n x := by subst e; exact h

end Sys2Proof.Machine
end

