-- ==== Sys2Proof/Laws/Nvm/Ops.lean ====
section
/-! SUPPORT. No operation of Machine/Ops.lean changes the non-volatile store, but for those named. -/

namespace Sys2Proof.Machine

theorem Block.audLost_nvm (b : Block) : (Block.audLost b).nvm = b.nvm := by
  suffices h : KeepNvm b.nvm (Block.audLost b) from h
  have h0 : KeepNvm b.nvm b := rfl
  unfold Block.audLost
  repeat' first
    | with_reducible assumption
    | with_reducible first
      | apply keepNvm_eq (Block.wr_nvm ..)
      | apply keepNvm_eq (Block.bump_nvm ..)
      | apply keepNvm_eq (Block.intr_nvm ..)
    | (show Block.nvm _ = _; dsimp -zeta only; done)
    | (show Block.nvm _ = _; dsimp -zeta only; show KeepNvm _ _)
    | split

theorem Block.audPut_nvm (b : Block) (r : AudRec) : (Block.audPut b r).nvm = b.nvm := by
  suffices h : KeepNvm b.nvm (Block.audPut b r) from h
  have h0 : KeepNvm b.nvm b := rfl
  unfold Block.audPut
  repeat' first
    | with_reducible assumption
    | (extract_lets +onlyGivenNames x; guard_hyp x : Block := _; refine keepNvm_named (n := b.nvm) x ?_ ?_; dsimp -zeta only [x]; clear x; rotate_left; clear_value x; revert x; intro _ _)
    | (extract_lets +onlyGivenNames x; clear_value x; revert x; intro _)
    | with_reducible first
      | apply keepNvm_eq (Block.audLost_nvm ..)
    | (show Block.nvm _ = _; dsimp -zeta only; done)
    | (show Block.nvm _ = _; dsimp -zeta only; show KeepNvm _ _)
    | with_reducible refine keepNvm_ite ?_ ?_
    | split

theorem Block.audOwn_nvm (b : Block) (slot : Nat) (r : AudRec) : (Block.audOwn b slot r).nvm = b.nvm := by
  suffices h : KeepNvm b.nvm (Block.audOwn b slot r) from h
  have h0 : KeepNvm b.nvm b := rfl
  unfold Block.audOwn
  repeat' first
    | with_reducible assumption
    | (extract_lets +onlyGivenNames x; guard_hyp x : Block := _; refine keepNvm_named (n := b.nvm) x ?_ ?_; dsimp -zeta only [x]; clear x; rotate_left; clear_value x; revert x; intro _ _)
    | (extract_lets +onlyGivenNames x; clear_value x; revert x; intro _)
    | with_reducible first
      | apply keepNvm_eq (Block.audLost_nvm ..)
    | (show Block.nvm _ = _; dsimp -zeta only; done)
    | (show Block.nvm _ = _; dsimp -zeta only; show KeepNvm _ _)
    | with_reducible refine keepNvm_ite ?_ ?_
    | split

theorem Block.audFlush_nvm (b : Block) : (Block.audFlush b).nvm = b.nvm := by
  suffices h : KeepNvm b.nvm (Block.audFlush b) from h
  have h0 : KeepNvm b.nvm b := rfl
  unfold Block.audFlush
  repeat' first
    | with_reducible assumption
    | (extract_lets +onlyGivenNames x; guard_hyp x : Block := _; refine keepNvm_named (n := b.nvm) x ?_ ?_; dsimp -zeta only [x]; clear x; rotate_left; clear_value x; revert x; intro _ _)
    | (extract_lets +onlyGivenNames x; clear_value x; revert x; intro _)
    | with_reducible first
      | refine keepNvm_forEach ?_ (fun c a hc => ?_)
    | (show Block.nvm _ = _; dsimp -zeta only; done)
    | (show Block.nvm _ = _; dsimp -zeta only; show KeepNvm _ _)
    | with_reducible refine keepNvm_ite ?_ ?_
    | split

theorem Block.msgPut_nvm (b : Block) (m : FltMsg) : (Block.msgPut b m).nvm = b.nvm := by
  suffices h : KeepNvm b.nvm (Block.msgPut b m) from h
  have h0 : KeepNvm b.nvm b := rfl
  unfold Block.msgPut
  repeat' first
    | with_reducible assumption
    | (extract_lets +onlyGivenNames x; guard_hyp x : Block := _; refine keepNvm_named (n := b.nvm) x ?_ ?_; dsimp -zeta only [x]; clear x; rotate_left; clear_value x; revert x; intro _ _)
    | (extract_lets +onlyGivenNames x; clear_value x; revert x; intro _)
    | with_reducible first
      | apply keepNvm_eq (Block.wr_nvm ..)
      | apply keepNvm_eq (Block.bump_nvm ..)
      | apply keepNvm_eq (Block.intr_nvm ..)
    | (show Block.nvm _ = _; dsimp -zeta only; done)
    | (show Block.nvm _ = _; dsimp -zeta only; show KeepNvm _ _)
    | with_reducible refine keepNvm_ite ?_ ?_
    | split

theorem Block.eventAt_nvm (b : Block) (e : Event) (t : Nat) : (Block.eventAt b e t).nvm = b.nvm := by
  suffices h : KeepNvm b.nvm (Block.eventAt b e t) from h
  have h0 : KeepNvm b.nvm b := rfl
  unfold Block.eventAt
  repeat' first
    | with_reducible assumption
    | (extract_lets +onlyGivenNames x; guard_hyp x : Block := _; refine keepNvm_named (n := b.nvm) x ?_ ?_; dsimp -zeta only [x]; clear x; rotate_left; clear_value x; revert x; intro _ _)
    | (extract_lets +onlyGivenNames x; clear_value x; revert x; intro _)
    | with_reducible first
      | apply keepNvm_eq (Block.setBitOf_nvm ..)
      | apply keepNvm_eq (Block.intr_nvm ..)
      | apply keepNvm_eq (Block.msgPut_nvm ..)
    | (show Block.nvm _ = _; dsimp -zeta only; done)
    | (show Block.nvm _ = _; dsimp -zeta only; show KeepNvm _ _)
    | split

theorem Block.event0_nvm (b : Block) (e : Event) : (Block.event0 b e).nvm = b.nvm := by
  suffices h : KeepNvm b.nvm (Block.event0 b e) from h
  have h0 : KeepNvm b.nvm b := rfl
  unfold Block.event0
  repeat' first
    | with_reducible assumption
    | with_reducible first
      | apply keepNvm_eq (Block.eventAt_nvm ..)
    | (show Block.nvm _ = _; dsimp -zeta only; done)
    | (show Block.nvm _ = _; dsimp -zeta only; show KeepNvm _ _)
    | split

theorem Block.descUpd_nvm (b : Block) (u : DescUpd) : (Block.descUpd b u).nvm = b.nvm := by
  suffices h : KeepNvm b.nvm (Block.descUpd b u) from h
  have h0 : KeepNvm b.nvm b := rfl
  unfold Block.descUpd
  repeat' first
    | with_reducible assumption
    | (extract_lets +onlyGivenNames x; guard_hyp x : Block := _; refine keepNvm_named (n := b.nvm) x ?_ ?_; dsimp -zeta only [x]; clear x; rotate_left; clear_value x; revert x; intro _ _)
    | (extract_lets +onlyGivenNames x; clear_value x; revert x; intro _)
    | (show Block.nvm _ = _; dsimp -zeta only; done)
    | (show Block.nvm _ = _; dsimp -zeta only; show KeepNvm _ _)
    | split

theorem Block.newId_nvm (b : Block) : (Block.newId b).2.nvm = b.nvm := by
  suffices h : KeepNvm2 b.nvm (Block.newId b) from h
  have h0 : KeepNvm b.nvm b := rfl
  unfold Block.newId
  repeat' first
    | with_reducible assumption
    | (extract_lets +onlyGivenNames x; guard_hyp x : Block := _; refine keepNvm_named (n := b.nvm) x ?_ ?_; dsimp -zeta only [x]; clear x; rotate_left; clear_value x; revert x; intro _ _)
    | (extract_lets +onlyGivenNames x; clear_value x; revert x; intro _)
    | with_reducible first
      | refine keepNvm1_mk ?_
      | refine keepNvm2_mk ?_
    | (show Block.nvm _ = _; dsimp -zeta only; done)
    | (show Block.nvm _ = _; dsimp -zeta only; show KeepNvm _ _)
    | split
    | with_reducible refine keepNvm_fst (by assumption) ?_
    | with_reducible refine keepNvm_snd (by assumption) ?_
    | assumption

end Sys2Proof.Machine
end

