-- ==== Sys2Proof/Laws/Nvm/Sections.lean ====
section
/-! SUPPORT. No operation of Machine/Sections.lean changes the non-volatile store, but for those named. -/

namespace Sys2Proof.Machine

theorem Block.storeFlip_nvm (b : Block) (bin bit : Nat) : (Block.storeFlip b bin bit).nvm = b.nvm := by
  suffices h : KeepNvm b.nvm (Block.storeFlip b bin bit) from h
  have h0 : KeepNvm b.nvm b := rfl
  unfold Block.storeFlip
  repeat' first
    | with_reducible assumption
    | (extract_lets +onlyGivenNames x; guard_hyp x : Block := _; refine keepNvm_named (n := b.nvm) x ?_ ?_; dsimp -zeta only [x]; clear x; rotate_left; clear_value x; revert x; intro _ _)
    | (extract_lets +onlyGivenNames x; clear_value x; revert x; intro _)
    | (show Block.nvm _ = _; dsimp -zeta only; done)
    | (show Block.nvm _ = _; dsimp -zeta only; show KeepNvm _ _)
    | with_reducible refine keepNvm_ite ?_ ?_
    | split

theorem Block.storeUpset_nvm (b : Block) (flip : Option (Fin 16 × Nat)) : (Block.storeUpset b flip).nvm = b.nvm := by
  suffices h : KeepNvm b.nvm (Block.storeUpset b flip) from h
  have h0 : KeepNvm b.nvm b := rfl
  unfold Block.storeUpset
  repeat' first
    | with_reducible assumption
    | with_reducible first
      | apply keepNvm_eq (Block.storeFlip_nvm ..)
    | (show Block.nvm _ = _; dsimp -zeta only; done)
    | (show Block.nvm _ = _; dsimp -zeta only; show KeepNvm _ _)
    | split

end Sys2Proof.Machine
end

