-- ==== Sys2Proof/Laws/Nvm/Counters.lean ====
section
/-! SUPPORT. No operation of Machine/Counters.lean changes the non-volatile store, but for those named. -/

namespace Sys2Proof.Machine

theorem Block.draw_nvm (b : Block) : (Block.draw b).2.nvm = b.nvm := by
  suffices h : KeepNvm2 b.nvm (Block.draw b) from h
  have h0 : KeepNvm b.nvm b := rfl
  unfold Block.draw
  repeat' first
    | with_reducible assumption
    | (extract_lets +onlyGivenNames x; guard_hyp x : Block := _; refine keepNvm_named (n := b.nvm) x ?_ ?_; dsimp -zeta only [x]; clear x; rotate_left; clear_value x; revert x; intro _ _)
    | (extract_lets +onlyGivenNames x; clear_value x; revert x; intro _)
    | with_reducible first
      | refine keepNvm1_mk ?_
      | refine keepNvm2_mk ?_
    | (show Block.nvm _ = _; dsimp -zeta only; done)
    | (show Block.nvm _ = _; dsimp -zeta only; show KeepNvm _ _)
    | split
    | with_reducible refine keepNvm_fst (by assumption) ?_
    | with_reducible refine keepNvm_snd (by assumption) ?_
    | assumption

theorem Block.ctrRecord_nvm (b : Block) (n skid : Nat) (c : Carry) : (Block.ctrRecord b n skid c).nvm = b.nvm := by
  suffices h : KeepNvm b.nvm (Block.ctrRecord b n skid c) from h
  have h0 : KeepNvm b.nvm b := rfl
  unfold Block.ctrRecord
  repeat' first
    | with_reducible assumption
    | (extract_lets +onlyGivenNames x; guard_hyp x : Block := _; refine keepNvm_named (n := b.nvm) x ?_ ?_; dsimp -zeta only [x]; clear x; rotate_left; clear_value x; revert x; intro _ _)
    | (extract_lets +onlyGivenNames x; clear_value x; revert x; intro _)
    | with_reducible first
      | refine keepNvm_forEach ?_ (fun c a hc => ?_)
      | apply keepNvm_eq (Block.wr_nvm ..)
    | (show Block.nvm _ = _; dsimp -zeta only; done)
    | (show Block.nvm _ = _; dsimp -zeta only; show KeepNvm _ _)
    | with_reducible refine keepNvm_ite ?_ ?_
    | split

theorem Block.ctrCapture_nvm (b : Block) (n skid : Nat) (c : Carry) : (Block.ctrCapture b n skid c).nvm = b.nvm := by
  suffices h : KeepNvm b.nvm (Block.ctrCapture b n skid c) from h
  have h0 : KeepNvm b.nvm b := rfl
  unfold Block.ctrCapture
  repeat' first
    | with_reducible assumption
    | (extract_lets +onlyGivenNames x; guard_hyp x : Block := _; refine keepNvm_named (n := b.nvm) x ?_ ?_; dsimp -zeta only [x]; clear x; rotate_left; clear_value x; revert x; intro _ _)
    | (extract_lets +onlyGivenNames x; clear_value x; revert x; intro _)
    | with_reducible first
      | refine keepNvm1_mk ?_
      | refine keepNvm2_mk ?_
      | apply keepNvm_eq (Block.wr_nvm ..)
      | apply keepNvm_eq (Block.bump_nvm ..)
      | apply keepNvm_eq (Block.intr_nvm ..)
    | with_reducible first
      | apply keepNvm_eq (Block.draw_nvm ..)
      | apply keepNvm_eq (Block.ctrRecord_nvm ..)
    | (show Block.nvm _ = _; dsimp -zeta only; done)
    | (show Block.nvm _ = _; dsimp -zeta only; show KeepNvm _ _)
    | with_reducible refine keepNvm_ite ?_ ?_
    | with_reducible refine keepNvm1_ite ?_ ?_
    | with_reducible refine keepNvm2_ite ?_ ?_
    | split
    | with_reducible refine keepNvm_fst (by assumption) ?_
    | with_reducible refine keepNvm_snd (by assumption) ?_
    | assumption

theorem Block.ctrOverflow_nvm (b : Block) (n : Nat) : (Block.ctrOverflow b n).nvm = b.nvm := by
  suffices h : KeepNvm b.nvm (Block.ctrOverflow b n) from h
  have h0 : KeepNvm b.nvm b := rfl
  unfold Block.ctrOverflow
  repeat' first
    | with_reducible assumption
    | with_reducible first
      | apply keepNvm_eq (Block.setBitOf_nvm ..)
      | apply keepNvm_eq (Block.intr_nvm ..)
    | (show Block.nvm _ = _; dsimp -zeta only; done)
    | (show Block.nvm _ = _; dsimp -zeta only; show KeepNvm _ _)
    | split

theorem Block.ctrAdd_nvm (b : Block) (n amount : Nat) (c : Carry) : (Block.ctrAdd b n amount c).nvm = b.nvm := by
  suffices h : KeepNvm b.nvm (Block.ctrAdd b n amount c) from h
  have h0 : KeepNvm b.nvm b := rfl
  unfold Block.ctrAdd
  repeat' first
    | with_reducible assumption
    | (extract_lets +onlyGivenNames x; guard_hyp x : Block := _; refine keepNvm_named (n := b.nvm) x ?_ ?_; dsimp -zeta only [x]; clear x; rotate_left; clear_value x; revert x; intro _ _)
    | (extract_lets +onlyGivenNames x; clear_value x; revert x; intro _)
    | with_reducible first
      | apply keepNvm_eq (Block.ctrCapture_nvm ..)
      | apply keepNvm_eq (Block.ctrOverflow_nvm ..)
    | (show Block.nvm _ = _; dsimp -zeta only; done)
    | (show Block.nvm _ = _; dsimp -zeta only; show KeepNvm _ _)
    | with_reducible refine keepNvm_ite ?_ ?_
    | split

theorem Block.count_nvm (b : Block) (u : Nat × Nat) (code amount : Nat) (c : Carry) : (Block.count b u code amount c).nvm = b.nvm := by
  suffices h : KeepNvm b.nvm (Block.count b u code amount c) from h
  have h0 : KeepNvm b.nvm b := rfl
  unfold Block.count
  repeat' first
    | with_reducible assumption
    | (extract_lets +onlyGivenNames x; guard_hyp x : Block := _; refine keepNvm_named (n := b.nvm) x ?_ ?_; dsimp -zeta only [x]; clear x; rotate_left; clear_value x; revert x; intro _ _)
    | (extract_lets +onlyGivenNames x; clear_value x; revert x; intro _)
    | with_reducible first
      | refine keepNvm_forEach ?_ (fun c a hc => ?_)
      | apply keepNvm_eq (Block.ctrAdd_nvm ..)
    | (show Block.nvm _ = _; dsimp -zeta only; done)
    | (show Block.nvm _ = _; dsimp -zeta only; show KeepNvm _ _)
    | with_reducible refine keepNvm_ite ?_ ?_
    | split

theorem Block.countSlot_nvm (b : Block) (s k : Nat) : (Block.countSlot b s k).nvm = b.nvm := by
  suffices h : KeepNvm b.nvm (Block.countSlot b s k) from h
  have h0 : KeepNvm b.nvm b := rfl
  unfold Block.countSlot
  repeat' first
    | with_reducible assumption
    | (extract_lets +onlyGivenNames x; guard_hyp x : Block := _; refine keepNvm_named (n := b.nvm) x ?_ ?_; dsimp -zeta only [x]; clear x; rotate_left; clear_value x; revert x; intro _ _)
    | (extract_lets +onlyGivenNames x; clear_value x; revert x; intro _)
    | (show Block.nvm _ = _; dsimp -zeta only; done)
    | (show Block.nvm _ = _; dsimp -zeta only; show KeepNvm _ _)
    | with_reducible refine keepNvm_ite ?_ ?_
    | split

theorem Block.ctrLatch_nvm (b : Block) (n : Nat) (restart : Bool) : (Block.ctrLatch b n restart).nvm = b.nvm := by
  suffices h : KeepNvm b.nvm (Block.ctrLatch b n restart) from h
  have h0 : KeepNvm b.nvm b := rfl
  unfold Block.ctrLatch
  repeat' first
    | with_reducible assumption
    | (extract_lets +onlyGivenNames x; guard_hyp x : Block := _; refine keepNvm_named (n := b.nvm) x ?_ ?_; dsimp -zeta only [x]; clear x; rotate_left; clear_value x; revert x; intro _ _)
    | (extract_lets +onlyGivenNames x; clear_value x; revert x; intro _)
    | (show Block.nvm _ = _; dsimp -zeta only; done)
    | (show Block.nvm _ = _; dsimp -zeta only; show KeepNvm _ _)
    | with_reducible refine keepNvm_ite ?_ ?_
    | split

theorem Block.ctrLatchGroups_nvm (b0 : Block) (groups : Nat) : (Block.ctrLatchGroups b0 groups).nvm = b0.nvm := by
  suffices h : KeepNvm b0.nvm (Block.ctrLatchGroups b0 groups) from h
  have h0 : KeepNvm b0.nvm b0 := rfl
  unfold Block.ctrLatchGroups
  repeat' first
    | with_reducible assumption
    | (extract_lets +onlyGivenNames x; guard_hyp x : Block := _; refine keepNvm_named (n := b0.nvm) x ?_ ?_; dsimp -zeta only [x]; clear x; rotate_left; clear_value x; revert x; intro _ _)
    | (extract_lets +onlyGivenNames x; clear_value x; revert x; intro _)
    | with_reducible first
      | refine keepNvm_forEach ?_ (fun c a hc => ?_)
      | apply keepNvm_eq (Block.ctrLatch_nvm ..)
    | (show Block.nvm _ = _; dsimp -zeta only; done)
    | (show Block.nvm _ = _; dsimp -zeta only; show KeepNvm _ _)
    | with_reducible refine keepNvm_ite ?_ ?_
    | split

theorem Block.snapshot_nvm (b : Block) (sn : Snap) : (Block.snapshot b sn).nvm = b.nvm := by
  suffices h : KeepNvm b.nvm (Block.snapshot b sn) from h
  have h0 : KeepNvm b.nvm b := rfl
  unfold Block.snapshot
  repeat' first
    | with_reducible assumption
    | (extract_lets +onlyGivenNames x; guard_hyp x : Block := _; refine keepNvm_named (n := b.nvm) x ?_ ?_; dsimp -zeta only [x]; clear x; rotate_left; clear_value x; revert x; intro _ _)
    | (extract_lets +onlyGivenNames x; clear_value x; revert x; intro _)
    | with_reducible first
      | refine keepNvm1_foldl ?_ (fun c a hc => ?_)
      | refine keepNvm2_foldl ?_ (fun c a hc => ?_)
      | apply keepNvm_eq (Block.wr_nvm ..)
      | apply keepNvm_eq (Block.bump_nvm ..)
      | apply keepNvm_eq (Block.intr_nvm ..)
    | with_reducible first
      | apply keepNvm_eq (Block.ctrLatchGroups_nvm ..)
    | (show Block.nvm _ = _; dsimp -zeta only; done)
    | (show Block.nvm _ = _; dsimp -zeta only; show KeepNvm _ _)
    | with_reducible refine keepNvm_ite ?_ ?_
    | split
    | with_reducible refine keepNvm_of1 ?_
    | with_reducible refine keepNvm_of2 ?_

theorem Block.snapshotDone_nvm (b : Block) : (Block.snapshotDone b).nvm = b.nvm := by
  suffices h : KeepNvm b.nvm (Block.snapshotDone b) from h
  have h0 : KeepNvm b.nvm b := rfl
  unfold Block.snapshotDone
  repeat' first
    | with_reducible assumption
    | (extract_lets +onlyGivenNames x; guard_hyp x : Block := _; refine keepNvm_named (n := b.nvm) x ?_ ?_; dsimp -zeta only [x]; clear x; rotate_left; clear_value x; revert x; intro _ _)
    | (extract_lets +onlyGivenNames x; clear_value x; revert x; intro _)
    | with_reducible first
      | refine keepNvm_forEach ?_ (fun c a hc => ?_)
      | apply keepNvm_eq (Block.wr_nvm ..)
      | apply keepNvm_eq (Block.intr_nvm ..)
    | (show Block.nvm _ = _; dsimp -zeta only; done)
    | (show Block.nvm _ = _; dsimp -zeta only; show KeepNvm _ _)
    | with_reducible refine keepNvm_ite ?_ ?_
    | split

theorem Block.snapshotCommand_nvm (b : Block) : (Block.snapshotCommand b).nvm = b.nvm := by
  suffices h : KeepNvm b.nvm (Block.snapshotCommand b) from h
  have h0 : KeepNvm b.nvm b := rfl
  unfold Block.snapshotCommand
  repeat' first
    | with_reducible assumption
    | (extract_lets +onlyGivenNames x; guard_hyp x : Block := _; refine keepNvm_named (n := b.nvm) x ?_ ?_; dsimp -zeta only [x]; clear x; rotate_left; clear_value x; revert x; intro _ _)
    | (extract_lets +onlyGivenNames x; clear_value x; revert x; intro _)
    | (show Block.nvm _ = _; dsimp -zeta only; done)
    | (show Block.nvm _ = _; dsimp -zeta only; show KeepNvm _ _)
    | split

theorem Block.snapshotArrives_nvm (b : Block) : (Block.snapshotArrives b).nvm = b.nvm := by
  suffices h : KeepNvm b.nvm (Block.snapshotArrives b) from h
  have h0 : KeepNvm b.nvm b := rfl
  unfold Block.snapshotArrives
  repeat' first
    | with_reducible assumption
    | (extract_lets +onlyGivenNames x; guard_hyp x : Block := _; refine keepNvm_named (n := b.nvm) x ?_ ?_; dsimp -zeta only [x]; clear x; rotate_left; clear_value x; revert x; intro _ _)
    | (extract_lets +onlyGivenNames x; clear_value x; revert x; intro _)
    | with_reducible first
      | apply keepNvm_eq (Block.snapshot_nvm ..)
    | (show Block.nvm _ = _; dsimp -zeta only; done)
    | (show Block.nvm _ = _; dsimp -zeta only; show KeepNvm _ _)
    | split

theorem Block.ctrClear_nvm (b : Block) (clash : Nat) : (Block.ctrClear b clash).nvm = b.nvm := by
  suffices h : KeepNvm b.nvm (Block.ctrClear b clash) from h
  have h0 : KeepNvm b.nvm b := rfl
  unfold Block.ctrClear
  repeat' first
    | with_reducible assumption
    | (extract_lets +onlyGivenNames x; guard_hyp x : Block := _; refine keepNvm_named (n := b.nvm) x ?_ ?_; dsimp -zeta only [x]; clear x; rotate_left; clear_value x; revert x; intro _ _)
    | (extract_lets +onlyGivenNames x; clear_value x; revert x; intro _)
    | with_reducible first
      | refine keepNvm_forEach ?_ (fun c a hc => ?_)
      | apply keepNvm_eq (Block.wr_nvm ..)
      | apply keepNvm_eq (Block.intr_nvm ..)
    | (show Block.nvm _ = _; dsimp -zeta only; done)
    | (show Block.nvm _ = _; dsimp -zeta only; show KeepNvm _ _)
    | with_reducible refine keepNvm_ite ?_ ?_
    | split

theorem Block.ctrLatchLive_nvm (b : Block) : (Block.ctrLatchLive b).nvm = b.nvm := by
  suffices h : KeepNvm b.nvm (Block.ctrLatchLive b) from h
  have h0 : KeepNvm b.nvm b := rfl
  unfold Block.ctrLatchLive
  repeat' first
    | with_reducible assumption
    | (extract_lets +onlyGivenNames x; guard_hyp x : Block := _; refine keepNvm_named (n := b.nvm) x ?_ ?_; dsimp -zeta only [x]; clear x; rotate_left; clear_value x; revert x; intro _ _)
    | (extract_lets +onlyGivenNames x; clear_value x; revert x; intro _)
    | with_reducible first
      | apply keepNvm_eq (Block.wr_nvm ..)
    | (show Block.nvm _ = _; dsimp -zeta only; done)
    | (show Block.nvm _ = _; dsimp -zeta only; show KeepNvm _ _)
    | split

end Sys2Proof.Machine
end

