-- ==== Sys2Proof/Laws/Nvm/Responses.lean ====
section
/-! SUPPORT. No operation of Machine/Responses.lean changes the non-volatile store, but for those named. -/

namespace Sys2Proof.Machine

theorem Block.presentHead_nvm (b : Block) (p : Nat) : (Block.presentHead b p).nvm = b.nvm := by
  suffices h : KeepNvm b.nvm (Block.presentHead b p) from h
  have h0 : KeepNvm b.nvm b := rfl
  unfold Block.presentHead
  repeat' first
    | with_reducible assumption
    | (extract_lets +onlyGivenNames x; guard_hyp x : Block := _; refine keepNvm_named (n := b.nvm) x ?_ ?_; dsimp -zeta only [x]; clear x; rotate_left; clear_value x; revert x; intro _ _)
    | (extract_lets +onlyGivenNames x; clear_value x; revert x; intro _)
    | with_reducible first
      | apply keepNvm_eq (Block.bump_nvm ..)
      | apply keepNvm_eq (Block.updPort_nvm ..)
      | apply keepNvm_eq (Block.count_nvm ..)
    | (show Block.nvm _ = _; dsimp -zeta only; done)
    | (show Block.nvm _ = _; dsimp -zeta only; show KeepNvm _ _)
    | with_reducible refine keepNvm_ite ?_ ?_
    | split

theorem Block.flushPort_nvm (b : Block) (p : Nat) : (Block.flushPort b p).nvm = b.nvm := by
  suffices h : KeepNvm b.nvm (Block.flushPort b p) from h
  have h0 : KeepNvm b.nvm b := rfl
  unfold Block.flushPort
  repeat' first
    | with_reducible assumption
    | (extract_lets +onlyGivenNames x; guard_hyp x : Block := _; refine keepNvm_named (n := b.nvm) x ?_ ?_; dsimp -zeta only [x]; clear x; rotate_left; clear_value x; revert x; intro _ _)
    | (extract_lets +onlyGivenNames x; clear_value x; revert x; intro _)
    | with_reducible first
      | refine keepNvm1_mk ?_
      | refine keepNvm2_mk ?_
      | apply keepNvm_eq (Block.updPort_nvm ..)
      | apply keepNvm_eq (Block.presentHead_nvm ..)
    | (show Block.nvm _ = _; dsimp -zeta only; done)
    | (show Block.nvm _ = _; dsimp -zeta only; show KeepNvm _ _)
    | split
    | with_reducible refine keepNvm_fst (by assumption) ?_
    | with_reducible refine keepNvm_snd (by assumption) ?_
    | assumption

theorem Block.respond_nvm (b : Block) (r : Req) (sec status : Nat) (data : BitVec 512) : (Block.respond b r sec status data).nvm = b.nvm := by
  suffices h : KeepNvm b.nvm (Block.respond b r sec status data) from h
  have h0 : KeepNvm b.nvm b := rfl
  unfold Block.respond
  repeat' first
    | with_reducible assumption
    | (extract_lets +onlyGivenNames x; guard_hyp x : Block := _; refine keepNvm_named (n := b.nvm) x ?_ ?_; dsimp -zeta only [x]; clear x; rotate_left; clear_value x; revert x; intro _ _)
    | (extract_lets +onlyGivenNames x; refine keepNvm_fn x ?_; dsimp -zeta only [x]; clear x)
    | (extract_lets +onlyGivenNames x; refine keepNvm_fn2 x ?_; dsimp -zeta only [x]; clear x)
    | (extract_lets +onlyGivenNames x; refine keepNvm_fn3 x ?_; dsimp -zeta only [x]; clear x)
    | (extract_lets +onlyGivenNames x; refine keepNvm_fn4 x ?_; dsimp -zeta only [x]; clear x)
    | (extract_lets +onlyGivenNames x; clear_value x; revert x; intro _)
    | with_reducible first
      | apply keepNvm_eq (Block.updPort_nvm ..)
      | apply keepNvm_eq (Block.flushPort_nvm ..)
    | (show Block.nvm _ = _; dsimp -zeta only; done)
    | (show Block.nvm _ = _; dsimp -zeta only; show KeepNvm _ _)
    | with_reducible refine keepNvm_ite ?_ ?_
    | split

theorem Block.respondAll_nvm (b : Block) (r : Req) (status : Nat) : (Block.respondAll b r status).nvm = b.nvm := by
  suffices h : KeepNvm b.nvm (Block.respondAll b r status) from h
  have h0 : KeepNvm b.nvm b := rfl
  unfold Block.respondAll
  repeat' first
    | with_reducible assumption
    | with_reducible first
      | refine keepNvm_forEach ?_ (fun c a hc => ?_)
      | apply keepNvm_eq (Block.respond_nvm ..)
    | (show Block.nvm _ = _; dsimp -zeta only; done)
    | (show Block.nvm _ = _; dsimp -zeta only; show KeepNvm _ _)
    | split

end Sys2Proof.Machine
end

