-- ==== Sys2Proof/Laws/Nvm/Ledger.lean ====
section
/-! SUPPORT. No operation of Machine/Ledger.lean changes the non-volatile store, but for those named. -/

namespace Sys2Proof.Machine

theorem Block.storeBegin_nvm (b : Block) (key off : Nat) (bytes : List Byte) : (Block.storeBegin b key off bytes).nvm = b.nvm := by
  suffices h : KeepNvm b.nvm (Block.storeBegin b key off bytes) from h
  have h0 : KeepNvm b.nvm b := rfl
  unfold Block.storeBegin
  repeat' first
    | with_reducible assumption
    | (extract_lets +onlyGivenNames x; guard_hyp x : Block := _; refine keepNvm_named (n := b.nvm) x ?_ ?_; dsimp -zeta only [x]; clear x; rotate_left; clear_value x; revert x; intro _ _)
    | (extract_lets +onlyGivenNames x; clear_value x; revert x; intro _)
    | with_reducible first
      | apply keepNvm_eq (Block.wr_nvm ..)
    | (show Block.nvm _ = _; dsimp -zeta only; done)
    | (show Block.nvm _ = _; dsimp -zeta only; show KeepNvm _ _)
    | with_reducible refine keepNvm_ite ?_ ?_
    | split

theorem Block.updLedger_nvm (b : Block) (m : Nat) (f : Ledger → Ledger) : (Block.updLedger b m f).nvm = b.nvm := by
  suffices h : KeepNvm b.nvm (Block.updLedger b m f) from h
  have h0 : KeepNvm b.nvm b := rfl
  unfold Block.updLedger
  repeat' first
    | with_reducible assumption
    | (extract_lets +onlyGivenNames x; guard_hyp x : Block := _; refine keepNvm_named (n := b.nvm) x ?_ ?_; dsimp -zeta only [x]; clear x; rotate_left; clear_value x; revert x; intro _ _)
    | (extract_lets +onlyGivenNames x; clear_value x; revert x; intro _)
    | (show Block.nvm _ = _; dsimp -zeta only; done)
    | (show Block.nvm _ = _; dsimp -zeta only; show KeepNvm _ _)
    | split

theorem Block.storeLedger_nvm (b : Block) (m : Nat) : (Block.storeLedger b m).nvm = b.nvm := by
  suffices h : KeepNvm b.nvm (Block.storeLedger b m) from h
  have h0 : KeepNvm b.nvm b := rfl
  unfold Block.storeLedger
  repeat' first
    | with_reducible assumption
    | (extract_lets +onlyGivenNames x; guard_hyp x : Block := _; refine keepNvm_named (n := b.nvm) x ?_ ?_; dsimp -zeta only [x]; clear x; rotate_left; clear_value x; revert x; intro _ _)
    | (extract_lets +onlyGivenNames x; clear_value x; revert x; intro _)
    | with_reducible first
      | refine keepNvm1_mk ?_
      | refine keepNvm2_mk ?_
      | apply keepNvm_eq (Block.storeBegin_nvm ..)
    | (show Block.nvm _ = _; dsimp -zeta only; done)
    | (show Block.nvm _ = _; dsimp -zeta only; show KeepNvm _ _)
    | with_reducible refine keepNvm_ite ?_ ?_
    | with_reducible refine keepNvm1_ite ?_ ?_
    | with_reducible refine keepNvm2_ite ?_ ?_
    | split
    | with_reducible refine keepNvm_fst (by assumption) ?_
    | with_reducible refine keepNvm_snd (by assumption) ?_
    | assumption

theorem Block.judge_nvm (b : Block) (m : Nat) : (Block.judge b m).nvm = b.nvm := by
  suffices h : KeepNvm b.nvm (Block.judge b m) from h
  have h0 : KeepNvm b.nvm b := rfl
  unfold Block.judge
  repeat' first
    | with_reducible assumption
    | (extract_lets +onlyGivenNames x; guard_hyp x : Block := _; refine keepNvm_named (n := b.nvm) x ?_ ?_; dsimp -zeta only [x]; clear x; rotate_left; clear_value x; revert x; intro _ _)
    | (extract_lets +onlyGivenNames x; clear_value x; revert x; intro _)
    | with_reducible first
      | refine keepNvm1_foldl ?_ (fun c a hc => ?_)
      | refine keepNvm2_foldl ?_ (fun c a hc => ?_)
      | refine keepNvm1_mk ?_
      | refine keepNvm2_mk ?_
      | apply keepNvm_eq (Block.wr_nvm ..)
    | with_reducible first
      | apply keepNvm_eq (Block.intr_nvm ..)
      | apply keepNvm_eq (Block.event0_nvm ..)
      | apply keepNvm_eq (Block.updLedger_nvm ..)
      | apply keepNvm_eq (Block.storeLedger_nvm ..)
    | (show Block.nvm _ = _; dsimp -zeta only; done)
    | (show Block.nvm _ = _; dsimp -zeta only; show KeepNvm _ _)
    | with_reducible refine keepNvm_ite ?_ ?_
    | with_reducible refine keepNvm1_ite ?_ ?_
    | with_reducible refine keepNvm2_ite ?_ ?_
    | split
    | with_reducible refine keepNvm_fst (by assumption) ?_
    | with_reducible refine keepNvm_snd (by assumption) ?_
    | with_reducible refine keepNvm_of1 ?_
    | with_reducible refine keepNvm_of2 ?_
    | assumption

theorem Block.feed_nvm (b : Block) (m : Nat) (f : Ledger → Ledger) : (Block.feed b m f).nvm = b.nvm := by
  suffices h : KeepNvm b.nvm (Block.feed b m f) from h
  have h0 : KeepNvm b.nvm b := rfl
  unfold Block.feed
  repeat' first
    | with_reducible assumption
    | with_reducible first
      | apply keepNvm_eq (Block.updLedger_nvm ..)
      | apply keepNvm_eq (Block.judge_nvm ..)
    | (show Block.nvm _ = _; dsimp -zeta only; done)
    | (show Block.nvm _ = _; dsimp -zeta only; show KeepNvm _ _)
    | split

theorem Block.feedCE_nvm (b : Block) (m : Nat) : (Block.feedCE b m).nvm = b.nvm := by
  suffices h : KeepNvm b.nvm (Block.feedCE b m) from h
  have h0 : KeepNvm b.nvm b := rfl
  unfold Block.feedCE
  repeat' first
    | with_reducible assumption
    | (extract_lets +onlyGivenNames x; guard_hyp x : Block := _; refine keepNvm_named (n := b.nvm) x ?_ ?_; dsimp -zeta only [x]; clear x; rotate_left; clear_value x; revert x; intro _ _)
    | (extract_lets +onlyGivenNames x; clear_value x; revert x; intro _)
    | with_reducible first
      | apply keepNvm_eq (Block.feed_nvm ..)
    | (show Block.nvm _ = _; dsimp -zeta only; done)
    | (show Block.nvm _ = _; dsimp -zeta only; show KeepNvm _ _)
    | split

theorem Block.feedOvf_nvm (b : Block) (m : Nat) : (Block.feedOvf b m).nvm = b.nvm := by
  suffices h : KeepNvm b.nvm (Block.feedOvf b m) from h
  have h0 : KeepNvm b.nvm b := rfl
  unfold Block.feedOvf
  repeat' first
    | with_reducible assumption
    | (extract_lets +onlyGivenNames x; guard_hyp x : Block := _; refine keepNvm_named (n := b.nvm) x ?_ ?_; dsimp -zeta only [x]; clear x; rotate_left; clear_value x; revert x; intro _ _)
    | (extract_lets +onlyGivenNames x; clear_value x; revert x; intro _)
    | with_reducible first
      | apply keepNvm_eq (Block.feed_nvm ..)
    | (show Block.nvm _ = _; dsimp -zeta only; done)
    | (show Block.nvm _ = _; dsimp -zeta only; show KeepNvm _ _)
    | split

theorem Block.feedUE_nvm (b : Block) (m : Nat) : (Block.feedUE b m).nvm = b.nvm := by
  suffices h : KeepNvm b.nvm (Block.feedUE b m) from h
  have h0 : KeepNvm b.nvm b := rfl
  unfold Block.feedUE
  repeat' first
    | with_reducible assumption
    | (extract_lets +onlyGivenNames x; guard_hyp x : Block := _; refine keepNvm_named (n := b.nvm) x ?_ ?_; dsimp -zeta only [x]; clear x; rotate_left; clear_value x; revert x; intro _ _)
    | (extract_lets +onlyGivenNames x; clear_value x; revert x; intro _)
    | with_reducible first
      | apply keepNvm_eq (Block.count_nvm ..)
      | apply keepNvm_eq (Block.feed_nvm ..)
    | (show Block.nvm _ = _; dsimp -zeta only; done)
    | (show Block.nvm _ = _; dsimp -zeta only; show KeepNvm _ _)
    | split

theorem Block.feedPersist_nvm (b : Block) (m : Nat) : (Block.feedPersist b m).nvm = b.nvm := by
  suffices h : KeepNvm b.nvm (Block.feedPersist b m) from h
  have h0 : KeepNvm b.nvm b := rfl
  unfold Block.feedPersist
  repeat' first
    | with_reducible assumption
    | (extract_lets +onlyGivenNames x; guard_hyp x : Block := _; refine keepNvm_named (n := b.nvm) x ?_ ?_; dsimp -zeta only [x]; clear x; rotate_left; clear_value x; revert x; intro _ _)
    | (extract_lets +onlyGivenNames x; clear_value x; revert x; intro _)
    | with_reducible first
      | apply keepNvm_eq (Block.count_nvm ..)
      | apply keepNvm_eq (Block.feed_nvm ..)
    | (show Block.nvm _ = _; dsimp -zeta only; done)
    | (show Block.nvm _ = _; dsimp -zeta only; show KeepNvm _ _)
    | split

end Sys2Proof.Machine
end

