-- ==== Sys2Proof/Laws/Nvm/Pins.lean ====
section
/-! SUPPORT. No operation of Machine/Pins.lean changes the non-volatile store, but for those named. -/

namespace Sys2Proof.Machine

theorem Block.putPins_nvm (b : Block) (s : Nat) (c : HistCmd) : (Block.putPins b s c).nvm = b.nvm := by
  suffices h : KeepNvm b.nvm (Block.putPins b s c) from h
  have h0 : KeepNvm b.nvm b := rfl
  unfold Block.putPins
  repeat' first
    | with_reducible assumption
    | (extract_lets +onlyGivenNames x; guard_hyp x : Block := _; refine keepNvm_named (n := b.nvm) x ?_ ?_; dsimp -zeta only [x]; clear x; rotate_left; clear_value x; revert x; intro _ _)
    | (extract_lets +onlyGivenNames x; clear_value x; revert x; intro _)
    | with_reducible first
      | refine keepNvm_forEach ?_ (fun c a hc => ?_)
      | apply keepNvm_eq (Block.updSub_nvm ..)
    | (show Block.nvm _ = _; dsimp -zeta only; done)
    | (show Block.nvm _ = _; dsimp -zeta only; show KeepNvm _ _)
    | with_reducible refine keepNvm_ite ?_ ?_
    | split

theorem Block.putSleep_nvm (b : Block) (s : Nat) : (Block.putSleep b s).nvm = b.nvm := by
  suffices h : KeepNvm b.nvm (Block.putSleep b s) from h
  have h0 : KeepNvm b.nvm b := rfl
  unfold Block.putSleep
  repeat' first
    | with_reducible assumption
    | (extract_lets +onlyGivenNames x; guard_hyp x : Block := _; refine keepNvm_named (n := b.nvm) x ?_ ?_; dsimp -zeta only [x]; clear x; rotate_left; clear_value x; revert x; intro _ _)
    | (extract_lets +onlyGivenNames x; refine keepNvm_fn x ?_; dsimp -zeta only [x]; clear x)
    | (extract_lets +onlyGivenNames x; refine keepNvm_fn2 x ?_; dsimp -zeta only [x]; clear x)
    | (extract_lets +onlyGivenNames x; refine keepNvm_fn3 x ?_; dsimp -zeta only [x]; clear x)
    | (extract_lets +onlyGivenNames x; refine keepNvm_fn4 x ?_; dsimp -zeta only [x]; clear x)
    | (extract_lets +onlyGivenNames x; clear_value x; revert x; intro _)
    | with_reducible first
      | refine keepNvm_forEach ?_ (fun c a hc => ?_)
      | apply keepNvm_eq (Block.putPins_nvm ..)
    | (show Block.nvm _ = _; dsimp -zeta only; done)
    | (show Block.nvm _ = _; dsimp -zeta only; show KeepNvm _ _)
    | with_reducible refine keepNvm_ite ?_ ?_
    | split

end Sys2Proof.Machine
end

