-- ==== Sys2Proof/Laws/Nvm/Controls.lean ====
section
/-! SUPPORT. No operation of Machine/Controls.lean changes the non-volatile store, but for those named. -/

namespace Sys2Proof.Machine

theorem Block.force_nvm (b : Block) (s c : Nat) (v : Int) : (Block.force b s c v).nvm = b.nvm := by
  suffices h : KeepNvm b.nvm (Block.force b s c v) from h
  have h0 : KeepNvm b.nvm b := rfl
  unfold Block.force
  repeat' first
    | with_reducible assumption
    | (extract_lets +onlyGivenNames x; guard_hyp x : Block := _; refine keepNvm_named (n := b.nvm) x ?_ ?_; dsimp -zeta only [x]; clear x; rotate_left; clear_value x; revert x; intro _ _)
    | (extract_lets +onlyGivenNames x; clear_value x; revert x; intro _)
    | with_reducible first
      | apply keepNvm_eq (Block.wr_nvm ..)
    | (show Block.nvm _ = _; dsimp -zeta only; done)
    | (show Block.nvm _ = _; dsimp -zeta only; show KeepNvm _ _)
    | split

theorem Block.setResid_nvm (b : Block) (s c : Nat) (v : Int) : (Block.setResid b s c v).nvm = b.nvm := by
  suffices h : KeepNvm b.nvm (Block.setResid b s c v) from h
  have h0 : KeepNvm b.nvm b := rfl
  unfold Block.setResid
  repeat' first
    | with_reducible assumption
    | (extract_lets +onlyGivenNames x; guard_hyp x : Block := _; refine keepNvm_named (n := b.nvm) x ?_ ?_; dsimp -zeta only [x]; clear x; rotate_left; clear_value x; revert x; intro _ _)
    | (extract_lets +onlyGivenNames x; clear_value x; revert x; intro _)
    | (show Block.nvm _ = _; dsimp -zeta only; done)
    | (show Block.nvm _ = _; dsimp -zeta only; show KeepNvm _ _)
    | split

theorem Block.jump_nvm (b : Block) (s : Nat) : (Block.jump b s).nvm = b.nvm := by
  suffices h : KeepNvm b.nvm (Block.jump b s) from h
  have h0 : KeepNvm b.nvm b := rfl
  unfold Block.jump
  repeat' first
    | with_reducible assumption
    | (extract_lets +onlyGivenNames x; guard_hyp x : Block := _; refine keepNvm_named (n := b.nvm) x ?_ ?_; dsimp -zeta only [x]; clear x; rotate_left; clear_value x; revert x; intro _ _)
    | (extract_lets +onlyGivenNames x; clear_value x; revert x; intro _)
    | with_reducible first
      | refine keepNvm_forEach ?_ (fun c a hc => ?_)
      | apply keepNvm_eq (Block.force_nvm ..)
    | (show Block.nvm _ = _; dsimp -zeta only; done)
    | (show Block.nvm _ = _; dsimp -zeta only; show KeepNvm _ _)
    | split

end Sys2Proof.Machine
end

