-- ==== Sys2Proof/Laws/Nvm/Fence.lean ====
section
/-! SUPPORT. No operation of Machine/Fence.lean changes the non-volatile store, but for those named. -/

namespace Sys2Proof.Machine

theorem Block.audFence_nvm (b : Block) (k : FenceKind) (i cause role : Nat) (new : Bool) : (Block.audFence b k i cause role new).nvm = b.nvm := by
  suffices h : KeepNvm b.nvm (Block.audFence b k i cause role new) from h
  have h0 : KeepNvm b.nvm b := rfl
  unfold Block.audFence
  repeat' first
    | with_reducible assumption
    | (extract_lets +onlyGivenNames x; guard_hyp x : Block := _; refine keepNvm_named (n := b.nvm) x ?_ ?_; dsimp -zeta only [x]; clear x; rotate_left; clear_value x; revert x; intro _ _)
    | (extract_lets +onlyGivenNames x; clear_value x; revert x; intro _)
    | with_reducible first
      | refine keepNvm1_mk ?_
      | refine keepNvm2_mk ?_
      | apply keepNvm_eq (Block.audOwn_nvm ..)
    | (show Block.nvm _ = _; dsimp -zeta only; done)
    | (show Block.nvm _ = _; dsimp -zeta only; show KeepNvm _ _)
    | with_reducible refine keepNvm_ite ?_ ?_
    | with_reducible refine keepNvm1_ite ?_ ?_
    | with_reducible refine keepNvm2_ite ?_ ?_
    | split
    | with_reducible refine keepNvm_fst (by assumption) ?_
    | with_reducible refine keepNvm_snd (by assumption) ?_
    | assumption

theorem Block.endSentenceWith_nvm (ev : Block → Event → Block) (b : Block) (s outcome : Nat) (hev : ∀ b e, (ev b e).nvm = b.nvm) : (Block.endSentenceWith ev b s outcome).nvm = b.nvm := by
  suffices h : KeepNvm b.nvm (Block.endSentenceWith ev b s outcome) from h
  have h0 : KeepNvm b.nvm b := rfl
  unfold Block.endSentenceWith
  repeat' first
    | with_reducible assumption
    | (extract_lets +onlyGivenNames x; guard_hyp x : Block := _; refine keepNvm_named (n := b.nvm) x ?_ ?_; dsimp -zeta only [x]; clear x; rotate_left; clear_value x; revert x; intro _ _)
    | (extract_lets +onlyGivenNames x; clear_value x; revert x; intro _)
    | with_reducible first
      | apply keepNvm_eq (Block.wr_nvm ..)
      | apply keepNvm_eq (Block.wrB_nvm ..)
      | apply keepNvm_eq (Block.bump_nvm ..)
      | apply keepNvm_eq (Block.intr_nvm ..)
      | apply keepNvm_eq (Block.updSub_nvm ..)
    | with_reducible first
      | apply keepNvm_eq (hev ..)
    | (show Block.nvm _ = _; dsimp -zeta only; done)
    | (show Block.nvm _ = _; dsimp -zeta only; show KeepNvm _ _)
    | with_reducible refine keepNvm_ite ?_ ?_
    | split

theorem Block.trainCounts_nvm (b : Block) : (Block.trainCounts b).nvm = b.nvm := by
  suffices h : KeepNvm b.nvm (Block.trainCounts b) from h
  have h0 : KeepNvm b.nvm b := rfl
  unfold Block.trainCounts
  repeat' first
    | with_reducible assumption
    | (extract_lets +onlyGivenNames x; guard_hyp x : Block := _; refine keepNvm_named (n := b.nvm) x ?_ ?_; dsimp -zeta only [x]; clear x; rotate_left; clear_value x; revert x; intro _ _)
    | (extract_lets +onlyGivenNames x; clear_value x; revert x; intro _)
    | with_reducible first
      | refine keepNvm1_foldl ?_ (fun c a hc => ?_)
      | refine keepNvm2_foldl ?_ (fun c a hc => ?_)
      | apply keepNvm_eq (Block.wr_nvm ..)
      | apply keepNvm_eq (Block.intr_nvm ..)
    | (show Block.nvm _ = _; dsimp -zeta only; done)
    | (show Block.nvm _ = _; dsimp -zeta only; show KeepNvm _ _)
    | with_reducible refine keepNvm_ite ?_ ?_
    | split
    | with_reducible refine keepNvm_of1 ?_
    | with_reducible refine keepNvm_of2 ?_

theorem Block.ckSettle_nvm (b : Block) (n : Nat) : (Block.ckSettle b n).nvm = b.nvm := by
  suffices h : KeepNvm b.nvm (Block.ckSettle b n) from h
  have h0 : KeepNvm b.nvm b := rfl
  unfold Block.ckSettle
  repeat' first
    | with_reducible assumption
    | (extract_lets +onlyGivenNames x; guard_hyp x : Block := _; refine keepNvm_named (n := b.nvm) x ?_ ?_; dsimp -zeta only [x]; clear x; rotate_left; clear_value x; revert x; intro _ _)
    | (extract_lets +onlyGivenNames x; refine keepNvm_fn x ?_; dsimp -zeta only [x]; clear x)
    | (extract_lets +onlyGivenNames x; refine keepNvm_fn2 x ?_; dsimp -zeta only [x]; clear x)
    | (extract_lets +onlyGivenNames x; refine keepNvm_fn3 x ?_; dsimp -zeta only [x]; clear x)
    | (extract_lets +onlyGivenNames x; refine keepNvm_fn4 x ?_; dsimp -zeta only [x]; clear x)
    | (extract_lets +onlyGivenNames x; clear_value x; revert x; intro _)
    | with_reducible first
      | refine keepNvm_forEach ?_ (fun c a hc => ?_)
      | apply keepNvm_eq (Block.wr_nvm ..)
      | apply keepNvm_eq (Block.ckStop_nvm ..)
    | (show Block.nvm _ = _; dsimp -zeta only; done)
    | (show Block.nvm _ = _; dsimp -zeta only; show KeepNvm _ _)
    | with_reducible refine keepNvm_ite ?_ ?_
    | split

theorem Block.trackRestart_nvm (b : Block) (s : Nat) : (Block.trackRestart b s).nvm = b.nvm := by
  suffices h : KeepNvm b.nvm (Block.trackRestart b s) from h
  have h0 : KeepNvm b.nvm b := rfl
  unfold Block.trackRestart
  repeat' first
    | with_reducible assumption
    | (extract_lets +onlyGivenNames x; guard_hyp x : Block := _; refine keepNvm_named (n := b.nvm) x ?_ ?_; dsimp -zeta only [x]; clear x; rotate_left; clear_value x; revert x; intro _ _)
    | (extract_lets +onlyGivenNames x; clear_value x; revert x; intro _)
    | with_reducible first
      | refine keepNvm_forEach ?_ (fun c a hc => ?_)
      | apply keepNvm_eq (Block.wr_nvm ..)
    | (show Block.nvm _ = _; dsimp -zeta only; done)
    | (show Block.nvm _ = _; dsimp -zeta only; show KeepNvm _ _)
    | split

theorem Block.trackFree_nvm (b : Block) (s : Nat) : (Block.trackFree b s).nvm = b.nvm := by
  suffices h : KeepNvm b.nvm (Block.trackFree b s) from h
  have h0 : KeepNvm b.nvm b := rfl
  unfold Block.trackFree
  repeat' first
    | with_reducible assumption
    | with_reducible first
      | apply keepNvm_eq (Block.wr_nvm ..)
      | apply keepNvm_eq (Block.trackRestart_nvm ..)
    | (show Block.nvm _ = _; dsimp -zeta only; done)
    | (show Block.nvm _ = _; dsimp -zeta only; show KeepNvm _ _)
    | with_reducible refine keepNvm_ite ?_ ?_
    | split

theorem Block.trackJump_nvm (b : Block) (s : Nat) : (Block.trackJump b s).nvm = b.nvm := by
  suffices h : KeepNvm b.nvm (Block.trackJump b s) from h
  have h0 : KeepNvm b.nvm b := rfl
  unfold Block.trackJump
  repeat' first
    | with_reducible assumption
    | with_reducible first
      | apply keepNvm_eq (Block.wr_nvm ..)
      | apply keepNvm_eq (Block.jump_nvm ..)
      | apply keepNvm_eq (Block.trackRestart_nvm ..)
    | (show Block.nvm _ = _; dsimp -zeta only; done)
    | (show Block.nvm _ = _; dsimp -zeta only; show KeepNvm _ _)
    | with_reducible refine keepNvm_ite ?_ ?_
    | split

theorem Block.chFailed_nvm (b : Block) (n cause detail : Nat) : (Block.chFailed b n cause detail).nvm = b.nvm := by
  suffices h : KeepNvm b.nvm (Block.chFailed b n cause detail) from h
  have h0 : KeepNvm b.nvm b := rfl
  unfold Block.chFailed
  repeat' first
    | with_reducible assumption
    | (extract_lets +onlyGivenNames x; guard_hyp x : Block := _; refine keepNvm_named (n := b.nvm) x ?_ ?_; dsimp -zeta only [x]; clear x; rotate_left; clear_value x; revert x; intro _ _)
    | (extract_lets +onlyGivenNames x; refine keepNvm_fn x ?_; dsimp -zeta only [x]; clear x)
    | (extract_lets +onlyGivenNames x; refine keepNvm_fn2 x ?_; dsimp -zeta only [x]; clear x)
    | (extract_lets +onlyGivenNames x; refine keepNvm_fn3 x ?_; dsimp -zeta only [x]; clear x)
    | (extract_lets +onlyGivenNames x; refine keepNvm_fn4 x ?_; dsimp -zeta only [x]; clear x)
    | (extract_lets +onlyGivenNames x; clear_value x; revert x; intro _)
    | with_reducible first
      | apply keepNvm_eq (Block.setBitOf_nvm ..)
    | (show Block.nvm _ = _; dsimp -zeta only; done)
    | (show Block.nvm _ = _; dsimp -zeta only; show KeepNvm _ _)
    | with_reducible refine keepNvm_ite ?_ ?_
    | split

theorem Block.rplFail_nvm (ev : Block → Event → Block) (b : Block) (n code : Nat) (hev : ∀ b e, (ev b e).nvm = b.nvm) : (Block.rplFail ev b n code).nvm = b.nvm := by
  suffices h : KeepNvm b.nvm (Block.rplFail ev b n code) from h
  have h0 : KeepNvm b.nvm b := rfl
  unfold Block.rplFail
  repeat' first
    | with_reducible assumption
    | (extract_lets +onlyGivenNames x; guard_hyp x : Block := _; refine keepNvm_named (n := b.nvm) x ?_ ?_; dsimp -zeta only [x]; clear x; rotate_left; clear_value x; revert x; intro _ _)
    | (extract_lets +onlyGivenNames x; clear_value x; revert x; intro _)
    | with_reducible first
      | apply keepNvm_eq (Block.wr_nvm ..)
      | apply keepNvm_eq (Block.intr_nvm ..)
      | apply keepNvm_eq (hev ..)
    | (show Block.nvm _ = _; dsimp -zeta only; done)
    | (show Block.nvm _ = _; dsimp -zeta only; show KeepNvm _ _)
    | split

theorem Block.trainVref_nvm (b : Block) (s : Nat) (found : List (Nat × Nat)) : (Block.trainVref b s found).nvm = b.nvm := by
  suffices h : KeepNvm b.nvm (Block.trainVref b s found) from h
  have h0 : KeepNvm b.nvm b := rfl
  unfold Block.trainVref
  repeat' first
    | with_reducible assumption
    | (extract_lets +onlyGivenNames x; guard_hyp x : Block := _; refine keepNvm_named (n := b.nvm) x ?_ ?_; dsimp -zeta only [x]; clear x; rotate_left; clear_value x; revert x; intro _ _)
    | (extract_lets +onlyGivenNames x; clear_value x; revert x; intro _)
    | with_reducible first
      | refine keepNvm_forEach ?_ (fun c a hc => ?_)
    | (show Block.nvm _ = _; dsimp -zeta only; done)
    | (show Block.nvm _ = _; dsimp -zeta only; show KeepNvm _ _)
    | split

theorem Block.trainStop_nvm (b : Block) (s lane : Nat) : (Block.trainStop b s lane).nvm = b.nvm := by
  suffices h : KeepNvm b.nvm (Block.trainStop b s lane) from h
  have h0 : KeepNvm b.nvm b := rfl
  unfold Block.trainStop
  repeat' first
    | with_reducible assumption
    | (extract_lets +onlyGivenNames x; guard_hyp x : Block := _; refine keepNvm_named (n := b.nvm) x ?_ ?_; dsimp -zeta only [x]; clear x; rotate_left; clear_value x; revert x; intro _ _)
    | (extract_lets +onlyGivenNames x; clear_value x; revert x; intro _)
    | with_reducible first
      | refine keepNvm_forEach ?_ (fun c a hc => ?_)
      | apply keepNvm_eq (Block.wr_nvm ..)
      | apply keepNvm_eq (Block.updSub_nvm ..)
      | apply keepNvm_eq (Block.trackFree_nvm ..)
      | apply keepNvm_eq (Block.trainVref_nvm ..)
    | (show Block.nvm _ = _; dsimp -zeta only; done)
    | (show Block.nvm _ = _; dsimp -zeta only; show KeepNvm _ _)
    | split

theorem Block.trainMark_nvm (b : Block) (s code : Nat) (why : TrainWhy) : (Block.trainMark b s code why).nvm = b.nvm := by
  suffices h : KeepNvm b.nvm (Block.trainMark b s code why) from h
  have h0 : KeepNvm b.nvm b := rfl
  unfold Block.trainMark
  repeat' first
    | with_reducible assumption
    | (extract_lets +onlyGivenNames x; guard_hyp x : Block := _; refine keepNvm_named (n := b.nvm) x ?_ ?_; dsimp -zeta only [x]; clear x; rotate_left; clear_value x; revert x; intro _ _)
    | (extract_lets +onlyGivenNames x; clear_value x; revert x; intro _)
    | with_reducible first
      | apply keepNvm_eq (Block.wr_nvm ..)
      | apply keepNvm_eq (Block.intr_nvm ..)
      | apply keepNvm_eq (Block.trainCounts_nvm ..)
      | apply keepNvm_eq (Block.chFailed_nvm ..)
    | (show Block.nvm _ = _; dsimp -zeta only; done)
    | (show Block.nvm _ = _; dsimp -zeta only; show KeepNvm _ _)
    | with_reducible refine keepNvm_ite ?_ ?_
    | split

theorem Block.trainFail_nvm (ev : Block → Event → Block) (b : Block) (s code lane : Nat) (hev : ∀ b e, (ev b e).nvm = b.nvm) : (Block.trainFail ev b s code lane).nvm = b.nvm := by
  suffices h : KeepNvm b.nvm (Block.trainFail ev b s code lane) from h
  have h0 : KeepNvm b.nvm b := rfl
  unfold Block.trainFail
  repeat' first
    | with_reducible assumption
    | (extract_lets +onlyGivenNames x; guard_hyp x : Block := _; refine keepNvm_named (n := b.nvm) x ?_ ?_; dsimp -zeta only [x]; clear x; rotate_left; clear_value x; revert x; intro _ _)
    | (extract_lets +onlyGivenNames x; clear_value x; revert x; intro _)
    | with_reducible first
      | refine keepNvm_forEach ?_ (fun c a hc => ?_)
      | apply keepNvm_eq (Block.wr_nvm ..)
      | apply keepNvm_eq (Block.rplFail_nvm (hev := hev) ..)
      | apply keepNvm_eq (Block.rplFail_nvm (hev := Block.event0_nvm) ..)
      | apply keepNvm_eq (Block.rplFail_nvm (hev := Block.event_nvm) ..)
    | with_reducible first
      | apply keepNvm_eq (Block.trainStop_nvm ..)
      | apply keepNvm_eq (Block.trainMark_nvm ..)
      | apply keepNvm_eq (Block.attach_nvm ..)
      | apply keepNvm_eq (hev ..)
    | (show Block.nvm _ = _; dsimp -zeta only; done)
    | (show Block.nvm _ = _; dsimp -zeta only; show KeepNvm _ _)
    | with_reducible refine keepNvm_ite ?_ ?_
    | split

theorem Block.loopEnd_nvm (b : Block) (s code : Nat) : (Block.loopEnd b s code).nvm = b.nvm := by
  suffices h : KeepNvm b.nvm (Block.loopEnd b s code) from h
  have h0 : KeepNvm b.nvm b := rfl
  unfold Block.loopEnd
  repeat' first
    | with_reducible assumption
    | (extract_lets +onlyGivenNames x; guard_hyp x : Block × _ := _; refine keepNvm1_named (n := b.nvm) x ?_ ?_; dsimp -zeta only [x]; clear x; rotate_left; clear_value x; revert x; intro _ _)
    | (extract_lets +onlyGivenNames x; guard_hyp x : Block := _; refine keepNvm_named (n := b.nvm) x ?_ ?_; dsimp -zeta only [x]; clear x; rotate_left; clear_value x; revert x; intro _ _)
    | (extract_lets +onlyGivenNames x; clear_value x; revert x; intro _)
    | with_reducible first
      | refine keepNvm1_mk ?_
      | refine keepNvm2_mk ?_
      | apply keepNvm_eq (Block.wr_nvm ..)
      | apply keepNvm_eq (Block.addSat_nvm ..)
      | apply keepNvm_eq (Block.intr_nvm ..)
    | with_reducible first
      | apply keepNvm_eq (Block.draw_nvm ..)
    | (show Block.nvm _ = _; dsimp -zeta only; done)
    | (show Block.nvm _ = _; dsimp -zeta only; show KeepNvm _ _)
    | with_reducible refine keepNvm_ite ?_ ?_
    | with_reducible refine keepNvm1_ite ?_ ?_
    | with_reducible refine keepNvm2_ite ?_ ?_
    | split
    | with_reducible refine keepNvm_fst (by assumption) ?_
    | with_reducible refine keepNvm_snd (by assumption) ?_
    | assumption

theorem Block.updLog_nvm (b : Block) (s i : Nat) (f : LogEnt → LogEnt) : (Block.updLog b s i f).nvm = b.nvm := by
  suffices h : KeepNvm b.nvm (Block.updLog b s i f) from h
  have h0 : KeepNvm b.nvm b := rfl
  unfold Block.updLog
  repeat' first
    | with_reducible assumption
    | (extract_lets +onlyGivenNames x; guard_hyp x : Block := _; refine keepNvm_named (n := b.nvm) x ?_ ?_; dsimp -zeta only [x]; clear x; rotate_left; clear_value x; revert x; intro _ _)
    | (extract_lets +onlyGivenNames x; clear_value x; revert x; intro _)
    | (show Block.nvm _ = _; dsimp -zeta only; done)
    | (show Block.nvm _ = _; dsimp -zeta only; show KeepNvm _ _)
    | split

theorem Block.repairEnd_nvm (ev : Block → Event → Block) (b : Block) (s code timeUs : Nat) (spare : Option Nat) (hev : ∀ b e, (ev b e).nvm = b.nvm) : (Block.repairEnd ev b s code timeUs spare).nvm = b.nvm := by
  suffices h : KeepNvm b.nvm (Block.repairEnd ev b s code timeUs spare) from h
  have h0 : KeepNvm b.nvm b := rfl
  unfold Block.repairEnd
  repeat' first
    | with_reducible assumption
    | (extract_lets +onlyGivenNames x; guard_hyp x : Block := _; refine keepNvm_named (n := b.nvm) x ?_ ?_; dsimp -zeta only [x]; clear x; rotate_left; clear_value x; revert x; intro _ _)
    | (extract_lets +onlyGivenNames x; clear_value x; revert x; intro _)
    | with_reducible first
      | apply keepNvm_eq (Block.wr_nvm ..)
      | apply keepNvm_eq (Block.intr_nvm ..)
      | apply keepNvm_eq (Block.audOwn_nvm ..)
      | apply keepNvm_eq (Block.count_nvm ..)
      | apply keepNvm_eq (Block.updLedger_nvm ..)
    | with_reducible first
      | apply keepNvm_eq (Block.storeLedger_nvm ..)
      | apply keepNvm_eq (Block.judge_nvm ..)
      | apply keepNvm_eq (Block.feed_nvm ..)
      | apply keepNvm_eq (Block.updLog_nvm ..)
      | apply keepNvm_eq (hev ..)
    | (show Block.nvm _ = _; dsimp -zeta only; done)
    | (show Block.nvm _ = _; dsimp -zeta only; show KeepNvm _ _)
    | with_reducible refine keepNvm_ite ?_ ?_
    | split

theorem Block.freeLine_nvm (b : Block) (k : Nat) : (Block.freeLine b k).nvm = b.nvm := by
  suffices h : KeepNvm b.nvm (Block.freeLine b k) from h
  have h0 : KeepNvm b.nvm b := rfl
  unfold Block.freeLine
  repeat' first
    | with_reducible assumption
    | (extract_lets +onlyGivenNames x; guard_hyp x : Block := _; refine keepNvm_named (n := b.nvm) x ?_ ?_; dsimp -zeta only [x]; clear x; rotate_left; clear_value x; revert x; intro _ _)
    | (extract_lets +onlyGivenNames x; clear_value x; revert x; intro _)
    | with_reducible first
      | apply keepNvm_eq (Block.updLine_nvm ..)
    | (show Block.nvm _ = _; dsimp -zeta only; done)
    | (show Block.nvm _ = _; dsimp -zeta only; show KeepNvm _ _)
    | with_reducible refine keepNvm_ite ?_ ?_
    | split

theorem Block.wbResolve_nvm (b : Block) (c : Nat) (w : WriteBack) (accepted : Bool) : (Block.wbResolve b c w accepted).nvm = b.nvm := by
  suffices h : KeepNvm b.nvm (Block.wbResolve b c w accepted) from h
  have h0 : KeepNvm b.nvm b := rfl
  unfold Block.wbResolve
  repeat' first
    | with_reducible assumption
    | (extract_lets +onlyGivenNames x; guard_hyp x : Block := _; refine keepNvm_named (n := b.nvm) x ?_ ?_; dsimp -zeta only [x]; clear x; rotate_left; clear_value x; revert x; intro _ _)
    | (extract_lets +onlyGivenNames x; refine keepNvm_fn x ?_; dsimp -zeta only [x]; clear x)
    | (extract_lets +onlyGivenNames x; refine keepNvm_fn2 x ?_; dsimp -zeta only [x]; clear x)
    | (extract_lets +onlyGivenNames x; refine keepNvm_fn3 x ?_; dsimp -zeta only [x]; clear x)
    | (extract_lets +onlyGivenNames x; refine keepNvm_fn4 x ?_; dsimp -zeta only [x]; clear x)
    | (extract_lets +onlyGivenNames x; clear_value x; revert x; intro _)
    | with_reducible first
      | apply keepNvm_eq (Block.bump_nvm ..)
      | apply keepNvm_eq (Block.updSlice_nvm ..)
      | apply keepNvm_eq (Block.updLine_nvm ..)
      | apply keepNvm_eq (Block.descUpd_nvm ..)
      | apply keepNvm_eq (Block.respond_nvm ..)
    | with_reducible first
      | apply keepNvm_eq (Block.freeLine_nvm ..)
    | (show Block.nvm _ = _; dsimp -zeta only; done)
    | (show Block.nvm _ = _; dsimp -zeta only; show KeepNvm _ _)
    | with_reducible refine keepNvm_ite ?_ ?_
    | split

theorem Block.dropMiss_nvm (b : Block) (c m status : Nat) : (Block.dropMiss b c m status).nvm = b.nvm := by
  suffices h : KeepNvm b.nvm (Block.dropMiss b c m status) from h
  have h0 : KeepNvm b.nvm b := rfl
  unfold Block.dropMiss
  repeat' first
    | with_reducible assumption
    | (extract_lets +onlyGivenNames x; guard_hyp x : Block := _; refine keepNvm_named (n := b.nvm) x ?_ ?_; dsimp -zeta only [x]; clear x; rotate_left; clear_value x; revert x; intro _ _)
    | (extract_lets +onlyGivenNames x; refine keepNvm_fn x ?_; dsimp -zeta only [x]; clear x)
    | (extract_lets +onlyGivenNames x; refine keepNvm_fn2 x ?_; dsimp -zeta only [x]; clear x)
    | (extract_lets +onlyGivenNames x; refine keepNvm_fn3 x ?_; dsimp -zeta only [x]; clear x)
    | (extract_lets +onlyGivenNames x; refine keepNvm_fn4 x ?_; dsimp -zeta only [x]; clear x)
    | (extract_lets +onlyGivenNames x; clear_value x; revert x; intro _)
    | with_reducible first
      | refine keepNvm_forEach ?_ (fun c a hc => ?_)
      | apply keepNvm_eq (Block.updSlice_nvm ..)
      | apply keepNvm_eq (Block.updLine_nvm ..)
      | apply keepNvm_eq (Block.respond_nvm ..)
      | apply keepNvm_eq (Block.freeLine_nvm ..)
    | with_reducible first
      | apply keepNvm_eq (Block.wbResolve_nvm ..)
    | (show Block.nvm _ = _; dsimp -zeta only; done)
    | (show Block.nvm _ = _; dsimp -zeta only; show KeepNvm _ _)
    | with_reducible refine keepNvm_ite ?_ ?_
    | split

theorem Block.reloadClauses_nvm (b : Block) (s : Nat) : (Block.reloadClauses b s).1.nvm = b.nvm := by
  suffices h : KeepNvm1 b.nvm (Block.reloadClauses b s) from h
  have h0 : KeepNvm b.nvm b := rfl
  unfold Block.reloadClauses
  repeat' first
    | with_reducible assumption
    | (extract_lets +onlyGivenNames x; guard_hyp x : Block := _; refine keepNvm_named (n := b.nvm) x ?_ ?_; dsimp -zeta only [x]; clear x; rotate_left; clear_value x; revert x; intro _ _)
    | (extract_lets +onlyGivenNames x; clear_value x; revert x; intro _)
    | with_reducible first
      | refine keepNvm1_mk ?_
      | refine keepNvm2_mk ?_
      | apply keepNvm_eq (Block.wr_nvm ..)
      | apply keepNvm_eq (Block.updSub_nvm ..)
    | (show Block.nvm _ = _; dsimp -zeta only; done)
    | (show Block.nvm _ = _; dsimp -zeta only; show KeepNvm _ _)
    | with_reducible refine keepNvm_ite ?_ ?_
    | with_reducible refine keepNvm1_ite ?_ ?_
    | with_reducible refine keepNvm2_ite ?_ ?_
    | split
    | with_reducible refine keepNvm_fst (by assumption) ?_
    | with_reducible refine keepNvm_snd (by assumption) ?_
    | assumption

theorem Block.subStops_nvm (ev : Block → Event → Block) (b : Block) (s : Nat) (hev : ∀ b e, (ev b e).nvm = b.nvm) : (Block.subStops ev b s).nvm = b.nvm := by
  suffices h : KeepNvm b.nvm (Block.subStops ev b s) from h
  have h0 : KeepNvm b.nvm b := rfl
  unfold Block.subStops
  repeat' first
    | with_reducible assumption
    | with_reducible first
      | apply keepNvm_eq (Block.endSentenceWith_nvm (hev := hev) ..)
      | apply keepNvm_eq (Block.endSentenceWith_nvm (hev := Block.event0_nvm) ..)
      | apply keepNvm_eq (Block.endSentenceWith_nvm (hev := Block.event_nvm) ..)
      | apply keepNvm_eq (Block.trainFail_nvm (hev := hev) ..)
      | apply keepNvm_eq (Block.trainFail_nvm (hev := Block.event0_nvm) ..)
    | with_reducible first
      | apply keepNvm_eq (Block.trainFail_nvm (hev := Block.event_nvm) ..)
      | apply keepNvm_eq (Block.loopEnd_nvm ..)
      | apply keepNvm_eq (Block.repairEnd_nvm (hev := hev) ..)
      | apply keepNvm_eq (Block.repairEnd_nvm (hev := Block.event0_nvm) ..)
      | apply keepNvm_eq (Block.repairEnd_nvm (hev := Block.event_nvm) ..)
    | with_reducible first
      | apply keepNvm_eq (hev ..)
    | (show Block.nvm _ = _; dsimp -zeta only; done)
    | (show Block.nvm _ = _; dsimp -zeta only; show KeepNvm _ _)
    | split

theorem Block.fenceSubEffect_nvm (b : Block) (s : Nat) : (Block.fenceSubEffect b s).nvm = b.nvm := by
  suffices h : KeepNvm b.nvm (Block.fenceSubEffect b s) from h
  have h0 : KeepNvm b.nvm b := rfl
  unfold Block.fenceSubEffect
  repeat' first
    | with_reducible assumption
    | (extract_lets +onlyGivenNames x; guard_hyp x : Block × _ := _; refine keepNvm1_named (n := b.nvm) x ?_ ?_; dsimp -zeta only [x]; clear x; rotate_left; clear_value x; revert x; intro _ _)
    | (extract_lets +onlyGivenNames x; guard_hyp x : Block := _; refine keepNvm_named (n := b.nvm) x ?_ ?_; dsimp -zeta only [x]; clear x; rotate_left; clear_value x; revert x; intro _ _)
    | (extract_lets +onlyGivenNames x; clear_value x; revert x; intro _)
    | with_reducible first
      | refine keepNvm_forEach ?_ (fun c a hc => ?_)
      | refine keepNvm1_mk ?_
      | refine keepNvm2_mk ?_
      | apply keepNvm_eq (Block.wr_nvm ..)
      | apply keepNvm_eq (Block.addSat_nvm ..)
    | with_reducible first
      | apply keepNvm_eq (Block.intr_nvm ..)
      | apply keepNvm_eq (Block.event0_nvm ..)
      | apply keepNvm_eq (Block.updSub_nvm ..)
      | apply keepNvm_eq (Block.putSleep_nvm ..)
      | apply keepNvm_eq (Block.ckSettle_nvm ..)
    | with_reducible first
      | apply keepNvm_eq (Block.dropMiss_nvm ..)
      | apply keepNvm_eq (Block.reloadClauses_nvm ..)
      | apply keepNvm_eq (Block.subStops_nvm (hev := Block.event0_nvm) ..)
      | apply keepNvm_eq (Block.subStops_nvm (hev := Block.event_nvm) ..)
      | apply keepNvm_eq (Block.ckStop_nvm ..)
    | (show Block.nvm _ = _; dsimp -zeta only; done)
    | (show Block.nvm _ = _; dsimp -zeta only; show KeepNvm _ _)
    | with_reducible refine keepNvm_ite ?_ ?_
    | with_reducible refine keepNvm1_ite ?_ ?_
    | with_reducible refine keepNvm2_ite ?_ ?_
    | split
    | with_reducible refine keepNvm_fst (by assumption) ?_
    | with_reducible refine keepNvm_snd (by assumption) ?_
    | assumption

theorem Block.fenceOne_nvm (b : Block) (k : FenceKind) (i cause role : Nat) : (Block.fenceOne b k i cause role).nvm = b.nvm := by
  suffices h : KeepNvm b.nvm (Block.fenceOne b k i cause role) from h
  have h0 : KeepNvm b.nvm b := rfl
  unfold Block.fenceOne
  repeat' first
    | with_reducible assumption
    | (extract_lets +onlyGivenNames x; guard_hyp x : Block := _; refine keepNvm_named (n := b.nvm) x ?_ ?_; dsimp -zeta only [x]; clear x; rotate_left; clear_value x; revert x; intro _ _)
    | (extract_lets +onlyGivenNames x; clear_value x; revert x; intro _)
    | with_reducible first
      | refine keepNvm_forEach ?_ (fun c a hc => ?_)
      | apply keepNvm_eq (Block.setBitOf_nvm ..)
      | apply keepNvm_eq (Block.updSlice_nvm ..)
      | apply keepNvm_eq (Block.respondAll_nvm ..)
      | apply keepNvm_eq (Block.audFence_nvm ..)
    | with_reducible first
      | apply keepNvm_eq (Block.fenceSubEffect_nvm ..)
    | (show Block.nvm _ = _; dsimp -zeta only; done)
    | (show Block.nvm _ = _; dsimp -zeta only; show KeepNvm _ _)
    | with_reducible refine keepNvm_ite ?_ ?_
    | split

theorem Block.fence_nvm (b : Block) (k : FenceKind) (i cause role : Nat) : (Block.fence b k i cause role).nvm = b.nvm := by
  suffices h : KeepNvm b.nvm (Block.fence b k i cause role) from h
  have h0 : KeepNvm b.nvm b := rfl
  unfold Block.fence
  repeat' first
    | with_reducible assumption
    | (extract_lets +onlyGivenNames x; guard_hyp x : Block := _; refine keepNvm_named (n := b.nvm) x ?_ ?_; dsimp -zeta only [x]; clear x; rotate_left; clear_value x; revert x; intro _ _)
    | (extract_lets +onlyGivenNames x; clear_value x; revert x; intro _)
    | with_reducible first
      | apply keepNvm_eq (Block.fenceOne_nvm ..)
    | (show Block.nvm _ = _; dsimp -zeta only; done)
    | (show Block.nvm _ = _; dsimp -zeta only; show KeepNvm _ _)
    | with_reducible refine keepNvm_ite ?_ ?_
    | split

theorem Block.fenceChannel_nvm (b : Block) (n : Nat) : (Block.fenceChannel b n).nvm = b.nvm := by
  suffices h : KeepNvm b.nvm (Block.fenceChannel b n) from h
  have h0 : KeepNvm b.nvm b := rfl
  unfold Block.fenceChannel
  repeat' first
    | with_reducible assumption
    | with_reducible first
      | apply keepNvm_eq (Block.fence_nvm ..)
    | (show Block.nvm _ = _; dsimp -zeta only; done)
    | (show Block.nvm _ = _; dsimp -zeta only; show KeepNvm _ _)
    | split

theorem Block.sevFence_nvm (b : Block) (e : Event) : (Block.sevFence b e).nvm = b.nvm := by
  suffices h : KeepNvm b.nvm (Block.sevFence b e) from h
  have h0 : KeepNvm b.nvm b := rfl
  unfold Block.sevFence
  repeat' first
    | with_reducible assumption
    | with_reducible first
      | apply keepNvm_eq (Block.fence_nvm ..)
    | (show Block.nvm _ = _; dsimp -zeta only; done)
    | (show Block.nvm _ = _; dsimp -zeta only; show KeepNvm _ _)
    | with_reducible refine keepNvm_ite ?_ ?_
    | split

theorem Block.event_nvm (b : Block) (e : Event) : (Block.event b e).nvm = b.nvm := by
  suffices h : KeepNvm b.nvm (Block.event b e) from h
  have h0 : KeepNvm b.nvm b := rfl
  unfold Block.event
  repeat' first
    | with_reducible assumption
    | with_reducible first
      | apply keepNvm_eq (Block.event0_nvm ..)
      | apply keepNvm_eq (Block.sevFence_nvm ..)
    | (show Block.nvm _ = _; dsimp -zeta only; done)
    | (show Block.nvm _ = _; dsimp -zeta only; show KeepNvm _ _)
    | split

theorem Block.eventPlain_nvm (b : Block) (code kind addr : Nat) : (Block.eventPlain b code kind addr).nvm = b.nvm := by
  suffices h : KeepNvm b.nvm (Block.eventPlain b code kind addr) from h
  have h0 : KeepNvm b.nvm b := rfl
  unfold Block.eventPlain
  repeat' first
    | with_reducible assumption
    | (extract_lets +onlyGivenNames x; guard_hyp x : Block := _; refine keepNvm_named (n := b.nvm) x ?_ ?_; dsimp -zeta only [x]; clear x; rotate_left; clear_value x; revert x; intro _ _)
    | (extract_lets +onlyGivenNames x; clear_value x; revert x; intro _)
    | with_reducible first
      | apply keepNvm_eq (Block.event_nvm ..)
    | (show Block.nvm _ = _; dsimp -zeta only; done)
    | (show Block.nvm _ = _; dsimp -zeta only; show KeepNvm _ _)
    | split

theorem Block.queueUe_nvm (b : Block) : (Block.queueUe b).nvm = b.nvm := by
  suffices h : KeepNvm b.nvm (Block.queueUe b) from h
  have h0 : KeepNvm b.nvm b := rfl
  unfold Block.queueUe
  repeat' first
    | with_reducible assumption
    | with_reducible first
      | apply keepNvm_eq (Block.eventPlain_nvm ..)
    | (show Block.nvm _ = _; dsimp -zeta only; done)
    | (show Block.nvm _ = _; dsimp -zeta only; show KeepNvm _ _)
    | split

end Sys2Proof.Machine
end

