-- ==== Sys2Proof/Laws/Nvm/Clauses.lean ====
section
/-! SUPPORT. No operation of Machine/Clauses.lean changes the non-volatile store, but for those named. -/

namespace Sys2Proof.Machine

theorem Block.activate_nvm (b : Block) (s bin : Nat) : (Block.activate b s bin).nvm = b.nvm := by
  suffices h : KeepNvm b.nvm (Block.activate b s bin) from h
  have h0 : KeepNvm b.nvm b := rfl
  unfold Block.activate
  repeat' first
    | with_reducible assumption
    | (extract_lets +onlyGivenNames x; guard_hyp x : Block := _; refine keepNvm_named (n := b.nvm) x ?_ ?_; dsimp -zeta only [x]; clear x; rotate_left; clear_value x; revert x; intro _ _)
    | (extract_lets +onlyGivenNames x; clear_value x; revert x; intro _)
    | with_reducible first
      | refine keepNvm1_foldl ?_ (fun c a hc => ?_)
      | refine keepNvm2_foldl ?_ (fun c a hc => ?_)
      | refine keepNvm1_mk ?_
      | refine keepNvm2_mk ?_
      | apply keepNvm_eq (Block.wr_nvm ..)
    | with_reducible first
      | apply keepNvm_eq (Block.updSub_nvm ..)
    | (show Block.nvm _ = _; dsimp -zeta only; done)
    | (show Block.nvm _ = _; dsimp -zeta only; show KeepNvm _ _)
    | with_reducible refine keepNvm_ite ?_ ?_
    | with_reducible refine keepNvm1_ite ?_ ?_
    | with_reducible refine keepNvm2_ite ?_ ?_
    | split
    | with_reducible refine keepNvm_fst (by assumption) ?_
    | with_reducible refine keepNvm_snd (by assumption) ?_
    | with_reducible refine keepNvm_of1 ?_
    | with_reducible refine keepNvm_of2 ?_
    | assumption

theorem Block.switchBegin_nvm (b : Block) (s bin : Nat) : (Block.switchBegin b s bin).nvm = b.nvm := by
  suffices h : KeepNvm b.nvm (Block.switchBegin b s bin) from h
  have h0 : KeepNvm b.nvm b := rfl
  unfold Block.switchBegin
  repeat' first
    | with_reducible assumption
    | (extract_lets +onlyGivenNames x; guard_hyp x : Block := _; refine keepNvm_named (n := b.nvm) x ?_ ?_; dsimp -zeta only [x]; clear x; rotate_left; clear_value x; revert x; intro _ _)
    | (extract_lets +onlyGivenNames x; clear_value x; revert x; intro _)
    | with_reducible first
      | refine keepNvm_forEach ?_ (fun c a hc => ?_)
      | apply keepNvm_eq (Block.wr_nvm ..)
      | apply keepNvm_eq (Block.updSub_nvm ..)
    | (show Block.nvm _ = _; dsimp -zeta only; done)
    | (show Block.nvm _ = _; dsimp -zeta only; show KeepNvm _ _)
    | split

theorem Block.switchGo_nvm (b : Block) (s : Nat) : (Block.switchGo b s).nvm = b.nvm := by
  suffices h : KeepNvm b.nvm (Block.switchGo b s) from h
  have h0 : KeepNvm b.nvm b := rfl
  unfold Block.switchGo
  repeat' first
    | with_reducible assumption
    | (extract_lets +onlyGivenNames x; guard_hyp x : Block := _; refine keepNvm_named (n := b.nvm) x ?_ ?_; dsimp -zeta only [x]; clear x; rotate_left; clear_value x; revert x; intro _ _)
    | (extract_lets +onlyGivenNames x; clear_value x; revert x; intro _)
    | with_reducible first
      | apply keepNvm_eq (Block.wr_nvm ..)
      | apply keepNvm_eq (Block.switchBegin_nvm ..)
    | (show Block.nvm _ = _; dsimp -zeta only; done)
    | (show Block.nvm _ = _; dsimp -zeta only; show KeepNvm _ _)
    | with_reducible refine keepNvm_ite ?_ ?_
    | split

theorem Block.haltLost_nvm (b : Block) (s p : Nat) : (Block.haltLost b s p).nvm = b.nvm := by
  suffices h : KeepNvm b.nvm (Block.haltLost b s p) from h
  have h0 : KeepNvm b.nvm b := rfl
  unfold Block.haltLost
  repeat' first
    | with_reducible assumption
    | (extract_lets +onlyGivenNames x; guard_hyp x : Block := _; refine keepNvm_named (n := b.nvm) x ?_ ?_; dsimp -zeta only [x]; clear x; rotate_left; clear_value x; revert x; intro _ _)
    | (extract_lets +onlyGivenNames x; clear_value x; revert x; intro _)
    | with_reducible first
      | refine keepNvm_forEach ?_ (fun c a hc => ?_)
      | apply keepNvm_eq (Block.updSub_nvm ..)
      | apply keepNvm_eq (Block.dropMiss_nvm ..)
    | (show Block.nvm _ = _; dsimp -zeta only; done)
    | (show Block.nvm _ = _; dsimp -zeta only; show KeepNvm _ _)
    | with_reducible refine keepNvm_ite ?_ ?_
    | split

end Sys2Proof.Machine
end

