-- ==== Sys2Proof/Laws/Nvm/Sentences.lean ====
section
/-! SUPPORT. No operation of Machine/Sentences.lean changes the non-volatile store, but for those named. -/

namespace Sys2Proof.Machine

theorem Block.wake_nvm (b : Block) (n : Nat) : (Block.wake b n).nvm = b.nvm := by
  suffices h : KeepNvm b.nvm (Block.wake b n) from h
  have h0 : KeepNvm b.nvm b := rfl
  unfold Block.wake
  repeat' first
    | with_reducible assumption
    | (extract_lets +onlyGivenNames x; guard_hyp x : Block := _; refine keepNvm_named (n := b.nvm) x ?_ ?_; dsimp -zeta only [x]; clear x; rotate_left; clear_value x; revert x; intro _ _)
    | (extract_lets +onlyGivenNames x; clear_value x; revert x; intro _)
    | with_reducible first
      | apply keepNvm_eq (Block.wr_nvm ..)
    | (show Block.nvm _ = _; dsimp -zeta only; done)
    | (show Block.nvm _ = _; dsimp -zeta only; show KeepNvm _ _)
    | with_reducible refine keepNvm_ite ?_ ?_
    | split

theorem Block.restartTicks_nvm (b : Block) (s : Nat) : (Block.restartTicks b s).nvm = b.nvm := by
  suffices h : KeepNvm b.nvm (Block.restartTicks b s) from h
  have h0 : KeepNvm b.nvm b := rfl
  unfold Block.restartTicks
  repeat' first
    | with_reducible assumption
    | (extract_lets +onlyGivenNames x; guard_hyp x : Block := _; refine keepNvm_named (n := b.nvm) x ?_ ?_; dsimp -zeta only [x]; clear x; rotate_left; clear_value x; revert x; intro _ _)
    | (extract_lets +onlyGivenNames x; clear_value x; revert x; intro _)
    | with_reducible first
      | apply keepNvm_eq (Block.updSub_nvm ..)
    | (show Block.nvm _ = _; dsimp -zeta only; done)
    | (show Block.nvm _ = _; dsimp -zeta only; show KeepNvm _ _)
    | with_reducible refine keepNvm_ite ?_ ?_
    | split

theorem Block.updTrain_nvm (b : Block) (s : Nat) (f : TrainRun → TrainRun) : (Block.updTrain b s f).nvm = b.nvm := by
  suffices h : KeepNvm b.nvm (Block.updTrain b s f) from h
  have h0 : KeepNvm b.nvm b := rfl
  unfold Block.updTrain
  repeat' first
    | with_reducible assumption
    | (extract_lets +onlyGivenNames x; guard_hyp x : Block := _; refine keepNvm_named (n := b.nvm) x ?_ ?_; dsimp -zeta only [x]; clear x; rotate_left; clear_value x; revert x; intro _ _)
    | (extract_lets +onlyGivenNames x; clear_value x; revert x; intro _)
    | (show Block.nvm _ = _; dsimp -zeta only; done)
    | (show Block.nvm _ = _; dsimp -zeta only; show KeepNvm _ _)
    | split

theorem Block.trainHears_nvm (b : Block) (s outcome : Nat) : (Block.trainHears b s outcome).nvm = b.nvm := by
  suffices h : KeepNvm b.nvm (Block.trainHears b s outcome) from h
  have h0 : KeepNvm b.nvm b := rfl
  unfold Block.trainHears
  repeat' first
    | with_reducible assumption
    | (extract_lets +onlyGivenNames x; guard_hyp x : Block := _; refine keepNvm_named (n := b.nvm) x ?_ ?_; dsimp -zeta only [x]; clear x; rotate_left; clear_value x; revert x; intro _ _)
    | (extract_lets +onlyGivenNames x; clear_value x; revert x; intro _)
    | with_reducible first
      | apply keepNvm_eq (Block.updTrain_nvm ..)
    | (show Block.nvm _ = _; dsimp -zeta only; done)
    | (show Block.nvm _ = _; dsimp -zeta only; show KeepNvm _ _)
    | split

theorem Block.sntOver_nvm (b : Block) (s outcome : Nat) (why : Purpose) : (Block.sntOver b s outcome why).nvm = b.nvm := by
  suffices h : KeepNvm b.nvm (Block.sntOver b s outcome why) from h
  have h0 : KeepNvm b.nvm b := rfl
  unfold Block.sntOver
  repeat' first
    | with_reducible assumption
    | (extract_lets +onlyGivenNames x; guard_hyp x : Block := _; refine keepNvm_named (n := b.nvm) x ?_ ?_; dsimp -zeta only [x]; clear x; rotate_left; clear_value x; revert x; intro _ _)
    | (extract_lets +onlyGivenNames x; clear_value x; revert x; intro _)
    | with_reducible first
      | refine keepNvm_forEach ?_ (fun c a hc => ?_)
      | apply keepNvm_eq (Block.updSub_nvm ..)
      | apply keepNvm_eq (Block.trackJump_nvm ..)
      | apply keepNvm_eq (Block.repairEnd_nvm (hev := Block.event0_nvm) ..)
      | apply keepNvm_eq (Block.repairEnd_nvm (hev := Block.event_nvm) ..)
    | with_reducible first
      | apply keepNvm_eq (Block.fence_nvm ..)
      | apply keepNvm_eq (Block.event_nvm ..)
      | apply keepNvm_eq (Block.restartTicks_nvm ..)
      | apply keepNvm_eq (Block.trainHears_nvm ..)
      | apply keepNvm_eq (Block.alert_nvm ..)
    | with_reducible first
      | apply keepNvm_eq (Block.fenceExit_nvm ..)
    | (show Block.nvm _ = _; dsimp -zeta only; done)
    | (show Block.nvm _ = _; dsimp -zeta only; show KeepNvm _ _)
    | with_reducible refine keepNvm_ite ?_ ?_
    | split

theorem Block.sntRefused_nvm (b : Block) (s outcome : Nat) (why : Purpose) : (Block.sntRefused b s outcome why).nvm = b.nvm := by
  suffices h : KeepNvm b.nvm (Block.sntRefused b s outcome why) from h
  have h0 : KeepNvm b.nvm b := rfl
  unfold Block.sntRefused
  repeat' first
    | with_reducible assumption
    | (extract_lets +onlyGivenNames x; guard_hyp x : Block := _; refine keepNvm_named (n := b.nvm) x ?_ ?_; dsimp -zeta only [x]; clear x; rotate_left; clear_value x; revert x; intro _ _)
    | (extract_lets +onlyGivenNames x; clear_value x; revert x; intro _)
    | with_reducible first
      | apply keepNvm_eq (Block.wr_nvm ..)
      | apply keepNvm_eq (Block.intr_nvm ..)
      | apply keepNvm_eq (Block.sntOver_nvm ..)
    | (show Block.nvm _ = _; dsimp -zeta only; done)
    | (show Block.nvm _ = _; dsimp -zeta only; show KeepNvm _ _)
    | with_reducible refine keepNvm_ite ?_ ?_
    | split

theorem Block.sntRequest_nvm (b : Block) (s : Nat) (r : SntReq) : (Block.sntRequest b s r).nvm = b.nvm := by
  suffices h : KeepNvm b.nvm (Block.sntRequest b s r) from h
  have h0 : KeepNvm b.nvm b := rfl
  unfold Block.sntRequest
  repeat' first
    | with_reducible assumption
    | (extract_lets +onlyGivenNames x; guard_hyp x : Block × _ := _; refine keepNvm1_named (n := b.nvm) x ?_ ?_; dsimp -zeta only [x]; clear x; rotate_left; clear_value x; revert x; intro _ _)
    | (extract_lets +onlyGivenNames x; guard_hyp x : Block := _; refine keepNvm_named (n := b.nvm) x ?_ ?_; dsimp -zeta only [x]; clear x; rotate_left; clear_value x; revert x; intro _ _)
    | (extract_lets +onlyGivenNames x; clear_value x; revert x; intro _)
    | with_reducible first
      | refine keepNvm1_mk ?_
      | refine keepNvm2_mk ?_
      | apply keepNvm_eq (Block.wr_nvm ..)
      | apply keepNvm_eq (Block.updSub_nvm ..)
      | apply keepNvm_eq (Block.wake_nvm ..)
    | with_reducible first
      | apply keepNvm_eq (Block.sntRefused_nvm ..)
    | (show Block.nvm _ = _; dsimp -zeta only; done)
    | (show Block.nvm _ = _; dsimp -zeta only; show KeepNvm _ _)
    | with_reducible refine keepNvm_ite ?_ ?_
    | with_reducible refine keepNvm1_ite ?_ ?_
    | with_reducible refine keepNvm2_ite ?_ ?_
    | split
    | with_reducible refine keepNvm_fst (by assumption) ?_
    | with_reducible refine keepNvm_snd (by assumption) ?_
    | assumption

theorem Block.keeperRequest_nvm (b : Block) (s : Nat) (p : Purpose) (urgent : Bool) : (Block.keeperRequest b s p urgent).nvm = b.nvm := by
  suffices h : KeepNvm b.nvm (Block.keeperRequest b s p urgent) from h
  have h0 : KeepNvm b.nvm b := rfl
  unfold Block.keeperRequest
  repeat' first
    | with_reducible assumption
    | with_reducible first
      | apply keepNvm_eq (Block.sntRequest_nvm ..)
    | (show Block.nvm _ = _; dsimp -zeta only; done)
    | (show Block.nvm _ = _; dsimp -zeta only; show KeepNvm _ _)
    | split

theorem Block.sentenceEnd_nvm (b : Block) (s outcome : Nat) : (Block.sentenceEnd b s outcome).nvm = b.nvm := by
  suffices h : KeepNvm b.nvm (Block.sentenceEnd b s outcome) from h
  have h0 : KeepNvm b.nvm b := rfl
  unfold Block.sentenceEnd
  repeat' first
    | with_reducible assumption
    | with_reducible first
      | apply keepNvm_eq (Block.endSentenceWith_nvm (hev := Block.event0_nvm) ..)
      | apply keepNvm_eq (Block.endSentenceWith_nvm (hev := Block.event_nvm) ..)
      | apply keepNvm_eq (Block.event_nvm ..)
      | apply keepNvm_eq (Block.sntOver_nvm ..)
    | (show Block.nvm _ = _; dsimp -zeta only; done)
    | (show Block.nvm _ = _; dsimp -zeta only; show KeepNvm _ _)
    | split

theorem Block.stepEnded_nvm (b : Block) (s : Nat) : (Block.stepEnded b s).nvm = b.nvm := by
  suffices h : KeepNvm b.nvm (Block.stepEnded b s) from h
  have h0 : KeepNvm b.nvm b := rfl
  unfold Block.stepEnded
  repeat' first
    | with_reducible assumption
    | (extract_lets +onlyGivenNames x; guard_hyp x : Block := _; refine keepNvm_named (n := b.nvm) x ?_ ?_; dsimp -zeta only [x]; clear x; rotate_left; clear_value x; revert x; intro _ _)
    | (extract_lets +onlyGivenNames x; clear_value x; revert x; intro _)
    | with_reducible first
      | apply keepNvm_eq (Block.wr_nvm ..)
      | apply keepNvm_eq (Block.updSub_nvm ..)
      | apply keepNvm_eq (Block.sentenceEnd_nvm ..)
    | (show Block.nvm _ = _; dsimp -zeta only; done)
    | (show Block.nvm _ = _; dsimp -zeta only; show KeepNvm _ _)
    | split

theorem Block.sentenceStart_nvm (b : Block) (s : Nat) : (Block.sentenceStart b s).nvm = b.nvm := by
  suffices h : KeepNvm b.nvm (Block.sentenceStart b s) from h
  have h0 : KeepNvm b.nvm b := rfl
  unfold Block.sentenceStart
  repeat' first
    | with_reducible assumption
    | (extract_lets +onlyGivenNames x; guard_hyp x : Block := _; refine keepNvm_named (n := b.nvm) x ?_ ?_; dsimp -zeta only [x]; clear x; rotate_left; clear_value x; revert x; intro _ _)
    | (extract_lets +onlyGivenNames x; clear_value x; revert x; intro _)
    | with_reducible first
      | apply keepNvm_eq (Block.wr_nvm ..)
      | apply keepNvm_eq (Block.wrB_nvm ..)
      | apply keepNvm_eq (Block.updSub_nvm ..)
      | apply keepNvm_eq (Block.sentenceEnd_nvm ..)
    | (show Block.nvm _ = _; dsimp -zeta only; done)
    | (show Block.nvm _ = _; dsimp -zeta only; show KeepNvm _ _)
    | with_reducible refine keepNvm_ite ?_ ?_
    | split

theorem Block.waitEnd_nvm (b : Block) (s : Nat) : (Block.waitEnd b s).nvm = b.nvm := by
  suffices h : KeepNvm b.nvm (Block.waitEnd b s) from h
  have h0 : KeepNvm b.nvm b := rfl
  unfold Block.waitEnd
  repeat' first
    | with_reducible assumption
    | with_reducible first
      | apply keepNvm_eq (Block.stepEnded_nvm ..)
    | (show Block.nvm _ = _; dsimp -zeta only; done)
    | (show Block.nvm _ = _; dsimp -zeta only; show KeepNvm _ _)
    | with_reducible refine keepNvm_ite ?_ ?_
    | split

theorem Block.poll_nvm (b : Block) (s : Nat) (bytes : List (BitVec 8)) : (Block.poll b s bytes).nvm = b.nvm := by
  suffices h : KeepNvm b.nvm (Block.poll b s bytes) from h
  have h0 : KeepNvm b.nvm b := rfl
  unfold Block.poll
  repeat' first
    | with_reducible assumption
    | (extract_lets +onlyGivenNames x; guard_hyp x : Block := _; refine keepNvm_named (n := b.nvm) x ?_ ?_; dsimp -zeta only [x]; clear x; rotate_left; clear_value x; revert x; intro _ _)
    | (extract_lets +onlyGivenNames x; clear_value x; revert x; intro _)
    | with_reducible first
      | apply keepNvm_eq (Block.updSub_nvm ..)
      | apply keepNvm_eq (Block.sentenceEnd_nvm ..)
      | apply keepNvm_eq (Block.stepEnded_nvm ..)
    | (show Block.nvm _ = _; dsimp -zeta only; done)
    | (show Block.nvm _ = _; dsimp -zeta only; show KeepNvm _ _)
    | with_reducible refine keepNvm_ite ?_ ?_
    | split

theorem Block.stepWaited_nvm (b : Block) (s : Nat) : (Block.stepWaited b s).nvm = b.nvm := by
  suffices h : KeepNvm b.nvm (Block.stepWaited b s) from h
  have h0 : KeepNvm b.nvm b := rfl
  unfold Block.stepWaited
  repeat' first
    | with_reducible assumption
    | (extract_lets +onlyGivenNames x; guard_hyp x : Block := _; refine keepNvm_named (n := b.nvm) x ?_ ?_; dsimp -zeta only [x]; clear x; rotate_left; clear_value x; revert x; intro _ _)
    | (extract_lets +onlyGivenNames x; clear_value x; revert x; intro _)
    | with_reducible first
      | apply keepNvm_eq (Block.updSub_nvm ..)
    | (show Block.nvm _ = _; dsimp -zeta only; done)
    | (show Block.nvm _ = _; dsimp -zeta only; show KeepNvm _ _)
    | split

theorem Block.sentenceTimeout_nvm (b : Block) (s : Nat) : (Block.sentenceTimeout b s).nvm = b.nvm := by
  suffices h : KeepNvm b.nvm (Block.sentenceTimeout b s) from h
  have h0 : KeepNvm b.nvm b := rfl
  unfold Block.sentenceTimeout
  repeat' first
    | with_reducible assumption
    | with_reducible first
      | apply keepNvm_eq (Block.sentenceEnd_nvm ..)
    | (show Block.nvm _ = _; dsimp -zeta only; done)
    | (show Block.nvm _ = _; dsimp -zeta only; show KeepNvm _ _)
    | with_reducible refine keepNvm_ite ?_ ?_
    | split

theorem Block.ckStop_nvm (b : Block) (s : Nat) : (Block.ckStop b s).nvm = b.nvm := by
  suffices h : KeepNvm b.nvm (Block.ckStop b s) from h
  have h0 : KeepNvm b.nvm b := rfl
  unfold Block.ckStop
  repeat' first
    | with_reducible assumption
    | (extract_lets +onlyGivenNames x; guard_hyp x : Block := _; refine keepNvm_named (n := b.nvm) x ?_ ?_; dsimp -zeta only [x]; clear x; rotate_left; clear_value x; revert x; intro _ _)
    | (extract_lets +onlyGivenNames x; clear_value x; revert x; intro _)
    | with_reducible first
      | refine keepNvm_forEach ?_ (fun c a hc => ?_)
      | apply keepNvm_eq (Block.updSub_nvm ..)
      | apply keepNvm_eq (Block.ckSettle_nvm ..)
      | apply keepNvm_eq (Block.stepEnded_nvm ..)
    | (show Block.nvm _ = _; dsimp -zeta only; done)
    | (show Block.nvm _ = _; dsimp -zeta only; show KeepNvm _ _)
    | with_reducible refine keepNvm_ite ?_ ?_
    | split

theorem Block.ckStart_nvm (b : Block) (s : Nat) : (Block.ckStart b s).nvm = b.nvm := by
  suffices h : KeepNvm b.nvm (Block.ckStart b s) from h
  have h0 : KeepNvm b.nvm b := rfl
  unfold Block.ckStart
  repeat' first
    | with_reducible assumption
    | (extract_lets +onlyGivenNames x; guard_hyp x : Block := _; refine keepNvm_named (n := b.nvm) x ?_ ?_; dsimp -zeta only [x]; clear x; rotate_left; clear_value x; revert x; intro _ _)
    | (extract_lets +onlyGivenNames x; clear_value x; revert x; intro _)
    | with_reducible first
      | refine keepNvm_forEach ?_ (fun c a hc => ?_)
      | apply keepNvm_eq (Block.wr_nvm ..)
      | apply keepNvm_eq (Block.updSub_nvm ..)
      | apply keepNvm_eq (Block.stepEnded_nvm ..)
      | apply keepNvm_eq (Block.ckStop_nvm ..)
    | (show Block.nvm _ = _; dsimp -zeta only; done)
    | (show Block.nvm _ = _; dsimp -zeta only; show KeepNvm _ _)
    | with_reducible refine keepNvm_ite ?_ ?_
    | split

end Sys2Proof.Machine
end

