-- ==== Sys2Proof/Laws/Nvm/Scheduler.lean ====
section
/-! SUPPORT. No operation of Machine/Scheduler.lean changes the non-volatile store, but for those named. -/

namespace Sys2Proof.Machine

theorem Block.refill_nvm (b : Block) (s : Nat) (elig : List EntRef) : (Block.refill b s elig).nvm = b.nvm := by
  suffices h : KeepNvm b.nvm (Block.refill b s elig) from h
  have h0 : KeepNvm b.nvm b := rfl
  unfold Block.refill
  repeat' first
    | with_reducible assumption
    | (extract_lets +onlyGivenNames x; guard_hyp x : Block := _; refine keepNvm_named (n := b.nvm) x ?_ ?_; dsimp -zeta only [x]; clear x; rotate_left; clear_value x; revert x; intro _ _)
    | (extract_lets +onlyGivenNames x; clear_value x; revert x; intro _)
    | with_reducible first
      | refine keepNvm_forEach ?_ (fun c a hc => ?_)
      | apply keepNvm_eq (Block.updSub_nvm ..)
    | (show Block.nvm _ = _; dsimp -zeta only; done)
    | (show Block.nvm _ = _; dsimp -zeta only; show KeepNvm _ _)
    | with_reducible refine keepNvm_ite ?_ ?_
    | split

theorem Block.injFired_nvm (b : Block) (s : Nat) (i : Inj) (at_ : Coord) : (Block.injFired b s i at_).nvm = b.nvm := by
  suffices h : KeepNvm b.nvm (Block.injFired b s i at_) from h
  have h0 : KeepNvm b.nvm b := rfl
  unfold Block.injFired
  repeat' first
    | with_reducible assumption
    | (extract_lets +onlyGivenNames x; guard_hyp x : Block := _; refine keepNvm_named (n := b.nvm) x ?_ ?_; dsimp -zeta only [x]; clear x; rotate_left; clear_value x; revert x; intro _ _)
    | (extract_lets +onlyGivenNames x; clear_value x; revert x; intro _)
    | with_reducible first
      | apply keepNvm_eq (Block.wr_nvm ..)
      | apply keepNvm_eq (Block.wrB_nvm ..)
    | (show Block.nvm _ = _; dsimp -zeta only; done)
    | (show Block.nvm _ = _; dsimp -zeta only; show KeepNvm _ _)
    | with_reducible refine keepNvm_ite ?_ ?_
    | split

theorem Block.writeIssued_nvm (b : Block) (s : Nat) (c : Coord) : (Block.writeIssued b s c).nvm = b.nvm := by
  suffices h : KeepNvm b.nvm (Block.writeIssued b s c) from h
  have h0 : KeepNvm b.nvm b := rfl
  unfold Block.writeIssued
  repeat' first
    | with_reducible assumption
    | (extract_lets +onlyGivenNames x; guard_hyp x : Block := _; refine keepNvm_named (n := b.nvm) x ?_ ?_; dsimp -zeta only [x]; clear x; rotate_left; clear_value x; revert x; intro _ _)
    | (extract_lets +onlyGivenNames x; clear_value x; revert x; intro _)
    | with_reducible first
      | refine keepNvm_forEach ?_ (fun c a hc => ?_)
      | apply keepNvm_eq (Block.wr_nvm ..)
      | apply keepNvm_eq (Block.updLog_nvm ..)
    | (show Block.nvm _ = _; dsimp -zeta only; done)
    | (show Block.nvm _ = _; dsimp -zeta only; show KeepNvm _ _)
    | with_reducible refine keepNvm_ite ?_ ?_
    | split

theorem Block.issueColumn_nvm (b : Block) (s : Nat) (r : EntRef) (c : HistCmd) : (Block.issueColumn b s r c).nvm = b.nvm := by
  suffices h : KeepNvm b.nvm (Block.issueColumn b s r c) from h
  have h0 : KeepNvm b.nvm b := rfl
  unfold Block.issueColumn
  repeat' first
    | with_reducible assumption
    | (extract_lets +onlyGivenNames x; guard_hyp x : Block × _ := _; refine keepNvm1_named (n := b.nvm) x ?_ ?_; dsimp -zeta only [x]; clear x; rotate_left; clear_value x; revert x; intro _ _)
    | (extract_lets +onlyGivenNames x; guard_hyp x : Block := _; refine keepNvm_named (n := b.nvm) x ?_ ?_; dsimp -zeta only [x]; clear x; rotate_left; clear_value x; revert x; intro _ _)
    | (extract_lets +onlyGivenNames x; clear_value x; revert x; intro _)
    | with_reducible first
      | refine keepNvm1_mk ?_
      | refine keepNvm2_mk ?_
      | apply keepNvm_eq (Block.wr_nvm ..)
      | apply keepNvm_eq (Block.bump_nvm ..)
      | apply keepNvm_eq (Block.intr_nvm ..)
    | with_reducible first
      | apply keepNvm_eq (Block.updSub_nvm ..)
      | apply keepNvm_eq (Block.count_nvm ..)
      | apply keepNvm_eq (Block.injFired_nvm ..)
      | apply keepNvm_eq (Block.writeIssued_nvm ..)
      | apply keepNvm_eq (Block.idle_nvm ..)
    | (show Block.nvm _ = _; dsimp -zeta only; done)
    | (show Block.nvm _ = _; dsimp -zeta only; show KeepNvm _ _)
    | with_reducible refine keepNvm_ite ?_ ?_
    | with_reducible refine keepNvm1_ite ?_ ?_
    | with_reducible refine keepNvm2_ite ?_ ?_
    | split
    | with_reducible refine keepNvm_fst (by assumption) ?_
    | with_reducible refine keepNvm_snd (by assumption) ?_
    | assumption

theorem Block.raaReached_nvm (b : Block) (s key : Nat) : (Block.raaReached b s key).nvm = b.nvm := by
  suffices h : KeepNvm b.nvm (Block.raaReached b s key) from h
  have h0 : KeepNvm b.nvm b := rfl
  unfold Block.raaReached
  repeat' first
    | with_reducible assumption
    | with_reducible first
      | apply keepNvm_eq (Block.wr_nvm ..)
      | apply keepNvm_eq (Block.intr_nvm ..)
    | (show Block.nvm _ = _; dsimp -zeta only; done)
    | (show Block.nvm _ = _; dsimp -zeta only; show KeepNvm _ _)
    | with_reducible refine keepNvm_ite ?_ ?_
    | split

theorem Block.issue_nvm (b : Block) (s : Nat) (c : Cand) : (Block.issue b s c).nvm = b.nvm := by
  suffices h : KeepNvm b.nvm (Block.issue b s c) from h
  have h0 : KeepNvm b.nvm b := rfl
  unfold Block.issue
  repeat' first
    | with_reducible assumption
    | (extract_lets +onlyGivenNames x; guard_hyp x : Block := _; refine keepNvm_named (n := b.nvm) x ?_ ?_; dsimp -zeta only [x]; clear x; rotate_left; clear_value x; revert x; intro _ _)
    | (extract_lets +onlyGivenNames x; refine keepNvm_fn x ?_; dsimp -zeta only [x]; clear x)
    | (extract_lets +onlyGivenNames x; refine keepNvm_fn2 x ?_; dsimp -zeta only [x]; clear x)
    | (extract_lets +onlyGivenNames x; refine keepNvm_fn3 x ?_; dsimp -zeta only [x]; clear x)
    | (extract_lets +onlyGivenNames x; refine keepNvm_fn4 x ?_; dsimp -zeta only [x]; clear x)
    | (extract_lets +onlyGivenNames x; clear_value x; revert x; intro _)
    | with_reducible first
      | apply keepNvm_eq (Block.wr_nvm ..)
      | apply keepNvm_eq (Block.bump_nvm ..)
      | apply keepNvm_eq (Block.intr_nvm ..)
      | apply keepNvm_eq (Block.updSub_nvm ..)
      | apply keepNvm_eq (Block.count_nvm ..)
    | with_reducible first
      | apply keepNvm_eq (Block.event_nvm ..)
      | apply keepNvm_eq (Block.activate_nvm ..)
      | apply keepNvm_eq (Block.issueColumn_nvm ..)
      | apply keepNvm_eq (Block.raaReached_nvm ..)
      | apply keepNvm_eq (Block.idle_nvm ..)
    | (show Block.nvm _ = _; dsimp -zeta only; done)
    | (show Block.nvm _ = _; dsimp -zeta only; show KeepNvm _ _)
    | with_reducible refine keepNvm_ite ?_ ?_
    | split

theorem Block.stepBanks_nvm (b : Block) (s : Nat) (c : HistCmd) : (Block.stepBanks b s c).nvm = b.nvm := by
  suffices h : KeepNvm b.nvm (Block.stepBanks b s c) from h
  have h0 : KeepNvm b.nvm b := rfl
  unfold Block.stepBanks
  repeat' first
    | with_reducible assumption
    | (extract_lets +onlyGivenNames x; guard_hyp x : Block := _; refine keepNvm_named (n := b.nvm) x ?_ ?_; dsimp -zeta only [x]; clear x; rotate_left; clear_value x; revert x; intro _ _)
    | (extract_lets +onlyGivenNames x; refine keepNvm_fn x ?_; dsimp -zeta only [x]; clear x)
    | (extract_lets +onlyGivenNames x; refine keepNvm_fn2 x ?_; dsimp -zeta only [x]; clear x)
    | (extract_lets +onlyGivenNames x; refine keepNvm_fn3 x ?_; dsimp -zeta only [x]; clear x)
    | (extract_lets +onlyGivenNames x; refine keepNvm_fn4 x ?_; dsimp -zeta only [x]; clear x)
    | (extract_lets +onlyGivenNames x; clear_value x; revert x; intro _)
    | with_reducible first
      | apply keepNvm_eq (Block.updSub_nvm ..)
      | apply keepNvm_eq (Block.activate_nvm ..)
      | apply keepNvm_eq (Block.raaReached_nvm ..)
      | apply keepNvm_eq (Block.idle_nvm ..)
    | (show Block.nvm _ = _; dsimp -zeta only; done)
    | (show Block.nvm _ = _; dsimp -zeta only; show KeepNvm _ _)
    | with_reducible refine keepNvm_ite ?_ ?_
    | split

theorem Block.selfRefresh_nvm (b : Block) (s : Nat) (c : HistCmd) : (Block.selfRefresh b s c).nvm = b.nvm := by
  suffices h : KeepNvm b.nvm (Block.selfRefresh b s c) from h
  have h0 : KeepNvm b.nvm b := rfl
  unfold Block.selfRefresh
  repeat' first
    | with_reducible assumption
    | (extract_lets +onlyGivenNames x; guard_hyp x : Block := _; refine keepNvm_named (n := b.nvm) x ?_ ?_; dsimp -zeta only [x]; clear x; rotate_left; clear_value x; revert x; intro _ _)
    | (extract_lets +onlyGivenNames x; clear_value x; revert x; intro _)
    | with_reducible first
      | apply keepNvm_eq (Block.updSub_nvm ..)
      | apply keepNvm_eq (Block.restartTicks_nvm ..)
    | (show Block.nvm _ = _; dsimp -zeta only; done)
    | (show Block.nvm _ = _; dsimp -zeta only; show KeepNvm _ _)
    | with_reducible refine keepNvm_ite ?_ ?_
    | split

theorem Block.rowRead_nvm (b : Block) (s : Nat) (r : RowRead) : (Block.rowRead b s r).nvm = b.nvm := by
  suffices h : KeepNvm b.nvm (Block.rowRead b s r) from h
  have h0 : KeepNvm b.nvm b := rfl
  unfold Block.rowRead
  repeat' first
    | with_reducible assumption
    | with_reducible first
      | apply keepNvm_eq (Block.bump_nvm ..)
    | (show Block.nvm _ = _; dsimp -zeta only; done)
    | (show Block.nvm _ = _; dsimp -zeta only; show KeepNvm _ _)
    | split

theorem Block.issueStep_nvm (b : Block) (s : Nat) (c : Cand) (mrr : Nat) (row : RowRead) : (Block.issueStep b s c mrr row).nvm = b.nvm := by
  suffices h : KeepNvm b.nvm (Block.issueStep b s c mrr row) from h
  have h0 : KeepNvm b.nvm b := rfl
  unfold Block.issueStep
  repeat' first
    | with_reducible assumption
    | (extract_lets +onlyGivenNames x; guard_hyp x : Block := _; refine keepNvm_named (n := b.nvm) x ?_ ?_; dsimp -zeta only [x]; clear x; rotate_left; clear_value x; revert x; intro _ _)
    | (extract_lets +onlyGivenNames x; clear_value x; revert x; intro _)
    | with_reducible first
      | refine keepNvm_forEach ?_ (fun c a hc => ?_)
      | apply keepNvm_eq (Block.updSub_nvm ..)
      | apply keepNvm_eq (Block.count_nvm ..)
      | apply keepNvm_eq (Block.stepEnded_nvm ..)
      | apply keepNvm_eq (Block.stepBanks_nvm ..)
    | with_reducible first
      | apply keepNvm_eq (Block.selfRefresh_nvm ..)
      | apply keepNvm_eq (Block.rowRead_nvm ..)
    | (show Block.nvm _ = _; dsimp -zeta only; done)
    | (show Block.nvm _ = _; dsimp -zeta only; show KeepNvm _ _)
    | with_reducible refine keepNvm_ite ?_ ?_
    | split

theorem Block.idleTimers_nvm (b : Block) (s : Nat) : (Block.idleTimers b s).nvm = b.nvm := by
  suffices h : KeepNvm b.nvm (Block.idleTimers b s) from h
  have h0 : KeepNvm b.nvm b := rfl
  unfold Block.idleTimers
  repeat' first
    | with_reducible assumption
    | (extract_lets +onlyGivenNames x; guard_hyp x : Block := _; refine keepNvm_named (n := b.nvm) x ?_ ?_; dsimp -zeta only [x]; clear x; rotate_left; clear_value x; revert x; intro _ _)
    | (extract_lets +onlyGivenNames x; clear_value x; revert x; intro _)
    | with_reducible first
      | apply keepNvm_eq (Block.updSub_nvm ..)
      | apply keepNvm_eq (Block.idle_nvm ..)
    | (show Block.nvm _ = _; dsimp -zeta only; done)
    | (show Block.nvm _ = _; dsimp -zeta only; show KeepNvm _ _)
    | with_reducible refine keepNvm_ite ?_ ?_
    | split

theorem Block.idleDue_nvm (b : Block) (s : Nat) : (Block.idleDue b s).nvm = b.nvm := by
  suffices h : KeepNvm b.nvm (Block.idleDue b s) from h
  have h0 : KeepNvm b.nvm b := rfl
  unfold Block.idleDue
  repeat' first
    | with_reducible assumption
    | (extract_lets +onlyGivenNames x; guard_hyp x : Block := _; refine keepNvm_named (n := b.nvm) x ?_ ?_; dsimp -zeta only [x]; clear x; rotate_left; clear_value x; revert x; intro _ _)
    | (extract_lets +onlyGivenNames x; clear_value x; revert x; intro _)
    | with_reducible first
      | refine keepNvm1_mk ?_
      | refine keepNvm2_mk ?_
      | apply keepNvm_eq (Block.updSub_nvm ..)
      | apply keepNvm_eq (Block.idle_nvm ..)
    | (show Block.nvm _ = _; dsimp -zeta only; done)
    | (show Block.nvm _ = _; dsimp -zeta only; show KeepNvm _ _)
    | with_reducible refine keepNvm_ite ?_ ?_
    | with_reducible refine keepNvm1_ite ?_ ?_
    | with_reducible refine keepNvm2_ite ?_ ?_
    | split
    | with_reducible refine keepNvm_fst (by assumption) ?_
    | with_reducible refine keepNvm_snd (by assumption) ?_
    | assumption

theorem Block.freeWrites_nvm (b : Block) (s : Nat) : (Block.freeWrites b s).nvm = b.nvm := by
  suffices h : KeepNvm b.nvm (Block.freeWrites b s) from h
  have h0 : KeepNvm b.nvm b := rfl
  unfold Block.freeWrites
  repeat' first
    | with_reducible assumption
    | (extract_lets +onlyGivenNames x; guard_hyp x : Block := _; refine keepNvm_named (n := b.nvm) x ?_ ?_; dsimp -zeta only [x]; clear x; rotate_left; clear_value x; revert x; intro _ _)
    | (extract_lets +onlyGivenNames x; clear_value x; revert x; intro _)
    | with_reducible first
      | apply keepNvm_eq (Block.updSub_nvm ..)
    | (show Block.nvm _ = _; dsimp -zeta only; done)
    | (show Block.nvm _ = _; dsimp -zeta only; show KeepNvm _ _)
    | with_reducible refine keepNvm_ite ?_ ?_
    | split

theorem Block.readsAgain_nvm (b : Block) (s : Nat) : (Block.readsAgain b s).nvm = b.nvm := by
  suffices h : KeepNvm b.nvm (Block.readsAgain b s) from h
  have h0 : KeepNvm b.nvm b := rfl
  unfold Block.readsAgain
  repeat' first
    | with_reducible assumption
    | (extract_lets +onlyGivenNames x; guard_hyp x : Block := _; refine keepNvm_named (n := b.nvm) x ?_ ?_; dsimp -zeta only [x]; clear x; rotate_left; clear_value x; revert x; intro _ _)
    | (extract_lets +onlyGivenNames x; clear_value x; revert x; intro _)
    | with_reducible first
      | apply keepNvm_eq (Block.updSub_nvm ..)
    | (show Block.nvm _ = _; dsimp -zeta only; done)
    | (show Block.nvm _ = _; dsimp -zeta only; show KeepNvm _ _)
    | split

theorem Block.issueAt_nvm (b : Block) (s ph mrr : Nat) (row : RowRead) (c : Option Cand) : (Block.issueAt b s ph mrr row c).nvm = b.nvm := by
  suffices h : KeepNvm b.nvm (Block.issueAt b s ph mrr row c) from h
  have h0 : KeepNvm b.nvm b := rfl
  unfold Block.issueAt
  repeat' first
    | with_reducible assumption
    | (extract_lets +onlyGivenNames x; guard_hyp x : Block := _; refine keepNvm_named (n := b.nvm) x ?_ ?_; dsimp -zeta only [x]; clear x; rotate_left; clear_value x; revert x; intro _ _)
    | (extract_lets +onlyGivenNames x; clear_value x; revert x; intro _)
    | with_reducible first
      | refine keepNvm_forEach ?_ (fun c a hc => ?_)
      | apply keepNvm_eq (Block.updSub_nvm ..)
      | apply keepNvm_eq (Block.issue_nvm ..)
      | apply keepNvm_eq (Block.issueStep_nvm ..)
    | (show Block.nvm _ = _; dsimp -zeta only; done)
    | (show Block.nvm _ = _; dsimp -zeta only; show KeepNvm _ _)
    | split

theorem Block.entryUpset_nvm (b : Block) (s : Nat) (c : Option Cand) : (Block.entryUpset b s c).nvm = b.nvm := by
  suffices h : KeepNvm b.nvm (Block.entryUpset b s c) from h
  have h0 : KeepNvm b.nvm b := rfl
  unfold Block.entryUpset
  repeat' first
    | with_reducible assumption
    | (extract_lets +onlyGivenNames x; guard_hyp x : Block := _; refine keepNvm_named (n := b.nvm) x ?_ ?_; dsimp -zeta only [x]; clear x; rotate_left; clear_value x; revert x; intro _ _)
    | (extract_lets +onlyGivenNames x; clear_value x; revert x; intro _)
    | with_reducible first
      | apply keepNvm_eq (Block.wr_nvm ..)
      | apply keepNvm_eq (Block.updSub_nvm ..)
      | apply keepNvm_eq (Block.dropMiss_nvm ..)
      | apply keepNvm_eq (Block.queueUe_nvm ..)
    | (show Block.nvm _ = _; dsimp -zeta only; done)
    | (show Block.nvm _ = _; dsimp -zeta only; show KeepNvm _ _)
    | split

theorem Block.slotRun_nvm (b : Block) (s mrr : Nat) (row : RowRead) (upset : Bool) : (Block.slotRun b s mrr row upset).nvm = b.nvm := by
  suffices h : KeepNvm b.nvm (Block.slotRun b s mrr row upset) from h
  have h0 : KeepNvm b.nvm b := rfl
  unfold Block.slotRun
  repeat' first
    | with_reducible assumption
    | (extract_lets +onlyGivenNames x; guard_hyp x : Block := _; refine keepNvm_named (n := b.nvm) x ?_ ?_; dsimp -zeta only [x]; clear x; rotate_left; clear_value x; revert x; intro _ _)
    | (extract_lets +onlyGivenNames x; clear_value x; revert x; intro _)
    | with_reducible first
      | refine keepNvm_forEach ?_ (fun c a hc => ?_)
      | apply keepNvm_eq (Block.wrB_nvm ..)
      | apply keepNvm_eq (Block.updSub_nvm ..)
      | apply keepNvm_eq (Block.count_nvm ..)
      | apply keepNvm_eq (Block.countSlot_nvm ..)
    | with_reducible first
      | apply keepNvm_eq (Block.refill_nvm ..)
      | apply keepNvm_eq (Block.idleTimers_nvm ..)
      | apply keepNvm_eq (Block.idleDue_nvm ..)
      | apply keepNvm_eq (Block.freeWrites_nvm ..)
      | apply keepNvm_eq (Block.readsAgain_nvm ..)
    | with_reducible first
      | apply keepNvm_eq (Block.issueAt_nvm ..)
      | apply keepNvm_eq (Block.entryUpset_nvm ..)
      | apply keepNvm_eq (Block.upset_nvm ..)
    | (show Block.nvm _ = _; dsimp -zeta only; done)
    | (show Block.nvm _ = _; dsimp -zeta only; show KeepNvm _ _)
    | with_reducible refine keepNvm_ite ?_ ?_
    | split

theorem Block.putCmd_nvm (b : Block) (s : Nat) (c : HistCmd) : (Block.putCmd b s c).nvm = b.nvm := by
  suffices h : KeepNvm b.nvm (Block.putCmd b s c) from h
  have h0 : KeepNvm b.nvm b := rfl
  unfold Block.putCmd
  repeat' first
    | with_reducible assumption
    | with_reducible first
      | refine keepNvm_forEach ?_ (fun c a hc => ?_)
      | apply keepNvm_eq (Block.putPins_nvm ..)
      | apply keepNvm_eq (Block.stepBanks_nvm ..)
      | apply keepNvm_eq (Block.selfRefresh_nvm ..)
    | (show Block.nvm _ = _; dsimp -zeta only; done)
    | (show Block.nvm _ = _; dsimp -zeta only; show KeepNvm _ _)
    | split

theorem Block.putSentence_nvm (b : Block) (s n : Nat) : (Block.putSentence b s n).nvm = b.nvm := by
  suffices h : KeepNvm b.nvm (Block.putSentence b s n) from h
  have h0 : KeepNvm b.nvm b := rfl
  unfold Block.putSentence
  repeat' first
    | with_reducible assumption
    | (extract_lets +onlyGivenNames x; guard_hyp x : Block := _; refine keepNvm_named (n := b.nvm) x ?_ ?_; dsimp -zeta only [x]; clear x; rotate_left; clear_value x; revert x; intro _ _)
    | (extract_lets +onlyGivenNames x; clear_value x; revert x; intro _)
    | with_reducible first
      | refine keepNvm_forEach ?_ (fun c a hc => ?_)
      | apply keepNvm_eq (Block.updSub_nvm ..)
      | apply keepNvm_eq (Block.putCmd_nvm ..)
    | (show Block.nvm _ = _; dsimp -zeta only; done)
    | (show Block.nvm _ = _; dsimp -zeta only; show KeepNvm _ _)
    | with_reducible refine keepNvm_ite ?_ ?_
    | split

theorem Block.powerDown_nvm (b : Block) (n : Nat) (enter : Bool) : (Block.powerDown b n enter).nvm = b.nvm := by
  suffices h : KeepNvm b.nvm (Block.powerDown b n enter) from h
  have h0 : KeepNvm b.nvm b := rfl
  unfold Block.powerDown
  repeat' first
    | with_reducible assumption
    | (extract_lets +onlyGivenNames x; guard_hyp x : Block := _; refine keepNvm_named (n := b.nvm) x ?_ ?_; dsimp -zeta only [x]; clear x; rotate_left; clear_value x; revert x; intro _ _)
    | (extract_lets +onlyGivenNames x; clear_value x; revert x; intro _)
    | with_reducible first
      | refine keepNvm_forEach ?_ (fun c a hc => ?_)
      | apply keepNvm_eq (Block.putCmd_nvm ..)
      | apply keepNvm_eq (Block.enter_nvm ..)
    | (show Block.nvm _ = _; dsimp -zeta only; done)
    | (show Block.nvm _ = _; dsimp -zeta only; show KeepNvm _ _)
    | with_reducible refine keepNvm_ite ?_ ?_
    | split

theorem Block.powerSre_nvm (b : Block) (n : Nat) : (Block.powerSre b n).nvm = b.nvm := by
  suffices h : KeepNvm b.nvm (Block.powerSre b n) from h
  have h0 : KeepNvm b.nvm b := rfl
  unfold Block.powerSre
  repeat' first
    | with_reducible assumption
    | (extract_lets +onlyGivenNames x; guard_hyp x : Block := _; refine keepNvm_named (n := b.nvm) x ?_ ?_; dsimp -zeta only [x]; clear x; rotate_left; clear_value x; revert x; intro _ _)
    | (extract_lets +onlyGivenNames x; clear_value x; revert x; intro _)
    | with_reducible first
      | refine keepNvm_forEach ?_ (fun c a hc => ?_)
      | apply keepNvm_eq (Block.putSentence_nvm ..)
      | apply keepNvm_eq (Block.powerDown_nvm ..)
    | (show Block.nvm _ = _; dsimp -zeta only; done)
    | (show Block.nvm _ = _; dsimp -zeta only; show KeepNvm _ _)
    | with_reducible refine keepNvm_ite ?_ ?_
    | split

theorem Block.powerSrx_nvm (b : Block) (n : Nat) : (Block.powerSrx b n).nvm = b.nvm := by
  suffices h : KeepNvm b.nvm (Block.powerSrx b n) from h
  have h0 : KeepNvm b.nvm b := rfl
  unfold Block.powerSrx
  repeat' first
    | with_reducible assumption
    | with_reducible first
      | refine keepNvm_forEach ?_ (fun c a hc => ?_)
      | apply keepNvm_eq (Block.putSentence_nvm ..)
    | (show Block.nvm _ = _; dsimp -zeta only; done)
    | (show Block.nvm _ = _; dsimp -zeta only; show KeepNvm _ _)
    | split

theorem Block.refreshTick_nvm (b : Block) (s : Nat) : (Block.refreshTick b s).nvm = b.nvm := by
  suffices h : KeepNvm b.nvm (Block.refreshTick b s) from h
  have h0 : KeepNvm b.nvm b := rfl
  unfold Block.refreshTick
  repeat' first
    | with_reducible assumption
    | (extract_lets +onlyGivenNames x; guard_hyp x : Block := _; refine keepNvm_named (n := b.nvm) x ?_ ?_; dsimp -zeta only [x]; clear x; rotate_left; clear_value x; revert x; intro _ _)
    | (extract_lets +onlyGivenNames x; clear_value x; revert x; intro _)
    | with_reducible first
      | refine keepNvm_forEach ?_ (fun c a hc => ?_)
      | apply keepNvm_eq (Block.updSub_nvm ..)
    | (show Block.nvm _ = _; dsimp -zeta only; done)
    | (show Block.nvm _ = _; dsimp -zeta only; show KeepNvm _ _)
    | with_reducible refine keepNvm_ite ?_ ?_
    | split

theorem Block.pageIdle_nvm (b : Block) (s rank bg bank : Nat) : (Block.pageIdle b s rank bg bank).nvm = b.nvm := by
  suffices h : KeepNvm b.nvm (Block.pageIdle b s rank bg bank) from h
  have h0 : KeepNvm b.nvm b := rfl
  unfold Block.pageIdle
  repeat' first
    | with_reducible assumption
    | (extract_lets +onlyGivenNames x; guard_hyp x : Block := _; refine keepNvm_named (n := b.nvm) x ?_ ?_; dsimp -zeta only [x]; clear x; rotate_left; clear_value x; revert x; intro _ _)
    | (extract_lets +onlyGivenNames x; clear_value x; revert x; intro _)
    | with_reducible first
      | apply keepNvm_eq (Block.updSub_nvm ..)
      | apply keepNvm_eq (Block.idle_nvm ..)
    | (show Block.nvm _ = _; dsimp -zeta only; done)
    | (show Block.nvm _ = _; dsimp -zeta only; show KeepNvm _ _)
    | with_reducible refine keepNvm_ite ?_ ?_
    | split

theorem Block.retentionEnds_nvm (b : Block) (s : Nat) : (Block.retentionEnds b s).nvm = b.nvm := by
  suffices h : KeepNvm b.nvm (Block.retentionEnds b s) from h
  have h0 : KeepNvm b.nvm b := rfl
  unfold Block.retentionEnds
  repeat' first
    | with_reducible assumption
    | (extract_lets +onlyGivenNames x; guard_hyp x : Block := _; refine keepNvm_named (n := b.nvm) x ?_ ?_; dsimp -zeta only [x]; clear x; rotate_left; clear_value x; revert x; intro _ _)
    | (extract_lets +onlyGivenNames x; clear_value x; revert x; intro _)
    | with_reducible first
      | apply keepNvm_eq (Block.updSub_nvm ..)
    | (show Block.nvm _ = _; dsimp -zeta only; done)
    | (show Block.nvm _ = _; dsimp -zeta only; show KeepNvm _ _)
    | with_reducible refine keepNvm_ite ?_ ?_
    | split

theorem Block.convertDebt_nvm (b : Block) (s : Nat) (toSameBank : Bool) : (Block.convertDebt b s toSameBank).nvm = b.nvm := by
  suffices h : KeepNvm b.nvm (Block.convertDebt b s toSameBank) from h
  have h0 : KeepNvm b.nvm b := rfl
  unfold Block.convertDebt
  repeat' first
    | with_reducible assumption
    | (extract_lets +onlyGivenNames x; guard_hyp x : Block := _; refine keepNvm_named (n := b.nvm) x ?_ ?_; dsimp -zeta only [x]; clear x; rotate_left; clear_value x; revert x; intro _ _)
    | (extract_lets +onlyGivenNames x; clear_value x; revert x; intro _)
    | with_reducible first
      | refine keepNvm_forEach ?_ (fun c a hc => ?_)
      | apply keepNvm_eq (Block.updSub_nvm ..)
    | (show Block.nvm _ = _; dsimp -zeta only; done)
    | (show Block.nvm _ = _; dsimp -zeta only; show KeepNvm _ _)
    | with_reducible refine keepNvm_ite ?_ ?_
    | split

theorem Block.alert_nvm (b : Block) (s : Nat) : (Block.alert b s).nvm = b.nvm := by
  suffices h : KeepNvm b.nvm (Block.alert b s) from h
  have h0 : KeepNvm b.nvm b := rfl
  unfold Block.alert
  repeat' first
    | with_reducible assumption
    | (extract_lets +onlyGivenNames x; guard_hyp x : Block := _; refine keepNvm_named (n := b.nvm) x ?_ ?_; dsimp -zeta only [x]; clear x; rotate_left; clear_value x; revert x; intro _ _)
    | (extract_lets +onlyGivenNames x; clear_value x; revert x; intro _)
    | with_reducible first
      | refine keepNvm_forEach ?_ (fun c a hc => ?_)
      | apply keepNvm_eq (Block.wr_nvm ..)
      | apply keepNvm_eq (Block.bump_nvm ..)
      | apply keepNvm_eq (Block.intr_nvm ..)
      | apply keepNvm_eq (Block.updSub_nvm ..)
    | with_reducible first
      | apply keepNvm_eq (Block.keeperRequest_nvm ..)
    | (show Block.nvm _ = _; dsimp -zeta only; done)
    | (show Block.nvm _ = _; dsimp -zeta only; show KeepNvm _ _)
    | with_reducible refine keepNvm_ite ?_ ?_
    | split

theorem Block.alertBall_nvm (b : Block) (n : Nat) : (Block.alertBall b n).nvm = b.nvm := by
  suffices h : KeepNvm b.nvm (Block.alertBall b n) from h
  have h0 : KeepNvm b.nvm b := rfl
  unfold Block.alertBall
  repeat' first
    | with_reducible assumption
    | with_reducible first
      | apply keepNvm_eq (Block.alert_nvm ..)
    | (show Block.nvm _ = _; dsimp -zeta only; done)
    | (show Block.nvm _ = _; dsimp -zeta only; show KeepNvm _ _)
    | with_reducible refine keepNvm_ite ?_ ?_
    | split

theorem Block.backoffEnd_nvm (b : Block) (s : Nat) : (Block.backoffEnd b s).nvm = b.nvm := by
  suffices h : KeepNvm b.nvm (Block.backoffEnd b s) from h
  have h0 : KeepNvm b.nvm b := rfl
  unfold Block.backoffEnd
  repeat' first
    | with_reducible assumption
    | (extract_lets +onlyGivenNames x; guard_hyp x : Block := _; refine keepNvm_named (n := b.nvm) x ?_ ?_; dsimp -zeta only [x]; clear x; rotate_left; clear_value x; revert x; intro _ _)
    | (extract_lets +onlyGivenNames x; clear_value x; revert x; intro _)
    | with_reducible first
      | apply keepNvm_eq (Block.updSub_nvm ..)
    | (show Block.nvm _ = _; dsimp -zeta only; done)
    | (show Block.nvm _ = _; dsimp -zeta only; show KeepNvm _ _)
    | with_reducible refine keepNvm_ite ?_ ?_
    | split

theorem Block.replay_nvm (b : Block) (s : Nat) (reads : Bool) : (Block.replay b s reads).nvm = b.nvm := by
  suffices h : KeepNvm b.nvm (Block.replay b s reads) from h
  have h0 : KeepNvm b.nvm b := rfl
  unfold Block.replay
  repeat' first
    | with_reducible assumption
    | (extract_lets +onlyGivenNames x; guard_hyp x : Block := _; refine keepNvm_named (n := b.nvm) x ?_ ?_; dsimp -zeta only [x]; clear x; rotate_left; clear_value x; revert x; intro _ _)
    | (extract_lets +onlyGivenNames x; clear_value x; revert x; intro _)
    | with_reducible first
      | apply keepNvm_eq (Block.updSub_nvm ..)
      | apply keepNvm_eq (Block.readsAgain_nvm ..)
    | (show Block.nvm _ = _; dsimp -zeta only; done)
    | (show Block.nvm _ = _; dsimp -zeta only; show KeepNvm _ _)
    | with_reducible refine keepNvm_ite ?_ ?_
    | split

end Sys2Proof.Machine
end

