-- ==== Sys2Proof/Laws/Nvm/Training.lean ====
section
/-! SUPPORT. No operation of Machine/Training.lean changes the non-volatile store, but for those named. -/

namespace Sys2Proof.Machine

theorem Block.trainAsk_nvm (b : Block) (s steps : Nat) (why : TrainWhy) : (Block.trainAsk b s steps why).nvm = b.nvm := by
  suffices h : KeepNvm b.nvm (Block.trainAsk b s steps why) from h
  have h0 : KeepNvm b.nvm b := rfl
  unfold Block.trainAsk
  repeat' first
    | with_reducible assumption
    | (extract_lets +onlyGivenNames x; guard_hyp x : Block := _; refine keepNvm_named (n := b.nvm) x ?_ ?_; dsimp -zeta only [x]; clear x; rotate_left; clear_value x; revert x; intro _ _)
    | (extract_lets +onlyGivenNames x; clear_value x; revert x; intro _)
    | with_reducible first
      | refine keepNvm_forEach ?_ (fun c a hc => ?_)
      | apply keepNvm_eq (Block.wr_nvm ..)
      | apply keepNvm_eq (Block.trainCounts_nvm ..)
      | apply keepNvm_eq (Block.wake_nvm ..)
    | (show Block.nvm _ = _; dsimp -zeta only; done)
    | (show Block.nvm _ = _; dsimp -zeta only; show KeepNvm _ _)
    | with_reducible refine keepNvm_ite ?_ ?_
    | split

theorem Block.trainGo_nvm (b : Block) (s : Nat) : (Block.trainGo b s).nvm = b.nvm := by
  suffices h : KeepNvm b.nvm (Block.trainGo b s) from h
  have h0 : KeepNvm b.nvm b := rfl
  unfold Block.trainGo
  repeat' first
    | with_reducible assumption
    | with_reducible first
      | apply keepNvm_eq (Block.wr_nvm ..)
      | apply keepNvm_eq (Block.trainAsk_nvm ..)
    | (show Block.nvm _ = _; dsimp -zeta only; done)
    | (show Block.nvm _ = _; dsimp -zeta only; show KeepNvm _ _)
    | with_reducible refine keepNvm_ite ?_ ?_
    | split

theorem Block.trainSentence_nvm (b : Block) (s k : Nat) : (Block.trainSentence b s k).nvm = b.nvm := by
  suffices h : KeepNvm b.nvm (Block.trainSentence b s k) from h
  have h0 : KeepNvm b.nvm b := rfl
  unfold Block.trainSentence
  repeat' first
    | with_reducible assumption
    | (extract_lets +onlyGivenNames x; guard_hyp x : Block := _; refine keepNvm_named (n := b.nvm) x ?_ ?_; dsimp -zeta only [x]; clear x; rotate_left; clear_value x; revert x; intro _ _)
    | (extract_lets +onlyGivenNames x; clear_value x; revert x; intro _)
    | with_reducible first
      | apply keepNvm_eq (Block.updTrain_nvm ..)
      | apply keepNvm_eq (Block.sntRequest_nvm ..)
    | (show Block.nvm _ = _; dsimp -zeta only; done)
    | (show Block.nvm _ = _; dsimp -zeta only; show KeepNvm _ _)
    | with_reducible refine keepNvm_ite ?_ ?_
    | split

theorem Block.enterStep_nvm (b : Block) (s k : Nat) : (Block.enterStep b s k).nvm = b.nvm := by
  suffices h : KeepNvm b.nvm (Block.enterStep b s k) from h
  have h0 : KeepNvm b.nvm b := rfl
  unfold Block.enterStep
  repeat' first
    | with_reducible assumption
    | (extract_lets +onlyGivenNames x; guard_hyp x : Block := _; refine keepNvm_named (n := b.nvm) x ?_ ?_; dsimp -zeta only [x]; clear x; rotate_left; clear_value x; revert x; intro _ _)
    | (extract_lets +onlyGivenNames x; clear_value x; revert x; intro _)
    | with_reducible first
      | apply keepNvm_eq (Block.wr_nvm ..)
      | apply keepNvm_eq (Block.updSub_nvm ..)
      | apply keepNvm_eq (Block.updTrain_nvm ..)
      | apply keepNvm_eq (Block.trainSentence_nvm ..)
    | (show Block.nvm _ = _; dsimp -zeta only; done)
    | (show Block.nvm _ = _; dsimp -zeta only; show KeepNvm _ _)
    | with_reducible refine keepNvm_ite ?_ ?_
    | split

theorem Block.trainBegin_nvm (b : Block) (s steps : Nat) (why : TrainWhy) : (Block.trainBegin b s steps why).nvm = b.nvm := by
  suffices h : KeepNvm b.nvm (Block.trainBegin b s steps why) from h
  have h0 : KeepNvm b.nvm b := rfl
  unfold Block.trainBegin
  repeat' first
    | with_reducible assumption
    | (extract_lets +onlyGivenNames x; guard_hyp x : Block := _; refine keepNvm_named (n := b.nvm) x ?_ ?_; dsimp -zeta only [x]; clear x; rotate_left; clear_value x; revert x; intro _ _)
    | (extract_lets +onlyGivenNames x; clear_value x; revert x; intro _)
    | with_reducible first
      | apply keepNvm_eq (Block.wr_nvm ..)
      | apply keepNvm_eq (Block.updSub_nvm ..)
      | apply keepNvm_eq (Block.ckStop_nvm ..)
      | apply keepNvm_eq (Block.enterStep_nvm ..)
    | (show Block.nvm _ = _; dsimp -zeta only; done)
    | (show Block.nvm _ = _; dsimp -zeta only; show KeepNvm _ _)
    | with_reducible refine keepNvm_ite ?_ ?_
    | split

theorem Block.trainStart_nvm (b : Block) : (Block.trainStart b).nvm = b.nvm := by
  suffices h : KeepNvm b.nvm (Block.trainStart b) from h
  have h0 : KeepNvm b.nvm b := rfl
  unfold Block.trainStart
  repeat' first
    | with_reducible assumption
    | (extract_lets +onlyGivenNames x; guard_hyp x : Block := _; refine keepNvm_named (n := b.nvm) x ?_ ?_; dsimp -zeta only [x]; clear x; rotate_left; clear_value x; revert x; intro _ _)
    | (extract_lets +onlyGivenNames x; clear_value x; revert x; intro _)
    | with_reducible first
      | refine keepNvm_forEach ?_ (fun c a hc => ?_)
      | apply keepNvm_eq (Block.trainCounts_nvm ..)
      | apply keepNvm_eq (Block.alert_nvm ..)
      | apply keepNvm_eq (Block.trainBegin_nvm ..)
    | (show Block.nvm _ = _; dsimp -zeta only; done)
    | (show Block.nvm _ = _; dsimp -zeta only; show KeepNvm _ _)
    | with_reducible refine keepNvm_ite ?_ ?_
    | split

theorem Block.trainAbort_nvm (b : Block) (s : Nat) : (Block.trainAbort b s).nvm = b.nvm := by
  suffices h : KeepNvm b.nvm (Block.trainAbort b s) from h
  have h0 : KeepNvm b.nvm b := rfl
  unfold Block.trainAbort
  repeat' first
    | with_reducible assumption
    | with_reducible first
      | apply keepNvm_eq (Block.trainFail_nvm (hev := Block.event0_nvm) ..)
      | apply keepNvm_eq (Block.trainFail_nvm (hev := Block.event_nvm) ..)
      | apply keepNvm_eq (Block.event_nvm ..)
    | (show Block.nvm _ = _; dsimp -zeta only; done)
    | (show Block.nvm _ = _; dsimp -zeta only; show KeepNvm _ _)
    | split

theorem Block.failMask_nvm (b : Block) (s : Nat) (lanes : List Nat) : (Block.failMask b s lanes).nvm = b.nvm := by
  suffices h : KeepNvm b.nvm (Block.failMask b s lanes) from h
  have h0 : KeepNvm b.nvm b := rfl
  unfold Block.failMask
  repeat' first
    | with_reducible assumption
    | with_reducible first
      | refine keepNvm_forEach ?_ (fun c a hc => ?_)
      | apply keepNvm_eq (Block.setBitOf_nvm ..)
    | (show Block.nvm _ = _; dsimp -zeta only; done)
    | (show Block.nvm _ = _; dsimp -zeta only; show KeepNvm _ _)
    | with_reducible refine keepNvm_ite ?_ ?_
    | split

theorem Block.suspect_nvm (b : Block) (s lane : Nat) : (Block.suspect b s lane).nvm = b.nvm := by
  suffices h : KeepNvm b.nvm (Block.suspect b s lane) from h
  have h0 : KeepNvm b.nvm b := rfl
  unfold Block.suspect
  repeat' first
    | with_reducible assumption
    | (extract_lets +onlyGivenNames x; guard_hyp x : Block := _; refine keepNvm_named (n := b.nvm) x ?_ ?_; dsimp -zeta only [x]; clear x; rotate_left; clear_value x; revert x; intro _ _)
    | (extract_lets +onlyGivenNames x; clear_value x; revert x; intro _)
    | with_reducible first
      | apply keepNvm_eq (Block.wr_nvm ..)
      | apply keepNvm_eq (Block.intr_nvm ..)
      | apply keepNvm_eq (Block.event_nvm ..)
    | (show Block.nvm _ = _; dsimp -zeta only; done)
    | (show Block.nvm _ = _; dsimp -zeta only; show KeepNvm _ _)
    | with_reducible refine keepNvm_ite ?_ ?_
    | split

end Sys2Proof.Machine
end

