-- ==== Sys2Proof/Laws/Nvm/Calibration.lean ====
section
/-! SUPPORT. No operation of Machine/Calibration.lean changes the non-volatile store, but for those named. -/

namespace Sys2Proof.Machine

theorem Block.loadRecord_nvm (b : Block) (s : Nat) (rec_ : List Byte) : (Block.loadRecord b s rec_).nvm = b.nvm := by
  suffices h : KeepNvm b.nvm (Block.loadRecord b s rec_) from h
  have h0 : KeepNvm b.nvm b := rfl
  unfold Block.loadRecord
  repeat' first
    | with_reducible assumption
    | (extract_lets +onlyGivenNames x; guard_hyp x : Block := _; refine keepNvm_named (n := b.nvm) x ?_ ?_; dsimp -zeta only [x]; clear x; rotate_left; clear_value x; revert x; intro _ _)
    | (extract_lets +onlyGivenNames x; refine keepNvm_fn x ?_; dsimp -zeta only [x]; clear x)
    | (extract_lets +onlyGivenNames x; refine keepNvm_fn2 x ?_; dsimp -zeta only [x]; clear x)
    | (extract_lets +onlyGivenNames x; refine keepNvm_fn3 x ?_; dsimp -zeta only [x]; clear x)
    | (extract_lets +onlyGivenNames x; refine keepNvm_fn4 x ?_; dsimp -zeta only [x]; clear x)
    | (extract_lets +onlyGivenNames x; clear_value x; revert x; intro _)
    | with_reducible first
      | refine keepNvm_forEach ?_ (fun c a hc => ?_)
      | apply keepNvm_eq (Block.wr_nvm ..)
    | (show Block.nvm _ = _; dsimp -zeta only; done)
    | (show Block.nvm _ = _; dsimp -zeta only; show KeepNvm _ _)
    | split

theorem Block.calView_nvm (b : Block) (s : Nat) : (Block.calView b s).nvm = b.nvm := by
  suffices h : KeepNvm b.nvm (Block.calView b s) from h
  have h0 : KeepNvm b.nvm b := rfl
  unfold Block.calView
  repeat' first
    | with_reducible assumption
    | (extract_lets +onlyGivenNames x; guard_hyp x : Block := _; refine keepNvm_named (n := b.nvm) x ?_ ?_; dsimp -zeta only [x]; clear x; rotate_left; clear_value x; revert x; intro _ _)
    | (extract_lets +onlyGivenNames x; clear_value x; revert x; intro _)
    | with_reducible first
      | refine keepNvm1_foldl ?_ (fun c a hc => ?_)
      | refine keepNvm2_foldl ?_ (fun c a hc => ?_)
      | apply keepNvm_eq (Block.wr_nvm ..)
    | (show Block.nvm _ = _; dsimp -zeta only; done)
    | (show Block.nvm _ = _; dsimp -zeta only; show KeepNvm _ _)
    | split
    | with_reducible refine keepNvm_of1 ?_
    | with_reducible refine keepNvm_of2 ?_

theorem Block.rebase_nvm (b : Block) (s : Nat) : (Block.rebase b s).nvm = b.nvm := by
  suffices h : KeepNvm b.nvm (Block.rebase b s) from h
  have h0 : KeepNvm b.nvm b := rfl
  unfold Block.rebase
  repeat' first
    | with_reducible assumption
    | (extract_lets +onlyGivenNames x; guard_hyp x : Block := _; refine keepNvm_named (n := b.nvm) x ?_ ?_; dsimp -zeta only [x]; clear x; rotate_left; clear_value x; revert x; intro _ _)
    | (extract_lets +onlyGivenNames x; clear_value x; revert x; intro _)
    | with_reducible first
      | refine keepNvm_forEach ?_ (fun c a hc => ?_)
      | apply keepNvm_eq (Block.setResid_nvm ..)
      | apply keepNvm_eq (Block.calView_nvm ..)
    | (show Block.nvm _ = _; dsimp -zeta only; done)
    | (show Block.nvm _ = _; dsimp -zeta only; show KeepNvm _ _)
    | split

theorem Block.calStore_nvm (b : Block) (s i : Nat) : (Block.calStore b s i).nvm = b.nvm := by
  suffices h : KeepNvm b.nvm (Block.calStore b s i) from h
  have h0 : KeepNvm b.nvm b := rfl
  unfold Block.calStore
  repeat' first
    | with_reducible assumption
    | (extract_lets +onlyGivenNames x; guard_hyp x : Block := _; refine keepNvm_named (n := b.nvm) x ?_ ?_; dsimp -zeta only [x]; clear x; rotate_left; clear_value x; revert x; intro _ _)
    | (extract_lets +onlyGivenNames x; clear_value x; revert x; intro _)
    | with_reducible first
      | refine keepNvm1_mk ?_
      | refine keepNvm2_mk ?_
      | apply keepNvm_eq (Block.storeBegin_nvm ..)
    | (show Block.nvm _ = _; dsimp -zeta only; done)
    | (show Block.nvm _ = _; dsimp -zeta only; show KeepNvm _ _)
    | with_reducible refine keepNvm_ite ?_ ?_
    | with_reducible refine keepNvm1_ite ?_ ?_
    | with_reducible refine keepNvm2_ite ?_ ?_
    | split
    | with_reducible refine keepNvm_fst (by assumption) ?_
    | with_reducible refine keepNvm_snd (by assumption) ?_
    | assumption

theorem Block.calClearCopy_nvm (b : Block) (s i : Nat) : (Block.calClearCopy b s i).nvm = b.nvm := by
  suffices h : KeepNvm b.nvm (Block.calClearCopy b s i) from h
  have h0 : KeepNvm b.nvm b := rfl
  unfold Block.calClearCopy
  repeat' first
    | with_reducible assumption
    | (extract_lets +onlyGivenNames x; guard_hyp x : Block := _; refine keepNvm_named (n := b.nvm) x ?_ ?_; dsimp -zeta only [x]; clear x; rotate_left; clear_value x; revert x; intro _ _)
    | (extract_lets +onlyGivenNames x; clear_value x; revert x; intro _)
    | with_reducible first
      | refine keepNvm1_mk ?_
      | refine keepNvm2_mk ?_
      | apply keepNvm_eq (Block.storeBegin_nvm ..)
    | (show Block.nvm _ = _; dsimp -zeta only; done)
    | (show Block.nvm _ = _; dsimp -zeta only; show KeepNvm _ _)
    | split
    | with_reducible refine keepNvm_fst (by assumption) ?_
    | with_reducible refine keepNvm_snd (by assumption) ?_
    | assumption

theorem Block.calClearStores_nvm (b : Block) (s : Nat) : (Block.calClearStores b s).nvm = b.nvm := by
  suffices h : KeepNvm b.nvm (Block.calClearStores b s) from h
  have h0 : KeepNvm b.nvm b := rfl
  unfold Block.calClearStores
  repeat' first
    | with_reducible assumption
    | (extract_lets +onlyGivenNames x; guard_hyp x : Block := _; refine keepNvm_named (n := b.nvm) x ?_ ?_; dsimp -zeta only [x]; clear x; rotate_left; clear_value x; revert x; intro _ _)
    | (extract_lets +onlyGivenNames x; clear_value x; revert x; intro _)
    | with_reducible first
      | refine keepNvm_forEach ?_ (fun c a hc => ?_)
      | apply keepNvm_eq (Block.calClearCopy_nvm ..)
    | (show Block.nvm _ = _; dsimp -zeta only; done)
    | (show Block.nvm _ = _; dsimp -zeta only; show KeepNvm _ _)
    | split

theorem Block.calEmpty_nvm (b : Block) (s : Nat) : (Block.calEmpty b s).nvm = b.nvm := by
  suffices h : KeepNvm b.nvm (Block.calEmpty b s) from h
  have h0 : KeepNvm b.nvm b := rfl
  unfold Block.calEmpty
  repeat' first
    | with_reducible assumption
    | (extract_lets +onlyGivenNames x; guard_hyp x : Block := _; refine keepNvm_named (n := b.nvm) x ?_ ?_; dsimp -zeta only [x]; clear x; rotate_left; clear_value x; revert x; intro _ _)
    | (extract_lets +onlyGivenNames x; clear_value x; revert x; intro _)
    | with_reducible first
      | apply keepNvm_eq (Block.rebase_nvm ..)
    | (show Block.nvm _ = _; dsimp -zeta only; done)
    | (show Block.nvm _ = _; dsimp -zeta only; show KeepNvm _ _)
    | split

theorem Block.calReset_nvm (b : Block) (s : Nat) : (Block.calReset b s).nvm = b.nvm := by
  suffices h : KeepNvm b.nvm (Block.calReset b s) from h
  have h0 : KeepNvm b.nvm b := rfl
  unfold Block.calReset
  repeat' first
    | with_reducible assumption
    | (extract_lets +onlyGivenNames x; guard_hyp x : Block := _; refine keepNvm_named (n := b.nvm) x ?_ ?_; dsimp -zeta only [x]; clear x; rotate_left; clear_value x; revert x; intro _ _)
    | (extract_lets +onlyGivenNames x; clear_value x; revert x; intro _)
    | with_reducible first
      | apply keepNvm_eq (Block.calClearStores_nvm ..)
      | apply keepNvm_eq (Block.calEmpty_nvm ..)
    | (show Block.nvm _ = _; dsimp -zeta only; done)
    | (show Block.nvm _ = _; dsimp -zeta only; show KeepNvm _ _)
    | with_reducible refine keepNvm_ite ?_ ?_
    | split

theorem Block.calStoreAgain_nvm (b : Block) (s i : Nat) : (Block.calStoreAgain b s i).nvm = b.nvm := by
  suffices h : KeepNvm b.nvm (Block.calStoreAgain b s i) from h
  have h0 : KeepNvm b.nvm b := rfl
  unfold Block.calStoreAgain
  repeat' first
    | with_reducible assumption
    | (extract_lets +onlyGivenNames x; guard_hyp x : Block := _; refine keepNvm_named (n := b.nvm) x ?_ ?_; dsimp -zeta only [x]; clear x; rotate_left; clear_value x; revert x; intro _ _)
    | (extract_lets +onlyGivenNames x; clear_value x; revert x; intro _)
    | with_reducible first
      | apply keepNvm_eq (Block.calStore_nvm ..)
    | (show Block.nvm _ = _; dsimp -zeta only; done)
    | (show Block.nvm _ = _; dsimp -zeta only; show KeepNvm _ _)
    | with_reducible refine keepNvm_ite ?_ ?_
    | split

theorem Block.unsuspect_nvm (b : Block) (s : Nat) : (Block.unsuspect b s).nvm = b.nvm := by
  suffices h : KeepNvm b.nvm (Block.unsuspect b s) from h
  have h0 : KeepNvm b.nvm b := rfl
  unfold Block.unsuspect
  repeat' first
    | with_reducible assumption
    | with_reducible first
      | refine keepNvm_forEach ?_ (fun c a hc => ?_)
      | apply keepNvm_eq (Block.wr_nvm ..)
      | apply keepNvm_eq (Block.calStoreAgain_nvm ..)
    | (show Block.nvm _ = _; dsimp -zeta only; done)
    | (show Block.nvm _ = _; dsimp -zeta only; show KeepNvm _ _)
    | split

theorem Block.learn_nvm (b : Block) (s i origin : Nat) (t : Int) : (Block.learn b s i origin t).nvm = b.nvm := by
  suffices h : KeepNvm b.nvm (Block.learn b s i origin t) from h
  have h0 : KeepNvm b.nvm b := rfl
  unfold Block.learn
  repeat' first
    | with_reducible assumption
    | (extract_lets +onlyGivenNames x; guard_hyp x : Block := _; refine keepNvm_named (n := b.nvm) x ?_ ?_; dsimp -zeta only [x]; clear x; rotate_left; clear_value x; revert x; intro _ _)
    | (extract_lets +onlyGivenNames x; clear_value x; revert x; intro _)
    | with_reducible first
      | apply keepNvm_eq (Block.wr_nvm ..)
      | apply keepNvm_eq (Block.intr_nvm ..)
      | apply keepNvm_eq (Block.rebase_nvm ..)
      | apply keepNvm_eq (Block.calStore_nvm ..)
    | (show Block.nvm _ = _; dsimp -zeta only; done)
    | (show Block.nvm _ = _; dsimp -zeta only; show KeepNvm _ _)
    | with_reducible refine keepNvm_ite ?_ ?_
    | split

theorem Block.calLoadBase_nvm (b : Block) (s : Nat) : (Block.calLoadBase b s).nvm = b.nvm := by
  suffices h : KeepNvm b.nvm (Block.calLoadBase b s) from h
  have h0 : KeepNvm b.nvm b := rfl
  unfold Block.calLoadBase
  repeat' first
    | with_reducible assumption
    | (extract_lets +onlyGivenNames x; guard_hyp x : Block := _; refine keepNvm_named (n := b.nvm) x ?_ ?_; dsimp -zeta only [x]; clear x; rotate_left; clear_value x; revert x; intro _ _)
    | (extract_lets +onlyGivenNames x; clear_value x; revert x; intro _)
    | with_reducible first
      | refine keepNvm_forEach ?_ (fun c a hc => ?_)
      | apply keepNvm_eq (Block.jump_nvm ..)
      | apply keepNvm_eq (Block.loadRecord_nvm ..)
    | (show Block.nvm _ = _; dsimp -zeta only; done)
    | (show Block.nvm _ = _; dsimp -zeta only; show KeepNvm _ _)
    | split

theorem Block.calLoad_nvm (b : Block) (s : Nat) : (Block.calLoad b s).nvm = b.nvm := by
  suffices h : KeepNvm b.nvm (Block.calLoad b s) from h
  have h0 : KeepNvm b.nvm b := rfl
  unfold Block.calLoad
  repeat' first
    | with_reducible assumption
    | (extract_lets +onlyGivenNames x; guard_hyp x : Block := _; refine keepNvm_named (n := b.nvm) x ?_ ?_; dsimp -zeta only [x]; clear x; rotate_left; clear_value x; revert x; intro _ _)
    | (extract_lets +onlyGivenNames x; clear_value x; revert x; intro _)
    | with_reducible first
      | refine keepNvm_forEach ?_ (fun c a hc => ?_)
      | apply keepNvm_eq (Block.wr_nvm ..)
      | apply keepNvm_eq (Block.addSat_nvm ..)
      | apply keepNvm_eq (Block.calView_nvm ..)
      | apply keepNvm_eq (Block.calLoadBase_nvm ..)
    | (show Block.nvm _ = _; dsimp -zeta only; done)
    | (show Block.nvm _ = _; dsimp -zeta only; show KeepNvm _ _)
    | with_reducible refine keepNvm_ite ?_ ?_
    | split

theorem Block.calTrained_nvm (b : Block) (s : Nat) (t : Int) (osc : List (Nat × Nat)) : (Block.calTrained b s t osc).nvm = b.nvm := by
  suffices h : KeepNvm b.nvm (Block.calTrained b s t osc) from h
  have h0 : KeepNvm b.nvm b := rfl
  unfold Block.calTrained
  repeat' first
    | with_reducible assumption
    | (extract_lets +onlyGivenNames x; guard_hyp x : Block := _; refine keepNvm_named (n := b.nvm) x ?_ ?_; dsimp -zeta only [x]; clear x; rotate_left; clear_value x; revert x; intro _ _)
    | (extract_lets +onlyGivenNames x; clear_value x; revert x; intro _)
    | with_reducible first
      | refine keepNvm_forEach ?_ (fun c a hc => ?_)
      | apply keepNvm_eq (Block.rebase_nvm ..)
      | apply keepNvm_eq (Block.unsuspect_nvm ..)
      | apply keepNvm_eq (Block.learn_nvm ..)
    | (show Block.nvm _ = _; dsimp -zeta only; done)
    | (show Block.nvm _ = _; dsimp -zeta only; show KeepNvm _ _)
    | split

theorem Block.trackStep_nvm (b : Block) (s : Nat) : (Block.trackStep b s).nvm = b.nvm := by
  suffices h : KeepNvm b.nvm (Block.trackStep b s) from h
  have h0 : KeepNvm b.nvm b := rfl
  unfold Block.trackStep
  repeat' first
    | with_reducible assumption
    | (extract_lets +onlyGivenNames x; guard_hyp x : Block := _; refine keepNvm_named (n := b.nvm) x ?_ ?_; dsimp -zeta only [x]; clear x; rotate_left; clear_value x; revert x; intro _ _)
    | (extract_lets +onlyGivenNames x; clear_value x; revert x; intro _)
    | with_reducible first
      | refine keepNvm_forEach ?_ (fun c a hc => ?_)
      | apply keepNvm_eq (Block.force_nvm ..)
    | (show Block.nvm _ = _; dsimp -zeta only; done)
    | (show Block.nvm _ = _; dsimp -zeta only; show KeepNvm _ _)
    | with_reducible refine keepNvm_ite ?_ ?_
    | split

theorem Block.updLane_nvm (b : Block) (s l : Nat) (f : LaneCal → LaneCal) : (Block.updLane b s l f).nvm = b.nvm := by
  suffices h : KeepNvm b.nvm (Block.updLane b s l f) from h
  have h0 : KeepNvm b.nvm b := rfl
  unfold Block.updLane
  repeat' first
    | with_reducible assumption
    | (extract_lets +onlyGivenNames x; guard_hyp x : Block := _; refine keepNvm_named (n := b.nvm) x ?_ ?_; dsimp -zeta only [x]; clear x; rotate_left; clear_value x; revert x; intro _ _)
    | (extract_lets +onlyGivenNames x; clear_value x; revert x; intro _)
    | (show Block.nvm _ = _; dsimp -zeta only; done)
    | (show Block.nvm _ = _; dsimp -zeta only; show KeepNvm _ _)
    | split

theorem Block.calRound_nvm (b : Block) (s : Nat) (t : Option Int) : (Block.calRound b s t).nvm = b.nvm := by
  suffices h : KeepNvm b.nvm (Block.calRound b s t) from h
  have h0 : KeepNvm b.nvm b := rfl
  unfold Block.calRound
  repeat' first
    | with_reducible assumption
    | (extract_lets +onlyGivenNames x; guard_hyp x : Block := _; refine keepNvm_named (n := b.nvm) x ?_ ?_; dsimp -zeta only [x]; clear x; rotate_left; clear_value x; revert x; intro _ _)
    | (extract_lets +onlyGivenNames x; clear_value x; revert x; intro _)
    | with_reducible first
      | refine keepNvm_forEach ?_ (fun c a hc => ?_)
      | apply keepNvm_eq (Block.wr_nvm ..)
      | apply keepNvm_eq (Block.calView_nvm ..)
      | apply keepNvm_eq (Block.learn_nvm ..)
    | (show Block.nvm _ = _; dsimp -zeta only; done)
    | (show Block.nvm _ = _; dsimp -zeta only; show KeepNvm _ _)
    | with_reducible refine keepNvm_ite ?_ ?_
    | split

theorem Block.shiftEdges_nvm (b : Block) (fs : List Fld) (lo hi d : Int) : (Block.shiftEdges b fs lo hi d).nvm = b.nvm := by
  suffices h : KeepNvm b.nvm (Block.shiftEdges b fs lo hi d) from h
  have h0 : KeepNvm b.nvm b := rfl
  unfold Block.shiftEdges
  repeat' first
    | with_reducible assumption
    | with_reducible first
      | refine keepNvm_forEach ?_ (fun c a hc => ?_)
      | apply keepNvm_eq (Block.wr_nvm ..)
    | (show Block.nvm _ = _; dsimp -zeta only; done)
    | (show Block.nvm _ = _; dsimp -zeta only; show KeepNvm _ _)
    | split

theorem Block.stepResid_nvm (b : Block) (s c : Nat) (d : Int) : (Block.stepResid b s c d).nvm = b.nvm := by
  suffices h : KeepNvm b.nvm (Block.stepResid b s c d) from h
  have h0 : KeepNvm b.nvm b := rfl
  unfold Block.stepResid
  repeat' first
    | with_reducible assumption
    | with_reducible first
      | apply keepNvm_eq (Block.bump_nvm ..)
      | apply keepNvm_eq (Block.setResid_nvm ..)
    | (show Block.nvm _ = _; dsimp -zeta only; done)
    | (show Block.nvm _ = _; dsimp -zeta only; show KeepNvm _ _)
    | split

theorem Block.window_nvm (b : Block) (s l : Nat) (ds : List Nat) (taps : List Int) : (Block.window b s l ds taps).nvm = b.nvm := by
  suffices h : KeepNvm b.nvm (Block.window b s l ds taps) from h
  have h0 : KeepNvm b.nvm b := rfl
  unfold Block.window
  repeat' first
    | with_reducible assumption
    | (extract_lets +onlyGivenNames x; guard_hyp x : Block × _ := _; refine keepNvm1_named (n := b.nvm) x ?_ ?_; dsimp -zeta only [x]; clear x; rotate_left; clear_value x; revert x; intro _ _)
    | (extract_lets +onlyGivenNames x; guard_hyp x : Block := _; refine keepNvm_named (n := b.nvm) x ?_ ?_; dsimp -zeta only [x]; clear x; rotate_left; clear_value x; revert x; intro _ _)
    | (extract_lets +onlyGivenNames x; clear_value x; revert x; intro _)
    | with_reducible first
      | refine keepNvm_forEach ?_ (fun c a hc => ?_)
      | refine keepNvm1_mk ?_
      | refine keepNvm2_mk ?_
      | apply keepNvm_eq (Block.wr_nvm ..)
      | apply keepNvm_eq (Block.wrB_nvm ..)
    | with_reducible first
      | apply keepNvm_eq (Block.bump_nvm ..)
      | apply keepNvm_eq (Block.intr_nvm ..)
      | apply keepNvm_eq (Block.event_nvm ..)
      | apply keepNvm_eq (Block.updLane_nvm ..)
      | apply keepNvm_eq (Block.shiftEdges_nvm ..)
    | with_reducible first
      | apply keepNvm_eq (Block.stepResid_nvm ..)
    | (show Block.nvm _ = _; dsimp -zeta only; done)
    | (show Block.nvm _ = _; dsimp -zeta only; show KeepNvm _ _)
    | with_reducible refine keepNvm_ite ?_ ?_
    | with_reducible refine keepNvm1_ite ?_ ?_
    | with_reducible refine keepNvm2_ite ?_ ?_
    | split
    | with_reducible refine keepNvm_fst (by assumption) ?_
    | with_reducible refine keepNvm_snd (by assumption) ?_
    | assumption

theorem Block.windowAged_nvm (b : Block) (s l : Nat) : (Block.windowAged b s l).nvm = b.nvm := by
  suffices h : KeepNvm b.nvm (Block.windowAged b s l) from h
  have h0 : KeepNvm b.nvm b := rfl
  unfold Block.windowAged
  repeat' first
    | with_reducible assumption
    | (extract_lets +onlyGivenNames x; guard_hyp x : Block := _; refine keepNvm_named (n := b.nvm) x ?_ ?_; dsimp -zeta only [x]; clear x; rotate_left; clear_value x; revert x; intro _ _)
    | (extract_lets +onlyGivenNames x; clear_value x; revert x; intro _)
    | with_reducible first
      | apply keepNvm_eq (Block.wr_nvm ..)
      | apply keepNvm_eq (Block.intr_nvm ..)
      | apply keepNvm_eq (Block.updLane_nvm ..)
    | (show Block.nvm _ = _; dsimp -zeta only; done)
    | (show Block.nvm _ = _; dsimp -zeta only; show KeepNvm _ _)
    | with_reducible refine keepNvm_ite ?_ ?_
    | split

theorem Block.writeSideDue_nvm (b : Block) (s : Nat) (p : Purpose) : (Block.writeSideDue b s p).nvm = b.nvm := by
  suffices h : KeepNvm b.nvm (Block.writeSideDue b s p) from h
  have h0 : KeepNvm b.nvm b := rfl
  unfold Block.writeSideDue
  repeat' first
    | with_reducible assumption
    | (extract_lets +onlyGivenNames x; guard_hyp x : Block := _; refine keepNvm_named (n := b.nvm) x ?_ ?_; dsimp -zeta only [x]; clear x; rotate_left; clear_value x; revert x; intro _ _)
    | (extract_lets +onlyGivenNames x; clear_value x; revert x; intro _)
    | with_reducible first
      | apply keepNvm_eq (Block.keeperRequest_nvm ..)
    | (show Block.nvm _ = _; dsimp -zeta only; done)
    | (show Block.nvm _ = _; dsimp -zeta only; show KeepNvm _ _)
    | with_reducible refine keepNvm_ite ?_ ?_
    | split

theorem Block.txStep_nvm (b : Block) (s l : Nat) (d : Int) : (Block.txStep b s l d).nvm = b.nvm := by
  suffices h : KeepNvm b.nvm (Block.txStep b s l d) from h
  have h0 : KeepNvm b.nvm b := rfl
  unfold Block.txStep
  repeat' first
    | with_reducible assumption
    | with_reducible first
      | apply keepNvm_eq (Block.wr_nvm ..)
      | apply keepNvm_eq (Block.suspect_nvm ..)
      | apply keepNvm_eq (Block.stepResid_nvm ..)
    | (show Block.nvm _ = _; dsimp -zeta only; done)
    | (show Block.nvm _ = _; dsimp -zeta only; show KeepNvm _ _)
    | with_reducible refine keepNvm_ite ?_ ?_
    | split

theorem Block.oscResult_nvm (b : Block) (s : Nat) (counts : List (Nat × Nat)) : (Block.oscResult b s counts).nvm = b.nvm := by
  suffices h : KeepNvm b.nvm (Block.oscResult b s counts) from h
  have h0 : KeepNvm b.nvm b := rfl
  unfold Block.oscResult
  repeat' first
    | with_reducible assumption
    | (extract_lets +onlyGivenNames x; guard_hyp x : Block := _; refine keepNvm_named (n := b.nvm) x ?_ ?_; dsimp -zeta only [x]; clear x; rotate_left; clear_value x; revert x; intro _ _)
    | (extract_lets +onlyGivenNames x; clear_value x; revert x; intro _)
    | with_reducible first
      | refine keepNvm_forEach ?_ (fun c a hc => ?_)
      | refine keepNvm1_foldl ?_ (fun c a hc => ?_)
      | refine keepNvm2_foldl ?_ (fun c a hc => ?_)
      | apply keepNvm_eq (Block.txStep_nvm ..)
    | (show Block.nvm _ = _; dsimp -zeta only; done)
    | (show Block.nvm _ = _; dsimp -zeta only; show KeepNvm _ _)
    | with_reducible refine keepNvm_ite ?_ ?_
    | split
    | with_reducible refine keepNvm_of1 ?_
    | with_reducible refine keepNvm_of2 ?_

theorem Block.probeResult_nvm (b : Block) (s : Nat) (left right mid : BitVec 40) : (Block.probeResult b s left right mid).nvm = b.nvm := by
  suffices h : KeepNvm b.nvm (Block.probeResult b s left right mid) from h
  have h0 : KeepNvm b.nvm b := rfl
  unfold Block.probeResult
  repeat' first
    | with_reducible assumption
    | (extract_lets +onlyGivenNames x; guard_hyp x : Block := _; refine keepNvm_named (n := b.nvm) x ?_ ?_; dsimp -zeta only [x]; clear x; rotate_left; clear_value x; revert x; intro _ _)
    | (extract_lets +onlyGivenNames x; clear_value x; revert x; intro _)
    | with_reducible first
      | refine keepNvm_forEach ?_ (fun c a hc => ?_)
      | refine keepNvm1_mk ?_
      | refine keepNvm2_mk ?_
      | apply keepNvm_eq (Block.wr_nvm ..)
      | apply keepNvm_eq (Block.suspect_nvm ..)
    | with_reducible first
      | apply keepNvm_eq (Block.updLane_nvm ..)
      | apply keepNvm_eq (Block.txStep_nvm ..)
    | (show Block.nvm _ = _; dsimp -zeta only; done)
    | (show Block.nvm _ = _; dsimp -zeta only; show KeepNvm _ _)
    | with_reducible refine keepNvm_ite ?_ ?_
    | with_reducible refine keepNvm1_ite ?_ ?_
    | with_reducible refine keepNvm2_ite ?_ ?_
    | split
    | with_reducible refine keepNvm_fst (by assumption) ?_
    | with_reducible refine keepNvm_snd (by assumption) ?_
    | assumption

theorem Block.trackFreeze_nvm (b : Block) (s : Nat) : (Block.trackFreeze b s).nvm = b.nvm := by
  suffices h : KeepNvm b.nvm (Block.trackFreeze b s) from h
  have h0 : KeepNvm b.nvm b := rfl
  unfold Block.trackFreeze
  repeat' first
    | with_reducible assumption
    | with_reducible first
      | refine keepNvm_forEach ?_ (fun c a hc => ?_)
      | apply keepNvm_eq (Block.wr_nvm ..)
      | apply keepNvm_eq (Block.stepEnded_nvm ..)
    | (show Block.nvm _ = _; dsimp -zeta only; done)
    | (show Block.nvm _ = _; dsimp -zeta only; show KeepNvm _ _)
    | with_reducible refine keepNvm_ite ?_ ?_
    | split

theorem Block.trackResume_nvm (b : Block) (s : Nat) : (Block.trackResume b s).nvm = b.nvm := by
  suffices h : KeepNvm b.nvm (Block.trackResume b s) from h
  have h0 : KeepNvm b.nvm b := rfl
  unfold Block.trackResume
  repeat' first
    | with_reducible assumption
    | with_reducible first
      | refine keepNvm_forEach ?_ (fun c a hc => ?_)
      | apply keepNvm_eq (Block.trackJump_nvm ..)
      | apply keepNvm_eq (Block.stepEnded_nvm ..)
    | (show Block.nvm _ = _; dsimp -zeta only; done)
    | (show Block.nvm _ = _; dsimp -zeta only; show KeepNvm _ _)
    | with_reducible refine keepNvm_ite ?_ ?_
    | split

end Sys2Proof.Machine
end

