-- ==== Sys2Proof/Laws/Nvm/Lights.lean ====
section
/-! SUPPORT. No operation of Machine/Lights.lean changes the non-volatile store, but for those named. -/

namespace Sys2Proof.Machine

theorem Block.lightUse_nvm (b : Block) (i n : Nat) : (Block.lightUse b i n).nvm = b.nvm := by
  suffices h : KeepNvm b.nvm (Block.lightUse b i n) from h
  have h0 : KeepNvm b.nvm b := rfl
  unfold Block.lightUse
  repeat' first
    | with_reducible assumption
    | (extract_lets +onlyGivenNames x; guard_hyp x : Block := _; refine keepNvm_named (n := b.nvm) x ?_ ?_; dsimp -zeta only [x]; clear x; rotate_left; clear_value x; revert x; intro _ _)
    | (extract_lets +onlyGivenNames x; clear_value x; revert x; intro _)
    | with_reducible first
      | apply keepNvm_eq (Block.wr_nvm ..)
    | (show Block.nvm _ = _; dsimp -zeta only; done)
    | (show Block.nvm _ = _; dsimp -zeta only; show KeepNvm _ _)
    | with_reducible refine keepNvm_ite ?_ ?_
    | split

theorem Block.lightSkip_nvm (b : Block) (i n : Nat) : (Block.lightSkip b i n).nvm = b.nvm := by
  suffices h : KeepNvm b.nvm (Block.lightSkip b i n) from h
  have h0 : KeepNvm b.nvm b := rfl
  unfold Block.lightSkip
  repeat' first
    | with_reducible assumption
    | with_reducible first
      | apply keepNvm_eq (Block.addSat_nvm ..)
      | apply keepNvm_eq (Block.lightUse_nvm ..)
    | (show Block.nvm _ = _; dsimp -zeta only; done)
    | (show Block.nvm _ = _; dsimp -zeta only; show KeepNvm _ _)
    | with_reducible refine keepNvm_ite ?_ ?_
    | split

theorem Block.lightRestart_nvm (b : Block) (i t : Nat) : (Block.lightRestart b i t).nvm = b.nvm := by
  suffices h : KeepNvm b.nvm (Block.lightRestart b i t) from h
  have h0 : KeepNvm b.nvm b := rfl
  unfold Block.lightRestart
  repeat' first
    | with_reducible assumption
    | (extract_lets +onlyGivenNames x; guard_hyp x : Block := _; refine keepNvm_named (n := b.nvm) x ?_ ?_; dsimp -zeta only [x]; clear x; rotate_left; clear_value x; revert x; intro _ _)
    | (extract_lets +onlyGivenNames x; clear_value x; revert x; intro _)
    | with_reducible first
      | apply keepNvm_eq (Block.wr_nvm ..)
      | apply keepNvm_eq (Block.count_nvm ..)
      | apply keepNvm_eq (Block.lightSkip_nvm ..)
    | (show Block.nvm _ = _; dsimp -zeta only; done)
    | (show Block.nvm _ = _; dsimp -zeta only; show KeepNvm _ _)
    | with_reducible refine keepNvm_ite ?_ ?_
    | split

theorem Block.freeRun_nvm (before b : Block) : (Block.freeRun before b).nvm = b.nvm := by
  suffices h : KeepNvm b.nvm (Block.freeRun before b) from h
  have h0 : KeepNvm b.nvm b := rfl
  unfold Block.freeRun
  repeat' first
    | with_reducible assumption
    | (extract_lets +onlyGivenNames x; guard_hyp x : Block := _; refine keepNvm_named (n := b.nvm) x ?_ ?_; dsimp -zeta only [x]; clear x; rotate_left; clear_value x; revert x; intro _ _)
    | (extract_lets +onlyGivenNames x; clear_value x; revert x; intro _)
    | with_reducible first
      | refine keepNvm_forEach ?_ (fun c a hc => ?_)
      | apply keepNvm_eq (Block.updSub_nvm ..)
    | (show Block.nvm _ = _; dsimp -zeta only; done)
    | (show Block.nvm _ = _; dsimp -zeta only; show KeepNvm _ _)
    | with_reducible refine keepNvm_ite ?_ ?_
    | split

theorem Block.lightEnd_nvm (b : Block) (i : Nat) : (Block.lightEnd b i).nvm = b.nvm := by
  suffices h : KeepNvm b.nvm (Block.lightEnd b i) from h
  have h0 : KeepNvm b.nvm b := rfl
  unfold Block.lightEnd
  repeat' first
    | with_reducible assumption
    | (extract_lets +onlyGivenNames x; guard_hyp x : Block := _; refine keepNvm_named (n := b.nvm) x ?_ ?_; dsimp -zeta only [x]; clear x; rotate_left; clear_value x; revert x; intro _ _)
    | (extract_lets +onlyGivenNames x; clear_value x; revert x; intro _)
    | with_reducible first
      | refine keepNvm_forEach ?_ (fun c a hc => ?_)
      | apply keepNvm_eq (Block.wr_nvm ..)
      | apply keepNvm_eq (Block.wake_nvm ..)
    | (show Block.nvm _ = _; dsimp -zeta only; done)
    | (show Block.nvm _ = _; dsimp -zeta only; show KeepNvm _ _)
    | with_reducible refine keepNvm_ite ?_ ?_
    | split

theorem Block.lightGo_nvm (b : Block) : (Block.lightGo b).nvm = b.nvm := by
  suffices h : KeepNvm b.nvm (Block.lightGo b) from h
  have h0 : KeepNvm b.nvm b := rfl
  unfold Block.lightGo
  repeat' first
    | with_reducible assumption
    | (extract_lets +onlyGivenNames x; guard_hyp x : Block := _; refine keepNvm_named (n := b.nvm) x ?_ ?_; dsimp -zeta only [x]; clear x; rotate_left; clear_value x; revert x; intro _ _)
    | (extract_lets +onlyGivenNames x; clear_value x; revert x; intro _)
    | with_reducible first
      | apply keepNvm_eq (Block.wr_nvm ..)
    | (show Block.nvm _ = _; dsimp -zeta only; done)
    | (show Block.nvm _ = _; dsimp -zeta only; show KeepNvm _ _)
    | with_reducible refine keepNvm_ite ?_ ?_
    | split

theorem Block.lightTake_nvm (b : Block) (t : Tab Nat) : (Block.lightTake b t).nvm = b.nvm := by
  suffices h : KeepNvm b.nvm (Block.lightTake b t) from h
  have h0 : KeepNvm b.nvm b := rfl
  unfold Block.lightTake
  repeat' first
    | with_reducible assumption
    | (extract_lets +onlyGivenNames x; guard_hyp x : Block := _; refine keepNvm_named (n := b.nvm) x ?_ ?_; dsimp -zeta only [x]; clear x; rotate_left; clear_value x; revert x; intro _ _)
    | (extract_lets +onlyGivenNames x; clear_value x; revert x; intro _)
    | with_reducible first
      | refine keepNvm_forEach ?_ (fun c a hc => ?_)
      | apply keepNvm_eq (Block.lightRestart_nvm ..)
      | apply keepNvm_eq (Block.lightEnd_nvm ..)
    | (show Block.nvm _ = _; dsimp -zeta only; done)
    | (show Block.nvm _ = _; dsimp -zeta only; show KeepNvm _ _)
    | split

theorem Block.lightDone_nvm (b : Block) : (Block.lightDone b).nvm = b.nvm := by
  suffices h : KeepNvm b.nvm (Block.lightDone b) from h
  have h0 : KeepNvm b.nvm b := rfl
  unfold Block.lightDone
  repeat' first
    | with_reducible assumption
    | (extract_lets +onlyGivenNames x; guard_hyp x : Block × _ := _; refine keepNvm1_named (n := b.nvm) x ?_ ?_; dsimp -zeta only [x]; clear x; rotate_left; clear_value x; revert x; intro _ _)
    | (extract_lets +onlyGivenNames x; guard_hyp x : Block := _; refine keepNvm_named (n := b.nvm) x ?_ ?_; dsimp -zeta only [x]; clear x; rotate_left; clear_value x; revert x; intro _ _)
    | (extract_lets +onlyGivenNames x; clear_value x; revert x; intro _)
    | with_reducible first
      | refine keepNvm1_mk ?_
      | refine keepNvm2_mk ?_
      | apply keepNvm_eq (Block.wr_nvm ..)
      | apply keepNvm_eq (Block.lightTake_nvm ..)
    | (show Block.nvm _ = _; dsimp -zeta only; done)
    | (show Block.nvm _ = _; dsimp -zeta only; show KeepNvm _ _)
    | with_reducible refine keepNvm_ite ?_ ?_
    | with_reducible refine keepNvm1_ite ?_ ?_
    | with_reducible refine keepNvm2_ite ?_ ?_
    | split
    | with_reducible refine keepNvm_fst (by assumption) ?_
    | with_reducible refine keepNvm_snd (by assumption) ?_
    | assumption

theorem Block.lightShadow_nvm (b : Block) (sec : List Byte) : (Block.lightShadow b sec).nvm = b.nvm := by
  suffices h : KeepNvm b.nvm (Block.lightShadow b sec) from h
  have h0 : KeepNvm b.nvm b := rfl
  unfold Block.lightShadow
  repeat' first
    | with_reducible assumption
    | (extract_lets +onlyGivenNames x; guard_hyp x : Block := _; refine keepNvm_named (n := b.nvm) x ?_ ?_; dsimp -zeta only [x]; clear x; rotate_left; clear_value x; revert x; intro _ _)
    | (extract_lets +onlyGivenNames x; clear_value x; revert x; intro _)
    | (show Block.nvm _ = _; dsimp -zeta only; done)
    | (show Block.nvm _ = _; dsimp -zeta only; show KeepNvm _ _)
    | split

theorem Block.lightDefault_nvm (b : Block) : (Block.lightDefault b).nvm = b.nvm := by
  suffices h : KeepNvm b.nvm (Block.lightDefault b) from h
  have h0 : KeepNvm b.nvm b := rfl
  unfold Block.lightDefault
  repeat' first
    | with_reducible assumption
    | (extract_lets +onlyGivenNames x; guard_hyp x : Block := _; refine keepNvm_named (n := b.nvm) x ?_ ?_; dsimp -zeta only [x]; clear x; rotate_left; clear_value x; revert x; intro _ _)
    | (extract_lets +onlyGivenNames x; clear_value x; revert x; intro _)
    | with_reducible first
      | apply keepNvm_eq (Block.lightTake_nvm ..)
      | apply keepNvm_eq (Block.lightShadow_nvm ..)
    | (show Block.nvm _ = _; dsimp -zeta only; done)
    | (show Block.nvm _ = _; dsimp -zeta only; show KeepNvm _ _)
    | split

theorem Block.lightsResume_nvm (b : Block) : (Block.lightsResume b).nvm = b.nvm := by
  suffices h : KeepNvm b.nvm (Block.lightsResume b) from h
  have h0 : KeepNvm b.nvm b := rfl
  unfold Block.lightsResume
  repeat' first
    | with_reducible assumption
    | (extract_lets +onlyGivenNames x; guard_hyp x : Block := _; refine keepNvm_named (n := b.nvm) x ?_ ?_; dsimp -zeta only [x]; clear x; rotate_left; clear_value x; revert x; intro _ _)
    | (extract_lets +onlyGivenNames x; clear_value x; revert x; intro _)
    | with_reducible first
      | refine keepNvm_forEach ?_ (fun c a hc => ?_)
      | apply keepNvm_eq (Block.count_nvm ..)
      | apply keepNvm_eq (Block.lightSkip_nvm ..)
    | (show Block.nvm _ = _; dsimp -zeta only; done)
    | (show Block.nvm _ = _; dsimp -zeta only; show KeepNvm _ _)
    | with_reducible refine keepNvm_ite ?_ ?_
    | split

theorem Block.setPpb_nvm (b : Block) (r : Int) : (Block.setPpb b r).nvm = b.nvm := by
  suffices h : KeepNvm b.nvm (Block.setPpb b r) from h
  have h0 : KeepNvm b.nvm b := rfl
  unfold Block.setPpb
  repeat' first
    | with_reducible assumption
    | with_reducible first
      | apply keepNvm_eq (Block.wr_nvm ..)
    | (show Block.nvm _ = _; dsimp -zeta only; done)
    | (show Block.nvm _ = _; dsimp -zeta only; show KeepNvm _ _)
    | split

theorem Block.setNow_nvm (b : Block) (ns : Nat) : (Block.setNow b ns).nvm = b.nvm := by
  suffices h : KeepNvm b.nvm (Block.setNow b ns) from h
  have h0 : KeepNvm b.nvm b := rfl
  unfold Block.setNow
  repeat' first
    | with_reducible assumption
    | (extract_lets +onlyGivenNames x; guard_hyp x : Block := _; refine keepNvm_named (n := b.nvm) x ?_ ?_; dsimp -zeta only [x]; clear x; rotate_left; clear_value x; revert x; intro _ _)
    | (extract_lets +onlyGivenNames x; clear_value x; revert x; intro _)
    | (show Block.nvm _ = _; dsimp -zeta only; done)
    | (show Block.nvm _ = _; dsimp -zeta only; show KeepNvm _ _)
    | split

theorem Block.holdGrow_nvm (b : Block) (n : Nat) : (Block.holdGrow b n).nvm = b.nvm := by
  suffices h : KeepNvm b.nvm (Block.holdGrow b n) from h
  have h0 : KeepNvm b.nvm b := rfl
  unfold Block.holdGrow
  repeat' first
    | with_reducible assumption
    | (extract_lets +onlyGivenNames x; guard_hyp x : Block := _; refine keepNvm_named (n := b.nvm) x ?_ ?_; dsimp -zeta only [x]; clear x; rotate_left; clear_value x; revert x; intro _ _)
    | (extract_lets +onlyGivenNames x; clear_value x; revert x; intro _)
    | with_reducible first
      | apply keepNvm_eq (Block.wr_nvm ..)
    | (show Block.nvm _ = _; dsimp -zeta only; done)
    | (show Block.nvm _ = _; dsimp -zeta only; show KeepNvm _ _)
    | split

theorem Block.tick_nvm (b : Block) : (Block.tick b).nvm = b.nvm := by
  suffices h : KeepNvm b.nvm (Block.tick b) from h
  have h0 : KeepNvm b.nvm b := rfl
  unfold Block.tick
  repeat' first
    | with_reducible assumption
    | (extract_lets +onlyGivenNames x; guard_hyp x : Block := _; refine keepNvm_named (n := b.nvm) x ?_ ?_; dsimp -zeta only [x]; clear x; rotate_left; clear_value x; revert x; intro _ _)
    | (extract_lets +onlyGivenNames x; clear_value x; revert x; intro _)
    | with_reducible first
      | refine keepNvm1_mk ?_
      | refine keepNvm2_mk ?_
      | apply keepNvm_eq (Block.draw_nvm ..)
      | apply keepNvm_eq (Block.holdGrow_nvm ..)
    | (show Block.nvm _ = _; dsimp -zeta only; done)
    | (show Block.nvm _ = _; dsimp -zeta only; show KeepNvm _ _)
    | with_reducible refine keepNvm_ite ?_ ?_
    | with_reducible refine keepNvm1_ite ?_ ?_
    | with_reducible refine keepNvm2_ite ?_ ?_
    | split
    | with_reducible refine keepNvm_fst (by assumption) ?_
    | with_reducible refine keepNvm_snd (by assumption) ?_
    | assumption

theorem Block.beaconBad_nvm (b : Block) : (Block.beaconBad b).nvm = b.nvm := by
  suffices h : KeepNvm b.nvm (Block.beaconBad b) from h
  have h0 : KeepNvm b.nvm b := rfl
  unfold Block.beaconBad
  repeat' first
    | with_reducible assumption
    | with_reducible first
      | apply keepNvm_eq (Block.wr_nvm ..)
      | apply keepNvm_eq (Block.bump_nvm ..)
      | apply keepNvm_eq (Block.intr_nvm ..)
    | (show Block.nvm _ = _; dsimp -zeta only; done)
    | (show Block.nvm _ = _; dsimp -zeta only; show KeepNvm _ _)
    | with_reducible refine keepNvm_ite ?_ ?_
    | split

theorem Block.holdover_nvm (b : Block) : (Block.holdover b).nvm = b.nvm := by
  suffices h : KeepNvm b.nvm (Block.holdover b) from h
  have h0 : KeepNvm b.nvm b := rfl
  unfold Block.holdover
  repeat' first
    | with_reducible assumption
    | (extract_lets +onlyGivenNames x; guard_hyp x : Block := _; refine keepNvm_named (n := b.nvm) x ?_ ?_; dsimp -zeta only [x]; clear x; rotate_left; clear_value x; revert x; intro _ _)
    | (extract_lets +onlyGivenNames x; clear_value x; revert x; intro _)
    | with_reducible first
      | apply keepNvm_eq (Block.wr_nvm ..)
      | apply keepNvm_eq (Block.intr_nvm ..)
      | apply keepNvm_eq (Block.eventPlain_nvm ..)
      | apply keepNvm_eq (Block.setPpb_nvm ..)
    | (show Block.nvm _ = _; dsimp -zeta only; done)
    | (show Block.nvm _ = _; dsimp -zeta only; show KeepNvm _ _)
    | with_reducible refine keepNvm_ite ?_ ?_
    | split

theorem Block.steer_nvm (b : Block) (t e : Int) : (Block.steer b t e).1.nvm = b.nvm := by
  suffices h : KeepNvm1 b.nvm (Block.steer b t e) from h
  have h0 : KeepNvm b.nvm b := rfl
  unfold Block.steer
  repeat' first
    | with_reducible assumption
    | (extract_lets +onlyGivenNames x; guard_hyp x : Block × _ := _; refine keepNvm1_named (n := b.nvm) x ?_ ?_; dsimp -zeta only [x]; clear x; rotate_left; clear_value x; revert x; intro _ _)
    | (extract_lets +onlyGivenNames x; guard_hyp x : Block := _; refine keepNvm_named (n := b.nvm) x ?_ ?_; dsimp -zeta only [x]; clear x; rotate_left; clear_value x; revert x; intro _ _)
    | (extract_lets +onlyGivenNames x; clear_value x; revert x; intro _)
    | with_reducible first
      | refine keepNvm1_mk ?_
      | refine keepNvm2_mk ?_
      | apply keepNvm_eq (Block.wr_nvm ..)
      | apply keepNvm_eq (Block.bump_nvm ..)
      | apply keepNvm_eq (Block.intr_nvm ..)
    | with_reducible first
      | apply keepNvm_eq (Block.setPpb_nvm ..)
      | apply keepNvm_eq (Block.setNow_nvm ..)
    | (show Block.nvm _ = _; dsimp -zeta only; done)
    | (show Block.nvm _ = _; dsimp -zeta only; show KeepNvm _ _)
    | with_reducible refine keepNvm_ite ?_ ?_
    | with_reducible refine keepNvm1_ite ?_ ?_
    | with_reducible refine keepNvm2_ite ?_ ?_
    | split
    | with_reducible refine keepNvm_fst (by assumption) ?_
    | with_reducible refine keepNvm_snd (by assumption) ?_
    | assumption

theorem Block.beaconSeen_nvm (b : Block) (srcHold : Bool) : (Block.beaconSeen b srcHold).nvm = b.nvm := by
  suffices h : KeepNvm b.nvm (Block.beaconSeen b srcHold) from h
  have h0 : KeepNvm b.nvm b := rfl
  unfold Block.beaconSeen
  repeat' first
    | with_reducible assumption
    | (extract_lets +onlyGivenNames x; guard_hyp x : Block := _; refine keepNvm_named (n := b.nvm) x ?_ ?_; dsimp -zeta only [x]; clear x; rotate_left; clear_value x; revert x; intro _ _)
    | (extract_lets +onlyGivenNames x; clear_value x; revert x; intro _)
    | with_reducible first
      | apply keepNvm_eq (Block.wr_nvm ..)
      | apply keepNvm_eq (Block.wrB_nvm ..)
    | (show Block.nvm _ = _; dsimp -zeta only; done)
    | (show Block.nvm _ = _; dsimp -zeta only; show KeepNvm _ _)
    | split

theorem Block.beaconFirst_nvm (b : Block) (beacon : Nat) : (Block.beaconFirst b beacon).nvm = b.nvm := by
  suffices h : KeepNvm b.nvm (Block.beaconFirst b beacon) from h
  have h0 : KeepNvm b.nvm b := rfl
  unfold Block.beaconFirst
  repeat' first
    | with_reducible assumption
    | (extract_lets +onlyGivenNames x; guard_hyp x : Block := _; refine keepNvm_named (n := b.nvm) x ?_ ?_; dsimp -zeta only [x]; clear x; rotate_left; clear_value x; revert x; intro _ _)
    | (extract_lets +onlyGivenNames x; clear_value x; revert x; intro _)
    | with_reducible first
      | apply keepNvm_eq (Block.wr_nvm ..)
      | apply keepNvm_eq (Block.setNow_nvm ..)
    | (show Block.nvm _ = _; dsimp -zeta only; done)
    | (show Block.nvm _ = _; dsimp -zeta only; show KeepNvm _ _)
    | split

theorem Block.beaconNext_nvm (b : Block) (beacon : Nat) (e : Int) : (Block.beaconNext b beacon e).nvm = b.nvm := by
  suffices h : KeepNvm b.nvm (Block.beaconNext b beacon e) from h
  have h0 : KeepNvm b.nvm b := rfl
  unfold Block.beaconNext
  repeat' first
    | with_reducible assumption
    | (extract_lets +onlyGivenNames x; guard_hyp x : Block := _; refine keepNvm_named (n := b.nvm) x ?_ ?_; dsimp -zeta only [x]; clear x; rotate_left; clear_value x; revert x; intro _ _)
    | (extract_lets +onlyGivenNames x; clear_value x; revert x; intro _)
    | with_reducible first
      | apply keepNvm_eq (Block.wr_nvm ..)
    | (show Block.nvm _ = _; dsimp -zeta only; done)
    | (show Block.nvm _ = _; dsimp -zeta only; show KeepNvm _ _)
    | split

theorem Block.slewBack_nvm (b : Block) : (Block.slewBack b).nvm = b.nvm := by
  suffices h : KeepNvm b.nvm (Block.slewBack b) from h
  have h0 : KeepNvm b.nvm b := rfl
  unfold Block.slewBack
  repeat' first
    | with_reducible assumption
    | (extract_lets +onlyGivenNames x; guard_hyp x : Block := _; refine keepNvm_named (n := b.nvm) x ?_ ?_; dsimp -zeta only [x]; clear x; rotate_left; clear_value x; revert x; intro _ _)
    | (extract_lets +onlyGivenNames x; clear_value x; revert x; intro _)
    | with_reducible first
      | apply keepNvm_eq (Block.wr_nvm ..)
      | apply keepNvm_eq (Block.intr_nvm ..)
      | apply keepNvm_eq (Block.setPpb_nvm ..)
    | (show Block.nvm _ = _; dsimp -zeta only; done)
    | (show Block.nvm _ = _; dsimp -zeta only; show KeepNvm _ _)
    | split

theorem Block.discipline_nvm (b : Block) (beacon : Nat) (srcHold : Bool) : (Block.discipline b beacon srcHold).1.nvm = b.nvm := by
  suffices h : KeepNvm1 b.nvm (Block.discipline b beacon srcHold) from h
  have h0 : KeepNvm b.nvm b := rfl
  unfold Block.discipline
  repeat' first
    | with_reducible assumption
    | (extract_lets +onlyGivenNames x; guard_hyp x : Block := _; refine keepNvm_named (n := b.nvm) x ?_ ?_; dsimp -zeta only [x]; clear x; rotate_left; clear_value x; revert x; intro _ _)
    | (extract_lets +onlyGivenNames x; clear_value x; revert x; intro _)
    | with_reducible first
      | refine keepNvm1_mk ?_
      | refine keepNvm2_mk ?_
      | apply keepNvm_eq (Block.steer_nvm ..)
      | apply keepNvm_eq (Block.beaconSeen_nvm ..)
      | apply keepNvm_eq (Block.beaconFirst_nvm ..)
    | with_reducible first
      | apply keepNvm_eq (Block.beaconNext_nvm ..)
      | apply keepNvm_eq (Block.slewBack_nvm ..)
    | (show Block.nvm _ = _; dsimp -zeta only; done)
    | (show Block.nvm _ = _; dsimp -zeta only; show KeepNvm _ _)
    | with_reducible refine keepNvm_ite ?_ ?_
    | with_reducible refine keepNvm1_ite ?_ ?_
    | with_reducible refine keepNvm2_ite ?_ ?_
    | split
    | with_reducible refine keepNvm_fst (by assumption) ?_
    | with_reducible refine keepNvm_snd (by assumption) ?_
    | assumption

theorem Block.nowLatch_nvm (b : Block) : (Block.nowLatch b).nvm = b.nvm := by
  suffices h : KeepNvm b.nvm (Block.nowLatch b) from h
  have h0 : KeepNvm b.nvm b := rfl
  unfold Block.nowLatch
  repeat' first
    | with_reducible assumption
    | (extract_lets +onlyGivenNames x; guard_hyp x : Block := _; refine keepNvm_named (n := b.nvm) x ?_ ?_; dsimp -zeta only [x]; clear x; rotate_left; clear_value x; revert x; intro _ _)
    | (extract_lets +onlyGivenNames x; clear_value x; revert x; intro _)
    | (show Block.nvm _ = _; dsimp -zeta only; done)
    | (show Block.nvm _ = _; dsimp -zeta only; show KeepNvm _ _)
    | split

end Sys2Proof.Machine
end

