-- ==== Sys2Proof/Laws/Nvm/Start.lean ====
section
/-! SUPPORT. No operation of Machine/Start.lean changes the non-volatile store, but for those named. -/

namespace Sys2Proof.Machine

theorem Block.startPut_nvm (b : Block) (f : List Byte → List Byte) : (Block.startPut b f).nvm = b.nvm := by
  suffices h : KeepNvm b.nvm (Block.startPut b f) from h
  have h0 : KeepNvm b.nvm b := rfl
  unfold Block.startPut
  repeat' first
    | with_reducible assumption
    | (extract_lets +onlyGivenNames x; guard_hyp x : Block := _; refine keepNvm_named (n := b.nvm) x ?_ ?_; dsimp -zeta only [x]; clear x; rotate_left; clear_value x; revert x; intro _ _)
    | (extract_lets +onlyGivenNames x; clear_value x; revert x; intro _)
    | with_reducible first
      | apply keepNvm_eq (Block.storeBegin_nvm ..)
    | (show Block.nvm _ = _; dsimp -zeta only; done)
    | (show Block.nvm _ = _; dsimp -zeta only; show KeepNvm _ _)
    | split

theorem Block.showRecord_nvm (b : Block) : (Block.showRecord b).nvm = b.nvm := by
  suffices h : KeepNvm b.nvm (Block.showRecord b) from h
  have h0 : KeepNvm b.nvm b := rfl
  unfold Block.showRecord
  repeat' first
    | with_reducible assumption
    | (extract_lets +onlyGivenNames x; guard_hyp x : Block := _; refine keepNvm_named (n := b.nvm) x ?_ ?_; dsimp -zeta only [x]; clear x; rotate_left; clear_value x; revert x; intro _ _)
    | (extract_lets +onlyGivenNames x; clear_value x; revert x; intro _)
    | with_reducible first
      | apply keepNvm_eq (Block.wr_nvm ..)
    | (show Block.nvm _ = _; dsimp -zeta only; done)
    | (show Block.nvm _ = _; dsimp -zeta only; show KeepNvm _ _)
    | with_reducible refine keepNvm_ite ?_ ?_
    | split

theorem Block.startFail_nvm (b : Block) (cause sub detail : Nat) : (Block.startFail b cause sub detail).nvm = b.nvm := by
  suffices h : KeepNvm b.nvm (Block.startFail b cause sub detail) from h
  have h0 : KeepNvm b.nvm b := rfl
  unfold Block.startFail
  repeat' first
    | with_reducible assumption
    | (extract_lets +onlyGivenNames x; guard_hyp x : Block := _; refine keepNvm_named (n := b.nvm) x ?_ ?_; dsimp -zeta only [x]; clear x; rotate_left; clear_value x; revert x; intro _ _)
    | (extract_lets +onlyGivenNames x; clear_value x; revert x; intro _)
    | with_reducible first
      | apply keepNvm_eq (Block.wr_nvm ..)
      | apply keepNvm_eq (Block.eventPlain_nvm ..)
      | apply keepNvm_eq (Block.startPut_nvm ..)
      | apply keepNvm_eq (Block.showRecord_nvm ..)
    | (show Block.nvm _ = _; dsimp -zeta only; done)
    | (show Block.nvm _ = _; dsimp -zeta only; show KeepNvm _ _)
    | split

theorem Block.putSec_nvm (b : Block) (type inst : Nat) (bs : List Byte) : (Block.putSec b type inst bs).nvm = b.nvm := by
  suffices h : KeepNvm b.nvm (Block.putSec b type inst bs) from h
  have h0 : KeepNvm b.nvm b := rfl
  unfold Block.putSec
  repeat' first
    | with_reducible assumption
    | (extract_lets +onlyGivenNames x; guard_hyp x : Block := _; refine keepNvm_named (n := b.nvm) x ?_ ?_; dsimp -zeta only [x]; clear x; rotate_left; clear_value x; revert x; intro _ _)
    | (extract_lets +onlyGivenNames x; clear_value x; revert x; intro _)
    | (show Block.nvm _ = _; dsimp -zeta only; done)
    | (show Block.nvm _ = _; dsimp -zeta only; show KeepNvm _ _)
    | split

theorem Block.enterHarbour_nvm (b : Block) (entry : Nat) : (Block.enterHarbour b entry).nvm = b.nvm := by
  suffices h : KeepNvm b.nvm (Block.enterHarbour b entry) from h
  have h0 : KeepNvm b.nvm b := rfl
  unfold Block.enterHarbour
  repeat' first
    | with_reducible assumption
    | (extract_lets +onlyGivenNames x; guard_hyp x : Block := _; refine keepNvm_named (n := b.nvm) x ?_ ?_; dsimp -zeta only [x]; clear x; rotate_left; clear_value x; revert x; intro _ _)
    | (extract_lets +onlyGivenNames x; clear_value x; revert x; intro _)
    | with_reducible first
      | refine keepNvm_forEach ?_ (fun c a hc => ?_)
      | apply keepNvm_eq (Block.wr_nvm ..)
      | apply keepNvm_eq (Block.intr_nvm ..)
      | apply keepNvm_eq (Block.putSec_nvm ..)
    | (show Block.nvm _ = _; dsimp -zeta only; done)
    | (show Block.nvm _ = _; dsimp -zeta only; show KeepNvm _ _)
    | split

theorem Block.harbourTopo_nvm (b : Block) (n : Nat) : (Block.harbourTopo b n).nvm = b.nvm := by
  suffices h : KeepNvm b.nvm (Block.harbourTopo b n) from h
  have h0 : KeepNvm b.nvm b := rfl
  unfold Block.harbourTopo
  repeat' first
    | with_reducible assumption
    | (extract_lets +onlyGivenNames x; guard_hyp x : Block := _; refine keepNvm_named (n := b.nvm) x ?_ ?_; dsimp -zeta only [x]; clear x; rotate_left; clear_value x; revert x; intro _ _)
    | (extract_lets +onlyGivenNames x; clear_value x; revert x; intro _)
    | with_reducible first
      | apply keepNvm_eq (Block.putSec_nvm ..)
    | (show Block.nvm _ = _; dsimp -zeta only; done)
    | (show Block.nvm _ = _; dsimp -zeta only; show KeepNvm _ _)
    | split

theorem Block.harbourSet_nvm (b : Block) (n : Nat) : (Block.harbourSet b n).nvm = b.nvm := by
  suffices h : KeepNvm b.nvm (Block.harbourSet b n) from h
  have h0 : KeepNvm b.nvm b := rfl
  unfold Block.harbourSet
  repeat' first
    | with_reducible assumption
    | (extract_lets +onlyGivenNames x; guard_hyp x : Block := _; refine keepNvm_named (n := b.nvm) x ?_ ?_; dsimp -zeta only [x]; clear x; rotate_left; clear_value x; revert x; intro _ _)
    | (extract_lets +onlyGivenNames x; clear_value x; revert x; intro _)
    | with_reducible first
      | refine keepNvm1_mk ?_
      | refine keepNvm2_mk ?_
      | apply keepNvm_eq (Block.wr_nvm ..)
      | apply keepNvm_eq (Block.putSec_nvm ..)
    | (show Block.nvm _ = _; dsimp -zeta only; done)
    | (show Block.nvm _ = _; dsimp -zeta only; show KeepNvm _ _)
    | split
    | with_reducible refine keepNvm_fst (by assumption) ?_
    | with_reducible refine keepNvm_snd (by assumption) ?_
    | assumption

theorem Block.harbourNext_nvm (b : Block) (from_ : Nat) : (Block.harbourNext b from_).nvm = b.nvm := by
  suffices h : KeepNvm b.nvm (Block.harbourNext b from_) from h
  have h0 : KeepNvm b.nvm b := rfl
  unfold Block.harbourNext
  repeat' first
    | with_reducible assumption
    | (extract_lets +onlyGivenNames x; guard_hyp x : Block := _; refine keepNvm_named (n := b.nvm) x ?_ ?_; dsimp -zeta only [x]; clear x; rotate_left; clear_value x; revert x; intro _ _)
    | (extract_lets +onlyGivenNames x; clear_value x; revert x; intro _)
    | with_reducible first
      | refine keepNvm_forEach ?_ (fun c a hc => ?_)
      | apply keepNvm_eq (Block.fenceChannel_nvm ..)
      | apply keepNvm_eq (Block.trainAsk_nvm ..)
      | apply keepNvm_eq (Block.loadRecord_nvm ..)
      | apply keepNvm_eq (Block.setBin_nvm ..)
    | with_reducible first
      | apply keepNvm_eq (Block.harbourTopo_nvm ..)
    | (show Block.nvm _ = _; dsimp -zeta only; done)
    | (show Block.nvm _ = _; dsimp -zeta only; show KeepNvm _ _)
    | split

theorem Block.harbourSettle_nvm (b : Block) : (Block.harbourSettle b).nvm = b.nvm := by
  suffices h : KeepNvm b.nvm (Block.harbourSettle b) from h
  have h0 : KeepNvm b.nvm b := rfl
  unfold Block.harbourSettle
  repeat' first
    | with_reducible assumption
    | (extract_lets +onlyGivenNames x; guard_hyp x : Block := _; refine keepNvm_named (n := b.nvm) x ?_ ?_; dsimp -zeta only [x]; clear x; rotate_left; clear_value x; revert x; intro _ _)
    | (extract_lets +onlyGivenNames x; clear_value x; revert x; intro _)
    | with_reducible first
      | refine keepNvm_forEach ?_ (fun c a hc => ?_)
      | apply keepNvm_eq (Block.wr_nvm ..)
      | apply keepNvm_eq (Block.setBitOf_nvm ..)
      | apply keepNvm_eq (Block.fenceChannel_nvm ..)
      | apply keepNvm_eq (Block.harbourSet_nvm ..)
    | with_reducible first
      | apply keepNvm_eq (Block.harbourNext_nvm ..)
    | (show Block.nvm _ = _; dsimp -zeta only; done)
    | (show Block.nvm _ = _; dsimp -zeta only; show KeepNvm _ _)
    | with_reducible refine keepNvm_ite ?_ ?_
    | split

theorem Block.startChFail_nvm (b : Block) (n cause detail : Nat) : (Block.startChFail b n cause detail).nvm = b.nvm := by
  suffices h : KeepNvm b.nvm (Block.startChFail b n cause detail) from h
  have h0 : KeepNvm b.nvm b := rfl
  unfold Block.startChFail
  repeat' first
    | with_reducible assumption
    | with_reducible first
      | apply keepNvm_eq (Block.chFailed_nvm ..)
      | apply keepNvm_eq (Block.fenceChannel_nvm ..)
    | (show Block.nvm _ = _; dsimp -zeta only; done)
    | (show Block.nvm _ = _; dsimp -zeta only; show KeepNvm _ _)
    | split

theorem Block.enterStep5_nvm (b : Block) : (Block.enterStep5 b).nvm = b.nvm := by
  suffices h : KeepNvm b.nvm (Block.enterStep5 b) from h
  have h0 : KeepNvm b.nvm b := rfl
  unfold Block.enterStep5
  repeat' first
    | with_reducible assumption
    | (extract_lets +onlyGivenNames x; guard_hyp x : Block := _; refine keepNvm_named (n := b.nvm) x ?_ ?_; dsimp -zeta only [x]; clear x; rotate_left; clear_value x; revert x; intro _ _)
    | (extract_lets +onlyGivenNames x; clear_value x; revert x; intro _)
    | with_reducible first
      | refine keepNvm_forEach ?_ (fun c a hc => ?_)
      | refine keepNvm1_mk ?_
      | refine keepNvm2_mk ?_
      | apply keepNvm_eq (Block.wr_nvm ..)
    | (show Block.nvm _ = _; dsimp -zeta only; done)
    | (show Block.nvm _ = _; dsimp -zeta only; show KeepNvm _ _)
    | with_reducible refine keepNvm_ite ?_ ?_
    | with_reducible refine keepNvm1_ite ?_ ?_
    | with_reducible refine keepNvm2_ite ?_ ?_
    | split
    | with_reducible refine keepNvm_fst (by assumption) ?_
    | with_reducible refine keepNvm_snd (by assumption) ?_
    | assumption

theorem Block.enterStep6_nvm (b : Block) : (Block.enterStep6 b).nvm = b.nvm := by
  suffices h : KeepNvm b.nvm (Block.enterStep6 b) from h
  have h0 : KeepNvm b.nvm b := rfl
  unfold Block.enterStep6
  repeat' first
    | with_reducible assumption
    | (extract_lets +onlyGivenNames x; guard_hyp x : Block := _; refine keepNvm_named (n := b.nvm) x ?_ ?_; dsimp -zeta only [x]; clear x; rotate_left; clear_value x; revert x; intro _ _)
    | (extract_lets +onlyGivenNames x; clear_value x; revert x; intro _)
    | with_reducible first
      | apply keepNvm_eq (Block.wr_nvm ..)
    | (show Block.nvm _ = _; dsimp -zeta only; done)
    | (show Block.nvm _ = _; dsimp -zeta only; show KeepNvm _ _)
    | split

theorem Block.askTrainings_nvm (b : Block) : (Block.askTrainings b).nvm = b.nvm := by
  suffices h : KeepNvm b.nvm (Block.askTrainings b) from h
  have h0 : KeepNvm b.nvm b := rfl
  unfold Block.askTrainings
  repeat' first
    | with_reducible assumption
    | (extract_lets +onlyGivenNames x; guard_hyp x : Block := _; refine keepNvm_named (n := b.nvm) x ?_ ?_; dsimp -zeta only [x]; clear x; rotate_left; clear_value x; revert x; intro _ _)
    | (extract_lets +onlyGivenNames x; clear_value x; revert x; intro _)
    | with_reducible first
      | refine keepNvm_forEach ?_ (fun c a hc => ?_)
      | refine keepNvm1_mk ?_
      | refine keepNvm2_mk ?_
      | apply keepNvm_eq (Block.trainAsk_nvm ..)
      | apply keepNvm_eq (Block.calLoad_nvm ..)
    | with_reducible first
      | apply keepNvm_eq (Block.setBin_nvm ..)
      | apply keepNvm_eq (Block.startChFail_nvm ..)
    | (show Block.nvm _ = _; dsimp -zeta only; done)
    | (show Block.nvm _ = _; dsimp -zeta only; show KeepNvm _ _)
    | with_reducible refine keepNvm_ite ?_ ?_
    | with_reducible refine keepNvm1_ite ?_ ?_
    | with_reducible refine keepNvm2_ite ?_ ?_
    | split
    | with_reducible refine keepNvm_fst (by assumption) ?_
    | with_reducible refine keepNvm_snd (by assumption) ?_
    | assumption

theorem Block.trainedOn_nvm (b : Block) : (Block.trainedOn b).nvm = b.nvm := by
  suffices h : KeepNvm b.nvm (Block.trainedOn b) from h
  have h0 : KeepNvm b.nvm b := rfl
  unfold Block.trainedOn
  repeat' first
    | with_reducible assumption
    | (extract_lets +onlyGivenNames x; guard_hyp x : Block := _; refine keepNvm_named (n := b.nvm) x ?_ ?_; dsimp -zeta only [x]; clear x; rotate_left; clear_value x; revert x; intro _ _)
    | (extract_lets +onlyGivenNames x; clear_value x; revert x; intro _)
    | with_reducible first
      | refine keepNvm_forEach ?_ (fun c a hc => ?_)
      | refine keepNvm1_mk ?_
      | refine keepNvm2_mk ?_
      | apply keepNvm_eq (Block.updSub_nvm ..)
    | (show Block.nvm _ = _; dsimp -zeta only; done)
    | (show Block.nvm _ = _; dsimp -zeta only; show KeepNvm _ _)
    | with_reducible refine keepNvm_ite ?_ ?_
    | with_reducible refine keepNvm1_ite ?_ ?_
    | with_reducible refine keepNvm2_ite ?_ ?_
    | split
    | with_reducible refine keepNvm_fst (by assumption) ?_
    | with_reducible refine keepNvm_snd (by assumption) ?_
    | assumption

theorem Block.fenceFailed_nvm (b : Block) : (Block.fenceFailed b).nvm = b.nvm := by
  suffices h : KeepNvm b.nvm (Block.fenceFailed b) from h
  have h0 : KeepNvm b.nvm b := rfl
  unfold Block.fenceFailed
  repeat' first
    | with_reducible assumption
    | with_reducible first
      | refine keepNvm_forEach ?_ (fun c a hc => ?_)
      | apply keepNvm_eq (Block.fence_nvm ..)
    | (show Block.nvm _ = _; dsimp -zeta only; done)
    | (show Block.nvm _ = _; dsimp -zeta only; show KeepNvm _ _)
    | with_reducible refine keepNvm_ite ?_ ?_
    | split

theorem Block.edtZero_nvm (b : Block) : (Block.edtZero b).nvm = b.nvm := by
  suffices h : KeepNvm b.nvm (Block.edtZero b) from h
  have h0 : KeepNvm b.nvm b := rfl
  unfold Block.edtZero
  repeat' first
    | with_reducible assumption
    | (extract_lets +onlyGivenNames x; guard_hyp x : Block := _; refine keepNvm_named (n := b.nvm) x ?_ ?_; dsimp -zeta only [x]; clear x; rotate_left; clear_value x; revert x; intro _ _)
    | (extract_lets +onlyGivenNames x; clear_value x; revert x; intro _)
    | with_reducible first
      | refine keepNvm_forEach ?_ (fun c a hc => ?_)
      | refine keepNvm1_mk ?_
      | refine keepNvm2_mk ?_
      | apply keepNvm_eq (Block.updSlice_nvm ..)
      | apply keepNvm_eq (Block.newId_nvm ..)
    | with_reducible first
      | apply keepNvm_eq (Block.wake_nvm ..)
    | (show Block.nvm _ = _; dsimp -zeta only; done)
    | (show Block.nvm _ = _; dsimp -zeta only; show KeepNvm _ _)
    | split
    | with_reducible refine keepNvm_fst (by assumption) ?_
    | with_reducible refine keepNvm_snd (by assumption) ?_
    | assumption

theorem Block.endStep6_nvm (b : Block) : (Block.endStep6 b).nvm = b.nvm := by
  suffices h : KeepNvm b.nvm (Block.endStep6 b) from h
  have h0 : KeepNvm b.nvm b := rfl
  unfold Block.endStep6
  repeat' first
    | with_reducible assumption
    | (extract_lets +onlyGivenNames x; guard_hyp x : Block := _; refine keepNvm_named (n := b.nvm) x ?_ ?_; dsimp -zeta only [x]; clear x; rotate_left; clear_value x; revert x; intro _ _)
    | (extract_lets +onlyGivenNames x; clear_value x; revert x; intro _)
    | with_reducible first
      | apply keepNvm_eq (Block.wr_nvm ..)
      | apply keepNvm_eq (Block.lightDefault_nvm ..)
      | apply keepNvm_eq (Block.startFail_nvm ..)
      | apply keepNvm_eq (Block.edtZero_nvm ..)
    | (show Block.nvm _ = _; dsimp -zeta only; done)
    | (show Block.nvm _ = _; dsimp -zeta only; show KeepNvm _ _)
    | with_reducible refine keepNvm_ite ?_ ?_
    | split

theorem Block.startSettle_nvm (b : Block) : (Block.startSettle b).nvm = b.nvm := by
  suffices h : KeepNvm b.nvm (Block.startSettle b) from h
  have h0 : KeepNvm b.nvm b := rfl
  unfold Block.startSettle
  repeat' first
    | with_reducible assumption
    | (extract_lets +onlyGivenNames x; guard_hyp x : Block := _; refine keepNvm_named (n := b.nvm) x ?_ ?_; dsimp -zeta only [x]; clear x; rotate_left; clear_value x; revert x; intro _ _)
    | (extract_lets +onlyGivenNames x; clear_value x; revert x; intro _)
    | with_reducible first
      | apply keepNvm_eq (Block.harbourSettle_nvm ..)
      | apply keepNvm_eq (Block.enterStep6_nvm ..)
      | apply keepNvm_eq (Block.askTrainings_nvm ..)
      | apply keepNvm_eq (Block.trainedOn_nvm ..)
      | apply keepNvm_eq (Block.fenceFailed_nvm ..)
    | with_reducible first
      | apply keepNvm_eq (Block.endStep6_nvm ..)
    | (show Block.nvm _ = _; dsimp -zeta only; done)
    | (show Block.nvm _ = _; dsimp -zeta only; show KeepNvm _ _)
    | with_reducible refine keepNvm_ite ?_ ?_
    | split

theorem Block.auditScan_nvm (b : Block) : (Block.auditScan b).nvm = b.nvm := by
  suffices h : KeepNvm b.nvm (Block.auditScan b) from h
  have h0 : KeepNvm b.nvm b := rfl
  unfold Block.auditScan
  repeat' first
    | with_reducible assumption
    | (extract_lets +onlyGivenNames x; guard_hyp x : Block := _; refine keepNvm_named (n := b.nvm) x ?_ ?_; dsimp -zeta only [x]; clear x; rotate_left; clear_value x; revert x; intro _ _)
    | (extract_lets +onlyGivenNames x; clear_value x; revert x; intro _)
    | with_reducible first
      | refine keepNvm1_foldl ?_ (fun c a hc => ?_)
      | refine keepNvm2_foldl ?_ (fun c a hc => ?_)
      | apply keepNvm_eq (Block.wr_nvm ..)
    | (show Block.nvm _ = _; dsimp -zeta only; done)
    | (show Block.nvm _ = _; dsimp -zeta only; show KeepNvm _ _)
    | with_reducible refine keepNvm_ite ?_ ?_
    | split
    | with_reducible refine keepNvm_of1 ?_
    | with_reducible refine keepNvm_of2 ?_

theorem Block.startStep3_nvm (b : Block) (selfTest : Bool) : (Block.startStep3 b selfTest).nvm = b.nvm := by
  suffices h : KeepNvm b.nvm (Block.startStep3 b selfTest) from h
  have h0 : KeepNvm b.nvm b := rfl
  unfold Block.startStep3
  repeat' first
    | with_reducible assumption
    | (extract_lets +onlyGivenNames x; guard_hyp x : Block := _; refine keepNvm_named (n := b.nvm) x ?_ ?_; dsimp -zeta only [x]; clear x; rotate_left; clear_value x; revert x; intro _ _)
    | (extract_lets +onlyGivenNames x; clear_value x; revert x; intro _)
    | with_reducible first
      | apply keepNvm_eq (Block.wr_nvm ..)
      | apply keepNvm_eq (Block.wrB_nvm ..)
      | apply keepNvm_eq (Block.eventPlain_nvm ..)
      | apply keepNvm_eq (Block.ledgersLoad_nvm ..)
      | apply keepNvm_eq (Block.startPut_nvm ..)
    | with_reducible first
      | apply keepNvm_eq (Block.showRecord_nvm ..)
      | apply keepNvm_eq (Block.enterHarbour_nvm ..)
      | apply keepNvm_eq (Block.auditScan_nvm ..)
    | (show Block.nvm _ = _; dsimp -zeta only; done)
    | (show Block.nvm _ = _; dsimp -zeta only; show KeepNvm _ _)
    | with_reducible refine keepNvm_ite ?_ ?_
    | split

theorem Block.becomeReady_nvm (b : Block) : (Block.becomeReady b).nvm = b.nvm := by
  suffices h : KeepNvm b.nvm (Block.becomeReady b) from h
  have h0 : KeepNvm b.nvm b := rfl
  unfold Block.becomeReady
  repeat' first
    | with_reducible assumption
    | (extract_lets +onlyGivenNames x; guard_hyp x : Block := _; refine keepNvm_named (n := b.nvm) x ?_ ?_; dsimp -zeta only [x]; clear x; rotate_left; clear_value x; revert x; intro _ _)
    | (extract_lets +onlyGivenNames x; clear_value x; revert x; intro _)
    | with_reducible first
      | apply keepNvm_eq (Block.wr_nvm ..)
      | apply keepNvm_eq (Block.intr_nvm ..)
      | apply keepNvm_eq (Block.startPut_nvm ..)
      | apply keepNvm_eq (Block.showRecord_nvm ..)
      | apply keepNvm_eq (Block.startSettle_nvm ..)
    | (show Block.nvm _ = _; dsimp -zeta only; done)
    | (show Block.nvm _ = _; dsimp -zeta only; show KeepNvm _ _)
    | with_reducible refine keepNvm_ite ?_ ?_
    | split

theorem Block.readyHeld_nvm (b : Block) : (Block.readyHeld b).nvm = b.nvm := by
  suffices h : KeepNvm b.nvm (Block.readyHeld b) from h
  have h0 : KeepNvm b.nvm b := rfl
  unfold Block.readyHeld
  repeat' first
    | with_reducible assumption
    | (extract_lets +onlyGivenNames x; guard_hyp x : Block := _; refine keepNvm_named (n := b.nvm) x ?_ ?_; dsimp -zeta only [x]; clear x; rotate_left; clear_value x; revert x; intro _ _)
    | (extract_lets +onlyGivenNames x; clear_value x; revert x; intro _)
    | with_reducible first
      | apply keepNvm_eq (Block.wr_nvm ..)
      | apply keepNvm_eq (Block.startPut_nvm ..)
      | apply keepNvm_eq (Block.showRecord_nvm ..)
    | (show Block.nvm _ = _; dsimp -zeta only; done)
    | (show Block.nvm _ = _; dsimp -zeta only; show KeepNvm _ _)
    | with_reducible refine keepNvm_ite ?_ ?_
    | split

theorem Block.harbourClear_nvm (b : Block) : (Block.harbourClear b).nvm = b.nvm := by
  suffices h : KeepNvm b.nvm (Block.harbourClear b) from h
  have h0 : KeepNvm b.nvm b := rfl
  unfold Block.harbourClear
  repeat' first
    | with_reducible assumption
    | (extract_lets +onlyGivenNames x; guard_hyp x : Block := _; refine keepNvm_named (n := b.nvm) x ?_ ?_; dsimp -zeta only [x]; clear x; rotate_left; clear_value x; revert x; intro _ _)
    | (extract_lets +onlyGivenNames x; clear_value x; revert x; intro _)
    | with_reducible first
      | apply keepNvm_eq (Block.wr_nvm ..)
      | apply keepNvm_eq (Block.startPut_nvm ..)
      | apply keepNvm_eq (Block.showRecord_nvm ..)
    | (show Block.nvm _ = _; dsimp -zeta only; done)
    | (show Block.nvm _ = _; dsimp -zeta only; show KeepNvm _ _)
    | split

theorem Block.speedOn_nvm (b : Block) (n : Nat) : (Block.speedOn b n).nvm = b.nvm := by
  suffices h : KeepNvm b.nvm (Block.speedOn b n) from h
  have h0 : KeepNvm b.nvm b := rfl
  unfold Block.speedOn
  repeat' first
    | with_reducible assumption
    | (extract_lets +onlyGivenNames x; guard_hyp x : Block := _; refine keepNvm_named (n := b.nvm) x ?_ ?_; dsimp -zeta only [x]; clear x; rotate_left; clear_value x; revert x; intro _ _)
    | (extract_lets +onlyGivenNames x; clear_value x; revert x; intro _)
    | with_reducible first
      | refine keepNvm1_mk ?_
      | refine keepNvm2_mk ?_
      | apply keepNvm_eq (Block.channelSwitch_nvm ..)
    | (show Block.nvm _ = _; dsimp -zeta only; done)
    | (show Block.nvm _ = _; dsimp -zeta only; show KeepNvm _ _)
    | with_reducible refine keepNvm_ite ?_ ?_
    | with_reducible refine keepNvm1_ite ?_ ?_
    | with_reducible refine keepNvm2_ite ?_ ?_
    | split
    | with_reducible refine keepNvm_fst (by assumption) ?_
    | with_reducible refine keepNvm_snd (by assumption) ?_
    | assumption

theorem Block.speedSwitched_nvm (b : Block) (n : Nat) : (Block.speedSwitched b n).nvm = b.nvm := by
  suffices h : KeepNvm b.nvm (Block.speedSwitched b n) from h
  have h0 : KeepNvm b.nvm b := rfl
  unfold Block.speedSwitched
  repeat' first
    | with_reducible assumption
    | (extract_lets +onlyGivenNames x; guard_hyp x : Block := _; refine keepNvm_named (n := b.nvm) x ?_ ?_; dsimp -zeta only [x]; clear x; rotate_left; clear_value x; revert x; intro _ _)
    | (extract_lets +onlyGivenNames x; refine keepNvm_fn x ?_; dsimp -zeta only [x]; clear x)
    | (extract_lets +onlyGivenNames x; refine keepNvm_fn2 x ?_; dsimp -zeta only [x]; clear x)
    | (extract_lets +onlyGivenNames x; refine keepNvm_fn3 x ?_; dsimp -zeta only [x]; clear x)
    | (extract_lets +onlyGivenNames x; refine keepNvm_fn4 x ?_; dsimp -zeta only [x]; clear x)
    | (extract_lets +onlyGivenNames x; clear_value x; revert x; intro _)
    | with_reducible first
      | refine keepNvm_forEach ?_ (fun c a hc => ?_)
      | apply keepNvm_eq (Block.sntRequest_nvm ..)
      | apply keepNvm_eq (Block.trainAsk_nvm ..)
    | (show Block.nvm _ = _; dsimp -zeta only; done)
    | (show Block.nvm _ = _; dsimp -zeta only; show KeepNvm _ _)
    | with_reducible refine keepNvm_ite ?_ ?_
    | split

theorem Block.pllLocked_nvm (b : Block) (n : Nat) : (Block.pllLocked b n).nvm = b.nvm := by
  suffices h : KeepNvm b.nvm (Block.pllLocked b n) from h
  have h0 : KeepNvm b.nvm b := rfl
  unfold Block.pllLocked
  repeat' first
    | with_reducible assumption
    | (extract_lets +onlyGivenNames x; guard_hyp x : Block := _; refine keepNvm_named (n := b.nvm) x ?_ ?_; dsimp -zeta only [x]; clear x; rotate_left; clear_value x; revert x; intro _ _)
    | (extract_lets +onlyGivenNames x; clear_value x; revert x; intro _)
    | with_reducible first
      | apply keepNvm_eq (Block.wr_nvm ..)
      | apply keepNvm_eq (Block.startSettle_nvm ..)
      | apply keepNvm_eq (Block.speedOn_nvm ..)
    | (show Block.nvm _ = _; dsimp -zeta only; done)
    | (show Block.nvm _ = _; dsimp -zeta only; show KeepNvm _ _)
    | with_reducible refine keepNvm_ite ?_ ?_
    | split

theorem Block.rateChange_nvm (b : Block) (n rate : Nat) : (Block.rateChange b n rate).nvm = b.nvm := by
  suffices h : KeepNvm b.nvm (Block.rateChange b n rate) from h
  have h0 : KeepNvm b.nvm b := rfl
  unfold Block.rateChange
  repeat' first
    | with_reducible assumption
    | (extract_lets +onlyGivenNames x; guard_hyp x : Block := _; refine keepNvm_named (n := b.nvm) x ?_ ?_; dsimp -zeta only [x]; clear x; rotate_left; clear_value x; revert x; intro _ _)
    | (extract_lets +onlyGivenNames x; refine keepNvm_fn x ?_; dsimp -zeta only [x]; clear x)
    | (extract_lets +onlyGivenNames x; refine keepNvm_fn2 x ?_; dsimp -zeta only [x]; clear x)
    | (extract_lets +onlyGivenNames x; refine keepNvm_fn3 x ?_; dsimp -zeta only [x]; clear x)
    | (extract_lets +onlyGivenNames x; refine keepNvm_fn4 x ?_; dsimp -zeta only [x]; clear x)
    | (extract_lets +onlyGivenNames x; clear_value x; revert x; intro _)
    | with_reducible first
      | refine keepNvm_forEach ?_ (fun c a hc => ?_)
      | apply keepNvm_eq (Block.wr_nvm ..)
      | apply keepNvm_eq (Block.calEmpty_nvm ..)
    | (show Block.nvm _ = _; dsimp -zeta only; done)
    | (show Block.nvm _ = _; dsimp -zeta only; show KeepNvm _ _)
    | with_reducible refine keepNvm_ite ?_ ?_
    | split

theorem Block.attachTrain_nvm (b : Block) (n : Nat) : (Block.attachTrain b n).nvm = b.nvm := by
  suffices h : KeepNvm b.nvm (Block.attachTrain b n) from h
  have h0 : KeepNvm b.nvm b := rfl
  unfold Block.attachTrain
  repeat' first
    | with_reducible assumption
    | (extract_lets +onlyGivenNames x; guard_hyp x : Block := _; refine keepNvm_named (n := b.nvm) x ?_ ?_; dsimp -zeta only [x]; clear x; rotate_left; clear_value x; revert x; intro _ _)
    | (extract_lets +onlyGivenNames x; clear_value x; revert x; intro _)
    | with_reducible first
      | refine keepNvm1_mk ?_
      | refine keepNvm2_mk ?_
      | apply keepNvm_eq (Block.rplFail_nvm (hev := Block.event0_nvm) ..)
      | apply keepNvm_eq (Block.rplFail_nvm (hev := Block.event_nvm) ..)
      | apply keepNvm_eq (Block.event_nvm ..)
    | with_reducible first
      | apply keepNvm_eq (Block.trainAsk_nvm ..)
      | apply keepNvm_eq (Block.calLoadBase_nvm ..)
      | apply keepNvm_eq (Block.setBin_nvm ..)
      | apply keepNvm_eq (Block.attach_nvm ..)
    | (show Block.nvm _ = _; dsimp -zeta only; done)
    | (show Block.nvm _ = _; dsimp -zeta only; show KeepNvm _ _)
    | with_reducible refine keepNvm_ite ?_ ?_
    | with_reducible refine keepNvm1_ite ?_ ?_
    | with_reducible refine keepNvm2_ite ?_ ?_
    | split
    | with_reducible refine keepNvm_fst (by assumption) ?_
    | with_reducible refine keepNvm_snd (by assumption) ?_
    | assumption

theorem Block.discoveredStart_nvm (b : Block) (m : Nat) (p : ModuleProbe) : (Block.discoveredStart b m p).nvm = b.nvm := by
  suffices h : KeepNvm b.nvm (Block.discoveredStart b m p) from h
  have h0 : KeepNvm b.nvm b := rfl
  unfold Block.discoveredStart
  repeat' first
    | with_reducible assumption
    | (extract_lets +onlyGivenNames x; guard_hyp x : Block := _; refine keepNvm_named (n := b.nvm) x ?_ ?_; dsimp -zeta only [x]; clear x; rotate_left; clear_value x; revert x; intro _ _)
    | (extract_lets +onlyGivenNames x; clear_value x; revert x; intro _)
    | with_reducible first
      | apply keepNvm_eq (Block.discovered_nvm ..)
      | apply keepNvm_eq (Block.harbourNext_nvm ..)
      | apply keepNvm_eq (Block.startChFail_nvm ..)
      | apply keepNvm_eq (Block.startSettle_nvm ..)
    | (show Block.nvm _ = _; dsimp -zeta only; done)
    | (show Block.nvm _ = _; dsimp -zeta only; show KeepNvm _ _)
    | with_reducible refine keepNvm_ite ?_ ?_
    | split

theorem Block.discoveredSwap_nvm (b : Block) (m : Nat) (p : ModuleProbe) : (Block.discoveredSwap b m p).nvm = b.nvm := by
  suffices h : KeepNvm b.nvm (Block.discoveredSwap b m p) from h
  have h0 : KeepNvm b.nvm b := rfl
  unfold Block.discoveredSwap
  repeat' first
    | with_reducible assumption
    | (extract_lets +onlyGivenNames x; guard_hyp x : Block := _; refine keepNvm_named (n := b.nvm) x ?_ ?_; dsimp -zeta only [x]; clear x; rotate_left; clear_value x; revert x; intro _ _)
    | (extract_lets +onlyGivenNames x; guard_hyp x : ModSt := _; dsimp -zeta only [x]; clear x)
    | (extract_lets +onlyGivenNames x; clear_value x; revert x; intro _)
    | with_reducible first
      | apply keepNvm_eq (Block.rplFail_nvm (hev := Block.event0_nvm) ..)
      | apply keepNvm_eq (Block.rplFail_nvm (hev := Block.event_nvm) ..)
      | apply keepNvm_eq (Block.event_nvm ..)
      | apply keepNvm_eq (Block.discovered_nvm ..)
      | apply keepNvm_eq (Block.attachTrain_nvm ..)
    | (show Block.nvm _ = _; dsimp -zeta only; done)
    | (show Block.nvm _ = _; dsimp -zeta only; show KeepNvm _ _)
    | with_reducible refine keepNvm_ite ?_ ?_
    | split

theorem Block.discoveryDone_nvm (b : Block) (m : Nat) (p : ModuleProbe) : (Block.discoveryDone b m p).nvm = b.nvm := by
  suffices h : KeepNvm b.nvm (Block.discoveryDone b m p) from h
  have h0 : KeepNvm b.nvm b := rfl
  unfold Block.discoveryDone
  repeat' first
    | with_reducible assumption
    | with_reducible first
      | apply keepNvm_eq (Block.discoveredStart_nvm ..)
      | apply keepNvm_eq (Block.discoveredSwap_nvm ..)
    | (show Block.nvm _ = _; dsimp -zeta only; done)
    | (show Block.nvm _ = _; dsimp -zeta only; show KeepNvm _ _)
    | with_reducible refine keepNvm_ite ?_ ?_
    | split

theorem Block.sleepS1_nvm (b : Block) (n : Nat) : (Block.sleepS1 b n).nvm = b.nvm := by
  suffices h : KeepNvm b.nvm (Block.sleepS1 b n) from h
  have h0 : KeepNvm b.nvm b := rfl
  unfold Block.sleepS1
  repeat' first
    | with_reducible assumption
    | (extract_lets +onlyGivenNames x; guard_hyp x : Block := _; refine keepNvm_named (n := b.nvm) x ?_ ?_; dsimp -zeta only [x]; clear x; rotate_left; clear_value x; revert x; intro _ _)
    | (extract_lets +onlyGivenNames x; clear_value x; revert x; intro _)
    | with_reducible first
      | refine keepNvm_forEach ?_ (fun c a hc => ?_)
      | apply keepNvm_eq (Block.wr_nvm ..)
      | apply keepNvm_eq (Block.updSub_nvm ..)
      | apply keepNvm_eq (Block.ckSettle_nvm ..)
      | apply keepNvm_eq (Block.ckStop_nvm ..)
    | with_reducible first
      | apply keepNvm_eq (Block.powerSre_nvm ..)
    | (show Block.nvm _ = _; dsimp -zeta only; done)
    | (show Block.nvm _ = _; dsimp -zeta only; show KeepNvm _ _)
    | split

theorem Block.initDone_nvm (b : Block) (n : Nat) : (Block.initDone b n).nvm = b.nvm := by
  suffices h : KeepNvm b.nvm (Block.initDone b n) from h
  have h0 : KeepNvm b.nvm b := rfl
  unfold Block.initDone
  repeat' first
    | with_reducible assumption
    | (extract_lets +onlyGivenNames x; guard_hyp x : Block := _; refine keepNvm_named (n := b.nvm) x ?_ ?_; dsimp -zeta only [x]; clear x; rotate_left; clear_value x; revert x; intro _ _)
    | (extract_lets +onlyGivenNames x; refine keepNvm_fn x ?_; dsimp -zeta only [x]; clear x)
    | (extract_lets +onlyGivenNames x; refine keepNvm_fn2 x ?_; dsimp -zeta only [x]; clear x)
    | (extract_lets +onlyGivenNames x; refine keepNvm_fn3 x ?_; dsimp -zeta only [x]; clear x)
    | (extract_lets +onlyGivenNames x; refine keepNvm_fn4 x ?_; dsimp -zeta only [x]; clear x)
    | (extract_lets +onlyGivenNames x; clear_value x; revert x; intro _)
    | with_reducible first
      | refine keepNvm_forEach ?_ (fun c a hc => ?_)
      | apply keepNvm_eq (Block.wr_nvm ..)
      | apply keepNvm_eq (Block.intr_nvm ..)
      | apply keepNvm_eq (Block.updSub_nvm ..)
      | apply keepNvm_eq (Block.startChFail_nvm ..)
    | with_reducible first
      | apply keepNvm_eq (Block.startSettle_nvm ..)
      | apply keepNvm_eq (Block.sleepS1_nvm ..)
    | (show Block.nvm _ = _; dsimp -zeta only; done)
    | (show Block.nvm _ = _; dsimp -zeta only; show KeepNvm _ _)
    | with_reducible refine keepNvm_ite ?_ ?_
    | split

theorem Block.speedOver_nvm (b : Block) (n : Nat) : (Block.speedOver b n).nvm = b.nvm := by
  suffices h : KeepNvm b.nvm (Block.speedOver b n) from h
  have h0 : KeepNvm b.nvm b := rfl
  unfold Block.speedOver
  repeat' first
    | with_reducible assumption
    | with_reducible first
      | refine keepNvm_forEach ?_ (fun c a hc => ?_)
      | apply keepNvm_eq (Block.wr_nvm ..)
    | (show Block.nvm _ = _; dsimp -zeta only; done)
    | (show Block.nvm _ = _; dsimp -zeta only; show KeepNvm _ _)
    | with_reducible refine keepNvm_ite ?_ ?_
    | split

theorem Block.trainPass_nvm (b : Block) (s : Nat) (run : TrainRun) (m : TrainMeas) (a : AfterTrain) : (Block.trainPass b s run m a).nvm = b.nvm := by
  suffices h : KeepNvm b.nvm (Block.trainPass b s run m a) from h
  have h0 : KeepNvm b.nvm b := rfl
  unfold Block.trainPass
  repeat' first
    | with_reducible assumption
    | (extract_lets +onlyGivenNames x; guard_hyp x : Block := _; refine keepNvm_named (n := b.nvm) x ?_ ?_; dsimp -zeta only [x]; clear x; rotate_left; clear_value x; revert x; intro _ _)
    | (extract_lets +onlyGivenNames x; clear_value x; revert x; intro _)
    | with_reducible first
      | refine keepNvm_forEach ?_ (fun c a hc => ?_)
      | apply keepNvm_eq (Block.wr_nvm ..)
      | apply keepNvm_eq (Block.intr_nvm ..)
      | apply keepNvm_eq (Block.trainCounts_nvm ..)
      | apply keepNvm_eq (Block.trackFree_nvm ..)
    | with_reducible first
      | apply keepNvm_eq (Block.trainVref_nvm ..)
      | apply keepNvm_eq (Block.alert_nvm ..)
      | apply keepNvm_eq (Block.calTrained_nvm ..)
      | apply keepNvm_eq (Block.afterTrain_nvm ..)
      | apply keepNvm_eq (Block.startSettle_nvm ..)
    | with_reducible first
      | apply keepNvm_eq (Block.speedOver_nvm ..)
      | apply keepNvm_eq (Block.attach_nvm ..)
    | (show Block.nvm _ = _; dsimp -zeta only; done)
    | (show Block.nvm _ = _; dsimp -zeta only; show KeepNvm _ _)
    | with_reducible refine keepNvm_ite ?_ ?_
    | split

theorem Block.trainFails_nvm (b : Block) (s code lane : Nat) (failed : List Nat) : (Block.trainFails b s code lane failed).nvm = b.nvm := by
  suffices h : KeepNvm b.nvm (Block.trainFails b s code lane failed) from h
  have h0 : KeepNvm b.nvm b := rfl
  unfold Block.trainFails
  repeat' first
    | with_reducible assumption
    | (extract_lets +onlyGivenNames x; guard_hyp x : Block := _; refine keepNvm_named (n := b.nvm) x ?_ ?_; dsimp -zeta only [x]; clear x; rotate_left; clear_value x; revert x; intro _ _)
    | (extract_lets +onlyGivenNames x; clear_value x; revert x; intro _)
    | with_reducible first
      | apply keepNvm_eq (Block.wr_nvm ..)
      | apply keepNvm_eq (Block.trainFail_nvm (hev := Block.event0_nvm) ..)
      | apply keepNvm_eq (Block.trainFail_nvm (hev := Block.event_nvm) ..)
      | apply keepNvm_eq (Block.event_nvm ..)
      | apply keepNvm_eq (Block.failMask_nvm ..)
    | with_reducible first
      | apply keepNvm_eq (Block.suspect_nvm ..)
      | apply keepNvm_eq (Block.startSettle_nvm ..)
      | apply keepNvm_eq (Block.speedOver_nvm ..)
    | (show Block.nvm _ = _; dsimp -zeta only; done)
    | (show Block.nvm _ = _; dsimp -zeta only; show KeepNvm _ _)
    | with_reducible refine keepNvm_ite ?_ ?_
    | split

theorem Block.stepDone_nvm (b : Block) (s : Nat) (m : TrainMeas) (a : AfterTrain) : (Block.stepDone b s m a).nvm = b.nvm := by
  suffices h : KeepNvm b.nvm (Block.stepDone b s m a) from h
  have h0 : KeepNvm b.nvm b := rfl
  unfold Block.stepDone
  repeat' first
    | with_reducible assumption
    | (extract_lets +onlyGivenNames x; guard_hyp x : Block := _; refine keepNvm_named (n := b.nvm) x ?_ ?_; dsimp -zeta only [x]; clear x; rotate_left; clear_value x; revert x; intro _ _)
    | (extract_lets +onlyGivenNames x; clear_value x; revert x; intro _)
    | with_reducible first
      | apply keepNvm_eq (Block.restartTicks_nvm ..)
      | apply keepNvm_eq (Block.enterStep_nvm ..)
      | apply keepNvm_eq (Block.trainPass_nvm ..)
      | apply keepNvm_eq (Block.trainFails_nvm ..)
      | apply keepNvm_eq (Block.attach_nvm ..)
    | (show Block.nvm _ = _; dsimp -zeta only; done)
    | (show Block.nvm _ = _; dsimp -zeta only; show KeepNvm _ _)
    | with_reducible refine keepNvm_ite ?_ ?_
    | split

end Sys2Proof.Machine
end

