-- ==== Sys2Proof/Laws/Nvm/Checker.lean ====
section
/-! SUPPORT. No operation of Machine/Checker.lean changes the non-volatile store, but for those named. -/

namespace Sys2Proof.Machine

theorem Block.loadViol_nvm (b : Block) (s : Nat) (v : Viol) : (Block.loadViol b s v).nvm = b.nvm := by
  suffices h : KeepNvm b.nvm (Block.loadViol b s v) from h
  have h0 : KeepNvm b.nvm b := rfl
  unfold Block.loadViol
  repeat' first
    | with_reducible assumption
    | (extract_lets +onlyGivenNames x; guard_hyp x : Block := _; refine keepNvm_named (n := b.nvm) x ?_ ?_; dsimp -zeta only [x]; clear x; rotate_left; clear_value x; revert x; intro _ _)
    | (extract_lets +onlyGivenNames x; clear_value x; revert x; intro _)
    | with_reducible first
      | apply keepNvm_eq (Block.wr_nvm ..)
      | apply keepNvm_eq (Block.wrB_nvm ..)
    | (show Block.nvm _ = _; dsimp -zeta only; done)
    | (show Block.nvm _ = _; dsimp -zeta only; show KeepNvm _ _)
    | split

theorem Block.haltSub_nvm (b : Block) (s : Nat) (v : Viol) : (Block.haltSub b s v).nvm = b.nvm := by
  suffices h : KeepNvm b.nvm (Block.haltSub b s v) from h
  have h0 : KeepNvm b.nvm b := rfl
  unfold Block.haltSub
  repeat' first
    | with_reducible assumption
    | (extract_lets +onlyGivenNames x; guard_hyp x : Block := _; refine keepNvm_named (n := b.nvm) x ?_ ?_; dsimp -zeta only [x]; clear x; rotate_left; clear_value x; revert x; intro _ _)
    | (extract_lets +onlyGivenNames x; clear_value x; revert x; intro _)
    | with_reducible first
      | refine keepNvm_forEach ?_ (fun c a hc => ?_)
      | apply keepNvm_eq (Block.wr_nvm ..)
      | apply keepNvm_eq (Block.bump_nvm ..)
      | apply keepNvm_eq (Block.intr_nvm ..)
      | apply keepNvm_eq (Block.event0_nvm ..)
    | with_reducible first
      | apply keepNvm_eq (Block.updSub_nvm ..)
      | apply keepNvm_eq (Block.sevFence_nvm ..)
      | apply keepNvm_eq (Block.sentenceEnd_nvm ..)
      | apply keepNvm_eq (Block.loadViol_nvm ..)
    | (show Block.nvm _ = _; dsimp -zeta only; done)
    | (show Block.nvm _ = _; dsimp -zeta only; show KeepNvm _ _)
    | with_reducible refine keepNvm_ite ?_ ?_
    | split

theorem Block.clauseCheck_nvm (b : Block) (s : Nat) : (Block.clauseCheck b s).nvm = b.nvm := by
  suffices h : KeepNvm b.nvm (Block.clauseCheck b s) from h
  have h0 : KeepNvm b.nvm b := rfl
  unfold Block.clauseCheck
  repeat' first
    | with_reducible assumption
    | (extract_lets +onlyGivenNames x; guard_hyp x : Block := _; refine keepNvm_named (n := b.nvm) x ?_ ?_; dsimp -zeta only [x]; clear x; rotate_left; clear_value x; revert x; intro _ _)
    | (extract_lets +onlyGivenNames x; clear_value x; revert x; intro _)
    | with_reducible first
      | refine keepNvm1_foldl ?_ (fun c a hc => ?_)
      | refine keepNvm2_foldl ?_ (fun c a hc => ?_)
      | apply keepNvm_eq (Block.updSub_nvm ..)
      | apply keepNvm_eq (Block.haltSub_nvm ..)
    | (show Block.nvm _ = _; dsimp -zeta only; done)
    | (show Block.nvm _ = _; dsimp -zeta only; show KeepNvm _ _)
    | with_reducible refine keepNvm_ite ?_ ?_
    | split
    | with_reducible refine keepNvm_of1 ?_
    | with_reducible refine keepNvm_of2 ?_

theorem Block.clauseCompare_nvm (b : Block) (s : Nat) (parity : Bool) : (Block.clauseCompare b s parity).nvm = b.nvm := by
  suffices h : KeepNvm b.nvm (Block.clauseCompare b s parity) from h
  have h0 : KeepNvm b.nvm b := rfl
  unfold Block.clauseCompare
  repeat' first
    | with_reducible assumption
    | (extract_lets +onlyGivenNames x; guard_hyp x : Block := _; refine keepNvm_named (n := b.nvm) x ?_ ?_; dsimp -zeta only [x]; clear x; rotate_left; clear_value x; revert x; intro _ _)
    | (extract_lets +onlyGivenNames x; clear_value x; revert x; intro _)
    | with_reducible first
      | apply keepNvm_eq (Block.updSub_nvm ..)
      | apply keepNvm_eq (Block.haltSub_nvm ..)
    | (show Block.nvm _ = _; dsimp -zeta only; done)
    | (show Block.nvm _ = _; dsimp -zeta only; show KeepNvm _ _)
    | with_reducible refine keepNvm_ite ?_ ?_
    | split

theorem Block.closeRanks_nvm (b : Block) (s : Nat) : (Block.closeRanks b s).nvm = b.nvm := by
  suffices h : KeepNvm b.nvm (Block.closeRanks b s) from h
  have h0 : KeepNvm b.nvm b := rfl
  unfold Block.closeRanks
  repeat' first
    | with_reducible assumption
    | (extract_lets +onlyGivenNames x; guard_hyp x : Block := _; refine keepNvm_named (n := b.nvm) x ?_ ?_; dsimp -zeta only [x]; clear x; rotate_left; clear_value x; revert x; intro _ _)
    | (extract_lets +onlyGivenNames x; clear_value x; revert x; intro _)
    | with_reducible first
      | apply keepNvm_eq (Block.updSub_nvm ..)
    | (show Block.nvm _ = _; dsimp -zeta only; done)
    | (show Block.nvm _ = _; dsimp -zeta only; show KeepNvm _ _)
    | split

theorem Block.reloadDone_nvm (b : Block) (s : Nat) : (Block.reloadDone b s).nvm = b.nvm := by
  suffices h : KeepNvm b.nvm (Block.reloadDone b s) from h
  have h0 : KeepNvm b.nvm b := rfl
  unfold Block.reloadDone
  repeat' first
    | with_reducible assumption
    | (extract_lets +onlyGivenNames x; guard_hyp x : Block × _ := _; refine keepNvm1_named (n := b.nvm) x ?_ ?_; dsimp -zeta only [x]; clear x; rotate_left; clear_value x; revert x; intro _ _)
    | (extract_lets +onlyGivenNames x; guard_hyp x : Block := _; refine keepNvm_named (n := b.nvm) x ?_ ?_; dsimp -zeta only [x]; clear x; rotate_left; clear_value x; revert x; intro _ _)
    | (extract_lets +onlyGivenNames x; clear_value x; revert x; intro _)
    | with_reducible first
      | refine keepNvm_forEach ?_ (fun c a hc => ?_)
      | refine keepNvm1_mk ?_
      | refine keepNvm2_mk ?_
      | apply keepNvm_eq (Block.wr_nvm ..)
      | apply keepNvm_eq (Block.intr_nvm ..)
    | with_reducible first
      | apply keepNvm_eq (Block.updSub_nvm ..)
      | apply keepNvm_eq (Block.reloadClauses_nvm ..)
      | apply keepNvm_eq (Block.event_nvm ..)
      | apply keepNvm_eq (Block.haltLost_nvm ..)
      | apply keepNvm_eq (Block.replay_nvm ..)
    | with_reducible first
      | apply keepNvm_eq (Block.closeRanks_nvm ..)
    | (show Block.nvm _ = _; dsimp -zeta only; done)
    | (show Block.nvm _ = _; dsimp -zeta only; show KeepNvm _ _)
    | with_reducible refine keepNvm_ite ?_ ?_
    | with_reducible refine keepNvm1_ite ?_ ?_
    | with_reducible refine keepNvm2_ite ?_ ?_
    | split
    | with_reducible refine keepNvm_fst (by assumption) ?_
    | with_reducible refine keepNvm_snd (by assumption) ?_
    | assumption

theorem Block.switchDone_nvm (b : Block) (s : Nat) : (Block.switchDone b s).nvm = b.nvm := by
  suffices h : KeepNvm b.nvm (Block.switchDone b s) from h
  have h0 : KeepNvm b.nvm b := rfl
  unfold Block.switchDone
  repeat' first
    | with_reducible assumption
    | (extract_lets +onlyGivenNames x; guard_hyp x : Block := _; refine keepNvm_named (n := b.nvm) x ?_ ?_; dsimp -zeta only [x]; clear x; rotate_left; clear_value x; revert x; intro _ _)
    | (extract_lets +onlyGivenNames x; clear_value x; revert x; intro _)
    | with_reducible first
      | refine keepNvm_forEach ?_ (fun c a hc => ?_)
      | apply keepNvm_eq (Block.wr_nvm ..)
      | apply keepNvm_eq (Block.updSub_nvm ..)
      | apply keepNvm_eq (Block.activate_nvm ..)
      | apply keepNvm_eq (Block.haltLost_nvm ..)
    | with_reducible first
      | apply keepNvm_eq (Block.replay_nvm ..)
      | apply keepNvm_eq (Block.speedSwitched_nvm ..)
      | apply keepNvm_eq (Block.closeRanks_nvm ..)
    | (show Block.nvm _ = _; dsimp -zeta only; done)
    | (show Block.nvm _ = _; dsimp -zeta only; show KeepNvm _ _)
    | with_reducible refine keepNvm_ite ?_ ?_
    | split

theorem Block.clsResume_nvm (b : Block) (s : Nat) : (Block.clsResume b s).nvm = b.nvm := by
  suffices h : KeepNvm b.nvm (Block.clsResume b s) from h
  have h0 : KeepNvm b.nvm b := rfl
  unfold Block.clsResume
  repeat' first
    | with_reducible assumption
    | (extract_lets +onlyGivenNames x; guard_hyp x : Block := _; refine keepNvm_named (n := b.nvm) x ?_ ?_; dsimp -zeta only [x]; clear x; rotate_left; clear_value x; revert x; intro _ _)
    | (extract_lets +onlyGivenNames x; clear_value x; revert x; intro _)
    | with_reducible first
      | refine keepNvm_forEach ?_ (fun c a hc => ?_)
      | apply keepNvm_eq (Block.updSub_nvm ..)
    | (show Block.nvm _ = _; dsimp -zeta only; done)
    | (show Block.nvm _ = _; dsimp -zeta only; show KeepNvm _ _)
    | with_reducible refine keepNvm_ite ?_ ?_
    | split

theorem Block.alertThird_nvm (b : Block) (s : Nat) (k : AlertClass) : (Block.alertThird b s k).nvm = b.nvm := by
  suffices h : KeepNvm b.nvm (Block.alertThird b s k) from h
  have h0 : KeepNvm b.nvm b := rfl
  unfold Block.alertThird
  repeat' first
    | with_reducible assumption
    | (extract_lets +onlyGivenNames x; guard_hyp x : Block := _; refine keepNvm_named (n := b.nvm) x ?_ ?_; dsimp -zeta only [x]; clear x; rotate_left; clear_value x; revert x; intro _ _)
    | (extract_lets +onlyGivenNames x; clear_value x; revert x; intro _)
    | with_reducible first
      | refine keepNvm_forEach ?_ (fun c a hc => ?_)
      | apply keepNvm_eq (Block.wr_nvm ..)
      | apply keepNvm_eq (Block.updSub_nvm ..)
      | apply keepNvm_eq (Block.event_nvm ..)
      | apply keepNvm_eq (Block.alert_nvm ..)
    | with_reducible first
      | apply keepNvm_eq (Block.trainAsk_nvm ..)
      | apply keepNvm_eq (Block.startChFail_nvm ..)
      | apply keepNvm_eq (Block.startSettle_nvm ..)
    | (show Block.nvm _ = _; dsimp -zeta only; done)
    | (show Block.nvm _ = _; dsimp -zeta only; show KeepNvm _ _)
    | with_reducible refine keepNvm_ite ?_ ?_
    | split

theorem Block.alertClass_nvm (b : Block) (s : Nat) (k : AlertClass) : (Block.alertClass b s k).nvm = b.nvm := by
  suffices h : KeepNvm b.nvm (Block.alertClass b s k) from h
  have h0 : KeepNvm b.nvm b := rfl
  unfold Block.alertClass
  repeat' first
    | with_reducible assumption
    | (extract_lets +onlyGivenNames x; guard_hyp x : Block := _; refine keepNvm_named (n := b.nvm) x ?_ ?_; dsimp -zeta only [x]; clear x; rotate_left; clear_value x; revert x; intro _ _)
    | (extract_lets +onlyGivenNames x; clear_value x; revert x; intro _)
    | with_reducible first
      | apply keepNvm_eq (Block.updSub_nvm ..)
      | apply keepNvm_eq (Block.replay_nvm ..)
      | apply keepNvm_eq (Block.alertThird_nvm ..)
    | (show Block.nvm _ = _; dsimp -zeta only; done)
    | (show Block.nvm _ = _; dsimp -zeta only; show KeepNvm _ _)
    | with_reducible refine keepNvm_ite ?_ ?_
    | split

theorem Block.loopGo_nvm (b : Block) (s : Nat) : (Block.loopGo b s).nvm = b.nvm := by
  suffices h : KeepNvm b.nvm (Block.loopGo b s) from h
  have h0 : KeepNvm b.nvm b := rfl
  unfold Block.loopGo
  repeat' first
    | with_reducible assumption
    | (extract_lets +onlyGivenNames x; guard_hyp x : Block := _; refine keepNvm_named (n := b.nvm) x ?_ ?_; dsimp -zeta only [x]; clear x; rotate_left; clear_value x; revert x; intro _ _)
    | (extract_lets +onlyGivenNames x; clear_value x; revert x; intro _)
    | with_reducible first
      | apply keepNvm_eq (Block.wr_nvm ..)
      | apply keepNvm_eq (Block.intr_nvm ..)
      | apply keepNvm_eq (Block.keeperRequest_nvm ..)
    | (show Block.nvm _ = _; dsimp -zeta only; done)
    | (show Block.nvm _ = _; dsimp -zeta only; show KeepNvm _ _)
    | with_reducible refine keepNvm_ite ?_ ?_
    | split

theorem Block.loopReport_nvm (b : Block) (s errs lanes : Nat) : (Block.loopReport b s errs lanes).nvm = b.nvm := by
  suffices h : KeepNvm b.nvm (Block.loopReport b s errs lanes) from h
  have h0 : KeepNvm b.nvm b := rfl
  unfold Block.loopReport
  repeat' first
    | with_reducible assumption
    | (extract_lets +onlyGivenNames x; guard_hyp x : Block := _; refine keepNvm_named (n := b.nvm) x ?_ ?_; dsimp -zeta only [x]; clear x; rotate_left; clear_value x; revert x; intro _ _)
    | (extract_lets +onlyGivenNames x; clear_value x; revert x; intro _)
    | with_reducible first
      | apply keepNvm_eq (Block.wr_nvm ..)
      | apply keepNvm_eq (Block.addSat_nvm ..)
      | apply keepNvm_eq (Block.loopEnd_nvm ..)
      | apply keepNvm_eq (Block.keeperRequest_nvm ..)
    | (show Block.nvm _ = _; dsimp -zeta only; done)
    | (show Block.nvm _ = _; dsimp -zeta only; show KeepNvm _ _)
    | with_reducible refine keepNvm_ite ?_ ?_
    | split

end Sys2Proof.Machine
end

