-- ==== Sys2Proof/Laws/Nvm/Ecc.lean ====
section
/-! SUPPORT. No operation of Machine/Ecc.lean changes the non-volatile store, but for those named. -/

namespace Sys2Proof.Machine

theorem Block.bucketAdd_nvm (b : Block) (s : Nat) (at_ : Coord) : (Block.bucketAdd b s at_).nvm = b.nvm := by
  suffices h : KeepNvm b.nvm (Block.bucketAdd b s at_) from h
  have h0 : KeepNvm b.nvm b := rfl
  unfold Block.bucketAdd
  repeat' first
    | with_reducible assumption
    | (extract_lets +onlyGivenNames x; guard_hyp x : Block := _; refine keepNvm_named (n := b.nvm) x ?_ ?_; dsimp -zeta only [x]; clear x; rotate_left; clear_value x; revert x; intro _ _)
    | (extract_lets +onlyGivenNames x; clear_value x; revert x; intro _)
    | with_reducible first
      | apply keepNvm_eq (Block.wr_nvm ..)
      | apply keepNvm_eq (Block.bump_nvm ..)
      | apply keepNvm_eq (Block.intr_nvm ..)
      | apply keepNvm_eq (Block.feedOvf_nvm ..)
      | apply keepNvm_eq (Block.event_nvm ..)
    | (show Block.nvm _ = _; dsimp -zeta only; done)
    | (show Block.nvm _ = _; dsimp -zeta only; show KeepNvm _ _)
    | with_reducible refine keepNvm_ite ?_ ?_
    | split

theorem Block.bucketSet_nvm (b : Block) (s : Nat) : (Block.bucketSet b s).nvm = b.nvm := by
  suffices h : KeepNvm b.nvm (Block.bucketSet b s) from h
  have h0 : KeepNvm b.nvm b := rfl
  unfold Block.bucketSet
  repeat' first
    | with_reducible assumption
    | (extract_lets +onlyGivenNames x; guard_hyp x : Block := _; refine keepNvm_named (n := b.nvm) x ?_ ?_; dsimp -zeta only [x]; clear x; rotate_left; clear_value x; revert x; intro _ _)
    | (extract_lets +onlyGivenNames x; clear_value x; revert x; intro _)
    | with_reducible first
      | refine keepNvm_forEach ?_ (fun c a hc => ?_)
      | apply keepNvm_eq (Block.wr_nvm ..)
      | apply keepNvm_eq (Block.updLog_nvm ..)
    | (show Block.nvm _ = _; dsimp -zeta only; done)
    | (show Block.nvm _ = _; dsimp -zeta only; show KeepNvm _ _)
    | with_reducible refine keepNvm_ite ?_ ?_
    | split

theorem Block.bucketLeak_nvm (b : Block) (s : Nat) : (Block.bucketLeak b s).nvm = b.nvm := by
  suffices h : KeepNvm b.nvm (Block.bucketLeak b s) from h
  have h0 : KeepNvm b.nvm b := rfl
  unfold Block.bucketLeak
  repeat' first
    | with_reducible assumption
    | with_reducible first
      | apply keepNvm_eq (Block.wr_nvm ..)
    | (show Block.nvm _ = _; dsimp -zeta only; done)
    | (show Block.nvm _ = _; dsimp -zeta only; show KeepNvm _ _)
    | split

theorem Block.repairStart_nvm (b : Block) (s i : Nat) (hard : Bool) (role : Nat) : (Block.repairStart b s i hard role).nvm = b.nvm := by
  suffices h : KeepNvm b.nvm (Block.repairStart b s i hard role) from h
  have h0 : KeepNvm b.nvm b := rfl
  unfold Block.repairStart
  repeat' first
    | with_reducible assumption
    | (extract_lets +onlyGivenNames x; guard_hyp x : Block := _; refine keepNvm_named (n := b.nvm) x ?_ ?_; dsimp -zeta only [x]; clear x; rotate_left; clear_value x; revert x; intro _ _)
    | (extract_lets +onlyGivenNames x; clear_value x; revert x; intro _)
    | with_reducible first
      | apply keepNvm_eq (Block.wr_nvm ..)
      | apply keepNvm_eq (Block.updLog_nvm ..)
      | apply keepNvm_eq (Block.sntRequest_nvm ..)
    | (show Block.nvm _ = _; dsimp -zeta only; done)
    | (show Block.nvm _ = _; dsimp -zeta only; show KeepNvm _ _)
    | split

theorem Block.softRefused_nvm (b : Block) (s i : Nat) : (Block.softRefused b s i).nvm = b.nvm := by
  suffices h : KeepNvm b.nvm (Block.softRefused b s i) from h
  have h0 : KeepNvm b.nvm b := rfl
  unfold Block.softRefused
  repeat' first
    | with_reducible assumption
    | (extract_lets +onlyGivenNames x; guard_hyp x : Block := _; refine keepNvm_named (n := b.nvm) x ?_ ?_; dsimp -zeta only [x]; clear x; rotate_left; clear_value x; revert x; intro _ _)
    | (extract_lets +onlyGivenNames x; clear_value x; revert x; intro _)
    | with_reducible first
      | apply keepNvm_eq (Block.judge_nvm ..)
      | apply keepNvm_eq (Block.updLog_nvm ..)
    | (show Block.nvm _ = _; dsimp -zeta only; done)
    | (show Block.nvm _ = _; dsimp -zeta only; show KeepNvm _ _)
    | with_reducible refine keepNvm_ite ?_ ?_
    | split

theorem Block.softAuto_nvm (b : Block) (s i : Nat) : (Block.softAuto b s i).nvm = b.nvm := by
  suffices h : KeepNvm b.nvm (Block.softAuto b s i) from h
  have h0 : KeepNvm b.nvm b := rfl
  unfold Block.softAuto
  repeat' first
    | with_reducible assumption
    | (extract_lets +onlyGivenNames x; guard_hyp x : Block := _; refine keepNvm_named (n := b.nvm) x ?_ ?_; dsimp -zeta only [x]; clear x; rotate_left; clear_value x; revert x; intro _ _)
    | (extract_lets +onlyGivenNames x; clear_value x; revert x; intro _)
    | with_reducible first
      | refine keepNvm1_mk ?_
      | refine keepNvm2_mk ?_
      | apply keepNvm_eq (Block.repairStart_nvm ..)
      | apply keepNvm_eq (Block.softRefused_nvm ..)
    | (show Block.nvm _ = _; dsimp -zeta only; done)
    | (show Block.nvm _ = _; dsimp -zeta only; show KeepNvm _ _)
    | with_reducible refine keepNvm_ite ?_ ?_
    | with_reducible refine keepNvm1_ite ?_ ?_
    | with_reducible refine keepNvm2_ite ?_ ?_
    | split
    | with_reducible refine keepNvm_fst (by assumption) ?_
    | with_reducible refine keepNvm_snd (by assumption) ?_
    | assumption

theorem Block.repairGo_nvm (b : Block) (s role : Nat) : (Block.repairGo b s role).nvm = b.nvm := by
  suffices h : KeepNvm b.nvm (Block.repairGo b s role) from h
  have h0 : KeepNvm b.nvm b := rfl
  unfold Block.repairGo
  repeat' first
    | with_reducible assumption
    | (extract_lets +onlyGivenNames x; guard_hyp x : Block := _; refine keepNvm_named (n := b.nvm) x ?_ ?_; dsimp -zeta only [x]; clear x; rotate_left; clear_value x; revert x; intro _ _)
    | (extract_lets +onlyGivenNames x; refine keepNvm_fn x ?_; dsimp -zeta only [x]; clear x)
    | (extract_lets +onlyGivenNames x; refine keepNvm_fn2 x ?_; dsimp -zeta only [x]; clear x)
    | (extract_lets +onlyGivenNames x; refine keepNvm_fn3 x ?_; dsimp -zeta only [x]; clear x)
    | (extract_lets +onlyGivenNames x; refine keepNvm_fn4 x ?_; dsimp -zeta only [x]; clear x)
    | (extract_lets +onlyGivenNames x; clear_value x; revert x; intro _)
    | with_reducible first
      | apply keepNvm_eq (Block.wr_nvm ..)
      | apply keepNvm_eq (Block.repairStart_nvm ..)
      | apply keepNvm_eq (Block.softRefused_nvm ..)
    | (show Block.nvm _ = _; dsimp -zeta only; done)
    | (show Block.nvm _ = _; dsimp -zeta only; show KeepNvm _ _)
    | with_reducible refine keepNvm_ite ?_ ?_
    | split

theorem Block.ledgerErase_nvm (b : Block) (m d : Nat) : (Block.ledgerErase b m d).nvm = b.nvm := by
  suffices h : KeepNvm b.nvm (Block.ledgerErase b m d) from h
  have h0 : KeepNvm b.nvm b := rfl
  unfold Block.ledgerErase
  repeat' first
    | with_reducible assumption
    | (extract_lets +onlyGivenNames x; guard_hyp x : Block := _; refine keepNvm_named (n := b.nvm) x ?_ ?_; dsimp -zeta only [x]; clear x; rotate_left; clear_value x; revert x; intro _ _)
    | (extract_lets +onlyGivenNames x; clear_value x; revert x; intro _)
    | with_reducible first
      | apply keepNvm_eq (Block.updLedger_nvm ..)
      | apply keepNvm_eq (Block.storeLedger_nvm ..)
      | apply keepNvm_eq (Block.judge_nvm ..)
    | (show Block.nvm _ = _; dsimp -zeta only; done)
    | (show Block.nvm _ = _; dsimp -zeta only; show KeepNvm _ _)
    | split

theorem Block.eraseByBlock_nvm (b : Block) (s rank d : Nat) : (Block.eraseByBlock b s rank d).nvm = b.nvm := by
  suffices h : KeepNvm b.nvm (Block.eraseByBlock b s rank d) from h
  have h0 : KeepNvm b.nvm b := rfl
  unfold Block.eraseByBlock
  repeat' first
    | with_reducible assumption
    | (extract_lets +onlyGivenNames x; guard_hyp x : Block := _; refine keepNvm_named (n := b.nvm) x ?_ ?_; dsimp -zeta only [x]; clear x; rotate_left; clear_value x; revert x; intro _ _)
    | (extract_lets +onlyGivenNames x; clear_value x; revert x; intro _)
    | with_reducible first
      | apply keepNvm_eq (Block.wr_nvm ..)
      | apply keepNvm_eq (Block.event_nvm ..)
      | apply keepNvm_eq (Block.ledgerErase_nvm ..)
    | (show Block.nvm _ = _; dsimp -zeta only; done)
    | (show Block.nvm _ = _; dsimp -zeta only; show KeepNvm _ _)
    | split

theorem Block.eraseWritten_nvm (b : Block) (s : Nat) : (Block.eraseWritten b s).nvm = b.nvm := by
  suffices h : KeepNvm b.nvm (Block.eraseWritten b s) from h
  have h0 : KeepNvm b.nvm b := rfl
  unfold Block.eraseWritten
  repeat' first
    | with_reducible assumption
    | (extract_lets +onlyGivenNames x; guard_hyp x : Block := _; refine keepNvm_named (n := b.nvm) x ?_ ?_; dsimp -zeta only [x]; clear x; rotate_left; clear_value x; revert x; intro _ _)
    | (extract_lets +onlyGivenNames x; clear_value x; revert x; intro _)
    | with_reducible first
      | apply keepNvm_eq (Block.wr_nvm ..)
      | apply keepNvm_eq (Block.ledgerErase_nvm ..)
    | (show Block.nvm _ = _; dsimp -zeta only; done)
    | (show Block.nvm _ = _; dsimp -zeta only; show KeepNvm _ _)
    | split

theorem Block.eraseCheck_nvm (b : Block) (s rank : Nat) (devs : List Nat) : (Block.eraseCheck b s rank devs).nvm = b.nvm := by
  suffices h : KeepNvm b.nvm (Block.eraseCheck b s rank devs) from h
  have h0 : KeepNvm b.nvm b := rfl
  unfold Block.eraseCheck
  repeat' first
    | with_reducible assumption
    | (extract_lets +onlyGivenNames x; guard_hyp x : Block := _; refine keepNvm_named (n := b.nvm) x ?_ ?_; dsimp -zeta only [x]; clear x; rotate_left; clear_value x; revert x; intro _ _)
    | (extract_lets +onlyGivenNames x; clear_value x; revert x; intro _)
    | with_reducible first
      | refine keepNvm1_mk ?_
      | refine keepNvm2_mk ?_
      | apply keepNvm_eq (Block.eraseByBlock_nvm ..)
    | (show Block.nvm _ = _; dsimp -zeta only; done)
    | (show Block.nvm _ = _; dsimp -zeta only; show KeepNvm _ _)
    | with_reducible refine keepNvm_ite ?_ ?_
    | with_reducible refine keepNvm1_ite ?_ ?_
    | with_reducible refine keepNvm2_ite ?_ ?_
    | split
    | with_reducible refine keepNvm_fst (by assumption) ?_
    | with_reducible refine keepNvm_snd (by assumption) ?_
    | assumption

theorem Block.becomePersistent_nvm (b : Block) (s i : Nat) (c : Coord) (devs : List Nat) : (Block.becomePersistent b s i c devs).nvm = b.nvm := by
  suffices h : KeepNvm b.nvm (Block.becomePersistent b s i c devs) from h
  have h0 : KeepNvm b.nvm b := rfl
  unfold Block.becomePersistent
  repeat' first
    | with_reducible assumption
    | (extract_lets +onlyGivenNames x; guard_hyp x : Block := _; refine keepNvm_named (n := b.nvm) x ?_ ?_; dsimp -zeta only [x]; clear x; rotate_left; clear_value x; revert x; intro _ _)
    | (extract_lets +onlyGivenNames x; clear_value x; revert x; intro _)
    | with_reducible first
      | apply keepNvm_eq (Block.wr_nvm ..)
      | apply keepNvm_eq (Block.bump_nvm ..)
      | apply keepNvm_eq (Block.intr_nvm ..)
      | apply keepNvm_eq (Block.feedPersist_nvm ..)
      | apply keepNvm_eq (Block.updLog_nvm ..)
    | with_reducible first
      | apply keepNvm_eq (Block.event_nvm ..)
      | apply keepNvm_eq (Block.softAuto_nvm ..)
      | apply keepNvm_eq (Block.eraseCheck_nvm ..)
    | (show Block.nvm _ = _; dsimp -zeta only; done)
    | (show Block.nvm _ = _; dsimp -zeta only; show KeepNvm _ _)
    | with_reducible refine keepNvm_ite ?_ ?_
    | split

theorem Block.logEvent_nvm (b : Block) (s : Nat) (c : Coord) (dpa : Option Nat) (devs : List Nat) (inj susp : Bool) : (Block.logEvent b s c dpa devs inj susp).1.nvm = b.nvm := by
  suffices h : KeepNvm1 b.nvm (Block.logEvent b s c dpa devs inj susp) from h
  have h0 : KeepNvm b.nvm b := rfl
  unfold Block.logEvent
  repeat' first
    | with_reducible assumption
    | (extract_lets +onlyGivenNames x; guard_hyp x : Block := _; refine keepNvm_named (n := b.nvm) x ?_ ?_; dsimp -zeta only [x]; clear x; rotate_left; clear_value x; revert x; intro _ _)
    | (extract_lets +onlyGivenNames x; clear_value x; revert x; intro _)
    | with_reducible first
      | refine keepNvm1_mk ?_
      | refine keepNvm2_mk ?_
      | apply keepNvm_eq (Block.wr_nvm ..)
      | apply keepNvm_eq (Block.bump_nvm ..)
      | apply keepNvm_eq (Block.count_nvm ..)
    | with_reducible first
      | apply keepNvm_eq (Block.updLog_nvm ..)
      | apply keepNvm_eq (Block.becomePersistent_nvm ..)
    | (show Block.nvm _ = _; dsimp -zeta only; done)
    | (show Block.nvm _ = _; dsimp -zeta only; show KeepNvm _ _)
    | with_reducible refine keepNvm_ite ?_ ?_
    | with_reducible refine keepNvm1_ite ?_ ?_
    | with_reducible refine keepNvm2_ite ?_ ?_
    | split
    | with_reducible refine keepNvm_fst (by assumption) ?_
    | with_reducible refine keepNvm_snd (by assumption) ?_
    | assumption

theorem Block.ceEvent_nvm (b : Block) (s : Nat) (c : Coord) (dpa : Option Nat) (devs : List Nat) (inj susp : Bool) : (Block.ceEvent b s c dpa devs inj susp).nvm = b.nvm := by
  suffices h : KeepNvm b.nvm (Block.ceEvent b s c dpa devs inj susp) from h
  have h0 : KeepNvm b.nvm b := rfl
  unfold Block.ceEvent
  repeat' first
    | with_reducible assumption
    | (extract_lets +onlyGivenNames x; guard_hyp x : Block × _ := _; refine keepNvm1_named (n := b.nvm) x ?_ ?_; dsimp -zeta only [x]; clear x; rotate_left; clear_value x; revert x; intro _ _)
    | (extract_lets +onlyGivenNames x; guard_hyp x : Block := _; refine keepNvm_named (n := b.nvm) x ?_ ?_; dsimp -zeta only [x]; clear x; rotate_left; clear_value x; revert x; intro _ _)
    | (extract_lets +onlyGivenNames x; clear_value x; revert x; intro _)
    | with_reducible first
      | refine keepNvm1_mk ?_
      | refine keepNvm2_mk ?_
      | apply keepNvm_eq (Block.wr_nvm ..)
      | apply keepNvm_eq (Block.bump_nvm ..)
      | apply keepNvm_eq (Block.feedCE_nvm ..)
    | with_reducible first
      | apply keepNvm_eq (Block.bucketAdd_nvm ..)
      | apply keepNvm_eq (Block.logEvent_nvm ..)
    | (show Block.nvm _ = _; dsimp -zeta only; done)
    | (show Block.nvm _ = _; dsimp -zeta only; show KeepNvm _ _)
    | with_reducible refine keepNvm_ite ?_ ?_
    | with_reducible refine keepNvm1_ite ?_ ?_
    | with_reducible refine keepNvm2_ite ?_ ?_
    | split
    | with_reducible refine keepNvm_fst (by assumption) ?_
    | with_reducible refine keepNvm_snd (by assumption) ?_
    | assumption

theorem Block.loadUeRec_nvm (b : Block) (s : Nat) (c : Coord) (dpa : Option Nat) (inj susp recovered : Bool) : (Block.loadUeRec b s c dpa inj susp recovered).nvm = b.nvm := by
  suffices h : KeepNvm b.nvm (Block.loadUeRec b s c dpa inj susp recovered) from h
  have h0 : KeepNvm b.nvm b := rfl
  unfold Block.loadUeRec
  repeat' first
    | with_reducible assumption
    | (extract_lets +onlyGivenNames x; guard_hyp x : Block := _; refine keepNvm_named (n := b.nvm) x ?_ ?_; dsimp -zeta only [x]; clear x; rotate_left; clear_value x; revert x; intro _ _)
    | (extract_lets +onlyGivenNames x; refine keepNvm_fn x ?_; dsimp -zeta only [x]; clear x)
    | (extract_lets +onlyGivenNames x; refine keepNvm_fn2 x ?_; dsimp -zeta only [x]; clear x)
    | (extract_lets +onlyGivenNames x; refine keepNvm_fn3 x ?_; dsimp -zeta only [x]; clear x)
    | (extract_lets +onlyGivenNames x; refine keepNvm_fn4 x ?_; dsimp -zeta only [x]; clear x)
    | (extract_lets +onlyGivenNames x; clear_value x; revert x; intro _)
    | with_reducible first
      | apply keepNvm_eq (Block.wr_nvm ..)
    | (show Block.nvm _ = _; dsimp -zeta only; done)
    | (show Block.nvm _ = _; dsimp -zeta only; show KeepNvm _ _)
    | with_reducible refine keepNvm_ite ?_ ?_
    | split

theorem Block.ueEvent_nvm (b : Block) (s : Nat) (c : Coord) (dpa : Option Nat) (inj susp recovered : Bool) : (Block.ueEvent b s c dpa inj susp recovered).nvm = b.nvm := by
  suffices h : KeepNvm b.nvm (Block.ueEvent b s c dpa inj susp recovered) from h
  have h0 : KeepNvm b.nvm b := rfl
  unfold Block.ueEvent
  repeat' first
    | with_reducible assumption
    | (extract_lets +onlyGivenNames x; guard_hyp x : Block := _; refine keepNvm_named (n := b.nvm) x ?_ ?_; dsimp -zeta only [x]; clear x; rotate_left; clear_value x; revert x; intro _ _)
    | (extract_lets +onlyGivenNames x; clear_value x; revert x; intro _)
    | with_reducible first
      | apply keepNvm_eq (Block.wr_nvm ..)
      | apply keepNvm_eq (Block.bump_nvm ..)
      | apply keepNvm_eq (Block.intr_nvm ..)
      | apply keepNvm_eq (Block.feedUE_nvm ..)
      | apply keepNvm_eq (Block.event_nvm ..)
    | with_reducible first
      | apply keepNvm_eq (Block.loadUeRec_nvm ..)
    | (show Block.nvm _ = _; dsimp -zeta only; done)
    | (show Block.nvm _ = _; dsimp -zeta only; show KeepNvm _ _)
    | with_reducible refine keepNvm_ite ?_ ?_
    | split

theorem Block.decodeRead_nvm (b : Block) (s : Nat) (c : Coord) (dpa : Option Nat) (code : Nat) : (Block.decodeRead b s c dpa code).1.nvm = b.nvm := by
  suffices h : KeepNvm1 b.nvm (Block.decodeRead b s c dpa code) from h
  have h0 : KeepNvm b.nvm b := rfl
  unfold Block.decodeRead
  repeat' first
    | with_reducible assumption
    | (extract_lets +onlyGivenNames x; guard_hyp x : Block := _; refine keepNvm_named (n := b.nvm) x ?_ ?_; dsimp -zeta only [x]; clear x; rotate_left; clear_value x; revert x; intro _ _)
    | (extract_lets +onlyGivenNames x; clear_value x; revert x; intro _)
    | with_reducible first
      | refine keepNvm1_mk ?_
      | refine keepNvm2_mk ?_
      | apply keepNvm_eq (Block.bump_nvm ..)
      | apply keepNvm_eq (Block.injFired_nvm ..)
      | apply keepNvm_eq (Block.ceEvent_nvm ..)
    | (show Block.nvm _ = _; dsimp -zeta only; done)
    | (show Block.nvm _ = _; dsimp -zeta only; show KeepNvm _ _)
    | with_reducible refine keepNvm_ite ?_ ?_
    | with_reducible refine keepNvm1_ite ?_ ?_
    | with_reducible refine keepNvm2_ite ?_ ?_
    | split
    | with_reducible refine keepNvm_fst (by assumption) ?_
    | with_reducible refine keepNvm_snd (by assumption) ?_
    | assumption

theorem Block.logSelect_nvm (b : Block) (s : Nat) : (Block.logSelect b s).nvm = b.nvm := by
  suffices h : KeepNvm b.nvm (Block.logSelect b s) from h
  have h0 : KeepNvm b.nvm b := rfl
  unfold Block.logSelect
  repeat' first
    | with_reducible assumption
    | (extract_lets +onlyGivenNames x; guard_hyp x : Block := _; refine keepNvm_named (n := b.nvm) x ?_ ?_; dsimp -zeta only [x]; clear x; rotate_left; clear_value x; revert x; intro _ _)
    | (extract_lets +onlyGivenNames x; clear_value x; revert x; intro _)
    | with_reducible first
      | refine keepNvm_forEach ?_ (fun c a hc => ?_)
      | apply keepNvm_eq (Block.wr_nvm ..)
    | (show Block.nvm _ = _; dsimp -zeta only; done)
    | (show Block.nvm _ = _; dsimp -zeta only; show KeepNvm _ _)
    | split

theorem Block.logClear_nvm (b : Block) (s : Nat) : (Block.logClear b s).nvm = b.nvm := by
  suffices h : KeepNvm b.nvm (Block.logClear b s) from h
  have h0 : KeepNvm b.nvm b := rfl
  unfold Block.logClear
  repeat' first
    | with_reducible assumption
    | with_reducible first
      | apply keepNvm_eq (Block.updLog_nvm ..)
    | (show Block.nvm _ = _; dsimp -zeta only; done)
    | (show Block.nvm _ = _; dsimp -zeta only; show KeepNvm _ _)
    | split

theorem Block.rowBack_nvm (b : Block) (s : Nat) (place : Nat → Coord) (bad : List Nat) : (Block.rowBack b s place bad).nvm = b.nvm := by
  suffices h : KeepNvm b.nvm (Block.rowBack b s place bad) from h
  have h0 : KeepNvm b.nvm b := rfl
  unfold Block.rowBack
  repeat' first
    | with_reducible assumption
    | (extract_lets +onlyGivenNames x; guard_hyp x : Block := _; refine keepNvm_named (n := b.nvm) x ?_ ?_; dsimp -zeta only [x]; clear x; rotate_left; clear_value x; revert x; intro _ _)
    | (extract_lets +onlyGivenNames x; clear_value x; revert x; intro _)
    | with_reducible first
      | refine keepNvm_forEach ?_ (fun c a hc => ?_)
      | apply keepNvm_eq (Block.wr_nvm ..)
      | apply keepNvm_eq (Block.event_nvm ..)
      | apply keepNvm_eq (Block.writeIssued_nvm ..)
    | (show Block.nvm _ = _; dsimp -zeta only; done)
    | (show Block.nvm _ = _; dsimp -zeta only; show KeepNvm _ _)
    | split

theorem Block.repairDone_nvm (b : Block) (s : Nat) (ok : Bool) (timeUs spare : Nat) (ces : List (Nat × Nat)) (ues poisons : List Nat) : (Block.repairDone b s ok timeUs spare ces ues poisons).nvm = b.nvm := by
  suffices h : KeepNvm b.nvm (Block.repairDone b s ok timeUs spare ces ues poisons) from h
  have h0 : KeepNvm b.nvm b := rfl
  unfold Block.repairDone
  repeat' first
    | with_reducible assumption
    | (extract_lets +onlyGivenNames x; guard_hyp x : Block := _; refine keepNvm_named (n := b.nvm) x ?_ ?_; dsimp -zeta only [x]; clear x; rotate_left; clear_value x; revert x; intro _ _)
    | (extract_lets +onlyGivenNames x; refine keepNvm_fn x ?_; dsimp -zeta only [x]; clear x)
    | (extract_lets +onlyGivenNames x; refine keepNvm_fn2 x ?_; dsimp -zeta only [x]; clear x)
    | (extract_lets +onlyGivenNames x; refine keepNvm_fn3 x ?_; dsimp -zeta only [x]; clear x)
    | (extract_lets +onlyGivenNames x; refine keepNvm_fn4 x ?_; dsimp -zeta only [x]; clear x)
    | (extract_lets +onlyGivenNames x; clear_value x; revert x; intro _)
    | with_reducible first
      | refine keepNvm_forEach ?_ (fun c a hc => ?_)
      | apply keepNvm_eq (Block.addSat_nvm ..)
      | apply keepNvm_eq (Block.repairEnd_nvm (hev := Block.event0_nvm) ..)
      | apply keepNvm_eq (Block.repairEnd_nvm (hev := Block.event_nvm) ..)
      | apply keepNvm_eq (Block.event_nvm ..)
    | with_reducible first
      | apply keepNvm_eq (Block.ceEvent_nvm ..)
      | apply keepNvm_eq (Block.ueEvent_nvm ..)
      | apply keepNvm_eq (Block.rowBack_nvm ..)
    | (show Block.nvm _ = _; dsimp -zeta only; done)
    | (show Block.nvm _ = _; dsimp -zeta only; show KeepNvm _ _)
    | with_reducible refine keepNvm_ite ?_ ?_
    | split

theorem Block.injArm_nvm (b : Block) : (Block.injArm b).nvm = b.nvm := by
  suffices h : KeepNvm b.nvm (Block.injArm b) from h
  have h0 : KeepNvm b.nvm b := rfl
  unfold Block.injArm
  repeat' first
    | with_reducible assumption
    | (extract_lets +onlyGivenNames x; guard_hyp x : Block := _; refine keepNvm_named (n := b.nvm) x ?_ ?_; dsimp -zeta only [x]; clear x; rotate_left; clear_value x; revert x; intro _ _)
    | (extract_lets +onlyGivenNames x; clear_value x; revert x; intro _)
    | with_reducible first
      | apply keepNvm_eq (Block.wr_nvm ..)
    | (show Block.nvm _ = _; dsimp -zeta only; done)
    | (show Block.nvm _ = _; dsimp -zeta only; show KeepNvm _ _)
    | split

theorem Block.injDisarm_nvm (b : Block) : (Block.injDisarm b).nvm = b.nvm := by
  suffices h : KeepNvm b.nvm (Block.injDisarm b) from h
  have h0 : KeepNvm b.nvm b := rfl
  unfold Block.injDisarm
  repeat' first
    | with_reducible assumption
    | (extract_lets +onlyGivenNames x; guard_hyp x : Block := _; refine keepNvm_named (n := b.nvm) x ?_ ?_; dsimp -zeta only [x]; clear x; rotate_left; clear_value x; revert x; intro _ _)
    | (extract_lets +onlyGivenNames x; clear_value x; revert x; intro _)
    | with_reducible first
      | apply keepNvm_eq (Block.wr_nvm ..)
    | (show Block.nvm _ = _; dsimp -zeta only; done)
    | (show Block.nvm _ = _; dsimp -zeta only; show KeepNvm _ _)
    | split

end Sys2Proof.Machine
end

