-- ==== Sys2Proof/Laws/Nvm/Cache.lean ====
section
/-! SUPPORT. No operation of Machine/Cache.lean changes the non-volatile store, but for those named. -/

namespace Sys2Proof.Machine

theorem Block.cchErr_nvm (b : Block) (c pos set way sec : Nat) : (Block.cchErr b c pos set way sec).nvm = b.nvm := by
  suffices h : KeepNvm b.nvm (Block.cchErr b c pos set way sec) from h
  have h0 : KeepNvm b.nvm b := rfl
  unfold Block.cchErr
  repeat' first
    | with_reducible assumption
    | (extract_lets +onlyGivenNames x; guard_hyp x : Block := _; refine keepNvm_named (n := b.nvm) x ?_ ?_; dsimp -zeta only [x]; clear x; rotate_left; clear_value x; revert x; intro _ _)
    | (extract_lets +onlyGivenNames x; clear_value x; revert x; intro _)
    | with_reducible first
      | apply keepNvm_eq (Block.wr_nvm ..)
      | apply keepNvm_eq (Block.intr_nvm ..)
    | (show Block.nvm _ = _; dsimp -zeta only; done)
    | (show Block.nvm _ = _; dsimp -zeta only; show KeepNvm _ _)
    | split

theorem Block.writeCell_nvm (b : Block) (k sec : Nat) (st : Sec) (data : BitVec 512) (bad : Bool) : (Block.writeCell b k sec st data bad).nvm = b.nvm := by
  suffices h : KeepNvm b.nvm (Block.writeCell b k sec st data bad) from h
  have h0 : KeepNvm b.nvm b := rfl
  unfold Block.writeCell
  repeat' first
    | with_reducible assumption
    | (extract_lets +onlyGivenNames x; guard_hyp x : Block := _; refine keepNvm_named (n := b.nvm) x ?_ ?_; dsimp -zeta only [x]; clear x; rotate_left; clear_value x; revert x; intro _ _)
    | (extract_lets +onlyGivenNames x; clear_value x; revert x; intro _)
    | with_reducible first
      | apply keepNvm_eq (Block.updLine_nvm ..)
    | (show Block.nvm _ = _; dsimp -zeta only; done)
    | (show Block.nvm _ = _; dsimp -zeta only; show KeepNvm _ _)
    | split

theorem Block.dataRead_nvm (b : Block) (k sec : Nat) : (Block.dataRead b k sec).1.nvm = b.nvm := by
  suffices h : KeepNvm1 b.nvm (Block.dataRead b k sec) from h
  have h0 : KeepNvm b.nvm b := rfl
  unfold Block.dataRead
  repeat' first
    | with_reducible assumption
    | (extract_lets +onlyGivenNames x; guard_hyp x : Block := _; refine keepNvm_named (n := b.nvm) x ?_ ?_; dsimp -zeta only [x]; clear x; rotate_left; clear_value x; revert x; intro _ _)
    | (extract_lets +onlyGivenNames x; clear_value x; revert x; intro _)
    | with_reducible first
      | refine keepNvm1_mk ?_
      | refine keepNvm2_mk ?_
      | apply keepNvm_eq (Block.descUpd_nvm ..)
      | apply keepNvm_eq (Block.event_nvm ..)
      | apply keepNvm_eq (Block.cchErr_nvm ..)
    | with_reducible first
      | apply keepNvm_eq (Block.writeCell_nvm ..)
    | (show Block.nvm _ = _; dsimp -zeta only; done)
    | (show Block.nvm _ = _; dsimp -zeta only; show KeepNvm _ _)
    | with_reducible refine keepNvm_ite ?_ ?_
    | with_reducible refine keepNvm1_ite ?_ ?_
    | with_reducible refine keepNvm2_ite ?_ ?_
    | split
    | with_reducible refine keepNvm_fst (by assumption) ?_
    | with_reducible refine keepNvm_snd (by assumption) ?_
    | assumption

theorem Block.setAge_nvm (b : Block) (k v : Nat) : (Block.setAge b k v).nvm = b.nvm := by
  suffices h : KeepNvm b.nvm (Block.setAge b k v) from h
  have h0 : KeepNvm b.nvm b := rfl
  unfold Block.setAge
  repeat' first
    | with_reducible assumption
    | (extract_lets +onlyGivenNames x; guard_hyp x : Block := _; refine keepNvm_named (n := b.nvm) x ?_ ?_; dsimp -zeta only [x]; clear x; rotate_left; clear_value x; revert x; intro _ _)
    | (extract_lets +onlyGivenNames x; clear_value x; revert x; intro _)
    | with_reducible first
      | apply keepNvm_eq (Block.updLine_nvm ..)
    | (show Block.nvm _ = _; dsimp -zeta only; done)
    | (show Block.nvm _ = _; dsimp -zeta only; show KeepNvm _ _)
    | split

theorem Block.moveAge_nvm (b : Block) (k v : Nat) : (Block.moveAge b k v).nvm = b.nvm := by
  suffices h : KeepNvm b.nvm (Block.moveAge b k v) from h
  have h0 : KeepNvm b.nvm b := rfl
  unfold Block.moveAge
  repeat' first
    | with_reducible assumption
    | (extract_lets +onlyGivenNames x; guard_hyp x : Block := _; refine keepNvm_named (n := b.nvm) x ?_ ?_; dsimp -zeta only [x]; clear x; rotate_left; clear_value x; revert x; intro _ _)
    | (extract_lets +onlyGivenNames x; clear_value x; revert x; intro _)
    | with_reducible first
      | refine keepNvm_forEach ?_ (fun c a hc => ?_)
      | apply keepNvm_eq (Block.setAge_nvm ..)
    | (show Block.nvm _ = _; dsimp -zeta only; done)
    | (show Block.nvm _ = _; dsimp -zeta only; show KeepNvm _ _)
    | with_reducible refine keepNvm_ite ?_ ?_
    | split

theorem Block.lineWriteBacks_nvm (b : Block) (k sec mnt : Nat) : (Block.lineWriteBacks b k sec mnt).1.nvm = b.nvm := by
  suffices h : KeepNvm1 b.nvm (Block.lineWriteBacks b k sec mnt) from h
  have h0 : KeepNvm b.nvm b := rfl
  unfold Block.lineWriteBacks
  repeat' first
    | with_reducible assumption
    | (extract_lets +onlyGivenNames x; guard_hyp x : Block := _; refine keepNvm_named (n := b.nvm) x ?_ ?_; dsimp -zeta only [x]; clear x; rotate_left; clear_value x; revert x; intro _ _)
    | (extract_lets +onlyGivenNames x; clear_value x; revert x; intro _)
    | with_reducible first
      | refine keepNvm1_mk ?_
      | refine keepNvm2_mk ?_
      | apply keepNvm_eq (Block.newId_nvm ..)
    | (show Block.nvm _ = _; dsimp -zeta only; done)
    | (show Block.nvm _ = _; dsimp -zeta only; show KeepNvm _ _)
    | split
    | with_reducible refine keepNvm_fst (by assumption) ?_
    | with_reducible refine keepNvm_snd (by assumption) ?_
    | assumption

theorem Block.sendDirty_nvm (b : Block) (k mnt : Nat) : (Block.sendDirty b k mnt).nvm = b.nvm := by
  suffices h : KeepNvm b.nvm (Block.sendDirty b k mnt) from h
  have h0 : KeepNvm b.nvm b := rfl
  unfold Block.sendDirty
  repeat' first
    | with_reducible assumption
    | (extract_lets +onlyGivenNames x; guard_hyp x : Block × _ := _; refine keepNvm1_named (n := b.nvm) x ?_ ?_; dsimp -zeta only [x]; clear x; rotate_left; clear_value x; revert x; intro _ _)
    | (extract_lets +onlyGivenNames x; guard_hyp x : Block := _; refine keepNvm_named (n := b.nvm) x ?_ ?_; dsimp -zeta only [x]; clear x; rotate_left; clear_value x; revert x; intro _ _)
    | (extract_lets +onlyGivenNames x; clear_value x; revert x; intro _)
    | with_reducible first
      | refine keepNvm_forEach ?_ (fun c a hc => ?_)
      | refine keepNvm1_mk ?_
      | refine keepNvm2_mk ?_
      | apply keepNvm_eq (Block.addSat_nvm ..)
      | apply keepNvm_eq (Block.updSlice_nvm ..)
    | with_reducible first
      | apply keepNvm_eq (Block.updLine_nvm ..)
      | apply keepNvm_eq (Block.count_nvm ..)
      | apply keepNvm_eq (Block.wake_nvm ..)
      | apply keepNvm_eq (Block.dataRead_nvm ..)
      | apply keepNvm_eq (Block.lineWriteBacks_nvm ..)
    | (show Block.nvm _ = _; dsimp -zeta only; done)
    | (show Block.nvm _ = _; dsimp -zeta only; show KeepNvm _ _)
    | with_reducible refine keepNvm_ite ?_ ?_
    | with_reducible refine keepNvm1_ite ?_ ?_
    | with_reducible refine keepNvm2_ite ?_ ?_
    | split
    | with_reducible refine keepNvm_fst (by assumption) ?_
    | with_reducible refine keepNvm_snd (by assumption) ?_
    | assumption

theorem Block.cancelFills_nvm (b : Block) (k : Nat) : (Block.cancelFills b k).nvm = b.nvm := by
  suffices h : KeepNvm b.nvm (Block.cancelFills b k) from h
  have h0 : KeepNvm b.nvm b := rfl
  unfold Block.cancelFills
  repeat' first
    | with_reducible assumption
    | (extract_lets +onlyGivenNames x; guard_hyp x : Block := _; refine keepNvm_named (n := b.nvm) x ?_ ?_; dsimp -zeta only [x]; clear x; rotate_left; clear_value x; revert x; intro _ _)
    | (extract_lets +onlyGivenNames x; refine keepNvm_fn x ?_; dsimp -zeta only [x]; clear x)
    | (extract_lets +onlyGivenNames x; refine keepNvm_fn2 x ?_; dsimp -zeta only [x]; clear x)
    | (extract_lets +onlyGivenNames x; refine keepNvm_fn3 x ?_; dsimp -zeta only [x]; clear x)
    | (extract_lets +onlyGivenNames x; refine keepNvm_fn4 x ?_; dsimp -zeta only [x]; clear x)
    | (extract_lets +onlyGivenNames x; clear_value x; revert x; intro _)
    | with_reducible first
      | apply keepNvm_eq (Block.updSlice_nvm ..)
    | (show Block.nvm _ = _; dsimp -zeta only; done)
    | (show Block.nvm _ = _; dsimp -zeta only; show KeepNvm _ _)
    | with_reducible refine keepNvm_ite ?_ ?_
    | split

theorem Block.dropLine_nvm (b : Block) (k : Nat) (writeBack : Bool) (mnt : Nat) : (Block.dropLine b k writeBack mnt).nvm = b.nvm := by
  suffices h : KeepNvm b.nvm (Block.dropLine b k writeBack mnt) from h
  have h0 : KeepNvm b.nvm b := rfl
  unfold Block.dropLine
  repeat' first
    | with_reducible assumption
    | (extract_lets +onlyGivenNames x; guard_hyp x : Block := _; refine keepNvm_named (n := b.nvm) x ?_ ?_; dsimp -zeta only [x]; clear x; rotate_left; clear_value x; revert x; intro _ _)
    | (extract_lets +onlyGivenNames x; clear_value x; revert x; intro _)
    | with_reducible first
      | apply keepNvm_eq (Block.updLine_nvm ..)
      | apply keepNvm_eq (Block.freeLine_nvm ..)
      | apply keepNvm_eq (Block.sendDirty_nvm ..)
      | apply keepNvm_eq (Block.cancelFills_nvm ..)
    | (show Block.nvm _ = _; dsimp -zeta only; done)
    | (show Block.nvm _ = _; dsimp -zeta only; show KeepNvm _ _)
    | with_reducible refine keepNvm_ite ?_ ?_
    | split

theorem Block.tagCheck_nvm (b : Block) (k : Nat) : (Block.tagCheck b k).nvm = b.nvm := by
  suffices h : KeepNvm b.nvm (Block.tagCheck b k) from h
  have h0 : KeepNvm b.nvm b := rfl
  unfold Block.tagCheck
  repeat' first
    | with_reducible assumption
    | (extract_lets +onlyGivenNames x; guard_hyp x : Block := _; refine keepNvm_named (n := b.nvm) x ?_ ?_; dsimp -zeta only [x]; clear x; rotate_left; clear_value x; revert x; intro _ _)
    | (extract_lets +onlyGivenNames x; refine keepNvm_fn x ?_; dsimp -zeta only [x]; clear x)
    | (extract_lets +onlyGivenNames x; refine keepNvm_fn2 x ?_; dsimp -zeta only [x]; clear x)
    | (extract_lets +onlyGivenNames x; refine keepNvm_fn3 x ?_; dsimp -zeta only [x]; clear x)
    | (extract_lets +onlyGivenNames x; refine keepNvm_fn4 x ?_; dsimp -zeta only [x]; clear x)
    | (extract_lets +onlyGivenNames x; clear_value x; revert x; intro _)
    | with_reducible first
      | refine keepNvm1_mk ?_
      | refine keepNvm2_mk ?_
      | apply keepNvm_eq (Block.updLine_nvm ..)
      | apply keepNvm_eq (Block.event_nvm ..)
      | apply keepNvm_eq (Block.cchErr_nvm ..)
    | with_reducible first
      | apply keepNvm_eq (Block.dropLine_nvm ..)
    | (show Block.nvm _ = _; dsimp -zeta only; done)
    | (show Block.nvm _ = _; dsimp -zeta only; show KeepNvm _ _)
    | with_reducible refine keepNvm_ite ?_ ?_
    | with_reducible refine keepNvm1_ite ?_ ?_
    | with_reducible refine keepNvm2_ite ?_ ?_
    | split
    | with_reducible refine keepNvm_fst (by assumption) ?_
    | with_reducible refine keepNvm_snd (by assumption) ?_
    | assumption

theorem Block.tagsRead_nvm (b : Block) (c set : Nat) : (Block.tagsRead b c set).nvm = b.nvm := by
  suffices h : KeepNvm b.nvm (Block.tagsRead b c set) from h
  have h0 : KeepNvm b.nvm b := rfl
  unfold Block.tagsRead
  repeat' first
    | with_reducible assumption
    | with_reducible first
      | refine keepNvm_forEach ?_ (fun c a hc => ?_)
      | apply keepNvm_eq (Block.tagCheck_nvm ..)
    | (show Block.nvm _ = _; dsimp -zeta only; done)
    | (show Block.nvm _ = _; dsimp -zeta only; show KeepNvm _ _)
    | split

theorem Block.upset_nvm (b : Block) (c : Nat) (u : Upset) : (Block.upset b c u).nvm = b.nvm := by
  suffices h : KeepNvm b.nvm (Block.upset b c u) from h
  have h0 : KeepNvm b.nvm b := rfl
  unfold Block.upset
  repeat' first
    | with_reducible assumption
    | (extract_lets +onlyGivenNames x; guard_hyp x : Block := _; refine keepNvm_named (n := b.nvm) x ?_ ?_; dsimp -zeta only [x]; clear x; rotate_left; clear_value x; revert x; intro _ _)
    | (extract_lets +onlyGivenNames x; clear_value x; revert x; intro _)
    | with_reducible first
      | apply keepNvm_eq (Block.updLine_nvm ..)
    | (show Block.nvm _ = _; dsimp -zeta only; done)
    | (show Block.nvm _ = _; dsimp -zeta only; show KeepNvm _ _)
    | with_reducible refine keepNvm_ite ?_ ?_
    | split

theorem Block.victim_nvm (b : Block) (c set t : Nat) (pinned : Bool) : (Block.victim b c set t pinned).1.nvm = b.nvm := by
  suffices h : KeepNvm1 b.nvm (Block.victim b c set t pinned) from h
  have h0 : KeepNvm b.nvm b := rfl
  unfold Block.victim
  repeat' first
    | with_reducible assumption
    | (extract_lets +onlyGivenNames x; guard_hyp x : Block := _; refine keepNvm_named (n := b.nvm) x ?_ ?_; dsimp -zeta only [x]; clear x; rotate_left; clear_value x; revert x; intro _ _)
    | (extract_lets +onlyGivenNames x; clear_value x; revert x; intro _)
    | with_reducible first
      | refine keepNvm1_mk ?_
      | refine keepNvm2_mk ?_
      | apply keepNvm_eq (Block.bump_nvm ..)
    | (show Block.nvm _ = _; dsimp -zeta only; done)
    | (show Block.nvm _ = _; dsimp -zeta only; show KeepNvm _ _)
    | with_reducible refine keepNvm_ite ?_ ?_
    | with_reducible refine keepNvm1_ite ?_ ?_
    | with_reducible refine keepNvm2_ite ?_ ?_
    | split
    | with_reducible refine keepNvm_fst (by assumption) ?_
    | with_reducible refine keepNvm_snd (by assumption) ?_
    | assumption

theorem Block.takeWay_nvm (b : Block) (k : Nat) (r : Req) (pinned ea stream : Bool) : (Block.takeWay b k r pinned ea stream).nvm = b.nvm := by
  suffices h : KeepNvm b.nvm (Block.takeWay b k r pinned ea stream) from h
  have h0 : KeepNvm b.nvm b := rfl
  unfold Block.takeWay
  repeat' first
    | with_reducible assumption
    | (extract_lets +onlyGivenNames x; guard_hyp x : Block := _; refine keepNvm_named (n := b.nvm) x ?_ ?_; dsimp -zeta only [x]; clear x; rotate_left; clear_value x; revert x; intro _ _)
    | (extract_lets +onlyGivenNames x; clear_value x; revert x; intro _)
    | with_reducible first
      | apply keepNvm_eq (Block.updLine_nvm ..)
      | apply keepNvm_eq (Block.moveAge_nvm ..)
    | (show Block.nvm _ = _; dsimp -zeta only; done)
    | (show Block.nvm _ = _; dsimp -zeta only; show KeepNvm _ _)
    | with_reducible refine keepNvm_ite ?_ ?_
    | split

end Sys2Proof.Machine
end

