-- ==== Sys2Proof/Laws/Nvm/Slice.lean ====
section
/-! SUPPORT. No operation of Machine/Slice.lean changes the non-volatile store, but for those named. -/

namespace Sys2Proof.Machine

theorem Block.serveWaiters_nvm (b : Block) (v : SecVal) (uncached : Bool) (l : List Waiter) :
    (Block.serveWaiters b v uncached l).1.nvm = b.nvm := by
  induction l generalizing b v with
  | nil => rfl
  | cons w rest ih =>
    unfold Block.serveWaiters
    dsimp only
    split
    · split
      · simp only [ih]; split <;> simp [Block.respond_nvm]
      · simp only [ih, Block.respond_nvm]
    · simp only [ih, Block.respond_nvm]

theorem Block.mapScrubs_nvm (b : Block) (f : Req → Req) : (Block.mapScrubs b f).nvm = b.nvm := by
  suffices h : KeepNvm b.nvm (Block.mapScrubs b f) from h
  have h0 : KeepNvm b.nvm b := rfl
  unfold Block.mapScrubs
  repeat' first
    | with_reducible assumption
    | (extract_lets +onlyGivenNames x; guard_hyp x : Block := _; refine keepNvm_named (n := b.nvm) x ?_ ?_; dsimp -zeta only [x]; clear x; rotate_left; clear_value x; revert x; intro _ _)
    | (extract_lets +onlyGivenNames x; refine keepNvm_fn x ?_; dsimp -zeta only [x]; clear x)
    | (extract_lets +onlyGivenNames x; refine keepNvm_fn2 x ?_; dsimp -zeta only [x]; clear x)
    | (extract_lets +onlyGivenNames x; refine keepNvm_fn3 x ?_; dsimp -zeta only [x]; clear x)
    | (extract_lets +onlyGivenNames x; refine keepNvm_fn4 x ?_; dsimp -zeta only [x]; clear x)
    | (extract_lets +onlyGivenNames x; clear_value x; revert x; intro _)
    | (show Block.nvm _ = _; dsimp -zeta only; done)
    | (show Block.nvm _ = _; dsimp -zeta only; show KeepNvm _ _)
    | with_reducible refine keepNvm_ite ?_ ?_
    | split

theorem Block.scrubStale_nvm (b : Block) (p : Route → Bool) (sec : Nat) : (Block.scrubStale b p sec).nvm = b.nvm := by
  suffices h : KeepNvm b.nvm (Block.scrubStale b p sec) from h
  have h0 : KeepNvm b.nvm b := rfl
  unfold Block.scrubStale
  repeat' first
    | with_reducible assumption
    | (extract_lets +onlyGivenNames x; guard_hyp x : Block := _; refine keepNvm_named (n := b.nvm) x ?_ ?_; dsimp -zeta only [x]; clear x; rotate_left; clear_value x; revert x; intro _ _)
    | (extract_lets +onlyGivenNames x; clear_value x; revert x; intro _)
    | with_reducible first
      | refine keepNvm1_mk ?_
      | refine keepNvm2_mk ?_
    | (show Block.nvm _ = _; dsimp -zeta only; done)
    | (show Block.nvm _ = _; dsimp -zeta only; show KeepNvm _ _)
    | with_reducible refine keepNvm_ite ?_ ?_
    | with_reducible refine keepNvm1_ite ?_ ?_
    | with_reducible refine keepNvm2_ite ?_ ?_
    | split
    | with_reducible refine keepNvm_fst (by assumption) ?_
    | with_reducible refine keepNvm_snd (by assumption) ?_
    | assumption

theorem Block.noteWrite_nvm (b : Block) (route : Route) (other : Option Route) (sec : Nat) : (Block.noteWrite b route other sec).nvm = b.nvm := by
  suffices h : KeepNvm b.nvm (Block.noteWrite b route other sec) from h
  have h0 : KeepNvm b.nvm b := rfl
  unfold Block.noteWrite
  repeat' first
    | with_reducible assumption
    | (extract_lets +onlyGivenNames x; guard_hyp x : Block := _; refine keepNvm_named (n := b.nvm) x ?_ ?_; dsimp -zeta only [x]; clear x; rotate_left; clear_value x; revert x; intro _ _)
    | (extract_lets +onlyGivenNames x; refine keepNvm_fn x ?_; dsimp -zeta only [x]; clear x)
    | (extract_lets +onlyGivenNames x; refine keepNvm_fn2 x ?_; dsimp -zeta only [x]; clear x)
    | (extract_lets +onlyGivenNames x; refine keepNvm_fn3 x ?_; dsimp -zeta only [x]; clear x)
    | (extract_lets +onlyGivenNames x; refine keepNvm_fn4 x ?_; dsimp -zeta only [x]; clear x)
    | (extract_lets +onlyGivenNames x; clear_value x; revert x; intro _)
    | with_reducible first
      | apply keepNvm_eq (Block.mapScrubs_nvm ..)
      | apply keepNvm_eq (Block.scrubStale_nvm ..)
    | (show Block.nvm _ = _; dsimp -zeta only; done)
    | (show Block.nvm _ = _; dsimp -zeta only; show KeepNvm _ _)
    | with_reducible refine keepNvm_ite ?_ ?_
    | split

theorem Block.scrubGranted_nvm (b : Block) (r : Req) : (Block.scrubGranted b r).nvm = b.nvm := by
  suffices h : KeepNvm b.nvm (Block.scrubGranted b r) from h
  have h0 : KeepNvm b.nvm b := rfl
  unfold Block.scrubGranted
  repeat' first
    | with_reducible assumption
    | (extract_lets +onlyGivenNames x; guard_hyp x : Block := _; refine keepNvm_named (n := b.nvm) x ?_ ?_; dsimp -zeta only [x]; clear x; rotate_left; clear_value x; revert x; intro _ _)
    | (extract_lets +onlyGivenNames x; clear_value x; revert x; intro _)
    | (show Block.nvm _ = _; dsimp -zeta only; done)
    | (show Block.nvm _ = _; dsimp -zeta only; show KeepNvm _ _)
    | with_reducible refine keepNvm_ite ?_ ?_
    | split

theorem Block.scratchPut_nvm (b : Block) (k : Nat) (data : BitVec 512) (bad : Bool) : (Block.scratchPut b k data bad).nvm = b.nvm := by
  suffices h : KeepNvm b.nvm (Block.scratchPut b k data bad) from h
  have h0 : KeepNvm b.nvm b := rfl
  unfold Block.scratchPut
  repeat' first
    | with_reducible assumption
    | (extract_lets +onlyGivenNames x; guard_hyp x : Block := _; refine keepNvm_named (n := b.nvm) x ?_ ?_; dsimp -zeta only [x]; clear x; rotate_left; clear_value x; revert x; intro _ _)
    | (extract_lets +onlyGivenNames x; clear_value x; revert x; intro _)
    | (show Block.nvm _ = _; dsimp -zeta only; done)
    | (show Block.nvm _ = _; dsimp -zeta only; show KeepNvm _ _)
    | with_reducible refine keepNvm_ite ?_ ?_
    | split

theorem Block.scratchRead_nvm (b : Block) (k : Nat) : (Block.scratchRead b k).nvm = b.nvm := by
  suffices h : KeepNvm b.nvm (Block.scratchRead b k) from h
  have h0 : KeepNvm b.nvm b := rfl
  unfold Block.scratchRead
  repeat' first
    | with_reducible assumption
    | (extract_lets +onlyGivenNames x; guard_hyp x : Block := _; refine keepNvm_named (n := b.nvm) x ?_ ?_; dsimp -zeta only [x]; clear x; rotate_left; clear_value x; revert x; intro _ _)
    | (extract_lets +onlyGivenNames x; clear_value x; revert x; intro _)
    | with_reducible first
      | apply keepNvm_eq (Block.cchErr_nvm ..)
    | (show Block.nvm _ = _; dsimp -zeta only; done)
    | (show Block.nvm _ = _; dsimp -zeta only; show KeepNvm _ _)
    | split

theorem Block.scratchAccess_nvm (b : Block) (r : Req) (secs : List Nat) (off : Nat → Nat) : (Block.scratchAccess b r secs off).nvm = b.nvm := by
  suffices h : KeepNvm b.nvm (Block.scratchAccess b r secs off) from h
  have h0 : KeepNvm b.nvm b := rfl
  unfold Block.scratchAccess
  repeat' first
    | with_reducible assumption
    | (extract_lets +onlyGivenNames x; guard_hyp x : Block × _ := _; refine keepNvm1_named (n := b.nvm) x ?_ ?_; dsimp -zeta only [x]; clear x; rotate_left; clear_value x; revert x; intro _ _)
    | (extract_lets +onlyGivenNames x; guard_hyp x : Block := _; refine keepNvm_named (n := b.nvm) x ?_ ?_; dsimp -zeta only [x]; clear x; rotate_left; clear_value x; revert x; intro _ _)
    | (extract_lets +onlyGivenNames x; refine keepNvm_fn x ?_; dsimp -zeta only [x]; clear x)
    | (extract_lets +onlyGivenNames x; refine keepNvm_fn2 x ?_; dsimp -zeta only [x]; clear x)
    | (extract_lets +onlyGivenNames x; refine keepNvm_fn3 x ?_; dsimp -zeta only [x]; clear x)
    | (extract_lets +onlyGivenNames x; refine keepNvm_fn4 x ?_; dsimp -zeta only [x]; clear x)
    | (extract_lets +onlyGivenNames x; clear_value x; revert x; intro _)
    | with_reducible first
      | refine keepNvm_forEach ?_ (fun c a hc => ?_)
      | refine keepNvm1_mk ?_
      | refine keepNvm2_mk ?_
      | apply keepNvm_eq (Block.respond_nvm ..)
      | apply keepNvm_eq (Block.scratchPut_nvm ..)
    | with_reducible first
      | apply keepNvm_eq (Block.scratchRead_nvm ..)
    | (show Block.nvm _ = _; dsimp -zeta only; done)
    | (show Block.nvm _ = _; dsimp -zeta only; show KeepNvm _ _)
    | with_reducible refine keepNvm_ite ?_ ?_
    | with_reducible refine keepNvm1_ite ?_ ?_
    | with_reducible refine keepNvm2_ite ?_ ?_
    | split
    | with_reducible refine keepNvm_fst (by assumption) ?_
    | with_reducible refine keepNvm_snd (by assumption) ?_
    | assumption

theorem Block.fillSec_nvm (b : Block) (k sec : Nat) (st : Sec) (v : SecVal) : (Block.fillSec b k sec st v).nvm = b.nvm := by
  suffices h : KeepNvm b.nvm (Block.fillSec b k sec st v) from h
  have h0 : KeepNvm b.nvm b := rfl
  unfold Block.fillSec
  repeat' first
    | with_reducible assumption
    | with_reducible first
      | apply keepNvm_eq (Block.writeCell_nvm ..)
    | (show Block.nvm _ = _; dsimp -zeta only; done)
    | (show Block.nvm _ = _; dsimp -zeta only; show KeepNvm _ _)
    | split

theorem Block.addMiss_nvm (b : Block) (c : Nat) (r : Req) (sec : Nat) (way : Option Nat) (waits : Bool) : (Block.addMiss b c r sec way waits).nvm = b.nvm := by
  suffices h : KeepNvm b.nvm (Block.addMiss b c r sec way waits) from h
  have h0 : KeepNvm b.nvm b := rfl
  unfold Block.addMiss
  repeat' first
    | with_reducible assumption
    | (extract_lets +onlyGivenNames x; guard_hyp x : Block := _; refine keepNvm_named (n := b.nvm) x ?_ ?_; dsimp -zeta only [x]; clear x; rotate_left; clear_value x; revert x; intro _ _)
    | (extract_lets +onlyGivenNames x; clear_value x; revert x; intro _)
    | with_reducible first
      | refine keepNvm1_mk ?_
      | refine keepNvm2_mk ?_
      | apply keepNvm_eq (Block.updSlice_nvm ..)
      | apply keepNvm_eq (Block.updLine_nvm ..)
      | apply keepNvm_eq (Block.newId_nvm ..)
    | with_reducible first
      | apply keepNvm_eq (Block.wake_nvm ..)
    | (show Block.nvm _ = _; dsimp -zeta only; done)
    | (show Block.nvm _ = _; dsimp -zeta only; show KeepNvm _ _)
    | with_reducible refine keepNvm_ite ?_ ?_
    | with_reducible refine keepNvm1_ite ?_ ?_
    | with_reducible refine keepNvm2_ite ?_ ?_
    | split
    | with_reducible refine keepNvm_fst (by assumption) ?_
    | with_reducible refine keepNvm_snd (by assumption) ?_
    | assumption

theorem Block.passWriteAt_nvm (b : Block) (c id : Nat) (r : Req) (sec : Nat) (data : BitVec 512) (bad : Bool) (late : Nat) (answer : Bool) : (Block.passWriteAt b c id r sec data bad late answer).nvm = b.nvm := by
  suffices h : KeepNvm b.nvm (Block.passWriteAt b c id r sec data bad late answer) from h
  have h0 : KeepNvm b.nvm b := rfl
  unfold Block.passWriteAt
  repeat' first
    | with_reducible assumption
    | (extract_lets +onlyGivenNames x; guard_hyp x : Block := _; refine keepNvm_named (n := b.nvm) x ?_ ?_; dsimp -zeta only [x]; clear x; rotate_left; clear_value x; revert x; intro _ _)
    | (extract_lets +onlyGivenNames x; clear_value x; revert x; intro _)
    | with_reducible first
      | refine keepNvm_forEach ?_ (fun c a hc => ?_)
      | apply keepNvm_eq (Block.updSlice_nvm ..)
      | apply keepNvm_eq (Block.wake_nvm ..)
    | (show Block.nvm _ = _; dsimp -zeta only; done)
    | (show Block.nvm _ = _; dsimp -zeta only; show KeepNvm _ _)
    | with_reducible refine keepNvm_ite ?_ ?_
    | split

theorem Block.passWrite_nvm (b : Block) (c : Nat) (r : Req) (sec : Nat) (data : BitVec 512) (bad : Bool) (late : Nat) : (Block.passWrite b c r sec data bad late).nvm = b.nvm := by
  suffices h : KeepNvm b.nvm (Block.passWrite b c r sec data bad late) from h
  have h0 : KeepNvm b.nvm b := rfl
  unfold Block.passWrite
  repeat' first
    | with_reducible assumption
    | (extract_lets +onlyGivenNames x; guard_hyp x : Block := _; refine keepNvm_named (n := b.nvm) x ?_ ?_; dsimp -zeta only [x]; clear x; rotate_left; clear_value x; revert x; intro _ _)
    | (extract_lets +onlyGivenNames x; clear_value x; revert x; intro _)
    | with_reducible first
      | refine keepNvm1_mk ?_
      | refine keepNvm2_mk ?_
      | apply keepNvm_eq (Block.newId_nvm ..)
      | apply keepNvm_eq (Block.passWriteAt_nvm ..)
    | (show Block.nvm _ = _; dsimp -zeta only; done)
    | (show Block.nvm _ = _; dsimp -zeta only; show KeepNvm _ _)
    | split
    | with_reducible refine keepNvm_fst (by assumption) ?_
    | with_reducible refine keepNvm_snd (by assumption) ?_
    | assumption

theorem Block.uncached_nvm (b : Block) (c : Nat) (r : Req) : (Block.uncached b c r).nvm = b.nvm := by
  suffices h : KeepNvm b.nvm (Block.uncached b c r) from h
  have h0 : KeepNvm b.nvm b := rfl
  unfold Block.uncached
  repeat' first
    | with_reducible assumption
    | (extract_lets +onlyGivenNames x; guard_hyp x : Block := _; refine keepNvm_named (n := b.nvm) x ?_ ?_; dsimp -zeta only [x]; clear x; rotate_left; clear_value x; revert x; intro _ _)
    | (extract_lets +onlyGivenNames x; refine keepNvm_fn x ?_; dsimp -zeta only [x]; clear x)
    | (extract_lets +onlyGivenNames x; refine keepNvm_fn2 x ?_; dsimp -zeta only [x]; clear x)
    | (extract_lets +onlyGivenNames x; refine keepNvm_fn3 x ?_; dsimp -zeta only [x]; clear x)
    | (extract_lets +onlyGivenNames x; refine keepNvm_fn4 x ?_; dsimp -zeta only [x]; clear x)
    | (extract_lets +onlyGivenNames x; clear_value x; revert x; intro _)
    | with_reducible first
      | refine keepNvm_forEach ?_ (fun c a hc => ?_)
      | apply keepNvm_eq (Block.count_nvm ..)
      | apply keepNvm_eq (Block.respond_nvm ..)
      | apply keepNvm_eq (Block.addMiss_nvm ..)
      | apply keepNvm_eq (Block.passWrite_nvm ..)
    | (show Block.nvm _ = _; dsimp -zeta only; done)
    | (show Block.nvm _ = _; dsimp -zeta only; show KeepNvm _ _)
    | with_reducible refine keepNvm_ite ?_ ?_
    | split

theorem Block.touch_nvm (b : Block) (k : Nat) (r : Req) : (Block.touch b k r).nvm = b.nvm := by
  suffices h : KeepNvm b.nvm (Block.touch b k r) from h
  have h0 : KeepNvm b.nvm b := rfl
  unfold Block.touch
  repeat' first
    | with_reducible assumption
    | (extract_lets +onlyGivenNames x; guard_hyp x : Block := _; refine keepNvm_named (n := b.nvm) x ?_ ?_; dsimp -zeta only [x]; clear x; rotate_left; clear_value x; revert x; intro _ _)
    | (extract_lets +onlyGivenNames x; clear_value x; revert x; intro _)
    | with_reducible first
      | refine keepNvm1_mk ?_
      | refine keepNvm2_mk ?_
      | apply keepNvm_eq (Block.updLine_nvm ..)
      | apply keepNvm_eq (Block.moveAge_nvm ..)
    | (show Block.nvm _ = _; dsimp -zeta only; done)
    | (show Block.nvm _ = _; dsimp -zeta only; show KeepNvm _ _)
    | with_reducible refine keepNvm_ite ?_ ?_
    | with_reducible refine keepNvm1_ite ?_ ?_
    | with_reducible refine keepNvm2_ite ?_ ?_
    | split
    | with_reducible refine keepNvm_fst (by assumption) ?_
    | with_reducible refine keepNvm_snd (by assumption) ?_
    | assumption

theorem Block.joinFill_nvm (b : Block) (c k sec : Nat) (r : Req) : (Block.joinFill b c k sec r).nvm = b.nvm := by
  suffices h : KeepNvm b.nvm (Block.joinFill b c k sec r) from h
  have h0 : KeepNvm b.nvm b := rfl
  unfold Block.joinFill
  repeat' first
    | with_reducible assumption
    | (extract_lets +onlyGivenNames x; guard_hyp x : Block := _; refine keepNvm_named (n := b.nvm) x ?_ ?_; dsimp -zeta only [x]; clear x; rotate_left; clear_value x; revert x; intro _ _)
    | (extract_lets +onlyGivenNames x; refine keepNvm_fn x ?_; dsimp -zeta only [x]; clear x)
    | (extract_lets +onlyGivenNames x; refine keepNvm_fn2 x ?_; dsimp -zeta only [x]; clear x)
    | (extract_lets +onlyGivenNames x; refine keepNvm_fn3 x ?_; dsimp -zeta only [x]; clear x)
    | (extract_lets +onlyGivenNames x; refine keepNvm_fn4 x ?_; dsimp -zeta only [x]; clear x)
    | (extract_lets +onlyGivenNames x; clear_value x; revert x; intro _)
    | with_reducible first
      | apply keepNvm_eq (Block.updSlice_nvm ..)
    | (show Block.nvm _ = _; dsimp -zeta only; done)
    | (show Block.nvm _ = _; dsimp -zeta only; show KeepNvm _ _)
    | with_reducible refine keepNvm_ite ?_ ?_
    | split

theorem Block.detachFill_nvm (b : Block) (c k sec : Nat) : (Block.detachFill b c k sec).nvm = b.nvm := by
  suffices h : KeepNvm b.nvm (Block.detachFill b c k sec) from h
  have h0 : KeepNvm b.nvm b := rfl
  unfold Block.detachFill
  repeat' first
    | with_reducible assumption
    | (extract_lets +onlyGivenNames x; guard_hyp x : Block := _; refine keepNvm_named (n := b.nvm) x ?_ ?_; dsimp -zeta only [x]; clear x; rotate_left; clear_value x; revert x; intro _ _)
    | (extract_lets +onlyGivenNames x; refine keepNvm_fn x ?_; dsimp -zeta only [x]; clear x)
    | (extract_lets +onlyGivenNames x; refine keepNvm_fn2 x ?_; dsimp -zeta only [x]; clear x)
    | (extract_lets +onlyGivenNames x; refine keepNvm_fn3 x ?_; dsimp -zeta only [x]; clear x)
    | (extract_lets +onlyGivenNames x; refine keepNvm_fn4 x ?_; dsimp -zeta only [x]; clear x)
    | (extract_lets +onlyGivenNames x; clear_value x; revert x; intro _)
    | with_reducible first
      | apply keepNvm_eq (Block.updSlice_nvm ..)
    | (show Block.nvm _ = _; dsimp -zeta only; done)
    | (show Block.nvm _ = _; dsimp -zeta only; show KeepNvm _ _)
    | with_reducible refine keepNvm_ite ?_ ?_
    | split

theorem Block.park_nvm (b : Block) (c : Nat) (r : Req) (pref : Option Nat) : (Block.park b c r pref).nvm = b.nvm := by
  suffices h : KeepNvm b.nvm (Block.park b c r pref) from h
  have h0 : KeepNvm b.nvm b := rfl
  unfold Block.park
  repeat' first
    | with_reducible assumption
    | (extract_lets +onlyGivenNames x; guard_hyp x : Block := _; refine keepNvm_named (n := b.nvm) x ?_ ?_; dsimp -zeta only [x]; clear x; rotate_left; clear_value x; revert x; intro _ _)
    | (extract_lets +onlyGivenNames x; clear_value x; revert x; intro _)
    | with_reducible first
      | apply keepNvm_eq (Block.updSlice_nvm ..)
    | (show Block.nvm _ = _; dsimp -zeta only; done)
    | (show Block.nvm _ = _; dsimp -zeta only; show KeepNvm _ _)
    | split

theorem Block.allocate_nvm (b : Block) (c : Nat) (r : Req) (pinned ea : Bool) (pref : Option Nat) : (Block.allocate b c r pinned ea pref).1.nvm = b.nvm := by
  suffices h : KeepNvm1 b.nvm (Block.allocate b c r pinned ea pref) from h
  have h0 : KeepNvm b.nvm b := rfl
  unfold Block.allocate
  repeat' first
    | with_reducible assumption
    | (extract_lets +onlyGivenNames x; guard_hyp x : Block := _; refine keepNvm_named (n := b.nvm) x ?_ ?_; dsimp -zeta only [x]; clear x; rotate_left; clear_value x; revert x; intro _ _)
    | (extract_lets +onlyGivenNames x; refine keepNvm_fn x ?_; dsimp -zeta only [x]; clear x)
    | (extract_lets +onlyGivenNames x; refine keepNvm_fn2 x ?_; dsimp -zeta only [x]; clear x)
    | (extract_lets +onlyGivenNames x; refine keepNvm_fn3 x ?_; dsimp -zeta only [x]; clear x)
    | (extract_lets +onlyGivenNames x; refine keepNvm_fn4 x ?_; dsimp -zeta only [x]; clear x)
    | (extract_lets +onlyGivenNames x; clear_value x; revert x; intro _)
    | with_reducible first
      | refine keepNvm1_mk ?_
      | refine keepNvm2_mk ?_
      | apply keepNvm_eq (Block.count_nvm ..)
      | apply keepNvm_eq (Block.dropLine_nvm ..)
      | apply keepNvm_eq (Block.victim_nvm ..)
    | with_reducible first
      | apply keepNvm_eq (Block.takeWay_nvm ..)
      | apply keepNvm_eq (Block.park_nvm ..)
    | (show Block.nvm _ = _; dsimp -zeta only; done)
    | (show Block.nvm _ = _; dsimp -zeta only; show KeepNvm _ _)
    | with_reducible refine keepNvm_ite ?_ ?_
    | with_reducible refine keepNvm1_ite ?_ ?_
    | with_reducible refine keepNvm2_ite ?_ ?_
    | split
    | with_reducible refine keepNvm_fst (by assumption) ?_
    | with_reducible refine keepNvm_snd (by assumption) ?_
    | assumption

theorem Block.placeLine_nvm (b : Block) (c : Nat) (r : Req) (pref : Option Nat) : (Block.placeLine b c r pref).1.nvm = b.nvm := by
  suffices h : KeepNvm1 b.nvm (Block.placeLine b c r pref) from h
  have h0 : KeepNvm b.nvm b := rfl
  unfold Block.placeLine
  repeat' first
    | with_reducible assumption
    | (extract_lets +onlyGivenNames x; guard_hyp x : Block × _ := _; refine keepNvm1_named (n := b.nvm) x ?_ ?_; dsimp -zeta only [x]; clear x; rotate_left; clear_value x; revert x; intro _ _)
    | (extract_lets +onlyGivenNames x; guard_hyp x : Block := _; refine keepNvm_named (n := b.nvm) x ?_ ?_; dsimp -zeta only [x]; clear x; rotate_left; clear_value x; revert x; intro _ _)
    | (extract_lets +onlyGivenNames x; clear_value x; revert x; intro _)
    | with_reducible first
      | refine keepNvm1_mk ?_
      | refine keepNvm2_mk ?_
      | apply keepNvm_eq (Block.bump_nvm ..)
      | apply keepNvm_eq (Block.allocate_nvm ..)
    | (show Block.nvm _ = _; dsimp -zeta only; done)
    | (show Block.nvm _ = _; dsimp -zeta only; show KeepNvm _ _)
    | with_reducible refine keepNvm_ite ?_ ?_
    | with_reducible refine keepNvm1_ite ?_ ?_
    | with_reducible refine keepNvm2_ite ?_ ?_
    | split
    | with_reducible refine keepNvm_fst (by assumption) ?_
    | with_reducible refine keepNvm_snd (by assumption) ?_
    | assumption

theorem Block.fetchLine_nvm (b : Block) (c k : Nat) (r : Req) (first : Nat) (want : List Nat) : (Block.fetchLine b c k r first want).nvm = b.nvm := by
  suffices h : KeepNvm b.nvm (Block.fetchLine b c k r first want) from h
  have h0 : KeepNvm b.nvm b := rfl
  unfold Block.fetchLine
  repeat' first
    | with_reducible assumption
    | with_reducible first
      | refine keepNvm_forEach ?_ (fun c a hc => ?_)
      | apply keepNvm_eq (Block.addMiss_nvm ..)
    | (show Block.nvm _ = _; dsimp -zeta only; done)
    | (show Block.nvm _ = _; dsimp -zeta only; show KeepNvm _ _)
    | with_reducible refine keepNvm_ite ?_ ?_
    | split

theorem Block.readAccess_nvm (b : Block) (c : Nat) (r : Req) (pref : Option Nat) : (Block.readAccess b c r pref).nvm = b.nvm := by
  suffices h : KeepNvm b.nvm (Block.readAccess b c r pref) from h
  have h0 : KeepNvm b.nvm b := rfl
  unfold Block.readAccess
  repeat' first
    | with_reducible assumption
    | (extract_lets +onlyGivenNames x; guard_hyp x : Block × _ := _; refine keepNvm1_named (n := b.nvm) x ?_ ?_; dsimp -zeta only [x]; clear x; rotate_left; clear_value x; revert x; intro _ _)
    | (extract_lets +onlyGivenNames x; guard_hyp x : Block := _; refine keepNvm_named (n := b.nvm) x ?_ ?_; dsimp -zeta only [x]; clear x; rotate_left; clear_value x; revert x; intro _ _)
    | (extract_lets +onlyGivenNames x; clear_value x; revert x; intro _)
    | with_reducible first
      | refine keepNvm_forEach ?_ (fun c a hc => ?_)
      | refine keepNvm1_foldl ?_ (fun c a hc => ?_)
      | refine keepNvm2_foldl ?_ (fun c a hc => ?_)
      | refine keepNvm1_mk ?_
      | refine keepNvm2_mk ?_
    | with_reducible first
      | apply keepNvm_eq (Block.count_nvm ..)
      | apply keepNvm_eq (Block.respond_nvm ..)
      | apply keepNvm_eq (Block.dataRead_nvm ..)
      | apply keepNvm_eq (Block.addMiss_nvm ..)
      | apply keepNvm_eq (Block.uncached_nvm ..)
    | with_reducible first
      | apply keepNvm_eq (Block.touch_nvm ..)
      | apply keepNvm_eq (Block.joinFill_nvm ..)
      | apply keepNvm_eq (Block.placeLine_nvm ..)
      | apply keepNvm_eq (Block.fetchLine_nvm ..)
    | (show Block.nvm _ = _; dsimp -zeta only; done)
    | (show Block.nvm _ = _; dsimp -zeta only; show KeepNvm _ _)
    | with_reducible refine keepNvm_ite ?_ ?_
    | with_reducible refine keepNvm1_ite ?_ ?_
    | with_reducible refine keepNvm2_ite ?_ ?_
    | split
    | with_reducible refine keepNvm_fst (by assumption) ?_
    | with_reducible refine keepNvm_snd (by assumption) ?_
    | with_reducible refine keepNvm_of1 ?_
    | with_reducible refine keepNvm_of2 ?_
    | assumption

theorem Block.writeSec_nvm (b : Block) (c k sec : Nat) (w : WData) : (Block.writeSec b c k sec w).nvm = b.nvm := by
  suffices h : KeepNvm b.nvm (Block.writeSec b c k sec w) from h
  have h0 : KeepNvm b.nvm b := rfl
  unfold Block.writeSec
  repeat' first
    | with_reducible assumption
    | (extract_lets +onlyGivenNames x; guard_hyp x : Block := _; refine keepNvm_named (n := b.nvm) x ?_ ?_; dsimp -zeta only [x]; clear x; rotate_left; clear_value x; revert x; intro _ _)
    | (extract_lets +onlyGivenNames x; clear_value x; revert x; intro _)
    | with_reducible first
      | apply keepNvm_eq (Block.fillSec_nvm ..)
      | apply keepNvm_eq (Block.detachFill_nvm ..)
    | (show Block.nvm _ = _; dsimp -zeta only; done)
    | (show Block.nvm _ = _; dsimp -zeta only; show KeepNvm _ _)
    | with_reducible refine keepNvm_ite ?_ ?_
    | split

theorem Block.writeAccess_nvm (b : Block) (c : Nat) (r : Req) (pref : Option Nat) : (Block.writeAccess b c r pref).nvm = b.nvm := by
  suffices h : KeepNvm b.nvm (Block.writeAccess b c r pref) from h
  have h0 : KeepNvm b.nvm b := rfl
  unfold Block.writeAccess
  repeat' first
    | with_reducible assumption
    | (extract_lets +onlyGivenNames x; guard_hyp x : Block × _ := _; refine keepNvm1_named (n := b.nvm) x ?_ ?_; dsimp -zeta only [x]; clear x; rotate_left; clear_value x; revert x; intro _ _)
    | (extract_lets +onlyGivenNames x; guard_hyp x : Block := _; refine keepNvm_named (n := b.nvm) x ?_ ?_; dsimp -zeta only [x]; clear x; rotate_left; clear_value x; revert x; intro _ _)
    | (extract_lets +onlyGivenNames x; clear_value x; revert x; intro _)
    | with_reducible first
      | refine keepNvm1_mk ?_
      | refine keepNvm2_mk ?_
      | apply keepNvm_eq (Block.count_nvm ..)
      | apply keepNvm_eq (Block.respond_nvm ..)
      | apply keepNvm_eq (Block.dataRead_nvm ..)
    | with_reducible first
      | apply keepNvm_eq (Block.fillSec_nvm ..)
      | apply keepNvm_eq (Block.addMiss_nvm ..)
      | apply keepNvm_eq (Block.uncached_nvm ..)
      | apply keepNvm_eq (Block.touch_nvm ..)
      | apply keepNvm_eq (Block.joinFill_nvm ..)
    | with_reducible first
      | apply keepNvm_eq (Block.placeLine_nvm ..)
      | apply keepNvm_eq (Block.writeSec_nvm ..)
    | (show Block.nvm _ = _; dsimp -zeta only; done)
    | (show Block.nvm _ = _; dsimp -zeta only; show KeepNvm _ _)
    | with_reducible refine keepNvm_ite ?_ ?_
    | with_reducible refine keepNvm1_ite ?_ ?_
    | with_reducible refine keepNvm2_ite ?_ ?_
    | split
    | with_reducible refine keepNvm_fst (by assumption) ?_
    | with_reducible refine keepNvm_snd (by assumption) ?_
    | assumption

theorem Block.lineAccess_nvm (b : Block) (c : Nat) (r : Req) : (Block.lineAccess b c r).nvm = b.nvm := by
  suffices h : KeepNvm b.nvm (Block.lineAccess b c r) from h
  have h0 : KeepNvm b.nvm b := rfl
  unfold Block.lineAccess
  repeat' first
    | with_reducible assumption
    | (extract_lets +onlyGivenNames x; guard_hyp x : Block := _; refine keepNvm_named (n := b.nvm) x ?_ ?_; dsimp -zeta only [x]; clear x; rotate_left; clear_value x; revert x; intro _ _)
    | (extract_lets +onlyGivenNames x; clear_value x; revert x; intro _)
    | with_reducible first
      | refine keepNvm_forEach ?_ (fun c a hc => ?_)
      | apply keepNvm_eq (Block.count_nvm ..)
      | apply keepNvm_eq (Block.respond_nvm ..)
      | apply keepNvm_eq (Block.uncached_nvm ..)
      | apply keepNvm_eq (Block.touch_nvm ..)
    | with_reducible first
      | apply keepNvm_eq (Block.writeSec_nvm ..)
    | (show Block.nvm _ = _; dsimp -zeta only; done)
    | (show Block.nvm _ = _; dsimp -zeta only; show KeepNvm _ _)
    | with_reducible refine keepNvm_ite ?_ ?_
    | split

theorem Block.sliceTry_nvm (b : Block) (c : Nat) (r : Req) (pref : Option Nat) : (Block.sliceTry b c r pref).nvm = b.nvm := by
  suffices h : KeepNvm b.nvm (Block.sliceTry b c r pref) from h
  have h0 : KeepNvm b.nvm b := rfl
  unfold Block.sliceTry
  repeat' first
    | with_reducible assumption
    | (extract_lets +onlyGivenNames x; guard_hyp x : Block := _; refine keepNvm_named (n := b.nvm) x ?_ ?_; dsimp -zeta only [x]; clear x; rotate_left; clear_value x; revert x; intro _ _)
    | (extract_lets +onlyGivenNames x; clear_value x; revert x; intro _)
    | with_reducible first
      | apply keepNvm_eq (Block.tagsRead_nvm ..)
      | apply keepNvm_eq (Block.scratchAccess_nvm ..)
      | apply keepNvm_eq (Block.uncached_nvm ..)
      | apply keepNvm_eq (Block.park_nvm ..)
      | apply keepNvm_eq (Block.readAccess_nvm ..)
    | with_reducible first
      | apply keepNvm_eq (Block.writeAccess_nvm ..)
      | apply keepNvm_eq (Block.lineAccess_nvm ..)
    | (show Block.nvm _ = _; dsimp -zeta only; done)
    | (show Block.nvm _ = _; dsimp -zeta only; show KeepNvm _ _)
    | with_reducible refine keepNvm_ite ?_ ?_
    | split

theorem Block.sliceAccess_nvm (b : Block) (c : Nat) (r : Req) : (Block.sliceAccess b c r).nvm = b.nvm := by
  suffices h : KeepNvm b.nvm (Block.sliceAccess b c r) from h
  have h0 : KeepNvm b.nvm b := rfl
  unfold Block.sliceAccess
  repeat' first
    | with_reducible assumption
    | (extract_lets +onlyGivenNames x; guard_hyp x : Block := _; refine keepNvm_named (n := b.nvm) x ?_ ?_; dsimp -zeta only [x]; clear x; rotate_left; clear_value x; revert x; intro _ _)
    | (extract_lets +onlyGivenNames x; clear_value x; revert x; intro _)
    | with_reducible first
      | refine keepNvm_forEach ?_ (fun c a hc => ?_)
      | apply keepNvm_eq (Block.descUpd_nvm ..)
      | apply keepNvm_eq (Block.noteWrite_nvm ..)
      | apply keepNvm_eq (Block.scrubGranted_nvm ..)
      | apply keepNvm_eq (Block.park_nvm ..)
    | with_reducible first
      | apply keepNvm_eq (Block.sliceTry_nvm ..)
    | (show Block.nvm _ = _; dsimp -zeta only; done)
    | (show Block.nvm _ = _; dsimp -zeta only; show KeepNvm _ _)
    | with_reducible refine keepNvm_ite ?_ ?_
    | split

theorem Block.retryWaits_nvm (b : Block) (c : Nat) : (Block.retryWaits b c).nvm = b.nvm := by
  suffices h : KeepNvm b.nvm (Block.retryWaits b c) from h
  have h0 : KeepNvm b.nvm b := rfl
  unfold Block.retryWaits
  repeat' first
    | with_reducible assumption
    | (extract_lets +onlyGivenNames x; guard_hyp x : Block := _; refine keepNvm_named (n := b.nvm) x ?_ ?_; dsimp -zeta only [x]; clear x; rotate_left; clear_value x; revert x; intro _ _)
    | (extract_lets +onlyGivenNames x; clear_value x; revert x; intro _)
    | with_reducible first
      | refine keepNvm_forEach ?_ (fun c a hc => ?_)
      | apply keepNvm_eq (Block.updSlice_nvm ..)
      | apply keepNvm_eq (Block.park_nvm ..)
      | apply keepNvm_eq (Block.sliceTry_nvm ..)
    | (show Block.nvm _ = _; dsimp -zeta only; done)
    | (show Block.nvm _ = _; dsimp -zeta only; show KeepNvm _ _)
    | with_reducible refine keepNvm_ite ?_ ?_
    | split

theorem Block.fixBack_nvm (b : Block) (c : Nat) (x : Miss) (data : BitVec 512) : (Block.fixBack b c x data).nvm = b.nvm := by
  suffices h : KeepNvm b.nvm (Block.fixBack b c x data) from h
  have h0 : KeepNvm b.nvm b := rfl
  unfold Block.fixBack
  repeat' first
    | with_reducible assumption
    | (extract_lets +onlyGivenNames x; guard_hyp x : Block := _; refine keepNvm_named (n := b.nvm) x ?_ ?_; dsimp -zeta only [x]; clear x; rotate_left; clear_value x; revert x; intro _ _)
    | (extract_lets +onlyGivenNames x; clear_value x; revert x; intro _)
    | with_reducible first
      | refine keepNvm1_mk ?_
      | refine keepNvm2_mk ?_
      | apply keepNvm_eq (Block.passWriteAt_nvm ..)
    | (show Block.nvm _ = _; dsimp -zeta only; done)
    | (show Block.nvm _ = _; dsimp -zeta only; show KeepNvm _ _)
    | with_reducible refine keepNvm_ite ?_ ?_
    | with_reducible refine keepNvm1_ite ?_ ?_
    | with_reducible refine keepNvm2_ite ?_ ?_
    | split
    | with_reducible refine keepNvm_fst (by assumption) ?_
    | with_reducible refine keepNvm_snd (by assumption) ?_
    | assumption

theorem Block.fillDone_nvm (b : Block) (c : Nat) (x : Miss) (k : Nat) (last : SecVal) (dirty : Bool) : (Block.fillDone b c x k last dirty).nvm = b.nvm := by
  suffices h : KeepNvm b.nvm (Block.fillDone b c x k last dirty) from h
  have h0 : KeepNvm b.nvm b := rfl
  unfold Block.fillDone
  repeat' first
    | with_reducible assumption
    | (extract_lets +onlyGivenNames x; guard_hyp x : Block := _; refine keepNvm_named (n := b.nvm) x ?_ ?_; dsimp -zeta only [x]; clear x; rotate_left; clear_value x; revert x; intro _ _)
    | (extract_lets +onlyGivenNames x; clear_value x; revert x; intro _)
    | with_reducible first
      | apply keepNvm_eq (Block.count_nvm ..)
      | apply keepNvm_eq (Block.fillSec_nvm ..)
    | (show Block.nvm _ = _; dsimp -zeta only; done)
    | (show Block.nvm _ = _; dsimp -zeta only; show KeepNvm _ _)
    | with_reducible refine keepNvm_ite ?_ ?_
    | split

theorem Block.fillLost_nvm (b : Block) (c : Nat) (x : Miss) (k : Nat) (last : SecVal) (wrote fixed : Bool) : (Block.fillLost b c x k last wrote fixed).nvm = b.nvm := by
  suffices h : KeepNvm b.nvm (Block.fillLost b c x k last wrote fixed) from h
  have h0 : KeepNvm b.nvm b := rfl
  unfold Block.fillLost
  repeat' first
    | with_reducible assumption
    | (extract_lets +onlyGivenNames x; guard_hyp x : Block := _; refine keepNvm_named (n := b.nvm) x ?_ ?_; dsimp -zeta only [x]; clear x; rotate_left; clear_value x; revert x; intro _ _)
    | (extract_lets +onlyGivenNames x; clear_value x; revert x; intro _)
    | with_reducible first
      | refine keepNvm_forEach ?_ (fun c a hc => ?_)
      | apply keepNvm_eq (Block.updLine_nvm ..)
      | apply keepNvm_eq (Block.freeLine_nvm ..)
      | apply keepNvm_eq (Block.passWriteAt_nvm ..)
      | apply keepNvm_eq (Block.fixBack_nvm ..)
    | (show Block.nvm _ = _; dsimp -zeta only; done)
    | (show Block.nvm _ = _; dsimp -zeta only; show KeepNvm _ _)
    | with_reducible refine keepNvm_ite ?_ ?_
    | split

theorem Block.readPassed_nvm (b : Block) (c : Nat) (x : Miss) (last : SecVal) (writes : List (Req × SecVal × Nat)) (fixed : Bool) : (Block.readPassed b c x last writes fixed).nvm = b.nvm := by
  suffices h : KeepNvm b.nvm (Block.readPassed b c x last writes fixed) from h
  have h0 : KeepNvm b.nvm b := rfl
  unfold Block.readPassed
  repeat' first
    | with_reducible assumption
    | with_reducible first
      | refine keepNvm_forEach ?_ (fun c a hc => ?_)
      | apply keepNvm_eq (Block.passWriteAt_nvm ..)
      | apply keepNvm_eq (Block.fixBack_nvm ..)
    | (show Block.nvm _ = _; dsimp -zeta only; done)
    | (show Block.nvm _ = _; dsimp -zeta only; show KeepNvm _ _)
    | with_reducible refine keepNvm_ite ?_ ?_
    | split

theorem Block.finishMiss_nvm (b : Block) (c : Nat) (x : Miss) (v : SecVal) : (Block.finishMiss b c x v).nvm = b.nvm := by
  suffices h : KeepNvm b.nvm (Block.finishMiss b c x v) from h
  have h0 : KeepNvm b.nvm b := rfl
  unfold Block.finishMiss
  repeat' first
    | with_reducible assumption
    | (extract_lets +onlyGivenNames x; guard_hyp x : Block := _; refine keepNvm_named (n := b.nvm) x ?_ ?_; dsimp -zeta only [x]; clear x; rotate_left; clear_value x; revert x; intro _ _)
    | (extract_lets +onlyGivenNames x; clear_value x; revert x; intro _)
    | with_reducible first
      | refine keepNvm1_mk ?_
      | refine keepNvm2_mk ?_
      | apply keepNvm_eq (Block.updSlice_nvm ..)
      | apply keepNvm_eq (Block.tagCheck_nvm ..)
      | apply keepNvm_eq (Block.serveWaiters_nvm ..)
    | with_reducible first
      | apply keepNvm_eq (Block.fillDone_nvm ..)
      | apply keepNvm_eq (Block.fillLost_nvm ..)
      | apply keepNvm_eq (Block.readPassed_nvm ..)
    | (show Block.nvm _ = _; dsimp -zeta only; done)
    | (show Block.nvm _ = _; dsimp -zeta only; show KeepNvm _ _)
    | with_reducible refine keepNvm_ite ?_ ?_
    | with_reducible refine keepNvm1_ite ?_ ?_
    | with_reducible refine keepNvm2_ite ?_ ?_
    | split
    | with_reducible refine keepNvm_fst (by assumption) ?_
    | with_reducible refine keepNvm_snd (by assumption) ?_
    | assumption

end Sys2Proof.Machine
end

