-- ==== Sys2Proof/Laws/Nvm/Queues.lean ====
section
/-! SUPPORT. No operation of Machine/Queues.lean changes the non-volatile store, but for those named. -/

namespace Sys2Proof.Machine

theorem Block.takeMiss_nvm (b : Block) (c id : Nat) : (Block.takeMiss b c id).nvm = b.nvm := by
  suffices h : KeepNvm b.nvm (Block.takeMiss b c id) from h
  have h0 : KeepNvm b.nvm b := rfl
  unfold Block.takeMiss
  repeat' first
    | with_reducible assumption
    | (extract_lets +onlyGivenNames x; guard_hyp x : Block := _; refine keepNvm_named (n := b.nvm) x ?_ ?_; dsimp -zeta only [x]; clear x; rotate_left; clear_value x; revert x; intro _ _)
    | (extract_lets +onlyGivenNames x; clear_value x; revert x; intro _)
    | with_reducible first
      | apply keepNvm_eq (Block.updSlice_nvm ..)
    | (show Block.nvm _ = _; dsimp -zeta only; done)
    | (show Block.nvm _ = _; dsimp -zeta only; show KeepNvm _ _)
    | split

theorem Block.passRead_nvm (b : Block) (c : Nat) (x : Miss) (upset : Bool) : (Block.passRead b c x upset).nvm = b.nvm := by
  suffices h : KeepNvm b.nvm (Block.passRead b c x upset) from h
  have h0 : KeepNvm b.nvm b := rfl
  unfold Block.passRead
  repeat' first
    | with_reducible assumption
    | (extract_lets +onlyGivenNames x; guard_hyp x : Block := _; refine keepNvm_named (n := b.nvm) x ?_ ?_; dsimp -zeta only [x]; clear x; rotate_left; clear_value x; revert x; intro _ _)
    | (extract_lets +onlyGivenNames x; refine keepNvm_fn x ?_; dsimp -zeta only [x]; clear x)
    | (extract_lets +onlyGivenNames x; refine keepNvm_fn2 x ?_; dsimp -zeta only [x]; clear x)
    | (extract_lets +onlyGivenNames x; refine keepNvm_fn3 x ?_; dsimp -zeta only [x]; clear x)
    | (extract_lets +onlyGivenNames x; refine keepNvm_fn4 x ?_; dsimp -zeta only [x]; clear x)
    | (extract_lets +onlyGivenNames x; clear_value x; revert x; intro _)
    | with_reducible first
      | apply keepNvm_eq (Block.bump_nvm ..)
      | apply keepNvm_eq (Block.updSlice_nvm ..)
      | apply keepNvm_eq (Block.updSub_nvm ..)
      | apply keepNvm_eq (Block.dropMiss_nvm ..)
      | apply keepNvm_eq (Block.queueUe_nvm ..)
    | with_reducible first
      | apply keepNvm_eq (Block.upset_nvm ..)
      | apply keepNvm_eq (Block.finishMiss_nvm ..)
      | apply keepNvm_eq (Block.takeMiss_nvm ..)
    | (show Block.nvm _ = _; dsimp -zeta only; done)
    | (show Block.nvm _ = _; dsimp -zeta only; show KeepNvm _ _)
    | with_reducible refine keepNvm_ite ?_ ?_
    | split

theorem Block.insertRead_nvm (b : Block) (c : Nat) (upset : Bool) : (Block.insertRead b c upset).nvm = b.nvm := by
  suffices h : KeepNvm b.nvm (Block.insertRead b c upset) from h
  have h0 : KeepNvm b.nvm b := rfl
  unfold Block.insertRead
  repeat' first
    | with_reducible assumption
    | (extract_lets +onlyGivenNames x; guard_hyp x : Block := _; refine keepNvm_named (n := b.nvm) x ?_ ?_; dsimp -zeta only [x]; clear x; rotate_left; clear_value x; revert x; intro _ _)
    | (extract_lets +onlyGivenNames x; clear_value x; revert x; intro _)
    | with_reducible first
      | apply keepNvm_eq (Block.count_nvm ..)
      | apply keepNvm_eq (Block.dropMiss_nvm ..)
      | apply keepNvm_eq (Block.upset_nvm ..)
      | apply keepNvm_eq (Block.passRead_nvm ..)
    | (show Block.nvm _ = _; dsimp -zeta only; done)
    | (show Block.nvm _ = _; dsimp -zeta only; show KeepNvm _ _)
    | with_reducible refine keepNvm_ite ?_ ?_
    | split

theorem Block.acceptWrite_nvm (b : Block) (c : Nat) (w : WriteBack) (other : BitVec 512 × Bool) (upset : Bool) : (Block.acceptWrite b c w other upset).nvm = b.nvm := by
  suffices h : KeepNvm b.nvm (Block.acceptWrite b c w other upset) from h
  have h0 : KeepNvm b.nvm b := rfl
  unfold Block.acceptWrite
  repeat' first
    | with_reducible assumption
    | (extract_lets +onlyGivenNames x; guard_hyp x : Block := _; refine keepNvm_named (n := b.nvm) x ?_ ?_; dsimp -zeta only [x]; clear x; rotate_left; clear_value x; revert x; intro _ _)
    | (extract_lets +onlyGivenNames x; refine keepNvm_fn x ?_; dsimp -zeta only [x]; clear x)
    | (extract_lets +onlyGivenNames x; refine keepNvm_fn2 x ?_; dsimp -zeta only [x]; clear x)
    | (extract_lets +onlyGivenNames x; refine keepNvm_fn3 x ?_; dsimp -zeta only [x]; clear x)
    | (extract_lets +onlyGivenNames x; refine keepNvm_fn4 x ?_; dsimp -zeta only [x]; clear x)
    | (extract_lets +onlyGivenNames x; clear_value x; revert x; intro _)
    | with_reducible first
      | apply keepNvm_eq (Block.updSub_nvm ..)
      | apply keepNvm_eq (Block.wbResolve_nvm ..)
      | apply keepNvm_eq (Block.queueUe_nvm ..)
      | apply keepNvm_eq (Block.upset_nvm ..)
      | apply keepNvm_eq (Block.scrubStale_nvm ..)
    | (show Block.nvm _ = _; dsimp -zeta only; done)
    | (show Block.nvm _ = _; dsimp -zeta only; show KeepNvm _ _)
    | with_reducible refine keepNvm_ite ?_ ?_
    | split

theorem Block.takeWb_nvm (b : Block) (c : Nat) (w : WriteBack) : (Block.takeWb b c w).nvm = b.nvm := by
  suffices h : KeepNvm b.nvm (Block.takeWb b c w) from h
  have h0 : KeepNvm b.nvm b := rfl
  unfold Block.takeWb
  repeat' first
    | with_reducible assumption
    | (extract_lets +onlyGivenNames x; guard_hyp x : Block := _; refine keepNvm_named (n := b.nvm) x ?_ ?_; dsimp -zeta only [x]; clear x; rotate_left; clear_value x; revert x; intro _ _)
    | (extract_lets +onlyGivenNames x; clear_value x; revert x; intro _)
    | with_reducible first
      | apply keepNvm_eq (Block.updSlice_nvm ..)
    | (show Block.nvm _ = _; dsimp -zeta only; done)
    | (show Block.nvm _ = _; dsimp -zeta only; show KeepNvm _ _)
    | split

theorem Block.passWb_nvm (b : Block) (c : Nat) (w : WriteBack) (upset : Bool) : (Block.passWb b c w upset).nvm = b.nvm := by
  suffices h : KeepNvm b.nvm (Block.passWb b c w upset) from h
  have h0 : KeepNvm b.nvm b := rfl
  unfold Block.passWb
  repeat' first
    | with_reducible assumption
    | (extract_lets +onlyGivenNames x; guard_hyp x : Block × _ := _; refine keepNvm1_named (n := b.nvm) x ?_ ?_; dsimp -zeta only [x]; clear x; rotate_left; clear_value x; revert x; intro _ _)
    | (extract_lets +onlyGivenNames x; guard_hyp x : Block := _; refine keepNvm_named (n := b.nvm) x ?_ ?_; dsimp -zeta only [x]; clear x; rotate_left; clear_value x; revert x; intro _ _)
    | (extract_lets +onlyGivenNames x; clear_value x; revert x; intro _)
    | with_reducible first
      | refine keepNvm1_mk ?_
      | refine keepNvm2_mk ?_
      | apply keepNvm_eq (Block.updSlice_nvm ..)
      | apply keepNvm_eq (Block.updSub_nvm ..)
      | apply keepNvm_eq (Block.wbResolve_nvm ..)
    | with_reducible first
      | apply keepNvm_eq (Block.upset_nvm ..)
      | apply keepNvm_eq (Block.acceptWrite_nvm ..)
      | apply keepNvm_eq (Block.takeWb_nvm ..)
    | (show Block.nvm _ = _; dsimp -zeta only; done)
    | (show Block.nvm _ = _; dsimp -zeta only; show KeepNvm _ _)
    | with_reducible refine keepNvm_ite ?_ ?_
    | with_reducible refine keepNvm1_ite ?_ ?_
    | with_reducible refine keepNvm2_ite ?_ ?_
    | split
    | with_reducible refine keepNvm_fst (by assumption) ?_
    | with_reducible refine keepNvm_snd (by assumption) ?_
    | assumption

theorem Block.insertWrite_nvm (b : Block) (c : Nat) (upset : Bool) : (Block.insertWrite b c upset).nvm = b.nvm := by
  suffices h : KeepNvm b.nvm (Block.insertWrite b c upset) from h
  have h0 : KeepNvm b.nvm b := rfl
  unfold Block.insertWrite
  repeat' first
    | with_reducible assumption
    | (extract_lets +onlyGivenNames x; guard_hyp x : Block := _; refine keepNvm_named (n := b.nvm) x ?_ ?_; dsimp -zeta only [x]; clear x; rotate_left; clear_value x; revert x; intro _ _)
    | (extract_lets +onlyGivenNames x; clear_value x; revert x; intro _)
    | with_reducible first
      | apply keepNvm_eq (Block.count_nvm ..)
      | apply keepNvm_eq (Block.wbResolve_nvm ..)
      | apply keepNvm_eq (Block.upset_nvm ..)
      | apply keepNvm_eq (Block.takeWb_nvm ..)
      | apply keepNvm_eq (Block.passWb_nvm ..)
    | (show Block.nvm _ = _; dsimp -zeta only; done)
    | (show Block.nvm _ = _; dsimp -zeta only; show KeepNvm _ _)
    | with_reducible refine keepNvm_ite ?_ ?_
    | split

theorem Block.mirrorStart_nvm (b : Block) (c s : Nat) (x : Miss) (m : Route) (inj susp quiet : Bool) : (Block.mirrorStart b c s x m inj susp quiet).nvm = b.nvm := by
  suffices h : KeepNvm b.nvm (Block.mirrorStart b c s x m inj susp quiet) from h
  have h0 : KeepNvm b.nvm b := rfl
  unfold Block.mirrorStart
  repeat' first
    | with_reducible assumption
    | (extract_lets +onlyGivenNames x; guard_hyp x : Block := _; refine keepNvm_named (n := b.nvm) x ?_ ?_; dsimp -zeta only [x]; clear x; rotate_left; clear_value x; revert x; intro _ _)
    | (extract_lets +onlyGivenNames x; clear_value x; revert x; intro _)
    | with_reducible first
      | refine keepNvm1_mk ?_
      | refine keepNvm2_mk ?_
      | apply keepNvm_eq (Block.updSlice_nvm ..)
      | apply keepNvm_eq (Block.newId_nvm ..)
      | apply keepNvm_eq (Block.wake_nvm ..)
    | with_reducible first
      | apply keepNvm_eq (Block.suspect_nvm ..)
    | (show Block.nvm _ = _; dsimp -zeta only; done)
    | (show Block.nvm _ = _; dsimp -zeta only; show KeepNvm _ _)
    | split
    | with_reducible refine keepNvm_fst (by assumption) ?_
    | with_reducible refine keepNvm_snd (by assumption) ?_
    | assumption

theorem Block.readUe_nvm (b : Block) (c s : Nat) (x : Miss) (inj susp quiet : Bool) : (Block.readUe b c s x inj susp quiet).nvm = b.nvm := by
  suffices h : KeepNvm b.nvm (Block.readUe b c s x inj susp quiet) from h
  have h0 : KeepNvm b.nvm b := rfl
  unfold Block.readUe
  repeat' first
    | with_reducible assumption
    | (extract_lets +onlyGivenNames x; guard_hyp x : Block := _; refine keepNvm_named (n := b.nvm) x ?_ ?_; dsimp -zeta only [x]; clear x; rotate_left; clear_value x; revert x; intro _ _)
    | (extract_lets +onlyGivenNames x; clear_value x; revert x; intro _)
    | with_reducible first
      | apply keepNvm_eq (Block.ueEvent_nvm ..)
      | apply keepNvm_eq (Block.finishMiss_nvm ..)
      | apply keepNvm_eq (Block.mirrorStart_nvm ..)
    | (show Block.nvm _ = _; dsimp -zeta only; done)
    | (show Block.nvm _ = _; dsimp -zeta only; show KeepNvm _ _)
    | with_reducible refine keepNvm_ite ?_ ?_
    | split

theorem Block.scrubErased_nvm (b : Block) (x : Miss) : (Block.scrubErased b x).nvm = b.nvm := by
  suffices h : KeepNvm b.nvm (Block.scrubErased b x) from h
  have h0 : KeepNvm b.nvm b := rfl
  unfold Block.scrubErased
  repeat' first
    | with_reducible assumption
    | (extract_lets +onlyGivenNames x; guard_hyp x : Block := _; refine keepNvm_named (n := b.nvm) x ?_ ?_; dsimp -zeta only [x]; clear x; rotate_left; clear_value x; revert x; intro _ _)
    | (extract_lets +onlyGivenNames x; clear_value x; revert x; intro _)
    | (show Block.nvm _ = _; dsimp -zeta only; done)
    | (show Block.nvm _ = _; dsimp -zeta only; show KeepNvm _ _)
    | split

theorem Block.readReturn_nvm (b : Block) (s code : Nat) (upset : Bool) : (Block.readReturn b s code upset).nvm = b.nvm := by
  suffices h : KeepNvm b.nvm (Block.readReturn b s code upset) from h
  have h0 : KeepNvm b.nvm b := rfl
  unfold Block.readReturn
  repeat' first
    | with_reducible assumption
    | (extract_lets +onlyGivenNames x; guard_hyp x : Block := _; refine keepNvm_named (n := b.nvm) x ?_ ?_; dsimp -zeta only [x]; clear x; rotate_left; clear_value x; revert x; intro _ _)
    | (extract_lets +onlyGivenNames x; clear_value x; revert x; intro _)
    | with_reducible first
      | refine keepNvm_forEach ?_ (fun c a hc => ?_)
      | refine keepNvm1_mk ?_
      | refine keepNvm2_mk ?_
      | apply keepNvm_eq (Block.updSlice_nvm ..)
      | apply keepNvm_eq (Block.updSub_nvm ..)
    | with_reducible first
      | apply keepNvm_eq (Block.dropMiss_nvm ..)
      | apply keepNvm_eq (Block.queueUe_nvm ..)
      | apply keepNvm_eq (Block.decodeRead_nvm ..)
      | apply keepNvm_eq (Block.upset_nvm ..)
      | apply keepNvm_eq (Block.finishMiss_nvm ..)
    | with_reducible first
      | apply keepNvm_eq (Block.readUe_nvm ..)
      | apply keepNvm_eq (Block.scrubErased_nvm ..)
    | (show Block.nvm _ = _; dsimp -zeta only; done)
    | (show Block.nvm _ = _; dsimp -zeta only; show KeepNvm _ _)
    | with_reducible refine keepNvm_ite ?_ ?_
    | with_reducible refine keepNvm1_ite ?_ ?_
    | with_reducible refine keepNvm2_ite ?_ ?_
    | split
    | with_reducible refine keepNvm_fst (by assumption) ?_
    | with_reducible refine keepNvm_snd (by assumption) ?_
    | assumption

theorem Block.mirrorReturn_nvm (b : Block) : (Block.mirrorReturn b).nvm = b.nvm := by
  suffices h : KeepNvm b.nvm (Block.mirrorReturn b) from h
  have h0 : KeepNvm b.nvm b := rfl
  unfold Block.mirrorReturn
  repeat' first
    | with_reducible assumption
    | (extract_lets +onlyGivenNames x; guard_hyp x : Block × _ := _; refine keepNvm1_named (n := b.nvm) x ?_ ?_; dsimp -zeta only [x]; clear x; rotate_left; clear_value x; revert x; intro _ _)
    | (extract_lets +onlyGivenNames x; guard_hyp x : Block := _; refine keepNvm_named (n := b.nvm) x ?_ ?_; dsimp -zeta only [x]; clear x; rotate_left; clear_value x; revert x; intro _ _)
    | (extract_lets +onlyGivenNames x; clear_value x; revert x; intro _)
    | with_reducible first
      | refine keepNvm1_mk ?_
      | refine keepNvm2_mk ?_
      | apply keepNvm_eq (Block.newId_nvm ..)
      | apply keepNvm_eq (Block.suspect_nvm ..)
      | apply keepNvm_eq (Block.ueEvent_nvm ..)
    | with_reducible first
      | apply keepNvm_eq (Block.passWriteAt_nvm ..)
      | apply keepNvm_eq (Block.finishMiss_nvm ..)
    | (show Block.nvm _ = _; dsimp -zeta only; done)
    | (show Block.nvm _ = _; dsimp -zeta only; show KeepNvm _ _)
    | with_reducible refine keepNvm_ite ?_ ?_
    | with_reducible refine keepNvm1_ite ?_ ?_
    | with_reducible refine keepNvm2_ite ?_ ?_
    | split
    | with_reducible refine keepNvm_fst (by assumption) ?_
    | with_reducible refine keepNvm_snd (by assumption) ?_
    | assumption

end Sys2Proof.Machine
end

