-- ==== Sys2Proof/Laws/Nvm/Maint.lean ====
section
/-! SUPPORT. No operation of Machine/Maint.lean changes the non-volatile store, but for those named. -/

namespace Sys2Proof.Machine

theorem Block.mntLine_nvm (b : Block) (m : MntRun) (k : Nat) : (Block.mntLine b m k).nvm = b.nvm := by
  suffices h : KeepNvm b.nvm (Block.mntLine b m k) from h
  have h0 : KeepNvm b.nvm b := rfl
  unfold Block.mntLine
  repeat' first
    | with_reducible assumption
    | (extract_lets +onlyGivenNames x; guard_hyp x : Block := _; refine keepNvm_named (n := b.nvm) x ?_ ?_; dsimp -zeta only [x]; clear x; rotate_left; clear_value x; revert x; intro _ _)
    | (extract_lets +onlyGivenNames x; clear_value x; revert x; intro _)
    | with_reducible first
      | apply keepNvm_eq (Block.bump_nvm ..)
      | apply keepNvm_eq (Block.sendDirty_nvm ..)
      | apply keepNvm_eq (Block.dropLine_nvm ..)
    | (show Block.nvm _ = _; dsimp -zeta only; done)
    | (show Block.nvm _ = _; dsimp -zeta only; show KeepNvm _ _)
    | with_reducible refine keepNvm_ite ?_ ?_
    | split

theorem Block.mntApply_nvm (b : Block) (c : Nat) (m : MntRun) : (Block.mntApply b c m).nvm = b.nvm := by
  suffices h : KeepNvm b.nvm (Block.mntApply b c m) from h
  have h0 : KeepNvm b.nvm b := rfl
  unfold Block.mntApply
  repeat' first
    | with_reducible assumption
    | (extract_lets +onlyGivenNames x; guard_hyp x : Block := _; refine keepNvm_named (n := b.nvm) x ?_ ?_; dsimp -zeta only [x]; clear x; rotate_left; clear_value x; revert x; intro _ _)
    | (extract_lets +onlyGivenNames x; clear_value x; revert x; intro _)
    | with_reducible first
      | refine keepNvm_forEach ?_ (fun c a hc => ?_)
      | apply keepNvm_eq (Block.tagCheck_nvm ..)
      | apply keepNvm_eq (Block.mntLine_nvm ..)
    | (show Block.nvm _ = _; dsimp -zeta only; done)
    | (show Block.nvm _ = _; dsimp -zeta only; show KeepNvm _ _)
    | split

theorem Block.mntGive_nvm (b : Block) (c : Nat) (m : MntRun) : (Block.mntGive b c m).nvm = b.nvm := by
  suffices h : KeepNvm b.nvm (Block.mntGive b c m) from h
  have h0 : KeepNvm b.nvm b := rfl
  unfold Block.mntGive
  repeat' first
    | with_reducible assumption
    | (extract_lets +onlyGivenNames x; guard_hyp x : Block := _; refine keepNvm_named (n := b.nvm) x ?_ ?_; dsimp -zeta only [x]; clear x; rotate_left; clear_value x; revert x; intro _ _)
    | (extract_lets +onlyGivenNames x; clear_value x; revert x; intro _)
    | with_reducible first
      | apply keepNvm_eq (Block.updSlice_nvm ..)
    | (show Block.nvm _ = _; dsimp -zeta only; done)
    | (show Block.nvm _ = _; dsimp -zeta only; show KeepNvm _ _)
    | with_reducible refine keepNvm_ite ?_ ?_
    | split

theorem Block.mntStart_nvm (b : Block) (c : Nat) : (Block.mntStart b c).nvm = b.nvm := by
  suffices h : KeepNvm b.nvm (Block.mntStart b c) from h
  have h0 : KeepNvm b.nvm b := rfl
  unfold Block.mntStart
  repeat' first
    | with_reducible assumption
    | (extract_lets +onlyGivenNames x; guard_hyp x : Block := _; refine keepNvm_named (n := b.nvm) x ?_ ?_; dsimp -zeta only [x]; clear x; rotate_left; clear_value x; revert x; intro _ _)
    | (extract_lets +onlyGivenNames x; clear_value x; revert x; intro _)
    | with_reducible first
      | apply keepNvm_eq (Block.updSlice_nvm ..)
      | apply keepNvm_eq (Block.mntApply_nvm ..)
    | (show Block.nvm _ = _; dsimp -zeta only; done)
    | (show Block.nvm _ = _; dsimp -zeta only; show KeepNvm _ _)
    | with_reducible refine keepNvm_ite ?_ ?_
    | split

theorem Block.mntRetire_nvm (b : Block) : (Block.mntRetire b).nvm = b.nvm := by
  suffices h : KeepNvm b.nvm (Block.mntRetire b) from h
  have h0 : KeepNvm b.nvm b := rfl
  unfold Block.mntRetire
  repeat' first
    | with_reducible assumption
    | (extract_lets +onlyGivenNames x; guard_hyp x : Block := _; refine keepNvm_named (n := b.nvm) x ?_ ?_; dsimp -zeta only [x]; clear x; rotate_left; clear_value x; revert x; intro _ _)
    | (extract_lets +onlyGivenNames x; clear_value x; revert x; intro _)
    | with_reducible first
      | refine keepNvm_forEach ?_ (fun c a hc => ?_)
      | apply keepNvm_eq (Block.wr_nvm ..)
      | apply keepNvm_eq (Block.intr_nvm ..)
      | apply keepNvm_eq (Block.updSlice_nvm ..)
    | (show Block.nvm _ = _; dsimp -zeta only; done)
    | (show Block.nvm _ = _; dsimp -zeta only; show KeepNvm _ _)
    | with_reducible refine keepNvm_ite ?_ ?_
    | split

theorem Block.mntRefuse_nvm (b : Block) (code : Nat) : (Block.mntRefuse b code).nvm = b.nvm := by
  suffices h : KeepNvm b.nvm (Block.mntRefuse b code) from h
  have h0 : KeepNvm b.nvm b := rfl
  unfold Block.mntRefuse
  repeat' first
    | with_reducible assumption
    | with_reducible first
      | apply keepNvm_eq (Block.wr_nvm ..)
      | apply keepNvm_eq (Block.intr_nvm ..)
    | (show Block.nvm _ = _; dsimp -zeta only; done)
    | (show Block.nvm _ = _; dsimp -zeta only; show KeepNvm _ _)
    | split

theorem Block.mntGo_nvm (b : Block) : (Block.mntGo b).nvm = b.nvm := by
  suffices h : KeepNvm b.nvm (Block.mntGo b) from h
  have h0 : KeepNvm b.nvm b := rfl
  unfold Block.mntGo
  repeat' first
    | with_reducible assumption
    | (extract_lets +onlyGivenNames x; guard_hyp x : Block := _; refine keepNvm_named (n := b.nvm) x ?_ ?_; dsimp -zeta only [x]; clear x; rotate_left; clear_value x; revert x; intro _ _)
    | (extract_lets +onlyGivenNames x; clear_value x; revert x; intro _)
    | with_reducible first
      | refine keepNvm_forEach ?_ (fun c a hc => ?_)
      | apply keepNvm_eq (Block.wr_nvm ..)
      | apply keepNvm_eq (Block.count_nvm ..)
      | apply keepNvm_eq (Block.mntGive_nvm ..)
      | apply keepNvm_eq (Block.mntRefuse_nvm ..)
    | (show Block.nvm _ = _; dsimp -zeta only; done)
    | (show Block.nvm _ = _; dsimp -zeta only; show KeepNvm _ _)
    | with_reducible refine keepNvm_ite ?_ ?_
    | split

theorem Block.mntTender_nvm (b : Block) (c op base limit lane : Nat) : (Block.mntTender b c op base limit lane).nvm = b.nvm := by
  suffices h : KeepNvm b.nvm (Block.mntTender b c op base limit lane) from h
  have h0 : KeepNvm b.nvm b := rfl
  unfold Block.mntTender
  repeat' first
    | with_reducible assumption
    | (extract_lets +onlyGivenNames x; guard_hyp x : Block := _; refine keepNvm_named (n := b.nvm) x ?_ ?_; dsimp -zeta only [x]; clear x; rotate_left; clear_value x; revert x; intro _ _)
    | (extract_lets +onlyGivenNames x; clear_value x; revert x; intro _)
    | with_reducible first
      | apply keepNvm_eq (Block.mntGive_nvm ..)
    | (show Block.nvm _ = _; dsimp -zeta only; done)
    | (show Block.nvm _ = _; dsimp -zeta only; show KeepNvm _ _)
    | split

theorem Block.invalidateTags_nvm (b : Block) (c : Nat) : (Block.invalidateTags b c).nvm = b.nvm := by
  suffices h : KeepNvm b.nvm (Block.invalidateTags b c) from h
  have h0 : KeepNvm b.nvm b := rfl
  unfold Block.invalidateTags
  repeat' first
    | with_reducible assumption
    | (extract_lets +onlyGivenNames x; guard_hyp x : Block := _; refine keepNvm_named (n := b.nvm) x ?_ ?_; dsimp -zeta only [x]; clear x; rotate_left; clear_value x; revert x; intro _ _)
    | (extract_lets +onlyGivenNames x; refine keepNvm_fn x ?_; dsimp -zeta only [x]; clear x)
    | (extract_lets +onlyGivenNames x; refine keepNvm_fn2 x ?_; dsimp -zeta only [x]; clear x)
    | (extract_lets +onlyGivenNames x; refine keepNvm_fn3 x ?_; dsimp -zeta only [x]; clear x)
    | (extract_lets +onlyGivenNames x; refine keepNvm_fn4 x ?_; dsimp -zeta only [x]; clear x)
    | (extract_lets +onlyGivenNames x; clear_value x; revert x; intro _)
    | with_reducible first
      | apply keepNvm_eq (Block.updSlice_nvm ..)
    | (show Block.nvm _ = _; dsimp -zeta only; done)
    | (show Block.nvm _ = _; dsimp -zeta only; show KeepNvm _ _)
    | with_reducible refine keepNvm_ite ?_ ?_
    | split

theorem Block.bypassEnter_nvm (b : Block) (c : Nat) : (Block.bypassEnter b c).nvm = b.nvm := by
  suffices h : KeepNvm b.nvm (Block.bypassEnter b c) from h
  have h0 : KeepNvm b.nvm b := rfl
  unfold Block.bypassEnter
  repeat' first
    | with_reducible assumption
    | (extract_lets +onlyGivenNames x; guard_hyp x : Block := _; refine keepNvm_named (n := b.nvm) x ?_ ?_; dsimp -zeta only [x]; clear x; rotate_left; clear_value x; revert x; intro _ _)
    | (extract_lets +onlyGivenNames x; clear_value x; revert x; intro _)
    | with_reducible first
      | apply keepNvm_eq (Block.wr_nvm ..)
      | apply keepNvm_eq (Block.updSlice_nvm ..)
    | (show Block.nvm _ = _; dsimp -zeta only; done)
    | (show Block.nvm _ = _; dsimp -zeta only; show KeepNvm _ _)
    | split

theorem Block.bypassRun_nvm (b : Block) (c : Nat) : (Block.bypassRun b c).nvm = b.nvm := by
  suffices h : KeepNvm b.nvm (Block.bypassRun b c) from h
  have h0 : KeepNvm b.nvm b := rfl
  unfold Block.bypassRun
  repeat' first
    | with_reducible assumption
    | (extract_lets +onlyGivenNames x; guard_hyp x : Block := _; refine keepNvm_named (n := b.nvm) x ?_ ?_; dsimp -zeta only [x]; clear x; rotate_left; clear_value x; revert x; intro _ _)
    | (extract_lets +onlyGivenNames x; clear_value x; revert x; intro _)
    | with_reducible first
      | apply keepNvm_eq (Block.updSlice_nvm ..)
      | apply keepNvm_eq (Block.mntApply_nvm ..)
    | (show Block.nvm _ = _; dsimp -zeta only; done)
    | (show Block.nvm _ = _; dsimp -zeta only; show KeepNvm _ _)
    | with_reducible refine keepNvm_ite ?_ ?_
    | split

theorem Block.bypassWish_nvm (b : Block) (c : Nat) : (Block.bypassWish b c).nvm = b.nvm := by
  suffices h : KeepNvm b.nvm (Block.bypassWish b c) from h
  have h0 : KeepNvm b.nvm b := rfl
  unfold Block.bypassWish
  repeat' first
    | with_reducible assumption
    | (extract_lets +onlyGivenNames x; guard_hyp x : Block := _; refine keepNvm_named (n := b.nvm) x ?_ ?_; dsimp -zeta only [x]; clear x; rotate_left; clear_value x; revert x; intro _ _)
    | (extract_lets +onlyGivenNames x; clear_value x; revert x; intro _)
    | with_reducible first
      | apply keepNvm_eq (Block.wr_nvm ..)
      | apply keepNvm_eq (Block.bypassEnter_nvm ..)
    | (show Block.nvm _ = _; dsimp -zeta only; done)
    | (show Block.nvm _ = _; dsimp -zeta only; show KeepNvm _ _)
    | with_reducible refine keepNvm_ite ?_ ?_
    | split

theorem Block.bypassEntered_nvm (b : Block) (c : Nat) : (Block.bypassEntered b c).nvm = b.nvm := by
  suffices h : KeepNvm b.nvm (Block.bypassEntered b c) from h
  have h0 : KeepNvm b.nvm b := rfl
  unfold Block.bypassEntered
  repeat' first
    | with_reducible assumption
    | (extract_lets +onlyGivenNames x; guard_hyp x : Block := _; refine keepNvm_named (n := b.nvm) x ?_ ?_; dsimp -zeta only [x]; clear x; rotate_left; clear_value x; revert x; intro _ _)
    | (extract_lets +onlyGivenNames x; clear_value x; revert x; intro _)
    | with_reducible first
      | apply keepNvm_eq (Block.wr_nvm ..)
      | apply keepNvm_eq (Block.updSlice_nvm ..)
      | apply keepNvm_eq (Block.bypassRun_nvm ..)
      | apply keepNvm_eq (Block.bypassWish_nvm ..)
    | (show Block.nvm _ = _; dsimp -zeta only; done)
    | (show Block.nvm _ = _; dsimp -zeta only; show KeepNvm _ _)
    | with_reducible refine keepNvm_ite ?_ ?_
    | split

theorem Block.bypassExited_nvm (b : Block) (c : Nat) : (Block.bypassExited b c).nvm = b.nvm := by
  suffices h : KeepNvm b.nvm (Block.bypassExited b c) from h
  have h0 : KeepNvm b.nvm b := rfl
  unfold Block.bypassExited
  repeat' first
    | with_reducible assumption
    | (extract_lets +onlyGivenNames x; guard_hyp x : Block := _; refine keepNvm_named (n := b.nvm) x ?_ ?_; dsimp -zeta only [x]; clear x; rotate_left; clear_value x; revert x; intro _ _)
    | (extract_lets +onlyGivenNames x; clear_value x; revert x; intro _)
    | with_reducible first
      | apply keepNvm_eq (Block.wr_nvm ..)
      | apply keepNvm_eq (Block.updSlice_nvm ..)
      | apply keepNvm_eq (Block.invalidateTags_nvm ..)
      | apply keepNvm_eq (Block.bypassWish_nvm ..)
    | (show Block.nvm _ = _; dsimp -zeta only; done)
    | (show Block.nvm _ = _; dsimp -zeta only; show KeepNvm _ _)
    | with_reducible refine keepNvm_ite ?_ ?_
    | split

theorem Block.sliceUnfenced_nvm (b : Block) (c : Nat) : (Block.sliceUnfenced b c).nvm = b.nvm := by
  suffices h : KeepNvm b.nvm (Block.sliceUnfenced b c) from h
  have h0 : KeepNvm b.nvm b := rfl
  unfold Block.sliceUnfenced
  repeat' first
    | with_reducible assumption
    | with_reducible first
      | apply keepNvm_eq (Block.wr_nvm ..)
      | apply keepNvm_eq (Block.bypassWish_nvm ..)
    | (show Block.nvm _ = _; dsimp -zeta only; done)
    | (show Block.nvm _ = _; dsimp -zeta only; show KeepNvm _ _)
    | split

end Sys2Proof.Machine
end

