-- ==== Sys2Proof/Laws/Nvm/Regulator.lean ====
section
/-! SUPPORT. No operation of Machine/Regulator.lean changes the non-volatile store, but for those named. -/

namespace Sys2Proof.Machine

theorem Block.reguGrant_nvm (b : Block) (r : Req) (owed : Bool) : (Block.reguGrant b r owed).nvm = b.nvm := by
  suffices h : KeepNvm b.nvm (Block.reguGrant b r owed) from h
  have h0 : KeepNvm b.nvm b := rfl
  unfold Block.reguGrant
  repeat' first
    | with_reducible assumption
    | (extract_lets +onlyGivenNames x; guard_hyp x : Block := _; refine keepNvm_named (n := b.nvm) x ?_ ?_; dsimp -zeta only [x]; clear x; rotate_left; clear_value x; revert x; intro _ _)
    | (extract_lets +onlyGivenNames x; clear_value x; revert x; intro _)
    | with_reducible first
      | apply keepNvm_eq (Block.count_nvm ..)
    | (show Block.nvm _ = _; dsimp -zeta only; done)
    | (show Block.nvm _ = _; dsimp -zeta only; show KeepNvm _ _)
    | with_reducible refine keepNvm_ite ?_ ?_
    | split

theorem Block.reguDemand_nvm (b : Block) (r : Req) : (Block.reguDemand b r).nvm = b.nvm := by
  suffices h : KeepNvm b.nvm (Block.reguDemand b r) from h
  have h0 : KeepNvm b.nvm b := rfl
  unfold Block.reguDemand
  repeat' first
    | with_reducible assumption
    | (extract_lets +onlyGivenNames x; guard_hyp x : Block := _; refine keepNvm_named (n := b.nvm) x ?_ ?_; dsimp -zeta only [x]; clear x; rotate_left; clear_value x; revert x; intro _ _)
    | (extract_lets +onlyGivenNames x; clear_value x; revert x; intro _)
    | (show Block.nvm _ = _; dsimp -zeta only; done)
    | (show Block.nvm _ = _; dsimp -zeta only; show KeepNvm _ _)
    | with_reducible refine keepNvm_ite ?_ ?_
    | split

theorem Block.reguArrive_nvm (b : Block) (r : Req) : (Block.reguArrive b r).nvm = b.nvm := by
  suffices h : KeepNvm b.nvm (Block.reguArrive b r) from h
  have h0 : KeepNvm b.nvm b := rfl
  unfold Block.reguArrive
  repeat' first
    | with_reducible assumption
    | with_reducible first
      | apply keepNvm_eq (Block.bump_nvm ..)
      | apply keepNvm_eq (Block.count_nvm ..)
    | (show Block.nvm _ = _; dsimp -zeta only; done)
    | (show Block.nvm _ = _; dsimp -zeta only; show KeepNvm _ _)
    | with_reducible refine keepNvm_ite ?_ ?_
    | split

theorem Block.reguCompute_nvm (b : Block) (byCommit : Bool) : (Block.reguCompute b byCommit).nvm = b.nvm := by
  suffices h : KeepNvm b.nvm (Block.reguCompute b byCommit) from h
  have h0 : KeepNvm b.nvm b := rfl
  unfold Block.reguCompute
  repeat' first
    | with_reducible assumption
    | (extract_lets +onlyGivenNames x; guard_hyp x : Block := _; refine keepNvm_named (n := b.nvm) x ?_ ?_; dsimp -zeta only [x]; clear x; rotate_left; clear_value x; revert x; intro _ _)
    | (extract_lets +onlyGivenNames x; refine keepNvm_fn x ?_; dsimp -zeta only [x]; clear x)
    | (extract_lets +onlyGivenNames x; refine keepNvm_fn2 x ?_; dsimp -zeta only [x]; clear x)
    | (extract_lets +onlyGivenNames x; refine keepNvm_fn3 x ?_; dsimp -zeta only [x]; clear x)
    | (extract_lets +onlyGivenNames x; refine keepNvm_fn4 x ?_; dsimp -zeta only [x]; clear x)
    | (extract_lets +onlyGivenNames x; clear_value x; revert x; intro _)
    | with_reducible first
      | refine keepNvm_forEach ?_ (fun c a hc => ?_)
      | apply keepNvm_eq (Block.wr_nvm ..)
      | apply keepNvm_eq (Block.wrB_nvm ..)
      | apply keepNvm_eq (Block.intr_nvm ..)
      | apply keepNvm_eq (Block.eventPlain_nvm ..)
    | (show Block.nvm _ = _; dsimp -zeta only; done)
    | (show Block.nvm _ = _; dsimp -zeta only; show KeepNvm _ _)
    | with_reducible refine keepNvm_ite ?_ ?_
    | split

theorem Block.reguMisses_nvm (b : Block) (short : Bool) : (Block.reguMisses b short).nvm = b.nvm := by
  suffices h : KeepNvm b.nvm (Block.reguMisses b short) from h
  have h0 : KeepNvm b.nvm b := rfl
  unfold Block.reguMisses
  repeat' first
    | with_reducible assumption
    | (extract_lets +onlyGivenNames x; guard_hyp x : Block := _; refine keepNvm_named (n := b.nvm) x ?_ ?_; dsimp -zeta only [x]; clear x; rotate_left; clear_value x; revert x; intro _ _)
    | (extract_lets +onlyGivenNames x; clear_value x; revert x; intro _)
    | with_reducible first
      | refine keepNvm_forEach ?_ (fun c a hc => ?_)
      | apply keepNvm_eq (Block.wr_nvm ..)
      | apply keepNvm_eq (Block.wrB_nvm ..)
      | apply keepNvm_eq (Block.bump_nvm ..)
      | apply keepNvm_eq (Block.setBitOf_nvm ..)
    | with_reducible first
      | apply keepNvm_eq (Block.intr_nvm ..)
      | apply keepNvm_eq (Block.count_nvm ..)
    | (show Block.nvm _ = _; dsimp -zeta only; done)
    | (show Block.nvm _ = _; dsimp -zeta only; show KeepNvm _ _)
    | with_reducible refine keepNvm_ite ?_ ?_
    | split

theorem Block.reguTake_nvm (b : Block) (t : Tab Nat) : (Block.reguTake b t).nvm = b.nvm := by
  suffices h : KeepNvm b.nvm (Block.reguTake b t) from h
  have h0 : KeepNvm b.nvm b := rfl
  unfold Block.reguTake
  repeat' first
    | with_reducible assumption
    | (extract_lets +onlyGivenNames x; guard_hyp x : Block := _; refine keepNvm_named (n := b.nvm) x ?_ ?_; dsimp -zeta only [x]; clear x; rotate_left; clear_value x; revert x; intro _ _)
    | (extract_lets +onlyGivenNames x; clear_value x; revert x; intro _)
    | with_reducible first
      | apply keepNvm_eq (Block.wr_nvm ..)
    | (show Block.nvm _ = _; dsimp -zeta only; done)
    | (show Block.nvm _ = _; dsimp -zeta only; show KeepNvm _ _)
    | with_reducible refine keepNvm_ite ?_ ?_
    | split

theorem Block.reguBoundary_nvm (b : Block) (own : Bool) : (Block.reguBoundary b own).nvm = b.nvm := by
  suffices h : KeepNvm b.nvm (Block.reguBoundary b own) from h
  have h0 : KeepNvm b.nvm b := rfl
  unfold Block.reguBoundary
  repeat' first
    | with_reducible assumption
    | (extract_lets +onlyGivenNames x; guard_hyp x : Block := _; refine keepNvm_named (n := b.nvm) x ?_ ?_; dsimp -zeta only [x]; clear x; rotate_left; clear_value x; revert x; intro _ _)
    | (extract_lets +onlyGivenNames x; clear_value x; revert x; intro _)
    | with_reducible first
      | apply keepNvm_eq (Block.wrB_nvm ..)
      | apply keepNvm_eq (Block.count_nvm ..)
      | apply keepNvm_eq (Block.reguCompute_nvm ..)
      | apply keepNvm_eq (Block.reguMisses_nvm ..)
      | apply keepNvm_eq (Block.reguTake_nvm ..)
    | (show Block.nvm _ = _; dsimp -zeta only; done)
    | (show Block.nvm _ = _; dsimp -zeta only; show KeepNvm _ _)
    | with_reducible refine keepNvm_ite ?_ ?_
    | split

theorem Block.reguGo_nvm (b : Block) : (Block.reguGo b).nvm = b.nvm := by
  suffices h : KeepNvm b.nvm (Block.reguGo b) from h
  have h0 : KeepNvm b.nvm b := rfl
  unfold Block.reguGo
  repeat' first
    | with_reducible assumption
    | (extract_lets +onlyGivenNames x; guard_hyp x : Block := _; refine keepNvm_named (n := b.nvm) x ?_ ?_; dsimp -zeta only [x]; clear x; rotate_left; clear_value x; revert x; intro _ _)
    | (extract_lets +onlyGivenNames x; clear_value x; revert x; intro _)
    | with_reducible first
      | apply keepNvm_eq (Block.wr_nvm ..)
    | (show Block.nvm _ = _; dsimp -zeta only; done)
    | (show Block.nvm _ = _; dsimp -zeta only; show KeepNvm _ _)
    | with_reducible refine keepNvm_ite ?_ ?_
    | split

theorem Block.reguDone_nvm (b : Block) : (Block.reguDone b).nvm = b.nvm := by
  suffices h : KeepNvm b.nvm (Block.reguDone b) from h
  have h0 : KeepNvm b.nvm b := rfl
  unfold Block.reguDone
  repeat' first
    | with_reducible assumption
    | (extract_lets +onlyGivenNames x; guard_hyp x : Block := _; refine keepNvm_named (n := b.nvm) x ?_ ?_; dsimp -zeta only [x]; clear x; rotate_left; clear_value x; revert x; intro _ _)
    | (extract_lets +onlyGivenNames x; clear_value x; revert x; intro _)
    | with_reducible first
      | refine keepNvm1_mk ?_
      | refine keepNvm2_mk ?_
      | apply keepNvm_eq (Block.wr_nvm ..)
      | apply keepNvm_eq (Block.reguCompute_nvm ..)
      | apply keepNvm_eq (Block.reguTake_nvm ..)
    | (show Block.nvm _ = _; dsimp -zeta only; done)
    | (show Block.nvm _ = _; dsimp -zeta only; show KeepNvm _ _)
    | with_reducible refine keepNvm_ite ?_ ?_
    | with_reducible refine keepNvm1_ite ?_ ?_
    | with_reducible refine keepNvm2_ite ?_ ?_
    | split
    | with_reducible refine keepNvm_fst (by assumption) ?_
    | with_reducible refine keepNvm_snd (by assumption) ?_
    | assumption

end Sys2Proof.Machine
end

