-- ==== Sys2Proof/Laws/Nvm/Edt.lean ====
section
/-! SUPPORT. No operation of Machine/Edt.lean changes the non-volatile store, but for those named. -/

namespace Sys2Proof.Machine

theorem Block.sendReq_nvm (b : Block) (r : Req) : (Block.sendReq b r).nvm = b.nvm := by
  suffices h : KeepNvm b.nvm (Block.sendReq b r) from h
  have h0 : KeepNvm b.nvm b := rfl
  unfold Block.sendReq
  repeat' first
    | with_reducible assumption
    | (extract_lets +onlyGivenNames x; guard_hyp x : Block := _; refine keepNvm_named (n := b.nvm) x ?_ ?_; dsimp -zeta only [x]; clear x; rotate_left; clear_value x; revert x; intro _ _)
    | (extract_lets +onlyGivenNames x; clear_value x; revert x; intro _)
    | with_reducible first
      | apply keepNvm_eq (Block.updSlice_nvm ..)
      | apply keepNvm_eq (Block.respondAll_nvm ..)
      | apply keepNvm_eq (Block.wake_nvm ..)
    | (show Block.nvm _ = _; dsimp -zeta only; done)
    | (show Block.nvm _ = _; dsimp -zeta only; show KeepNvm _ _)
    | with_reducible refine keepNvm_ite ?_ ?_
    | split

theorem Block.afterLookup_nvm (b : Block) (r : Req) : (Block.afterLookup b r).nvm = b.nvm := by
  suffices h : KeepNvm b.nvm (Block.afterLookup b r) from h
  have h0 : KeepNvm b.nvm b := rfl
  unfold Block.afterLookup
  repeat' first
    | with_reducible assumption
    | (extract_lets +onlyGivenNames x; guard_hyp x : Block := _; refine keepNvm_named (n := b.nvm) x ?_ ?_; dsimp -zeta only [x]; clear x; rotate_left; clear_value x; revert x; intro _ _)
    | (extract_lets +onlyGivenNames x; clear_value x; revert x; intro _)
    | with_reducible first
      | apply keepNvm_eq (Block.reguArrive_nvm ..)
      | apply keepNvm_eq (Block.sendReq_nvm ..)
    | (show Block.nvm _ = _; dsimp -zeta only; done)
    | (show Block.nvm _ = _; dsimp -zeta only; show KeepNvm _ _)
    | with_reducible refine keepNvm_ite ?_ ?_
    | split

theorem Block.answerDecode_nvm (b : Block) (r : Req) : (Block.answerDecode b r).nvm = b.nvm := by
  suffices h : KeepNvm b.nvm (Block.answerDecode b r) from h
  have h0 : KeepNvm b.nvm b := rfl
  unfold Block.answerDecode
  repeat' first
    | with_reducible assumption
    | with_reducible first
      | apply keepNvm_eq (Block.bump_nvm ..)
      | apply keepNvm_eq (Block.respondAll_nvm ..)
    | (show Block.nvm _ = _; dsimp -zeta only; done)
    | (show Block.nvm _ = _; dsimp -zeta only; show KeepNvm _ _)
    | split

theorem Block.applyResolved_nvm (b : Block) (r : Req) (x : Resolved) : (Block.applyResolved b r x).nvm = b.nvm := by
  suffices h : KeepNvm b.nvm (Block.applyResolved b r x) from h
  have h0 : KeepNvm b.nvm b := rfl
  unfold Block.applyResolved
  repeat' first
    | with_reducible assumption
    | with_reducible first
      | apply keepNvm_eq (Block.bump_nvm ..)
      | apply keepNvm_eq (Block.respondAll_nvm ..)
      | apply keepNvm_eq (Block.afterLookup_nvm ..)
      | apply keepNvm_eq (Block.answerDecode_nvm ..)
    | (show Block.nvm _ = _; dsimp -zeta only; done)
    | (show Block.nvm _ = _; dsimp -zeta only; show KeepNvm _ _)
    | split

theorem Block.descPut_nvm (b : Block) (i : Nat) (d : Desc) : (Block.descPut b i d).nvm = b.nvm := by
  suffices h : KeepNvm b.nvm (Block.descPut b i d) from h
  have h0 : KeepNvm b.nvm b := rfl
  unfold Block.descPut
  repeat' first
    | with_reducible assumption
    | (extract_lets +onlyGivenNames x; guard_hyp x : Block := _; refine keepNvm_named (n := b.nvm) x ?_ ?_; dsimp -zeta only [x]; clear x; rotate_left; clear_value x; revert x; intro _ _)
    | (extract_lets +onlyGivenNames x; clear_value x; revert x; intro _)
    | (show Block.nvm _ = _; dsimp -zeta only; done)
    | (show Block.nvm _ = _; dsimp -zeta only; show KeepNvm _ _)
    | split

theorem Block.descUpset_nvm (b : Block) (u : Option (BitVec 18)) : (Block.descUpset b u).nvm = b.nvm := by
  suffices h : KeepNvm b.nvm (Block.descUpset b u) from h
  have h0 : KeepNvm b.nvm b := rfl
  unfold Block.descUpset
  repeat' first
    | with_reducible assumption
    | (extract_lets +onlyGivenNames x; guard_hyp x : Block := _; refine keepNvm_named (n := b.nvm) x ?_ ?_; dsimp -zeta only [x]; clear x; rotate_left; clear_value x; revert x; intro _ _)
    | (extract_lets +onlyGivenNames x; clear_value x; revert x; intro _)
    | (show Block.nvm _ = _; dsimp -zeta only; done)
    | (show Block.nvm _ = _; dsimp -zeta only; show KeepNvm _ _)
    | with_reducible refine keepNvm_ite ?_ ?_
    | split

theorem Block.descDrop_nvm (b : Block) (p : Nat → Bool) : (Block.descDrop b p).nvm = b.nvm := by
  suffices h : KeepNvm b.nvm (Block.descDrop b p) from h
  have h0 : KeepNvm b.nvm b := rfl
  unfold Block.descDrop
  repeat' first
    | with_reducible assumption
    | (extract_lets +onlyGivenNames x; guard_hyp x : Block := _; refine keepNvm_named (n := b.nvm) x ?_ ?_; dsimp -zeta only [x]; clear x; rotate_left; clear_value x; revert x; intro _ _)
    | (extract_lets +onlyGivenNames x; clear_value x; revert x; intro _)
    | (show Block.nvm _ = _; dsimp -zeta only; done)
    | (show Block.nvm _ = _; dsimp -zeta only; show KeepNvm _ _)
    | split

theorem Block.edtRead_nvm (b : Block) (src i : Nat) : (Block.edtRead b src i).nvm = b.nvm := by
  suffices h : KeepNvm b.nvm (Block.edtRead b src i) from h
  have h0 : KeepNvm b.nvm b := rfl
  unfold Block.edtRead
  repeat' first
    | with_reducible assumption
    | (extract_lets +onlyGivenNames x; guard_hyp x : Block := _; refine keepNvm_named (n := b.nvm) x ?_ ?_; dsimp -zeta only [x]; clear x; rotate_left; clear_value x; revert x; intro _ _)
    | (extract_lets +onlyGivenNames x; clear_value x; revert x; intro _)
    | with_reducible first
      | refine keepNvm1_mk ?_
      | refine keepNvm2_mk ?_
      | apply keepNvm_eq (Block.newId_nvm ..)
      | apply keepNvm_eq (Block.sliceAccess_nvm ..)
    | (show Block.nvm _ = _; dsimp -zeta only; done)
    | (show Block.nvm _ = _; dsimp -zeta only; show KeepNvm _ _)
    | with_reducible refine keepNvm_ite ?_ ?_
    | with_reducible refine keepNvm1_ite ?_ ?_
    | with_reducible refine keepNvm2_ite ?_ ?_
    | split
    | with_reducible refine keepNvm_fst (by assumption) ?_
    | with_reducible refine keepNvm_snd (by assumption) ?_
    | assumption

theorem Block.fetchAdd_nvm (b : Block) (i : Nat) (r : Req) : (Block.fetchAdd b i r).nvm = b.nvm := by
  suffices h : KeepNvm b.nvm (Block.fetchAdd b i r) from h
  have h0 : KeepNvm b.nvm b := rfl
  unfold Block.fetchAdd
  repeat' first
    | with_reducible assumption
    | (extract_lets +onlyGivenNames x; guard_hyp x : Block := _; refine keepNvm_named (n := b.nvm) x ?_ ?_; dsimp -zeta only [x]; clear x; rotate_left; clear_value x; revert x; intro _ _)
    | (extract_lets +onlyGivenNames x; clear_value x; revert x; intro _)
    | (show Block.nvm _ = _; dsimp -zeta only; done)
    | (show Block.nvm _ = _; dsimp -zeta only; show KeepNvm _ _)
    | with_reducible refine keepNvm_ite ?_ ?_
    | split

theorem Block.overEnter_nvm (b : Block) : (Block.overEnter b).nvm = b.nvm := by
  suffices h : KeepNvm b.nvm (Block.overEnter b) from h
  have h0 : KeepNvm b.nvm b := rfl
  unfold Block.overEnter
  repeat' first
    | with_reducible assumption
    | (extract_lets +onlyGivenNames x; guard_hyp x : Block := _; refine keepNvm_named (n := b.nvm) x ?_ ?_; dsimp -zeta only [x]; clear x; rotate_left; clear_value x; revert x; intro _ _)
    | (extract_lets +onlyGivenNames x; clear_value x; revert x; intro _)
    | with_reducible first
      | refine keepNvm_forEach ?_ (fun c a hc => ?_)
      | apply keepNvm_eq (Block.fetchAdd_nvm ..)
    | (show Block.nvm _ = _; dsimp -zeta only; done)
    | (show Block.nvm _ = _; dsimp -zeta only; show KeepNvm _ _)
    | with_reducible refine keepNvm_ite ?_ ?_
    | split

theorem Block.fetchStart_nvm (b : Block) : (Block.fetchStart b).nvm = b.nvm := by
  suffices h : KeepNvm b.nvm (Block.fetchStart b) from h
  have h0 : KeepNvm b.nvm b := rfl
  unfold Block.fetchStart
  repeat' first
    | with_reducible assumption
    | (extract_lets +onlyGivenNames x; guard_hyp x : Block := _; refine keepNvm_named (n := b.nvm) x ?_ ?_; dsimp -zeta only [x]; clear x; rotate_left; clear_value x; revert x; intro _ _)
    | (extract_lets +onlyGivenNames x; clear_value x; revert x; intro _)
    | with_reducible first
      | apply keepNvm_eq (Block.edtRead_nvm ..)
      | apply keepNvm_eq (Block.overEnter_nvm ..)
    | (show Block.nvm _ = _; dsimp -zeta only; done)
    | (show Block.nvm _ = _; dsimp -zeta only; show KeepNvm _ _)
    | with_reducible refine keepNvm_ite ?_ ?_
    | split

theorem Block.fetchWait_nvm (b : Block) (i : Nat) (r : Req) : (Block.fetchWait b i r).nvm = b.nvm := by
  suffices h : KeepNvm b.nvm (Block.fetchWait b i r) from h
  have h0 : KeepNvm b.nvm b := rfl
  unfold Block.fetchWait
  repeat' first
    | with_reducible assumption
    | (extract_lets +onlyGivenNames x; guard_hyp x : Block := _; refine keepNvm_named (n := b.nvm) x ?_ ?_; dsimp -zeta only [x]; clear x; rotate_left; clear_value x; revert x; intro _ _)
    | (extract_lets +onlyGivenNames x; clear_value x; revert x; intro _)
    | with_reducible first
      | apply keepNvm_eq (Block.fetchAdd_nvm ..)
      | apply keepNvm_eq (Block.fetchStart_nvm ..)
    | (show Block.nvm _ = _; dsimp -zeta only; done)
    | (show Block.nvm _ = _; dsimp -zeta only; show KeepNvm _ _)
    | with_reducible refine keepNvm_ite ?_ ?_
    | split

theorem Block.edtError_nvm (b : Block) (pos i : Nat) (a : Option Nat) (quiet : Bool) : (Block.edtError b pos i a quiet).nvm = b.nvm := by
  suffices h : KeepNvm b.nvm (Block.edtError b pos i a quiet) from h
  have h0 : KeepNvm b.nvm b := rfl
  unfold Block.edtError
  repeat' first
    | with_reducible assumption
    | (extract_lets +onlyGivenNames x; guard_hyp x : Block := _; refine keepNvm_named (n := b.nvm) x ?_ ?_; dsimp -zeta only [x]; clear x; rotate_left; clear_value x; revert x; intro _ _)
    | (extract_lets +onlyGivenNames x; clear_value x; revert x; intro _)
    | with_reducible first
      | apply keepNvm_eq (Block.wr_nvm ..)
      | apply keepNvm_eq (Block.intr_nvm ..)
      | apply keepNvm_eq (Block.event_nvm ..)
      | apply keepNvm_eq (Block.eventPlain_nvm ..)
    | (show Block.nvm _ = _; dsimp -zeta only; done)
    | (show Block.nvm _ = _; dsimp -zeta only; show KeepNvm _ _)
    | with_reducible refine keepNvm_ite ?_ ?_
    | split

theorem Block.resume_nvm (b : Block) (r : Req) (status : Nat) (d : Desc) : (Block.resume b r status d).nvm = b.nvm := by
  suffices h : KeepNvm b.nvm (Block.resume b r status d) from h
  have h0 : KeepNvm b.nvm b := rfl
  unfold Block.resume
  repeat' first
    | with_reducible assumption
    | (extract_lets +onlyGivenNames x; guard_hyp x : Block := _; refine keepNvm_named (n := b.nvm) x ?_ ?_; dsimp -zeta only [x]; clear x; rotate_left; clear_value x; revert x; intro _ _)
    | (extract_lets +onlyGivenNames x; clear_value x; revert x; intro _)
    | with_reducible first
      | apply keepNvm_eq (Block.respondAll_nvm ..)
      | apply keepNvm_eq (Block.applyResolved_nvm ..)
    | (show Block.nvm _ = _; dsimp -zeta only; done)
    | (show Block.nvm _ = _; dsimp -zeta only; show KeepNvm _ _)
    | with_reducible refine keepNvm_ite ?_ ?_
    | split

theorem Block.invalLate_nvm (b : Block) (f : Fetch) : (Block.invalLate b f).nvm = b.nvm := by
  suffices h : KeepNvm b.nvm (Block.invalLate b f) from h
  have h0 : KeepNvm b.nvm b := rfl
  unfold Block.invalLate
  repeat' first
    | with_reducible assumption
    | (extract_lets +onlyGivenNames x; guard_hyp x : Block := _; refine keepNvm_named (n := b.nvm) x ?_ ?_; dsimp -zeta only [x]; clear x; rotate_left; clear_value x; revert x; intro _ _)
    | (extract_lets +onlyGivenNames x; clear_value x; revert x; intro _)
    | (show Block.nvm _ = _; dsimp -zeta only; done)
    | (show Block.nvm _ = _; dsimp -zeta only; show KeepNvm _ _)
    | with_reducible refine keepNvm_ite ?_ ?_
    | split

theorem Block.fetchReturn_nvm (b : Block) : (Block.fetchReturn b).nvm = b.nvm := by
  suffices h : KeepNvm b.nvm (Block.fetchReturn b) from h
  have h0 : KeepNvm b.nvm b := rfl
  unfold Block.fetchReturn
  repeat' first
    | with_reducible assumption
    | (extract_lets +onlyGivenNames x; guard_hyp x : Block := _; refine keepNvm_named (n := b.nvm) x ?_ ?_; dsimp -zeta only [x]; clear x; rotate_left; clear_value x; revert x; intro _ _)
    | (extract_lets +onlyGivenNames x; refine keepNvm_fn x ?_; dsimp -zeta only [x]; clear x)
    | (extract_lets +onlyGivenNames x; refine keepNvm_fn2 x ?_; dsimp -zeta only [x]; clear x)
    | (extract_lets +onlyGivenNames x; refine keepNvm_fn3 x ?_; dsimp -zeta only [x]; clear x)
    | (extract_lets +onlyGivenNames x; refine keepNvm_fn4 x ?_; dsimp -zeta only [x]; clear x)
    | (extract_lets +onlyGivenNames x; clear_value x; revert x; intro _)
    | with_reducible first
      | refine keepNvm_forEach ?_ (fun c a hc => ?_)
      | apply keepNvm_eq (Block.queueUe_nvm ..)
      | apply keepNvm_eq (Block.descPut_nvm ..)
      | apply keepNvm_eq (Block.edtError_nvm ..)
      | apply keepNvm_eq (Block.resume_nvm ..)
    | with_reducible first
      | apply keepNvm_eq (Block.invalLate_nvm ..)
    | (show Block.nvm _ = _; dsimp -zeta only; done)
    | (show Block.nvm _ = _; dsimp -zeta only; show KeepNvm _ _)
    | with_reducible refine keepNvm_ite ?_ ?_
    | split

theorem Block.descMeet_nvm (b : Block) (i a : Nat) : (Block.descMeet b i a).nvm = b.nvm := by
  suffices h : KeepNvm b.nvm (Block.descMeet b i a) from h
  have h0 : KeepNvm b.nvm b := rfl
  unfold Block.descMeet
  repeat' first
    | with_reducible assumption
    | with_reducible first
      | apply keepNvm_eq (Block.descDrop_nvm ..)
      | apply keepNvm_eq (Block.edtError_nvm ..)
    | (show Block.nvm _ = _; dsimp -zeta only; done)
    | (show Block.nvm _ = _; dsimp -zeta only; show KeepNvm _ _)
    | with_reducible refine keepNvm_ite ?_ ?_
    | split

theorem Block.lookup_nvm (b : Block) (r : Req) : (Block.lookup b r).nvm = b.nvm := by
  suffices h : KeepNvm b.nvm (Block.lookup b r) from h
  have h0 : KeepNvm b.nvm b := rfl
  unfold Block.lookup
  repeat' first
    | with_reducible assumption
    | (extract_lets +onlyGivenNames x; guard_hyp x : Block := _; refine keepNvm_named (n := b.nvm) x ?_ ?_; dsimp -zeta only [x]; clear x; rotate_left; clear_value x; revert x; intro _ _)
    | (extract_lets +onlyGivenNames x; clear_value x; revert x; intro _)
    | with_reducible first
      | apply keepNvm_eq (Block.answerDecode_nvm ..)
      | apply keepNvm_eq (Block.applyResolved_nvm ..)
      | apply keepNvm_eq (Block.descPut_nvm ..)
      | apply keepNvm_eq (Block.fetchWait_nvm ..)
      | apply keepNvm_eq (Block.descMeet_nvm ..)
    | (show Block.nvm _ = _; dsimp -zeta only; done)
    | (show Block.nvm _ = _; dsimp -zeta only; show KeepNvm _ _)
    | with_reducible refine keepNvm_ite ?_ ?_
    | split

theorem Block.askDesc_nvm (b : Block) (r : Req) : (Block.askDesc b r).1.nvm = b.nvm := by
  suffices h : KeepNvm1 b.nvm (Block.askDesc b r) from h
  have h0 : KeepNvm b.nvm b := rfl
  unfold Block.askDesc
  repeat' first
    | with_reducible assumption
    | (extract_lets +onlyGivenNames x; guard_hyp x : Block := _; refine keepNvm_named (n := b.nvm) x ?_ ?_; dsimp -zeta only [x]; clear x; rotate_left; clear_value x; revert x; intro _ _)
    | (extract_lets +onlyGivenNames x; clear_value x; revert x; intro _)
    | with_reducible first
      | refine keepNvm1_mk ?_
      | refine keepNvm2_mk ?_
      | apply keepNvm_eq (Block.descPut_nvm ..)
      | apply keepNvm_eq (Block.fetchWait_nvm ..)
      | apply keepNvm_eq (Block.descMeet_nvm ..)
    | (show Block.nvm _ = _; dsimp -zeta only; done)
    | (show Block.nvm _ = _; dsimp -zeta only; show KeepNvm _ _)
    | split
    | with_reducible refine keepNvm_fst (by assumption) ?_
    | with_reducible refine keepNvm_snd (by assumption) ?_
    | assumption

theorem Block.counterRead_nvm (b : Block) (r : Req) (off : Nat) : (Block.counterRead b r off).nvm = b.nvm := by
  suffices h : KeepNvm b.nvm (Block.counterRead b r off) from h
  have h0 : KeepNvm b.nvm b := rfl
  unfold Block.counterRead
  repeat' first
    | with_reducible assumption
    | (extract_lets +onlyGivenNames x; guard_hyp x : Block := _; refine keepNvm_named (n := b.nvm) x ?_ ?_; dsimp -zeta only [x]; clear x; rotate_left; clear_value x; revert x; intro _ _)
    | (extract_lets +onlyGivenNames x; clear_value x; revert x; intro _)
    | with_reducible first
      | refine keepNvm_forEach ?_ (fun c a hc => ?_)
      | apply keepNvm_eq (Block.respond_nvm ..)
    | (show Block.nvm _ = _; dsimp -zeta only; done)
    | (show Block.nvm _ = _; dsimp -zeta only; show KeepNvm _ _)
    | with_reducible refine keepNvm_ite ?_ ?_
    | split

theorem Block.goneBeats_nvm (b : Block) (r : Req) : (Block.goneBeats b r).nvm = b.nvm := by
  suffices h : KeepNvm b.nvm (Block.goneBeats b r) from h
  have h0 : KeepNvm b.nvm b := rfl
  unfold Block.goneBeats
  repeat' first
    | with_reducible assumption
    | (extract_lets +onlyGivenNames x; guard_hyp x : Block := _; refine keepNvm_named (n := b.nvm) x ?_ ?_; dsimp -zeta only [x]; clear x; rotate_left; clear_value x; revert x; intro _ _)
    | (extract_lets +onlyGivenNames x; clear_value x; revert x; intro _)
    | with_reducible first
      | refine keepNvm_forEach ?_ (fun c a hc => ?_)
      | apply keepNvm_eq (Block.bump_nvm ..)
      | apply keepNvm_eq (Block.respond_nvm ..)
    | (show Block.nvm _ = _; dsimp -zeta only; done)
    | (show Block.nvm _ = _; dsimp -zeta only; show KeepNvm _ _)
    | split

theorem Block.reservedAccess_nvm (b : Block) (r : Req) (off : Nat) : (Block.reservedAccess b r off).nvm = b.nvm := by
  suffices h : KeepNvm b.nvm (Block.reservedAccess b r off) from h
  have h0 : KeepNvm b.nvm b := rfl
  unfold Block.reservedAccess
  repeat' first
    | with_reducible assumption
    | (extract_lets +onlyGivenNames x; guard_hyp x : Block := _; refine keepNvm_named (n := b.nvm) x ?_ ?_; dsimp -zeta only [x]; clear x; rotate_left; clear_value x; revert x; intro _ _)
    | (extract_lets +onlyGivenNames x; clear_value x; revert x; intro _)
    | with_reducible first
      | refine keepNvm_forEach ?_ (fun c a hc => ?_)
      | apply keepNvm_eq (Block.respond_nvm ..)
      | apply keepNvm_eq (Block.respondAll_nvm ..)
      | apply keepNvm_eq (Block.reguArrive_nvm ..)
      | apply keepNvm_eq (Block.afterLookup_nvm ..)
    | with_reducible first
      | apply keepNvm_eq (Block.answerDecode_nvm ..)
      | apply keepNvm_eq (Block.counterRead_nvm ..)
      | apply keepNvm_eq (Block.goneBeats_nvm ..)
    | (show Block.nvm _ = _; dsimp -zeta only; done)
    | (show Block.nvm _ = _; dsimp -zeta only; show KeepNvm _ _)
    | with_reducible refine keepNvm_ite ?_ ?_
    | split

theorem Block.invalAccept_nvm (b : Block) (v : Inval) : (Block.invalAccept b v).nvm = b.nvm := by
  suffices h : KeepNvm b.nvm (Block.invalAccept b v) from h
  have h0 : KeepNvm b.nvm b := rfl
  unfold Block.invalAccept
  repeat' first
    | with_reducible assumption
    | (extract_lets +onlyGivenNames x; guard_hyp x : Block := _; refine keepNvm_named (n := b.nvm) x ?_ ?_; dsimp -zeta only [x]; clear x; rotate_left; clear_value x; revert x; intro _ _)
    | (extract_lets +onlyGivenNames x; clear_value x; revert x; intro _)
    | (show Block.nvm _ = _; dsimp -zeta only; done)
    | (show Block.nvm _ = _; dsimp -zeta only; show KeepNvm _ _)
    | with_reducible refine keepNvm_ite ?_ ?_
    | split

theorem Block.invalWrite_nvm (b : Block) : (Block.invalWrite b).nvm = b.nvm := by
  suffices h : KeepNvm b.nvm (Block.invalWrite b) from h
  have h0 : KeepNvm b.nvm b := rfl
  unfold Block.invalWrite
  repeat' first
    | with_reducible assumption
    | (extract_lets +onlyGivenNames x; guard_hyp x : Block := _; refine keepNvm_named (n := b.nvm) x ?_ ?_; dsimp -zeta only [x]; clear x; rotate_left; clear_value x; revert x; intro _ _)
    | (extract_lets +onlyGivenNames x; clear_value x; revert x; intro _)
    | with_reducible first
      | apply keepNvm_eq (Block.wr_nvm ..)
      | apply keepNvm_eq (Block.count_nvm ..)
      | apply keepNvm_eq (Block.invalAccept_nvm ..)
    | (show Block.nvm _ = _; dsimp -zeta only; done)
    | (show Block.nvm _ = _; dsimp -zeta only; show KeepNvm _ _)
    | with_reducible refine keepNvm_ite ?_ ?_
    | split

theorem Block.updTnd_nvm (b : Block) (n : Nat) (f : Lane → Lane) : (Block.updTnd b n f).nvm = b.nvm := by
  suffices h : KeepNvm b.nvm (Block.updTnd b n f) from h
  have h0 : KeepNvm b.nvm b := rfl
  unfold Block.updTnd
  repeat' first
    | with_reducible assumption
    | (extract_lets +onlyGivenNames x; guard_hyp x : Block := _; refine keepNvm_named (n := b.nvm) x ?_ ?_; dsimp -zeta only [x]; clear x; rotate_left; clear_value x; revert x; intro _ _)
    | (extract_lets +onlyGivenNames x; clear_value x; revert x; intro _)
    | (show Block.nvm _ = _; dsimp -zeta only; done)
    | (show Block.nvm _ = _; dsimp -zeta only; show KeepNvm _ _)
    | split

theorem Block.laneUpdated_nvm (b : Block) (n code : Nat) : (Block.laneUpdated b n code).nvm = b.nvm := by
  suffices h : KeepNvm b.nvm (Block.laneUpdated b n code) from h
  have h0 : KeepNvm b.nvm b := rfl
  unfold Block.laneUpdated
  repeat' first
    | with_reducible assumption
    | (extract_lets +onlyGivenNames x; guard_hyp x : Block := _; refine keepNvm_named (n := b.nvm) x ?_ ?_; dsimp -zeta only [x]; clear x; rotate_left; clear_value x; revert x; intro _ _)
    | (extract_lets +onlyGivenNames x; clear_value x; revert x; intro _)
    | with_reducible first
      | apply keepNvm_eq (Block.updTnd_nvm ..)
    | (show Block.nvm _ = _; dsimp -zeta only; done)
    | (show Block.nvm _ = _; dsimp -zeta only; show KeepNvm _ _)
    | with_reducible refine keepNvm_ite ?_ ?_
    | split

theorem Block.invalRun_nvm (b : Block) : (Block.invalRun b).nvm = b.nvm := by
  suffices h : KeepNvm b.nvm (Block.invalRun b) from h
  have h0 : KeepNvm b.nvm b := rfl
  unfold Block.invalRun
  repeat' first
    | with_reducible assumption
    | (extract_lets +onlyGivenNames x; guard_hyp x : Block := _; refine keepNvm_named (n := b.nvm) x ?_ ?_; dsimp -zeta only [x]; clear x; rotate_left; clear_value x; revert x; intro _ _)
    | (extract_lets +onlyGivenNames x; clear_value x; revert x; intro _)
    | with_reducible first
      | refine keepNvm1_mk ?_
      | refine keepNvm2_mk ?_
      | apply keepNvm_eq (Block.wr_nvm ..)
      | apply keepNvm_eq (Block.intr_nvm ..)
      | apply keepNvm_eq (Block.descDrop_nvm ..)
    | with_reducible first
      | apply keepNvm_eq (Block.laneUpdated_nvm ..)
    | (show Block.nvm _ = _; dsimp -zeta only; done)
    | (show Block.nvm _ = _; dsimp -zeta only; show KeepNvm _ _)
    | with_reducible refine keepNvm_ite ?_ ?_
    | with_reducible refine keepNvm1_ite ?_ ?_
    | with_reducible refine keepNvm2_ite ?_ ?_
    | split
    | with_reducible refine keepNvm_fst (by assumption) ?_
    | with_reducible refine keepNvm_snd (by assumption) ?_
    | assumption

theorem Block.genMoved_nvm (b : Block) (i old : Nat) : (Block.genMoved b i old).nvm = b.nvm := by
  suffices h : KeepNvm b.nvm (Block.genMoved b i old) from h
  have h0 : KeepNvm b.nvm b := rfl
  unfold Block.genMoved
  repeat' first
    | with_reducible assumption
    | (extract_lets +onlyGivenNames x; guard_hyp x : Block := _; refine keepNvm_named (n := b.nvm) x ?_ ?_; dsimp -zeta only [x]; clear x; rotate_left; clear_value x; revert x; intro _ _)
    | (extract_lets +onlyGivenNames x; clear_value x; revert x; intro _)
    | (show Block.nvm _ = _; dsimp -zeta only; done)
    | (show Block.nvm _ = _; dsimp -zeta only; show KeepNvm _ _)
    | with_reducible refine keepNvm_ite ?_ ?_
    | split

theorem Block.genNote_nvm (b : Block) (n i gen : Nat) : (Block.genNote b n i gen).nvm = b.nvm := by
  suffices h : KeepNvm b.nvm (Block.genNote b n i gen) from h
  have h0 : KeepNvm b.nvm b := rfl
  unfold Block.genNote
  repeat' first
    | with_reducible assumption
    | (extract_lets +onlyGivenNames x; guard_hyp x : Block := _; refine keepNvm_named (n := b.nvm) x ?_ ?_; dsimp -zeta only [x]; clear x; rotate_left; clear_value x; revert x; intro _ _)
    | (extract_lets +onlyGivenNames x; clear_value x; revert x; intro _)
    | with_reducible first
      | apply keepNvm_eq (Block.updTnd_nvm ..)
    | (show Block.nvm _ = _; dsimp -zeta only; done)
    | (show Block.nvm _ = _; dsimp -zeta only; show KeepNvm _ _)
    | with_reducible refine keepNvm_ite ?_ ?_
    | split

theorem Block.scrubMoved_nvm (b : Block) (i : Nat) (old new : Desc) : (Block.scrubMoved b i old new).nvm = b.nvm := by
  suffices h : KeepNvm b.nvm (Block.scrubMoved b i old new) from h
  have h0 : KeepNvm b.nvm b := rfl
  unfold Block.scrubMoved
  repeat' first
    | with_reducible assumption
    | (extract_lets +onlyGivenNames x; guard_hyp x : Block := _; refine keepNvm_named (n := b.nvm) x ?_ ?_; dsimp -zeta only [x]; clear x; rotate_left; clear_value x; revert x; intro _ _)
    | (extract_lets +onlyGivenNames x; clear_value x; revert x; intro _)
    | (show Block.nvm _ = _; dsimp -zeta only; done)
    | (show Block.nvm _ = _; dsimp -zeta only; show KeepNvm _ _)
    | with_reducible refine keepNvm_ite ?_ ?_
    | split

theorem Block.scrubsMoved_nvm (b : Block) (i : Nat) (old new : Desc) : (Block.scrubsMoved b i old new).nvm = b.nvm := by
  suffices h : KeepNvm b.nvm (Block.scrubsMoved b i old new) from h
  have h0 : KeepNvm b.nvm b := rfl
  unfold Block.scrubsMoved
  repeat' first
    | with_reducible assumption
    | (extract_lets +onlyGivenNames x; guard_hyp x : Block := _; refine keepNvm_named (n := b.nvm) x ?_ ?_; dsimp -zeta only [x]; clear x; rotate_left; clear_value x; revert x; intro _ _)
    | (extract_lets +onlyGivenNames x; clear_value x; revert x; intro _)
    | with_reducible first
      | apply keepNvm_eq (Block.mapScrubs_nvm ..)
    | (show Block.nvm _ = _; dsimp -zeta only; done)
    | (show Block.nvm _ = _; dsimp -zeta only; show KeepNvm _ _)
    | with_reducible refine keepNvm_ite ?_ ?_
    | split

theorem Block.updateWith_nvm (b : Block) (u : DescUpd) (status : Nat) (d : Desc) (put : Block → Desc → Block) (hput : ∀ b e, (put b e).nvm = b.nvm) : (Block.updateWith b u status d put).nvm = b.nvm := by
  suffices h : KeepNvm b.nvm (Block.updateWith b u status d put) from h
  have h0 : KeepNvm b.nvm b := rfl
  unfold Block.updateWith
  repeat' first
    | with_reducible assumption
    | (extract_lets +onlyGivenNames x; guard_hyp x : Block := _; refine keepNvm_named (n := b.nvm) x ?_ ?_; dsimp -zeta only [x]; clear x; rotate_left; clear_value x; revert x; intro _ _)
    | (extract_lets +onlyGivenNames x; clear_value x; revert x; intro _)
    | with_reducible first
      | apply keepNvm_eq (Block.count_nvm ..)
      | apply keepNvm_eq (Block.edtError_nvm ..)
      | apply keepNvm_eq (Block.invalAccept_nvm ..)
      | apply keepNvm_eq (Block.laneUpdated_nvm ..)
      | apply keepNvm_eq (Block.genMoved_nvm ..)
    | with_reducible first
      | apply keepNvm_eq (Block.genNote_nvm ..)
      | apply keepNvm_eq (Block.scrubMoved_nvm ..)
      | apply keepNvm_eq (Block.scrubsMoved_nvm ..)
      | apply keepNvm_eq (hput ..)
    | (show Block.nvm _ = _; dsimp -zeta only; done)
    | (show Block.nvm _ = _; dsimp -zeta only; show KeepNvm _ _)
    | with_reducible refine keepNvm_ite ?_ ?_
    | split

theorem Block.updateStep_nvm (b : Block) : (Block.updateStep b).nvm = b.nvm := by
  suffices h : KeepNvm b.nvm (Block.updateStep b) from h
  have h0 : KeepNvm b.nvm b := rfl
  unfold Block.updateStep
  repeat' first
    | with_reducible assumption
    | with_reducible exact keepNvm_refl _
    | with_reducible exact keepNvm_id _
    | with_reducible refine keepNvm_intro ?_
    | (extract_lets +onlyGivenNames x; guard_hyp x : Block := _; refine keepNvm_named (n := b.nvm) x ?_ ?_; dsimp -zeta only [x]; clear x; rotate_left; clear_value x; revert x; intro _ _)
    | (extract_lets +onlyGivenNames x; clear_value x; revert x; intro _)
    | with_reducible first
      | apply keepNvm_eq (Block.sliceAccess_nvm ..)
      | apply keepNvm_eq (Block.edtRead_nvm ..)
      | apply keepNvm_eq (Block.laneUpdated_nvm ..)
      | apply keepNvm_eq (Block.updateWith_nvm (hput := fun _ _ => ?_) ..)
    | (show Block.nvm _ = _; dsimp -zeta only; done)
    | (show Block.nvm _ = _; dsimp -zeta only; show KeepNvm _ _)
    | with_reducible refine keepNvm_ite ?_ ?_
    | split

theorem Block.demandSeen_nvm (b : Block) (slices : List Nat) : (Block.demandSeen b slices).nvm = b.nvm := by
  suffices h : KeepNvm b.nvm (Block.demandSeen b slices) from h
  have h0 : KeepNvm b.nvm b := rfl
  unfold Block.demandSeen
  repeat' first
    | with_reducible assumption
    | with_reducible first
      | refine keepNvm_forEach ?_ (fun c a hc => ?_)
      | apply keepNvm_eq (Block.reguDemand_nvm ..)
    | (show Block.nvm _ = _; dsimp -zeta only; done)
    | (show Block.nvm _ = _; dsimp -zeta only; show KeepNvm _ _)
    | split

end Sys2Proof.Machine
end

