-- ==== Sys2Proof/Laws/Nvm/Ports.lean ====
section
/-! SUPPORT. No operation of Machine/Ports.lean changes the non-volatile store, but for those named. -/

namespace Sys2Proof.Machine

theorem Block.portSettle_nvm (b : Block) (p : Nat) : (Block.portSettle b p).nvm = b.nvm := by
  suffices h : KeepNvm b.nvm (Block.portSettle b p) from h
  have h0 : KeepNvm b.nvm b := rfl
  unfold Block.portSettle
  repeat' first
    | with_reducible assumption
    | (extract_lets +onlyGivenNames x; guard_hyp x : Block := _; refine keepNvm_named (n := b.nvm) x ?_ ?_; dsimp -zeta only [x]; clear x; rotate_left; clear_value x; revert x; intro _ _)
    | (extract_lets +onlyGivenNames x; clear_value x; revert x; intro _)
    | with_reducible first
      | apply keepNvm_eq (Block.wr_nvm ..)
      | apply keepNvm_eq (Block.updPort_nvm ..)
      | apply keepNvm_eq (Block.idle_nvm ..)
    | (show Block.nvm _ = _; dsimp -zeta only; done)
    | (show Block.nvm _ = _; dsimp -zeta only; show KeepNvm _ _)
    | with_reducible refine keepNvm_ite ?_ ?_
    | split

theorem Block.portCtl_nvm (b : Block) (p : Nat) : (Block.portCtl b p).nvm = b.nvm := by
  suffices h : KeepNvm b.nvm (Block.portCtl b p) from h
  have h0 : KeepNvm b.nvm b := rfl
  unfold Block.portCtl
  repeat' first
    | with_reducible assumption
    | (extract_lets +onlyGivenNames x; guard_hyp x : Block := _; refine keepNvm_named (n := b.nvm) x ?_ ?_; dsimp -zeta only [x]; clear x; rotate_left; clear_value x; revert x; intro _ _)
    | (extract_lets +onlyGivenNames x; clear_value x; revert x; intro _)
    | with_reducible first
      | apply keepNvm_eq (Block.wr_nvm ..)
      | apply keepNvm_eq (Block.updPort_nvm ..)
      | apply keepNvm_eq (Block.portSettle_nvm ..)
    | (show Block.nvm _ = _; dsimp -zeta only; done)
    | (show Block.nvm _ = _; dsimp -zeta only; show KeepNvm _ _)
    | with_reducible refine keepNvm_ite ?_ ?_
    | split

theorem Block.portFlag_nvm (b : Block) (p pos : Nat) : (Block.portFlag b p pos).nvm = b.nvm := by
  suffices h : KeepNvm b.nvm (Block.portFlag b p pos) from h
  have h0 : KeepNvm b.nvm b := rfl
  unfold Block.portFlag
  repeat' first
    | with_reducible assumption
    | (extract_lets +onlyGivenNames x; guard_hyp x : Block := _; refine keepNvm_named (n := b.nvm) x ?_ ?_; dsimp -zeta only [x]; clear x; rotate_left; clear_value x; revert x; intro _ _)
    | (extract_lets +onlyGivenNames x; clear_value x; revert x; intro _)
    | with_reducible first
      | apply keepNvm_eq (Block.wr_nvm ..)
      | apply keepNvm_eq (Block.intr_nvm ..)
    | (show Block.nvm _ = _; dsimp -zeta only; done)
    | (show Block.nvm _ = _; dsimp -zeta only; show KeepNvm _ _)
    | split

theorem Block.mapReq_nvm (b : Block) (f : Req → Req) : (Block.mapReq b f).nvm = b.nvm := by
  suffices h : KeepNvm b.nvm (Block.mapReq b f) from h
  have h0 : KeepNvm b.nvm b := rfl
  unfold Block.mapReq
  repeat' first
    | with_reducible assumption
    | (extract_lets +onlyGivenNames x; guard_hyp x : Block := _; refine keepNvm_named (n := b.nvm) x ?_ ?_; dsimp -zeta only [x]; clear x; rotate_left; clear_value x; revert x; intro _ _)
    | (extract_lets +onlyGivenNames x; clear_value x; revert x; intro _)
    | (show Block.nvm _ = _; dsimp -zeta only; done)
    | (show Block.nvm _ = _; dsimp -zeta only; show KeepNvm _ _)
    | split

theorem Block.dropReq_nvm (b : Block) (p : Req → Bool) : (Block.dropReq b p).nvm = b.nvm := by
  suffices h : KeepNvm b.nvm (Block.dropReq b p) from h
  have h0 : KeepNvm b.nvm b := rfl
  unfold Block.dropReq
  repeat' first
    | with_reducible assumption
    | (extract_lets +onlyGivenNames x; guard_hyp x : Block := _; refine keepNvm_named (n := b.nvm) x ?_ ?_; dsimp -zeta only [x]; clear x; rotate_left; clear_value x; revert x; intro _ _)
    | (extract_lets +onlyGivenNames x; clear_value x; revert x; intro _)
    | with_reducible first
      | refine keepNvm_forEach ?_ (fun c a hc => ?_)
    | (show Block.nvm _ = _; dsimp -zeta only; done)
    | (show Block.nvm _ = _; dsimp -zeta only; show KeepNvm _ _)
    | with_reducible refine keepNvm_ite ?_ ?_
    | split

theorem Block.hdrParity_nvm (b : Block) (p : Nat) : (Block.hdrParity b p).nvm = b.nvm := by
  suffices h : KeepNvm b.nvm (Block.hdrParity b p) from h
  have h0 : KeepNvm b.nvm b := rfl
  unfold Block.hdrParity
  repeat' first
    | with_reducible assumption
    | (extract_lets +onlyGivenNames x; guard_hyp x : Block := _; refine keepNvm_named (n := b.nvm) x ?_ ?_; dsimp -zeta only [x]; clear x; rotate_left; clear_value x; revert x; intro _ _)
    | (extract_lets +onlyGivenNames x; clear_value x; revert x; intro _)
    | with_reducible first
      | refine keepNvm_forEach ?_ (fun c a hc => ?_)
      | apply keepNvm_eq (Block.wr_nvm ..)
      | apply keepNvm_eq (Block.respond_nvm ..)
      | apply keepNvm_eq (Block.event_nvm ..)
      | apply keepNvm_eq (Block.demandSeen_nvm ..)
    | with_reducible first
      | apply keepNvm_eq (Block.portSettle_nvm ..)
      | apply keepNvm_eq (Block.portFlag_nvm ..)
      | apply keepNvm_eq (Block.dropReq_nvm ..)
    | (show Block.nvm _ = _; dsimp -zeta only; done)
    | (show Block.nvm _ = _; dsimp -zeta only; show KeepNvm _ _)
    | split

theorem Block.enter_nvm (b : Block) (p : Nat) (r : Req) : (Block.enter b p r).1.nvm = b.nvm := by
  suffices h : KeepNvm1 b.nvm (Block.enter b p r) from h
  have h0 : KeepNvm b.nvm b := rfl
  unfold Block.enter
  repeat' first
    | with_reducible assumption
    | (extract_lets +onlyGivenNames x; guard_hyp x : Block := _; refine keepNvm_named (n := b.nvm) x ?_ ?_; dsimp -zeta only [x]; clear x; rotate_left; clear_value x; revert x; intro _ _)
    | (extract_lets +onlyGivenNames x; clear_value x; revert x; intro _)
    | with_reducible first
      | refine keepNvm1_mk ?_
      | refine keepNvm2_mk ?_
      | apply keepNvm_eq (Block.updPort_nvm ..)
    | (show Block.nvm _ = _; dsimp -zeta only; done)
    | (show Block.nvm _ = _; dsimp -zeta only; show KeepNvm _ _)
    | with_reducible refine keepNvm_ite ?_ ?_
    | with_reducible refine keepNvm1_ite ?_ ?_
    | with_reducible refine keepNvm2_ite ?_ ?_
    | split
    | with_reducible refine keepNvm_fst (by assumption) ?_
    | with_reducible refine keepNvm_snd (by assumption) ?_
    | assumption

theorem Block.header_nvm (b : Block) (p : Nat) (h : Header) (op : ReqOp) : (Block.header b p h op).nvm = b.nvm := by
  suffices h : KeepNvm b.nvm (Block.header b p h op) from h
  have h0 : KeepNvm b.nvm b := rfl
  unfold Block.header
  repeat' first
    | with_reducible assumption
    | (extract_lets +onlyGivenNames x; guard_hyp x : Block × _ := _; refine keepNvm1_named (n := b.nvm) x ?_ ?_; dsimp -zeta only [x]; clear x; rotate_left; clear_value x; revert x; intro _ _)
    | (extract_lets +onlyGivenNames x; guard_hyp x : Block := _; refine keepNvm_named (n := b.nvm) x ?_ ?_; dsimp -zeta only [x]; clear x; rotate_left; clear_value x; revert x; intro _ _)
    | (extract_lets +onlyGivenNames x; clear_value x; revert x; intro _)
    | with_reducible first
      | refine keepNvm1_mk ?_
      | refine keepNvm2_mk ?_
      | apply keepNvm_eq (Block.bump_nvm ..)
      | apply keepNvm_eq (Block.newId_nvm ..)
      | apply keepNvm_eq (Block.count_nvm ..)
    | with_reducible first
      | apply keepNvm_eq (Block.respondAll_nvm ..)
      | apply keepNvm_eq (Block.lookup_nvm ..)
      | apply keepNvm_eq (Block.reservedAccess_nvm ..)
      | apply keepNvm_eq (Block.portFlag_nvm ..)
      | apply keepNvm_eq (Block.hdrParity_nvm ..)
    | with_reducible first
      | apply keepNvm_eq (Block.enter_nvm ..)
    | (show Block.nvm _ = _; dsimp -zeta only; done)
    | (show Block.nvm _ = _; dsimp -zeta only; show KeepNvm _ _)
    | with_reducible refine keepNvm_ite ?_ ?_
    | with_reducible refine keepNvm1_ite ?_ ?_
    | with_reducible refine keepNvm2_ite ?_ ?_
    | split
    | with_reducible refine keepNvm_fst (by assumption) ?_
    | with_reducible refine keepNvm_snd (by assumption) ?_
    | assumption

theorem Block.badOpcode_nvm (b : Block) (p : Nat) (h : Header) (opcode : Nat) : (Block.badOpcode b p h opcode).nvm = b.nvm := by
  suffices h : KeepNvm b.nvm (Block.badOpcode b p h opcode) from h
  have h0 : KeepNvm b.nvm b := rfl
  unfold Block.badOpcode
  repeat' first
    | with_reducible assumption
    | (extract_lets +onlyGivenNames x; guard_hyp x : Block × _ := _; refine keepNvm1_named (n := b.nvm) x ?_ ?_; dsimp -zeta only [x]; clear x; rotate_left; clear_value x; revert x; intro _ _)
    | (extract_lets +onlyGivenNames x; guard_hyp x : Block := _; refine keepNvm_named (n := b.nvm) x ?_ ?_; dsimp -zeta only [x]; clear x; rotate_left; clear_value x; revert x; intro _ _)
    | (extract_lets +onlyGivenNames x; clear_value x; revert x; intro _)
    | with_reducible first
      | refine keepNvm1_mk ?_
      | refine keepNvm2_mk ?_
      | apply keepNvm_eq (Block.newId_nvm ..)
      | apply keepNvm_eq (Block.count_nvm ..)
      | apply keepNvm_eq (Block.respondAll_nvm ..)
    | with_reducible first
      | apply keepNvm_eq (Block.event_nvm ..)
      | apply keepNvm_eq (Block.portFlag_nvm ..)
      | apply keepNvm_eq (Block.hdrParity_nvm ..)
      | apply keepNvm_eq (Block.enter_nvm ..)
    | (show Block.nvm _ = _; dsimp -zeta only; done)
    | (show Block.nvm _ = _; dsimp -zeta only; show KeepNvm _ _)
    | with_reducible refine keepNvm_ite ?_ ?_
    | with_reducible refine keepNvm1_ite ?_ ?_
    | with_reducible refine keepNvm2_ite ?_ ?_
    | split
    | with_reducible refine keepNvm_fst (by assumption) ?_
    | with_reducible refine keepNvm_snd (by assumption) ?_
    | assumption

theorem Block.dataParity_nvm (b : Block) (p : Nat) (dpa : Option Nat) : (Block.dataParity b p dpa).nvm = b.nvm := by
  suffices h : KeepNvm b.nvm (Block.dataParity b p dpa) from h
  have h0 : KeepNvm b.nvm b := rfl
  unfold Block.dataParity
  repeat' first
    | with_reducible assumption
    | (extract_lets +onlyGivenNames x; guard_hyp x : Block := _; refine keepNvm_named (n := b.nvm) x ?_ ?_; dsimp -zeta only [x]; clear x; rotate_left; clear_value x; revert x; intro _ _)
    | (extract_lets +onlyGivenNames x; clear_value x; revert x; intro _)
    | with_reducible first
      | apply keepNvm_eq (Block.event_nvm ..)
      | apply keepNvm_eq (Block.portFlag_nvm ..)
    | (show Block.nvm _ = _; dsimp -zeta only; done)
    | (show Block.nvm _ = _; dsimp -zeta only; show KeepNvm _ _)
    | split

theorem Block.dataBeat_nvm (b : Block) (p : Nat) (d : DataBeat) : (Block.dataBeat b p d).nvm = b.nvm := by
  suffices h : KeepNvm b.nvm (Block.dataBeat b p d) from h
  have h0 : KeepNvm b.nvm b := rfl
  unfold Block.dataBeat
  repeat' first
    | with_reducible assumption
    | (extract_lets +onlyGivenNames x; guard_hyp x : Block × _ := _; refine keepNvm1_named (n := b.nvm) x ?_ ?_; dsimp -zeta only [x]; clear x; rotate_left; clear_value x; revert x; intro _ _)
    | (extract_lets +onlyGivenNames x; guard_hyp x : Block := _; refine keepNvm_named (n := b.nvm) x ?_ ?_; dsimp -zeta only [x]; clear x; rotate_left; clear_value x; revert x; intro _ _)
    | (extract_lets +onlyGivenNames x; clear_value x; revert x; intro _)
    | with_reducible first
      | refine keepNvm1_mk ?_
      | refine keepNvm2_mk ?_
      | apply keepNvm_eq (Block.updPort_nvm ..)
      | apply keepNvm_eq (Block.updSlice_nvm ..)
      | apply keepNvm_eq (Block.count_nvm ..)
    | with_reducible first
      | apply keepNvm_eq (Block.sliceAccess_nvm ..)
      | apply keepNvm_eq (Block.mapReq_nvm ..)
      | apply keepNvm_eq (Block.dataParity_nvm ..)
    | (show Block.nvm _ = _; dsimp -zeta only; done)
    | (show Block.nvm _ = _; dsimp -zeta only; show KeepNvm _ _)
    | with_reducible refine keepNvm_ite ?_ ?_
    | with_reducible refine keepNvm1_ite ?_ ?_
    | with_reducible refine keepNvm2_ite ?_ ?_
    | split
    | with_reducible refine keepNvm_fst (by assumption) ?_
    | with_reducible refine keepNvm_snd (by assumption) ?_
    | assumption

theorem Block.rspTransfer_nvm (b : Block) (p : Nat) : (Block.rspTransfer b p).nvm = b.nvm := by
  suffices h : KeepNvm b.nvm (Block.rspTransfer b p) from h
  have h0 : KeepNvm b.nvm b := rfl
  unfold Block.rspTransfer
  repeat' first
    | with_reducible assumption
    | (extract_lets +onlyGivenNames x; guard_hyp x : Block × _ := _; refine keepNvm1_named (n := b.nvm) x ?_ ?_; dsimp -zeta only [x]; clear x; rotate_left; clear_value x; revert x; intro _ _)
    | (extract_lets +onlyGivenNames x; guard_hyp x : Block := _; refine keepNvm_named (n := b.nvm) x ?_ ?_; dsimp -zeta only [x]; clear x; rotate_left; clear_value x; revert x; intro _ _)
    | (extract_lets +onlyGivenNames x; clear_value x; revert x; intro _)
    | with_reducible first
      | refine keepNvm1_mk ?_
      | refine keepNvm2_mk ?_
      | apply keepNvm_eq (Block.updPort_nvm ..)
      | apply keepNvm_eq (Block.draw_nvm ..)
      | apply keepNvm_eq (Block.count_nvm ..)
    | with_reducible first
      | apply keepNvm_eq (Block.presentHead_nvm ..)
      | apply keepNvm_eq (Block.portSettle_nvm ..)
    | (show Block.nvm _ = _; dsimp -zeta only; done)
    | (show Block.nvm _ = _; dsimp -zeta only; show KeepNvm _ _)
    | with_reducible refine keepNvm_ite ?_ ?_
    | with_reducible refine keepNvm1_ite ?_ ?_
    | with_reducible refine keepNvm2_ite ?_ ?_
    | split
    | with_reducible refine keepNvm_fst (by assumption) ?_
    | with_reducible refine keepNvm_snd (by assumption) ?_
    | assumption

end Sys2Proof.Machine
end

