-- ==== Sys2Proof/Laws/Nvm/Arbiter.lean ====
section
/-! SUPPORT. No operation of Machine/Arbiter.lean changes the non-volatile store, but for those named. -/

namespace Sys2Proof.Machine

theorem Block.windowBoundary_nvm (b : Block) (own : Bool) : (Block.windowBoundary b own).nvm = b.nvm := by
  suffices h : KeepNvm b.nvm (Block.windowBoundary b own) from h
  have h0 : KeepNvm b.nvm b := rfl
  unfold Block.windowBoundary
  repeat' first
    | with_reducible assumption
    | with_reducible first
      | apply keepNvm_eq (Block.reguBoundary_nvm ..)
      | apply keepNvm_eq (Block.demandSeen_nvm ..)
    | (show Block.nvm _ = _; dsimp -zeta only; done)
    | (show Block.nvm _ = _; dsimp -zeta only; show KeepNvm _ _)
    | split

theorem Block.arbitrate_nvm (b : Block) (c lag : Nat) : (Block.arbitrate b c lag).nvm = b.nvm := by
  suffices h : KeepNvm b.nvm (Block.arbitrate b c lag) from h
  have h0 : KeepNvm b.nvm b := rfl
  unfold Block.arbitrate
  repeat' first
    | with_reducible assumption
    | (extract_lets +onlyGivenNames x; guard_hyp x : Block := _; refine keepNvm_named (n := b.nvm) x ?_ ?_; dsimp -zeta only [x]; clear x; rotate_left; clear_value x; revert x; intro _ _)
    | (extract_lets +onlyGivenNames x; clear_value x; revert x; intro _)
    | with_reducible first
      | refine keepNvm_forEach ?_ (fun c a hc => ?_)
      | refine keepNvm1_mk ?_
      | refine keepNvm2_mk ?_
      | apply keepNvm_eq (Block.updSlice_nvm ..)
      | apply keepNvm_eq (Block.count_nvm ..)
    | with_reducible first
      | apply keepNvm_eq (Block.sliceAccess_nvm ..)
      | apply keepNvm_eq (Block.reguGrant_nvm ..)
      | apply keepNvm_eq (Block.demandSeen_nvm ..)
    | (show Block.nvm _ = _; dsimp -zeta only; done)
    | (show Block.nvm _ = _; dsimp -zeta only; show KeepNvm _ _)
    | with_reducible refine keepNvm_ite ?_ ?_
    | with_reducible refine keepNvm1_ite ?_ ?_
    | with_reducible refine keepNvm2_ite ?_ ?_
    | split
    | with_reducible refine keepNvm_fst (by assumption) ?_
    | with_reducible refine keepNvm_snd (by assumption) ?_
    | assumption

theorem Block.cutoff_nvm (b : Block) (c : Nat) : (Block.cutoff b c).nvm = b.nvm := by
  suffices h : KeepNvm b.nvm (Block.cutoff b c) from h
  have h0 : KeepNvm b.nvm b := rfl
  unfold Block.cutoff
  repeat' first
    | with_reducible assumption
    | (extract_lets +onlyGivenNames x; guard_hyp x : Block := _; refine keepNvm_named (n := b.nvm) x ?_ ?_; dsimp -zeta only [x]; clear x; rotate_left; clear_value x; revert x; intro _ _)
    | (extract_lets +onlyGivenNames x; clear_value x; revert x; intro _)
    | with_reducible first
      | apply keepNvm_eq (Block.wr_nvm ..)
      | apply keepNvm_eq (Block.bump_nvm ..)
      | apply keepNvm_eq (Block.setBitOf_nvm ..)
      | apply keepNvm_eq (Block.intr_nvm ..)
      | apply keepNvm_eq (Block.updSlice_nvm ..)
    | with_reducible first
      | apply keepNvm_eq (Block.count_nvm ..)
      | apply keepNvm_eq (Block.respondAll_nvm ..)
      | apply keepNvm_eq (Block.event_nvm ..)
    | (show Block.nvm _ = _; dsimp -zeta only; done)
    | (show Block.nvm _ = _; dsimp -zeta only; show KeepNvm _ _)
    | split

theorem Block.cutoffMask_nvm (b : Block) (mask : Nat) : (Block.cutoffMask b mask).nvm = b.nvm := by
  suffices h : KeepNvm b.nvm (Block.cutoffMask b mask) from h
  have h0 : KeepNvm b.nvm b := rfl
  unfold Block.cutoffMask
  repeat' first
    | with_reducible assumption
    | with_reducible first
      | refine keepNvm_forEach ?_ (fun c a hc => ?_)
      | apply keepNvm_eq (Block.cutoff_nvm ..)
    | (show Block.nvm _ = _; dsimp -zeta only; done)
    | (show Block.nvm _ = _; dsimp -zeta only; show KeepNvm _ _)
    | with_reducible refine keepNvm_ite ?_ ?_
    | split

theorem Block.arbCommit_nvm (b : Block) : (Block.arbCommit b).nvm = b.nvm := by
  suffices h : KeepNvm b.nvm (Block.arbCommit b) from h
  have h0 : KeepNvm b.nvm b := rfl
  unfold Block.arbCommit
  repeat' first
    | with_reducible assumption
    | (extract_lets +onlyGivenNames x; guard_hyp x : Block := _; refine keepNvm_named (n := b.nvm) x ?_ ?_; dsimp -zeta only [x]; clear x; rotate_left; clear_value x; revert x; intro _ _)
    | (extract_lets +onlyGivenNames x; clear_value x; revert x; intro _)
    | with_reducible first
      | apply keepNvm_eq (Block.wr_nvm ..)
    | (show Block.nvm _ = _; dsimp -zeta only; done)
    | (show Block.nvm _ = _; dsimp -zeta only; show KeepNvm _ _)
    | split

end Sys2Proof.Machine
end

