-- ==== Sys2Proof/Laws/Nvm/Scrub.lean ====
section
/-! SUPPORT. No operation of Machine/Scrub.lean changes the non-volatile store, but for those named. -/

namespace Sys2Proof.Machine

theorem Block.passBegin_nvm (b : Block) (k : Nat) : (Block.passBegin b k).nvm = b.nvm := by
  suffices h : KeepNvm b.nvm (Block.passBegin b k) from h
  have h0 : KeepNvm b.nvm b := rfl
  unfold Block.passBegin
  repeat' first
    | with_reducible assumption
    | (extract_lets +onlyGivenNames x; guard_hyp x : Block := _; refine keepNvm_named (n := b.nvm) x ?_ ?_; dsimp -zeta only [x]; clear x; rotate_left; clear_value x; revert x; intro _ _)
    | (extract_lets +onlyGivenNames x; clear_value x; revert x; intro _)
    | with_reducible first
      | refine keepNvm_forEach ?_ (fun c a hc => ?_)
      | apply keepNvm_eq (Block.wr_nvm ..)
      | apply keepNvm_eq (Block.clearBitOf_nvm ..)
    | (show Block.nvm _ = _; dsimp -zeta only; done)
    | (show Block.nvm _ = _; dsimp -zeta only; show KeepNvm _ _)
    | split

theorem Block.passFinish_nvm (b : Block) (outcome : Nat) : (Block.passFinish b outcome).nvm = b.nvm := by
  suffices h : KeepNvm b.nvm (Block.passFinish b outcome) from h
  have h0 : KeepNvm b.nvm b := rfl
  unfold Block.passFinish
  repeat' first
    | with_reducible assumption
    | (extract_lets +onlyGivenNames x; guard_hyp x : Block := _; refine keepNvm_named (n := b.nvm) x ?_ ?_; dsimp -zeta only [x]; clear x; rotate_left; clear_value x; revert x; intro _ _)
    | (extract_lets +onlyGivenNames x; clear_value x; revert x; intro _)
    | with_reducible first
      | apply keepNvm_eq (Block.wr_nvm ..)
      | apply keepNvm_eq (Block.intr_nvm ..)
    | (show Block.nvm _ = _; dsimp -zeta only; done)
    | (show Block.nvm _ = _; dsimp -zeta only; show KeepNvm _ _)
    | with_reducible refine keepNvm_ite ?_ ?_
    | split

theorem Block.passNext_nvm (b : Block) : (Block.passNext b).nvm = b.nvm := by
  suffices h : KeepNvm b.nvm (Block.passNext b) from h
  have h0 : KeepNvm b.nvm b := rfl
  unfold Block.passNext
  repeat' first
    | with_reducible assumption
    | (extract_lets +onlyGivenNames x; guard_hyp x : Block := _; refine keepNvm_named (n := b.nvm) x ?_ ?_; dsimp -zeta only [x]; clear x; rotate_left; clear_value x; revert x; intro _ _)
    | (extract_lets +onlyGivenNames x; clear_value x; revert x; intro _)
    | with_reducible first
      | refine keepNvm_forEach ?_ (fun c a hc => ?_)
      | apply keepNvm_eq (Block.passBegin_nvm ..)
      | apply keepNvm_eq (Block.passFinish_nvm ..)
    | (show Block.nvm _ = _; dsimp -zeta only; done)
    | (show Block.nvm _ = _; dsimp -zeta only; show KeepNvm _ _)
    | with_reducible refine keepNvm_ite ?_ ?_
    | split

theorem Block.passEnd_nvm (b : Block) (outcome : Nat) : (Block.passEnd b outcome).nvm = b.nvm := by
  suffices h : KeepNvm b.nvm (Block.passEnd b outcome) from h
  have h0 : KeepNvm b.nvm b := rfl
  unfold Block.passEnd
  repeat' first
    | with_reducible assumption
    | with_reducible first
      | apply keepNvm_eq (Block.passFinish_nvm ..)
      | apply keepNvm_eq (Block.passNext_nvm ..)
    | (show Block.nvm _ = _; dsimp -zeta only; done)
    | (show Block.nvm _ = _; dsimp -zeta only; show KeepNvm _ _)
    | split

theorem Block.passAsk_nvm (b : Block) (k : Nat) : (Block.passAsk b k).1.nvm = b.nvm := by
  suffices h : KeepNvm1 b.nvm (Block.passAsk b k) from h
  have h0 : KeepNvm b.nvm b := rfl
  unfold Block.passAsk
  repeat' first
    | with_reducible assumption
    | with_reducible first
      | refine keepNvm1_mk ?_
      | refine keepNvm2_mk ?_
      | apply keepNvm_eq (Block.setBitOf_nvm ..)
      | apply keepNvm_eq (Block.passNext_nvm ..)
    | (show Block.nvm _ = _; dsimp -zeta only; done)
    | (show Block.nvm _ = _; dsimp -zeta only; show KeepNvm _ _)
    | with_reducible refine keepNvm_ite ?_ ?_
    | with_reducible refine keepNvm1_ite ?_ ?_
    | with_reducible refine keepNvm2_ite ?_ ?_
    | split
    | with_reducible refine keepNvm_fst (by assumption) ?_
    | with_reducible refine keepNvm_snd (by assumption) ?_
    | assumption

theorem Block.passAbort_nvm (b : Block) : (Block.passAbort b).nvm = b.nvm := by
  suffices h : KeepNvm b.nvm (Block.passAbort b) from h
  have h0 : KeepNvm b.nvm b := rfl
  unfold Block.passAbort
  repeat' first
    | with_reducible assumption
    | with_reducible first
      | apply keepNvm_eq (Block.passEnd_nvm ..)
    | (show Block.nvm _ = _; dsimp -zeta only; done)
    | (show Block.nvm _ = _; dsimp -zeta only; show KeepNvm _ _)
    | with_reducible refine keepNvm_ite ?_ ?_
    | split

theorem Block.passS3_nvm (b : Block) : (Block.passS3 b).nvm = b.nvm := by
  suffices h : KeepNvm b.nvm (Block.passS3 b) from h
  have h0 : KeepNvm b.nvm b := rfl
  unfold Block.passS3
  repeat' first
    | with_reducible assumption
    | with_reducible first
      | apply keepNvm_eq (Block.wr_nvm ..)
      | apply keepNvm_eq (Block.passFinish_nvm ..)
    | (show Block.nvm _ = _; dsimp -zeta only; done)
    | (show Block.nvm _ = _; dsimp -zeta only; show KeepNvm _ _)
    | with_reducible refine keepNvm_ite ?_ ?_
    | split

theorem Block.sumAdd_nvm (b : Block) (w n : Nat) : (Block.sumAdd b w n).nvm = b.nvm := by
  suffices h : KeepNvm b.nvm (Block.sumAdd b w n) from h
  have h0 : KeepNvm b.nvm b := rfl
  unfold Block.sumAdd
  repeat' first
    | with_reducible assumption
    | with_reducible first
      | apply keepNvm_eq (Block.addSat_nvm ..)
    | (show Block.nvm _ = _; dsimp -zeta only; done)
    | (show Block.nvm _ = _; dsimp -zeta only; show KeepNvm _ _)
    | split

theorem Block.scrubSkip_nvm (b : Block) (to_ : Nat) : (Block.scrubSkip b to_).nvm = b.nvm := by
  suffices h : KeepNvm b.nvm (Block.scrubSkip b to_) from h
  have h0 : KeepNvm b.nvm b := rfl
  unfold Block.scrubSkip
  repeat' first
    | with_reducible assumption
    | (extract_lets +onlyGivenNames x; guard_hyp x : Block := _; refine keepNvm_named (n := b.nvm) x ?_ ?_; dsimp -zeta only [x]; clear x; rotate_left; clear_value x; revert x; intro _ _)
    | (extract_lets +onlyGivenNames x; clear_value x; revert x; intro _)
    | with_reducible first
      | apply keepNvm_eq (Block.passEnd_nvm ..)
      | apply keepNvm_eq (Block.sumAdd_nvm ..)
    | (show Block.nvm _ = _; dsimp -zeta only; done)
    | (show Block.nvm _ = _; dsimp -zeta only; show KeepNvm _ _)
    | with_reducible refine keepNvm_ite ?_ ?_
    | split

theorem Block.scrubRead_nvm (b : Block) (a idx : Nat) (frames : List Route) : (Block.scrubRead b a idx frames).nvm = b.nvm := by
  suffices h : KeepNvm b.nvm (Block.scrubRead b a idx frames) from h
  have h0 : KeepNvm b.nvm b := rfl
  unfold Block.scrubRead
  repeat' first
    | with_reducible assumption
    | (extract_lets +onlyGivenNames x; guard_hyp x : Block × _ := _; refine keepNvm1_named (n := b.nvm) x ?_ ?_; dsimp -zeta only [x]; clear x; rotate_left; clear_value x; revert x; intro _ _)
    | (extract_lets +onlyGivenNames x; guard_hyp x : Block := _; refine keepNvm_named (n := b.nvm) x ?_ ?_; dsimp -zeta only [x]; clear x; rotate_left; clear_value x; revert x; intro _ _)
    | (extract_lets +onlyGivenNames x; clear_value x; revert x; intro _)
    | with_reducible first
      | refine keepNvm1_mk ?_
      | refine keepNvm2_mk ?_
      | apply keepNvm_eq (Block.wr_nvm ..)
      | apply keepNvm_eq (Block.newId_nvm ..)
      | apply keepNvm_eq (Block.sendReq_nvm ..)
    | with_reducible first
      | apply keepNvm_eq (Block.scrubSkip_nvm ..)
    | (show Block.nvm _ = _; dsimp -zeta only; done)
    | (show Block.nvm _ = _; dsimp -zeta only; show KeepNvm _ _)
    | with_reducible refine keepNvm_ite ?_ ?_
    | with_reducible refine keepNvm1_ite ?_ ?_
    | with_reducible refine keepNvm2_ite ?_ ?_
    | split
    | with_reducible refine keepNvm_fst (by assumption) ?_
    | with_reducible refine keepNvm_snd (by assumption) ?_
    | assumption

theorem Block.scrubLine_nvm (b : Block) (a : Nat) (d : Desc) : (Block.scrubLine b a d).nvm = b.nvm := by
  suffices h : KeepNvm b.nvm (Block.scrubLine b a d) from h
  have h0 : KeepNvm b.nvm b := rfl
  unfold Block.scrubLine
  repeat' first
    | with_reducible assumption
    | (extract_lets +onlyGivenNames x; guard_hyp x : Block := _; refine keepNvm_named (n := b.nvm) x ?_ ?_; dsimp -zeta only [x]; clear x; rotate_left; clear_value x; revert x; intro _ _)
    | (extract_lets +onlyGivenNames x; clear_value x; revert x; intro _)
    | with_reducible first
      | apply keepNvm_eq (Block.scrubSkip_nvm ..)
      | apply keepNvm_eq (Block.scrubRead_nvm ..)
    | (show Block.nvm _ = _; dsimp -zeta only; done)
    | (show Block.nvm _ = _; dsimp -zeta only; show KeepNvm _ _)
    | with_reducible refine keepNvm_ite ?_ ?_
    | split

theorem Block.scrubGo_nvm (b : Block) (d : Desc) : (Block.scrubGo b d).nvm = b.nvm := by
  suffices h : KeepNvm b.nvm (Block.scrubGo b d) from h
  have h0 : KeepNvm b.nvm b := rfl
  unfold Block.scrubGo
  repeat' first
    | with_reducible assumption
    | (extract_lets +onlyGivenNames x; guard_hyp x : Block := _; refine keepNvm_named (n := b.nvm) x ?_ ?_; dsimp -zeta only [x]; clear x; rotate_left; clear_value x; revert x; intro _ _)
    | (extract_lets +onlyGivenNames x; clear_value x; revert x; intro _)
    | with_reducible first
      | apply keepNvm_eq (Block.scrubLine_nvm ..)
    | (show Block.nvm _ = _; dsimp -zeta only; done)
    | (show Block.nvm _ = _; dsimp -zeta only; show KeepNvm _ _)
    | with_reducible refine keepNvm_ite ?_ ?_
    | split

theorem Block.scrubIssue_nvm (b : Block) : (Block.scrubIssue b).nvm = b.nvm := by
  suffices h : KeepNvm b.nvm (Block.scrubIssue b) from h
  have h0 : KeepNvm b.nvm b := rfl
  unfold Block.scrubIssue
  repeat' first
    | with_reducible assumption
    | (extract_lets +onlyGivenNames x; guard_hyp x : Block × _ := _; refine keepNvm1_named (n := b.nvm) x ?_ ?_; dsimp -zeta only [x]; clear x; rotate_left; clear_value x; revert x; intro _ _)
    | (extract_lets +onlyGivenNames x; guard_hyp x : Block := _; refine keepNvm_named (n := b.nvm) x ?_ ?_; dsimp -zeta only [x]; clear x; rotate_left; clear_value x; revert x; intro _ _)
    | (extract_lets +onlyGivenNames x; clear_value x; revert x; intro _)
    | with_reducible first
      | refine keepNvm1_mk ?_
      | refine keepNvm2_mk ?_
      | apply keepNvm_eq (Block.askDesc_nvm ..)
      | apply keepNvm_eq (Block.scrubSkip_nvm ..)
      | apply keepNvm_eq (Block.scrubRead_nvm ..)
    | with_reducible first
      | apply keepNvm_eq (Block.scrubGo_nvm ..)
    | (show Block.nvm _ = _; dsimp -zeta only; done)
    | (show Block.nvm _ = _; dsimp -zeta only; show KeepNvm _ _)
    | with_reducible refine keepNvm_ite ?_ ?_
    | with_reducible refine keepNvm1_ite ?_ ?_
    | with_reducible refine keepNvm2_ite ?_ ?_
    | split
    | with_reducible refine keepNvm_fst (by assumption) ?_
    | with_reducible refine keepNvm_snd (by assumption) ?_
    | assumption

theorem Block.scrubUe_nvm (b : Block) (a : Nat) : (Block.scrubUe b a).nvm = b.nvm := by
  suffices h : KeepNvm b.nvm (Block.scrubUe b a) from h
  have h0 : KeepNvm b.nvm b := rfl
  unfold Block.scrubUe
  repeat' first
    | with_reducible assumption
    | (extract_lets +onlyGivenNames x; guard_hyp x : Block := _; refine keepNvm_named (n := b.nvm) x ?_ ?_; dsimp -zeta only [x]; clear x; rotate_left; clear_value x; revert x; intro _ _)
    | (extract_lets +onlyGivenNames x; refine keepNvm_fn x ?_; dsimp -zeta only [x]; clear x)
    | (extract_lets +onlyGivenNames x; refine keepNvm_fn2 x ?_; dsimp -zeta only [x]; clear x)
    | (extract_lets +onlyGivenNames x; refine keepNvm_fn3 x ?_; dsimp -zeta only [x]; clear x)
    | (extract_lets +onlyGivenNames x; refine keepNvm_fn4 x ?_; dsimp -zeta only [x]; clear x)
    | (extract_lets +onlyGivenNames x; clear_value x; revert x; intro _)
    | with_reducible first
      | apply keepNvm_eq (Block.wr_nvm ..)
      | apply keepNvm_eq (Block.sumAdd_nvm ..)
    | (show Block.nvm _ = _; dsimp -zeta only; done)
    | (show Block.nvm _ = _; dsimp -zeta only; show KeepNvm _ _)
    | with_reducible refine keepNvm_ite ?_ ?_
    | split

theorem Block.sumChecked_nvm (b : Block) (n : Nat) : (Block.sumChecked b n).nvm = b.nvm := by
  suffices h : KeepNvm b.nvm (Block.sumChecked b n) from h
  have h0 : KeepNvm b.nvm b := rfl
  unfold Block.sumChecked
  repeat' first
    | with_reducible assumption
    | (extract_lets +onlyGivenNames x; guard_hyp x : Block := _; refine keepNvm_named (n := b.nvm) x ?_ ?_; dsimp -zeta only [x]; clear x; rotate_left; clear_value x; revert x; intro _ _)
    | (extract_lets +onlyGivenNames x; clear_value x; revert x; intro _)
    | with_reducible first
      | apply keepNvm_eq (Block.wr_nvm ..)
    | (show Block.nvm _ = _; dsimp -zeta only; done)
    | (show Block.nvm _ = _; dsimp -zeta only; show KeepNvm _ _)
    | split

theorem Block.scrubSeen_nvm (b : Block) (addr st : Nat) (erasure : Bool) : (Block.scrubSeen b addr st erasure).nvm = b.nvm := by
  suffices h : KeepNvm b.nvm (Block.scrubSeen b addr st erasure) from h
  have h0 : KeepNvm b.nvm b := rfl
  unfold Block.scrubSeen
  repeat' first
    | with_reducible assumption
    | with_reducible first
      | apply keepNvm_eq (Block.sumAdd_nvm ..)
      | apply keepNvm_eq (Block.scrubUe_nvm ..)
    | (show Block.nvm _ = _; dsimp -zeta only; done)
    | (show Block.nvm _ = _; dsimp -zeta only; show KeepNvm _ _)
    | with_reducible refine keepNvm_ite ?_ ?_
    | split

theorem Block.scrubActed_nvm (b : Block) (sub addr : Nat) (act : ScrubAct) : (Block.scrubActed b sub addr act).nvm = b.nvm := by
  suffices h : KeepNvm b.nvm (Block.scrubActed b sub addr act) from h
  have h0 : KeepNvm b.nvm b := rfl
  unfold Block.scrubActed
  repeat' first
    | with_reducible assumption
    | (extract_lets +onlyGivenNames x; guard_hyp x : Block := _; refine keepNvm_named (n := b.nvm) x ?_ ?_; dsimp -zeta only [x]; clear x; rotate_left; clear_value x; revert x; intro _ _)
    | (extract_lets +onlyGivenNames x; clear_value x; revert x; intro _)
    | with_reducible first
      | apply keepNvm_eq (Block.wr_nvm ..)
      | apply keepNvm_eq (Block.event_nvm ..)
      | apply keepNvm_eq (Block.sumAdd_nvm ..)
    | (show Block.nvm _ = _; dsimp -zeta only; done)
    | (show Block.nvm _ = _; dsimp -zeta only; show KeepNvm _ _)
    | split

theorem Block.scrubFrame_nvm (b : Block) (a id : Nat) (ans : List Intern) (other : List Intern) : (Block.scrubFrame b a id ans other).nvm = b.nvm := by
  suffices h : KeepNvm b.nvm (Block.scrubFrame b a id ans other) from h
  have h0 : KeepNvm b.nvm b := rfl
  unfold Block.scrubFrame
  repeat' first
    | with_reducible assumption
    | (extract_lets +onlyGivenNames x; guard_hyp x : Block := _; refine keepNvm_named (n := b.nvm) x ?_ ?_; dsimp -zeta only [x]; clear x; rotate_left; clear_value x; revert x; intro _ _)
    | (extract_lets +onlyGivenNames x; refine keepNvm_fn x ?_; dsimp -zeta only [x]; clear x)
    | (extract_lets +onlyGivenNames x; refine keepNvm_fn2 x ?_; dsimp -zeta only [x]; clear x)
    | (extract_lets +onlyGivenNames x; refine keepNvm_fn3 x ?_; dsimp -zeta only [x]; clear x)
    | (extract_lets +onlyGivenNames x; refine keepNvm_fn4 x ?_; dsimp -zeta only [x]; clear x)
    | (extract_lets +onlyGivenNames x; clear_value x; revert x; intro _)
    | with_reducible first
      | refine keepNvm_forEach ?_ (fun c a hc => ?_)
      | refine keepNvm1_mk ?_
      | refine keepNvm2_mk ?_
      | apply keepNvm_eq (Block.newId_nvm ..)
      | apply keepNvm_eq (Block.afterLookup_nvm ..)
    | with_reducible first
      | apply keepNvm_eq (Block.sumChecked_nvm ..)
      | apply keepNvm_eq (Block.scrubSeen_nvm ..)
      | apply keepNvm_eq (Block.scrubActed_nvm ..)
    | (show Block.nvm _ = _; dsimp -zeta only; done)
    | (show Block.nvm _ = _; dsimp -zeta only; show KeepNvm _ _)
    | with_reducible refine keepNvm_ite ?_ ?_
    | with_reducible refine keepNvm1_ite ?_ ?_
    | with_reducible refine keepNvm2_ite ?_ ?_
    | split
    | with_reducible refine keepNvm_fst (by assumption) ?_
    | with_reducible refine keepNvm_snd (by assumption) ?_
    | assumption

theorem Block.scrubReturn_nvm (b : Block) : (Block.scrubReturn b).nvm = b.nvm := by
  suffices h : KeepNvm b.nvm (Block.scrubReturn b) from h
  have h0 : KeepNvm b.nvm b := rfl
  unfold Block.scrubReturn
  repeat' first
    | with_reducible assumption
    | (extract_lets +onlyGivenNames x; guard_hyp x : Block × _ := _; refine keepNvm1_named (n := b.nvm) x ?_ ?_; dsimp -zeta only [x]; clear x; rotate_left; clear_value x; revert x; intro _ _)
    | (extract_lets +onlyGivenNames x; guard_hyp x : Block := _; refine keepNvm_named (n := b.nvm) x ?_ ?_; dsimp -zeta only [x]; clear x; rotate_left; clear_value x; revert x; intro _ _)
    | (extract_lets +onlyGivenNames x; refine keepNvm_fn x ?_; dsimp -zeta only [x]; clear x)
    | (extract_lets +onlyGivenNames x; refine keepNvm_fn2 x ?_; dsimp -zeta only [x]; clear x)
    | (extract_lets +onlyGivenNames x; refine keepNvm_fn3 x ?_; dsimp -zeta only [x]; clear x)
    | (extract_lets +onlyGivenNames x; refine keepNvm_fn4 x ?_; dsimp -zeta only [x]; clear x)
    | (extract_lets +onlyGivenNames x; clear_value x; revert x; intro _)
    | with_reducible first
      | refine keepNvm1_mk ?_
      | refine keepNvm2_mk ?_
      | apply keepNvm_eq (Block.passEnd_nvm ..)
      | apply keepNvm_eq (Block.sumAdd_nvm ..)
      | apply keepNvm_eq (Block.scrubFrame_nvm ..)
    | (show Block.nvm _ = _; dsimp -zeta only; done)
    | (show Block.nvm _ = _; dsimp -zeta only; show KeepNvm _ _)
    | with_reducible refine keepNvm_ite ?_ ?_
    | with_reducible refine keepNvm1_ite ?_ ?_
    | with_reducible refine keepNvm2_ite ?_ ?_
    | split
    | with_reducible refine keepNvm_fst (by assumption) ?_
    | with_reducible refine keepNvm_snd (by assumption) ?_
    | assumption

end Sys2Proof.Machine
end

