-- ==== Sys2Proof/Laws/Nvm/Tender.lean ====
section
/-! SUPPORT. No operation of Machine/Tender.lean changes the non-volatile store, but for those named. -/

namespace Sys2Proof.Machine

theorem Block.ringErr_nvm (b : Block) (event : Bool) : (Block.ringErr b event).nvm = b.nvm := by
  suffices h : KeepNvm b.nvm (Block.ringErr b event) from h
  have h0 : KeepNvm b.nvm b := rfl
  unfold Block.ringErr
  repeat' first
    | with_reducible assumption
    | (extract_lets +onlyGivenNames x; guard_hyp x : Block := _; refine keepNvm_named (n := b.nvm) x ?_ ?_; dsimp -zeta only [x]; clear x; rotate_left; clear_value x; revert x; intro _ _)
    | (extract_lets +onlyGivenNames x; clear_value x; revert x; intro _)
    | with_reducible first
      | apply keepNvm_eq (Block.wr_nvm ..)
      | apply keepNvm_eq (Block.intr_nvm ..)
      | apply keepNvm_eq (Block.event_nvm ..)
      | apply keepNvm_eq (Block.eventPlain_nvm ..)
    | (show Block.nvm _ = _; dsimp -zeta only; done)
    | (show Block.nvm _ = _; dsimp -zeta only; show KeepNvm _ _)
    | with_reducible refine keepNvm_ite ?_ ?_
    | split

theorem Block.tndWay_nvm (b : Block) (r : Req) : (Block.tndWay b r).1.nvm = b.nvm := by
  suffices h : KeepNvm1 b.nvm (Block.tndWay b r) from h
  have h0 : KeepNvm b.nvm b := rfl
  unfold Block.tndWay
  repeat' first
    | with_reducible assumption
    | (extract_lets +onlyGivenNames x; guard_hyp x : Block := _; refine keepNvm_named (n := b.nvm) x ?_ ?_; dsimp -zeta only [x]; clear x; rotate_left; clear_value x; revert x; intro _ _)
    | (extract_lets +onlyGivenNames x; clear_value x; revert x; intro _)
    | with_reducible first
      | refine keepNvm1_mk ?_
      | refine keepNvm2_mk ?_
      | apply keepNvm_eq (Block.bump_nvm ..)
      | apply keepNvm_eq (Block.askDesc_nvm ..)
    | (show Block.nvm _ = _; dsimp -zeta only; done)
    | (show Block.nvm _ = _; dsimp -zeta only; show KeepNvm _ _)
    | with_reducible refine keepNvm_ite ?_ ?_
    | with_reducible refine keepNvm1_ite ?_ ?_
    | with_reducible refine keepNvm2_ite ?_ ?_
    | split
    | with_reducible refine keepNvm_fst (by assumption) ?_
    | with_reducible refine keepNvm_snd (by assumption) ?_
    | assumption

theorem Block.sendRecord_nvm (b : Block) (n : Nat) : (Block.sendRecord b n).nvm = b.nvm := by
  suffices h : KeepNvm b.nvm (Block.sendRecord b n) from h
  have h0 : KeepNvm b.nvm b := rfl
  unfold Block.sendRecord
  repeat' first
    | with_reducible assumption
    | (extract_lets +onlyGivenNames x; guard_hyp x : Block := _; refine keepNvm_named (n := b.nvm) x ?_ ?_; dsimp -zeta only [x]; clear x; rotate_left; clear_value x; revert x; intro _ _)
    | (extract_lets +onlyGivenNames x; refine keepNvm_fn x ?_; dsimp -zeta only [x]; clear x)
    | (extract_lets +onlyGivenNames x; refine keepNvm_fn2 x ?_; dsimp -zeta only [x]; clear x)
    | (extract_lets +onlyGivenNames x; refine keepNvm_fn3 x ?_; dsimp -zeta only [x]; clear x)
    | (extract_lets +onlyGivenNames x; refine keepNvm_fn4 x ?_; dsimp -zeta only [x]; clear x)
    | (extract_lets +onlyGivenNames x; clear_value x; revert x; intro _)
    | with_reducible first
      | refine keepNvm1_mk ?_
      | refine keepNvm2_mk ?_
      | apply keepNvm_eq (Block.bump_nvm ..)
      | apply keepNvm_eq (Block.newId_nvm ..)
      | apply keepNvm_eq (Block.afterLookup_nvm ..)
    | with_reducible first
      | apply keepNvm_eq (Block.updTnd_nvm ..)
      | apply keepNvm_eq (Block.tndWay_nvm ..)
      | apply keepNvm_eq (Block.finish_nvm ..)
    | (show Block.nvm _ = _; dsimp -zeta only; done)
    | (show Block.nvm _ = _; dsimp -zeta only; show KeepNvm _ _)
    | with_reducible refine keepNvm_ite ?_ ?_
    | with_reducible refine keepNvm1_ite ?_ ?_
    | with_reducible refine keepNvm2_ite ?_ ?_
    | split
    | with_reducible refine keepNvm_fst (by assumption) ?_
    | with_reducible refine keepNvm_snd (by assumption) ?_
    | assumption

theorem Block.reroute_nvm (b : Block) (r : Req) : (Block.reroute b r).nvm = b.nvm := by
  suffices h : KeepNvm b.nvm (Block.reroute b r) from h
  have h0 : KeepNvm b.nvm b := rfl
  unfold Block.reroute
  repeat' first
    | with_reducible assumption
    | with_reducible first
      | apply keepNvm_eq (Block.applyResolved_nvm ..)
      | apply keepNvm_eq (Block.fetchWait_nvm ..)
    | (show Block.nvm _ = _; dsimp -zeta only; done)
    | (show Block.nvm _ = _; dsimp -zeta only; show KeepNvm _ _)
    | with_reducible refine keepNvm_ite ?_ ?_
    | split

theorem Block.unlock_nvm (b : Block) (n : Nat) (moved : Bool) : (Block.unlock b n moved).nvm = b.nvm := by
  suffices h : KeepNvm b.nvm (Block.unlock b n moved) from h
  have h0 : KeepNvm b.nvm b := rfl
  unfold Block.unlock
  repeat' first
    | with_reducible assumption
    | (extract_lets +onlyGivenNames x; guard_hyp x : Block := _; refine keepNvm_named (n := b.nvm) x ?_ ?_; dsimp -zeta only [x]; clear x; rotate_left; clear_value x; revert x; intro _ _)
    | (extract_lets +onlyGivenNames x; refine keepNvm_fn x ?_; dsimp -zeta only [x]; clear x)
    | (extract_lets +onlyGivenNames x; refine keepNvm_fn2 x ?_; dsimp -zeta only [x]; clear x)
    | (extract_lets +onlyGivenNames x; refine keepNvm_fn3 x ?_; dsimp -zeta only [x]; clear x)
    | (extract_lets +onlyGivenNames x; refine keepNvm_fn4 x ?_; dsimp -zeta only [x]; clear x)
    | (extract_lets +onlyGivenNames x; clear_value x; revert x; intro _)
    | with_reducible first
      | refine keepNvm_forEach ?_ (fun c a hc => ?_)
      | apply keepNvm_eq (Block.updTnd_nvm ..)
      | apply keepNvm_eq (Block.reroute_nvm ..)
    | (show Block.nvm _ = _; dsimp -zeta only; done)
    | (show Block.nvm _ = _; dsimp -zeta only; show KeepNvm _ _)
    | with_reducible refine keepNvm_ite ?_ ?_
    | split

theorem Block.finish_nvm (b : Block) (n code : Nat) : (Block.finish b n code).nvm = b.nvm := by
  suffices h : KeepNvm b.nvm (Block.finish b n code) from h
  have h0 : KeepNvm b.nvm b := rfl
  unfold Block.finish
  repeat' first
    | with_reducible assumption
    | (extract_lets +onlyGivenNames x; guard_hyp x : Block := _; refine keepNvm_named (n := b.nvm) x ?_ ?_; dsimp -zeta only [x]; clear x; rotate_left; clear_value x; revert x; intro _ _)
    | (extract_lets +onlyGivenNames x; clear_value x; revert x; intro _)
    | with_reducible first
      | apply keepNvm_eq (Block.eventPlain_nvm ..)
      | apply keepNvm_eq (Block.updTnd_nvm ..)
      | apply keepNvm_eq (Block.sendRecord_nvm ..)
      | apply keepNvm_eq (Block.unlock_nvm ..)
    | (show Block.nvm _ = _; dsimp -zeta only; done)
    | (show Block.nvm _ = _; dsimp -zeta only; show KeepNvm _ _)
    | with_reducible refine keepNvm_ite ?_ ?_
    | split

theorem Block.finishAt_nvm (b : Block) (n code off : Nat) : (Block.finishAt b n code off).nvm = b.nvm := by
  suffices h : KeepNvm b.nvm (Block.finishAt b n code off) from h
  have h0 : KeepNvm b.nvm b := rfl
  unfold Block.finishAt
  repeat' first
    | with_reducible assumption
    | (extract_lets +onlyGivenNames x; guard_hyp x : Block := _; refine keepNvm_named (n := b.nvm) x ?_ ?_; dsimp -zeta only [x]; clear x; rotate_left; clear_value x; revert x; intro _ _)
    | (extract_lets +onlyGivenNames x; clear_value x; revert x; intro _)
    | with_reducible first
      | apply keepNvm_eq (Block.updTnd_nvm ..)
      | apply keepNvm_eq (Block.finish_nvm ..)
    | (show Block.nvm _ = _; dsimp -zeta only; done)
    | (show Block.nvm _ = _; dsimp -zeta only; show KeepNvm _ _)
    | split

theorem Block.recordDone_nvm (b : Block) (n : Nat) : (Block.recordDone b n).nvm = b.nvm := by
  suffices h : KeepNvm b.nvm (Block.recordDone b n) from h
  have h0 : KeepNvm b.nvm b := rfl
  unfold Block.recordDone
  repeat' first
    | with_reducible assumption
    | (extract_lets +onlyGivenNames x; guard_hyp x : Block := _; refine keepNvm_named (n := b.nvm) x ?_ ?_; dsimp -zeta only [x]; clear x; rotate_left; clear_value x; revert x; intro _ _)
    | (extract_lets +onlyGivenNames x; clear_value x; revert x; intro _)
    | with_reducible first
      | refine keepNvm1_mk ?_
      | refine keepNvm2_mk ?_
      | apply keepNvm_eq (Block.wr_nvm ..)
      | apply keepNvm_eq (Block.intr_nvm ..)
      | apply keepNvm_eq (Block.count_nvm ..)
    | with_reducible first
      | apply keepNvm_eq (Block.updTnd_nvm ..)
      | apply keepNvm_eq (Block.ringErr_nvm ..)
    | (show Block.nvm _ = _; dsimp -zeta only; done)
    | (show Block.nvm _ = _; dsimp -zeta only; show KeepNvm _ _)
    | with_reducible refine keepNvm_ite ?_ ?_
    | with_reducible refine keepNvm1_ite ?_ ?_
    | with_reducible refine keepNvm2_ite ?_ ?_
    | split
    | with_reducible refine keepNvm_fst (by assumption) ?_
    | with_reducible refine keepNvm_snd (by assumption) ?_
    | assumption

theorem Block.jobFetch_nvm (b : Block) (n : Nat) : (Block.jobFetch b n).nvm = b.nvm := by
  suffices h : KeepNvm b.nvm (Block.jobFetch b n) from h
  have h0 : KeepNvm b.nvm b := rfl
  unfold Block.jobFetch
  repeat' first
    | with_reducible assumption
    | (extract_lets +onlyGivenNames x; guard_hyp x : Block := _; refine keepNvm_named (n := b.nvm) x ?_ ?_; dsimp -zeta only [x]; clear x; rotate_left; clear_value x; revert x; intro _ _)
    | (extract_lets +onlyGivenNames x; refine keepNvm_fn x ?_; dsimp -zeta only [x]; clear x)
    | (extract_lets +onlyGivenNames x; refine keepNvm_fn2 x ?_; dsimp -zeta only [x]; clear x)
    | (extract_lets +onlyGivenNames x; refine keepNvm_fn3 x ?_; dsimp -zeta only [x]; clear x)
    | (extract_lets +onlyGivenNames x; refine keepNvm_fn4 x ?_; dsimp -zeta only [x]; clear x)
    | (extract_lets +onlyGivenNames x; clear_value x; revert x; intro _)
    | with_reducible first
      | refine keepNvm1_mk ?_
      | refine keepNvm2_mk ?_
      | apply keepNvm_eq (Block.bump_nvm ..)
      | apply keepNvm_eq (Block.newId_nvm ..)
      | apply keepNvm_eq (Block.afterLookup_nvm ..)
    | with_reducible first
      | apply keepNvm_eq (Block.updTnd_nvm ..)
      | apply keepNvm_eq (Block.ringErr_nvm ..)
      | apply keepNvm_eq (Block.tndWay_nvm ..)
    | (show Block.nvm _ = _; dsimp -zeta only; done)
    | (show Block.nvm _ = _; dsimp -zeta only; show KeepNvm _ _)
    | with_reducible refine keepNvm_ite ?_ ?_
    | with_reducible refine keepNvm1_ite ?_ ?_
    | with_reducible refine keepNvm2_ite ?_ ?_
    | split
    | with_reducible refine keepNvm_fst (by assumption) ?_
    | with_reducible refine keepNvm_snd (by assumption) ?_
    | assumption

theorem Block.jobStart_nvm (b : Block) (n : Nat) : (Block.jobStart b n).nvm = b.nvm := by
  suffices h : KeepNvm b.nvm (Block.jobStart b n) from h
  have h0 : KeepNvm b.nvm b := rfl
  unfold Block.jobStart
  repeat' first
    | with_reducible assumption
    | (extract_lets +onlyGivenNames x; guard_hyp x : Block := _; refine keepNvm_named (n := b.nvm) x ?_ ?_; dsimp -zeta only [x]; clear x; rotate_left; clear_value x; revert x; intro _ _)
    | (extract_lets +onlyGivenNames x; refine keepNvm_fn x ?_; dsimp -zeta only [x]; clear x)
    | (extract_lets +onlyGivenNames x; refine keepNvm_fn2 x ?_; dsimp -zeta only [x]; clear x)
    | (extract_lets +onlyGivenNames x; refine keepNvm_fn3 x ?_; dsimp -zeta only [x]; clear x)
    | (extract_lets +onlyGivenNames x; refine keepNvm_fn4 x ?_; dsimp -zeta only [x]; clear x)
    | (extract_lets +onlyGivenNames x; clear_value x; revert x; intro _)
    | with_reducible first
      | apply keepNvm_eq (Block.jobFetch_nvm ..)
    | (show Block.nvm _ = _; dsimp -zeta only; done)
    | (show Block.nvm _ = _; dsimp -zeta only; show KeepNvm _ _)
    | with_reducible refine keepNvm_ite ?_ ?_
    | split

theorem Block.lineDpa0_nvm (b : Block) (n a : Nat) (r : Req) : (Block.lineDpa0 b n a r).1.nvm = b.nvm := by
  suffices h : KeepNvm1 b.nvm (Block.lineDpa0 b n a r) from h
  have h0 : KeepNvm b.nvm b := rfl
  unfold Block.lineDpa0
  repeat' first
    | with_reducible assumption
    | (extract_lets +onlyGivenNames x; guard_hyp x : Block := _; refine keepNvm_named (n := b.nvm) x ?_ ?_; dsimp -zeta only [x]; clear x; rotate_left; clear_value x; revert x; intro _ _)
    | (extract_lets +onlyGivenNames x; clear_value x; revert x; intro _)
    | with_reducible first
      | refine keepNvm1_mk ?_
      | refine keepNvm2_mk ?_
      | apply keepNvm_eq (Block.updTnd_nvm ..)
      | apply keepNvm_eq (Block.tndWay_nvm ..)
    | (show Block.nvm _ = _; dsimp -zeta only; done)
    | (show Block.nvm _ = _; dsimp -zeta only; show KeepNvm _ _)
    | with_reducible refine keepNvm_ite ?_ ?_
    | with_reducible refine keepNvm1_ite ?_ ?_
    | with_reducible refine keepNvm2_ite ?_ ?_
    | split
    | with_reducible refine keepNvm_fst (by assumption) ?_
    | with_reducible refine keepNvm_snd (by assumption) ?_
    | assumption

theorem Block.access_nvm (b : Block) (n off : Nat) (dst : Bool) (op : ReqOp) (ph : LanePh) (f : Req → Req) (skip : Block → Block) (hskip : ∀ b, (skip b).nvm = b.nvm) : (Block.access b n off dst op ph f skip).nvm = b.nvm := by
  suffices h : KeepNvm b.nvm (Block.access b n off dst op ph f skip) from h
  have h0 : KeepNvm b.nvm b := rfl
  unfold Block.access
  repeat' first
    | with_reducible assumption
    | (extract_lets +onlyGivenNames x; guard_hyp x : Block × _ := _; refine keepNvm1_named (n := b.nvm) x ?_ ?_; dsimp -zeta only [x]; clear x; rotate_left; clear_value x; revert x; intro _ _)
    | (extract_lets +onlyGivenNames x; guard_hyp x : Block := _; refine keepNvm_named (n := b.nvm) x ?_ ?_; dsimp -zeta only [x]; clear x; rotate_left; clear_value x; revert x; intro _ _)
    | (extract_lets +onlyGivenNames x; clear_value x; revert x; intro _)
    | with_reducible first
      | refine keepNvm1_mk ?_
      | refine keepNvm2_mk ?_
      | apply keepNvm_eq (Block.bump_nvm ..)
      | apply keepNvm_eq (Block.newId_nvm ..)
      | apply keepNvm_eq (Block.count_nvm ..)
    | with_reducible first
      | apply keepNvm_eq (Block.afterLookup_nvm ..)
      | apply keepNvm_eq (Block.updTnd_nvm ..)
      | apply keepNvm_eq (Block.finish_nvm ..)
      | apply keepNvm_eq (Block.finishAt_nvm ..)
      | apply keepNvm_eq (Block.lineDpa0_nvm ..)
    | with_reducible first
      | apply keepNvm_eq (hskip ..)
    | (show Block.nvm _ = _; dsimp -zeta only; done)
    | (show Block.nvm _ = _; dsimp -zeta only; show KeepNvm _ _)
    | with_reducible refine keepNvm_ite ?_ ?_
    | with_reducible refine keepNvm1_ite ?_ ?_
    | with_reducible refine keepNvm2_ite ?_ ?_
    | split
    | with_reducible refine keepNvm_fst (by assumption) ?_
    | with_reducible refine keepNvm_snd (by assumption) ?_
    | assumption

theorem Block.writeLine_nvm (b : Block) (n off : Nat) (dst : Bool) (ws : List WData) (skip : Block → Block) (hskip : ∀ b, (skip b).nvm = b.nvm) : (Block.writeLine b n off dst ws skip).nvm = b.nvm := by
  suffices h : KeepNvm b.nvm (Block.writeLine b n off dst ws skip) from h
  have h0 : KeepNvm b.nvm b := rfl
  unfold Block.writeLine
  repeat' first
    | with_reducible assumption
    | with_reducible exact keepNvm_refl _
    | with_reducible exact keepNvm_id _
    | with_reducible refine keepNvm_intro ?_
    | (extract_lets +onlyGivenNames x; guard_hyp x : Block := _; refine keepNvm_named (n := b.nvm) x ?_ ?_; dsimp -zeta only [x]; clear x; rotate_left; clear_value x; revert x; intro _ _)
    | (extract_lets +onlyGivenNames x; clear_value x; revert x; intro _)
    | with_reducible first
      | apply keepNvm_eq (Block.access_nvm (hskip := hskip) ..)
      | apply keepNvm_eq (Block.access_nvm (hskip := fun _ => ?_) ..)
      | apply keepNvm_eq (hskip ..)
    | (show Block.nvm _ = _; dsimp -zeta only; done)
    | (show Block.nvm _ = _; dsimp -zeta only; show KeepNvm _ _)
    | split

theorem Block.readLine_nvm (b : Block) (n off : Nat) (direct : Bool) (skip : Block → Block) (hskip : ∀ b, (skip b).nvm = b.nvm) : (Block.readLine b n off direct skip).nvm = b.nvm := by
  suffices h : KeepNvm b.nvm (Block.readLine b n off direct skip) from h
  have h0 : KeepNvm b.nvm b := rfl
  unfold Block.readLine
  repeat' first
    | with_reducible assumption
    | with_reducible exact keepNvm_refl _
    | with_reducible exact keepNvm_id _
    | with_reducible refine keepNvm_intro ?_
    | (extract_lets +onlyGivenNames x; guard_hyp x : Block := _; refine keepNvm_named (n := b.nvm) x ?_ ?_; dsimp -zeta only [x]; clear x; rotate_left; clear_value x; revert x; intro _ _)
    | (extract_lets +onlyGivenNames x; clear_value x; revert x; intro _)
    | with_reducible first
      | apply keepNvm_eq (Block.access_nvm (hskip := hskip) ..)
      | apply keepNvm_eq (Block.access_nvm (hskip := fun _ => ?_) ..)
      | apply keepNvm_eq (hskip ..)
    | (show Block.nvm _ = _; dsimp -zeta only; done)
    | (show Block.nvm _ = _; dsimp -zeta only; show KeepNvm _ _)
    | split

theorem Block.laneGo_nvm (b : Block) (n : Nat) (f : Lane → Lane) : (Block.laneGo b n f).nvm = b.nvm := by
  suffices h : KeepNvm b.nvm (Block.laneGo b n f) from h
  have h0 : KeepNvm b.nvm b := rfl
  unfold Block.laneGo
  repeat' first
    | with_reducible assumption
    | (extract_lets +onlyGivenNames x; guard_hyp x : Block := _; refine keepNvm_named (n := b.nvm) x ?_ ?_; dsimp -zeta only [x]; clear x; rotate_left; clear_value x; revert x; intro _ _)
    | (extract_lets +onlyGivenNames x; clear_value x; revert x; intro _)
    | with_reducible first
      | apply keepNvm_eq (Block.updTnd_nvm ..)
    | (show Block.nvm _ = _; dsimp -zeta only; done)
    | (show Block.nvm _ = _; dsimp -zeta only; show KeepNvm _ _)
    | split

theorem Block.verbStep_nvm (b : Block) (n verb : Nat) (f : Block → Block) (hf : ∀ b, (f b).nvm = b.nvm) : (Block.verbStep b n verb f).nvm = b.nvm := by
  suffices h : KeepNvm b.nvm (Block.verbStep b n verb f) from h
  have h0 : KeepNvm b.nvm b := rfl
  unfold Block.verbStep
  repeat' first
    | with_reducible assumption
    | (extract_lets +onlyGivenNames x; guard_hyp x : Block := _; refine keepNvm_named (n := b.nvm) x ?_ ?_; dsimp -zeta only [x]; clear x; rotate_left; clear_value x; revert x; intro _ _)
    | (extract_lets +onlyGivenNames x; clear_value x; revert x; intro _)
    | with_reducible first
      | apply keepNvm_eq (Block.finish_nvm ..)
      | apply keepNvm_eq (Block.finishAt_nvm ..)
      | apply keepNvm_eq (hf ..)
    | (show Block.nvm _ = _; dsimp -zeta only; done)
    | (show Block.nvm _ = _; dsimp -zeta only; show KeepNvm _ _)
    | with_reducible refine keepNvm_ite ?_ ?_
    | split

theorem Block.zeroStep_nvm (b : Block) (n : Nat) : (Block.zeroStep b n).nvm = b.nvm := by
  suffices h : KeepNvm b.nvm (Block.zeroStep b n) from h
  have h0 : KeepNvm b.nvm b := rfl
  unfold Block.zeroStep
  repeat' first
    | with_reducible assumption
    | with_reducible exact keepNvm_refl _
    | with_reducible exact keepNvm_id _
    | with_reducible refine keepNvm_intro ?_
    | (extract_lets +onlyGivenNames x; guard_hyp x : Block := _; refine keepNvm_named (n := b.nvm) x ?_ ?_; dsimp -zeta only [x]; clear x; rotate_left; clear_value x; revert x; intro _ _)
    | (extract_lets +onlyGivenNames x; refine keepNvm_fn x ?_; dsimp -zeta only [x]; clear x)
    | (extract_lets +onlyGivenNames x; refine keepNvm_fn2 x ?_; dsimp -zeta only [x]; clear x)
    | (extract_lets +onlyGivenNames x; refine keepNvm_fn3 x ?_; dsimp -zeta only [x]; clear x)
    | (extract_lets +onlyGivenNames x; refine keepNvm_fn4 x ?_; dsimp -zeta only [x]; clear x)
    | (extract_lets +onlyGivenNames x; clear_value x; revert x; intro _)
    | with_reducible first
      | apply keepNvm_eq (Block.finish_nvm ..)
      | apply keepNvm_eq (Block.writeLine_nvm (hskip := fun _ => ?_) ..)
      | apply keepNvm_eq (Block.laneGo_nvm ..)
    | (show Block.nvm _ = _; dsimp -zeta only; done)
    | (show Block.nvm _ = _; dsimp -zeta only; show KeepNvm _ _)
    | with_reducible refine keepNvm_ite ?_ ?_
    | split

theorem Block.laneUpdate_nvm (b : Block) (n : Nat) (u : DescUpd) : (Block.laneUpdate b n u).nvm = b.nvm := by
  suffices h : KeepNvm b.nvm (Block.laneUpdate b n u) from h
  have h0 : KeepNvm b.nvm b := rfl
  unfold Block.laneUpdate
  repeat' first
    | with_reducible assumption
    | (extract_lets +onlyGivenNames x; guard_hyp x : Block := _; refine keepNvm_named (n := b.nvm) x ?_ ?_; dsimp -zeta only [x]; clear x; rotate_left; clear_value x; revert x; intro _ _)
    | (extract_lets +onlyGivenNames x; clear_value x; revert x; intro _)
    | with_reducible first
      | apply keepNvm_eq (Block.descUpd_nvm ..)
      | apply keepNvm_eq (Block.updTnd_nvm ..)
    | (show Block.nvm _ = _; dsimp -zeta only; done)
    | (show Block.nvm _ = _; dsimp -zeta only; show KeepNvm _ _)
    | split

theorem Block.saniMark_nvm (b : Block) (n : Nat) : (Block.saniMark b n).nvm = b.nvm := by
  suffices h : KeepNvm b.nvm (Block.saniMark b n) from h
  have h0 : KeepNvm b.nvm b := rfl
  unfold Block.saniMark
  repeat' first
    | with_reducible assumption
    | (extract_lets +onlyGivenNames x; guard_hyp x : Block := _; refine keepNvm_named (n := b.nvm) x ?_ ?_; dsimp -zeta only [x]; clear x; rotate_left; clear_value x; revert x; intro _ _)
    | (extract_lets +onlyGivenNames x; refine keepNvm_fn x ?_; dsimp -zeta only [x]; clear x)
    | (extract_lets +onlyGivenNames x; refine keepNvm_fn2 x ?_; dsimp -zeta only [x]; clear x)
    | (extract_lets +onlyGivenNames x; refine keepNvm_fn3 x ?_; dsimp -zeta only [x]; clear x)
    | (extract_lets +onlyGivenNames x; refine keepNvm_fn4 x ?_; dsimp -zeta only [x]; clear x)
    | (extract_lets +onlyGivenNames x; clear_value x; revert x; intro _)
    | with_reducible first
      | refine keepNvm1_mk ?_
      | refine keepNvm2_mk ?_
      | apply keepNvm_eq (Block.newId_nvm ..)
      | apply keepNvm_eq (Block.count_nvm ..)
      | apply keepNvm_eq (Block.updTnd_nvm ..)
    | with_reducible first
      | apply keepNvm_eq (Block.tndWay_nvm ..)
      | apply keepNvm_eq (Block.finish_nvm ..)
      | apply keepNvm_eq (Block.finishAt_nvm ..)
      | apply keepNvm_eq (Block.laneGo_nvm ..)
      | apply keepNvm_eq (Block.laneUpdate_nvm ..)
    | (show Block.nvm _ = _; dsimp -zeta only; done)
    | (show Block.nvm _ = _; dsimp -zeta only; show KeepNvm _ _)
    | with_reducible refine keepNvm_ite ?_ ?_
    | with_reducible refine keepNvm1_ite ?_ ?_
    | with_reducible refine keepNvm2_ite ?_ ?_
    | split
    | with_reducible refine keepNvm_fst (by assumption) ?_
    | with_reducible refine keepNvm_snd (by assumption) ?_
    | assumption

theorem Block.saniStep_nvm (b : Block) (n : Nat) : (Block.saniStep b n).nvm = b.nvm := by
  suffices h : KeepNvm b.nvm (Block.saniStep b n) from h
  have h0 : KeepNvm b.nvm b := rfl
  unfold Block.saniStep
  repeat' first
    | with_reducible assumption
    | with_reducible exact keepNvm_refl _
    | with_reducible exact keepNvm_id _
    | with_reducible refine keepNvm_intro ?_
    | (extract_lets +onlyGivenNames x; guard_hyp x : Block := _; refine keepNvm_named (n := b.nvm) x ?_ ?_; dsimp -zeta only [x]; clear x; rotate_left; clear_value x; revert x; intro _ _)
    | (extract_lets +onlyGivenNames x; clear_value x; revert x; intro _)
    | with_reducible first
      | refine keepNvm_forEach ?_ (fun c a hc => ?_)
      | refine keepNvm1_mk ?_
      | refine keepNvm2_mk ?_
      | apply keepNvm_eq (Block.count_nvm ..)
      | apply keepNvm_eq (Block.mntTender_nvm ..)
    | with_reducible first
      | apply keepNvm_eq (Block.updTnd_nvm ..)
      | apply keepNvm_eq (Block.finish_nvm ..)
      | apply keepNvm_eq (Block.writeLine_nvm (hskip := fun _ => ?_) ..)
      | apply keepNvm_eq (Block.readLine_nvm (hskip := fun _ => ?_) ..)
      | apply keepNvm_eq (Block.laneGo_nvm ..)
    | with_reducible first
      | apply keepNvm_eq (Block.laneUpdate_nvm ..)
      | apply keepNvm_eq (Block.saniMark_nvm ..)
    | (show Block.nvm _ = _; dsimp -zeta only; done)
    | (show Block.nvm _ = _; dsimp -zeta only; show KeepNvm _ _)
    | with_reducible refine keepNvm_ite ?_ ?_
    | with_reducible refine keepNvm1_ite ?_ ?_
    | with_reducible refine keepNvm2_ite ?_ ?_
    | split
    | with_reducible refine keepNvm_fst (by assumption) ?_
    | with_reducible refine keepNvm_snd (by assumption) ?_
    | assumption

theorem Block.copyStep_nvm (b : Block) (n : Nat) : (Block.copyStep b n).nvm = b.nvm := by
  suffices h : KeepNvm b.nvm (Block.copyStep b n) from h
  have h0 : KeepNvm b.nvm b := rfl
  unfold Block.copyStep
  repeat' first
    | with_reducible assumption
    | with_reducible exact keepNvm_refl _
    | with_reducible exact keepNvm_id _
    | with_reducible refine keepNvm_intro ?_
    | (extract_lets +onlyGivenNames x; guard_hyp x : Block := _; refine keepNvm_named (n := b.nvm) x ?_ ?_; dsimp -zeta only [x]; clear x; rotate_left; clear_value x; revert x; intro _ _)
    | (extract_lets +onlyGivenNames x; refine keepNvm_fn x ?_; dsimp -zeta only [x]; clear x)
    | (extract_lets +onlyGivenNames x; refine keepNvm_fn2 x ?_; dsimp -zeta only [x]; clear x)
    | (extract_lets +onlyGivenNames x; refine keepNvm_fn3 x ?_; dsimp -zeta only [x]; clear x)
    | (extract_lets +onlyGivenNames x; refine keepNvm_fn4 x ?_; dsimp -zeta only [x]; clear x)
    | (extract_lets +onlyGivenNames x; clear_value x; revert x; intro _)
    | with_reducible first
      | apply keepNvm_eq (Block.finish_nvm ..)
      | apply keepNvm_eq (Block.writeLine_nvm (hskip := fun _ => ?_) ..)
      | apply keepNvm_eq (Block.readLine_nvm (hskip := fun _ => ?_) ..)
      | apply keepNvm_eq (Block.laneGo_nvm ..)
    | (show Block.nvm _ = _; dsimp -zeta only; done)
    | (show Block.nvm _ = _; dsimp -zeta only; show KeepNvm _ _)
    | with_reducible refine keepNvm_ite ?_ ?_
    | split

theorem Block.chunkDrop_nvm (b : Block) (n : Nat) : (Block.chunkDrop b n).nvm = b.nvm := by
  suffices h : KeepNvm b.nvm (Block.chunkDrop b n) from h
  have h0 : KeepNvm b.nvm b := rfl
  unfold Block.chunkDrop
  repeat' first
    | with_reducible assumption
    | with_reducible first
      | apply keepNvm_eq (Block.count_nvm ..)
      | apply keepNvm_eq (Block.unlock_nvm ..)
    | (show Block.nvm _ = _; dsimp -zeta only; done)
    | (show Block.nvm _ = _; dsimp -zeta only; show KeepNvm _ _)
    | split

theorem Block.moveStart_nvm (b : Block) (n : Nat) : (Block.moveStart b n).nvm = b.nvm := by
  suffices h : KeepNvm b.nvm (Block.moveStart b n) from h
  have h0 : KeepNvm b.nvm b := rfl
  unfold Block.moveStart
  repeat' first
    | with_reducible assumption
    | (extract_lets +onlyGivenNames x; guard_hyp x : Block := _; refine keepNvm_named (n := b.nvm) x ?_ ?_; dsimp -zeta only [x]; clear x; rotate_left; clear_value x; revert x; intro _ _)
    | (extract_lets +onlyGivenNames x; refine keepNvm_fn x ?_; dsimp -zeta only [x]; clear x)
    | (extract_lets +onlyGivenNames x; refine keepNvm_fn2 x ?_; dsimp -zeta only [x]; clear x)
    | (extract_lets +onlyGivenNames x; refine keepNvm_fn3 x ?_; dsimp -zeta only [x]; clear x)
    | (extract_lets +onlyGivenNames x; refine keepNvm_fn4 x ?_; dsimp -zeta only [x]; clear x)
    | (extract_lets +onlyGivenNames x; clear_value x; revert x; intro _)
    | with_reducible first
      | refine keepNvm1_mk ?_
      | refine keepNvm2_mk ?_
      | apply keepNvm_eq (Block.newId_nvm ..)
      | apply keepNvm_eq (Block.updTnd_nvm ..)
      | apply keepNvm_eq (Block.tndWay_nvm ..)
    | with_reducible first
      | apply keepNvm_eq (Block.finish_nvm ..)
      | apply keepNvm_eq (Block.laneGo_nvm ..)
      | apply keepNvm_eq (Block.laneUpdate_nvm ..)
    | (show Block.nvm _ = _; dsimp -zeta only; done)
    | (show Block.nvm _ = _; dsimp -zeta only; show KeepNvm _ _)
    | with_reducible refine keepNvm_ite ?_ ?_
    | with_reducible refine keepNvm1_ite ?_ ?_
    | with_reducible refine keepNvm2_ite ?_ ?_
    | split
    | with_reducible refine keepNvm_fst (by assumption) ?_
    | with_reducible refine keepNvm_snd (by assumption) ?_
    | assumption

theorem Block.moveLine_nvm (b : Block) (n : Nat) : (Block.moveLine b n).nvm = b.nvm := by
  suffices h : KeepNvm b.nvm (Block.moveLine b n) from h
  have h0 : KeepNvm b.nvm b := rfl
  unfold Block.moveLine
  repeat' first
    | with_reducible assumption
    | (extract_lets +onlyGivenNames x; guard_hyp x : Block := _; refine keepNvm_named (n := b.nvm) x ?_ ?_; dsimp -zeta only [x]; clear x; rotate_left; clear_value x; revert x; intro _ _)
    | (extract_lets +onlyGivenNames x; refine keepNvm_fn x ?_; dsimp -zeta only [x]; clear x)
    | (extract_lets +onlyGivenNames x; refine keepNvm_fn2 x ?_; dsimp -zeta only [x]; clear x)
    | (extract_lets +onlyGivenNames x; refine keepNvm_fn3 x ?_; dsimp -zeta only [x]; clear x)
    | (extract_lets +onlyGivenNames x; refine keepNvm_fn4 x ?_; dsimp -zeta only [x]; clear x)
    | (extract_lets +onlyGivenNames x; clear_value x; revert x; intro _)
    | with_reducible first
      | refine keepNvm1_mk ?_
      | refine keepNvm2_mk ?_
      | apply keepNvm_eq (Block.bump_nvm ..)
      | apply keepNvm_eq (Block.newId_nvm ..)
      | apply keepNvm_eq (Block.count_nvm ..)
    | with_reducible first
      | apply keepNvm_eq (Block.reguArrive_nvm ..)
      | apply keepNvm_eq (Block.sendReq_nvm ..)
      | apply keepNvm_eq (Block.updTnd_nvm ..)
      | apply keepNvm_eq (Block.tndWay_nvm ..)
      | apply keepNvm_eq (Block.finish_nvm ..)
    | with_reducible first
      | apply keepNvm_eq (Block.laneGo_nvm ..)
    | (show Block.nvm _ = _; dsimp -zeta only; done)
    | (show Block.nvm _ = _; dsimp -zeta only; show KeepNvm _ _)
    | with_reducible refine keepNvm_ite ?_ ?_
    | with_reducible refine keepNvm1_ite ?_ ?_
    | with_reducible refine keepNvm2_ite ?_ ?_
    | split
    | with_reducible refine keepNvm_fst (by assumption) ?_
    | with_reducible refine keepNvm_snd (by assumption) ?_
    | assumption

theorem Block.moveStep_nvm (b : Block) (n : Nat) : (Block.moveStep b n).nvm = b.nvm := by
  suffices h : KeepNvm b.nvm (Block.moveStep b n) from h
  have h0 : KeepNvm b.nvm b := rfl
  unfold Block.moveStep
  repeat' first
    | with_reducible assumption
    | (extract_lets +onlyGivenNames x; guard_hyp x : Block := _; refine keepNvm_named (n := b.nvm) x ?_ ?_; dsimp -zeta only [x]; clear x; rotate_left; clear_value x; revert x; intro _ _)
    | (extract_lets +onlyGivenNames x; clear_value x; revert x; intro _)
    | with_reducible first
      | refine keepNvm_forEach ?_ (fun c a hc => ?_)
      | apply keepNvm_eq (Block.mntTender_nvm ..)
      | apply keepNvm_eq (Block.updTnd_nvm ..)
      | apply keepNvm_eq (Block.finish_nvm ..)
      | apply keepNvm_eq (Block.laneGo_nvm ..)
    | with_reducible first
      | apply keepNvm_eq (Block.laneUpdate_nvm ..)
      | apply keepNvm_eq (Block.moveStart_nvm ..)
      | apply keepNvm_eq (Block.moveLine_nvm ..)
    | (show Block.nvm _ = _; dsimp -zeta only; done)
    | (show Block.nvm _ = _; dsimp -zeta only; show KeepNvm _ _)
    | with_reducible refine keepNvm_ite ?_ ?_
    | split

theorem Block.chunkTimeout_nvm (b : Block) (n : Nat) : (Block.chunkTimeout b n).nvm = b.nvm := by
  suffices h : KeepNvm b.nvm (Block.chunkTimeout b n) from h
  have h0 : KeepNvm b.nvm b := rfl
  unfold Block.chunkTimeout
  repeat' first
    | with_reducible assumption
    | (extract_lets +onlyGivenNames x; guard_hyp x : Block := _; refine keepNvm_named (n := b.nvm) x ?_ ?_; dsimp -zeta only [x]; clear x; rotate_left; clear_value x; revert x; intro _ _)
    | (extract_lets +onlyGivenNames x; clear_value x; revert x; intro _)
    | with_reducible first
      | apply keepNvm_eq (Block.finish_nvm ..)
      | apply keepNvm_eq (Block.laneGo_nvm ..)
      | apply keepNvm_eq (Block.chunkDrop_nvm ..)
    | (show Block.nvm _ = _; dsimp -zeta only; done)
    | (show Block.nvm _ = _; dsimp -zeta only; show KeepNvm _ _)
    | with_reducible refine keepNvm_ite ?_ ?_
    | split

theorem Block.chunkUnlock_nvm (b : Block) (n : Nat) : (Block.chunkUnlock b n).nvm = b.nvm := by
  suffices h : KeepNvm b.nvm (Block.chunkUnlock b n) from h
  have h0 : KeepNvm b.nvm b := rfl
  unfold Block.chunkUnlock
  repeat' first
    | with_reducible assumption
    | (extract_lets +onlyGivenNames x; guard_hyp x : Block := _; refine keepNvm_named (n := b.nvm) x ?_ ?_; dsimp -zeta only [x]; clear x; rotate_left; clear_value x; revert x; intro _ _)
    | (extract_lets +onlyGivenNames x; clear_value x; revert x; intro _)
    | with_reducible first
      | apply keepNvm_eq (Block.count_nvm ..)
      | apply keepNvm_eq (Block.unlock_nvm ..)
      | apply keepNvm_eq (Block.finish_nvm ..)
      | apply keepNvm_eq (Block.laneGo_nvm ..)
      | apply keepNvm_eq (Block.chunkDrop_nvm ..)
    | (show Block.nvm _ = _; dsimp -zeta only; done)
    | (show Block.nvm _ = _; dsimp -zeta only; show KeepNvm _ _)
    | with_reducible refine keepNvm_ite ?_ ?_
    | split

theorem Block.testStep_nvm (b : Block) (n : Nat) : (Block.testStep b n).nvm = b.nvm := by
  suffices h : KeepNvm b.nvm (Block.testStep b n) from h
  have h0 : KeepNvm b.nvm b := rfl
  unfold Block.testStep
  repeat' first
    | with_reducible assumption
    | with_reducible exact keepNvm_refl _
    | with_reducible exact keepNvm_id _
    | with_reducible refine keepNvm_intro ?_
    | (extract_lets +onlyGivenNames x; guard_hyp x : Block := _; refine keepNvm_named (n := b.nvm) x ?_ ?_; dsimp -zeta only [x]; clear x; rotate_left; clear_value x; revert x; intro _ _)
    | (extract_lets +onlyGivenNames x; refine keepNvm_fn x ?_; dsimp -zeta only [x]; clear x)
    | (extract_lets +onlyGivenNames x; refine keepNvm_fn2 x ?_; dsimp -zeta only [x]; clear x)
    | (extract_lets +onlyGivenNames x; refine keepNvm_fn3 x ?_; dsimp -zeta only [x]; clear x)
    | (extract_lets +onlyGivenNames x; refine keepNvm_fn4 x ?_; dsimp -zeta only [x]; clear x)
    | (extract_lets +onlyGivenNames x; clear_value x; revert x; intro _)
    | with_reducible first
      | refine keepNvm1_mk ?_
      | refine keepNvm2_mk ?_
      | apply keepNvm_eq (Block.finish_nvm ..)
      | apply keepNvm_eq (Block.writeLine_nvm (hskip := fun _ => ?_) ..)
      | apply keepNvm_eq (Block.readLine_nvm (hskip := fun _ => ?_) ..)
    | with_reducible first
      | apply keepNvm_eq (Block.laneGo_nvm ..)
    | (show Block.nvm _ = _; dsimp -zeta only; done)
    | (show Block.nvm _ = _; dsimp -zeta only; show KeepNvm _ _)
    | with_reducible refine keepNvm_ite ?_ ?_
    | with_reducible refine keepNvm1_ite ?_ ?_
    | with_reducible refine keepNvm2_ite ?_ ?_
    | split
    | with_reducible refine keepNvm_fst (by assumption) ?_
    | with_reducible refine keepNvm_snd (by assumption) ?_
    | assumption

theorem Block.sumStep_nvm (b : Block) (n : Nat) : (Block.sumStep b n).nvm = b.nvm := by
  suffices h : KeepNvm b.nvm (Block.sumStep b n) from h
  have h0 : KeepNvm b.nvm b := rfl
  unfold Block.sumStep
  repeat' first
    | with_reducible assumption
    | with_reducible exact keepNvm_refl _
    | with_reducible exact keepNvm_id _
    | with_reducible refine keepNvm_intro ?_
    | (extract_lets +onlyGivenNames x; guard_hyp x : Block := _; refine keepNvm_named (n := b.nvm) x ?_ ?_; dsimp -zeta only [x]; clear x; rotate_left; clear_value x; revert x; intro _ _)
    | (extract_lets +onlyGivenNames x; clear_value x; revert x; intro _)
    | with_reducible first
      | apply keepNvm_eq (Block.finish_nvm ..)
      | apply keepNvm_eq (Block.readLine_nvm (hskip := fun _ => ?_) ..)
      | apply keepNvm_eq (Block.laneGo_nvm ..)
    | (show Block.nvm _ = _; dsimp -zeta only; done)
    | (show Block.nvm _ = _; dsimp -zeta only; show KeepNvm _ _)
    | with_reducible refine keepNvm_ite ?_ ?_
    | split

theorem Block.clearStep_nvm (b : Block) (n : Nat) : (Block.clearStep b n).nvm = b.nvm := by
  suffices h : KeepNvm b.nvm (Block.clearStep b n) from h
  have h0 : KeepNvm b.nvm b := rfl
  unfold Block.clearStep
  repeat' first
    | with_reducible assumption
    | with_reducible exact keepNvm_refl _
    | with_reducible exact keepNvm_id _
    | with_reducible refine keepNvm_intro ?_
    | (extract_lets +onlyGivenNames x; guard_hyp x : Block := _; refine keepNvm_named (n := b.nvm) x ?_ ?_; dsimp -zeta only [x]; clear x; rotate_left; clear_value x; revert x; intro _ _)
    | (extract_lets +onlyGivenNames x; clear_value x; revert x; intro _)
    | with_reducible first
      | apply keepNvm_eq (Block.finish_nvm ..)
      | apply keepNvm_eq (Block.access_nvm (hskip := fun _ => ?_) ..)
      | apply keepNvm_eq (Block.readLine_nvm (hskip := fun _ => ?_) ..)
      | apply keepNvm_eq (Block.laneGo_nvm ..)
    | (show Block.nvm _ = _; dsimp -zeta only; done)
    | (show Block.nvm _ = _; dsimp -zeta only; show KeepNvm _ _)
    | with_reducible refine keepNvm_ite ?_ ?_
    | split

theorem Block.scanStep_nvm (b : Block) (n : Nat) : (Block.scanStep b n).nvm = b.nvm := by
  suffices h : KeepNvm b.nvm (Block.scanStep b n) from h
  have h0 : KeepNvm b.nvm b := rfl
  unfold Block.scanStep
  repeat' first
    | with_reducible assumption
    | with_reducible exact keepNvm_refl _
    | with_reducible exact keepNvm_id _
    | with_reducible refine keepNvm_intro ?_
    | (extract_lets +onlyGivenNames x; guard_hyp x : Block := _; refine keepNvm_named (n := b.nvm) x ?_ ?_; dsimp -zeta only [x]; clear x; rotate_left; clear_value x; revert x; intro _ _)
    | (extract_lets +onlyGivenNames x; clear_value x; revert x; intro _)
    | with_reducible first
      | apply keepNvm_eq (Block.finish_nvm ..)
      | apply keepNvm_eq (Block.readLine_nvm (hskip := fun _ => ?_) ..)
      | apply keepNvm_eq (Block.laneGo_nvm ..)
    | (show Block.nvm _ = _; dsimp -zeta only; done)
    | (show Block.nvm _ = _; dsimp -zeta only; show KeepNvm _ _)
    | with_reducible refine keepNvm_ite ?_ ?_
    | split

theorem Block.lineRead_nvm (b : Block) (n : Nat) (xs : List Intern) : (Block.lineRead b n xs).nvm = b.nvm := by
  suffices h : KeepNvm b.nvm (Block.lineRead b n xs) from h
  have h0 : KeepNvm b.nvm b := rfl
  unfold Block.lineRead
  repeat' first
    | with_reducible assumption
    | (extract_lets +onlyGivenNames x; guard_hyp x : Block := _; refine keepNvm_named (n := b.nvm) x ?_ ?_; dsimp -zeta only [x]; clear x; rotate_left; clear_value x; revert x; intro _ _)
    | (extract_lets +onlyGivenNames x; clear_value x; revert x; intro _)
    | with_reducible first
      | refine keepNvm1_foldl ?_ (fun c a hc => ?_)
      | refine keepNvm2_foldl ?_ (fun c a hc => ?_)
      | apply keepNvm_eq (Block.updTnd_nvm ..)
      | apply keepNvm_eq (Block.finishAt_nvm ..)
      | apply keepNvm_eq (Block.laneGo_nvm ..)
    | (show Block.nvm _ = _; dsimp -zeta only; done)
    | (show Block.nvm _ = _; dsimp -zeta only; show KeepNvm _ _)
    | with_reducible refine keepNvm_ite ?_ ?_
    | split
    | with_reducible refine keepNvm_of1 ?_
    | with_reducible refine keepNvm_of2 ?_

theorem Block.lineWritten_nvm (b : Block) (n : Nat) (xs : List Intern) : (Block.lineWritten b n xs).nvm = b.nvm := by
  suffices h : KeepNvm b.nvm (Block.lineWritten b n xs) from h
  have h0 : KeepNvm b.nvm b := rfl
  unfold Block.lineWritten
  repeat' first
    | with_reducible assumption
    | (extract_lets +onlyGivenNames x; guard_hyp x : Block := _; refine keepNvm_named (n := b.nvm) x ?_ ?_; dsimp -zeta only [x]; clear x; rotate_left; clear_value x; revert x; intro _ _)
    | (extract_lets +onlyGivenNames x; clear_value x; revert x; intro _)
    | with_reducible first
      | apply keepNvm_eq (Block.finishAt_nvm ..)
      | apply keepNvm_eq (Block.laneGo_nvm ..)
    | (show Block.nvm _ = _; dsimp -zeta only; done)
    | (show Block.nvm _ = _; dsimp -zeta only; show KeepNvm _ _)
    | with_reducible refine keepNvm_ite ?_ ?_
    | split

theorem Block.jobRead_nvm (b : Block) (n : Nat) (x : Intern) : (Block.jobRead b n x).nvm = b.nvm := by
  suffices h : KeepNvm b.nvm (Block.jobRead b n x) from h
  have h0 : KeepNvm b.nvm b := rfl
  unfold Block.jobRead
  repeat' first
    | with_reducible assumption
    | (extract_lets +onlyGivenNames x; guard_hyp x : Block := _; refine keepNvm_named (n := b.nvm) x ?_ ?_; dsimp -zeta only [x]; clear x; rotate_left; clear_value x; revert x; intro _ _)
    | (extract_lets +onlyGivenNames x; clear_value x; revert x; intro _)
    | with_reducible first
      | apply keepNvm_eq (Block.updTnd_nvm ..)
      | apply keepNvm_eq (Block.ringErr_nvm ..)
    | (show Block.nvm _ = _; dsimp -zeta only; done)
    | (show Block.nvm _ = _; dsimp -zeta only; show KeepNvm _ _)
    | with_reducible refine keepNvm_ite ?_ ?_
    | split

theorem Block.laneReturn_nvm (b : Block) (n : Nat) : (Block.laneReturn b n).nvm = b.nvm := by
  suffices h : KeepNvm b.nvm (Block.laneReturn b n) from h
  have h0 : KeepNvm b.nvm b := rfl
  unfold Block.laneReturn
  repeat' first
    | with_reducible assumption
    | (extract_lets +onlyGivenNames x; guard_hyp x : Block := _; refine keepNvm_named (n := b.nvm) x ?_ ?_; dsimp -zeta only [x]; clear x; rotate_left; clear_value x; revert x; intro _ _)
    | (extract_lets +onlyGivenNames x; clear_value x; revert x; intro _)
    | with_reducible first
      | refine keepNvm1_mk ?_
      | refine keepNvm2_mk ?_
      | apply keepNvm_eq (Block.newId_nvm ..)
      | apply keepNvm_eq (Block.updTnd_nvm ..)
      | apply keepNvm_eq (Block.ringErr_nvm ..)
    | with_reducible first
      | apply keepNvm_eq (Block.sendRecord_nvm ..)
      | apply keepNvm_eq (Block.finish_nvm ..)
      | apply keepNvm_eq (Block.finishAt_nvm ..)
      | apply keepNvm_eq (Block.jobFetch_nvm ..)
      | apply keepNvm_eq (Block.lineRead_nvm ..)
    | with_reducible first
      | apply keepNvm_eq (Block.lineWritten_nvm ..)
      | apply keepNvm_eq (Block.jobRead_nvm ..)
    | (show Block.nvm _ = _; dsimp -zeta only; done)
    | (show Block.nvm _ = _; dsimp -zeta only; show KeepNvm _ _)
    | with_reducible refine keepNvm_ite ?_ ?_
    | with_reducible refine keepNvm1_ite ?_ ?_
    | with_reducible refine keepNvm2_ite ?_ ?_
    | split
    | with_reducible refine keepNvm_fst (by assumption) ?_
    | with_reducible refine keepNvm_snd (by assumption) ?_
    | assumption

theorem Block.tailWritten_nvm (b : Block) : (Block.tailWritten b).nvm = b.nvm := by
  suffices h : KeepNvm b.nvm (Block.tailWritten b) from h
  have h0 : KeepNvm b.nvm b := rfl
  unfold Block.tailWritten
  repeat' first
    | with_reducible assumption
    | with_reducible first
      | apply keepNvm_eq (Block.ringErr_nvm ..)
    | (show Block.nvm _ = _; dsimp -zeta only; done)
    | (show Block.nvm _ = _; dsimp -zeta only; show KeepNvm _ _)
    | with_reducible refine keepNvm_ite ?_ ?_
    | split

theorem Block.tndEnabled_nvm (b : Block) : (Block.tndEnabled b).nvm = b.nvm := by
  suffices h : KeepNvm b.nvm (Block.tndEnabled b) from h
  have h0 : KeepNvm b.nvm b := rfl
  unfold Block.tndEnabled
  repeat' first
    | with_reducible assumption
    | (extract_lets +onlyGivenNames x; guard_hyp x : Block := _; refine keepNvm_named (n := b.nvm) x ?_ ?_; dsimp -zeta only [x]; clear x; rotate_left; clear_value x; revert x; intro _ _)
    | (extract_lets +onlyGivenNames x; clear_value x; revert x; intro _)
    | with_reducible first
      | refine keepNvm_forEach ?_ (fun c a hc => ?_)
      | apply keepNvm_eq (Block.updTnd_nvm ..)
      | apply keepNvm_eq (Block.sendRecord_nvm ..)
    | (show Block.nvm _ = _; dsimp -zeta only; done)
    | (show Block.nvm _ = _; dsimp -zeta only; show KeepNvm _ _)
    | with_reducible refine keepNvm_ite ?_ ?_
    | split

theorem Block.tndAbort_nvm (b : Block) : (Block.tndAbort b).nvm = b.nvm := by
  suffices h : KeepNvm b.nvm (Block.tndAbort b) from h
  have h0 : KeepNvm b.nvm b := rfl
  unfold Block.tndAbort
  repeat' first
    | with_reducible assumption
    | (extract_lets +onlyGivenNames x; guard_hyp x : Block := _; refine keepNvm_named (n := b.nvm) x ?_ ?_; dsimp -zeta only [x]; clear x; rotate_left; clear_value x; revert x; intro _ _)
    | (extract_lets +onlyGivenNames x; clear_value x; revert x; intro _)
    | with_reducible first
      | refine keepNvm_forEach ?_ (fun c a hc => ?_)
      | apply keepNvm_eq (Block.finish_nvm ..)
      | apply keepNvm_eq (Block.chunkDrop_nvm ..)
    | (show Block.nvm _ = _; dsimp -zeta only; done)
    | (show Block.nvm _ = _; dsimp -zeta only; show KeepNvm _ _)
    | with_reducible refine keepNvm_ite ?_ ?_
    | split

end Sys2Proof.Machine
end

