-- ==== Sys2Proof/Laws/Nvm/Faults.lean ====
section
/-! SUPPORT. No operation of Machine/Faults.lean changes the non-volatile store, but for those named. -/

namespace Sys2Proof.Machine

theorem Block.msgTransfer_nvm (b : Block) : (Block.msgTransfer b).nvm = b.nvm := by
  suffices h : KeepNvm b.nvm (Block.msgTransfer b) from h
  have h0 : KeepNvm b.nvm b := rfl
  unfold Block.msgTransfer
  repeat' first
    | with_reducible assumption
    | (extract_lets +onlyGivenNames x; guard_hyp x : Block := _; refine keepNvm_named (n := b.nvm) x ?_ ?_; dsimp -zeta only [x]; clear x; rotate_left; clear_value x; revert x; intro _ _)
    | (extract_lets +onlyGivenNames x; clear_value x; revert x; intro _)
    | with_reducible first
      | apply keepNvm_eq (Block.eventPlain_nvm ..)
    | (show Block.nvm _ = _; dsimp -zeta only; done)
    | (show Block.nvm _ = _; dsimp -zeta only; show KeepNvm _ _)
    | with_reducible refine keepNvm_ite ?_ ?_
    | split

theorem Block.fenceInput_nvm (b : Block) (k : FenceKind) (i : Nat) (level : Bool) : (Block.fenceInput b k i level).nvm = b.nvm := by
  suffices h : KeepNvm b.nvm (Block.fenceInput b k i level) from h
  have h0 : KeepNvm b.nvm b := rfl
  unfold Block.fenceInput
  repeat' first
    | with_reducible assumption
    | (extract_lets +onlyGivenNames x; guard_hyp x : Block := _; refine keepNvm_named (n := b.nvm) x ?_ ?_; dsimp -zeta only [x]; clear x; rotate_left; clear_value x; revert x; intro _ _)
    | (extract_lets +onlyGivenNames x; clear_value x; revert x; intro _)
    | with_reducible first
      | apply keepNvm_eq (Block.setBitOf_nvm ..)
      | apply keepNvm_eq (Block.clearBitOf_nvm ..)
      | apply keepNvm_eq (Block.rplFail_nvm (hev := Block.event0_nvm) ..)
      | apply keepNvm_eq (Block.rplFail_nvm (hev := Block.event_nvm) ..)
      | apply keepNvm_eq (Block.fence_nvm ..)
    | with_reducible first
      | apply keepNvm_eq (Block.event_nvm ..)
      | apply keepNvm_eq (Block.demandSeen_nvm ..)
    | (show Block.nvm _ = _; dsimp -zeta only; done)
    | (show Block.nvm _ = _; dsimp -zeta only; show KeepNvm _ _)
    | with_reducible refine keepNvm_ite ?_ ?_
    | split

theorem Block.fenceSet_nvm (b : Block) (k : FenceKind) (mask role : Nat) : (Block.fenceSet b k mask role).nvm = b.nvm := by
  suffices h : KeepNvm b.nvm (Block.fenceSet b k mask role) from h
  have h0 : KeepNvm b.nvm b := rfl
  unfold Block.fenceSet
  repeat' first
    | with_reducible assumption
    | with_reducible first
      | refine keepNvm_forEach ?_ (fun c a hc => ?_)
      | apply keepNvm_eq (Block.count_nvm ..)
      | apply keepNvm_eq (Block.fence_nvm ..)
      | apply keepNvm_eq (Block.demandSeen_nvm ..)
    | (show Block.nvm _ = _; dsimp -zeta only; done)
    | (show Block.nvm _ = _; dsimp -zeta only; show KeepNvm _ _)
    | split

theorem Block.fenceExit_nvm (b : Block) (s : Nat) : (Block.fenceExit b s).nvm = b.nvm := by
  suffices h : KeepNvm b.nvm (Block.fenceExit b s) from h
  have h0 : KeepNvm b.nvm b := rfl
  unfold Block.fenceExit
  repeat' first
    | with_reducible assumption
    | (extract_lets +onlyGivenNames x; guard_hyp x : Block := _; refine keepNvm_named (n := b.nvm) x ?_ ?_; dsimp -zeta only [x]; clear x; rotate_left; clear_value x; revert x; intro _ _)
    | (extract_lets +onlyGivenNames x; clear_value x; revert x; intro _)
    | with_reducible first
      | apply keepNvm_eq (Block.trackJump_nvm ..)
      | apply keepNvm_eq (Block.fence_nvm ..)
      | apply keepNvm_eq (Block.restartTicks_nvm ..)
      | apply keepNvm_eq (Block.sntRequest_nvm ..)
    | (show Block.nvm _ = _; dsimp -zeta only; done)
    | (show Block.nvm _ = _; dsimp -zeta only; show KeepNvm _ _)
    | with_reducible refine keepNvm_ite ?_ ?_
    | split

theorem Block.clearRefused_nvm (b : Block) (k : FenceKind) (i : Nat) : (Block.clearRefused b k i).2.nvm = b.nvm := by
  suffices h : KeepNvm2 b.nvm (Block.clearRefused b k i) from h
  have h0 : KeepNvm b.nvm b := rfl
  unfold Block.clearRefused
  repeat' first
    | with_reducible assumption
    | (extract_lets +onlyGivenNames x; guard_hyp x : Block := _; refine keepNvm_named (n := b.nvm) x ?_ ?_; dsimp -zeta only [x]; clear x; rotate_left; clear_value x; revert x; intro _ _)
    | (extract_lets +onlyGivenNames x; clear_value x; revert x; intro _)
    | with_reducible first
      | refine keepNvm1_mk ?_
      | refine keepNvm2_mk ?_
      | apply keepNvm_eq (Block.updSub_nvm ..)
      | apply keepNvm_eq (Block.reloadClauses_nvm ..)
    | (show Block.nvm _ = _; dsimp -zeta only; done)
    | (show Block.nvm _ = _; dsimp -zeta only; show KeepNvm _ _)
    | with_reducible refine keepNvm_ite ?_ ?_
    | with_reducible refine keepNvm1_ite ?_ ?_
    | with_reducible refine keepNvm2_ite ?_ ?_
    | split
    | with_reducible refine keepNvm_fst (by assumption) ?_
    | with_reducible refine keepNvm_snd (by assumption) ?_
    | assumption

theorem Block.fenceDrop_nvm (b : Block) (k : FenceKind) (i cause role : Nat) : (Block.fenceDrop b k i cause role).nvm = b.nvm := by
  suffices h : KeepNvm b.nvm (Block.fenceDrop b k i cause role) from h
  have h0 : KeepNvm b.nvm b := rfl
  unfold Block.fenceDrop
  repeat' first
    | with_reducible assumption
    | with_reducible first
      | apply keepNvm_eq (Block.clearBitOf_nvm ..)
      | apply keepNvm_eq (Block.audFence_nvm ..)
    | (show Block.nvm _ = _; dsimp -zeta only; done)
    | (show Block.nvm _ = _; dsimp -zeta only; show KeepNvm _ _)
    | with_reducible refine keepNvm_ite ?_ ?_
    | split

theorem Block.clrRefuse_nvm (b : Block) : (Block.clrRefuse b).nvm = b.nvm := by
  suffices h : KeepNvm b.nvm (Block.clrRefuse b) from h
  have h0 : KeepNvm b.nvm b := rfl
  unfold Block.clrRefuse
  repeat' first
    | with_reducible assumption
    | with_reducible first
      | apply keepNvm_eq (Block.wr_nvm ..)
      | apply keepNvm_eq (Block.intr_nvm ..)
    | (show Block.nvm _ = _; dsimp -zeta only; done)
    | (show Block.nvm _ = _; dsimp -zeta only; show KeepNvm _ _)
    | split

theorem Block.clearOne_nvm (b : Block) (k : FenceKind) (i cause role : Nat) : (Block.clearOne b k i cause role).nvm = b.nvm := by
  suffices h : KeepNvm b.nvm (Block.clearOne b k i cause role) from h
  have h0 : KeepNvm b.nvm b := rfl
  unfold Block.clearOne
  repeat' first
    | with_reducible assumption
    | (extract_lets +onlyGivenNames x; guard_hyp x : Block := _; refine keepNvm_named (n := b.nvm) x ?_ ?_; dsimp -zeta only [x]; clear x; rotate_left; clear_value x; revert x; intro _ _)
    | (extract_lets +onlyGivenNames x; clear_value x; revert x; intro _)
    | with_reducible first
      | apply keepNvm_eq (Block.sliceUnfenced_nvm ..)
      | apply keepNvm_eq (Block.fenceExit_nvm ..)
      | apply keepNvm_eq (Block.fenceDrop_nvm ..)
    | (show Block.nvm _ = _; dsimp -zeta only; done)
    | (show Block.nvm _ = _; dsimp -zeta only; show KeepNvm _ _)
    | with_reducible refine keepNvm_ite ?_ ?_
    | split

theorem Block.fenceClear_nvm (b : Block) (k : FenceKind) (mask role : Nat) : (Block.fenceClear b k mask role).nvm = b.nvm := by
  suffices h : KeepNvm b.nvm (Block.fenceClear b k mask role) from h
  have h0 : KeepNvm b.nvm b := rfl
  unfold Block.fenceClear
  repeat' first
    | with_reducible assumption
    | (extract_lets +onlyGivenNames x; guard_hyp x : Block := _; refine keepNvm_named (n := b.nvm) x ?_ ?_; dsimp -zeta only [x]; clear x; rotate_left; clear_value x; revert x; intro _ _)
    | (extract_lets +onlyGivenNames x; clear_value x; revert x; intro _)
    | with_reducible first
      | refine keepNvm_forEach ?_ (fun c a hc => ?_)
      | refine keepNvm1_mk ?_
      | refine keepNvm2_mk ?_
      | apply keepNvm_eq (Block.count_nvm ..)
      | apply keepNvm_eq (Block.clearRefused_nvm ..)
    | with_reducible first
      | apply keepNvm_eq (Block.fenceDrop_nvm ..)
      | apply keepNvm_eq (Block.clrRefuse_nvm ..)
      | apply keepNvm_eq (Block.clearOne_nvm ..)
    | (show Block.nvm _ = _; dsimp -zeta only; done)
    | (show Block.nvm _ = _; dsimp -zeta only; show KeepNvm _ _)
    | with_reducible refine keepNvm_ite ?_ ?_
    | with_reducible refine keepNvm1_ite ?_ ?_
    | with_reducible refine keepNvm2_ite ?_ ?_
    | split
    | with_reducible refine keepNvm_fst (by assumption) ?_
    | with_reducible refine keepNvm_snd (by assumption) ?_
    | assumption

theorem Block.recClear_nvm (b : Block) (code : Nat) : (Block.recClear b code).nvm = b.nvm := by
  suffices h : KeepNvm b.nvm (Block.recClear b code) from h
  have h0 : KeepNvm b.nvm b := rfl
  unfold Block.recClear
  repeat' first
    | with_reducible assumption
    | (extract_lets +onlyGivenNames x; guard_hyp x : Block := _; refine keepNvm_named (n := b.nvm) x ?_ ?_; dsimp -zeta only [x]; clear x; rotate_left; clear_value x; revert x; intro _ _)
    | (extract_lets +onlyGivenNames x; clear_value x; revert x; intro _)
    | with_reducible first
      | apply keepNvm_eq (Block.count_nvm ..)
    | (show Block.nvm _ = _; dsimp -zeta only; done)
    | (show Block.nvm _ = _; dsimp -zeta only; show KeepNvm _ _)
    | with_reducible refine keepNvm_ite ?_ ?_
    | split

theorem Block.recClearGo_nvm (b : Block) (all : Bool) : (Block.recClearGo b all).nvm = b.nvm := by
  suffices h : KeepNvm b.nvm (Block.recClearGo b all) from h
  have h0 : KeepNvm b.nvm b := rfl
  unfold Block.recClearGo
  repeat' first
    | with_reducible assumption
    | with_reducible first
      | refine keepNvm_forEach ?_ (fun c a hc => ?_)
      | apply keepNvm_eq (Block.recClear_nvm ..)
    | (show Block.nvm _ = _; dsimp -zeta only; done)
    | (show Block.nvm _ = _; dsimp -zeta only; show KeepNvm _ _)
    | with_reducible refine keepNvm_ite ?_ ?_
    | split

end Sys2Proof.Machine
end

