-- ==== Sys2Proof/Laws/Nvm/Audit.lean ====
section
/-! SUPPORT. No operation of Machine/Audit.lean changes the non-volatile store, but for those named. -/

namespace Sys2Proof.Machine

theorem Block.audClear_nvm (b : Block) : (Block.audClear b).nvm = b.nvm := by
  suffices h : KeepNvm b.nvm (Block.audClear b) from h
  have h0 : KeepNvm b.nvm b := rfl
  unfold Block.audClear
  repeat' first
    | with_reducible assumption
    | (extract_lets +onlyGivenNames x; guard_hyp x : Block := _; refine keepNvm_named (n := b.nvm) x ?_ ?_; dsimp -zeta only [x]; clear x; rotate_left; clear_value x; revert x; intro _ _)
    | (extract_lets +onlyGivenNames x; clear_value x; revert x; intro _)
    | with_reducible first
      | apply keepNvm_eq (Block.wr_nvm ..)
    | (show Block.nvm _ = _; dsimp -zeta only; done)
    | (show Block.nvm _ = _; dsimp -zeta only; show KeepNvm _ _)
    | with_reducible refine keepNvm_ite ?_ ?_
    | split

end Sys2Proof.Machine
end

