-- ==== Sys2Proof/Laws/Nvm/Domains.lean ====
section
/-! SUPPORT. No operation of Machine/Domains.lean changes the non-volatile store, but for those named. -/

namespace Sys2Proof.Machine

theorem Block.loseRegs_nvm (b : Block) (p : RegInfo → List Nat → FieldInfo → Bool) : (Block.loseRegs b p).nvm = b.nvm := by
  suffices h : KeepNvm b.nvm (Block.loseRegs b p) from h
  have h0 : KeepNvm b.nvm b := rfl
  unfold Block.loseRegs
  repeat' first
    | with_reducible assumption
    | (extract_lets +onlyGivenNames x; guard_hyp x : Block := _; refine keepNvm_named (n := b.nvm) x ?_ ?_; dsimp -zeta only [x]; clear x; rotate_left; clear_value x; revert x; intro _ _)
    | (extract_lets +onlyGivenNames x; clear_value x; revert x; intro _)
    | (show Block.nvm _ = _; dsimp -zeta only; done)
    | (show Block.nvm _ = _; dsimp -zeta only; show KeepNvm _ _)
    | split

theorem Block.calForget_nvm (b : Block) (s : Nat) (all : Bool) : (Block.calForget b s all).nvm = b.nvm := by
  suffices h : KeepNvm b.nvm (Block.calForget b s all) from h
  have h0 : KeepNvm b.nvm b := rfl
  unfold Block.calForget
  repeat' first
    | with_reducible assumption
    | (extract_lets +onlyGivenNames x; guard_hyp x : Block := _; refine keepNvm_named (n := b.nvm) x ?_ ?_; dsimp -zeta only [x]; clear x; rotate_left; clear_value x; revert x; intro _ _)
    | (extract_lets +onlyGivenNames x; clear_value x; revert x; intro _)
    | (show Block.nvm _ = _; dsimp -zeta only; done)
    | (show Block.nvm _ = _; dsimp -zeta only; show KeepNvm _ _)
    | with_reducible refine keepNvm_ite ?_ ?_
    | split

theorem Block.chOff_nvm (b : Block) (n : Nat) (keep : Bool) : (Block.chOff b n keep).nvm = b.nvm := by
  suffices h : KeepNvm b.nvm (Block.chOff b n keep) from h
  have h0 : KeepNvm b.nvm b := rfl
  unfold Block.chOff
  repeat' first
    | with_reducible assumption
    | (extract_lets +onlyGivenNames x; guard_hyp x : Block := _; refine keepNvm_named (n := b.nvm) x ?_ ?_; dsimp -zeta only [x]; clear x; rotate_left; clear_value x; revert x; intro _ _)
    | (extract_lets +onlyGivenNames x; clear_value x; revert x; intro _)
    | with_reducible first
      | refine keepNvm_forEach ?_ (fun c a hc => ?_)
      | apply keepNvm_eq (Block.wr_nvm ..)
      | apply keepNvm_eq (Block.updSub_nvm ..)
      | apply keepNvm_eq (Block.subStops_nvm (hev := Block.event0_nvm) ..)
      | apply keepNvm_eq (Block.subStops_nvm (hev := Block.event_nvm) ..)
    | with_reducible first
      | apply keepNvm_eq (Block.event_nvm ..)
      | apply keepNvm_eq (Block.ckStop_nvm ..)
      | apply keepNvm_eq (Block.loseRegs_nvm ..)
      | apply keepNvm_eq (Block.calForget_nvm ..)
    | (show Block.nvm _ = _; dsimp -zeta only; done)
    | (show Block.nvm _ = _; dsimp -zeta only; show KeepNvm _ _)
    | with_reducible refine keepNvm_ite ?_ ?_
    | split

theorem Block.restoreErr_nvm (b : Block) (kind : Nat) : (Block.restoreErr b kind).nvm = b.nvm := by
  suffices h : KeepNvm b.nvm (Block.restoreErr b kind) from h
  have h0 : KeepNvm b.nvm b := rfl
  unfold Block.restoreErr
  repeat' first
    | with_reducible assumption
    | (extract_lets +onlyGivenNames x; guard_hyp x : Block := _; refine keepNvm_named (n := b.nvm) x ?_ ?_; dsimp -zeta only [x]; clear x; rotate_left; clear_value x; revert x; intro _ _)
    | (extract_lets +onlyGivenNames x; clear_value x; revert x; intro _)
    | with_reducible first
      | apply keepNvm_eq (Block.wr_nvm ..)
      | apply keepNvm_eq (Block.intr_nvm ..)
      | apply keepNvm_eq (Block.event_nvm ..)
    | (show Block.nvm _ = _; dsimp -zeta only; done)
    | (show Block.nvm _ = _; dsimp -zeta only; show KeepNvm _ _)
    | with_reducible refine keepNvm_ite ?_ ?_
    | split

theorem Block.clauseRestore_nvm (b : Block) (s : Nat) : (Block.clauseRestore b s).nvm = b.nvm := by
  suffices h : KeepNvm b.nvm (Block.clauseRestore b s) from h
  have h0 : KeepNvm b.nvm b := rfl
  unfold Block.clauseRestore
  repeat' first
    | with_reducible assumption
    | (extract_lets +onlyGivenNames x; guard_hyp x : Block := _; refine keepNvm_named (n := b.nvm) x ?_ ?_; dsimp -zeta only [x]; clear x; rotate_left; clear_value x; revert x; intro _ _)
    | (extract_lets +onlyGivenNames x; clear_value x; revert x; intro _)
    | with_reducible first
      | apply keepNvm_eq (Block.wr_nvm ..)
      | apply keepNvm_eq (Block.updSub_nvm ..)
      | apply keepNvm_eq (Block.activate_nvm ..)
    | (show Block.nvm _ = _; dsimp -zeta only; done)
    | (show Block.nvm _ = _; dsimp -zeta only; show KeepNvm _ _)
    | with_reducible refine keepNvm_ite ?_ ?_
    | split

theorem Block.restoreSub_nvm (b : Block) (s : Nat) (e : RestoreErr) : (Block.restoreSub b s e).nvm = b.nvm := by
  suffices h : KeepNvm b.nvm (Block.restoreSub b s e) from h
  have h0 : KeepNvm b.nvm b := rfl
  unfold Block.restoreSub
  repeat' first
    | with_reducible assumption
    | (extract_lets +onlyGivenNames x; guard_hyp x : Block := _; refine keepNvm_named (n := b.nvm) x ?_ ?_; dsimp -zeta only [x]; clear x; rotate_left; clear_value x; revert x; intro _ _)
    | (extract_lets +onlyGivenNames x; refine keepNvm_fn x ?_; dsimp -zeta only [x]; clear x)
    | (extract_lets +onlyGivenNames x; refine keepNvm_fn2 x ?_; dsimp -zeta only [x]; clear x)
    | (extract_lets +onlyGivenNames x; refine keepNvm_fn3 x ?_; dsimp -zeta only [x]; clear x)
    | (extract_lets +onlyGivenNames x; refine keepNvm_fn4 x ?_; dsimp -zeta only [x]; clear x)
    | (extract_lets +onlyGivenNames x; clear_value x; revert x; intro _)
    | with_reducible first
      | apply keepNvm_eq (Block.wr_nvm ..)
      | apply keepNvm_eq (Block.loseRegs_nvm ..)
      | apply keepNvm_eq (Block.calForget_nvm ..)
      | apply keepNvm_eq (Block.restoreErr_nvm ..)
      | apply keepNvm_eq (Block.clauseRestore_nvm ..)
    | (show Block.nvm _ = _; dsimp -zeta only; done)
    | (show Block.nvm _ = _; dsimp -zeta only; show KeepNvm _ _)
    | with_reducible refine keepNvm_ite ?_ ?_
    | split

theorem Block.chWakeUp_nvm (b : Block) (n : Nat) : (Block.chWakeUp b n).nvm = b.nvm := by
  suffices h : KeepNvm b.nvm (Block.chWakeUp b n) from h
  have h0 : KeepNvm b.nvm b := rfl
  unfold Block.chWakeUp
  repeat' first
    | with_reducible assumption
    | (extract_lets +onlyGivenNames x; guard_hyp x : Block := _; refine keepNvm_named (n := b.nvm) x ?_ ?_; dsimp -zeta only [x]; clear x; rotate_left; clear_value x; revert x; intro _ _)
    | (extract_lets +onlyGivenNames x; clear_value x; revert x; intro _)
    | with_reducible first
      | refine keepNvm_forEach ?_ (fun c a hc => ?_)
      | apply keepNvm_eq (Block.wr_nvm ..)
      | apply keepNvm_eq (Block.updSub_nvm ..)
      | apply keepNvm_eq (Block.trackJump_nvm ..)
      | apply keepNvm_eq (Block.restartTicks_nvm ..)
    | with_reducible first
      | apply keepNvm_eq (Block.ckStop_nvm ..)
      | apply keepNvm_eq (Block.powerSrx_nvm ..)
    | (show Block.nvm _ = _; dsimp -zeta only; done)
    | (show Block.nvm _ = _; dsimp -zeta only; show KeepNvm _ _)
    | with_reducible refine keepNvm_ite ?_ ?_
    | split

theorem Block.chReturn_nvm (b : Block) (n st : Nat) (e : RestoreErr) : (Block.chReturn b n st e).nvm = b.nvm := by
  suffices h : KeepNvm b.nvm (Block.chReturn b n st e) from h
  have h0 : KeepNvm b.nvm b := rfl
  unfold Block.chReturn
  repeat' first
    | with_reducible assumption
    | (extract_lets +onlyGivenNames x; guard_hyp x : Block := _; refine keepNvm_named (n := b.nvm) x ?_ ?_; dsimp -zeta only [x]; clear x; rotate_left; clear_value x; revert x; intro _ _)
    | (extract_lets +onlyGivenNames x; clear_value x; revert x; intro _)
    | with_reducible first
      | refine keepNvm_forEach ?_ (fun c a hc => ?_)
      | apply keepNvm_eq (Block.wr_nvm ..)
      | apply keepNvm_eq (Block.powerDown_nvm ..)
      | apply keepNvm_eq (Block.trainAsk_nvm ..)
      | apply keepNvm_eq (Block.restoreSub_nvm ..)
    | with_reducible first
      | apply keepNvm_eq (Block.chWakeUp_nvm ..)
    | (show Block.nvm _ = _; dsimp -zeta only; done)
    | (show Block.nvm _ = _; dsimp -zeta only; show KeepNvm _ _)
    | with_reducible refine keepNvm_ite ?_ ?_
    | split

theorem Block.biasStep_nvm (b : Block) : (Block.biasStep b).nvm = b.nvm := by
  suffices h : KeepNvm b.nvm (Block.biasStep b) from h
  have h0 : KeepNvm b.nvm b := rfl
  unfold Block.biasStep
  repeat' first
    | with_reducible assumption
    | (extract_lets +onlyGivenNames x; guard_hyp x : Block := _; refine keepNvm_named (n := b.nvm) x ?_ ?_; dsimp -zeta only [x]; clear x; rotate_left; clear_value x; revert x; intro _ _)
    | (extract_lets +onlyGivenNames x; clear_value x; revert x; intro _)
    | (show Block.nvm _ = _; dsimp -zeta only; done)
    | (show Block.nvm _ = _; dsimp -zeta only; show KeepNvm _ _)
    | with_reducible refine keepNvm_ite ?_ ?_
    | split

theorem Block.sramAck_nvm (b : Block) : (Block.sramAck b).nvm = b.nvm := by
  suffices h : KeepNvm b.nvm (Block.sramAck b) from h
  have h0 : KeepNvm b.nvm b := rfl
  unfold Block.sramAck
  repeat' first
    | with_reducible assumption
    | (extract_lets +onlyGivenNames x; guard_hyp x : Block := _; refine keepNvm_named (n := b.nvm) x ?_ ?_; dsimp -zeta only [x]; clear x; rotate_left; clear_value x; revert x; intro _ _)
    | (extract_lets +onlyGivenNames x; clear_value x; revert x; intro _)
    | (show Block.nvm _ = _; dsimp -zeta only; done)
    | (show Block.nvm _ = _; dsimp -zeta only; show KeepNvm _ _)
    | split

theorem Block.sramLate_nvm (b : Block) : (Block.sramLate b).nvm = b.nvm := by
  suffices h : KeepNvm b.nvm (Block.sramLate b) from h
  have h0 : KeepNvm b.nvm b := rfl
  unfold Block.sramLate
  repeat' first
    | with_reducible assumption
    | (extract_lets +onlyGivenNames x; guard_hyp x : Block := _; refine keepNvm_named (n := b.nvm) x ?_ ?_; dsimp -zeta only [x]; clear x; rotate_left; clear_value x; revert x; intro _ _)
    | (extract_lets +onlyGivenNames x; clear_value x; revert x; intro _)
    | with_reducible first
      | apply keepNvm_eq (Block.eventPlain_nvm ..)
    | (show Block.nvm _ = _; dsimp -zeta only; done)
    | (show Block.nvm _ = _; dsimp -zeta only; show KeepNvm _ _)
    | split

end Sys2Proof.Machine
end

