-- ==== Sys2Proof/Laws/Nvm/Replace.lean ====
section
/-! SUPPORT. No operation of Machine/Replace.lean changes the non-volatile store, but for those named. -/

namespace Sys2Proof.Machine

theorem Block.rplRefuse_nvm (b : Block) (n code : Nat) : (Block.rplRefuse b n code).nvm = b.nvm := by
  suffices h : KeepNvm b.nvm (Block.rplRefuse b n code) from h
  have h0 : KeepNvm b.nvm b := rfl
  unfold Block.rplRefuse
  repeat' first
    | with_reducible assumption
    | with_reducible first
      | apply keepNvm_eq (Block.wr_nvm ..)
    | (show Block.nvm _ = _; dsimp -zeta only; done)
    | (show Block.nvm _ = _; dsimp -zeta only; show KeepNvm _ _)
    | split

theorem Block.rplEnd_nvm (b : Block) (n state : Nat) : (Block.rplEnd b n state).nvm = b.nvm := by
  suffices h : KeepNvm b.nvm (Block.rplEnd b n state) from h
  have h0 : KeepNvm b.nvm b := rfl
  unfold Block.rplEnd
  repeat' first
    | with_reducible assumption
    | (extract_lets +onlyGivenNames x; guard_hyp x : Block := _; refine keepNvm_named (n := b.nvm) x ?_ ?_; dsimp -zeta only [x]; clear x; rotate_left; clear_value x; revert x; intro _ _)
    | (extract_lets +onlyGivenNames x; clear_value x; revert x; intro _)
    | with_reducible first
      | apply keepNvm_eq (Block.wr_nvm ..)
      | apply keepNvm_eq (Block.intr_nvm ..)
    | (show Block.nvm _ = _; dsimp -zeta only; done)
    | (show Block.nvm _ = _; dsimp -zeta only; show KeepNvm _ _)
    | split

theorem Block.rplPhase_nvm (b : Block) (n p : Nat) : (Block.rplPhase b n p).nvm = b.nvm := by
  suffices h : KeepNvm b.nvm (Block.rplPhase b n p) from h
  have h0 : KeepNvm b.nvm b := rfl
  unfold Block.rplPhase
  repeat' first
    | with_reducible assumption
    | (extract_lets +onlyGivenNames x; guard_hyp x : Block := _; refine keepNvm_named (n := b.nvm) x ?_ ?_; dsimp -zeta only [x]; clear x; rotate_left; clear_value x; revert x; intro _ _)
    | (extract_lets +onlyGivenNames x; clear_value x; revert x; intro _)
    | (show Block.nvm _ = _; dsimp -zeta only; done)
    | (show Block.nvm _ = _; dsimp -zeta only; show KeepNvm _ _)
    | split

theorem Block.releaseOff_nvm (b : Block) (n : Nat) : (Block.releaseOff b n).nvm = b.nvm := by
  suffices h : KeepNvm b.nvm (Block.releaseOff b n) from h
  have h0 : KeepNvm b.nvm b := rfl
  unfold Block.releaseOff
  repeat' first
    | with_reducible assumption
    | (extract_lets +onlyGivenNames x; guard_hyp x : Block := _; refine keepNvm_named (n := b.nvm) x ?_ ?_; dsimp -zeta only [x]; clear x; rotate_left; clear_value x; revert x; intro _ _)
    | (extract_lets +onlyGivenNames x; clear_value x; revert x; intro _)
    | with_reducible first
      | refine keepNvm_forEach ?_ (fun c a hc => ?_)
      | refine keepNvm1_mk ?_
      | refine keepNvm2_mk ?_
      | apply keepNvm_eq (Block.updSub_nvm ..)
      | apply keepNvm_eq (Block.storeLedger_nvm ..)
    | with_reducible first
      | apply keepNvm_eq (Block.ckSettle_nvm ..)
      | apply keepNvm_eq (Block.subStops_nvm (hev := Block.event0_nvm) ..)
      | apply keepNvm_eq (Block.subStops_nvm (hev := Block.event_nvm) ..)
      | apply keepNvm_eq (Block.fenceChannel_nvm ..)
      | apply keepNvm_eq (Block.event_nvm ..)
    | with_reducible first
      | apply keepNvm_eq (Block.ckStop_nvm ..)
      | apply keepNvm_eq (Block.rplPhase_nvm ..)
    | (show Block.nvm _ = _; dsimp -zeta only; done)
    | (show Block.nvm _ = _; dsimp -zeta only; show KeepNvm _ _)
    | with_reducible refine keepNvm_ite ?_ ?_
    | with_reducible refine keepNvm1_ite ?_ ?_
    | with_reducible refine keepNvm2_ite ?_ ?_
    | split
    | with_reducible refine keepNvm_fst (by assumption) ?_
    | with_reducible refine keepNvm_snd (by assumption) ?_
    | assumption

theorem Block.releaseCheck_nvm (b : Block) (n : Nat) : (Block.releaseCheck b n).nvm = b.nvm := by
  suffices h : KeepNvm b.nvm (Block.releaseCheck b n) from h
  have h0 : KeepNvm b.nvm b := rfl
  unfold Block.releaseCheck
  repeat' first
    | with_reducible assumption
    | with_reducible first
      | apply keepNvm_eq (Block.releaseOff_nvm ..)
    | (show Block.nvm _ = _; dsimp -zeta only; done)
    | (show Block.nvm _ = _; dsimp -zeta only; show KeepNvm _ _)
    | with_reducible refine keepNvm_ite ?_ ?_
    | split

theorem Block.release_nvm (b : Block) (n : Nat) : (Block.release b n).nvm = b.nvm := by
  suffices h : KeepNvm b.nvm (Block.release b n) from h
  have h0 : KeepNvm b.nvm b := rfl
  unfold Block.release
  repeat' first
    | with_reducible assumption
    | (extract_lets +onlyGivenNames x; guard_hyp x : Block := _; refine keepNvm_named (n := b.nvm) x ?_ ?_; dsimp -zeta only [x]; clear x; rotate_left; clear_value x; revert x; intro _ _)
    | (extract_lets +onlyGivenNames x; clear_value x; revert x; intro _)
    | with_reducible first
      | refine keepNvm_forEach ?_ (fun c a hc => ?_)
      | apply keepNvm_eq (Block.wr_nvm ..)
      | apply keepNvm_eq (Block.rplRefuse_nvm ..)
      | apply keepNvm_eq (Block.rplPhase_nvm ..)
      | apply keepNvm_eq (Block.releaseCheck_nvm ..)
    | (show Block.nvm _ = _; dsimp -zeta only; done)
    | (show Block.nvm _ = _; dsimp -zeta only; show KeepNvm _ _)
    | with_reducible refine keepNvm_ite ?_ ?_
    | split

theorem Block.releaseLate_nvm (b : Block) (n : Nat) : (Block.releaseLate b n).nvm = b.nvm := by
  suffices h : KeepNvm b.nvm (Block.releaseLate b n) from h
  have h0 : KeepNvm b.nvm b := rfl
  unfold Block.releaseLate
  repeat' first
    | with_reducible assumption
    | with_reducible first
      | apply keepNvm_eq (Block.wr_nvm ..)
      | apply keepNvm_eq (Block.releaseOff_nvm ..)
    | (show Block.nvm _ = _; dsimp -zeta only; done)
    | (show Block.nvm _ = _; dsimp -zeta only; show KeepNvm _ _)
    | with_reducible refine keepNvm_ite ?_ ?_
    | split

theorem Block.releasedOff_nvm (b : Block) (n : Nat) : (Block.releasedOff b n).nvm = b.nvm := by
  suffices h : KeepNvm b.nvm (Block.releasedOff b n) from h
  have h0 : KeepNvm b.nvm b := rfl
  unfold Block.releasedOff
  repeat' first
    | with_reducible assumption
    | (extract_lets +onlyGivenNames x; guard_hyp x : Block := _; refine keepNvm_named (n := b.nvm) x ?_ ?_; dsimp -zeta only [x]; clear x; rotate_left; clear_value x; revert x; intro _ _)
    | (extract_lets +onlyGivenNames x; clear_value x; revert x; intro _)
    | with_reducible first
      | refine keepNvm1_mk ?_
      | refine keepNvm2_mk ?_
      | apply keepNvm_eq (Block.wr_nvm ..)
      | apply keepNvm_eq (Block.updLedger_nvm ..)
      | apply keepNvm_eq (Block.chOff_nvm ..)
    | with_reducible first
      | apply keepNvm_eq (Block.biasStep_nvm ..)
      | apply keepNvm_eq (Block.rplEnd_nvm ..)
    | (show Block.nvm _ = _; dsimp -zeta only; done)
    | (show Block.nvm _ = _; dsimp -zeta only; show KeepNvm _ _)
    | with_reducible refine keepNvm_ite ?_ ?_
    | with_reducible refine keepNvm1_ite ?_ ?_
    | with_reducible refine keepNvm2_ite ?_ ?_
    | split
    | with_reducible refine keepNvm_fst (by assumption) ?_
    | with_reducible refine keepNvm_snd (by assumption) ?_
    | assumption

theorem Block.attach_nvm (b : Block) (n : Nat) : (Block.attach b n).nvm = b.nvm := by
  suffices h : KeepNvm b.nvm (Block.attach b n) from h
  have h0 : KeepNvm b.nvm b := rfl
  unfold Block.attach
  repeat' first
    | with_reducible assumption
    | (extract_lets +onlyGivenNames x; guard_hyp x : Block := _; refine keepNvm_named (n := b.nvm) x ?_ ?_; dsimp -zeta only [x]; clear x; rotate_left; clear_value x; revert x; intro _ _)
    | (extract_lets +onlyGivenNames x; clear_value x; revert x; intro _)
    | with_reducible first
      | apply keepNvm_eq (Block.wr_nvm ..)
      | apply keepNvm_eq (Block.rplRefuse_nvm ..)
      | apply keepNvm_eq (Block.rplPhase_nvm ..)
    | (show Block.nvm _ = _; dsimp -zeta only; done)
    | (show Block.nvm _ = _; dsimp -zeta only; show KeepNvm _ _)
    | with_reducible refine keepNvm_ite ?_ ?_
    | split

theorem Block.attachPower_nvm (b : Block) (n : Nat) : (Block.attachPower b n).nvm = b.nvm := by
  suffices h : KeepNvm b.nvm (Block.attachPower b n) from h
  have h0 : KeepNvm b.nvm b := rfl
  unfold Block.attachPower
  repeat' first
    | with_reducible assumption
    | (extract_lets +onlyGivenNames x; guard_hyp x : Block := _; refine keepNvm_named (n := b.nvm) x ?_ ?_; dsimp -zeta only [x]; clear x; rotate_left; clear_value x; revert x; intro _ _)
    | (extract_lets +onlyGivenNames x; clear_value x; revert x; intro _)
    | with_reducible first
      | refine keepNvm1_foldl ?_ (fun c a hc => ?_)
      | refine keepNvm2_foldl ?_ (fun c a hc => ?_)
      | refine keepNvm1_mk ?_
      | refine keepNvm2_mk ?_
      | apply keepNvm_eq (Block.wr_nvm ..)
    | with_reducible first
      | apply keepNvm_eq (Block.attachTrain_nvm ..)
      | apply keepNvm_eq (Block.biasStep_nvm ..)
      | apply keepNvm_eq (Block.rplPhase_nvm ..)
    | (show Block.nvm _ = _; dsimp -zeta only; done)
    | (show Block.nvm _ = _; dsimp -zeta only; show KeepNvm _ _)
    | with_reducible refine keepNvm_ite ?_ ?_
    | with_reducible refine keepNvm1_ite ?_ ?_
    | with_reducible refine keepNvm2_ite ?_ ?_
    | split
    | with_reducible refine keepNvm_fst (by assumption) ?_
    | with_reducible refine keepNvm_snd (by assumption) ?_
    | with_reducible refine keepNvm_of1 ?_
    | with_reducible refine keepNvm_of2 ?_
    | assumption

theorem Block.rplResume_nvm (b : Block) (n : Nat) : (Block.rplResume b n).nvm = b.nvm := by
  suffices h : KeepNvm b.nvm (Block.rplResume b n) from h
  have h0 : KeepNvm b.nvm b := rfl
  unfold Block.rplResume
  repeat' first
    | with_reducible assumption
    | (extract_lets +onlyGivenNames x; guard_hyp x : Block := _; refine keepNvm_named (n := b.nvm) x ?_ ?_; dsimp -zeta only [x]; clear x; rotate_left; clear_value x; revert x; intro _ _)
    | (extract_lets +onlyGivenNames x; clear_value x; revert x; intro _)
    | with_reducible first
      | refine keepNvm_forEach ?_ (fun c a hc => ?_)
      | apply keepNvm_eq (Block.wr_nvm ..)
      | apply keepNvm_eq (Block.fenceDrop_nvm ..)
      | apply keepNvm_eq (Block.clearOne_nvm ..)
      | apply keepNvm_eq (Block.rplRefuse_nvm ..)
    | with_reducible first
      | apply keepNvm_eq (Block.rplEnd_nvm ..)
    | (show Block.nvm _ = _; dsimp -zeta only; done)
    | (show Block.nvm _ = _; dsimp -zeta only; show KeepNvm _ _)
    | with_reducible refine keepNvm_ite ?_ ?_
    | split

theorem Block.rplGo_nvm (b : Block) (n cmd : Nat) : (Block.rplGo b n cmd).nvm = b.nvm := by
  suffices h : KeepNvm b.nvm (Block.rplGo b n cmd) from h
  have h0 : KeepNvm b.nvm b := rfl
  unfold Block.rplGo
  repeat' first
    | with_reducible assumption
    | with_reducible first
      | apply keepNvm_eq (Block.wr_nvm ..)
      | apply keepNvm_eq (Block.release_nvm ..)
      | apply keepNvm_eq (Block.attach_nvm ..)
      | apply keepNvm_eq (Block.rplResume_nvm ..)
    | (show Block.nvm _ = _; dsimp -zeta only; done)
    | (show Block.nvm _ = _; dsimp -zeta only; show KeepNvm _ _)
    | with_reducible refine keepNvm_ite ?_ ?_
    | split

end Sys2Proof.Machine
end

