-- ==== Sys2Proof/Laws/Nvm/Image.lean ====
section
/-! SUPPORT. No operation of Machine/Image.lean changes the non-volatile store, but for those named. -/

namespace Sys2Proof.Machine

theorem Block.imEnd_nvm (b : Block) (state code index detail offset old : Nat) : (Block.imEnd b state code index detail offset old).nvm = b.nvm := by
  suffices h : KeepNvm b.nvm (Block.imEnd b state code index detail offset old) from h
  have h0 : KeepNvm b.nvm b := rfl
  unfold Block.imEnd
  repeat' first
    | with_reducible assumption
    | (extract_lets +onlyGivenNames x; guard_hyp x : Block := _; refine keepNvm_named (n := b.nvm) x ?_ ?_; dsimp -zeta only [x]; clear x; rotate_left; clear_value x; revert x; intro _ _)
    | (extract_lets +onlyGivenNames x; clear_value x; revert x; intro _)
    | with_reducible first
      | apply keepNvm_eq (Block.wr_nvm ..)
      | apply keepNvm_eq (Block.intr_nvm ..)
      | apply keepNvm_eq (Block.audOwn_nvm ..)
    | (show Block.nvm _ = _; dsimp -zeta only; done)
    | (show Block.nvm _ = _; dsimp -zeta only; show KeepNvm _ _)
    | with_reducible refine keepNvm_ite ?_ ?_
    | split

theorem Block.imFail_nvm (b : Block) (code index detail offset : Nat) : (Block.imFail b code index detail offset).nvm = b.nvm := by
  suffices h : KeepNvm b.nvm (Block.imFail b code index detail offset) from h
  have h0 : KeepNvm b.nvm b := rfl
  unfold Block.imFail
  repeat' first
    | with_reducible assumption
    | (extract_lets +onlyGivenNames x; guard_hyp x : Block := _; refine keepNvm_named (n := b.nvm) x ?_ ?_; dsimp -zeta only [x]; clear x; rotate_left; clear_value x; revert x; intro _ _)
    | (extract_lets +onlyGivenNames x; clear_value x; revert x; intro _)
    | with_reducible first
      | apply keepNvm_eq (Block.startFail_nvm ..)
      | apply keepNvm_eq (Block.imEnd_nvm ..)
    | (show Block.nvm _ = _; dsimp -zeta only; done)
    | (show Block.nvm _ = _; dsimp -zeta only; show KeepNvm _ _)
    | with_reducible refine keepNvm_ite ?_ ?_
    | split

theorem Block.imByte_nvm (b : Block) (x : Byte) : (Block.imByte b x).nvm = b.nvm := by
  suffices h : KeepNvm b.nvm (Block.imByte b x) from h
  have h0 : KeepNvm b.nvm b := rfl
  unfold Block.imByte
  repeat' first
    | with_reducible assumption
    | (extract_lets +onlyGivenNames x; guard_hyp x : Block := _; refine keepNvm_named (n := b.nvm) x ?_ ?_; dsimp -zeta only [x]; clear x; rotate_left; clear_value x; revert x; intro _ _)
    | (extract_lets +onlyGivenNames x; clear_value x; revert x; intro _)
    | with_reducible first
      | apply keepNvm_eq (Block.wr_nvm ..)
      | apply keepNvm_eq (Block.imFail_nvm ..)
    | (show Block.nvm _ = _; dsimp -zeta only; done)
    | (show Block.nvm _ = _; dsimp -zeta only; show KeepNvm _ _)
    | with_reducible refine keepNvm_ite ?_ ?_
    | split

theorem Block.imOpen_nvm (b : Block) (role : Nat) : (Block.imOpen b role).nvm = b.nvm := by
  suffices h : KeepNvm b.nvm (Block.imOpen b role) from h
  have h0 : KeepNvm b.nvm b := rfl
  unfold Block.imOpen
  repeat' first
    | with_reducible assumption
    | (extract_lets +onlyGivenNames x; guard_hyp x : Block := _; refine keepNvm_named (n := b.nvm) x ?_ ?_; dsimp -zeta only [x]; clear x; rotate_left; clear_value x; revert x; intro _ _)
    | (extract_lets +onlyGivenNames x; clear_value x; revert x; intro _)
    | with_reducible first
      | apply keepNvm_eq (Block.wr_nvm ..)
    | (show Block.nvm _ = _; dsimp -zeta only; done)
    | (show Block.nvm _ = _; dsimp -zeta only; show KeepNvm _ _)
    | with_reducible refine keepNvm_ite ?_ ?_
    | split

theorem Block.imAbort_nvm (b : Block) : (Block.imAbort b).nvm = b.nvm := by
  suffices h : KeepNvm b.nvm (Block.imAbort b) from h
  have h0 : KeepNvm b.nvm b := rfl
  unfold Block.imAbort
  repeat' first
    | with_reducible assumption
    | with_reducible first
      | apply keepNvm_eq (Block.imFail_nvm ..)
    | (show Block.nvm _ = _; dsimp -zeta only; done)
    | (show Block.nvm _ = _; dsimp -zeta only; show KeepNvm _ _)
    | with_reducible refine keepNvm_ite ?_ ?_
    | split

theorem Block.candidate_nvm (b : Block) : (Block.candidate b).nvm = b.nvm := by
  suffices h : KeepNvm b.nvm (Block.candidate b) from h
  have h0 : KeepNvm b.nvm b := rfl
  unfold Block.candidate
  repeat' first
    | with_reducible assumption
    | (extract_lets +onlyGivenNames x; guard_hyp x : Block := _; refine keepNvm_named (n := b.nvm) x ?_ ?_; dsimp -zeta only [x]; clear x; rotate_left; clear_value x; revert x; intro _ _)
    | (extract_lets +onlyGivenNames x; clear_value x; revert x; intro _)
    | (show Block.nvm _ = _; dsimp -zeta only; done)
    | (show Block.nvm _ = _; dsimp -zeta only; show KeepNvm _ _)
    | split

theorem Block.imDecide_nvm (b : Block) : (Block.imDecide b).nvm = b.nvm := by
  suffices h : KeepNvm b.nvm (Block.imDecide b) from h
  have h0 : KeepNvm b.nvm b := rfl
  unfold Block.imDecide
  repeat' first
    | with_reducible assumption
    | (extract_lets +onlyGivenNames x; guard_hyp x : Block := _; refine keepNvm_named (n := b.nvm) x ?_ ?_; dsimp -zeta only [x]; clear x; rotate_left; clear_value x; revert x; intro _ _)
    | (extract_lets +onlyGivenNames x; clear_value x; revert x; intro _)
    | with_reducible first
      | apply keepNvm_eq (Block.wr_nvm ..)
      | apply keepNvm_eq (Block.imEnd_nvm ..)
      | apply keepNvm_eq (Block.imFail_nvm ..)
    | (show Block.nvm _ = _; dsimp -zeta only; done)
    | (show Block.nvm _ = _; dsimp -zeta only; show KeepNvm _ _)
    | with_reducible refine keepNvm_ite ?_ ?_
    | split

theorem Block.imChecks_nvm (b : Block) : (Block.imChecks b).nvm = b.nvm := by
  suffices h : KeepNvm b.nvm (Block.imChecks b) from h
  have h0 : KeepNvm b.nvm b := rfl
  unfold Block.imChecks
  repeat' first
    | with_reducible assumption
    | with_reducible first
      | apply keepNvm_eq (Block.wr_nvm ..)
      | apply keepNvm_eq (Block.imFail_nvm ..)
      | apply keepNvm_eq (Block.imDecide_nvm ..)
    | (show Block.nvm _ = _; dsimp -zeta only; done)
    | (show Block.nvm _ = _; dsimp -zeta only; show KeepNvm _ _)
    | with_reducible refine keepNvm_ite ?_ ?_
    | split

theorem Block.loadSeverity_nvm (b : Block) (bs : List Byte) : (Block.loadSeverity b bs).nvm = b.nvm := by
  suffices h : KeepNvm b.nvm (Block.loadSeverity b bs) from h
  have h0 : KeepNvm b.nvm b := rfl
  unfold Block.loadSeverity
  repeat' first
    | with_reducible assumption
    | with_reducible first
      | refine keepNvm_forEach ?_ (fun c a hc => ?_)
      | apply keepNvm_eq (Block.wr_nvm ..)
    | (show Block.nvm _ = _; dsimp -zeta only; done)
    | (show Block.nvm _ = _; dsimp -zeta only; show KeepNvm _ _)
    | split

theorem Block.showSentences_nvm (b : Block) : (Block.showSentences b).nvm = b.nvm := by
  suffices h : KeepNvm b.nvm (Block.showSentences b) from h
  have h0 : KeepNvm b.nvm b := rfl
  unfold Block.showSentences
  repeat' first
    | with_reducible assumption
    | (extract_lets +onlyGivenNames x; guard_hyp x : Block := _; refine keepNvm_named (n := b.nvm) x ?_ ?_; dsimp -zeta only [x]; clear x; rotate_left; clear_value x; revert x; intro _ _)
    | (extract_lets +onlyGivenNames x; clear_value x; revert x; intro _)
    | with_reducible first
      | apply keepNvm_eq (Block.wr_nvm ..)
    | (show Block.nvm _ = _; dsimp -zeta only; done)
    | (show Block.nvm _ = _; dsimp -zeta only; show KeepNvm _ _)
    | split

theorem Block.applyStart_nvm (b : Block) : (Block.applyStart b).nvm = b.nvm := by
  suffices h : KeepNvm b.nvm (Block.applyStart b) from h
  have h0 : KeepNvm b.nvm b := rfl
  unfold Block.applyStart
  repeat' first
    | with_reducible assumption
    | (extract_lets +onlyGivenNames x; guard_hyp x : Block := _; refine keepNvm_named (n := b.nvm) x ?_ ?_; dsimp -zeta only [x]; clear x; rotate_left; clear_value x; revert x; intro _ _)
    | (extract_lets +onlyGivenNames x; clear_value x; revert x; intro _)
    | with_reducible first
      | refine keepNvm_forEach ?_ (fun c a hc => ?_)
      | apply keepNvm_eq (Block.wr_nvm ..)
      | apply keepNvm_eq (Block.wrB_nvm ..)
      | apply keepNvm_eq (Block.wrWork_nvm ..)
      | apply keepNvm_eq (Block.loadRecord_nvm ..)
    | with_reducible first
      | apply keepNvm_eq (Block.loadSeverity_nvm ..)
      | apply keepNvm_eq (Block.showSentences_nvm ..)
    | (show Block.nvm _ = _; dsimp -zeta only; done)
    | (show Block.nvm _ = _; dsimp -zeta only; show KeepNvm _ _)
    | with_reducible refine keepNvm_ite ?_ ?_
    | split

theorem Block.applyReload_nvm (b : Block) : (Block.applyReload b).nvm = b.nvm := by
  suffices h : KeepNvm b.nvm (Block.applyReload b) from h
  have h0 : KeepNvm b.nvm b := rfl
  unfold Block.applyReload
  repeat' first
    | with_reducible assumption
    | (extract_lets +onlyGivenNames x; guard_hyp x : Block := _; refine keepNvm_named (n := b.nvm) x ?_ ?_; dsimp -zeta only [x]; clear x; rotate_left; clear_value x; revert x; intro _ _)
    | (extract_lets +onlyGivenNames x; clear_value x; revert x; intro _)
    | with_reducible first
      | refine keepNvm_forEach ?_ (fun c a hc => ?_)
      | apply keepNvm_eq (Block.wr_nvm ..)
      | apply keepNvm_eq (Block.loadSeverity_nvm ..)
      | apply keepNvm_eq (Block.showSentences_nvm ..)
    | (show Block.nvm _ = _; dsimp -zeta only; done)
    | (show Block.nvm _ = _; dsimp -zeta only; show KeepNvm _ _)
    | with_reducible refine keepNvm_ite ?_ ?_
    | split

theorem Block.imApplied_nvm (b : Block) : (Block.imApplied b).nvm = b.nvm := by
  suffices h : KeepNvm b.nvm (Block.imApplied b) from h
  have h0 : KeepNvm b.nvm b := rfl
  unfold Block.imApplied
  repeat' first
    | with_reducible assumption
    | (extract_lets +onlyGivenNames x; guard_hyp x : Block := _; refine keepNvm_named (n := b.nvm) x ?_ ?_; dsimp -zeta only [x]; clear x; rotate_left; clear_value x; revert x; intro _ _)
    | (extract_lets +onlyGivenNames x; clear_value x; revert x; intro _)
    | with_reducible first
      | apply keepNvm_eq (Block.wr_nvm ..)
      | apply keepNvm_eq (Block.enterStep5_nvm ..)
      | apply keepNvm_eq (Block.imEnd_nvm ..)
      | apply keepNvm_eq (Block.applyStart_nvm ..)
      | apply keepNvm_eq (Block.applyReload_nvm ..)
    | (show Block.nvm _ = _; dsimp -zeta only; done)
    | (show Block.nvm _ = _; dsimp -zeta only; show KeepNvm _ _)
    | with_reducible refine keepNvm_ite ?_ ?_
    | split

theorem Block.imLight_nvm (b : Block) : (Block.imLight b).nvm = b.nvm := by
  suffices h : KeepNvm b.nvm (Block.imLight b) from h
  have h0 : KeepNvm b.nvm b := rfl
  unfold Block.imLight
  repeat' first
    | with_reducible assumption
    | (extract_lets +onlyGivenNames x; guard_hyp x : Block := _; refine keepNvm_named (n := b.nvm) x ?_ ?_; dsimp -zeta only [x]; clear x; rotate_left; clear_value x; revert x; intro _ _)
    | (extract_lets +onlyGivenNames x; clear_value x; revert x; intro _)
    | with_reducible first
      | apply keepNvm_eq (Block.lightGo_nvm ..)
      | apply keepNvm_eq (Block.lightShadow_nvm ..)
    | (show Block.nvm _ = _; dsimp -zeta only; done)
    | (show Block.nvm _ = _; dsimp -zeta only; show KeepNvm _ _)
    | with_reducible refine keepNvm_ite ?_ ?_
    | split

theorem Block.imWindow_nvm (b : Block) (off : Nat) (w : Word) (c : Block) (h : Block.imWindow b off w = some c) :
    c.nvm = b.nvm := by
  unfold Block.imWindow at h
  split at h
  · cases h
  · split at h
    · cases h; exact Block.imFail_nvm ..
    · dsimp only at h
      have h0 : KeepNvm b.nvm (b.wr Reg.IMG_COUNT_VAL (off + 4)) := Block.wr_nvm ..
      generalize b.wr Reg.IMG_COUNT_VAL (off + 4) = d at h h0
      rw [← Option.some.inj h]
      exact keepNvm_forEach h0 (fun c a hc => keepNvm_eq (Block.imByte_nvm ..) hc)

end Sys2Proof.Machine
end

