-- ==== Sys2Proof/Laws/Nvm/Power.lean ====
section
/-! SUPPORT. No operation of Machine/Power.lean changes the non-volatile store, but for those named. -/

namespace Sys2Proof.Machine

theorem Block.pwrEnded_nvm (b : Block) (light : Option Nat) (code : Nat) : (Block.pwrEnded b light code).nvm = b.nvm := by
  suffices h : KeepNvm b.nvm (Block.pwrEnded b light code) from h
  have h0 : KeepNvm b.nvm b := rfl
  unfold Block.pwrEnded
  repeat' first
    | with_reducible assumption
    | (extract_lets +onlyGivenNames x; guard_hyp x : Block := _; refine keepNvm_named (n := b.nvm) x ?_ ?_; dsimp -zeta only [x]; clear x; rotate_left; clear_value x; revert x; intro _ _)
    | (extract_lets +onlyGivenNames x; clear_value x; revert x; intro _)
    | with_reducible first
      | apply keepNvm_eq (Block.wr_nvm ..)
      | apply keepNvm_eq (Block.intr_nvm ..)
    | (show Block.nvm _ = _; dsimp -zeta only; done)
    | (show Block.nvm _ = _; dsimp -zeta only; show KeepNvm _ _)
    | with_reducible refine keepNvm_ite ?_ ?_
    | split

theorem Block.pwrDrop_nvm (b : Block) (p : PwrReq → Bool) : (Block.pwrDrop b p).nvm = b.nvm := by
  suffices h : KeepNvm b.nvm (Block.pwrDrop b p) from h
  have h0 : KeepNvm b.nvm b := rfl
  unfold Block.pwrDrop
  repeat' first
    | with_reducible assumption
    | (extract_lets +onlyGivenNames x; guard_hyp x : Block := _; refine keepNvm_named (n := b.nvm) x ?_ ?_; dsimp -zeta only [x]; clear x; rotate_left; clear_value x; revert x; intro _ _)
    | (extract_lets +onlyGivenNames x; clear_value x; revert x; intro _)
    | (show Block.nvm _ = _; dsimp -zeta only; done)
    | (show Block.nvm _ = _; dsimp -zeta only; show KeepNvm _ _)
    | split

theorem Block.pwrAsk_nvm (b : Block) (light : Option Nat) (state chans : Nat) : (Block.pwrAsk b light state chans).nvm = b.nvm := by
  suffices h : KeepNvm b.nvm (Block.pwrAsk b light state chans) from h
  have h0 : KeepNvm b.nvm b := rfl
  unfold Block.pwrAsk
  repeat' first
    | with_reducible assumption
    | (extract_lets +onlyGivenNames x; guard_hyp x : Block := _; refine keepNvm_named (n := b.nvm) x ?_ ?_; dsimp -zeta only [x]; clear x; rotate_left; clear_value x; revert x; intro _ _)
    | (extract_lets +onlyGivenNames x; clear_value x; revert x; intro _)
    | with_reducible first
      | refine keepNvm_forEach ?_ (fun c a hc => ?_)
      | apply keepNvm_eq (Block.wr_nvm ..)
      | apply keepNvm_eq (Block.wake_nvm ..)
      | apply keepNvm_eq (Block.passS3_nvm ..)
      | apply keepNvm_eq (Block.imAbort_nvm ..)
    | with_reducible first
      | apply keepNvm_eq (Block.pwrEnded_nvm ..)
    | (show Block.nvm _ = _; dsimp -zeta only; done)
    | (show Block.nvm _ = _; dsimp -zeta only; show KeepNvm _ _)
    | with_reducible refine keepNvm_ite ?_ ?_
    | split

theorem Block.pwrGo_nvm (b : Block) : (Block.pwrGo b).nvm = b.nvm := by
  suffices h : KeepNvm b.nvm (Block.pwrGo b) from h
  have h0 : KeepNvm b.nvm b := rfl
  unfold Block.pwrGo
  repeat' first
    | with_reducible assumption
    | with_reducible first
      | apply keepNvm_eq (Block.pwrAsk_nvm ..)
    | (show Block.nvm _ = _; dsimp -zeta only; done)
    | (show Block.nvm _ = _; dsimp -zeta only; show KeepNvm _ _)
    | with_reducible refine keepNvm_ite ?_ ?_
    | split

theorem Block.chEnter_nvm (b : Block) (n st : Nat) : (Block.chEnter b n st).nvm = b.nvm := by
  suffices h : KeepNvm b.nvm (Block.chEnter b n st) from h
  have h0 : KeepNvm b.nvm b := rfl
  unfold Block.chEnter
  repeat' first
    | with_reducible assumption
    | (extract_lets +onlyGivenNames x; guard_hyp x : Block × _ := _; refine keepNvm1_named (n := b.nvm) x ?_ ?_; dsimp -zeta only [x]; clear x; rotate_left; clear_value x; revert x; intro _ _)
    | (extract_lets +onlyGivenNames x; guard_hyp x : Block := _; refine keepNvm_named (n := b.nvm) x ?_ ?_; dsimp -zeta only [x]; clear x; rotate_left; clear_value x; revert x; intro _ _)
    | (extract_lets +onlyGivenNames x; clear_value x; revert x; intro _)
    | with_reducible first
      | refine keepNvm1_mk ?_
      | refine keepNvm2_mk ?_
      | apply keepNvm_eq (Block.wr_nvm ..)
    | (show Block.nvm _ = _; dsimp -zeta only; done)
    | (show Block.nvm _ = _; dsimp -zeta only; show KeepNvm _ _)
    | with_reducible refine keepNvm_ite ?_ ?_
    | with_reducible refine keepNvm1_ite ?_ ?_
    | with_reducible refine keepNvm2_ite ?_ ?_
    | split
    | with_reducible refine keepNvm_fst (by assumption) ?_
    | with_reducible refine keepNvm_snd (by assumption) ?_
    | assumption

theorem Block.s3Begin_nvm (b : Block) : (Block.s3Begin b).nvm = b.nvm := by
  suffices h : KeepNvm b.nvm (Block.s3Begin b) from h
  have h0 : KeepNvm b.nvm b := rfl
  unfold Block.s3Begin
  repeat' first
    | with_reducible assumption
    | (extract_lets +onlyGivenNames x; guard_hyp x : Block := _; refine keepNvm_named (n := b.nvm) x ?_ ?_; dsimp -zeta only [x]; clear x; rotate_left; clear_value x; revert x; intro _ _)
    | (extract_lets +onlyGivenNames x; clear_value x; revert x; intro _)
    | with_reducible first
      | refine keepNvm_forEach ?_ (fun c a hc => ?_)
      | apply keepNvm_eq (Block.wr_nvm ..)
      | apply keepNvm_eq (Block.storeLedger_nvm ..)
      | apply keepNvm_eq (Block.mntApply_nvm ..)
      | apply keepNvm_eq (Block.passS3_nvm ..)
    | (show Block.nvm _ = _; dsimp -zeta only; done)
    | (show Block.nvm _ = _; dsimp -zeta only; show KeepNvm _ _)
    | split

theorem Block.pwrSettle_nvm (b : Block) : (Block.pwrSettle b).nvm = b.nvm := by
  suffices h : KeepNvm b.nvm (Block.pwrSettle b) from h
  have h0 : KeepNvm b.nvm b := rfl
  unfold Block.pwrSettle
  repeat' first
    | with_reducible assumption
    | (extract_lets +onlyGivenNames x; guard_hyp x : Block := _; refine keepNvm_named (n := b.nvm) x ?_ ?_; dsimp -zeta only [x]; clear x; rotate_left; clear_value x; revert x; intro _ _)
    | (extract_lets +onlyGivenNames x; refine keepNvm_fn x ?_; dsimp -zeta only [x]; clear x)
    | (extract_lets +onlyGivenNames x; refine keepNvm_fn2 x ?_; dsimp -zeta only [x]; clear x)
    | (extract_lets +onlyGivenNames x; refine keepNvm_fn3 x ?_; dsimp -zeta only [x]; clear x)
    | (extract_lets +onlyGivenNames x; refine keepNvm_fn4 x ?_; dsimp -zeta only [x]; clear x)
    | (extract_lets +onlyGivenNames x; clear_value x; revert x; intro _)
    | with_reducible first
      | refine keepNvm_forEach ?_ (fun c a hc => ?_)
      | apply keepNvm_eq (Block.pwrEnded_nvm ..)
    | (show Block.nvm _ = _; dsimp -zeta only; done)
    | (show Block.nvm _ = _; dsimp -zeta only; show KeepNvm _ _)
    | split

theorem Block.drainCommit_nvm (b : Block) (who : Option Nat) : (Block.drainCommit b who).nvm = b.nvm := by
  suffices h : KeepNvm b.nvm (Block.drainCommit b who) from h
  have h0 : KeepNvm b.nvm b := rfl
  unfold Block.drainCommit
  repeat' first
    | with_reducible assumption
    | (extract_lets +onlyGivenNames x; guard_hyp x : Block := _; refine keepNvm_named (n := b.nvm) x ?_ ?_; dsimp -zeta only [x]; clear x; rotate_left; clear_value x; revert x; intro _ _)
    | (extract_lets +onlyGivenNames x; refine keepNvm_fn x ?_; dsimp -zeta only [x]; clear x)
    | (extract_lets +onlyGivenNames x; refine keepNvm_fn2 x ?_; dsimp -zeta only [x]; clear x)
    | (extract_lets +onlyGivenNames x; refine keepNvm_fn3 x ?_; dsimp -zeta only [x]; clear x)
    | (extract_lets +onlyGivenNames x; refine keepNvm_fn4 x ?_; dsimp -zeta only [x]; clear x)
    | (extract_lets +onlyGivenNames x; clear_value x; revert x; intro _)
    | with_reducible first
      | refine keepNvm_forEach ?_ (fun c a hc => ?_)
      | apply keepNvm_eq (Block.chEnter_nvm ..)
      | apply keepNvm_eq (Block.s3Begin_nvm ..)
      | apply keepNvm_eq (Block.pwrSettle_nvm ..)
    | (show Block.nvm _ = _; dsimp -zeta only; done)
    | (show Block.nvm _ = _; dsimp -zeta only; show KeepNvm _ _)
    | with_reducible refine keepNvm_ite ?_ ?_
    | split

theorem Block.drainLate_nvm (b : Block) (who : Option Nat) : (Block.drainLate b who).nvm = b.nvm := by
  suffices h : KeepNvm b.nvm (Block.drainLate b who) from h
  have h0 : KeepNvm b.nvm b := rfl
  unfold Block.drainLate
  repeat' first
    | with_reducible assumption
    | (extract_lets +onlyGivenNames x; guard_hyp x : Block := _; refine keepNvm_named (n := b.nvm) x ?_ ?_; dsimp -zeta only [x]; clear x; rotate_left; clear_value x; revert x; intro _ _)
    | (extract_lets +onlyGivenNames x; refine keepNvm_fn x ?_; dsimp -zeta only [x]; clear x)
    | (extract_lets +onlyGivenNames x; refine keepNvm_fn2 x ?_; dsimp -zeta only [x]; clear x)
    | (extract_lets +onlyGivenNames x; refine keepNvm_fn3 x ?_; dsimp -zeta only [x]; clear x)
    | (extract_lets +onlyGivenNames x; refine keepNvm_fn4 x ?_; dsimp -zeta only [x]; clear x)
    | (extract_lets +onlyGivenNames x; clear_value x; revert x; intro _)
    | with_reducible first
      | apply keepNvm_eq (Block.pwrEnded_nvm ..)
      | apply keepNvm_eq (Block.pwrDrop_nvm ..)
    | (show Block.nvm _ = _; dsimp -zeta only; done)
    | (show Block.nvm _ = _; dsimp -zeta only; show KeepNvm _ _)
    | with_reducible refine keepNvm_ite ?_ ?_
    | split

theorem Block.chIdle_nvm (b : Block) (n : Nat) : (Block.chIdle b n).nvm = b.nvm := by
  suffices h : KeepNvm b.nvm (Block.chIdle b n) from h
  have h0 : KeepNvm b.nvm b := rfl
  unfold Block.chIdle
  repeat' first
    | with_reducible assumption
    | (extract_lets +onlyGivenNames x; guard_hyp x : Block := _; refine keepNvm_named (n := b.nvm) x ?_ ?_; dsimp -zeta only [x]; clear x; rotate_left; clear_value x; revert x; intro _ _)
    | (extract_lets +onlyGivenNames x; clear_value x; revert x; intro _)
    | with_reducible first
      | refine keepNvm1_mk ?_
      | refine keepNvm2_mk ?_
      | apply keepNvm_eq (Block.chEnter_nvm ..)
    | (show Block.nvm _ = _; dsimp -zeta only; done)
    | (show Block.nvm _ = _; dsimp -zeta only; show KeepNvm _ _)
    | with_reducible refine keepNvm_ite ?_ ?_
    | with_reducible refine keepNvm1_ite ?_ ?_
    | with_reducible refine keepNvm2_ite ?_ ?_
    | split
    | with_reducible refine keepNvm_fst (by assumption) ?_
    | with_reducible refine keepNvm_snd (by assumption) ?_
    | assumption

theorem Block.blockIdle_nvm (b : Block) : (Block.blockIdle b).nvm = b.nvm := by
  suffices h : KeepNvm b.nvm (Block.blockIdle b) from h
  have h0 : KeepNvm b.nvm b := rfl
  unfold Block.blockIdle
  repeat' first
    | with_reducible assumption
    | (extract_lets +onlyGivenNames x; guard_hyp x : Block := _; refine keepNvm_named (n := b.nvm) x ?_ ?_; dsimp -zeta only [x]; clear x; rotate_left; clear_value x; revert x; intro _ _)
    | (extract_lets +onlyGivenNames x; refine keepNvm_fn x ?_; dsimp -zeta only [x]; clear x)
    | (extract_lets +onlyGivenNames x; refine keepNvm_fn2 x ?_; dsimp -zeta only [x]; clear x)
    | (extract_lets +onlyGivenNames x; refine keepNvm_fn3 x ?_; dsimp -zeta only [x]; clear x)
    | (extract_lets +onlyGivenNames x; refine keepNvm_fn4 x ?_; dsimp -zeta only [x]; clear x)
    | (extract_lets +onlyGivenNames x; clear_value x; revert x; intro _)
    | with_reducible first
      | apply keepNvm_eq (Block.s3Begin_nvm ..)
    | (show Block.nvm _ = _; dsimp -zeta only; done)
    | (show Block.nvm _ = _; dsimp -zeta only; show KeepNvm _ _)
    | with_reducible refine keepNvm_ite ?_ ?_
    | split

theorem Block.s3Leave_nvm (b : Block) : (Block.s3Leave b).nvm = b.nvm := by
  suffices h : KeepNvm b.nvm (Block.s3Leave b) from h
  have h0 : KeepNvm b.nvm b := rfl
  unfold Block.s3Leave
  repeat' first
    | with_reducible assumption
    | (extract_lets +onlyGivenNames x; guard_hyp x : Block := _; refine keepNvm_named (n := b.nvm) x ?_ ?_; dsimp -zeta only [x]; clear x; rotate_left; clear_value x; revert x; intro _ _)
    | (extract_lets +onlyGivenNames x; clear_value x; revert x; intro _)
    | with_reducible first
      | apply keepNvm_eq (Block.wr_nvm ..)
    | (show Block.nvm _ = _; dsimp -zeta only; done)
    | (show Block.nvm _ = _; dsimp -zeta only; show KeepNvm _ _)
    | split

theorem Block.blockWake_nvm (b : Block) (source : Nat) : (Block.blockWake b source).nvm = b.nvm := by
  suffices h : KeepNvm b.nvm (Block.blockWake b source) from h
  have h0 : KeepNvm b.nvm b := rfl
  unfold Block.blockWake
  repeat' first
    | with_reducible assumption
    | (extract_lets +onlyGivenNames x; guard_hyp x : Block := _; refine keepNvm_named (n := b.nvm) x ?_ ?_; dsimp -zeta only [x]; clear x; rotate_left; clear_value x; revert x; intro _ _)
    | (extract_lets +onlyGivenNames x; clear_value x; revert x; intro _)
    | with_reducible first
      | apply keepNvm_eq (Block.wr_nvm ..)
      | apply keepNvm_eq (Block.intr_nvm ..)
      | apply keepNvm_eq (Block.s3Leave_nvm ..)
    | (show Block.nvm _ = _; dsimp -zeta only; done)
    | (show Block.nvm _ = _; dsimp -zeta only; show KeepNvm _ _)
    | with_reducible refine keepNvm_ite ?_ ?_
    | split

theorem Block.chEntered_nvm (b : Block) (n : Nat) : (Block.chEntered b n).nvm = b.nvm := by
  suffices h : KeepNvm b.nvm (Block.chEntered b n) from h
  have h0 : KeepNvm b.nvm b := rfl
  unfold Block.chEntered
  repeat' first
    | with_reducible assumption
    | (extract_lets +onlyGivenNames x; guard_hyp x : Block := _; refine keepNvm_named (n := b.nvm) x ?_ ?_; dsimp -zeta only [x]; clear x; rotate_left; clear_value x; revert x; intro _ _)
    | (extract_lets +onlyGivenNames x; clear_value x; revert x; intro _)
    | with_reducible first
      | apply keepNvm_eq (Block.wr_nvm ..)
      | apply keepNvm_eq (Block.wake_nvm ..)
      | apply keepNvm_eq (Block.powerDown_nvm ..)
      | apply keepNvm_eq (Block.sleepS1_nvm ..)
      | apply keepNvm_eq (Block.chOff_nvm ..)
    | with_reducible first
      | apply keepNvm_eq (Block.biasStep_nvm ..)
      | apply keepNvm_eq (Block.pwrSettle_nvm ..)
    | (show Block.nvm _ = _; dsimp -zeta only; done)
    | (show Block.nvm _ = _; dsimp -zeta only; show KeepNvm _ _)
    | with_reducible refine keepNvm_ite ?_ ?_
    | split

theorem Block.s3Entered_nvm (b : Block) : (Block.s3Entered b).nvm = b.nvm := by
  suffices h : KeepNvm b.nvm (Block.s3Entered b) from h
  have h0 : KeepNvm b.nvm b := rfl
  unfold Block.s3Entered
  repeat' first
    | with_reducible assumption
    | (extract_lets +onlyGivenNames x; guard_hyp x : Block := _; refine keepNvm_named (n := b.nvm) x ?_ ?_; dsimp -zeta only [x]; clear x; rotate_left; clear_value x; revert x; intro _ _)
    | (extract_lets +onlyGivenNames x; clear_value x; revert x; intro _)
    | with_reducible first
      | refine keepNvm_forEach ?_ (fun c a hc => ?_)
      | apply keepNvm_eq (Block.wr_nvm ..)
      | apply keepNvm_eq (Block.sleepS1_nvm ..)
      | apply keepNvm_eq (Block.chOff_nvm ..)
      | apply keepNvm_eq (Block.biasStep_nvm ..)
    | with_reducible first
      | apply keepNvm_eq (Block.pwrEnded_nvm ..)
      | apply keepNvm_eq (Block.s3Leave_nvm ..)
    | (show Block.nvm _ = _; dsimp -zeta only; done)
    | (show Block.nvm _ = _; dsimp -zeta only; show KeepNvm _ _)
    | with_reducible refine keepNvm_ite ?_ ?_
    | split

theorem Block.chExited_nvm (b : Block) (n : Nat) (e : RestoreErr) : (Block.chExited b n e).nvm = b.nvm := by
  suffices h : KeepNvm b.nvm (Block.chExited b n e) from h
  have h0 : KeepNvm b.nvm b := rfl
  unfold Block.chExited
  repeat' first
    | with_reducible assumption
    | with_reducible first
      | apply keepNvm_eq (Block.chReturn_nvm ..)
      | apply keepNvm_eq (Block.biasStep_nvm ..)
    | (show Block.nvm _ = _; dsimp -zeta only; done)
    | (show Block.nvm _ = _; dsimp -zeta only; show KeepNvm _ _)
    | with_reducible refine keepNvm_ite ?_ ?_
    | split

theorem Block.loseItem_nvm (b : Block) (k : Nat) : (Block.loseItem b k).nvm = b.nvm := by
  suffices h : KeepNvm b.nvm (Block.loseItem b k) from h
  have h0 : KeepNvm b.nvm b := rfl
  unfold Block.loseItem
  repeat' first
    | with_reducible assumption
    | (extract_lets +onlyGivenNames x; guard_hyp x : Block := _; refine keepNvm_named (n := b.nvm) x ?_ ?_; dsimp -zeta only [x]; clear x; rotate_left; clear_value x; revert x; intro _ _)
    | (extract_lets +onlyGivenNames x; refine keepNvm_fn x ?_; dsimp -zeta only [x]; clear x)
    | (extract_lets +onlyGivenNames x; refine keepNvm_fn2 x ?_; dsimp -zeta only [x]; clear x)
    | (extract_lets +onlyGivenNames x; refine keepNvm_fn3 x ?_; dsimp -zeta only [x]; clear x)
    | (extract_lets +onlyGivenNames x; refine keepNvm_fn4 x ?_; dsimp -zeta only [x]; clear x)
    | (extract_lets +onlyGivenNames x; clear_value x; revert x; intro _)
    | with_reducible first
      | apply keepNvm_eq (Block.loseRegs_nvm ..)
      | apply keepNvm_eq (Block.restoreErr_nvm ..)
    | (show Block.nvm _ = _; dsimp -zeta only; done)
    | (show Block.nvm _ = _; dsimp -zeta only; show KeepNvm _ _)
    | with_reducible refine keepNvm_ite ?_ ?_
    | split

theorem Block.s3Forget_nvm (b : Block) : (Block.s3Forget b).nvm = b.nvm := by
  suffices h : KeepNvm b.nvm (Block.s3Forget b) from h
  have h0 : KeepNvm b.nvm b := rfl
  unfold Block.s3Forget
  repeat' first
    | with_reducible assumption
    | (extract_lets +onlyGivenNames x; guard_hyp x : Block := _; refine keepNvm_named (n := b.nvm) x ?_ ?_; dsimp -zeta only [x]; clear x; rotate_left; clear_value x; revert x; intro _ _)
    | (extract_lets +onlyGivenNames x; clear_value x; revert x; intro _)
    | with_reducible first
      | refine keepNvm_forEach ?_ (fun c a hc => ?_)
      | apply keepNvm_eq (Block.wrB_nvm ..)
      | apply keepNvm_eq (Block.count_nvm ..)
    | (show Block.nvm _ = _; dsimp -zeta only; done)
    | (show Block.nvm _ = _; dsimp -zeta only; show KeepNvm _ _)
    | split

theorem Block.s3Exited_nvm (b : Block) (e : RestoreErr) : (Block.s3Exited b e).nvm = b.nvm := by
  suffices h : KeepNvm b.nvm (Block.s3Exited b e) from h
  have h0 : KeepNvm b.nvm b := rfl
  unfold Block.s3Exited
  repeat' first
    | with_reducible assumption
    | (extract_lets +onlyGivenNames x; guard_hyp x : Block := _; refine keepNvm_named (n := b.nvm) x ?_ ?_; dsimp -zeta only [x]; clear x; rotate_left; clear_value x; revert x; intro _ _)
    | (extract_lets +onlyGivenNames x; clear_value x; revert x; intro _)
    | with_reducible first
      | refine keepNvm_forEach ?_ (fun c a hc => ?_)
      | apply keepNvm_eq (Block.wr_nvm ..)
      | apply keepNvm_eq (Block.lightsResume_nvm ..)
      | apply keepNvm_eq (Block.setPpb_nvm ..)
      | apply keepNvm_eq (Block.loseRegs_nvm ..)
    | with_reducible first
      | apply keepNvm_eq (Block.restoreErr_nvm ..)
      | apply keepNvm_eq (Block.chReturn_nvm ..)
      | apply keepNvm_eq (Block.biasStep_nvm ..)
      | apply keepNvm_eq (Block.loseItem_nvm ..)
      | apply keepNvm_eq (Block.s3Forget_nvm ..)
    | (show Block.nvm _ = _; dsimp -zeta only; done)
    | (show Block.nvm _ = _; dsimp -zeta only; show KeepNvm _ _)
    | with_reducible refine keepNvm_ite ?_ ?_
    | split

theorem Block.stateExited_nvm (b : Block) (who : Option Nat) (e : RestoreErr) : (Block.stateExited b who e).nvm = b.nvm := by
  suffices h : KeepNvm b.nvm (Block.stateExited b who e) from h
  have h0 : KeepNvm b.nvm b := rfl
  unfold Block.stateExited
  repeat' first
    | with_reducible assumption
    | with_reducible first
      | apply keepNvm_eq (Block.chExited_nvm ..)
      | apply keepNvm_eq (Block.s3Exited_nvm ..)
    | (show Block.nvm _ = _; dsimp -zeta only; done)
    | (show Block.nvm _ = _; dsimp -zeta only; show KeepNvm _ _)
    | split

theorem Block.domainGood_nvm (b : Block) (d : PowerDomain) (level : Bool) : (Block.domainGood b d level).nvm = b.nvm := by
  suffices h : KeepNvm b.nvm (Block.domainGood b d level) from h
  have h0 : KeepNvm b.nvm b := rfl
  unfold Block.domainGood
  repeat' first
    | with_reducible assumption
    | (extract_lets +onlyGivenNames x; guard_hyp x : Block := _; refine keepNvm_named (n := b.nvm) x ?_ ?_; dsimp -zeta only [x]; clear x; rotate_left; clear_value x; revert x; intro _ _)
    | (extract_lets +onlyGivenNames x; refine keepNvm_fn x ?_; dsimp -zeta only [x]; clear x)
    | (extract_lets +onlyGivenNames x; refine keepNvm_fn2 x ?_; dsimp -zeta only [x]; clear x)
    | (extract_lets +onlyGivenNames x; refine keepNvm_fn3 x ?_; dsimp -zeta only [x]; clear x)
    | (extract_lets +onlyGivenNames x; refine keepNvm_fn4 x ?_; dsimp -zeta only [x]; clear x)
    | (extract_lets +onlyGivenNames x; clear_value x; revert x; intro _)
    | with_reducible first
      | refine keepNvm1_mk ?_
      | refine keepNvm2_mk ?_
    | (show Block.nvm _ = _; dsimp -zeta only; done)
    | (show Block.nvm _ = _; dsimp -zeta only; show KeepNvm _ _)
    | with_reducible refine keepNvm_ite ?_ ?_
    | with_reducible refine keepNvm1_ite ?_ ?_
    | with_reducible refine keepNvm2_ite ?_ ?_
    | split
    | with_reducible refine keepNvm_fst (by assumption) ?_
    | with_reducible refine keepNvm_snd (by assumption) ?_
    | assumption

theorem Block.goodLate_nvm (b : Block) (d : PowerDomain) : (Block.goodLate b d).nvm = b.nvm := by
  suffices h : KeepNvm b.nvm (Block.goodLate b d) from h
  have h0 : KeepNvm b.nvm b := rfl
  unfold Block.goodLate
  repeat' first
    | with_reducible assumption
    | (extract_lets +onlyGivenNames x; guard_hyp x : Block := _; refine keepNvm_named (n := b.nvm) x ?_ ?_; dsimp -zeta only [x]; clear x; rotate_left; clear_value x; revert x; intro _ _)
    | (extract_lets +onlyGivenNames x; clear_value x; revert x; intro _)
    | with_reducible first
      | apply keepNvm_eq (Block.wr_nvm ..)
      | apply keepNvm_eq (Block.fenceChannel_nvm ..)
    | (show Block.nvm _ = _; dsimp -zeta only; done)
    | (show Block.nvm _ = _; dsimp -zeta only; show KeepNvm _ _)
    | with_reducible refine keepNvm_ite ?_ ?_
    | split

theorem Block.chPowerLost_nvm (b : Block) (n : Nat) : (Block.chPowerLost b n).nvm = b.nvm := by
  suffices h : KeepNvm b.nvm (Block.chPowerLost b n) from h
  have h0 : KeepNvm b.nvm b := rfl
  unfold Block.chPowerLost
  repeat' first
    | with_reducible assumption
    | (extract_lets +onlyGivenNames x; guard_hyp x : Block := _; refine keepNvm_named (n := b.nvm) x ?_ ?_; dsimp -zeta only [x]; clear x; rotate_left; clear_value x; revert x; intro _ _)
    | (extract_lets +onlyGivenNames x; clear_value x; revert x; intro _)
    | with_reducible first
      | refine keepNvm_forEach ?_ (fun c a hc => ?_)
      | refine keepNvm1_mk ?_
      | refine keepNvm2_mk ?_
      | apply keepNvm_eq (Block.wr_nvm ..)
      | apply keepNvm_eq (Block.fenceChannel_nvm ..)
    | (show Block.nvm _ = _; dsimp -zeta only; done)
    | (show Block.nvm _ = _; dsimp -zeta only; show KeepNvm _ _)
    | split
    | with_reducible refine keepNvm_fst (by assumption) ?_
    | with_reducible refine keepNvm_snd (by assumption) ?_
    | assumption

theorem Block.softLost_nvm (b : Block) (n : Nat) : (Block.softLost b n).nvm = b.nvm := by
  suffices h : KeepNvm b.nvm (Block.softLost b n) from h
  have h0 : KeepNvm b.nvm b := rfl
  unfold Block.softLost
  repeat' first
    | with_reducible assumption
    | (extract_lets +onlyGivenNames x; guard_hyp x : Block := _; refine keepNvm_named (n := b.nvm) x ?_ ?_; dsimp -zeta only [x]; clear x; rotate_left; clear_value x; revert x; intro _ _)
    | (extract_lets +onlyGivenNames x; clear_value x; revert x; intro _)
    | with_reducible first
      | apply keepNvm_eq (Block.updLedger_nvm ..)
    | (show Block.nvm _ = _; dsimp -zeta only; done)
    | (show Block.nvm _ = _; dsimp -zeta only; show KeepNvm _ _)
    | split

theorem Block.groupLost_nvm (b : Block) (g : Nat) : (Block.groupLost b g).nvm = b.nvm := by
  suffices h : KeepNvm b.nvm (Block.groupLost b g) from h
  have h0 : KeepNvm b.nvm b := rfl
  unfold Block.groupLost
  repeat' first
    | with_reducible assumption
    | (extract_lets +onlyGivenNames x; guard_hyp x : Block := _; refine keepNvm_named (n := b.nvm) x ?_ ?_; dsimp -zeta only [x]; clear x; rotate_left; clear_value x; revert x; intro _ _)
    | (extract_lets +onlyGivenNames x; refine keepNvm_fn x ?_; dsimp -zeta only [x]; clear x)
    | (extract_lets +onlyGivenNames x; refine keepNvm_fn2 x ?_; dsimp -zeta only [x]; clear x)
    | (extract_lets +onlyGivenNames x; refine keepNvm_fn3 x ?_; dsimp -zeta only [x]; clear x)
    | (extract_lets +onlyGivenNames x; refine keepNvm_fn4 x ?_; dsimp -zeta only [x]; clear x)
    | (extract_lets +onlyGivenNames x; clear_value x; revert x; intro _)
    | (show Block.nvm _ = _; dsimp -zeta only; done)
    | (show Block.nvm _ = _; dsimp -zeta only; show KeepNvm _ _)
    | with_reducible refine keepNvm_ite ?_ ?_
    | split

theorem Block.powerLost_nvm (b : Block) (d : PowerDomain) : (Block.powerLost b d).nvm = b.nvm := by
  suffices h : KeepNvm b.nvm (Block.powerLost b d) from h
  have h0 : KeepNvm b.nvm b := rfl
  unfold Block.powerLost
  repeat' first
    | with_reducible assumption
    | (extract_lets +onlyGivenNames x; guard_hyp x : Block := _; refine keepNvm_named (n := b.nvm) x ?_ ?_; dsimp -zeta only [x]; clear x; rotate_left; clear_value x; revert x; intro _ _)
    | (extract_lets +onlyGivenNames x; clear_value x; revert x; intro _)
    | with_reducible first
      | refine keepNvm_forEach ?_ (fun c a hc => ?_)
      | refine keepNvm1_mk ?_
      | refine keepNvm2_mk ?_
      | apply keepNvm_eq (Block.fence_nvm ..)
      | apply keepNvm_eq (Block.chOff_nvm ..)
    | with_reducible first
      | apply keepNvm_eq (Block.chPowerLost_nvm ..)
      | apply keepNvm_eq (Block.softLost_nvm ..)
      | apply keepNvm_eq (Block.groupLost_nvm ..)
    | (show Block.nvm _ = _; dsimp -zeta only; done)
    | (show Block.nvm _ = _; dsimp -zeta only; show KeepNvm _ _)
    | with_reducible refine keepNvm_ite ?_ ?_
    | with_reducible refine keepNvm1_ite ?_ ?_
    | with_reducible refine keepNvm2_ite ?_ ?_
    | split
    | with_reducible refine keepNvm_fst (by assumption) ?_
    | with_reducible refine keepNvm_snd (by assumption) ?_
    | assumption

end Sys2Proof.Machine
end

