-- ==== Sys2Proof/Laws/Nvm/Thermal.lean ====
section
/-! SUPPORT. No operation of Machine/Thermal.lean changes the non-volatile store, but for those named. -/

namespace Sys2Proof.Machine

theorem Block.sensorEvent_nvm (b : Block) (e : Event) : (Block.sensorEvent b e).nvm = b.nvm := by
  suffices h : KeepNvm b.nvm (Block.sensorEvent b e) from h
  have h0 : KeepNvm b.nvm b := rfl
  unfold Block.sensorEvent
  repeat' first
    | with_reducible assumption
    | with_reducible first
      | apply keepNvm_eq (Block.wr_nvm ..)
      | apply keepNvm_eq (Block.intr_nvm ..)
      | apply keepNvm_eq (Block.event_nvm ..)
    | (show Block.nvm _ = _; dsimp -zeta only; done)
    | (show Block.nvm _ = _; dsimp -zeta only; show KeepNvm _ _)
    | split

theorem Block.siteConvert_nvm (b : Block) (i : Nat) (r : Option Int) : (Block.siteConvert b i r).nvm = b.nvm := by
  suffices h : KeepNvm b.nvm (Block.siteConvert b i r) from h
  have h0 : KeepNvm b.nvm b := rfl
  unfold Block.siteConvert
  repeat' first
    | with_reducible assumption
    | (extract_lets +onlyGivenNames x; guard_hyp x : Block := _; refine keepNvm_named (n := b.nvm) x ?_ ?_; dsimp -zeta only [x]; clear x; rotate_left; clear_value x; revert x; intro _ _)
    | (extract_lets +onlyGivenNames x; clear_value x; revert x; intro _)
    | with_reducible first
      | apply keepNvm_eq (Block.wr_nvm ..)
    | (show Block.nvm _ = _; dsimp -zeta only; done)
    | (show Block.nvm _ = _; dsimp -zeta only; show KeepNvm _ _)
    | split

theorem Block.siteJudge_nvm (b : Block) (i : Nat) (r : Option Int) (isStuck : Bool) : (Block.siteJudge b i r isStuck).nvm = b.nvm := by
  suffices h : KeepNvm b.nvm (Block.siteJudge b i r isStuck) from h
  have h0 : KeepNvm b.nvm b := rfl
  unfold Block.siteJudge
  repeat' first
    | with_reducible assumption
    | (extract_lets +onlyGivenNames x; guard_hyp x : Block := _; refine keepNvm_named (n := b.nvm) x ?_ ?_; dsimp -zeta only [x]; clear x; rotate_left; clear_value x; revert x; intro _ _)
    | (extract_lets +onlyGivenNames x; refine keepNvm_fn x ?_; dsimp -zeta only [x]; clear x)
    | (extract_lets +onlyGivenNames x; refine keepNvm_fn2 x ?_; dsimp -zeta only [x]; clear x)
    | (extract_lets +onlyGivenNames x; refine keepNvm_fn3 x ?_; dsimp -zeta only [x]; clear x)
    | (extract_lets +onlyGivenNames x; refine keepNvm_fn4 x ?_; dsimp -zeta only [x]; clear x)
    | (extract_lets +onlyGivenNames x; clear_value x; revert x; intro _)
    | with_reducible first
      | apply keepNvm_eq (Block.wr_nvm ..)
      | apply keepNvm_eq (Block.wrB_nvm ..)
      | apply keepNvm_eq (Block.sensorEvent_nvm ..)
    | (show Block.nvm _ = _; dsimp -zeta only; done)
    | (show Block.nvm _ = _; dsimp -zeta only; show KeepNvm _ _)
    | with_reducible refine keepNvm_ite ?_ ?_
    | split

theorem Block.threshold_nvm (b : Block) (k : Nat) (isSet : Bool) (t s : Int) : (Block.threshold b k isSet t s).1.nvm = b.nvm := by
  suffices h : KeepNvm1 b.nvm (Block.threshold b k isSet t s) from h
  have h0 : KeepNvm b.nvm b := rfl
  unfold Block.threshold
  repeat' first
    | with_reducible assumption
    | (extract_lets +onlyGivenNames x; guard_hyp x : Block := _; refine keepNvm_named (n := b.nvm) x ?_ ?_; dsimp -zeta only [x]; clear x; rotate_left; clear_value x; revert x; intro _ _)
    | (extract_lets +onlyGivenNames x; clear_value x; revert x; intro _)
    | with_reducible first
      | refine keepNvm1_mk ?_
      | refine keepNvm2_mk ?_
    | (show Block.nvm _ = _; dsimp -zeta only; done)
    | (show Block.nvm _ = _; dsimp -zeta only; show KeepNvm _ _)
    | split
    | with_reducible refine keepNvm_fst (by assumption) ?_
    | with_reducible refine keepNvm_snd (by assumption) ?_
    | assumption

theorem Block.throttleEvent_nvm (b : Block) (e : Event) : (Block.throttleEvent b e).nvm = b.nvm := by
  suffices h : KeepNvm b.nvm (Block.throttleEvent b e) from h
  have h0 : KeepNvm b.nvm b := rfl
  unfold Block.throttleEvent
  repeat' first
    | with_reducible assumption
    | with_reducible first
      | apply keepNvm_eq (Block.wr_nvm ..)
      | apply keepNvm_eq (Block.intr_nvm ..)
      | apply keepNvm_eq (Block.event_nvm ..)
    | (show Block.nvm _ = _; dsimp -zeta only; done)
    | (show Block.nvm _ = _; dsimp -zeta only; show KeepNvm _ _)
    | split

theorem Block.zoneRound_nvm (b : Block) (z : Nat) : (Block.zoneRound b z).nvm = b.nvm := by
  suffices h : KeepNvm b.nvm (Block.zoneRound b z) from h
  have h0 : KeepNvm b.nvm b := rfl
  unfold Block.zoneRound
  repeat' first
    | with_reducible assumption
    | (extract_lets +onlyGivenNames x; guard_hyp x : Block × _ := _; refine keepNvm1_named (n := b.nvm) x ?_ ?_; dsimp -zeta only [x]; clear x; rotate_left; clear_value x; revert x; intro _ _)
    | (extract_lets +onlyGivenNames x; guard_hyp x : Block := _; refine keepNvm_named (n := b.nvm) x ?_ ?_; dsimp -zeta only [x]; clear x; rotate_left; clear_value x; revert x; intro _ _)
    | (extract_lets +onlyGivenNames x; clear_value x; revert x; intro _)
    | with_reducible first
      | refine keepNvm1_foldl ?_ (fun c a hc => ?_)
      | refine keepNvm2_foldl ?_ (fun c a hc => ?_)
      | refine keepNvm1_mk ?_
      | refine keepNvm2_mk ?_
      | apply keepNvm_eq (Block.wr_nvm ..)
    | with_reducible first
      | apply keepNvm_eq (Block.wrB_nvm ..)
      | apply keepNvm_eq (Block.intr_nvm ..)
      | apply keepNvm_eq (Block.event_nvm ..)
      | apply keepNvm_eq (Block.threshold_nvm ..)
      | apply keepNvm_eq (Block.throttleEvent_nvm ..)
    | (show Block.nvm _ = _; dsimp -zeta only; done)
    | (show Block.nvm _ = _; dsimp -zeta only; show KeepNvm _ _)
    | with_reducible refine keepNvm_ite ?_ ?_
    | with_reducible refine keepNvm1_ite ?_ ?_
    | with_reducible refine keepNvm2_ite ?_ ?_
    | split
    | with_reducible refine keepNvm_fst (by assumption) ?_
    | with_reducible refine keepNvm_snd (by assumption) ?_
    | with_reducible refine keepNvm_of1 ?_
    | with_reducible refine keepNvm_of2 ?_
    | assumption

theorem Block.sensorRead_nvm (b : Block) (k : Nat) (r : Option Int) : (Block.sensorRead b k r).nvm = b.nvm := by
  suffices h : KeepNvm b.nvm (Block.sensorRead b k r) from h
  have h0 : KeepNvm b.nvm b := rfl
  unfold Block.sensorRead
  repeat' first
    | with_reducible assumption
    | (extract_lets +onlyGivenNames x; guard_hyp x : Block := _; refine keepNvm_named (n := b.nvm) x ?_ ?_; dsimp -zeta only [x]; clear x; rotate_left; clear_value x; revert x; intro _ _)
    | (extract_lets +onlyGivenNames x; clear_value x; revert x; intro _)
    | (show Block.nvm _ = _; dsimp -zeta only; done)
    | (show Block.nvm _ = _; dsimp -zeta only; show KeepNvm _ _)
    | split

theorem Block.moduleRound_nvm (b : Block) (m : Nat) (read : Nat → Option Int) : (Block.moduleRound b m read).nvm = b.nvm := by
  suffices h : KeepNvm b.nvm (Block.moduleRound b m read) from h
  have h0 : KeepNvm b.nvm b := rfl
  unfold Block.moduleRound
  repeat' first
    | with_reducible assumption
    | (extract_lets +onlyGivenNames x; guard_hyp x : Block × _ := _; refine keepNvm1_named (n := b.nvm) x ?_ ?_; dsimp -zeta only [x]; clear x; rotate_left; clear_value x; revert x; intro _ _)
    | (extract_lets +onlyGivenNames x; guard_hyp x : Block := _; refine keepNvm_named (n := b.nvm) x ?_ ?_; dsimp -zeta only [x]; clear x; rotate_left; clear_value x; revert x; intro _ _)
    | (extract_lets +onlyGivenNames x; refine keepNvm_fn x ?_; dsimp -zeta only [x]; clear x)
    | (extract_lets +onlyGivenNames x; refine keepNvm_fn2 x ?_; dsimp -zeta only [x]; clear x)
    | (extract_lets +onlyGivenNames x; refine keepNvm_fn3 x ?_; dsimp -zeta only [x]; clear x)
    | (extract_lets +onlyGivenNames x; refine keepNvm_fn4 x ?_; dsimp -zeta only [x]; clear x)
    | (extract_lets +onlyGivenNames x; clear_value x; revert x; intro _)
    | with_reducible first
      | refine keepNvm_forEach ?_ (fun c a hc => ?_)
      | refine keepNvm1_foldl ?_ (fun c a hc => ?_)
      | refine keepNvm2_foldl ?_ (fun c a hc => ?_)
      | refine keepNvm1_mk ?_
      | refine keepNvm2_mk ?_
    | with_reducible first
      | apply keepNvm_eq (Block.wr_nvm ..)
      | apply keepNvm_eq (Block.wrB_nvm ..)
      | apply keepNvm_eq (Block.intr_nvm ..)
      | apply keepNvm_eq (Block.sensorEvent_nvm ..)
      | apply keepNvm_eq (Block.threshold_nvm ..)
    | with_reducible first
      | apply keepNvm_eq (Block.throttleEvent_nvm ..)
      | apply keepNvm_eq (Block.sensorRead_nvm ..)
    | (show Block.nvm _ = _; dsimp -zeta only; done)
    | (show Block.nvm _ = _; dsimp -zeta only; show KeepNvm _ _)
    | with_reducible refine keepNvm_ite ?_ ?_
    | with_reducible refine keepNvm1_ite ?_ ?_
    | with_reducible refine keepNvm2_ite ?_ ?_
    | split
    | with_reducible refine keepNvm_fst (by assumption) ?_
    | with_reducible refine keepNvm_snd (by assumption) ?_
    | with_reducible refine keepNvm_of1 ?_
    | with_reducible refine keepNvm_of2 ?_
    | assumption

theorem Block.channelRound_nvm (b : Block) (n : Nat) : (Block.channelRound b n).nvm = b.nvm := by
  suffices h : KeepNvm b.nvm (Block.channelRound b n) from h
  have h0 : KeepNvm b.nvm b := rfl
  unfold Block.channelRound
  repeat' first
    | with_reducible assumption
    | (extract_lets +onlyGivenNames x; guard_hyp x : Block := _; refine keepNvm_named (n := b.nvm) x ?_ ?_; dsimp -zeta only [x]; clear x; rotate_left; clear_value x; revert x; intro _ _)
    | (extract_lets +onlyGivenNames x; clear_value x; revert x; intro _)
    | with_reducible first
      | refine keepNvm_forEach ?_ (fun c a hc => ?_)
      | apply keepNvm_eq (Block.wr_nvm ..)
      | apply keepNvm_eq (Block.wrB_nvm ..)
      | apply keepNvm_eq (Block.calRound_nvm ..)
    | (show Block.nvm _ = _; dsimp -zeta only; done)
    | (show Block.nvm _ = _; dsimp -zeta only; show KeepNvm _ _)
    | with_reducible refine keepNvm_ite ?_ ?_
    | split

theorem Block.housekeeping_nvm (b : Block) (sites : Nat → Option Int) (mods : Nat → Option Int) : (Block.housekeeping b sites mods).nvm = b.nvm := by
  suffices h : KeepNvm b.nvm (Block.housekeeping b sites mods) from h
  have h0 : KeepNvm b.nvm b := rfl
  unfold Block.housekeeping
  repeat' first
    | with_reducible assumption
    | (extract_lets +onlyGivenNames x; guard_hyp x : Block := _; refine keepNvm_named (n := b.nvm) x ?_ ?_; dsimp -zeta only [x]; clear x; rotate_left; clear_value x; revert x; intro _ _)
    | (extract_lets +onlyGivenNames x; clear_value x; revert x; intro _)
    | with_reducible first
      | refine keepNvm_forEach ?_ (fun c a hc => ?_)
      | apply keepNvm_eq (Block.bump_nvm ..)
      | apply keepNvm_eq (Block.siteConvert_nvm ..)
      | apply keepNvm_eq (Block.siteJudge_nvm ..)
      | apply keepNvm_eq (Block.zoneRound_nvm ..)
    | with_reducible first
      | apply keepNvm_eq (Block.moduleRound_nvm ..)
      | apply keepNvm_eq (Block.channelRound_nvm ..)
    | (show Block.nvm _ = _; dsimp -zeta only; done)
    | (show Block.nvm _ = _; dsimp -zeta only; show KeepNvm _ _)
    | with_reducible refine keepNvm_ite ?_ ?_
    | split

theorem Block.tripWrite_nvm (b : Block) (s : Nat) (e : WrEnt) : (Block.tripWrite b s e).nvm = b.nvm := by
  suffices h : KeepNvm b.nvm (Block.tripWrite b s e) from h
  have h0 : KeepNvm b.nvm b := rfl
  unfold Block.tripWrite
  repeat' first
    | with_reducible assumption
    | (extract_lets +onlyGivenNames x; guard_hyp x : Block := _; refine keepNvm_named (n := b.nvm) x ?_ ?_; dsimp -zeta only [x]; clear x; rotate_left; clear_value x; revert x; intro _ _)
    | (extract_lets +onlyGivenNames x; clear_value x; revert x; intro _)
    | with_reducible first
      | refine keepNvm_forEach ?_ (fun c a hc => ?_)
      | apply keepNvm_eq (Block.updSub_nvm ..)
      | apply keepNvm_eq (Block.count_nvm ..)
      | apply keepNvm_eq (Block.putPins_nvm ..)
      | apply keepNvm_eq (Block.writeIssued_nvm ..)
    | (show Block.nvm _ = _; dsimp -zeta only; done)
    | (show Block.nvm _ = _; dsimp -zeta only; show KeepNvm _ _)
    | with_reducible refine keepNvm_ite ?_ ?_
    | split

theorem Block.tripSub_nvm (b : Block) (s : Nat) : (Block.tripSub b s).nvm = b.nvm := by
  suffices h : KeepNvm b.nvm (Block.tripSub b s) from h
  have h0 : KeepNvm b.nvm b := rfl
  unfold Block.tripSub
  repeat' first
    | with_reducible assumption
    | (extract_lets +onlyGivenNames x; guard_hyp x : Block := _; refine keepNvm_named (n := b.nvm) x ?_ ?_; dsimp -zeta only [x]; clear x; rotate_left; clear_value x; revert x; intro _ _)
    | (extract_lets +onlyGivenNames x; clear_value x; revert x; intro _)
    | with_reducible first
      | refine keepNvm_forEach ?_ (fun c a hc => ?_)
      | apply keepNvm_eq (Block.event0_nvm ..)
      | apply keepNvm_eq (Block.updSub_nvm ..)
      | apply keepNvm_eq (Block.putSleep_nvm ..)
      | apply keepNvm_eq (Block.subStops_nvm (hev := Block.event0_nvm) ..)
    | with_reducible first
      | apply keepNvm_eq (Block.subStops_nvm (hev := Block.event_nvm) ..)
      | apply keepNvm_eq (Block.ckStop_nvm ..)
      | apply keepNvm_eq (Block.tripWrite_nvm ..)
    | (show Block.nvm _ = _; dsimp -zeta only; done)
    | (show Block.nvm _ = _; dsimp -zeta only; show KeepNvm _ _)
    | split

theorem Block.trip_nvm (b : Block) (site : Nat) : (Block.trip b site).nvm = b.nvm := by
  suffices h : KeepNvm b.nvm (Block.trip b site) from h
  have h0 : KeepNvm b.nvm b := rfl
  unfold Block.trip
  repeat' first
    | with_reducible assumption
    | (extract_lets +onlyGivenNames x; guard_hyp x : Block := _; refine keepNvm_named (n := b.nvm) x ?_ ?_; dsimp -zeta only [x]; clear x; rotate_left; clear_value x; revert x; intro _ _)
    | (extract_lets +onlyGivenNames x; clear_value x; revert x; intro _)
    | with_reducible first
      | refine keepNvm_forEach ?_ (fun c a hc => ?_)
      | apply keepNvm_eq (Block.wr_nvm ..)
      | apply keepNvm_eq (Block.event0_nvm ..)
      | apply keepNvm_eq (Block.updPort_nvm ..)
      | apply keepNvm_eq (Block.ckSettle_nvm ..)
    | with_reducible first
      | apply keepNvm_eq (Block.rplFail_nvm (hev := Block.event0_nvm) ..)
      | apply keepNvm_eq (Block.rplFail_nvm (hev := Block.event_nvm) ..)
      | apply keepNvm_eq (Block.event_nvm ..)
      | apply keepNvm_eq (Block.pwrEnded_nvm ..)
      | apply keepNvm_eq (Block.tripSub_nvm ..)
    | (show Block.nvm _ = _; dsimp -zeta only; done)
    | (show Block.nvm _ = _; dsimp -zeta only; show KeepNvm _ _)
    | with_reducible refine keepNvm_ite ?_ ?_
    | split

end Sys2Proof.Machine
end

