-- ==== Sys2Proof/Laws/Nvm/Verbs.lean ====
section
/-! SUPPORT. No operation of Machine/Verbs.lean changes the non-volatile store, but for those named. -/

namespace Sys2Proof.Machine

theorem Block.lightMark_nvm (b : Block) (i instant : Nat) : (Block.lightMark b i instant).nvm = b.nvm := by
  suffices h : KeepNvm b.nvm (Block.lightMark b i instant) from h
  have h0 : KeepNvm b.nvm b := rfl
  unfold Block.lightMark
  repeat' first
    | with_reducible assumption
    | (extract_lets +onlyGivenNames x; guard_hyp x : Block := _; refine keepNvm_named (n := b.nvm) x ?_ ?_; dsimp -zeta only [x]; clear x; rotate_left; clear_value x; revert x; intro _ _)
    | (extract_lets +onlyGivenNames x; clear_value x; revert x; intro _)
    | with_reducible first
      | apply keepNvm_eq (Block.eventAt_nvm ..)
      | apply keepNvm_eq (Block.count_nvm ..)
    | (show Block.nvm _ = _; dsimp -zeta only; done)
    | (show Block.nvm _ = _; dsimp -zeta only; show KeepNvm _ _)
    | split

theorem Block.lightBegin_nvm (b : Block) (i instant : Nat) : (Block.lightBegin b i instant).nvm = b.nvm := by
  suffices h : KeepNvm b.nvm (Block.lightBegin b i instant) from h
  have h0 : KeepNvm b.nvm b := rfl
  unfold Block.lightBegin
  repeat' first
    | with_reducible assumption
    | (extract_lets +onlyGivenNames x; guard_hyp x : Block := _; refine keepNvm_named (n := b.nvm) x ?_ ?_; dsimp -zeta only [x]; clear x; rotate_left; clear_value x; revert x; intro _ _)
    | (extract_lets +onlyGivenNames x; clear_value x; revert x; intro _)
    | with_reducible first
      | refine keepNvm_forEach ?_ (fun c a hc => ?_)
      | apply keepNvm_eq (Block.wr_nvm ..)
      | apply keepNvm_eq (Block.updSub_nvm ..)
      | apply keepNvm_eq (Block.refreshTick_nvm ..)
      | apply keepNvm_eq (Block.lightEnd_nvm ..)
    | (show Block.nvm _ = _; dsimp -zeta only; done)
    | (show Block.nvm _ = _; dsimp -zeta only; show KeepNvm _ _)
    | with_reducible refine keepNvm_ite ?_ ?_
    | split

theorem Block.lightAct_nvm (b : Block) (i instant : Nat) : (Block.lightAct b i instant).nvm = b.nvm := by
  suffices h : KeepNvm b.nvm (Block.lightAct b i instant) from h
  have h0 : KeepNvm b.nvm b := rfl
  unfold Block.lightAct
  repeat' first
    | with_reducible assumption
    | (extract_lets +onlyGivenNames x; guard_hyp x : Block × _ := _; refine keepNvm1_named (n := b.nvm) x ?_ ?_; dsimp -zeta only [x]; clear x; rotate_left; clear_value x; revert x; intro _ _)
    | (extract_lets +onlyGivenNames x; guard_hyp x : Block := _; refine keepNvm_named (n := b.nvm) x ?_ ?_; dsimp -zeta only [x]; clear x; rotate_left; clear_value x; revert x; intro _ _)
    | (extract_lets +onlyGivenNames x; clear_value x; revert x; intro _)
    | with_reducible first
      | refine keepNvm1_mk ?_
      | refine keepNvm2_mk ?_
      | apply keepNvm_eq (Block.addSat_nvm ..)
      | apply keepNvm_eq (Block.snapshot_nvm ..)
      | apply keepNvm_eq (Block.windowBoundary_nvm ..)
    | with_reducible first
      | apply keepNvm_eq (Block.passAsk_nvm ..)
      | apply keepNvm_eq (Block.pwrAsk_nvm ..)
      | apply keepNvm_eq (Block.lightMark_nvm ..)
      | apply keepNvm_eq (Block.lightBegin_nvm ..)
    | (show Block.nvm _ = _; dsimp -zeta only; done)
    | (show Block.nvm _ = _; dsimp -zeta only; show KeepNvm _ _)
    | with_reducible refine keepNvm_ite ?_ ?_
    | with_reducible refine keepNvm1_ite ?_ ?_
    | with_reducible refine keepNvm2_ite ?_ ?_
    | split
    | with_reducible refine keepNvm_fst (by assumption) ?_
    | with_reducible refine keepNvm_snd (by assumption) ?_
    | assumption

theorem Block.lightUnsync_nvm (b : Block) (i : Nat) : (Block.lightUnsync b i).nvm = b.nvm := by
  suffices h : KeepNvm b.nvm (Block.lightUnsync b i) from h
  have h0 : KeepNvm b.nvm b := rfl
  unfold Block.lightUnsync
  repeat' first
    | with_reducible assumption
    | with_reducible first
      | apply keepNvm_eq (Block.wr_nvm ..)
    | (show Block.nvm _ = _; dsimp -zeta only; done)
    | (show Block.nvm _ = _; dsimp -zeta only; show KeepNvm _ _)
    | with_reducible refine keepNvm_ite ?_ ?_
    | split

theorem Block.lightFire_nvm (b : Block) (i : Nat) : (Block.lightFire b i).nvm = b.nvm := by
  suffices h : KeepNvm b.nvm (Block.lightFire b i) from h
  have h0 : KeepNvm b.nvm b := rfl
  unfold Block.lightFire
  repeat' first
    | with_reducible assumption
    | with_reducible first
      | apply keepNvm_eq (Block.lightUse_nvm ..)
      | apply keepNvm_eq (Block.lightAct_nvm ..)
      | apply keepNvm_eq (Block.lightUnsync_nvm ..)
    | (show Block.nvm _ = _; dsimp -zeta only; done)
    | (show Block.nvm _ = _; dsimp -zeta only; show KeepNvm _ _)
    | with_reducible refine keepNvm_ite ?_ ?_
    | split

theorem Block.lightOccur_nvm (b : Block) (i : Nat) : (Block.lightOccur b i).nvm = b.nvm := by
  suffices h : KeepNvm b.nvm (Block.lightOccur b i) from h
  have h0 : KeepNvm b.nvm b := rfl
  unfold Block.lightOccur
  repeat' first
    | with_reducible assumption
    | (extract_lets +onlyGivenNames x; guard_hyp x : Block := _; refine keepNvm_named (n := b.nvm) x ?_ ?_; dsimp -zeta only [x]; clear x; rotate_left; clear_value x; revert x; intro _ _)
    | (extract_lets +onlyGivenNames x; clear_value x; revert x; intro _)
    | with_reducible first
      | refine keepNvm_forEach ?_ (fun c a hc => ?_)
      | apply keepNvm_eq (Block.lightFire_nvm ..)
    | (show Block.nvm _ = _; dsimp -zeta only; done)
    | (show Block.nvm _ = _; dsimp -zeta only; show KeepNvm _ _)
    | split

theorem Block.lightOnTimeOver_nvm (b : Block) (i : Nat) : (Block.lightOnTimeOver b i).nvm = b.nvm := by
  suffices h : KeepNvm b.nvm (Block.lightOnTimeOver b i) from h
  have h0 : KeepNvm b.nvm b := rfl
  unfold Block.lightOnTimeOver
  repeat' first
    | with_reducible assumption
    | with_reducible first
      | apply keepNvm_eq (Block.lightEnd_nvm ..)
    | (show Block.nvm _ = _; dsimp -zeta only; done)
    | (show Block.nvm _ = _; dsimp -zeta only; show KeepNvm _ _)
    | with_reducible refine keepNvm_ite ?_ ?_
    | split

theorem Block.lightStepped_nvm (b : Block) (i : Nat) : (Block.lightStepped b i).nvm = b.nvm := by
  suffices h : KeepNvm b.nvm (Block.lightStepped b i) from h
  have h0 : KeepNvm b.nvm b := rfl
  unfold Block.lightStepped
  repeat' first
    | with_reducible assumption
    | (extract_lets +onlyGivenNames x; guard_hyp x : Block × _ := _; refine keepNvm1_named (n := b.nvm) x ?_ ?_; dsimp -zeta only [x]; clear x; rotate_left; clear_value x; revert x; intro _ _)
    | (extract_lets +onlyGivenNames x; guard_hyp x : Block := _; refine keepNvm_named (n := b.nvm) x ?_ ?_; dsimp -zeta only [x]; clear x; rotate_left; clear_value x; revert x; intro _ _)
    | (extract_lets +onlyGivenNames x; clear_value x; revert x; intro _)
    | with_reducible first
      | refine keepNvm1_mk ?_
      | refine keepNvm2_mk ?_
      | apply keepNvm_eq (Block.wr_nvm ..)
      | apply keepNvm_eq (Block.count_nvm ..)
      | apply keepNvm_eq (Block.lightUse_nvm ..)
    | with_reducible first
      | apply keepNvm_eq (Block.lightSkip_nvm ..)
      | apply keepNvm_eq (Block.lightEnd_nvm ..)
      | apply keepNvm_eq (Block.lightAct_nvm ..)
      | apply keepNvm_eq (Block.lightUnsync_nvm ..)
    | (show Block.nvm _ = _; dsimp -zeta only; done)
    | (show Block.nvm _ = _; dsimp -zeta only; show KeepNvm _ _)
    | with_reducible refine keepNvm_ite ?_ ?_
    | with_reducible refine keepNvm1_ite ?_ ?_
    | with_reducible refine keepNvm2_ite ?_ ?_
    | split
    | with_reducible refine keepNvm_fst (by assumption) ?_
    | with_reducible refine keepNvm_snd (by assumption) ?_
    | assumption

theorem Block.beaconTaken_nvm (b : Block) (beacon : Nat) (hold : Bool) : (Block.beaconTaken b beacon hold).nvm = b.nvm := by
  suffices h : KeepNvm b.nvm (Block.beaconTaken b beacon hold) from h
  have h0 : KeepNvm b.nvm b := rfl
  unfold Block.beaconTaken
  repeat' first
    | with_reducible assumption
    | (extract_lets +onlyGivenNames x; guard_hyp x : Block := _; refine keepNvm_named (n := b.nvm) x ?_ ?_; dsimp -zeta only [x]; clear x; rotate_left; clear_value x; revert x; intro _ _)
    | (extract_lets +onlyGivenNames x; clear_value x; revert x; intro _)
    | with_reducible first
      | refine keepNvm_forEach ?_ (fun c a hc => ?_)
      | refine keepNvm1_mk ?_
      | refine keepNvm2_mk ?_
      | apply keepNvm_eq (Block.lightRestart_nvm ..)
      | apply keepNvm_eq (Block.freeRun_nvm ..)
    | with_reducible first
      | apply keepNvm_eq (Block.discipline_nvm ..)
      | apply keepNvm_eq (Block.lightStepped_nvm ..)
    | (show Block.nvm _ = _; dsimp -zeta only; done)
    | (show Block.nvm _ = _; dsimp -zeta only; show KeepNvm _ _)
    | with_reducible refine keepNvm_ite ?_ ?_
    | with_reducible refine keepNvm1_ite ?_ ?_
    | with_reducible refine keepNvm2_ite ?_ ?_
    | split
    | with_reducible refine keepNvm_fst (by assumption) ?_
    | with_reducible refine keepNvm_snd (by assumption) ?_
    | assumption

end Sys2Proof.Machine
end

