-- ==== Sys2Proof/Laws/Nvm/Registers.lean ====
section
/-! SUPPORT. No operation of Machine/Registers.lean changes the non-volatile store, but for those named. -/

namespace Sys2Proof.Machine

theorem Block.mgAnswer_nvm (b : Block) (err : Bool) (data : Nat) : (Block.mgAnswer b err data).nvm = b.nvm := by
  suffices h : KeepNvm b.nvm (Block.mgAnswer b err data) from h
  have h0 : KeepNvm b.nvm b := rfl
  unfold Block.mgAnswer
  repeat' first
    | with_reducible assumption
    | (extract_lets +onlyGivenNames x; guard_hyp x : Block := _; refine keepNvm_named (n := b.nvm) x ?_ ?_; dsimp -zeta only [x]; clear x; rotate_left; clear_value x; revert x; intro _ _)
    | (extract_lets +onlyGivenNames x; clear_value x; revert x; intro _)
    | (show Block.nvm _ = _; dsimp -zeta only; done)
    | (show Block.nvm _ = _; dsimp -zeta only; show KeepNvm _ _)
    | split

theorem Block.rolLast_nvm (b : Block) (reason : Nat) (role : Role) (off : Nat) : (Block.rolLast b reason role off).nvm = b.nvm := by
  suffices h : KeepNvm b.nvm (Block.rolLast b reason role off) from h
  have h0 : KeepNvm b.nvm b := rfl
  unfold Block.rolLast
  repeat' first
    | with_reducible assumption
    | with_reducible first
      | apply keepNvm_eq (Block.wr_nvm ..)
    | (show Block.nvm _ = _; dsimp -zeta only; done)
    | (show Block.nvm _ = _; dsimp -zeta only; show KeepNvm _ _)
    | split

theorem Block.cfgReject_nvm (b : Block) (off : Nat) : (Block.cfgReject b off).nvm = b.nvm := by
  suffices h : KeepNvm b.nvm (Block.cfgReject b off) from h
  have h0 : KeepNvm b.nvm b := rfl
  unfold Block.cfgReject
  repeat' first
    | with_reducible assumption
    | (extract_lets +onlyGivenNames x; guard_hyp x : Block := _; refine keepNvm_named (n := b.nvm) x ?_ ?_; dsimp -zeta only [x]; clear x; rotate_left; clear_value x; revert x; intro _ _)
    | (extract_lets +onlyGivenNames x; clear_value x; revert x; intro _)
    | with_reducible first
      | apply keepNvm_eq (Block.wr_nvm ..)
      | apply keepNvm_eq (Block.bump_nvm ..)
    | (show Block.nvm _ = _; dsimp -zeta only; done)
    | (show Block.nvm _ = _; dsimp -zeta only; show KeepNvm _ _)
    | with_reducible refine keepNvm_ite ?_ ?_
    | split

theorem Block.storeWord_nvm (b : Block) (r : RegInfo) (idx : List Nat) (off w : Nat) : (Block.storeWord b r idx off w).nvm = b.nvm := by
  suffices h : KeepNvm b.nvm (Block.storeWord b r idx off w) from h
  have h0 : KeepNvm b.nvm b := rfl
  unfold Block.storeWord
  repeat' first
    | with_reducible assumption
    | (extract_lets +onlyGivenNames x; guard_hyp x : Block := _; refine keepNvm_named (n := b.nvm) x ?_ ?_; dsimp -zeta only [x]; clear x; rotate_left; clear_value x; revert x; intro _ _)
    | (extract_lets +onlyGivenNames x; clear_value x; revert x; intro _)
    | with_reducible first
      | refine keepNvm_forEach ?_ (fun c a hc => ?_)
      | apply keepNvm_eq (Block.wr_nvm ..)
    | (show Block.nvm _ = _; dsimp -zeta only; done)
    | (show Block.nvm _ = _; dsimp -zeta only; show KeepNvm _ _)
    | with_reducible refine keepNvm_ite ?_ ?_
    | split

theorem Block.dropActions_nvm (b : Block) (r : RegInfo) (idx : List Nat) (off : Nat) : (Block.dropActions b r idx off).nvm = b.nvm := by
  suffices h : KeepNvm b.nvm (Block.dropActions b r idx off) from h
  have h0 : KeepNvm b.nvm b := rfl
  unfold Block.dropActions
  repeat' first
    | with_reducible assumption
    | with_reducible first
      | refine keepNvm_forEach ?_ (fun c a hc => ?_)
      | apply keepNvm_eq (Block.wr_nvm ..)
    | (show Block.nvm _ = _; dsimp -zeta only; done)
    | (show Block.nvm _ = _; dsimp -zeta only; show KeepNvm _ _)
    | with_reducible refine keepNvm_ite ?_ ?_
    | split

theorem Block.sentenceCall_nvm (b : Block) (s : Nat) : (Block.sentenceCall b s).nvm = b.nvm := by
  suffices h : KeepNvm b.nvm (Block.sentenceCall b s) from h
  have h0 : KeepNvm b.nvm b := rfl
  unfold Block.sentenceCall
  repeat' first
    | with_reducible assumption
    | with_reducible first
      | apply keepNvm_eq (Block.sntRequest_nvm ..)
    | (show Block.nvm _ = _; dsimp -zeta only; done)
    | (show Block.nvm _ = _; dsimp -zeta only; show KeepNvm _ _)
    | with_reducible refine keepNvm_ite ?_ ?_
    | split

theorem Block.writeEffect_nvm (b : Block) (role : Role) (n : RegName) (i old w : Nat) (x : Aux) :
    (Block.writeEffect b role n i old w x).nvm = b.nvm := by
  have h0 : KeepNvm b.nvm b := rfl
  unfold Block.writeEffect
  dsimp only
  split
  all_goals refine keepNvm_intro ?_
  repeat' first
    | with_reducible assumption
    | with_reducible refine keepNvm_ite ?_ ?_
    | with_reducible first
      | apply keepNvm_eq (Block.wr_nvm ..)
      | apply keepNvm_eq (Block.storeUpset_nvm ..)
      | apply keepNvm_eq (Block.snapshotCommand_nvm ..)
      | apply keepNvm_eq (Block.ctrClear_nvm ..)
      | apply keepNvm_eq (Block.switchGo_nvm ..)
    | with_reducible first
      | apply keepNvm_eq (Block.convertDebt_nvm ..)
      | apply keepNvm_eq (Block.trainGo_nvm ..)
      | apply keepNvm_eq (Block.trainAbort_nvm ..)
      | apply keepNvm_eq (Block.calReset_nvm ..)
      | apply keepNvm_eq (Block.unsuspect_nvm ..)
    | with_reducible first
      | apply keepNvm_eq (Block.lightGo_nvm ..)
      | apply keepNvm_eq (Block.harbourClear_nvm ..)
      | apply keepNvm_eq (Block.clsResume_nvm ..)
      | apply keepNvm_eq (Block.loopGo_nvm ..)
      | apply keepNvm_eq (Block.loopReport_nvm ..)
    | with_reducible first
      | apply keepNvm_eq (Block.bucketSet_nvm ..)
      | apply keepNvm_eq (Block.repairGo_nvm ..)
      | apply keepNvm_eq (Block.eraseWritten_nvm ..)
      | apply keepNvm_eq (Block.logSelect_nvm ..)
      | apply keepNvm_eq (Block.logClear_nvm ..)
    | with_reducible first
      | apply keepNvm_eq (Block.injArm_nvm ..)
      | apply keepNvm_eq (Block.injDisarm_nvm ..)
      | apply keepNvm_eq (Block.mntGo_nvm ..)
      | apply keepNvm_eq (Block.bypassWish_nvm ..)
      | apply keepNvm_eq (Block.reguGo_nvm ..)
    | with_reducible first
      | apply keepNvm_eq (Block.invalWrite_nvm ..)
      | apply keepNvm_eq (Block.portCtl_nvm ..)
      | apply keepNvm_eq (Block.hdrParity_nvm ..)
      | apply keepNvm_eq (Block.cutoffMask_nvm ..)
      | apply keepNvm_eq (Block.arbCommit_nvm ..)
    | with_reducible first
      | apply keepNvm_eq (Block.passAsk_nvm ..)
      | apply keepNvm_eq (Block.passAbort_nvm ..)
      | apply keepNvm_eq (Block.tailWritten_nvm ..)
      | apply keepNvm_eq (Block.tndEnabled_nvm ..)
      | apply keepNvm_eq (Block.tndAbort_nvm ..)
    | with_reducible first
      | apply keepNvm_eq (Block.fenceSet_nvm ..)
      | apply keepNvm_eq (Block.fenceClear_nvm ..)
      | apply keepNvm_eq (Block.recClearGo_nvm ..)
      | apply keepNvm_eq (Block.audClear_nvm ..)
      | apply keepNvm_eq (Block.rplGo_nvm ..)
    | with_reducible first
      | apply keepNvm_eq (Block.imOpen_nvm ..)
      | apply keepNvm_eq (Block.imAbort_nvm ..)
      | apply keepNvm_eq (Block.pwrGo_nvm ..)
      | apply keepNvm_eq (Block.sentenceCall_nvm ..)

theorem Block.performReg_nvm (b : Block) (role : Role) (r : RegInfo) (idx : List Nat) (off old : Nat) (w : Word) (x : Aux) : (Block.performReg b role r idx off old w x).nvm = b.nvm := by
  suffices h : KeepNvm b.nvm (Block.performReg b role r idx off old w x) from h
  have h0 : KeepNvm b.nvm b := rfl
  unfold Block.performReg
  repeat' first
    | with_reducible assumption
    | (extract_lets +onlyGivenNames x; guard_hyp x : Block := _; refine keepNvm_named (n := b.nvm) x ?_ ?_; dsimp -zeta only [x]; clear x; rotate_left; clear_value x; revert x; intro _ _)
    | (extract_lets +onlyGivenNames x; clear_value x; revert x; intro _)
    | with_reducible first
      | apply keepNvm_eq (Block.wr_nvm ..)
      | apply keepNvm_eq (Block.storeWord_nvm ..)
      | apply keepNvm_eq (Block.dropActions_nvm ..)
      | apply keepNvm_eq (Block.writeEffect_nvm ..)
    | (show Block.nvm _ = _; dsimp -zeta only; done)
    | (show Block.nvm _ = _; dsimp -zeta only; show KeepNvm _ _)
    | with_reducible refine keepNvm_ite ?_ ?_
    | split

theorem Block.readClears_nvm (b : Block) (off : Nat) : (Block.readClears b off).nvm = b.nvm := by
  suffices h : KeepNvm b.nvm (Block.readClears b off) from h
  have h0 : KeepNvm b.nvm b := rfl
  unfold Block.readClears
  repeat' first
    | with_reducible assumption
    | with_reducible first
      | refine keepNvm_forEach ?_ (fun c a hc => ?_)
      | apply keepNvm_eq (Block.wr_nvm ..)
    | (show Block.nvm _ = _; dsimp -zeta only; done)
    | (show Block.nvm _ = _; dsimp -zeta only; show KeepNvm _ _)
    | with_reducible refine keepNvm_ite ?_ ?_
    | split

theorem Block.doRead_nvm (b : Block) (role : Role) (off : Nat) : (Block.doRead b role off).nvm = b.nvm := by
  suffices h : KeepNvm b.nvm (Block.doRead b role off) from h
  have h0 : KeepNvm b.nvm b := rfl
  unfold Block.doRead
  repeat' first
    | with_reducible assumption
    | (extract_lets +onlyGivenNames x; guard_hyp x : Block := _; refine keepNvm_named (n := b.nvm) x ?_ ?_; dsimp -zeta only [x]; clear x; rotate_left; clear_value x; revert x; intro _ _)
    | (extract_lets +onlyGivenNames x; clear_value x; revert x; intro _)
    | with_reducible first
      | apply keepNvm_eq (Block.ctrLatchLive_nvm ..)
      | apply keepNvm_eq (Block.nowLatch_nvm ..)
      | apply keepNvm_eq (Block.mgAnswer_nvm ..)
      | apply keepNvm_eq (Block.rolLast_nvm ..)
      | apply keepNvm_eq (Block.readClears_nvm ..)
    | (show Block.nvm _ = _; dsimp -zeta only; done)
    | (show Block.nvm _ = _; dsimp -zeta only; show KeepNvm _ _)
    | with_reducible refine keepNvm_ite ?_ ?_
    | split

end Sys2Proof.Machine
end

