-- ==== Sys2Proof/Laws/Nvm/Idle.lean ====
section
/-! SUPPORT. No operation of Machine/Idle.lean changes the non-volatile store, but for those named. -/

namespace Sys2Proof.Machine

theorem Block.countCycles_nvm (b : Block) (n : Nat) : (Block.countCycles b n).nvm = b.nvm := by
  suffices h : KeepNvm b.nvm (Block.countCycles b n) from h
  have h0 : KeepNvm b.nvm b := rfl
  unfold Block.countCycles
  repeat' first
    | with_reducible assumption
    | (extract_lets +onlyGivenNames x; guard_hyp x : Block := _; refine keepNvm_named (n := b.nvm) x ?_ ?_; dsimp -zeta only [x]; clear x; rotate_left; clear_value x; revert x; intro _ _)
    | (extract_lets +onlyGivenNames x; clear_value x; revert x; intro _)
    | with_reducible first
      | refine keepNvm_forEach ?_ (fun c a hc => ?_)
      | apply keepNvm_eq (Block.count_nvm ..)
      | apply keepNvm_eq (Block.demandSeen_nvm ..)
    | (show Block.nvm _ = _; dsimp -zeta only; done)
    | (show Block.nvm _ = _; dsimp -zeta only; show KeepNvm _ _)
    | with_reducible refine keepNvm_ite ?_ ?_
    | split

theorem Block.aoTick_nvm (b : Block) : (Block.aoTick b).nvm = b.nvm := by
  suffices h : KeepNvm b.nvm (Block.aoTick b) from h
  have h0 : KeepNvm b.nvm b := rfl
  unfold Block.aoTick
  repeat' first
    | with_reducible assumption
    | (extract_lets +onlyGivenNames x; guard_hyp x : Block := _; refine keepNvm_named (n := b.nvm) x ?_ ?_; dsimp -zeta only [x]; clear x; rotate_left; clear_value x; revert x; intro _ _)
    | (extract_lets +onlyGivenNames x; clear_value x; revert x; intro _)
    | with_reducible first
      | apply keepNvm_eq (Block.holdGrow_nvm ..)
    | (show Block.nvm _ = _; dsimp -zeta only; done)
    | (show Block.nvm _ = _; dsimp -zeta only; show KeepNvm _ _)
    | split

theorem Block.idle_nvm (b : Block) : (Block.idle b).nvm = b.nvm := by
  suffices h : KeepNvm b.nvm (Block.idle b) from h
  have h0 : KeepNvm b.nvm b := rfl
  unfold Block.idle
  repeat' first
    | with_reducible assumption
    | (extract_lets +onlyGivenNames x; guard_hyp x : Block := _; refine keepNvm_named (n := b.nvm) x ?_ ?_; dsimp -zeta only [x]; clear x; rotate_left; clear_value x; revert x; intro _ _)
    | (extract_lets +onlyGivenNames x; clear_value x; revert x; intro _)
    | with_reducible first
      | refine keepNvm1_mk ?_
      | refine keepNvm2_mk ?_
      | apply keepNvm_eq (Block.draw_nvm ..)
      | apply keepNvm_eq (Block.tick_nvm ..)
      | apply keepNvm_eq (Block.countCycles_nvm ..)
    | with_reducible first
      | apply keepNvm_eq (Block.aoTick_nvm ..)
    | (show Block.nvm _ = _; dsimp -zeta only; done)
    | (show Block.nvm _ = _; dsimp -zeta only; show KeepNvm _ _)
    | with_reducible refine keepNvm_ite ?_ ?_
    | with_reducible refine keepNvm1_ite ?_ ?_
    | with_reducible refine keepNvm2_ite ?_ ?_
    | split
    | with_reducible refine keepNvm_fst (by assumption) ?_
    | with_reducible refine keepNvm_snd (by assumption) ?_
    | assumption

end Sys2Proof.Machine
end

