-- ==== Sys2Proof/Laws/NvmForm.lean ====
section
/-! SUPPORT. The operations that write the non-volatile store keep its canonical form. -/

namespace Sys2Proof.Machine

/-- The store is in its canonical form. -/
def Block.NvmForm (b : Block) : Prop := Tab.wf b.nvm = true

theorem Block.nvmForm_of {b c : Block} (e : c.nvm = b.nvm) (h : b.NvmForm) : c.NvmForm := by
  unfold Block.NvmForm; rw [e]; exact h

theorem Block.nvmPut_form {b : Block} (h : b.NvmForm) (a : Nat) (bs : List Byte) : (b.nvmPut a bs).NvmForm :=
  memPut_wf b.nvm a bs h

theorem Block.storeEnd_form {b : Block} (h : b.NvmForm) (key : Nat) : (b.storeEnd key).NvmForm := by
  unfold Block.storeEnd
  split
  · exact h
  · dsimp only
    split
    · exact Block.nvmForm_of (Block.wr_nvm ..) (Block.nvmPut_form (b := { b with stores := _ }) h _ _)
    · exact Block.nvmPut_form (b := { b with stores := _ }) h _ _

theorem Block.ledgerStored_form {b : Block} (h : b.NvmForm) (m : Nat) : (b.ledgerStored m).NvmForm := by
  unfold Block.ledgerStored
  split
  · dsimp only
    split
    · exact Block.nvmForm_of (Block.storeLedger_nvm ..) (Block.storeEnd_form h _)
    · exact Block.storeEnd_form h _
  · exact h

theorem Block.calStoreDone_form {b : Block} (h : b.NvmForm) (s i : Nat) : (b.calStoreDone s i).NvmForm := by
  have hs := Block.storeEnd_form h (8 * s + i)
  unfold Block.calStoreDone
  dsimp only
  split
  · exact h
  · split
    · exact Block.nvmForm_of (Block.calClearCopy_nvm ..) hs
    · split
      · split
        · exact hs
        · exact Block.nvmForm_of ((Block.calClearStores_nvm ..).trans (Block.calEmpty_nvm ..)) hs
      · exact Block.nvmForm_of (Block.calStoreAgain_nvm ..) hs

theorem Block.startStored_form {b : Block} (h : b.NvmForm) (ok : Bool) : (b.startStored ok).NvmForm := by
  unfold Block.startStored
  split
  · exact h
  · extract_lets rest c d e
    have hd : d.NvmForm := by
      show Block.NvmForm (if ok then _ else _)
      split
      · exact Block.storeEnd_form h _
      · show Block.NvmForm (if rest.isEmpty then _ else _)
        split
        · exact Block.nvmForm_of (Block.wr_nvm ..) h
        · exact h
    clear_value d
    split
    · exact hd
    · split
      · split
        · exact hd
        · exact Block.nvmForm_of (Block.wr_nvm ..) hd
      · exact Block.nvmForm_of (Block.startFail_nvm ..) hd

theorem Block.audWrite_form {b : Block} (h : b.NvmForm) (r : AudRec) : (b.audWrite r).NvmForm := by
  unfold Block.audWrite
  dsimp only
  have h1 := Block.nvmPut_form h (audOff (b.rd Reg.AUD_STATUS_NEXT)) (r.bytes (b.rd Reg.AUD_WRAPS_WRAPS))
  split
  · refine Block.nvmForm_of (Block.intr_nvm ..) (Block.nvmForm_of (Block.wr_nvm ..) ?_)
    exact Block.nvmForm_of (Block.wr_nvm ..) (Block.nvmForm_of (Block.wr_nvm ..) h1)
  · exact Block.nvmForm_of (Block.wr_nvm ..) h1

theorem Block.audStore_form {b : Block} (h : b.NvmForm) : b.audStore.NvmForm := by
  unfold Block.audStore
  split
  · exact h
  · split
    · exact Block.nvmForm_of (Block.audFlush_nvm ..) h
    · refine Block.nvmForm_of (Block.audFlush_nvm ..) (Block.audWrite_form ?_ _)
      exact h

theorem Block.audCleared_form {b : Block} (h : b.NvmForm) : b.audCleared.NvmForm := by
  unfold Block.audCleared
  split
  · refine Block.nvmForm_of (Block.wr_nvm ..) (Block.nvmForm_of (Block.wr_nvm ..) (Block.nvmForm_of (Block.wr_nvm ..) ?_))
    refine Block.nvmPut_form ?_ _ _
    exact Tab.wf_filter b.nvm _ h
  · exact h

theorem Block.nvmTorn_form {b : Block} (h : b.NvmForm) : b.nvmTorn.NvmForm := by
  unfold Block.nvmTorn
  split
  next k c e =>
  have hc : c.NvmForm := by
    have : c = b.draw.2 := by rw [e]
    subst this; exact h
  extract_lets d
  have hd : d.NvmForm := forEach_inv Block.NvmForm _ _ _ (fun _ _ _ hx => Block.nvmPut_form hx _ _) hc
  clear_value d
  split
  · refine forEach_inv Block.NvmForm _ _ _ (fun e i _ hx => ?_) hd
    split
    · exact Block.nvmPut_form hx _ _
    · exact hx
  · exact hd

theorem Block.afterReset_form {b : Block} (h : b.NvmForm) : b.afterReset.NvmForm := Block.nvmTorn_form h

/-- What a performed, recorded or refused write leaves of the store's form. -/
theorem Block.tryWrite_form {b c : Block} (h : b.NvmForm) {role : Role} {off : Nat} {w : Word} {x : Aux}
    (e : b.tryWrite role off w x = some c) : c.NvmForm := by
  unfold Block.tryWrite at e
  dsimp only at e
  split at e
  · split at e
    · cases e
      refine Block.nvmForm_of (Block.mgAnswer_nvm ..) (Block.nvmForm_of (Block.audPut_nvm ..) ?_)
      exact Block.nvmForm_of (Block.bump_nvm ..) (Block.nvmForm_of (Block.rolLast_nvm ..) h)
    · cases e
  · split at e
    · cases e
      refine Block.nvmForm_of (Block.mgAnswer_nvm ..) (Block.nvmForm_of (Block.audPut_nvm ..) ?_)
      split
      · exact Block.nvmForm_of (Block.cfgReject_nvm ..) h
      · exact h
    · cases e
  · simp only [Option.map_eq_some_iff] at e
    obtain ⟨d, hd, rfl⟩ := e
    exact Block.nvmForm_of (Block.mgAnswer_nvm ..) (Block.nvmForm_of (Block.imWindow_nvm _ _ _ _ hd) h)
  · split at e
    · cases e
      exact Block.nvmForm_of (Block.mgAnswer_nvm ..) (Block.nvmForm_of (Block.audPut_nvm ..) (Block.nvmPut_form h _ _))
    · cases e
  · split at e
    · cases e
    · rw [Option.ite_none_right_eq_some] at e
      obtain ⟨_, e⟩ := e
      cases e
      refine Block.nvmForm_of (Block.mgAnswer_nvm ..) (Block.nvmForm_of (Block.performReg_nvm ..) ?_)
      split
      · exact Block.nvmForm_of (Block.audPut_nvm ..) h
      · exact h

theorem Block.tryAccess_form {b c : Block} (h : b.NvmForm) {a : MgAccess} (e : b.tryAccess a = some c) : c.NvmForm := by
  unfold Block.tryAccess at e
  split at e
  · cases e
  · split at e
    · exact Block.tryWrite_form h e
    · cases e; exact Block.nvmForm_of (Block.doRead_nvm ..) h

theorem Block.mgAccess_form {b : Block} (h : b.NvmForm) (a : MgAccess) : (b.mgAccess a).NvmForm := by
  unfold Block.mgAccess
  split
  · next e =>
    split at e
    · exact Block.tryAccess_form h e
    · cases e
  · exact h

theorem mgDrain_form {l : List MgAccess} {b : Block} (h : b.NvmForm) : (mgDrain l b).NvmForm := by
  induction l generalizing b with
  | nil => exact h
  | cons a rest ih =>
    unfold mgDrain
    split
    · next e => exact ih (Block.tryAccess_form h e)
    · exact h

theorem Block.mgRetry_form {b : Block} (h : b.NvmForm) : b.mgRetry.NvmForm := mgDrain_form h

end Sys2Proof.Machine
end

