-- ==== Sys2Proof/Laws/Answers.lean ====
section
/-! SUPPORT. How a completion and a register frame are shown: a command that acts on the block completes, writes compose, and
an enabled cause sets its pending bit. -/

namespace Sys2Proof

open Machine

/-- A command that only acts on the block completes with what its operation leaves. -/
theorem Machine.State.answers_onBlock {s : State} {c : Instr} {f : Block → Block} {P : Block → Prop}
    (h : exec c s = onBlock s f) (hp : P (f s.block)) : s.answers c P := ⟨_, h, rfl, hp⟩

theorem Machine.State.answers_mono {s : State} {c : Instr} {P Q : Block → Prop} (h : s.answers c P) (hq : ∀ b, P b → Q b) :
    s.answers c Q := by
  obtain ⟨t, h1, h2, h3⟩ := h
  exact ⟨t, h1, h2, hq _ h3⟩

namespace Machine

/-! ## Frames of registers -/

theorem Block.onlyRegs_refl (b : Block) (ks : List Nat) : b.onlyRegs b ks := ⟨rfl, fun _ _ => rfl⟩

theorem Block.onlyRegs_wr {b t : Block} {ks : List Nat} (h : b.onlyRegs t ks) {f : Fld} (v : Nat) (hf : f.key ∈ ks) :
    b.onlyRegs (t.wr f v) ks := by
  refine ⟨?_, fun g hg => ?_⟩
  · exact congrArg (fun x : Block => { x with regs := fldSet t.regs f v }) h.1
  · rw [Block.rd_wr_of_ne _ _ _ _ (fun e => hg (by rw [e]; exact hf)), h.2 g hg]

theorem Block.onlyRegs_wrB {b t : Block} {ks : List Nat} (h : b.onlyRegs t ks) {f : Fld} (v : Bool) (hf : f.key ∈ ks) :
    b.onlyRegs (t.wrB f v) ks := Block.onlyRegs_wr h _ hf

theorem Block.onlyRegs_bump {b t : Block} {ks : List Nat} (h : b.onlyRegs t ks) {f : Fld} (hf : f.key ∈ ks) :
    b.onlyRegs (t.bump f) ks := Block.onlyRegs_wr h _ hf

theorem Block.onlyRegs_addSat {b t : Block} {ks : List Nat} (h : b.onlyRegs t ks) {f : Fld} (n : Nat) (hf : f.key ∈ ks) :
    b.onlyRegs (t.addSat f n) ks := Block.onlyRegs_wr h _ hf

theorem Block.onlyRegs_intr {b t : Block} {ks : List Nat} (h : b.onlyRegs t ks) {i : Nat} (v : Bool)
    (hf : Reg.GLB_INT_PEND_PEND.key ∈ ks) : b.onlyRegs (t.intr i v) ks := by
  unfold Block.intr Block.setBitOf
  split
  · exact Block.onlyRegs_wr h _ hf
  · exact h

/-- A read sees only the registers of a changed block. -/
@[simp] theorem Block.rd_mk {d : Block} {g : Fld} {x1 : Tab Nat} {x3 : TimeSt} {x4 : Tab LightRt} {x5 : Tab Nat} {x6 : Bool} {x7 : MgmtSt} {x8 : FaultSt} {x9 : ImageSt} {x10 : EdtSt} {x11 : Tab PortSt} {x12 : Tab SliceSt} {x13 : ArraySt} {x14 : ReguSt} {x15 : Tab SubSt} {x16 : List Intern} {x17 : PhySt} {x18 : CalSt} {x19 : List NvStore} {x20 : EccSt} {x21 : ScrubSt} {x22 : TenderSt} {x23 : ModSt} {x24 : CtrSt} {x25 : PwrSt} {x26 : ThmSt} {x27 : StartSt} {x28 : Nat} {x29 : Nat} {nv : List Host.Cell} :
    (Block.mk d.regs x1 nv x3 x4 x5 x6 x7 x8 x9 x10 x11 x12 x13 x14 x15 x16 x17 x18 x19 x20 x21 x22 x23 x24 x25 x26 x27 x28 x29).rd g = d.rd g := rfl

/-! ## Pending bits (R545) -/

theorem bitOf_or_self (v i : Nat) : bitOf (v ||| 1 <<< i) i = true := by
  simp [bitOf, Nat.shiftRight_or_distrib, Nat.shiftLeft_shiftRight]

theorem bitOf_mod (v w i : Nat) (h : i < w) : bitOf (v % 2 ^ w) i = bitOf v i := by
  simp only [bitOf, Nat.shiftRight_eq_div_pow]
  rw [show w = i + (w - i) by omega, Nat.pow_add, Nat.mod_mul_right_div_self, show w - i = (w - i - 1) + 1 by omega,
    Nat.pow_succ, Nat.mul_comm, Nat.mod_mul_right_mod]

/-- An enabled cause makes its group pending. -/
theorem Block.bit_intr (b : Block) (i : Nat) (h : i < 27) : (b.intr i true).bit Reg.GLB_INT_PEND_PEND i = true := by
  simp only [Block.intr, Block.setBitOf, Block.bit, Block.rd_wr_self, if_true]
  rw [bitOf_mod _ _ _ (show i < Reg.GLB_INT_PEND_PEND.width from h), bitOf_or_self]

theorem Block.on_iff (b : Block) (f : Fld) : b.on f = true ↔ b.rd f ≠ 0 := by simp [Block.on]
theorem Block.on_false (b : Block) (f : Fld) : b.on f = false ↔ b.rd f = 0 := by simp [Block.on]

/-! ## The end of refresh windows (R270) touches no register -/

theorem Block.freeRun_regs (a b : Block) : (Block.freeRun a b).regs = b.regs := by
  unfold Block.freeRun
  exact forEach_keeps Block.regs _ _ _ (fun s i => by split <;> rfl)

theorem Block.freeRun_rd (a b : Block) (g : Fld) : (Block.freeRun a b).rd g = b.rd g :=
  Block.rd_congr _ _ (Block.freeRun_regs a b)

end Machine

end Sys2Proof
end

