-- ==== Sys2Proof/Laws/Access.lean ====
section
/-! SUPPORT. What a granted management write does, once for every register: it is recorded, its fields are stored, its effect
follows, and MG_ACK comes without MG_ERR. -/

namespace Sys2Proof

open Machine Reg

/-- A write judged performed lies on a register. -/
theorem Machine.Block.judge_go {b : Block} {role : Role} {off : Nat} {w : Word} {r : RegInfo} {idx : List Nat}
    (h : b.judgeWrite role off w = .go r idx) : findReg off = some (r, idx) := by
  unfold Block.judgeWrite at h
  split at h
  · cases h
  split at h
  · cases h
  split at h
  · dsimp only at h; repeat' split at h
    all_goals cases h
  split at h
  · repeat' split at h
    all_goals cases h
  split at h
  · next r' i' e =>
    rw [e]
    unfold Block.judgeReg at h
    dsimp only at h
    repeat' split at h
    all_goals cases h
    rfl
  · cases h

theorem Machine.Block.recRoom_mono {b : Block} {m n : Nat} (hmn : m ≤ n) (h : b.recRoom n = true) : b.recRoom m = true := by
  simp only [Block.recRoom, Bool.or_eq_true, decide_eq_true_eq] at h ⊢
  rcases h with h | h
  · exact .inl h
  · exact .inr (by omega)

/-- The block with the record of a write, where one is due (R526, R528). -/
def Machine.Block.noted (b : Block) (role : Role) (r : RegInfo) (off : Nat) (w : Word) : Block :=
  if b.recorded role r then b.audPut (b.writeRec role off 0 (b.readWord off) w) else b

/-- The block after a granted write of register `r` (R1, R4, R528). -/
def Machine.Block.written (b : Block) (role : Role) (r : RegInfo) (idx : List Nat) (off : Nat) (w : Word) (x : Aux) : Block :=
  ((b.noted role r off w).performReg role r idx off (b.readWord off) w x).mgAnswer false 0

/-- A granted write of a register other than EDT_INVAL is performed at once. -/
theorem Machine.writeReg_go {s : State} {role : Role} {off : Nat} {w : Word} (x : Aux) {r : RegInfo} {idx : List Nat}
    (hg : s.grants role off w) (hf : findReg off = some (r, idx)) (ho : off < 2 ^ 23) (h4 : off % 4 = 0)
    (hn : r.name ≠ .EDT_INVAL) (hr : s.block.recRoom (1 + s.block.fenceRecs r.name w.toNat) = true) :
    writeReg role off w x s = .next { s with block := s.block.written role r idx off w x } := by
  obtain ⟨h1, h2, ⟨r', idx', h3⟩, h5⟩ := hg
  have e := Block.judge_go h3
  rw [hf] at e
  cases e
  unfold writeReg access
  rw [onBlock_next]
  congr 2
  have hoff : 4 * (BitVec.ofNat 21 (off / 4)).toNat = off := by
    rw [BitVec.toNat_ofNat, Nat.mod_eq_of_lt (by omega)]; omega
  unfold Block.mgAccess
  simp only [h2, List.isEmpty_nil, if_true, Block.tryAccess, h1, Bool.not_true, Bool.false_eq_true, if_false, hoff]
  unfold Block.tryWrite
  simp only [h3, hn, false_and, if_false]
  rw [if_pos (Block.recRoom_mono (by split <;> omega) hr)]
  rfl

/-- A read that is acknowledged at once (R540). -/
theorem Machine.access_read {s : State} (role : Role) (addr : BitVec 21) (x : Aux) (ho : s.block.mgOpen = true)
    (hh : s.block.mg.held = []) :
    access role addr none x s = .next { s with block := s.block.doRead role (4 * addr.toNat) } := by
  unfold access
  rw [onBlock_next]
  congr 2
  unfold Block.mgAccess
  simp only [hh, List.isEmpty_nil, if_true, Block.tryAccess, ho, Bool.not_true, Bool.false_eq_true, if_false]

theorem Machine.readReg_open {s : State} {role : Role} {off : Nat} (ho : s.block.mgOpen = true)
    (hh : s.block.mg.held = []) (hb : off < 2 ^ 23) (h4 : off % 4 = 0) :
    readReg role off s = .next { s with block := s.block.doRead role off } := by
  unfold readReg
  rw [access_read role _ _ ho hh, BitVec.toNat_ofNat, Nat.mod_eq_of_lt (by omega), show 4 * (off / 4) = off by omega]

namespace Machine

theorem Block.audPut_rd (b : Block) (r : AudRec) (g : Fld) (hg : g.key ∉ audKeys) : (b.audPut r).rd g = b.rd g := by
  simp only [audKeys, List.mem_cons, List.not_mem_nil, or_false, not_or] at hg
  unfold Block.audPut Block.audLost
  split
  · rfl
  · rw [Block.rd_intr _ _ _ _ hg.2.2, Block.rd_bump_of_ne _ _ _ hg.2.1, Block.rd_wr_of_ne _ _ _ _ hg.1]

theorem Block.audPut_parts (b : Block) (r : AudRec) :
    b.audPut r = { b with regs := (b.audPut r).regs, mg := (b.audPut r).mg } := by
  unfold Block.audPut Block.audLost Block.intr Block.setBitOf
  repeat' split
  all_goals rfl

theorem Block.noted_rd (b : Block) (role : Role) (r : RegInfo) (off : Nat) (w : Word) (g : Fld) (hg : g.key ∉ audKeys) :
    (b.noted role r off w).rd g = b.rd g := by
  unfold Block.noted
  split
  · exact Block.audPut_rd _ _ _ hg
  · rfl

theorem Block.noted_parts (b : Block) (role : Role) (r : RegInfo) (off : Nat) (w : Word) :
    b.noted role r off w
      = { b with regs := (b.noted role r off w).regs, mg := (b.noted role r off w).mg } := by
  unfold Block.noted
  split
  · exact Block.audPut_parts _ _
  · rfl

section
variable (b : Block) (role : Role) (r : RegInfo) (off : Nat) (w : Word)
@[simp] theorem Block.noted_work : (b.noted role r off w).work = b.work := by rw [Block.noted_parts]
@[simp] theorem Block.noted_nvm : (b.noted role r off w).nvm = b.nvm := by rw [Block.noted_parts]
@[simp] theorem Block.noted_time : (b.noted role r off w).time = b.time := by rw [Block.noted_parts]
@[simp] theorem Block.noted_lights : (b.noted role r off w).lights = b.lights := by rw [Block.noted_parts]
@[simp] theorem Block.noted_lgtSnap : (b.noted role r off w).lgtSnap = b.lgtSnap := by rw [Block.noted_parts]
@[simp] theorem Block.noted_lgtRun : (b.noted role r off w).lgtRun = b.lgtRun := by rw [Block.noted_parts]
@[simp] theorem Block.noted_flt : (b.noted role r off w).flt = b.flt := by rw [Block.noted_parts]
@[simp] theorem Block.noted_img : (b.noted role r off w).img = b.img := by rw [Block.noted_parts]
@[simp] theorem Block.noted_edt : (b.noted role r off w).edt = b.edt := by rw [Block.noted_parts]
@[simp] theorem Block.noted_ports : (b.noted role r off w).ports = b.ports := by rw [Block.noted_parts]
@[simp] theorem Block.noted_slices : (b.noted role r off w).slices = b.slices := by rw [Block.noted_parts]
@[simp] theorem Block.noted_arr : (b.noted role r off w).arr = b.arr := by rw [Block.noted_parts]
@[simp] theorem Block.noted_regu : (b.noted role r off w).regu = b.regu := by rw [Block.noted_parts]
@[simp] theorem Block.noted_subs : (b.noted role r off w).subs = b.subs := by rw [Block.noted_parts]
@[simp] theorem Block.noted_intern : (b.noted role r off w).intern = b.intern := by rw [Block.noted_parts]
@[simp] theorem Block.noted_phy : (b.noted role r off w).phy = b.phy := by rw [Block.noted_parts]
@[simp] theorem Block.noted_cal : (b.noted role r off w).cal = b.cal := by rw [Block.noted_parts]
@[simp] theorem Block.noted_stores : (b.noted role r off w).stores = b.stores := by rw [Block.noted_parts]
@[simp] theorem Block.noted_ecc : (b.noted role r off w).ecc = b.ecc := by rw [Block.noted_parts]
@[simp] theorem Block.noted_scrub : (b.noted role r off w).scrub = b.scrub := by rw [Block.noted_parts]
@[simp] theorem Block.noted_tnd : (b.noted role r off w).tnd = b.tnd := by rw [Block.noted_parts]
@[simp] theorem Block.noted_mod : (b.noted role r off w).mod = b.mod := by rw [Block.noted_parts]
@[simp] theorem Block.noted_ctr : (b.noted role r off w).ctr = b.ctr := by rw [Block.noted_parts]
@[simp] theorem Block.noted_pwr : (b.noted role r off w).pwr = b.pwr := by rw [Block.noted_parts]
@[simp] theorem Block.noted_thm : (b.noted role r off w).thm = b.thm := by rw [Block.noted_parts]
@[simp] theorem Block.noted_start : (b.noted role r off w).start = b.start := by rw [Block.noted_parts]
@[simp] theorem Block.noted_nextId : (b.noted role r off w).nextId = b.nextId := by rw [Block.noted_parts]
@[simp] theorem Block.noted_fresh : (b.noted role r off w).fresh = b.fresh := by rw [Block.noted_parts]
end

/-- What the record of a write leaves: registers and management state. -/
theorem Block.noted_form (b : Block) (role : Role) (r : RegInfo) (off : Nat) (w : Word) :
    ∃ rg m, b.noted role r off w = { b with regs := rg, mg := m } ∧ m.held = b.mg.held ∧ m.latch = b.mg.latch
      ∧ ∀ g : Fld, g.key ∉ audKeys → fldGet rg g = b.rd g := by
  refine ⟨_, _, b.noted_parts role r off w, ?_, ?_, fun g hg => b.noted_rd role r off w g hg⟩
  all_goals
    unfold Block.noted Block.audPut Block.audLost Block.intr Block.setBitOf
    repeat' split
    all_goals rfl

@[simp] theorem Block.noted_held (b : Block) (role : Role) (r : RegInfo) (off : Nat) (w : Word) :
    (b.noted role r off w).mg.held = b.mg.held := by
  obtain ⟨rg, m, e, h, _, _⟩ := b.noted_form role r off w
  rw [e]; exact h

@[simp] theorem Block.noted_latch (b : Block) (role : Role) (r : RegInfo) (off : Nat) (w : Word) :
    (b.noted role r off w).mg.latch = b.mg.latch := by
  obtain ⟨rg, m, e, _, h, _⟩ := b.noted_form role r off w
  rw [e]; exact h

end Machine

end Sys2Proof
end

