-- ==== Sys2Proof/Laws/Find.lean ====
section
/-! SUPPORT. The registers that commands of the management interface write, as the map of offsets finds them (R576 to
R578). -/

namespace Sys2Proof.Machine

open Reg

/-- IMG_CTL of the catalogue. -/
def reg_IMG_CTL : RegInfo :=
  ⟨.IMG_CTL, 0x400, [], 1,
    [⟨16, 16, .rw, .l, .installer, 100⟩, ⟨8, 1, .rw, .l, .installer, 0⟩, ⟨1, 1, .wo, .l, .installer, 0⟩, ⟨0, 1, .wo, .l, .installer, 0⟩]⟩

set_option maxRecDepth 8000 in
theorem find_IMG_CTL : findReg 0x400 = some (reg_IMG_CTL, []) := by decide

/-- EDT_INVAL of the catalogue. -/
def reg_EDT_INVAL : RegInfo :=
  ⟨.EDT_INVAL, 0x30014, [], 9,
    [⟨30, 2, .wo, .l, .operator, 0⟩, ⟨0, 17, .wo, .l, .operator, 0⟩]⟩

set_option maxRecDepth 8000 in
theorem find_EDT_INVAL : findReg 0x30014 = some (reg_EDT_INVAL, []) := by decide

/-- PRT_CTL of the catalogue. -/
def reg_PRT_CTL : RegInfo :=
  ⟨.PRT_CTL, 0x10004, [(0x800, 6)], 6,
    [⟨4, 4, .rw, .l, .both, 0⟩, ⟨0, 1, .rw, .l, .both, 0⟩]⟩

set_option maxRecDepth 8000 in
theorem find_PRT_CTL : ∀ i : Fin 6, findReg (0x10004 + 0x800 * i) = some (reg_PRT_CTL, [i.val]) := by decide

/-- ARB_COMMIT of the catalogue. -/
def reg_ARB_COMMIT : RegInfo :=
  ⟨.ARB_COMMIT, 0x18008, [], 7,
    [⟨0, 1, .wo, .l, .both, 0⟩]⟩

set_option maxRecDepth 8000 in
theorem find_ARB_COMMIT : findReg 0x18008 = some (reg_ARB_COMMIT, []) := by decide

/-- ARB_HOLD_LIMIT of the catalogue. -/
def reg_ARB_HOLD_LIMIT : RegInfo :=
  ⟨.ARB_HOLD_LIMIT, 0x1800c, [], 7,
    [⟨0, 12, .rw, .l, .installer, 256⟩]⟩

set_option maxRecDepth 8000 in
theorem find_ARB_HOLD_LIMIT : findReg 0x1800c = some (reg_ARB_HOLD_LIMIT, []) := by decide

/-- CCH_CTL of the catalogue. -/
def reg_CCH_CTL : RegInfo :=
  ⟨.CCH_CTL, 0x40004, [(0x1000, 16)], 10,
    [⟨8, 4, .rw, .l, .both, 0⟩, ⟨0, 1, .rw, .l, .both, 0⟩]⟩

set_option maxRecDepth 8000 in
theorem find_CCH_CTL : ∀ i : Fin 16, findReg (0x40004 + 0x1000 * i) = some (reg_CCH_CTL, [i.val]) := by decide

/-- CCH_MNT_CTL of the catalogue. -/
def reg_CCH_MNT_CTL : RegInfo :=
  ⟨.CCH_MNT_CTL, 0x50000, [], 10,
    [⟨31, 1, .wo, .l, .operator, 0⟩, ⟨8, 16, .rw, .l, .operator, 0⟩, ⟨4, 1, .rw, .l, .operator, 0⟩, ⟨0, 3, .rw, .l, .operator, 0⟩]⟩

set_option maxRecDepth 8000 in
theorem find_CCH_MNT_CTL : findReg 0x50000 = some (reg_CCH_MNT_CTL, []) := by decide

/-- SCH_CTL of the catalogue. -/
def reg_SCH_CTL : RegInfo :=
  ⟨.SCH_CTL, 0x80000, [(0x4000, 32)], 11,
    [⟨16, 16, .rw, .l, .both, 1024⟩, ⟨12, 4, .rw, .l, .both, 0⟩, ⟨8, 2, .rw, .q, .installer, 2⟩, ⟨0, 1, .rw, .l, .both, 0⟩]⟩

set_option maxRecDepth 8000 in
theorem find_SCH_CTL : ∀ i : Fin 32, findReg (0x80000 + 0x4000 * i) = some (reg_SCH_CTL, [i.val]) := by decide

/-- SCH_REF of the catalogue. -/
def reg_SCH_REF : RegInfo :=
  ⟨.SCH_REF, 0x80014, [(0x4000, 32)], 11,
    [⟨16, 4, .rw, .l, .installer, 0⟩, ⟨8, 1, .rw, .l, .both, 1⟩, ⟨4, 1, .rw, .q, .installer, 0⟩]⟩

set_option maxRecDepth 8000 in
theorem find_SCH_REF : ∀ i : Fin 32, findReg (0x80014 + 0x4000 * i) = some (reg_SCH_REF, [i.val]) := by decide

/-- CLS_CTL of the catalogue. -/
def reg_CLS_CTL : RegInfo :=
  ⟨.CLS_CTL, 0x80040, [(0x4000, 32)], 12,
    [⟨31, 1, .wo, .q, .installer, 0⟩, ⟨30, 1, .wo, .l, .installer, 0⟩, ⟨16, 4, .rw, .q, .installer, 0⟩, ⟨0, 1, .rw, .l, .both, 0⟩]⟩

set_option maxRecDepth 8000 in
theorem find_CLS_CTL : ∀ i : Fin 32, findReg (0x80040 + 0x4000 * i) = some (reg_CLS_CTL, [i.val]) := by decide

/-- SNT_CALL_CTL of the catalogue. -/
def reg_SNT_CALL_CTL : RegInfo :=
  ⟨.SNT_CALL_CTL, 0x78000, [(0x20, 32)], 13,
    [⟨31, 1, .wo, .l, .installer, 0⟩, ⟨16, 8, .rw, .l, .installer, 0⟩, ⟨8, 1, .rw, .l, .installer, 0⟩, ⟨0, 6, .rw, .l, .installer, 0⟩]⟩

set_option maxRecDepth 8000 in
theorem find_SNT_CALL_CTL : ∀ i : Fin 32, findReg (0x78000 + 0x20 * i) = some (reg_SNT_CALL_CTL, [i.val]) := by decide

/-- PHY_TRAIN_CTL of the catalogue. -/
def reg_PHY_TRAIN_CTL : RegInfo :=
  ⟨.PHY_TRAIN_CTL, 0x100008, [(0x8000, 32)], 14,
    [⟨31, 1, .wo, .l, .installer, 0⟩, ⟨30, 1, .wo, .l, .installer, 0⟩, ⟨1, 10, .rw, .l, .installer, 1023⟩]⟩

set_option maxRecDepth 8000 in
theorem find_PHY_TRAIN_CTL : ∀ i : Fin 32, findReg (0x100008 + 0x8000 * i) = some (reg_PHY_TRAIN_CTL, [i.val]) := by decide

/-- PHY_LOOP_CTL of the catalogue. -/
def reg_PHY_LOOP_CTL : RegInfo :=
  ⟨.PHY_LOOP_CTL, 0x100018, [(0x8000, 32)], 14,
    [⟨31, 1, .wo, .l, .both, 0⟩, ⟨30, 1, .wo, .l, .both, 0⟩, ⟨8, 16, .rw, .l, .both, 0⟩, ⟨4, 2, .rw, .l, .both, 2⟩, ⟨0, 2, .rw, .l, .both, 0⟩]⟩

set_option maxRecDepth 8000 in
theorem find_PHY_LOOP_CTL : ∀ i : Fin 32, findReg (0x100018 + 0x8000 * i) = some (reg_PHY_LOOP_CTL, [i.val]) := by decide

/-- CAL_CTL of the catalogue. -/
def reg_CAL_CTL : RegInfo :=
  ⟨.CAL_CTL, 0x104000, [(0x8000, 32)], 15,
    [⟨31, 1, .wo, .l, .installer, 0⟩, ⟨30, 1, .wo, .l, .installer, 0⟩, ⟨8, 4, .rw, .l, .both, 0⟩, ⟨2, 1, .rw, .l, .installer, 1⟩, ⟨1, 1, .rw, .l, .installer, 1⟩, ⟨0, 1, .rw, .l, .installer, 1⟩]⟩

set_option maxRecDepth 8000 in
theorem find_CAL_CTL : ∀ i : Fin 32, findReg (0x104000 + 0x8000 * i) = some (reg_CAL_CTL, [i.val]) := by decide

/-- ECC_ERASE of the catalogue. -/
def reg_ECC_ERASE : RegInfo :=
  ⟨.ECC_ERASE, 0x200070, [(0x100, 32)], 16,
    [⟨31, 1, .rw, .l, .installer, 0⟩, ⟨30, 1, .ro, .none, .nobody, 0⟩, ⟨0, 5, .rw, .l, .installer, 0⟩]⟩

set_option maxRecDepth 8000 in
theorem find_ECC_ERASE : ∀ i : Fin 32, findReg (0x200070 + 0x100 * i) = some (reg_ECC_ERASE, [i.val]) := by decide

/-- ECC_REPAIR_CTL of the catalogue. -/
def reg_ECC_REPAIR_CTL : RegInfo :=
  ⟨.ECC_REPAIR_CTL, 0x200080, [(0x100, 32)], 16,
    [⟨31, 1, .wo, .l, .installer, 0⟩, ⟨8, 1, .rw, .l, .installer, 0⟩, ⟨0, 5, .rw, .l, .installer, 0⟩]⟩

set_option maxRecDepth 8000 in
theorem find_ECC_REPAIR_CTL : ∀ i : Fin 32, findReg (0x200080 + 0x100 * i) = some (reg_ECC_REPAIR_CTL, [i.val]) := by decide

/-- ECC_INJ_CTL of the catalogue. -/
def reg_ECC_INJ_CTL : RegInfo :=
  ⟨.ECC_INJ_CTL, 0x202040, [], 16,
    [⟨31, 1, .wo, .l, .installer, 0⟩, ⟨30, 1, .wo, .l, .installer, 0⟩, ⟨1, 1, .rw, .l, .installer, 0⟩, ⟨0, 1, .rw, .l, .installer, 0⟩]⟩

set_option maxRecDepth 8000 in
theorem find_ECC_INJ_CTL : findReg 0x202040 = some (reg_ECC_INJ_CTL, []) := by decide

/-- SCB_CTL of the catalogue. -/
def reg_SCB_CTL : RegInfo :=
  ⟨.SCB_CTL, 0x204000, [], 17,
    [⟨31, 1, .wo, .l, .both, 0⟩, ⟨30, 1, .wo, .l, .both, 0⟩, ⟨8, 1, .rw, .l, .both, 0⟩, ⟨0, 3, .rw, .l, .both, 0⟩]⟩

set_option maxRecDepth 8000 in
theorem find_SCB_CTL : findReg 0x204000 = some (reg_SCB_CTL, []) := by decide

/-- MOD_RPL_CTL of the catalogue. -/
def reg_MOD_RPL_CTL : RegInfo :=
  ⟨.MOD_RPL_CTL, 0x2c0100, [(0x8, 16)], 26,
    [⟨0, 2, .wo, .l, .operator, 0⟩]⟩

set_option maxRecDepth 8000 in
theorem find_MOD_RPL_CTL : ∀ i : Fin 16, findReg (0x2c0100 + 0x8 * i) = some (reg_MOD_RPL_CTL, [i.val]) := by decide

/-- TND_CTL of the catalogue. -/
def reg_TND_CTL : RegInfo :=
  ⟨.TND_CTL, 0x240000, [], 18,
    [⟨31, 1, .wo, .l, .operator, 0⟩, ⟨2, 1, .rw, .l, .both, 0⟩, ⟨1, 1, .rw, .l, .both, 0⟩, ⟨0, 1, .rw, .l, .operator, 0⟩]⟩

set_option maxRecDepth 8000 in
theorem find_TND_CTL : findReg 0x240000 = some (reg_TND_CTL, []) := by decide

/-- PWR_CMD of the catalogue. -/
def reg_PWR_CMD : RegInfo :=
  ⟨.PWR_CMD, 0x260020, [], 22,
    [⟨31, 1, .wo, .l, .operator, 0⟩, ⟨8, 16, .rw, .l, .operator, 0⟩, ⟨0, 3, .rw, .l, .operator, 0⟩]⟩

set_option maxRecDepth 8000 in
theorem find_PWR_CMD : findReg 0x260020 = some (reg_PWR_CMD, []) := by decide

/-- HBR_CTL of the catalogue. -/
def reg_HBR_CTL : RegInfo :=
  ⟨.HBR_CTL, 0x608, [], 2,
    [⟨1, 1, .rw, .l, .installer, 0⟩, ⟨0, 1, .wo, .l, .installer, 0⟩]⟩

set_option maxRecDepth 8000 in
theorem find_HBR_CTL : findReg 0x608 = some (reg_HBR_CTL, []) := by decide

/-- FLT_REC_CLR of the catalogue. -/
def reg_FLT_REC_CLR : RegInfo :=
  ⟨.FLT_REC_CLR, 0x208040, [], 25,
    [⟨31, 1, .wo, .l, .both, 0⟩, ⟨30, 1, .wo, .l, .both, 0⟩, ⟨0, 7, .rw, .l, .both, 0⟩]⟩

set_option maxRecDepth 8000 in
theorem find_FLT_REC_CLR : findReg 0x208040 = some (reg_FLT_REC_CLR, []) := by decide

/-- AUD_CTL of the catalogue. -/
def reg_AUD_CTL : RegInfo :=
  ⟨.AUD_CTL, 0xa00, [], 4,
    [⟨31, 1, .wo, .l, .maker, 0⟩, ⟨1, 1, .rw, .l, .both, 0⟩, ⟨0, 1, .rw, .l, .both, 0⟩]⟩

set_option maxRecDepth 8000 in
theorem find_AUD_CTL : findReg 0xa00 = some (reg_AUD_CTL, []) := by decide

/-- TIM_NOW_LO of the catalogue. -/
def reg_TIM_NOW_LO : RegInfo :=
  ⟨.TIM_NOW_LO, 0x60008, [], 19,
    [⟨0, 32, .ro, .none, .nobody, 0⟩]⟩

set_option maxRecDepth 8000 in
theorem find_TIM_NOW_LO : findReg 0x60008 = some (reg_TIM_NOW_LO, []) := by decide

/-- LGT_PERIOD of the catalogue. -/
def reg_LGT_PERIOD : RegInfo :=
  ⟨.LGT_PERIOD, 0x61008, [(0x20, 64)], 20,
    [⟨0, 32, .rw, .s, .both, 0⟩]⟩

set_option maxRecDepth 8000 in
theorem find_LGT_PERIOD : ∀ i : Fin 64, findReg (0x61008 + 0x20 * i) = some (reg_LGT_PERIOD, [i.val]) := by decide

/-- LGT_COMMIT of the catalogue. -/
def reg_LGT_COMMIT : RegInfo :=
  ⟨.LGT_COMMIT, 0x60100, [], 20,
    [⟨0, 1, .wo, .l, .both, 0⟩]⟩

set_option maxRecDepth 8000 in
theorem find_LGT_COMMIT : findReg 0x60100 = some (reg_LGT_COMMIT, []) := by decide

/-- REGU_COMMIT of the catalogue. -/
def reg_REGU_COMMIT : RegInfo :=
  ⟨.REGU_COMMIT, 0x20008, [], 8,
    [⟨0, 1, .wo, .l, .both, 0⟩]⟩

set_option maxRecDepth 8000 in
theorem find_REGU_COMMIT : findReg 0x20008 = some (reg_REGU_COMMIT, []) := by decide

/-- ECC_LOG_SEL of the catalogue. -/
def reg_ECC_LOG_SEL : RegInfo :=
  ⟨.ECC_LOG_SEL, 0x200020, [(0x100, 32)], 16,
    [⟨31, 1, .wo, .l, .both, 0⟩, ⟨0, 5, .rw, .l, .both, 0⟩]⟩

set_option maxRecDepth 8000 in
theorem find_ECC_LOG_SEL : ∀ i : Fin 32, findReg (0x200020 + 0x100 * i) = some (reg_ECC_LOG_SEL, [i.val]) := by decide

/-- TND_TAIL of the catalogue. -/
def reg_TND_TAIL : RegInfo :=
  ⟨.TND_TAIL, 0x240024, [], 18,
    [⟨0, 16, .rw, .l, .operator, 0⟩]⟩

set_option maxRecDepth 8000 in
theorem find_TND_TAIL : findReg 0x240024 = some (reg_TND_TAIL, []) := by decide

/-- CTR_SNAP of the catalogue. -/
def reg_CTR_SNAP : RegInfo :=
  ⟨.CTR_SNAP, 0x280008, [], 24,
    [⟨31, 1, .wo, .l, .both, 0⟩, ⟨0, 16, .rw, .l, .both, 0⟩]⟩

set_option maxRecDepth 8000 in
theorem find_CTR_SNAP : findReg 0x280008 = some (reg_CTR_SNAP, []) := by decide

/-- CTR_CLEAR of the catalogue. -/
def reg_CTR_CLEAR : RegInfo :=
  ⟨.CTR_CLEAR, 0x280018, [], 24,
    [⟨31, 1, .wo, .l, .both, 0⟩, ⟨0, 10, .rw, .l, .both, 0⟩]⟩

set_option maxRecDepth 8000 in
theorem find_CTR_CLEAR : findReg 0x280018 = some (reg_CTR_CLEAR, []) := by decide

/-- CTR_LIVE_LO of the catalogue. -/
def reg_CTR_LIVE_LO : RegInfo :=
  ⟨.CTR_LIVE_LO, 0x280020, [], 24,
    [⟨0, 32, .ro, .none, .nobody, 0⟩]⟩

set_option maxRecDepth 8000 in
theorem find_CTR_LIVE_LO : findReg 0x280020 = some (reg_CTR_LIVE_LO, []) := by decide

/-- FLT_FENCE_SET_SUB of the catalogue. -/
def reg_FLT_FENCE_SET_SUB : RegInfo :=
  ⟨.FLT_FENCE_SET_SUB, 0x208010, [], 25,
    [⟨0, 32, .wo, .l, .operator, 0⟩]⟩

set_option maxRecDepth 8000 in
theorem find_FLT_FENCE_SET_SUB : findReg 0x208010 = some (reg_FLT_FENCE_SET_SUB, []) := by decide

/-- FLT_FENCE_CLR_SUB of the catalogue. -/
def reg_FLT_FENCE_CLR_SUB : RegInfo :=
  ⟨.FLT_FENCE_CLR_SUB, 0x208014, [], 25,
    [⟨0, 32, .wo, .l, .operator, 0⟩]⟩

set_option maxRecDepth 8000 in
theorem find_FLT_FENCE_CLR_SUB : findReg 0x208014 = some (reg_FLT_FENCE_CLR_SUB, []) := by decide

/-- FLT_FENCE_SET_SLICE of the catalogue. -/
def reg_FLT_FENCE_SET_SLICE : RegInfo :=
  ⟨.FLT_FENCE_SET_SLICE, 0x208020, [], 25,
    [⟨0, 16, .wo, .l, .operator, 0⟩]⟩

set_option maxRecDepth 8000 in
theorem find_FLT_FENCE_SET_SLICE : findReg 0x208020 = some (reg_FLT_FENCE_SET_SLICE, []) := by decide

/-- FLT_FENCE_CLR_SLICE of the catalogue. -/
def reg_FLT_FENCE_CLR_SLICE : RegInfo :=
  ⟨.FLT_FENCE_CLR_SLICE, 0x208024, [], 25,
    [⟨0, 16, .wo, .l, .operator, 0⟩]⟩

set_option maxRecDepth 8000 in
theorem find_FLT_FENCE_CLR_SLICE : findReg 0x208024 = some (reg_FLT_FENCE_CLR_SLICE, []) := by decide

/-- FLT_FENCE_SET_PORT of the catalogue. -/
def reg_FLT_FENCE_SET_PORT : RegInfo :=
  ⟨.FLT_FENCE_SET_PORT, 0x208030, [], 25,
    [⟨0, 6, .wo, .l, .operator, 0⟩]⟩

set_option maxRecDepth 8000 in
theorem find_FLT_FENCE_SET_PORT : findReg 0x208030 = some (reg_FLT_FENCE_SET_PORT, []) := by decide

/-- FLT_FENCE_CLR_PORT of the catalogue. -/
def reg_FLT_FENCE_CLR_PORT : RegInfo :=
  ⟨.FLT_FENCE_CLR_PORT, 0x208034, [], 25,
    [⟨0, 6, .wo, .l, .operator, 0⟩]⟩

set_option maxRecDepth 8000 in
theorem find_FLT_FENCE_CLR_PORT : findReg 0x208034 = some (reg_FLT_FENCE_CLR_PORT, []) := by decide

end Sys2Proof.Machine
end

