-- ==== Sys2Proof/Laws/Words.lean ====
section
/-! SUPPORT. Fields of a word: what `withField` puts in and what it leaves. -/

namespace Sys2Proof.Machine

/-- The value of the bits of a field in a word. -/
def fieldOf (w : Word) (f : Fld) : Nat := w.toNat >>> f.lo % 2 ^ f.width

theorem putBits_eq (v hi lo x : Nat) (n : Nat) (hn : n = hi - lo + 1) :
    putBits v hi lo x = v / 2 ^ (lo + n) * 2 ^ (lo + n) + x % 2 ^ n * 2 ^ lo + v % 2 ^ lo := by
  subst hn
  unfold putBits bitsOf
  rw [Nat.shiftRight_eq_div_pow, Nat.shiftLeft_eq, Nat.shiftLeft_eq]
  generalize hi - lo + 1 = n
  have h1 : v = v / 2 ^ (lo + n) * 2 ^ (lo + n) + v / 2 ^ lo % 2 ^ n * 2 ^ lo + v % 2 ^ lo := by
    have a := Nat.div_add_mod v (2 ^ lo)
    have b := Nat.div_add_mod (v / 2 ^ lo) (2 ^ n)
    rw [Nat.div_div_eq_div_mul, ← Nat.pow_add] at b
    have c : 2 ^ lo * (v / 2 ^ lo) = v / 2 ^ (lo + n) * 2 ^ (lo + n) + v / 2 ^ lo % 2 ^ n * 2 ^ lo := by
      conv => lhs; rw [← b]
      rw [Nat.mul_add, ← Nat.mul_assoc, ← Nat.pow_add, Nat.mul_comm (2 ^ (lo + n)), Nat.mul_comm (2 ^ lo)]
    omega
  omega

/-- The low bits under the field stay. -/
theorem putBits_low (v hi lo x n lo' n' : Nat) (hn : n = hi - lo + 1) (h : lo' + n' ≤ lo) :
    putBits v hi lo x >>> lo' % 2 ^ n' = v >>> lo' % 2 ^ n' := by
  have key : ∀ u : Nat, u >>> lo' % 2 ^ n' = (u % 2 ^ lo) >>> lo' % 2 ^ n' := by
    intro u
    rw [Nat.shiftRight_eq_div_pow, Nat.shiftRight_eq_div_pow]
    rw [← Nat.mod_mul_right_div_self, ← Nat.mod_mul_right_div_self (u % 2 ^ lo), ← Nat.pow_add,
      Nat.mod_mod_of_dvd _ (Nat.pow_dvd_pow 2 h)]
  rw [key (putBits v hi lo x), key v, putBits_eq v hi lo x n hn]
  congr 2
  rw [Nat.pow_add, show v / (2 ^ lo * 2 ^ n) * (2 ^ lo * 2 ^ n) + x % 2 ^ n * 2 ^ lo + v % 2 ^ lo
    = v % 2 ^ lo + 2 ^ lo * (v / (2 ^ lo * 2 ^ n) * 2 ^ n + x % 2 ^ n) by
      rw [Nat.mul_add, Nat.mul_comm (2 ^ lo) (x % 2 ^ n), Nat.mul_left_comm]; omega,
    Nat.add_mul_mod_self_left, Nat.mod_mod]

/-- The high bits over the field stay. -/
theorem putBits_high (v hi lo x n lo' : Nat) (hn : n = hi - lo + 1) (h : lo + n ≤ lo') :
    putBits v hi lo x >>> lo' = v >>> lo' := by
  have key : putBits v hi lo x / 2 ^ (lo + n) = v / 2 ^ (lo + n) := by
    have h1 := Nat.mod_lt x (Nat.two_pow_pos n)
    have h2 := Nat.mod_lt v (Nat.two_pow_pos lo)
    have h3 : x % 2 ^ n * 2 ^ lo + v % 2 ^ lo < 2 ^ (lo + n) := by
      rw [Nat.pow_add]
      calc x % 2 ^ n * 2 ^ lo + v % 2 ^ lo < x % 2 ^ n * 2 ^ lo + 1 * 2 ^ lo := by omega
        _ = (x % 2 ^ n + 1) * 2 ^ lo := by rw [Nat.add_mul]
        _ ≤ 2 ^ n * 2 ^ lo := Nat.mul_le_mul_right _ h1
        _ = 2 ^ lo * 2 ^ n := Nat.mul_comm _ _
    rw [putBits_eq v hi lo x n hn, Nat.add_assoc, Nat.mul_comm, Nat.mul_add_div (Nat.two_pow_pos _), Nat.div_eq_of_lt h3]
    rfl
  rw [Nat.shiftRight_eq_div_pow, Nat.shiftRight_eq_div_pow, show lo' = lo + n + (lo' - (lo + n)) by omega, Nat.pow_add,
    ← Nat.div_div_eq_div_mul, ← Nat.div_div_eq_div_mul, key]

/-- The field holds the value. -/
theorem putBits_self (v hi lo x n : Nat) (hn : n = hi - lo + 1) : putBits v hi lo x >>> lo % 2 ^ n = x % 2 ^ n := by
  rw [putBits_eq v hi lo x n hn, Nat.shiftRight_eq_div_pow, Nat.pow_add,
    show v / (2 ^ lo * 2 ^ n) * (2 ^ lo * 2 ^ n) + x % 2 ^ n * 2 ^ lo + v % 2 ^ lo
      = 2 ^ lo * (v / (2 ^ lo * 2 ^ n) * 2 ^ n + x % 2 ^ n) + v % 2 ^ lo by
        rw [Nat.mul_add, Nat.mul_comm (2 ^ lo) (x % 2 ^ n), Nat.mul_left_comm],
    Nat.mul_add_div (Nat.two_pow_pos _), Nat.div_eq_of_lt (Nat.mod_lt _ (Nat.two_pow_pos _)), Nat.add_zero,
    Nat.add_comm, Nat.add_mul_mod_self_right, Nat.mod_mod]

theorem ofNat32_field (p lo n : Nat) (h : lo + n ≤ 32) : (BitVec.ofNat 32 p).toNat >>> lo % 2 ^ n = p >>> lo % 2 ^ n := by
  rw [BitVec.toNat_ofNat, Nat.shiftRight_eq_div_pow, Nat.shiftRight_eq_div_pow, ← Nat.mod_mul_right_div_self,
    ← Nat.mod_mul_right_div_self p, ← Nat.pow_add, Nat.mod_mod_of_dvd _ (Nat.pow_dvd_pow 2 h)]

theorem fieldOf_withField_self (w : Word) (f : Fld) (v : Nat) (h : f.lo + f.width ≤ 32) (hw : 0 < f.width) :
    fieldOf (withField w f v) f = v % 2 ^ f.width := by
  unfold fieldOf withField
  rw [ofNat32_field _ _ _ h, putBits_self _ _ _ _ f.width (by omega), Nat.mod_mod]

theorem fieldOf_withField_of_ne (w : Word) (f g : Fld) (v : Nat) (hg : g.lo + g.width ≤ 32) (hw : 0 < f.width)
    (h : g.lo + g.width ≤ f.lo ∨ f.lo + f.width ≤ g.lo) : fieldOf (withField w f v) g = fieldOf w g := by
  unfold fieldOf withField
  rw [ofNat32_field _ _ _ hg]
  rcases h with h | h
  · exact putBits_low _ _ _ _ f.width _ _ (by omega) h
  · rw [putBits_high _ _ _ _ f.width _ (by omega) h]

/-- A bit is a field of one bit. -/
theorem bitOf_eq_field (w : Word) (off k rst : Nat) : bitOf w.toNat k = (fieldOf w ⟨off, k, 1, rst⟩ == 1) := rfl

end Sys2Proof.Machine
end

