-- ==== Sys2Proof/Tests/Slice0.lean ====
section
/-! SUPPORT. Tests: a state and operands that meet the hypotheses of every statement, clause by clause (meets_…); ill-formed
commands that the check refuses; and worked examples of the manual, one step each (test_…). -/

namespace Sys2Proof.Tests

set_option Elab.async false

open Sys2Proof.Machine Sys2Proof.Machine.Reg

/-- The block with its management interface open. -/
def open0 : Block := { (default : Block) with start := { (default : StartSt) with open_ := true } }
/-- A state of a block. -/
def stOf (b : Block) : State := ⟨b, []⟩
/-- Several register fields set. -/
def setAll (b : Block) (l : List (Fld × Nat)) : Block := forEach l b (fun b e => b.wr e.1 e.2)
/-- A header whose parity is right for an opcode. -/
def hdrOf (tag dpa opcode : Nat) : Header :=
  let h : Header := ⟨BitVec.ofNat 64 tag, 0, BitVec.ofNat 46 dpa, 0⟩
  { h with par := BitVec.ofNat 8 ((List.range 8).foldl (fun n i =>
      n + if xorBits (headerBits h opcode >>> (16 * i)) 16 then 2 ^ i else 0) 0) }
/-- A data beat whose parity is right. -/
def beatOf (data : Nat) : DataBeat :=
  let d : DataBeat := ⟨BitVec.ofNat 512 data, BitVec.allOnes 64, false, 0⟩
  { d with par := BitVec.ofNat 9 ((List.range 8).foldl (fun n i =>
      n + if xorBits (d.data.toNat >>> (64 * i)) 64 then 2 ^ i else 0) 0) }
/-- The write is judged performed. -/
def judged (s : State) (role : Role) (off : Nat) (w : Word) : Bool :=
  match s.block.judgeWrite role off w with
  | .go _ _ => true
  | _ => false
theorem judged_go {s : State} {role off w} (h : judged s role off w = true) : ∃ r idx, s.block.judgeWrite role off w = .go r idx := by
  unfold judged at h
  split at h
  · exact ⟨_, _, by assumption⟩
  · cases h
theorem grants_of {s : State} {role off w} (h : (s.block.mgOpen && s.block.mg.held.isEmpty && judged s role off w && s.block.recRoom 1) = true) :
    s.grants role off w := by
  simp only [Bool.and_eq_true] at h
  exact ⟨h.1.1.1, by simpa using h.1.1.2, judged_go h.1.2, h.2⟩

theorem meets_EmptyQueue : ({ open0 with pwr := { (default : PwrSt) with dead := true } }).pwr.dead = true
    ∧ ({ open0 with pwr := { (default : PwrSt) with inS3 := true } }).pwr.dead = false
    ∧ ({ open0 with pwr := { (default : PwrSt) with inS3 := true } }).pwr.inS3 = true
    ∧ open0.pwr.dead = false ∧ open0.pwr.inS3 = false := by decide +kernel

/-- A block with a byte in its NVM and TRIM_WE set. -/
def nvm1 : Block := { open0.wr NVM_CTL_TRIM_WE 1 with nvm := [(7, 3)] }
/-- The outcome is a next state with a property. -/
def nextHas (o : Host.Outcome State Fault Refusal) (p : State → Bool) : Bool :=
  match o with
  | .next t => p t
  | _ => false
theorem next_of {o : Host.Outcome State Fault Refusal} {p : State → Bool} (h : nextHas o p = true) :
    ∃ t : State, o = .next t ∧ p t = true := by
  cases o with
  | next t => exact ⟨t, rfl, h⟩
  | fault _ => cases h
  | refused _ => cases h
theorem meets_NvmForm : (⟨nvm1, [.factoryTrimWrite .maker 5 9]⟩ : State).nvmWf = true
    ∧ ∃ t : State, step ⟨nvm1, [.factoryTrimWrite .maker 5 9]⟩ = .next t
      ∧ decide (t.block.nvmByte 7 = 3 ∧ t.block.nvmByte 0xD8014 = 9) = true :=
  ⟨by decide +kernel, next_of (by decide +kernel)⟩
theorem meets_OnlyStores : Instr.storesNvm (.timNowLatch .maker) = false
    ∧ ∃ t : State, exec (.timNowLatch .maker) (stOf nvm1) = .next t ∧ decide (t.block.nvmByte 7 = 3) = true :=
  ⟨by decide +kernel, next_of (by decide +kernel)⟩
theorem meets_Refused : open0.mgOpen = true ∧ open0.mg.held = [] ∧ open0.recRoom 1 = true
    ∧ (Role.none = .none ∨ (Role.none ≠ .maker ∧ 0x500000 ≤ 4 * (5 : BitVec 21).toNat))
    ∧ (Role.operator = .none ∨ (Role.operator ≠ .maker ∧ 0x500000 ≤ 4 * (0x140000 : BitVec 21).toNat)) := by decide +kernel
theorem meets_NvmAreas : (0x400000 ≤ 4 * (0x100000 : BitVec 21).toNat ∧ 4 * (0x100000 : BitVec 21).toNat < 0x4D0200)
    ∧ 0x400000 ≤ 4 * (0x13407F : BitVec 21).toNat ∧ 4 * (0x13407F : BitVec 21).toNat < 0x4D0200 := by decide +kernel
theorem meets_ShadowWrite (i : Fin 64) (h : i ∈ [(0 : Fin 64), 63]) :
    (stOf open0).grants .maker (LGT_PERIOD_PERIOD i).off 0x12345 := by
  simp only [List.mem_cons, List.not_mem_nil, or_false] at h
  rcases h with rfl | rfl <;> exact grants_of (by decide +kernel)
/-- A read of the register at an offset clears something. -/
def rcAt (b : Block) (addr : Nat) : Bool :=
  match findReg addr with
  | some (r, idx) => r.fields.any (fun f => f.acc == .rc) && !b.regOff r (idx.headD 0)
  | none => false
theorem rcAt_spec {b : Block} {addr : Nat} (h : rcAt b addr = true) : ∃ (r : RegInfo) (idx : List Nat),
    findReg addr = some (r, idx) ∧ r.fields.any (fun f => f.acc == .rc) = true ∧ b.regOff r (idx.headD 0) = false := by
  unfold rcAt at h
  split at h
  · exact ⟨_, _, by assumption, by simp_all, by simp_all⟩
  · cases h
theorem meets_ReadClear : open0.mgOpen = true ∧ open0.mg.held = [] ∧ Role.maker ≠ .none
    ∧ 4 * (BitVec.ofNat 21 ((LGT_STATUS_REMAIN 63).off / 4)).toNat < 0x500000
    ∧ ∃ (r : RegInfo) (idx : List Nat), findReg (LGT_STATUS_REMAIN 63).off = some (r, idx)
      ∧ r.fields.any (fun f => f.acc == .rc) = true ∧ open0.regOff r (idx.headD 0) = false :=
  ⟨by decide +kernel, by decide +kernel, by decide, by decide +kernel, rcAt_spec (by decide +kernel)⟩
theorem meets_Closed : (default : Block).start.open_ = false
    ∧ ({ open0 with pwr := { (default : PwrSt) with inS3 := true } }).pwr.inS3 = true
    ∧ ({ open0 with pwr := { (default : PwrSt) with dead := true } }).pwr.dead = true
    ∧ 4 * (0x13FFFF : BitVec 21).toNat < 0x500000 := by decide +kernel
/-- Reset. -/
theorem meets_Reset : State.reset.nvmWf = true ∧ State.reset.block.nvm = [] ∧ State.reset.pending = []
    ∧ State.reset.block.rd TIM_STATUS_STATE = timAcquire ∧ State.reset.block.now = 0
    ∧ State.reset.block.rd REGU_SCALE_SCALE = 65536 ∧ State.reset.block.rd REGU_ADMIT_PCT = 85
    ∧ State.reset.block.rd SCB_RATE_LINES = 40 := by decide +kernel
theorem meets_NoRegister : Role.operator ≠ .none ∧ findReg (4 * (0x3FFFF : BitVec 21).toNat) = none
    ∧ (0x4D0200 ≤ 4 * (0x134080 : BitVec 21).toNat ∧ 4 * (0x135FFF : BitVec 21).toNat < 0x4D8000)
    ∧ (0x4E0000 ≤ 4 * (0x138000 : BitVec 21).toNat ∧ 4 * (0x13FFFF : BitVec 21).toNat < 0x500000) := by decide +kernel


/-- The time at `ns` in a state of TIM_STATUS. -/
def tim0 (st ns : Nat) : Block := { open0.wr TIM_STATUS_STATE st with time := { (default : TimeSt) with ns := ns, f := 655360 } }
theorem meets_TimeRead : Role.operator ≠ .none ∧ (tim0 1 (2 ^ 33 + 5)).mgOpen = true ∧ (tim0 1 (2 ^ 33 + 5)).mg.held = [] := by
  decide +kernel
theorem meets_Beacon_first : (tim0 timAcquire 70).pwr.inS3 = false ∧ (tim0 timAcquire 70).pwr.dead = false
    ∧ (tim0 timAcquire 70).rd TIM_STATUS_STATE = timAcquire ∧ ∀ i, i < 64 → ((tim0 timAcquire 70).lightW i).armed = false := by
  decide +kernel
theorem meets_Beacon_later : let b := tim0 timTracking 50000
    b.rd TIM_STATUS_STATE ≠ timAcquire ∧ timeDiff 49000 b.now ≤ -1000
    ∧ (-1000 < timeDiff 49001 b.now ∧ timeDiff 49001 b.now < 1000) ∧ (-1000 < timeDiff 50999 b.now ∧ timeDiff 50999 b.now < 1000)
    ∧ 1000 ≤ timeDiff 51000 b.now
    ∧ ∀ i, i < 64 → (b.lightW i).armed = false ∧ b.lightActive i = false := by decide +kernel
theorem meets_Holdover : (tim0 timAcquire 70).rd TIM_STATUS_STATE = timAcquire ∧ (tim0 timHoldover 70).rd TIM_STATUS_STATE = timHoldover
    ∧ ∀ st ∈ [timTracking, timLocked, timSlewing], (tim0 st 70).rd TIM_STATUS_STATE ≠ timAcquire
      ∧ (tim0 st 70).rd TIM_STATUS_STATE ≠ timHoldover := by decide +kernel
theorem meets_LightCommit_go : (stOf open0).grants .operator LGT_COMMIT_GO.off (withField (0 : Word) LGT_COMMIT_GO 1)
    ∧ open0.rd LGT_COMMIT_STATUS_BUSY = 0 := ⟨grants_of (by decide +kernel), by decide +kernel⟩
/-- A light check in progress; entry 63 has a verb. -/
def lgt0 (verb : Nat) : Block := { open0.wr LGT_COMMIT_STATUS_BUSY 1 with
  lgtRun := true, lgtSnap := fldSet (fldSet (fldSet (fldSet [] (LGT_CTL_ENABLE 63) 1) (LGT_CTL_VERB 63) verb) (LGT_PERIOD_PERIOD 63) 100) (LGT_CTL_COUNT 63) 2 }
theorem meets_LightCommit_fails : let b := lgt0 9
    b.rd LGT_COMMIT_STATUS_BUSY ≠ 0 ∧ b.lgtRun = true ∧ b.rd REGU_COMMIT_STATUS_BUSY = 0 ∧ b.rd REGU_COMMIT_STATUS_PENDING = 0
    ∧ lightJudge b.lgtSnap b.refPar b.harbour (b.wk REGU_CTL_ENABLE != 0) = (1, 63) := by decide +kernel
theorem meets_LightCommit_passes : let b := lgt0 8
    lightJudge b.lgtSnap b.refPar b.harbour (b.wk REGU_CTL_ENABLE != 0) = (0, 0x3F)
    ∧ b.rd LGT_COMMIT_STATUS_BUSY ≠ 0 ∧ b.lgtRun = true ∧ b.rd REGU_COMMIT_STATUS_PENDING = 0 := by decide +kernel
/-- A MARK entry that is due, with `remain` occurrences left. -/
def lgt1 (remain : Nat) : Block := { setAll (tim0 timTracking 1650) [(LGT_STATUS_REMAIN 63, remain)] with
  work := (lgt0 8).lgtSnap, lights := [(63, ⟨1, 0⟩)] }
theorem meets_LightFires : ∀ remain ∈ [1, 2], let b := lgt1 remain
    b.lightDue 63 = true ∧ (b.lightW 63).verb = 8 ∧ (∀ j, j < 64 → j ≠ 63 → b.lightDue j = false) ∧ (b.lightW 63).count ≠ 0
    ∧ b.flt.msgs.length < 32 := by decide +kernel
/-- An on-time that has run out. -/
def lgt2 : Block := { setAll (tim0 timTracking 1650) [(LGT_STATUS_ACTIVE 5, 1)] with lights := [(5, ⟨1, 1650⟩)] }
theorem meets_LightEnds : lgt2.lightsRun = true ∧ (lgt2.lights.get 5).onEnd ≤ lgt2.now ∧ lgt2.lightActive 5 = true
    ∧ (lgt2.lightW 5).verb ≠ 6 := by decide +kernel


/-- A block in a state of HBR_STATUS with an image in a state of IMG_STATUS and its bytes. -/
def img0 (hbr im : Nat) (bytes : List Byte) : Block := { setAll open0 [(HBR_STATUS_STATE, hbr), (IMG_STATUS_STATE, im), (IMG_COUNT_VAL, bytes.length)] with
  img := { (default : Block).img with bytes := bytes } }
theorem meets_ImageOpen : (∀ st ∈ [2, 4], (img0 st imDone []).imBusy = false ∧ (img0 st imDone []).imMayOpen = true)
    ∧ (stOf (img0 2 imDone [])).grants .maker IMG_CTL_OPEN.off (withField 0 IMG_CTL_OPEN 1) :=
  ⟨by decide +kernel, grants_of (by decide +kernel)⟩
theorem meets_ImageOpen_refused : (stOf (img0 2 imReceiving [1, 2, 3, 4])).grants .maker IMG_CTL_OPEN.off (withField 0 IMG_CTL_OPEN 1)
    ∧ (img0 2 imReceiving [1, 2, 3, 4]).imBusy = true ∧ bitOf (0 : Word).toNat 1 = false :=
  ⟨grants_of (by decide +kernel), by decide +kernel, by decide⟩
theorem meets_ImageAbort : ∀ st ∈ [imReceiving, imChecking, imAwait], (img0 2 st []).imBusy = true ∧ (img0 2 st []).imState ≠ imApplying
    ∧ (img0 2 st []).rd HBR_STATUS_STATE ≠ 1 ∧ (img0 2 st []).rd HBR_STATUS_STATE ≠ 3 := by decide +kernel
theorem meets_ImageAbort_grants : (stOf (img0 2 imAwait [])).grants .maker IMG_CTL_ABORT.off
    (withField (withField 0 IMG_CTL_OPEN 0) IMG_CTL_ABORT 1) := grants_of (by decide +kernel)
theorem meets_ImageWindow : let b := img0 2 imReceiving [1, 2, 3, 4]
    b.mgOpen = true ∧ b.mg.held = [] ∧ Role.installer ≠ .none ∧ Role.installer ≠ .operator ∧ b.policyOk .maker 1 = true
    ∧ b.imState = imReceiving ∧ 4 * (0 : BitVec 18).toNat ≠ b.rd IMG_COUNT_VAL ∧ 4 * (1 : BitVec 18).toNat = b.rd IMG_COUNT_VAL
    ∧ b.img.bytes.length + 4 < 64 := by decide +kernel
/-- A reload image of one light list with 65 rows, whose contents fail. -/
def badList : List Byte :=
  (List.replicate 16 0 ++ [1, 0, 0, 0, 1, 0, 0, 0] ++ List.replicate 40 0) ++ [0x14, 0, 0, 1, 80, 0, 0, 0, 8, 0, 0, 0, 0, 0, 0, 0]
    ++ [65, 0, 0, 0, 0, 0, 0, 0]
/-- A reload image without sections. -/
def noList : List Byte := List.replicate 16 0 ++ [1, 0, 0, 0, 0, 0, 0, 0] ++ List.replicate 40 0
theorem meets_ImageChecks_fail : (img0 2 imChecking badList).imState = imChecking
    ∧ (img0 2 imChecking badList).imJudge = some (11, 0, 0, 0) := by decide +kernel
theorem meets_ImageChecks_pass : (img0 2 imChecking noList).imState = imChecking ∧ (img0 2 imChecking noList).imJudge = none
    ∧ (img0 2 imChecking noList).img.verdict = none := by decide +kernel
theorem meets_ImageVerdict : (img0 2 imAwait noList).imState = imAwait ∧ (img0 2 imReceiving []).imState = imReceiving
    ∧ (img0 2 imAwait noList).rd HBR_STATUS_STATE = 2 := by decide +kernel
theorem meets_ImageApply : (img0 2 imApplying noList).imState = imApplying ∧ (img0 2 imApplying noList).imKind = 1
    ∧ (img0 2 imApplying noList).img.lightWait = false ∧ (img0 2 imApplying noList).rd HBR_STATUS_STATE = 2 := by decide +kernel
/-- A light list of one MARK entry that waits for LGT_COMMIT_STATUS.BUSY. -/
def img1 : Block :=
  let b := img0 2 imApplying ((badList.take 72) ++ [44, 0, 0, 0, 0, 0, 0, 0] ++ [1, 0, 0, 0, 0, 0, 0, 0] ++ [9, 0, 0, 0] ++ List.replicate 32 1)
  { b with img := { b.img with lightWait := true } }
theorem meets_ImageLightList : img1.imState = imApplying ∧ img1.img.lightWait = true ∧ img1.rd LGT_COMMIT_STATUS_BUSY = 0 := by decide +kernel


/-- Port 0 enabled, two extents, and extent 0 owned by master 0 in the descriptor cache. -/
def ports0 : Block := { setAll open0 [(PRT_STATUS_STATE 0, ptEnabled), (EDT_CFG_ENTRIES, 4), (EDT_CFG_LOC, 1)] with
  edt := { (default : EdtSt) with cache := [(0, [⟨0, 65537, false⟩])] } }
/-- Its route of byte 64. -/
def route0 : Route := ⟨0, 0, 64⟩

theorem meets_HeadersReachTheirSlice (e : ReqOp) (he : e ∈ [ReqOp.rd64, .rd256, .wr64, .wrp, .prefetch]) :
    let s := stOf ports0; let b := s.block; let h := hdrOf 0 64 e.opcode
    b.hdrReady 0 e = true ∧ headerParityOk h e.opcode = true ∧ b.prefetches 0 < 32
    ∧ (tagMaster h.tag &&& b.rd (PRT_MID_MASK 0)) = b.rd (PRT_MID_BASE 0) ∧ reservedOff 64 = none
    ∧ b.extentOf 64 < b.edtEntries ∧ b.withheld (b.extentOf 64) = false ∧ b.descCached (b.extentOf 64) = some 65537
    ∧ b.descBad (b.extentOf 64) = false ∧ dValid 65537 = true ∧ ownerOk 65537 (tagMaster h.tag) = true ∧ dState 65537 = xsNormal
    ∧ b.serveAt 65537 (64 % 2 ^ b.granLog) = some (route0, none, false)
    ∧ b.beyondGeom (b.routeSub route0) (b.routeCoord route0) = false
    ∧ b.inTrainRow (b.routeSub route0) (b.routeCoord route0) = false
    ∧ b.chunkLocked (b.extentOf 64) 64 = false ∧ b.edt.held = [] ∧ b.sliceFenced route0.chan = false := by
  simp only [List.mem_cons, List.not_mem_nil, or_false] at he
  rcases he with rfl | rfl | rfl | rfl | rfl <;> decide +kernel

theorem meets_RefusedHeaders_filter (e : ReqOp) (he : e ∈ [ReqOp.rd64, .rd256, .wr64, .wrp]) :
    let b := ports0.wr (PRT_MID_BASE 0) 1; let h := hdrOf 0 64 e.opcode
    b.hdrReady 0 e = true ∧ headerParityOk h e.opcode = true
    ∧ (tagMaster h.tag &&& b.rd (PRT_MID_MASK 0)) ≠ b.rd (PRT_MID_BASE 0) ∧ (b.ports.get 0).out = [] ∧ (b.ports.get 0).rsp = [] := by
  simp only [List.mem_cons, List.not_mem_nil, or_false] at he
  rcases he with rfl | rfl | rfl | rfl <;> decide +kernel
theorem meets_RefusedHeaders_opcode :
    let b := ports0; let h := hdrOf 0 64 9
    b.hdrReady 0 .rd64 = true ∧ headerParityOk h (5 + (4 : Fin 11).val) = true ∧ b.rd (FLT_SEV_SEV 18) ≠ 3
    ∧ (b.ports.get 0).out = [] ∧ (b.ports.get 0).rsp = [] := by decide +kernel
theorem meets_RefusedHeaders_ready (e : ReqOp) : open0.hdrReady 0 e = false := by cases e <;> decide +kernel

theorem meets_Beats_early :
    let b := ports0
    beatParityOk (beatOf 5) = true ∧ b.missFull = false ∧ b.portState 0 = ptEnabled ∧ (b.ports.get 0).needData = [] := by decide +kernel
/-- Port 0 with a write that waits for its data. -/
def ports1 : Block := { ports0 with ports := [(0, { (default : PortSt) with
  needData := [(7, none)], out := [{ (default : Outst) with id := 7, op := .wr64, todo := [0] }] })] }
theorem meets_Beats_data :
    let b := ports1
    beatParityOk (beatOf 5) = true ∧ b.missFull = false ∧ b.portState 0 = ptEnabled ∧ (b.ports.get 0).needData = [(7, none)]
    ∧ (b.ports.get 0).out.find? (fun x => x.id == 7) = some { (default : Outst) with id := 7, op := .wr64, todo := [0] }
    ∧ b.grantOf 7 = none := by decide +kernel
/-- Port 0 with a response to transfer, draining. -/
def ports2 : Block := { ports0.wr (PRT_STATUS_STATE 0) ptDraining with ports := [(0, { (default : PortSt) with
  rsp := [{ (default : Beat) with last := true }] })] }
theorem meets_Beats_response :
    ports2.isolated = false ∧ (ports2.ports.get 0).rsp = [{ (default : Beat) with last := true }] ∧ (ports2.ports.get 0).out = []
    ∧ ports2.portState 0 = ptDraining := by decide +kernel

theorem meets_PortsOpen : (stOf open0).grants .installer (PRT_CTL_ENABLE 0).off (withField 0 (PRT_CTL_ENABLE 0) 1)
    ∧ open0.portState 0 = ptDisabled := ⟨grants_of (by decide +kernel), by decide +kernel⟩
theorem meets_PortsOpen_stopped :
    let b := open0.wr (PRT_STATUS_STATE 0) ptStopped
    (stOf b).grants .installer (PRT_CTL_ENABLE 0).off (withField 0 (PRT_CTL_ENABLE 0) 1) ∧ b.portState 0 = ptStopped :=
  ⟨grants_of (by decide +kernel), by decide +kernel⟩
theorem meets_PortsClose : (stOf ports1).grants .installer (PRT_CTL_ENABLE 0).off (withField 0 (PRT_CTL_ENABLE 0) 0)
    ∧ ports1.portState 0 = ptEnabled ∧ (ports1.ports.get 0).idle = false ∧ (ports1.ports.get 0).off = false
    ∧ ports1.rd (FLT_SEV_SEV 16) ≠ 3 := ⟨grants_of (by decide +kernel), by decide +kernel⟩

theorem meets_Invalidates_write (n : Nat) (hn : n ∈ [1, 2, 3]) : (stOf ports0).grants .maker EDT_INVAL_MODE.off
    (withField (withField 0 EDT_INVAL_MODE n) EDT_INVAL_COUNT (if n = 2 then 3 else 0)) ∧ ports0.invalRoom = true := by
  simp only [List.mem_cons, List.not_mem_nil, or_false] at hn
  rcases hn with rfl | rfl | rfl <;> exact ⟨grants_of (by decide +kernel), by decide +kernel⟩
/-- An invalidate of index 0 is queued. -/
def inval0 : Block := { ports0 with edt := { ports0.edt with inval := [⟨1, 0, 1, some 5, false, 0, [], 4⟩] } }
theorem meets_Invalidates_run : inval0.edt.inval = [⟨1, 0, 1, some 5, false, 0, [], 4⟩] ∧ inval0.mg.held = []
    ∧ (∀ f ∈ inval0.edt.fetches, ¬ (f.noInstall = true ∧ (⟨1, 0, 1, some 5, false, 0, [], 4⟩ : Inval).covers f.idx = true))
    ∧ inval0.slices = [] ∧ inval0.descCached 0 = some 65537 := by decide +kernel

/-- A fetch of index 1 waits. -/
def fetch0 : Block := { ports0 with edt := { ports0.edt with fetches := [⟨1, [], false, false, false⟩] } }
theorem meets_Fetches_start : (fetch0.edt.fetches.filter (fun x => x.started)).length < 32
    ∧ fetch0.edt.fetches.find? (fun x => !x.started) = some ⟨1, [], false, false, false⟩ ∧ fetch0.edt.beyond = [] ∧ fetch0.edtInScratch = true
    ∧ 1 < fetch0.edtEntries ∧ fetch0.sliceFenced (fetch0.reqSlice (fetch0.edtReq 9 1 .rd64)) = false ∧ fetch0.slices = [] := by decide +kernel
theorem meets_Fetches_fenced :
    let b := fetch0.wr FLT_FENCE_SLICE_U 0xFFFF
    b.edt.fetches.find? (fun x => !x.started) = some ⟨1, [], false, false, false⟩ ∧ b.edt.beyond = []
    ∧ b.edtNoPlace (b.edtReq 9 1 .rd64) = false ∧ b.edtDown (b.edtReq 9 1 .rd64) = true := by decide +kernel
/-- A valid descriptor in a set of the start image, sealed by the block, with frames that exist. -/
def desc0 : Desc := dSeal 65537
/-- A start image with an interleave set, and a fetch of index 1 that has returned `d`. -/
def fetch1 (d : Desc) : Block := { ports0 with
  img := { (default : ImageSt) with secs := [(secKey tyInterleave 0, (List.range 64).map (fun i => BitVec.ofNat 8 (if 12 ≤ i then 255 else 0)))] }
  edt := { ports0.edt with fetches := [⟨1, [], true, false, false⟩] }
  intern := [⟨{ (default : Req) with src := 9, idx := 1 }, 1, stOK, d⟩] }
theorem meets_Fetches_return :
    let b := fetch1 desc0
    takeFirst (fun (m : Intern) => m.req.src == 9) b.intern = some (⟨{ (default : Req) with src := 9, idx := 1 }, 1, stOK, desc0⟩, [])
    ∧ takeFirst (fun (x : Fetch) => x.idx == 1 && x.started) b.edt.fetches = some (⟨1, [], true, false, false⟩, [])
    ∧ dValid desc0 = true ∧ dCrcOk desc0 = true ∧ b.malformed desc0 = false := by decide +kernel
theorem meets_Fetches_bad :
    let b := { fetch1 desc0 with edt := { ports0.edt with fetches := [⟨1, [], true, false, true⟩] } }
    takeFirst (fun (m : Intern) => m.req.src == 9) b.intern = some (⟨{ (default : Req) with src := 9, idx := 1 }, 1, stOK, desc0⟩, [])
    ∧ takeFirst (fun (x : Fetch) => x.idx == 1 && x.started) b.edt.fetches = some (⟨1, [], true, false, true⟩, [])
    ∧ dValid desc0 = true ∧ b.rd (FLT_SEV_SEV 56) ≠ 3 := by decide +kernel
theorem meets_Fetches_crc :
    let b := fetch1 65537
    takeFirst (fun (m : Intern) => m.req.src == 9) b.intern = some (⟨{ (default : Req) with src := 9, idx := 1 }, 1, stOK, 65537⟩, [])
    ∧ takeFirst (fun (x : Fetch) => x.idx == 1 && x.started) b.edt.fetches = some (⟨1, [], true, false, false⟩, [])
    ∧ dValid 65537 = true ∧ dCrcOk 65537 = false := by decide +kernel
/-- An update of the POISON flag of extent 1 whose read has returned. -/
def upd0 : Block := { fetch1 desc0 with
  edt := { ports0.edt with updates := [{ poisonUpd 1 with asked := true }] }
  intern := [⟨{ (default : Req) with src := 10, idx := 1 }, 1, stOK, desc0⟩] }
theorem meets_Updates :
    let b := upd0
    b.edt.updates = [{ poisonUpd 1 with asked := true }] ∧ (poisonUpd 1).gen = none ∧ 4 ≤ (poisonUpd 1).lane ∧ b.invalRoom = true
    ∧ takeFirst (fun (m : Intern) => m.req.src == 10) b.intern = some (⟨{ (default : Req) with src := 10, idx := 1 }, 1, stOK, desc0⟩, [])
    ∧ dValid desc0 = true ∧ dCrcOk desc0 = true ∧ b.malformed desc0 = false ∧ (poisonUpd 1).apply desc0 ≠ desc0
    ∧ b.edtThere = true ∧ b.edtInScratch = true ∧ b.slices = [] ∧ 1 < b.edtEntries ∧ b.scrub.line = none ∧ b.tnd.lanes = [] := by decide +kernel


/-- A request of port 0 for the sector at 64 of extent 0 on channel 0. -/
def req0 (op : ReqOp) : Req := { (default : Req) with id := 3, op := op, dpa := 64, route := route0 }
theorem meets_Tiers :
    let b := open0; let cands := [(0, req0 .rd64), (5, req0 .rd64)]
    b.decide_ 0 0 cands = some (5, 3) ∧ (∀ e ∈ cands, e.1 < 9) := by decide +kernel
/-- Slice 0 with one request in port 0's queue and what port 0 has outstanding. -/
def slice0 (r : Req) : Block := { ports0 with
  slices := [(0, { (default : SliceSt) with q := [(0, [r])] })]
  ports := [(0, { (default : PortSt) with
    out := [{ (default : Outst) with id := 3, op := r.op, dpa := 64, todo := [if r.op.isWrite then 0 else 1] }] })] }
theorem meets_Grants :
    let b := slice0 (req0 .wr64)
    b.sliceFenced 0 = false ∧ (b.slices.get 0).grant = none ∧ b.sliceTakes 0 = true
    ∧ b.decide_ 0 64 (b.candidates 0 64) = some (0, 2) ∧ (b.slices.get 0).q.get 0 = [req0 .wr64] ∧ (req0 .wr64).op.isWrite = true ∧ (req0 .wr64).wdata = [] := by decide +kernel
/-- Slice 0 with a granted write that waits for its data. -/
def slice1 : Block := { slice0 (req0 .wr64) with slices := [(0, { (default : SliceSt) with grant := some (req0 .wr64) })] }
theorem meets_Cutoff :
    let b := slice1
    (b.slices.get 0).grant = some (req0 .wr64) ∧ (b.ports.get 0).out.map (fun o => (o.id, o.todo)) = [(3, [0])]
    ∧ (b.ports.get 0).rsp = [] ∧ b.rd (FLT_SEV_SEV 19) ≠ 3 := by decide +kernel
/-- Slice 0 with the line of DPA 0 in way 0. -/
def slice2 : Block := { slice0 (req0 .rd64) with arr := { (default : ArraySt) with
  lines := [(lineKey 0 (cacheSet 64) 0, { (default : Line) with tag := cacheTag 64, st := [(1, .v)], dat := [(1, 77)] })] } }
theorem meets_ReadHits :
    let b := slice2
    b.sliceFenced 0 = false ∧ (b.slices.get 0).grant = none ∧ (b.slices.get 0).wait = []
    ∧ b.sliceTakes 0 = true ∧ (∀ w, w < 16 → (b.line (lineKey 0 (cacheSet 64) w)).flip0 = 0 ∧ (b.line (lineKey 0 (cacheSet 64) w)).flip1 = 0)
    ∧ b.behindRefused 0 (req0 .rd64) = false ∧ b.arr.err.get (4 * lineKey 0 (cacheSet 64) 0 + 1) = 0
    ∧ b.decide_ 0 0 (b.candidates 0 0) = some (0, 2) ∧ b.sliceState 0 = 0 ∧ b.scrub.line = none
    ∧ b.findLine 0 64 = some (lineKey 0 (cacheSet 64) 0) ∧ (b.line (lineKey 0 (cacheSet 64) 0)).st.get 1 = .v
    ∧ (b.line (lineKey 0 (cacheSet 64) 0)).bad.get 1 = false ∧ (b.ports.get 0).rsp = []
    ∧ (b.ports.get 0).out.map (fun o => (o.id, o.todo)) = [(3, [1])] := by decide +kernel
theorem meets_ArbCommit : (stOf open0).grants .maker ARB_COMMIT_GO.off (withField 0 ARB_COMMIT_GO 1) := grants_of (by decide +kernel)
theorem meets_HoldLimit : (stOf slice1).grants .maker ARB_HOLD_LIMIT_LIMIT.off (withField 0 ARB_HOLD_LIMIT_LIMIT 32) :=
  grants_of (by decide +kernel)

/-- Channel 0 in A0 with a read of slice 0 for its subchannel A. -/
def miss0 : Miss := { (default : Miss) with id := 1, route := ⟨0, 0, 0⟩, cls := 2 }
def queue0 : Block := { open0.wr (PWR_CH_STATUS_STATE 0) pwA0 with slices := [(0, { (default : SliceSt) with miss := [miss0] })] }
theorem meets_Feed_read : (queue0.slices.get 0).miss = [miss0] ∧ queue0.readReady 0 miss0 = 2
    ∧ (queue0.subs.get (queue0.routeSub miss0.route)).wq = [] := by decide +kernel
theorem meets_Feed_buoy :
    let b := { queue0 with work := fldSet queue0.work (REGU_CLASS_BUOY_RD 2) 0 }
    (b.slices.get 0).miss = [miss0] ∧ b.readReady 0 miss0 = 1 := by decide +kernel
def wb0 : WriteBack := { (default : WriteBack) with id := 1, route := ⟨0, 0, 0⟩, data := 9, cls := 2 }
def queue1 : Block := { queue0 with slices := [(0, { (default : SliceSt) with wb := [wb0] })] }
theorem meets_Feed_write : (queue1.slices.get 0).wb = [wb0] ∧ queue1.writeReady 0 wb0 = 2
    ∧ queue1.chLockstep (queue1.routeSub wb0.route / 2) = false ∧ (queue1.subs.get (queue1.routeSub wb0.route)).wq = [] := by decide +kernel

/-- Slice 0 with a WR64 that waits for way 0. -/
def retry0 : Block := { slice2 with
  work := fldSet open0.work (REGU_CLASS_WAY_QUOTA 0) 4
  arr := default
  slices := [(0, { (default : SliceSt) with wait := [({ req0 .wr64 with wdata := [⟨7, allOnes, false, false⟩] }, some 0)] })] }
theorem meets_Retry :
    let b := retry0; let r := { req0 .wr64 with wdata := [⟨7, allOnes, false, false⟩] }
    (b.slices.get 0).wait = [(r, some 0)] ∧ (∀ w, w < 16 → (b.line (lineKey 0 (cacheSet 64) w)).flip0 = 0 ∧ (b.line (lineKey 0 (cacheSet 64) w)).flip1 = 0)
    ∧ b.behindRefused 0 r = false ∧ b.sliceState 0 = 0 ∧ b.findLine 0 64 = none ∧ b.allocOf r = .normal false
    ∧ keySlice 0 = 0 ∧ (b.line 0).st = [] ∧ (b.line 0).going = false ∧ (b.line 0).wbLeft = 0 := by decide +kernel

/-- The regulator on, with entry 0 of master 0 guaranteed 10 units and its demand flag set. -/
def regu0 : Block := { setAll open0 [(REGU_GT_EFF_EFF 0, 10)] with
  work := fldSet (fldSet (fldSet [] REGU_CTL_ENABLE 1) (REGU_GT_CTL_VALID 0) 1) (REGU_GT_GUAR_GUAR 0) 10
  regu := { (default : ReguSt) with demand := [(0, true)] } }
theorem meets_Boundary : regu0.localDue = true ∧ regu0.regulating = true ∧ regu0.rd REGU_COMMIT_STATUS_PENDING = 0 := by decide +kernel
theorem meets_Boundary_not : { regu0 with pwr := { (default : PwrSt) with dead := true } }.localDue = false := by decide +kernel
theorem meets_Misses : regu0.wk (REGU_GT_CTL_VALID 0) ≠ 0 ∧ regu0.regu.demand.get 0 = true
    ∧ regu0.served 0 < regu0.rd (REGU_GT_EFF_EFF 0) ∧ regu0.rd (REGU_GT_EFF_EFF 0) < 2 ^ 24 := by decide +kernel
theorem meets_ReguGo : (stOf open0).grants .maker REGU_COMMIT_GO.off (withField 0 REGU_COMMIT_GO 1)
    ∧ open0.harbour = false ∧ open0.rd REGU_COMMIT_STATUS_BUSY = 0 := ⟨grants_of (by decide +kernel), by decide +kernel⟩
/-- A check of the shadow tables runs; `on` is the working ENABLE. -/
def commit0 (snap : Tab Nat) (on : Nat) : Block := { open0.wr REGU_COMMIT_STATUS_BUSY 1 with
  work := fldSet [] REGU_CTL_ENABLE on, regu := { (default : ReguSt) with snap := snap, running := true } }
theorem meets_ReguDone_ok (on : Nat) (h : on ∈ [0, 1]) :
    let b := commit0 (fldSet [] (REGU_GT_CTL_VALID 0) 1) on
    b.rd REGU_COMMIT_STATUS_BUSY ≠ 0 ∧ b.regu.running = true ∧ b.reguJudge b.regu.snap = (0, 255) := by
  simp only [List.mem_cons, List.not_mem_nil, or_false] at h
  rcases h with rfl | rfl <;> decide +kernel
theorem meets_ReguDone_bad :
    let b := commit0 (fldSet [] (REGU_CLASS_WEIGHT 3) 0) 0
    b.rd REGU_COMMIT_STATUS_BUSY ≠ 0 ∧ b.regu.running = true ∧ b.reguJudge b.regu.snap = (6, 3) := by decide +kernel


/-- A range of 4,096 bytes for maintenance. -/
def range0 : Block := open0.wr CCH_MNT_LIMIT_LO_ADDR 4096
theorem meets_Maintenance_range (op : Nat) (h : op ∈ [mntClean, mntInval, mntCleanInval, mntDiscard]) :
    (stOf range0).grants .maker CCH_MNT_CTL_GO.off (withField (withField 0 CCH_MNT_CTL_GO 1) CCH_MNT_CTL_OP op)
    ∧ range0.rd CCH_MNT_STATUS_BUSY = 0
    ∧ range0.rd64 CCH_MNT_BASE_LO_ADDR CCH_MNT_BASE_HI_ADDR / 256 < range0.rd64 CCH_MNT_LIMIT_LO_ADDR CCH_MNT_LIMIT_HI_ADDR / 256
    ∧ range0.rd64 CCH_MNT_LIMIT_LO_ADDR CCH_MNT_LIMIT_HI_ADDR ≤ 2 ^ 46 ∧ (∀ c, c < 16 → range0.sliceState c = 0)
    ∧ bitOf (0 : Word).toNat CCH_MNT_CTL_MODE.lo = false := by
  refine ⟨?_, by decide +kernel, by decide +kernel, by decide +kernel, by decide +kernel, by decide +kernel⟩
  simp only [List.mem_cons, List.not_mem_nil, or_false] at h
  rcases h with rfl | rfl | rfl | rfl <;> exact grants_of (by decide +kernel)
theorem meets_Maintenance_ways :
    let b := setAll open0 [(CCH_MNT_SETS_COUNT, 1), (CCH_MNT_WAYS_MASK, 0x8000), (CCH_CFG_SCRATCH_WAYS 0, 2)]
    (stOf b).grants .maker CCH_MNT_CTL_GO.off (withField (withField 0x110 CCH_MNT_CTL_GO 1) CCH_MNT_CTL_OP 1)
    ∧ bitOf (0x110 : Word).toNat CCH_MNT_CTL_MODE.lo = true ∧ bitsOf (0x110 : Word).toNat 23 8 ≠ 0 ∧ b.rd CCH_MNT_SETS_COUNT ≠ 0
    ∧ b.rd CCH_MNT_SETS_FIRST + b.rd CCH_MNT_SETS_COUNT ≤ 512 ∧ b.rd CCH_MNT_WAYS_MASK >>> (16 - b.scratchWays) ≠ 0 :=
  ⟨grants_of (by decide +kernel), by decide +kernel⟩
/-- Slice 0 with a dirty line and a run that has not started. -/
def mrun0 (op : Nat) (pin : Bool) : Block := { open0 with
  slices := [(0, { (default : SliceSt) with mnt := [⟨op, 0, 4096, none, 1, false, []⟩] })]
  arr := { (default : ArraySt) with lines := [(0, { (default : Line) with st := [(0, .d), (1, .v)], pin := pin })] } }
theorem mrun0_sound (op : Nat) (pin : Bool) : (mrun0 op pin).soundSlice 0 := by
  intro k _
  refine ⟨?_, ?_, fun n _ => rfl⟩ <;>
    · simp only [Block.line, mrun0, Tab.get]
      split <;> first | rfl | (next h => simp only [Tab.get] at h)
theorem meets_Maintenance_start (op : Nat) (pin : Bool) (h : op ∈ [mntClean, mntInval, mntCleanInval, mntDiscard]) :
    ((mrun0 op pin).slices.get 0).mnt.find? (fun x => !x.started) = some ⟨op, 0, 4096, none, 1, false, []⟩
    ∧ (mrun0 op pin).sliceState 0 = 0 ∧ (mrun0 op pin).mntClear 0 ⟨op, 0, 4096, none, 1, false, []⟩ = true
    ∧ (mrun0 op pin).soundSlice 0 ∧ (mrun0 op pin).mntSelects ⟨op, 0, 4096, none, 1, false, []⟩ 0 = true ∧ ((mrun0 op pin).line 0).pin = pin := by
  simp only [List.mem_cons, List.not_mem_nil, or_false] at h
  rcases h with rfl | rfl | rfl | rfl <;> cases pin <;>
    exact ⟨by decide +kernel, by decide +kernel, by decide +kernel, mrun0_sound _ _, by decide +kernel, by decide +kernel⟩
/-- A run that has started and selects no line. -/
def run1 : Block := { open0.wr CCH_MNT_STATUS_BUSY 1 with
  slices := [(0, { (default : SliceSt) with mnt := [⟨1, 0, 4096, none, 1, true, []⟩] })] }
theorem meets_MaintenanceEnds : run1.rd CCH_MNT_STATUS_BUSY ≠ 0
    ∧ (∀ m ∈ (run1.slices.get 0).mnt, run1.mntDone 0 m = true) ∧ run1.slices = [(0, run1.slices.get 0)] := by decide +kernel
theorem meets_BypassEnter : (stOf open0).grants .maker (CCH_CTL_BYPASS 0).off (withField 0 (CCH_CTL_BYPASS 0) 1)
    ∧ open0.harbour = false ∧ open0.sliceState 0 = 0 := ⟨grants_of (by decide +kernel), by decide +kernel⟩
theorem meets_BypassEnter_harbour :
    let b := setAll open0 [(HBR_STATUS_STATE, 4), (CCH_STATUS_STATE 0, 2), (CCH_CTL_BYPASS 0, 1)]
    (stOf b).grants .maker (CCH_CTL_BYPASS 0).off (withField 0 (CCH_CTL_BYPASS 0) 1) ∧ b.harbour = true ∧ b.sliceState 0 ≠ 0 :=
  ⟨grants_of (by decide +kernel), by decide +kernel⟩
theorem meets_BypassExit :
    let b := setAll open0 [(CCH_STATUS_STATE 0, 2), (CCH_CTL_BYPASS 0, 1)]
    (stOf b).grants .maker (CCH_CTL_BYPASS 0).off (withField 0 (CCH_CTL_BYPASS 0) 0) ∧ b.harbour = false ∧ b.sliceState 0 = 2 :=
  ⟨grants_of (by decide +kernel), by decide +kernel⟩
/-- Slice 0 entering bypass with a dirty line. -/
def enter0 : Block := { (mrun0 1 false).wr (CCH_STATUS_STATE 0) 1 with slices := [(0, { (default : SliceSt) with mnt := [bypassWalk] })] }
theorem meets_BypassWalk : enter0.sliceState 0 = 1 ∧ (enter0.slices.get 0).mnt.contains bypassWalk = true ∧ enter0.soundSlice 0
    ∧ (enter0.line 0).present = true := ⟨by decide +kernel, by decide +kernel, mrun0_sound 1 false, by decide +kernel⟩
theorem meets_BypassEntered :
    let b := setAll open0 [(CCH_STATUS_STATE 0, 1), (CCH_CTL_BYPASS 0, 1)]
    b.sliceState 0 = 1 ∧ (b.slices.get 0).mnt.contains bypassWalk = false ∧ b.mntPassing 0 mntBypass = false ∧ b.rd (CCH_CTL_BYPASS 0) = 1 := by decide +kernel
theorem meets_BypassExited :
    let b := open0.wr (CCH_STATUS_STATE 0) 3
    b.sliceState 0 = 3 ∧ b.rd (CCH_CTL_BYPASS 0) = 0 := by decide +kernel


/-- A read of row 5 for a scheduler. -/
def rd0 : RdEnt := { (default : RdEnt) with slice := 0, miss := 1, at_ := ⟨0, 1, 2, 5, 16⟩, cls := 2 }
/-- Subchannel 0 running, with that read and its row open. -/
def sub0 : Block := { setAll open0 [(PWR_CH_STATUS_STATE 0, pwA0), (PHY_STATUS_LOCKED 0, 1), (SCH_CTL_PAGE_POLICY 0, 0)] with
  subs := [(0, { (default : SubSt) with slot := 2, rq := [rd0], banks := [(bankKey 0 1 2, ⟨some 5, some 3, 0, false⟩)] })] }
theorem meets_EligibleRead :
    let b := sub0; let u := b.subs.get 0
    b.chLockstep 0 = false ∧ u.rq = [rd0] ∧ u.wq = [] ∧ rd0.arrival + 2 ≤ u.slot ∧ u.rowOf rd0.at_ = some rd0.at_.row
    ∧ u.again = [] ∧ b.rplState (0 / 2) ≠ rpReleasing
    ∧ b.rd (SCH_CTL_PAGE_POLICY 0) = 0 ∧ b.on (SCH_STATUS_MODE 0) = false ∧ b.issueLevel 0 = 2
    ∧ b.on (PHY_LOOP_STATUS_BUSY 0) = false ∧ u.ticking = false ∧ u.aboOn = false ∧ b.on (SCH_RFM_RFM_REQ 0) = false
    ∧ u.snt = none ∧ b.ecc.repair.get 0 = none ∧ u.selfRef = [] ∧ u.preFirst = [] ∧ u.preAll = false ∧ u.idleLeft = 0
    ∧ (∀ x ∈ u.banks, x.2.due = false)
    ∧ b.clausesAllow (clausesOf (b.activeSet 0)) 0 u.slot u.hist { mkCmd cmRD 0 1 2 with pos := 8 * u.slot } = true := by decide +kernel
/-- The read's command as a candidate, and a precharge of another bank. -/
def cand0 : Cand := ⟨[1, 0, 0, 1, 0, 2, 1], mkCmd cmRD 0 1 2, .entry (.rd 0)⟩
def cand1 : Cand := ⟨[0, 0, 0, 0, 0, 0, 0], mkCmd cmPREpb 0 2 2, .idle (bankKey 0 2 2)⟩
def sub4 : Block := { sub0 with subs := [(0, { sub0.subs.get 0 with
  banks := [(bankKey 0 1 2, ⟨some 5, some 3, 0, false⟩), (bankKey 0 2 2, ⟨some 5, some 0, 0, true⟩)] })] }
theorem meets_Slots : sub0.pick0 0 [.rd 0] = some cand0 ∧ cand0 ∈ sub0.topCands 0 [.rd 0] ∧ isColumn cand0.cmd.cls = true
    ∧ sub0.legal 0 (clausesOf (sub0.activeSet 0)) (sub0.refCands 0 [.rd 0]) (sub0.subs.get 0).hist 0 cand0 = true
    ∧ sub4.pick1 0 [cand0, cand1] (some cand0) = some (cand1.after (some cand0)) := by decide +kernel
/-- Ticks run, an issued write has been retained, and a bank's idle timer stands at zero. -/
def sub1 : Block := { setAll sub0 [(SCH_CTL_PAGE_POLICY 0, 2)] with
  subs := [(0, { sub0.subs.get 0 with ticking := true, slot := 100, classify := 0, aboOn := true
                                      wq := [{ (default : WrEnt) with issued := some 0 }]
                                      banks := [(bankKey 0 1 2, ⟨some 5, some 0, 0, false⟩)] })] }
theorem meets_Timers : (sub1.subs.get 0).ticking = true ∧ 2 ≤ sub1.rd (SCH_CTL_PAGE_POLICY 0)
    ∧ ((sub1.subs.get 0).banks.get (bankKey 0 1 2)).row.isSome = true ∧ ((sub1.subs.get 0).banks.get (bankKey 0 1 2)).idle = some 0
    ∧ (sub1.subs.get 0).wq = [{ (default : WrEnt) with issued := some 0 }]
    ∧ 0 + max 16 (sub1.rd (SCH_REPLAY_SLOTS 0)) < (sub1.subs.get 0).slot ∧ (sub1.subs.get 0).aboOn = true := by decide +kernel
theorem meets_Timers_stopped : (sub0.subs.get 0).ticking = false := by decide +kernel
theorem meets_Alert :
    let b := ((sub0.wr (SCH_RFM_PRAC 0) 1).wr HBR_STATUS_STATE 4).putSec tySentences 3 (fallbackSentence 3)
    b.on (SCH_RFM_PRAC 0) = true ∧ (b.subs.get 0).aboOn = false ∧ b.chState 0 ≠ pwS2 ∧ b.chState 0 ≠ pwOFF ∧ b.chLockstep 0 = false
    ∧ b.subFenced 0 = false ∧ b.on (CLS_STATUS_HALTED 0) = false := by decide +kernel
theorem meets_Alert_sentence :
    let b := ((sub0.wr (SCH_RFM_PRAC 0) 1).wr HBR_STATUS_STATE 4).putSec tySentences 3 (fallbackSentence 3)
    b.sentence (b.keeperSentence .alert) ≠ [] := by
  intro b
  have h : b.keeperSentence .alert = 3 := rfl
  have g : b.sentence 3 = fallbackSentence 3 := rfl
  rw [h, g]
  exact List.cons_ne_nil _ _
/-- An alert is being classified on subchannel 0. -/
def sub2 : Block := { sub1 with subs := [(0, { sub1.subs.get 0 with classify := 2, inflight := [rd0] })] }
theorem meets_Classification (k : AlertClass) : (sub2.subs.get 0).classify ≠ 0
    ∧ (sub2.subs.get 0).again = [] ∧ (sub2.subs.get 0).rq.length + (sub2.subs.get 0).inflight.length ≤ 64
    ∧ ((sub2.subs.get 0).alerts.filter (fun a => a.1 == alertNum k && decide ((sub2.subs.get 0).slot - a.2 < 1024))).length < 2
    ∧ ∃ e ∈ (sub2.subs.get 0).wq, e.issued.isSome = true := by cases k <;> decide +kernel
theorem meets_Quiesce (q : Bool) : (stOf sub0).grants .maker (SCH_CTL_QUIESCE 0).off (withField 0 (SCH_CTL_QUIESCE 0) q.toNat)
    ∧ sub0.chLockstep 0 = false := by cases q <;> exact ⟨grants_of (by decide +kernel), by decide +kernel⟩
/-- Subchannel 0 quiesced. -/
def sub3 : Block := { sub0.wr (SCH_CTL_QUIESCE 0) 1 with subs := [(0, { (default : SubSt) with debt := [(0, 3), (1, -3)] })] }
theorem meets_RefreshMode (m : Bool) : (stOf sub3).grants .maker (SCH_REF_MODE 0).off (withField 0 (SCH_REF_MODE 0) m.toNat) := by
  cases m <;> exact grants_of (by decide +kernel)


/-- Bytes of 64-bit words. -/
def words8 (l : List Nat) : List Byte := (l.map (leBytes 8)).flatten
/-- A clause set with one clause: after an ACT no RD of its bank within 20 slots. Data rate 4800, TREFI 3900. -/
def set0 : List Byte := words8 [4800 + 1 * 2 ^ 16 + 3900 * 2 ^ 32, 16, 0, 0, 0, 0, 0, 0, cmACT + cmRD * 2 ^ 8 + 5 * 2 ^ 16 + 160 * 2 ^ 20]
/-- Subchannel 0 with the set of bin 3 in the image. -/
def cls0 : Block := { sub0.wr (PHY_STATUS_RATE 0) 4800 with
  img := { (default : ImageSt) with secs := [(secKey tyClauses 3, set0)], storeCrc := [(3, crc32 set0)] } }
/-- The same subchannel quiesced. -/
def clsQ : Block := { sub3.wr (PHY_STATUS_RATE 0) 4800 with img := cls0.img }
theorem meets_ClauseSwitches :
    (stOf clsQ).grants .maker (CLS_CTL_GO 0).off (withField (withField (BitVec.ofNat 32 (3 * 2 ^ 16)) (CLS_CTL_GO 0) 1) (CLS_CTL_RESUME 0) 0)
    ∧ clsQ.chLockstep 0 = false ∧ clsQ.switchCode 0 3 = 0 ∧ clsQ.switchCode 0 2 = 1 ∧ clsQ.harbour = false
    ∧ (clsQ.storeUpset (some (3, 7))).switchCode 0 3 = 2 := ⟨grants_of (by decide +kernel), by decide +kernel⟩
/-- The switch to bin 3 in progress. -/
def cls1 : Block := { cls0 with subs := [(0, { sub0.subs.get 0 with switchTo := some 3 })] }
theorem meets_ClauseSwitches_done : (cls1.subs.get 0).switchTo = some 3 ∧ cls1.on (CLS_STATUS_HALTED 0) = false
    ∧ (cls1.switchSlot 0 3).2 = false ∧ cls1.phy.speed.contains 0 = false := by decide +kernel
/-- A RD to be checked; `h` is what the checker has seen. -/
def chk0 (h : List HistCmd) : Block := { cls0 with subs := [(0, { sub0.subs.get 0 with
  toCheck := [{ mkCmd cmRD 0 1 2 with pos := 16 }], chkHist := h, shadow := set0, slots := [(0, set0)] })] }
def chkSeen : List HistCmd := [{ mkCmd cmACT 0 1 2 with pos := 8 }]
theorem meets_Checker (seen : Bool) :
    let b := chk0 (if seen then chkSeen else [])
    b.chLockstep 0 = false ∧ b.on (CLS_STATUS_HALTED 0) = false ∧ (b.subs.get 0).snt = none ∧ b.rd (FLT_SEV_SEV 48) ≠ 3
    ∧ (b.subs.get 0).lastReload = none ∧ (b.subs.get 0).toCheck = [{ mkCmd cmRD 0 1 2 with pos := 16 }] := by
  cases seen <;> decide +kernel
theorem meets_Checker_allowed : clauseAgainst (clausesOf set0) 0 [] ((chk0 []).sibChecked 0 2) { mkCmd cmRD 0 1 2 with pos := 16 } = none := by
  decide +kernel
theorem meets_Checker_forbidden :
    clauseAgainst (clausesOf set0) 0 chkSeen ((chk0 chkSeen).sibChecked 0 2) { mkCmd cmRD 0 1 2 with pos := 16 } = some 0 := by decide +kernel
theorem meets_Compare_equal : clauseWord ((chk0 []).activeSet 0) 0 = clauseWord ((chk0 []).subs.get 0).shadow 0 := by decide +kernel
/-- The active slot differs from the shadow. -/
def chk1 : Block := { chk0 [] with subs := [(0, { (chk0 []).subs.get 0 with shadow := [] })] }
theorem meets_Compare_differs : chk1.on (CLS_STATUS_HALTED 0) = false ∧ (chk1.subs.get 0).cmp = 0
    ∧ clauseWord (chk1.activeSet 0) 0 ≠ clauseWord (chk1.subs.get 0).shadow 0 := by decide +kernel
/-- Subchannel 0 halted on bin 3, its reload in progress where `r`. -/
def halt0 (r : Bool) : Block := { setAll cls0 [(CLS_STATUS_HALTED 0, 1), (CLS_STATUS_ACTIVE_BIN 0, 3)] with
  subs := [(0, { sub0.subs.get 0 with reload := r, inflight := [rd0], wq := [{ (default : WrEnt) with issued := some 0 }] })] }
theorem meets_Reload (bad : Bool) :
    let b := halt0 true
    let up : Option (Fin 16 × Nat) := if bad then some (3, 7) else none
    b.chLockstep 0 = false ∧ b.on (CLS_STATUS_HALTED 0) = true ∧ (b.subs.get 0).reload = true ∧ (b.subs.get 0).noSet = false
    ∧ (b.sec tyClauses (b.rd (CLS_STATUS_ACTIVE_BIN 0))).isEmpty = false
    ∧ (b.storeUpset up).storeOk (b.rd (CLS_STATUS_ACTIVE_BIN 0)) = !bad ∧ b.rd (FLT_SEV_SEV 48) ≠ 3 := by cases bad <;> decide +kernel
theorem meets_Resume : (halt0 false).on (CLS_STATUS_HALTED 0) = true ∧ ((halt0 false).subs.get 0).reload = false
    ∧ (stOf (halt0 false)).grants .maker (CLS_CTL_RESUME 0).off
        (withField (withField 0 (CLS_CTL_RESUME 0) 1) (CLS_CTL_GO 0) 0) := ⟨by decide +kernel, by decide +kernel, grants_of (by decide +kernel)⟩
/-- A sentence of two steps: `op`, then a WAIT. -/
def snt0 (op : Nat) : List Byte := words8 [2 * 2 ^ 16 + 50 * 2 ^ 48, 0, op, 20]
/-- Subchannel 0 with the sentence 5 in the image. -/
def sen0 (op : Nat) : Block := { sub0 with img := { (default : ImageSt) with secs := [(secKey tySentences 5, snt0 op)] } }
theorem meets_Call (n : Fin 2) :
    let b := sen0 20
    (stOf b).grants .maker (SNT_CALL_CTL_GO 0).off (withField (BitVec.ofNat 32 (5 + n)) (SNT_CALL_CTL_GO 0) 1)
    ∧ b.rd (SNT_CALL_STATUS_BUSY 0) = 0 ∧ (b.subs.get 0).sntQ.length < 4 ∧ b.subFenced 0 = false ∧ b.chState 0 ≠ pwOFF
    ∧ b.on (CLS_STATUS_HALTED 0) = false ∧ b.chLockstep 0 = false ∧ (b.sentence (5 + n)).isEmpty = (n == 1) := by
  match n with
  | 0 => exact ⟨grants_of (by decide +kernel), by decide +kernel⟩
  | 1 => exact ⟨grants_of (by decide +kernel), by decide +kernel⟩
/-- A call of sentence 5. -/
def call0 : SntReq := ⟨5, 1, 0, false, .software⟩
def sen1 : Block := { sen0 20 with subs := [(0, { sub0.subs.get 0 with sntQ := [call0] })] }
theorem meets_Start : (sen1.subs.get 0).sntQ = [call0] ∧ sen1.sntHeld 0 call0 = false ∧ (sen1.subs.get 0).snt = none
    ∧ sen1.subFenced 0 = false ∧ sen1.on (CLS_STATUS_HALTED 0) = false
    ∧ (sen1.seekStep 0 257 { (default : SntRun) with
        req := { call0 with urgent := sen1.sntIsUrgent call0 }, text := sen1.sentence 5 }).isSome = true := by decide +kernel
/-- Sentence 5 in progress at its step `op`. -/
def runOf (op : Nat) (waiting readOut : Bool) : SntRun := { (default : SntRun) with
  req := call0, text := snt0 op, waiting := waiting, readOut := readOut, left := [0], waited := 9 }
def sen2 (r : SntRun) : Block := { setAll (sen0 20) [(SCH_SNT_WAIT 0, 8), (PHY_STATUS_CK_RUNNING 0, 1), (PHY_STATUS_CK_RUNNING 1, 1)] with
  subs := [(0, { sub0.subs.get 0 with snt := some r }), (1, { (default : SubSt) with ckStop := true })] }
theorem meets_WaitEnd :
    let run := runOf 20 true false
    ((sen2 run).subs.get 0).snt = some run ∧ run.req.why ≠ .fenceExit ∧ run.waiting = true ∧ stOp (sntStep run.text run.step) = 20
    ∧ max 1 ((sen2 run).rd (SCH_SNT_WAIT 0)) ≤ run.waited ∧ sntTimeout run.text ≠ 0 ∧ (sen2 run).rd (FLT_SEV_SEV 49) ≠ 3 := by
  decide +kernel
/-- A POLL for 6 in the low nibble, at most 3 times. -/
def poll0 : SntRun := runOf (21 + 6 * 2 ^ 24 + 15 * 2 ^ 40 + 3 * 2 ^ 48) true true
theorem meets_Poll :
    let run := poll0; let w := sntStep run.text run.step
    ((sen2 run).subs.get 0).snt = some run ∧ stOp w = 21 ∧ run.readOut = true ∧ bitOf w 15 = false
    ∧ (0x36 : Byte).toNat &&& bitsOf w 47 40 = run.data w &&& bitsOf w 47 40 ∧ run.left.length ≤ 1
    ∧ (0x35 : Byte).toNat &&& bitsOf w 47 40 ≠ run.data w &&& bitsOf w 47 40 ∧ run.polls + 1 < bitsOf w 57 48 := by decide +kernel
/-- A PHY action step. -/
def act0 (a : Nat) : SntRun := runOf (23 + a * 2 ^ 24) true false
theorem meets_PhyActions (a : Fin 4) :
    let b := sen2 (act0 a)
    b.chLockstep 0 = false ∧ (b.subs.get 0).snt = some (act0 a) ∧ (act0 a).req.why ≠ .fenceExit ∧ b.phyPending 0 a = true
    ∧ (b.subs.get 1).ckStop = true ∧ b.on (PHY_STATUS_CK_RUNNING 0) = true ∧ b.subFenced 0 = false ∧ b.phy.train.get 0 = none := by
  match a with
  | 0 => decide +kernel
  | 1 => decide +kernel
  | 2 => decide +kernel
  | 3 => decide +kernel


/-- Subchannel 0 quiesced, READY, its module of one rank. -/
def phyQ : Block := sub3.wr HBR_STATUS_STATE 2
theorem meets_TrainingRequest :
    (stOf phyQ).grants .maker (PHY_TRAIN_CTL_GO 0).off (withField (withField 0x420 (PHY_TRAIN_CTL_GO 0) 1) (PHY_TRAIN_CTL_ABORT 0) 0)
    ∧ phyQ.trainBusy 0 = false ∧ phyQ.trainReady 0 = true ∧ phyQ.chLockstep 0 = false := ⟨grants_of (by decide +kernel), by decide +kernel⟩
/-- The same, trained or not quiesced. -/
def phyN : Block := phyQ.wr (SCH_CTL_QUIESCE 0) 0
theorem meets_TrainingRequest_refused :
    (stOf phyN).grants .maker (PHY_TRAIN_CTL_GO 0).off (withField (withField 0x420 (PHY_TRAIN_CTL_GO 0) 1) (PHY_TRAIN_CTL_ABORT 0) 0)
    ∧ phyN.trainBusy 0 = false ∧ phyN.trainReady 0 = false := ⟨grants_of (by decide +kernel), by decide +kernel⟩
/-- A training of steps 7 and 10 that waits. -/
def phyW : Block := { phyQ.wr (PHY_TRAIN_STATUS_STATE 0) 1 with phy := { (default : PhySt) with trainQ := [⟨[0], 0x480, .software⟩] } }
theorem meets_TrainingRequest_overrun :
    (stOf phyW).grants .maker (PHY_TRAIN_CTL_GO 0).off (withField (withField 0x420 (PHY_TRAIN_CTL_GO 0) 1) (PHY_TRAIN_CTL_ABORT 0) 0)
    ∧ phyW.trainBusy 0 = true := ⟨grants_of (by decide +kernel), by decide +kernel⟩
theorem meets_TrainingStart :
    (phyW.phy.train.filter (fun e => e.2.isSome)).length + 1 ≤ phyW.maxPar ∧ phyW.chState 0 = pwA0
    ∧ phyW.pwr.target.get 0 = none ∧ (phyW.subs.get 0).snt = none ∧ (phyW.subs.get 0).switchTo = none := by decide +kernel
/-- The same, with eight trainings running. -/
def phyF : Block := { phyW with phy := { phyW.phy with train := (List.range 8).map (fun k => (k + 8, some default)) } }
theorem meets_TrainingStart_full : phyF.maxPar < (phyF.phy.train.filter (fun e => e.2.isSome)).length + 1 := by decide +kernel
/-- That training at step `k`. -/
def phyR (k : Nat) : Block := { setAll phyQ [(PHY_TRAIN_STATUS_STATE 0, 2), (PHY_TRAIN_STATUS_STEP 0, k)] with
  phy := { (default : PhySt) with train := [(0, some { (default : TrainRun) with steps := 0x488, why := .software, snt := some 0 })] } }
/-- The same, its sentence still running. -/
def phyU : Block := { phyR 10 with
  phy := { (default : PhySt) with train := [(0, some { (default : TrainRun) with steps := 0x488, why := .software })] } }
def measNone : TrainMeas := default
def afterNone : AfterTrain := ⟨0, 0, 0, 0, 0⟩
/-- A sweep in which codes 10 to 99 pass. -/
def sweep0 : Sweep := [(0, BitVec.ofNat 256 (2 ^ 100 - 2 ^ 10))]
def measCa : TrainMeas := { measNone with lanes := [50, 51, 52, 53, 54, 55, 56, 57].map (fun l => (l, sweep0)) }
/-- Limits 0 to 255. -/
def phyC : Block := { phyR 3 with img := { (default : ImageSt) with
  secs := [(secKey tyPhyInit 0, (List.range 0x100).map (fun k => if k == 0x62 then 0xFF else 0))] }
                                  phy := { (default : PhySt) with
  train := [(0, some { (default : TrainRun) with steps := 0x428, why := .software })] } }
theorem meets_TrainingStep_next :
    (phyC.judgeStep 0 3 measCa).code = 0 ∧ nextStep 0x428 3 = some 5 ∧ phyC.rd HBR_STATUS_STATE = 2
    ∧ phyC.rd (FLT_SEV_SEV 52) ≠ 3 ∧ phyC.rd (PHY_TRAIN_STATUS_STEP 0) = 3 ∧ phyC.stepHeard 0 3 = true := by decide +kernel
theorem meets_TrainingStep_last : ((phyR 10).judgeStep 0 10 measNone).code = 0 ∧ nextStep 0x488 10 = none
    ∧ (phyR 10).stepHeard 0 10 = true ∧ phyU.stepHeard 0 10 = false := by decide +kernel
theorem meets_TrainingStep_fails : ((phyR 10).judgeStep 0 10 { measNone with errors := [7] }).code = 5
    ∧ ((phyR 10).judgeStep 0 10 { measNone with errors := [7] }).failed.headD 0xFF = 7 := by decide +kernel
theorem meets_TrainingAbort : (stOf (phyR 10)).grants .maker (PHY_TRAIN_CTL_ABORT 0).off
    (withField (withField 0 (PHY_TRAIN_CTL_ABORT 0) 1) (PHY_TRAIN_CTL_GO 0) 0) := grants_of (by decide +kernel)

theorem meets_LoopbackStart :
    (stOf phyQ).grants .maker (PHY_LOOP_CTL_GO 0).off (withField (withField 1 (PHY_LOOP_CTL_GO 0) 1) (PHY_LOOP_CTL_STOP 0) 0)
    ∧ phyQ.rd (PHY_LOOP_STATUS_BUSY 0) = 0 ∧ phyQ.quiesced 0 = true ∧ phyQ.phy.train.get 0 = none :=
  ⟨grants_of (by decide +kernel), by decide +kernel⟩
theorem meets_LoopbackStart_refused :
    (stOf phyQ).grants .maker (PHY_LOOP_CTL_GO 0).off (withField (withField 0 (PHY_LOOP_CTL_GO 0) 1) (PHY_LOOP_CTL_STOP 0) 0) :=
  grants_of (by decide +kernel)
/-- A loopback runs. -/
def phyL : Block := setAll phyQ [(PHY_LOOP_STATUS_BUSY 0, 1), (PHY_LOOP_CTL_LENGTH 0, 4)]
theorem meets_LoopbackEnd : phyL.rd (PHY_LOOP_STATUS_BUSY 0) = 1 ∧ phyL.rd (PHY_LOOP_CTL_LENGTH 0) ≠ 0
    ∧ phyL.sntPending (phyL.schedOf 0) .loopIn = false := by decide +kernel
theorem meets_LoopbackStop :
    (stOf phyL).grants .maker (PHY_LOOP_CTL_STOP 0).off (withField (withField 0 (PHY_LOOP_CTL_STOP 0) 1) (PHY_LOOP_CTL_GO 0) 0) :=
  grants_of (by decide +kernel)
theorem meets_RateChange : ∀ i ∈ [0, 1], phyQ.subRanks i ≤ (phyQ.subs.get i).selfRef.length ∧ phyQ.rd (PHY_STATUS_CK_RUNNING i) = 0 := by
  decide +kernel
theorem meets_RateChange_refused : (phyQ.wr (PHY_STATUS_CK_RUNNING 0) 1).rd (PHY_STATUS_CK_RUNNING 0) ≠ 0 := by decide +kernel
theorem meets_Relock : bitOf open0.start.pllWait 0 = false ∧ open0.rd HBR_STATUS_STATE ≠ 2 := by decide +kernel
/-- Step 5 of start waits for channels 0 and 3. -/
def pll0 : Block := { setAll open0 [(HBR_STATUS_STATE, 1), (HBR_STATUS_STEP, 5)] with start := { open0.start with pllWait := 9 } }
theorem meets_Pll_start : bitOf pll0.start.pllWait 0 = true ∧ pll0.start.pllWait ≠ 2 ^ 0 ∧ pll0.rd HBR_STATUS_STATE = 1
    ∧ pll0.rd HBR_STATUS_STEP = 5 ∧ pll0.phy.train.get 0 = none ∧ pll0.phy.train.get 1 = none ∧ pll0.start.cause.get 0 = 0 := by
  decide +kernel

/-- Tracking of subchannel 0 runs, or is frozen. -/
def cal0 (frozen : Nat) : Block := { setAll open0 [(PHY_STATUS_TRACK_FROZEN 0, frozen), (PHY_DQ_TX_DESKEW 0 3, 40), (CAL_WIN_THRESH 0, 5)] with
  img := { (default : ImageSt) with secs := [(secKey tyPhyInit 0, List.replicate 0x100 0xFF)] }
  cal := { (default : CalSt) with left := [(21, 42)] } }
theorem meets_Tracking (f : Fin 2) : (cal0 f).on (PHY_STATUS_TRACK_FROZEN 0) = (f == 1) ∧ (cal0 f).on (CAL_CTL_RX_TRACK 0) = true
    ∧ ((cal0 f).lane 0 3).prev = none := by
  match f with
  | 0 => decide +kernel
  | 1 => decide +kernel
/-- Lanes of subchannel 0 whose limit of TX_DESKEW is 0 to 255. -/
def calLim : Block := { cal0 0 with img := { (default : ImageSt) with
  secs := [(secKey tyPhyInit 0, (List.range 0x100).map (fun k => if k == 0x70 || k == 0x71 || k == 0x73 then 0 else 0xFF))] } }
theorem meets_Oscillator (step : Int) (h : step = signOf step) (q : Fin 4) : calLim.txPlausible 0 (4 * 2 + q) step = true := by
  have : step = 1 ∨ step = 0 ∨ step = -1 := by unfold signOf at h; split at h <;> (try split at h) <;> simp_all
  rcases this with rfl | rfl | rfl <;> match q with
    | 0 => decide +kernel
    | 1 => decide +kernel
    | 2 => decide +kernel
    | 3 => decide +kernel
theorem meets_WriteProbe : (0 : BitVec 40) ≠ BitVec.allOnes 40 ∧ (cal0 0).rd (FLT_SEV_SEV 53) ≠ 3 := by decide +kernel
theorem meets_WriteSide_off : ((cal0 0).wr (CAL_CTL_WR_TRACK 0) 0).on (CAL_CTL_WR_TRACK 0) = false := by decide +kernel
/-- In harbour mode the Keeper's sentences are 4 and 5. -/
def calDue : Block := { setAll sub0 [(HBR_STATUS_STATE, 4), (CAL_CTL_WR_TRACK 0, 1)] with
  img := { (default : ImageSt) with secs := [(secKey tySentences 4, snt0 20), (secKey tySentences 5, snt0 20)] } }
theorem meets_WriteSide : ∀ p ∈ [Purpose.osc, .probe], calDue.on (CAL_CTL_WR_TRACK 0) = true ∧ calDue.sntPending 0 p = false
    ∧ calDue.chState 0 = pwA0 ∧ (calDue.sentence (calDue.keeperSentence p)).isEmpty = false ∧ calDue.subFenced 0 = false
    ∧ calDue.on (CLS_STATUS_HALTED 0) = false ∧ calDue.chLockstep 0 = false := by decide +kernel
/-- A record of point 2 is being stored. -/
def calStore0 : Block := { open0.wr NVM_STATUS_SELFTEST_OK 1 with stores := [⟨2, calOff 0 2 0, [1, 2, 3]⟩] }
theorem meets_CalStore : calStore0.stores = [⟨2, calOff 0 2 0, [1, 2, 3]⟩] ∧ calStore0.cal.resetWait.get 0 = false
    ∧ calStore0.cal.again.get 2 = false ∧ calStore0.cal.other.get 2 = false := by decide +kernel
/-- The first copy of a RESET is being stored. -/
def calStore1 : Block := { calStore0 with cal := { (default : CalSt) with other := [(2, true)] } }
theorem meets_CalStore_other : calStore1.cal.other.get 2 = true ∧ calStore1.on NVM_STATUS_SELFTEST_OK = true := by decide +kernel
theorem meets_CalReset :
    (stOf (open0.wr NVM_STATUS_SELFTEST_OK 1)).grants .maker (CAL_CTL_RESET 0).off (withField 0 (CAL_CTL_RESET 0) 1)
    ∧ (open0.wr NVM_STATUS_SELFTEST_OK 1).calStoring 0 = false := ⟨grants_of (by decide +kernel), by decide +kernel⟩
theorem meets_CalReset_waits :
    (stOf calStore0).grants .maker (CAL_CTL_RESET 0).off (withField 0 (CAL_CTL_RESET 0) 1) ∧ calStore0.calStoring 0 = true :=
  ⟨grants_of (by decide +kernel), by decide +kernel⟩
theorem meets_ClearSuspect : (stOf open0).grants .maker (CAL_CTL_RESET 0).off
    (withField (withField 0 (CAL_CTL_CLEAR_SUSPECT 0) 1) (CAL_CTL_RESET 0) 0) := grants_of (by decide +kernel)


/-- A fill of way 0 of slice 0, in flight on subchannel 0. -/
def fill0 : Miss := { (default : Miss) with id := 1, sec := 1, way := some 0, cls := 2, src := 2 }
def dram0 : Block := { open0 with
  slices := [(0, { (default : SliceSt) with miss := [fill0] })]
  arr := { (default : ArraySt) with lines := [(0, { (default : Line) with st := [(1, .f)] })] }
  subs := [(0, { (default : SubSt) with inflight := [rd0] })] }
theorem meets_DramReads : dram0.chLockstep 0 = false ∧ (dram0.subs.get 0).inflight = [rd0]
    ∧ (dram0.slices.get rd0.slice).miss = [fill0] ∧ fill0.id = rd0.miss ∧ fill0.waiters = [] ∧ fill0.merge = none
    ∧ fill0.cancel = false ∧ fill0.way = some 0 ∧ dram0.ecc.armed = none ∧ dram0.ecc.kept = none ∧ dram0.mirrorOf fill0 = none
    ∧ (∀ n ∈ [55, 57, 58, 61], dram0.rd (FLT_SEV_SEV n) ≠ 3) ∧ fill0.joined = none
    ∧ (dram0.line 0).going = false ∧ (dram0.line 0).st.get fill0.sec = .f ∧ (dram0.line 0).flip0 = 0 ∧ (dram0.line 0).flip1 = 0 := by
  decide +kernel
theorem meets_DramReads_clean : decodeWord false none 0 = .clean := by decide +kernel
theorem meets_DramReads_corrected : decodeWord false none 5 = .corrected 5 [0] := by decide +kernel
theorem meets_DramReads_bad : decodeWord false none (1 + 2 ^ 200) = .bad := by decide +kernel
/-- The mirror of that fill has answered with status `st`. -/
def mir0 (st : Nat) : Block := { open0 with
  arr := dram0.arr
  ecc := { (default : EccSt) with mirrors := [{ (default : MirrorRead) with id := 9, miss := fill0, sub := 2, dpa := some 64 }] }
  intern := [{ (default : Intern) with req := { (default : Req) with id := 9, src := 11 }, status := st, data := 77 }] }
theorem meets_Mirror : ∀ st ∈ [stOK, stUE],
    (takeFirst (fun (a : Intern) => a.req.src == 11) (mir0 st).intern).isSome = true
    ∧ (takeFirst (fun (a : MirrorRead) => a.id == 9) (mir0 st).ecc.mirrors)
        = some ({ (default : MirrorRead) with id := 9, miss := fill0, sub := 2, dpa := some 64 }, []) := by decide +kernel
theorem meets_Mirror_status : statusHasData stOK = true ∧ statusHasData stUE = false := by decide +kernel

/-- A module of one rank on channel 0 that can repair, and a persistent entry 4 of subchannel 0. -/
def ent0 : LogEnt := { (default : LogEnt) with valid := true, persistent := true, count := 3, repair := 1, devices := 2, bg := 1 }
def ecc0 : Block := { setAll open0 [(ECC_STATUS_LEVEL 0, 7), (ECC_REPAIR_RES_RES 0, 0x20), (SCH_CTL_QUIESCE 0, 1)] with
  ecc := { (default : EccSt) with log := [(4, ent0)] }
  mod := { (default : ModSt) with ledger := [(0, { (default : Ledger) with caps := 3 })] } }
theorem meets_LogSelect : (stOf ecc0).grants .maker (ECC_LOG_SEL_INDEX 0).off (withField (0 : Word) (ECC_LOG_SEL_INDEX 0) 4) :=
  grants_of (by decide +kernel)
theorem meets_LogClear : (stOf ecc0).grants .maker (ECC_LOG_SEL_INDEX 0).off
    (withField (withField (0 : Word) (ECC_LOG_SEL_INDEX 0) 4) (ECC_LOG_SEL_CLEAR 0) 1) := grants_of (by decide +kernel)
/-- Channel 0 in lockstep. -/
def lock0 : Block := { ecc0 with img := { (default : ImageSt) with secs := [(secKey tyTopology 0, [3, 1, 1, 1])] } }
theorem meets_DeviceErase : lock0.chLockstep 0 = true ∧ (stOf lock0).grants .maker (ECC_ERASE_VALID 0).off
    (withField (withField (0 : Word) (ECC_ERASE_DEVICE 0) 3) (ECC_ERASE_VALID 0) 1)
    ∧ (stOf lock0).grants .maker (ECC_ERASE_VALID 0).off (withField (0 : Word) (ECC_ERASE_DEVICE 0) 3) :=
  ⟨by decide +kernel, grants_of (by decide +kernel), grants_of (by decide +kernel)⟩
/-- The same in harbour mode, in which the repair's sentence is 6, with that sentence where `has`. -/
def eccH (has : Bool) : Block := { setAll ecc0 [(HBR_STATUS_STATE, 4)] with
  img := { (default : ImageSt) with secs := if has then [(secKey tySentences 6, snt0 20)] else [] } }
theorem meets_Repair_sentence (has : Bool) :
    let b := eccH has
    (b.sentence (b.keeperSentence .repair)).isEmpty = !has ∧ b.subFenced 0 = false ∧ b.chLockstep 0 = false
    ∧ b.chState 0 ≠ pwOFF ∧ b.on (CLS_STATUS_HALTED 0) = false ∧ b.rd (ECC_CE_CFG_MODE 0) ≠ 1 ∧ b.rd (FLT_SEV_SEV 59) ≠ 3 := by
  cases has <;> decide +kernel
theorem meets_Repair (has hard : Bool) :
    let b := eccH has
    b.ecc.log.get 4 = ent0 ∧ b.ecc.repair.get 0 = none
    ∧ b.repairCap 0 ent0.rank hard.toNat = true ∧ b.softActive 0 ent0 = false
    ∧ (b.quiesced 0 || b.subFenced 0) = true ∧ b.spareRows 0 ent0.bg ≠ 0
    ∧ (stOf b).grants .maker (ECC_REPAIR_CTL_GO 0).off (withField (withField (withField (0 : Word) (ECC_REPAIR_CTL_ENTRY 0) 4)
        (ECC_REPAIR_CTL_HARD 0) hard.toNat) (ECC_REPAIR_CTL_GO 0) 1) := by
  cases has <;> cases hard <;> refine ⟨?_, ?_, ?_, ?_, ?_, ?_, grants_of ?_⟩ <;> decide +kernel
/-- The same not quiesced, or without a spare row. -/
def eccNo (q : Bool) : Block := if q then ecc0.wr (ECC_REPAIR_RES_RES 0) 0 else ecc0.wr (SCH_CTL_QUIESCE 0) 0
theorem meets_HardRepair_refused (q : Bool) : (eccNo q).rd (ECC_CE_CFG_MODE 0) ≠ 1
    ∧ ((eccNo q).quiesced 0 || (eccNo q).subFenced 0) = q ∧ ((eccNo q).spareRows 0 ent0.bg = 0 ∨ q = false)
    ∧ (stOf (eccNo q)).grants .maker (ECC_REPAIR_CTL_GO 0).off (withField (withField (withField (0 : Word) (ECC_REPAIR_CTL_ENTRY 0) 4)
        (ECC_REPAIR_CTL_HARD 0) 1) (ECC_REPAIR_CTL_GO 0) 1) := by
  cases q <;> exact ⟨by decide +kernel, by decide +kernel, by decide +kernel, grants_of (by decide +kernel)⟩
/-- A repair of that entry runs. -/
def eccRun : Block := { ecc0 with ecc := { ecc0.ecc with repair := [(0, some ⟨4, true, 3, 1⟩)] } }
theorem meets_RepairEnd : eccRun.ecc.repair.get 0 = some ⟨4, true, 3, 1⟩ ∧ eccRun.rd (FLT_SEV_SEV 59) ≠ 3 ∧ eccRun.rd (FLT_SEV_SEV 60) ≠ 3 := by decide +kernel

/-- Range 2 is 1,024 bytes at 256; pass `k` runs where `busy`. -/
def scb0 (busy k : Nat) : Block := setAll open0 [(SCB_RANGE_WORD 2 0, 256), (SCB_RANGE_WORD 2 2, 1280),
  (SCB_STATUS_BUSY, busy), (SCB_STATUS_CURRENT, k)]
theorem meets_ScrubRequest (b k : Fin 3) :
    (stOf (scb0 b k)).grants .maker SCB_CTL_GO.off (withField (withField 2 SCB_CTL_GO 1) SCB_CTL_ABORT 0)
    ∧ (scb0 0 0).scbBase 2 < (scb0 0 0).scbLimit 2 ∧ (scb0 0 0).rd SCB_STATUS_BUSY = 0 ∧ (scb0 0 0).rd SCB_STATUS_QUEUED = 0 := by
  refine ⟨?_, by decide +kernel⟩
  match b, k with
  | 0, 0 => exact grants_of (by decide +kernel)
  | 0, 1 => exact grants_of (by decide +kernel)
  | 0, 2 => exact grants_of (by decide +kernel)
  | 1, 0 => exact grants_of (by decide +kernel)
  | 1, 1 => exact grants_of (by decide +kernel)
  | 1, 2 => exact grants_of (by decide +kernel)
  | 2, 0 => exact grants_of (by decide +kernel)
  | 2, 1 => exact grants_of (by decide +kernel)
  | 2, 2 => exact grants_of (by decide +kernel)
theorem meets_ScrubAbort : (stOf (scb0 1 2)).grants .maker SCB_CTL_GO.off (withField (withField 0 SCB_CTL_ABORT 1) SCB_CTL_GO 0)
    ∧ (scb0 1 2).rd SCB_STATUS_BUSY = 1 ∧ (scb0 1 2).rd SCB_STATUS_QUEUED = 0 := ⟨grants_of (by decide +kernel), by decide +kernel⟩
/-- An interleave set of one channel, 1 GiB at DPA 0. -/
def set1 : List Byte := leBytes 16 0 ++ leBytes 8 (2 ^ 30) ++ leBytes 1 0 ++ List.replicate 15 0xFF ++ List.replicate 34 0x3F ++ leBytes 6 0
/-- The pass of range 2 at its BASE, in extent 0, whose descriptor `d` is cached. -/
def scb1 (d : Desc) : Block := { setAll (scb0 1 2) [(EDT_CFG_ENTRIES, 4), (EDT_CFG_LOC, 1), (SCB_RANGE_WORD 2 3, 1), (PWR_CH_STATUS_STATE 0, pwA0)] with
  img := { (default : ImageSt) with secs := [(secKey tyInterleave 0, set1)] }
  edt := { (default : EdtSt) with cache := [(0, [⟨0, d, false⟩])] }, scrub := { (default : ScrubSt) with pos := 256 } }
/-- The descriptor of a NORMAL extent, without or with SCRUB_POLICY 1. -/
def scbDesc (skip : Bool) : Desc := if skip then 65537 + 1024 else 65537
theorem meets_ScrubIssue (skip : Bool) :
    let b := scb1 (scbDesc skip)
    b.scrub.pos = 256 ∧ b.rd SCB_STATUS_BUSY = 1 ∧ b.scrub.line = none ∧ b.edt.fetches = [] ∧ b.intern = []
    ∧ b.withheld (b.extentOf 256) = false ∧ b.extentOf 256 < b.edtEntries ∧ b.descCached (b.extentOf 256) = some (scbDesc skip)
    ∧ b.scrubHeld (b.scrubFrames (scbDesc skip) 256) = false ∧ b.edt.beyond = [] ∧ b.descBad (b.extentOf 256) = false := by cases skip <;> decide +kernel
theorem meets_ScrubIssue_read :
    let b := scb1 (scbDesc false)
    b.scrubFrames (scbDesc false) 256 = [⟨0, 0, 256⟩] ∧ dValid (scbDesc false) = true ∧ b.malformed (scbDesc false) = false
    ∧ dState (scbDesc false) = xsNormal ∧ dScrub (scbDesc false) = 0 ∧ b.sliceFenced 0 = false := by decide +kernel
theorem meets_ScrubIssue_skip : dScrub (scbDesc true) = 1
    ∧ ((scb1 0).extentOf 256 + 1) * 2 ^ (scb1 0).granLog < (scb1 0).scbLimit ((scb1 0).rd SCB_STATUS_CURRENT) := by decide +kernel
/-- The line at 256 has come back without errors, with the pass at `pos`. -/
def scb2 (pos : Nat) : Block := { scb0 1 2 with
  scrub := { (default : ScrubSt) with pos := pos, line := some (256, 5, false) }
  intern := (List.range 4).map (fun k =>
    { (default : Intern) with req := { (default : Req) with src := 8, id := 5 }, sec := k, status := stOK, data := 6 }) }
theorem meets_ScrubReturn : ∀ pos ∈ [512, 1280],
    let b := scb2 pos
    b.rd SCB_STATUS_CURRENT = 2 ∧ b.scrub.line = some (256, 5, false) ∧ b.rd SCB_STATUS_BUSY = 1 ∧ b.rd SCB_STATUS_QUEUED = 0
    ∧ b.intern.length = 4 ∧ (∀ n ∈ b.intern, n.req.src = 8 ∧ n.req.area = .dram ∧ n.req.id = 5 ∧ n.status = stOK)
    ∧ b.intern.map (fun n => n.sec) = [0, 1, 2, 3] := by decide +kernel
theorem meets_Injection :
    (stOf open0).grants .maker ECC_INJ_CTL_ARM.off (withField (withField 1 ECC_INJ_CTL_ARM 1) ECC_INJ_CTL_DISARM 0)
    ∧ (stOf open0).grants .maker ECC_INJ_CTL_ARM.off (withField (withField 0 ECC_INJ_CTL_DISARM 1) ECC_INJ_CTL_ARM 0) :=
  ⟨grants_of (by decide +kernel), grants_of (by decide +kernel)⟩


/-- A module that is found, or does not answer. -/
def probe0 (ack : Bool) : ModuleProbe :=
  { ack := ack, busErr := false, crcOk := true, typeOk := true, mrdimm := false, ranks := 1, capacity := 16, maxRate := 4800, caps := 3
    encCs := false, mfr := 7, date := 0x2401, serial := 99, part := 5, rowBits := 16, bgBits := 3, bankBits := 2, sensors := 1 }
/-- A start image whose channel 0 has one RDIMM of one rank. -/
def topo0 : ImageSt := { (default : ImageSt) with secs := [(secKey tyTopology 0, [1, 1, 1, 1])] }
/-- Step 6 of start waits for the discovery of slots 0 and 5. -/
def disc0 : Block := { setAll open0 [(HBR_STATUS_STATE, 1), (HBR_STATUS_STEP, 6)] with
  img := topo0, start := { open0.start with discWait := 33 } }
theorem meets_Discovery : bitOf disc0.start.discWait 0 = true ∧ disc0.start.discWait ≠ 2 ^ 0 ∧ disc0.rd HBR_STATUS_STATE = 1
    ∧ disc0.rd HBR_STATUS_STEP = 6 ∧ disc0.start.asked = false ∧ disc0.phy.trainQ = [] ∧ disc0.phy.train = []
    ∧ disc0.discOf 0 (probe0 true) = 0 ∧ (disc0.mod.ledger.get 0).presence = 0 ∧ disc0.discOf 0 (probe0 false) ≠ 0 := by decide +kernel
/-- A module in slot 0, with its readings, its second and a store of its ledger. -/
def mod0 : Block := { open0.wr (PWR_CH_STATUS_STATE 0) pwA0 with
  mod := { (default : ModSt) with
    ledger := [(0, { (default : Ledger) with presence := 1, ecsA := 5, powered := 9 })]
    ecsBase := [(0, some 3), (1, some 4)], high := [(0, some 344)] }
  stores := [⟨1000, ledOff 0 0, [1, 2, 3]⟩] }
theorem meets_Ledgers : (mod0.mod.ledger.get 0).presence = 1 ∧ mod0.chState 0 = pwA0 ∧ bitOf (mod0.quietKinds 0) 3 = false
    ∧ bitOf (mod0.quietKinds 1) 3 = false ∧ mod0.mod.ecsBase.get 0 = some 3 ∧ mod0.mod.ecsBase.get 1 = some 4
    ∧ mod0.pwr.inS3 = false ∧ mod0.chState 0 ≠ pwOFF ∧ mod0.mod.high.get 0 = some 344 ∧ mod0.mod.bad.get 0 = false
    ∧ (mod0.mod.ledger.get 1).presence ≠ 1 ∧ mod0.stores = [⟨1000, ledOff 0 0, [1, 2, 3]⟩]
    ∧ mod0.cal.again.get 1000 = false := by decide +kernel
theorem meets_Ledgers_read : ∀ x : Fin 2, mod0.subFenced x = false ∧ mod0.on (CLS_STATUS_HALTED (mod0.schedOf x)) = false
    ∧ mod0.phy.train.get x = none := by decide +kernel
theorem meets_Ledgers_missed : let b := setAll mod0 [(FLT_FENCE_SUB_U, 3)]
    ∀ x : Fin 2, b.ecsMissed x = true := by decide +kernel
theorem meets_Ledgers_S3 : ({ mod0 with pwr := { mod0.pwr with inS3 := true } }).pwr.inS3 = true := rfl

/-- Channel 0 in replacement state `st` with phase `ph`, its slice in BYPASS. -/
def rpl0 (st ph : Nat) : Block := { setAll sub0 [(MOD_RPL_STATUS_STATE 0, st), (CCH_STATUS_STATE 0, 2)] with
  img := topo0, mod := { (default : ModSt) with phase := [(0, ph)] } }
theorem meets_Replacement : ∀ e ∈ [(0, 0), (1, 1), (1, 2), (2, 0), (3, 3), (3, 6), (4, 0)],
    (rpl0 e.1 e.2).chLockstep 0 = false ∧ (rpl0 e.1 e.2).phy.trainQ = [] ∧ (rpl0 e.1 e.2).phy.train = [] := by decide +kernel
theorem meets_Replacement_overrun : ∀ st ∈ [rpReleasing, rpAttaching], (rpl0 st 1).rplState 0 = st := by decide +kernel
theorem meets_Replacement_writes (st : Nat) (h : st = 1 ∨ st = 3 ∨ st = 0) (c : Nat) (hc : c = 1 ∨ c = 2 ∨ c = 3) :
    (stOf (rpl0 st 0)).grants .maker (MOD_RPL_CTL_CMD 0).off (withField (0 : Word) (MOD_RPL_CTL_CMD 0) c) := by
  rcases h with rfl | rfl | rfl <;> rcases hc with rfl | rfl | rfl <;> exact grants_of (by decide +kernel)
theorem meets_Release : (rpl0 0 0).rplState 0 = rpInService ∧ (rpl0 0 0).releaseCode 0 = 0 ∧ (rpl0 0 0).subFenced 0 = false
    ∧ ((rpl0 0 0).subs.get 0).rq ≠ [] := by decide +kernel
theorem meets_Release_refused :
    let b := (rpl0 0 0).wr (CCH_STATUS_STATE 0) 0
    b.releaseCode 0 ≠ 0 ∧ (stOf b).grants .maker (MOD_RPL_CTL_CMD 0).off (withField (0 : Word) (MOD_RPL_CTL_CMD 0) 1) :=
  ⟨by decide +kernel, grants_of (by decide +kernel)⟩
theorem meets_Release_phases : (rpl0 1 1).rplState 0 = rpReleasing ∧ (rpl0 1 1).mod.phase.get 0 = 1
    ∧ (rpl0 1 2).rplState 0 = rpReleasing ∧ (rpl0 1 2).mod.phase.get 0 = 2 := by decide +kernel
theorem meets_Attach : (rpl0 2 0).rplState 0 = rpReleased
    ∧ (stOf (rpl0 2 0)).grants .maker (MOD_RPL_CTL_CMD 0).off (withField (0 : Word) (MOD_RPL_CTL_CMD 0) 2) :=
  ⟨by decide +kernel, grants_of (by decide +kernel)⟩
theorem meets_Attach_phases : (rpl0 3 3).rplState 0 = rpAttaching ∧ (rpl0 3 3).mod.phase.get 0 = 3 ∧ (rpl0 3 3).chDimms 0 = 1
    ∧ (rpl0 3 3).rd (FLT_SEV_SEV 67) ≠ 3 ∧ bitOf (rpl0 3 6).start.initWait 0 = false ∧ (rpl0 3 6).mod.phase.get 0 = 6 := by
  decide +kernel
/-- ATTACHED, with both subchannels fenced. -/
def rpl4 : Block := setAll (rpl0 4 0) [(FLT_FENCE_SUB_U, 3), (SCH_CTL_QUIESCE 0, 1)]
theorem meets_Resume_channel : rpl4.rplState 0 = rpAttached
    ∧ (∀ i ∈ [0, 1], rpl4.bit FLT_FENCE_IN_SUB_U i = false ∧ (rpl4.subs.get i).selfRef = [] ∧ rpl4.subFenced i = true)
    ∧ (stOf rpl4).grants .maker (MOD_RPL_CTL_CMD 0).off (withField (0 : Word) (MOD_RPL_CTL_CMD 0) 3) :=
  ⟨by decide +kernel, by decide +kernel, grants_of (by decide +kernel)⟩


/-- A job: verb, further bits of word 0, SRC, DST, LENGTH, PATTERN. -/
def job0 (verb w0 src dst len pat : Nat) : BitVec 512 :=
  BitVec.ofNat 512 (verb + w0 + 77 * 2 ^ 32 + src * 2 ^ 64 + dst * 2 ^ 128 + len * 2 ^ 192 + pat * 2 ^ 256)
/-- The Tender with lane 0, over one set of 1 GiB; the descriptor of extent 0 is cached. -/
def tnd0 (l : Lane) : Block := { setAll (scb1 65537) [(EDT_CFG_ENTRIES, 4), (TND_CTL_ENABLE, 1), (TND_TAIL_TAIL, 5), (TND_CFG_RETRY, 2)] with
  tnd := { (default : TenderSt) with lanes := [(0, l)] } }
/-- A lane with a job, at `pos`. -/
def lane0 (verb w0 src dst len pos : Nat) : Lane :=
  { (default : Lane) with phase := .go, job := job0 verb w0 src dst len 0x1234, pos := pos, idx := 0 }
theorem meets_Tail (tail : Fin 2) : (stOf (tnd0 default)).grants .maker TND_TAIL_TAIL.off
    (withField (0 : Word) TND_TAIL_TAIL (tail.val * 17)) := by
  match tail with
  | 0 => exact grants_of (by decide +kernel)
  | 1 => exact grants_of (by decide +kernel)
/-- A lane that keeps its record, in a Tender that is off. -/
def tndKept : Block := (tnd0 { lane0 1 0 256 0 256 256 with phase := .kept }).wr TND_CTL_ENABLE 0
theorem meets_Enable (kept : Bool) :
    let b := if kept then tndKept else (tnd0 default).wr TND_CTL_ENABLE 0
    (stOf b).grants .maker TND_CTL_ENABLE.off (withField (withField 0 TND_CTL_ENABLE 1) TND_CTL_ABORT 0)
    ∧ b.rd TND_CTL_ENABLE = 0 ∧ ((b.tlane 0).phase = .kept ∨ kept = false) := by
  cases kept <;> exact ⟨grants_of (by decide +kernel), by decide +kernel⟩
theorem meets_Disable : (stOf (tnd0 default)).grants .maker TND_CTL_ENABLE.off
    (withField (withField 0 TND_CTL_ENABLE 0) TND_CTL_ABORT 0) := grants_of (by decide +kernel)
theorem meets_Abort :
    let b := tnd0 (lane0 8 0 256 0 512 0)
    (stOf b).grants .maker TND_CTL_ABORT.off (withField 1 TND_CTL_ABORT 1) ∧ (b.tlane 0).runs = true
    ∧ (b.tlane 0).phase = .go ∧ (b.tlane 1).phase = .free := ⟨grants_of (by decide +kernel), by decide +kernel⟩
theorem meets_JobStart :
    let b := tnd0 default
    b.on TND_CTL_ENABLE = true ∧ b.tnd.stopped = false ∧ (b.tlane 1).phase = .free
    ∧ (∀ m : Fin 4, (b.tlane m).phase ∉ [.fetch, .fetching, .kept] ∧ (b.tlane m).stage ≠ 99 ∧ b.fenceWaits m = false)
    ∧ b.tnd.next ≠ b.rd TND_TAIL_TAIL ∧ b.tndDrained = false ∧ b.edt.held = [] ∧ (∀ e ∈ b.tnd.lanes, e.2.lock = none)
    ∧ b.ringBase + 64 * (b.tnd.next % b.ringN) = 0 := by decide +kernel
/-- The request for the first job. -/
def jobReq : Req := tndReq 1 0 0 .rd64
theorem meets_JobStart_way :
    let w := (tnd0 default).newId.2.tndWay jobReq
    w.2 = .go jobReq (some 65537) ∧ dState 65537 = xsNormal
    ∧ w.1.routeReq jobReq 65537 = .go { jobReq with area := .dram, policy := 1, route := ⟨0, 0, 0⟩ }
    ∧ (tnd0 default).sliceFenced ((tnd0 default).reqSlice { jobReq with area := .dram, policy := 1, route := ⟨0, 0, 0⟩ }) = false := by
  decide +kernel
theorem meets_JobStart_ask :
    let b := { tnd0 default with edt := { (default : EdtSt) with fetches := [⟨0, [], true, false, false⟩] } }
    b.extentOf 0 < b.edtEntries ∧ b.withheld (b.extentOf 0) = false ∧ b.descCached (b.extentOf 0) = none
    ∧ (b.edt.fetches = [⟨0, [], true, false, false⟩]) := by decide +kernel
theorem meets_JobStart_off : (tndKept.rd TND_CTL_ENABLE = 0) := by decide +kernel
theorem meets_BadVerb :
    let b := tnd0 (lane0 9 0 256 0 256 0)
    (b.tlane 0).phase = .go ∧ jKnown (b.tlane 0).job = false ∧ b.fenceWaits 0 = false := by decide +kernel
/-- The record of lane 0's job, of index `i`, is answered with `st`. -/
def tndRec (i st : Nat) : Block := { tnd0 { lane0 8 512 256 0 256 256 with phase := .finishing, req := some 4, idx := i } with
  intern := [{ (default : Intern) with req := tndReq 0 4 0 .wrp, status := st }] }
theorem meets_RecordDone : ∀ st ∈ [stOK, stUE],
    takeFirst (fun (y : Intern) => y.req.src == 6 && y.req.id == 4) (tndRec 0 st).intern
      = some ({ (default : Intern) with req := tndReq 0 4 0 .wrp, status := st }, [])
    ∧ ((tndRec 0 st).tlane 0).phase = .finishing ∧ ((tndRec 0 st).tlane 0).req = some 4 := by decide +kernel
theorem meets_RecordDone_head : statusHasData stOK = true ∧ statusHasData stUE = false
    ∧ ((tndRec 0 0).tlane 0).idx = (tndRec 0 0).rd TND_HEAD_HEAD ∧ ((tndRec 3 0).tlane 0).idx ≠ (tndRec 3 0).rd TND_HEAD_HEAD
    ∧ (tndRec 0 0).tnd.done = [] ∧ jInt ((tndRec 0 0).tlane 0).job = true := by decide +kernel

theorem meets_Verbs : ∀ v ∈ [vbZero, vbSanitise, vbCopy, vbMove, vbTest, vbSum, vbClear, vbScan],
    let b := tnd0 (lane0 v 0 1 0 256 0)
    (b.tlane 0).phase = .go ∧ b.fenceWaits 0 = false ∧ jVerb (b.tlane 0).job = v ∧ jArgsOk (b.tlane 0).job = false := by decide +kernel
/-- A good job of each verb. -/
def jobOk (v : Nat) : Lane :=
  if v = 4 then lane0 4 0 0 0 0 0 else if v = 3 then lane0 3 0 256 4096 512 256
  else if v = 5 then lane0 5 1024 256 0 512 256 else lane0 v 0 256 0 512 256
theorem meets_Verbs_harbour : ∀ v ∈ [vbZero, vbSanitise, vbCopy, vbMove, vbTest, vbSum, vbClear, vbScan],
    let b := tnd0 (jobOk v)
    jVerb (b.tlane 0).job = v ∧ jArgsOk (b.tlane 0).job = true ∧ b.harbour = false ∧ (b.wr HBR_STATUS_STATE 4).harbour = true := by
  decide +kernel
theorem meets_Verbs_end : ∀ v ∈ [vbZero, vbCopy, vbClear, vbScan, vbTest, vbSum],
    let b := tnd0 { jobOk v with pos := 512, stage := 5 }
    jVerb (b.tlane 0).job = v ∧ jArgsOk (b.tlane 0).job = true ∧ jLen (b.tlane 0).job ≤ (b.tlane 0).pos := by decide +kernel
/-- The request a lane sends. -/
def sent0 (v a : Nat) (op : ReqOp) : Req :=
  let r := { tndReq 0 0 a op with area := .dram, route := ⟨0, 0, a⟩ }
  if v = 5 then { r with dpa := 256, route := ⟨0, 0, 512⟩, raw := true, direct := true } else r
theorem meets_Verbs_send : ∀ e ∈ [(vbZero, 0, 512, ReqOp.wrl), (vbSanitise, 3, 512, .wrl), (vbSanitise, 4, 512, .rd256), (vbCopy, 0, 512, .rd256),
      (vbSum, 0, 512, .rd256), (vbClear, 0, 512, .rd256), (vbScan, 0, 512, .rd256), (vbTest, 0, 512, .wrl), (vbTest, 1, 512, .rd256)],
    let l := { jobOk e.1 with stage := e.2.1, checked := [0] }
    let b := tnd0 l
    l.line = [] ∧ l.todo = [] ∧ l.pos < jLen l.job ∧ b.edt.held = [] ∧ (∀ x ∈ b.tnd.lanes, x.2.lock = none)
    ∧ b.lanePath 0 l.pos false e.2.2.2 = .go (sent0 e.1 512 e.2.2.2) ∧ b.sliceFenced (b.reqSlice (sent0 e.1 512 e.2.2.2)) = false := by
  decide +kernel
theorem meets_Verbs_write :
    (tnd0 { jobOk 3 with line := lineOf 0 }).lanePath 0 256 true .wrl = .go (sent0 3 4352 .wrl)
    ∧ (tnd0 { jobOk 7 with todo := [2] }).lanePath 0 (256 + 128) false .wr64 = .go (sent0 7 640 .wr64) := by decide +kernel
theorem meets_Marking : ∀ v ∈ [vbSanitise, vbMove],
    let l := { jobOk v with pos := 0 }
    let b := tnd0 l
    let a := if v = vbMove then 0 else 256
    (b.newId.2.tndWay (tndReq 0 b.nextId a .rd64)).2 = .go (tndReq 0 b.nextId a .rd64) (some 65537) ∧ b.claimed 0 0 = false ∧ l.claims = []
    ∧ dState 65537 = xsNormal ∧ l.stage = 0 ∧ (v = vbSanitise → l.chunk < (b.jExtents l.job).2 ∧ (b.jExtents l.job).1 = 0
      ∧ max (jSrc l.job) 0 = 256) ∧ (v = vbMove → b.frameOk (jFrame (jDst l.job)) = true ∧ l.chunk < b.chunks) := by decide +kernel
theorem foldl_same {α β : Type} (f : α → β → α) (m : α) (l : List β) (h : ∀ i ∈ l, f m i = m) : l.foldl f m = m := by
  induction l with
  | nil => rfl
  | cons x t ih => simp only [List.foldl_cons, h x (by simp), ih (fun i hi => h i (by simp [hi]))]
theorem meets_MoveLock (r : Route) : (tnd0 { jobOk 4 with stage := 1 }).tndHeld r = false := by
  have h : ∀ i ∈ List.range 64, (tnd0 { jobOk 4 with stage := 1 }).lightActive i = false := by decide +kernel
  simp only [Block.tndHeld, Bool.or_eq_false_iff]
  refine ⟨⟨?_, rfl⟩, by decide +kernel⟩
  rw [Block.quietKinds, foldl_same]
  · rw [ite_self]; rfl
  · intro i hi
    rw [h i hi]; rfl
theorem meets_MoveUpdate : (tnd0 default).chunks ≤ 2 ^ 30 ∧ 0 < (tnd0 default).chunks := by decide +kernel
/-- A lane that holds chunk 3 locked. -/
def locked0 (tries code : Nat) (upd : Bool) : Block :=
  tnd0 { jobOk 4 with stage := if upd then 5 else 4, phase := if upd then .updated else .go, lock := some 9, chunk := 3, tries := tries, code := code }
theorem meets_Chunk : ∀ t ∈ [0, 2], (locked0 t 0 false).edt.held = [] ∧ ((locked0 t 0 false).tlane 0).lock = some 9
    ∧ ((locked0 t 0 false).tlane 0).stage = 4 ∧ (locked0 t 0 false).rd TND_CFG_RETRY = 2 := by decide +kernel
theorem meets_ChunkUnlock : ∀ c ∈ [0, 11], (locked0 0 c true).edt.held = [] ∧ ((locked0 0 c true).tlane 0).lock = some 9
    ∧ ((locked0 0 c true).tlane 0).stage = 5 ∧ ((locked0 0 c true).tlane 0).phase = .updated := by decide +kernel
/-- Answers to lane 0's request 4. -/
def ret0 (v : Nat) (ph : LanePh) (op : ReqOp) (sts : List Nat) : Block := { tnd0 { jobOk v with phase := ph, req := some 4 } with
  intern := (List.range sts.length).map (fun k =>
    { (default : Intern) with req := tndReq 0 4 512 op, sec := k, status := sts.getD k 0, data := 5 }) }
theorem meets_Return_job : ∀ st ∈ [stOK, stUE], ((ret0 1 .fetching .rd64 [st]).tndAnswers 4).length = 1
    ∧ ((ret0 1 .fetching .rd64 [st]).tlane 0).phase = .fetching := by decide +kernel
theorem meets_Return_write : ∀ v ∈ [vbZero, vbCopy], let xs := (ret0 v .write .wrl [0, 0, 0, 0]).tndAnswers 4
    xs.length = 4 ∧ (∀ x ∈ xs, statusHasData x.status = true) := by decide +kernel
theorem meets_Return_read : ∀ st ∈ [stUE, stFenced], let xs := (ret0 8 .read .rd256 [0, stPoison, st, 0]).tndAnswers 4
    xs.length = 4 ∧ ((∀ x ∈ lineAnswers xs, x.2.1 ≠ stFenced) ∨ st = stFenced ∧ ∃ x ∈ lineAnswers xs, x.2.1 = stFenced) := by
  decide +kernel


theorem meets_Snapshot_command : (stOf open0).grants .maker CTR_SNAP_GO.off
    (withField (withField (0 : Word) CTR_SNAP_GROUPS 0x1003) CTR_SNAP_GO 1) := grants_of (by decide +kernel)
/-- Counters 0 and 1 have counted; a snapshot of groups 0 and 12 has come; `copy` runs. -/
def ctr0 (copy : Option Snap) : Block := { open0 with
  ctr := { (default : CtrSt) with live := [(0, 7), (1, 9)], slots := [(2, 4)], sched := [⟨0x1001, 0, true⟩], copy := copy, latch := [(0, 3)] }
  work := fldSet [] (CTR_CFG_CLEAR_AT_SNAP 1) 1, regs := fldSet [] (CTR_CFG_CLEAR_AT_SNAP 1) 1 }
theorem meets_Snapshot : takeFirst (fun (x : Snap) => decide (timeSince (ctr0 none).now x.instant < 2 ^ 63)) (ctr0 none).ctr.sched
      = some (⟨0x1001, 0, true⟩, []) ∧ (ctr0 none).ctr.copy = none
    ∧ bitOf 0x1001 (ctrGroup 0) = true ∧ bitOf 0x1001 (ctrGroup 1) = true ∧ bitOf 0x1001 12 = true ∧ bitOf 0x1001 (ctrGroup 500) = false
    ∧ (ctr0 none).wk (CTR_CFG_CLEAR_AT_SNAP 1) ≠ 0 ∧ (ctr0 none).wk (CTR_CFG_CLEAR_AT_SNAP 0) = 0
    ∧ (ctr0 none).regs = (ctr0 none).work := by decide +kernel
theorem meets_Snapshot_dropped_command : ∃ x ∈ ([⟨1, 0, true⟩] : List Snap), x.instant = 0 ∧ x.cmd = true := by decide
theorem meets_Snapshot_joins : (ctr0 (some ⟨1, 0, false⟩)).ctr.copy = some ⟨1, 0, false⟩ := by decide +kernel
theorem meets_Snapshot_copy : (ctr0 (some ⟨1, 5, false⟩)).ctr.copy = some ⟨1, 5, false⟩ ∧ (5 : Nat) ≠ 0 := by decide +kernel
theorem meets_CounterClear (clash : Bool) : (stOf (ctr0 none)).grants .maker CTR_CLEAR_GO.off
    (withField (withField (0 : Word) CTR_CLEAR_INDEX (if clash then 0 else 600)) CTR_CLEAR_GO 1) := by
  cases clash <;> exact grants_of (by decide +kernel)
theorem meets_CounterClear_top :
    let b := { ctr0 none with ctr := { (default : CtrSt) with live := [(0, 2 ^ 48 - 1)] } }
    b.ctrExceeds ((b.ctrPair 0).headD 0) 1 = true := by decide +kernel
theorem meets_LiveRead : Role.maker ≠ .none ∧ (ctr0 none).mgOpen = true ∧ (ctr0 none).mg.held = [] := by decide +kernel


/-- READY, with the descriptors in DRAM and the modules' power good; `l` is written besides. -/
def pwr0 (l : List (Fld × Nat)) : Block := setAll open0 ([(HBR_STATUS_STATE, 2), (EDT_CFG_LOC, 0)] ++ l)
/-- The word of a power request. -/
def pwrWord (chans st : Nat) : Word := withField (withField (withField (0 : Word) PWR_CMD_CHANNELS chans) PWR_CMD_STATE st) PWR_CMD_GO 1
/-- The three blocks in which power requests arrive: idle, one that runs, and after a trip. -/
def pwrAsked : List Block := [pwr0 [], pwr0 [(PWR_CMD_STATUS_BUSY, 1)], pwr0 [(THM_STATUS_TRIP, 1)]]
theorem meets_PowerRequest : ∀ b ∈ pwrAsked, ∀ st ∈ List.range 5, (stOf b).grants .maker PWR_CMD_GO.off (pwrWord 1 st) := by
  have h : ∀ b ∈ pwrAsked, ∀ st ∈ List.range 5, ((stOf b).block.mgOpen && (stOf b).block.mg.held.isEmpty
      && judged (stOf b) .maker PWR_CMD_GO.off (pwrWord 1 st) && (stOf b).block.recRoom 1) = true := by decide +kernel
  exact fun b hb st hs => grants_of (h b hb st hs)
theorem meets_PowerRequest_codes : ∀ st ∈ List.range 5, (pwr0 []).rd PWR_CMD_STATUS_BUSY = 0 ∧ (pwr0 []).pwrCode st 1 = 0
    ∧ (pwr0 [(PWR_CMD_STATUS_BUSY, 1)]).rd PWR_CMD_STATUS_BUSY ≠ 0 ∧ (pwr0 [(THM_STATUS_TRIP, 1)]).pwrCode st 1 ≠ 0 := by decide +kernel
theorem meets_PowerRequest_deeper :
    (pwrNamed 2 1).filter (fun n => decide ((pwr0 []).chState n < 2)) = [0]
    ∧ (pwrNamed 2 1).filter (fun n => decide ((pwr0 [(PWR_CH_STATUS_STATE 0, 3)]).chState n < 2)) = []
    ∧ (pwr0 [(PWR_CH_STATUS_STATE 0, 3)]).pwrCode 2 1 = 0
    ∧ (stOf (pwr0 [(PWR_CH_STATUS_STATE 0, 3)])).grants .maker PWR_CMD_GO.off (pwrWord 1 2)
    ∧ (pwr0 []).rd SCB_STATUS_BUSY = 0 ∧ (pwr0 []).imBusy = false :=
  ⟨by decide +kernel, by decide +kernel, by decide +kernel, grants_of (by decide +kernel), by decide +kernel, by decide +kernel⟩
theorem meets_PowerRequest_wake : ∀ st ∈ [1, 2, 3], (pwr0 [(PWR_CH_STATUS_STATE 0, st)]).pwrCode 0 1 = 0
    ∧ judged (stOf (pwr0 [(PWR_CH_STATUS_STATE 0, st)])) .maker PWR_CMD_GO.off (pwrWord 1 0) = true := by decide +kernel
/-- A request of light 5, or of PWR_CMD, drains. -/
def drain0 (light : Bool) (st : Nat) (l : List (Fld × Nat)) : Block := { pwr0 l with
  pwr := { (default : PwrSt) with drains := [⟨if light then some 5 else none, st, 1, false⟩] } }
theorem meets_Drain (light : Bool) : ∀ st ∈ [1, 2, 3, 4],
    let b := drain0 light st ((List.range 16).map (fun c => (CCH_STATUS_STATE c, 2)))
    b.pwr.drains = [⟨if light then some 5 else none, st, 1, false⟩] ∧ b.pwrReady ⟨if light then some 5 else none, st, 1, false⟩ = true
    ∧ b.rd PWR_STATUS_BLOCK = 0 ∧ b.pwr.inS3 = false ∧ (∀ c : Fin 16, b.sliceState c ≠ 0)
    ∧ (∀ m : Fin 32, (b.mod.ledger.get m).presence ≠ 1) ∧ b.rd SCB_STATUS_BUSY = 0 ∧ bitOf 1 0 = true ∧ b.chState 0 < st := by
  cases light <;> decide +kernel
theorem meets_Drain_busy : (drain0 true 2 [(PHY_LOOP_STATUS_BUSY 0, 1)]).pwrReady ⟨some 5, 2, 1, false⟩ = false := by decide +kernel
/-- Automatic entries are allowed. -/
def idle0 (st : Nat) (auto : Nat) : Block := pwr0 ([(PWR_CTL_AUTO_A1, auto), (PWR_CTL_AUTO_S1, auto), (PWR_CTL_AUTO_S2, auto),
  (PWR_CTL_AUTO_S3, auto)] ++ (List.range 16).flatMap (fun c => [(CCH_STATUS_STATE c, 2), (PWR_CH_STATUS_STATE c, st)]))
theorem meets_Idle : ∀ st ∈ [pwA0, pwA1, pwS1, pwS2], ∀ auto ∈ [0, 1],
    let b := idle0 st auto
    b.running = true ∧ b.pwr.target.get 0 = none ∧ b.rplState 0 = rpInService ∧ b.chWork 0 = false ∧ b.chState 0 = st
    ∧ b.harbour = false ∧ b.on PWR_CTL_AUTO_A1 = (auto == 1) ∧ b.on PWR_CTL_AUTO_S3 = (auto == 1) ∧ b.on PWR_CTL_AUTO_S1 = (auto == 1)
    ∧ b.on PWR_CTL_AUTO_S2 = (auto == 1) := by decide +kernel
theorem meets_Idle_work : (pwr0 [(PHY_LOOP_STATUS_BUSY 0, 1)]).chWork 0 = true ∧ (pwr0 [(PHY_LOOP_STATUS_BUSY 0, 1)]).blockWork true = true
    ∧ (pwr0 [(PHY_LOOP_STATUS_BUSY 0, 1)]).running = true := by decide +kernel
theorem meets_BlockIdle : (idle0 pwS2 1).blockWork true = false ∧ (idle0 pwS2 1).pwrCode 4 0 = 0
    ∧ (∀ n : Fin 16, (idle0 pwS2 1).chState n = pwS2 ∧ (idle0 pwS2 1).pwr.target.get n = none ∧ (idle0 pwS2 1).sliceState n ≠ 0)
    ∧ (∀ m : Fin 32, ((idle0 pwS2 1).mod.ledger.get m).presence ≠ 1) ∧ (idle0 pwS2 1).rd SCB_STATUS_BUSY = 0 := by decide +kernel
/-- Channel 0 in state `st` on its way to `t`, with a wake latched or not. -/
def move0 (st t : Nat) (wake bad : Bool) : Block := { pwr0 [(PWR_CH_STATUS_STATE 0, st), (PWR_CH_STATUS_MOVING 0, 1)] with
  pwr := { (default : PwrSt) with target := [(0, some t)], chWake := if wake then [(0, true)] else [], chBad := bad.toNat, chLow := bad.toNat } }
theorem meets_Entry : ∀ t ∈ [pwA1, pwS1, pwS2, pwA0], ∀ wake ∈ [true, false], ∀ bad ∈ [true, false],
    let b := move0 0 t wake bad
    b.pwr.target.get 0 = some t ∧ b.pwr.chWake.get 0 = wake ∧ b.pwr.drains = [] ∧ bitOf b.pwr.chBad 0 = bad
    ∧ b.pwr.target.get 1 = none := by decide +kernel
theorem meets_Exit : ∀ st ∈ [pwA1, pwS1, pwS2], (move0 st 0 false true).chState 0 = st ∧ (move0 st 0 false true).rd PWR_STATUS_BLOCK ≠ 2 ∧ (move0 st 0 false true).mg.held = []
    ∧ (∀ i ∈ [0, 1], (move0 st 0 false true).subFenced i = false) := by decide +kernel
/-- On the way into S3, with a wake latched or not; channel 3 is OFF. -/
def deep0 (wake : Bool) : Block := { pwr0 [(PWR_STATUS_BLOCK, 1), (PWR_CH_STATUS_STATE 3, 5)] with pwr := { (default : PwrSt) with blkWake := wake } }
theorem meets_S3 (wake : Bool) : (deep0 wake).s3May = true ∧ (deep0 wake).pwr.blkWake = wake ∧ (deep0 wake).chState 3 = pwOFF
    ∧ (deep0 wake).chState 0 ≠ pwOFF ∧ (pwr0 []).s3May = false := by cases wake <;> decide +kernel
/-- On the way out of S3. -/
def deep1 : Block := { pwr0 [(PWR_STATUS_BLOCK, 2), (PWR_CH_STATUS_STATE 0, 3), (TIM_STATUS_STATE, 2)] with
  pwr := { (default : PwrSt) with inS3 := true } }
theorem meets_S3_exit : deep1.mg.held = [] ∧ deep1.rd PWR_STATUS_BLOCK = 2 ∧ deep1.pwr.coreBad = false ∧ deep1.pwr.cgBad = 0 ∧ deep1.pwr.chBad = 0
    ∧ deep1.rd TIM_STATUS_STATE ≠ timAcquire := by decide +kernel
/-- The block with wake sources `en`, in BLOCK `blk`, and in S3 or not. -/
def wake0 (en blk : Nat) (inS3 : Bool) : Block := { pwr0 [(PWR_WAKE_EN, en), (PWR_STATUS_BLOCK, blk)] with
  pwr := { (default : PwrSt) with inS3 := inS3 } }
theorem meets_Wake : ∀ k ∈ [0, 1], (wake0 0 0 true).bit PWR_WAKE_EN k = false ∧ (wake0 3 0 true).bit PWR_WAKE_EN k = true
    ∧ (wake0 3 1 true).rd PWR_STATUS_BLOCK = 1 ∧ (wake0 3 0 true).pwr.inS3 = true ∧ (wake0 3 0 true).on THM_STATUS_TRIP = false
    ∧ (wake0 3 0 false).pwr.inS3 = false ∧ (wake0 3 0 false).rd PWR_STATUS_BLOCK = 0 := by decide +kernel


/-- A THERMAL_POWER section whose readings are plausible from 0 to 100 °C. -/
def thermal1 : List Byte := (List.range 128).map (fun i => if i = 0x12 then 0x90 else if i = 0x13 then 1 else if i = 0x0D then 8 else 0)
/-- READY with that section; the site readings of a round. -/
def thm0 (l : List (Fld × Nat)) : Block := { pwr0 l with img := { (default : ImageSt) with secs := [(secKey tyThermal 0, thermal1)] } }
def round0 : Vector (Option (BitVec 16)) 24 := Vector.ofFn (fun i => if i = 3 then none else some 100)
theorem meets_Round : (thm0 []).phy.trainQ = [] ∧ (thm0 []).phy.train = [] ∧ (thm0 []).pwr.inS3 = false ∧ (thm0 []).pwr.dead = false
    ∧ (thm0 []).on THM_STATUS_TRIP = false ∧ (thm0 []).hasSec tyThermal 0 = true ∧ round0[3] = none ∧ round0[0] = some 100
    ∧ (thm0 []).siteBroken 3 = false ∧ (thm0 []).siteBroken 0 = false ∧ (thm0 []).plausible (100#16).toInt = true
    ∧ ((thm0 []).thm.hist.get 0).length < (thm0 []).thmByte 0x0D ∧ (thm0 []).chState 0 = pwA0
    ∧ (thm0 [(THM_STATUS_TRIP, 1)]).on THM_STATUS_TRIP = true := by decide +kernel
theorem meets_Trip_refused : (thm0 [(THM_SITE_BROKEN 2, 1)]).siteBroken 2 = true ∧ (thm0 [(THM_SITE_BROKEN 2, 1)]).phy.trainQ = [] := by
  decide +kernel
/-- Power inputs low or requests lowered for channel 0, cache group 0 and the core. -/
def dom0 (low bad : Bool) : Block := { thm0 [(PWR_STATUS_BLOCK, if bad then 2 else 0)] with
  pwr := { (default : PwrSt) with chLow := low.toNat, chBad := bad.toNat, cgBad := bad.toNat, coreLow := low, modLow := low.toNat } }
theorem meets_Domains (low bad : Bool) : bitOf (dom0 low bad).pwr.chLow 0 = low ∧ bitOf (dom0 low bad).pwr.chBad 0 = bad
    ∧ bitOf (dom0 low bad).pwr.cgBad 0 = bad ∧ (dom0 low bad).pwr.coreLow = low ∧ (dom0 low bad).mod.phase.get 0 = 0
    ∧ bitOf (dom0 low bad).pwr.cgLow 0 = false ∧ (dom0 low bad).pwr.coreBad = false ∧ bitOf (dom0 low bad).pwr.modLow 0 = low
    ∧ bitOf (dom0 low bad).pwr.modBad 0 = false ∧ ((dom0 low bad).rd PWR_STATUS_BLOCK = 2 ∨ bad = false)
    ∧ (dom0 low bad).phy.trainQ = [] ∧ (dom0 low bad).phy.train = [] := by cases low <;> cases bad <;> decide +kernel
/-- A bias record waits for the acknowledgement, or none. -/
def bias0 (waits : Bool) : Block := { thm0 [] with pwr := { (default : PwrSt) with biasNext := if waits then some ⟨1, 1, 1, 760⟩ else none } }
theorem meets_Sram (waits : Bool) : (bias0 waits).pwr.biasNext = (if waits then some ⟨1, 1, 1, 760⟩ else none)
    ∧ (bias0 waits).phy.trainQ = [] ∧ (bias0 waits).phy.train = [] := by cases waits <;> decide +kernel


/-- A start record with a COUNTER, as stored in copy A. -/
def rec0 (counter : Nat) : List Byte := withCrc 256 (recSet (padTo 252 (leBytes 4 startMagic)) counter 0)
/-- The block before step 1, whose NVM holds that record. -/
def cold0 (counter : Nat) : Block := { (default : Block) with nvm := memPut [] (startOff 0) (rec0 counter) }
theorem meets_StartSequence : (cold0 2).start.open_ = false ∧ (cold0 2).start.maker = false ∧ (cold0 2).pwr.dead = false ∧ (cold0 2).mg.held = []
    ∧ (cold0 2).stores = [] ∧ recCounter (rec0 2) < 3 ∧ 3 ≤ recCounter (rec0 3) ∧ bitOf (recFlags (rec0 3)) 0 = false := by decide +kernel
theorem meets_Start_record2 : (cold0 2).newerCopy startMagic (startOff 0) (startOff 1) 256 = some (0, rec0 2) := by decide +kernel
theorem meets_Start_record3 : (cold0 3).newerCopy startMagic (startOff 0) (startOff 1) 256 = some (0, rec0 3) := by decide +kernel
theorem meets_Start_twice : open0.start.open_ = true := rfl
/-- The store of the start record runs. -/
def start0 (step state : Nat) : Block := { setAll open0 [(HBR_STATUS_STEP, step), (HBR_STATUS_STATE, state), (NVM_STATUS_SELFTEST_OK, 1),
    (NVM_STATUS_BUSY, 1), (HBR_CTL_INT_READY, 1)] with
  stores := [⟨startKey, startOff 1, [1, 2, 3]⟩], start := { open0.start with store := some 1 } }
theorem meets_RecordStored : (start0 3 1).stores = [⟨startKey, startOff 1, [1, 2, 3]⟩] ∧ (start0 3 1).start.store = some 1
    ∧ open0.storing startKey = false := by decide +kernel
/-- In state `state` of a start, with a sound NVM. -/
def run0 (state held : Nat) : Block := setAll open0 [(HBR_STATUS_STEP, 7), (HBR_STATUS_STATE, state), (HBR_STATUS_HELD, held),
  (NVM_STATUS_SELFTEST_OK, 1), (HBR_CTL_INT_READY, 1), (HBR_REASON_ENTRY, 1)]
theorem meets_Ready : (run0 1 0).rd HBR_STATUS_STATE = 1 ∧ (run0 1 0).rd HBR_STATUS_STEP = 7 ∧ (run0 1 0).rd HBR_CTL_INT_READY = 1
    ∧ (run0 1 0).start.open_ = true ∧ (run0 2 0).rd HBR_STATUS_STATE = 2 ∧ (run0 2 0).rd HBR_STATUS_HELD = 0
    ∧ (run0 2 0).pwr.inS3 = false ∧ (run0 2 0).stores = [] ∧ (run0 2 0).rd NVM_STATUS_SELFTEST_OK = 1
    ∧ (run0 2 1).rd HBR_STATUS_HELD = 1 := by decide +kernel
theorem meets_HarbourClear : (stOf (run0 4 0)).grants .maker HBR_CTL_CLEAR.off (withField 0 HBR_CTL_CLEAR 1)
    ∧ (run0 4 0).stores = [] ∧ (run0 4 0).rd NVM_STATUS_SELFTEST_OK = 1 := ⟨grants_of (by decide +kernel), by decide +kernel⟩


/-- Two fault messages wait, and `d` were dropped. -/
def msg0 (d : Nat) : Block := { open0 with flt := { (default : FaultSt) with msgs := [⟨1, 0, 0, 1, 0, 0⟩, ⟨2, 0, 0, 1, 0, 0⟩], dropped := d } }
theorem meets_Messages : (msg0 0).phy.trainQ = [] ∧ (msg0 0).phy.train = [] ∧ (msg0 0).flt.msgs = [⟨1, 0, 0, 1, 0, 0⟩, ⟨2, 0, 0, 1, 0, 0⟩]
    ∧ (msg0 0).flt.dropped = 0 ∧ (msg0 3).flt.dropped ≠ 0 ∧ open0.flt.msgs = [] := by decide +kernel
/-- Fences of the first unit of each kind, with their inputs, on a trained subchannel 0. -/
def fen0 (fenced input : Nat) : Block := setAll open0 [(FLT_FENCE_SUB_U, fenced), (FLT_FENCE_SLICE_U, fenced), (FLT_FENCE_PORT_U, fenced),
  (FLT_FENCE_IN_SUB_U, input), (FLT_FENCE_IN_SLICE_U, input), (FLT_FENCE_IN_PORT_U, input), (PHY_STATUS_TRAINED 0, 1), (CCH_STATUS_STATE 0, 2)]
theorem meets_FenceInput : (fen0 1 0).phy.trainQ = [] ∧ (fen0 1 0).phy.train = [] ∧ (fen0 1 0).bit (fenceUnitOf (.port 0)).1.reg 0 = true := by
  decide +kernel
theorem meets_FenceSet : (fen0 0 0).recRoom 16 = true
    ∧ (stOf (fen0 0 0)).grants .maker FLT_FENCE_SET_PORT_U.off ((3 : BitVec 6).setWidth 32)
    ∧ (stOf (fen0 0 0)).grants .maker FLT_FENCE_SET_SLICE_U.off ((3 : BitVec 16).setWidth 32)
    ∧ (stOf (fen0 0 0)).grants .maker FLT_FENCE_SET_SUB_U.off 3 :=
  ⟨by decide +kernel, grants_of (by decide +kernel), grants_of (by decide +kernel), grants_of (by decide +kernel)⟩
theorem meets_FenceSet_lockstep : lock0.chLockstep 0 = true ∧ lock0.recRoom 16 = true ∧ (stOf lock0).grants .maker FLT_FENCE_SET_SUB_U.off 1 :=
  ⟨by decide +kernel, by decide +kernel, grants_of (by decide +kernel)⟩
theorem meets_FenceClear (input : Fin 2) : ((fen0 1 input).recRoom 16 = true ∧ (fen0 1 input).chLockstep 0 = false
    ∧ (fen0 1 input).bit FLT_FENCE_IN_SUB_U 0 = (input == 1) ∧ (fen0 1 input).bit FLT_FENCE_IN_SLICE_U 0 = (input == 1)
    ∧ (fen0 1 input).bit FLT_FENCE_IN_PORT_U 0 = (input == 1) ∧ (fen0 1 input).rd (PHY_STATUS_TRAINED 0) = 1
    ∧ (fen0 1 input).rplState 0 = rpInService ∧ bitOf (fen0 1 input).pwr.modBad 0 = false ∧ ((fen0 1 input).subs.get 0).noSet = false
    ∧ ((fen0 1 input).subs.get 0).selfRef = [] ∧ (fen0 1 input).subFenced 0 = true ∧ (fen0 1 input).sliceFenced 0 = true
    ∧ (fen0 1 input).sliceState 0 = 2)
    ∧ (stOf (fen0 1 input)).grants .maker FLT_FENCE_CLR_PORT_U.off ((3 : BitVec 6).setWidth 32)
    ∧ (stOf (fen0 1 input)).grants .maker FLT_FENCE_CLR_SLICE_U.off ((BitVec.ofNat 16 (2 ^ 0)).setWidth 32)
    ∧ (stOf (fen0 1 input)).grants .maker FLT_FENCE_CLR_SUB_U.off (BitVec.ofNat 32 (2 ^ 0)) := by
  refine ⟨?_, ?_⟩
  · revert input
    decide +kernel
  · match input with
    | 0 | 1 => refine ⟨?_, ?_, ?_⟩ <;> exact grants_of (by decide +kernel)
/-- A halted subchannel: its record's condition holds. -/
def live0 : Block := { open0.wr (CLS_STATUS_HALTED 3) 1 with
  flt := { (default : FaultSt) with recs := [(48, { (default : FltRec) with valid := true, count := 4 }), (49, { (default : FltRec) with valid := true })] } }
theorem meets_RecordClear (i : Fin 3) : (stOf live0).grants .maker FLT_REC_CLR_GO.off
    (withField (withField (0 : Word) FLT_REC_CLR_INDEX (i * 48)) FLT_REC_CLR_GO 1) := by
  match i with
  | 0 => exact grants_of (by decide +kernel)
  | 1 => exact grants_of (by decide +kernel)
  | 2 => exact grants_of (by decide +kernel)
theorem meets_RecordClearAll : (stOf live0).grants .maker FLT_REC_CLR_GO.off
    (withField (withField (withField (0 : Word) FLT_REC_CLR_INDEX 7) FLT_REC_CLR_GO 1) FLT_REC_CLR_ALL 1) := grants_of (by decide +kernel)
theorem meets_RecordClear_live : live0.live 48 = true ∧ live0.live 49 = false := by decide +kernel


/-- The audit path with one record queued, NEXT at `i`, and a clear in progress or not. -/
def aud0 (i : Nat) (busy : Bool) : Block := { setAll open0 [(AUD_STATUS_NEXT, i), (AUD_WRAPS_WRAPS, 65535), (AUD_STATUS_BUSY, busy.toNat),
    (NVM_STATUS_SELFTEST_OK, 1)] with
  mg := { (default : MgmtSt) with audQ := [{ time := 5, kind := 2, role := 0, outcome := 0, offset := 0, old := 0, new := 0 }]
                                  latch := if busy then [(87, some { time := 0, kind := 4, role := 0, outcome := 0, offset := 0, old := 0, new := 0 })] else [] } }
theorem meets_AuditStore : ∀ i ∈ [7, 4095], (aud0 i false).mg.held = [] ∧ (aud0 i false).on AUD_STATUS_BUSY = false
    ∧ (aud0 i false).mg.audQ = [{ time := 5, kind := 2, role := 0, outcome := 0, offset := 0, old := 0, new := 0 }] ∧ (aud0 i false).mg.latch = []
    ∧ (aud0 i false).rd AUD_STATUS_NEXT = i ∧ (aud0 i true).on AUD_STATUS_BUSY = true := by decide +kernel
theorem meets_AuditClear (busy : Bool) : (stOf (aud0 7 busy)).grants .maker AUD_CTL_CLEAR.off (withField 0 AUD_CTL_CLEAR 1)
    ∧ (aud0 7 busy).rd AUD_STATUS_BUSY = busy.toNat := by
  cases busy <;> exact ⟨grants_of (by decide +kernel), by decide +kernel⟩
theorem meets_AuditClearDone : (aud0 7 true).mg.latch.get audClearLatch = some { time := 0, kind := 4, role := 0, outcome := 0, offset := 0, old := 0, new := 0 }
    ∧ (aud0 7 false).mg.latch.get audClearLatch = none := by decide +kernel
theorem meets_Trims : ∀ we ∈ [0, 1], let b := (aud0 7 false).wr NVM_CTL_TRIM_WE we
    b.mgOpen = true ∧ b.mg.held = [] ∧ b.recRoom 1 = true ∧ b.rd NVM_CTL_TRIM_WE = we ∧ b.rd NVM_STATUS_SELFTEST_OK = 1 := by decide +kernel


/-! ## Ill-formed commands are refused by the check -/

theorem test_wf_refused_read : (Instr.refusedRead .operator 5).wf = false ∧ (Instr.refusedRead .operator 0x140000).wf = true
    ∧ (Instr.refusedRead .none 5).wf = true := by decide +kernel
theorem test_wf_read_clear : (Instr.readClear .maker 0).wf = false
    ∧ (Instr.readClear .maker (BitVec.ofNat 21 ((LGT_STATUS_REMAIN 0).off / 4))).wf = true := by decide +kernel
theorem test_wf_poll : (Instr.sentencePoll 0 (List.replicate 21 0)).wf = false ∧ (Instr.sentencePoll 0 (List.replicate 20 0)).wf = true := by
  decide +kernel
theorem test_wf_window : (Instr.receiveWindowDone 0 0 (2 ^ 25) 0 0 0 0 0 0 0).wf = false
    ∧ (Instr.receiveWindowDone 0 0 0 0 0 (2 ^ 25) 0 0 0 0).wf = false ∧ (Instr.receiveWindowDone 0 0 0 0 0 0 0 0 0 0).wf = true := by
  decide +kernel
theorem test_wf_oscillator : (Instr.oscillatorResult 0 [(80, 1)]).wf = false ∧ (Instr.oscillatorResult 0 [(1, 2 ^ 16)]).wf = false
    ∧ (Instr.oscillatorResult 0 [(79, 2 ^ 16 - 1)]).wf = true := by decide +kernel
/-- A measurement with nothing in it. -/
def meas0 : TrainMeas := default
theorem test_wf_measurement : meas0.wf = true ∧ ({ meas0 with lanes := [(64, [])] }).wf = false
    ∧ ({ meas0 with again := [(0, [(3, 0), (3, 0)])] }).wf = false ∧ ({ meas0 with duty := [(64, 0)] }).wf = false
    ∧ ({ meas0 with eq := { (default : EqMeas) with taps := [(40, [])] } }).wf = false
    ∧ ({ meas0 with eq := { (default : EqMeas) with loose := [40] } }).wf = false
    ∧ ({ meas0 with eqAgain := { (default : EqMeas) with presets := [(40, [])] } }).wf = false ∧ ({ meas0 with errors := [40] }).wf = false
    ∧ ({ meas0 with osc := [(80, 0)] }).wf = false ∧ ({ meas0 with osc := [(0, 65536)] }).wf = false := by decide +kernel

/-! ## Words of the manual's examples and of the catalogue -/

/-- The check values of the catalogued CRCs over the nine digits (R63, R111). -/
theorem test_crc : crc32 [0x31, 0x32, 0x33, 0x34, 0x35, 0x36, 0x37, 0x38, 0x39] = 0xCBF43926
    ∧ crc64 [0x31, 0x32, 0x33, 0x34, 0x35, 0x36, 0x37, 0x38, 0x39] = 0x995DC9BBDF1939FA
    ∧ crc16 [0x31, 0x32, 0x33, 0x34, 0x35, 0x36, 0x37, 0x38, 0x39] = 0x29B1 := by decide +kernel
/-- Set 0 of the example of chapter 4, from the layout of R98 and R99. -/
def ivs0 : List Byte :=
  ([0x23, 0x01, 0, 0, 0, 0, 0, 0] ++ [0, 0, 0, 0, 0, 0, 0, 0] ++ [0, 0, 0, 0, 0, 1, 0, 0])
    ++ ([0, 1, 2, 3, 4, 5, 6, 7] ++ List.replicate 8 0xFF)
    ++ ([10, 36, 0x3F, 0x3F, 11, 12, 13, 14, 15] ++ [6, 7, 8, 9, 16, 17, 18])
    ++ ([19, 20, 21, 22, 23, 24, 25, 26, 27, 28] ++ [29, 30, 31, 32, 33, 34, 35, 0x3F] ++ [0, 0, 0, 0, 0, 0])
/-- A block whose image holds that set. -/
def ivsB : Block := { open0 with img := { (default : Block).img with secs := [(secKey tyInterleave 0, ivs0)] } }
/-- The first example of chapter 4: CH03.B, rank 1, bank group 4, bank 0, row 1,328, column 0x090. -/
theorem test_decode_example : ivs0.length = 0x50 ∧ ivsB.mapSpa 0 0x814C013E40 = ⟨0, 3, 0x1029802640⟩
    ∧ ivsB.routeSub ⟨0, 3, 0x1029802640⟩ = 7
    ∧ ivsB.routeCoord ⟨0, 3, 0x1029802640⟩ = { rank := 1, bg := 4, bank := 0, row := 1328, col := 0x90 } := by decide +kernel
/-- The light list of the example of chapter 2, with its commit 50,000 ns after START. -/
def lateCommit : Block :=
  let ent (b : Tab Nat) (i verb target period phase on : Nat) : Tab Nat :=
    [(LGT_START_LO_START i, 1000000000000 % 2 ^ 32), (LGT_START_HI_START i, 1000000000000 / 2 ^ 32), (LGT_PERIOD_PERIOD i, period),
     (LGT_PHASE_PHASE i, phase), (LGT_ON_ON i, on), (LGT_CTL_ENABLE i, 1), (LGT_CTL_VERB i, verb), (LGT_TARGET_TARGET i, target)].foldl
      (fun t e => fldSet t e.1 e.2) b
  { (tim0 timTracking 1000000050000).wr LGT_COMMIT_STATUS_BUSY 1 with
    lgtRun := true, lgtSnap := ent (ent (ent [] 0 1 0x55555555 975 0 150) 1 1 0xAAAAAAAA 975 487 150) 2 5 0 625 0 0 }
/-- SKIP of the three entries, and the instants at which they fire first. -/
theorem test_late_commit : nextHas (exec .lightCommitDone (stOf lateCommit)) (fun t => let b := t.block
    decide (b.rd (LGT_STATUS_SKIP 0) = 4 ∧ b.rd (LGT_STATUS_SKIP 1) = 3 ∧ b.rd (LGT_STATUS_SKIP 2) = 5
      ∧ (b.lightW 0).instant (b.lights.get 0).next = 1000000062400 ∧ (b.lightW 1).instant (b.lights.get 1).next = 1000000054592
      ∧ (b.lightW 2).instant (b.lights.get 2).next = 1000000050000)) = true := by decide +kernel
/-- The ring of the example of chapter 20: a change of REGU_GT_GUAR[3] by the operator, O_AUDIT with every group. -/
def audEx : Block := { setAll open0 [(REGU_GT_GUAR_GUAR 3, 30000), (NVM_STATUS_SELFTEST_OK, 1)] with
  time := { (default : TimeSt) with ns := 2000000000 } }
theorem test_audit_change : nextHas (exec (.registerWrite .operator 0x8419 25000) (stOf audEx)) (fun t =>
    decide (t.block.mg.err = false ∧ t.block.mg.audQ = [{ time := 2000000000, kind := 0, role := 1, outcome := 0, offset := 0x21064
                                                          old := 0x7530, new := 0x61A8 }])) = true := by decide +kernel
theorem test_audit_refused : nextHas (exec (.registerWrite .operator 0x100 1) (stOf audEx)) (fun t =>
    decide (t.block.mg.err = true ∧ t.block.rd ROL_LAST_OFFSET = 0x400 ∧ t.block.rd ROL_LAST_ROLE = 1
      ∧ t.block.mg.audQ = [{ time := 2000000000, kind := 0, role := 1, outcome := 1, offset := 0x400, old := 0x640000, new := 1 }])) = true := by
  decide +kernel

/-! ## The queue -/

/-- No word of the table spells a command, so nothing is put in front of the queue. -/
theorem test_no_word (n w : Nat) : decodeTableWord n w = none ∧ State.reset.withFetchWord n w = State.reset := ⟨rfl, rfl⟩
/-- The front command runs, and the rest of the queue stays. -/
theorem test_queue : nextHas (step ⟨open0, [.timNowLatch .maker, .beaconDiscarded]⟩) (fun t =>
    decide (t.pending = [.beaconDiscarded] ∧ t.block.time.latch = some 0)) = true := by decide +kernel

end Sys2Proof.Tests
end

section
/-! SUPPORT. Management accesses: where the catalogue's registers lie, what a read clears, and how a write that is not performed
is answered (R1, R4, R8). -/

namespace Sys2Proof.Machine

open Reg

/-! ## The catalogue -/

/-- The largest distance from its base at which a register of these (stride, count) pairs lies. -/
def RegInfo.span : List (Nat × Nat) → Nat
  | [] => 0
  | (st, n) :: rest => st * (n - 1) + RegInfo.span rest

theorem RegInfo.le_span_of_indices (dims : List (Nat × Nat)) (d : Nat) (idx : List Nat)
    (h : RegInfo.indices dims d = some idx) : d ≤ RegInfo.span dims := by
  induction dims generalizing d idx with
  | nil =>
    simp only [RegInfo.indices] at h
    split at h
    · omega
    · cases h
  | cons e rest ih =>
    obtain ⟨st, n⟩ := e
    simp only [RegInfo.indices] at h
    split at h
    · next hi =>
      obtain ⟨l, hl, -⟩ := Option.map_eq_some_iff.mp h
      have hrest := ih _ _ hl
      have hmul : st * (d / st) ≤ st * (n - 1) := Nat.mul_le_mul_left _ (by omega)
      simp only [RegInfo.span]
      omega
    · cases h

/-- A register that is found stands in the list, and the offset lies within its span. -/
theorem RegInfo.find_some (l : List RegInfo) (off : Nat) (r : RegInfo) (idx : List Nat)
    (h : RegInfo.find l off = some (r, idx)) : r ∈ l ∧ off ≤ r.base + RegInfo.span r.dims := by
  induction l with
  | nil => cases h
  | cons q rest ih =>
    simp only [RegInfo.find] at h
    split at h
    · next hb =>
      split at h
      · next i hi =>
        cases h
        exact ⟨List.mem_cons_self, by have := RegInfo.le_span_of_indices _ _ _ hi; omega⟩
      · exact (ih h).imp_left (List.mem_cons_of_mem _)
    · exact (ih h).imp_left (List.mem_cons_of_mem _)

theorem catalog_below_window : ∀ r ∈ catalog, r.base + RegInfo.span r.dims < 0x300000 := by decide +kernel

theorem catalog_fields_nodup : ∀ r ∈ catalog, (r.fields.map FieldInfo.lo).Nodup := by decide +kernel

/-- From the image load window up no offset holds a register (R576). -/
theorem findReg_none_of_le (off : Nat) (h : 0x300000 ≤ off) : findReg off = none := by
  rw [Option.eq_none_iff_forall_ne_some]
  rintro ⟨r, idx⟩ hf
  obtain ⟨hr, hle⟩ := RegInfo.find_some _ _ _ _ hf
  have := catalog_below_window r hr
  omega

/-! ## Reads -/

/-- The offsets whose read latches or frees a value besides clearing RC fields (R41, R453). -/
def latchingOffs : List Nat := [TIM_NOW_LO_NOW.off, CTR_LIVE_LO_VAL.off, TIM_NOW_HI_NOW.off]

theorem findReg_latching : ∀ off ∈ latchingOffs, ∃ r idx, findReg off = some (r, idx) ∧
    r.fields.any (fun f => f.acc == .rc) = false := by
  simp only [latchingOffs, List.forall_mem_cons]
  exact ⟨⟨_, _, find_TIM_NOW_LO, rfl⟩, ⟨_, _, find_CTR_LIVE_LO, rfl⟩,
    ⟨⟨.TIM_NOW_HI, 0x6000c, [], 19, [⟨0, 32, .ro, .none, .nobody, 0⟩]⟩, [], by decide +kernel, rfl⟩, by simp⟩

/-- Any other read of a role returns the word and clears the RC fields. -/
theorem Block.doRead_of_not_latching (b : Block) (role : Role) (off : Nat) (hr : role ≠ .none) (ht : off < testSpace)
    (hl : off ∉ latchingOffs) : b.doRead role off = (b.readClears off).mgAnswer false (b.readWord off) := by
  simp only [latchingOffs, List.mem_cons, List.not_mem_nil, or_false, not_or] at hl
  obtain ⟨hlo, hlive, hhi⟩ := hl
  have ht : ¬ testSpace ≤ off := by omega
  simp [Block.doRead, hr, ht, hlo, hlive, hhi]

/-- The RC fields among those of a register at an offset are set to zero, one after the other (R1). -/
def Block.clearRc (b : Block) (n : RegName) (idx : List Nat) (off : Nat) (fs : List FieldInfo) : Block :=
  forEach fs b (fun b f => if f.acc = .rc then b.wr (f.at_ n idx off) 0 else b)

theorem Block.readClears_of_findReg (b : Block) {off : Nat} {r : RegInfo} {idx : List Nat} (hf : findReg off = some (r, idx))
    (ho : b.regOff r (idx.headD 0) = false) : b.readClears off = b.clearRc r.name idx off r.fields := by
  simp only [Block.readClears, hf, ho, Bool.false_eq_true, if_false]
  rfl

theorem Block.readClears_of_no_register (b : Block) {off : Nat} (hf : findReg off = none) : b.readClears off = b := by
  simp only [Block.readClears, hf]

/-- Clearing RC fields changes no other field, and nothing but registers. -/
theorem Block.clearRc_onlyRegs (b : Block) (n : RegName) (idx : List Nat) (off : Nat) (fs : List FieldInfo) :
    b.onlyRegs (b.clearRc n idx off fs) ((fs.filter (fun f => f.acc == .rc)).map (fun f => (f.at_ n idx off).key)) := by
  refine forEach_inv (fun t => b.onlyRegs t _) _ _ _ (fun t f hf h => ?_) (Block.onlyRegs_refl _ _)
  split
  · next hrc =>
    exact Block.onlyRegs_wr h _ (List.mem_map_of_mem (List.mem_filter.mpr ⟨hf, by simp [hrc]⟩))
  · exact h

/-- Every RC field then reads zero: no two fields of the register begin at the same bit, so a later one's write leaves it. -/
theorem Block.clearRc_rd (b : Block) (n : RegName) (idx : List Nat) (off : Nat) (fs : List FieldInfo)
    (hn : (fs.map FieldInfo.lo).Nodup) : ∀ f ∈ fs, f.acc = .rc → (b.clearRc n idx off fs).rd (f.at_ n idx off) = 0 := by
  induction fs generalizing b with
  | nil => simp
  | cons g fs ih =>
    rw [List.map_cons, List.nodup_cons] at hn
    intro f hf hrc
    rcases List.mem_cons.mp hf with rfl | hf
    · have later : (f.at_ n idx off).key ∉
          (fs.filter (fun f => f.acc == .rc)).map (fun f => (f.at_ n idx off).key) := by
        simp only [List.mem_map, List.mem_filter, not_exists, not_and, and_imp]
        intro g hg _ hkey
        have hlo : g.lo = f.lo := by simp only [FieldInfo.at_, Fld.key] at hkey; omega
        exact hn.1 (hlo ▸ List.mem_map_of_mem hg)
      calc (b.clearRc n idx off (f :: fs)).rd (f.at_ n idx off)
          = ((b.wr (f.at_ n idx off) 0).clearRc n idx off fs).rd (f.at_ n idx off) := by
            simp only [Block.clearRc, forEach_cons, hrc, if_true]
        _ = (b.wr (f.at_ n idx off) 0).rd (f.at_ n idx off) := (Block.clearRc_onlyRegs _ n idx off fs).2 _ later
        _ = 0 := by rw [Block.rd_wr_self, Nat.zero_mod]
    · exact ih _ hn.2 f hf hrc

/-! ## Writes -/

theorem isMakerTest_of_lt (role : Role) (addr : BitVec 21) (h : 4 * addr.toNat < testSpace) : isMakerTest role addr = false := by
  have : ¬ testSpace ≤ 4 * addr.toNat := by omega
  simp [isMakerTest, this]

theorem exec_registerWrite (s : State) (role : Role) (addr : BitVec 21) (w : Word) (h : 4 * addr.toNat < testSpace) :
    exec (.registerWrite role addr w) s = access role addr (some w) default s := by
  show execRegisterWrite role addr w s = _
  rw [execRegisterWrite, isMakerTest_of_lt _ _ h, if_neg Bool.false_ne_true]

theorem exec_readClear (s : State) (role : Role) (addr : BitVec 21) (h : 4 * addr.toNat < testSpace) :
    exec (.readClear role addr) s = access role addr none default s := by
  show execReadClear role addr s = _
  rw [execReadClear, isMakerTest_of_lt _ _ h, if_neg Bool.false_ne_true]

/-- A write that is judged not performed, for a reason other than rights, is recorded and answered with MG_ERR (R8, R586). -/
theorem access_reject (s : State) (role : Role) (addr : BitVec 21) (w : Word) (x : Aux) {outcome : Nat}
    (ho : s.block.mgOpen = true) (hh : s.block.mg.held = []) (hq : s.block.recRoom 1 = true)
    (hj : s.block.judgeWrite role (4 * addr.toNat) w = .reject outcome false) :
    access role addr (some w) x s = .next { s with block :=
      (s.block.audPut (s.block.writeRec role (4 * addr.toNat) outcome (s.block.readWord (4 * addr.toNat)) w)).mgAnswer true 0 } := by
  unfold access
  rw [onBlock_next]
  simp [Block.mgAccess, hh, Block.tryAccess, ho, Block.tryWrite, hj, hq]

/-- The audit queue takes the record when the self-test of the NVM has passed (R528, R530). -/
theorem Block.audPut_audQ (b : Block) (r : AudRec) (h : b.rd NVM_STATUS_SELFTEST_OK ≠ 0) :
    (b.audPut r).mg.audQ = b.mg.audQ ++ [r] := by
  simp [Block.audPut, (Block.on_iff _ _).mpr h]

/-! ## Offsets without a register -/

/-- The offset holds no register: outside the catalogue below the image load window, or in a reserved area of the NVM window. -/
def NoRegister (off : Nat) : Prop :=
  (off < 0x300000 ∧ findReg off = none) ∨ (0x4D0200 ≤ off ∧ off < 0x4D8000) ∨ (0x4E0000 ≤ off ∧ off < 0x500000)

theorem NoRegister.lt_testSpace {off : Nat} (h : NoRegister off) : off < testSpace := by
  unfold NoRegister at h
  unfold testSpace
  omega

theorem NoRegister.findReg_eq_none {off : Nat} (h : NoRegister off) : findReg off = none := by
  rcases h with ⟨-, h⟩ | h | h
  · exact h
  all_goals exact findReg_none_of_le _ (by omega)

theorem nvmReserved_of_noRegister {off : Nat} (h : NoRegister off) (hn : 0x400000 ≤ off) : nvmReserved (off - 0x400000) = true := by
  unfold NoRegister at h
  simp only [nvmReserved, Bool.or_eq_true, Bool.and_eq_true, decide_eq_true_eq]
  omega

theorem Block.readWord_of_noRegister (b : Block) {off : Nat} (h : NoRegister off) : b.readWord off = 0 := by
  have ht : ¬ testSpace ≤ off := by have := h.lt_testSpace; omega
  unfold Block.readWord
  rw [if_neg ht]
  split
  · next hn => simp [Block.nvmWord, nvmReserved_of_noRegister h hn]
  · rw [h.findReg_eq_none]

theorem Block.judgeWrite_of_noRegister (b : Block) {role : Role} {off : Nat} (w : Word) (hr : role ≠ .none) (h : NoRegister off) :
    b.judgeWrite role off w = .reject 5 false := by
  have ht : ¬ testSpace ≤ off := by have := h.lt_testSpace; omega
  unfold Block.judgeWrite
  rw [if_neg hr, if_neg ht]
  split
  · next hn => simp [nvmReserved_of_noRegister h hn]
  · next hn =>
    have hw : ¬ 0x300000 ≤ off := by unfold NoRegister at h; omega
    rw [if_neg hw, h.findReg_eq_none]

theorem Block.doRead_of_noRegister (b : Block) {role : Role} {off : Nat} (hr : role ≠ .none) (h : NoRegister off) :
    b.doRead role off = b.mgAnswer false 0 := by
  have hl : off ∉ latchingOffs := fun hm => by
    obtain ⟨r, idx, hf, -⟩ := findReg_latching off hm
    rw [h.findReg_eq_none] at hf
    cases hf
  rw [Block.doRead_of_not_latching _ _ _ hr h.lt_testSpace hl, Block.readClears_of_no_register _ h.findReg_eq_none,
    Block.readWord_of_noRegister _ h]

/-! ## LGT_PERIOD -/

/-- A performed write of LGT_PERIOD stores its word in the shadow and sets nothing going (R4). -/
theorem Block.performReg_LGT_PERIOD (b : Block) (role : Role) (i : Fin 64) (old : Nat) (w : Word) (x : Aux) :
    b.performReg role reg_LGT_PERIOD [i.val] (LGT_PERIOD_PERIOD i).off old w x = b.wr (LGT_PERIOD_PERIOD i) w.toNat := by
  have hw : w.toNat % 4294967296 = w.toNat := Nat.mod_eq_of_lt w.isLt
  simp [Block.performReg, reg_LGT_PERIOD, Block.deafInstance, Block.idleInstance, isMnt, Block.storeWord, Block.fieldKept,
    Block.writeEffect, Block.dropActions, FieldInfo.at_, indexReset, LGT_PERIOD_PERIOD, hw]

theorem exec_registerWrite_LGT_PERIOD (s : State) (role : Role) (i : Fin 64) (w : Word)
    (hg : s.grants role (LGT_PERIOD_PERIOD i).off w) :
    exec (.registerWrite role (BitVec.ofNat 21 ((LGT_PERIOD_PERIOD i).off / 4)) w) s = .next { s with block :=
      ((s.block.noted role reg_LGT_PERIOD (LGT_PERIOD_PERIOD i).off w).wr (LGT_PERIOD_PERIOD i) w.toNat).mgAnswer false 0 } := by
  have hoff : (LGT_PERIOD_PERIOD i).off = 0x61008 + 0x20 * i := rfl
  have haddr : 4 * (BitVec.ofNat 21 ((LGT_PERIOD_PERIOD i).off / 4)).toNat < testSpace := by
    rw [BitVec.toNat_ofNat, testSpace, hoff]; omega
  have hroom : s.block.recRoom (1 + s.block.fenceRecs reg_LGT_PERIOD.name w.toNat) = true := hg.2.2.2
  rw [exec_registerWrite _ _ _ _ haddr]
  exact (writeReg_go default hg (find_LGT_PERIOD i) (by omega) (by omega) (by decide) hroom).trans
    (by rw [Block.written, Block.performReg_LGT_PERIOD])

end Sys2Proof.Machine
end

section
/-! SUPPORT. The commits of the regulator (R201 to R204): what GO takes, and what the end of a check makes of it. -/

namespace Sys2Proof.Machine

open Reg

/-! ## Tables -/

/-- A table cut to the keys of a predicate reads as before at these, and the default elsewhere. -/
theorem Tab.get_filter {α : Type} [Inhabited α] (t : Tab α) (p : Nat → Bool) (k : Nat) :
    Tab.get (t.filter (fun e => p e.1)) k = if p k then t.get k else default := by
  induction t with
  | nil => simp [Tab.get]
  | cons e t ih =>
    obtain ⟨j, v⟩ := e
    by_cases hk : j = k
    · subst hk
      cases hp : p j <;> simp [Tab.get, hp, ih]
    · cases hp : p j <;> simp [Tab.get, hp, ih, hk]

/-- An overlaid table reads the source at the keys of the predicate, and itself elsewhere. -/
theorem Tab.get_overlay {α : Type} [Inhabited α] [DecidableEq α] (dst src : Tab α) (p : Nat → Bool) (k : Nat) :
    (dst.overlay src p).get k = if p k then src.get k else dst.get k := by
  unfold Tab.overlay forEach
  rw [List.foldl_reverse]
  induction src with
  | nil =>
    rw [List.filter_nil, List.foldr_nil, Tab.get_filter dst (fun k => !p k)]
    cases p k <;> simp [Tab.get]
  | cons e src ih =>
    obtain ⟨j, v⟩ := e
    by_cases hk : k = j
    · subst hk
      cases hp : p k <;> simp [Tab.get, hp, ih]
    · cases hp : p j <;> simp [Tab.get, Tab.get_set, hp, ih, hk, Ne.symm hk]

theorem fldGet_filter (t : Tab Nat) (p : Nat → Bool) (f : Fld) (h : p f.key = true) :
    fldGet (t.filter (fun e => p e.1)) f = fldGet t f := by
  rw [fldGet, fldGet, Tab.get_filter, if_pos h]

theorem fldGet_overlay (dst src : Tab Nat) (p : Nat → Bool) (f : Fld) :
    fldGet (dst.overlay src p) f = if p f.key then fldGet src f else fldGet dst f := by
  simp only [fldGet, Tab.get_overlay]
  cases p f.key <;> rfl

/-! ## GO -/

/-- While BUSY the command does nothing. -/
theorem Block.reguGo_of_busy (b : Block) (h : b.rd REGU_COMMIT_STATUS_BUSY ≠ 0) : b.reguGo = b := by
  simp [Block.reguGo, (Block.on_iff _ _).mpr h]

/-- Otherwise it takes the tables as they stand, and BUSY shows it (R201). -/
theorem Block.reguGo_of_idle (b : Block) (hh : b.harbour = false) (h : b.rd REGU_COMMIT_STATUS_BUSY = 0) :
    b.reguGo = ({ b with regu := { b.regu with snap := b.regs.filter (fun e => isReguKey e.1), running := !b.lgtRun } }).wr
      REGU_COMMIT_STATUS_BUSY 1 := by
  simp [Block.reguGo, hh, (Block.on_false _ _).mpr h]

theorem Block.reguGo_parts (b : Block) : b.reguGo = { b with regs := b.reguGo.regs, regu := b.reguGo.regu } := by
  unfold Block.reguGo
  split <;> rfl

theorem Block.reguGo_rd (b : Block) (g : Fld) (hg : g.key ≠ REGU_COMMIT_STATUS_BUSY.key) : b.reguGo.rd g = b.rd g := by
  unfold Block.reguGo
  split
  · rfl
  · exact Block.rd_wr_of_ne _ _ _ _ hg

/-- The word of REGU_COMMIT with GO. -/
def reguGoWord : Word := withField (0 : Word) REGU_COMMIT_GO 1

/-- A granted REGU_COMMIT as its action finds the block: recorded, and GO holds 1. -/
def Block.reguNoted (b : Block) (role : Role) : Block :=
  (b.noted role reg_REGU_COMMIT REGU_COMMIT_GO.off reguGoWord).wr REGU_COMMIT_GO 1

theorem Block.reguNoted_rd (b : Block) (role : Role) (g : Fld) (hg : g.key ∉ REGU_COMMIT_GO.key :: audKeys) :
    (b.reguNoted role).rd g = b.rd g := by
  rw [List.mem_cons, not_or] at hg
  rw [Block.reguNoted, Block.rd_wr_of_ne _ _ _ _ hg.1, Block.noted_rd _ _ _ _ _ _ hg.2]

/-- A granted REGU_COMMIT before its answer. -/
def Block.reguGone (b : Block) (role : Role) : Block := (b.reguNoted role).reguGo.wr REGU_COMMIT_GO 0

theorem Block.performReg_REGU_COMMIT (b : Block) (role : Role) (old : Nat) (x : Aux) :
    b.performReg role reg_REGU_COMMIT [] REGU_COMMIT_GO.off old reguGoWord x
      = (b.wr REGU_COMMIT_GO 1).reguGo.wr REGU_COMMIT_GO 0 := by
  have hw : reguGoWord.toNat = 1 := by decide
  simp [Block.performReg, reg_REGU_COMMIT, Block.deafInstance, Block.idleInstance, isMnt, Block.storeWord, Block.fieldKept,
    Block.writeEffect, Block.dropActions, FieldInfo.at_, indexReset, REGU_COMMIT_GO, hw, bitOf]

theorem exec_reguCommit (s : State) (role : Role) (hg : s.grants role REGU_COMMIT_GO.off reguGoWord) :
    exec (.reguCommit role) s = .next { s with block := (s.block.reguGone role).mgAnswer false 0 } := by
  have hroom : s.block.recRoom (1 + s.block.fenceRecs reg_REGU_COMMIT.name reguGoWord.toNat) = true := hg.2.2.2
  exact (writeReg_go default hg find_REGU_COMMIT (by decide) (by decide) (by decide) hroom).trans
    (by rw [Block.written, Block.performReg_REGU_COMMIT]; rfl)

theorem Block.reguGone_parts (b : Block) (role : Role) : b.reguGone role = { b with
    regs := (b.reguGone role).regs, mg := (b.noted role reg_REGU_COMMIT REGU_COMMIT_GO.off reguGoWord).mg
    regu := (b.reguGone role).regu } := by
  simp only [Block.reguGone, Block.wr]
  rw [Block.reguGo_parts]
  simp only [Block.reguNoted, Block.wr]
  rw [Block.noted_parts]

/-- Of the register fields only BUSY, the GO bit and a lost record's change. -/
theorem Block.reguGone_regsBut (b : Block) (role : Role) :
    b.regsBut (b.reguGone role) ([REGU_COMMIT_GO.key, REGU_COMMIT_STATUS_BUSY.key] ++ audKeys) := by
  intro g hg
  simp only [List.cons_append, List.nil_append, List.mem_cons, not_or] at hg
  obtain ⟨hgo, hbusy, haud⟩ := hg
  have hnot : g.key ∉ REGU_COMMIT_GO.key :: audKeys := by simp [hgo, haud]
  rw [Block.reguGone, Block.rd_wr_of_ne _ _ _ _ hgo, Block.reguGo_rd _ _ hbusy, Block.reguNoted_rd _ _ _ hnot]

theorem Block.reguNoted_busy (b : Block) (role : Role) :
    (b.reguNoted role).rd REGU_COMMIT_STATUS_BUSY = b.rd REGU_COMMIT_STATUS_BUSY := Block.reguNoted_rd _ _ _ (by decide)

/-- A block that is BUSY keeps what BUSY holds, and its regulator. -/
theorem Block.reguGone_of_busy (b : Block) (role : Role) (h : b.rd REGU_COMMIT_STATUS_BUSY ≠ 0) :
    (b.reguGone role).rd REGU_COMMIT_STATUS_BUSY = b.rd REGU_COMMIT_STATUS_BUSY ∧ (b.reguGone role).regu = b.regu := by
  rw [Block.reguGone, Block.reguGo_of_busy _ (by rwa [Block.reguNoted_busy]), Block.rd_wr_of_ne _ _ _ _ (by decide)]
  exact ⟨Block.reguNoted_busy _ _, Block.noted_regu ..⟩

/-- The fields of the tables are not those that the command itself writes. -/
theorem isReguKey_of_mem_go : ∀ k ∈ REGU_COMMIT_GO.key :: audKeys, isReguKey k = false := by decide

/-- A block that is not BUSY sets it, and its snapshot reads as the tables do. -/
theorem Block.reguGone_of_idle (b : Block) (role : Role) (hh : b.harbour = false) (h : b.rd REGU_COMMIT_STATUS_BUSY = 0) :
    (b.reguGone role).rd REGU_COMMIT_STATUS_BUSY = 1 ∧ (b.reguGone role).regu.running = !b.lgtRun
      ∧ ∀ f : Fld, isReguKey f.key = true → fldGet (b.reguGone role).regu.snap f = b.rd f := by
  have hharbour : (b.reguNoted role).harbour = false := by
    rwa [Block.harbour, Block.reguNoted_rd _ _ _ (by decide)]
  rw [Block.reguGone, Block.reguGo_of_idle _ hharbour (by rwa [Block.reguNoted_busy]), Block.rd_wr_of_ne _ _ _ _ (by decide),
    Block.rd_wr_self]
  refine ⟨rfl, congrArg (!·) (Block.noted_lgtRun ..), fun f hf => ?_⟩
  have hnot : f.key ∉ REGU_COMMIT_GO.key :: audKeys := fun hm => by simp [isReguKey_of_mem_go _ hm] at hf
  exact (fldGet_filter _ isReguKey f hf).trans (Block.reguNoted_rd _ _ _ hnot)

/-- The first clause of `Obligations.RegulatorCommits`, for a state whose BUSY holds a bit (R5, R201). -/
theorem reguCommit_answers (s : State) (role : Role) (hg : s.grants role REGU_COMMIT_GO.off reguGoWord)
    (hh : s.block.harbour = false) (hb : s.block.rd REGU_COMMIT_STATUS_BUSY ≤ 1) :
    s.answers (.reguCommit role) (fun b =>
      b.rd REGU_COMMIT_STATUS_BUSY = 1 ∧ b.work = s.block.work
      ∧ (s.block.rd REGU_COMMIT_STATUS_BUSY = 0 → b.regu.running = !s.block.lgtRun
          ∧ ∀ f : Fld, isReguKey f.key = true → fldGet b.regu.snap f = s.block.rd f)
      ∧ (s.block.rd REGU_COMMIT_STATUS_BUSY = 1 → b.regu = s.block.regu)
      ∧ s.block.wrote b [REGU_COMMIT_GO.key, REGU_COMMIT_STATUS_BUSY.key]
      ∧ b = { s.block with regs := b.regs, mg := b.mg, regu := b.regu }) := by
  have hparts := Block.reguGone_parts s.block role
  have hmg := congrArg Block.mg hparts
  have hwork : (s.block.reguGone role).work = s.block.work := by rw [hparts]
  refine ⟨_, exec_reguCommit s role hg, rfl, ?_, hwork, fun h0 => ?_, fun h1 => ?_,
    ⟨⟨rfl, rfl⟩, ?_, ?_, Block.reguGone_regsBut s.block role⟩, ?_⟩
  · show (s.block.reguGone role).rd REGU_COMMIT_STATUS_BUSY = 1
    by_cases h0 : s.block.rd REGU_COMMIT_STATUS_BUSY = 0
    · exact (Block.reguGone_of_idle _ _ hh h0).1
    · rw [(Block.reguGone_of_busy _ _ h0).1]
      omega
  · exact (Block.reguGone_of_idle _ _ hh h0).2
  · exact (Block.reguGone_of_busy _ _ (by omega)).2
  · exact (congrArg MgmtSt.held hmg).trans (Block.noted_held ..)
  · exact (congrArg MgmtSt.latch hmg).trans (Block.noted_latch ..)
  · simp only [Block.mgAnswer]
    rw [hparts]

/-! ## The end of a check -/

/-- The check has ended with CODE and INDEX, and its snapshot is given up (R202). -/
def Block.reguShown (b : Block) (code idx : Nat) : Block :=
  { ((b.wr REGU_COMMIT_STATUS_BUSY 0).wr REGU_COMMIT_STATUS_CODE code).wr REGU_COMMIT_STATUS_INDEX idx with
    regu := { b.regu with running := false, snap := [] } }

/-- A light-list check that waited behind the regulator's starts (R204). -/
def Block.lgtFreed (b : Block) : Block := if b.on LGT_COMMIT_STATUS_BUSY then { b with lgtRun := true } else b

theorem Block.lgtFreed_parts (b : Block) : b.lgtFreed = { b with lgtRun := b.lgtFreed.lgtRun } := by
  unfold Block.lgtFreed
  split <;> rfl

/-- What the verdict of a check sets going (R203): nothing, a pending commit, or the checked tables at once. -/
def Block.reguSettled (b : Block) (code : Nat) (t : Tab Nat) : Block :=
  if code != 0 then b
  else if b.regulating then ({ b with regu := { b.regu with pend := t } }).wr REGU_COMMIT_STATUS_PENDING 1
  else (b.reguTake t).reguCompute true

theorem Block.reguDone_of_running {b : Block} {code idx : Nat} (hb : b.rd REGU_COMMIT_STATUS_BUSY ≠ 0)
    (hr : b.regu.running = true) (hj : b.reguJudge b.regu.snap = (code, idx)) :
    b.reguDone = ((b.reguShown code idx).reguSettled code b.regu.snap).lgtFreed := by
  have hrun : (b.on REGU_COMMIT_STATUS_BUSY && b.regu.running) = true := by rw [(Block.on_iff _ _).mpr hb, hr]; rfl
  have h : b.reguDone = ((b.reguShown (b.reguJudge b.regu.snap).1 (b.reguJudge b.regu.snap).2).reguSettled
      (b.reguJudge b.regu.snap).1 b.regu.snap).lgtFreed := if_pos hrun
  rwa [hj] at h

/-- The registers that a recomputation by a commit writes (R198 to R200). -/
def reguComputeKeys : List Nat :=
  [REGU_DELIV_IMG_VAL.key, REGU_DELIV_MEAS_VAL.key, REGU_LIMIT_VAL.key, REGU_TOTAL_VAL.key, REGU_SCALE_SCALE.key,
    REGU_STATUS_SCALING.key, REGU_STATUS_SCALED.key] ++ (List.range 256).map (fun e => (REGU_GT_EFF_EFF e).key)

theorem reguEff_mem_computeKeys {e : Nat} (h : e ∈ List.range 256) : (REGU_GT_EFF_EFF e).key ∈ reguComputeKeys :=
  List.mem_append_right _ (List.mem_map_of_mem h)

theorem Block.onlyRegs_ite_wr {b t : Block} {ks : List Nat} (h : b.onlyRegs t ks) {f : Fld} (v : Nat) (hf : f.key ∈ ks)
    (c : Prop) [Decidable c] : b.onlyRegs (if c then t.wr f v else t) ks := by
  split
  · exact Block.onlyRegs_wr h v hf
  · exact h

theorem Block.reguCompute_onlyRegs (b : Block) : b.onlyRegs (b.reguCompute true) reguComputeKeys := by
  have key {f : Fld} (hf : f ∈ [REGU_DELIV_IMG_VAL, REGU_DELIV_MEAS_VAL, REGU_LIMIT_VAL, REGU_TOTAL_VAL, REGU_SCALE_SCALE,
      REGU_STATUS_SCALING, REGU_STATUS_SCALED]) : f.key ∈ reguComputeKeys :=
    List.mem_append_left _ (List.mem_map_of_mem (f := Fld.key) hf)
  unfold Block.reguCompute
  simp only [Bool.not_true, Bool.and_false, Bool.false_eq_true, if_false]
  refine Block.onlyRegs_ite_wr (Block.onlyRegs_wrB (forEach_inv (fun t => b.onlyRegs t reguComputeKeys) _ _ _
    (fun t e he h => Block.onlyRegs_wr h _ (reguEff_mem_computeKeys he)) ?_) _ (key (by decide))) 1 (key (by decide)) _
  exact Block.onlyRegs_wr (Block.onlyRegs_wr (Block.onlyRegs_wr (Block.onlyRegs_wr (Block.onlyRegs_wr (Block.onlyRegs_refl b _)
    _ (key (by decide))) _ (key (by decide))) _ (key (by decide))) _ (key (by decide))) _ (key (by decide))

/-- No register of a recomputation stands in the word of REGU_COMMIT_STATUS. -/
theorem not_mem_reguComputeKeys {k : Nat} (h : k / 32 = 0x2000c) : k ∉ reguComputeKeys := by
  simp only [reguComputeKeys, List.mem_append, List.mem_map, not_or, not_exists, not_and]
  refine ⟨fun hm => ?_, fun e _ he => ?_⟩
  · have hno : ∀ k ∈ [REGU_DELIV_IMG_VAL.key, REGU_DELIV_MEAS_VAL.key, REGU_LIMIT_VAL.key, REGU_TOTAL_VAL.key,
      REGU_SCALE_SCALE.key, REGU_STATUS_SCALING.key, REGU_STATUS_SCALED.key], k / 32 ≠ 0x2000c := by decide
    exact hno k hm h
  · simp only [REGU_GT_EFF_EFF, Fld.key] at he
    omega

theorem Block.reguTake_regs (b : Block) (t : Tab Nat) : (b.reguTake t).regs =
    (if !b.regulating then (b.wr REGU_COMMIT_STATUS_PENDING 0).wr REGU_STATUS_LOCAL 0 else b.wr REGU_COMMIT_STATUS_PENDING 0).regs := by
  unfold Block.reguTake
  dsimp only
  split <;> rfl

theorem Block.reguTake_rd (b : Block) (t : Tab Nat) (g : Fld) (hp : g.key ≠ REGU_COMMIT_STATUS_PENDING.key)
    (hl : g.key ≠ REGU_STATUS_LOCAL.key) : (b.reguTake t).rd g = b.rd g := by
  rw [Block.rd_congr _ _ (Block.reguTake_regs b t)]
  split
  · rw [Block.rd_wr_of_ne _ _ _ _ hl, Block.rd_wr_of_ne _ _ _ _ hp]
  · exact Block.rd_wr_of_ne _ _ _ _ hp

theorem Block.reguTake_work (b : Block) (t : Tab Nat) : (b.reguTake t).work = b.work.overlay t isReguKey := by
  unfold Block.reguTake
  dsimp only
  split <;> rfl

/-- Of REGU_COMMIT_STATUS only PENDING follows the verdict. -/
theorem Block.reguSettled_rd (b : Block) (code : Nat) (t : Tab Nat) (g : Fld) (hg : g.key / 32 = 0x2000c)
    (hp : g.key ≠ REGU_COMMIT_STATUS_PENDING.key) : (b.reguSettled code t).rd g = b.rd g := by
  have hl : g.key ≠ REGU_STATUS_LOCAL.key := fun h => by rw [h] at hg; exact absurd hg (by decide)
  unfold Block.reguSettled
  split
  · rfl
  split
  · exact Block.rd_wr_of_ne _ _ _ _ hp
  · rw [(Block.reguCompute_onlyRegs _).2 g (not_mem_reguComputeKeys hg), Block.reguTake_rd _ _ _ hp hl]

/-- A check that fails, and one that passes while the regulator is on, leave the working values (R203). -/
theorem Block.reguSettled_work_of_kept (b : Block) (code : Nat) (t : Tab Nat) (h : code ≠ 0 ∨ b.regulating = true) :
    (b.reguSettled code t).work = b.work := by
  unfold Block.reguSettled
  split
  · rfl
  · next hc => rw [if_pos (h.resolve_left (by simpa using hc))]; rfl

/-- A check that passes while the regulator is off makes the checked tables the working ones (R203). -/
theorem Block.reguSettled_wk_of_off (b : Block) (t : Tab Nat) (h : b.regulating = false) (f : Fld) :
    (b.reguSettled 0 t).wk f = if isReguKey f.key then fldGet t f else b.wk f := by
  have hwork : (b.reguSettled 0 t).work = b.work.overlay t isReguKey := by
    rw [Block.reguSettled, if_neg (by decide), if_neg (by simp [h]), (Block.reguCompute_onlyRegs _).1]
    exact Block.reguTake_work b t
  rw [Block.wk, hwork, fldGet_overlay]
  rfl

/-- A check that passes while the regulator is on leaves the checked tables pending (R203). -/
theorem Block.reguSettled_of_regulating (b : Block) (t : Tab Nat) (h : b.regulating = true) :
    (b.reguSettled 0 t).rd REGU_COMMIT_STATUS_PENDING = 1 ∧ (b.reguSettled 0 t).regu.pend = t := by
  rw [Block.reguSettled, if_neg (by decide), if_pos h]
  exact ⟨Block.rd_wr_self _ _ _, rfl⟩

/-- The second clause of `Obligations.RegulatorCommits`, which holds of every state (R202 to R204). -/
theorem reguCommitDone_answers (s : State) (code idx : Nat) (hb : s.block.rd REGU_COMMIT_STATUS_BUSY ≠ 0)
    (hr : s.block.regu.running = true) (hj : s.block.reguJudge s.block.regu.snap = (code, idx)) (hc : code < 16)
    (hi : idx < 256) :
    s.answers .reguCommitDone (fun b =>
      b.rd REGU_COMMIT_STATUS_BUSY = 0 ∧ b.rd REGU_COMMIT_STATUS_CODE = code ∧ b.rd REGU_COMMIT_STATUS_INDEX = idx
      ∧ (code ≠ 0 ∨ s.block.regulating = true → b.work = s.block.work)
      ∧ (code = 0 → s.block.regulating = true →
          b.rd REGU_COMMIT_STATUS_PENDING = 1 ∧ b.regu.pend = s.block.regu.snap)
      ∧ (code = 0 → s.block.regulating = false →
          ∀ f : Fld, b.wk f = if isReguKey f.key then fldGet s.block.regu.snap f else s.block.wk f)) := by
  refine State.answers_onBlock rfl ?_
  rw [Block.reguDone_of_running hb hr hj, Block.lgtFreed_parts]
  have shown (g : Fld) (hg : g.key / 32 = 0x2000c) (hp : g.key ≠ REGU_COMMIT_STATUS_PENDING.key) :=
    Block.reguSettled_rd (s.block.reguShown code idx) code s.block.regu.snap g hg hp
  refine ⟨(shown _ (by decide) (by decide)).trans ?_, (shown _ (by decide) (by decide)).trans ?_,
    (shown _ (by decide) (by decide)).trans ?_, Block.reguSettled_work_of_kept (s.block.reguShown code idx) _ _, ?_, ?_⟩
  · exact (Block.rd_wr_of_ne _ _ _ _ (by decide)).trans ((Block.rd_wr_of_ne _ _ _ _ (by decide)).trans (Block.rd_wr_self _ _ _))
  · exact (Block.rd_wr_of_ne _ _ _ _ (by decide)).trans ((Block.rd_wr_self _ _ _).trans (Nat.mod_eq_of_lt hc))
  · exact (Block.rd_wr_self _ _ _).trans (Nat.mod_eq_of_lt hi)
  · rintro rfl hon
    exact Block.reguSettled_of_regulating (s.block.reguShown 0 idx) _ hon
  · rintro rfl hoff f
    exact Block.reguSettled_wk_of_off (s.block.reguShown 0 idx) _ hoff f

/-! ## A field that holds more than its width -/

/-- The management interface is open, and REGU_COMMIT_STATUS.BUSY, a field of one bit, holds 2. No write leaves such a value
(`Block.rd_wr_self`), but `State` admits it. -/
def busyTwo : Block :=
  { (default : Block) with regs := [(REGU_COMMIT_STATUS_BUSY.key, 3)], start := { (default : StartSt) with open_ := true } }

theorem busyTwo_rd : busyTwo.rd REGU_COMMIT_STATUS_BUSY = 2 := by decide

theorem busyTwo_grants : State.grants ⟨busyTwo, []⟩ .maker REGU_COMMIT_GO.off reguGoWord :=
  ⟨rfl, rfl, ⟨reg_REGU_COMMIT, [], by decide +kernel⟩, by decide⟩

end Sys2Proof.Machine
end

section
/-! SUPPORT. The statements of the scope chapter, settled. -/

namespace Sys2Proof

open Machine Machine.Reg

/-- Settles O1: by the definition of the step on a queue that is not empty. -/
theorem frontCommandRuns : Obligations.FrontCommandRuns := fun _ _ _ => rfl

/-- Settles O8: the write reaches the shadow word alone, and the RC fields of a register lie at different bits, so each one that
the read clears stays zero. -/
theorem shadowWritesAndReadClears : Obligations.ShadowWritesAndReadClears := by
  refine ⟨fun s role i w hg => ?_, fun s role addr r idx ho hh hr ht hf hrc hoff => ?_⟩
  · refine ⟨_, exec_registerWrite_LGT_PERIOD s role i w hg, rfl, ?_, ⟨⟨rfl, rfl⟩, ?_, ?_, fun g hk => ?_⟩, ?_⟩
    · exact (Block.rd_wr_self _ _ _).trans (Nat.mod_eq_of_lt w.isLt)
    · exact Block.noted_held ..
    · exact Block.noted_latch ..
    · simp only [List.cons_append, List.nil_append, List.mem_cons, not_or] at hk
      exact (Block.rd_wr_of_ne _ _ _ _ hk.1).trans (Block.noted_rd _ _ _ _ _ _ hk.2)
    · simp only [Block.mgAnswer, Block.wr]
      rw [Block.noted_parts]
  · have hl : 4 * addr.toNat ∉ latchingOffs := fun hm => by
      obtain ⟨q, i, hq, hno⟩ := findReg_latching _ hm
      rw [hf] at hq
      cases hq
      simp [hno] at hrc
    have hcat := (RegInfo.find_some _ _ _ _ hf).1
    have hex := (exec_readClear s role addr ht).trans (access_read role addr default ho hh)
    rw [Block.doRead_of_not_latching _ _ _ hr ht hl, Block.readClears_of_findReg _ hf hoff] at hex
    obtain ⟨hparts, hframe⟩ := Block.clearRc_onlyRegs s.block r.name idx (4 * addr.toNat) r.fields
    refine ⟨_, hex, rfl, ⟨rfl, rfl⟩, rfl, ?_, hframe, ?_⟩
    · exact Block.clearRc_rd _ _ _ _ _ (catalog_fields_nodup r hcat)
    · simp only [Block.mgAnswer]
      rw [hparts]

/-- Settles O10: such an offset reads zero with nothing to clear, and a write to it is judged NO_REGISTER. -/
theorem offsetsWithoutRegister : Obligations.OffsetsWithoutRegister := by
  intro s role addr ho hh hr hoff
  have hn : NoRegister (4 * addr.toNat) := hoff
  have h23 : 4 * addr.toNat < 2 ^ 23 := by have := addr.isLt; omega
  refine ⟨⟨_, readReg_open ho hh h23 (by omega), rfl, ?_⟩, fun w hq => ?_⟩
  · rw [Block.doRead_of_noRegister _ hr hn]
    exact ⟨⟨rfl, rfl⟩, rfl, rfl⟩
  · refine ⟨_, (exec_registerWrite s role addr w hn.lt_testSpace).trans
      (access_reject s role addr w default ho hh hq (Block.judgeWrite_of_noRegister _ w hr hn)), rfl, rfl, rfl,
      fun ht => ?_, fun g hg => Block.audPut_rd _ _ _ hg, ?_⟩
    · rw [Block.readWord_of_noRegister _ hn]
      show (Block.audPut _ _).mg.audQ = _
      rw [Block.audPut_audQ _ _ ht, Block.writeRec, Nat.mod_eq_of_lt h23]
    · simp only [Block.mgAnswer]
      rw [Block.audPut_parts]

/-- Refutes O31: in the state `busyTwo` GO does nothing, since BUSY is not 0, and BUSY goes on reading 2 where the statement
has 1. The statement quantifies over every `State`, that one too; where BUSY holds a bit its first clause is
`reguCommit_answers`, and its second clause is `reguCommitDone_answers`. -/
theorem not_regulatorCommits : ¬ Obligations.RegulatorCommits := by
  intro h
  obtain ⟨t, hex, -, hbusy, -⟩ := (h ⟨busyTwo, []⟩).1 .maker busyTwo_grants (by decide)
  rw [exec_reguCommit _ _ busyTwo_grants] at hex
  cases hex
  have hkeep : busyTwo.rd REGU_COMMIT_STATUS_BUSY = 1 :=
    (Block.reguGone_of_busy busyTwo .maker (by rw [busyTwo_rd]; decide)).1.symm.trans hbusy
  rw [busyTwo_rd] at hkeep
  exact absurd hkeep (by decide)

end Sys2Proof
end

section
/-! SUPPORT. What counting an event leaves (R444 to R448, R460): the registers of the performance counters, their state and the
drawn values may change, and nothing else. -/

namespace Sys2Proof.Machine

open Reg

/-- `t` is `b` but for what the performance counters hold: of the registers only those from their base on, and the pending
interrupts, may differ. -/
def Block.countedTo (b t : Block) : Prop :=
  t = { b with regs := t.regs, ctr := t.ctr, fresh := t.fresh } ∧
    ∀ g : Fld, g.key < 0x280000 * 32 → g.key ≠ GLB_INT_PEND_PEND.key → t.rd g = b.rd g

theorem Block.countedTo_refl (b : Block) : b.countedTo b := ⟨rfl, fun _ _ _ => rfl⟩

variable {b t : Block}

theorem Block.countedTo_wr (h : b.countedTo t) {f : Fld} (v : Nat) (hf : 0x280000 * 32 ≤ f.key) : b.countedTo (t.wr f v) := by
  obtain ⟨hparts, hrd⟩ := h
  refine ⟨congrArg (fun x : Block => { x with regs := fldSet t.regs f v }) hparts, fun g hg hp => ?_⟩
  rw [Block.rd_wr_of_ne _ _ _ _ (by omega), hrd g hg hp]

theorem Block.countedTo_intr (h : b.countedTo t) (i : Nat) (p : Bool) : b.countedTo (t.intr i p) := by
  obtain ⟨hparts, hrd⟩ := h
  refine ⟨?_, fun g hg hp => (Block.rd_intr _ _ _ _ hp).trans (hrd g hg hp)⟩
  unfold Block.intr
  split
  · exact congrArg (fun x : Block => { x with regs := (t.setBitOf GLB_INT_PEND_PEND i).regs }) hparts
  · exact hparts

theorem Block.countedTo_ctr (h : b.countedTo t) (c : CtrSt) : b.countedTo { t with ctr := c } :=
  ⟨congrArg (fun x : Block => { x with ctr := c }) h.1, h.2⟩

theorem Block.countedTo_draw (h : b.countedTo t) : b.countedTo t.draw.2 :=
  ⟨congrArg (fun x : Block => { x with fresh := t.fresh + 1 }) h.1, h.2⟩

theorem Block.countedTo_ctrRecord (h : b.countedTo t) (n skid : Nat) (c : Carry) : b.countedTo (t.ctrRecord n skid c) := by
  have hwords (i : Nat) (v : Nat → Nat) :
      b.countedTo (forEach (List.range 8) t (fun t j => t.wr (CTR_SAMPLE_WORD i j) (v j))) :=
    forEach_inv b.countedTo _ _ _ (fun t j _ ht => Block.countedTo_wr ht _ (by simp only [CTR_SAMPLE_WORD, Fld.key]; omega)) h
  unfold Block.ctrRecord
  extract_lets
  split
  · exact Block.countedTo_wr (Block.countedTo_wr (hwords _ _) _ (by decide)) _ (by decide)
  · exact Block.countedTo_wr (hwords _ _) _ (by decide)

theorem Block.countedTo_ctrCapture (h : b.countedTo t) (n skid : Nat) (c : Carry) : b.countedTo (t.ctrCapture n skid c) := by
  have hd := Block.countedTo_draw h
  unfold Block.ctrCapture
  dsimp only
  split
  · split
    · exact Block.countedTo_intr
        (Block.countedTo_wr (Block.countedTo_wr (Block.countedTo_ctr hd _) _ (by decide)) _ (by decide)) _ _
    · exact Block.countedTo_ctr hd _
  · exact Block.countedTo_ctrRecord (Block.countedTo_ctr hd _) _ _ _

theorem Block.countedTo_ctrOverflow (h : b.countedTo t) (n : Nat) : b.countedTo (t.ctrOverflow n) :=
  Block.countedTo_intr (Block.countedTo_wr h _ (by simp only [CTR_OVF_OVF, Fld.key]; omega)) _ _

theorem Block.countedTo_ite (p : Prop) [Decidable p] {u : Block} (ht : b.countedTo t) (hu : b.countedTo u) :
    b.countedTo (if p then t else u) := by
  split
  · exact ht
  · exact hu

theorem Block.countedTo_ctrAdd (h : b.countedTo t) (n amount : Nat) (c : Carry) : b.countedTo (t.ctrAdd n amount c) := by
  unfold Block.ctrAdd
  extract_lets _ _ _ _ b₁ _ _ b₂ b₃
  have h₁ : b.countedTo b₁ := Block.countedTo_ctr h _
  have h₂ : b.countedTo b₂ := Block.countedTo_ite _ (Block.countedTo_ctr h₁ _) h₁
  have h₃ : b.countedTo b₃ := Block.countedTo_ite _ (Block.countedTo_ctrOverflow h₂ n) h₂
  split
  all_goals exact Block.countedTo_ite _ (Block.countedTo_ctrCapture h₃ _ _ _) h₃

theorem Block.countedTo_count (b : Block) (u : Nat × Nat) (code amount : Nat) (c : Carry) :
    b.countedTo (b.count u code amount c) := by
  refine forEach_inv b.countedTo _ _ _ (fun t k _ ht => ?_) (Block.countedTo_refl b)
  exact Block.countedTo_ite _ ht (Block.countedTo_ite _ (Block.countedTo_ctrAdd ht _ _ _) ht)

theorem Block.count_time (b : Block) (u : Nat × Nat) (code n : Nat) (c : Carry) : (b.count u code n c).time = b.time := by
  rw [(Block.countedTo_count b u code n c).1]

theorem Block.count_work (b : Block) (u : Nat × Nat) (code n : Nat) (c : Carry) : (b.count u code n c).work = b.work := by
  rw [(Block.countedTo_count b u code n c).1]

theorem Block.count_lights (b : Block) (u : Nat × Nat) (code n : Nat) (c : Carry) : (b.count u code n c).lights = b.lights := by
  rw [(Block.countedTo_count b u code n c).1]

theorem Block.count_flt (b : Block) (u : Nat × Nat) (code n : Nat) (c : Carry) : (b.count u code n c).flt = b.flt := by
  rw [(Block.countedTo_count b u code n c).1]

end Sys2Proof.Machine
end

section
/-! SUPPORT. The local time with no command waiting (R31, R36, R37): what a tick adds to it, and that the counts of the passing
cycles leave it. -/

namespace Sys2Proof.Machine

open Reg

/-! ## The time as one number of 96 bits -/

/-- The local time in units of 2^-32 ns. -/
def TimeSt.total (t : TimeSt) : Nat := t.ns * 2 ^ 32 + t.frac

theorem TimeSt.total_advance (t : TimeSt) (n : Nat) : (t.advance n).total = (t.total + n) % 2 ^ 96 := by
  have hsplit := Nat.mod_mul (x := t.total + n) (a := 2 ^ 32) (b := 2 ^ 64)
  rw [← Nat.pow_add] at hsplit
  simp only [TimeSt.total, TimeSt.advance] at hsplit ⊢
  omega

/-- One TCLK cycle is 4 ns at the rate, truncated or one unit more (R31). -/
theorem tickInc_eq (ppb : Int) (up : Bool) :
    ∃ r : Nat, r ≤ 1 ∧ tickInc ppb up = (4 * 2 ^ 32 * (1000000000 + ppb) / 1000000000 + (r : Int)).toNat := by
  dsimp only [tickInc]
  split
  · exact ⟨1, Nat.le_refl _, rfl⟩
  · exact ⟨0, Nat.zero_le _, rfl⟩

/-- The growth of the error bound leaves the time; in HOLDOVER and in S3 it goes with each tick (R36, R37). -/
theorem Block.holdGrow_total (b : Block) (n : Nat) : (b.holdGrow n).time.total = b.time.total := by
  unfold Block.holdGrow
  rw [Block.wr_time, TimeSt.total, TimeSt.total]

theorem Block.holdGrow_work (b : Block) (n : Nat) : (b.holdGrow n).work = b.work := by
  unfold Block.holdGrow
  rw [Block.wr_work]

theorem Block.tick_total (b : Block) :
    b.tick.time.total = (b.time.total + tickInc b.ppb (Config.tickRound b.fresh)) % 2 ^ 96 := by
  unfold Block.tick
  dsimp only [Block.draw]
  split
  all_goals simp only [Block.holdGrow_total, TimeSt.total_advance, Block.ppb, Block.rd_mk]

theorem Block.tick_work (b : Block) : b.tick.work = b.work := by
  unfold Block.tick
  dsimp only [Block.draw]
  split
  · rw [Block.holdGrow_work]
  · rfl

theorem Block.aoTick_total (b : Block) : b.aoTick.time.total = (b.time.total + 131072000000000) % 2 ^ 96 := by
  simp only [Block.aoTick, Block.holdGrow_total, TimeSt.total_advance]

theorem Block.aoTick_work (b : Block) : b.aoTick.work = b.work := by
  rw [Block.aoTick, Block.holdGrow_work]

/-! ## The counts of the passing cycles -/

theorem Block.reguDemand_parts (b : Block) (r : Req) : b.reguDemand r = { b with regu := (b.reguDemand r).regu } := by
  unfold Block.reguDemand
  split
  · split <;> rfl
  · rfl

/-- What no demand flag changes, the setting of all of them leaves. -/
theorem Block.demandSeen_keeps {β : Type} (k : Block → β) (hk : ∀ b r, k (Block.reguDemand b r) = k b) (b : Block)
    (slices : List Nat) : k (b.demandSeen slices) = k b :=
  forEach_keeps k _ _ _ (fun _ _ => forEach_keeps k _ _ _ (fun _ _ => hk _ _))

/-- What neither a count nor a demand flag changes, the passing cycles leave. -/
theorem Block.countCycles_keeps {β : Type} (k : Block → β) (hc : ∀ b u code n c, k (Block.count b u code n c) = k b)
    (hk : ∀ b r, k (Block.reguDemand b r) = k b) (b : Block) (n : Nat) : k (b.countCycles n) = k b := by
  have hports (b : Block) (p : Nat) : k (if ((b.count (ctrPort p) 10 n default).ports.get p).rsp.isEmpty then
      b.count (ctrPort p) 10 n default else (b.count (ctrPort p) 10 n default).count (ctrPort p) 9 n default) = k b := by
    split
    · exact hc ..
    · exact (hc ..).trans (hc ..)
  unfold Block.countCycles
  rw [hc, Block.demandSeen_keeps k hk, forEach_keeps k, forEach_keeps k _ _ _ hports]
  intro b c
  refine (forEach_keeps k _ _ _ (fun b i => ?_)).trans (hc ..)
  split
  · split
    · exact hc ..
    · rfl
  · rfl

theorem Block.countCycles_time (b : Block) (n : Nat) : (b.countCycles n).time = b.time :=
  Block.countCycles_keeps Block.time Block.count_time (fun b r => by rw [Block.reguDemand_parts]) b n

theorem Block.countCycles_work (b : Block) (n : Nat) : (b.countCycles n).work = b.work :=
  Block.countCycles_keeps Block.work Block.count_work (fun b r => by rw [Block.reguDemand_parts]) b n

/-! ## The idle step -/

theorem Block.idle_of_dead {b : Block} (h : b.pwr.dead = true) : b.idle = b := if_pos h

theorem Block.idle_of_inS3 {b : Block} (h : b.pwr.dead = false) (h3 : b.pwr.inS3 = true) : b.idle = b.aoTick := by
  simp [Block.idle, h, h3]

theorem Block.idle_of_on {b : Block} (h : b.pwr.dead = false) (h3 : b.pwr.inS3 = false) :
    b.idle = b.tick.draw.2.countCycles (Config.fclkCycles b.tick.fresh) := by
  simp [Block.idle, h, h3, Block.draw]

theorem Block.idle_work (b : Block) : b.idle.work = b.work := by
  cases hd : b.pwr.dead with
  | true => rw [Block.idle_of_dead hd]
  | false =>
    cases h3 : b.pwr.inS3 with
    | true => rw [Block.idle_of_inS3 hd h3, Block.aoTick_work]
    | false => rw [Block.idle_of_on hd h3, Block.countCycles_work]; exact Block.tick_work b

theorem Block.idle_total_of_on {b : Block} (h : b.pwr.dead = false) (h3 : b.pwr.inS3 = false) :
    b.idle.time.total = (b.time.total + tickInc b.ppb (Config.tickRound b.fresh)) % 2 ^ 96 := by
  rw [Block.idle_of_on h h3, Block.countCycles_time]
  exact Block.tick_total b

end Sys2Proof.Machine
end

section
/-! SUPPORT. What a plain fault event leaves (R510, R512): its record, its message, and the registers it may change. -/

namespace Sys2Proof.Machine

open Reg

/-! ## Pending bits -/

theorem bitOf_eq_testBit (v i : Nat) : bitOf v i = v.testBit i := by
  rw [bitOf, Nat.testBit_eq_decide_div_mod_eq, Nat.shiftRight_eq_div_pow]
  rfl

/-- A pending bit stays while others become pending. -/
theorem Block.bit_intr_of_bit {b : Block} {i : Nat} (hi : i < 27) (h : b.bit GLB_INT_PEND_PEND i = true) (j : Nat) (p : Bool) :
    (b.intr j p).bit GLB_INT_PEND_PEND i = true := by
  cases p with
  | false => exact h
  | true =>
    simp only [Block.intr, Block.setBitOf, Block.bit, Block.rd_wr_self, if_true]
    rw [bitOf_mod _ _ _ (show i < GLB_INT_PEND_PEND.width from hi), bitOf_eq_testBit, Nat.testBit_or, ← bitOf_eq_testBit]
    exact Bool.or_eq_true_iff.mpr (.inl h)

theorem Block.bit_congr {b c : Block} {f : Fld} (h : c.rd f = b.rd f) (i : Nat) : c.bit f i = b.bit f i := by
  rw [Block.bit, Block.bit, h]

theorem Block.intr_parts (b : Block) (j : Nat) (p : Bool) : b.intr j p = { b with regs := (b.intr j p).regs } := by
  unfold Block.intr
  split <;> rfl

/-! ## Messages -/

/-- Registers that an event without a fence may change. -/
def eventKeys : List Nat :=
  [GLB_INT_PEND_PEND.key, FLT_STATUS_SEV_SEEN.key, FLT_STATUS_MSG_LOST.key, FLT_MSG_LOST_CNT_CNT.key]

variable (b : Block) (m : FltMsg) (e : Event) (t : Nat)

/-- A message for which the queue has no room is dropped and counted. -/
def Block.msgDropped (b : Block) : Block :=
  (({ b with flt := { b.flt with dropped := b.flt.dropped + 1 } }.wr FLT_STATUS_MSG_LOST 1).bump FLT_MSG_LOST_CNT_CNT).intr 25
    (b.on FLT_CTL_INT_LOST)

theorem Block.msgPut_of_room (h : b.flt.msgs.length < 32) :
    b.msgPut m = { b with flt := { b.flt with msgs := b.flt.msgs ++ [m] } } := if_pos h

theorem Block.msgPut_of_full (h : ¬ b.flt.msgs.length < 32) : b.msgPut m = b.msgDropped := if_neg h

theorem Block.msgDropped_parts : b.msgDropped =
    { b with regs := b.msgDropped.regs, flt := { b.flt with dropped := b.flt.dropped + 1 } } := by
  unfold Block.msgDropped
  rw [Block.intr_parts]
  rfl

theorem Block.msgPut_parts : b.msgPut m = { b with regs := (b.msgPut m).regs, flt := (b.msgPut m).flt } := by
  by_cases h : b.flt.msgs.length < 32
  · rw [Block.msgPut_of_room _ _ h]
  · rw [Block.msgPut_of_full _ _ h, Block.msgDropped_parts]

theorem Block.msgPut_recs : (b.msgPut m).flt.recs = b.flt.recs := by
  by_cases h : b.flt.msgs.length < 32
  · rw [Block.msgPut_of_room _ _ h]
  · rw [Block.msgPut_of_full _ _ h, Block.msgDropped_parts]

theorem Block.msgPut_rd (g : Fld) (hg : g.key ∉ eventKeys) : (b.msgPut m).rd g = b.rd g := by
  simp only [eventKeys, List.mem_cons, List.not_mem_nil, or_false, not_or] at hg
  obtain ⟨hpend, -, hlost, hcnt⟩ := hg
  by_cases h : b.flt.msgs.length < 32
  · rw [Block.msgPut_of_room _ _ h, Block.rd_mk]
  · rw [Block.msgPut_of_full _ _ h, Block.msgDropped, Block.rd_intr _ _ _ _ hpend, Block.rd_bump_of_ne _ _ _ hcnt,
      Block.rd_wr_of_ne _ _ _ _ hlost, Block.rd_mk]

theorem Block.bit_msgPut_of_bit {b : Block} {i : Nat} (hi : i < 27) (h : b.bit GLB_INT_PEND_PEND i = true) (m : FltMsg) :
    (b.msgPut m).bit GLB_INT_PEND_PEND i = true := by
  by_cases hroom : b.flt.msgs.length < 32
  · rw [Block.msgPut_of_room _ _ hroom]
    exact h
  · rw [Block.msgPut_of_full _ _ hroom]
    refine Block.bit_intr_of_bit hi ?_ _ _
    rwa [Block.bit_congr ((Block.rd_bump_of_ne _ _ _ (by decide)).trans (Block.rd_wr_of_ne _ _ _ _ (by decide)))]

/-! ## Events -/

theorem recUpdate_valid (r : FltRec) (sev : Nat) : (recUpdate r e sev t).valid = true := by
  unfold recUpdate
  split
  · assumption
  · rfl

theorem recUpdate_lastT (r : FltRec) (sev : Nat) : (recUpdate r e sev t).lastT = t := by
  unfold recUpdate
  split <;> rfl

/-- The block as an event leaves it before its message is queued. -/
def Block.tapped (b : Block) (e : Event) (t : Nat) : Block :=
  ({ b with flt := { b.flt with recs := b.flt.recs.set e.code (recUpdate (b.flt.recs.get e.code) e (b.sevOf e) t) } }.setBitOf
    FLT_STATUS_SEV_SEEN (b.sevOf e)).intr 25 (b.bit FLT_CTL_INT_SEV (b.sevOf e))

theorem Block.eventAt_eq :
    b.eventAt e t = (b.tapped e t).msgPut ⟨e.code, e.kind, b.sevOf e, e.form, e.addr, t⟩ := rfl

theorem Block.tapped_parts : b.tapped e t = { b with
    regs := (b.tapped e t).regs
    flt := { b.flt with recs := b.flt.recs.set e.code (recUpdate (b.flt.recs.get e.code) e (b.sevOf e) t) } } := by
  unfold Block.tapped
  rw [Block.intr_parts]
  rfl

theorem Block.eventAt_parts : b.eventAt e t = { b with regs := (b.eventAt e t).regs, flt := (b.eventAt e t).flt } := by
  rw [Block.eventAt_eq, Block.msgPut_parts, Block.tapped_parts]

theorem Block.eventAt_rd (g : Fld) (hg : g.key ∉ eventKeys) : (b.eventAt e t).rd g = b.rd g := by
  rw [Block.eventAt_eq, Block.msgPut_rd _ _ _ hg]
  simp only [eventKeys, List.mem_cons, List.not_mem_nil, or_false, not_or] at hg
  obtain ⟨hpend, hsev, -⟩ := hg
  rw [Block.tapped, Block.rd_intr _ _ _ _ hpend, Block.rd_setBitOf_of_ne _ _ _ _ hsev, Block.rd_mk]

/-- The event's record holds its time and is valid (R510). -/
theorem Block.eventAt_rec : ((b.eventAt e t).flt.recs.get e.code).valid = true
    ∧ ((b.eventAt e t).flt.recs.get e.code).lastT = t := by
  rw [Block.eventAt_eq, Block.msgPut_recs, Block.tapped_parts]
  dsimp only
  rw [Tab.get_set_self]
  exact ⟨recUpdate_valid .., recUpdate_lastT ..⟩

/-- A message for which the queue has room joins it (R512). -/
theorem Block.eventAt_msgs (h : b.flt.msgs.length < 32) :
    (b.eventAt e t).flt.msgs = b.flt.msgs ++ [⟨e.code, e.kind, b.sevOf e, e.form, e.addr, t⟩] := by
  have hmsgs : (b.tapped e t).flt.msgs = b.flt.msgs := by rw [Block.tapped_parts]
  rw [Block.eventAt_eq, Block.msgPut_of_room _ _ (by rwa [hmsgs])]
  exact congrArg (· ++ _) hmsgs

theorem Block.bit_eventAt_of_bit {b : Block} {i : Nat} (hi : i < 27) (h : b.bit GLB_INT_PEND_PEND i = true) (e : Event)
    (t : Nat) : (b.eventAt e t).bit GLB_INT_PEND_PEND i = true := by
  rw [Block.eventAt_eq]
  refine Block.bit_msgPut_of_bit hi (Block.bit_intr_of_bit hi ?_ _ _) _
  rwa [Block.bit_congr (Block.rd_setBitOf_of_ne _ _ _ _ (by decide))]

/-- An event without a unit sets no fence, whatever its severity (R515). -/
theorem Block.eventPlain_eq (code kind addr : Nat) : b.eventPlain code kind addr =
    b.eventAt { code := code, kind := kind, form := 1, addr := addr, unit_ := .none, sev := none } b.now := by
  unfold Block.eventPlain Block.event Block.sevFence
  split <;> rfl

end Sys2Proof.Machine
end

section
/-! SUPPORT. The local time under the rack time's beacons (R28, R31, R35): holdover, a discarded beacon, and what each kind of
accepted beacon does. -/

namespace Sys2Proof.Machine

open Reg

theorem ofSigned_mod (w : Nat) (i : Int) : ofSigned w i % 2 ^ w = ofSigned w i := by
  have hpos : (0 : Int) < 2 ^ w := Int.pow_pos (by decide)
  have hcast : ((2 ^ w : Nat) : Int) = 2 ^ w := Int.natCast_pow 2 w
  have hlt := Int.emod_lt_of_pos i hpos
  refine Nat.mod_eq_of_lt ?_
  rw [ofSigned]
  omega

theorem Block.rd_setPpb_self (b : Block) (r : Int) : (b.setPpb r).rd TIM_RATE_RATE_PPB = ofSigned 18 r :=
  (Block.rd_wr_self _ _ _).trans (ofSigned_mod 18 r)

theorem Block.rd_setPpb_of_ne (b : Block) (r : Int) (g : Fld) (h : g.key ≠ TIM_RATE_RATE_PPB.key) :
    (b.setPpb r).rd g = b.rd g := Block.rd_wr_of_ne _ _ _ _ h

/-! ## Holdover and discarded beacons -/

/-- The frequency term becomes the rate, and the error bound starts from zero (R35, R36). -/
def Block.heldRate (b : Block) : Block := { (b.setPpb (rnd16 b.time.f)) with time := { b.time with holdAcc := 0 } }

/-- HOLDOVER is entered, before its event. -/
def Block.heldOver (b : Block) : Block :=
  ((b.heldRate.wr TIM_STATUS_STATE timHoldover).wr TIM_STATUS_HOLD_ENTERED 1).intr 19 (b.heldRate.on TIM_CTL_INT_HOLD)

theorem Block.heldRate_rate (b : Block) : b.heldRate.rd TIM_RATE_RATE_PPB = ofSigned 18 (rnd16 b.time.f) := by
  rw [Block.heldRate, Block.rd_mk, Block.rd_setPpb_self]

theorem Block.rd_heldRate_of_ne (b : Block) (g : Fld) (h : g.key ≠ TIM_RATE_RATE_PPB.key) : b.heldRate.rd g = b.rd g := by
  rw [Block.heldRate, Block.rd_mk, Block.rd_setPpb_of_ne _ _ _ h]

theorem Block.holdover_of_out {b : Block} (h : b.timState = timAcquire ∨ b.timState = timHoldover) : b.holdover = b := if_pos h

theorem Block.heldOver_parts (b : Block) :
    b.heldOver = { b with regs := b.heldOver.regs, time := { b.time with holdAcc := 0 } } := by
  unfold Block.heldOver
  rw [Block.intr_parts]
  rfl

/-- The event of the entry: source 2, without a unit (R35). -/
def holdoverEvent : Event := { code := 2, kind := 0, form := 1, addr := 0, unit_ := .none, sev := none }

theorem Block.holdover_of_in {b : Block} (ha : b.timState ≠ timAcquire) (hh : b.timState ≠ timHoldover) :
    b.holdover = b.heldOver.eventAt holdoverEvent b.now := by
  have hnow : b.heldOver.now = b.now := by rw [Block.now, Block.heldOver_parts, Block.now]
  rw [← hnow]
  exact (if_neg (not_or.mpr ⟨ha, hh⟩)).trans (Block.eventPlain_eq _ _ _ _)

theorem Block.heldOver_rd (b : Block) (g : Fld) (hp : g.key ≠ GLB_INT_PEND_PEND.key) (hr : g.key ≠ TIM_RATE_RATE_PPB.key)
    (hs : g.key ≠ TIM_STATUS_STATE.key) (he : g.key ≠ TIM_STATUS_HOLD_ENTERED.key) : b.heldOver.rd g = b.rd g := by
  rw [Block.heldOver, Block.rd_intr _ _ _ _ hp, Block.rd_wr_of_ne _ _ _ _ he, Block.rd_wr_of_ne _ _ _ _ hs,
    Block.rd_heldRate_of_ne _ _ hr]

theorem Block.heldOver_state (b : Block) : b.heldOver.rd TIM_STATUS_STATE = timHoldover := by
  rw [Block.heldOver, Block.rd_intr _ _ _ _ (by decide), Block.rd_wr_of_ne _ _ _ _ (by decide), Block.rd_wr_self]
  rfl

theorem Block.heldOver_entered (b : Block) : b.heldOver.rd TIM_STATUS_HOLD_ENTERED = 1 := by
  rw [Block.heldOver, Block.rd_intr _ _ _ _ (by decide), Block.rd_wr_self]
  rfl

theorem Block.heldOver_rate (b : Block) : b.heldOver.rd TIM_RATE_RATE_PPB = ofSigned 18 (rnd16 b.time.f) := by
  rw [Block.heldOver, Block.rd_intr _ _ _ _ (by decide), Block.rd_wr_of_ne _ _ _ _ (by decide),
    Block.rd_wr_of_ne _ _ _ _ (by decide), Block.heldRate_rate]

theorem Block.heldOver_pending (b : Block) (h : b.rd TIM_CTL_INT_HOLD ≠ 0) :
    b.heldOver.bit GLB_INT_PEND_PEND 19 = true := by
  have hon : b.heldRate.on TIM_CTL_INT_HOLD = true := by rwa [Block.on_iff, Block.rd_heldRate_of_ne _ _ (by decide)]
  rw [Block.heldOver, hon]
  exact Block.bit_intr _ 19 (by decide)

theorem Block.beaconBad_of_down {b : Block} (h : b.pwr.inS3 = true ∨ b.pwr.dead = true) : b.beaconBad = b := by
  rw [Block.beaconBad, if_pos (Bool.or_eq_true_iff.mpr h)]

theorem Block.beaconBad_of_up {b : Block} (h3 : b.pwr.inS3 = false) (hd : b.pwr.dead = false) : b.beaconBad =
    ((b.wr TIM_STATUS_BAD_BEACON 1).bump TIM_BAD_CNT_CNT).intr 19 (b.on TIM_CTL_INT_BAD) := by
  simp [Block.beaconBad, h3, hd]

/-! ## Accepted beacons -/

variable (b : Block) (beacon : Nat) (hold : Bool) (t e : Int)

theorem Block.rd_beaconSeen_of_ne (g : Fld) (hs : g.key ≠ TIM_STATUS_SRC_HOLD.key) (he : g.key ≠ TIM_STATUS_HOLD_ERR_US.key) :
    (b.beaconSeen hold).rd g = b.rd g := by
  unfold Block.beaconSeen
  rw [Block.rd_mk, Block.rd_wr_of_ne _ _ _ _ he, Block.rd_wrB_of_ne _ _ _ _ hs]

theorem Block.rd_beaconNext_of_ne (g : Fld) (h : g.key ≠ TIM_OFFSET_E.key) : (b.beaconNext beacon e).rd g = b.rd g := by
  unfold Block.beaconNext
  rw [Block.rd_mk, Block.rd_wr_of_ne _ _ _ _ h]

/-- Beacon `beacon` has been seen, and is kept with its offset from the local time. -/
def Block.beaconKept (b : Block) (beacon : Nat) (hold : Bool) : Block :=
  (b.beaconSeen hold).beaconNext beacon (timeDiff beacon b.now)

theorem Block.beaconKept_ns : (b.beaconKept beacon hold).time.ns = b.time.ns := by
  simp only [Block.beaconKept, Block.beaconNext, Block.beaconSeen, Block.wr_time, Block.wrB_time]

theorem Block.beaconKept_work : (b.beaconKept beacon hold).work = b.work := by
  simp only [Block.beaconKept, Block.beaconNext, Block.beaconSeen, Block.wr_work, Block.wrB_work]

theorem Block.rd_beaconKept_of_ne (g : Fld) (hs : g.key ≠ TIM_STATUS_SRC_HOLD.key) (he : g.key ≠ TIM_STATUS_HOLD_ERR_US.key)
    (ho : g.key ≠ TIM_OFFSET_E.key) : (b.beaconKept beacon hold).rd g = b.rd g :=
  (Block.rd_beaconNext_of_ne _ _ _ _ ho).trans (Block.rd_beaconSeen_of_ne _ _ _ hs he)

theorem Block.discipline_first (h : b.timState = timAcquire) :
    b.discipline beacon hold = ((b.beaconSeen hold).beaconFirst beacon, false, true) := by
  simp [Block.discipline, h]

theorem Block.discipline_ahead (h : b.timState ≠ timAcquire) (he : timeDiff beacon b.now ≤ -1000) :
    b.discipline beacon hold = ((b.beaconKept beacon hold).slewBack, false, false) := by
  simp [Block.discipline, h, he, Block.beaconKept]

theorem Block.discipline_steer (h : b.timState ≠ timAcquire) (he : -1000 < timeDiff beacon b.now) :
    b.discipline beacon hold
      = (b.beaconKept beacon hold).steer (timeDiff beacon b.time.bprev) (timeDiff beacon b.now) := by
  simp [Block.discipline, h, Block.beaconKept, show ¬ timeDiff beacon b.now ≤ -1000 by omega]

theorem clampInt_mem {lo hi : Int} (h : lo ≤ hi) (v : Int) : lo ≤ clampInt lo hi v ∧ clampInt lo hi v ≤ hi := by
  unfold clampInt
  split
  · omega
  · split <;> omega

/-- STATE after a run of good beacons. -/
theorem rd_lockState (good : Nat) : (if 8 ≤ good then timLocked else timTracking) % 2 ^ TIM_STATUS_STATE.width = timTracking
    ∨ (if 8 ≤ good then timLocked else timTracking) % 2 ^ TIM_STATUS_STATE.width = timLocked := by
  split
  · exact .inr rfl
  · exact .inl rfl

/-- An offset below a forward step sets the rate, within its bounds, and leaves the local time (R31). -/
theorem Block.steer_of_small (he : e < 1000) : (b.steer t e).2 = (false, false) ∧ (b.steer t e).1.time.ns = b.time.ns
    ∧ ((b.steer t e).1.rd TIM_STATUS_STATE = timTracking ∨ (b.steer t e).1.rd TIM_STATUS_STATE = timLocked)
    ∧ ∃ r : Int, -100000 ≤ r ∧ r ≤ 100000 ∧ (b.steer t e).1.rd TIM_RATE_RATE_PPB = ofSigned 18 r := by
  have hstep : decide (1000 ≤ e) = false := decide_eq_false (by omega)
  unfold Block.steer
  simp only [hstep, Bool.false_eq_true, if_false]
  refine ⟨trivial, ?_, ?_, ?_⟩
  · simp only [Block.wr_time, Block.setPpb]
  · rw [Block.rd_wr_self]
    exact rd_lockState _
  · refine ⟨?value, ?lower, ?upper, ?rate⟩
    case rate => rw [Block.rd_wr_of_ne _ _ _ _ (by decide), Block.rd_mk, Block.rd_setPpb_self]
    case lower => exact (clampInt_mem (by decide) _).1
    case upper => exact (clampInt_mem (by decide) _).2

/-- Registers that a forward step writes. -/
def steerKeys : List Nat :=
  [TIM_STATUS_STATE.key, TIM_STATUS_STEPPED.key, TIM_STEP_CNT_CNT.key, TIM_RATE_RATE_PPB.key, GLB_INT_PEND_PEND.key]

theorem steerKeys_below : ∀ k ∈ steerKeys, k < 0x61800 * 32 := by decide

/-- An offset of a forward step moves the local time by it, and TIM_STATUS and TIM_STEP_CNT show that (R31). -/
theorem Block.steer_of_large (he : 1000 ≤ e) : (b.steer t e).2 = (true, false)
    ∧ (b.steer t e).1.time.ns = (b.time.ns + e.toNat) % 2 ^ 64 ∧ (b.steer t e).1.work = b.work
    ∧ (b.steer t e).1.rd TIM_STATUS_STEPPED = 1
    ∧ (b.steer t e).1.rd TIM_STEP_CNT_CNT = min (b.rd TIM_STEP_CNT_CNT + 1) 0xFFFFFFFF
    ∧ ∀ g : Fld, g.key ∉ steerKeys → (b.steer t e).1.rd g = b.rd g := by
  have hstep : decide (1000 ≤ e) = true := decide_eq_true he
  unfold Block.steer
  simp only [hstep, if_true]
  refine ⟨trivial, ?_, ?_, ?_, ?_, fun g hg => ?_⟩
  · simp only [Block.wr_time, Block.setPpb, Block.intr_time, Block.bump_time, Block.setNow, Block.now]
  · simp only [Block.wr_work, Block.setPpb, Block.intr_work, Block.bump_work, Block.setNow]
  · rw [Block.rd_wr_of_ne _ _ _ _ (by decide), Block.rd_setPpb_of_ne _ _ _ (by decide), Block.rd_mk,
      Block.rd_intr _ _ _ _ (by decide), Block.rd_bump_of_ne _ _ _ (by decide), Block.rd_wr_self]
    rfl
  · rw [Block.rd_wr_of_ne _ _ _ _ (by decide), Block.rd_setPpb_of_ne _ _ _ (by decide), Block.rd_mk,
      Block.rd_intr _ _ _ _ (by decide), Block.rd_bump_self, Block.rd_wr_of_ne _ _ _ _ (by decide), Block.setNow, Block.rd_mk]
    rfl
  · simp only [steerKeys, List.mem_cons, List.not_mem_nil, or_false, not_or] at hg
    obtain ⟨hstate, hstepped, hcnt, hrate, hpend⟩ := hg
    rw [Block.rd_wr_of_ne _ _ _ _ hstate, Block.rd_setPpb_of_ne _ _ _ hrate, Block.rd_mk, Block.rd_intr _ _ _ _ hpend,
      Block.rd_bump_of_ne _ _ _ hcnt, Block.rd_wr_of_ne _ _ _ _ hstepped, Block.setNow, Block.rd_mk]

end Sys2Proof.Machine
end

section
/-! SUPPORT. Accepted beacons with the lights (R31, R51, R53): where no light is in use, a beacon acts on the time alone. -/

namespace Sys2Proof.Machine

open Reg

variable {b : Block} {beacon : Nat} {hold : Bool}

/-! ## Lights that are not in use -/

/-- An entry without an enabled verb is never due. -/
theorem Block.lightDue_of_unarmed {i : Nat} (h : (b.lightW i).armed = false) : b.lightDue i = false := by
  simp [Block.lightDue, h]

/-- A forward step does nothing to an entry that is neither armed nor in an on-time. -/
theorem Block.lightStepped_of_unused {i : Nat} (h : (b.lightW i).armed = false) (ha : b.lightActive i = false) :
    b.lightStepped i = b := by
  simp [Block.lightStepped, ha, Block.lightDue_of_unarmed h]

/-- The order of one cycle names entries of the list only. -/
theorem Block.mem_lightOrder {i : Nat} (h : i ∈ b.lightOrder) : i < 64 := by
  simp only [Block.lightOrder, List.mem_flatten, List.mem_map, List.mem_range] at h
  obtain ⟨l, ⟨r, -, rfl⟩, hi⟩ := h
  exact List.mem_range.mp (List.mem_filter.mp hi).1

theorem Block.steppedAll_of_unused (h : ∀ i, i < 64 → (b.lightW i).armed = false ∧ b.lightActive i = false) :
    forEach b.lightOrder b Block.lightStepped = b :=
  forEach_fixed _ _ _ (fun i hi =>
    Block.lightStepped_of_unused (h i (Block.mem_lightOrder hi)).1 (h i (Block.mem_lightOrder hi)).2)

theorem Block.lightW_congr {c : Block} (h : c.work = b.work) (i : Nat) : c.lightW i = b.lightW i := by
  rw [Block.lightW, Block.lightW, h]

/-- The status of the entries lies above the registers of the time. -/
theorem LGT_STATUS_ACTIVE_ne (i : Nat) {k : Nat} (h : k < 0x61800 * 32) : (LGT_STATUS_ACTIVE i).key ≠ k := by
  simp only [LGT_STATUS_ACTIVE, Fld.key]
  omega

/-! ## What a beacon leaves -/

section
variable (h3 : b.pwr.inS3 = false) (hd : b.pwr.dead = false)
include h3 hd

/-- The first beacon restarts no entry when none is armed. -/
theorem Block.beaconTaken_of_first (ha : b.timState = timAcquire) (hl : ∀ i, i < 64 → (b.lightW i).armed = false) :
    b.beaconTaken beacon hold = (b.beaconSeen hold).beaconFirst beacon := by
  have hwork : ((b.beaconSeen hold).beaconFirst beacon).work = b.work := rfl
  have hnone : (List.range 64).filter (fun i => (((b.beaconSeen hold).beaconFirst beacon).lightW i).armed) = [] := by
    refine List.filter_eq_nil_iff.mpr (fun i hi => ?_)
    rw [Block.lightW_congr hwork, hl i (List.mem_range.mp hi)]
    exact Bool.false_ne_true
  simp only [Block.beaconTaken, h3, hd, Bool.or_self, Bool.false_eq_true, if_false,
    Block.discipline_first b beacon hold ha, if_true, hnone, forEach_nil]

/-- A beacon that neither comes first nor steps forward acts on the time alone. -/
theorem Block.beaconTaken_of_still (h : (b.discipline beacon hold).2 = (false, false)) :
    b.beaconTaken beacon hold = (b.discipline beacon hold).1 := by
  simp only [Block.beaconTaken, h3, hd, Bool.or_self, Bool.false_eq_true, if_false, h]

/-- So does a forward step, but for the end of refresh windows, when no light is in use. -/
theorem Block.beaconTaken_of_step (h : (b.discipline beacon hold).2 = (true, false))
    (hl : ∀ i, i < 64 → ((b.discipline beacon hold).1.lightW i).armed = false
      ∧ (b.discipline beacon hold).1.lightActive i = false) :
    b.beaconTaken beacon hold = Block.freeRun (b.discipline beacon hold).1 (b.discipline beacon hold).1 := by
  simp only [Block.beaconTaken, h3, hd, Bool.or_self, Bool.false_eq_true, if_false, h, if_true, Block.steppedAll_of_unused hl]

end

theorem Block.freeRun_time (a b : Block) : (Block.freeRun a b).time = b.time :=
  forEach_keeps Block.time _ _ _ (fun s i => by split <;> rfl)

/-! ## The registers of each kind of beacon -/

theorem Block.beaconFirst_rd_of_ne (b : Block) (beacon : Nat) (g : Fld) (h : g.key ≠ TIM_STATUS_STATE.key) :
    (b.beaconFirst beacon).rd g = b.rd g := by
  unfold Block.beaconFirst
  rw [Block.rd_mk, Block.rd_wr_of_ne _ _ _ _ h, Block.setNow, Block.rd_mk]

theorem Block.beaconFirst_time (b : Block) (beacon : Nat) : (b.beaconFirst beacon).time =
    { b.time with ns := beacon % 2 ^ 64, frac := 0, f := 0, good := 0, bprev := beacon } := by
  simp only [Block.beaconFirst, Block.wr_time, Block.setNow]

theorem Block.beaconFirst_state (b : Block) (beacon : Nat) : (b.beaconFirst beacon).rd TIM_STATUS_STATE = timTracking := by
  unfold Block.beaconFirst
  rw [Block.rd_mk, Block.rd_wr_self]
  rfl

/-- Slewing back leaves the local time, and sets the state, its flag and the rate (R31). -/
theorem Block.slewBack_spec (b : Block) : b.slewBack.time.ns = b.time.ns ∧ b.slewBack.rd TIM_STATUS_STATE = timSlewing
    ∧ b.slewBack.rd TIM_STATUS_BACKSLEW = 1 ∧ b.slewBack.rd TIM_RATE_RATE_PPB = 2 ^ 18 - 100000 := by
  unfold Block.slewBack
  refine ⟨?_, ?_, ?_, ?_⟩
  · simp only [Block.intr_time, Block.wr_time, Block.setPpb]
  · rw [Block.rd_intr _ _ _ _ (by decide), Block.rd_mk, Block.rd_wr_of_ne _ _ _ _ (by decide), Block.rd_wr_self]
    rfl
  · rw [Block.rd_intr _ _ _ _ (by decide), Block.rd_mk, Block.rd_wr_self]
    rfl
  · rw [Block.rd_intr _ _ _ _ (by decide), Block.rd_mk, Block.rd_wr_of_ne _ _ _ _ (by decide),
      Block.rd_wr_of_ne _ _ _ _ (by decide), Block.rd_setPpb_self]
    rfl

end Sys2Proof.Machine
end

section
/-! SUPPORT. The firing of one light (R48 to R50, R61): the entries that act before it, the occurrence it uses up, the message of
a MARK, and the end of an on-time. -/

namespace Sys2Proof.Machine

open Reg

variable {b : Block} {i : Nat}

/-! ## The order of one cycle -/

theorem verbRank_lt (v : Nat) : verbRank v < 4 := by
  unfold verbRank
  split
  · decide
  split
  · decide
  split <;> decide

theorem Block.mem_lightOrder_of_lt (hi : i < 64) : i ∈ b.lightOrder := by
  simp only [Block.lightOrder, List.mem_flatten, List.mem_map, List.mem_range]
  refine ⟨_, ⟨_, verbRank_lt (b.lightW i).verb, rfl⟩, ?_⟩
  simp [hi]

theorem Block.lightFire_of_not_due (h : b.lightDue i = false) : b.lightFire i = b := by
  simp [Block.lightFire, h]

/-- Where no other entry is due, the occurrence of an entry is its firing alone (R49). -/
theorem Block.lightOccur_alone (hi : i < 64) (h : ∀ j, j < 64 → j ≠ i → b.lightDue j = false) :
    b.lightOccur i = b.lightFire i := by
  obtain ⟨before, after, horder, hnot⟩ := List.eq_append_cons_of_mem (Block.mem_lightOrder_of_lt (b := b) hi)
  have htake : b.lightOrder.take (b.lightOrder.idxOf i + 1) = before ++ [i] := by
    rw [horder, List.idxOf_append, if_neg hnot, List.idxOf_cons_self, Nat.zero_add, List.take_length_add_append,
      List.take_succ_cons, List.take_zero]
  have hbefore : forEach before b Block.lightFire = b := by
    refine forEach_fixed _ _ _ (fun j hj => Block.lightFire_of_not_due (h j ?_ ?_))
    · exact Block.mem_lightOrder (horder ▸ List.mem_append_left _ hj)
    · rintro rfl
      exact hnot hj
  calc b.lightOccur i
      = forEach (b.lightOrder.take (b.lightOrder.idxOf i + 1)) b Block.lightFire := rfl
    _ = forEach [i] (forEach before b Block.lightFire) Block.lightFire := by rw [htake, forEach_append]
    _ = b.lightFire i := by rw [hbefore]; rfl

/-! ## The occurrence -/

theorem Block.lightUnsync_parts (b : Block) (i : Nat) : b.lightUnsync i = { b with regs := (b.lightUnsync i).regs } := by
  unfold Block.lightUnsync
  split <;> rfl

theorem Block.rd_lightUnsync_of_ne (b : Block) (i : Nat) (g : Fld) (h : g.key ≠ (LGT_STATUS_UNSYNC i).key) :
    (b.lightUnsync i).rd g = b.rd g := by
  unfold Block.lightUnsync
  split
  · rfl
  · exact Block.rd_wr_of_ne _ _ _ _ h

theorem Block.lightUse_parts (b : Block) (i n : Nat) : b.lightUse i n = { b with
    regs := (b.lightUse i n).regs, lights := b.lights.upd i (fun l => { l with next := l.next + n }) } := by
  unfold Block.lightUse
  dsimp only
  split
  · rfl
  · split <;> rfl

/-- An entry with a COUNT shows what is left of it, and DONE when that is nothing (R50). -/
theorem Block.lightUse_of_count (b : Block) (i n : Nat) (hc : (b.lightW i).count ≠ 0) : (b.lightUse i n).regs =
    (if b.rd (LGT_STATUS_REMAIN i) - n = 0
      then (b.wr (LGT_STATUS_REMAIN i) (b.rd (LGT_STATUS_REMAIN i) - n)).wr (LGT_STATUS_DONE i) 1
      else b.wr (LGT_STATUS_REMAIN i) (b.rd (LGT_STATUS_REMAIN i) - n)).regs := by
  have hcount : ∀ l, ({ b with lights := l } : Block).wk (LGT_CTL_COUNT i) ≠ 0 := fun _ => hc
  unfold Block.lightUse
  dsimp only
  rw [if_neg (hcount _), Block.rd_mk]
  split <;> rfl

theorem Block.lightUse_rd (b : Block) (i n : Nat) (hc : (b.lightW i).count ≠ 0) :
    (b.lightUse i n).rd (LGT_STATUS_REMAIN i) = (b.rd (LGT_STATUS_REMAIN i) - n) % 2 ^ 16
      ∧ (b.rd (LGT_STATUS_REMAIN i) = n → (b.lightUse i n).rd (LGT_STATUS_DONE i) = 1) := by
  have hdone : (LGT_STATUS_REMAIN i).key ≠ (LGT_STATUS_DONE i).key := by
    simp only [LGT_STATUS_REMAIN, LGT_STATUS_DONE, Fld.key]
    omega
  have hrd (g : Fld) := Block.rd_congr _ g (b.lightUse_of_count i n hc)
  rw [hrd, hrd]
  refine ⟨?_, fun hn => ?_⟩
  · split
    · rw [Block.rd_wr_of_ne _ _ _ _ hdone, Block.rd_wr_self]
      rfl
    · exact Block.rd_wr_self _ _ _
  · rw [if_pos (by omega), Block.rd_wr_self]
    rfl

/-- The occurrence is used up, before its action. -/
def Block.lightTaken (b : Block) (i : Nat) : Block := (b.lightUnsync i).lightUse i 1

theorem Block.lightTaken_parts (b : Block) (i : Nat) : b.lightTaken i = { b with
    regs := (b.lightTaken i).regs, lights := b.lights.upd i (fun l => { l with next := l.next + 1 }) } := by
  unfold Block.lightTaken
  rw [Block.lightUse_parts, Block.lightUnsync_parts]

theorem Block.lightTaken_rd (b : Block) (i : Nat) (hc : (b.lightW i).count ≠ 0) :
    (b.lightTaken i).rd (LGT_STATUS_REMAIN i) = (b.rd (LGT_STATUS_REMAIN i) - 1) % 2 ^ 16
      ∧ (b.rd (LGT_STATUS_REMAIN i) = 1 → (b.lightTaken i).rd (LGT_STATUS_DONE i) = 1) := by
  have hunsync : (LGT_STATUS_REMAIN i).key ≠ (LGT_STATUS_UNSYNC i).key := by
    simp only [LGT_STATUS_REMAIN, LGT_STATUS_UNSYNC, Fld.key]
    omega
  have h := Block.lightUse_rd (b.lightUnsync i) i 1 (by rw [Block.lightUnsync_parts]; exact hc)
  rwa [Block.rd_lightUnsync_of_ne _ _ _ hunsync] at h

/-! ## MARK -/

/-- The event of MARK entry `i` (R61). -/
def markEvent (i arg : Nat) : Event :=
  { code := 3, kind := 0, form := 1, addr := arg + i * 2 ^ 32, unit_ := .none, sev := none }

theorem Block.lightFire_mark (hdue : b.lightDue i = true) (hv : (b.lightW i).verb = 8) : b.lightFire i =
    ((b.lightTaken i).count ctrRegu 10 1 default).eventAt (markEvent i (b.lightW i).arg)
      ((b.lightW i).instant (b.lights.get i).next % 2 ^ 64) := by
  have hw : (b.lightTaken i).lightW i = b.lightW i := Block.lightW_congr (by rw [Block.lightTaken_parts]) i
  rw [Block.lightFire, if_pos hdue]
  show (b.lightTaken i).lightAct i _ = _
  rw [Block.lightAct, hw]
  simp only [hv]
  rw [Block.lightMark, hw]
  rfl

theorem eventKeys_outside : ∀ k ∈ eventKeys, k < 0x61800 * 32 ∨ 0x61900 * 32 ≤ k := by decide

/-- The count and the event of a MARK leave the status words of the entries. -/
theorem Block.rd_marked (b : Block) (e : Event) (t : Nat) (g : Fld) (hlo : 0x61800 * 32 ≤ g.key) (hhi : g.key < 0x61900 * 32) :
    ((b.count ctrRegu 10 1 default).eventAt e t).rd g = b.rd g := by
  have hkeys : g.key ∉ eventKeys := fun hm => by have := eventKeys_outside _ hm; omega
  have hpend : g.key ≠ GLB_INT_PEND_PEND.key := fun h => hkeys (h ▸ List.mem_cons_self)
  rw [Block.eventAt_rd _ _ _ _ hkeys, (Block.countedTo_count b ctrRegu 10 1 default).2 g (by omega) hpend]

/-! ## The end of an on-time -/

theorem Block.freeRun_parts (a b : Block) : Block.freeRun a b = { b with subs := (Block.freeRun a b).subs } := by
  refine forEach_inv (fun t : Block => t = { b with subs := t.subs }) _ _ _ (fun t s _ ht => ?_) rfl
  split
  · exact congrArg (fun x : Block => x.updSub s (fun u => { u with tickAt := t.now, tickLen := 0 })) ht
  · exact ht

theorem Block.lightOnTimeOver_of_due (hr : b.lightsRun = true) (hn : (b.lights.get i).onEnd ≤ b.now)
    (ha : b.lightActive i = true) (hv : (b.lightW i).verb ≠ 6) : b.lightOnTimeOver i = b.wr (LGT_STATUS_ACTIVE i) 0 := by
  simp [Block.lightOnTimeOver, hr, hn, Block.lightEnd, ha, hv]

end Sys2Proof.Machine
end

section
/-! SUPPORT. Commits of the light list (R43 to R47, R204): what GO takes, what the end of a check shows, and the working values
that a passed check leaves. -/

namespace Sys2Proof.Machine

open Reg

/-! ## GO -/

/-- A block that is not BUSY takes the shadow list, and BUSY shows it (R43). -/
theorem Block.lightGo_of_idle {b : Block} (h : b.rd LGT_COMMIT_STATUS_BUSY = 0) : b.lightGo =
    ({ b with lgtSnap := b.regs.filter (fun e => isLightKey e.1), lgtRun := !b.regu.running }).wr LGT_COMMIT_STATUS_BUSY 1 := by
  simp [Block.lightGo, (Block.on_false _ _).mpr h]

theorem Block.lightGo_parts (b : Block) :
    b.lightGo = { b with regs := b.lightGo.regs, lgtSnap := b.lightGo.lgtSnap, lgtRun := b.lightGo.lgtRun } := by
  unfold Block.lightGo
  split <;> rfl

theorem Block.rd_lightGo_of_ne (b : Block) (g : Fld) (hg : g.key ≠ LGT_COMMIT_STATUS_BUSY.key) : b.lightGo.rd g = b.rd g := by
  unfold Block.lightGo
  split
  · rfl
  · exact Block.rd_wr_of_ne _ _ _ _ hg

/-- The word of LGT_COMMIT with GO. -/
def lgtGoWord : Word := withField (0 : Word) LGT_COMMIT_GO 1

/-- A granted LGT_COMMIT as its action finds the block: recorded, and GO holds 1. -/
def Block.lgtNoted (b : Block) (role : Role) : Block :=
  (b.noted role reg_LGT_COMMIT LGT_COMMIT_GO.off lgtGoWord).wr LGT_COMMIT_GO 1

theorem Block.lgtNoted_rd (b : Block) (role : Role) (g : Fld) (hg : g.key ∉ LGT_COMMIT_GO.key :: audKeys) :
    (b.lgtNoted role).rd g = b.rd g := by
  rw [List.mem_cons, not_or] at hg
  rw [Block.lgtNoted, Block.rd_wr_of_ne _ _ _ _ hg.1, Block.noted_rd _ _ _ _ _ _ hg.2]

/-- A granted LGT_COMMIT before its answer. -/
def Block.lgtGone (b : Block) (role : Role) : Block := (b.lgtNoted role).lightGo.wr LGT_COMMIT_GO 0

theorem Block.performReg_LGT_COMMIT (b : Block) (role : Role) (old : Nat) (x : Aux) :
    b.performReg role reg_LGT_COMMIT [] LGT_COMMIT_GO.off old lgtGoWord x
      = (b.wr LGT_COMMIT_GO 1).lightGo.wr LGT_COMMIT_GO 0 := by
  have hw : lgtGoWord.toNat = 1 := by decide
  simp [Block.performReg, reg_LGT_COMMIT, Block.deafInstance, Block.idleInstance, isMnt, Block.storeWord, Block.fieldKept,
    Block.writeEffect, Block.dropActions, FieldInfo.at_, indexReset, LGT_COMMIT_GO, hw, bitOf]

theorem exec_lightCommitGo (s : State) (role : Role) (hg : s.grants role LGT_COMMIT_GO.off lgtGoWord) :
    exec (.lightCommitGo role) s = .next { s with block := (s.block.lgtGone role).mgAnswer false 0 } := by
  have hroom : s.block.recRoom (1 + s.block.fenceRecs reg_LGT_COMMIT.name lgtGoWord.toNat) = true := hg.2.2.2
  exact (writeReg_go default hg find_LGT_COMMIT (by decide) (by decide) (by decide) hroom).trans
    (by rw [Block.written, Block.performReg_LGT_COMMIT]; rfl)

theorem Block.lgtGone_parts (b : Block) (role : Role) : b.lgtGone role = { b with
    regs := (b.lgtGone role).regs, mg := (b.noted role reg_LGT_COMMIT LGT_COMMIT_GO.off lgtGoWord).mg
    lgtSnap := (b.lgtGone role).lgtSnap, lgtRun := (b.lgtGone role).lgtRun } := by
  simp only [Block.lgtGone, Block.wr]
  rw [Block.lightGo_parts]
  simp only [Block.lgtNoted, Block.wr]
  rw [Block.noted_parts]

theorem Block.lgtGone_regsBut (b : Block) (role : Role) :
    b.regsBut (b.lgtGone role) ([LGT_COMMIT_GO.key, LGT_COMMIT_STATUS_BUSY.key] ++ audKeys) := by
  intro g hg
  simp only [List.cons_append, List.nil_append, List.mem_cons, not_or] at hg
  obtain ⟨hgo, hbusy, haud⟩ := hg
  have hnot : g.key ∉ LGT_COMMIT_GO.key :: audKeys := by simp [hgo, haud]
  rw [Block.lgtGone, Block.rd_wr_of_ne _ _ _ _ hgo, Block.rd_lightGo_of_ne _ _ hbusy, Block.lgtNoted_rd _ _ _ hnot]

/-- The fields of the list are not those that the command itself writes. -/
theorem isLightKey_of_mem_go : ∀ k ∈ LGT_COMMIT_GO.key :: audKeys, isLightKey k = false := by decide

/-- A block that is not BUSY sets it, and its snapshot reads as the shadow does (R43, R204). -/
theorem Block.lgtGone_of_idle (b : Block) (role : Role) (h : b.rd LGT_COMMIT_STATUS_BUSY = 0) :
    (b.lgtGone role).rd LGT_COMMIT_STATUS_BUSY = 1 ∧ (b.lgtGone role).lgtRun = !b.regu.running
      ∧ ∀ f : Fld, isLightKey f.key = true → fldGet (b.lgtGone role).lgtSnap f = b.rd f := by
  have hidle : (b.lgtNoted role).rd LGT_COMMIT_STATUS_BUSY = 0 := (Block.lgtNoted_rd _ _ _ (by decide)).trans h
  rw [Block.lgtGone, Block.lightGo_of_idle hidle, Block.rd_wr_of_ne _ _ _ _ (by decide), Block.rd_wr_self]
  refine ⟨rfl, congrArg (fun r : ReguSt => !r.running) (Block.noted_regu ..), fun f hf => ?_⟩
  have hnot : f.key ∉ LGT_COMMIT_GO.key :: audKeys := fun hm => by simp [isLightKey_of_mem_go _ hm] at hf
  exact (fldGet_filter _ isLightKey f hf).trans (Block.lgtNoted_rd _ _ _ hnot)

/-! ## What taking a list leaves -/

/-- `t` keeps the working values of `b`, and every register field below the status of the entries: what an on-time's end and a
restart write lies there and above. -/
def Block.keepsBelow (b t : Block) : Prop := t.work = b.work ∧ ∀ g : Fld, g.key < 0x61800 * 32 → t.rd g = b.rd g

theorem Block.keepsBelow_refl (b : Block) : b.keepsBelow b := ⟨rfl, fun _ _ => rfl⟩

section
variable {b t : Block} (h : b.keepsBelow t)
include h

theorem Block.keepsBelow_wr {f : Fld} (v : Nat) (hf : 0x61800 * 32 ≤ f.key) : b.keepsBelow (t.wr f v) :=
  ⟨h.1, fun g hg => (Block.rd_wr_of_ne _ _ _ _ (by omega)).trans (h.2 g hg)⟩

theorem Block.keepsBelow_ite {u : Block} (hu : b.keepsBelow u) (p : Prop) [Decidable p] :
    b.keepsBelow (if p then t else u) := by
  split
  · exact h
  · exact hu

theorem Block.keepsBelow_wake (n : Nat) : b.keepsBelow (t.wake n) := by
  have hpwr (p : PwrSt) : b.keepsBelow { t with pwr := p } := h
  have hlatched (p : PwrSt) := Block.keepsBelow_wr (hpwr p) (f := PWR_CH_STATUS_WAKE_LATCHED n) 1
    (by simp only [PWR_CH_STATUS_WAKE_LATCHED, Fld.key]; omega)
  have hmoving (p : PwrSt) := Block.keepsBelow_wr (hpwr p) (f := PWR_CH_STATUS_MOVING n) 1
    (by simp only [PWR_CH_STATUS_MOVING, Fld.key]; omega)
  unfold Block.wake
  split
  · exact h
  · exact hlatched _
  · exact Block.keepsBelow_ite (hmoving _) h _

theorem Block.keepsBelow_lightEnd (i : Nat) : b.keepsBelow (t.lightEnd i) := by
  have hactive := Block.keepsBelow_wr h (f := LGT_STATUS_ACTIVE i) 0 (by simp only [LGT_STATUS_ACTIVE, Fld.key]; omega)
  have hbreach := Block.keepsBelow_wr hactive (f := LGT_STATUS_BREACH i) 1 (by simp only [LGT_STATUS_BREACH, Fld.key]; omega)
  unfold Block.lightEnd
  dsimp only
  split
  · split
    · exact hactive
    split
    · exact hbreach
    · exact forEach_inv b.keepsBelow _ _ _ (fun _ n _ hu => Block.keepsBelow_wake hu n) hactive
  · exact h

theorem Block.keepsBelow_lightUse (i n : Nat) : b.keepsBelow (t.lightUse i n) := by
  have hremain (v : Nat) := Block.keepsBelow_wr h (f := LGT_STATUS_REMAIN i) v (by simp only [LGT_STATUS_REMAIN, Fld.key]; omega)
  have hdone (v : Nat) := Block.keepsBelow_wr (hremain v) (f := LGT_STATUS_DONE i) 1
    (by simp only [LGT_STATUS_DONE, Fld.key]; omega)
  unfold Block.lightUse
  dsimp only
  split
  · exact h
  · split
    · exact hdone _
    · exact hremain _

theorem Block.keepsBelow_lightSkip (i n : Nat) : b.keepsBelow (t.lightSkip i n) := by
  unfold Block.lightSkip
  split
  · exact h
  · exact Block.keepsBelow_lightUse (Block.keepsBelow_wr h _ (by simp only [LGT_STATUS_SKIP, Fld.key]; omega)) i n

theorem Block.keepsBelow_lightRestart (i instant : Nat) : b.keepsBelow (t.lightRestart i instant) := by
  have hwritten (l : Tab LightRt) (v : Nat) : b.keepsBelow
      ((({ t with lights := l } : Block).wr (LGT_STATUS_DONE i) 0).wr (LGT_STATUS_REMAIN i) v) :=
    Block.keepsBelow_wr (Block.keepsBelow_wr (t := { t with lights := l }) h 0 (by simp only [LGT_STATUS_DONE, Fld.key]; omega)) v
      (by simp only [LGT_STATUS_REMAIN, Fld.key]; omega)
  unfold Block.lightRestart
  exact Block.keepsBelow_ite (Block.keepsBelow_lightSkip (hwritten _ _) i _) (hwritten _ _) _

end

/-- Taking a checked list makes its values the working ones, and leaves the registers below the status of the entries (R45). -/
theorem Block.lightTake_spec (b : Block) (t : Tab Nat) : (b.lightTake t).work = b.work.overlay t isLightKey
    ∧ ∀ g : Fld, g.key < 0x61800 * 32 → (b.lightTake t).rd g = b.rd g := by
  unfold Block.lightTake
  extract_lets changed ended taken
  have hended : b.keepsBelow ended :=
    forEach_inv b.keepsBelow _ _ _ (fun _ i _ hu => Block.keepsBelow_lightEnd hu i) (Block.keepsBelow_refl b)
  have hrestarted : taken.keepsBelow (forEach changed taken fun b i => b.lightRestart i b.now) :=
    forEach_inv taken.keepsBelow _ _ _ (fun _ i _ hu => Block.keepsBelow_lightRestart hu i _) (Block.keepsBelow_refl taken)
  refine ⟨hrestarted.1.trans ?_, fun g hg => (hrestarted.2 g hg).trans (hended.2 g hg)⟩
  show ended.work.overlay t isLightKey = _
  rw [hended.1]

/-! ## The end of a check -/

/-- The check has ended with CODE and INDEX, and its snapshot is given up (R43). -/
def Block.lgtShown (b : Block) (code idx : Nat) : Block :=
  { ((b.wr LGT_COMMIT_STATUS_BUSY 0).wr LGT_COMMIT_STATUS_CODE code).wr LGT_COMMIT_STATUS_INDEX idx with
    lgtRun := false, lgtSnap := [] }

/-- A regulator check that waited behind the list's starts (R204). -/
def Block.reguFreed (b : Block) : Block :=
  if b.on REGU_COMMIT_STATUS_BUSY then { b with regu := { b.regu with running := true } } else b

theorem Block.reguFreed_parts (b : Block) : b.reguFreed = { b with regu := b.reguFreed.regu } := by
  unfold Block.reguFreed
  split <;> rfl

/-- Without a commit of the regulator pending, its check is that of the list under the working ENABLE. -/
theorem Block.lightDone_of_running {b : Block} {code idx : Nat} (hb : b.rd LGT_COMMIT_STATUS_BUSY ≠ 0) (hr : b.lgtRun = true)
    (hp : b.rd REGU_COMMIT_STATUS_PENDING = 0)
    (hj : lightJudge b.lgtSnap b.refPar b.harbour (b.wk REGU_CTL_ENABLE != 0) = (code, idx)) : b.lightDone =
    (if code = 0 then (b.lgtShown code idx).lightTake b.lgtSnap else b.lgtShown code idx).reguFreed := by
  have hrun : (b.on LGT_COMMIT_STATUS_BUSY && b.lgtRun) = true := by rw [(Block.on_iff _ _).mpr hb, hr]; rfl
  have hpend : b.on REGU_COMMIT_STATUS_PENDING = false := (Block.on_false _ _).mpr hp
  unfold Block.lightDone
  simp only [hrun, if_true, hpend, Bool.false_and, Bool.or_false, hj]
  rfl

theorem Block.lgtShown_status (b : Block) {code idx : Nat} (hc : code < 16) (hi : idx < 64) :
    (b.lgtShown code idx).rd LGT_COMMIT_STATUS_BUSY = 0 ∧ (b.lgtShown code idx).rd LGT_COMMIT_STATUS_CODE = code
      ∧ (b.lgtShown code idx).rd LGT_COMMIT_STATUS_INDEX = idx := by
  unfold Block.lgtShown
  refine ⟨?_, ?_, ?_⟩
  · rw [Block.rd_mk, Block.rd_wr_of_ne _ _ _ _ (by decide), Block.rd_wr_of_ne _ _ _ _ (by decide), Block.rd_wr_self]
    rfl
  · rw [Block.rd_mk, Block.rd_wr_of_ne _ _ _ _ (by decide), Block.rd_wr_self]
    exact Nat.mod_eq_of_lt hc
  · rw [Block.rd_mk, Block.rd_wr_self]
    exact Nat.mod_eq_of_lt hi

theorem Block.lgtShown_regsBut (b : Block) (code idx : Nat) : b.regsBut (b.lgtShown code idx)
    [LGT_COMMIT_STATUS_BUSY.key, LGT_COMMIT_STATUS_CODE.key, LGT_COMMIT_STATUS_INDEX.key] := by
  intro g hg
  simp only [List.mem_cons, List.not_mem_nil, or_false, not_or] at hg
  obtain ⟨hbusy, hcode, hidx⟩ := hg
  rw [Block.lgtShown, Block.rd_mk, Block.rd_wr_of_ne _ _ _ _ hidx, Block.rd_wr_of_ne _ _ _ _ hcode,
    Block.rd_wr_of_ne _ _ _ _ hbusy]

/-- What the freed regulator check and the end of refresh windows keep of a block. -/
theorem Block.freeRun_reguFreed (a b : Block) : (Block.freeRun a b.reguFreed).work = b.work
    ∧ (Block.freeRun a b.reguFreed).lights = b.lights ∧ ∀ g : Fld, (Block.freeRun a b.reguFreed).rd g = b.rd g := by
  rw [Block.freeRun_parts, Block.reguFreed_parts]
  exact ⟨rfl, rfl, fun g => rfl⟩

end Sys2Proof.Machine
end

section
/-! SUPPORT. The statements of the chapter on the rack time and the light list, settled. -/

namespace Sys2Proof

open Machine Machine.Reg

/-- Settles O2: by the power state, each way of passing time adds its period to the 96-bit time, and the counts that go with it
touch neither the time nor a working value. -/
theorem emptyQueuePassesTime : Obligations.EmptyQueuePassesTime := by
  intro b
  refine ⟨b.idle, rfl, Block.idle_nvm b, Block.idle_work b, Block.idle_of_dead, fun hd h3 => ?_, fun hd h3 => ?_⟩
  · rw [Block.idle_of_inS3 hd h3]
    exact Block.aoTick_total b
  · obtain ⟨r, hr, hinc⟩ := tickInc_eq b.ppb (Config.tickRound b.fresh)
    refine ⟨r, hr, (Block.idle_total_of_on hd h3).trans ?_⟩
    rw [hinc]
    rfl

/-- Settles O12: by the state and the offset, each beacon is one case of the discipline, and without lights in use it acts on the
time alone. -/
theorem beaconsDisciplineTheTime : Obligations.BeaconsDisciplineTheTime := by
  intro s beacon hold h3 hd
  have acts {P : Block → Prop} (h : P (s.block.beaconTaken beacon.toNat hold)) : s.answers (.beaconAccepted beacon hold) P :=
    State.answers_onBlock (f := fun b => b.beaconTaken beacon.toNat hold) rfl h
  refine ⟨fun ha hl => acts ?_, fun ha he => acts ?_, fun ha hlo hhi => acts ?_, fun ha he hl => acts ?_⟩
  · rw [Block.beaconTaken_of_first h3 hd ha hl]
    refine ⟨?_, Block.beaconFirst_state _ _, ?_, ?_, ?_⟩
    · rw [Block.now, Block.beaconFirst_time]
      exact Nat.mod_eq_of_lt beacon.isLt
    · rw [Block.beaconFirst_rd_of_ne _ _ _ (by decide), Block.rd_beaconSeen_of_ne _ _ _ (by decide) (by decide)]
    · rw [Block.beaconFirst_time]
    · rw [Block.beaconFirst_time]
  · have hdisc := Block.discipline_ahead s.block beacon.toNat hold ha he
    obtain ⟨hns, hregs⟩ := Block.slewBack_spec (s.block.beaconKept beacon.toNat hold)
    rw [Block.beaconTaken_of_still h3 hd (congrArg Prod.snd hdisc), hdisc]
    exact ⟨by rw [Block.now, hns, Block.beaconKept_ns, Block.now], hregs⟩
  · have hdisc := Block.discipline_steer s.block beacon.toNat hold ha hlo
    obtain ⟨hstill, hns, hregs⟩ := Block.steer_of_small (s.block.beaconKept beacon.toNat hold)
      (timeDiff beacon.toNat s.block.time.bprev) _ hhi
    rw [← hdisc] at hstill hns hregs
    rw [Block.beaconTaken_of_still h3 hd hstill]
    exact ⟨by rw [Block.now, hns, Block.beaconKept_ns, Block.now], hregs⟩
  · have hdisc := Block.discipline_steer s.block beacon.toNat hold ha (by omega)
    obtain ⟨hstep, hns, hwork, hstepped, hcnt, hkeep⟩ := Block.steer_of_large (s.block.beaconKept beacon.toNat hold)
      (timeDiff beacon.toNat s.block.time.bprev) _ he
    rw [← hdisc] at hstep hns hwork hstepped hcnt hkeep
    rw [Block.beaconTaken_of_step h3 hd hstep (fun i hi => ?_)]
    · refine ⟨?_, (Block.freeRun_rd ..).trans hstepped, (Block.freeRun_rd ..).trans (hcnt.trans ?_)⟩
      · rw [Block.now, Block.freeRun_time, hns, Block.beaconKept_ns, Block.now]
      · rw [Block.rd_beaconKept_of_ne _ _ _ _ (by decide) (by decide) (by decide)]
    · obtain ⟨hunarmed, hinactive⟩ := hl i hi
      have hactive := (hkeep (LGT_STATUS_ACTIVE i) (fun hm => LGT_STATUS_ACTIVE_ne i (steerKeys_below _ hm) rfl)).trans
        (Block.rd_beaconKept_of_ne _ _ _ _ (LGT_STATUS_ACTIVE_ne i (by decide)) (LGT_STATUS_ACTIVE_ne i (by decide))
          (LGT_STATUS_ACTIVE_ne i (by decide)))
      refine ⟨by rwa [Block.lightW_congr (hwork.trans (Block.beaconKept_work ..))], ?_⟩
      rwa [Block.lightActive, Block.on, hactive]

/-- Settles O13: the entry of HOLDOVER writes the rate and the state before its event, which keeps both, and a discarded beacon is
three register writes. -/
theorem holdoverAndDiscardedBeacons : Obligations.HoldoverAndDiscardedBeacons := by
  intro s
  refine ⟨fun h => ?_, fun ha hh => State.answers_onBlock rfl ?_, fun h => ?_, fun h3 hd => State.answers_onBlock rfl ?_⟩
  · exact (onBlock_next s Block.holdover).trans (by rw [Block.holdover_of_out h])
  · rw [Block.holdover_of_in ha hh]
    have hkeep (g : Fld) (hg : g.key ∉ eventKeys) := Block.eventAt_rd s.block.heldOver holdoverEvent s.block.now g hg
    have hparts := Block.eventAt_parts s.block.heldOver holdoverEvent s.block.now
    obtain ⟨hvalid, hlast⟩ := Block.eventAt_rec s.block.heldOver holdoverEvent s.block.now
    refine ⟨?_, ?_, ?_, ?_, hvalid, hlast, fun hi => ?_, ?_, fun g hg => ?_⟩
    · exact (hkeep _ (by decide)).trans (Block.heldOver_state _)
    · exact (hkeep _ (by decide)).trans (Block.heldOver_entered _)
    · exact (hkeep _ (by decide)).trans (Block.heldOver_rate _)
    · rw [Block.now, hparts, Block.heldOver_parts, Block.now]
    · exact Block.bit_eventAt_of_bit (by decide) (Block.heldOver_pending _ hi) _ _
    · rw [hparts, Block.heldOver_parts]
    · simp only [List.mem_cons, List.not_mem_nil, or_false, not_or] at hg
      obtain ⟨hrate, hstate, hentered, hpend, hsev, hlost, hcnt⟩ := hg
      exact (hkeep g (by simp [eventKeys, hpend, hsev, hlost, hcnt])).trans (Block.heldOver_rd _ _ hpend hrate hstate hentered)
  · exact (onBlock_next s Block.beaconBad).trans (by rw [Block.beaconBad_of_down h])
  · rw [Block.beaconBad_of_up h3 hd]
    refine ⟨?_, ?_, fun hi => ?_, fun hi => ?_, ?_⟩
    · rw [Block.rd_intr _ _ _ _ (by decide), Block.rd_bump_of_ne _ _ _ (by decide), Block.rd_wr_self]
      rfl
    · rw [Block.rd_intr _ _ _ _ (by decide), Block.rd_bump_self, Block.rd_wr_of_ne _ _ _ _ (by decide)]
      rfl
    · rw [(Block.on_iff _ _).mpr hi]
      exact Block.bit_intr _ 19 (by decide)
    · rw [(Block.on_false _ _).mpr hi, Block.intr, if_neg (by decide), Block.rd_bump_of_ne _ _ _ (by decide),
        Block.rd_wr_of_ne _ _ _ _ (by decide)]
    · exact Block.onlyRegs_intr (Block.onlyRegs_bump (Block.onlyRegs_wr (Block.onlyRegs_refl _ _) 1 (by decide)) (by decide)) _
        (by decide)

/-- Settles O14: GO is a granted write whose action takes the shadow; at the end of the check only the status changes when it
fails, and the working values become the snapshot's when it passes. -/
theorem lightCommitChecksTheShadow : Obligations.LightCommitChecksTheShadow := by
  intro s
  have ends {P : Block → Prop} (h : P (Block.freeRun s.block s.block.lightDone)) : s.answers .lightCommitDone P :=
    State.answers_onBlock (f := fun b => Block.freeRun b b.lightDone) rfl h
  refine ⟨fun role hg hb => ?_, fun code idx hb hr hpos hc hi _ hp hj => ends ?_, fun hj hb hr hp => ends ?_⟩
  · obtain ⟨hbusy, hrun, hsnap⟩ := Block.lgtGone_of_idle s.block role hb
    have hparts := Block.lgtGone_parts s.block role
    have hmg := congrArg Block.mg hparts
    refine ⟨_, exec_lightCommitGo s role hg, rfl, hbusy, hsnap, hrun,
      ⟨⟨rfl, rfl⟩, ?_, ?_, Block.lgtGone_regsBut s.block role⟩, ?_⟩
    · exact (congrArg MgmtSt.held hmg).trans (Block.noted_held ..)
    · exact (congrArg MgmtSt.latch hmg).trans (Block.noted_latch ..)
    · simp only [Block.mgAnswer]
      rw [hparts]
  · obtain ⟨hbusy, hcode, hidx⟩ := Block.lgtShown_status s.block hc hi
    obtain ⟨hwork, hlights, hrd⟩ := Block.freeRun_reguFreed s.block (s.block.lgtShown code idx)
    rw [Block.lightDone_of_running hb hr hp hj, if_neg (Nat.ne_of_gt hpos)]
    exact ⟨(hrd _).trans hbusy, (hrd _).trans hcode, (hrd _).trans hidx, hwork, hlights,
      fun g hg => (hrd g).trans (Block.lgtShown_regsBut s.block code idx g hg)⟩
  · obtain ⟨hbusy, hcode, -⟩ := Block.lgtShown_status s.block (code := 0) (idx := 0x3F) (by decide) (by decide)
    obtain ⟨htaken, hkeep⟩ := Block.lightTake_spec (s.block.lgtShown 0 0x3F) s.block.lgtSnap
    obtain ⟨hwork, -, hrd⟩ := Block.freeRun_reguFreed s.block ((s.block.lgtShown 0 0x3F).lightTake s.block.lgtSnap)
    rw [Block.lightDone_of_running hb hr hp hj, if_pos rfl]
    refine ⟨(hrd _).trans ((hkeep _ (by decide)).trans hbusy),
      (hrd _).trans ((hkeep _ (by decide)).trans hcode), fun f hf => ?_⟩
    rw [Block.wk, hwork, htaken, fldGet_overlay, if_pos hf]

/-- Settles O15: alone in its cycle the MARK entry fires after what it uses up is counted, and its event leaves that count; the
end of an on-time of another verb than POWER writes ACTIVE alone. -/
theorem lightsFireAndEnd : Obligations.LightsFireAndEnd := by
  intro s i
  refine ⟨fun hdue hv hothers hc => ?_, fun hr hn ha hv => ?_⟩
  · refine State.answers_onBlock (f := fun b => b.lightOccur i) rfl ?_
    rw [Block.lightOccur_alone i.isLt hothers, Block.lightFire_mark hdue hv]
    obtain ⟨hremain, hdone⟩ := Block.lightTaken_rd s.block i hc
    refine ⟨?_, ?_, fun h1 => ?_, (Block.eventAt_rec _ (markEvent i (s.block.lightW i).arg) _).2, fun hroom => ?_⟩
    · rw [Block.eventAt_parts, Block.count_lights, Block.lightTaken_parts]
      dsimp only
      rw [Tab.upd, Tab.get_set_self]
    · refine (Block.rd_marked _ _ _ _ ?_ ?_).trans hremain
      all_goals simp only [LGT_STATUS_REMAIN, Fld.key]; omega
    · refine (Block.rd_marked _ _ _ _ ?_ ?_).trans (hdone h1)
      all_goals simp only [LGT_STATUS_DONE, Fld.key]; omega
    · have hflt : ((s.block.lightTaken i).count ctrRegu 10 1 default).flt = s.block.flt := by
        rw [Block.count_flt, Block.lightTaken_parts]
      rw [Block.eventAt_msgs _ _ _ (by rwa [hflt]), hflt]
      exact ⟨_, rfl⟩
  · refine State.answers_onBlock (f := fun b => Block.freeRun b (b.lightOnTimeOver i)) rfl ?_
    rw [Block.lightOnTimeOver_of_due hr hn ha hv]
    refine ⟨(Block.freeRun_rd ..).trans (Block.rd_wr_self ..), ?_, fun g hg => ?_⟩
    · rw [Block.freeRun_parts]
      rfl
    · exact (Block.freeRun_rd ..).trans (Block.rd_wr_of_ne _ _ _ _ (List.ne_of_not_mem_cons hg))

end Sys2Proof
end

section
/-! SUPPORT. The end of an image load (R82 to R85, R87): what it shows, and what it leaves of the block. -/

namespace Sys2Proof.Machine

open Reg

/-! ## What the image loader may change -/

/-- `t` is `b` but for the registers, the management state and the image loader, and the loader has the sections it had in
force; of the register fields only those of the keys `ks` may differ. -/
def Block.loaderOnly (b t : Block) (ks : List Nat) : Prop :=
  t = { b with regs := t.regs, mg := t.mg, img := t.img } ∧ t.img.secs = b.img.secs ∧ t.img.applied = b.img.applied ∧
    b.regsBut t ks

theorem Block.loaderOnly_refl (b : Block) (ks : List Nat) : b.loaderOnly b ks := ⟨rfl, rfl, rfl, fun _ _ => rfl⟩

theorem Block.loaderOnly_trans {b t u : Block} {ks ls ms : List Nat} (h : b.loaderOnly t ks) (k : t.loaderOnly u ls)
    (hks : ks ⊆ ms) (hls : ls ⊆ ms) : b.loaderOnly u ms := by
  obtain ⟨hparts, hsecs, happ, hrd⟩ := h
  obtain ⟨kparts, ksecs, kapp, krd⟩ := k
  refine ⟨?_, ksecs.trans hsecs, kapp.trans happ, fun g hg => ?_⟩
  · rw [hparts] at kparts
    exact kparts
  · rw [krd g (fun hm => hg (hls hm)), hrd g (fun hm => hg (hks hm))]

/-! ## The record of an event of the block's own (R527, R530) -/

theorem Block.audOwn_parts (b : Block) (slot : Nat) (r : AudRec) :
    b.audOwn slot r = { b with regs := (b.audOwn slot r).regs, mg := (b.audOwn slot r).mg } := by
  have hlost : b.audLost = { b with regs := b.audLost.regs } := by
    rw [Block.audLost, Block.intr_parts]
    rfl
  unfold Block.audOwn
  split
  · rw [hlost]
  split
  · rfl
  split
  · rfl
  · rw [hlost]

theorem Block.audOwn_rd (b : Block) (slot : Nat) (r : AudRec) (g : Fld) (hg : g.key ∉ audKeys) :
    (b.audOwn slot r).rd g = b.rd g := by
  have hlost : b.audLost.rd g = b.rd g := by
    simp only [audKeys, List.mem_cons, List.not_mem_nil, or_false, not_or] at hg
    obtain ⟨hflag, hcnt, hpend⟩ := hg
    rw [Block.audLost, Block.rd_intr _ _ _ _ hpend, Block.rd_bump_of_ne _ _ _ hcnt, Block.rd_wr_of_ne _ _ _ _ hflag]
  unfold Block.audOwn
  split
  · exact hlost
  split
  · rfl
  split
  · rfl
  · exact hlost

/-! ## The end of a load -/

/-- The registers that show the end of a load (R85, R94). -/
def imageEndKeys : List Nat :=
  [IMG_STATUS_STATE.key, IMG_STATUS_CODE.key, IMG_STATUS_INDEX.key, IMG_DETAIL_DETAIL.key, IMG_DETAIL_OFFSET.key]

/-- The image registers show the end of a load. -/
def Block.imShown (b : Block) (state code index detail offset : Nat) : Block :=
  ((((b.wr IMG_STATUS_STATE state).wr IMG_STATUS_CODE code).wr IMG_STATUS_INDEX index).wr IMG_DETAIL_DETAIL detail).wr
    IMG_DETAIL_OFFSET offset

/-- The KIND 1 record of a load that ends (R527). -/
def Block.imRecord (b : Block) (state code old : Nat) : AudRec :=
  { time := b.now, kind := 1, role := b.img.role, outcome := if code = 0 then 0 else 6
    offset := code + b.imKind * 2 ^ 8 + state * 2 ^ 9, old := old, new := b.imageId }

variable {b : Block} {state code index detail offset old : Nat}

/-- The loader after the end of a load: the header is kept, for a later history entry. -/
def ImageSt.over (i : ImageSt) : ImageSt := { i with bytes := i.bytes.take 64, verdict := none, lightWait := false }

/-- The end of a load: what it shows, its record, the loader given up, and the interrupt. -/
theorem Block.imEnd_eq : b.imEnd state code index detail offset old =
    ({ (b.imShown state code index detail offset).audOwn 0 (b.imRecord state code old) with img := b.img.over }).intr 1
      (((b.imShown state code index detail offset).audOwn 0 (b.imRecord state code old)).on IMG_CTL_INT_END) := by
  have himg : ((b.imShown state code index detail offset).audOwn 0 (b.imRecord state code old)).img = b.img := by
    rw [Block.audOwn_parts]
    rfl
  rw [← himg]
  rfl

theorem Block.imEnd_parts : b.imEnd state code index detail offset old = { b with
    regs := (b.imEnd state code index detail offset old).regs, mg := (b.imEnd state code index detail offset old).mg
    img := b.img.over } := by
  rw [Block.imEnd_eq, Block.intr_parts]
  dsimp only
  rw [Block.audOwn_parts]
  rfl

theorem Block.imEnd_work : (b.imEnd state code index detail offset old).work = b.work := by rw [Block.imEnd_parts]

theorem Block.imEnd_img : (b.imEnd state code index detail offset old).img = b.img.over := by rw [Block.imEnd_parts]

/-- The record and the interrupt leave what the image registers show. -/
theorem Block.imEnd_rd (g : Fld) (hg : g.key ∉ audKeys) :
    (b.imEnd state code index detail offset old).rd g = (b.imShown state code index detail offset).rd g := by
  have hpend : g.key ≠ GLB_INT_PEND_PEND.key := fun h => hg (by simp [h, audKeys])
  rw [Block.imEnd_eq, Block.rd_intr _ _ _ _ hpend, Block.rd_mk, Block.audOwn_rd _ _ _ _ hg]

theorem Block.imShown_onlyRegs : b.onlyRegs (b.imShown state code index detail offset) imageEndKeys :=
  Block.onlyRegs_wr (Block.onlyRegs_wr (Block.onlyRegs_wr (Block.onlyRegs_wr (Block.onlyRegs_wr (Block.onlyRegs_refl _ _)
    _ (by decide)) _ (by decide)) _ (by decide)) _ (by decide)) _ (by decide)

theorem Block.imEnd_regsBut : b.regsBut (b.imEnd state code index detail offset old) (imageEndKeys ++ audKeys) := by
  intro g hg
  rw [List.mem_append, not_or] at hg
  obtain ⟨hend, haud⟩ := hg
  rw [Block.imEnd_rd _ haud, Block.imShown_onlyRegs.2 g hend]

theorem Block.imEnd_loaderOnly : b.loaderOnly (b.imEnd state code index detail offset old) (imageEndKeys ++ audKeys) := by
  refine ⟨?_, by rw [Block.imEnd_img, ImageSt.over], by rw [Block.imEnd_img, ImageSt.over], Block.imEnd_regsBut⟩
  rw [Block.imEnd_img]
  exact Block.imEnd_parts

theorem Block.imEnd_state (h : state < 16) : (b.imEnd state code index detail offset old).rd IMG_STATUS_STATE = state := by
  rw [Block.imEnd_rd _ (by decide), Block.imShown]
  iterate 4 rw [Block.rd_wr_of_ne _ _ _ _ (by decide)]
  exact (Block.rd_wr_self _ _ _).trans (Nat.mod_eq_of_lt h)

theorem Block.imEnd_code (h : code < 256) : (b.imEnd state code index detail offset old).rd IMG_STATUS_CODE = code := by
  rw [Block.imEnd_rd _ (by decide), Block.imShown]
  iterate 3 rw [Block.rd_wr_of_ne _ _ _ _ (by decide)]
  exact (Block.rd_wr_self _ _ _).trans (Nat.mod_eq_of_lt h)

theorem Block.imEnd_verdict : (b.imEnd state code index detail offset old).img.verdict = none := by
  rw [Block.imEnd_img, ImageSt.over]

/-! ## A load that has ended -/

/-- A load has ended when its registers show that, no verdict is latched, and the loader has acted alone. -/
theorem Block.loadEnded_of_loaderOnly {t : Block} {ks : List Nat} (hs : t.rd IMG_STATUS_STATE = state)
    (hc : t.rd IMG_STATUS_CODE = code) (hv : t.img.verdict = none) (h : b.loaderOnly t (imageEndKeys ++ audKeys ++ ks)) :
    b.loadEnded t state code ks := by
  obtain ⟨hparts, hsecs, happ, hrd⟩ := h
  exact ⟨hs, hc, hsecs, happ, hv, hparts, hrd⟩

/-- Outside start a failing load only ends (R85, R87). -/
theorem Block.imFail_of_not_start (h : b.rd HBR_STATUS_STATE ≠ 1) : b.imFail code index detail offset =
    b.imEnd imFailed code index detail offset (if b.imKind = 1 then b.rd IMG_RELOAD_ID_VAL else b.rd IMG_LOADED_ID_VAL) := by
  have hkeep (old : Nat) : (b.imEnd imFailed code index detail offset old).rd HBR_STATUS_STATE = b.rd HBR_STATUS_STATE :=
    Block.imEnd_regsBut _ (by decide)
  unfold Block.imFail
  exact if_neg (by rwa [hkeep])

/-- A load that fails outside start ends FAILED with its code, also where the loader has acted before (R82, R84). -/
theorem Block.loadEnded_imFail {a : Block} {ks : List Nat} (h : b.loaderOnly a (audKeys ++ ks))
    (hn : a.rd HBR_STATUS_STATE ≠ 1) (hc : code < 256) : b.loadEnded (a.imFail code index detail offset) imFailed code ks := by
  rw [Block.imFail_of_not_start hn]
  refine Block.loadEnded_of_loaderOnly (Block.imEnd_state (by decide)) (Block.imEnd_code hc) Block.imEnd_verdict
    (Block.loaderOnly_trans h Block.imEnd_loaderOnly ?_ ?_)
  all_goals simp

end Sys2Proof.Machine
end

section
/-! SUPPORT. Management writes to the image loader (R80, R84): IMG_CTL with OPEN or ABORT, and the image load window. -/

namespace Sys2Proof.Machine

open Reg

/-! ## Answers -/

/-- A command that answers with a block completes with what holds of that block. -/
theorem State.answers_next {s : State} {c : Instr} {t : Block} {P : Block → Prop} (h : exec c s = .next { s with block := t })
    (hp : P t) : s.answers c P := ⟨_, h, rfl, hp⟩

theorem Block.mgAnswer_rd (b : Block) (err : Bool) (data : Nat) (g : Fld) : (b.mgAnswer err data).rd g = b.rd g := by
  rw [Block.mgAnswer, Block.rd_mk]

theorem Block.mgAnswer_img (b : Block) (err : Bool) (data : Nat) : (b.mgAnswer err data).img = b.img := by rw [Block.mgAnswer]

/-- An access that is answered without an error is acknowledged (R540). -/
theorem Block.mgAnswer_acked (b : Block) (data : Nat) : (b.mgAnswer false data).acked := ⟨rfl, rfl⟩

/-! ## IMG_CTL -/

/-- The registers that a write of IMG_CTL stores. -/
def imageCtlKeys : List Nat := [IMG_CTL_OPEN.key, IMG_CTL_ABORT.key, IMG_CTL_INT_END.key, IMG_CTL_SIG_TIMEOUT_MS.key]

/-- A block into which the fields of a word of IMG_CTL have been stored (R1). -/
def Block.ctlStored (b : Block) (w : Word) : Block :=
  (((b.wr IMG_CTL_SIG_TIMEOUT_MS (fieldOf w IMG_CTL_SIG_TIMEOUT_MS)).wr IMG_CTL_INT_END (fieldOf w IMG_CTL_INT_END)).wr
    IMG_CTL_ABORT (fieldOf w IMG_CTL_ABORT)).wr IMG_CTL_OPEN (fieldOf w IMG_CTL_OPEN)

/-- A block whose IMG_CTL has performed its actions: the action fields hold nothing. -/
def Block.ctlDropped (b : Block) : Block := (b.wr IMG_CTL_ABORT 0).wr IMG_CTL_OPEN 0

/-- The actions of a word of IMG_CTL, ABORT before OPEN (R84). -/
def Block.ctlAct (b : Block) (role : Role) (w : Word) : Block :=
  let a := if bitOf w.toNat 1 then b.imAbort else b
  if bitOf w.toNat 0 then a.imOpen role.code else a

theorem Block.performReg_IMG_CTL (b : Block) (role : Role) (old : Nat) (w : Word) (x : Aux) :
    b.performReg role reg_IMG_CTL [] 0x400 old w x = ((b.ctlStored w).ctlAct role w).ctlDropped := by
  unfold Block.performReg
  rw [if_neg (by simp [Block.deafInstance, Block.idleInstance, reg_IMG_CTL]), if_neg (by simp [isMnt, reg_IMG_CTL]),
    if_neg (by simp [reg_IMG_CTL])]
  rfl

/-- A granted IMG_CTL as its actions find the block: recorded, and its fields stored. -/
def Block.ctlNoted (b : Block) (role : Role) (w : Word) : Block := (b.noted role reg_IMG_CTL 0x400 w).ctlStored w

theorem writeReg_IMG_CTL {s : State} {role : Role} {w : Word} (hg : s.grants role 0x400 w) :
    writeReg role 0x400 w default s = .next { s with block :=
      (((s.block.ctlNoted role w).ctlAct role w).ctlDropped).mgAnswer false 0 } := by
  have hroom : s.block.recRoom (1 + s.block.fenceRecs reg_IMG_CTL.name w.toNat) = true := hg.2.2.2
  exact (writeReg_go default hg find_IMG_CTL (by decide) (by decide) (by decide) hroom).trans
    (by rw [Block.written, Block.performReg_IMG_CTL]; rfl)

section
variable {b : Block} {role : Role} {w : Word}

theorem Block.ctlStored_onlyRegs : b.onlyRegs (b.ctlStored w) imageCtlKeys :=
  Block.onlyRegs_wr (Block.onlyRegs_wr (Block.onlyRegs_wr (Block.onlyRegs_wr (Block.onlyRegs_refl _ _)
    _ (by decide)) _ (by decide)) _ (by decide)) _ (by decide)

theorem Block.ctlDropped_onlyRegs : b.onlyRegs b.ctlDropped imageCtlKeys :=
  Block.onlyRegs_wr (Block.onlyRegs_wr (Block.onlyRegs_refl _ _) _ (by decide)) _ (by decide)

theorem Block.ctlNoted_parts : b.ctlNoted role w = { b with
    regs := (b.ctlNoted role w).regs, mg := (b.noted role reg_IMG_CTL 0x400 w).mg } := by
  rw [Block.ctlNoted, Block.ctlStored_onlyRegs.1, Block.noted_parts]

theorem Block.ctlNoted_rd (g : Fld) (hg : g.key ∉ audKeys ++ imageCtlKeys) : (b.ctlNoted role w).rd g = b.rd g := by
  rw [List.mem_append, not_or] at hg
  rw [Block.ctlNoted, Block.ctlStored_onlyRegs.2 g hg.2, Block.noted_rd _ _ _ _ _ _ hg.1]

theorem Block.ctlNoted_loaderOnly : b.loaderOnly (b.ctlNoted role w) (audKeys ++ imageCtlKeys) :=
  ⟨by rw [Block.ctlNoted_parts], by rw [Block.ctlNoted_parts], by rw [Block.ctlNoted_parts], Block.ctlNoted_rd⟩

theorem Block.ctlNoted_imState : (b.ctlNoted role w).imState = b.imState := Block.ctlNoted_rd _ (by decide)

theorem Block.ctlNoted_imBusy : (b.ctlNoted role w).imBusy = b.imBusy := by
  rw [Block.imBusy, Block.imBusy, Block.ctlNoted_imState]

theorem Block.ctlNoted_imMayOpen : (b.ctlNoted role w).imMayOpen = b.imMayOpen := by
  rw [Block.imMayOpen, Block.imMayOpen, Block.ctlNoted_rd _ (by decide), Block.ctlNoted_rd _ (by decide)]

/-! ## OPEN and ABORT -/

theorem Block.imAbort_of_not_busy (h : b.imBusy = false) : b.imAbort = b := by
  rw [Block.imAbort, h, Bool.false_and, if_neg Bool.false_ne_true]

theorem Block.imAbort_of_busy (h : b.imBusy = true) (ha : b.imState ≠ imApplying) : b.imAbort = b.imFail 18 0xFF 0 0 := by
  rw [Block.imAbort, h, Bool.true_and, if_pos (bne_iff_ne.mpr ha)]

theorem Block.imOpen_of_busy (h : b.imBusy = true) (role : Nat) : b.imOpen role = b.wr IMG_STATUS_OPEN_REFUSED 1 := if_pos h

/-- The loader of a load that `role` has opened. -/
def ImageSt.opened (i : ImageSt) (role : Nat) : ImageSt :=
  { i with bytes := [], verdict := none, role := role, lightWait := false }

/-- A load has been opened (R84). -/
def Block.imOpened (b : Block) (role : Nat) : Block :=
  (((((({ b with img := b.img.opened role }.wr IMG_COUNT_VAL 0).wr IMG_STATUS_STATE imReceiving).wr IMG_STATUS_CODE 0).wr
    IMG_STATUS_INDEX 0xFF).wr IMG_DETAIL_DETAIL 0).wr IMG_DETAIL_OFFSET 0)

theorem Block.imOpen_of_may (h : b.imBusy = false) (hm : b.imMayOpen = true) (role : Nat) : b.imOpen role = b.imOpened role := by
  unfold Block.imOpen
  rw [if_neg (by simp [h]), if_neg (by simp [hm])]
  rfl

theorem Block.imOpened_status (role : Nat) : (b.imOpened role).rd IMG_STATUS_STATE = imReceiving
    ∧ (b.imOpened role).rd IMG_COUNT_VAL = 0 ∧ (b.imOpened role).rd IMG_STATUS_CODE = 0
    ∧ (b.imOpened role).rd IMG_STATUS_INDEX = 0xFF := by
  unfold Block.imOpened
  refine ⟨?_, ?_, ?_, ?_⟩
  · iterate 4 rw [Block.rd_wr_of_ne _ _ _ _ (by decide)]
    exact Block.rd_wr_self _ _ _
  · iterate 5 rw [Block.rd_wr_of_ne _ _ _ _ (by decide)]
    exact Block.rd_wr_self _ _ _
  · iterate 3 rw [Block.rd_wr_of_ne _ _ _ _ (by decide)]
    exact Block.rd_wr_self _ _ _
  · iterate 2 rw [Block.rd_wr_of_ne _ _ _ _ (by decide)]
    exact Block.rd_wr_self _ _ _

/-- Without a load in progress a word with OPEN opens one, whatever its ABORT. -/
theorem Block.ctlAct_open (h0 : bitOf w.toNat 0 = true) (h : b.imBusy = false) (hm : b.imMayOpen = true) :
    b.ctlAct role w = b.imOpened role.code := by
  unfold Block.ctlAct
  rw [Block.imAbort_of_not_busy h, ite_self, if_pos h0, Block.imOpen_of_may h hm]

theorem Block.ctlAct_refused (h0 : bitOf w.toNat 0 = true) (h1 : bitOf w.toNat 1 = false) (h : b.imBusy = true) :
    b.ctlAct role w = b.wr IMG_STATUS_OPEN_REFUSED 1 := by
  unfold Block.ctlAct
  rw [if_pos h0, if_neg (by simp [h1]), Block.imOpen_of_busy h]

theorem Block.ctlAct_abort (h0 : bitOf w.toNat 0 = false) (h1 : bitOf w.toNat 1 = true) (h : b.imBusy = true)
    (ha : b.imState ≠ imApplying) : b.ctlAct role w = b.imFail 18 0xFF 0 0 := by
  unfold Block.ctlAct
  rw [if_pos h1, if_neg (by simp [h0]), Block.imAbort_of_busy h ha]

end

/-- The answer of an access leaves a load ended. -/
theorem Block.loadEnded_mgAnswer {b t : Block} {state code : Nat} {ks : List Nat} (h : b.loadEnded t state code ks) :
    b.loadEnded (t.mgAnswer false 0) state code ks := by
  obtain ⟨hs, hc, hsecs, happ, hv, hparts, hrd⟩ := h
  refine ⟨(Block.mgAnswer_rd ..).trans hs, (Block.mgAnswer_rd ..).trans hc, ?_, ?_, ?_, ?_,
    fun g hg => (Block.mgAnswer_rd ..).trans (hrd g hg)⟩
  · rwa [Block.mgAnswer_img]
  · rwa [Block.mgAnswer_img]
  · rwa [Block.mgAnswer_img]
  · rw [Block.mgAnswer, hparts]

/-- So do the action fields that go back to zero. -/
theorem Block.loadEnded_ctlDropped {b t : Block} {state code : Nat} (h : b.loadEnded t state code imageCtlKeys) :
    b.loadEnded t.ctlDropped state code imageCtlKeys := by
  obtain ⟨hs, hc, hsecs, happ, hv, hparts, hrd⟩ := h
  have hkeep (g : Fld) (hg : g.key ∉ imageCtlKeys) : t.ctlDropped.rd g = t.rd g := Block.ctlDropped_onlyRegs.2 g hg
  refine ⟨(hkeep _ (by decide)).trans hs, (hkeep _ (by decide)).trans hc, hsecs, happ, hv, ?_, fun g hg => ?_⟩
  · rw [hparts]
    rfl
  · exact (hkeep g (fun hm => hg (List.mem_append_right _ hm))).trans (hrd g hg)

/-! ## The words of the two commands -/

/-- The word of IMAGE_OPEN. -/
def openWord (w : Word) : Word := withField w IMG_CTL_OPEN 1

/-- The word of IMAGE_ABORT. -/
def abortWord (w : Word) : Word := withField (withField w IMG_CTL_OPEN 0) IMG_CTL_ABORT 1

theorem bitOf_open (w : Word) : bitOf w.toNat 0 = (fieldOf w IMG_CTL_OPEN == 1) := bitOf_eq_field ..
theorem bitOf_abort (w : Word) : bitOf w.toNat 1 = (fieldOf w IMG_CTL_ABORT == 1) := bitOf_eq_field ..

theorem openWord_open (w : Word) : bitOf (openWord w).toNat 0 = true := by
  rw [bitOf_open, openWord, fieldOf_withField_self _ _ _ (by decide) (by decide)]
  rfl

theorem openWord_abort (w : Word) : bitOf (openWord w).toNat 1 = bitOf w.toNat 1 := by
  rw [bitOf_abort, openWord, fieldOf_withField_of_ne _ _ _ _ (by decide) (by decide) (by decide), bitOf_abort]

theorem abortWord_open (w : Word) : bitOf (abortWord w).toNat 0 = false := by
  rw [bitOf_open, abortWord, fieldOf_withField_of_ne _ _ _ _ (by decide) (by decide) (by decide),
    fieldOf_withField_self _ _ _ (by decide) (by decide)]
  rfl

theorem abortWord_abort (w : Word) : bitOf (abortWord w).toNat 1 = true := by
  rw [bitOf_abort, abortWord, fieldOf_withField_self _ _ _ (by decide) (by decide)]
  rfl

/-! ## What the two commands do -/

/-- A load has been opened by a word of IMG_CTL. -/
def Block.openedBy (b : Block) (role : Role) (w : Word) : Block := ((b.ctlNoted role w).imOpened role.code).ctlDropped

/-- An OPEN has been refused (R84). -/
def Block.openRefused (b : Block) (role : Role) (w : Word) : Block :=
  ((b.ctlNoted role w).wr IMG_STATUS_OPEN_REFUSED 1).ctlDropped

/-- The load in progress has been aborted (R84). -/
def Block.loadAborted (b : Block) (role : Role) (w : Word) : Block :=
  ((b.ctlNoted role w).imFail 18 0xFF 0 0).ctlDropped

section
variable {s : State} {b : Block} {role : Role} {w : Word}

theorem exec_imageOpen (hg : s.grants role IMG_CTL_OPEN.off (openWord w)) (hb : s.block.imBusy = false)
    (hm : s.block.imMayOpen = true) :
    exec (.imageOpen role w) s = .next { s with block := (s.block.openedBy role (openWord w)).mgAnswer false 0 } := by
  have hact : (s.block.ctlNoted role (openWord w)).ctlAct role (openWord w) = _ :=
    Block.ctlAct_open (openWord_open w) (Block.ctlNoted_imBusy.trans hb) (Block.ctlNoted_imMayOpen.trans hm)
  exact (writeReg_IMG_CTL hg).trans (by rw [hact]; rfl)

theorem exec_imageOpen_refused (hg : s.grants role IMG_CTL_OPEN.off (openWord w)) (hb : s.block.imBusy = true)
    (hw : bitOf w.toNat 1 = false) :
    exec (.imageOpen role w) s = .next { s with block := (s.block.openRefused role (openWord w)).mgAnswer false 0 } := by
  have hact : (s.block.ctlNoted role (openWord w)).ctlAct role (openWord w) = _ :=
    Block.ctlAct_refused (openWord_open w) ((openWord_abort w).trans hw) (Block.ctlNoted_imBusy.trans hb)
  exact (writeReg_IMG_CTL hg).trans (by rw [hact]; rfl)

theorem exec_imageAbort (hg : s.grants role IMG_CTL_ABORT.off (abortWord w)) (hb : s.block.imBusy = true)
    (ha : s.block.imState ≠ imApplying) :
    exec (.imageAbort role w) s = .next { s with block := (s.block.loadAborted role (abortWord w)).mgAnswer false 0 } := by
  have hact : (s.block.ctlNoted role (abortWord w)).ctlAct role (abortWord w) = _ :=
    Block.ctlAct_abort (abortWord_open w) (abortWord_abort w) (Block.ctlNoted_imBusy.trans hb)
      (by rwa [Block.ctlNoted_imState])
  exact (writeReg_IMG_CTL hg).trans (by rw [hact]; rfl)

theorem Block.openedBy_parts : b.openedBy role w = { b with
    regs := (b.openedBy role w).regs, mg := (b.noted role reg_IMG_CTL 0x400 w).mg, img := b.img.opened role.code } := by
  simp only [Block.openedBy, Block.ctlDropped, Block.imOpened, Block.wr]
  rw [Block.ctlNoted_parts]

theorem Block.openedBy_status : (b.openedBy role w).rd IMG_STATUS_STATE = imReceiving
    ∧ (b.openedBy role w).rd IMG_COUNT_VAL = 0 ∧ (b.openedBy role w).rd IMG_STATUS_CODE = 0
    ∧ (b.openedBy role w).rd IMG_STATUS_INDEX = 0xFF := by
  have hkeep (g : Fld) (hg : g.key ∉ imageCtlKeys) :
      (b.openedBy role w).rd g = ((b.ctlNoted role w).imOpened role.code).rd g := Block.ctlDropped_onlyRegs.2 g hg
  rw [hkeep _ (by decide), hkeep _ (by decide), hkeep _ (by decide), hkeep _ (by decide)]
  exact Block.imOpened_status role.code

/-- An ABORT outside start ends the load with ABORTED. -/
theorem Block.loadAborted_ended (h : b.rd HBR_STATUS_STATE ≠ 1) :
    b.loadEnded (b.loadAborted role w) imFailed 18 imageCtlKeys :=
  Block.loadEnded_ctlDropped
    (Block.loadEnded_imFail Block.ctlNoted_loaderOnly (by rwa [Block.ctlNoted_rd _ (by decide)]) (by decide))

theorem Block.openRefused_parts : b.openRefused role w = { b with
    regs := (b.openRefused role w).regs, mg := (b.noted role reg_IMG_CTL 0x400 w).mg } := by
  simp only [Block.openRefused, Block.ctlDropped, Block.wr]
  rw [Block.ctlNoted_parts]

theorem Block.openRefused_status : (b.openRefused role w).rd IMG_STATUS_OPEN_REFUSED = 1 :=
  (Block.ctlDropped_onlyRegs.2 _ (by decide)).trans (Block.rd_wr_self _ _ _)

theorem Block.openRefused_regsBut :
    b.regsBut (b.openRefused role w) (IMG_STATUS_OPEN_REFUSED.key :: (imageCtlKeys ++ audKeys)) := by
  intro g hg
  rw [List.mem_cons, List.mem_append, not_or, not_or] at hg
  obtain ⟨hrefused, hctl, haud⟩ := hg
  rw [Block.openRefused, Block.ctlDropped_onlyRegs.2 g hctl, Block.rd_wr_of_ne _ _ _ _ hrefused,
    Block.ctlNoted_rd g (by simp [hctl, haud])]

end

/-! ## The image load window -/

/-- A role that may load takes a word of the window whenever the loader does (R80, R522). -/
theorem exec_imageWindowWrite {s : State} {role : Role} {at_ : BitVec 18} {w : Word} {t : Block} (ho : s.block.mgOpen = true)
    (hh : s.block.mg.held = []) (hn : role ≠ .none) (hr : role ≠ .operator) (hp : s.block.policyOk role 1 = true)
    (hw : s.block.imWindow (4 * at_.toNat) w = some t) :
    exec (.imageWindowWrite role at_ w) s = .next { s with block := t.mgAnswer false 0 } := by
  have hlt := at_.isLt
  have hoff : 4 * (BitVec.ofNat 21 ((0x300000 + 4 * at_.toNat) / 4)).toNat = 0x300000 + 4 * at_.toNat := by
    rw [BitVec.toNat_ofNat, Nat.mod_eq_of_lt (by omega)]
    omega
  have hsub : 0x300000 + 4 * at_.toNat - 0x300000 = 4 * at_.toNat := by omega
  have hjudge : s.block.judgeWrite role (0x300000 + 4 * at_.toNat) w = .window := by
    unfold Block.judgeWrite
    rw [if_neg hn, if_neg (by unfold testSpace; omega), if_neg (by omega), if_pos (by omega), if_neg hr, hp, hsub, hw]
    rfl
  show writeReg role (0x300000 + 4 * at_.toNat) w default s = _
  unfold writeReg access
  rw [onBlock_next]
  simp only [Block.mgAccess, hh, List.isEmpty_nil, if_true, Block.tryAccess, ho, Bool.not_true, Bool.false_eq_true, if_false,
    hoff, Block.tryWrite, hjudge, hsub, hw, Option.map_some]

section
variable {b : Block}

theorem Block.imWindow_out_of_sequence {off : Nat} (hs : b.imState = imReceiving) (h3 : b.rd HBR_STATUS_STATE ≠ 3)
    (ho : off ≠ b.rd IMG_COUNT_VAL) (w : Word) : b.imWindow off w = some (b.imFail 5 0xFF 0 0) := by
  unfold Block.imWindow
  rw [if_neg (by simp [hs, h3]), if_pos ho]

theorem Block.imWindow_in_sequence {off : Nat} (hs : b.imState = imReceiving) (h3 : b.rd HBR_STATUS_STATE ≠ 3)
    (ho : off = b.rd IMG_COUNT_VAL) (w : Word) :
    b.imWindow off w = some (forEach (leBytes 4 w.toNat) (b.wr IMG_COUNT_VAL (off + 4)) Block.imByte) := by
  unfold Block.imWindow
  rw [if_neg (by simp [hs, h3]), if_neg (not_not_intro ho)]

/-- The loader with more bytes of the stream. -/
def ImageSt.more (i : ImageSt) (xs : List Byte) : ImageSt := { i with bytes := i.bytes ++ xs }

/-- A byte before the last of the header completes no check (R82). -/
theorem Block.imByte_of_header (hs : b.imState = imReceiving) (x : Byte) (hl : b.img.bytes.length + 1 < 64) :
    b.imByte x = { b with img := b.img.more [x] } := by
  unfold Block.imByte
  rw [if_neg (not_not_intro hs)]
  exact if_pos hl

theorem Block.forEach_imByte_of_header (hs : b.imState = imReceiving) (xs : List Byte)
    (hl : b.img.bytes.length + xs.length < 64) : forEach xs b Block.imByte = { b with img := b.img.more xs } := by
  induction xs generalizing b with
  | nil => simp [ImageSt.more]
  | cons x xs ih =>
    rw [List.length_cons] at hl
    have hlen : ({ b with img := b.img.more [x] } : Block).img.bytes.length = b.img.bytes.length + 1 := by
      simp [ImageSt.more]
    rw [forEach_cons, Block.imByte_of_header hs x (by omega), ih (by exact hs) (by omega)]
    simp [ImageSt.more]

/-- A word of the header, in sequence, is counted and joins the stream. -/
theorem Block.imWindow_of_header {off : Nat} (hs : b.imState = imReceiving) (h3 : b.rd HBR_STATUS_STATE ≠ 3)
    (ho : off = b.rd IMG_COUNT_VAL) (w : Word) (hl : b.img.bytes.length + 4 < 64) : b.imWindow off w =
      some { b.wr IMG_COUNT_VAL (off + 4) with img := b.img.more (leBytes 4 w.toNat) } := by
  have hstate : (b.wr IMG_COUNT_VAL (off + 4)).imState = imReceiving := (Block.rd_wr_of_ne _ _ _ _ (by decide)).trans hs
  rw [Block.imWindow_in_sequence hs h3 ho, Block.forEach_imByte_of_header hstate (leBytes 4 w.toNat) hl, Block.wr_img]

end

end Sys2Proof.Machine
end

section
/-! SUPPORT. The checks after the stream, the verdict and the applies of a reload (R82, R83, R90, R91). -/

namespace Sys2Proof.Machine

open Reg

variable {b : Block}

/-! ## Checks and verdicts -/

theorem Block.imChecks_of_failed {code idx detail off : Nat} (hs : b.imState = imChecking) (h3 : b.rd HBR_STATUS_STATE ≠ 3)
    (hj : b.imJudge = some (code, idx, detail, off)) : b.imChecks = b.imFail code idx detail off := by
  unfold Block.imChecks
  rw [if_neg (by simp [hs, h3]), hj]

/-- Checks that pass with no verdict latched leave the load waiting for one (R82, R83). -/
theorem Block.imChecks_of_passed (hs : b.imState = imChecking) (h3 : b.rd HBR_STATUS_STATE ≠ 3) (hj : b.imJudge = none)
    (hv : b.img.verdict = none) : b.imChecks = b.wr IMG_STATUS_STATE imAwait := by
  have hwait : (b.wr IMG_STATUS_STATE imAwait).imState = imAwait := Block.rd_wr_self _ _ _
  unfold Block.imChecks
  rw [if_neg (by simp [hs, h3]), hj]
  dsimp only
  rw [Block.imDecide, if_neg (not_not_intro hwait), Block.wr_img, hv]

/-- The loader with a verdict latched. -/
def ImageSt.judged (i : ImageSt) (ok : Bool) : ImageSt := { i with verdict := some ok }

/-- The block with a verdict latched. -/
def Block.judged (b : Block) (ok : Bool) : Block := { b with img := b.img.judged ok }

theorem Block.judged_imState (ok : Bool) : (b.judged ok).imState = b.imState := rfl
theorem Block.judged_verdict (ok : Bool) : (b.judged ok).img.verdict = some ok := rfl
theorem Block.judged_harbour (ok : Bool) : (b.judged ok).harbour = b.harbour := rfl
theorem Block.judged_loaderOnly (ok : Bool) (ks : List Nat) : b.loaderOnly (b.judged ok) ks := ⟨rfl, rfl, rfl, fun _ _ => rfl⟩

/-- A verdict is latched while a load is in progress, and decides it where it waits (R83). -/
theorem exec_imageVerdict {s : State} (ok : Bool) (hb : s.block.imBusy = true) (h3 : s.block.rd HBR_STATUS_STATE ≠ 3) :
    exec (.imageVerdict ok) s = .next { s with block := (s.block.judged ok).imDecide } := by
  show execImageVerdict ok s = _
  unfold execImageVerdict
  rw [onBlock_next, hb, Bool.true_and, if_pos (bne_iff_ne.mpr h3)]
  rfl

theorem Block.imBusy_iff : b.imBusy = true ↔ imReceiving ≤ b.imState ∧ b.imState ≤ imApplying := by
  simp [Block.imBusy]

theorem Block.imDecide_of_not_waiting (h : b.imState ≠ imAwait) : b.imDecide = b := if_pos h

theorem Block.imDecide_of_rejected (h : b.imState = imAwait) (hv : b.img.verdict = some false) :
    b.imDecide = b.imFail 14 0xFF 0 0 := by
  rw [Block.imDecide, if_neg (not_not_intro h), hv]

/-- The load's reload has a light list (R91). -/
def Block.hasList (b : Block) : Bool := b.imKind == 1 && !(Tab.get (imSecs b.img.bytes) (secKey tyLight 0)).isEmpty

/-- The loader of an apply that starts: a light list that it holds waits for the commit. -/
def Block.applying (b : Block) : ImageSt := { b.img with lightWait := b.hasList }

/-- An OK verdict starts the apply of a running block's load (R83). -/
theorem Block.imDecide_of_accepted (h : b.imState = imAwait) (hv : b.img.verdict = some true) (hh : b.harbour = false) :
    b.imDecide = ({ b with img := b.applying } : Block).wr IMG_STATUS_STATE imApplying := by
  rw [Block.imDecide, if_neg (not_not_intro h), hv]
  dsimp only
  rw [if_neg (by simp [hh])]
  rfl

theorem Block.imBusy_of_waiting (h : b.imState = imAwait) : b.imBusy = true := by
  rw [Block.imBusy_iff, h]
  decide

theorem exec_sigTimeout {s : State} (h : s.block.imState = imAwait) (h3 : s.block.rd HBR_STATUS_STATE ≠ 3) :
    exec .sigTimeout s = .next { s with block := s.block.imFail 15 0xFF 0 0 } := by
  show execSigTimeout s = _
  unfold execSigTimeout
  rw [onBlock_next, if_pos ⟨h, h3⟩]

/-! ## The apply of a reload -/

theorem Block.keepsBelow_loadSeverity {t : Block} (h : b.keepsBelow t) (bs : List Byte) : b.keepsBelow (t.loadSeverity bs) :=
  forEach_inv b.keepsBelow _ _ _
    (fun _ c _ ht => Block.keepsBelow_wr ht _ (by simp only [FLT_SEV_SEV, Fld.key]; omega)) h

theorem Block.keepsBelow_showSentences {t : Block} (h : b.keepsBelow t) : b.keepsBelow t.showSentences :=
  Block.keepsBelow_wr (Block.keepsBelow_wr h _ (by decide)) _ (by decide)

theorem le_clsSlotFlds_stale (s j : Nat) : 0x61800 * 32 ≤ (clsSlotFlds s j).2.1.key := by
  unfold clsSlotFlds
  split
  all_goals simp only [CLS_SLOT_STALE0, CLS_SLOT_STALE1, CLS_SLOT_STALE2, CLS_SLOT_STALE3, Fld.key]; omega

/-- The sections in force with those of a reload in their place (R90). -/
def ImageSt.reloaded (i : ImageSt) : ImageSt :=
  { i with secs := i.secs.overlay (imSecs i.bytes) (fun k => !(Tab.get (imSecs i.bytes) k).isEmpty)
           storeCrc := imCrcs i.bytes i.storeCrc }

/-- Slots that hold a replaced clause set show that they are stale (R302). -/
def Block.slotsStale (b : Block) (new : Tab (List Byte)) : Block :=
  forEach (List.range 16) b (fun b bin =>
    if (Tab.get new (secKey tyClauses bin)).isEmpty then b
    else
      forEach (List.range 32) b (fun b s => forEach (List.range 4) b (fun b j =>
        if b.on (clsSlotFlds s j).1 && b.rd (clsSlotFlds s j).2.2 == bin then b.wr (clsSlotFlds s j).2.1 1 else b)))

theorem Block.applyReload_eq (b : Block) : b.applyReload =
    (let t := Block.slotsStale { b with img := b.img.reloaded } (imSecs b.img.bytes)
     if (Tab.get (imSecs b.img.bytes) (secKey tySeverity 0)).isEmpty then t
     else t.loadSeverity (t.sec tySeverity 0)).showSentences := rfl

theorem Block.slotsStale_inv (P : Block → Prop) (hP : ∀ t s j, P t → P (t.wr (clsSlotFlds s j).2.1 1)) (h : P b)
    (new : Tab (List Byte)) : P (b.slotsStale new) := by
  refine forEach_inv P _ _ _ (fun t bin _ ht => ?_) h
  split
  · exact ht
  · refine forEach_inv P _ _ _ (fun t s _ ht => forEach_inv P _ _ _ (fun t j _ ht => ?_) ht) ht
    split
    · exact hP t s j ht
    · exact ht

/-- An apply of a reload keeps the working values and the registers of the low chapters: what it shows lies above. -/
theorem Block.keepsBelow_applyReload (b : Block) : b.keepsBelow b.applyReload := by
  rw [Block.applyReload_eq]
  have hsecs : b.keepsBelow { b with img := b.img.reloaded } := ⟨rfl, fun _ _ => Block.rd_mk⟩
  have hstale : b.keepsBelow (Block.slotsStale { b with img := b.img.reloaded } (imSecs b.img.bytes)) :=
    Block.slotsStale_inv b.keepsBelow (fun t s j ht => Block.keepsBelow_wr ht _ (le_clsSlotFlds_stale s j)) hsecs _
  exact Block.keepsBelow_showSentences
    (Block.keepsBelow_ite hstale (Block.keepsBelow_loadSeverity hstale _) _)

theorem Block.applyReload_img (b : Block) : b.applyReload.img = b.img.reloaded := by
  rw [Block.applyReload_eq]
  have hstale : (Block.slotsStale { b with img := b.img.reloaded } (imSecs b.img.bytes)).img = b.img.reloaded :=
    Block.slotsStale_inv (fun t => t.img = b.img.reloaded) (fun _ _ _ ht => ht) rfl _
  have hseverity (t : Block) (bs : List Byte) : (t.loadSeverity bs).img = t.img :=
    forEach_keeps Block.img _ _ _ (fun _ _ => rfl)
  dsimp only [Block.showSentences, Block.wr]
  split
  · exact hstale
  · exact (hseverity _ _).trans hstale

theorem Block.applyReload_imageId (b : Block) : b.applyReload.imageId = b.imageId := by
  rw [Block.imageId, Block.applyReload_img]
  rfl

/-- A reload has been applied, before its load ends. -/
def Block.imReloaded (b : Block) : Block :=
  (b.applyReload.wr IMG_RELOAD_ID_VAL b.imageId).wr IMG_RELOAD_CNT_VAL (b.rd IMG_RELOAD_CNT_VAL + 1)

/-- The end of the apply of a reload in a running block (R90). -/
theorem Block.imApplied_of_reload (hs : b.imState = imApplying) (hw : b.img.lightWait = false)
    (h3 : b.rd HBR_STATUS_STATE ≠ 3) (hk : b.imKind = 1) :
    b.imApplied = b.imReloaded.imEnd imDone 0 0xFF 0 0 (b.rd IMG_RELOAD_ID_VAL) := by
  have hcnt : (b.applyReload.wr IMG_RELOAD_ID_VAL b.imageId).rd IMG_RELOAD_CNT_VAL = b.rd IMG_RELOAD_CNT_VAL :=
    (Block.rd_wr_of_ne _ _ _ _ (by decide)).trans ((Block.keepsBelow_applyReload b).2 _ (by decide))
  unfold Block.imApplied
  rw [if_neg (by simp [hs, hw, h3]), if_pos hk]
  dsimp only
  rw [Block.applyReload_imageId, hcnt]
  rfl

theorem Block.imReloaded_spec (b : Block) : b.imReloaded.work = b.work
    ∧ b.imReloaded.rd IMG_RELOAD_ID_VAL = b.imageId % 2 ^ 32
    ∧ b.imReloaded.rd IMG_RELOAD_CNT_VAL = (b.rd IMG_RELOAD_CNT_VAL + 1) % 2 ^ 32
    ∧ b.imReloaded.rd IMG_LOADED_ID_VAL = b.rd IMG_LOADED_ID_VAL := by
  obtain ⟨hwork, hrd⟩ := Block.keepsBelow_applyReload b
  refine ⟨?_, ?_, Block.rd_wr_self _ _ _, ?_⟩
  · rw [Block.imReloaded, Block.wr_work, Block.wr_work, hwork]
  · exact (Block.rd_wr_of_ne _ _ _ _ (by decide)).trans (Block.rd_wr_self _ _ _)
  · rw [Block.imReloaded, Block.rd_wr_of_ne _ _ _ _ (by decide), Block.rd_wr_of_ne _ _ _ _ (by decide), hrd _ (by decide)]

/-! ## The light list of a reload -/

/-- The shadow holds the light list of the load, which no longer waits (R91). -/
def Block.listLoaded (b : Block) : Block :=
  { b.lightShadow (Tab.get (imSecs b.img.bytes) (secKey tyLight 0)) with img := { b.img with lightWait := false } }

theorem Block.listLoaded_rd (g : Fld) : b.listLoaded.rd g = if isLightKey g.key
    then fldGet (lightTable (Tab.get (imSecs b.img.bytes) (secKey tyLight 0))) g else b.rd g := by
  rw [Block.listLoaded, Block.rd_mk, Block.lightShadow, Block.rd, fldGet_overlay, Block.rd]

theorem Block.listLoaded_work : b.listLoaded.work = b.work := by rw [Block.listLoaded, Block.lightShadow]

theorem Block.listLoaded_lightWait : b.listLoaded.img.lightWait = false := by rw [Block.listLoaded]

/-- A light list that waits is taken and committed once no commit is BUSY (R91). -/
theorem Block.imLight_of_waiting (hs : b.imState = imApplying) (hw : b.img.lightWait = true)
    (hb : b.rd LGT_COMMIT_STATUS_BUSY = 0) : b.imLight = b.listLoaded.lightGo := by
  unfold Block.imLight
  rw [if_pos ⟨hs, hw, by simp [(Block.on_false _ _).mpr hb]⟩]
  rfl

theorem Block.lightGo_img : b.lightGo.img = b.img := by rw [Block.lightGo_parts]

theorem Block.lightGo_work : b.lightGo.work = b.work := by rw [Block.lightGo_parts]

/-- GO takes the list as it reads, and leaves what it reads (R43). -/
theorem Block.lightGo_spec (h : b.rd LGT_COMMIT_STATUS_BUSY = 0) : b.lightGo.rd LGT_COMMIT_STATUS_BUSY = 1
    ∧ ∀ f : Fld, isLightKey f.key = true → b.lightGo.rd f = b.rd f ∧ fldGet b.lightGo.lgtSnap f = b.rd f := by
  refine ⟨?_, fun f hf => ⟨?_, ?_⟩⟩
  · rw [Block.lightGo_of_idle h, Block.rd_wr_self]
    rfl
  · refine Block.rd_lightGo_of_ne b f (fun hk => ?_)
    rw [hk] at hf
    exact absurd hf (by decide)
  · rw [Block.lightGo_of_idle h, Block.wr_lgtSnap]
    exact fldGet_filter _ isLightKey f hf

end Sys2Proof.Machine
end

section
/-! SUPPORT. The statements of the chapter on the structure image, settled. -/

namespace Sys2Proof

open Machine Machine.Reg

/-- Settles O16: each of these failures is `imFail`, which outside start only ends the load; an ABORT comes with the record and the
fields of its write. -/
theorem failedLoadsLeaveTheBlock : Obligations.FailedLoadsLeaveTheBlock := by
  intro s h1 h3
  have same : s.block.loaderOnly s.block audKeys := Block.loaderOnly_refl ..
  refine ⟨fun role w hg hb ha => State.answers_next (exec_imageAbort hg hb ha) ?_,
    fun role at_ w ho hh hn hr hp hs hseq => State.answers_next
      (exec_imageWindowWrite ho hh hn hr hp (Block.imWindow_out_of_sequence hs h3 hseq w)) ?_,
    fun code idx detail off hs hj _ hc => State.answers_onBlock (f := Block.imChecks) rfl ?_,
    fun hs => State.answers_next (exec_imageVerdict false (Block.imBusy_of_waiting hs) h3) ?_,
    fun hs => State.answers_next (exec_sigTimeout hs h3) ?_⟩
  · exact ⟨Block.mgAnswer_acked .., Block.loadEnded_mgAnswer (Block.loadAborted_ended h1)⟩
  · exact ⟨Block.mgAnswer_acked .., Block.loadEnded_mgAnswer (Block.loadEnded_imFail same h1 (by decide))⟩
  · rw [Block.imChecks_of_failed hs h3 hj]
    exact Block.loadEnded_imFail same h1 hc
  · rw [Block.imDecide_of_rejected ((Block.judged_imState false).trans hs) (Block.judged_verdict false)]
    exact Block.loadEnded_imFail (Block.judged_loaderOnly false _) h1 (by decide)
  · exact Block.loadEnded_imFail same h1 (by decide)

/-- Settles O17: each step of a load in a running block is one case of the loader's operations; OPEN comes with the record and the
fields of its write. -/
theorem imageLoadsReachApplying : Obligations.ImageLoadsReachApplying := by
  intro s
  refine ⟨fun h2 => ?_, fun role w hg => ⟨fun hb hm => State.answers_next (exec_imageOpen hg hb hm) ?_,
    fun hb hw => State.answers_next (exec_imageOpen_refused hg hb hw) ?_⟩⟩
  · have h3 : s.block.rd HBR_STATUS_STATE ≠ 3 := by omega
    refine ⟨fun role at_ w ho hh hn hr hp hs hseq hl => State.answers_next
        (exec_imageWindowWrite ho hh hn hr hp (Block.imWindow_of_header hs h3 hseq w hl)) ?_,
      fun hs hj hv => State.answers_onBlock (f := Block.imChecks) rfl ?_, fun ok hs => ?_,
      fun hs => State.answers_next (exec_imageVerdict true (Block.imBusy_of_waiting hs) h3) ?_⟩
    · have hlt : 4 * at_.toNat + 4 < 2 ^ 32 := by have := at_.isLt; omega
      refine ⟨Block.mgAnswer_acked .., (Block.mgAnswer_rd ..).trans ?_, Block.mgAnswer_img .., fun g hg => ?_, rfl⟩
      · exact (Block.rd_wr_self _ _ _).trans (Nat.mod_eq_of_lt hlt)
      · exact (Block.mgAnswer_rd ..).trans (Block.rd_wr_of_ne _ _ _ _ (List.ne_of_not_mem_cons hg))
    · rw [Block.imChecks_of_passed hs h3 hj hv]
      exact ⟨Block.rd_wr_self _ _ _, Block.onlyRegs_wr (Block.onlyRegs_refl _ _) _ List.mem_cons_self⟩
    · obtain ⟨hbusy, hnot⟩ : s.block.imBusy = true ∧ s.block.imState ≠ imAwait := by
        rw [Block.imBusy_iff]
        rcases hs with hs | hs
        all_goals rw [hs]; decide
      exact State.answers_next (exec_imageVerdict ok hbusy h3) (Block.imDecide_of_not_waiting hnot)
    · have hharbour : s.block.harbour = false := by
        rw [Block.harbour, h2]
        rfl
      rw [Block.imDecide_of_accepted ((Block.judged_imState true).trans hs) (Block.judged_verdict true)
        ((Block.judged_harbour true).trans hharbour)]
      refine ⟨Block.rd_wr_self _ _ _, fun g hg => ?_, ?_, ?_⟩
      · exact Block.rd_wr_of_ne _ _ _ _ (List.ne_of_not_mem_cons hg)
      · rw [Block.wr_img, Block.applying, Block.judged, ImageSt.judged]
      · rw [Block.wr, Block.judged]
  · have hparts := Block.openedBy_parts (b := s.block) (role := role) (w := openWord w)
    have himg := congrArg Block.img hparts
    rw [Block.mgAnswer_rd, Block.mgAnswer_rd, Block.mgAnswer_rd, Block.mgAnswer_rd, Block.mgAnswer_img, himg]
    obtain ⟨hstate, hcount, hcode, hindex⟩ := Block.openedBy_status (b := s.block) (role := role) (w := openWord w)
    refine ⟨Block.mgAnswer_acked .., hstate, hcount, hcode, hindex, rfl, rfl, rfl, rfl, ?_⟩
    simp only [Block.mgAnswer]
    rw [hparts]
  · have hparts := Block.openRefused_parts (b := s.block) (role := role) (w := openWord w)
    have hmg := congrArg Block.mg hparts
    have himg := congrArg Block.img hparts
    rw [Block.mgAnswer_rd, Block.mgAnswer_img]
    refine ⟨Block.mgAnswer_acked .., Block.openRefused_status, himg, ⟨Block.mgAnswer_acked .., ?_, ?_,
      fun g hg => (Block.mgAnswer_rd ..).trans (Block.openRefused_regsBut g hg)⟩, ?_⟩
    · exact (congrArg MgmtSt.held hmg).trans (Block.noted_held ..)
    · exact (congrArg MgmtSt.latch hmg).trans (Block.noted_latch ..)
    · simp only [Block.mgAnswer]
      rw [hparts]

/-- Settles O18: the apply of a reload writes its registers before its load ends, which leaves them; the light list goes over the
shadow, and the commit takes it from there. -/
theorem reloadAppliesTakeEffect : Obligations.ReloadAppliesTakeEffect := by
  intro s hs
  refine ⟨fun h2 hk hw => State.answers_onBlock (f := Block.imApplied) rfl ?_,
    fun hw hb => State.answers_onBlock (f := Block.imLight) rfl ?_⟩
  · obtain ⟨hwork, hid, hcnt, hloaded⟩ := Block.imReloaded_spec s.block
    have hkeep (g : Fld) (hg : g.key ∉ imageEndKeys ++ audKeys) := Block.imEnd_regsBut (b := s.block.imReloaded)
      (state := imDone) (code := 0) (index := 0xFF) (detail := 0) (offset := 0) (old := s.block.rd IMG_RELOAD_ID_VAL) g hg
    rw [Block.imApplied_of_reload hs hw (by omega) hk]
    refine ⟨Block.imEnd_state (by decide), Block.imEnd_code (by decide), (hkeep _ (by decide)).trans hid,
      (hkeep _ (by decide)).trans hcnt, (hkeep _ (by decide)).trans hloaded, ?_⟩
    rw [Block.imEnd_work, hwork]
  · have hidle : s.block.listLoaded.rd LGT_COMMIT_STATUS_BUSY = 0 :=
      (Block.listLoaded_rd _).trans ((if_neg (by decide)).trans hb)
    obtain ⟨hbusy, htaken⟩ := Block.lightGo_spec hidle
    rw [Block.imLight_of_waiting hs hw hb]
    refine ⟨hbusy, ?_, fun f hf => ?_, ?_⟩
    · rw [Block.lightGo_img, Block.listLoaded_lightWait]
    · obtain ⟨hread, hsnap⟩ := htaken f hf
      exact ⟨hread.trans ((Block.listLoaded_rd f).trans (if_pos hf)), hsnap.trans hread.symm⟩
    · rw [Block.lightGo_work, Block.listLoaded_work]

end Sys2Proof
end

section
/-! SUPPORT. Bits of a descriptor (R110, R111): what a replaced field leaves, and how the block seals what it writes. -/

namespace Sys2Proof.Machine

/-! ## Fields -/

theorem testBit_putBits (v hi lo x i : Nat) (h : lo ≤ hi) :
    (putBits v hi lo x).testBit i = if lo ≤ i ∧ i ≤ hi then x.testBit (i - lo) else v.testBit i := by
  by_cases hlow : i < lo
  · have hsame := congrArg (Nat.testBit · 0) (putBits_low v hi lo x (hi - lo + 1) i 1 rfl (by omega))
    rw [if_neg (by omega)]
    simpa [Nat.testBit_shiftRight] using hsame
  by_cases hhigh : hi < i
  · have hsame := congrArg (Nat.testBit · 0) (putBits_high v hi lo x (hi - lo + 1) i rfl (by omega))
    rw [if_neg (by omega)]
    simpa [Nat.testBit_shiftRight] using hsame
  · have hfield := congrArg (Nat.testBit · (i - lo)) (putBits_self v hi lo x (hi - lo + 1) rfl)
    rw [if_pos (by omega)]
    simpa [Nat.testBit_mod_two_pow, Nat.testBit_shiftRight, show i - lo < hi - lo + 1 by omega,
      show lo + (i - lo) = i by omega] using hfield

/-- A replaced field holds the value, and every other bit stays. -/
theorem getLsbD_dPut (d : Desc) (w hi lo v i : Nat) (h : lo ≤ hi) (h7 : 64 * w + hi < 512) : (dPut d w hi lo v).getLsbD i =
    if 64 * w + lo ≤ i ∧ i ≤ 64 * w + hi then v.testBit (i - (64 * w + lo)) else d.getLsbD i := by
  rw [dPut, BitVec.getLsbD_ofNat, testBit_putBits _ _ _ _ _ (by omega)]
  by_cases h512 : i < 512
  · rw [decide_eq_true h512, Bool.true_and]
    rfl
  · rw [if_neg (by omega), if_neg (by omega), BitVec.getLsbD_of_ge _ _ (by omega), decide_eq_false h512, Bool.false_and]

theorem testBit_dField (d : Desc) (w hi lo j : Nat) :
    (dField d w hi lo).testBit j = (decide (j < 64 * w + hi - (64 * w + lo) + 1) && d.getLsbD (64 * w + lo + j)) := by
  rw [dField, bitsOf, Nat.testBit_mod_two_pow, Nat.testBit_shiftRight]
  rfl

theorem dField_dPut_self (d : Desc) (w hi lo v : Nat) (h : lo ≤ hi) (h7 : 64 * w + hi < 512) :
    dField (dPut d w hi lo v) w hi lo = v % 2 ^ (hi - lo + 1) := by
  refine Nat.eq_of_testBit_eq (fun j => ?_)
  rw [testBit_dField, Nat.testBit_mod_two_pow, getLsbD_dPut _ _ _ _ _ _ h h7,
    show 64 * w + hi - (64 * w + lo) + 1 = hi - lo + 1 by omega]
  by_cases hj : j < hi - lo + 1
  · rw [if_pos (by omega), Nat.add_sub_cancel_left]
  · rw [decide_eq_false hj, Bool.false_and, Bool.false_and]

/-- A field sees only its own bits. -/
theorem dField_congr {d e : Desc} {w hi lo : Nat} (h : lo ≤ hi)
    (hbits : ∀ i, 64 * w + lo ≤ i → i ≤ 64 * w + hi → d.getLsbD i = e.getLsbD i) : dField d w hi lo = dField e w hi lo := by
  refine Nat.eq_of_testBit_eq (fun j => ?_)
  rw [testBit_dField, testBit_dField]
  by_cases hj : j < 64 * w + hi - (64 * w + lo) + 1
  · rw [hbits _ (by omega) (by omega)]
  · rw [decide_eq_false hj, Bool.false_and, Bool.false_and]

/-! ## The CRC (R111) -/

theorem leBytes_congr (n : Nat) {u v : Nat} (h : u % 2 ^ (8 * n) = v % 2 ^ (8 * n)) : leBytes n u = leBytes n v := by
  induction n generalizing u v with
  | zero => rfl
  | succ n ih =>
    rw [Nat.mul_succ, Nat.pow_add, Nat.mul_comm] at h
    have hbyte : u % 256 = v % 256 := by
      rw [← Nat.mod_mul_right_mod u 256 (2 ^ (8 * n)), h, Nat.mod_mul_right_mod]
    have hrest : u / 256 % 2 ^ (8 * n) = v / 256 % 2 ^ (8 * n) := by
      rw [← Nat.mod_mul_right_div_self, h, Nat.mod_mul_right_div_self]
    rw [leBytes, leBytes, ih hrest, BitVec.eq_of_toNat_eq (x := BitVec.ofNat 8 u) (y := BitVec.ofNat 8 v) hbyte]

/-- The bytes under the CRC see only the bits under it. -/
theorem leBytes_62_congr {d e : Desc} (h : ∀ i, i < 496 → d.getLsbD i = e.getLsbD i) :
    leBytes 62 d.toNat = leBytes 62 e.toNat := by
  refine leBytes_congr 62 (Nat.eq_of_testBit_eq (fun i => ?_))
  rw [Nat.testBit_mod_two_pow, Nat.testBit_mod_two_pow]
  by_cases hi : i < 8 * 62
  · exact congrArg _ (h i hi)
  · rw [decide_eq_false hi, Bool.false_and, Bool.false_and]

theorem crcSteps16_lt (n : Nat) {c : Nat} (h : c < 0x10000) : crcSteps16 n c < 0x10000 := by
  induction n generalizing c with
  | zero => exact h
  | succ n ih => exact ih (Nat.mod_lt _ (by decide))

theorem crc16From_lt (bs : List Byte) {c : Nat} (h : c < 0x10000) : crc16From bs c < 0x10000 := by
  induction bs generalizing c with
  | nil => exact h
  | cons x bs ih => exact ih (crcSteps16_lt 7 (Nat.mod_lt _ (by decide)))

theorem crc16_lt (bs : List Byte) : crc16 bs < 0x10000 := crc16From_lt bs (by decide)

/-! ## Sealing (R124) -/

/-- Under the CRC a sealed descriptor is the one with GEN incremented. -/
theorem getLsbD_dSeal (d : Desc) {i : Nat} (h : i < 496) : (dSeal d).getLsbD i = (dPut d 0 47 32 (dGen d + 1)).getLsbD i := by
  rw [dSeal, getLsbD_dPut _ _ _ _ _ _ (by decide) (by decide), if_neg (by omega)]

theorem getLsbD_dSeal_of_other (d : Desc) {i : Nat} (h : i < 496) (hgen : i < 32 ∨ 48 ≤ i) :
    (dSeal d).getLsbD i = d.getLsbD i := by
  rw [getLsbD_dSeal d h, getLsbD_dPut _ _ _ _ _ _ (by decide) (by decide), if_neg (by omega)]

theorem dGen_dSeal (d : Desc) : dGen (dSeal d) = (dGen d + 1) % 65536 :=
  (dField_congr (by decide) (fun i _ hi => getLsbD_dSeal d (by omega))).trans
    (dField_dPut_self d 0 47 32 _ (by decide) (by decide))

theorem dCrcOk_dSeal (d : Desc) : dCrcOk (dSeal d) = true := by
  have hbytes : leBytes 62 (dSeal d).toNat = leBytes 62 (dPut d 0 47 32 (dGen d + 1)).toNat :=
    leBytes_62_congr (fun _ hi => getLsbD_dSeal d hi)
  have hcrc : dCrc (dSeal d) = crc16 (leBytes 62 (dPut d 0 47 32 (dGen d + 1)).toNat) :=
    (dField_dPut_self _ 7 63 48 _ (by decide) (by decide)).trans (Nat.mod_eq_of_lt (crc16_lt _))
  rw [dCrcOk, hbytes, hcrc, beq_self_eq_true]

/-! ## The update of the POISON flag -/

theorem poisonUpd_apply (i : Nat) (d : Desc) : (poisonUpd i).apply d = dPut d 0 12 12 1 := rfl

theorem dPoison_poisonUpd_apply (i : Nat) (d : Desc) : dPoison ((poisonUpd i).apply d) = true := by
  rw [poisonUpd_apply, dPoison, dField_dPut_self _ _ _ _ _ (by decide) (by decide)]
  rfl

theorem getLsbD_poisonUpd_apply (i : Nat) (d : Desc) {k : Nat} (h : k ≠ 12) :
    ((poisonUpd i).apply d).getLsbD k = d.getLsbD k := by
  rw [poisonUpd_apply, getLsbD_dPut _ _ _ _ _ _ (by decide) (by decide), if_neg (by omega)]

end Sys2Proof.Machine
end

section
/-! SUPPORT. Invalidates of descriptors (R126, R127): the write that asks for one, and the run of the oldest. -/

namespace Sys2Proof.Machine

open Reg

/-! ## The descriptor cache (R117) -/

theorem Tab.get_map_filter {α : Type} (t : Tab (List α)) (p : α → Bool) (k : Nat) :
    Tab.get (t.map (fun e => (e.1, e.2.filter p))) k = (t.get k).filter p := by
  induction t with
  | nil => rfl
  | cons e t ih =>
    rw [List.map_cons, Tab.get, Tab.get, ih]
    exact (apply_ite (List.filter p) _ _ _).symm

theorem Block.descCached_congr {b c : Block} (h : c.edt.cache = b.edt.cache) (i : Nat) : c.descCached i = b.descCached i := by
  rw [Block.descCached, Block.descCached, h]

/-- A dropped index has no cached descriptor; every other keeps the one it has. -/
theorem Block.descCached_descDrop (b : Block) (p : Nat → Bool) (i : Nat) :
    (b.descDrop p).descCached i = if p i then none else b.descCached i := by
  have hset : (b.descDrop p).edt.cache.get (i % 1024) = (b.edt.cache.get (i % 1024)).filter (fun x => !p x.idx) :=
    Tab.get_map_filter ..
  rw [Block.descCached, hset, List.find?_filter]
  split
  · next hp =>
    rw [Option.map_eq_none_iff, List.find?_eq_none]
    rintro x - hx
    simp only [Bool.not_eq_true', Bool.decide_and, Bool.and_eq_true, decide_eq_true_eq, beq_iff_eq] at hx
    obtain ⟨hkept, rfl⟩ := hx
    exact absurd hp (by simp [hkept])
  · next hp =>
    rw [Block.descCached]
    congr 2
    funext x
    by_cases hx : x.idx = i
    · simp [hx, hp]
    · simp [hx]

/-! ## A write of EDT_INVAL (R126) -/

/-- The word that asks for an invalidate of this MODE and COUNT. -/
def invalWord (mode count : Nat) : Word := withField (withField (0 : Word) EDT_INVAL_MODE mode) EDT_INVAL_COUNT count

theorem fieldOf_invalWord_mode (mode count : Nat) : fieldOf (invalWord mode count) EDT_INVAL_MODE = mode % 4 := by
  rw [invalWord, fieldOf_withField_of_ne _ _ _ _ (by decide) (by decide) (by decide),
    fieldOf_withField_self _ _ _ (by decide) (by decide)]
  rfl

theorem fieldOf_invalWord_count (mode count : Nat) : fieldOf (invalWord mode count) EDT_INVAL_COUNT = count % 2 ^ 17 :=
  fieldOf_withField_self _ _ _ (by decide) (by decide)

/-- The commands that ask for an invalidate, with the MODE of each. -/
def invalCommands (role : Role) (n : BitVec 17) : List (Instr × Nat) :=
  [(.edtInvalIndex role, 1), (.edtInvalRange role n, 2), (.edtInvalAll role, 3)]

theorem exec_inval (s : State) {role : Role} {n : BitVec 17} {e : Instr × Nat} (he : e ∈ invalCommands role n) :
    exec e.1 s = writeReg role EDT_INVAL_MODE.off (invalWord e.2 (if e.2 = 2 then n.toNat else 0)) default s := by
  have word1 : withField (0 : Word) EDT_INVAL_MODE 1 = invalWord 1 0 := by decide
  have word3 : withField (0 : Word) EDT_INVAL_MODE 3 = invalWord 3 0 := by decide
  simp only [invalCommands, List.mem_cons, List.not_mem_nil, or_false] at he
  rcases he with rfl | rfl | rfl
  · show writeReg role _ (withField (0 : Word) EDT_INVAL_MODE 1) default s = _
    rw [word1]
    rfl
  · rfl
  · show writeReg role _ (withField (0 : Word) EDT_INVAL_MODE 3) default s = _
    rw [word3]
    rfl

theorem mode_of_mem_invalCommands {role : Role} {n : BitVec 17} {e : Instr × Nat} (he : e ∈ invalCommands role n) :
    1 ≤ e.2 ∧ e.2 ≤ 3 := by
  simp only [invalCommands, List.mem_cons, List.not_mem_nil, or_false] at he
  rcases he with rfl | rfl | rfl
  all_goals dsimp only; omega

/-- A granted write of EDT_INVAL is performed while the queue of invalidates has room (R126). -/
theorem writeReg_EDT_INVAL {s : State} {role : Role} {w : Word} (x : Aux) (hg : s.grants role EDT_INVAL_MODE.off w)
    (hroom : s.block.invalRoom = true) : writeReg role EDT_INVAL_MODE.off w x s =
      .next { s with block := s.block.written role reg_EDT_INVAL [] EDT_INVAL_MODE.off w x } := by
  obtain ⟨hopen, hheld, ⟨r, idx, hjudge⟩, hrec⟩ := hg
  have hfind := Block.judge_go hjudge
  rw [show findReg EDT_INVAL_MODE.off = some (reg_EDT_INVAL, []) from find_EDT_INVAL] at hfind
  cases hfind
  have hoff : 4 * (BitVec.ofNat 21 (EDT_INVAL_MODE.off / 4)).toNat = EDT_INVAL_MODE.off := by decide
  have hrecs : s.block.recRoom ((if s.block.recorded role reg_EDT_INVAL then 1 else 0)
      + s.block.fenceRecs reg_EDT_INVAL.name w.toNat) = true :=
    Block.recRoom_mono (n := 1) (by rw [show s.block.fenceRecs reg_EDT_INVAL.name w.toNat = 0 from rfl]; split <;> omega) hrec
  unfold writeReg access
  rw [onBlock_next]
  congr 2
  unfold Block.mgAccess
  simp only [hheld, List.isEmpty_nil, if_true, Block.tryAccess, hopen, Bool.not_true, Bool.false_eq_true, if_false, hoff]
  unfold Block.tryWrite
  simp only [hjudge, hroom, Bool.not_true, Bool.false_eq_true, and_false, if_false]
  rw [if_pos hrecs]
  rfl

/-- EDT_INVAL with its fields stored (R1). -/
def Block.invalStored (b : Block) (w : Word) : Block :=
  (b.wr EDT_INVAL_MODE (fieldOf w EDT_INVAL_MODE)).wr EDT_INVAL_COUNT (fieldOf w EDT_INVAL_COUNT)

theorem Block.performReg_EDT_INVAL (b : Block) (role : Role) (old : Nat) (w : Word) (x : Aux) :
    b.performReg role reg_EDT_INVAL [] EDT_INVAL_MODE.off old w x
      = ((b.invalStored w).invalWrite.wr EDT_INVAL_MODE 0).wr EDT_INVAL_COUNT 0 := by
  unfold Block.performReg
  rw [if_neg (by simp [Block.deafInstance, Block.idleInstance, reg_EDT_INVAL]), if_neg (by simp [isMnt, reg_EDT_INVAL]),
    if_neg (by simp [reg_EDT_INVAL])]
  rfl

/-- The invalidate that EDT_INVAL and EDT_INVAL_FIRST ask for, with the next sequence number. -/
def Block.invalAsked (b : Block) : Inval :=
  { mode := b.rd EDT_INVAL_MODE, first := b.rd EDT_INVAL_FIRST_FIRST, count := max 1 (b.rd EDT_INVAL_COUNT)
    seq := some ((b.rd EDT_INVAL_STATUS_ACCEPT_SEQ + 1) % 65536), walked := false, atId := 0, late := [], lane := 4 }

theorem Block.invalWrite_of_mode {b : Block} (h : b.rd EDT_INVAL_MODE ≠ 0) : b.invalWrite =
    (b.wr EDT_INVAL_STATUS_ACCEPT_SEQ ((b.rd EDT_INVAL_STATUS_ACCEPT_SEQ + 1) % 65536)).invalAccept b.invalAsked := by
  unfold Block.invalWrite
  rw [if_neg h]
  dsimp only
  rw [Block.rd_wr_of_ne _ EDT_INVAL_STATUS_ACCEPT_SEQ EDT_INVAL_FIRST_FIRST _ (by decide),
    Block.rd_wr_of_ne _ EDT_INVAL_STATUS_ACCEPT_SEQ EDT_INVAL_COUNT _ (by decide)]
  rfl

/-- A block that has recorded a write of EDT_INVAL and stored its fields. -/
def Block.invalNoted (b : Block) (role : Role) (w : Word) : Block :=
  (b.noted role reg_EDT_INVAL EDT_INVAL_MODE.off w).invalStored w

/-- A granted EDT_INVAL has been performed: its invalidate is accepted, and its action fields hold nothing. -/
def Block.invalDone (b : Block) (role : Role) (w : Word) : Block :=
  ((b.invalNoted role w).invalWrite.wr EDT_INVAL_MODE 0).wr EDT_INVAL_COUNT 0

theorem exec_inval_granted {s : State} {role : Role} {n : BitVec 17} {e : Instr × Nat} (he : e ∈ invalCommands role n)
    (hg : s.grants role EDT_INVAL_MODE.off (invalWord e.2 (if e.2 = 2 then n.toNat else 0)))
    (hroom : s.block.invalRoom = true) : exec e.1 s = .next { s with block :=
      (s.block.invalDone role (invalWord e.2 (if e.2 = 2 then n.toNat else 0))).mgAnswer false 0 } := by
  rw [exec_inval s he, writeReg_EDT_INVAL default hg hroom, Block.written, Block.performReg_EDT_INVAL]
  rfl

section
variable {b : Block} {role : Role} {w : Word}

theorem Block.invalNoted_rd (g : Fld) (hm : g.key ≠ EDT_INVAL_MODE.key) (hc : g.key ≠ EDT_INVAL_COUNT.key)
    (ha : g.key ∉ audKeys) : (b.invalNoted role w).rd g = b.rd g := by
  rw [Block.invalNoted, Block.invalStored, Block.rd_wr_of_ne _ _ _ _ hc, Block.rd_wr_of_ne _ _ _ _ hm,
    Block.noted_rd _ _ _ _ _ _ ha]

theorem Block.invalNoted_mode : (b.invalNoted role w).rd EDT_INVAL_MODE = fieldOf w EDT_INVAL_MODE := by
  rw [Block.invalNoted, Block.invalStored, Block.rd_wr_of_ne _ _ _ _ (by decide), Block.rd_wr_self]
  exact Nat.mod_mod _ _

theorem Block.invalNoted_count : (b.invalNoted role w).rd EDT_INVAL_COUNT = fieldOf w EDT_INVAL_COUNT := by
  rw [Block.invalNoted, Block.invalStored, Block.rd_wr_self]
  exact Nat.mod_mod _ _

/-- What the invalidate of a granted write is: MODE and COUNT of its word, FIRST and the next number as the registers had them. -/
theorem Block.invalNoted_asked : (b.invalNoted role w).invalAsked =
    { mode := fieldOf w EDT_INVAL_MODE, first := b.rd EDT_INVAL_FIRST_FIRST, count := max 1 (fieldOf w EDT_INVAL_COUNT)
      seq := some ((b.rd EDT_INVAL_STATUS_ACCEPT_SEQ + 1) % 65536), walked := false, atId := 0, late := [], lane := 4 } := by
  rw [Block.invalAsked, Block.invalNoted_mode, Block.invalNoted_count,
    Block.invalNoted_rd EDT_INVAL_FIRST_FIRST (by decide) (by decide) (by decide),
    Block.invalNoted_rd EDT_INVAL_STATUS_ACCEPT_SEQ (by decide) (by decide) (by decide)]

theorem Block.invalDone_eq (h : fieldOf w EDT_INVAL_MODE ≠ 0) : b.invalDone role w =
    ((((b.invalNoted role w).wr EDT_INVAL_STATUS_ACCEPT_SEQ ((b.rd EDT_INVAL_STATUS_ACCEPT_SEQ + 1) % 65536)).invalAccept
      (b.invalNoted role w).invalAsked).wr EDT_INVAL_MODE 0).wr EDT_INVAL_COUNT 0 := by
  rw [Block.invalDone, Block.invalWrite_of_mode (by rwa [Block.invalNoted_mode]),
    Block.invalNoted_rd EDT_INVAL_STATUS_ACCEPT_SEQ (by decide) (by decide) (by decide)]

theorem Block.invalDone_edt (h : fieldOf w EDT_INVAL_MODE ≠ 0) :
    (b.invalDone role w).edt = (b.invalAccept (b.invalNoted role w).invalAsked).edt := by
  have hedt : (b.invalNoted role w).edt = b.edt := Block.noted_edt ..
  rw [Block.invalDone_eq h, Block.wr_edt, Block.wr_edt, Block.invalAccept, Block.invalAccept, Block.wr_edt, hedt]

theorem Block.invalDone_parts (h : fieldOf w EDT_INVAL_MODE ≠ 0) : b.invalDone role w = { b with
    regs := (b.invalDone role w).regs, mg := (b.noted role reg_EDT_INVAL EDT_INVAL_MODE.off w).mg
    edt := (b.invalDone role w).edt } := by
  obtain ⟨rg, m, hnoted, -⟩ := b.noted_form role reg_EDT_INVAL EDT_INVAL_MODE.off w
  rw [Block.invalDone_eq h, Block.invalNoted, hnoted]
  rfl

theorem Block.invalDone_seq (h : fieldOf w EDT_INVAL_MODE ≠ 0) : (b.invalDone role w).rd EDT_INVAL_STATUS_ACCEPT_SEQ =
    (b.rd EDT_INVAL_STATUS_ACCEPT_SEQ + 1) % 65536 := by
  rw [Block.invalDone_eq h, Block.rd_wr_of_ne _ _ _ _ (by decide), Block.rd_wr_of_ne _ _ _ _ (by decide), Block.invalAccept,
    Block.rd_mk, Block.rd_wr_self]
  exact Nat.mod_mod _ _

theorem Block.invalDone_regsBut (h : fieldOf w EDT_INVAL_MODE ≠ 0) : b.regsBut (b.invalDone role w)
    ([EDT_INVAL_MODE.key, EDT_INVAL_COUNT.key, EDT_INVAL_STATUS_ACCEPT_SEQ.key] ++ audKeys) := by
  intro g hg
  simp only [List.cons_append, List.nil_append, List.mem_cons, not_or] at hg
  obtain ⟨hmode, hcount, hseq, haud⟩ := hg
  rw [Block.invalDone_eq h, Block.rd_wr_of_ne _ _ _ _ hcount, Block.rd_wr_of_ne _ _ _ _ hmode, Block.invalAccept,
    Block.rd_mk, Block.rd_wr_of_ne _ _ _ _ hseq, Block.invalNoted_rd g hmode hcount haud]

end

/-! ## The run of the oldest invalidate (R127) -/

/-- The oldest invalidate has dropped its range from the cache and left the queue. -/
def Block.invalDropped (b : Block) (v : Inval) (rest : List Inval) : Block :=
  { b with edt := { (b.descDrop v.covers).edt with inval := rest } }

/-- With no fetch of its range outstanding, and nothing at the slices, an invalidate of software completes at once. -/
theorem Block.invalRun_of_free {b : Block} {v : Inval} {rest : List Inval} {n : Nat} (hq : b.edt.inval = v :: rest)
    (hw : v.walked = false) (hn : v.seq = some n) (hl : v.lane = 4)
    (hf : ∀ f ∈ b.edt.fetches, ¬ (f.noInstall = true ∧ v.covers f.idx = true)) (hs : b.slices = []) : b.invalRun =
      ((b.invalDropped v rest).wr EDT_INVAL_STATUS_DONE_SEQ n).intr 9 (b.on EDT_CTL_INT_INVAL) := by
  have hfetching : b.edt.fetches.any (fun f => f.noInstall && v.covers f.idx) = false := by
    rw [List.any_eq_false]
    intro f hm hp
    exact hf f hm (by simpa using hp)
  unfold Block.invalRun
  rw [hq]
  dsimp only
  rw [hw, if_neg Bool.false_ne_true]
  dsimp only
  refine (if_neg ?_).trans ?_
  · have hwaiting : ∀ p : Nat × SliceSt → Bool, ¬ b.slices.any p = true := by simp [hs]
    rw [Bool.or_eq_true, not_or]
    exact ⟨ne_true_of_eq_false hfetching, hwaiting _⟩
  · rw [hn, hl]
    rfl

/-- What a completed invalidate leaves: its range is out of the cache, DONE_SEQ has its number, and its interrupt may wait. -/
theorem Block.invalRun_spec {b t : Block} {v : Inval} {rest : List Inval} {n : Nat} {p : Bool} (hn : n < 65536)
    (ht : t = ((b.invalDropped v rest).wr EDT_INVAL_STATUS_DONE_SEQ n).intr 9 p) :
    t.edt = (b.invalDropped v rest).edt ∧ t.mg = b.mg ∧ t.rd EDT_INVAL_STATUS_DONE_SEQ = n
      ∧ b.regsBut t [EDT_INVAL_STATUS_DONE_SEQ.key, GLB_INT_PEND_PEND.key]
      ∧ t = { b with regs := t.regs, edt := t.edt, mg := t.mg } := by
  have hparts : t = { b.invalDropped v rest with regs := t.regs } := by
    rw [ht, Block.intr_parts]
    rfl
  refine ⟨by rw [hparts], by rw [hparts]; rfl, ?_, fun g hg => ?_, by rw [hparts]; rfl⟩
  · rw [ht, Block.rd_intr _ _ _ _ (by decide), Block.rd_wr_self]
    exact Nat.mod_eq_of_lt hn
  · simp only [List.mem_cons, List.not_mem_nil, or_false, not_or] at hg
    rw [ht, Block.rd_intr _ _ _ _ hg.2, Block.rd_wr_of_ne _ _ _ _ hg.1]
    rfl

theorem Block.mgRetry_of_none {b : Block} (h : b.mg.held = []) : b.mgRetry = b := by
  rw [Block.mgRetry, h, mgDrain, ← h]

end Sys2Proof.Machine
end

section
/-! SUPPORT. The EDT unit's own requests to a table in scratch (R97, R118, R124, R239): the sector they reach, what a read
answers, and what a write leaves. -/

namespace Sys2Proof.Machine

open Reg

/-! ## The sector of a descriptor -/

/-- The sector of the data arrays that holds descriptor `i` of a table in scratch. -/
def Block.edtCell (b : Block) (i : Nat) : Nat := (b.scratchPlace (b.edtBase + edtAddr i % 2 ^ 30)).2

theorem Block.scratchPlace_congr {b c : Block} (h : c.scratchWays = b.scratchWays) (x : Nat) :
    c.scratchPlace x = b.scratchPlace x := by
  rw [Block.scratchPlace, Block.scratchPlace, h]

/-- The reserved region's address of a descriptor, taken apart into line and sector, is that address. -/
theorem edtAddr_line (i : Nat) : edtAddr i / 256 * 256 + 64 * (edtAddr i / 64 % 4) = edtAddr i := by
  unfold edtAddr
  omega

/-- The index that the reserved region reads from the address is the descriptor's, modulo the size of the region. -/
theorem edtAddr_index_le (i : Nat) : edtAddr i % 2 ^ 30 / 64 ≤ i := by
  unfold edtAddr
  omega

section
variable {b : Block} {r : Req} {i : Nat}

/-- A request for one descriptor of the table wants its sector (R97). -/
theorem Block.wantedSecs_edt (hd : r.dpa = edtAddr i) (hop : opSectors r.op r.dpa = [r.dpa / 64 % 4]) (hi : i < b.edtEntries) :
    b.wantedSecs r = [edtAddr i / 64 % 4] := by
  have hin : edtAddr i % 2 ^ 30 / 64 < b.edtEntries := Nat.lt_of_le_of_lt (edtAddr_index_le i) hi
  rw [Block.wantedSecs, hop, hd, List.filter_cons_of_pos, List.filter_nil]
  rw [edtAddr_line, decide_eq_true hin, Bool.or_true]

theorem Block.scratchOff_edt (ha : r.area = .edt) (hd : r.dpa = edtAddr i) :
    b.scratchOff r (edtAddr i / 64 % 4) = b.edtBase + edtAddr i % 2 ^ 30 := by
  unfold Block.scratchOff
  dsimp only
  rw [if_pos ha, hd, edtAddr_line]

/-- A request to a table in scratch is served there at once, when nothing waits at its slice. -/
theorem Block.sliceAccess_edt (c : Nat) (ha : r.area = .edt) (hin : b.edtInScratch = true) (h8 : r.src ≠ 8)
    (hs : b.slices = []) : b.sliceAccess c r = b.scratchAccess r (b.wantedSecs r) (b.scratchOff r) := by
  have hgranted : b.scrubGranted r = b := by
    unfold Block.scrubGranted
    split
    · rw [if_neg (fun h => h8 h.1)]
    · rfl
  have hfree : b.waitsBehind c r = false := by
    rw [Block.waitsBehind, hs]
    rfl
  have hnoted : ¬ (r.area = .edt ∧ (!b.edtInScratch) = true ∧ r.op.isWrite = true ∧ (!r.empty) = true) := by simp [hin]
  have hdram : ¬ r.area = .dram := by simp [ha]
  unfold Block.sliceAccess
  rw [hgranted]
  dsimp only
  rw [if_neg hnoted, if_neg hdram]
  rw [hfree, if_neg Bool.false_ne_true, Block.sliceTry, if_pos (.inr ⟨ha, hin⟩)]

end

/-! ## Reads -/

/-- Reporting an SRAM error touches no register below those of the slices' status. -/
theorem Block.rd_cchErr (b : Block) (c pos set way sec : Nat) (g : Fld) (hg : g.key < 0x40008 * 32)
    (hp : g.key ≠ GLB_INT_PEND_PEND.key) : (b.cchErr c pos set way sec).rd g = b.rd g := by
  have hkind : g.key ≠ (CCH_ERR_KIND c).key := by simp only [CCH_ERR_KIND, Fld.key] at *; omega
  have hsec : g.key ≠ (CCH_ERR_SECTOR c).key := by simp only [CCH_ERR_SECTOR, Fld.key] at *; omega
  have hway : g.key ≠ (CCH_ERR_WAY c).key := by simp only [CCH_ERR_WAY, Fld.key] at *; omega
  have hset : g.key ≠ (CCH_ERR_SET c).key := by simp only [CCH_ERR_SET, Fld.key] at *; omega
  unfold Block.cchErr
  dsimp only
  rw [Block.rd_intr _ _ _ _ hp, Block.rd_wr_of_ne _ _ _ _ hset, Block.rd_wr_of_ne _ _ _ _ hway,
    Block.rd_wr_of_ne _ _ _ _ hsec, Block.rd_wr_of_ne _ _ _ _ hkind, Block.rd_wr_of_ne]
  split
  all_goals
    simp only [CCH_STATUS_TAG_FIX, CCH_STATUS_DATA_CE, CCH_STATUS_DATA_UE, CCH_STATUS_TAG_UE, Fld.key] at *
    omega

theorem Block.cchErr_parts (b : Block) (c pos set way sec : Nat) :
    b.cchErr c pos set way sec = { b with regs := (b.cchErr c pos set way sec).regs } := by
  unfold Block.cchErr
  rw [Block.intr_parts]
  rfl

/-- A read of a scratch sector reports an error and corrects what it can; the sector's value stays (R235, R239). -/
theorem Block.scratchRead_spec (b : Block) (k : Nat) :
    b.scratchRead k = { b with regs := (b.scratchRead k).regs, arr := (b.scratchRead k).arr }
      ∧ (b.scratchRead k).scratchVal k = b.scratchVal k ∧ (b.scratchRead k).scratchWays = b.scratchWays := by
  unfold Block.scratchRead
  dsimp only
  split
  · exact ⟨rfl, rfl, rfl⟩
  · next h1 =>
    refine ⟨?_, ?_, Block.rd_cchErr _ _ _ _ _ _ _ (by decide) (by decide)⟩
    · rw [Block.cchErr_parts]
    · rw [Block.cchErr_parts, Block.scratchVal, Block.scratchVal, h1]
      dsimp only
      rw [Tab.get_set_self]
      rfl
  · refine ⟨?_, ?_, Block.rd_cchErr _ _ _ _ _ _ _ (by decide) (by decide)⟩
    · rw [Block.cchErr_parts]
    · rw [Block.cchErr_parts]
      rfl

theorem Block.respond_intern (b : Block) (r : Req) (sec status : Nat) (data : BitVec 512) (h6 : 6 ≤ r.src) (h8 : r.src ≠ 8)
    (h10 : r.src ≠ 10) : b.respond r sec status data = { b with intern := b.intern ++ [⟨r, sec, status, data⟩] } := by
  rw [Block.respond, if_neg (by omega), if_neg (by simp [h8, h10])]

/-- A read of a descriptor of a table in scratch answers with what its sector holds. -/
theorem Block.sliceAccess_edt_read {b : Block} {r : Req} {i : Nat} (c : Nat) (ha : r.area = .edt) (hd : r.dpa = edtAddr i)
    (hop : r.op = .rd64) (hin : b.edtInScratch = true) (hi : i < b.edtEntries) (hs : b.slices = []) (h6 : 6 ≤ r.src)
    (h8 : r.src ≠ 8) (h10 : r.src ≠ 10) :
    b.sliceAccess c r = { b with
      regs := (b.scratchRead (b.edtCell i)).regs, arr := (b.scratchRead (b.edtCell i)).arr
      intern := b.intern ++ [⟨r, edtAddr i / 64 % 4, (b.scratchVal (b.edtCell i)).status, (b.scratchVal (b.edtCell i)).bits⟩] } := by
  obtain ⟨hparts, hval, hways⟩ := b.scratchRead_spec (b.edtCell i)
  have hkey : ((b.scratchRead (b.edtCell i)).scratchPlace (b.edtBase + edtAddr i % 2 ^ 30)).2 = b.edtCell i := by
    rw [Block.scratchPlace_congr hways]
    rfl
  rw [Block.sliceAccess_edt c ha hin h8 hs, Block.wantedSecs_edt hd (by rw [hop]; rfl) hi, Block.scratchAccess, hop]
  dsimp only
  rw [forEach_cons, forEach_nil, Block.scratchOff_edt ha hd]
  rw [show (b.scratchPlace (b.edtBase + edtAddr i % 2 ^ 30)).2 = b.edtCell i from rfl, hkey, hval,
    Block.respond_intern _ _ _ _ _ h6 h8 h10, hparts]

/-! ## Writes -/

theorem Block.scratchVal_scratchPut (b : Block) (k : Nat) (d : BitVec 512) :
    (b.scratchPut k d false).scratchVal k = .data d false := by
  rw [Block.scratchPut, Block.scratchVal]
  dsimp only
  rw [Tab.get_set_self, Tab.get_set_self, Tab.get_set_self]
  rfl

/-- The write of an update to a table in scratch replaces the descriptor's sector, and has no answer (R124). -/
theorem Block.sliceAccess_edt_write {b : Block} {r : Req} {i : Nat} {d : Desc} (c : Nat) (ha : r.area = .edt)
    (hd : r.dpa = edtAddr i) (hop : r.op = .wr64) (hw : r.wdata = [⟨d, allOnes, false, false⟩]) (hin : b.edtInScratch = true)
    (hi : i < b.edtEntries) (hs : b.slices = []) (h10 : r.src = 10) :
    b.sliceAccess c r = b.scratchPut (b.edtCell i) d false := by
  have hempty : r.empty = false := by rw [Req.empty, hop]; rfl
  have hwhole : r.whole = true := by rw [Req.whole, hop]; rfl
  have hdata : r.data = ⟨d, allOnes, false, false⟩ := by rw [Req.data, hw]; rfl
  rw [Block.sliceAccess_edt c ha hin (by omega) hs, Block.wantedSecs_edt hd (by rw [hop]; rfl) hi, Block.scratchAccess, hop]
  dsimp only
  rw [forEach_cons, forEach_nil, hempty, hwhole, hdata, if_neg Bool.false_ne_true, Bool.true_or, if_pos rfl,
    Block.scratchOff_edt ha hd, Block.respond, if_neg (by omega), if_pos (.inr ⟨h10, hop⟩)]
  rfl

end Sys2Proof.Machine
end

section
/-! SUPPORT. Fetches of descriptors (R118, R119, R127, R377): the start of the oldest that waits, and what a return leaves. -/

namespace Sys2Proof.Machine

open Reg

/-! ## Starts -/

/-- The oldest fetch that waits is marked as started (R118). -/
def Block.fetchMarked (b : Block) : Block :=
  { b with edt := { b.edt with fetches := updFirst (fun f => !f.started) (fun f => { f with started := true }) b.edt.fetches } }

theorem Block.overEnter_of_none {b : Block} (h : b.edt.beyond = []) : b.overEnter = b := by
  rw [Block.overEnter, h, forEach_nil, ← h]

theorem Block.fetchStart_of_waiting {b : Block} {f : Fetch} (hn : (b.edt.fetches.filter (fun x => x.started)).length < 32)
    (hf : b.edt.fetches.find? (fun x => !x.started) = some f) (hb : b.edt.beyond = []) :
    b.fetchStart = b.fetchMarked.edtRead 9 f.idx := by
  unfold Block.fetchStart
  rw [if_neg (by omega), hf]
  dsimp only
  rw [show ({ b with edt := { b.edt with
    fetches := updFirst (fun f => !f.started) (fun f => { f with started := true }) b.edt.fetches } } : Block) = b.fetchMarked
    from rfl, Block.overEnter_of_none (b := b.fetchMarked) hb]

/-- The request of a read of the EDT unit, with its number. -/
def Block.edtAsk (b : Block) (src i : Nat) : Req := { b.edtReq src i .rd64 with id := b.nextId }

/-- A read of a line that the block places but that lies on a fenced or OFF channel is answered FENCED at once (R119). -/
theorem Block.edtRead_of_down {b : Block} {src i : Nat} (hp : b.edtNoPlace (b.edtReq src i .rd64) = false)
    (hd : b.edtDown (b.edtReq src i .rd64) = true) : b.edtRead src i =
      { b with nextId := b.nextId + 1, intern := b.intern ++ [⟨b.edtAsk src i, i % 4, stFenced, 0⟩] } :=
  (if_neg (ne_true_of_eq_false hp)).trans (if_pos hd)

/-- Any other read of a table in scratch is answered with what the descriptor's sector holds. -/
theorem Block.edtRead_of_scratch {b : Block} {src i : Nat} (hin : b.edtInScratch = true)
    (hf : b.sliceFenced (b.reqSlice (b.edtReq src i .rd64)) = false) (hi : i < b.edtEntries) (hs : b.slices = [])
    (h6 : 6 ≤ src) (h8 : src ≠ 8) (h10 : src ≠ 10) : b.edtRead src i = { b with
      nextId := b.nextId + 1, regs := (b.edtRead src i).regs, arr := (b.edtRead src i).arr
      intern := b.intern ++
        [⟨b.edtAsk src i, edtAddr i / 64 % 4, (b.scratchVal (b.edtCell i)).status, (b.scratchVal (b.edtCell i)).bits⟩] } := by
  have hplace : b.edtNoPlace (b.edtReq src i .rd64) = false := by rw [Block.edtNoPlace, hin]; rfl
  have hup : b.edtDown (b.edtReq src i .rd64) = false := by rw [Block.edtDown, hin, if_pos rfl, hf]
  have hread : b.edtRead src i = Block.sliceAccess { b with nextId := b.nextId + 1 }
      (b.reqSlice (b.edtReq src i .rd64)) (b.edtAsk src i) :=
    (if_neg (ne_true_of_eq_false hplace)).trans (if_neg (ne_true_of_eq_false hup))
  rw [hread, Block.sliceAccess_edt_read (b := { b with nextId := b.nextId + 1 }) (r := b.edtAsk src i) (i := i) _ rfl rfl rfl
    hin hi hs h6 h8 h10]
  rfl

/-! ## Returns -/

/-- A fetch has returned: its answer and its entry are gone. -/
def Block.fetchTaken (b : Block) (rest : List Intern) (others : List Fetch) : Block :=
  { b with intern := rest, edt := { b.edt with fetches := others } }

theorem Block.invalLate_of_no_waiters (b : Block) {f : Fetch} (h : f.waiters = []) : b.invalLate f = b := by
  have hlate (v : Inval) : (if v.covers f.idx then { v with late := v.late ++ f.waiters.map (fun r => r.id) } else v) = v := by
    rw [h, List.map_nil, List.append_nil, ite_self]
  unfold Block.invalLate
  rw [List.map_congr_left (g := id) (fun v _ => hlate v), List.map_id, ite_self]

theorem Block.descFault_of_sound {b : Block} {status : Nat} {d : Desc} (hs : statusHasData status = true)
    (hc : dCrcOk d = true) (hm : b.malformed d = false) : b.descFault status d = none := by
  simp [Block.descFault, hs, hc, hm]

theorem Block.descFault_of_crc {b : Block} {status : Nat} {d : Desc} (hs : statusHasData status = true)
    (hv : dValid d = true) (hc : dCrcOk d = false) : b.descFault status d = some 2 := by
  simp [Block.descFault, hs, hv, hc]

theorem ne_stFenced_of_statusHasData {st : Nat} (h : statusHasData st = true) : st ≠ stFenced := by
  rintro rfl
  exact absurd h (by decide)

section
variable {b : Block} {n : Intern} {rest : List Intern} {f : Fetch} {others : List Fetch}

/-- The return of a fetch that no request waits for. -/
theorem Block.fetchReturn_eq (hw : f.waiters = [])
    (hn : takeFirst (fun (m : Intern) => m.req.src == 9) b.intern = some (n, rest))
    (hf : takeFirst (fun (x : Fetch) => x.idx == n.req.idx && x.started) b.edt.fetches = some (f, others)) :
    b.fetchReturn =
      if f.bad then (b.fetchTaken rest others).queueUe
      else if n.status = stFenced then b.fetchTaken rest others
      else match (b.fetchTaken rest others).descFault n.status n.data with
        | some pos => (b.fetchTaken rest others).edtError pos n.req.idx none true
        | none => if f.noInstall || b.edt.inval.any (fun v => v.covers n.req.idx) then b.fetchTaken rest others
            else (b.fetchTaken rest others).descPut n.req.idx n.data := by
  unfold Block.fetchReturn
  rw [hn]
  dsimp only
  rw [hf]
  dsimp only
  simp only [hw, forEach_nil, Block.invalLate_of_no_waiters _ hw]
  rfl

/-- A sound valid descriptor is installed, unless an invalidate of its range was accepted meanwhile (R118, R127). -/
theorem Block.fetchReturn_of_sound (hw : f.waiters = [])
    (hn : takeFirst (fun (m : Intern) => m.req.src == 9) b.intern = some (n, rest))
    (hf : takeFirst (fun (x : Fetch) => x.idx == n.req.idx && x.started) b.edt.fetches = some (f, others))
    (hb : f.bad = false) (hs : statusHasData n.status = true) (hc : dCrcOk n.data = true) (hm : b.malformed n.data = false) :
    b.fetchReturn = if f.noInstall || b.edt.inval.any (fun v => v.covers n.req.idx) then b.fetchTaken rest others
      else (b.fetchTaken rest others).descPut n.req.idx n.data := by
  rw [Block.fetchReturn_eq hw hn hf, hb, if_neg Bool.false_ne_true, if_neg (ne_stFenced_of_statusHasData hs),
    Block.descFault_of_sound (b := b.fetchTaken rest others) hs hc hm]

/-- An uncorrectable error of its miss-queue entry is an event and nothing else (R377). -/
theorem Block.fetchReturn_of_bad (hw : f.waiters = [])
    (hn : takeFirst (fun (m : Intern) => m.req.src == 9) b.intern = some (n, rest))
    (hf : takeFirst (fun (x : Fetch) => x.idx == n.req.idx && x.started) b.edt.fetches = some (f, others))
    (hb : f.bad = true) : b.fetchReturn = (b.fetchTaken rest others).queueUe := by
  rw [Block.fetchReturn_eq hw hn hf, if_pos hb]

/-- A wrong CRC shows in EDT_STATUS and EDT_ERR_INDEX (R119). -/
theorem Block.fetchReturn_of_crc (hw : f.waiters = [])
    (hn : takeFirst (fun (m : Intern) => m.req.src == 9) b.intern = some (n, rest))
    (hf : takeFirst (fun (x : Fetch) => x.idx == n.req.idx && x.started) b.edt.fetches = some (f, others))
    (hb : f.bad = false) (hs : statusHasData n.status = true) (hv : dValid n.data = true) (hc : dCrcOk n.data = false) :
    b.fetchReturn = (((b.fetchTaken rest others).wr EDT_STATUS_BAD_CRC 1).wr EDT_ERR_INDEX_INDEX n.req.idx).intr 9
      (b.bit EDT_CTL_INT_EN 2) := by
  rw [Block.fetchReturn_eq hw hn hf, hb, if_neg Bool.false_ne_true, if_neg (ne_stFenced_of_statusHasData hs),
    Block.descFault_of_crc hs hv hc]
  rfl

end

/-- An installed descriptor is the one its index finds (R117). -/
theorem Block.descCached_descPut_self (b : Block) (i : Nat) (d : Desc) : (b.descPut i d).descCached i = some d := by
  rw [Block.descCached, Block.descPut]
  dsimp only
  rw [Tab.upd, Tab.get_set_self, List.take_succ_cons, List.find?_cons_of_pos (by simp)]
  rfl

end Sys2Proof.Machine
end

section
/-! SUPPORT. Updates of descriptors by the block (R124): the write that follows the read, and the invalidate it queues. -/

namespace Sys2Proof.Machine

open Reg

/-- The write of descriptor `i` that an update makes. -/
def Block.edtWrite (b : Block) (i : Nat) (d : Desc) : Req :=
  { b.edtReq 10 i .wr64 with wdata := [⟨d, allOnes, false, false⟩] }

/-- The write is performed at its slice. -/
def Block.putDesc (b : Block) (i : Nat) (d : Desc) : Block := b.sliceAccess (b.reqSlice (b.edtWrite i d)) (b.edtWrite i d)

theorem Block.putDesc_of_scratch {b : Block} {i : Nat} (d : Desc) (hin : b.edtInScratch = true) (hi : i < b.edtEntries)
    (hs : b.slices = []) : b.putDesc i d = b.scratchPut (b.edtCell i) d false :=
  Block.sliceAccess_edt_write _ rfl rfl rfl rfl hin hi hs rfl

/-- The block's own update moves GEN on and cancels the write-backs of lines that move (R400, R440). -/
def Block.updMoved (b : Block) (i : Nat) (old new : Desc) : Block :=
  ((b.genMoved i (dGen old)).scrubMoved i old new).scrubsMoved i old new

/-- The block with other requests that wait for a chunk lock. -/
def Block.updHeld (b : Block) (held : List Req) : Block := { b with edt := { b.edt with held := held } }

/-- With no lane of the Tender in use, no line at the scrubber and nothing at the slices, only requests that wait for a chunk lock
change. -/
theorem Block.updMoved_parts {b : Block} (i : Nat) (old new : Desc) (hl : b.scrub.line = none) (ht : b.tnd.lanes = [])
    (hs : b.slices = []) : b.updMoved i old new = b.updHeld (b.updMoved i old new).edt.held := by
  have hgen : b.genMoved i (dGen old) = b := by
    rw [Block.genMoved, ht, List.map_nil, ← ht]
  have hscrub : b.scrubMoved i old new = b := by
    rw [Block.scrubMoved, hl]
  rw [Block.updMoved, hgen, hscrub, Block.scrubsMoved, Block.mapScrubs, hs, List.map_nil, ← hs, Block.updHeld]

/-- The invalidate of the cached copy that an update queues. -/
def DescUpd.inval (u : DescUpd) : Inval :=
  { mode := 1, first := u.idx, count := 1, seq := none, walked := false, atId := 0, late := [], lane := u.lane }

/-- An update whose read has returned a sound valid descriptor, which it changes, writes it sealed and queues the invalidate. -/
theorem Block.updateWith_of_changed {b : Block} {u : DescUpd} {status : Nat} {d : Desc} (put : Block → Desc → Block)
    (hs : statusHasData status = true) (hv : dValid d = true) (hc : dCrcOk d = true) (hm : b.malformed d = false)
    (hg : u.gen = none) (hl : 4 ≤ u.lane) (hn : u.apply d ≠ d) : b.updateWith u status d put =
      (put (b.updMoved u.idx d (u.apply d)) (dSeal (u.apply d))).invalAccept u.inval := by
  have hnote (t : Block) (gen : Nat) : t.genNote u.lane u.idx gen = t := if_neg (by omega)
  unfold Block.updateWith
  rw [if_neg (ne_stFenced_of_statusHasData hs), Block.descFault_of_sound hs hc hm, hv, hg]
  dsimp only
  rw [if_neg (by decide), if_neg Bool.false_ne_true, if_neg hn, hnote]
  rfl

/-- An update has ended: its answer and itself are gone. -/
def Block.updTaken (b : Block) (others : List Intern) (rest : List DescUpd) : Block :=
  { b with intern := others, edt := { b.edt with updates := rest } }

theorem Block.updateStep_of_returned {b : Block} {u : DescUpd} {rest : List DescUpd} {n : Intern} {others : List Intern}
    (hu : b.edt.updates = u :: rest) (ha : u.asked = true) (hr : b.invalRoom = true) (he : b.edtThere = true)
    (hn : takeFirst (fun (m : Intern) => m.req.src == 10) b.intern = some (n, others)) : b.updateStep =
      (b.updTaken others rest).updateWith u n.status n.data (fun b d => b.putDesc u.idx d) := by
  unfold Block.updateStep
  rw [hu]
  dsimp only
  rw [he, ha, hr, hn]
  rfl

end Sys2Proof.Machine
end

section
/-! SUPPORT. The statements of the chapter on addresses and extents, settled. -/

namespace Sys2Proof

open Machine Machine.Reg

/-- Settles O23: a granted write of EDT_INVAL stores its fields and accepts the invalidate they ask for; with nothing of its range
outstanding the oldest drops its range and completes in one run. -/
theorem invalidatesCompleteInOrder : Obligations.InvalidatesCompleteInOrder := by
  intro s
  refine ⟨fun role n e he hg hroom => ?_, fun v rest n hq hw hn hlt hl hheld hf hs => ?_⟩
  · obtain ⟨hpos, hle⟩ := mode_of_mem_invalCommands he
    have hexec := exec_inval_granted he hg hroom
    have hmode := (fieldOf_invalWord_mode e.2 (if e.2 = 2 then n.toNat else 0)).trans (Nat.mod_eq_of_lt (by omega))
    have hcount := fieldOf_invalWord_count e.2 (if e.2 = 2 then n.toNat else 0)
    generalize invalWord e.2 (if e.2 = 2 then n.toNat else 0) = w at hexec hmode hcount
    have hne : fieldOf w EDT_INVAL_MODE ≠ 0 := by omega
    have hasked := Block.invalNoted_asked (b := s.block) (role := role) (w := w)
    have hedt := Block.invalDone_edt (b := s.block) (role := role) hne
    generalize (s.block.invalNoted role w).invalAsked = v at hasked hedt
    have hparts := Block.invalDone_parts (b := s.block) (role := role) hne
    refine State.answers_next hexec ⟨v, congrArg EdtSt.inval hedt, ?_, ?_, fun h2 => ?_, ?_,
      (Block.mgAnswer_rd ..).trans (Block.invalDone_seq hne), congrArg EdtSt.fetches hedt, (congrArg EdtSt.cache hedt :), ?_,
      Block.mgAnswer_acked .., ?_, ?_, fun g hg => (Block.mgAnswer_rd ..).trans (Block.invalDone_regsBut hne g hg)⟩
    · rw [hasked, hmode]
    · rw [hasked]
    · rw [hasked, hcount, if_pos h2, Nat.mod_eq_of_lt n.isLt]
    · rw [hasked]
    · simp only [Block.mgAnswer]
      rw [hparts]
    · exact (congrArg (fun b : Block => b.mg.held) hparts).trans (Block.noted_held ..)
    · exact (congrArg (fun b : Block => b.mg.latch) hparts).trans (Block.noted_latch ..)
  · obtain ⟨hedt, hmg, hdone, hregs, hparts⟩ := Block.invalRun_spec hlt (Block.invalRun_of_free hq hw hn hl hf hs)
    refine State.answers_onBlock (f := fun b => b.invalRun.mgRetry) rfl ?_
    dsimp only
    rw [Block.mgRetry_of_none (by rw [hmg, hheld])]
    have hcached (i : Nat) : s.block.invalRun.descCached i = if v.covers i then none else s.block.descCached i :=
      (Block.descCached_congr (congrArg EdtSt.cache hedt :) i).trans (Block.descCached_descDrop ..)
    refine ⟨by rw [hedt]; rfl, hdone, fun i hi => ?_, fun i hi => ?_, by rw [hedt]; rfl, hregs, hparts⟩
    · rw [hcached, if_pos hi]
    · rw [hcached, if_neg (by rw [hi]; decide)]

/-- Settles O24: the oldest waiting fetch is marked and its read is answered, at once or by its sector of scratch; a return is one
of its three cases, by the error of its entry and the CRC. -/
theorem descriptorFetches : Obligations.DescriptorFetches := by
  intro s
  refine ⟨fun f hn hf hb hp hd => State.answers_onBlock (f := Block.fetchStart) rfl ?_,
    fun f hn hf hb hin hi hfence hs => State.answers_onBlock (f := Block.fetchStart) rfl ?_,
    fun n rest f others hw hn hf hs hv => ⟨fun hb hc hm => State.answers_onBlock (f := Block.fetchReturn) rfl ?_,
      fun hb _ => State.answers_onBlock (f := Block.fetchReturn) rfl ?_,
      fun hb hc hi => State.answers_onBlock (f := Block.fetchReturn) rfl ?_⟩⟩
  · rw [Block.fetchStart_of_waiting hn hf hb, Block.edtRead_of_down (b := s.block.fetchMarked) hp hd]
    exact ⟨rfl, ⟨_, rfl, rfl, rfl, rfl⟩, rfl⟩
  · rw [Block.fetchStart_of_waiting hn hf hb, Block.edtRead_of_scratch (b := s.block.fetchMarked) hin hfence hi hs
      (by decide) (by decide) (by decide)]
    exact ⟨rfl, _, rfl, rfl, rfl, rfl, rfl⟩
  · rw [Block.fetchReturn_of_sound hw hn hf hb hs hc hm]
    split
    · exact ⟨rfl, rfl, rfl, rfl⟩
    · exact ⟨Block.descCached_descPut_self .., rfl, rfl, rfl⟩
  · rw [Block.fetchReturn_of_bad hw hn hf hb, Block.queueUe, Block.eventPlain_eq]
    have hvalid := (Block.eventAt_rec (s.block.fetchTaken rest others) ⟨56, 0, 1, 0, .none, none⟩
      (s.block.fetchTaken rest others).now).1
    refine ⟨?_, ?_, hvalid⟩
    · rw [Block.eventAt_parts]
      rfl
    · rw [Block.eventAt_parts]
      rfl
  · rw [Block.fetchReturn_of_crc hw hn hf hb hs hv hc]
    refine ⟨?_, ?_, ?_, ?_⟩
    · rw [Block.rd_intr _ _ _ _ (by decide), Block.rd_wr_of_ne _ _ _ _ (by decide), Block.rd_wr_self]
      rfl
    · rw [Block.rd_intr _ _ _ _ (by decide), Block.rd_wr_self]
      exact Nat.mod_eq_of_lt hi
    · rw [Block.intr_parts]
      rfl
    · rw [Block.intr_parts]
      rfl

/-- Settles O25: a sealed descriptor differs in GEN and the CRC alone; the update of the POISON flag puts one bit; an update of a
table in scratch replaces the descriptor's sector and queues its invalidate. -/
theorem descriptorUpdatesKeepTheRest : Obligations.DescriptorUpdatesKeepTheRest := by
  refine ⟨fun d => ⟨dGen_dSeal d, dCrcOk_dSeal d, fun i => getLsbD_dSeal_of_other d⟩,
    fun i d => ⟨dPoison_poisonUpd_apply i d, fun k => getLsbD_poisonUpd_apply i d⟩, ?_⟩
  intro s u rest n others hu ha hg hl hr hn hs hv hc hm hne he hin hsl hi hline hlanes
  refine State.answers_onBlock (f := Block.updateStep) rfl ?_
  have hmoved := Block.updMoved_parts (b := s.block.updTaken others rest) u.idx n.data (u.apply n.data) hline hlanes hsl
  rw [Block.updateStep_of_returned hu ha hr he hn, Block.updateWith_of_changed (b := s.block.updTaken others rest)
    _ hs hv hc hm hg hl hne, hmoved, Block.putDesc_of_scratch (b := (s.block.updTaken others rest).updHeld _) _ hin hi hsl]
  exact ⟨Block.scratchVal_scratchPut .., rfl, rfl, rfl, u.inval, rfl, rfl, rfl, rfl⟩

end Sys2Proof
end

section
/-! SUPPORT. Response lanes (R139, R143, R155, R193): what presenting and deciding beats leaves, and the answers to a lone request. -/

namespace Sys2Proof.Machine

open Reg

/-! ## Frames around the ports -/

/-- The key of a register of the ports (0x10000 to 0x1FFFF). -/
def PortKey (k : Nat) : Prop := 0x10000 * 32 ≤ k ∧ k < 0x20000 * 32

theorem PortKey.ne_pend {k : Nat} (h : PortKey k) : k ≠ GLB_INT_PEND_PEND.key := by
  have : GLB_INT_PEND_PEND.key = 0x40 * 32 := rfl
  have := h.1
  omega

/-- `t` is `b` but for what the responses of the ports may change: the ports themselves, what the performance counters and the
regulator count, drawn values, and registers that are not the ports'. -/
def Block.portsOnly (b t : Block) : Prop :=
  t = { b with regs := t.regs, ctr := t.ctr, fresh := t.fresh, regu := t.regu, ports := t.ports }
  ∧ ∀ g : Fld, PortKey g.key → t.rd g = b.rd g

theorem Block.portsOnly_refl (b : Block) : b.portsOnly b := ⟨rfl, fun _ _ => rfl⟩

theorem Block.portsOnly.trans {b t u : Block} (h : b.portsOnly t) (h' : t.portsOnly u) : b.portsOnly u :=
  ⟨h'.1.trans (by rw [h.1]), fun g hg => (h'.2 g hg).trans (h.2 g hg)⟩

theorem Block.portsOnly_updPort (b : Block) (p : Nat) (f : PortSt → PortSt) : b.portsOnly (b.updPort p f) :=
  ⟨rfl, fun _ _ => rfl⟩

/-- The same frame, with the ports as they were: what counting an event leaves. -/
def Block.tallied (b t : Block) : Prop := b.portsOnly t ∧ t.ports = b.ports

theorem Block.tallied.trans {b t u : Block} (h : b.tallied t) (h' : t.tallied u) : b.tallied u :=
  ⟨h.1.trans h'.1, h'.2.trans h.2⟩

theorem Block.tallied_count (b : Block) (u : Nat × Nat) (code n : Nat) (c : Carry) : b.tallied (b.count u code n c) := by
  obtain ⟨hparts, hrd⟩ := Block.countedTo_count b u code n c
  refine ⟨⟨?_, fun g hg => hrd g (by have := hg.2; omega) hg.ne_pend⟩, ?_⟩
  · rw [hparts]
  · rw [hparts]

theorem Block.tallied_bump (b : Block) {f : Fld} (hf : 0x20000 * 32 ≤ f.key) : b.tallied (b.bump f) :=
  ⟨⟨rfl, fun g hg => Block.rd_bump_of_ne _ _ _ (by have := hg.2; omega)⟩, rfl⟩

theorem Block.tallied_regu (b : Block) (r : ReguSt) : b.tallied { b with regu := r } := ⟨⟨rfl, fun _ _ => rfl⟩, rfl⟩

@[simp] theorem Block.get_updPort_self (b : Block) (p : Nat) (f : PortSt → PortSt) :
    (b.updPort p f).ports.get p = f (b.ports.get p) := Tab.get_set_self ..

/-! ## The head of the response lane -/

/-- A beat apart from LATE, which is fixed when it comes to the head of the lane (R143). -/
def Beat.undated (t : Beat) : Beat := { t with late := none }

/-- Port `p` holds the same requests in `t` as in `b`, and the same beats but for LATE; and the frame holds. -/
def Block.presentedTo (p : Nat) (b t : Block) : Prop :=
  b.portsOnly t ∧ (t.ports.get p).out = (b.ports.get p).out
  ∧ (t.ports.get p).rsp.map Beat.undated = (b.ports.get p).rsp.map Beat.undated

theorem Block.presentedTo.tally {p : Nat} {b t u : Block} (h : b.presentedTo p t) (h' : t.tallied u) : b.presentedTo p u := by
  obtain ⟨hframe, hout, hrsp⟩ := h
  exact ⟨hframe.trans h'.1, by rw [h'.2, hout], by rw [h'.2, hrsp]⟩

/-- The lane with its head presented: LATE is fixed, and a late request is noted when the beat is its first late one. -/
def PortSt.dated (q : PortSt) (h : Beat) (rest : List Beat) (late first : Bool) : PortSt :=
  { q with rsp := { h with late := some late } :: rest, lateIds := if first then h.id :: q.lateIds else q.lateIds }

/-- Presenting the head fixes its LATE and may count a deadline miss, and nothing else (R143, R193). -/
theorem Block.presentedTo_presentHead (b : Block) (p : Nat) : b.presentedTo p (b.presentHead p) := by
  unfold Block.presentHead
  split
  · exact ⟨b.portsOnly_refl, rfl, rfl⟩
  next h rest hrsp =>
  split
  · exact ⟨b.portsOnly_refl, rfl, rfl⟩
  dsimp only
  generalize b.lateNow (tagDeadline h.tag) = late
  generalize (late && !(b.ports.get p).lateIds.contains h.id) = first
  have hdated : b.presentedTo p (b.updPort p (fun q => q.dated h rest late first)) := by
    refine ⟨b.portsOnly_updPort .., ?_, ?_⟩
    · rw [Block.get_updPort_self]; rfl
    · rw [Block.get_updPort_self, hrsp]; rfl
  cases first with
  | false => exact hdated
  | true =>
    have hmiss (c : Carry) := (Block.tallied_bump (b.updPort p (fun q => q.dated h rest late true)) (f := REGU_DLMISS_CNT_CNT) (by decide)).trans
      (Block.tallied_count _ ctrRegu 5 1 c)
    rw [if_pos rfl]
    split
    · exact hdated.tally (hmiss _)
    · next e _ =>
      refine hdated.tally (((hmiss _).trans (Block.tallied_bump _ (f := REGU_GT_CNT_DL_MISS e) ?_)).trans
        (Block.tallied_regu _ _))
      simp only [REGU_GT_CNT_DL_MISS, Fld.key]
      omega

/-! ## Answers to a lone request -/

/-- The port shows what can be presented of its requests (R139, R144). -/
theorem Block.flushPort_spec (b : Block) (p : Nat) :
    b.portsOnly (b.flushPort p) ∧ ((b.flushPort p).ports.get p).out = (flushOut [] (b.ports.get p).out).1
    ∧ ((b.flushPort p).ports.get p).rsp.map Beat.undated
      = ((b.ports.get p).rsp ++ (flushOut [] (b.ports.get p).out).2).map Beat.undated := by
  obtain ⟨hframe, hout, hrsp⟩ := Block.presentedTo_presentHead (b.updPort p (fun q => { q with
    out := (flushOut [] (b.ports.get p).out).1, rsp := q.rsp ++ (flushOut [] (b.ports.get p).out).2 })) p
  rw [Block.get_updPort_self] at hout hrsp
  exact ⟨(b.portsOnly_updPort _ _).trans hframe, hout, hrsp⟩

/-- One sector of a lone request has been decided, none of the later ones. -/
theorem flushOut_lone {o : Outst} {s : Nat} {rest : List Nat} {bt : Beat} (ht : o.todo = s :: rest)
    (hs : o.ready.get s = some bt) (hr : ∀ x ∈ rest, o.ready.get x = none) :
    flushOut [] [o] = (if rest = [] then [] else [{ o with todo := rest }], [bt]) := by
  have hrest : readyBeats o rest = ([], rest) := by
    cases rest with
    | nil => rfl
    | cons x xs => simp only [readyBeats, hr x List.mem_cons_self]
  have hready : readyBeats o (s :: rest) = ([bt], rest) := by
    rw [readyBeats, hs]
    dsimp only
    rw [hrest]
  cases rest <;> simp [flushOut, ht, hready]

/-- Deciding one sector leaves the others undecided. -/
theorem undecided_set {t : Tab (Option Beat)} {s : Nat} {rest : List Nat} (hs : s ∉ rest)
    (hr : ∀ x ∈ rest, t.get x = none) (bt : Option Beat) : ∀ x ∈ rest, (t.set s bt).get x = none := fun x hx => by
  rw [Tab.get_set_of_ne _ _ (ne_of_mem_of_not_mem hx hs), hr x hx]

/-- The beat that answers sector `sec` of a port's request with a status and no data, where `todo` are the sectors still owed. -/
def Req.refusal (r : Req) (st : Nat) (todo : List Nat) (sec : Nat) : Beat :=
  { id := r.id, tag := r.tag, write := r.op = .wr64 || r.op = .wrp, last := decide (todo.getLast? = some sec), sector := sec
    status := st, dpa := r.dpa, tc := r.tc, data := 0, late := none }

/-- The beats that answer the sectors owed. -/
def Req.refusals (r : Req) (st : Nat) : List Nat → List Beat
  | [] => []
  | s :: rest => r.refusal st (s :: rest) s :: r.refusals st rest

theorem Req.refusals_length (r : Req) (st : Nat) (todo : List Nat) : (r.refusals st todo).length = todo.length := by
  induction todo with
  | nil => rfl
  | cons s rest ih => simp [Req.refusals, ih]

theorem Req.exists_of_mem_refusals {r : Req} {st : Nat} {todo : List Nat} {t : Beat} (h : t ∈ r.refusals st todo) :
    ∃ owed sec, t = r.refusal st owed sec := by
  induction todo with
  | nil => cases h
  | cons s rest ih =>
    rcases List.mem_cons.mp h with rfl | h
    · exact ⟨_, _, rfl⟩
    · exact ih h

/-- The data of a write stand in none of these beats. -/
theorem Req.refusals_wdata (r : Req) (w : List WData) (st : Nat) (todo : List Nat) :
    ({ r with wdata := w } : Req).refusals st todo = r.refusals st todo := by
  induction todo with
  | nil => rfl
  | cons s rest ih => exact congrArg _ ih

/-- An outstanding request with one sector decided. -/
def Outst.decided (o : Outst) (r : Req) (st s : Nat) : Outst := { o with ready := o.ready.set s (some (r.refusal st o.todo s)) }

/-- A port whose only request is `o`; a write that has been answered no longer waits for its beat (R142). -/
def PortSt.answered (q : PortSt) (r : Req) (o : Outst) : PortSt :=
  { q with out := [o], needData := q.needData.map (fun e => if e.1 = r.id then (e.1, some (r.tag, r.dpa)) else e) }

section
variable {b : Block} {r : Req} {o : Outst} {st : Nat}

theorem Block.respond_eq_flushPort {sec s : Nat} (hp : r.src < 6) (hop : r.op ≠ .prefetch)
    (hsec : (if r.op = .wr64 || r.op = .wrp then 0 else sec) = s) (hout : (b.ports.get r.src).out = [o]) (hid : o.id = r.id) :
    b.respond r sec st 0 = (b.updPort r.src (fun q => q.answered r (o.decided r st s))).flushPort r.src := by
  simp only [Block.respond, if_pos hp, if_neg hop, hsec, ite_self]
  congr 1
  simp only [Block.updPort, Tab.upd, hout, updFirst]
  rw [if_pos (beq_iff_eq.mpr hid)]
  rfl

/-- The first sector that a lone request owes is answered without data. -/
theorem Block.respond_lone {sec s : Nat} {rest : List Nat} (hp : r.src < 6) (hop : r.op ≠ .prefetch)
    (hsec : (if r.op = .wr64 || r.op = .wrp then 0 else sec) = s) (hout : (b.ports.get r.src).out = [o]) (hid : o.id = r.id)
    (ht : o.todo = s :: rest) (hs : s ∉ rest) (hr : ∀ x ∈ rest, o.ready.get x = none) :
    b.portsOnly (b.respond r sec st 0)
    ∧ ((b.respond r sec st 0).ports.get r.src).out = (if rest = [] then [] else [{ o.decided r st s with todo := rest }])
    ∧ ((b.respond r sec st 0).ports.get r.src).rsp.map Beat.undated
      = (b.ports.get r.src).rsp.map Beat.undated ++ [r.refusal st o.todo s] := by
  obtain ⟨hframe, hout', hrsp⟩ := Block.flushPort_spec (b.updPort r.src (fun q => q.answered r (o.decided r st s))) r.src
  have hflush := flushOut_lone (o := o.decided r st s) ht (Tab.get_set_self o.ready s (some (r.refusal st o.todo s)))
    (undecided_set hs hr (some (r.refusal st o.todo s)))
  rw [Block.get_updPort_self] at hout' hrsp
  rw [Block.respond_eq_flushPort hp hop hsec hout hid]
  refine ⟨(b.portsOnly_updPort _ _).trans hframe, hout'.trans (congrArg Prod.fst hflush), hrsp.trans ?_⟩
  rw [PortSt.answered, hflush, List.map_append]
  rfl

/-- Every sector that a lone read owes is answered without data, in the order in which they are owed. -/
theorem Block.respondEach_lone {s : Nat} {rest : List Nat} (hp : r.src < 6) (hop : r.op = .rd64 ∨ r.op = .rd256)
    (hout : (b.ports.get r.src).out = [o]) (hid : o.id = r.id) (ht : o.todo = s :: rest) (hd : (s :: rest).Nodup)
    (hr : ∀ x ∈ rest, o.ready.get x = none) :
    let t := forEach (s :: rest) b (fun b s => b.respond r s st 0)
    b.portsOnly t ∧ (t.ports.get r.src).out = []
    ∧ (t.ports.get r.src).rsp.map Beat.undated = (b.ports.get r.src).rsp.map Beat.undated ++ r.refusals st o.todo := by
  have hread (x : Nat) : (if r.op = .wr64 || r.op = .wrp then 0 else x) = x := by rcases hop with h | h <;> simp [h]
  have hne : r.op ≠ .prefetch := by rcases hop with h | h <;> simp [h]
  induction rest generalizing b o s with
  | nil =>
    have h := Block.respond_lone (st := st) hp hne (hread s) hout hid ht List.not_mem_nil hr
    rw [ht] at h ⊢
    exact h
  | cons s' rest ih =>
    obtain ⟨hs, hd'⟩ := List.nodup_cons.mp hd
    obtain ⟨hframe, hout', hrsp⟩ := Block.respond_lone (st := st) hp hne (hread s) hout hid ht hs hr
    rw [if_neg (List.cons_ne_nil _ _)] at hout'
    obtain ⟨hframe', hout'', hrsp'⟩ := ih (o := { o.decided r st s with todo := s' :: rest }) hout' hid rfl hd'
      (fun x hx => undecided_set hs hr (some (r.refusal st o.todo s)) x (List.mem_cons_of_mem _ hx))
    refine ⟨hframe.trans hframe', hout'', hrsp'.trans ?_⟩
    rw [hrsp, List.append_assoc, ht]
    rfl

/-- The entry of an accepted request among the outstanding ones of its port. -/
def Req.outst (r : Req) : Outst :=
  { id := r.id, tag := r.tag, op := r.op, dpa := r.dpa, todo := if r.op.isWrite then [0] else opSectors r.op r.dpa, ready := [] }

/-- The sectors of a read are distinct, and there is at least one. -/
theorem opSectors_of_read {op : ReqOp} (h : op = .rd64 ∨ op = .rd256) (dpa : Nat) :
    ∃ s rest, opSectors op dpa = s :: rest ∧ (s :: rest).Nodup := by
  rcases h with rfl | rfl
  · exact ⟨_, [], rfl, List.nodup_singleton _⟩
  · refine ⟨(dpa / 64 + 0) % 4, [(dpa / 64 + 1) % 4, (dpa / 64 + 2) % 4, (dpa / 64 + 3) % 4], rfl, ?_⟩
    simp only [List.nodup_cons, List.mem_cons, List.not_mem_nil, or_false, not_or, List.nodup_nil, and_true, not_false_eq_true]
    omega

/-- A lone request of a port is answered without data in every response beat. -/
theorem Block.respondAll_lone (hp : r.src < 6) (hop : r.op ∈ [ReqOp.rd64, .rd256, .wr64, .wrp])
    (hout : (b.ports.get r.src).out = [r.outst]) :
    b.portsOnly (b.respondAll r st) ∧ ((b.respondAll r st).ports.get r.src).out = []
    ∧ ((b.respondAll r st).ports.get r.src).rsp.map Beat.undated
      = (b.ports.get r.src).rsp.map Beat.undated ++ r.refusals st r.outst.todo := by
  have hcases : (r.op = .rd64 ∨ r.op = .rd256) ∨ (r.op = .wr64 ∨ r.op = .wrp) := by
    simpa [or_assoc] using hop
  rcases hcases with hread | hwrite
  · obtain ⟨s, rest, hsec, hd⟩ := opSectors_of_read hread r.dpa
    have htodo : r.outst.todo = s :: rest := by
      rw [← hsec]
      rcases hread with h | h <;> simp [Req.outst, h, ReqOp.isWrite]
    have h := Block.respondEach_lone (st := st) hp hread hout rfl htodo hd (fun _ _ => rfl)
    rwa [← hsec] at h
  · have htodo : r.outst.todo = [0] := by rcases hwrite with h | h <;> simp [Req.outst, h, ReqOp.isWrite]
    have hsec : (if r.op = .wr64 || r.op = .wrp then 0 else r.dpa / 64 % 4) = 0 := by rcases hwrite with h | h <;> simp [h]
    have hall : b.respondAll r st = b.respond r (r.dpa / 64 % 4) st 0 := by
      rcases hwrite with h | h <;> simp only [Block.respondAll, h, opSectors] <;> rfl
    have h := Block.respond_lone (st := st) hp (by rcases hwrite with h | h <;> simp [h]) hsec hout rfl htodo
      List.not_mem_nil (by simp)
    rw [hall]
    rw [htodo] at h ⊢
    exact h

end

end Sys2Proof.Machine
end

section
/-! SUPPORT. Headers at a port (R132, R136, R137, R155): what the arrival of a header leaves, and the headers that are refused. -/

namespace Sys2Proof.Machine

open Reg

/-! ## Arrival -/

/-- The request of a header that arrives. -/
def Block.headReq (b : Block) (p : Nat) (h : Header) (op : ReqOp) : Req :=
  { (default : Req) with id := b.nextId, src := p, op := op, tag := h.tag, dpa := h.dpa.toNat / 64 * 64, tc := 8 }

/-- The header has taken its number and is counted; reserved tag bits are flagged (R136). -/
def Block.arrived (b : Block) (p : Nat) (h : Header) (op : ReqOp) : Block :=
  let t := b.newId.2.count (ctrPort p) 1 1 { (b.headReq p h op).carry with tc := b.newId.2.classNow (h.dpa.toNat / 64 * 64) }
  if tagRsvd p op h.tag then t.portFlag p 3 else t

section
variable (b : Block) (p : Nat)

theorem Block.portFlag_parts (pos : Nat) : b.portFlag p pos = { b with regs := (b.portFlag p pos).regs } := by
  unfold Block.portFlag
  dsimp only
  rw [Block.intr_parts]
  rfl

theorem Block.portFlag_tagRsvd_rd (g : Fld) (hg : g.key ≠ (PRT_STATUS_TAG_RSVD p).key) (hp : g.key ≠ GLB_INT_PEND_PEND.key) :
    (b.portFlag p 3).rd g = b.rd g :=
  (Block.rd_intr _ _ _ _ hp).trans (Block.rd_wr_of_ne _ _ _ _ hg)

theorem Block.portFlag_badOpcode_rd (g : Fld) (hg : g.key ≠ (PRT_STATUS_BAD_OPCODE p).key)
    (hp : g.key ≠ GLB_INT_PEND_PEND.key) : (b.portFlag p 2).rd g = b.rd g :=
  (Block.rd_intr _ _ _ _ hp).trans (Block.rd_wr_of_ne _ _ _ _ hg)

theorem Block.portFlag_badOpcode_self (hp : p < 6) : (b.portFlag p 2).rd (PRT_STATUS_BAD_OPCODE p) = 1 :=
  (Block.rd_intr _ _ _ _ (by simp only [PRT_STATUS_BAD_OPCODE, GLB_INT_PEND_PEND, Fld.key]; omega)).trans (Block.rd_wr_self _ _ _)

variable (h : Header) (op : ReqOp)

theorem Block.arrived_parts : b.arrived p h op = { b with
    regs := (b.arrived p h op).regs, nextId := b.nextId + 1, ctr := (b.arrived p h op).ctr, fresh := (b.arrived p h op).fresh } := by
  unfold Block.arrived
  dsimp only
  split
  · rw [Block.portFlag_parts, (Block.countedTo_count ..).1]
    rfl
  · rw [(Block.countedTo_count ..).1]
    rfl

/-- Outside the performance counters the arrival changes the flag of reserved tag bits and the pending interrupts. -/
theorem Block.arrived_rd (g : Fld) (hlt : g.key < 0x280000 * 32) (hp : g.key ≠ GLB_INT_PEND_PEND.key)
    (ht : g.key ≠ (PRT_STATUS_TAG_RSVD p).key) : (b.arrived p h op).rd g = b.rd g := by
  have hcount (c : Carry) := (Block.countedTo_count b.newId.2 (ctrPort p) 1 1 c).2 g hlt hp
  unfold Block.arrived
  dsimp only
  split
  · exact (Block.portFlag_tagRsvd_rd _ _ _ ht hp).trans (hcount _)
  · exact hcount _

/-! ## Entry among the outstanding requests -/

/-- A request enters the outstanding ones of its port, where a response is owed for all but a prefetch; a write takes a data beat that
came before it. -/
theorem Block.enter_spec (b : Block) (p : Nat) (r : Req) :
    (b.enter p r).1 = { b with ports := (b.enter p r).1.ports } ∧ (b.enter p r).2 = { r with wdata := (b.enter p r).2.wdata }
    ∧ ((b.enter p r).1.ports.get p).out = (b.ports.get p).out ++ (if r.op = .prefetch then [] else [r.outst])
    ∧ ((b.enter p r).1.ports.get p).rsp = (b.ports.get p).rsp := by
  by_cases hop : r.op = .prefetch
  · rw [Block.enter, if_pos hop, if_pos hop, List.append_nil]
    exact ⟨rfl, rfl, rfl, rfl⟩
  unfold Block.enter
  rw [if_neg hop, if_neg hop]
  dsimp only
  split
  · rw [Block.get_updPort_self]
    exact ⟨rfl, rfl, rfl, rfl⟩
  split
  all_goals
    rw [Block.get_updPort_self, Block.get_updPort_self]
    exact ⟨rfl, rfl, rfl, rfl⟩

/-! ## Counts of events that name no master -/

theorem isCtrKey_ovf {n : Nat} (hn : n < 552) : isCtrKey (CTR_OVF_OVF (n / 32)).key = true := by
  simp only [isCtrKey, CTR_OVF_OVF, Fld.key, Bool.and_eq_true]
  exact ⟨decide_eq_true (by omega), decide_eq_true (by omega)⟩

/-- A counter that counts such an event captures no sample: of the registers only its overflow bit may change (R447, R460). -/
theorem Block.ctrAdd_rd_of_no_master {b : Block} {n amount : Nat} {c : Carry} (hc : c.master = none) (hn : n < 552) (g : Fld)
    (hg : isCtrKey g.key = false) (hp : g.key ≠ GLB_INT_PEND_PEND.key) : (b.ctrAdd n amount c).rd g = b.rd g := by
  have hovf (t : Block) : (t.ctrOverflow n).rd g = t.rd g := by
    refine (Block.rd_intr _ _ _ _ hp).trans (Block.rd_setBitOf_of_ne _ _ _ _ (fun he => ?_))
    rw [he, isCtrKey_ovf hn] at hg
    cases hg
  unfold Block.ctrAdd
  extract_lets v wrapped exceeds _ b₁ chain _ b₂ b₃ samples
  have h₂ : b₂.rd g = b.rd g := by unfold b₂; split <;> rfl
  have h₃ : b₃.rd g = b.rd g := by
    unfold b₃
    split
    · exact (hovf b₂).trans h₂
    · exact h₂
  have hs : samples = false := by simp [samples, hc]
  rw [hs]
  split
  · rw [Bool.and_false, if_neg Bool.false_ne_true, h₃]
  · rw [if_neg Bool.false_ne_true, h₃]

theorem Block.regsButCounted_count {b : Block} {u : Nat × Nat} {code amount : Nat} {c : Carry} (hc : c.master = none)
    (hu : u.1 + u.2 ≤ 552) : b.regsButCounted (b.count u code amount c) [] := by
  intro g _ hg hp
  refine forEach_inv (fun t : Block => t.rd g = b.rd g) _ _ _ (fun t k hk ht => ?_) rfl
  have hlt := List.mem_range.mp hk
  dsimp only
  split
  · exact ht
  split
  · exact (Block.ctrAdd_rd_of_no_master hc (by omega) g hg hp).trans ht
  · exact ht

/-! ## What a header does -/

variable {b p h op}

theorem Block.header_of_not_ready (hr : b.hdrReady p op = false) : b.header p h op = b.count (ctrPort p) 8 1 default := by
  simp [Block.header, hr]

theorem Block.header_of_ready (hr : b.hdrReady p op = true) (hp : headerParityOk h op.opcode = true) : b.header p h op =
    if op = .prefetch ∧ 32 ≤ (b.arrived p h op).prefetches p then b.arrived p h op
    else
      let e := (b.arrived p h op).enter p (b.headReq p h op)
      if (tagMaster h.tag &&& e.1.rd (PRT_MID_MASK p)) != e.1.rd (PRT_MID_BASE p) then
        (e.1.bump (PRT_DENY_CNT_CNT p)).respondAll e.2 stDenied
      else match reservedOff (h.dpa.toNat / 64 * 64) with
        | some off => e.1.reservedAccess e.2 off
        | none => e.1.lookup e.2 := by
  unfold Block.header
  rw [hr, hp]
  rfl

/-- The request of the header in hand, entered in its port (R132). -/
def Block.entered (b : Block) (p : Nat) (h : Header) (op : ReqOp) : Block × Req :=
  (b.arrived p h op).enter p (b.headReq p h op)

theorem Block.entered_parts (b : Block) (p : Nat) (h : Header) (op : ReqOp) : (b.entered p h op).1 = { b with
    regs := (b.entered p h op).1.regs, nextId := b.nextId + 1, ctr := (b.entered p h op).1.ctr
    fresh := (b.entered p h op).1.fresh, ports := (b.entered p h op).1.ports } := by
  rw [Block.entered, (Block.enter_spec ..).1, Block.arrived_parts]

/-- Outside the performance counters the arrival and the entry change the flag of reserved tag bits and the pending interrupts. -/
theorem Block.entered_rd (g : Fld) (hlt : g.key < 0x280000 * 32) (hp : g.key ≠ GLB_INT_PEND_PEND.key)
    (ht : g.key ≠ (PRT_STATUS_TAG_RSVD p).key) : (b.entered p h op).1.rd g = b.rd g := by
  rw [Block.entered, (Block.enter_spec ..).1, Block.rd_mk]
  exact Block.arrived_rd b p h op g hlt hp ht

/-- A header that the master filter rejects is counted and answered DENIED (R137). -/
theorem Block.header_of_rejected (hr : b.hdrReady p op = true) (hp : headerParityOk h op.opcode = true) (hop : op ≠ .prefetch)
    (hlt : p < 6) (hm : (tagMaster h.tag &&& b.rd (PRT_MID_MASK p)) ≠ b.rd (PRT_MID_BASE p)) : b.header p h op =
      ((b.entered p h op).1.bump (PRT_DENY_CNT_CNT p)).respondAll (b.entered p h op).2 stDenied := by
  have hmask : (b.entered p h op).1.rd (PRT_MID_MASK p) = b.rd (PRT_MID_MASK p) := Block.entered_rd _
    (by simp only [PRT_MID_MASK, Fld.key]; omega) (by simp only [PRT_MID_MASK, GLB_INT_PEND_PEND, Fld.key]; omega)
    (by simp only [PRT_MID_MASK, PRT_STATUS_TAG_RSVD, Fld.key]; omega)
  have hbase : (b.entered p h op).1.rd (PRT_MID_BASE p) = b.rd (PRT_MID_BASE p) := Block.entered_rd _
    (by simp only [PRT_MID_BASE, Fld.key]; omega) (by simp only [PRT_MID_BASE, GLB_INT_PEND_PEND, Fld.key]; omega)
    (by simp only [PRT_MID_BASE, PRT_STATUS_TAG_RSVD, Fld.key]; omega)
  rw [Block.header_of_ready hr hp, if_neg (fun hq => hop hq.1)]
  dsimp only
  rw [← Block.entered, hmask, hbase, if_pos (bne_iff_ne.mpr hm)]

/-- An event of a severity below 3, which FLT_SEV gives it, sets no fence (R506, R515). -/
theorem Block.event_of_mild {b : Block} {e : Event} (hs : e.sev = none) (hk : (FLT_SEV_SEV e.code).key ∉ eventKeys)
    (hn : b.rd (FLT_SEV_SEV e.code) ≠ 3) : b.event e = b.eventAt e b.now := by
  have hsev : (b.event0 e).sevOf e = b.rd (FLT_SEV_SEV e.code) := by
    rw [Block.sevOf, hs]
    exact Block.eventAt_rd _ _ _ _ hk
  rw [Block.event, Block.sevFence, if_neg (by rw [hsev]; exact hn), Block.event0]

/-- The flag and the event of a reserved opcode, in a block where that event sets no fence. -/
def Block.opcodeFlagged (b : Block) (p : Nat) : Block := (b.portFlag p 2).eventAt (portEvent 18 p) (b.portFlag p 2).now

theorem Block.opcodeFlagged_parts (b : Block) (p : Nat) :
    b.opcodeFlagged p = { b with regs := (b.opcodeFlagged p).regs, flt := (b.opcodeFlagged p).flt } := by
  rw [Block.opcodeFlagged, Block.eventAt_parts, Block.portFlag_parts]

theorem Block.opcodeFlagged_rd (b : Block) {p : Nat} (hp : p < 6) : (b.opcodeFlagged p).rd (PRT_STATUS_BAD_OPCODE p) = 1 := by
  refine (Block.eventAt_rd _ _ _ _ (fun hm => ?_)).trans (Block.portFlag_badOpcode_self b p hp)
  simp only [eventKeys, List.mem_cons, List.not_mem_nil, or_false, PRT_STATUS_BAD_OPCODE, GLB_INT_PEND_PEND,
    FLT_STATUS_SEV_SEEN, FLT_STATUS_MSG_LOST, FLT_MSG_LOST_CNT_CNT, Fld.key] at hm
  omega

/-- A header with a reserved opcode is flagged, raises its event and is answered DECODE (R132). -/
theorem Block.badOpcode_of_ready {opcode : Nat} (hr : b.hdrReady p .rd64 = true) (hp : headerParityOk h opcode = true)
    (hlt : p < 6) (hsev : b.rd (FLT_SEV_SEV 18) ≠ 3) :
    b.badOpcode p h opcode = ((b.entered p h .rd64).1.opcodeFlagged p).respondAll (b.entered p h .rd64).2 stDecode := by
  have hrd : ((b.entered p h .rd64).1.portFlag p 2).rd (FLT_SEV_SEV 18) = b.rd (FLT_SEV_SEV 18) :=
    (Block.portFlag_badOpcode_rd _ _ _ (by simp only [FLT_SEV_SEV, PRT_STATUS_BAD_OPCODE, Fld.key]; omega) (by decide)).trans
      (Block.entered_rd _ (by decide) (by decide) (by simp only [FLT_SEV_SEV, PRT_STATUS_TAG_RSVD, Fld.key]; omega))
  have hmild : ((b.entered p h .rd64).1.portFlag p 2).event (portEvent 18 p) = (b.entered p h .rd64).1.opcodeFlagged p :=
    Block.event_of_mild (e := portEvent 18 p) rfl (show (FLT_SEV_SEV 18).key ∉ eventKeys by decide) (by rw [portEvent, hrd]; exact hsev)
  unfold Block.badOpcode
  rw [hr, hp, ← hmild]
  rfl

/-- The answer to the only request of a port: every response beat has the status and no data, and nothing stays outstanding. -/
theorem Block.entered_answered {t : Block} {st : Nat} (hlt : p < 6) (hop : op ∈ [ReqOp.rd64, .rd256, .wr64, .wrp])
    (hout : (b.ports.get p).out = []) (hrsp : (b.ports.get p).rsp = []) (ht : t.ports = (b.entered p h op).1.ports) :
    t.portsOnly (t.respondAll (b.entered p h op).2 st)
    ∧ ((t.respondAll (b.entered p h op).2 st).ports.get p).out = []
    ∧ ((t.respondAll (b.entered p h op).2 st).ports.get p).rsp.map Beat.undated
      = (b.headReq p h op).refusals st (b.headReq p h op).outst.todo := by
  have hne : op ≠ .prefetch := by rintro rfl; simp at hop
  obtain ⟨-, hreq, hout', hrsp'⟩ := Block.enter_spec (b.arrived p h op) p (b.headReq p h op)
  have hports : (b.arrived p h op).ports = b.ports := by rw [Block.arrived_parts]
  rw [hports, hout, List.nil_append, if_neg (show (b.headReq p h op).op ≠ .prefetch from hne)] at hout'
  rw [hports, hrsp] at hrsp'
  rw [← Block.entered] at hreq hout' hrsp'
  generalize (b.entered p h op).2.wdata = w at hreq
  rw [hreq]
  obtain ⟨hframe, hgone, hbeats⟩ := Block.respondAll_lone (b := t) (r := { b.headReq p h op with wdata := w }) (st := st) hlt hop
    (by rw [ht]; exact hout')
  have hlane : (t.ports.get p).rsp.map Beat.undated = [] := by rw [ht, hrsp', List.map_nil]
  exact ⟨hframe, hgone, hbeats.trans ((congrArg (· ++ _) hlane).trans (Req.refusals_wdata ..))⟩

end

/-! ## The commands and their answers -/

/-- The command of a header with an opcode, met by no upset of the descriptor cache. -/
theorem exec_header (s : State) (p : Fin 6) (h : Header) (e : Instr × ReqOp)
    (he : e ∈ [(Instr.rd64 p h none, ReqOp.rd64), (.rd256 p h none, .rd256), (.wr64 p h none, .wr64), (.wrp p h none, .wrp),
      (.prefetch p h none, .prefetch)]) : exec e.1 s = onBlock s (fun b => b.header p h e.2) := by
  simp only [List.mem_cons, List.not_mem_nil, or_false] at he
  rcases he with rfl | rfl | rfl | rfl | rfl <;> rfl

/-- The beats that a header of these opcodes owes (R132). -/
theorem length_todo_headReq (b : Block) (p : Nat) (h : Header) {op : ReqOp} (hop : op ∈ [ReqOp.rd64, .rd256, .wr64, .wrp]) :
    (b.headReq p h op).outst.todo.length = if op = .rd256 then 4 else 1 := by
  simp only [List.mem_cons, List.not_mem_nil, or_false] at hop
  rcases hop with rfl | rfl | rfl | rfl <;> rfl

/-- Beats that are refusals but for LATE have the status and the tag, and no data. -/
theorem refused_of_undated {l : List Beat} {r : Req} {st : Nat} {todo : List Nat}
    (hl : l.map Beat.undated = r.refusals st todo) : ∀ t ∈ l, t.status = st ∧ t.tag = r.tag ∧ t.data = 0 := by
  intro t ht
  obtain ⟨owed, sec, he⟩ := Req.exists_of_mem_refusals (hl ▸ List.mem_map_of_mem (f := Beat.undated) ht)
  exact ⟨congrArg Beat.status he, congrArg Beat.tag he, congrArg Beat.data he⟩

end Sys2Proof.Machine
end

section
/-! SUPPORT. A port stopped in the cycle of the write of ENABLE = 0, and the write of ENABLE = 1 after it (R157, R160). -/

namespace Sys2Proof.Machine

open Reg

/-- The management interface is open, and port 0 is ENABLED with nothing outstanding. -/
def enabledPort : Block :=
  { ((default : Block).wr (PRT_CTL_ENABLE 0) 1).wr (PRT_STATUS_STATE 0) ptEnabled with
    start := { (default : StartSt) with open_ := true } }

/-- PRT_CTL of port 0 with ENABLE at a value. -/
def enableWord (v : Nat) : Word := withField (0 : Word) (PRT_CTL_ENABLE 0) v

/-- What else happens in the cycle of the write: a header fails its parity. -/
def parityAux : Aux := { (default : Aux) with badHeader := true }

theorem enabledPort_grants : State.grants ⟨enabledPort, []⟩ .installer (PRT_CTL_ENABLE 0).off (enableWord 0) :=
  ⟨rfl, rfl, ⟨reg_PRT_CTL, [0], by decide +kernel⟩, by decide⟩

/-- The block after ENABLE = 0 has been written in the cycle of a header that fails its parity. -/
def stoppedPort : Block := enabledPort.written .installer reg_PRT_CTL [0] (PRT_CTL_ENABLE 0).off (enableWord 0) parityAux

theorem exec_portDisable_enabledPort : exec (.portDisable .installer 0 ⟨0, true⟩) ⟨enabledPort, []⟩ = .next ⟨stoppedPort, []⟩ :=
  writeReg_go parityAux enabledPort_grants (find_PRT_CTL 0) (by decide) (by decide) (by decide) (by decide)

/-- The port is STOPPED, as R160 has it, and ENABLE holds 0. -/
theorem stoppedPort_stopped : stoppedPort.portState 0 = ptStopped ∧ stoppedPort.rd (PRT_CTL_ENABLE 0) = 0 := by decide +kernel

theorem stoppedPort_grants : State.grants ⟨stoppedPort, []⟩ .installer (PRT_CTL_ENABLE 0).off (enableWord 1) :=
  ⟨by decide +kernel, by decide +kernel, ⟨reg_PRT_CTL, [0], by decide +kernel⟩, by decide +kernel⟩

/-- The block after ENABLE = 1 has then been written. -/
def closedPort : Block := stoppedPort.written .installer reg_PRT_CTL [0] (PRT_CTL_ENABLE 0).off (enableWord 1) default

theorem exec_portEnable_stoppedPort : exec (.portEnable .installer 0 0) ⟨stoppedPort, []⟩ = .next ⟨closedPort, []⟩ :=
  writeReg_go default stoppedPort_grants (find_PRT_CTL 0) (by decide) (by decide) (by decide) (by decide +kernel)

/-- The write leaves ENABLE at 0, and the port acts on it as on a write of 0: with nothing outstanding it is DISABLED. -/
theorem closedPort_disabled : closedPort.portState 0 = ptDisabled := by decide +kernel

end Sys2Proof.Machine
end

section
/-! SUPPORT. The statements of the chapter on ports and tags, settled. -/

namespace Sys2Proof

open Machine Machine.Reg

/-- Settles O20: the request of a refused header is the only one of its port, so all its beats leave with the answer; a count of an
event that names no master changes nothing but the performance counters. -/
theorem refusedHeadersAreAnswered : Obligations.RefusedHeadersAreAnswered := by
  intro s p h
  refine ⟨fun e he hr hp hm hout hrsp => ?_, fun n hr hp hsev hout hrsp => ?_, fun e he hr => ?_⟩
  · have hop : e.2 ∈ [ReqOp.rd64, .rd256, .wr64, .wrp] := List.mem_map_of_mem (f := Prod.snd) he
    have hne : e.2 ≠ .prefetch := by intro h; simp [h] at hop
    refine State.answers_onBlock (exec_header s p h e (List.mem_append_left [_] he)) ?_
    rw [Block.header_of_rejected hr hp hne p.isLt hm]
    obtain ⟨hframe, hgone, hbeats⟩ := Block.entered_answered (st := stDenied)
      (t := (s.block.entered p h e.2).1.bump (PRT_DENY_CNT_CNT p)) p.isLt hop hout hrsp rfl
    have hkey : PortKey (PRT_DENY_CNT_CNT p).key := by simp only [PortKey, PRT_DENY_CNT_CNT, Fld.key]; omega
    refine ⟨?_, ?_, hgone, refused_of_undated hbeats, ?_, ?_, ?_⟩
    · rw [hframe.2 _ hkey, Block.rd_bump_self, Block.entered_rd _ (by have := hkey.2; omega) hkey.ne_pend
        (by simp only [PRT_DENY_CNT_CNT, PRT_STATUS_TAG_RSVD, Fld.key]; omega)]
      rfl
    · rw [← length_todo_headReq s.block p h hop, ← Req.refusals_length _ stDenied, ← hbeats, List.length_map]
    all_goals rw [hframe.1, Block.bump, Block.addSat, Block.wr, Block.entered_parts]
  · refine State.answers_onBlock (f := fun b => b.badOpcode p h (5 + n)) rfl ?_
    rw [Block.badOpcode_of_ready hr hp p.isLt hsev]
    have hbase := Block.entered_parts s.block p h .rd64
    have hparts := Block.opcodeFlagged_parts (s.block.entered p h .rd64).1 p
    obtain ⟨hframe, hgone, hbeats⟩ := Block.entered_answered (st := stDecode) (op := .rd64)
      (t := (s.block.entered p h .rd64).1.opcodeFlagged p) p.isLt (by decide) hout hrsp (by rw [hparts])
    have hkey : PortKey (PRT_STATUS_BAD_OPCODE p).key := by simp only [PortKey, PRT_STATUS_BAD_OPCODE, Fld.key]; omega
    refine ⟨(hframe.2 _ hkey).trans (Block.opcodeFlagged_rd _ p.isLt), ?_, ?_, ?_, ?_, ?_⟩
    · rw [hframe.1]
      exact (Block.eventAt_rec ((s.block.entered p h .rd64).1.portFlag p 2) (portEvent 18 p) _).1
    · obtain ⟨t, ht, he⟩ := List.map_eq_singleton_iff.mp hbeats
      obtain ⟨hst, htag, hdata⟩ := refused_of_undated hbeats t (by rw [ht]; exact List.mem_singleton_self t)
      refine ⟨t, ht, hst, htag, (congrArg Beat.last he).trans ?_, hdata⟩
      exact decide_eq_true rfl
    all_goals rw [hframe.1, hparts, hbase]
  · refine State.answers_onBlock (exec_header s p h e he) ?_
    rw [Block.header_of_not_ready hr]
    refine ⟨(Block.countedTo_count ..).1, Block.regsButCounted_count rfl ?_⟩
    simp only [ctrPort]
    omega

/-- Refutes O22: the write of ENABLE = 0 in the cycle of a header parity error leaves `stoppedPort`, STOPPED with ENABLE at 0. The
write of ENABLE = 1 after it leaves the field, as R160 has it, but its effect reads the field, not the write: it takes the 0 that
still stands there for a write of 0, and the port goes to DISABLED where R160 ignores the write. -/
theorem not_portsOpenAndClose : ¬ Obligations.PortsOpenAndClose := by
  intro h
  obtain ⟨t, hex, -, -, hstopped, -⟩ := (h ⟨stoppedPort, []⟩ .installer 0 0).1 stoppedPort_grants
  obtain rfl : ⟨closedPort, []⟩ = t := Host.Outcome.next.inj (exec_portEnable_stoppedPort.symm.trans hex)
  exact absurd (closedPort_disabled.symm.trans (hstopped stoppedPort_stopped.1).1) (by decide)

end Sys2Proof
end

section
/-! SUPPORT. Cut-offs at a slice (R171 to R174): what the answers to requests and the events of a requester leave, and which inputs are freed. -/

namespace Sys2Proof.Machine

open Reg

/-! ## Answers (R143, R193) -/

/-- A register that no answer to a request changes: outside the performance counters, and neither a pending interrupt nor a count
of missed deadlines. -/
def UnansweredKey (k : Nat) : Prop :=
  k < 0x280000 * 32 ∧ k ≠ GLB_INT_PEND_PEND.key ∧ k ≠ REGU_DLMISS_CNT_CNT.key ∧ ∀ e, k ≠ (REGU_GT_CNT_DL_MISS e).key

/-- `t` is `b` but for what answers to requests may change: the ports, the answers to the block's own requesters, what the
performance counters and the regulator count, drawn values, and registers that count. -/
def Block.answeredTo (b t : Block) : Prop :=
  t = { b with regs := t.regs, ctr := t.ctr, fresh := t.fresh, regu := t.regu, ports := t.ports, intern := t.intern }
  ∧ ∀ g : Fld, UnansweredKey g.key → t.rd g = b.rd g

theorem Block.answeredTo_refl (b : Block) : b.answeredTo b := ⟨rfl, fun _ _ => rfl⟩

theorem Block.answeredTo.trans {b t u : Block} (h : b.answeredTo t) (h' : t.answeredTo u) : b.answeredTo u :=
  ⟨h'.1.trans (by rw [h.1]), fun g hg => (h'.2 g hg).trans (h.2 g hg)⟩

theorem Block.presentHead_rd (b : Block) (p : Nat) {g : Fld} (hg : UnansweredKey g.key) : (b.presentHead p).rd g = b.rd g := by
  obtain ⟨hlt, hpend, hmiss, hentry⟩ := hg
  have hcount (t : Block) (c : Carry) : (t.count ctrRegu 5 1 c).rd g = t.rd g := (Block.countedTo_count t ctrRegu 5 1 c).2 g hlt hpend
  unfold Block.presentHead
  split
  · rfl
  split
  · rfl
  dsimp only
  split
  · split
    · rw [hcount, Block.rd_bump_of_ne _ _ _ hmiss, Block.rd_updPort]
    · next e _ => rw [Block.rd_mk, Block.rd_bump_of_ne _ _ _ (hentry e), hcount, Block.rd_bump_of_ne _ _ _ hmiss, Block.rd_updPort]
  · exact Block.rd_updPort ..

theorem Block.portsOnly.answeredTo {b t : Block} (h : b.portsOnly t) (hr : ∀ g : Fld, UnansweredKey g.key → t.rd g = b.rd g) :
    b.answeredTo t := ⟨h.1.trans (by rw [h.1]), hr⟩

theorem Block.answeredTo_flushPort (b : Block) (p : Nat) : b.answeredTo (b.flushPort p) :=
  (b.flushPort_spec p).1.answeredTo (fun _ hg => Block.presentHead_rd _ _ hg)

/-- An answer to any request leaves all else as it is. -/
theorem Block.answeredTo_respond (b : Block) (r : Req) (sec status : Nat) (data : BitVec 512) :
    b.answeredTo (b.respond r sec status data) := by
  unfold Block.respond
  split
  · split
    · exact b.answeredTo_refl
    · exact Block.answeredTo.trans ⟨rfl, fun _ _ => rfl⟩ (Block.answeredTo_flushPort _ _)
  split
  · exact b.answeredTo_refl
  · exact ⟨rfl, fun _ _ => rfl⟩

theorem Block.answeredTo_respondAll (b : Block) (r : Req) (status : Nat) : b.answeredTo (b.respondAll r status) :=
  forEach_inv b.answeredTo _ _ _ (fun t s _ ht => ht.trans (t.answeredTo_respond r s status 0)) b.answeredTo_refl

/-! ## Events of a requester (R505, R515) -/

/-- Registers that an event of a requester may change, the fence of its port among them. -/
def requesterKeys : List Nat := FLT_FENCE_PORT_U.key :: eventKeys ++ audKeys

/-- `t` is `b` but for what an event of a requester may change: the fault tap, its port's fence, and the record of that fence. -/
def Block.alarmedTo (b t : Block) : Prop :=
  t = { b with regs := t.regs, mg := t.mg, flt := t.flt } ∧ b.regsBut t requesterKeys

theorem Block.alarmedTo.trans {b t u : Block} (h : b.alarmedTo t) (h' : t.alarmedTo u) : b.alarmedTo u :=
  ⟨h'.1.trans (by rw [h.1]), fun g hg => (h'.2 g hg).trans (h.2 g hg)⟩

theorem Block.alarmedTo_eventAt (b : Block) (e : Event) (t : Nat) : b.alarmedTo (b.eventAt e t) := by
  refine ⟨?_, fun g hg => Block.eventAt_rd _ _ _ _ (fun hm => hg ?_)⟩
  · rw [Block.eventAt_parts]
  · exact List.mem_append_left _ (List.mem_cons_of_mem _ hm)

theorem Block.alarmedTo_fenceOne_port (b : Block) (i cause role : Nat) : b.alarmedTo (b.fenceOne .port i cause role) := by
  unfold Block.fenceOne
  split
  · exact ⟨rfl, fun _ _ => rfl⟩
  dsimp only
  refine ⟨?_, fun g hg => ?_⟩
  · unfold Block.audFence
    rw [Block.audOwn_parts]
    rfl
  · simp only [requesterKeys, List.cons_append, List.mem_cons, List.mem_append, not_or] at hg
    obtain ⟨hfence, -, haud⟩ := hg
    exact (Block.audOwn_rd _ _ _ _ haud).trans (Block.rd_setBitOf_of_ne _ _ _ _ hfence)

/-- An event of a requester enters the tap, and with severity 3 it fences the requester's port. -/
theorem Block.alarmedTo_event (b : Block) {e : Event} {r : Nat} (he : e.unit_ = .requester r) : b.alarmedTo (b.event e) := by
  have htap : b.alarmedTo (b.event0 e) := b.alarmedTo_eventAt ..
  unfold Block.event Block.sevFence
  rw [he]
  split
  · dsimp only
    split
    · exact htap.trans (Block.alarmedTo_fenceOne_port ..)
    · exact htap
  · exact htap

/-! ## Cut-offs (R171 to R174) -/

/-- The input of slice `c` is free (R171). -/
def Block.inputFreed (b : Block) (c : Nat) : Block := b.updSlice c (fun q => { q with grant := none })

/-- A cut-off of a requester's transfer at slice `c` is named and counted (R172, R173). -/
def Block.cutoffNamed (b : Block) (c src : Nat) : Block :=
  let t := (b.setBitOf ARB_CUTOFF_REQ src).bump ARB_CUTOFF_CNT_CNT
  (((t.wr ARB_CUTOFF_LAST_SLICE c).wr ARB_CUTOFF_LAST_REQ src).intr 7 (t.on ARB_CTL_INT_CUTOFF)).count (ctrSlice c) 7 1
    { (default : Carry) with req := some src }

/-- The event of a cut-off (R173). -/
def cutoffEvent (c src : Nat) : Event :=
  { code := 19, kind := src, form := 1, addr := locAddr 6 src c, unit_ := .requester src, sev := none }

theorem Block.cutoff_of_grant {b : Block} {c : Nat} {r : Req} (h : (b.slices.get c).grant = some r) :
    b.cutoff c = (((b.inputFreed c).respondAll r stAborted).cutoffNamed c r.src).event (cutoffEvent c r.src) := by
  unfold Block.cutoff
  rw [h]
  rfl

theorem Block.cutoff_of_free {b : Block} {c : Nat} (h : (b.slices.get c).grant = none) : b.cutoff c = b := by
  unfold Block.cutoff
  rw [h]

/-- The registers that name and count cut-offs. -/
def cutoffKeys : List Nat := [ARB_CUTOFF_REQ.key, ARB_CUTOFF_CNT_CNT.key, ARB_CUTOFF_LAST_SLICE.key, ARB_CUTOFF_LAST_REQ.key]

theorem Block.cutoffNamed_parts (b : Block) (c src : Nat) : b.cutoffNamed c src = { b with
    regs := (b.cutoffNamed c src).regs, ctr := (b.cutoffNamed c src).ctr, fresh := (b.cutoffNamed c src).fresh } := by
  unfold Block.cutoffNamed
  dsimp only
  rw [(Block.countedTo_count ..).1, Block.intr_parts]
  rfl

theorem Block.cutoffNamed_rd (b : Block) (c src : Nat) (g : Fld) (hlt : g.key < 0x280000 * 32) (hp : g.key ≠ GLB_INT_PEND_PEND.key)
    (hg : g.key ∉ cutoffKeys) : (b.cutoffNamed c src).rd g = b.rd g := by
  simp only [cutoffKeys, List.mem_cons, List.not_mem_nil, or_false, not_or] at hg
  obtain ⟨hreq, hcnt, hslice, hlast⟩ := hg
  unfold Block.cutoffNamed
  dsimp only
  rw [(Block.countedTo_count ..).2 g hlt hp, Block.rd_intr _ _ _ _ hp, Block.rd_wr_of_ne _ _ _ _ hlast, Block.rd_wr_of_ne _ _ _ _ hslice,
    Block.rd_bump_of_ne _ _ _ hcnt, Block.rd_setBitOf_of_ne _ _ _ _ hreq]

/-- A cut-off frees the input of its slice, and changes nothing else of the slices. -/
theorem Block.cutoff_slices (b : Block) (c d : Nat) :
    (b.cutoff c).slices.get d = if d = c then { b.slices.get d with grant := none } else b.slices.get d := by
  cases h : (b.slices.get c).grant with
  | none =>
    rw [Block.cutoff_of_free h]
    split
    · next hd => rw [hd, ← h]
    · rfl
  | some r =>
    rw [Block.cutoff_of_grant h, (Block.alarmedTo_event _ (e := cutoffEvent c r.src) rfl).1, Block.cutoffNamed_parts,
      (Block.answeredTo_respondAll _ _ _).1]
    show Tab.get (Tab.set ..) d = _
    rw [Tab.get_set]
    split
    · next hd => rw [hd]
    · rfl

/-- No cut-off changes LIMIT. -/
theorem Block.cutoff_rd_limit (b : Block) (c : Nat) : (b.cutoff c).rd ARB_HOLD_LIMIT_LIMIT = b.rd ARB_HOLD_LIMIT_LIMIT := by
  cases h : (b.slices.get c).grant with
  | none => rw [Block.cutoff_of_free h]
  | some r =>
    have hkey : UnansweredKey ARB_HOLD_LIMIT_LIMIT.key :=
      ⟨by decide, by decide, by decide, fun e => by simp only [ARB_HOLD_LIMIT_LIMIT, REGU_GT_CNT_DL_MISS, Fld.key]; omega⟩
    rw [Block.cutoff_of_grant h, (Block.alarmedTo_event _ (e := cutoffEvent c r.src) rfl).2 _ (by decide),
      Block.cutoffNamed_rd _ _ _ _ (by decide) (by decide) (by decide), (Block.answeredTo_respondAll _ _ _).2 _ hkey]
    exact Block.rd_updSlice ..

/-- Of a list of slices, the cut-offs free the inputs of those that the mask names. -/
theorem Block.cutoffEach_slices (b : Block) (p : Nat → Bool) (l : List Nat) (d : Nat) :
    (forEach l b (fun b c => if p c then b.cutoff c else b)).slices.get d
      = if d ∈ l ∧ p d = true then { b.slices.get d with grant := none } else b.slices.get d := by
  induction l generalizing b with
  | nil => simp
  | cons c l ih =>
    rw [forEach_cons, ih]
    by_cases hc : p c = true
    · rw [if_pos hc, Block.cutoff_slices]
      by_cases hd : d = c
      · simp [hd, hc]
      · simp [hd]
    · have hd : d ∈ c :: l ∧ p d = true ↔ d ∈ l ∧ p d = true :=
        and_congr_left fun hp => List.mem_cons.trans (or_iff_right (fun h => hc (h ▸ hp)))
      rw [if_neg hc, if_congr hd rfl rfl]

theorem Block.cutoffMask_grant (b : Block) (mask : Nat) {c : Nat} (hc : c < 16) :
    ((b.cutoffMask mask).slices.get c).grant = if bitOf mask c then none else (b.slices.get c).grant := by
  have hm : c ∈ (List.range 16).reverse := by simp [hc]
  rw [Block.cutoffMask, Block.cutoffEach_slices]
  cases h : bitOf mask c <;> simp [hm]

theorem Block.cutoffMask_rd_limit (b : Block) (mask : Nat) :
    (b.cutoffMask mask).rd ARB_HOLD_LIMIT_LIMIT = b.rd ARB_HOLD_LIMIT_LIMIT := by
  refine forEach_keeps (fun t : Block => t.rd ARB_HOLD_LIMIT_LIMIT) _ _ _ (fun t c => ?_)
  split
  · exact t.cutoff_rd_limit c
  · rfl

/-- A mask that names no slice cuts nothing off. -/
theorem Block.cutoffMask_zero (b : Block) : b.cutoffMask 0 = b :=
  forEach_fixed _ _ _ (fun c _ => if_neg (by simp [bitOf]))

end Sys2Proof.Machine
end

section
/-! SUPPORT. The settings of the arbiter (R174, R175): writes of ARB_COMMIT and of ARB_HOLD_LIMIT. -/

namespace Sys2Proof.Machine

open Reg

/-! ## ARB_COMMIT (R175) -/

/-- The precedence fields in use, each with its shadow (R175). -/
def precFields : List (Fld × Fld) :=
  [(ARB_PREC_ACTIVE_SCRUB, ARB_PREC_SCRUB), (ARB_PREC_ACTIVE_KEEPER, ARB_PREC_KEEPER), (ARB_PREC_ACTIVE_TENDER, ARB_PREC_TENDER),
    (ARB_PREC_ACTIVE_P5, ARB_PREC_P5), (ARB_PREC_ACTIVE_P4, ARB_PREC_P4), (ARB_PREC_ACTIVE_P3_P0, ARB_PREC_P3_P0)]

/-- The registers that a precedence commit writes. -/
def precKeys : List Nat := precFields.map (fun e => e.1.key)

theorem Block.arbCommit_onlyRegs (b : Block) : b.onlyRegs b.arbCommit precKeys :=
  Block.onlyRegs_wr (Block.onlyRegs_wr (Block.onlyRegs_wr (Block.onlyRegs_wr (Block.onlyRegs_wr (Block.onlyRegs_wr
    (Block.onlyRegs_refl _ _) _ (by decide)) _ (by decide)) _ (by decide)) _ (by decide)) _ (by decide)) _ (by decide)

/-- Every level in use takes its shadow's value, cut to its width. -/
theorem Block.arbCommit_rd_active (b : Block) : ∀ e ∈ precFields, b.arbCommit.rd e.1 = b.rd e.2 % 2 ^ e.1.width := by
  simp only [precFields, List.forall_mem_cons]
  refine ⟨?_, ?_, ?_, ?_, ?_, ?_, by simp⟩
  all_goals
    simp only [Block.arbCommit]
    repeat rw [Block.rd_wr_of_ne _ _ _ _ (by decide)]
    rw [Block.rd_wr_self]
    repeat rw [Block.rd_wr_of_ne _ _ _ _ (by decide)]

/-- The word of ARB_COMMIT with GO. -/
def arbGoWord : Word := withField (0 : Word) ARB_COMMIT_GO 1

/-- A granted ARB_COMMIT as its action finds the block: recorded, and GO holds 1. -/
def Block.arbNoted (b : Block) (role : Role) : Block :=
  (b.noted role reg_ARB_COMMIT ARB_COMMIT_GO.off arbGoWord).wr ARB_COMMIT_GO 1

/-- A granted ARB_COMMIT before its answer. -/
def Block.arbGone (b : Block) (role : Role) : Block := (b.arbNoted role).arbCommit.wr ARB_COMMIT_GO 0

theorem Block.performReg_ARB_COMMIT (b : Block) (role : Role) (old : Nat) (x : Aux) :
    b.performReg role reg_ARB_COMMIT [] ARB_COMMIT_GO.off old arbGoWord x = (b.wr ARB_COMMIT_GO 1).arbCommit.wr ARB_COMMIT_GO 0 := by
  unfold Block.performReg
  rw [if_neg (by simp [Block.deafInstance, Block.idleInstance, reg_ARB_COMMIT]), if_neg (by simp [isMnt, reg_ARB_COMMIT]),
    if_neg (by simp [reg_ARB_COMMIT])]
  rfl

theorem exec_arbCommit {s : State} {role : Role} (hg : s.grants role ARB_COMMIT_GO.off arbGoWord) :
    exec (.arbCommit role) s = .next { s with block := (s.block.arbGone role).mgAnswer false 0 } := by
  have hroom : s.block.recRoom (1 + s.block.fenceRecs reg_ARB_COMMIT.name arbGoWord.toNat) = true := hg.2.2.2
  exact (writeReg_go default hg find_ARB_COMMIT (by decide) (by decide) (by decide) hroom).trans
    (by rw [Block.written, Block.performReg_ARB_COMMIT]; rfl)

theorem Block.arbNoted_rd (b : Block) (role : Role) (g : Fld) (hg : g.key ∉ ARB_COMMIT_GO.key :: audKeys) :
    (b.arbNoted role).rd g = b.rd g := by
  rw [List.mem_cons, not_or] at hg
  rw [Block.arbNoted, Block.rd_wr_of_ne _ _ _ _ hg.1, Block.noted_rd _ _ _ _ _ _ hg.2]

theorem Block.arbGone_parts (b : Block) (role : Role) : b.arbGone role = { b with
    regs := (b.arbGone role).regs, mg := (b.noted role reg_ARB_COMMIT ARB_COMMIT_GO.off arbGoWord).mg } := by
  simp only [Block.arbGone, Block.wr]
  rw [(Block.arbCommit_onlyRegs _).1]
  simp only [Block.arbNoted, Block.wr]
  rw [Block.noted_parts]

/-- Of the register fields only the levels in use, the GO bit and those of a lost record change. -/
theorem Block.arbGone_regsBut (b : Block) (role : Role) :
    b.regsBut (b.arbGone role) (ARB_COMMIT_GO.key :: precKeys ++ audKeys) := by
  intro g hg
  simp only [List.cons_append, List.mem_cons, List.mem_append, not_or] at hg
  obtain ⟨hgo, hprec, haud⟩ := hg
  rw [Block.arbGone, Block.rd_wr_of_ne _ _ _ _ hgo, (Block.arbCommit_onlyRegs _).2 g hprec,
    Block.arbNoted_rd _ _ _ (by simp [hgo, haud])]

/-- Every level in use takes the shadow of the block before the command. -/
theorem Block.arbGone_rd_active (b : Block) (role : Role) :
    ∀ e ∈ precFields, (b.arbGone role).rd e.1 = b.rd e.2 % 2 ^ e.1.width := by
  have hkeys : ∀ e ∈ precFields, e.1.key ≠ ARB_COMMIT_GO.key ∧ e.2.key ∉ ARB_COMMIT_GO.key :: audKeys := by decide
  intro e he
  rw [Block.arbGone, Block.rd_wr_of_ne _ _ _ _ (hkeys e he).1, Block.arbCommit_rd_active _ e he,
    Block.arbNoted_rd _ _ _ (hkeys e he).2]

theorem arbCommit_answers {s : State} {role : Role} (hg : s.grants role ARB_COMMIT_GO.off arbGoWord) :
    s.answers (.arbCommit role) (fun b =>
      (∀ e ∈ precFields, b.rd e.1 = s.block.rd e.2 % 2 ^ e.1.width) ∧ s.block.wrote b (ARB_COMMIT_GO.key :: precKeys)
      ∧ b = { s.block with regs := b.regs, mg := b.mg }) := by
  have hparts := Block.arbGone_parts s.block role
  have hmg : (s.block.arbGone role).mg = (s.block.noted role reg_ARB_COMMIT ARB_COMMIT_GO.off arbGoWord).mg :=
    by rw [hparts]
  refine State.answers_next (exec_arbCommit hg) ⟨fun e he => ?_, ⟨Block.mgAnswer_acked _ _, ?_, ?_, fun g hk => ?_⟩, ?_⟩
  · rw [Block.mgAnswer_rd, Block.arbGone_rd_active _ _ e he]
  · rw [Block.mgAnswer, hmg, Block.noted_held]
  · rw [Block.mgAnswer, hmg, Block.noted_latch]
  · exact (Block.mgAnswer_rd ..).trans (Block.arbGone_regsBut s.block role g hk)
  · simp only [Block.mgAnswer]
    rw [hparts]

/-! ## ARB_HOLD_LIMIT (R174) -/

/-- The word of ARB_HOLD_LIMIT with a limit. -/
def limitWord (limit : BitVec 12) : Word := withField (0 : Word) ARB_HOLD_LIMIT_LIMIT limit.toNat

theorem fieldOf_limitWord (limit : BitVec 12) : fieldOf (limitWord limit) ARB_HOLD_LIMIT_LIMIT = limit.toNat := by
  rw [limitWord, fieldOf_withField_self _ _ _ (by decide) (by decide)]
  exact Nat.mod_eq_of_lt limit.isLt

/-- A granted ARB_HOLD_LIMIT as its effect finds the block: recorded, and LIMIT stored. -/
def Block.limitNoted (b : Block) (role : Role) (limit : BitVec 12) : Block :=
  (b.noted role reg_ARB_HOLD_LIMIT ARB_HOLD_LIMIT_LIMIT.off (limitWord limit)).wr ARB_HOLD_LIMIT_LIMIT limit.toNat

theorem Block.performReg_ARB_HOLD_LIMIT (b : Block) (role : Role) (old : Nat) (w : Word) (x : Aux) :
    b.performReg role reg_ARB_HOLD_LIMIT [] ARB_HOLD_LIMIT_LIMIT.off old w x
      = (b.wr ARB_HOLD_LIMIT_LIMIT (fieldOf w ARB_HOLD_LIMIT_LIMIT)).cutoffMask x.mask.toNat := by
  unfold Block.performReg
  rw [if_neg (by simp [Block.deafInstance, Block.idleInstance, reg_ARB_HOLD_LIMIT]), if_neg (by simp [isMnt, reg_ARB_HOLD_LIMIT]),
    if_neg (by simp [reg_ARB_HOLD_LIMIT])]
  rfl

theorem exec_holdLimitWrite {s : State} {role : Role} {limit : BitVec 12} (mask : BitVec 16)
    (hg : s.grants role ARB_HOLD_LIMIT_LIMIT.off (limitWord limit)) :
    exec (.holdLimitWrite role limit mask) s
      = .next { s with block := ((s.block.limitNoted role limit).cutoffMask mask.toNat).mgAnswer false 0 } := by
  have hroom : s.block.recRoom (1 + s.block.fenceRecs reg_ARB_HOLD_LIMIT.name (limitWord limit).toNat) = true := hg.2.2.2
  exact (writeReg_go { (default : Aux) with mask := mask } hg find_ARB_HOLD_LIMIT (by decide) (by decide) (by decide) hroom).trans
    (by rw [Block.written, Block.performReg_ARB_HOLD_LIMIT, fieldOf_limitWord]; rfl)

theorem Block.limitNoted_parts (b : Block) (role : Role) (limit : BitVec 12) : b.limitNoted role limit = { b with
    regs := (b.limitNoted role limit).regs
    mg := (b.noted role reg_ARB_HOLD_LIMIT ARB_HOLD_LIMIT_LIMIT.off (limitWord limit)).mg } := by
  simp only [Block.limitNoted, Block.wr]
  rw [Block.noted_parts]

theorem Block.limitNoted_rd_limit (b : Block) (role : Role) (limit : BitVec 12) :
    (b.limitNoted role limit).rd ARB_HOLD_LIMIT_LIMIT = limit.toNat :=
  (Block.rd_wr_self _ _ _).trans (Nat.mod_eq_of_lt limit.isLt)

theorem Block.limitNoted_regsBut (b : Block) (role : Role) (limit : BitVec 12) :
    b.regsBut (b.limitNoted role limit) ([ARB_HOLD_LIMIT_LIMIT.key] ++ audKeys) := by
  intro g hg
  simp only [List.cons_append, List.nil_append, List.mem_cons, not_or] at hg
  rw [Block.limitNoted, Block.rd_wr_of_ne _ _ _ _ hg.1, Block.noted_rd _ _ _ _ _ _ hg.2]

theorem holdLimitWrite_answers {s : State} {role : Role} {limit : BitVec 12} (mask : BitVec 16)
    (hg : s.grants role ARB_HOLD_LIMIT_LIMIT.off (limitWord limit)) :
    s.answers (.holdLimitWrite role limit mask) (fun b =>
      b.acked ∧ b.rd ARB_HOLD_LIMIT_LIMIT = limit.toNat
      ∧ (∀ c : Nat, c < 16 → (b.slices.get c).grant = if mask.getLsbD c then none else (s.block.slices.get c).grant)
      ∧ (mask = 0 → s.block.wrote b [ARB_HOLD_LIMIT_LIMIT.key] ∧ b = { s.block with regs := b.regs, mg := b.mg })) := by
  have hparts := s.block.limitNoted_parts role limit
  have hslices : (s.block.limitNoted role limit).slices = s.block.slices := by rw [hparts]
  have hmg : (s.block.limitNoted role limit).mg
      = (s.block.noted role reg_ARB_HOLD_LIMIT ARB_HOLD_LIMIT_LIMIT.off (limitWord limit)).mg := by rw [hparts]
  refine State.answers_next (exec_holdLimitWrite mask hg) ⟨Block.mgAnswer_acked _ _, ?_, fun c hc => ?_, fun hm => ?_⟩
  · rw [Block.mgAnswer_rd, Block.cutoffMask_rd_limit, Block.limitNoted_rd_limit]
  · have hbit : bitOf mask.toNat c = mask.getLsbD c := bitOf_eq_testBit ..
    have hgrant := Block.cutoffMask_grant (s.block.limitNoted role limit) mask.toNat hc
    rw [hbit, hslices] at hgrant
    exact hgrant
  · rw [show mask.toNat = 0 by rw [hm]; rfl, Block.cutoffMask_zero]
    refine ⟨⟨Block.mgAnswer_acked _ _, ?_, ?_, fun g hk => ?_⟩, ?_⟩
    · rw [Block.mgAnswer, hmg, Block.noted_held]
    · rw [Block.mgAnswer, hmg, Block.noted_latch]
    · exact (Block.mgAnswer_rd ..).trans (s.block.limitNoted_regsBut role limit g hk)
    · simp only [Block.mgAnswer]
      rw [hparts]

end Sys2Proof.Machine
end

section
/-! SUPPORT. What a counted event and a grant's charge leave (R180, R188, R446, R460): sample records, demand and served units. -/

namespace Sys2Proof.Machine

open Reg

/-! ## Sample records (R460, R461) -/

/-- No sample record lies outside the sample buffer: the next one's number is one of the 64, or none is ever captured. -/
def Block.samplesFit (b : Block) : Prop := b.rd CTR_SAMPLE_WR_NEXT < 64 ∨ ∀ i, Config.captureBusy i = true

/-- Of the registers `t` has changed only those of the performance counters and the pending interrupts, and its samples fit. -/
def Block.sampledTo (b t : Block) : Prop := b.regsButCounted t [] ∧ t.samplesFit

section
variable {b t : Block}

theorem Block.sampledTo_of_regs (h : b.sampledTo t) {u : Block} (hu : u.regs = t.regs) : b.sampledTo u := by
  obtain ⟨hrd, hfit⟩ := h
  refine ⟨fun g hg hc hp => (Block.rd_congr _ _ hu).trans (hrd g hg hc hp), ?_⟩
  rwa [Block.samplesFit, Block.rd_congr _ _ hu]

theorem Block.sampledTo_ctr (h : b.sampledTo t) (c : CtrSt) : b.sampledTo { t with ctr := c } := Block.sampledTo_of_regs h rfl

theorem Block.sampledTo_draw (h : b.sampledTo t) : b.sampledTo t.draw.2 := Block.sampledTo_of_regs h rfl

theorem Block.sampledTo_wr (h : b.sampledTo t) {f : Fld} (v : Nat) (hf : isCtrKey f.key = true)
    (hn : f.key ≠ CTR_SAMPLE_WR_NEXT.key) : b.sampledTo (t.wr f v) := by
  obtain ⟨hrd, hfit⟩ := h
  refine ⟨fun g hg hc hp => ?_, ?_⟩
  · have hne : g.key ≠ f.key := fun he => by rw [he, hf] at hc; cases hc
    exact (Block.rd_wr_of_ne _ _ _ _ hne).trans (hrd g hg hc hp)
  · rwa [Block.samplesFit, Block.rd_wr_of_ne _ _ _ _ hn.symm]

theorem Block.sampledTo_next (h : b.sampledTo t) {v : Nat} (hv : v < 64) : b.sampledTo (t.wr CTR_SAMPLE_WR_NEXT v) := by
  refine ⟨fun g hg hc hp => ?_, .inl ?_⟩
  · have hne : g.key ≠ CTR_SAMPLE_WR_NEXT.key := fun he => by rw [he] at hc; exact absurd hc (by decide)
    exact (Block.rd_wr_of_ne _ _ _ _ hne).trans (h.1 g hg hc hp)
  · rw [Block.rd_wr_self]
    exact (Nat.mod_le _ _).trans_lt hv

theorem Block.sampledTo_intr (h : b.sampledTo t) (i : Nat) (p : Bool) : b.sampledTo (t.intr i p) := by
  obtain ⟨hrd, hfit⟩ := h
  refine ⟨fun g hg hc hp => (Block.rd_intr _ _ _ _ hp).trans (hrd g hg hc hp), ?_⟩
  rwa [Block.samplesFit, Block.rd_intr _ _ _ _ (by decide)]

theorem Block.sampledTo_ite (p : Prop) [Decidable p] {u : Block} (ht : b.sampledTo t) (hu : b.sampledTo u) :
    b.sampledTo (if p then t else u) := by
  split
  · exact ht
  · exact hu

/-- A record of the buffer stands in the registers of the performance counters. -/
theorem isCtrKey_sample {i j : Nat} (hi : i < 64) (hj : j < 8) : isCtrKey (CTR_SAMPLE_WORD i j).key = true := by
  simp only [isCtrKey, CTR_SAMPLE_WORD, Fld.key, Bool.and_eq_true]
  exact ⟨decide_eq_true (by omega), decide_eq_true (by omega)⟩

theorem Block.sampledTo_ctrRecord (h : b.sampledTo t) (hi : t.rd CTR_SAMPLE_WR_NEXT < 64) (n skid : Nat) (c : Carry) :
    b.sampledTo (t.ctrRecord n skid c) := by
  have hwords (v : Nat → Nat) :
      b.sampledTo (forEach (List.range 8) t (fun u j => u.wr (CTR_SAMPLE_WORD (t.rd CTR_SAMPLE_WR_NEXT) j) (v j))) :=
    forEach_inv b.sampledTo _ _ _ (fun u j hj hu => Block.sampledTo_wr hu _ (isCtrKey_sample hi (List.mem_range.mp hj))
      (by simp only [CTR_SAMPLE_WORD, CTR_SAMPLE_WR_NEXT, Fld.key]; omega)) h
  unfold Block.ctrRecord
  extract_lets i _ _ _ words b₁ b₂
  have hnext : b.sampledTo b₂ := Block.sampledTo_next (hwords (fun j => words.getD j 0)) (Nat.mod_lt _ (by decide))
  split
  · exact Block.sampledTo_wr hnext _ (by decide) (by decide)
  · exact hnext

theorem Block.sampledTo_ctrCapture (h : b.sampledTo t) (n skid : Nat) (c : Carry) : b.sampledTo (t.ctrCapture n skid c) := by
  have hd := Block.sampledTo_draw h
  unfold Block.ctrCapture
  dsimp only
  split
  · split
    · exact Block.sampledTo_intr (Block.sampledTo_wr (Block.sampledTo_wr (Block.sampledTo_ctr hd _) _ (by decide) (by decide))
        _ (by decide) (by decide)) _ _
    · exact Block.sampledTo_ctr hd _
  · next hfree =>
    have hctr := Block.sampledTo_ctr hd { t.draw.2.ctr with capt := t.draw.2.ctr.capt.set n 0 }
    exact Block.sampledTo_ctrRecord hctr (hctr.2.resolve_right (fun hb => hfree (hb _))) _ _ _

theorem Block.sampledTo_ctrAdd (h : b.sampledTo t) {n : Nat} (hn : n < 552) (amount : Nat) (c : Carry) :
    b.sampledTo (t.ctrAdd n amount c) := by
  have hovf {u : Block} (hu : b.sampledTo u) : b.sampledTo (u.ctrOverflow n) :=
    Block.sampledTo_intr (Block.sampledTo_wr hu _ (isCtrKey_ovf hn)
      (by simp only [CTR_OVF_OVF, CTR_SAMPLE_WR_NEXT, Fld.key]; omega)) _ _
  unfold Block.ctrAdd
  extract_lets _ _ _ _ b₁ _ _ b₂ b₃
  have h₁ : b.sampledTo b₁ := Block.sampledTo_ctr h _
  have h₂ : b.sampledTo b₂ := Block.sampledTo_ite _ (Block.sampledTo_ctr h₁ _) h₁
  have h₃ : b.sampledTo b₃ := Block.sampledTo_ite _ (hovf h₂) h₂
  split
  all_goals exact Block.sampledTo_ite _ (Block.sampledTo_ctrCapture h₃ _ _ _) h₃

theorem Block.sampledTo_count (h : b.samplesFit) {u : Nat × Nat} (hu : u.1 + u.2 ≤ 552) (code amount : Nat) (c : Carry) :
    b.sampledTo (b.count u code amount c) := by
  refine forEach_inv b.sampledTo _ _ _ (fun t k hk ht => ?_) ⟨fun _ _ _ _ => rfl, h⟩
  have hlt := List.mem_range.mp hk
  exact Block.sampledTo_ite _ ht (Block.sampledTo_ite _ (Block.sampledTo_ctrAdd ht (by omega) _ _) ht)
end

/-! ## What a grant counts (R180, R188, R446) -/

/-- `t` is `b` but for what a grant counts: what the performance counters and the regulator hold, drawn values, and registers. Where
its samples fit, these are registers of the performance counters. -/
def Block.chargedTo (b t : Block) : Prop :=
  t = { b with regs := t.regs, ctr := t.ctr, fresh := t.fresh, regu := t.regu }
  ∧ (∀ g : Fld, g.key < 0x280000 * 32 → g.key ≠ GLB_INT_PEND_PEND.key → t.rd g = b.rd g)
  ∧ (b.samplesFit → b.sampledTo t)

theorem Block.chargedTo_refl (b : Block) : b.chargedTo b := ⟨rfl, fun _ _ _ => rfl, fun h => ⟨fun _ _ _ _ => rfl, h⟩⟩

theorem Block.chargedTo.trans {b t u : Block} (h : b.chargedTo t) (h' : t.chargedTo u) : b.chargedTo u := by
  obtain ⟨hparts, hrd, hfit⟩ := h
  obtain ⟨hparts', hrd', hfit'⟩ := h'
  refine ⟨hparts'.trans (by rw [hparts]), fun g hg hp => (hrd' g hg hp).trans (hrd g hg hp), fun hb => ?_⟩
  obtain ⟨hkept, ht⟩ := hfit hb
  obtain ⟨hkept', hu⟩ := hfit' ht
  exact ⟨fun g hg hc hp => (hkept' g hg hc hp).trans (hkept g hg hc hp), hu⟩

theorem Block.chargedTo_count (b : Block) {u : Nat × Nat} (hu : u.1 + u.2 ≤ 552) (code amount : Nat) (c : Carry) :
    b.chargedTo (b.count u code amount c) := by
  obtain ⟨hparts, hrd⟩ := Block.countedTo_count b u code amount c
  exact ⟨by rw [hparts], hrd, fun h => Block.sampledTo_count h hu code amount c⟩

theorem Block.chargedTo_regu (b : Block) (x : ReguSt) : b.chargedTo { b with regu := x } :=
  ⟨rfl, fun _ _ _ => rfl, fun h => ⟨fun _ _ _ _ => rfl, h⟩⟩

/-- Demand flags are the only thing that candidates set (R190). -/
theorem Block.demandSeen_parts (b : Block) (l : List Nat) :
    b.demandSeen l = { b with regu := { b.regu with demand := (b.demandSeen l).regu.demand } } := by
  refine forEach_inv (fun t : Block => t = { b with regu := { b.regu with demand := t.regu.demand } }) _ _ _ (fun t c _ ht => ?_) rfl
  refine forEach_inv (fun t : Block => t = { b with regu := { b.regu with demand := t.regu.demand } }) _ _ _ (fun t e _ ht => ?_) ht
  unfold Block.reguDemand
  split
  · split
    · rw [ht]
    · exact ht
  · exact ht

theorem Block.chargedTo_demandSeen (b : Block) (l : List Nat) : b.chargedTo (b.demandSeen l) := by
  rw [Block.demandSeen_parts]
  exact b.chargedTo_regu _

/-- The entry of a request depends on the working tables alone (R179). -/
theorem Block.entryOf_congr {b t : Block} (h : t.work = b.work) (r : Req) : t.entryOf r = b.entryOf r := by
  simp only [Block.entryOf, Block.reguEntry, Block.wk, h]

theorem Block.chargedTo.work {b t : Block} (h : b.chargedTo t) : t.work = b.work := by rw [h.1]

/-- An entry has been served `n` units more in its window, saturating (R180). -/
def Block.unitsServed (b : Block) (e n : Nat) : Block :=
  { b with regu := { b.regu with
      served := b.regu.served.upd e (fun v => min (v + n) 0xFFFFFFFF), recent := ((e, n) :: b.regu.recent).take 64 } }

theorem Block.reguGrant_of_entry {b : Block} {r : Req} {e : Nat} (h : b.entryOf r = some e) (owed : Bool) : b.reguGrant r owed =
    let t := (b.unitsServed e r.op.units).count ctrRegu 1 r.op.units r.carry
    if owed then t.count ctrRegu 2 r.op.units r.carry else t := by
  unfold Block.reguGrant
  rw [h]
  rfl

theorem Block.chargedTo_reguGrant (b : Block) (r : Req) (owed : Bool) : b.chargedTo (b.reguGrant r owed) := by
  cases h : b.entryOf r with
  | none =>
    unfold Block.reguGrant
    rw [h]
    exact b.chargedTo_refl
  | some e =>
    have hserved : b.chargedTo (b.unitsServed e r.op.units) := b.chargedTo_regu _
    have hunits := hserved.trans (Block.chargedTo_count _ (u := ctrRegu) (by decide) 1 r.op.units r.carry)
    rw [Block.reguGrant_of_entry h]
    cases owed with
    | false => exact hunits
    | true => exact hunits.trans (Block.chargedTo_count _ (by decide) ..)

theorem Block.count_regu (b : Block) (u : Nat × Nat) (code n : Nat) (c : Carry) : (b.count u code n c).regu = b.regu := by
  rw [(Block.countedTo_count b u code n c).1]

/-- A grant adds its units to what the entry of the request has been served (R180). -/
theorem Block.reguGrant_served {b : Block} {r : Req} {e : Nat} (h : b.entryOf r = some e) (owed : Bool) :
    (b.reguGrant r owed).regu.served.get e = min (b.regu.served.get e + r.op.units) 0xFFFFFFFF := by
  have hregu : (b.reguGrant r owed).regu = (b.unitsServed e r.op.units).regu := by
    rw [Block.reguGrant_of_entry h]
    cases owed <;> simp only [Block.count_regu, Bool.false_eq_true, if_true, if_false]
  rw [hregu]
  exact Tab.get_set_self ..

end Sys2Proof.Machine
end

section
/-! SUPPORT. The grant of a slice (R163, R165, R168, R169): the winner's queue, the pointer, and a write that waits for its data. -/

namespace Sys2Proof.Machine

open Reg

/-! ## The decision and the grant (R163, R165, R168) -/

/-- The head of the winner's queue at slice `c` has left it, and the pointer of its tier takes the winner (R165, R167). -/
def Block.headTaken (b : Block) (c i tier : Nat) (rest : List Req) : Block :=
  b.updSlice c (fun q => { q with q := q.q.set i rest, ptr := q.ptr.set tier (i ^^^ 8) })

/-- Each other candidate is counted as one that waits (R446). -/
def Block.othersCounted (b : Block) (c : Nat) (others : List (Nat × Req)) : Block :=
  forEach others b (fun b e => b.count (ctrSlice c) 6 1 { (default : Carry) with req := some e.1 })

/-- A grant of slice `c` to requester `i`, before its transfer is performed or waits for its data. -/
def Block.granted (b : Block) (c lag i tier : Nat) (r : Req) (rest : List Req) : Block :=
  let t := ((b.demandSeen [c]).headTaken c i tier rest).othersCounted c ((b.candidates c lag).filter (fun e => e.1 != i))
  ((t.count (ctrSlice c) 1 r.op.units r.carry).reguGrant { r with owed := tier == 4 } (tier == 4)).demandSeen [c]

theorem Block.arbitrate_of_winner {b : Block} {c lag i tier : Nat} {r : Req} {rest : List Req} (hf : b.sliceFenced c = false)
    (hg : (b.slices.get c).grant = none) (ht : b.sliceTakes c = true) (hd : b.decide_ c lag (b.candidates c lag) = some (i, tier))
    (hq : (b.slices.get c).q.get i = r :: rest) : b.arbitrate c lag =
      let t := b.granted c lag i tier r rest
      let r := { r with owed := tier == 4 }
      if r.needsData then t.updSlice c (fun q => { q with grant := some r }) else t.sliceAccess c r := by
  have hparts := b.demandSeen_parts [c]
  have hcand : (b.demandSeen [c]).candidates c lag = b.candidates c lag := by rw [hparts]; rfl
  have hslices : (b.demandSeen [c]).slices = b.slices := by rw [hparts]
  have hdec : (b.demandSeen [c]).decide_ c lag (b.candidates c lag) = some (i, tier) := by rw [← hd, hparts]; rfl
  have hidle : (b.demandSeen [c]).sliceFenced c = false ∧ (b.demandSeen [c]).sliceTakes c = true := by
    rw [← hf, ← ht, hparts]
    exact ⟨rfl, rfl⟩
  unfold Block.arbitrate
  dsimp only
  rw [if_neg (by simp [hidle, hslices, hg]), hcand, hdec]
  dsimp only
  rw [hslices, hq]
  rfl

section
variable (b : Block) (c lag i tier : Nat) (r : Req) (rest : List Req)

theorem Block.chargedTo_othersCounted (hc : c < 16) (others : List (Nat × Req)) : b.chargedTo (b.othersCounted c others) :=
  forEach_inv b.chargedTo _ _ _ (fun t e _ ht => ht.trans (t.chargedTo_count (by simp only [ctrSlice]; omega) ..)) b.chargedTo_refl

/-- But for the winner's queue and the pointer, a grant changes only what it counts. -/
theorem Block.chargedTo_granted (hc : c < 16) : (b.headTaken c i tier rest).chargedTo (b.granted c lag i tier r rest) := by
  have hseen : (b.headTaken c i tier rest).chargedTo ((b.demandSeen [c]).headTaken c i tier rest) := by
    rw [Block.demandSeen_parts]
    exact (b.headTaken c i tier rest).chargedTo_regu _
  exact (((hseen.trans (Block.chargedTo_othersCounted _ c hc _)).trans
    (Block.chargedTo_count _ (by simp only [ctrSlice]; omega) ..)).trans (Block.chargedTo_reguGrant ..)).trans
    (Block.chargedTo_demandSeen ..)

theorem Block.granted_slices (hc : c < 16) (d : Nat) : (b.granted c lag i tier r rest).slices.get d =
    if d = c then { b.slices.get c with q := (b.slices.get c).q.set i rest, ptr := (b.slices.get c).ptr.set tier (i ^^^ 8) }
    else b.slices.get d := by
  rw [(b.chargedTo_granted c lag i tier r rest hc).1]
  exact Tab.get_set ..

/-- The entry of the winner has been served its units (R180). -/
theorem Block.granted_served (hc : c < 16) {e : Nat} (he : b.entryOf r = some e) :
    (b.granted c lag i tier r rest).regu.served.get e = min (b.regu.served.get e + r.op.units) 0xFFFFFFFF := by
  have hothers (t : Block) (l : List (Nat × Req)) : (t.othersCounted c l).regu = t.regu :=
    forEach_keeps Block.regu _ _ _ (fun _ _ => Block.count_regu ..)
  have hserved (t : Block) : (t.demandSeen [c]).regu.served = t.regu.served := by rw [Block.demandSeen_parts]
  unfold Block.granted
  dsimp only
  rw [hserved, Block.reguGrant_served (e := e), Block.count_regu, hothers]
  · exact congrArg (fun l : Tab Nat => min (l.get e + r.op.units) 0xFFFFFFFF) (hserved b)
  · rw [Block.entryOf_congr (b := b), ← he]
    · rfl
    · rw [Block.count_work, (Block.chargedTo_othersCounted _ c hc _).work]
      exact (b.chargedTo_demandSeen [c]).work

end

/-! ## A granted write without its data (R169) -/

/-- An upset flips bits of the arrays, or spoils fetches of descriptors. -/
theorem Block.upset_parts (b : Block) (c : Nat) (u : Upset) : b.upset c u =
    { b with arr := (b.upset c u).arr, edt := { b.edt with fetches := (b.upset c u).edt.fetches } } := by
  cases u with
  | none => rfl
  | tag set way first second =>
    simp only [Block.upset]
    split <;> rfl
  | data set way sec uncorrectable => rfl
  | miss i => rfl

section
variable {s : State} {c : Fin 16} {lag : Fin 65} {i t : Nat} {r : Req} {rest : List Req}

/-- The block that holds the granted transfer at the input of its slice. -/
def Block.inputHeld (b : Block) (c : Nat) (r : Req) : Block := b.updSlice c (fun q => { q with grant := some r })

theorem exec_sliceGrant_write (up : Upset) (hf : s.block.sliceFenced c = false) (hg : (s.block.slices.get c).grant = none)
    (ht : s.block.sliceTakes c = true) (hd : s.block.decide_ c lag (s.block.candidates c lag) = some (i, t))
    (hq : (s.block.slices.get c).q.get i = r :: rest) (hw : r.op.isWrite = true) (hdata : r.wdata = []) :
    exec (.sliceGrant c ⟨up, lag⟩) s = .next { s with block :=
      ((s.block.upset c up).granted c lag i t r rest).inputHeld c { r with owed := t == 4 } } := by
  have hparts := s.block.upset_parts c up
  have hslices : (s.block.upset c up).slices = s.block.slices := by rw [hparts]
  have hcand : (s.block.upset c up).candidates c lag = s.block.candidates c lag := by rw [hparts]; rfl
  have harb := Block.arbitrate_of_winner (b := s.block.upset c up) (c := c) (lag := lag) (i := i) (tier := t) (r := r) (rest := rest)
    (by rw [← hf, hparts]; rfl) (by rw [hslices, hg]) (by rw [← ht, hparts]; rfl) (by rw [hcand, ← hd, hparts]; rfl)
    (by rw [hslices, hq])
  have hneeds : ({ r with owed := t == 4 } : Req).needsData = true := by simp [Req.needsData, hw, hdata]
  show Host.Outcome.next { s with block := (s.block.upset c up).arbitrate c lag } = _
  rw [harb]
  dsimp only
  rw [if_pos hneeds]
  rfl

/-- A granted write without its data holds the input, its requester is the last winner of its tier, and its entry has been served its
units (R163, R165, R169, R180). -/
theorem writeGrant_answers (hfit : s.block.samplesFit) (up : Upset) (hf : s.block.sliceFenced c = false)
    (hg : (s.block.slices.get c).grant = none) (ht : s.block.sliceTakes c = true)
    (hd : s.block.decide_ c lag (s.block.candidates c lag) = some (i, t)) (hq : (s.block.slices.get c).q.get i = r :: rest)
    (hw : r.op.isWrite = true) (hdata : r.wdata = []) :
    s.answers (.sliceGrant c ⟨up, lag⟩) (fun b =>
      (b.slices.get c).grant = some { r with owed := t == 4 } ∧ (b.slices.get c).q.get i = rest
      ∧ (b.slices.get c).pointer t = i ∧ (∀ j : Nat, j ≠ i → (b.slices.get c).q.get j = (s.block.slices.get c).q.get j)
      ∧ (∀ d : Nat, d ≠ c.val → b.slices.get d = s.block.slices.get d)
      ∧ (∀ e : Nat, s.block.entryOf r = some e →
          b.regu.served.get e = min (s.block.regu.served.get e + r.op.units) 0xFFFFFFFF)
      ∧ b = { s.block with regs := b.regs, ctr := b.ctr, fresh := b.fresh, slices := b.slices, regu := b.regu
                           arr := (s.block.upset c up).arr, edt := (s.block.upset c up).edt }
      ∧ s.block.regsButCounted b []) := by
  have hparts := s.block.upset_parts c up
  have hslices : (s.block.upset c up).slices = s.block.slices := by rw [hparts]
  have hrd (g : Fld) : (s.block.upset c up).rd g = s.block.rd g := by rw [hparts, Block.rd_mk]
  obtain ⟨hframe, -, hsampled⟩ := (s.block.upset c up).chargedTo_granted c lag i t r rest c.isLt
  have hgranted := (s.block.upset c up).granted_slices c lag i t r rest c.isLt
  rw [hslices] at hgranted
  have hself : (((s.block.upset c up).granted c lag i t r rest).inputHeld c { r with owed := t == 4 }).slices.get c =
      { s.block.slices.get c with q := (s.block.slices.get c).q.set i rest, ptr := (s.block.slices.get c).ptr.set t (i ^^^ 8),
                                  grant := some { r with owed := t == 4 } } := by
    rw [Block.inputHeld, Block.updSlice]
    dsimp only
    rw [Tab.upd, Tab.get_set_self, hgranted, if_pos rfl]
  refine State.answers_next (exec_sliceGrant_write up hf hg ht hd hq hw hdata)
    ⟨?_, ?_, ?_, fun j hj => ?_, fun d hne => ?_, fun e he => ?_, ?_, fun g _ hc hp => ?_⟩
  · rw [hself]
  · rw [hself]
    exact Tab.get_set_self ..
  · rw [hself, SliceSt.pointer]
    dsimp only
    rw [Tab.get_set_self, Nat.xor_xor_cancel_right]
  · rw [hself]
    exact Tab.get_set_of_ne _ _ hj
  · rw [Block.inputHeld, Block.updSlice]
    dsimp only
    rw [Tab.upd, Tab.get_set_of_ne _ _ hne, hgranted, if_neg hne]
  · have hentry : (s.block.upset c up).entryOf r = some e := by rw [← he, hparts]; rfl
    refine ((s.block.upset c up).granted_served c lag i t r rest c.isLt hentry).trans ?_
    rw [hparts]
  · rw [Block.inputHeld, hframe, hparts]
    rfl
  · have hkept := (hsampled (by rwa [Block.samplesFit, Block.headTaken, Block.rd_updSlice, hrd])).1 g List.not_mem_nil hc hp
    rw [Block.inputHeld, Block.rd_updSlice, hkept, Block.headTaken, Block.rd_updSlice, hrd]

end

end Sys2Proof.Machine
end

section
/-! SUPPORT. A cut-off of a port's write (R171 to R173): its answer and its registers. -/

namespace Sys2Proof.Machine

open Reg

/-! ## A cut-off of a port's write (R171 to R173) -/

/-- A cut-off is named by its requester and its slice, and counted (R172, R173). -/
theorem Block.cutoffNamed_shown (b : Block) {c src : Nat} (hc : c < 16) (hs : src < 9) :
    (b.cutoffNamed c src).bit ARB_CUTOFF_REQ src = true
    ∧ (b.cutoffNamed c src).rd ARB_CUTOFF_CNT_CNT = min (b.rd ARB_CUTOFF_CNT_CNT + 1) 0xFFFFFFFF
    ∧ (b.cutoffNamed c src).rd ARB_CUTOFF_LAST_SLICE = c ∧ (b.cutoffNamed c src).rd ARB_CUTOFF_LAST_REQ = src := by
  have hshown (g : Fld) (hg : g.key ∈ cutoffKeys) : (b.cutoffNamed c src).rd g =
      ((((b.setBitOf ARB_CUTOFF_REQ src).bump ARB_CUTOFF_CNT_CNT).wr ARB_CUTOFF_LAST_SLICE c).wr ARB_CUTOFF_LAST_REQ src).rd g := by
    have hkeys : ∀ k ∈ cutoffKeys, k < 0x280000 * 32 ∧ k ≠ GLB_INT_PEND_PEND.key := by decide
    exact ((Block.countedTo_count ..).2 g (hkeys _ hg).1 (hkeys _ hg).2).trans (Block.rd_intr _ _ _ _ (hkeys _ hg).2)
  refine ⟨?_, ?_, ?_, ?_⟩
  · rw [Block.bit, hshown _ (by decide), Block.rd_wr_of_ne _ _ _ _ (by decide), Block.rd_wr_of_ne _ _ _ _ (by decide),
      Block.rd_bump_of_ne _ _ _ (by decide), Block.setBitOf, Block.rd_wr_self, bitOf_mod _ _ _ (show src < ARB_CUTOFF_REQ.width from hs)]
    exact bitOf_or_self ..
  · rw [hshown _ (by decide), Block.rd_wr_of_ne _ _ _ _ (by decide), Block.rd_wr_of_ne _ _ _ _ (by decide), Block.rd_bump_self,
      Block.rd_setBitOf_of_ne _ _ _ _ (by decide)]
    rfl
  · rw [hshown _ (by decide), Block.rd_wr_of_ne _ _ _ _ (by decide), Block.rd_wr_self]
    exact Nat.mod_eq_of_lt hc
  · rw [hshown _ (by decide), Block.rd_wr_self]
    exact Nat.mod_eq_of_lt (by show src < 16; omega)

/-- A write of a port that is its only request is answered without data in one beat. -/
theorem Block.respondAll_lone_write {b : Block} {r : Req} {o : Outst} (st : Nat) (hp : r.src < 6) (hop : r.op = .wr64 ∨ r.op = .wrp)
    (hout : (b.ports.get r.src).out = [o]) (hid : o.id = r.id) (ht : o.todo = [0]) :
    ((b.respondAll r st).ports.get r.src).out = []
    ∧ ((b.respondAll r st).ports.get r.src).rsp.map Beat.undated = (b.ports.get r.src).rsp.map Beat.undated ++ [r.refusal st [0] 0] := by
  have hall : b.respondAll r st = b.respond r (r.dpa / 64 % 4) st 0 := by
    rcases hop with h | h <;> simp only [Block.respondAll, h, opSectors] <;> rfl
  obtain ⟨-, hgone, hbeats⟩ := Block.respond_lone (st := st) hp (by rcases hop with h | h <;> simp [h])
    (by rcases hop with h | h <;> simp [h]) hout hid ht List.not_mem_nil (by simp)
  rw [hall, ← ht]
  exact ⟨hgone, hbeats⟩

/-- A cut-off as it is named and counted, before its event. -/
def Block.cutoffDone (b : Block) (c : Nat) (r : Req) : Block := ((b.inputFreed c).respondAll r stAborted).cutoffNamed c r.src

theorem Block.cutoff_alarmedTo {b : Block} {c : Nat} {r : Req} (h : (b.slices.get c).grant = some r) :
    (b.cutoffDone c r).alarmedTo (b.cutoff c) := by
  rw [Block.cutoff_of_grant h]
  exact Block.alarmedTo_event _ rfl

/-- A cut-off aborts the write that holds the input, frees the input, and is counted and named (R171 to R173). -/
theorem arbCutoff_answers {s : State} {c : Fin 16} {r : Req} {o : Outst} (hg : (s.block.slices.get c).grant = some r) (hp : r.src < 6)
    (hop : r.op = .wr64 ∨ r.op = .wrp) (hout : (s.block.ports.get r.src).out = [o]) (hid : o.id = r.id) (ht : o.todo = [0])
    (hrsp : (s.block.ports.get r.src).rsp = []) :
    s.answers (.arbCutoff c) (fun b =>
      (b.slices.get c).grant = none
      ∧ (∃ t : Beat, (b.ports.get r.src).rsp = [t] ∧ t.status = stAborted ∧ t.write = true ∧ t.last = true)
      ∧ (b.ports.get r.src).out = [] ∧ b.bit ARB_CUTOFF_REQ r.src = true
      ∧ b.rd ARB_CUTOFF_CNT_CNT = min (s.block.rd ARB_CUTOFF_CNT_CNT + 1) 0xFFFFFFFF
      ∧ b.rd ARB_CUTOFF_LAST_SLICE = c ∧ b.rd ARB_CUTOFF_LAST_REQ = r.src
      ∧ (∀ i : Nat, (b.slices.get c).q.get i = (s.block.slices.get c).q.get i) ∧ b.arr = s.block.arr) := by
  obtain ⟨hparts, hkept⟩ := Block.cutoff_alarmedTo hg
  obtain ⟨hanswered, hrd⟩ := (s.block.inputFreed c).answeredTo_respondAll r stAborted
  obtain ⟨hgone, hbeats⟩ := Block.respondAll_lone_write (b := s.block.inputFreed c) stAborted hp hop hout hid ht
  obtain ⟨hbit, hcnt, hslice, hreq⟩ := Block.cutoffNamed_shown ((s.block.inputFreed c).respondAll r stAborted) c.isLt
    (show r.src < 9 by omega)
  have hports : (s.block.cutoff c).ports = ((s.block.inputFreed c).respondAll r stAborted).ports := by
    rw [hparts, Block.cutoffDone, Block.cutoffNamed_parts]
  have harr : (s.block.cutoff c).arr = s.block.arr := by
    rw [hparts, Block.cutoffDone, Block.cutoffNamed_parts, hanswered]
    rfl
  have hslices := s.block.cutoff_slices c c
  rw [if_pos rfl] at hslices
  have hcount : UnansweredKey ARB_CUTOFF_CNT_CNT.key :=
    ⟨by decide, by decide, by decide, fun e => by simp only [ARB_CUTOFF_CNT_CNT, REGU_GT_CNT_DL_MISS, Fld.key]; omega⟩
  have hbeat : ((s.block.inputFreed c).ports.get r.src).rsp = [] := hrsp
  rw [hbeat, List.map_nil, List.nil_append] at hbeats
  obtain ⟨t, hlane, hundated⟩ := List.map_eq_singleton_iff.mp hbeats
  refine State.answers_onBlock (f := fun b => b.cutoff c) rfl ⟨?_, ⟨t, ?_, ?_, ?_, ?_⟩, ?_, ?_, ?_, ?_, ?_, fun i => ?_, harr⟩
  · rw [hslices]
  · rw [hports, hlane]
  · exact congrArg Beat.status hundated
  · exact (congrArg Beat.write hundated).trans (by rcases hop with h | h <;> simp [Req.refusal, h])
  · exact (congrArg Beat.last hundated).trans (by simp [Req.refusal])
  · rw [hports, hgone]
  · exact (Block.bit_congr (hkept _ (by decide)) _).trans hbit
  · rw [hkept _ (by decide), Block.cutoffDone, hcnt, hrd _ hcount]
    rfl
  · exact (hkept _ (by decide)).trans hslice
  · exact (hkept _ (by decide)).trans hreq
  · rw [hslices]

end Sys2Proof.Machine
end

section
/-! SUPPORT. A read of one sector that hits (R217, R218, R220, R223): recency, the arrays, and the answer with data. -/

namespace Sys2Proof.Machine

open Reg

/-! ## Recency (R223) -/

/-- `t` is `b` but for AGE and EA of lines. -/
def Block.agedTo (b t : Block) : Prop :=
  t = { b with arr := { b.arr with lines := t.arr.lines } }
  ∧ ∀ j, t.line j = { b.line j with ea := (t.line j).ea, age := (t.line j).age }

theorem Block.agedTo_refl (b : Block) : b.agedTo b := ⟨rfl, fun _ => rfl⟩

theorem Block.line_updLine (b : Block) (k j : Nat) (f : Line → Line) :
    (b.updLine k f).line j = if j = k then f (b.line k) else b.line j := Tab.get_set ..

theorem Block.agedTo_updLine {b t : Block} (h : b.agedTo t) (k : Nat) (f : Line → Line)
    (hf : ∀ l, f l = { l with ea := (f l).ea, age := (f l).age }) : b.agedTo (t.updLine k f) := by
  obtain ⟨hparts, hlines⟩ := h
  refine ⟨?_, fun j => ?_⟩
  · rw [Block.updLine, hparts]
  · rw [Block.line_updLine]
    split
    · next hj => rw [hf (t.line k), hlines k, hj]
    · exact hlines j

theorem Block.agedTo_setAge {b t : Block} (h : b.agedTo t) (k v : Nat) : b.agedTo (t.setAge k v) :=
  Block.agedTo_updLine h k _ (fun _ => rfl)

theorem Block.agedTo_moveAge (b : Block) (k v : Nat) : b.agedTo (b.moveAge k v) := by
  unfold Block.moveAge
  split
  · exact b.agedTo_refl
  refine Block.agedTo_setAge (forEach_inv b.agedTo _ _ _ (fun t j _ ht => ?_) b.agedTo_refl) k v
  dsimp only
  split
  · exact Block.agedTo_setAge ht _ _
  split
  · exact Block.agedTo_setAge ht _ _
  · exact ht

theorem Block.agedTo_touch (b : Block) (k : Nat) (r : Req) : b.agedTo (b.touch k r) := by
  unfold Block.touch
  split
  · split
    · exact Block.agedTo_updLine b.agedTo_refl k _ (fun _ => rfl)
    · exact b.agedTo_refl
  split
  · exact b.agedTo_refl
  · exact b.agedTo_moveAge k 0

/-! ## A read that hits (R217, R218, R220) -/

/-- The tags of a set without upset bits are read without effect (R217). -/
theorem Block.tagsRead_of_sound {b : Block} {c a : Nat} (h : b.soundTags c a) : b.tagsRead c (cacheSet a) = b := by
  refine forEach_fixed _ _ _ (fun w hw => ?_)
  have hw16 : w < 16 := by have := List.mem_range.mp hw; omega
  unfold Block.tagCheck
  exact if_pos (h w hw16)

/-- Sector `n` of line `k` is in V or D, and neither poisoned nor in error. -/
structure Block.holds (b : Block) (k n : Nat) : Prop where
  valid : (b.line k).st.get n = .v ∨ (b.line k).st.get n = .d
  sound : (b.line k).bad.get n = false
  noErr : b.arr.err.get (4 * k + n) = 0

theorem Block.holds.aged {b t : Block} {k n : Nat} (h : b.holds k n) (ha : b.agedTo t) : t.holds k n := by
  obtain ⟨hparts, hlines⟩ := ha
  refine ⟨?_, ?_, ?_⟩
  · rw [hlines k]; exact h.valid
  · rw [hlines k]; exact h.sound
  · rw [hparts]; exact h.noErr

theorem Block.holds.congr {b t : Block} {k n : Nat} (h : b.holds k n) (ha : t.arr = b.arr) : t.holds k n := by
  obtain ⟨hvalid, hsound, herr⟩ := h
  simp only [Block.line, ← ha] at hvalid hsound herr
  exact ⟨hvalid, hsound, herr⟩

theorem Block.count_arr (b : Block) (u : Nat × Nat) (code n : Nat) (c : Carry) : (b.count u code n c).arr = b.arr := by
  rw [(Block.countedTo_count b u code n c).1]

theorem Block.holds.dataRead {b : Block} {k n : Nat} (h : b.holds k n) : b.dataRead k n = (b, false) := by
  unfold Block.dataRead
  rw [h.noErr]
  rfl

theorem Block.holds.secVal {b : Block} {k n : Nat} (h : b.holds k n) : b.secVal k n = .data ((b.line k).dat.get n) false := by
  unfold Block.secVal
  rw [h.noErr]
  simp [h.sound]

/-- A read of one sector that holds data is answered with it. -/
theorem Block.readAccess_of_holds {b : Block} {c k : Nat} {r : Req} (pref : Option Nat) (hop : r.op = .rd64)
    (hk : b.findLine c r.dpa = some k) (h : b.holds k (r.dpa / 64 % 4)) : b.readAccess c r pref =
      ((b.touch k r).count (ctrSlice c) 2 1 r.carry).respond r (r.dpa / 64 % 4) stOK ((b.line k).dat.get (r.dpa / 64 % 4)) := by
  have hheld := h.aged (b.agedTo_touch k r)
  have hcounted := hheld.congr (Block.count_arr (b.touch k r) (ctrSlice c) 2 1 r.carry)
  have hdat : (((b.touch k r).count (ctrSlice c) 2 1 r.carry).line k).dat = (b.line k).dat := by
    rw [Block.line, Block.count_arr, ← Block.line, (b.agedTo_touch k r).2 k]
  have hst := hheld.valid
  have hne : ((b.touch k r).line k).st.get (r.dpa / 64 % 4) ≠ .i ∧ ((b.touch k r).line k).st.get (r.dpa / 64 % 4) ≠ .f := by
    rcases hst with e | e <;> simp [e]
  have hval := hcounted.secVal
  unfold Block.readAccess
  rw [hk, hop]
  simp only [show (ReqOp.rd64 == ReqOp.prefetch) = false from rfl, Bool.false_eq_true, if_false, opSectors, List.foldl_cons,
    List.foldl_nil, if_pos hst, hheld.dataRead, forEach_cons, forEach_nil, if_neg hne.1, if_neg hne.2, hval, hdat]
  have hmissing : [r.dpa / 64 % 4].filter (fun s => ((b.touch k r).line k).st.get s == .i) = [] := by
    simp [hne.1]
  rw [hmissing]
  rfl

/-- The beat that answers the one sector of a read with its data (R138, R140). -/
def Req.datum (r : Req) (sec : Nat) (d : BitVec 512) : Beat := { r.refusal stOK [sec] sec with data := d }

/-- A read of one sector that is the only request of its port is answered with data in one beat. -/
theorem Block.respond_lone_datum {b : Block} {r : Req} {o : Outst} {sec : Nat} (d : BitVec 512) (hp : r.src < 6) (hop : r.op = .rd64)
    (hout : (b.ports.get r.src).out = [o]) (hid : o.id = r.id) (ht : o.todo = [sec]) :
    ((b.respond r sec stOK d).ports.get r.src).out = []
    ∧ ((b.respond r sec stOK d).ports.get r.src).rsp.map Beat.undated
      = (b.ports.get r.src).rsp.map Beat.undated ++ [r.datum sec d] := by
  have hresp : b.respond r sec stOK d = (b.updPort r.src (fun q =>
      q.answered r { o with ready := o.ready.set sec (some (r.datum sec d)) })).flushPort r.src := by
    have hread : (decide (r.op = .wr64) || decide (r.op = .wrp)) = false := by simp [hop]
    simp only [Block.respond, if_pos hp, if_neg (show r.op ≠ .prefetch by simp [hop]), hread, Bool.false_eq_true, if_false]
    congr 1
    simp only [Block.updPort, Tab.upd, hout, updFirst]
    rw [if_pos (beq_iff_eq.mpr hid)]
    simp only [PortSt.answered, Req.datum, Req.refusal, hread, ht]
    rfl
  have hflush := flushOut_lone (o := { o with ready := o.ready.set sec (some (r.datum sec d)) }) ht
    (Tab.get_set_self o.ready sec (some (r.datum sec d))) (by simp)
  obtain ⟨-, hgone, hbeats⟩ := Block.flushPort_spec (b.updPort r.src (fun q =>
      q.answered r { o with ready := o.ready.set sec (some (r.datum sec d)) })) r.src
  rw [Block.get_updPort_self] at hgone hbeats
  rw [hresp]
  refine ⟨hgone.trans (congrArg Prod.fst hflush), hbeats.trans ?_⟩
  rw [PortSt.answered, hflush, List.map_append]
  rfl

/-- A read of DRAM through the cache goes to the arrays, where nothing older holds it (R209, R217, R225). -/
theorem Block.sliceAccess_read {b : Block} {c : Nat} {r : Req} (hop : r.op = .rd64) (harea : r.area = .dram) (hdirect : r.direct = false)
    (hscrub : b.scrub.line = none) (hwait : (b.slices.get c).wait = []) (hst : b.sliceState c = 0) (htags : b.soundTags c r.dpa)
    (hbehind : b.behindRefused c r = false) : b.sliceAccess c r = b.readAccess c r none := by
  have hgrant : b.scrubGranted r = b := by rw [Block.scrubGranted, hscrub]
  have hfree : b.waitsBehind c r = false := by rw [Block.waitsBehind, hwait]; rfl
  have htry : b.sliceTry c r none = b.readAccess c r none := by
    simp [Block.sliceTry, harea, hdirect, hst, Block.tagsRead_of_sound htags, hbehind, hop]
  simp [Block.sliceAccess, hgrant, harea, hop, hfree, htry]

section
variable {s : State} {c : Fin 16} {lag : Fin 65} {i t k : Nat} {r : Req} {rest : List Req} {o : Outst}

theorem exec_sliceGrant_read (hf : s.block.sliceFenced c = false) (hg : (s.block.slices.get c).grant = none)
    (ht : s.block.sliceTakes c = true) (hd : s.block.decide_ c lag (s.block.candidates c lag) = some (i, t))
    (hq : (s.block.slices.get c).q.get i = r :: rest) (hop : r.op = .rd64) :
    exec (.sliceGrant c ⟨.none, lag⟩) s
      = .next { s with block := (s.block.granted c lag i t r rest).sliceAccess c { r with owed := t == 4 } } := by
  have hneeds : ({ r with owed := t == 4 } : Req).needsData = false := by simp [Req.needsData, ReqOp.isWrite, hop]
  show Host.Outcome.next { s with block := s.block.arbitrate c lag } = _
  rw [Block.arbitrate_of_winner hf hg ht hd hq]
  dsimp only
  rw [if_neg (by simp [hneeds])]

/-- A granted read that hits is answered from the arrays (R217, R218, R220). -/
theorem Block.granted_readHit {b : Block} {c lag : Nat} (hc : c < 16) (hwait : (b.slices.get c).wait = []) (htags : b.soundTags c r.dpa)
    (hbehind : b.behindRefused c r = false) (hop : r.op = .rd64) (harea : r.area = .dram) (hdirect : r.direct = false)
    (hst : b.sliceState c = 0) (hscrub : b.scrub.line = none) (hk : b.findLine c r.dpa = some k) (h : b.holds k (r.dpa / 64 % 4)) :
    (b.granted c lag i t r rest).sliceAccess c { r with owed := t == 4 } =
      (((b.granted c lag i t r rest).touch k { r with owed := t == 4 }).count (ctrSlice c) 2 1 r.carry).respond
        { r with owed := t == 4 } (r.dpa / 64 % 4) stOK ((b.line k).dat.get (r.dpa / 64 % 4)) := by
  obtain ⟨hparts, hrd, -⟩ := b.chargedTo_granted c lag i t r rest hc
  have hslices := b.granted_slices c lag i t r rest hc c
  rw [if_pos rfl] at hslices
  have harr : (b.granted c lag i t r rest).arr = b.arr := by rw [hparts]; rfl
  have hscrub' : (b.granted c lag i t r rest).scrub = b.scrub := by rw [hparts]; rfl
  have hstate : (b.granted c lag i t r rest).sliceState c = 0 := by
    rw [← hst]
    exact hrd _ (by simp only [CCH_STATUS_STATE, Fld.key]; omega) (by simp only [CCH_STATUS_STATE, GLB_INT_PEND_PEND, Fld.key]; omega)
  have hways : (b.granted c lag i t r rest).scratchWays = b.scratchWays := hrd _ (by decide) (by decide)
  generalize b.granted c lag i t r rest = u at *
  have hfind : u.findLine c r.dpa = some k := by simpa only [Block.findLine, Block.line, harr, hways] using hk
  rw [Block.sliceAccess_read (b := u) (r := { r with owed := t == 4 }) hop harea hdirect (by rw [hscrub', hscrub]) (by rw [hslices, hwait])
    hstate (by simpa only [Block.soundTags, Block.line, harr] using htags) (by simpa only [Block.behindRefused, hslices] using hbehind),
    Block.readAccess_of_holds (r := { r with owed := t == 4 }) none hop hfind (h.congr harr), Block.line, harr]
  rfl

/-- A granted read that hits answers the data of its sector, and changes no sector and no tag. -/
theorem readHit_answers (hf : s.block.sliceFenced c = false) (hg : (s.block.slices.get c).grant = none)
    (hwait : (s.block.slices.get c).wait = []) (ht : s.block.sliceTakes c = true) (htags : s.block.soundTags c r.dpa)
    (hbehind : s.block.behindRefused c r = false) (hd : s.block.decide_ c lag (s.block.candidates c lag) = some (i, t))
    (hq : (s.block.slices.get c).q.get i = r :: rest) (hop : r.op = .rd64) (hp : r.src < 6) (harea : r.area = .dram)
    (hdirect : r.direct = false) (hst : s.block.sliceState c = 0) (hscrub : s.block.scrub.line = none)
    (hk : s.block.findLine c r.dpa = some k) (h : s.block.holds k (r.dpa / 64 % 4))
    (hout : (s.block.ports.get r.src).out = [o]) (hid : o.id = r.id) (htodo : o.todo = [r.dpa / 64 % 4])
    (hrsp : (s.block.ports.get r.src).rsp = []) :
    s.answers (.sliceGrant c ⟨.none, lag⟩) (fun b =>
      (∃ x : Beat, (b.ports.get r.src).rsp = [x] ∧ x.status = stOK ∧ x.data = (s.block.line k).dat.get (r.dpa / 64 % 4)
        ∧ x.tag = r.tag ∧ x.write = false ∧ x.last = true ∧ x.sector = r.dpa / 64 % 4)
      ∧ (b.ports.get r.src).out = []
      ∧ (∀ j n : Nat, (b.line j).st.get n = (s.block.line j).st.get n ∧ (b.line j).dat.get n = (s.block.line j).dat.get n
          ∧ (b.line j).tag = (s.block.line j).tag)
      ∧ (b.slices.get c).miss = (s.block.slices.get c).miss ∧ (b.slices.get c).wb = (s.block.slices.get c).wb
      ∧ b.arr.scratch = s.block.arr.scratch ∧ b.subs = s.block.subs) := by
  refine State.answers_next ((exec_sliceGrant_read hf hg ht hd hq hop).trans
    (by rw [Block.granted_readHit c.isLt hwait htags hbehind hop harea hdirect hst hscrub hk h])) ?_
  obtain ⟨hparts, -, -⟩ := s.block.chargedTo_granted c lag i t r rest c.isLt
  have hslices := s.block.granted_slices c lag i t r rest c.isLt c
  rw [if_pos rfl] at hslices
  have harr : (s.block.granted c lag i t r rest).arr = s.block.arr := by rw [hparts]; rfl
  have hports : (s.block.granted c lag i t r rest).ports = s.block.ports := by rw [hparts]; rfl
  have hsubs : (s.block.granted c lag i t r rest).subs = s.block.subs := by rw [hparts]; rfl
  generalize s.block.granted c lag i t r rest = g at *
  obtain ⟨haged, hlines⟩ := g.agedTo_touch k { r with owed := t == 4 }
  obtain ⟨hcounted, -⟩ := (g.touch k { r with owed := t == 4 }).countedTo_count (ctrSlice c) 2 1 r.carry
  generalize hu : (g.touch k { r with owed := t == 4 }).count (ctrSlice c) 2 1 r.carry = u at *
  have huports : u.ports = s.block.ports := by rw [hcounted, haged, hports]
  obtain ⟨hgone, hbeats⟩ := Block.respond_lone_datum (b := u) (r := { r with owed := t == 4 }) (sec := r.dpa / 64 % 4)
    ((s.block.line k).dat.get (r.dpa / 64 % 4)) hp hop (by rw [huports]; exact hout) hid htodo
  obtain ⟨hframe, -⟩ := u.answeredTo_respond { r with owed := t == 4 } (r.dpa / 64 % 4) stOK ((s.block.line k).dat.get (r.dpa / 64 % 4))
  generalize u.respond { r with owed := t == 4 } (r.dpa / 64 % 4) stOK ((s.block.line k).dat.get (r.dpa / 64 % 4)) = v at *
  have hvarr : v.arr = { s.block.arr with lines := (g.touch k { r with owed := t == 4 }).arr.lines } := by
    rw [hframe, hcounted, haged, harr]
  have hvslices : v.slices = g.slices := by rw [hframe, hcounted, haged]
  have hvlines (j : Nat) : v.line j = { s.block.line j with ea := (v.line j).ea, age := (v.line j).age } := by
    have hline : v.line j = (g.touch k { r with owed := t == 4 }).line j := by rw [Block.line, hvarr]; rfl
    rw [hline, hlines j, Block.line, harr]
    rfl
  have hlane : (u.ports.get r.src).rsp.map Beat.undated = [] := by rw [huports, hrsp]; rfl
  rw [hlane, List.nil_append] at hbeats
  obtain ⟨x, hx, hundated⟩ := List.map_eq_singleton_iff.mp hbeats
  refine ⟨⟨x, hx, congrArg Beat.status hundated, congrArg Beat.data hundated, congrArg Beat.tag hundated, ?_, ?_,
    congrArg Beat.sector hundated⟩, hgone, fun j n => ?_, ?_, ?_, ?_, ?_⟩
  · exact (congrArg Beat.write hundated).trans (by simp [Req.datum, Req.refusal, hop])
  · exact (congrArg Beat.last hundated).trans (by simp [Req.datum, Req.refusal])
  · rw [hvlines j]
    exact ⟨rfl, rfl, rfl⟩
  · rw [hvslices, hslices]
  · rw [hvslices, hslices]
  · rw [hvarr]
  · rw [hframe, hcounted, haged, hsubs]
end

end Sys2Proof.Machine
end

section
/-! SUPPORT. A grant whose sample record lies outside the sample buffer (R460, R461). -/

namespace Sys2Proof.Machine

open Reg

/-! ## A record outside the sample buffer -/

/-- A write of port 0 with a tag, and without its data beat. -/
def sampledWrite : Req := { (default : Req) with op := .wr64, tag := 1 }

/-- Counter 0 of slice 0 counts grants and samples them, a capture is pending, and the slice has the write queued. The next record
has the number 7,424, which no write leaves in the six bits of NEXT (`Block.rd_wr_self`), but which `State` admits: its first word
lies at 0x2C0000, the first offset after the performance counters. -/
def sampleBlock (draws : Nat) : Block := { (default : Block) with
  regs := [(CTR_SAMPLE_WR_NEXT.key, 7425)]
  work := fldSet (fldSet (fldSet [] (CTR_CFG_ENABLE 432) 1) (CTR_CFG_EVENT 432) 1) (CTR_CFG_SAMPLE 432) 1
  ctr := { (default : CtrSt) with capt := [(432, 1)] }
  slices := [(0, { (default : SliceSt) with q := [(0, [sampledWrite])] })], fresh := draws }

theorem sampleBlock_decides (i : Nat) : (sampleBlock i).candidates 0 0 = [(0, sampledWrite)]
    ∧ (sampleBlock i).decide_ 0 0 ((sampleBlock i).candidates 0 0) = some (0, 2) := by
  have hcand : (sampleBlock i).candidates 0 0 = (sampleBlock 0).candidates 0 0 := rfl
  have hdec (l : List (Nat × Req)) : (sampleBlock i).decide_ 0 0 l = (sampleBlock 0).decide_ 0 0 l := rfl
  rw [hcand, hdec]
  decide +kernel

/-- The block as the grant counts it. -/
def sampleTaken (i : Nat) : Block :=
  (((sampleBlock i).demandSeen [0]).headTaken 0 0 2 []).othersCounted 0 (((sampleBlock i).candidates 0 0).filter (fun e => e.1 != 0))

theorem Block.ctrPasses_of_disabled {b : Block} {n : Nat} (h : b.wk (CTR_CFG_ENABLE n) = 0) (code : Nat) (c : Carry) :
    b.ctrPasses n code c = false := by
  simp [Block.ctrPasses, h]

/-- Where one counter of a unit counts an event, a count of the event is its increment. -/
theorem Block.count_of_first {b : Block} {n m : Nat} {code amount : Nat} {c : Carry} (hn : n % 2 = 0)
    (hp : b.ctrPasses n code c = true) (hw : (b.ctrAdd n amount c).work = b.work)
    (hoff : ∀ k < m, b.wk (CTR_CFG_ENABLE (n + (k + 1))) = 0) : b.count (n, m + 1) code amount c = b.ctrAdd n amount c := by
  unfold Block.count
  rw [List.range_succ_eq_map, forEach_cons]
  dsimp only
  rw [if_neg (by simp [hn]), Nat.add_zero, if_pos hp]
  refine forEach_fixed _ _ _ (fun k hk => ?_)
  obtain ⟨j, hj, rfl⟩ := List.mem_map.mp hk
  have hdis : (b.ctrAdd n amount c).wk (CTR_CFG_ENABLE (n + (j + 1))) = 0 := by rw [Block.wk, hw]; exact hoff j (List.mem_range.mp hj)
  simp [Block.ctrPasses_of_disabled hdis]


/-- A counter that has a capture pending tries it at each increment of a transfer. -/
theorem Block.ctrAdd_of_pending {b : Block} {n k amount : Nat} {c : Carry} (hx : b.ctrExceeds n amount = false)
    (hch : b.ctrChained n = false) (hk : b.ctr.capt.get n = k + 1)
    (hs : (b.wk (CTR_CFG_SAMPLE n) != 0 && c.master.isSome && decide (ctrGroup n ≤ 2)) = true) :
    b.ctrAdd n amount c =
      ({ b with ctr := { b.ctr with live := b.ctr.live.set n ((b.ctr.live.get n + amount) % 2 ^ 48) } }).ctrCapture n (k + 1) c := by
  have hch' (x : CtrSt) : ({ b with ctr := x } : Block).ctrChained n = false := hch
  have hs' (x : CtrSt) :
      (({ b with ctr := x } : Block).wk (CTR_CFG_SAMPLE n) != 0 && c.master.isSome && decide (ctrGroup n ≤ 2)) = true := hs
  unfold Block.ctrAdd
  simp only [hx, hch', hs', hk, Bool.false_and, Bool.false_eq_true, if_false, if_true]

/-- A capture that finds the reader free writes its record. -/
theorem Block.ctrCapture_of_free {b : Block} (n skid : Nat) (c : Carry) (h : Config.captureBusy b.fresh = false) :
    b.ctrCapture n skid c =
      ({ b with fresh := b.fresh + 1, ctr := { b.ctr with capt := b.ctr.capt.set n 0 } } : Block).ctrRecord n skid c := by
  unfold Block.ctrCapture Block.draw
  simp only [h, Bool.false_eq_true, if_false]

/-- The first word of a record is the low half of the tag (R461). -/
theorem Block.rd_ctrRecord_tag {b : Block} {i : Nat} (n skid : Nat) (c : Carry) (hi : b.rd CTR_SAMPLE_WR_NEXT = i) :
    (b.ctrRecord n skid c).rd (CTR_SAMPLE_WORD i 0) = c.tag % 2 ^ 32 := by
  have hword {t : Block} {g : Fld} (v : Nat) (hg : g = CTR_SAMPLE_WR_NEXT ∨ g = CTR_SAMPLE_WR_WRAPS) :
      (t.wr g v).rd (CTR_SAMPLE_WORD i 0) = t.rd (CTR_SAMPLE_WORD i 0) :=
    Block.rd_wr_of_ne _ _ _ _ (by
      rcases hg with rfl | rfl <;> simp only [CTR_SAMPLE_WORD, CTR_SAMPLE_WR_NEXT, CTR_SAMPLE_WR_WRAPS, Fld.key] <;> omega)
  have hwords (v : Nat → Nat) :
      (forEach (List.range 8) b (fun u j => u.wr (CTR_SAMPLE_WORD i j) (v j))).rd (CTR_SAMPLE_WORD i 0) = v 0 % 2 ^ 32 := by
    rw [List.range_succ_eq_map, forEach_cons]
    refine forEach_inv (fun t : Block => t.rd (CTR_SAMPLE_WORD i 0) = v 0 % 2 ^ 32) _ _ _ (fun t j hj ht => ?_) (Block.rd_wr_self ..)
    obtain ⟨m, -, rfl⟩ := List.mem_map.mp hj
    exact (Block.rd_wr_of_ne _ _ _ _ (by simp only [CTR_SAMPLE_WORD, Fld.key]; omega)).trans ht
  have hrec (v : Nat → Nat) := (hword ((i + 1) % 64) (.inl rfl)).trans (hwords v)
  unfold Block.ctrRecord
  dsimp only
  rw [hi]
  split
  · rw [hword _ (.inr rfl), hrec]
    simp
  · rw [hrec]
    simp

/-- Where one counter of a unit counts an event, has a capture pending and finds the reader free, the event writes the next record. -/
theorem Block.count_recorded {b : Block} {n m k code amount i : Nat} {c : Carry} (hn : n % 2 = 0) (hp : b.ctrPasses n code c = true)
    (hoff : ∀ j < m, b.wk (CTR_CFG_ENABLE (n + (j + 1))) = 0) (hx : b.ctrExceeds n amount = false) (hch : b.ctrChained n = false)
    (hk : b.ctr.capt.get n = k + 1) (hs : (b.wk (CTR_CFG_SAMPLE n) != 0 && c.master.isSome && decide (ctrGroup n ≤ 2)) = true)
    (hfree : Config.captureBusy b.fresh = false) (hi : b.rd CTR_SAMPLE_WR_NEXT = i) :
    (b.count (n, m + 1) code amount c).rd (CTR_SAMPLE_WORD i 0) = c.tag % 2 ^ 32 := by
  have hwork : (b.ctrAdd n amount c).work = b.work := by rw [(Block.countedTo_ctrAdd (Block.countedTo_refl b) n amount c).1]
  rw [Block.count_of_first hn hp hwork hoff, Block.ctrAdd_of_pending hx hch hk hs]
  refine (congrArg (fun t : Block => t.rd (CTR_SAMPLE_WORD i 0)) (Block.ctrCapture_of_free _ _ _ ?_)).trans
    (Block.rd_ctrRecord_tag _ _ _ ?_)
  · exact hfree
  · exact hi

theorem sampleTaken_eq (i : Nat) : sampleTaken i = { sampleTaken 0 with fresh := i } := rfl

/-- Counter 0 of the slice counts the grant and has a capture pending, and no other counter of the slice counts. -/
theorem sampleTaken_counts : (sampleTaken 0).ctrPasses 432 1 sampledWrite.carry = true
    ∧ (∀ k < 5, (sampleTaken 0).wk (CTR_CFG_ENABLE (432 + (k + 1))) = 0) ∧ (sampleTaken 0).ctrExceeds 432 1 = false
    ∧ (sampleTaken 0).ctrChained 432 = false ∧ (sampleTaken 0).ctr.capt.get 432 = 0 + 1
    ∧ ((sampleTaken 0).wk (CTR_CFG_SAMPLE 432) != 0 && sampledWrite.carry.master.isSome && decide (ctrGroup 432 ≤ 2)) = true
    ∧ (sampleTaken 0).rd CTR_SAMPLE_WR_NEXT = 7424
    ∧ (sampleTaken 0).reguEntry false (tagMaster sampledWrite.tag) = none := by
  decide +kernel

/-- Where captures find the reader free, the grant writes the tag of the write after the sample buffer. -/
theorem sampleTaken_count {i : Nat} (hfree : Config.captureBusy i = false) :
    ((sampleTaken i).count (ctrSlice 0) 1 1 sampledWrite.carry).rd (CTR_SAMPLE_WORD 7424 0) = 1 := by
  obtain ⟨hpass, hoff, hx, hch, hk, hs, hnext, -⟩ := sampleTaken_counts
  rw [sampleTaken_eq]
  generalize sampleTaken 0 = u at *
  exact Block.count_recorded (b := { u with fresh := i }) (m := 5) rfl hpass hoff hx hch hk hs hfree hnext

/-- No entry of the regulator stands for the write. -/
theorem sampleTaken_regu (i : Nat) :
    ((sampleTaken i).count (ctrSlice 0) 1 1 sampledWrite.carry).reguGrant sampledWrite false =
      (sampleTaken i).count (ctrSlice 0) 1 1 sampledWrite.carry := by
  obtain ⟨-, -, -, -, -, -, -, hentry⟩ := sampleTaken_counts
  rw [sampleTaken_eq]
  generalize sampleTaken 0 = u at *
  have hnone : (({ u with fresh := i } : Block).count (ctrSlice 0) 1 1 sampledWrite.carry).entryOf sampledWrite = none := by
    rw [Block.entryOf_congr (Block.count_work ..)]
    exact hentry
  unfold Block.reguGrant
  rw [hnone]

/-- So does the grant of the slice. -/
theorem sampleBlock_recorded {i : Nat} (hfree : Config.captureBusy i = false) :
    (((sampleBlock i).granted 0 0 0 2 sampledWrite []).inputHeld 0 sampledWrite).rd (CTR_SAMPLE_WORD 7424 0) = 1 := by
  have hgranted : (sampleBlock i).granted 0 0 0 2 sampledWrite [] =
      (((sampleTaken i).count (ctrSlice 0) 1 1 sampledWrite.carry).reguGrant sampledWrite false).demandSeen [0] := rfl
  rw [Block.inputHeld, Block.rd_updSlice, hgranted, sampleTaken_regu, Block.demandSeen_parts, Block.rd_mk]
  exact sampleTaken_count hfree

end Sys2Proof.Machine
end

section
/-! SUPPORT. Grants, cut-offs and hits together. -/

namespace Sys2Proof

open Machine Machine.Reg

/-- What leaves O27 open: where a capture finds the reader free, the grant of the block with that draw writes its record outside the
registers that a counted event may change. -/
theorem captureBusy_of_grantsHitsAndCutoffs (h : Obligations.GrantsHitsAndCutoffs) (i : Nat) : Config.captureBusy i = true := by
  by_contra hbusy
  have hfree : Config.captureBusy i = false := by simpa using hbusy
  obtain ⟨-, hd⟩ := sampleBlock_decides i
  obtain ⟨hgrant, -, -⟩ := h ⟨sampleBlock i, []⟩ 0
  have hexec := exec_sliceGrant_write (s := ⟨sampleBlock i, []⟩) (c := 0) (lag := 0) (rest := []) .none rfl rfl rfl hd rfl rfl rfl
  obtain ⟨t, hnext, -, -, -, -, -, -, -, -, hregs⟩ := hgrant .none 0 0 2 sampledWrite [] rfl rfl rfl hd rfl rfl rfl (by decide)
  obtain rfl := Host.Outcome.next.inj (hexec.symm.trans hnext)
  have hkept := hregs (CTR_SAMPLE_WORD 7424 0) List.not_mem_nil (by decide) (by decide)
  exact absurd ((sampleBlock_recorded hfree).symm.trans hkept) (show (1 : Nat) ≠ 0 from one_ne_zero)

/-- O27 is left open. It holds exactly when every sample capture finds the reader busy: `Config.captureBusy` is opaque, and `State`
admits a CTR_SAMPLE_WR_NEXT above 63. Its clauses on cut-offs and on hits hold of every state (`arbCutoff_answers`,
`readHit_answers`), and its clause on grants of every state with CTR_SAMPLE_WR_NEXT < 64 (`writeGrant_answers`). -/
theorem grantsHitsAndCutoffs_iff : Obligations.GrantsHitsAndCutoffs ↔ ∀ i, Config.captureBusy i = true := by
  refine ⟨captureBusy_of_grantsHitsAndCutoffs, fun hbusy s c => ⟨?_, ?_, ?_⟩⟩
  · intro up lag i t r rest hf hg ht hd hq hw hdata _
    exact writeGrant_answers (.inr hbusy) up hf hg ht hd hq hw hdata
  · intro r o hg hp hop hout hid htodo hrsp _
    exact arbCutoff_answers hg hp hop hout hid htodo hrsp
  · intro lag i t k r rest o hf hg hwait ht htags hbehind hd hq hop hp harea hdirect _ hst hscrub hk hvalid hbad herr hout hid htodo
      hrsp
    exact readHit_answers hf hg hwait ht htags hbehind hd hq hop hp harea hdirect hst hscrub hk ⟨hvalid, hbad, herr⟩ hout hid
      htodo hrsp

end Sys2Proof
end

section
/-! SUPPORT. The statements of the chapter on slice arbitration, settled. -/

namespace Sys2Proof

open Machine Machine.Reg

/-- Settles O28: the commit writes each level in use from its shadow, and of the cut-offs of a new limit each frees the input of the
slice that the mask names, and none changes LIMIT. -/
theorem arbiterSettingsTakeEffect : Obligations.ArbiterSettingsTakeEffect := by
  intro s role
  refine ⟨fun hg => State.answers_mono (arbCommit_answers hg) (fun b => ?_), fun limit mask hg => holdLimitWrite_answers mask hg⟩
  rintro ⟨hlevels, hwrote, hparts⟩
  simp only [precFields, List.forall_mem_cons] at hlevels
  obtain ⟨hscrub, hkeeper, htender, hp5, hp4, hp3, -⟩ := hlevels
  exact ⟨hscrub, hkeeper, htender, hp5, hp4, hp3, hwrote, hparts⟩

end Sys2Proof
end

section
/-! SUPPORT. Reads and writes that a slice passes to the queue of their subchannel (R207 to R209, R222, R250, R374). -/

namespace Sys2Proof.Machine

open Reg

/-! ## Reads (R207, R250) -/

/-- A read may go into its queue when that holds fewer entries than the buoy of its class. -/
theorem Block.rq_below_buoy_of_readReady {b : Block} {c : Nat} {x : Miss} (h : b.readReady c x = 2) :
    (b.subs.get (b.routeSub x.route)).rq.length < b.buoyRd x.cls x.owed := by
  unfold Block.readReady at h
  dsimp only at h
  split at h
  · cases h
  split at h
  · cases h
  · cases h
  split at h
  · cases h
  split at h
  · omega
  · cases h

/-- The entry of a read in the queue of its subchannel (R249, R251). -/
def Block.rdEntry (b : Block) (c : Nat) (x : Miss) : RdEnt :=
  { slice := c, miss := x.id, at_ := b.routeCoord x.route, cls := x.cls, owed := x.owed, deadline := x.deadline, src := x.source
    arrival := (b.subs.get (b.routeSub x.route)).slot, worked := false, replayed := false
    counts := !x.merges && x.src != 9 && x.src != 10 }

/-- The only read of slice `c` joins the queue of its subchannel, and stays in the slice as queued. -/
def Block.readQueued (b : Block) (c : Nat) (x : Miss) : Block :=
  (b.updSlice c (fun q => { q with
    miss := updFirst (fun y => y.id == x.id) (fun y => { y with queued := true, joined := none }) q.miss })).updSub
      (b.routeSub x.route) (fun u => { u with rq := u.rq ++ [b.rdEntry c x] })

/-- A read passes into the queue, where no write entry and no queued read of its slice is its own codeword (R251, R255). -/
theorem Block.passRead_of_alone {b : Block} {c : Nat} {x : Miss} (hm : (b.slices.get c).miss = [x])
    (hw : (b.subs.get (b.routeSub x.route)).wq = []) : b.passRead c x false = b.readQueued c x := by
  unfold Block.passRead
  simp only [hm, hw, List.filter_nil, List.getLast?_nil, List.find?_cons, List.find?_nil, bne_self_eq_false, Bool.and_false,
    Bool.false_and, Bool.false_eq_true, if_false]
  rfl

theorem Block.insertRead_of_ready {b : Block} {c : Nat} {x : Miss} (hm : (b.slices.get c).miss = [x]) (hr : b.readReady c x = 2)
    (hw : (b.subs.get (b.routeSub x.route)).wq = []) : b.insertRead c false = b.readQueued c x := by
  rw [← Block.passRead_of_alone hm hw]
  simp [Block.insertRead, hm, hr]

/-- A read at its buoy is counted, and waits (R207, R446). -/
theorem Block.insertRead_of_buoy {b : Block} {c : Nat} {x : Miss} (hm : (b.slices.get c).miss = [x]) (hr : b.readReady c x = 1) :
    b.insertRead c false =
      b.count (ctrSlice c) 8 1 { (default : Carry) with tc := if x.cls < 8 then some x.cls else none } := by
  simp [Block.insertRead, hm, hr]

theorem Block.readQueued_miss {b : Block} {c : Nat} {x : Miss} (hm : (b.slices.get c).miss = [x]) :
    ((b.readQueued c x).slices.get c).miss = [{ x with queued := true, joined := none }] := by
  have hslice : (b.readQueued c x).slices.get c = { b.slices.get c with
      miss := updFirst (fun y => y.id == x.id) (fun y => { y with queued := true, joined := none }) (b.slices.get c).miss } :=
    Tab.get_set_self ..
  rw [hslice, hm]
  simp [updFirst]

theorem Block.readQueued_rq (b : Block) (c : Nat) (x : Miss) : ((b.readQueued c x).subs.get (b.routeSub x.route)).rq =
    (b.subs.get (b.routeSub x.route)).rq ++ [b.rdEntry c x] :=
  congrArg SubSt.rq (Tab.get_set_self ..)

/-! ## Writes (R222, R250, R374) -/

/-- The entry of a write in the write queue of its subchannel, with the codeword `code`. -/
def Block.wrEntry (b : Block) (w : WriteBack) (code : BitVec 1280) : WrEnt :=
  { at_ := b.routeCoord w.route, cls := w.cls, owed := w.owed, src := w.source, arrival := (b.subs.get (b.routeSub w.route)).slot
    code := code, dpa := w.dpa, issued := none, counts := true, worked := false, replayed := false
    mnt := if w.mnt = 0 then [] else [w.mnt] }

/-- `t` has the slices and the subchannels of `b`. -/
def Block.keepsQueues (b t : Block) : Prop := t.slices = b.slices ∧ t.subs = b.subs

theorem Block.keepsQueues.trans {b t u : Block} (h : b.keepsQueues t) (h' : t.keepsQueues u) : b.keepsQueues u :=
  ⟨h'.1.trans h.1, h'.2.trans h.2⟩

theorem Block.keepsQueues_ite {b t u : Block} (p : Prop) [Decidable p] (ht : b.keepsQueues t) (hu : b.keepsQueues u) :
    b.keepsQueues (if p then t else u) := by
  split
  · exact ht
  · exact hu

theorem Block.keepsQueues_respond (b : Block) (r : Req) (sec status : Nat) (data : BitVec 512) :
    b.keepsQueues (b.respond r sec status data) := by
  obtain ⟨hparts, -⟩ := b.answeredTo_respond r sec status data
  generalize b.respond r sec status data = t at *
  exact ⟨by rw [hparts], by rw [hparts]⟩

theorem Block.keepsQueues_scrubStale (b : Block) (p : Route → Bool) (sec : Nat) : b.keepsQueues (b.scrubStale p sec) :=
  Block.keepsQueues_ite _ ⟨rfl, rfl⟩ ⟨rfl, rfl⟩

/-- A write that has left its slice tells the other side of its mirror; else it leaves slices and subchannels. -/
theorem Block.wbResolve_queues (b : Block) (c : Nat) (w : WriteBack) (accepted : Bool) : ∃ f : List Miss → List Miss,
    (b.updSlice c (fun q => { q with
      wb := updFirst (fun v => v.id == w.id) (fun v => { v with sib := if accepted then 1 else 2 }) q.wb
      miss := f q.miss })).keepsQueues (b.wbResolve c w accepted) := by
  unfold Block.wbResolve
  extract_lets code same tell q waiting told _ mirrored freed counted noted
  refine ⟨fun l => l.map tell, ?_⟩
  have hmirrored : told.keepsQueues mirrored := ⟨rfl, rfl⟩
  have hfreed : told.keepsQueues freed := by
    unfold freed
    split
    · exact hmirrored.trans ⟨rfl, rfl⟩
    · exact hmirrored
  have hcounted : told.keepsQueues counted := hfreed.trans (Block.keepsQueues_ite _ ⟨rfl, rfl⟩ ⟨rfl, rfl⟩)
  have hnoted : told.keepsQueues noted := hcounted.trans
    (Block.keepsQueues_ite _ ⟨rfl, rfl⟩ (Block.keepsQueues_ite _ ⟨rfl, rfl⟩ (Block.keepsQueues_ite _ ⟨rfl, rfl⟩ ⟨rfl, rfl⟩)))
  refine Block.keepsQueues_ite _ hnoted ?_
  change told.keepsQueues _
  split
  · exact hnoted.trans (Block.keepsQueues_respond ..)
  · exact hnoted

/-- The codeword of a write to an independent subchannel is the encoding of its data, or poison (R374). -/
theorem Block.writeWord_of_independent {b : Block} {s : Nat} (h : b.chLockstep (s / 2) = false) (w : WriteBack)
    (other : BitVec 512 × Bool) : b.writeWord s w other =
      BitVec.ofNat 1280 (if w.poison then poisonWord false else encodeData false w.data.toNat) := by
  simp [Block.writeWord, h]

/-- A write joins the write queue of its subchannel, where that is empty (R250). -/
def Block.wrQueued (b : Block) (w : WriteBack) (code : BitVec 1280) : Block :=
  b.updSub (b.routeSub w.route) (fun u => { u with wq := [b.wrEntry w code] })

/-- A write accepted from a slice with no other write joins the empty write queue of its subchannel, and the slice holds none. -/
theorem Block.acceptWrite_queues {b : Block} {c : Nat} (w : WriteBack) (other : BitVec 512 × Bool) (hwb : (b.slices.get c).wb = [])
    (hw : (b.subs.get (b.routeSub w.route)).wq = []) :
    ((b.acceptWrite c w other false).subs.get (b.routeSub w.route)).wq = [b.wrEntry w (b.writeWord (b.routeSub w.route) w other)]
    ∧ ((b.acceptWrite c w other false).slices.get c).wb = [] := by
  have hqueued : b.acceptWrite c w other false =
      let t := b.wrQueued w (b.writeWord (b.routeSub w.route) w other)
      (if w.src = 8 then t else t.scrubStale (fun r => r.sector w.sec == w.route) w.sec).wbResolve c w true := by
    have hsub (t : Block) (f g : SubSt → SubSt) (s : Nat) (h : f (t.subs.get s) = g (t.subs.get s)) : t.updSub s f = t.updSub s g := by
      rw [Block.updSub, Tab.upd, h]
      rfl
    unfold Block.acceptWrite
    dsimp only
    rw [if_neg Bool.false_ne_true, hsub b _ (fun u => { u with wq := [b.wrEntry w (b.writeWord (b.routeSub w.route) w other)] })]
    · rfl
    · simp only [hw, List.any_nil, Bool.false_eq_true, if_false]
      rfl
  obtain ⟨hslices, hsubs⟩ := Block.keepsQueues_ite (b := b.wrQueued w (b.writeWord (b.routeSub w.route) w other)) (w.src = 8)
    ⟨rfl, rfl⟩ (Block.keepsQueues_scrubStale _ (fun r => r.sector w.sec == w.route) w.sec)
  rw [hqueued]
  dsimp only
  generalize (if w.src = 8 then _ else _ : Block) = t at *
  obtain ⟨f, hslices', hsubs'⟩ := t.wbResolve_queues c w true
  have hempty : (t.slices.get c).wb = [] := by
    rw [hslices]
    exact hwb
  refine ⟨?_, ?_⟩
  · rw [hsubs', Block.updSlice_subs, hsubs]
    exact congrArg SubSt.wq (Tab.get_set_self ..)
  · rw [hslices']
    exact (congrArg SliceSt.wb (Tab.get_set_self ..)).trans (congrArg (updFirst _ _) hempty)

theorem Block.takeWb_wb {b : Block} {c : Nat} {w : WriteBack} (hm : (b.slices.get c).wb = [w]) :
    ((b.takeWb c w).slices.get c).wb = [] := by
  refine (congrArg SliceSt.wb (Tab.get_set_self ..)).trans ?_
  simp [hm]

/-- A slice passes its only write: it joins the empty write queue of its subchannel with its codeword (R250, R374). -/
theorem Block.insertWrite_of_ready {b : Block} {c : Nat} {w : WriteBack} (hm : (b.slices.get c).wb = [w]) (hr : b.writeReady c w = 2)
    (hlock : b.chLockstep (b.routeSub w.route / 2) = false) (hw : (b.subs.get (b.routeSub w.route)).wq = []) :
    ((b.insertWrite c false).subs.get (b.routeSub w.route)).wq =
      [b.wrEntry w (BitVec.ofNat 1280 (if w.poison then poisonWord false else encodeData false w.data.toNat))]
    ∧ ((b.insertWrite c false).slices.get c).wb = [] := by
  have hpass : b.insertWrite c false = (b.takeWb c w).acceptWrite c w (0, false) false := by
    simp [Block.insertWrite, hm, hr, Block.passWb, hlock]
  have hqueues := Block.acceptWrite_queues (b := b.takeWb c w) w (0, false) (Block.takeWb_wb hm) hw
  have hword := Block.writeWord_of_independent (b := b.takeWb c w) (s := b.routeSub w.route) hlock w (0, false)
  rw [hpass, ← hword]
  exact hqueues

end Sys2Proof.Machine
end

section
/-! SUPPORT. A write of a whole sector that waited for a way (R225, R228): the way it takes, and what it leaves there. -/

namespace Sys2Proof.Machine

open Reg

/-- The tag of an address is that of its line. -/
theorem cacheTag_line (a : Nat) : cacheTag (a / 256 * 256) = cacheTag a := by
  simp only [cacheTag, bitsOf, Nat.shiftRight_eq_div_pow]
  congr 1
  omega

/-- Line `k` holds nothing, and nothing of it is on its way (R225). -/
structure Block.vacant (b : Block) (k : Nat) : Prop where
  absent : (b.line k).st = []
  stays : (b.line k).going = false
  settled : (b.line k).wbLeft = 0
  unasked : (b.slices.get (keySlice k)).wait = []

/-- A request passes over the recency order (R223, R224). -/
def Req.streams (r : Req) : Bool := r.op == .prefetch || (decide (r.src < 6) && tagStream r.tag)

/-- The way of a vacant line is free, and goes to the request that waited for it (R225). -/
theorem Block.allocate_of_vacant {b : Block} {c k : Nat} {r : Req} (hv : b.vacant k) (pinned ea : Bool) :
    b.allocate c r pinned ea (some k) = (b.takeWay k r false ea r.streams, some k) := by
  obtain ⟨habsent, hstays, hsettled, hunasked⟩ := hv
  have hfree : (!(b.line k).present && !b.wayBusy k) = true := by
    simp [Line.present, Block.wayBusy, habsent, hstays, hsettled, hunasked]
  exact if_pos hfree

/-- A whole write that no line answers and that waited for a vacant way takes it (R219, R225, R228). -/
theorem Block.writeAccess_of_vacant {b : Block} {c k : Nat} {r : Req} (hop : r.op = .wr64) (hmiss : b.findLine c r.dpa = none)
    (hst : b.sliceState c = 0) {ea : Bool} (hhow : b.allocOf r = .normal ea) (hv : b.vacant k) : b.writeAccess c r (some k) =
      ((b.takeWay k r false ea r.streams).writeSec c k (r.dpa / 64 % 4) r.data).respond r (r.dpa / 64 % 4)
        r.data.status 0 := by
  have hempty : r.empty = false := by simp [Req.empty, hop]
  have hwhole : r.whole = true := by simp [Req.whole, hop]
  have hplace : b.placeLine c r (some k) = (b.takeWay k r false ea r.streams, some (some k)) := by
    simp [Block.placeLine, hst, hhow, Block.allocate_of_vacant hv]
  unfold Block.writeAccess
  simp [hempty, hwhole, hmiss, hplace]

/-- The only request that waits in a slice is tried again alone (R225). -/
theorem Block.retryWaits_alone {b : Block} {c : Nat} {r : Req} {pref : Option Nat}
    (hw : (b.slices.get c).wait = [(r, pref)]) : b.retryWaits c = (b.updSlice c (fun q => { q with wait := [] })).sliceTry c r pref := by
  have hbehind : (b.updSlice c (fun q => { q with wait := [] })).waitsBehind c r = false := by
    have hnone : ((b.updSlice c (fun q => { q with wait := [] })).slices.get c).wait = [] :=
      congrArg SliceSt.wait (Tab.get_set_self ..)
    rw [Block.waitsBehind, hnone]
    rfl
  unfold Block.retryWaits
  rw [hw]
  dsimp only
  rw [forEach_cons, forEach_nil, hbehind]
  rfl

/-- A write to memory through a slice in NORMAL goes to the arrays, where the tags are sound and nothing older holds it. -/
theorem Block.sliceTry_write {b : Block} {c : Nat} {r : Req} (pref : Option Nat) (hop : r.op = .wr64) (harea : r.area = .dram)
    (hdirect : r.direct = false) (hst : b.sliceState c = 0) (htags : b.soundTags c r.dpa) (hbehind : b.behindRefused c r = false) :
    b.sliceTry c r pref = b.writeAccess c r pref := by
  simp [Block.sliceTry, harea, hdirect, hst, Block.tagsRead_of_sound htags, hbehind, hop]

/-- The line that a request takes is its own, in the cache set of its address, with every sector in I (R223, R225). -/
theorem Block.takeWay_line (b : Block) (k : Nat) (r : Req) (pinned ea stream : Bool) :
    ((b.takeWay k r pinned ea stream).line k).tag = cacheTag r.dpa ∧ ((b.takeWay k r pinned ea stream).line k).st = []
    ∧ ∀ j, j ≠ k → ((b.takeWay k r pinned ea stream).line j).st = (b.line j).st
        ∧ ((b.takeWay k r pinned ea stream).line j).dat = (b.line j).dat := by
  unfold Block.takeWay
  extract_lets old base _ t
  obtain ⟨-, haged⟩ := t.agedTo_moveAge k (if stream then 15 else 0)
  refine ⟨?_, ?_, fun j hj => ?_⟩
  · rw [haged, Block.line_updLine, if_pos rfl]
    exact cacheTag_line _
  · rw [haged, Block.line_updLine, if_pos rfl]
    rfl
  · rw [haged, Block.line_updLine, if_neg hj]
    exact ⟨rfl, rfl⟩

/-- A request that takes a way leaves the queues of the slices. -/
theorem Block.takeWay_slices (b : Block) (k : Nat) (r : Req) (pinned ea stream : Bool) :
    (b.takeWay k r pinned ea stream).slices = b.slices := by
  unfold Block.takeWay
  extract_lets old base _ t
  obtain ⟨hparts, -⟩ := t.agedTo_moveAge k (if stream then 15 else 0)
  rw [hparts]
  rfl

theorem Block.line_writeCell (b : Block) (k sec : Nat) (st : Sec) (data : BitVec 512) (bad : Bool) (j : Nat) :
    (b.writeCell k sec st data bad).line j = if j = k then
        { b.line k with st := (b.line k).st.set sec st, dat := (b.line k).dat.set sec data, bad := (b.line k).bad.set sec bad }
      else b.line j :=
  Block.line_updLine b k j
    (fun l => { l with st := l.st.set sec st, dat := l.dat.set sec data, bad := l.bad.set sec bad })

/-- A whole write of good data to a sector that waits for no fill leaves it dirty, with the data (R228). -/
theorem Block.writeSec_of_good {b : Block} {c k sec : Nat} {w : WData} (hf : (b.line k).st.get sec ≠ .f) (hw : w.bad = false) :
    (b.writeSec c k sec w).slices = b.slices
    ∧ (b.writeSec c k sec w).line k = { b.line k with
        st := (b.line k).st.set sec .d, dat := (b.line k).dat.set sec w.data, bad := (b.line k).bad.set sec false }
    ∧ ∀ j, j ≠ k → (b.writeSec c k sec w).line j = b.line j := by
  have hsec : b.writeSec c k sec w = b.writeCell k sec .d w.data false := by
    unfold Block.writeSec
    rw [if_neg hf, hw]
    rfl
  rw [hsec]
  refine ⟨rfl, ?_, fun j hj => ?_⟩
  · rw [Block.line_writeCell, if_pos rfl]
  · rw [Block.line_writeCell, if_neg hj]

/-- What a retried write of a whole sector leaves, where the way it waited for is vacant (R225, R228). -/
theorem Block.retryWaits_write {b t : Block} {c k : Nat} {r : Req} {w : WData} (hwait : (b.slices.get c).wait = [(r, some k)])
    (hop : r.op = .wr64) (harea : r.area = .dram) (hdirect : r.direct = false) (hdata : r.wdata = [w]) (hbad : w.bad = false)
    (hst : b.sliceState c = 0) (htags : b.soundTags c r.dpa) (hbehind : b.behindRefused c r = false)
    (hmiss : b.findLine c r.dpa = none) (hhow : b.allocOf r = .normal false) (hk : keySlice k = c) (habsent : (b.line k).st = [])
    (hstays : (b.line k).going = false) (hsettled : (b.line k).wbLeft = 0) (ht : b.retryWaits c = t) :
    t.slices = (b.updSlice c (fun q => { q with wait := [] })).slices
    ∧ (t.line k).tag = cacheTag r.dpa ∧ (t.line k).st = Tab.set [] (r.dpa / 64 % 4) .d
    ∧ (t.line k).dat.get (r.dpa / 64 % 4) = w.data
    ∧ ∀ j, j ≠ k → (t.line j).st = (b.line j).st ∧ (t.line j).dat = (b.line j).dat := by
  have hdatum : r.data = w := by rw [Req.data, hdata]; rfl
  rw [Block.retryWaits_alone hwait] at ht
  have hslice : ((b.updSlice c (fun q => { q with wait := [] })).slices.get c) = { b.slices.get c with wait := [] } :=
    Tab.get_set_self ..
  have hlines (j : Nat) : (b.updSlice c (fun q => { q with wait := [] })).line j = b.line j := rfl
  have hstate : (b.updSlice c (fun q => { q with wait := [] })).sliceState c = 0 := hst
  have hsound : (b.updSlice c (fun q => { q with wait := [] })).soundTags c r.dpa := htags
  have hfind : (b.updSlice c (fun q => { q with wait := [] })).findLine c r.dpa = none := hmiss
  have halloc : (b.updSlice c (fun q => { q with wait := [] })).allocOf r = .normal false := hhow
  have hpassed : (b.updSlice c (fun q => { q with wait := [] })).behindRefused c r = false := by
    rw [← hbehind, Block.behindRefused, Block.behindRefused, hslice]
  generalize b.updSlice c (fun q => { q with wait := [] }) = u at *
  have hvacant : u.vacant k := by
    refine ⟨?_, ?_, ?_, ?_⟩
    · rw [hlines]; exact habsent
    · rw [hlines]; exact hstays
    · rw [hlines]; exact hsettled
    · rw [hk, hslice]
  rw [Block.sliceTry_write _ hop harea hdirect hstate hsound hpassed, Block.writeAccess_of_vacant hop hfind hstate halloc hvacant,
    hdatum] at ht
  obtain ⟨htag, hempty, hothers⟩ := u.takeWay_line k r false false r.streams
  have htaken := u.takeWay_slices k r false false r.streams
  generalize u.takeWay k r false false r.streams = v at *
  obtain ⟨hwritten, hline, hrest⟩ := Block.writeSec_of_good (c := c) (k := k) (sec := r.dpa / 64 % 4) (w := w) (b := v)
    (by rw [hempty]; exact Sec.noConfusion) hbad
  generalize v.writeSec c k (r.dpa / 64 % 4) w = x at *
  obtain ⟨hparts, -⟩ := x.answeredTo_respond r (r.dpa / 64 % 4) w.status 0
  rw [ht] at hparts
  have hanswered (j : Nat) : t.line j = x.line j := by rw [hparts]; rfl
  refine ⟨?_, ?_, ?_, ?_, fun j hj => ?_⟩
  · rw [hparts]; exact hwritten.trans htaken
  · rw [hanswered, hline]; exact htag
  · rw [hanswered, hline, hempty]
  · rw [hanswered, hline]; exact Tab.get_set_self ..
  · rw [hanswered, hrest j hj, (hothers j hj).1, (hothers j hj).2]
    exact ⟨congrArg Line.st (hlines j), congrArg Line.dat (hlines j)⟩

end Sys2Proof.Machine
end

section
/-! SUPPORT. The end of a window (R182, R194): what step 1 of a boundary shows of each entry, and what it leaves. -/

namespace Sys2Proof.Machine

open Reg

/-! ## Rounds over distinct indices -/

/-- In rounds over distinct indices the round of `a` turns `P` into `Q`, where every other round keeps both. -/
theorem forEach_of_round {σ α : Type} {P Q : σ → Prop} {l : List α} {h : σ → α → σ} {a : α} (hl : l.Nodup) (ha : a ∈ l)
    (hP : ∀ s, ∀ x ∈ l, x ≠ a → P s → P (h s x)) (hPQ : ∀ s, P s → Q (h s a))
    (hQ : ∀ s, ∀ x ∈ l, x ≠ a → Q s → Q (h s x)) {s : σ} (hs : P s) : Q (forEach l s h) := by
  obtain ⟨before, after, rfl⟩ := List.append_of_mem ha
  obtain ⟨-, hafter, hne⟩ := List.nodup_append'.mp hl
  rw [forEach_append, forEach_cons]
  have hpre : P (forEach before s h) := forEach_inv P _ _ _ (fun t x hx => hP t x (List.mem_append_left _ hx)
    (fun he => hne hx (he ▸ List.mem_cons_self))) hs
  exact forEach_inv Q _ _ _ (fun t x hx => hQ t x (List.mem_append_right _ (List.mem_cons_of_mem _ hx))
    (fun he => (List.nodup_cons.mp hafter).1 (he ▸ hx))) (hPQ _ hpre)

/-! ## One entry at the end of a window (R182, R192, R194) -/

/-- Entry `e` was owed in the closing window and was served less than its effective guarantee (R194). -/
def Block.guarMissed (b : Block) (e : Nat) : Bool :=
  b.wk (REGU_GT_CTL_VALID e) != 0 && b.regu.demand.get e && decide (b.served e < b.rd (REGU_GT_EFF_EFF e))

/-- LAST shows whether entry `e` has missed, and the units it was served. -/
def Block.lastShown (b : Block) (e : Nat) : Block :=
  (b.wrB (REGU_GT_LAST_LAST_MISS e) (b.guarMissed e)).wr (REGU_GT_LAST_LAST_SERVED e) (min (b.served e) 0xFFFFFF)

/-- A miss of entry `e` is counted, its bit set. -/
def Block.missCounted (b : Block) (e : Nat) : Block :=
  (b.setBitOf (REGU_MISS_MISS (e / 32)) (e % 32)).bump (REGU_GT_CNT_MISS e)

/-- REGU_STATUS.MISS is set, with its interrupt. -/
def Block.missNamed (b : Block) : Block := (b.wr REGU_STATUS_MISS 1).intr 8 (b.on REGU_CTL_INT_MISS)

/-- A miss of entry `e` is shown, and counted by the performance counters. -/
def Block.missTold (b : Block) (e : Nat) : Block :=
  let t := (b.missCounted e).missNamed
  t.count ctrRegu 4 1 { (default : Carry) with master := some (t.wk (REGU_GT_CTL_MID e)) }

/-- The guarantee of entry `e` at the end of a window. -/
def Block.guarClosed (b : Block) (short : Bool) (e : Nat) : Block :=
  if short then b else if b.guarMissed e then (b.lastShown e).missTold e else b.lastShown e

/-- The limit of missed deadlines of entry `e` at the end of a window (R192). -/
def Block.lateClosed (b : Block) (valid : Bool) (e : Nat) : Block :=
  if valid && b.rd REGU_CTL_DL_LIMIT != 0 && decide (b.rd REGU_CTL_DL_LIMIT ≤ b.regu.dlWin.get e) then
    (b.wr REGU_STATUS_DLMISS 1).intr 8 (b.on REGU_CTL_INT_DLMISS)
  else b

/-- Entry `e` at the end of a window. -/
def Block.entryClosed (b : Block) (short : Bool) (e : Nat) : Block :=
  (b.guarClosed short e).lateClosed (b.wk (REGU_GT_CTL_VALID e) != 0) e

theorem Block.reguMisses_eq (b : Block) (short : Bool) :
    b.reguMisses short = forEach (List.range 256) b (fun b e => b.entryClosed short e) := by
  refine congrArg (forEach (List.range 256) b) (funext fun t => funext fun e => ?_)
  cases short <;> rfl

/-- The registers that the end of a window writes for entry `e`. -/
def closedKeys (e : Nat) : List Nat :=
  [(REGU_GT_LAST_LAST_MISS e).key, (REGU_GT_LAST_LAST_SERVED e).key, (REGU_MISS_MISS (e / 32)).key, (REGU_GT_CNT_MISS e).key,
    REGU_STATUS_MISS.key, REGU_STATUS_DLMISS.key]

/-- `t` is `b` but for what counts: the performance counters, drawn values, and registers that are those of the counters or `ks`. -/
def Block.talliedTo (b t : Block) (ks : List Nat) : Prop :=
  t = { b with regs := t.regs, ctr := t.ctr, fresh := t.fresh }
  ∧ ∀ g : Fld, g.key < 0x280000 * 32 → g.key ∉ GLB_INT_PEND_PEND.key :: ks → t.rd g = b.rd g

section
variable {b t u : Block} {ks : List Nat}

theorem Block.talliedTo_refl (b : Block) (ks : List Nat) : b.talliedTo b ks := ⟨rfl, fun _ _ _ => rfl⟩

theorem Block.talliedTo.trans (h : b.talliedTo t ks) (h' : t.talliedTo u ks) : b.talliedTo u ks :=
  ⟨h'.1.trans (by rw [h.1]), fun g hg hk => (h'.2 g hg hk).trans (h.2 g hg hk)⟩

theorem Block.talliedTo_wr {f : Fld} (v : Nat) (hf : f.key ∈ ks) : b.talliedTo (b.wr f v) ks :=
  ⟨rfl, fun _ _ hk => Block.rd_wr_of_ne _ _ _ _ (fun he => hk (he ▸ List.mem_cons_of_mem _ hf))⟩

theorem Block.talliedTo_intr (i : Nat) (p : Bool) : b.talliedTo (b.intr i p) ks :=
  ⟨by rw [Block.intr_parts], fun _ _ hk => Block.rd_intr _ _ _ _ (fun he => hk (he ▸ List.mem_cons_self))⟩

theorem Block.talliedTo_count (u : Nat × Nat) (code n : Nat) (c : Carry) : b.talliedTo (b.count u code n c) ks :=
  ⟨(b.countedTo_count u code n c).1, fun g hg hk =>
    (b.countedTo_count u code n c).2 g hg (fun he => hk (he ▸ List.mem_cons_self))⟩

theorem Block.talliedTo_ite (p : Prop) [Decidable p] (ht : b.talliedTo t ks) (hu : b.talliedTo u ks) :
    b.talliedTo (if p then t else u) ks := by
  split
  · exact ht
  · exact hu

end

theorem Block.talliedTo_lastShown (b : Block) (e : Nat) : b.talliedTo (b.lastShown e) (closedKeys e) :=
  (Block.talliedTo_wr _ (by simp [closedKeys])).trans (Block.talliedTo_wr _ (by simp [closedKeys]))

theorem Block.talliedTo_missTold (b : Block) (e : Nat) : b.talliedTo (b.missTold e) (closedKeys e) := by
  have hcounted : b.talliedTo (b.missCounted e) (closedKeys e) :=
    (Block.talliedTo_wr _ (by simp [closedKeys])).trans (Block.talliedTo_wr _ (by simp [closedKeys]))
  have hnamed : b.talliedTo (b.missCounted e).missNamed (closedKeys e) :=
    hcounted.trans ((Block.talliedTo_wr _ (by simp [closedKeys])).trans (Block.talliedTo_intr ..))
  exact hnamed.trans (Block.talliedTo_count ..)

theorem Block.talliedTo_entryClosed (b : Block) (short : Bool) (e : Nat) : b.talliedTo (b.entryClosed short e) (closedKeys e) := by
  have hguar : b.talliedTo (b.guarClosed short e) (closedKeys e) :=
    Block.talliedTo_ite _ (b.talliedTo_refl _) (Block.talliedTo_ite _ ((b.talliedTo_lastShown e).trans
      (Block.talliedTo_missTold ..)) (b.talliedTo_lastShown e))
  exact hguar.trans (Block.talliedTo_ite _ ((Block.talliedTo_wr _ (by simp [closedKeys])).trans (Block.talliedTo_intr ..))
    (Block.talliedTo_refl ..))

/-! ## An entry that has missed (R182, R194) -/

/-- Entry `e` is owed, has been served `units` units in the window, less than its effective guarantee, and has missed `n` times. -/
structure Block.fallsShort (b : Block) (e n units : Nat) : Prop where
  valid : b.wk (REGU_GT_CTL_VALID e) ≠ 0
  owed : b.regu.demand.get e = true
  served : b.served e = units
  short : units < b.rd (REGU_GT_EFF_EFF e)
  misses : b.rd (REGU_GT_CNT_MISS e) = n

/-- The registers show a miss of entry `e`, its `n`-th, in a window in which it was served `units` units. -/
structure Block.showsMiss (b : Block) (e n units : Nat) : Prop where
  misses : b.rd (REGU_GT_CNT_MISS e) = n
  bit : b.bit (REGU_MISS_MISS (e / 32)) (e % 32) = true
  status : b.rd REGU_STATUS_MISS = 1
  last : b.rd (REGU_GT_LAST_LAST_MISS e) = 1
  served : b.rd (REGU_GT_LAST_LAST_SERVED e) = units

/-- A field of entry `e` of its own is none that another entry writes at the end of a window. -/
theorem not_mem_closedKeys {d e : Nat} (hne : d ≠ e) (hd : d < 256) (he : e < 256) {f : Fld}
    (hf : f ∈ [REGU_GT_EFF_EFF e, REGU_GT_CNT_MISS e, REGU_GT_LAST_LAST_MISS e, REGU_GT_LAST_LAST_SERVED e]) :
    f.key < 0x280000 * 32 ∧ f.key ∉ GLB_INT_PEND_PEND.key :: closedKeys d := by
  simp only [List.mem_cons, List.not_mem_nil, or_false] at hf
  simp only [closedKeys, List.mem_cons, List.not_mem_nil, or_false, not_or]
  rcases hf with rfl | rfl | rfl | rfl
  all_goals
    simp only [Fld.key, REGU_GT_EFF_EFF, REGU_GT_CNT_MISS, REGU_GT_LAST_LAST_MISS, REGU_GT_LAST_LAST_SERVED, REGU_MISS_MISS,
      REGU_STATUS_MISS, REGU_STATUS_DLMISS, GLB_INT_PEND_PEND]
    omega

/-- The end of a window leaves of entry `e` its own fields when it comes to another entry. -/
theorem Block.rd_entryClosed_of_ne (b : Block) (short : Bool) {d e : Nat} (hne : d ≠ e) (hd : d < 256) (he : e < 256) {f : Fld}
    (hf : f ∈ [REGU_GT_EFF_EFF e, REGU_GT_CNT_MISS e, REGU_GT_LAST_LAST_MISS e, REGU_GT_LAST_LAST_SERVED e]) :
    (b.entryClosed short d).rd f = b.rd f :=
  (b.talliedTo_entryClosed short d).2 f (not_mem_closedKeys hne hd he hf).1 (not_mem_closedKeys hne hd he hf).2

theorem Block.fallsShort.entryClosed_of_ne {b : Block} {d e n units : Nat} (h : b.fallsShort e n units) (short : Bool) (hne : d ≠ e)
    (hd : d < 256) (he : e < 256) : (b.entryClosed short d).fallsShort e n units := by
  obtain ⟨hvalid, howed, hserved, hshort, hmisses⟩ := h
  obtain ⟨hparts, -⟩ := b.talliedTo_entryClosed short d
  have hrd := fun f hf => b.rd_entryClosed_of_ne short hne hd he (f := f) hf
  refine ⟨?_, ?_, ?_, ?_, ?_⟩
  · rw [hparts]; exact hvalid
  · rw [hparts]; exact howed
  · rw [hparts]; exact hserved
  · rw [hrd _ (by simp)]; exact hshort
  · rw [hrd _ (by simp)]; exact hmisses

theorem Block.fallsShort.guarMissed {b : Block} {e n units : Nat} (h : b.fallsShort e n units) : b.guarMissed e = true := by
  simp [Block.guarMissed, h.valid, h.owed, h.served, h.short]

/-! ## What the registers show of it -/

theorem Block.rd_lateClosed_of_ne (b : Block) (valid : Bool) (e : Nat) {g : Fld} (hl : g.key ≠ REGU_STATUS_DLMISS.key)
    (hp : g.key ≠ GLB_INT_PEND_PEND.key) : (b.lateClosed valid e).rd g = b.rd g := by
  unfold Block.lateClosed
  split
  · rw [Block.rd_intr _ _ _ _ hp, Block.rd_wr_of_ne _ _ _ _ hl]
  · rfl

theorem Block.rd_missTold (b : Block) (e : Nat) {g : Fld} (hlt : g.key < 0x280000 * 32) (hp : g.key ≠ GLB_INT_PEND_PEND.key) :
    (b.missTold e).rd g = ((b.missCounted e).wr REGU_STATUS_MISS 1).rd g :=
  ((Block.countedTo_count _ _ _ _ _).2 g hlt hp).trans (Block.rd_intr _ _ _ _ hp)

/-- A bit of a field stays while another bit of the field, or of another field, is set. -/
theorem Block.bit_setBitOf_of_bit {b : Block} {f g : Fld} {i : Nat} (h : b.bit g i = true) (hi : i < g.width)
    (hg : g = f ∨ g.key ≠ f.key) (j : Nat) : (b.setBitOf f j).bit g i = true := by
  rcases hg with rfl | hg
  · simp only [Block.bit, Block.setBitOf, Block.rd_wr_self] at h ⊢
    rw [bitOf_eq_testBit] at h
    rw [bitOf_mod _ _ _ hi, bitOf_eq_testBit, Nat.testBit_or, h, Bool.true_or]
  · rw [Block.bit_congr (Block.rd_setBitOf_of_ne _ _ _ _ hg)]
    exact h

theorem Block.bit_setBitOf_self (b : Block) (f : Fld) {i : Nat} (hi : i < f.width) : (b.setBitOf f i).bit f i = true := by
  rw [Block.bit, Block.setBitOf, Block.rd_wr_self, bitOf_mod _ _ _ hi, bitOf_or_self]

/-- A word of REGU_MISS is no other register that the end of a window writes. -/
theorem missWord_key {j : Nat} (hj : j < 8) : (REGU_MISS_MISS j).key < 0x280000 * 32
    ∧ (REGU_MISS_MISS j).key ≠ GLB_INT_PEND_PEND.key ∧ (REGU_MISS_MISS j).key ≠ REGU_STATUS_MISS.key
    ∧ (REGU_MISS_MISS j).key ≠ REGU_STATUS_DLMISS.key
    ∧ ∀ e, (REGU_MISS_MISS j).key ≠ (REGU_GT_CNT_MISS e).key ∧ (REGU_MISS_MISS j).key ≠ (REGU_GT_LAST_LAST_MISS e).key
      ∧ (REGU_MISS_MISS j).key ≠ (REGU_GT_LAST_LAST_SERVED e).key := by
  simp only [REGU_MISS_MISS, REGU_GT_CNT_MISS, REGU_GT_LAST_LAST_MISS, REGU_GT_LAST_LAST_SERVED, REGU_STATUS_MISS,
    REGU_STATUS_DLMISS, GLB_INT_PEND_PEND, Fld.key]
  refine ⟨?_, ?_, ?_, ?_, fun e => ⟨?_, ?_, ?_⟩⟩
  all_goals omega

theorem Block.rd_missTold_missWord (b : Block) (d : Nat) {j : Nat} (hj : j < 8) :
    (b.missTold d).rd (REGU_MISS_MISS j) = (b.setBitOf (REGU_MISS_MISS (d / 32)) (d % 32)).rd (REGU_MISS_MISS j) := by
  obtain ⟨hlt, hpend, hmiss, -, hgt⟩ := missWord_key hj
  rw [Block.rd_missTold _ _ hlt hpend, Block.rd_wr_of_ne _ _ _ _ hmiss, Block.missCounted, Block.rd_bump_of_ne _ _ _ (hgt d).1]

theorem Block.rd_lastShown_missWord (b : Block) (d : Nat) {j : Nat} (hj : j < 8) :
    (b.lastShown d).rd (REGU_MISS_MISS j) = b.rd (REGU_MISS_MISS j) := by
  obtain ⟨-, -, -, -, hgt⟩ := missWord_key hj
  obtain ⟨-, hlast, hserved⟩ := hgt d
  rw [Block.lastShown, Block.rd_wr_of_ne _ _ _ _ hserved, Block.rd_wrB_of_ne _ _ _ _ hlast]

/-- A miss bit stays at the end of a window. -/
theorem Block.bit_entryClosed_of_bit {b : Block} {i j : Nat} (h : b.bit (REGU_MISS_MISS j) i = true) (hi : i < 32) (hj : j < 8)
    (short : Bool) (d : Nat) : (b.entryClosed short d).bit (REGU_MISS_MISS j) i = true := by
  obtain ⟨-, hpend, -, hlate, -⟩ := missWord_key hj
  have hlast : (b.lastShown d).bit (REGU_MISS_MISS j) i = true := by
    rw [Block.bit_congr (b.rd_lastShown_missWord d hj)]
    exact h
  rw [Block.entryClosed, Block.bit_congr (Block.rd_lateClosed_of_ne _ _ _ hlate hpend), Block.guarClosed]
  split
  · exact h
  split
  · have hword : REGU_MISS_MISS j = REGU_MISS_MISS (d / 32) ∨ (REGU_MISS_MISS j).key ≠ (REGU_MISS_MISS (d / 32)).key := by
      by_cases hjd : j = d / 32
      · exact .inl (by rw [hjd])
      · exact .inr (by simp only [REGU_MISS_MISS, Fld.key]; omega)
    rw [Block.bit_congr (Block.rd_missTold_missWord _ d hj)]
    exact Block.bit_setBitOf_of_bit hlast hi hword _
  · exact hlast

/-- REGU_STATUS.MISS stays set at the end of a window. -/
theorem Block.rd_status_entryClosed_of_set {b : Block} (h : b.rd REGU_STATUS_MISS = 1) (short : Bool) (d : Nat) :
    (b.entryClosed short d).rd REGU_STATUS_MISS = 1 := by
  have hlast : (b.lastShown d).rd REGU_STATUS_MISS = 1 := by
    rw [Block.lastShown, Block.rd_wr_of_ne, Block.rd_wrB_of_ne, h]
    all_goals simp only [REGU_STATUS_MISS, REGU_GT_LAST_LAST_MISS, REGU_GT_LAST_LAST_SERVED, Fld.key]; omega
  rw [Block.entryClosed, Block.rd_lateClosed_of_ne _ _ _ (by decide) (by decide), Block.guarClosed]
  split
  · exact h
  split
  · rw [Block.rd_missTold _ _ (by decide) (by decide), Block.rd_wr_self]
    rfl
  · exact hlast

theorem Block.showsMiss.entryClosed_of_ne {b : Block} {d e n units : Nat} (h : b.showsMiss e n units) (short : Bool) (hne : d ≠ e)
    (hd : d < 256) (he : e < 256) : (b.entryClosed short d).showsMiss e n units := by
  obtain ⟨hmisses, hbit, hstatus, hlast, hserved⟩ := h
  have hrd := fun f hf => b.rd_entryClosed_of_ne short hne hd he (f := f) hf
  refine ⟨?_, Block.bit_entryClosed_of_bit hbit (by omega) (by omega) short d, Block.rd_status_entryClosed_of_set hstatus short d,
    ?_, ?_⟩
  · rw [hrd _ (by simp)]; exact hmisses
  · rw [hrd _ (by simp)]; exact hlast
  · rw [hrd _ (by simp)]; exact hserved

/-- What the counts and LAST of an entry show stands in words of their own. -/
theorem entryFields_key {e : Nat} (he : e < 256) {f : Fld}
    (hf : f ∈ [REGU_GT_CNT_MISS e, REGU_GT_LAST_LAST_MISS e, REGU_GT_LAST_LAST_SERVED e]) :
    f.key < 0x280000 * 32 ∧ f.key ≠ GLB_INT_PEND_PEND.key ∧ f.key ≠ REGU_STATUS_MISS.key ∧ f.key ≠ REGU_STATUS_DLMISS.key
    ∧ f.key ≠ (REGU_MISS_MISS (e / 32)).key := by
  simp only [List.mem_cons, List.not_mem_nil, or_false] at hf
  rcases hf with rfl | rfl | rfl
  all_goals
    simp only [REGU_MISS_MISS, REGU_GT_CNT_MISS, REGU_GT_LAST_LAST_MISS, REGU_GT_LAST_LAST_SERVED, REGU_STATUS_MISS,
      REGU_STATUS_DLMISS, GLB_INT_PEND_PEND, Fld.key]
    omega

theorem lastFields_key_ne (e : Nat) : (REGU_GT_LAST_LAST_MISS e).key ≠ (REGU_GT_LAST_LAST_SERVED e).key
    ∧ (REGU_GT_LAST_LAST_MISS e).key ≠ (REGU_GT_CNT_MISS e).key
    ∧ (REGU_GT_LAST_LAST_SERVED e).key ≠ (REGU_GT_CNT_MISS e).key := by
  simp only [REGU_GT_CNT_MISS, REGU_GT_LAST_LAST_MISS, REGU_GT_LAST_LAST_SERVED, Fld.key]
  omega

/-- Where entry `e` has fallen short, the end of the window shows its miss (R182, R194). -/
theorem Block.fallsShort.entryClosed {b : Block} {e n units : Nat} (h : b.fallsShort e n units) (he : e < 256)
    (hu : units < 2 ^ 24) : (b.entryClosed false e).showsMiss e (min (n + 1) 0xFFFF) units := by
  have hmiss := h.guarMissed
  obtain ⟨hms, hmc, hsc⟩ := lastFields_key_ne e
  have hclosed : b.entryClosed false e = ((b.lastShown e).missTold e).lateClosed (b.wk (REGU_GT_CTL_VALID e) != 0) e := by
    rw [Block.entryClosed, Block.guarClosed, hmiss]
    rfl
  have hown {f : Fld} (hf : f ∈ [REGU_GT_CNT_MISS e, REGU_GT_LAST_LAST_MISS e, REGU_GT_LAST_LAST_SERVED e]) :
      f.key ≠ (REGU_MISS_MISS (e / 32)).key ∧ (b.entryClosed false e).rd f = ((b.lastShown e).missCounted e).rd f := by
    obtain ⟨hlt, hpend, hstatus, hlate, hword⟩ := entryFields_key he hf
    refine ⟨hword, ?_⟩
    rw [hclosed, Block.rd_lateClosed_of_ne _ _ _ hlate hpend, Block.rd_missTold _ _ hlt hpend, Block.rd_wr_of_ne _ _ _ _ hstatus]
  refine ⟨?_, ?_, ?_, ?_, ?_⟩
  · obtain ⟨hword, hrd⟩ := hown (f := REGU_GT_CNT_MISS e) (by simp)
    rw [hrd, Block.missCounted, Block.rd_bump_self, Block.rd_setBitOf_of_ne _ _ _ _ hword, Block.lastShown,
      Block.rd_wr_of_ne _ _ _ _ hsc.symm, Block.rd_wrB_of_ne _ _ _ _ hmc.symm, h.misses]
    rfl
  · obtain ⟨-, hpend, -, hlate, -⟩ := missWord_key (j := e / 32) (by omega)
    rw [hclosed, Block.bit_congr (Block.rd_lateClosed_of_ne _ _ _ hlate hpend),
      Block.bit_congr (Block.rd_missTold_missWord _ e (by omega))]
    exact Block.bit_setBitOf_self _ _ (Nat.mod_lt _ (by decide))
  · rw [hclosed, Block.rd_lateClosed_of_ne _ _ _ (by decide) (by decide), Block.rd_missTold _ _ (by decide) (by decide),
      Block.rd_wr_self]
    rfl
  · obtain ⟨hword, hrd⟩ := hown (f := REGU_GT_LAST_LAST_MISS e) (by simp)
    rw [hrd, Block.missCounted, Block.rd_bump_of_ne _ _ _ hmc, Block.rd_setBitOf_of_ne _ _ _ _ hword, Block.lastShown,
      Block.rd_wr_of_ne _ _ _ _ hms, Block.rd_wrB_self, hmiss]
    rfl
  · obtain ⟨hword, hrd⟩ := hown (f := REGU_GT_LAST_LAST_SERVED e) (by simp)
    rw [hrd, Block.missCounted, Block.rd_bump_of_ne _ _ _ hsc, Block.rd_setBitOf_of_ne _ _ _ _ hword, Block.lastShown,
      Block.rd_wr_self, h.served, min_eq_left (by omega)]
    exact Nat.mod_eq_of_lt hu

/-- At the end of a window that is not short every entry that has fallen short is shown to have missed (R182, R194). -/
theorem Block.fallsShort.reguMisses {b : Block} {e n units : Nat} (h : b.fallsShort e n units) (he : e < 256) (hu : units < 2 ^ 24) :
    (b.reguMisses false).showsMiss e (min (n + 1) 0xFFFF) units := by
  rw [Block.reguMisses_eq]
  exact forEach_of_round (P := fun t : Block => t.fallsShort e n units)
    (Q := fun t : Block => t.showsMiss e (min (n + 1) 0xFFFF) units) List.nodup_range (List.mem_range.mpr he)
    (fun t d hd hne ht => ht.entryClosed_of_ne false hne (List.mem_range.mp hd) he) (fun t ht => ht.entryClosed he hu)
    (fun t d hd hne ht => ht.entryClosed_of_ne false hne (List.mem_range.mp hd) he) h

end Sys2Proof.Machine
end

section
/-! SUPPORT. The start of a window (R182, R185, R198, R199): the estimates, the effective guarantees, and what a boundary leaves. -/

namespace Sys2Proof.Machine

open Reg

/-! ## The estimates (R196 to R198) -/

/-- The registers that the estimates read. -/
def estimateFields : List Fld :=
  FLT_FENCE_SUB_U ::
    (List.range 32).flatMap (fun s => [PWR_CH_STATUS_STATE (s / 2), PHY_STATUS_RATE s, CLS_STATUS_ACTIVE_SLOT s])

theorem mem_estimateFields {s : Nat} (hs : s < 32) :
    PWR_CH_STATUS_STATE (s / 2) ∈ estimateFields ∧ PHY_STATUS_RATE s ∈ estimateFields ∧ CLS_STATUS_ACTIVE_SLOT s ∈ estimateFields := by
  have hmem (f : Fld) (hf : f ∈ [PWR_CH_STATUS_STATE (s / 2), PHY_STATUS_RATE s, CLS_STATUS_ACTIVE_SLOT s]) : f ∈ estimateFields :=
    List.mem_cons_of_mem _ (List.mem_flatMap.mpr ⟨s, List.mem_range.mpr hs, hf⟩)
  exact ⟨hmem _ (by simp), hmem _ (by simp), hmem _ (by simp)⟩

/-- They stand between the regulator's registers and those of the performance counters. -/
theorem estimateFields_between : ∀ f ∈ estimateFields, 0x23000 * 32 ≤ f.key ∧ f.key < 0x280000 * 32 ∧ f.key ∉ eventKeys := by
  decide

section
variable {b t : Block}

theorem Block.chLockstep_congr (h : t.img = b.img) (n : Nat) : t.chLockstep n = b.chLockstep n := by
  simp only [Block.chLockstep, Block.chEnabled, Block.topo, Block.sec, h]

theorem Block.reguRunning_congr (himg : t.img = b.img) (hrd : ∀ f ∈ estimateFields, t.rd f = b.rd f) {s : Nat} (hs : s < 32) :
    t.reguRunning s = b.reguRunning s := by
  have hstate : t.chState (s / 2) = b.chState (s / 2) := hrd _ (mem_estimateFields hs).1
  have hfence : t.subFenced s = b.subFenced s := Block.bit_congr (hrd _ (by simp [estimateFields])) s
  simp only [Block.reguRunning, hstate, hfence, Block.chEnabled, Block.chSpare, Block.topo, Block.sec, himg]

theorem Block.delivPm_congr (himg : t.img = b.img) (hsubs : t.subs = b.subs) (hrd : ∀ f ∈ estimateFields, t.rd f = b.rd f) {s : Nat}
    (hs : s < 32) : t.delivPm s = b.delivPm s := by
  have hpair : t.eccSub s = b.eccSub s := by rw [Block.eccSub, Block.chLockstep_congr himg]; rfl
  have hlt : b.eccSub s < 32 := by
    unfold Block.eccSub
    split <;> omega
  rw [Block.delivPm, Block.activeSet, hpair, hsubs, hrd _ (mem_estimateFields hlt).2.2]
  rfl

/-- The subchannels that run for the estimates. -/
theorem Block.filter_reguRunning_congr (himg : t.img = b.img) (hrd : ∀ f ∈ estimateFields, t.rd f = b.rd f) :
    (List.range 32).filter t.reguRunning = (List.range 32).filter b.reguRunning :=
  List.filter_congr (fun _ hs => Block.reguRunning_congr himg hrd (List.mem_range.mp hs))

theorem Block.uImg_congr (himg : t.img = b.img) (hsubs : t.subs = b.subs) (hrd : ∀ f ∈ estimateFields, t.rd f = b.rd f) (w : Nat) :
    t.uImg w = b.uImg w := by
  unfold Block.uImg
  rw [Block.filter_reguRunning_congr himg hrd]
  refine List.foldl_ext _ _ _ (fun n s hs => ?_)
  have hlt : s < 32 := List.mem_range.mp (List.mem_filter.mp hs).1
  rw [hrd _ (mem_estimateFields hlt).2.1, Block.delivPm_congr himg hsubs hrd hlt]

/-- The admission limit depends on the image, the subchannels, the windows kept, and the registers that the estimates read. -/
theorem Block.reguLimit_congr (himg : t.img = b.img) (hsubs : t.subs = b.subs) (hhist : t.regu.hist = b.regu.hist)
    (hrd : ∀ f ∈ estimateFields, t.rd f = b.rd f) (w pct : Nat) : t.reguLimit w pct = b.reguLimit w pct := by
  rw [Block.reguLimit, Block.uMeas, Block.uImg_congr himg hsubs hrd, Block.filter_reguRunning_congr himg hrd, hhist]
  rfl
end

/-! ## The effective guarantees (R198 to R200) -/

/-- The effective guarantee of entry `e` under an admission limit and a committed total (R199). -/
def Block.effective (b : Block) (limit total e : Nat) : Nat :=
  if b.wk (REGU_GT_CTL_VALID e) = 0 then 0
  else if total ≤ limit then b.wk (REGU_GT_GUAR_GUAR e)
  else b.wk (REGU_GT_GUAR_GUAR e) * limit / total

theorem Block.wk_congr {b t : Block} (h : t.work = b.work) (f : Fld) : t.wk f = b.wk f := by rw [Block.wk, Block.wk, h]

theorem Block.effective_congr {b t : Block} (h : t.work = b.work) (limit total e : Nat) :
    t.effective limit total e = b.effective limit total e := by
  simp only [Block.effective, Block.wk_congr h]

/-- The committed total has just passed the limit (R200). -/
def Block.capLost (b : Block) : Block :=
  ((b.wr REGU_STATUS_CAP_LOST 1).intr 8 (b.on REGU_CTL_INT_CAPLOST)).eventPlain 24 0 0

/-- At a boundary a recomputation is that of a commit, with the loss of capacity told besides. -/
theorem Block.reguCompute_eq (b : Block) : b.reguCompute false =
    if decide (b.reguLimit b.regu.w (b.wk REGU_ADMIT_PCT) < reguTotal b.work) && b.rd REGU_SCALE_SCALE == 65536 then
      (b.reguCompute true).capLost
    else b.reguCompute true := by
  unfold Block.reguCompute
  simp only [Bool.not_true, Bool.not_false, Bool.and_false, Bool.and_true, Bool.false_eq_true, if_false]
  rfl

/-- The registers that a recomputation at a boundary writes. -/
def boundaryComputeKeys : List Nat := REGU_STATUS_CAP_LOST.key :: reguComputeKeys ++ eventKeys

theorem Block.capLost_rd (b : Block) {g : Fld} (hc : g.key ≠ REGU_STATUS_CAP_LOST.key) (he : g.key ∉ eventKeys) :
    b.capLost.rd g = b.rd g := by
  have hp : g.key ≠ GLB_INT_PEND_PEND.key := fun h => he (h ▸ List.mem_cons_self)
  rw [Block.capLost, Block.eventPlain_eq, Block.eventAt_rd _ _ _ _ he, Block.rd_intr _ _ _ _ hp, Block.rd_wr_of_ne _ _ _ _ hc]

theorem Block.capLost_parts (b : Block) : b.capLost = { b with regs := b.capLost.regs, flt := b.capLost.flt } := by
  rw [Block.capLost, Block.eventPlain_eq, Block.eventAt_parts, Block.intr_parts]
  rfl

theorem Block.reguCompute_parts (b : Block) : b.reguCompute false =
    { b with regs := (b.reguCompute false).regs, flt := (b.reguCompute false).flt } := by
  rw [Block.reguCompute_eq]
  split
  · rw [Block.capLost_parts, (Block.reguCompute_onlyRegs b).1]
  · rw [(Block.reguCompute_onlyRegs b).1]

theorem Block.reguCompute_rd (b : Block) {g : Fld} (hg : g.key ∉ boundaryComputeKeys) : (b.reguCompute false).rd g = b.rd g := by
  simp only [boundaryComputeKeys, List.cons_append, List.mem_cons, List.mem_append, not_or] at hg
  obtain ⟨hcap, hcompute, hevent⟩ := hg
  rw [Block.reguCompute_eq]
  split
  · rw [Block.capLost_rd _ hcap hevent, (Block.reguCompute_onlyRegs b).2 g hcompute]
  · exact (Block.reguCompute_onlyRegs b).2 g hcompute

/-- Entry `e` takes its effective guarantee (R199). -/
def Block.effShown (b : Block) (limit total e : Nat) : Block := b.wr (REGU_GT_EFF_EFF e) (b.effective limit total e)

/-- Of the entries that take their effective guarantees, each shows its own. -/
theorem Block.rd_effShown_each (b : Block) (limit total : Nat) {l : List Nat} (hl : l.Nodup) {e : Nat} (he : e ∈ l) :
    (forEach l b (fun t d => t.effShown limit total d)).rd (REGU_GT_EFF_EFF e) = b.effective limit total e % 2 ^ 24 := by
  refine forEach_of_round (h := fun (t : Block) d => t.effShown limit total d) (P := fun t : Block => t.work = b.work)
    (Q := fun t : Block => t.rd (REGU_GT_EFF_EFF e) = b.effective limit total e % 2 ^ 24) hl he (fun _ _ _ _ ht => ht)
    (fun t ht => ?_) (fun t d _ hne ht => ?_) rfl
  · rw [Block.effShown, Block.rd_wr_self, Block.effective_congr ht]
    rfl
  · have hkey : (REGU_GT_EFF_EFF e).key ≠ (REGU_GT_EFF_EFF d).key := by simp only [REGU_GT_EFF_EFF, Fld.key]; omega
    exact (Block.rd_wr_of_ne _ _ _ _ hkey).trans ht

/-- The estimates, the limit, the committed total and the scale are shown (R198, R199). -/
def Block.limitShown (b : Block) (limit total : Nat) : Block :=
  let t := (b.wr REGU_DELIV_IMG_VAL (min (b.uImg b.regu.w) 0xFFFFFF)).wr REGU_DELIV_MEAS_VAL (min (b.uMeas b.regu.w) 0xFFFFFF)
  ((t.wr REGU_LIMIT_VAL (min limit 0xFFFFFF)).wr REGU_TOTAL_VAL (min total 0xFFFFFF)).wr REGU_SCALE_SCALE
    (if total ≤ limit then 65536 else limit * 65536 / total)

theorem Block.limitShown_work (b : Block) (limit total : Nat) : (b.limitShown limit total).work = b.work := by
  simp only [Block.limitShown, Block.wr_work]

/-- REGU_STATUS shows whether the guarantees are scaled (R199). -/
def Block.scalingShown (b : Block) (above : Bool) : Block :=
  let t := b.wrB REGU_STATUS_SCALING above
  if above then t.wr REGU_STATUS_SCALED 1 else t

theorem Block.reguCompute_rounds (b : Block) : b.reguCompute true =
    let limit := b.reguLimit b.regu.w (b.wk REGU_ADMIT_PCT)
    let total := reguTotal b.work
    (forEach (List.range 256) (b.limitShown limit total) (fun t e => t.effShown limit total e)).scalingShown
      (decide (limit < total)) := by
  unfold Block.reguCompute
  simp only [Bool.not_true, Bool.and_false, Bool.false_eq_true, if_false]
  rfl

/-- The effective guarantees of a recomputation (R199). -/
theorem Block.rd_reguCompute_eff (b : Block) {e : Nat} (he : e < 256) : (b.reguCompute false).rd (REGU_GT_EFF_EFF e) =
    b.effective (b.reguLimit b.regu.w (b.wk REGU_ADMIT_PCT)) (reguTotal b.work) e % 2 ^ 24 := by
  have hbelow : ∀ k ∈ [REGU_STATUS_CAP_LOST.key, REGU_STATUS_SCALING.key, REGU_STATUS_SCALED.key] ++ eventKeys,
      k < 0x2100c * 32 ∨ 0x23000 * 32 ≤ k := by decide
  have hkey : (REGU_GT_EFF_EFF e).key ∉ [REGU_STATUS_CAP_LOST.key, REGU_STATUS_SCALING.key, REGU_STATUS_SCALED.key] ++ eventKeys := by
    intro hm
    have := hbelow _ hm
    simp only [REGU_GT_EFF_EFF, Fld.key] at this
    omega
  simp only [List.cons_append, List.nil_append, List.mem_cons, not_or] at hkey
  obtain ⟨hcap, hscaling, hscaled, hevent⟩ := hkey
  have hlost : (b.reguCompute false).rd (REGU_GT_EFF_EFF e) = (b.reguCompute true).rd (REGU_GT_EFF_EFF e) := by
    rw [Block.reguCompute_eq]
    split
    · exact Block.capLost_rd _ hcap hevent
    · rfl
  have heach (limit total : Nat) : (forEach (List.range 256) (b.limitShown limit total)
      (fun t d => t.effShown limit total d)).rd (REGU_GT_EFF_EFF e) = b.effective limit total e % 2 ^ 24 := by
    rw [Block.rd_effShown_each _ _ _ List.nodup_range (List.mem_range.mpr he), Block.effective_congr (b.limitShown_work limit total)]
  rw [hlost, Block.reguCompute_rounds, Block.scalingShown]
  split
  · rw [Block.rd_wr_of_ne _ _ _ _ hscaled, Block.rd_wrB_of_ne _ _ _ _ hscaling, heach]
  · rw [Block.rd_wrB_of_ne _ _ _ _ hscaling, heach]

/-! ## A boundary without a commit (R182, R185) -/

theorem Block.reguMisses_parts (b : Block) (short : Bool) : b.reguMisses short = { b with
    regs := (b.reguMisses short).regs, ctr := (b.reguMisses short).ctr, fresh := (b.reguMisses short).fresh } := by
  rw [Block.reguMisses_eq]
  refine forEach_inv (fun t : Block => t = { b with regs := t.regs, ctr := t.ctr, fresh := t.fresh }) _ _ _ (fun t e _ ht => ?_) rfl
  rw [(t.talliedTo_entryClosed short e).1, ht]

/-- What stands in REGU_STATUS and REGU_COMMIT_STATUS but for the misses is not the end of a window's to write. -/
theorem Block.reguMisses_rd (b : Block) (short : Bool) {f : Fld} (hf : f ∈ [REGU_STATUS_LOCAL, REGU_COMMIT_STATUS_PENDING]) :
    (b.reguMisses short).rd f = b.rd f := by
  have hkey (e : Nat) (he : e < 256) : f.key < 0x280000 * 32 ∧ f.key ∉ GLB_INT_PEND_PEND.key :: closedKeys e := by
    simp only [List.mem_cons, List.not_mem_nil, or_false] at hf
    simp only [closedKeys, List.mem_cons, List.not_mem_nil, or_false, not_or]
    rcases hf with rfl | rfl
    all_goals
      simp only [Fld.key, REGU_STATUS_LOCAL, REGU_COMMIT_STATUS_PENDING, REGU_GT_CNT_MISS, REGU_GT_LAST_LAST_MISS,
        REGU_GT_LAST_LAST_SERVED, REGU_MISS_MISS, REGU_STATUS_MISS, REGU_STATUS_DLMISS, GLB_INT_PEND_PEND]
      omega
  rw [Block.reguMisses_eq]
  refine forEach_inv (fun t : Block => t.rd f = b.rd f) _ _ _ (fun t e he ht => ?_) rfl
  obtain ⟨hlt, hk⟩ := hkey e (List.mem_range.mp he)
  exact ((t.talliedTo_entryClosed short e).2 f hlt hk).trans ht

/-- A boundary is shown and counted (R185). -/
def Block.boundaryCounted (b : Block) (own : Bool) : Block :=
  let t := (b.wrB REGU_STATUS_LOCAL own).count ctrRegu 7 1 default
  if own then t.count ctrRegu 8 1 default else t

/-- The closing window is short (R184). -/
def Block.windowShort (b : Block) : Bool := b.regu.short || decide (2 * timeSince b.now b.regu.lastB < b.regu.w)

/-- The record of a closed window of `len` ns joins those kept, unless the window was short (R184). -/
def Block.windowKept (b : Block) (short : Bool) (len : Nat) : Block :=
  { b with regu := { b.regu with hist := if short then b.regu.hist else ((WinRec.mk b.regu.slots len) :: b.regu.hist).take 4 } }

@[simp] theorem Block.rd_windowKept (b : Block) (short : Bool) (len : Nat) (g : Fld) : (b.windowKept short len).rd g = b.rd g := rfl

/-- A new window begins now. -/
def Block.windowBegun (b : Block) : Block :=
  { b with regu := { b.regu with w := b.windowNs, lastB := b.now, short := false, slots := [] } }

/-- A window under scaling is counted (R446). -/
def Block.scalingCounted (b : Block) : Block := if b.on REGU_STATUS_SCALING then b.count ctrRegu 9 1 default else b

/-- What the entries are served is counted anew. -/
def Block.servedCleared (b : Block) : Block :=
  { b with regu := { b.regu with served := [], recent := [], demand := [], dlWin := [] } }

/-- The closing window has ended: its boundary is counted, and its misses are told. -/
def Block.windowClosed (b : Block) (own : Bool) : Block := (b.boundaryCounted own).reguMisses b.windowShort

theorem Block.boundaryCounted_talliedTo (b : Block) (own : Bool) : b.talliedTo (b.boundaryCounted own) [REGU_STATUS_LOCAL.key] := by
  have hone : b.talliedTo ((b.wrB REGU_STATUS_LOCAL own).count ctrRegu 7 1 default) [REGU_STATUS_LOCAL.key] :=
    (Block.talliedTo_wr _ (by simp)).trans (Block.talliedTo_count ..)
  exact Block.talliedTo_ite _ (hone.trans (Block.talliedTo_count ..)) hone

theorem Block.windowClosed_parts (b : Block) (own : Bool) : b.windowClosed own = { b with
    regs := (b.windowClosed own).regs, ctr := (b.windowClosed own).ctr, fresh := (b.windowClosed own).fresh } := by
  rw [Block.windowClosed, Block.reguMisses_parts, (b.boundaryCounted_talliedTo own).1]

theorem Block.windowClosed_pending (b : Block) (own : Bool) :
    (b.windowClosed own).rd REGU_COMMIT_STATUS_PENDING = b.rd REGU_COMMIT_STATUS_PENDING := by
  rw [Block.windowClosed, Block.reguMisses_rd _ _ (by simp), (b.boundaryCounted_talliedTo own).2 _ (by decide) (by decide)]

theorem Block.windowClosed_local (b : Block) : (b.windowClosed true).rd REGU_STATUS_LOCAL = 1 := by
  have hcount (t : Block) (code : Nat) : (t.count ctrRegu code 1 default).rd REGU_STATUS_LOCAL = t.rd REGU_STATUS_LOCAL :=
    (Block.countedTo_count ..).2 _ (by decide) (by decide)
  rw [Block.windowClosed, Block.reguMisses_rd _ _ (by simp), Block.boundaryCounted, if_pos rfl, hcount, hcount, Block.rd_wrB_self]
  rfl

/-- The block as the window after a boundary begins, before its guarantees are computed. -/
def Block.windowOpened (b : Block) (own : Bool) : Block :=
  ((b.windowClosed own).windowKept b.windowShort (timeSince b.now b.regu.lastB)).windowBegun

/-- A boundary without a pending commit closes one window and opens the next (R182). -/
theorem Block.reguBoundary_of_no_commit {b : Block} (hon : b.regulating = true) (hp : b.rd REGU_COMMIT_STATUS_PENDING = 0) (own : Bool) :
    b.reguBoundary own = ((b.windowOpened own).reguCompute false).scalingCounted.servedCleared := by
  unfold Block.reguBoundary
  rw [if_neg (by simp [hon])]
  extract_lets len short counted shown closed hist _ kept commit taken _ begun computed cleared
  have hshort : short = b.windowShort := rfl
  have hclosed : closed = b.windowClosed own := by
    rw [Block.windowClosed, ← hshort]
    rfl
  have hkept : kept = closed.windowKept short len := rfl
  have hcommit : commit = false := by
    refine (Block.on_false _ _).mpr ?_
    rw [hkept, hclosed, Block.rd_windowKept, Block.windowClosed_pending, hp]
  have htaken : taken = kept := if_neg (by simp [hcommit])
  have hopened : begun = b.windowOpened own := by
    show taken.windowBegun = _
    rw [htaken, hkept, hclosed, hshort, Block.windowOpened]
  have hcomputed : computed = (b.windowOpened own).reguCompute false := by rw [← hopened, ← hcommit]
  have hcleared : cleared = computed.scalingCounted := rfl
  show cleared.servedCleared = _
  rw [hcleared, hcomputed]

/-- The length of a window depends on the working light list alone (R183). -/
theorem Block.windowNs_congr {b t : Block} (h : t.work = b.work) : t.windowNs = b.windowNs := by
  simp only [Block.windowNs, Block.lightW_congr h]

/-- As a window opens nothing is served or counted in it, and its length is that of the light list (R183). -/
theorem Block.windowOpened_spec (b : Block) : (b.windowOpened true).work = b.work ∧ (b.windowOpened true).regu.w = b.windowNs
    ∧ (b.windowOpened true).regu.lastB = b.now ∧ (b.windowOpened true).regu.slots = []
    ∧ (b.windowOpened true).rd REGU_STATUS_LOCAL = 1 := by
  have hlocal := b.windowClosed_local
  have hparts := b.windowClosed_parts true
  unfold Block.windowOpened
  generalize b.windowClosed true = t at *
  have hwork : t.work = b.work := by rw [hparts]
  have hnow : t.now = b.now := by
    rw [hparts]
    rfl
  exact ⟨hwork, Block.windowNs_congr hwork, hnow, rfl, hlocal⟩

theorem Block.scalingCounted_talliedTo (b : Block) : b.talliedTo b.scalingCounted [] :=
  Block.talliedTo_ite _ (Block.talliedTo_count ..) (b.talliedTo_refl _)

/-! ## A boundary of the regulator's own (R185) -/

/-- Once its guarantees are computed, a boundary changes no register below those of the performance counters. -/
theorem Block.rd_started (b : Block) (l : List Nat) {g : Fld} (hlt : g.key < 0x280000 * 32) (hp : g.key ≠ GLB_INT_PEND_PEND.key) :
    (b.scalingCounted.servedCleared.demandSeen l).rd g = b.rd g := by
  rw [Block.demandSeen_parts, Block.rd_mk, Block.servedCleared, Block.rd_mk]
  exact b.scalingCounted_talliedTo.2 g hlt (by simpa using hp)

theorem Block.started_parts (b : Block) (l : List Nat) : b.scalingCounted.servedCleared.demandSeen l = { b with
    regs := b.scalingCounted.regs, ctr := b.scalingCounted.ctr, fresh := b.scalingCounted.fresh
    regu := { b.regu with
      served := [], recent := [], demand := (b.scalingCounted.servedCleared.demandSeen l).regu.demand, dlWin := [] } } := by
  have hdemand := b.scalingCounted.servedCleared.demandSeen_parts l
  obtain ⟨hcounted, -⟩ := b.scalingCounted_talliedTo
  generalize b.scalingCounted = t at *
  generalize t.servedCleared.demandSeen l = u at *
  rw [hdemand, Block.servedCleared, hcounted]

/-- The registers that the estimates read are none that a computation at a boundary writes. -/
theorem not_mem_boundaryComputeKeys {f : Fld} (hf : f ∈ estimateFields) : f.key ∉ boundaryComputeKeys := by
  obtain ⟨hlo, -, hevent⟩ := estimateFields_between f hf
  have hbelow : ∀ k ∈ REGU_STATUS_CAP_LOST.key :: reguComputeKeys, k < 0x23000 * 32 := by
    simp only [reguComputeKeys, List.forall_mem_cons, List.forall_mem_append, List.forall_mem_map]
    refine ⟨by decide, by decide, fun e he => ?_⟩
    have := List.mem_range.mp he
    simp only [REGU_GT_EFF_EFF, Fld.key]
    omega
  rw [boundaryComputeKeys, List.mem_append, not_or]
  exact ⟨fun hm => absurd (hbelow _ hm) (by omega), hevent⟩

/-- Once its guarantees are computed, a boundary leaves what the admission limit depends on. -/
theorem Block.reguLimit_started (b : Block) (l : List Nat) (w pct : Nat) :
    ((b.reguCompute false).scalingCounted.servedCleared.demandSeen l).reguLimit w pct = b.reguLimit w pct := by
  have hparts := (b.reguCompute false).started_parts l
  have hrd (f : Fld) (hf : f ∈ estimateFields) :
      ((b.reguCompute false).scalingCounted.servedCleared.demandSeen l).rd f = b.rd f := by
    obtain ⟨-, hlt, hevent⟩ := estimateFields_between f hf
    rw [Block.rd_started _ _ hlt (fun h => hevent (h ▸ List.mem_cons_self)), Block.reguCompute_rd _ (not_mem_boundaryComputeKeys hf)]
  have hcomputed := b.reguCompute_parts
  generalize (b.reguCompute false).scalingCounted.servedCleared.demandSeen l = t at *
  generalize b.reguCompute false = c at *
  refine Block.reguLimit_congr ?_ ?_ ?_ hrd w pct
  all_goals rw [hparts, hcomputed]

/-- A boundary of the regulator's own shows LOCAL, starts a window in which nothing is served, and sets each effective guarantee
(R182, R185, R199). -/
theorem Block.windowBoundary_own {b t : Block} (hon : b.regulating = true) (hp : b.rd REGU_COMMIT_STATUS_PENDING = 0)
    (ht : b.windowBoundary true = t) :
    t.rd REGU_STATUS_LOCAL = 1 ∧ t.regu.served = [] ∧ t.regu.dlWin = [] ∧ t.regu.slots = [] ∧ t.regu.lastB = b.now
    ∧ t.regu.w = b.windowNs ∧ t.work = b.work
    ∧ ∀ e, e < 256 → t.rd (REGU_GT_EFF_EFF e) =
        b.effective (t.reguLimit t.regu.w (b.wk REGU_ADMIT_PCT)) (reguTotal b.work) e % 2 ^ 24 := by
  have hseen := b.demandSeen_parts (List.range 16)
  rw [Block.windowBoundary] at ht
  generalize b.demandSeen (List.range 16) = d at *
  have hwork : d.work = b.work := by rw [hseen]
  have hnow : d.now = b.now := by rw [hseen]; rfl
  have hlen : d.windowNs = b.windowNs := Block.windowNs_congr hwork
  have hpend : d.rd REGU_COMMIT_STATUS_PENDING = 0 := by rw [hseen]; exact hp
  rw [Block.reguBoundary_of_no_commit (by rw [Block.regulating, Block.wk, hwork]; exact hon) hpend] at ht
  obtain ⟨howork, how, holast, hoslots, holocal⟩ := d.windowOpened_spec
  generalize d.windowOpened true = o at *
  have hlimit := o.reguLimit_started (List.range 16)
  have hparts := (o.reguCompute false).started_parts (List.range 16)
  have hrd {g : Fld} := (o.reguCompute false).rd_started (List.range 16) (g := g)
  rw [ht] at hparts hlimit hrd
  have hcomputed := o.reguCompute_parts
  have hlocal := o.reguCompute_rd (g := REGU_STATUS_LOCAL) (by decide)
  have heff {e : Nat} (he : e < 256) := o.rd_reguCompute_eff he
  generalize o.reguCompute false = c at *
  have hcregu : c.regu = o.regu := by rw [hcomputed]
  have htregu : t.regu = { o.regu with served := [], recent := [], demand := t.regu.demand, dlWin := [] } := by
    rw [← hcregu, hparts]
  have htw : t.regu.w = o.regu.w := by rw [htregu]
  refine ⟨?_, ?_, ?_, ?_, ?_, ?_, ?_, fun e he => ?_⟩
  · rw [hrd (by decide) (by decide), hlocal, holocal]
  · rw [htregu]
  · rw [htregu]
  · rw [htregu]; exact hoslots
  · rw [htregu]; exact holast.trans hnow
  · rw [htw, how, hlen]
  · rw [hparts, hcomputed]; exact howork.trans hwork
  · rw [hrd, heff he, hlimit, htw]
    · rw [Block.effective_congr (howork.trans hwork), Block.wk_congr (howork.trans hwork), howork, hwork]
    all_goals
      simp only [REGU_GT_EFF_EFF, GLB_INT_PEND_PEND, Fld.key]
      omega

end Sys2Proof.Machine
end

section
/-! SUPPORT. The statements of the chapter on bandwidth regulation, settled. -/

namespace Sys2Proof

open Machine Machine.Reg

/-- Settles O29: a slice passes its one read or write to the end of its queue, or counts that it waits at its buoy; and a write that
waited for a way takes it when nothing is in it, and writes its own sector there. -/
theorem queueEntriesAndRetries : Obligations.QueueEntriesAndRetries := by
  intro s c
  refine ⟨fun x h => Block.rq_below_buoy_of_readReady h, fun x hm hr hw => ?_, fun x hm hr => ?_, fun w hm hr hlock hw => ?_, ?_⟩
  · refine State.answers_onBlock (f := fun b => b.insertRead c false) rfl ?_
    dsimp only
    rw [Block.insertRead_of_ready hm hr hw]
    exact ⟨⟨s.block.rdEntry c x, Block.readQueued_rq .., rfl, rfl, rfl, rfl, rfl, rfl, rfl⟩, Block.readQueued_miss hm, rfl⟩
  · refine State.answers_onBlock (f := fun b => b.insertRead c false) rfl ?_
    dsimp only
    rw [Block.insertRead_of_buoy hm hr]
    exact ⟨(Block.countedTo_count ..).1, Block.regsButCounted_count rfl (by have := c.isLt; simp only [ctrSlice]; omega)⟩
  · refine State.answers_onBlock (f := fun b => b.insertWrite c false) rfl ?_
    obtain ⟨hwq, hwb⟩ := Block.insertWrite_of_ready hm hr hlock hw
    exact ⟨⟨_, hwq, rfl, rfl, rfl, rfl, rfl⟩, hwb⟩
  · intro r k w hwait hop harea hdirect _ hdata hpoison hpar hst htags hbehind hmiss hhow hk habsent hstays hsettled _
    refine State.answers_onBlock (f := fun b => b.retryWaits c) rfl ?_
    have hbad : w.bad = false := by simp [WData.bad, hpoison, hpar]
    obtain ⟨hslices, htag, hsts, hdat, hothers⟩ := Block.retryWaits_write hwait hop harea hdirect hdata hbad hst htags hbehind hmiss
      hhow hk habsent hstays hsettled rfl
    generalize s.block.retryWaits c = t at *
    refine ⟨?_, htag, ?_, hdat, fun n hn => ?_, fun j n hj => ?_, fun d i => ?_⟩
    · rw [hslices]
      exact congrArg SliceSt.wait (Tab.get_set_self ..)
    · rw [hsts, Tab.get_set_self]
    · rw [hsts, Tab.get_set_of_ne _ _ hn]
      rfl
    · rw [(hothers j hj).1, (hothers j hj).2]
      exact ⟨rfl, rfl⟩
    · rw [hslices]
      refine congrArg (fun q : SliceSt => q.q.get i) (Tab.get_set ..) |>.trans ?_
      split
      · next hd => rw [hd]
      · rfl

/-- Settles O30: a boundary closes one window and opens the next, whose guarantees are computed after its record is kept and which
nothing after changes; and of the entries that the end of a window goes over, each that has fallen short shows its miss. -/
theorem windowsStartAndCountMisses : Obligations.WindowsStartAndCountMisses := by
  refine ⟨fun s => ⟨fun hdue => ?_, fun hdue hon hp => ?_⟩, fun b e he hvalid hdemand hserved heff => ?_⟩
  · show Host.Outcome.next { s with block := if s.block.localDue then s.block.windowBoundary true else s.block } = _
    rw [hdue]
    rfl
  · refine State.answers_onBlock (f := fun b => if b.localDue then b.windowBoundary true else b) rfl ?_
    rw [if_pos hdue]
    obtain ⟨hlocal, hserved, hdl, hslots, hlast, hw, hwork, heff⟩ := Block.windowBoundary_own hon hp rfl
    refine ⟨hlocal, hserved, hdl, hslots, hlast, hw, hwork, fun e he => (heff e he).trans ?_⟩
    unfold Block.effective
    split
    · rfl
    split
    · rfl
    · rfl
  · have hshort : b.fallsShort e (b.rd (REGU_GT_CNT_MISS e)) (b.served e) := ⟨hvalid, hdemand, rfl, hserved, rfl⟩
    obtain ⟨hmisses, hbit, hstatus, hlast, hunits⟩ := hshort.reguMisses he (hserved.trans heff)
    exact ⟨hmisses, hbit, hstatus, hlast, hunits⟩

end Sys2Proof
end

section
/-! SUPPORT. What a maintenance run does to the lines of its slice (R243 to R245, R247): which it selects, what it leaves of each,
and what it leaves of everything else that maintenance reads. -/

namespace Sys2Proof.Machine

open Reg

/-! ## What a run leaves as it was -/

/-- `t` is `b` in the lines outside `p`, the errors of the arrays, the runs of the slices and the registers of the slices
(0x40000 to 0x4FFFF). -/
structure Block.tendedTo (b t : Block) (p : Nat → Prop) : Prop where
  lines : ∀ j, ¬ p j → t.line j = b.line j
  err : t.arr.err = b.arr.err
  runs : ∀ c, (t.slices.get c).mnt = (b.slices.get c).mnt
  regs : ∀ g : Fld, 0x40000 * 32 ≤ g.key → g.key < 0x50000 * 32 → t.rd g = b.rd g

theorem Block.tendedTo_refl (b : Block) (p : Nat → Prop) : b.tendedTo b p :=
  ⟨fun _ _ => rfl, rfl, fun _ => rfl, fun _ _ _ => rfl⟩

theorem Block.tendedTo_of_kept {b t : Block} (p : Nat → Prop) (harr : t.arr = b.arr) (hslices : t.slices = b.slices)
    (hregs : t.regs = b.regs) : b.tendedTo t p :=
  ⟨fun j _ => by rw [Block.line, harr, Block.line], by rw [harr], fun c => by rw [hslices],
    fun g _ _ => Block.rd_congr _ _ hregs⟩

section
variable {b t u : Block} {p q : Nat → Prop}

theorem Block.tendedTo.trans (h : b.tendedTo t p) (h' : t.tendedTo u p) : b.tendedTo u p :=
  ⟨fun j hj => (h'.lines j hj).trans (h.lines j hj), h'.err.trans h.err, fun c => (h'.runs c).trans (h.runs c),
    fun g hlo hhi => (h'.regs g hlo hhi).trans (h.regs g hlo hhi)⟩

theorem Block.tendedTo.mono (h : b.tendedTo t p) (hpq : ∀ j, p j → q j) : b.tendedTo t q :=
  ⟨fun j hj => h.lines j (fun hp => hj (hpq j hp)), h.err, h.runs, h.regs⟩

theorem Block.tendedTo_ite (ht : b.tendedTo t p) (hu : b.tendedTo u p) (d : Prop) [Decidable d] :
    b.tendedTo (if d then t else u) p := by
  split
  · exact ht
  · exact hu

theorem Block.tendedTo.sliceState (h : b.tendedTo t p) (c : Fin 16) : t.sliceState c = b.sliceState c :=
  h.regs _ (by simp only [CCH_STATUS_STATE, Fld.key]; omega) (by have := c.isLt; simp only [CCH_STATUS_STATE, Fld.key]; omega)
end

section
variable (b : Block) (p : Nat → Prop)

theorem Block.tendedTo_wr {f : Fld} (v : Nat) (hf : f.key < 0x40000 * 32 ∨ 0x50000 * 32 ≤ f.key) : b.tendedTo (b.wr f v) p :=
  ⟨fun _ _ => rfl, rfl, fun _ => rfl, fun _ hlo hhi => Block.rd_wr_of_ne _ _ _ _ (by omega)⟩

theorem Block.tendedTo_count (n : Nat × Nat) (code amount : Nat) (c : Carry) : b.tendedTo (b.count n code amount c) p := by
  obtain ⟨hparts, hrd⟩ := b.countedTo_count n code amount c
  have hpend : GLB_INT_PEND_PEND.key < 0x40000 * 32 := by decide
  generalize b.count n code amount c = t at *
  exact ⟨fun _ _ => by rw [hparts]; rfl, by rw [hparts], fun _ => by rw [hparts], fun g hlo hhi => hrd g (by omega) (by omega)⟩

theorem Block.tendedTo_wake (n : Nat) : b.tendedTo (b.wake n) p := by
  have hshown (x : PwrSt) {f : Fld} (hf : 0x260000 * 32 ≤ f.key) : b.tendedTo ({ b with pwr := x }.wr f 1) p :=
    (Block.tendedTo_of_kept p rfl rfl rfl : b.tendedTo { b with pwr := x } p).trans
      (Block.tendedTo_wr _ p (f := f) 1 (.inr (by omega)))
  unfold Block.wake
  split
  · exact b.tendedTo_refl p
  · exact hshown _ (by simp only [PWR_CH_STATUS_WAKE_LATCHED, Fld.key]; omega)
  · exact Block.tendedTo_ite (hshown _ (by simp only [PWR_CH_STATUS_MOVING, Fld.key]; omega)) (b.tendedTo_refl p) _

theorem Block.tendedTo_updLine (k : Nat) (f : Line → Line) : b.tendedTo (b.updLine k f) (· = k) :=
  ⟨fun j hj => (Block.line_updLine b k j f).trans (if_neg hj), rfl, fun _ => rfl, fun _ _ _ => rfl⟩

theorem Block.slice_updSlice (c d : Nat) (f : SliceSt → SliceSt) :
    (b.updSlice c f).slices.get d = if d = c then f (b.slices.get c) else b.slices.get d := Tab.get_set ..

theorem Block.tendedTo_updSlice (c : Nat) {f : SliceSt → SliceSt} (hf : ∀ q, (f q).mnt = q.mnt) : b.tendedTo (b.updSlice c f) p := by
  refine ⟨fun _ _ => rfl, rfl, fun d => ?_, fun _ _ _ => rfl⟩
  rw [Block.slice_updSlice]
  split
  · next hd => rw [hf, hd]
  · rfl

theorem Block.tendedTo_cancelFills (k : Nat) : b.tendedTo (b.cancelFills k) p :=
  let h := b.tendedTo_updSlice p (keySlice k) (f := fun q => { q with
    miss := q.miss.map (fun x => if x.way = some k then { x with cancel := true } else x) }) (fun _ => rfl)
  ⟨h.lines, h.err, h.runs, h.regs⟩
end

/-! ## Write-backs of the dirty sectors (R243) -/

/-- Line `l` with some sectors written back: no dirty sector of it is left, and it is present if it was. -/
structure Line.cleanedTo (l m : Line) : Prop where
  sectors : ∀ n, n < 4 → m.st.get n = if l.st.get n = .d then .v else l.st.get n
  present : l.present = true → m.present = true

theorem Line.cleanedTo.trans {l m n : Line} (h : l.cleanedTo m) (h' : m.cleanedTo n) : l.cleanedTo n := by
  refine ⟨fun s hs => ?_, fun hl => h'.present (h.present hl)⟩
  rw [h'.sectors s hs, h.sectors s hs]
  by_cases hd : l.st.get s = .d <;> simp [hd]

/-- No data error lies in line `k` (R235). -/
def Block.lineSound (b : Block) (k : Nat) : Prop := ∀ n, n < 4 → b.arr.err.get (4 * k + n) = 0

theorem Block.dataRead_of_sound {b : Block} {k n : Nat} (h : b.arr.err.get (4 * k + n) = 0) : b.dataRead k n = (b, false) := by
  unfold Block.dataRead
  rw [h]
  rfl

/-- The write-backs of a sector have a number, and are counted (R231). -/
def Block.wbNumbered (b : Block) (k s : Nat) : Block :=
  b.newId.2.count (ctrSlice (keySlice k)) 5 1 { (default : Carry) with dpa := some (b.keyDpa k + 64 * s), tc := some (b.line k).cls }

/-- Write-backs of a sector wait in the slice, and the sector is no longer dirty. -/
def Block.wbListed (b : Block) (k s : Nat) (ws : List WriteBack) : Block :=
  (b.updSlice (keySlice k) (fun q => { q with wb := q.wb ++ ws })).updLine k (fun l => { l with
    wbLeft := l.wbLeft + ws.length, st := l.st.set s .v })

/-- A sector whose data has been read goes towards the write queues (R231, R243). -/
def Block.wbSent (b : Block) (k s : Nat) (ws : List WriteBack) : Block :=
  forEach ws ((b.wbNumbered k s).wbListed k s ws) (fun b w => b.wake w.route.chan)

/-- One sector of a line goes towards the write queues. -/
def Block.sectorSent (b : Block) (k mnt s : Nat) : Block :=
  (b.dataRead k s).1.wbSent k s ((b.dataRead k s).1.lineWriteBacks k s mnt).2

/-- The write-backs of a software operation are counted (R243). -/
def Block.wbCounted (b : Block) (mnt n : Nat) : Block := if mnt = 1 then b.addSat CCH_MNT_WB_CNT_CNT n else b

/-- The dirty sectors of a line. -/
def Block.dirtySecs (b : Block) (k : Nat) : List Nat := (List.range 4).filter (fun s => (b.line k).st.get s == .d)

theorem Block.sendDirty_eq (b : Block) (k mnt : Nat) : b.sendDirty k mnt =
    forEach (b.dirtySecs k) (b.wbCounted mnt (b.dirtySecs k).length) (fun b s => b.sectorSent k mnt s) := by
  unfold Block.sendDirty Block.sectorSent Block.wbSent Block.wbNumbered Block.wbListed Block.lineWriteBacks Block.dirtySecs
    Block.wbCounted
  rfl

theorem Block.sectorSent_spec {b : Block} {k s : Nat} (mnt : Nat) (h : b.arr.err.get (4 * k + s) = 0) :
    b.tendedTo (b.sectorSent k mnt s) (· = k)
    ∧ ((b.sectorSent k mnt s).line k).st = (b.line k).st.set s .v ∧ ((b.sectorSent k mnt s).line k).going = (b.line k).going := by
  rw [Block.sectorSent, Block.dataRead_of_sound h]
  generalize (b.lineWriteBacks k s mnt).2 = ws
  have hnumbered : b.tendedTo (b.wbNumbered k s) (fun _ => False) :=
    (Block.tendedTo_of_kept _ rfl rfl rfl : b.tendedTo b.newId.2 _).trans (Block.tendedTo_count ..)
  have hlisted : b.tendedTo ((b.wbNumbered k s).wbListed k s ws) (· = k) := (hnumbered.mono (fun _ => False.elim)).trans
    ((Block.tendedTo_updSlice (b.wbNumbered k s) _ (keySlice k) (f := fun q => { q with wb := q.wb ++ ws }) (fun _ => rfl)).trans
      (Block.tendedTo_updLine ..))
  have hwoken : ((b.wbNumbered k s).wbListed k s ws).tendedTo (b.wbSent k s ws) (fun _ => False) :=
    forEach_inv (Block.tendedTo _ · _) _ _ _ (fun t w _ ht => ht.trans (t.tendedTo_wake _ _)) (Block.tendedTo_refl ..)
  have hline : (b.wbSent k s ws).line k =
      { b.line k with wbLeft := (b.line k).wbLeft + ws.length, st := (b.line k).st.set s .v } := by
    rw [hwoken.lines k not_false, ← hnumbered.lines k not_false]
    exact (Block.line_updLine ..).trans (if_pos rfl)
  exact ⟨hlisted.trans (hwoken.mono (fun _ => False.elim)), by rw [hline], by rw [hline]⟩

theorem Tab.set_ne_nil {α : Type} [Inhabited α] [DecidableEq α] (t : Tab α) (k : Nat) {v : α} (hv : v ≠ default) :
    t.set k v ≠ [] := by
  rw [Tab.set, if_neg hv]
  cases t.drop k with
  | nil => simp [Tab.put]
  | cons e t => by_cases hk : k < e.1 <;> simp [Tab.put, hk]

/-- Sectors of a line written back one after the other. -/
theorem Block.sectorsSent_spec {b : Block} {k : Nat} (mnt : Nat) {l : List Nat} (hl : ∀ s ∈ l, s < 4) (h : b.lineSound k) :
    let t := forEach l b (fun b s => b.sectorSent k mnt s)
    b.tendedTo t (· = k) ∧ (∀ n, (t.line k).st.get n = if n ∈ l then .v else (b.line k).st.get n)
    ∧ ((b.line k).present = true → (t.line k).present = true) := by
  induction l generalizing b with
  | nil => exact ⟨b.tendedTo_refl _, fun n => by simp, id⟩
  | cons s l ih =>
    obtain ⟨htended, hst, hgoing⟩ := Block.sectorSent_spec mnt (h s (hl s List.mem_cons_self))
    have hsound : (b.sectorSent k mnt s).lineSound k := fun n hn => by rw [htended.err, h n hn]
    obtain ⟨hrest, hget, hpresent⟩ := ih (fun x hx => hl x (List.mem_cons_of_mem _ hx)) hsound
    refine ⟨htended.trans hrest, fun n => ?_, fun hp => hpresent ?_⟩
    · rw [forEach_cons, hget, hst, Tab.get_set]
      by_cases hn : n = s <;> simp [hn]
    · simp only [Line.present, hst, hgoing, Bool.and_eq_true] at hp ⊢
      exact ⟨by simp [List.isEmpty_eq_false_iff, Tab.set_ne_nil _ s (v := Sec.v) (by decide)], hp.2⟩

/-- The dirty sectors of a line go to the write queues, and nothing else of its slice's lines changes. -/
theorem Block.sendDirty_spec {b : Block} {k : Nat} (mnt : Nat) (h : b.lineSound k) :
    b.tendedTo (b.sendDirty k mnt) (· = k) ∧ (b.line k).cleanedTo ((b.sendDirty k mnt).line k) := by
  have hcounted : b.tendedTo (b.wbCounted mnt (b.dirtySecs k).length) (fun _ => False) :=
    Block.tendedTo_ite (b.tendedTo_wr _ _ (.inr (by decide))) (b.tendedTo_refl _) _
  have hsound : (b.wbCounted mnt (b.dirtySecs k).length).lineSound k := fun n hn => by rw [hcounted.err, h n hn]
  have hlt : ∀ s ∈ b.dirtySecs k, s < 4 := fun s hs => List.mem_range.mp (List.mem_of_mem_filter hs)
  obtain ⟨htended, hget, hpresent⟩ := Block.sectorsSent_spec mnt hlt hsound
  rw [← Block.sendDirty_eq, hcounted.lines k not_false] at hget hpresent
  rw [← Block.sendDirty_eq] at htended
  refine ⟨(hcounted.mono (fun _ => False.elim)).trans htended, fun n hn => ?_, hpresent⟩
  rw [hget]
  exact if_congr (by simp [Block.dirtySecs, hn]) rfl rfl

/-! ## A dropped line (R231, R247) -/

theorem Block.dropLine_spec {b : Block} {k : Nat} (writeBack : Bool) (mnt : Nat) (h : b.lineSound k) :
    b.tendedTo (b.dropLine k writeBack mnt) (· = k) ∧ ((b.dropLine k writeBack mnt).line k).present = false := by
  unfold Block.dropLine
  extract_lets sent cancelled marked
  have hsent : b.tendedTo sent (· = k) := Block.tendedTo_ite (Block.sendDirty_spec mnt h).1 (b.tendedTo_refl _) _
  have hmarked : sent.tendedTo marked (· = k) := (sent.tendedTo_cancelFills _ k).trans (Block.tendedTo_updLine ..)
  have hgoing : (marked.line k).going = true := by
    rw [Block.line_updLine, if_pos rfl]
  refine ⟨hsent.trans (hmarked.trans (Block.tendedTo_updLine ..)), ?_⟩
  rw [Block.freeLine, Block.line_updLine, if_pos rfl]
  split
  · rfl
  · simp [Line.present, hgoing]

/-! ## One line of a run (R243, R247) -/

/-- What a run leaves of a line it selects: CLEAN keeps it without a dirty sector, DISCARD keeps a pinned one as it was, and else
the line is dropped. -/
def MntRun.leaves (m : MntRun) (l l' : Line) : Prop :=
  if m.op = mntClean then l.cleanedTo l'
  else if m.op = mntDiscard ∧ l.pin = true then l' = l
  else l'.present = false

theorem MntRun.leaves.trans {m : MntRun} {l l' l'' : Line} (h : m.leaves l l') (h' : m.leaves l' l'') : m.leaves l l'' := by
  unfold MntRun.leaves at *
  split at h
  · next hop => rw [if_pos hop] at h' ⊢; exact h.trans h'
  next hop =>
  rw [if_neg hop] at h' ⊢
  split at h
  · next hkept => rw [h] at h'; rw [if_pos hkept] at h' ⊢; exact h'
  next hdropped =>
  rw [if_neg hdropped]
  split at h'
  · rw [h']; exact h
  · exact h'

theorem Block.mntLine_spec {b : Block} {m : MntRun} {k : Nat} (h : b.lineSound k) :
    b.tendedTo (b.mntLine m k) (· = k) ∧ m.leaves (b.line k) ((b.mntLine m k).line k) := by
  unfold Block.mntLine MntRun.leaves
  extract_lets pinned counted
  by_cases hclean : m.op = mntClean
  · rw [if_pos hclean, if_pos hclean]
    exact Block.sendDirty_spec m.owner h
  rw [if_neg hclean, if_neg hclean]
  by_cases hdiscard : m.op = mntDiscard
  · rw [if_pos hdiscard]
    by_cases hpin : (b.line k).pin = true
    · rw [if_pos (show pinned = true from hpin), if_pos (And.intro hdiscard hpin)]
      have hkept : b.tendedTo (if m.owner = 1 then b.bump CCH_MNT_REFUSED_CNT_CNT else b) (fun _ => False) :=
        Block.tendedTo_ite (b.tendedTo_wr _ _ (.inr (by decide))) (b.tendedTo_refl _) _
      exact ⟨hkept.mono (fun _ => False.elim), hkept.lines k not_false⟩
    · rw [if_neg (show ¬ pinned = true from hpin), if_neg (fun hc => hpin hc.2)]
      exact Block.dropLine_spec false m.owner h
  · rw [if_neg hdiscard, if_neg (fun hc => hdiscard hc.1)]
    have hcounted : b.tendedTo counted (fun _ => False) :=
      Block.tendedTo_ite (b.tendedTo_wr _ _ (.inr (by decide))) (b.tendedTo_refl _) _
    have hsound : counted.lineSound k := fun n hn => by rw [hcounted.err, h n hn]
    obtain ⟨htended, hpresent⟩ := Block.dropLine_spec true m.owner hsound
    exact ⟨(hcounted.mono (fun _ => False.elim)).trans htended, hpresent⟩

/-! ## All lines of a run -/

theorem Block.mntLines_spec {b : Block} (m : MntRun) {l : List Nat} (h : ∀ k ∈ l, b.lineSound k) :
    b.tendedTo (forEach l b (fun b k => b.mntLine m k)) (· ∈ l)
    ∧ ∀ k ∈ l, m.leaves (b.line k) ((forEach l b (fun b k => b.mntLine m k)).line k) := by
  induction l generalizing b with
  | nil => exact ⟨b.tendedTo_refl _, fun k hk => absurd hk List.not_mem_nil⟩
  | cons a l ih =>
    obtain ⟨hfirst, hleft⟩ := Block.mntLine_spec (m := m) (h a List.mem_cons_self)
    have hsound : ∀ k ∈ l, (b.mntLine m a).lineSound k := fun k hk n hn => by
      rw [hfirst.err, h k (List.mem_cons_of_mem _ hk) n hn]
    obtain ⟨hrest, hleaves⟩ := ih hsound
    rw [forEach_cons]
    refine ⟨(hfirst.mono (fun j hj => hj ▸ List.mem_cons_self)).trans (hrest.mono (fun j => List.mem_cons_of_mem _)), fun k hk => ?_⟩
    by_cases hka : k = a
    · subst hka
      by_cases hkl : k ∈ l
      · exact hleft.trans (hleaves k hkl)
      · rw [hrest.lines k hkl]
        exact hleft
    · rw [← hfirst.lines k hka]
      exact hleaves k ((List.mem_cons.mp hk).resolve_left hka)

theorem Tab.mem_keys_of_get_ne {α : Type} [Inhabited α] {t : Tab α} {k : Nat} (h : t.get k ≠ default) : ∃ e ∈ t, e.1 = k := by
  induction t with
  | nil => exact absurd rfl h
  | cons e t ih =>
    obtain ⟨j, v⟩ := e
    by_cases hj : j = k
    · exact ⟨_, List.mem_cons_self, hj⟩
    · rw [Tab.get, if_neg hj] at h
      obtain ⟨e, he, hk⟩ := ih h
      exact ⟨e, List.mem_cons_of_mem _ he, hk⟩

theorem Block.present_of_mntSelects {b : Block} {m : MntRun} {k : Nat} (h : b.mntSelects m k = true) : (b.line k).present = true := by
  simp only [Block.mntSelects, Bool.and_eq_true] at h
  exact h.1.1

/-- The lines of slice `c` that a run selects, as the arrays list them. -/
def Block.mntKeys (b : Block) (c : Nat) (m : MntRun) : List Nat :=
  (b.arr.lines.filter (fun e => keySlice e.1 == c && b.mntSelects m e.1)).map (fun e => e.1)

theorem Block.mem_mntKeys {b : Block} {c k : Nat} {m : MntRun} : k ∈ b.mntKeys c m ↔ keySlice k = c ∧ b.mntSelects m k = true := by
  simp only [Block.mntKeys, List.mem_map, List.mem_filter, Bool.and_eq_true, beq_iff_eq]
  constructor
  · rintro ⟨e, ⟨-, h⟩, rfl⟩
    exact h
  · rintro ⟨hc, hsel⟩
    have hne : b.arr.lines.get k ≠ default := fun hd => by
      have hp := Block.present_of_mntSelects hsel
      rw [Block.line, hd] at hp
      exact absurd hp (by decide)
    obtain ⟨e, he, rfl⟩ := Tab.mem_keys_of_get_ne hne
    exact ⟨e, ⟨he, hc, hsel⟩, rfl⟩

/-- Tags without upset bits are read without effect (R217), so that a run acts on the lines it selects, and on these alone. -/
theorem Block.mntApply_of_sound {b : Block} {c : Nat} (m : MntRun) (h : b.soundSlice c) :
    b.mntApply c m = forEach (b.mntKeys c m) b (fun b k => b.mntLine m k) := by
  have hread : forEach ((b.arr.lines.filter (fun e => keySlice e.1 == c && m.walks e.1
      && decide (keyWay e.1 < 16 - b.scratchWays))).map (fun e => e.1)) b Block.tagCheck = b := by
    refine forEach_fixed _ _ _ (fun k hk => ?_)
    obtain ⟨e, he, rfl⟩ := List.mem_map.mp hk
    have hc := (List.mem_filter.mp he).2
    simp only [Bool.and_eq_true, beq_iff_eq] at hc
    obtain ⟨h0, h1, -⟩ := h e.1 hc.1.1
    exact if_pos ⟨h0, h1⟩
  unfold Block.mntApply
  dsimp only
  rw [hread]
  rfl

theorem Block.mntApply_spec {b : Block} {c : Nat} (m : MntRun) (h : b.soundSlice c) :
    b.tendedTo (b.mntApply c m) (fun k => keySlice k = c ∧ b.mntSelects m k = true)
    ∧ ∀ k, keySlice k = c → b.mntSelects m k = true → m.leaves (b.line k) ((b.mntApply c m).line k) := by
  rw [Block.mntApply_of_sound m h]
  obtain ⟨htended, hleaves⟩ := Block.mntLines_spec m (fun k hk => (h k (Block.mem_mntKeys.mp hk).1).2.2)
  exact ⟨htended.mono (fun k => Block.mem_mntKeys.mp), fun k hc hsel => hleaves k (Block.mem_mntKeys.mpr ⟨hc, hsel⟩)⟩

end Sys2Proof.Machine
end

section
/-! SUPPORT. The start and the end of a maintenance run (R243, R246), and the walk of a slice that enters bypass (R248). -/

namespace Sys2Proof.Machine

open Reg

/-! ## The start of a run (R246) -/

theorem Block.mntStart_of_clear {b : Block} {c : Nat} {m : MntRun}
    (hfind : (b.slices.get c).mnt.find? (fun x => !x.started) = some m) (hst : b.sliceState c = 0) (hclear : b.mntClear c m = true) :
    b.mntStart c = (b.updSlice c (fun q => { q with
      mnt := updFirst (fun x => !x.started) (fun x => { x with started := true }) q.mnt })).mntApply c m := by
  unfold Block.mntStart
  rw [hfind]
  simp only [hst, hclear, bne_self_eq_false, Bool.not_true, Bool.or_self, Bool.false_eq_true, if_false]

theorem MntRun.leaves.cleaned {m : MntRun} {l l' : Line} (h : m.leaves l l') (hop : m.op = mntClean) : l.cleanedTo l' := by
  rwa [MntRun.leaves, if_pos hop] at h

theorem MntRun.leaves.dropped {m : MntRun} {l l' : Line} (h : m.leaves l l') (hclean : m.op ≠ mntClean)
    (hkept : m.op = mntDiscard → l.pin = false) : l'.present = false := by
  rwa [MntRun.leaves, if_neg hclean, if_neg (fun hc => by simp [hkept hc.1] at hc)] at h

theorem MntRun.leaves.pinned {m : MntRun} {l l' : Line} (h : m.leaves l l') (hop : m.op = mntDiscard) (hpin : l.pin = true) :
    l' = l := by
  rwa [MntRun.leaves, if_neg (by rw [hop]; decide), if_pos (And.intro hop hpin)] at h

theorem maintenanceSliceStart_answers {s : State} {c : Fin 16} {m : MntRun}
    (hfind : (s.block.slices.get c).mnt.find? (fun x => !x.started) = some m) (hst : s.block.sliceState c = 0)
    (hclear : s.block.mntClear c m = true) (hsound : s.block.soundSlice c) :
    s.answers (.maintenanceSliceStart c) (fun b =>
      (b.slices.get c).mnt = updFirst (fun x => !x.started) (fun x => { x with started := true }) (s.block.slices.get c).mnt
      ∧ ∀ k, keySlice k = c.val →
        (s.block.mntSelects m k = false → b.line k = s.block.line k)
        ∧ (s.block.mntSelects m k = true → m.leaves (s.block.line k) (b.line k))) := by
  refine State.answers_onBlock (f := fun b => b.mntStart c) rfl ?_
  rw [Block.mntStart_of_clear hfind hst hclear]
  obtain ⟨htended, hleaves⟩ := Block.mntApply_spec (b := s.block.updSlice c (fun q => { q with
      mnt := updFirst (fun x => !x.started) (fun x => { x with started := true }) q.mnt })) m hsound
  refine ⟨?_, fun k hk => ⟨fun hsel => htended.lines k (fun hc => ?_), hleaves k hk⟩⟩
  · rw [htended.runs, Block.slice_updSlice, if_pos rfl]
  · exact Bool.false_ne_true (hsel.symm.trans hc.2)

/-! ## The end of the software operation (R243) -/

/-- The runs of slice `c` that are at their completion point leave it. -/
def Block.mntRetired (b : Block) (c : Nat) : Block :=
  let done := (b.slices.get c).mnt.filter (fun m => b.mntDone c m)
  if done.isEmpty then b else b.updSlice c (fun q => { q with mnt := q.mnt.filter (fun m => !done.contains m) })

/-- The software operation is over: BUSY falls and CODE tells whether a pinned line was refused (R243). -/
def Block.mntOver (b : Block) : Block :=
  let b := b.wr CCH_MNT_STATUS_BUSY 0
  let b := b.wr CCH_MNT_STATUS_CODE (if b.rd CCH_MNT_REFUSED_CNT_CNT = 0 then 0 else 1)
  b.intr 10 (b.on CCH_MNT_STATUS_INT_DONE)

/-- A software operation runs, but no slice holds a run of it. -/
def Block.mntIdle (b : Block) : Bool := b.on CCH_MNT_STATUS_BUSY && !b.slices.any (fun e => e.2.mnt.any (fun m => m.owner == 1))

theorem Block.mntRetire_eq (b : Block) : b.mntRetire = (if (forEach (List.range 16) b Block.mntRetired).mntIdle = true
    then (forEach (List.range 16) b Block.mntRetired).mntOver else forEach (List.range 16) b Block.mntRetired) := by
  unfold Block.mntRetire Block.mntIdle Block.mntOver
  rfl

/-- `t` is `b` without the runs of its slices: none is left. -/
structure Block.retiredTo (b t : Block) : Prop where
  parts : t = { b with slices := t.slices }
  runs : ∀ e ∈ t.slices, e.2.mnt = []

theorem Block.mntRetired_of_none {b : Block} {c : Nat} (h : (b.slices.get c).mnt = []) : b.mntRetired c = b := by
  unfold Block.mntRetired
  rw [h]
  rfl

theorem Tab.get_of_forall {α : Type} [Inhabited α] {t : Tab α} {P : α → Prop} (h : ∀ e ∈ t, P e.2) (hd : P default) (k : Nat) :
    P (t.get k) := by
  induction t with
  | nil => exact hd
  | cons e t ih =>
    obtain ⟨j, v⟩ := e
    by_cases hj : j = k
    · rw [Tab.get, if_pos hj]
      exact h _ List.mem_cons_self
    · rw [Tab.get, if_neg hj]
      exact ih (fun e he => h e (List.mem_cons_of_mem _ he))

/-- The slice that alone has runs loses them when they are all at their completion point (R243). -/
theorem Block.mntRetired_alone {b : Block} {c : Nat} {q : SliceSt} (hs : b.slices = [(c, q)]) (h : ∀ m ∈ q.mnt, b.mntDone c m = true) :
    b.retiredTo (b.mntRetired c) := by
  have hget : b.slices.get c = q := by rw [hs]; exact if_pos rfl
  have hdone : (b.slices.get c).mnt.filter (fun m => b.mntDone c m) = q.mnt := by rw [hget]; exact List.filter_eq_self.mpr h
  unfold Block.mntRetired
  rw [hdone]
  dsimp only
  split
  · next hnone =>
    refine ⟨rfl, fun e he => ?_⟩
    rw [hs, List.mem_singleton] at he
    rw [he]
    exact List.isEmpty_iff.mp hnone
  · refine ⟨rfl, fun e he => ?_⟩
    have hleft : q.mnt.filter (fun m => !q.mnt.contains m) = [] := by simp
    rw [Block.updSlice, Tab.upd, hget, hs, hleft] at he
    simp only [Tab.set, Tab.drop, if_true] at he
    split at he
    · exact absurd he List.not_mem_nil
    · rw [Tab.put, List.mem_singleton] at he
      rw [he]

theorem Block.mntRetired_each {b : Block} {c : Nat} {q : SliceSt} (hc : c < 16) (hs : b.slices = [(c, q)])
    (h : ∀ m ∈ q.mnt, b.mntDone c m = true) : b.retiredTo (forEach (List.range 16) b Block.mntRetired) := by
  refine forEach_of_round (P := fun t => t = b) (Q := b.retiredTo) List.nodup_range (List.mem_range.mpr hc) ?_ ?_ ?_ rfl
  · rintro t x - hx rfl
    refine Block.mntRetired_of_none ?_
    rw [hs, Tab.get, if_neg (Ne.symm hx)]
    rfl
  · rintro t rfl
    exact Block.mntRetired_alone hs h
  · intro t x _ _ ht
    rw [Block.mntRetired_of_none (Tab.get_of_forall (P := fun q : SliceSt => q.mnt = []) ht.runs rfl x)]
    exact ht

/-- The registers that the end of a software operation writes. -/
def mntOverKeys : List Nat := [CCH_MNT_STATUS_BUSY.key, CCH_MNT_STATUS_CODE.key, GLB_INT_PEND_PEND.key]

theorem Block.mntOver_onlyRegs (b : Block) : b.onlyRegs b.mntOver mntOverKeys :=
  Block.onlyRegs_intr (Block.onlyRegs_wr (Block.onlyRegs_wr (b.onlyRegs_refl _) _ (by decide)) _ (by decide)) _ (by decide)

theorem Block.mntOver_shown (b : Block) : b.mntOver.rd CCH_MNT_STATUS_BUSY = 0
    ∧ b.mntOver.rd CCH_MNT_STATUS_CODE = (if b.rd CCH_MNT_REFUSED_CNT_CNT = 0 then 0 else 1)
    ∧ (b.rd CCH_MNT_STATUS_INT_DONE ≠ 0 → b.mntOver.bit GLB_INT_PEND_PEND 10 = true) := by
  unfold Block.mntOver
  dsimp only
  refine ⟨?_, ?_, fun hint => ?_⟩
  · rw [Block.rd_intr _ _ _ _ (by decide), Block.rd_wr_of_ne _ _ _ _ (by decide), Block.rd_wr_self]
    rfl
  · rw [Block.rd_intr _ _ _ _ (by decide), Block.rd_wr_self, Block.rd_wr_of_ne _ _ _ _ (by decide)]
    split <;> rfl
  · rw [(Block.on_iff _ _).mpr (by rwa [Block.rd_wr_of_ne _ _ _ _ (by decide), Block.rd_wr_of_ne _ _ _ _ (by decide)])]
    exact Block.bit_intr _ _ (by decide)

theorem maintenanceComplete_answers {s : State} {c : Fin 16} {q : SliceSt} (hbusy : s.block.rd CCH_MNT_STATUS_BUSY ≠ 0)
    (hs : s.block.slices = [(c.val, q)]) (h : ∀ m ∈ q.mnt, s.block.mntDone c m = true) :
    s.answers .maintenanceComplete (fun b => b.rd CCH_MNT_STATUS_BUSY = 0
      ∧ b.rd CCH_MNT_STATUS_CODE = (if s.block.rd CCH_MNT_REFUSED_CNT_CNT = 0 then 0 else 1) ∧ (b.slices.get c).mnt = []
      ∧ (s.block.rd CCH_MNT_STATUS_INT_DONE ≠ 0 → b.bit GLB_INT_PEND_PEND 10 = true)
      ∧ b = { s.block with regs := b.regs, slices := b.slices } ∧ s.block.regsBut b mntOverKeys) := by
  obtain ⟨hparts, hruns⟩ := Block.mntRetired_each c.isLt hs h
  refine State.answers_onBlock (f := Block.mntRetire) rfl ?_
  rw [Block.mntRetire_eq]
  generalize forEach (List.range 16) s.block Block.mntRetired = t at *
  have hrd (g : Fld) : t.rd g = s.block.rd g := Block.rd_congr _ _ (by rw [hparts])
  have hidle : t.mntIdle = true := by
    have hany : t.slices.any (fun e => e.2.mnt.any (fun m => m.owner == 1)) = false :=
      List.any_eq_false.mpr (fun e he => by rw [hruns e he]; simp)
    rw [Block.mntIdle, hany, (Block.on_iff _ _).mpr (by rwa [hrd])]
    rfl
  rw [if_pos hidle]
  obtain ⟨hover, hframe⟩ := t.mntOver_onlyRegs
  obtain ⟨hfell, hcode, hint⟩ := t.mntOver_shown
  rw [hrd] at hcode hint
  refine ⟨hfell, hcode, ?_, hint, ?_, fun g hg => (hframe g hg).trans (hrd g)⟩
  · rw [hover]
    exact Tab.get_of_forall (P := fun q : SliceSt => q.mnt = []) hruns rfl c
  · rw [hover]
    exact congrArg (fun x : Block => { x with regs := t.mntOver.regs }) hparts

end Sys2Proof.Machine
end

section
/-! SUPPORT. The states of a slice (R242, R248): the walk of ENTERING, the invalidation of EXITING, and what CCH_CTL.BYPASS asks. -/

namespace Sys2Proof.Machine

open Reg

/-! ## What CCH_CTL.BYPASS asks (R248) -/

section
variable {b : Block} {c : Nat}

theorem Block.bypassWish_of_normal (h : b.sliceState c = 0) : b.bypassWish c = if b.on (CCH_CTL_BYPASS c) then b.bypassEnter c else b := by
  unfold Block.bypassWish
  rw [h]
  rfl

theorem Block.bypassWish_of_bypass (h : b.sliceState c = 2) :
    b.bypassWish c = if b.on (CCH_CTL_BYPASS c) then b else b.wr (CCH_STATUS_STATE c) 3 := by
  unfold Block.bypassWish
  rw [h]
  rfl

/-- In a slice that is not in NORMAL the wish may change its state, and nothing else. -/
theorem Block.bypassWish_onlyRegs (h : b.sliceState c ≠ 0) : b.onlyRegs (b.bypassWish c) [(CCH_STATUS_STATE c).key] := by
  unfold Block.bypassWish
  dsimp only
  split
  · next h0 => exact absurd h0 h
  · split
    · exact b.onlyRegs_refl _
    · exact Block.onlyRegs_wr (b.onlyRegs_refl _) _ List.mem_cons_self
  · exact b.onlyRegs_refl _

/-! ## The walk of ENTERING (R248) -/

theorem bypassWalk_walks (k : Nat) : bypassWalk.walks k = true := by
  have hset : keySet k < 512 := Nat.mod_lt _ (by decide)
  have hway : ∀ w, w < 16 → bitOf 65535 w = true := by decide
  simp only [MntRun.walks, bypassWalk, Bool.and_eq_true, decide_eq_true_eq]
  exact ⟨⟨Nat.zero_le _, by omega⟩, hway _ (Nat.mod_lt _ (by decide))⟩

/-- The walk selects every line of a normal or pinned way. -/
theorem Block.mntSelects_bypassWalk (k : Nat) :
    b.mntSelects bypassWalk k = ((b.line k).present && decide (keyWay k < 16 - b.scratchWays)) := by
  show ((b.line k).present && decide (keyWay k < 16 - b.scratchWays) && bypassWalk.walks k) = _
  rw [bypassWalk_walks, Bool.and_true]

/-- The walk drops every line of its slice, and changes no line of another slice and no state. -/
theorem Block.bypassRun_spec {c : Fin 16} (hwalk : (b.slices.get c).mnt.contains bypassWalk = true) (h : b.soundSlice c) :
    (∀ k, keySlice k = c → keyWay k < 16 - b.scratchWays → ((b.bypassRun c).line k).present = false)
    ∧ (∀ k, keySlice k ≠ c → (b.bypassRun c).line k = b.line k) ∧ (b.bypassRun c).sliceState c = b.sliceState c := by
  unfold Block.bypassRun
  rw [if_pos hwalk]
  obtain ⟨htended, hleaves⟩ := Block.mntApply_spec
    (b := b.updSlice c (fun q => { q with mnt := q.mnt.filter (fun m => m != bypassWalk) })) bypassWalk h
  refine ⟨fun k hk hway => ?_, fun k hk => htended.lines k (fun hc => hk hc.1), htended.sliceState c⟩
  by_cases hp : (b.line k).present = true
  · have hsel : b.mntSelects bypassWalk k = true := by rw [Block.mntSelects_bypassWalk, hp, decide_eq_true hway]; rfl
    exact (hleaves k hk hsel).dropped (by decide) (fun hop => absurd hop (by decide))
  · exact (congrArg Line.present (htended.lines k (fun hc => hp (Block.present_of_mntSelects (b := b.updSlice c _) hc.2)))).trans (eq_false_of_ne_true hp)

theorem Block.bypassRun_of_none (h : (b.slices.get c).mnt.contains bypassWalk = false) : b.bypassRun c = b :=
  if_neg (by rw [h]; decide)

/-! ## The end of ENTERING -/

/-- The write-backs of the walk are accepted: the slice is in BYPASS, and no run is left in it (R247, R248). -/
def Block.bypassPassed (b : Block) (c : Nat) : Block := (b.wr (CCH_STATUS_STATE c) 2).updSlice c (fun q => { q with mnt := [] })

theorem Block.bypassPassed_sliceState : (b.bypassPassed c).sliceState c = 2 := Block.rd_wr_self b (CCH_STATUS_STATE c) 2

theorem Block.bypassEntered_of_passed (h : b.sliceState c = 1) (hst : (b.bypassRun c).sliceState c = 1)
    (hp : (b.bypassRun c).mntPassing c mntBypass = false) : b.bypassEntered c = ((b.bypassRun c).bypassPassed c).bypassWish c := by
  unfold Block.bypassEntered
  rw [if_pos h]
  exact if_pos ⟨hst, by rw [hp]; rfl⟩

theorem Block.bypassEntered_of_passing (h : b.sliceState c = 1) (hp : (b.bypassRun c).mntPassing c mntBypass = true) :
    b.bypassEntered c = b.bypassRun c := by
  unfold Block.bypassEntered
  rw [if_pos h]
  exact if_neg (by simp [hp])

theorem Block.wb_of_not_passing {n : Nat} (h : b.mntPassing c n = false) : ∀ w ∈ (b.slices.get c).wb, w.mnt ≠ n := by
  intro w hw he
  have hany := (Bool.or_eq_false_iff.mp h).1
  exact List.any_eq_false.mp hany w hw (by rw [he]; exact beq_self_eq_true n)

end

theorem bypassEntryComplete_walks {s : State} {c : Fin 16} (hst : s.block.sliceState c = 1)
    (hwalk : (s.block.slices.get c).mnt.contains bypassWalk = true) (h : s.block.soundSlice c) :
    s.answers (.bypassEntryComplete c) (fun b =>
      (∀ k, keySlice k = c.val → keyWay k < 16 - s.block.scratchWays → (b.line k).present = false)
      ∧ (∀ k, keySlice k ≠ c.val → b.line k = s.block.line k)
      ∧ (b.sliceState c = 1 ∨ ∀ w ∈ (b.slices.get c).wb, w.mnt ≠ mntBypass)) := by
  refine State.answers_onBlock (f := fun b => b.bypassEntered c) rfl ?_
  obtain ⟨hdropped, hkept, hstate⟩ := Block.bypassRun_spec hwalk h
  rw [hst] at hstate
  cases hp : (s.block.bypassRun c).mntPassing c mntBypass with
  | true =>
    rw [Block.bypassEntered_of_passing hst hp]
    exact ⟨hdropped, hkept, .inl hstate⟩
  | false =>
    rw [Block.bypassEntered_of_passed hst hstate hp]
    obtain ⟨hwish, -⟩ := Block.bypassWish_onlyRegs (c := c) (b := (s.block.bypassRun c).bypassPassed c)
      (by rw [Block.bypassPassed_sliceState]; decide)
    rw [hwish]
    refine ⟨hdropped, hkept, .inr ?_⟩
    show ∀ w ∈ (((s.block.bypassRun c).bypassPassed c).slices.get c).wb, w.mnt ≠ mntBypass
    rw [Block.bypassPassed, Block.slice_updSlice, if_pos rfl]
    exact Block.wb_of_not_passing hp

theorem bypassEntryComplete_passes {s : State} {c : Fin 16} (hst : s.block.sliceState c = 1)
    (hwalk : (s.block.slices.get c).mnt.contains bypassWalk = false) (hp : s.block.mntPassing c mntBypass = false)
    (hon : s.block.rd (CCH_CTL_BYPASS c) = 1) :
    s.answers (.bypassEntryComplete c) (fun b => b.sliceState c = 2 ∧ (b.slices.get c).mnt = [] ∧ b.arr = s.block.arr
      ∧ s.block.onlyRegs { b with slices := s.block.slices } [(CCH_STATUS_STATE c).key]) := by
  refine State.answers_onBlock (f := fun b => b.bypassEntered c) rfl ?_
  have hrun := Block.bypassRun_of_none hwalk
  have hwish : (s.block.bypassPassed c).on (CCH_CTL_BYPASS c) = true := by
    rw [Block.on_iff, Block.bypassPassed, Block.rd_updSlice, Block.rd_wr_of_ne _ _ _ _
      (by simp only [CCH_CTL_BYPASS, CCH_STATUS_STATE, Fld.key]; omega), hon]
    decide
  rw [Block.bypassEntered_of_passed hst (by rw [hrun, hst]) (by rw [hrun, hp]), hrun,
    Block.bypassWish_of_bypass Block.bypassPassed_sliceState, if_pos hwish]
  refine ⟨Block.bypassPassed_sliceState, ?_, rfl,
    Block.onlyRegs_wr (f := CCH_STATUS_STATE c) (s.block.onlyRegs_refl _) 2 List.mem_cons_self⟩
  rw [Block.bypassPassed, Block.slice_updSlice, if_pos rfl]

/-! ## The end of EXITING (R242, R248) -/

/-- A slice without lines and runs is in NORMAL. -/
def Block.bypassCleared (b : Block) (c : Nat) : Block :=
  ((b.invalidateTags c).wr (CCH_STATUS_STATE c) 0).updSlice c (fun q => { q with mnt := [] })

section
variable {b : Block} {c : Nat}

theorem Block.bypassExited_of_off (h : b.sliceState c = 3) (hoff : b.rd (CCH_CTL_BYPASS c) = 0) :
    b.bypassExited c = b.bypassCleared c := by
  have hst : (b.bypassCleared c).sliceState c = 0 := Block.rd_wr_self (b.invalidateTags c) (CCH_STATUS_STATE c) 0
  have hwish : (b.bypassCleared c).rd (CCH_CTL_BYPASS c) = 0 := by
    rw [Block.bypassCleared, Block.rd_updSlice, Block.rd_wr_of_ne _ _ _ _
      (by simp only [CCH_CTL_BYPASS, CCH_STATUS_STATE, Fld.key]; omega)]
    exact hoff
  unfold Block.bypassExited
  rw [if_pos h]
  exact (Block.bypassWish_of_normal hst).trans (if_neg (by rw [(Block.on_false _ _).mpr hwish]; decide))

theorem Block.line_bypassCleared (k : Nat) : (b.bypassCleared c).line k = if keySlice k = c then default else b.line k := by
  show Tab.get (b.arr.lines.filter (fun e => keySlice e.1 != c)) k = _
  rw [Tab.get_filter b.arr.lines (fun k => keySlice k != c)]
  by_cases hk : keySlice k = c <;> simp [hk, Block.line]

theorem Block.invalidateTags_queue : ((b.invalidateTags c).slices.get c).q = (b.slices.get c).q := by
  unfold Block.invalidateTags
  dsimp only
  rw [Block.slice_updSlice, if_pos rfl]

theorem Block.bypassCleared_queue : ((b.bypassCleared c).slices.get c).q = (b.slices.get c).q := by
  rw [Block.bypassCleared, Block.slice_updSlice, if_pos rfl]
  exact Block.invalidateTags_queue

end

theorem bypassExitComplete_answers {s : State} {c : Fin 16} (hst : s.block.sliceState c = 3)
    (hoff : s.block.rd (CCH_CTL_BYPASS c) = 0) :
    s.answers (.bypassExitComplete c) (fun b => b.sliceState c = 0
      ∧ (∀ k : Nat, keySlice k = c.val → b.line k = default) ∧ (∀ k : Nat, keySlice k ≠ c.val → b.line k = s.block.line k)
      ∧ (∀ i : Nat, (b.slices.get c).q.get i = (s.block.slices.get c).q.get i) ∧ b.arr.scratch = s.block.arr.scratch
      ∧ s.block.regsBut b [(CCH_STATUS_STATE c).key]) := by
  refine State.answers_onBlock (f := fun b => b.bypassExited c) rfl ?_
  rw [Block.bypassExited_of_off hst hoff]
  refine ⟨Block.rd_wr_self (s.block.invalidateTags c) (CCH_STATUS_STATE c) 0, fun k hk => ?_, fun k hk => ?_, fun i => ?_, rfl,
    fun g hg => ?_⟩
  · rw [Block.line_bypassCleared, if_pos hk]
  · rw [Block.line_bypassCleared, if_neg hk]
  · rw [Block.bypassCleared_queue]
  · exact Block.rd_wr_of_ne (s.block.invalidateTags c) (CCH_STATUS_STATE c) g 0 (fun he => hg (he ▸ List.mem_cons_self))

/-! ## Writes of CCH_CTL -/

/-- A block into which the fields of a word of CCH_CTL have been stored: BYPASS keeps its value in harbour mode (R1, R248). -/
def Block.cchStored (b : Block) (c : Nat) (w : Word) : Block :=
  if b.harbour then b.wr (CCH_CTL_INT_EN c) (fieldOf w (CCH_CTL_INT_EN c))
  else (b.wr (CCH_CTL_INT_EN c) (fieldOf w (CCH_CTL_INT_EN c))).wr (CCH_CTL_BYPASS c) (fieldOf w (CCH_CTL_BYPASS c))

theorem Block.harbour_wr_cch (b : Block) (c v : Nat) : (b.wr (CCH_CTL_INT_EN c) v).harbour = b.harbour := by
  rw [Block.harbour, Block.rd_wr_of_ne _ _ _ _ (by simp only [CCH_CTL_INT_EN, HBR_STATUS_STATE, Fld.key]; omega), Block.harbour]

theorem Block.performReg_CCH_CTL (b : Block) (role : Role) (c : Fin 16) (old : Nat) (w : Word) (x : Aux) :
    b.performReg role reg_CCH_CTL [c.val] (CCH_CTL_BYPASS c).off old w x = (b.cchStored c w).bypassWish c := by
  unfold Block.performReg
  rw [if_neg (by simp [Block.deafInstance, Block.idleInstance, reg_CCH_CTL]), if_neg (by simp [isMnt, reg_CCH_CTL]),
    if_neg (by simp [reg_CCH_CTL])]
  have hstored : b.storeWord reg_CCH_CTL [c.val] (CCH_CTL_BYPASS c).off w.toNat = b.cchStored c w := by
    show (if (b.wr (CCH_CTL_INT_EN c) (fieldOf w (CCH_CTL_INT_EN c))).harbour then _ else _) = _
    rw [Block.harbour_wr_cch]
    rfl
  rw [hstored]
  rfl

/-- A granted CCH_CTL as its effect finds the block: recorded, and its fields stored. -/
def Block.cchNoted (b : Block) (role : Role) (c : Nat) (w : Word) : Block :=
  (b.noted role reg_CCH_CTL (CCH_CTL_BYPASS c).off w).cchStored c w

theorem writeReg_CCH_CTL {s : State} {role : Role} {c : Fin 16} {w : Word} (hg : s.grants role (CCH_CTL_BYPASS c).off w) :
    writeReg role (CCH_CTL_BYPASS c).off w default s
      = .next { s with block := ((s.block.cchNoted role c w).bypassWish c).mgAnswer false 0 } := by
  have hroom : s.block.recRoom (1 + s.block.fenceRecs reg_CCH_CTL.name w.toNat) = true := hg.2.2.2
  have hoff : (CCH_CTL_BYPASS c).off = 0x40004 + 0x1000 * c.val := rfl
  exact (writeReg_go default hg (find_CCH_CTL c) (by omega) (by omega) (by decide) hroom).trans
    (by rw [Block.written, Block.performReg_CCH_CTL]; rfl)

section
variable {b : Block} {role : Role} {c : Fin 16} {w : Word}

theorem Block.cchStored_onlyRegs (b : Block) (c : Nat) (w : Word) :
    b.onlyRegs (b.cchStored c w) [(CCH_CTL_BYPASS c).key, (CCH_CTL_INT_EN c).key] := by
  have hint := Block.onlyRegs_wr (f := CCH_CTL_INT_EN c) (b.onlyRegs_refl [(CCH_CTL_BYPASS c).key, (CCH_CTL_INT_EN c).key])
    (fieldOf w (CCH_CTL_INT_EN c)) (List.mem_cons_of_mem _ List.mem_cons_self)
  unfold Block.cchStored
  split
  · exact hint
  · exact Block.onlyRegs_wr (f := CCH_CTL_BYPASS c) hint _ List.mem_cons_self

theorem Block.cchNoted_parts : b.cchNoted role c w = { b with
    regs := (b.cchNoted role c w).regs, mg := (b.noted role reg_CCH_CTL (CCH_CTL_BYPASS c).off w).mg } := by
  rw [Block.cchNoted, (Block.cchStored_onlyRegs _ _ _).1, Block.noted_parts]

theorem Block.cchNoted_regsBut : b.regsBut (b.cchNoted role c w) ([(CCH_CTL_BYPASS c).key, (CCH_CTL_INT_EN c).key] ++ audKeys) := by
  intro g hg
  rw [List.mem_append, not_or] at hg
  rw [Block.cchNoted, (Block.cchStored_onlyRegs _ _ _).2 g hg.1, Block.noted_rd _ _ _ _ _ _ hg.2]

theorem cchKeys_state : ∀ c : Fin 16, (CCH_STATUS_STATE c).key ∉ [(CCH_CTL_BYPASS c).key, (CCH_CTL_INT_EN c).key] ++ audKeys := by
  decide

theorem cchKeys_bypass : ∀ c : Fin 16, (CCH_CTL_BYPASS c).key ∉ audKeys ∧ (CCH_CTL_BYPASS c).key ≠ (CCH_CTL_INT_EN c).key
    ∧ (CCH_CTL_BYPASS c).key ≠ (CCH_STATUS_STATE c).key := by decide

theorem Block.cchNoted_sliceState : (b.cchNoted role c w).sliceState c = b.sliceState c :=
  Block.cchNoted_regsBut _ (cchKeys_state c)

theorem Block.noted_harbour (role : Role) (r : RegInfo) (off : Nat) (w : Word) : (b.noted role r off w).harbour = b.harbour := by
  rw [Block.harbour, Block.noted_rd _ _ _ _ _ _ (by decide), Block.harbour]

/-- Outside harbour mode BYPASS takes the value written; in harbour mode it keeps its own (R248). -/
theorem Block.cchNoted_bypass : (b.cchNoted role c w).rd (CCH_CTL_BYPASS c) =
    if b.harbour then b.rd (CCH_CTL_BYPASS c) else fieldOf w (CCH_CTL_BYPASS c) := by
  obtain ⟨haud, hint, -⟩ := cchKeys_bypass c
  rw [Block.cchNoted, Block.cchStored, Block.noted_harbour]
  split
  · rw [Block.rd_wr_of_ne _ _ _ _ hint, Block.noted_rd _ _ _ _ _ _ haud]
  · rw [Block.rd_wr_self]
    exact Nat.mod_mod _ _

end

/-! ## The commands (R248) -/

theorem fieldOf_bypassWord (w : Word) (c : Fin 16) (v : Nat) (hv : v < 2) :
    fieldOf (withField w (CCH_CTL_BYPASS c) v) (CCH_CTL_BYPASS c) = v :=
  (fieldOf_withField_self _ _ _ (by simp [CCH_CTL_BYPASS]) (by simp [CCH_CTL_BYPASS])).trans (Nat.mod_eq_of_lt hv)

theorem bypassEnter_answers {s : State} {role : Role} {c : Fin 16} {w : Word}
    (hg : s.grants role (CCH_CTL_BYPASS c).off (withField w (CCH_CTL_BYPASS c) 1)) (hh : s.block.harbour = false)
    (hst : s.block.sliceState c = 0) :
    s.answers (.bypassEnter role c w) (fun b => b.acked ∧ b.sliceState c = 1 ∧ b.rd (CCH_CTL_BYPASS c) = 1
      ∧ b.arr = s.block.arr
      ∧ (b.slices.get c).mnt = (s.block.slices.get c).mnt.map (fun m => { m with started := true }) ++ [bypassWalk]) := by
  obtain ⟨-, -, hstate⟩ := cchKeys_bypass c
  have hbypass : (s.block.cchNoted role c (withField w (CCH_CTL_BYPASS c) 1)).rd (CCH_CTL_BYPASS c) = 1 := by
    rw [Block.cchNoted_bypass, hh]
    exact fieldOf_bypassWord w c 1 (by decide)
  have hwish : (s.block.cchNoted role c (withField w (CCH_CTL_BYPASS c) 1)).bypassWish c
      = (s.block.cchNoted role c (withField w (CCH_CTL_BYPASS c) 1)).bypassEnter c := by
    rw [Block.bypassWish_of_normal (Block.cchNoted_sliceState.trans hst), if_pos ((Block.on_iff _ _).mpr (by rw [hbypass]; decide))]
  have hparts := Block.cchNoted_parts (b := s.block) (role := role) (c := c) (w := withField w (CCH_CTL_BYPASS c) 1)
  refine State.answers_next (writeReg_CCH_CTL hg) ?_
  rw [hwish]
  generalize s.block.cchNoted role c (withField w (CCH_CTL_BYPASS c) 1) = t at *
  refine ⟨Block.mgAnswer_acked _ _, Block.rd_wr_self t (CCH_STATUS_STATE c) 1, ?_, ?_, ?_⟩
  · exact (Block.rd_wr_of_ne t (CCH_STATUS_STATE c) (CCH_CTL_BYPASS c) 1 hstate).trans hbypass
  · show t.arr = s.block.arr
    rw [hparts]
  · have hslices : t.slices = s.block.slices := by rw [hparts]
    show ((t.bypassEnter c).slices.get c).mnt = _
    rw [Block.bypassEnter, Block.slice_updSlice, if_pos rfl, Block.wr_slices, hslices]

theorem bypassEnter_harbour {s : State} {role : Role} {c : Fin 16} {w : Word}
    (hg : s.grants role (CCH_CTL_BYPASS c).off (withField w (CCH_CTL_BYPASS c) 1)) (hh : s.block.harbour = true)
    (hst : s.block.sliceState c ≠ 0) :
    s.answers (.bypassEnter role c w) (fun b => b.acked ∧ b.rd (CCH_CTL_BYPASS c) = s.block.rd (CCH_CTL_BYPASS c)
      ∧ b.arr = s.block.arr) := by
  obtain ⟨-, -, hstate⟩ := cchKeys_bypass c
  obtain ⟨hwish, hrd⟩ := Block.bypassWish_onlyRegs (c := c) (b := s.block.cchNoted role c (withField w (CCH_CTL_BYPASS c) 1))
    (by rwa [Block.cchNoted_sliceState])
  refine State.answers_next (writeReg_CCH_CTL hg) ⟨Block.mgAnswer_acked _ _, ?_, ?_⟩
  · rw [Block.mgAnswer_rd, hrd _ (by simpa using hstate), Block.cchNoted_bypass, hh]
    rfl
  · rw [Block.mgAnswer, hwish, Block.cchNoted_parts]

theorem bypassExit_answers {s : State} {role : Role} {c : Fin 16} {w : Word}
    (hg : s.grants role (CCH_CTL_BYPASS c).off (withField w (CCH_CTL_BYPASS c) 0)) (hh : s.block.harbour = false)
    (hst : s.block.sliceState c = 2) :
    s.answers (.bypassExit role c w) (fun b => b.sliceState c = 3 ∧ b.rd (CCH_CTL_BYPASS c) = 0
      ∧ s.block.wrote b [(CCH_CTL_BYPASS c).key, (CCH_CTL_INT_EN c).key, (CCH_STATUS_STATE c).key]
      ∧ b = { s.block with regs := b.regs, mg := b.mg }) := by
  obtain ⟨-, -, hstate⟩ := cchKeys_bypass c
  have hbypass : (s.block.cchNoted role c (withField w (CCH_CTL_BYPASS c) 0)).rd (CCH_CTL_BYPASS c) = 0 := by
    rw [Block.cchNoted_bypass, hh]
    exact fieldOf_bypassWord w c 0 (by decide)
  have hparts := Block.cchNoted_parts (b := s.block) (role := role) (c := c) (w := withField w (CCH_CTL_BYPASS c) 0)
  have hframe := Block.cchNoted_regsBut (b := s.block) (role := role) (c := c) (w := withField w (CCH_CTL_BYPASS c) 0)
  refine State.answers_next (writeReg_CCH_CTL hg) ?_
  rw [Block.bypassWish_of_bypass (Block.cchNoted_sliceState.trans hst), if_neg (by rw [(Block.on_false _ _).mpr hbypass]; decide)]
  generalize s.block.cchNoted role c (withField w (CCH_CTL_BYPASS c) 0) = t at *
  refine ⟨Block.rd_wr_self t (CCH_STATUS_STATE c) 3, ?_, ⟨Block.mgAnswer_acked _ _, ?_, ?_, fun g hg => ?_⟩, ?_⟩
  · exact (Block.rd_wr_of_ne t (CCH_STATUS_STATE c) (CCH_CTL_BYPASS c) 3 hstate).trans hbypass
  · show t.mg.held = s.block.mg.held
    rw [hparts, Block.noted_held]
  · show t.mg.latch = s.block.mg.latch
    rw [hparts, Block.noted_latch]
  · simp only [List.cons_append, List.nil_append, List.mem_cons, not_or] at hg
    obtain ⟨hb, hi, hs, haud⟩ := hg
    exact (Block.rd_wr_of_ne t (CCH_STATUS_STATE c) g 3 hs).trans (hframe g (by simp [hb, hi, haud]))
  · simp only [Block.mgAnswer, Block.wr]
    rw [hparts]

end Sys2Proof.Machine
end

section
/-! SUPPORT. CCH_MNT_CTL with GO (R243 to R245): the refusal of scratch ways, and the range operation that every slice is handed. -/

namespace Sys2Proof.Machine

open Reg

/-! ## A write of CCH_MNT_CTL -/

/-- The fields of CCH_MNT_CTL. -/
def mntCtlKeys : List Nat := [CCH_MNT_CTL_GO.key, CCH_MNT_CTL_SLICES.key, CCH_MNT_CTL_MODE.key, CCH_MNT_CTL_OP.key]

/-- A block into which the fields of a word of CCH_MNT_CTL have been stored (R1). -/
def Block.mntStored (b : Block) (w : Word) : Block :=
  (((b.wr CCH_MNT_CTL_GO (fieldOf w CCH_MNT_CTL_GO)).wr CCH_MNT_CTL_SLICES (fieldOf w CCH_MNT_CTL_SLICES)).wr
    CCH_MNT_CTL_MODE (fieldOf w CCH_MNT_CTL_MODE)).wr CCH_MNT_CTL_OP (fieldOf w CCH_MNT_CTL_OP)

theorem Block.performReg_CCH_MNT_CTL {b : Block} (role : Role) (old : Nat) {w : Word} (x : Aux)
    (hbusy : b.rd CCH_MNT_STATUS_BUSY = 0) (hgo : bitOf w.toNat 31 = true) :
    b.performReg role reg_CCH_MNT_CTL [] CCH_MNT_CTL_GO.off old w x = (b.mntStored w).mntGo.wr CCH_MNT_CTL_GO 0 := by
  unfold Block.performReg
  rw [if_neg (by simp [Block.deafInstance, Block.idleInstance, reg_CCH_MNT_CTL]),
    if_neg (by rw [(Block.on_false _ _).mpr hbusy]; simp), if_neg (by simp [reg_CCH_MNT_CTL])]
  show Block.wr (if bitOf w.toNat 31 then _ else _) CCH_MNT_CTL_GO 0 = _
  rw [if_pos hgo]
  rfl

/-- A granted CCH_MNT_CTL as its effect finds the block: recorded, and its fields stored. -/
def Block.mntNoted (b : Block) (role : Role) (w : Word) : Block := (b.noted role reg_CCH_MNT_CTL CCH_MNT_CTL_GO.off w).mntStored w

/-- A granted CCH_MNT_CTL before its answer. -/
def Block.mntGone (b : Block) (role : Role) (w : Word) : Block := (b.mntNoted role w).mntGo.wr CCH_MNT_CTL_GO 0

/-- The word of an operation: GO, MODE and SLICES of `w`, and OP (R243). -/
def mntWord (w : Word) (op : Nat) : Word := withField (withField w CCH_MNT_CTL_GO 1) CCH_MNT_CTL_OP op

theorem fieldOf_mntWord_op (w : Word) {op : Nat} (h : op < 8) : fieldOf (mntWord w op) CCH_MNT_CTL_OP = op :=
  (fieldOf_withField_self _ _ _ (by decide) (by decide)).trans (Nat.mod_eq_of_lt h)

theorem fieldOf_mntWord_go (w : Word) (op : Nat) : fieldOf (mntWord w op) CCH_MNT_CTL_GO = 1 :=
  (fieldOf_withField_of_ne _ _ _ _ (by decide) (by decide) (by decide)).trans
    (fieldOf_withField_self _ _ _ (by decide) (by decide))

theorem fieldOf_mntWord (w : Word) (op : Nat) {g : Fld} (hg : g ∈ [CCH_MNT_CTL_SLICES, CCH_MNT_CTL_MODE]) :
    fieldOf (mntWord w op) g = fieldOf w g := by
  have hside : g.lo + g.width ≤ 32 ∧ CCH_MNT_CTL_OP.lo + CCH_MNT_CTL_OP.width ≤ g.lo ∧ g.lo + g.width ≤ CCH_MNT_CTL_GO.lo := by
    revert g
    decide
  rw [mntWord, fieldOf_withField_of_ne _ _ _ _ hside.1 (by decide) (.inr hside.2.1),
    fieldOf_withField_of_ne _ _ _ _ hside.1 (by decide) (.inl hside.2.2)]

theorem bitsOf_slices (w : Word) : bitsOf w.toNat 23 8 = fieldOf w CCH_MNT_CTL_SLICES := by
  simp only [bitsOf, fieldOf, CCH_MNT_CTL_SLICES]

/-- The commands that start an operation, with the OP of each. -/
def mntCommands (role : Role) (w : Word) : List (Instr × Nat) :=
  [(.clean role w, mntClean), (.inval role w, mntInval), (.cleanInval role w, mntCleanInval), (.discard role w, mntDiscard)]

theorem op_of_mem_mntCommands {role : Role} {w : Word} {e : Instr × Nat} (he : e ∈ mntCommands role w) : e.2 ≠ 0 ∧ e.2 ≤ 4 := by
  have hops : ∀ op ∈ [mntClean, mntInval, mntCleanInval, mntDiscard], op ≠ 0 ∧ op ≤ 4 := by decide
  exact hops e.2 (List.mem_map_of_mem (f := Prod.snd) he)

theorem exec_mnt (s : State) {role : Role} {w : Word} {e : Instr × Nat} (he : e ∈ mntCommands role w) :
    exec e.1 s = writeReg role CCH_MNT_CTL_GO.off (mntWord w e.2) default s := by
  simp only [mntCommands, List.mem_cons, List.not_mem_nil, or_false] at he
  rcases he with rfl | rfl | rfl | rfl <;> rfl

theorem exec_mnt_granted {s : State} {role : Role} {w : Word} {e : Instr × Nat} (he : e ∈ mntCommands role w)
    (hg : s.grants role CCH_MNT_CTL_GO.off (mntWord w e.2)) (hbusy : s.block.rd CCH_MNT_STATUS_BUSY = 0) :
    exec e.1 s = .next { s with block := (s.block.mntGone role (mntWord w e.2)).mgAnswer false 0 } := by
  have hroom : s.block.recRoom (1 + s.block.fenceRecs reg_CCH_MNT_CTL.name (mntWord w e.2).toNat) = true := hg.2.2.2
  have hgo : bitOf (mntWord w e.2).toNat 31 = true :=
    (bitOf_eq_field (mntWord w e.2) CCH_MNT_CTL_GO.off 31 0).trans (by rw [beq_iff_eq]; exact fieldOf_mntWord_go w e.2)
  have hnoted : (s.block.noted role reg_CCH_MNT_CTL CCH_MNT_CTL_GO.off (mntWord w e.2)).rd CCH_MNT_STATUS_BUSY = 0 :=
    (Block.noted_rd _ _ _ _ _ _ (by decide)).trans hbusy
  rw [exec_mnt s he]
  exact (writeReg_go default hg find_CCH_MNT_CTL (by decide) (by decide) (by decide) hroom).trans
    (congrArg (fun t : Block => Host.Outcome.next { s with block := t.mgAnswer false 0 })
      (Block.performReg_CCH_MNT_CTL role _ default hnoted hgo))

section
variable {b : Block} {role : Role} {w : Word}

theorem Block.mntStored_onlyRegs (b : Block) (w : Word) : b.onlyRegs (b.mntStored w) mntCtlKeys :=
  Block.onlyRegs_wr (Block.onlyRegs_wr (Block.onlyRegs_wr (Block.onlyRegs_wr (b.onlyRegs_refl _) _ (by decide)) _ (by decide))
    _ (by decide)) _ (by decide)

theorem Block.mntNoted_parts : b.mntNoted role w = { b with
    regs := (b.mntNoted role w).regs, mg := (b.noted role reg_CCH_MNT_CTL CCH_MNT_CTL_GO.off w).mg } := by
  rw [Block.mntNoted, (Block.mntStored_onlyRegs _ _).1, Block.noted_parts]

theorem Block.mntNoted_regsBut : b.regsBut (b.mntNoted role w) (mntCtlKeys ++ audKeys) := by
  intro g hg
  rw [List.mem_append, not_or] at hg
  rw [Block.mntNoted, (Block.mntStored_onlyRegs _ _).2 g hg.1, Block.noted_rd _ _ _ _ _ _ hg.2]

theorem Block.mntNoted_fields : (b.mntNoted role w).rd CCH_MNT_CTL_OP = fieldOf w CCH_MNT_CTL_OP
    ∧ (b.mntNoted role w).rd CCH_MNT_CTL_MODE = fieldOf w CCH_MNT_CTL_MODE
    ∧ (b.mntNoted role w).rd CCH_MNT_CTL_SLICES = fieldOf w CCH_MNT_CTL_SLICES := by
  refine ⟨?_, ?_, ?_⟩
  · exact (Block.rd_wr_self _ _ _).trans (Nat.mod_mod _ _)
  · exact (Block.rd_wr_of_ne _ _ _ _ (by decide)).trans ((Block.rd_wr_self _ _ _).trans (Nat.mod_mod _ _))
  · exact (Block.rd_wr_of_ne _ _ _ _ (by decide)).trans ((Block.rd_wr_of_ne _ _ _ _ (by decide)).trans
      ((Block.rd_wr_self _ _ _).trans (Nat.mod_mod _ _)))

end

/-! ## A set/way operation that is refused (R245) -/

/-- An operation whose counts are cleared (R243). -/
def Block.mntCounted (b : Block) : Block :=
  ((b.wr CCH_MNT_WB_CNT_CNT 0).wr CCH_MNT_REFUSED_CNT_CNT 0).wr CCH_MNT_STATUS_CODE 0

/-- The registers that GO may write besides CCH_MNT_CTL. -/
def mntGoKeys : List Nat := [CCH_MNT_STATUS_BUSY.key, CCH_MNT_STATUS_CODE.key, CCH_MNT_WB_CNT_CNT.key, CCH_MNT_REFUSED_CNT_CNT.key]

theorem Block.mntCounted_onlyRegs (b : Block) : b.onlyRegs b.mntCounted mntGoKeys :=
  Block.onlyRegs_wr (Block.onlyRegs_wr (Block.onlyRegs_wr (b.onlyRegs_refl _) _ (by decide)) _ (by decide)) _ (by decide)

theorem Block.mntCounted_busy (b : Block) : b.mntCounted.rd CCH_MNT_STATUS_BUSY = b.rd CCH_MNT_STATUS_BUSY :=
  (Block.rd_wr_of_ne _ _ _ _ (by decide)).trans ((Block.rd_wr_of_ne _ _ _ _ (by decide)).trans (Block.rd_wr_of_ne _ _ _ _ (by decide)))

theorem Block.mntRefuse_onlyRegs (b : Block) (code : Nat) :
    b.onlyRegs (b.mntRefuse code) [CCH_MNT_STATUS_CODE.key, GLB_INT_PEND_PEND.key] :=
  Block.onlyRegs_intr (Block.onlyRegs_wr (b.onlyRegs_refl _) _ (by decide)) _ (by decide)

theorem Block.mntRefuse_slices (b : Block) (code : Nat) : (b.mntRefuse code).slices = b.slices := by
  rw [(b.mntRefuse_onlyRegs code).1]

theorem Block.mntRefuse_arr (b : Block) (code : Nat) : (b.mntRefuse code).arr = b.arr := by
  rw [(b.mntRefuse_onlyRegs code).1]

theorem Block.mntRefuse_code (b : Block) {code : Nat} (h : code < 16) : (b.mntRefuse code).rd CCH_MNT_STATUS_CODE = code :=
  (Block.rd_intr _ _ _ _ (by decide)).trans ((Block.rd_wr_self _ _ _).trans (Nat.mod_eq_of_lt h))

section
variable {b : Block}

theorem Block.mntGo_of_scratch (h0 : b.rd CCH_MNT_CTL_OP ≠ 0) (h4 : b.rd CCH_MNT_CTL_OP ≤ 4) (hm : b.rd CCH_MNT_CTL_MODE ≠ 0)
    (hs : b.rd CCH_MNT_CTL_SLICES ≠ 0) (hc : b.rd CCH_MNT_SETS_COUNT ≠ 0)
    (hset : b.rd CCH_MNT_SETS_FIRST + b.rd CCH_MNT_SETS_COUNT ≤ 512) (hw : b.rd CCH_MNT_WAYS_MASK >>> (16 - b.scratchWays) ≠ 0) :
    b.mntGo = b.mntCounted.mntRefuse 2 := by
  obtain ⟨-, hrd⟩ := b.mntCounted_onlyRegs
  have hmask : b.rd CCH_MNT_WAYS_MASK ≠ 0 := fun h => hw (by rw [h, Nat.zero_shiftRight])
  have hways : b.mntCounted.scratchWays = b.scratchWays := hrd _ (by decide)
  unfold Block.mntGo
  change (if b.rd CCH_MNT_CTL_OP = 0 then b.mntCounted else if 4 < b.rd CCH_MNT_CTL_OP then b.mntCounted.mntRefuse 3 else
    if b.mntCounted.on CCH_MNT_CTL_MODE then
      if 512 < b.mntCounted.rd CCH_MNT_SETS_FIRST + (if b.mntCounted.rd CCH_MNT_SETS_COUNT = 0 then 512 else b.mntCounted.rd CCH_MNT_SETS_COUNT)
          ∨ b.mntCounted.rd CCH_MNT_WAYS_MASK = 0 ∨ b.mntCounted.rd CCH_MNT_CTL_SLICES = 0 then b.mntCounted.mntRefuse 4
      else if b.mntCounted.rd CCH_MNT_WAYS_MASK >>> (16 - b.mntCounted.scratchWays) != 0 then b.mntCounted.mntRefuse 2 else _
    else _) = _
  rw [if_neg h0, if_neg (Nat.not_lt.mpr h4), if_pos ((Block.on_iff _ _).mpr (by rwa [hrd _ (by decide)])), hways, hrd CCH_MNT_SETS_FIRST (by decide), hrd CCH_MNT_SETS_COUNT (by decide), hrd CCH_MNT_WAYS_MASK (by decide),
    hrd CCH_MNT_CTL_SLICES (by decide), if_neg hc, if_neg (by omega), if_pos (by simpa using hw)]

/-! ## A range operation (R244) -/

/-- The bounds of CCH_MNT_BASE and CCH_MNT_LIMIT, at 256-byte granularity. -/
def Block.mntBounds (b : Block) : Nat × Nat :=
  (b.rd64 CCH_MNT_BASE_LO_ADDR CCH_MNT_BASE_HI_ADDR / 256 * 256, b.rd64 CCH_MNT_LIMIT_LO_ADDR CCH_MNT_LIMIT_HI_ADDR / 256 * 256)

/-- The run of a range operation of software. -/
def rangeRun (op : Nat) (r : Nat × Nat) : MntRun :=
  { op := op, base := r.1, limit := r.2, ways := none, owner := 1, started := false, before := [] }

/-- An operation that is handed to the slices. -/
def Block.mntBegun (b : Block) : Block := b.mntCounted.wr CCH_MNT_STATUS_BUSY 1

theorem Block.mntBegun_onlyRegs (b : Block) : b.onlyRegs b.mntBegun mntGoKeys :=
  Block.onlyRegs_wr b.mntCounted_onlyRegs _ (by decide)

theorem Block.mntBegun_shown (b : Block) : b.mntBegun.rd CCH_MNT_STATUS_BUSY = 1 ∧ b.mntBegun.rd CCH_MNT_WB_CNT_CNT = 0
    ∧ b.mntBegun.rd CCH_MNT_REFUSED_CNT_CNT = 0 := by
  refine ⟨Block.rd_wr_self _ _ _, ?_, ?_⟩
  · exact (Block.rd_wr_of_ne _ _ _ _ (by decide)).trans ((Block.rd_wr_of_ne _ _ _ _ (by decide)).trans
      ((Block.rd_wr_of_ne _ _ _ _ (by decide)).trans (Block.rd_wr_self _ _ _)))
  · exact (Block.rd_wr_of_ne _ _ _ _ (by decide)).trans ((Block.rd_wr_of_ne _ _ _ _ (by decide)).trans (Block.rd_wr_self _ _ _))

theorem Block.mntGo_of_range (h0 : b.rd CCH_MNT_CTL_OP ≠ 0) (h4 : b.rd CCH_MNT_CTL_OP ≤ 4) (hm : b.rd CCH_MNT_CTL_MODE = 0)
    (hlt : b.mntBounds.1 < b.mntBounds.2) (hle : b.mntBounds.2 ≤ 2 ^ 46) :
    b.mntGo = forEach (List.range 16) b.mntBegun (fun t c => t.mntGive c (rangeRun (b.rd CCH_MNT_CTL_OP) b.mntBounds)) := by
  obtain ⟨-, hrd⟩ := b.mntCounted_onlyRegs
  have hbounds : b.mntCounted.mntBounds = b.mntBounds := by
    simp only [Block.mntBounds, Block.rd64]
    rw [hrd CCH_MNT_BASE_LO_ADDR (by decide), hrd CCH_MNT_BASE_HI_ADDR (by decide), hrd CCH_MNT_LIMIT_LO_ADDR (by decide),
      hrd CCH_MNT_LIMIT_HI_ADDR (by decide)]
  unfold Block.mntGo
  change (if b.rd CCH_MNT_CTL_OP = 0 then b.mntCounted else if 4 < b.rd CCH_MNT_CTL_OP then b.mntCounted.mntRefuse 3 else
    if b.mntCounted.on CCH_MNT_CTL_MODE then _ else
      if b.mntCounted.mntBounds.2 ≤ b.mntCounted.mntBounds.1 ∨ 2 ^ 46 < b.mntCounted.mntBounds.1 ∨ 2 ^ 46 < b.mntCounted.mntBounds.2
      then b.mntCounted.mntRefuse 4
      else forEach (List.range 16) b.mntBegun
        (fun t c => t.mntGive c (rangeRun (b.rd CCH_MNT_CTL_OP) b.mntCounted.mntBounds))) = _
  rw [if_neg h0, if_neg (Nat.not_lt.mpr h4), if_neg (by rw [(Block.on_false _ _).mpr (by rwa [hrd _ (by decide)])]; decide),
    hbounds, if_neg (by omega)]

theorem Block.mntGive_of_normal {c : Nat} (h : b.sliceState c = 0) (m : MntRun) :
    b.mntGive c m = b.updSlice c (fun q => { q with mnt := q.mnt ++ [{ m with started := false, before := b.inSlice c }] }) := by
  unfold Block.mntGive
  rw [h]
  rfl

theorem Block.slicesOnly_updSlice {t : Block} (ht : t = { b with slices := t.slices }) (c : Nat) (f : SliceSt → SliceSt) :
    t.updSlice c f = { b with slices := (t.updSlice c f).slices } :=
  congrArg (fun u : Block => { u with slices := (t.updSlice c f).slices }) ht

/-- `t` is `b` but for its slices, and slice `c` has been handed `m` (R243). -/
def Block.handed (b t : Block) (c : Nat) (m : MntRun) : Prop :=
  t = { b with slices := t.slices }
  ∧ ∃ before, (t.slices.get c).mnt = (b.slices.get c).mnt ++ [{ m with started := false, before := before }]

/-- Every slice in NORMAL is handed the run. -/
theorem Block.mntGive_each (h : ∀ c, c < 16 → b.sliceState c = 0) (m : MntRun) {c : Nat} (hc : c < 16) :
    b.handed (forEach (List.range 16) b (fun t c => t.mntGive c m)) c m := by
  have hgive {t : Block} (ht : t = { b with slices := t.slices }) {x : Nat} (hx : x ∈ List.range 16) :=
    Block.mntGive_of_normal (b := t) (c := x) (by rw [ht]; exact h x (List.mem_range.mp hx)) m
  refine forEach_of_round (P := fun t => t = { b with slices := t.slices } ∧ (t.slices.get c).mnt = (b.slices.get c).mnt)
    (Q := fun t => b.handed t c m) List.nodup_range (List.mem_range.mpr hc) ?_ ?_ ?_ ⟨rfl, rfl⟩
  · rintro t x hx hne ⟨ht, hmnt⟩
    rw [hgive ht hx]
    refine ⟨Block.slicesOnly_updSlice ht _ _, ?_⟩
    rw [Block.slice_updSlice, if_neg (Ne.symm hne), hmnt]
  · rintro t ⟨ht, hmnt⟩
    rw [hgive ht (List.mem_range.mpr hc)]
    refine ⟨Block.slicesOnly_updSlice ht _ _, t.inSlice c, ?_⟩
    rw [Block.slice_updSlice, if_pos rfl, hmnt]
  · rintro t x hx hne ⟨ht, before, hmnt⟩
    rw [hgive ht hx]
    refine ⟨Block.slicesOnly_updSlice ht _ _, before, ?_⟩
    rw [Block.slice_updSlice, if_neg (Ne.symm hne), hmnt]

end

/-! ## The two operations, before their answers -/

theorem mntKeys_disjoint : ∀ g ∈ [CCH_MNT_STATUS_BUSY, CCH_MNT_STATUS_CODE, CCH_MNT_SETS_FIRST, CCH_MNT_SETS_COUNT, CCH_MNT_WAYS_MASK,
    CCH_CFG_SCRATCH_WAYS 0, CCH_MNT_BASE_LO_ADDR, CCH_MNT_BASE_HI_ADDR, CCH_MNT_LIMIT_LO_ADDR, CCH_MNT_LIMIT_HI_ADDR],
    g.key ∉ mntCtlKeys ++ audKeys := by decide

theorem mntKeys_state : ∀ c : Fin 16, (CCH_STATUS_STATE c).key ∉ mntCtlKeys ++ audKeys ∧ (CCH_STATUS_STATE c).key ∉ mntGoKeys := by decide

theorem Block.mntCounted_kept (b : Block) : b.mntCounted.slices = b.slices ∧ b.mntCounted.arr = b.arr := ⟨rfl, rfl⟩

theorem Block.wr_kept (b : Block) (f : Fld) (v : Nat) : (b.wr f v).slices = b.slices ∧ (b.wr f v).arr = b.arr := ⟨rfl, rfl⟩

theorem Block.mgAnswer_kept (b : Block) (err : Bool) (data : Nat) :
    (b.mgAnswer err data).slices = b.slices ∧ (b.mgAnswer err data).arr = b.arr := ⟨rfl, rfl⟩

section
variable {b : Block} {role : Role} {w : Word}

theorem Block.mntNoted_kept : (b.mntNoted role w).slices = b.slices ∧ (b.mntNoted role w).arr = b.arr :=
  ⟨by rw [Block.mntNoted_parts], by rw [Block.mntNoted_parts]⟩

theorem Block.mntNoted_rd_of_mem {g : Fld} (hg : g ∈ [CCH_MNT_STATUS_BUSY, CCH_MNT_STATUS_CODE, CCH_MNT_SETS_FIRST, CCH_MNT_SETS_COUNT,
    CCH_MNT_WAYS_MASK, CCH_CFG_SCRATCH_WAYS 0, CCH_MNT_BASE_LO_ADDR, CCH_MNT_BASE_HI_ADDR, CCH_MNT_LIMIT_LO_ADDR,
    CCH_MNT_LIMIT_HI_ADDR]) : (b.mntNoted role w).rd g = b.rd g :=
  Block.mntNoted_regsBut g (mntKeys_disjoint g hg)

/-- A set/way operation that names a scratch way goes as far as its refusal. -/
theorem Block.mntGone_of_scratch (h0 : fieldOf w CCH_MNT_CTL_OP ≠ 0) (h4 : fieldOf w CCH_MNT_CTL_OP ≤ 4)
    (hm : fieldOf w CCH_MNT_CTL_MODE ≠ 0) (hs : fieldOf w CCH_MNT_CTL_SLICES ≠ 0) (hc : b.rd CCH_MNT_SETS_COUNT ≠ 0)
    (hset : b.rd CCH_MNT_SETS_FIRST + b.rd CCH_MNT_SETS_COUNT ≤ 512) (hw : b.rd CCH_MNT_WAYS_MASK >>> (16 - b.scratchWays) ≠ 0) :
    b.mntGone role w = ((b.mntNoted role w).mntCounted.mntRefuse 2).wr CCH_MNT_CTL_GO 0 := by
  obtain ⟨hop, hmode, hnamed⟩ := Block.mntNoted_fields (b := b) (role := role) (w := w)
  rw [Block.mntGone, Block.mntGo_of_scratch (by rwa [hop]) (by rwa [hop]) (by rwa [hmode]) (by rwa [hnamed])]
  · rwa [Block.mntNoted_rd_of_mem (by decide)]
  · rwa [Block.mntNoted_rd_of_mem (by decide), Block.mntNoted_rd_of_mem (by decide)]
  · rwa [Block.mntNoted_rd_of_mem (by decide), Block.scratchWays, Block.mntNoted_rd_of_mem (by decide)]

/-- A refusal shows its code, leaves BUSY, and touches neither the slices nor the arrays. -/
theorem Block.mntRefused_shown {t u : Block} {code : Nat} (hu : u = ((t.mntCounted.mntRefuse code).wr CCH_MNT_CTL_GO 0).mgAnswer false 0)
    (hcode : code < 16) : u.rd CCH_MNT_STATUS_CODE = code ∧ u.rd CCH_MNT_STATUS_BUSY = t.rd CCH_MNT_STATUS_BUSY
      ∧ u.slices = t.slices ∧ u.arr = t.arr := by
  rw [hu, Block.mgAnswer_rd, Block.mgAnswer_rd, Block.rd_wr_of_ne _ _ _ _ (by decide), Block.rd_wr_of_ne _ _ _ _ (by decide),
    (t.mntCounted.mntRefuse_onlyRegs code).2 CCH_MNT_STATUS_BUSY (by decide), (Block.mgAnswer_kept _ _ _).1, (Block.mgAnswer_kept _ _ _).2,
    (Block.wr_kept _ _ _).1, (Block.wr_kept _ _ _).2, Block.mntRefuse_slices, Block.mntRefuse_arr]
  exact ⟨t.mntCounted.mntRefuse_code hcode, t.mntCounted_busy, t.mntCounted_kept⟩

/-- The slices to which an operation has been handed. -/
def Block.mntHanded (b : Block) (m : MntRun) : Block := forEach (List.range 16) b.mntBegun (fun t c => t.mntGive c m)

theorem Block.mntBegun_handed {t : Block} (hst : ∀ c, c < 16 → t.sliceState c = 0) (m : MntRun) {c : Nat} (hc : c < 16) :
    t.mntBegun.handed (t.mntHanded m) c m :=
  Block.mntGive_each (fun c hc => (t.mntBegun_onlyRegs.2 _ (mntKeys_state ⟨c, hc⟩).2).trans (hst c hc)) m hc

section
variable {t v : Block} {m : MntRun} (hv : ∀ c, c < 16 → t.mntBegun.handed v c m)
include hv

theorem Block.handed_regs : v.regs = t.mntBegun.regs := by rw [(hv 0 (by decide)).1]

theorem Block.handed_parts : v = { t with regs := v.regs, slices := v.slices } := by
  rw [Block.handed_regs hv]
  exact (hv 0 (by decide)).1

end

theorem Block.mntNoted_bounds : (b.mntNoted role w).mntBounds = b.mntBounds := by
  simp only [Block.mntBounds, Block.rd64]
  rw [Block.mntNoted_rd_of_mem (g := CCH_MNT_BASE_LO_ADDR) (by decide), Block.mntNoted_rd_of_mem (g := CCH_MNT_BASE_HI_ADDR) (by decide),
    Block.mntNoted_rd_of_mem (g := CCH_MNT_LIMIT_LO_ADDR) (by decide), Block.mntNoted_rd_of_mem (g := CCH_MNT_LIMIT_HI_ADDR) (by decide)]

theorem Block.mntNoted_sliceState {c : Nat} (hc : c < 16) : (b.mntNoted role w).sliceState c = b.sliceState c :=
  Block.mntNoted_regsBut _ (mntKeys_state ⟨c, hc⟩).1

/-- A range operation goes as far as its runs. -/
theorem Block.mntGone_of_range (h0 : fieldOf w CCH_MNT_CTL_OP ≠ 0) (h4 : fieldOf w CCH_MNT_CTL_OP ≤ 4)
    (hm : fieldOf w CCH_MNT_CTL_MODE = 0) (hlt : b.mntBounds.1 < b.mntBounds.2) (hle : b.mntBounds.2 ≤ 2 ^ 46) :
    b.mntGone role w = ((b.mntNoted role w).mntHanded (rangeRun (fieldOf w CCH_MNT_CTL_OP) b.mntBounds)).wr CCH_MNT_CTL_GO 0 := by
  obtain ⟨hop, hmode, -⟩ := Block.mntNoted_fields (b := b) (role := role) (w := w)
  rw [Block.mntGone, Block.mntGo_of_range (by rwa [hop]) (by rwa [hop]) (by rwa [hmode]) (by rwa [Block.mntNoted_bounds])
    (by rwa [Block.mntNoted_bounds]), hop, Block.mntNoted_bounds, Block.mntHanded]

/-- The answer of a command changes registers and the management port. -/
theorem Block.answered_parts {t u : Block} (hu : u = (t.wr CCH_MNT_CTL_GO 0).mgAnswer false 0) :
    u = { t with regs := u.regs, mg := u.mg } ∧ u.mg.held = t.mg.held ∧ u.mg.latch = t.mg.latch ∧ u.acked
      ∧ ∀ g : Fld, g.key ≠ CCH_MNT_CTL_GO.key → u.rd g = t.rd g := by
  subst hu
  exact ⟨rfl, rfl, rfl, Block.mgAnswer_acked _ _, fun g hg => (Block.mgAnswer_rd _ _ _ g).trans (Block.rd_wr_of_ne _ _ _ _ hg)⟩

/-- A range operation that has been handed to the slices and answered, beside the block that it was written to. -/
theorem Block.mntHanded_answered {u : Block} {m : MntRun} (hst : ∀ c, c < 16 → b.sliceState c = 0)
    (hu : u = (((b.mntNoted role w).mntHanded m).wr CCH_MNT_CTL_GO 0).mgAnswer false 0) :
    u.rd CCH_MNT_STATUS_BUSY = 1 ∧ u.rd CCH_MNT_WB_CNT_CNT = 0 ∧ u.rd CCH_MNT_REFUSED_CNT_CNT = 0
      ∧ (∀ c, c < 16 → ∃ before, (u.slices.get c).mnt = (b.slices.get c).mnt ++ [{ m with started := false, before := before }])
      ∧ b.wrote u (mntCtlKeys ++ mntGoKeys) ∧ u = { b with regs := u.regs, mg := u.mg, slices := u.slices } := by
  have hnoted := Block.mntNoted_parts (b := b) (role := role) (w := w)
  have hframe := Block.mntNoted_regsBut (b := b) (role := role) (w := w)
  have hkept := (Block.mntNoted_kept (b := b) (role := role) (w := w)).1
  have hheld : (b.mntNoted role w).mg.held = b.mg.held := by rw [hnoted, Block.noted_held]
  have hlatch : (b.mntNoted role w).mg.latch = b.mg.latch := by rw [hnoted, Block.noted_latch]
  have hnormal : ∀ c, c < 16 → (b.mntNoted role w).sliceState c = 0 := fun c hc => (Block.mntNoted_sliceState hc).trans (hst c hc)
  generalize b.mntNoted role w = t at *
  have hhanded := fun c hc => Block.mntBegun_handed hnormal m (c := c) hc
  generalize t.mntHanded m = v at *
  have hregs := Block.handed_regs hhanded
  have hparts := Block.handed_parts hhanded
  have hmg : v.mg = t.mg := by rw [hparts]
  obtain ⟨hall, huheld, hulatch, hacked, hurd⟩ := Block.answered_parts hu
  obtain ⟨hrises, hwb, hrefused⟩ := t.mntBegun_shown
  have hrd {g : Fld} (hg : g.key ≠ CCH_MNT_CTL_GO.key) : u.rd g = t.mntBegun.rd g := (hurd g hg).trans (Block.rd_congr _ _ hregs)
  have huslices : u.slices = v.slices := by rw [hall]
  refine ⟨(hrd (by decide)).trans hrises, (hrd (by decide)).trans hwb, (hrd (by decide)).trans hrefused, fun c hc => ?_,
    ⟨hacked, by rw [huheld, hmg, hheld], by rw [hulatch, hmg, hlatch], fun g hg => ?_⟩, ?_⟩
  · obtain ⟨-, hruns⟩ := hhanded c hc
    rw [huslices, ← hkept]
    exact hruns
  · simp only [List.mem_append, not_or] at hg
    obtain ⟨⟨hctl, hgo⟩, haud⟩ := hg
    have hne : g.key ≠ CCH_MNT_CTL_GO.key := fun h => hctl (by rw [h]; decide)
    rw [hrd hne, t.mntBegun_onlyRegs.2 g hgo, hframe g (by simp [hctl, haud])]
  · rw [huslices]
    exact hall.trans (by rw [hparts, hnoted])

end

section
variable {s : State} {role : Role} {w : Word} {e : Instr × Nat} (he : e ∈ mntCommands role w)
  (hg : s.grants role CCH_MNT_CTL_GO.off (mntWord w e.2)) (hbusy : s.block.rd CCH_MNT_STATUS_BUSY = 0)
include he hg hbusy

/-- A set/way operation whose ways include a scratch way is refused as a whole (R245). -/
theorem mntWays_refused (hm : bitOf w.toNat CCH_MNT_CTL_MODE.lo = true) (hs : bitsOf w.toNat 23 8 ≠ 0)
    (hc : s.block.rd CCH_MNT_SETS_COUNT ≠ 0) (hset : s.block.rd CCH_MNT_SETS_FIRST + s.block.rd CCH_MNT_SETS_COUNT ≤ 512)
    (hw : s.block.rd CCH_MNT_WAYS_MASK >>> (16 - s.block.scratchWays) ≠ 0) :
    s.answers e.1 (fun b => b.acked ∧ b.rd CCH_MNT_STATUS_CODE = 2 ∧ b.rd CCH_MNT_STATUS_BUSY = 0 ∧ b.slices = s.block.slices
      ∧ b.arr = s.block.arr) := by
  obtain ⟨h0, h4⟩ := op_of_mem_mntCommands he
  have hop : fieldOf (mntWord w e.2) CCH_MNT_CTL_OP = e.2 := fieldOf_mntWord_op w (by omega)
  have hone : fieldOf w CCH_MNT_CTL_MODE = 1 := beq_iff_eq.mp ((bitOf_eq_field w _ 4 0).symm.trans hm)
  have hmode : fieldOf (mntWord w e.2) CCH_MNT_CTL_MODE ≠ 0 := by
    rw [fieldOf_mntWord w _ (by decide), hone]
    decide
  have hnamed : fieldOf (mntWord w e.2) CCH_MNT_CTL_SLICES ≠ 0 := by rwa [fieldOf_mntWord w _ (by decide), ← bitsOf_slices]
  have hgone := Block.mntGone_of_scratch (role := role) (by rwa [hop]) (by rwa [hop]) hmode hnamed hc hset hw
  obtain ⟨hcode, hidle, hslices, harr⟩ := Block.mntRefused_shown (congrArg (fun t : Block => t.mgAnswer false 0) hgone) (by decide)
  exact State.answers_next (exec_mnt_granted he hg hbusy) ⟨Block.mgAnswer_acked _ _, hcode,
    hidle.trans ((Block.mntNoted_rd_of_mem (by decide)).trans hbusy), hslices.trans Block.mntNoted_kept.1,
    harr.trans Block.mntNoted_kept.2⟩

/-- A range operation is handed to every slice (R243, R244). -/
theorem mntRange_handed (hm : bitOf w.toNat CCH_MNT_CTL_MODE.lo = false) (hlt : s.block.mntBounds.1 < s.block.mntBounds.2)
    (hle : s.block.mntBounds.2 ≤ 2 ^ 46) (hst : ∀ c, c < 16 → s.block.sliceState c = 0) :
    s.answers e.1 (fun b => b.rd CCH_MNT_STATUS_BUSY = 1 ∧ b.rd CCH_MNT_WB_CNT_CNT = 0 ∧ b.rd CCH_MNT_REFUSED_CNT_CNT = 0
      ∧ (∀ c, c < 16 → ∃ before, (b.slices.get c).mnt = (s.block.slices.get c).mnt
          ++ [{ rangeRun e.2 s.block.mntBounds with before := before }])
      ∧ s.block.wrote b (mntCtlKeys ++ mntGoKeys) ∧ b = { s.block with regs := b.regs, mg := b.mg, slices := b.slices }) := by
  obtain ⟨h0, h4⟩ := op_of_mem_mntCommands he
  have hop : fieldOf (mntWord w e.2) CCH_MNT_CTL_OP = e.2 := fieldOf_mntWord_op w (by omega)
  have hne : fieldOf w CCH_MNT_CTL_MODE ≠ 1 := beq_eq_false_iff_ne.mp ((bitOf_eq_field w _ 4 0).symm.trans hm)
  have hbit : fieldOf w CCH_MNT_CTL_MODE < 2 := Nat.mod_lt _ (by decide)
  have hmode : fieldOf (mntWord w e.2) CCH_MNT_CTL_MODE = 0 := by
    rw [fieldOf_mntWord w _ (by decide)]
    omega
  have hgone := Block.mntGone_of_range (role := role) (by rwa [hop]) (by rwa [hop]) hmode hlt hle
  rw [hop] at hgone
  exact State.answers_next (exec_mnt_granted he hg hbusy)
    (Block.mntHanded_answered hst (congrArg (fun t : Block => t.mgAnswer false 0) hgone))

end

end Sys2Proof.Machine
end

section
/-! SUPPORT. The statements of the chapter on the memory-side cache, settled. -/

namespace Sys2Proof

open Machine Machine.Reg

/-- Settles O32: GO clears the counts and hands its run to each slice, or refuses the ways before the slices are asked; a run acts on
the lines it selects one after the other, and none of these rounds changes another line; and where every run is done none is left. -/
theorem maintenanceRunsToItsEnd : Obligations.MaintenanceRunsToItsEnd := by
  refine fun s => ⟨fun role w e he hg hbusy => ⟨fun hm hlt hle hst => ?_, fun hm hs hc hset hw =>
    mntWays_refused he hg hbusy hm hs hc hset hw⟩, fun c m hfind hst hclear hsound => ?_, fun c q hbusy hs hdone => ?_⟩
  · have hmul : s.block.mntBounds.1 < s.block.mntBounds.2 := Nat.mul_lt_mul_of_pos_right hlt (by decide)
    have hmax : s.block.mntBounds.2 ≤ 2 ^ 46 := (Nat.div_mul_le_self _ _).trans hle
    refine State.answers_mono (mntRange_handed he hg hbusy hm hmul hmax hst) ?_
    rintro b ⟨hrises, hwb, hrefused, hruns, hwrote, hparts⟩
    refine ⟨hrises, hwb, hrefused, fun c hc => ?_, hwrote, hparts⟩
    obtain ⟨before, hmnt⟩ := hruns c hc
    exact ⟨_, hmnt, rfl, rfl, rfl, rfl, rfl, rfl⟩
  · refine State.answers_mono (maintenanceSliceStart_answers hfind hst hclear hsound) ?_
    rintro b ⟨hruns, hlines⟩
    refine ⟨hruns, fun k hk => ?_⟩
    obtain ⟨hother, hleaves⟩ := hlines k hk
    refine ⟨hother, fun hsel hop => ?_, fun hsel hop => ?_, fun hsel hop hpin => ?_, fun hsel hop hpin => ?_⟩
    · have hclean := (hleaves hsel).cleaned hop
      exact ⟨hclean.present (Block.present_of_mntSelects hsel), hclean.sectors⟩
    · refine (hleaves hsel).dropped ?_ ?_
      · rcases hop with hop | hop <;> rw [hop] <;> decide
      · rcases hop with hop | hop <;> rw [hop] <;> exact fun h => absurd h (by decide)
    · exact (hleaves hsel).dropped (by rw [hop]; decide) (fun _ => hpin)
    · exact (hleaves hsel).pinned hop hpin
  · exact maintenanceComplete_answers hbusy hs hdone

/-- Settles O33: the write of BYPASS is the wish that its state answers; the walk drops each line of its slice and no other; the
state ends when no write-back of it is passing; and the invalidation leaves no line of the slice in the arrays. -/
theorem slicesEnterAndLeaveBypass : Obligations.SlicesEnterAndLeaveBypass :=
  fun _ _ => ⟨fun _ _ hg => ⟨bypassEnter_answers hg, bypassEnter_harbour hg⟩, fun _ _ hg => bypassExit_answers hg,
    bypassEntryComplete_walks, bypassEntryComplete_passes, bypassExitComplete_answers⟩

end Sys2Proof
end

section
/-! SUPPORT. The selection of a slot (R259 to R261): where the two commands of a slot come from, and that the clauses allow them. -/

namespace Sys2Proof.Machine

variable {b : Block} {i ph : Nat} {elig : List EntRef} {cls : List Clause} {refs : List Cand} {own : List HistCmd}

/-- A legal candidate is not blocked, and the clauses allow its command at its phase (R261). -/
theorem Block.legal_iff {c : Cand} : b.legal i cls refs own ph c = true ↔ b.blocked i refs c = false
    ∧ b.clausesAllow cls i (b.subs.get i).slot own { c.cmd with pos := 8 * (b.subs.get i).slot + 4 * ph } = true := by
  rw [Block.legal, Bool.and_eq_true, Bool.not_eq_true']

/-- Legality at phase 0 of the slot, as the selection judges it (R261). -/
def Block.legal0 (b : Block) (i : Nat) (elig : List EntRef) (c : Cand) : Bool :=
  b.legal i (clausesOf (b.activeSet i)) (b.refCands i elig) (b.subs.get i).hist 0 c

/-- Phase 0 takes the best legal column command, and without one the best legal command of another kind (R260). -/
theorem Block.pick0_eq (b : Block) (i : Nat) (elig : List EntRef) : b.pick0 i elig =
    ((b.topCands i elig).find? (fun c => isColumn c.cmd.cls && b.legal0 i elig c)).or
      ((b.topCands i elig).find? (fun c => !isColumn c.cmd.cls && b.legal0 i elig c)) := by
  unfold Block.pick0 Block.legal0
  dsimp only
  split
  · next hc => rw [hc]; rfl
  · next hc => rw [hc]; rfl

theorem Block.pick0_mem {c : Cand} (h : b.pick0 i elig = some c) : c ∈ b.topCands i elig ∧ b.legal0 i elig c = true := by
  rw [Block.pick0_eq, Option.or_eq_some_iff] at h
  rcases h with h | ⟨-, h⟩
  all_goals
    have htest := List.find?_some h
    exact ⟨List.mem_of_find?_eq_some h, (Bool.and_eq_true_iff.mp htest).2⟩

/-- A legal column command among the best eight is not passed over (R260). -/
theorem Block.pick0_isColumn {c : Cand} (hc : c ∈ b.topCands i elig) (hcol : isColumn c.cmd.cls = true)
    (hlegal : b.legal0 i elig c = true) : ∃ d : Cand, b.pick0 i elig = some d ∧ isColumn d.cmd.cls = true := by
  have hsome : ((b.topCands i elig).find? (fun c => isColumn c.cmd.cls && b.legal0 i elig c)).isSome = true :=
    List.find?_isSome.mpr ⟨c, hc, by rw [hcol, hlegal]; rfl⟩
  obtain ⟨d, hd⟩ := Option.isSome_iff_exists.mp hsome
  have htest := List.find?_some hd
  exact ⟨d, by rw [Block.pick0_eq, hd]; rfl, (Bool.and_eq_true_iff.mp htest).1⟩

/-- Phase 1 takes another of the best candidates than phase 0, no column command, and legal after it (R259, R260). -/
theorem Block.pick1_mem {top : List Cand} {p0 : Option Cand} {c : Cand} (h : b.pick1 i top p0 = some c) :
    isColumn c.cmd.cls = false ∧ (∃ d ∈ top, some d ≠ p0 ∧ c = d.after p0)
      ∧ b.legal i (clausesOf (b.activeSet i)) (b.refCands i []) (b.subs.get i).hist 1 c = true := by
  unfold Block.pick1 at h
  have htest := List.find?_some h
  obtain ⟨hcol, hlegal⟩ := Bool.and_eq_true_iff.mp htest
  obtain ⟨d, hd, rfl⟩ := List.mem_map.mp (List.mem_of_find?_eq_some h)
  obtain ⟨hmem, hne⟩ := List.mem_filter.mp hd
  exact ⟨(Bool.not_eq_true' _).mp hcol, ⟨d, hmem, bne_iff_ne.mp hne, rfl⟩, hlegal⟩

end Sys2Proof.Machine
end

section
/-! SUPPORT. The end of a sentence and of its steps (R311, R314, R315, R317): the registers that show it, and what waited on it. -/

namespace Sys2Proof.Machine

open Reg

/-! ## One subchannel changed -/

/-- A change of subchannel `s` is read back there, and at no other. -/
theorem Block.sub_updSub (b : Block) (s t : Nat) (f : SubSt → SubSt) :
    (b.updSub s f).subs.get t = if t = s then f (b.subs.get s) else b.subs.get t := Tab.get_set ..

theorem Block.sub_updSub_self (b : Block) (s : Nat) (f : SubSt → SubSt) : (b.updSub s f).subs.get s = f (b.subs.get s) :=
  Tab.get_set_self ..

/-! ## What waited on a sentence (R313, R317) -/

/-- What follows the end of a sentence leaves the registers, and of a subchannel its sentence and its read queue. -/
def Block.followedTo (b t : Block) : Prop :=
  t.regs = b.regs ∧ ∀ j : Nat, (t.subs.get j).snt = (b.subs.get j).snt ∧ (t.subs.get j).rq = (b.subs.get j).rq

theorem Block.followedTo_refl (b : Block) : b.followedTo b := ⟨rfl, fun _ => ⟨rfl, rfl⟩⟩

/-- A training that hears of its sentence keeps the outcome with itself (R326). -/
theorem Block.followedTo_trainHears (b : Block) (l : List Nat) (outcome : Nat) :
    b.followedTo (forEach l b (fun t j => t.trainHears j outcome)) :=
  forEach_inv b.followedTo _ _ _ (fun _ _ _ ht => ht) b.followedTo_refl

/-- An alert whose sentence did not end OK is classified no more (R280). -/
theorem Block.followedTo_unclassified (b : Block) (s : Nat) :
    b.followedTo (b.updSub s (fun u => { u with classify := u.classify - 1 })) := by
  refine ⟨rfl, fun j => ?_⟩
  rw [Block.sub_updSub]
  split
  · next hj => rw [hj]; exact ⟨rfl, rfl⟩
  · exact ⟨rfl, rfl⟩

/-- Apart from a fence exit, and from a repair that fails, what waited on a sentence changes neither registers nor queues. -/
theorem Block.followedTo_sntOver (b : Block) (s outcome : Nat) {why : Purpose} (hf : why ≠ .fenceExit)
    (hr : why = .repair → outcome = 0) : b.followedTo (b.sntOver s outcome why) := by
  cases why
  case fenceExit => exact absurd rfl hf
  case train => exact b.followedTo_trainHears _ _
  case alert =>
    show b.followedTo (if outcome = 0 then b else _)
    split
    · exact b.followedTo_refl
    · exact b.followedTo_unclassified s
  case repair =>
    show b.followedTo (if outcome = 0 then b else _)
    rw [if_pos (hr rfl)]
    exact b.followedTo_refl
  all_goals exact b.followedTo_refl

/-! ## The registers of a sentence that ends (R311, R317) -/

/-- A subchannel whose sentence `run` has ended: the ranks it touched are to be precharged (R318). -/
def SubSt.sentenceDropped (u : SubSt) (run : SntRun) : SubSt := { u with
  snt := none
  preFirst := u.preFirst ++ run.touched.filter (fun r => !u.preFirst.contains r)
  banks := u.banks.map (fun e =>
    if run.touched.contains (e.1 / 32) then (e.1, { e.2 with row := none, due := false }) else e) }

/-- SNT_RUN once the sentence `run` has ended. -/
def Block.runShown (b : Block) (s : Nat) (run : SntRun) : Block :=
  let t := ((b.updSub s (fun u => u.sentenceDropped run)).wr (SNT_RUN_BUSY s) 0).wr (SNT_RUN_STEP s) run.step
  t.wrB (SNT_RUN_HELD_SR s) (!(t.subs.get s).selfRef.isEmpty)

/-- The end of a call of software, as SNT_CALL shows it. -/
def Block.callShown (b : Block) (s : Nat) (run : SntRun) (outcome : Nat) : Block :=
  let t := (b.wr (SNT_CALL_STATUS_BUSY s) 0).wr (SNT_CALL_STATUS_OUTCOME s) outcome
  let t := (t.wr (SNT_CALL_STATUS_STEP s) run.step).wr (SNT_CALL_RESULT_RESULT s) run.results
  t.intr 13 (t.on (SNT_CALL_STATUS_INT_DONE s))

/-- The block in which the sentence `run` has ended, before an abort is counted. -/
def Block.sentenceShown (b : Block) (s : Nat) (run : SntRun) (outcome : Nat) : Block :=
  if run.req.why = .software then (b.runShown s run).callShown s run outcome else b.runShown s run

theorem Block.endSentenceWith_eq {b : Block} {s : Nat} {run : SntRun} (h : (b.subs.get s).snt = some run)
    (ev : Block → Event → Block) (outcome : Nat) : b.endSentenceWith ev s outcome =
      if outcome = 0 then b.sentenceShown s run outcome
      else ev ((b.sentenceShown s run outcome).bump (SNT_ABORT_CNT_CNT s)) (subEvent 49 outcome s) := by
  unfold Block.endSentenceWith
  rw [h]
  rfl

theorem Block.sentenceEnd_eq {b : Block} {s : Nat} {run : SntRun} (h : (b.subs.get s).snt = some run) (outcome : Nat) :
    b.sentenceEnd s outcome = (b.endSentenceWith Block.event s outcome).sntOver s outcome run.req.why := by
  unfold Block.sentenceEnd
  rw [h]

/-- The registers that the end of a sentence of subchannel `s` may change, but for those of an abort. -/
def sntEndKeys (s : Nat) : List Nat :=
  [(SNT_RUN_BUSY s).key, (SNT_RUN_STEP s).key, (SNT_RUN_HELD_SR s).key, (SNT_CALL_STATUS_BUSY s).key,
    (SNT_CALL_STATUS_OUTCOME s).key, (SNT_CALL_STATUS_STEP s).key, (SNT_CALL_RESULT_RESULT s).key, GLB_INT_PEND_PEND.key]

/-- Fields of SNT_CALL that the end of a call writes, pairwise and against the pending bits. -/
theorem callKeys_distinct : ∀ i : Fin 32,
    (SNT_CALL_STATUS_BUSY i).key ≠ (SNT_CALL_STATUS_OUTCOME i).key ∧ (SNT_CALL_STATUS_BUSY i).key ≠ (SNT_CALL_STATUS_STEP i).key
    ∧ (SNT_CALL_STATUS_BUSY i).key ≠ (SNT_CALL_RESULT_RESULT i).key ∧ (SNT_CALL_STATUS_BUSY i).key ≠ GLB_INT_PEND_PEND.key
    ∧ (SNT_CALL_STATUS_OUTCOME i).key ≠ (SNT_CALL_STATUS_STEP i).key
    ∧ (SNT_CALL_STATUS_OUTCOME i).key ≠ (SNT_CALL_RESULT_RESULT i).key ∧ (SNT_CALL_STATUS_OUTCOME i).key ≠ GLB_INT_PEND_PEND.key
    ∧ (SNT_CALL_RESULT_RESULT i).key ≠ GLB_INT_PEND_PEND.key := by decide

section
variable {b : Block} {s : Nat} {run : SntRun} {outcome : Nat}

theorem Block.runShown_rd {g : Fld} (hg : g.key ∉ sntEndKeys s) : (b.runShown s run).rd g = b.rd g := by
  simp only [sntEndKeys, List.mem_cons, List.not_mem_nil, or_false, not_or] at hg
  obtain ⟨hbusy, hstep, hheld, -⟩ := hg
  rw [Block.runShown, Block.rd_wrB_of_ne _ _ _ _ hheld, Block.rd_wr_of_ne _ _ _ _ hstep, Block.rd_wr_of_ne _ _ _ _ hbusy,
    Block.rd_updSub]

theorem Block.runShown_busy : (b.runShown s run).rd (SNT_RUN_BUSY s) = 0 := by
  rw [Block.runShown, Block.rd_wrB_of_ne _ _ _ _ (by simp only [SNT_RUN_BUSY, SNT_RUN_HELD_SR, Fld.key]; omega),
    Block.rd_wr_of_ne _ _ _ _ (by simp only [SNT_RUN_BUSY, SNT_RUN_STEP, Fld.key]; omega), Block.rd_wr_self]
  rfl

theorem Block.callShown_subs : (b.callShown s run outcome).subs = b.subs := Block.intr_subs ..

theorem Block.callShown_rd {g : Fld} (hb : g.key ≠ (SNT_CALL_STATUS_BUSY s).key) (ho : g.key ≠ (SNT_CALL_STATUS_OUTCOME s).key)
    (hs : g.key ≠ (SNT_CALL_STATUS_STEP s).key) (hr : g.key ≠ (SNT_CALL_RESULT_RESULT s).key)
    (hp : g.key ≠ GLB_INT_PEND_PEND.key) : (b.callShown s run outcome).rd g = b.rd g := by
  rw [Block.callShown, Block.rd_intr _ _ _ _ hp, Block.rd_wr_of_ne _ _ _ _ hr, Block.rd_wr_of_ne _ _ _ _ hs,
    Block.rd_wr_of_ne _ _ _ _ ho, Block.rd_wr_of_ne _ _ _ _ hb]

/-- SNT_CALL shows the outcome and the results (R311, R317). -/
theorem Block.callShown_fields (i : Fin 32) (ho : outcome < 16) :
    (b.callShown i run outcome).rd (SNT_CALL_STATUS_BUSY i) = 0
    ∧ (b.callShown i run outcome).rd (SNT_CALL_STATUS_OUTCOME i) = outcome
    ∧ (b.callShown i run outcome).rd (SNT_CALL_RESULT_RESULT i) = run.results % 2 ^ 32 := by
  obtain ⟨hbo, hbs, hbr, hbp, hos, hor, hop, hrp⟩ := callKeys_distinct i
  rw [Block.callShown, Block.rd_intr _ _ _ _ hbp, Block.rd_intr _ _ _ _ hop, Block.rd_intr _ _ _ _ hrp, Block.rd_wr_self,
    Block.rd_wr_of_ne _ _ _ _ hbr, Block.rd_wr_of_ne _ _ _ _ hbs, Block.rd_wr_of_ne _ _ _ _ hbo, Block.rd_wr_self,
    Block.rd_wr_of_ne _ _ _ _ hor, Block.rd_wr_of_ne _ _ _ _ hos, Block.rd_wr_self]
  exact ⟨rfl, Nat.mod_eq_of_lt ho, rfl⟩

theorem Block.sentenceShown_rd {g : Fld} (hg : g.key ∉ sntEndKeys s) : (b.sentenceShown s run outcome).rd g = b.rd g := by
  have hrun : (b.runShown s run).rd g = b.rd g := Block.runShown_rd hg
  simp only [sntEndKeys, List.mem_cons, List.not_mem_nil, or_false, not_or] at hg
  obtain ⟨-, -, -, hb, ho, hs, hr, hp⟩ := hg
  unfold Block.sentenceShown
  split
  · rw [Block.callShown_rd hb ho hs hr hp, hrun]
  · exact hrun

theorem Block.sentenceShown_sub :
    (b.sentenceShown s run outcome).subs.get s = (b.subs.get s).sentenceDropped run := by
  have hrun : (b.runShown s run).subs.get s = (b.subs.get s).sentenceDropped run := Tab.get_set_self ..
  unfold Block.sentenceShown
  split
  · rw [Block.callShown_subs, hrun]
  · exact hrun

theorem Block.sentenceShown_busy (i : Fin 32) : (b.sentenceShown i run outcome).rd (SNT_RUN_BUSY i) = 0 := by
  unfold Block.sentenceShown
  split
  · rw [Block.callShown_rd, Block.runShown_busy]
    all_goals
      simp only [SNT_RUN_BUSY, SNT_CALL_STATUS_BUSY, SNT_CALL_STATUS_OUTCOME, SNT_CALL_STATUS_STEP, SNT_CALL_RESULT_RESULT,
        GLB_INT_PEND_PEND, Fld.key]
      omega
  · exact Block.runShown_busy

end

/-! ## Aborts (R317, R505) -/

theorem sevKey_not_event (code : Nat) : (FLT_SEV_SEV code).key ∉ eventKeys := by
  simp only [eventKeys, List.mem_cons, List.not_mem_nil, or_false, not_or, FLT_SEV_SEV, GLB_INT_PEND_PEND, FLT_STATUS_SEV_SEEN,
    FLT_STATUS_MSG_LOST, FLT_MSG_LOST_CNT_CNT, Fld.key]
  omega

/-- An event of a severity below 3 sets no fence (R515). -/
theorem Block.event_of_not_severe {b : Block} {e : Event} (he : e.sev = none) (h : b.rd (FLT_SEV_SEV e.code) ≠ 3) :
    b.event e = b.eventAt e b.now := by
  have hsev : (b.event0 e).sevOf e = b.rd (FLT_SEV_SEV e.code) := by
    rw [Block.sevOf, he]
    exact Block.eventAt_rd b e b.now _ (sevKey_not_event e.code)
  rw [Block.event, Block.sevFence, hsev, if_neg h]
  rfl

/-- The abort of a sentence is counted, and nothing that shows the sentence changes (R317). -/
def Block.sentenceAborted (b : Block) (s : Nat) (run : SntRun) (outcome : Nat) : Block :=
  let t := (b.sentenceShown s run outcome).bump (SNT_ABORT_CNT_CNT s)
  t.eventAt (subEvent 49 outcome s) t.now

theorem sntKeys_distinct : ∀ i : Fin 32, (FLT_SEV_SEV 49).key ∉ (SNT_ABORT_CNT_CNT i).key :: sntEndKeys i
    ∧ (SNT_ABORT_CNT_CNT i).key ∉ sntEndKeys i ++ eventKeys
    ∧ ∀ g ∈ [SNT_RUN_BUSY i, SNT_CALL_STATUS_BUSY i, SNT_CALL_STATUS_OUTCOME i, SNT_CALL_RESULT_RESULT i],
      g.key ∉ (SNT_ABORT_CNT_CNT i).key :: eventKeys := by decide

section
variable {b : Block} {i : Fin 32} {run : SntRun} {outcome : Nat}

theorem Block.endSentenceWith_of_abort (h : (b.subs.get i).snt = some run) (ho : outcome ≠ 0) (hsev : b.rd (FLT_SEV_SEV 49) ≠ 3) :
    b.endSentenceWith Block.event i outcome = b.sentenceAborted i run outcome := by
  have hkey := (sntKeys_distinct i).1
  rw [List.mem_cons, not_or] at hkey
  rw [Block.endSentenceWith_eq h, if_neg ho]
  refine Block.event_of_not_severe rfl ?_
  show ((b.sentenceShown i run outcome).bump (SNT_ABORT_CNT_CNT i)).rd (FLT_SEV_SEV 49) ≠ 3
  rwa [Block.rd_bump_of_ne _ _ _ hkey.1, Block.sentenceShown_rd hkey.2]

theorem Block.sentenceAborted_rd {g : Fld} (hg : g.key ∉ (SNT_ABORT_CNT_CNT i).key :: eventKeys) :
    (b.sentenceAborted i run outcome).rd g = (b.sentenceShown i run outcome).rd g := by
  rw [List.mem_cons, not_or] at hg
  rw [Block.sentenceAborted, Block.eventAt_rd _ _ _ _ hg.2, Block.rd_bump_of_ne _ _ _ hg.1]

theorem Block.sentenceAborted_count : (b.sentenceAborted i run outcome).rd (SNT_ABORT_CNT_CNT i)
    = min (b.rd (SNT_ABORT_CNT_CNT i) + 1) 0xFFFFFFFF := by
  have hkey := (sntKeys_distinct i).2.1
  rw [List.mem_append, not_or] at hkey
  rw [Block.sentenceAborted, Block.eventAt_rd _ _ _ _ hkey.2, Block.rd_bump_self, Block.sentenceShown_rd hkey.1]
  rfl

theorem Block.sentenceAborted_subs : (b.sentenceAborted i run outcome).subs = (b.sentenceShown i run outcome).subs := by
  rw [Block.sentenceAborted, Block.eventAt_parts]
  rfl

/-! ## The end of a sentence -/

/-- The sentence `run` of subchannel `i` has ended with an outcome: SNT_RUN shows none, a call of software shows its outcome
and results, and the read queue is as it was (R317). -/
def Block.sentenceOver (b t : Block) (i : Nat) (run : SntRun) (outcome : Nat) : Prop :=
  (t.subs.get i).snt = none ∧ (t.subs.get i).rq = (b.subs.get i).rq ∧ t.rd (SNT_RUN_BUSY i) = 0 ∧
    (run.req.why = .software → t.rd (SNT_CALL_STATUS_BUSY i) = 0 ∧ t.rd (SNT_CALL_STATUS_OUTCOME i) = outcome ∧
      t.rd (SNT_CALL_RESULT_RESULT i) = run.results % 2 ^ 32)

theorem Block.sentenceOver_shown (ho : outcome < 16) : b.sentenceOver (b.sentenceShown i run outcome) i run outcome := by
  refine ⟨congrArg SubSt.snt Block.sentenceShown_sub, (congrArg SubSt.rq Block.sentenceShown_sub :),
    Block.sentenceShown_busy i, fun hsw => ?_⟩
  rw [Block.sentenceShown, if_pos hsw]
  exact Block.callShown_fields i ho

theorem Block.sentenceOver_aborted (ho : outcome < 16) : b.sentenceOver (b.sentenceAborted i run outcome) i run outcome := by
  obtain ⟨hsnt, hrq, hbusy, hcall⟩ := Block.sentenceOver_shown (b := b) (i := i) (run := run) ho
  have hkeys := (sntKeys_distinct i).2.2
  have hsame (g : Fld) (hg : g ∈ [SNT_RUN_BUSY i, SNT_CALL_STATUS_BUSY i, SNT_CALL_STATUS_OUTCOME i, SNT_CALL_RESULT_RESULT i]) :=
    Block.sentenceAborted_rd (b := b) (run := run) (outcome := outcome) (hkeys g hg)
  rw [← Block.sentenceAborted_subs] at hsnt hrq
  rw [← hsame _ (by simp)] at hbusy
  rw [← hsame _ (by simp), ← hsame _ (by simp), ← hsame _ (by simp)] at hcall
  exact ⟨hsnt, hrq, hbusy, hcall⟩

theorem Block.sentenceOver_followed {t u : Block} (h : b.sentenceOver t i run outcome) (hu : t.followedTo u) :
    b.sentenceOver u i run outcome := by
  obtain ⟨hsnt, hrq, hbusy, hcall⟩ := h
  obtain ⟨hregs, hsubs⟩ := hu
  have hrd (g : Fld) : u.rd g = t.rd g := Block.rd_congr _ _ hregs
  refine ⟨(hsubs i).1.trans hsnt, (hsubs i).2.trans hrq, (hrd _).trans hbusy, fun hsw => ?_⟩
  rw [hrd, hrd, hrd]
  exact hcall hsw

/-- A sentence that was not requested by a fence exit ends with outcome OK. -/
theorem Block.sentenceEnd_ok (h : (b.subs.get i).snt = some run) (hf : run.req.why ≠ .fenceExit) :
    b.sentenceOver (b.sentenceEnd i 0) i run 0 := by
  rw [Block.sentenceEnd_eq h, Block.endSentenceWith_eq h, if_pos rfl]
  exact Block.sentenceOver_followed (Block.sentenceOver_shown (by decide)) (Block.followedTo_sntOver _ _ _ hf fun _ => rfl)

/-- A sentence that ends with another outcome is counted among the aborts, its event below severity 3 (R317). -/
theorem Block.sentenceEnd_abort (h : (b.subs.get i).snt = some run) (hf : run.req.why ≠ .fenceExit)
    (hr : run.req.why ≠ .repair) (ho : outcome ≠ 0) (hlt : outcome < 16) (hsev : b.rd (FLT_SEV_SEV 49) ≠ 3) :
    b.sentenceOver (b.sentenceEnd i outcome) i run outcome
    ∧ (b.sentenceEnd i outcome).rd (SNT_ABORT_CNT_CNT i) = min (b.rd (SNT_ABORT_CNT_CNT i) + 1) 0xFFFFFFFF := by
  have hover := Block.followedTo_sntOver (b.sentenceAborted i run outcome) i outcome hf fun he => absurd he hr
  rw [Block.sentenceEnd_eq h, Block.endSentenceWith_of_abort h ho hsev]
  exact ⟨Block.sentenceOver_followed (Block.sentenceOver_aborted hlt) hover,
    (Block.rd_congr _ _ hover.1).trans Block.sentenceAborted_count⟩

end

/-! ## The steps (R314, R315) -/

/-- The next step with something to do depends on the ranks of the subchannel alone (R311, R314). -/
theorem Block.seekStep_congr {b t : Block} {s : Nat} (h : t.subRanks s = b.subRanks s) (fuel : Nat) (run : SntRun) :
    t.seekStep s fuel run = b.seekStep s fuel run := by
  have hranks (r : SntRun) (w : Nat) : t.stepRanks s r w = b.stepRanks s r w := by simp only [Block.stepRanks, h]
  induction fuel generalizing run with
  | zero => rfl
  | succ fuel ih => simp only [Block.seekStep, hranks, ih]

section
variable {b : Block} {i : Fin 32} {run : SntRun}

/-- The step that follows is the same whatever has changed of the subchannels. -/
theorem Block.stepPassed_updSub {s : Nat} {f : SubSt → SubSt} {u : Block} (hp : (b.updSub s f).stepPassed u i run) :
    b.stepPassed u i run := by
  have hranks : (b.updSub s f).subRanks i = b.subRanks i := rfl
  rwa [Block.stepPassed, Block.seekStep_congr hranks] at hp

/-- A step that ends makes the next one pending, or ends the sentence OK; the read queue is as it was. -/
theorem Block.stepEnded_passes (h : (b.subs.get i).snt = some run) (hf : run.req.why ≠ .fenceExit) :
    b.stepPassed (b.stepEnded i) i run ∧ ((b.stepEnded i).subs.get i).rq = (b.subs.get i).rq := by
  unfold Block.stepPassed Block.stepEnded
  rw [h]
  dsimp only
  cases hseek : b.seekStep i 257 { run with step := run.step + 1 } with
  | some next =>
    have hsub := Block.sub_updSub_self b i (fun u => { u with snt := some next })
    exact ⟨⟨congrArg SubSt.snt hsub, Block.rd_wr_self _ (SNT_RUN_STEP i) _⟩, (congrArg SubSt.rq hsub :)⟩
  | none =>
    obtain ⟨hsnt, hrq, hbusy, hcall⟩ := Block.sentenceEnd_ok h hf
    exact ⟨⟨hsnt, hbusy, hcall⟩, hrq⟩

theorem Block.waitEnd_of_waiting (h : (b.subs.get i).snt = some run) (hw : run.waiting = true)
    (hop : stOp (sntStep run.text run.step) = 20) : b.waitEnd i = b.stepEnded i := by
  unfold Block.waitEnd
  rw [h]
  exact if_pos (by rw [hw, hop]; rfl)

/-- The bytes that a POLL step compares are those of its mask (R315). -/
def SntRun.matches (run : SntRun) (bytes : List (BitVec 8)) : Bool :=
  let w := sntStep run.text run.step
  !bytes.isEmpty && bytes.all (fun x => (x.toNat &&& bitsOf w 47 40) == (run.data w &&& bitsOf w 47 40))

/-- A POLL step whose answer has come back. -/
def SntRun.polled (run : SntRun) : SntRun := { run with polls := run.polls + 1, readOut := false }

/-- What a POLL step without a result byte does with its answer (R315). -/
theorem Block.poll_eq (h : (b.subs.get i).snt = some run) (hop : stOp (sntStep run.text run.step) = 21)
    (hout : run.readOut = true) (hres : bitOf (sntStep run.text run.step) 15 = false) (bytes : List (BitVec 8)) :
    b.poll i bytes =
      let t := b.updSub i (fun u => { u with snt := some run.polled })
      if run.matches bytes then
        if run.left.length ≤ 1 then t.stepEnded i
        else t.updSub i (fun u => { u with snt := some { run.polled with left := run.left.tail, polls := 0 } })
      else if run.polls + 1 ≥ bitsOf (sntStep run.text run.step) 57 48 then t.sentenceEnd i 1 else t := by
  have hkept (x : Nat) : storeResult run.results (sntStep run.text run.step) x = run.results := if_neg (by rw [hres]; decide)
  unfold Block.poll
  rw [h]
  dsimp only
  rw [if_pos (by rw [hop, hout]; rfl), hkept]
  rfl

end

end Sys2Proof.Machine
end

section
/-! SUPPORT. Alerts (R278 to R280): the back-off an alert starts, the alert sentence, and the replays of a classified alert. -/

namespace Sys2Proof.Machine

open Reg

/-! ## Waking a channel (R473) -/

theorem Block.wake_parts (b : Block) (n : Nat) : b.wake n = { b with regs := (b.wake n).regs, pwr := (b.wake n).pwr } := by
  unfold Block.wake
  dsimp only
  split
  · rfl
  · rfl
  · split <;> rfl

theorem Block.wake_rd (b : Block) (n : Nat) {g : Fld} (hl : g.key ≠ (PWR_CH_STATUS_WAKE_LATCHED n).key)
    (hm : g.key ≠ (PWR_CH_STATUS_MOVING n).key) : (b.wake n).rd g = b.rd g := by
  unfold Block.wake
  dsimp only
  split
  · rfl
  · exact Block.rd_wr_of_ne _ _ _ _ hl
  · split
    · exact Block.rd_wr_of_ne _ _ _ _ hm
    · rfl

/-! ## The request of the alert sentence (R280, R312) -/

/-- The request that the Keeper makes of subchannel `s` for an alert. -/
def Block.alertReq (b : Block) (s : Nat) : SntReq := ⟨b.keeperSentence .alert, b.allRanks s, 0, true, .alert⟩

/-- A subchannel on which the alert sentence is taken: the sentence exists, and nothing refuses it (R313). -/
structure Block.takesAlert (b : Block) (s : Nat) : Prop where
  text : b.sentence (b.keeperSentence .alert) ≠ []
  open_ : b.subFenced s = false
  running : b.on (CLS_STATUS_HALTED s) = false
  live : b.chState (s / 2) ≠ pwOFF
  single : b.chLockstep (s / 2) = false

/-- A request that is refused leaves the alert unclassified (R280). -/
def Block.alertRefused (b : Block) (s : Nat) : Block := b.updSub s (fun u => { u with classify := u.classify - 1 })

/-- A request that is taken waits, and the channel wakes for it. -/
def Block.alertQueued (b : Block) (s : Nat) : Block :=
  (b.updSub s (fun u => { u with sntQ := u.sntQ ++ [b.alertReq s] })).wake (s / 2)

theorem Block.keeperRequest_of_takes {b : Block} {s : Nat} (h : b.takesAlert s) : b.keeperRequest s .alert true = b.alertQueued s := by
  have htext : (b.sentence (b.keeperSentence .alert)).isEmpty = false := List.isEmpty_eq_false_iff.mpr h.text
  have hlive : (b.chState (s / 2) == pwOFF) = false := beq_eq_false_iff_ne.mpr h.live
  unfold Block.keeperRequest Block.sntRequest
  dsimp only
  rw [if_neg (by simp), if_neg (by rw [htext]; decide), if_neg (by simp [h.open_, h.running, hlive, h.single])]
  rfl

theorem Block.keeperRequest_alert (b : Block) (s : Nat) :
    b.keeperRequest s .alert true = b.alertRefused s ∨ b.keeperRequest s .alert true = b.alertQueued s := by
  unfold Block.keeperRequest Block.sntRequest
  dsimp only
  rw [if_neg (by simp)]
  split
  · exact .inl rfl
  split
  · exact .inl rfl
  · exact .inr rfl

/-! ## What an alert of a subchannel changes (R278) -/

/-- The registers that an alert of subchannel `s` may change. -/
def alertKeys (s : Nat) : List Nat :=
  [(SCH_STATUS_ABO s).key, (SCH_ABO_CNT_CNT s).key, GLB_INT_PEND_PEND.key, (PWR_CH_STATUS_WAKE_LATCHED (s / 2)).key,
    (PWR_CH_STATUS_MOVING (s / 2)).key]

/-- `t` is `b` but for subchannel `s`, the registers of an alert there, and a wake of its channel. -/
def Block.alertedTo (b t : Block) (s : Nat) : Prop :=
  t = { b with regs := t.regs, subs := t.subs, pwr := t.pwr } ∧ (∀ j : Nat, j ≠ s → t.subs.get j = b.subs.get j)
    ∧ b.regsBut t (alertKeys s)

theorem Block.alertedTo.trans {b t u : Block} {s : Nat} (h : b.alertedTo t s) (h' : t.alertedTo u s) : b.alertedTo u s := by
  obtain ⟨hparts, hsubs, hregs⟩ := h
  obtain ⟨hparts', hsubs', hregs'⟩ := h'
  exact ⟨hparts'.trans (by rw [hparts]), fun j hj => (hsubs' j hj).trans (hsubs j hj),
    fun g hg => (hregs' g hg).trans (hregs g hg)⟩

theorem Block.alertedTo_refl (b : Block) (s : Nat) : b.alertedTo b s := ⟨rfl, fun _ _ => rfl, fun _ _ => rfl⟩

theorem Block.alertedTo_updSub (b : Block) (s : Nat) (f : SubSt → SubSt) : b.alertedTo (b.updSub s f) s :=
  ⟨rfl, fun j hj => (b.sub_updSub s j f).trans (if_neg hj), fun _ _ => rfl⟩

theorem Block.alertedTo_wake (b : Block) (s : Nat) : b.alertedTo (b.wake (s / 2)) s := by
  refine ⟨by rw [Block.wake_parts], fun j _ => by rw [Block.wake_parts], fun g hg => ?_⟩
  simp only [alertKeys, List.mem_cons, List.not_mem_nil, or_false, not_or] at hg
  obtain ⟨-, -, -, hl, hm⟩ := hg
  exact b.wake_rd _ hl hm

theorem Block.alertedTo_keeperRequest (b : Block) (s : Nat) : b.alertedTo (b.keeperRequest s .alert true) s := by
  rcases b.keeperRequest_alert s with h | h
  all_goals rw [h]
  · exact b.alertedTo_updSub s _
  · exact (b.alertedTo_updSub s _).trans (Block.alertedTo_wake _ s)

/-- Every rank of a subchannel owes ABO_RFM refresh-management commands (R278). -/
def Block.aboOwed (b : Block) (s : Nat) (t : Tab Nat) : Tab Nat :=
  forEach (List.range (b.subRanks s)) t (fun t r => t.set r (b.rd (SCH_RFM_ABO_RFM s)))

/-- A back-off begins (R278): ABO shows it and is counted. -/
def Block.backoffBegun (b : Block) (s : Nat) : Block :=
  let t := b.updSub s (fun u => { u with aboOn := true, aboLate := false, abo := b.aboOwed s u.abo })
  ((t.wr (SCH_STATUS_ABO s) 1).bump (SCH_ABO_CNT_CNT s)).intr 11 (t.bit (SCH_CTL_INT_EN s) 2)

theorem Block.backoffBegun_subs (b : Block) (s : Nat) : (b.backoffBegun s).subs =
    (b.updSub s (fun u => { u with aboOn := true, aboLate := false, abo := b.aboOwed s u.abo })).subs := Block.intr_subs ..

theorem Block.alertedTo_backoffBegun (b : Block) (s : Nat) : b.alertedTo (b.backoffBegun s) s := by
  refine ⟨by unfold Block.backoffBegun; rw [Block.intr_parts]; rfl, fun j hj => ?_, fun g hg => ?_⟩
  · rw [Block.backoffBegun_subs, Block.sub_updSub, if_neg hj]
  · simp only [alertKeys, List.mem_cons, List.not_mem_nil, or_false, not_or] at hg
    obtain ⟨habo, hcnt, hpend, -⟩ := hg
    rw [Block.backoffBegun, Block.rd_intr _ _ _ _ hpend, Block.rd_bump_of_ne _ _ _ hcnt, Block.rd_wr_of_ne _ _ _ _ habo,
      Block.rd_updSub]

/-- A new alert waits to be classified (R279). -/
def Block.alertNoted (b : Block) (s : Nat) : Block := b.updSub s (fun u => { u with classify := u.classify + 1 })

theorem Block.alert_eq (b : Block) (s : Nat) : b.alert s =
    if b.chState (s / 2) == pwS2 || b.chState (s / 2) == pwOFF || b.subFenced s then b
    else ((if b.on (SCH_RFM_PRAC s) && !(b.subs.get s).aboOn then b.backoffBegun s else b).alertNoted s).keeperRequest s .alert true := by
  rfl

theorem Block.alertedTo_alert (b : Block) (s : Nat) : b.alertedTo (b.alert s) s := by
  have hnoted (t : Block) : t.alertedTo (t.alertNoted s) s := t.alertedTo_updSub s _
  rw [Block.alert_eq]
  split
  · exact b.alertedTo_refl s
  split
  · exact ((b.alertedTo_backoffBegun s).trans (hnoted _)).trans (Block.alertedTo_keeperRequest _ s)
  · exact (hnoted b).trans (Block.alertedTo_keeperRequest _ s)

/-! ## The back-off of one subchannel (R278) -/

/-- An alert on subchannel `s` starts a back-off, and its sentence is taken. -/
structure Block.startsBackoff (b : Block) (s : Nat) : Prop where
  takes : b.takesAlert s
  prac : b.on (SCH_RFM_PRAC s) = true
  none_ : (b.subs.get s).aboOn = false
  awake : b.chState (s / 2) ≠ pwS2

/-- Fields that an alert of subchannel `s` leaves, whichever subchannel `i` they are of. -/
theorem not_mem_alertKeys {s i : Nat} (hs : s < 32) (hi : i < 32) :
    ∀ g ∈ [HBR_STATUS_STATE, FLT_FENCE_SUB_U, CLS_STATUS_HALTED i, PWR_CH_STATUS_STATE (i / 2), SCH_RFM_PRAC i,
      SCH_RFM_ABO_RFM i], g.key ∉ alertKeys s := by
  intro g hg
  simp only [List.mem_cons, List.not_mem_nil, or_false] at hg
  simp only [alertKeys, List.mem_cons, List.not_mem_nil, or_false, not_or]
  rcases hg with rfl | rfl | rfl | rfl | rfl | rfl
  all_goals
    simp only [HBR_STATUS_STATE, FLT_FENCE_SUB_U, CLS_STATUS_HALTED, PWR_CH_STATUS_STATE, SCH_RFM_PRAC, SCH_RFM_ABO_RFM,
      SCH_STATUS_ABO, SCH_ABO_CNT_CNT, GLB_INT_PEND_PEND, PWR_CH_STATUS_WAKE_LATCHED, PWR_CH_STATUS_MOVING, Fld.key]
    omega

/-- ABO and its count of a subchannel are not among the registers of an alert on another. -/
theorem abo_not_mem_alertKeys {s i : Nat} (hne : i ≠ s) (hi : i < 32) :
    (SCH_STATUS_ABO i).key ∉ alertKeys s ∧ (SCH_ABO_CNT_CNT i).key ∉ alertKeys s := by
  simp only [alertKeys, List.mem_cons, List.not_mem_nil, or_false, not_or, SCH_STATUS_ABO, SCH_ABO_CNT_CNT, GLB_INT_PEND_PEND,
    PWR_CH_STATUS_WAKE_LATCHED, PWR_CH_STATUS_MOVING, Fld.key]
  omega

section
variable {b t : Block} {s i : Nat}

theorem Block.alertedTo.sec (h : b.alertedTo t s) (x y : Nat) : t.sec x y = b.sec x y := by
  have himg : t.img = b.img := by rw [h.1]
  rw [Block.sec, himg, Block.sec]

/-- What decides whether an alert is taken is nothing that an alert changes. -/
theorem Block.takesAlert_of_alertedTo (h : b.alertedTo t s) (hs : s < 32) (hi : i < 32) (hb : b.takesAlert i) :
    t.takesAlert i := by
  have hsec := h.sec
  obtain ⟨-, -, hregs⟩ := h
  have hkeys := not_mem_alertKeys hs hi
  have hharbour : t.harbour = b.harbour := by rw [Block.harbour, hregs _ (hkeys _ (by simp)), Block.harbour]
  have hname : t.keeperSentence .alert = b.keeperSentence .alert := by
    rw [Block.keeperSentence, Block.keeperSentence, hharbour, hsec]
  have hlock : t.chLockstep (i / 2) = b.chLockstep (i / 2) := by simp only [Block.chLockstep, Block.chEnabled, Block.topo, hsec]
  refine ⟨?_, ?_, ?_, ?_, hlock.trans hb.single⟩
  · rw [hname, Block.sentence, hsec]
    exact hb.text
  · rw [Block.subFenced, Block.bit, hregs _ (hkeys _ (by simp))]
    exact hb.open_
  · rw [Block.on, hregs _ (hkeys _ (by simp))]
    exact hb.running
  · rw [Block.chState, hregs _ (hkeys _ (by simp))]
    exact hb.live

/-- An alert on another subchannel leaves what starts a back-off here. -/
theorem Block.startsBackoff_of_alertedTo (h : b.alertedTo t s) (hne : i ≠ s) (hs : s < 32) (hi : i < 32) (hb : b.startsBackoff i) :
    t.startsBackoff i := by
  have htakes := Block.takesAlert_of_alertedTo h hs hi hb.takes
  obtain ⟨-, hsubs, hregs⟩ := h
  have hkeys := not_mem_alertKeys hs hi
  refine ⟨htakes, ?_, ?_, ?_⟩
  · rw [Block.on, hregs _ (hkeys _ (by simp))]
    exact hb.prac
  · rw [hsubs i hne]
    exact hb.none_
  · rw [Block.chState, hregs _ (hkeys _ (by simp))]
    exact hb.awake

end

/-- An alert has started a back-off on subchannel `i` (R278): each rank owes its RFMs, ABO shows it and is counted, and the alert is
to be classified. -/
def Block.backsOff (b t : Block) (i : Nat) : Prop :=
  (t.subs.get i).aboOn = true ∧ (t.subs.get i).aboLate = false ∧ (t.subs.get i).classify = (b.subs.get i).classify + 1
    ∧ (∀ r : Nat, r < b.subRanks i → (t.subs.get i).abo.get r = b.rd (SCH_RFM_ABO_RFM i))
    ∧ t.rd (SCH_STATUS_ABO i) = 1 ∧ t.rd (SCH_ABO_CNT_CNT i) = min (b.rd (SCH_ABO_CNT_CNT i) + 1) 0xFFFFFFFF
    ∧ (t.subs.get i).rq = (b.subs.get i).rq ∧ (t.subs.get i).wq = (b.subs.get i).wq

/-- A round over the first `n` indices changes each of them once. -/
theorem Tab.get_upd_range {α : Type} [Inhabited α] [DecidableEq α] (t : Tab α) (f : α → α) (n k : Nat) :
    (forEach (List.range n) t (fun t j => t.upd j f)).get k = if k < n then f (t.get k) else t.get k := by
  induction n generalizing k with
  | zero => rfl
  | succ n ih =>
    rw [List.range_succ, forEach_append, forEach_cons, forEach_nil, Tab.upd, Tab.get_set, ih, ih]
    by_cases hk : k = n
    · rw [if_pos hk, hk, if_neg (Nat.lt_irrefl n), if_pos (Nat.lt_succ_self n)]
    · rw [if_neg hk]
      exact if_congr (by omega) rfl rfl

theorem Block.aboOwed_get (b : Block) (s : Nat) (t : Tab Nat) {r : Nat} (hr : r < b.subRanks s) :
    (b.aboOwed s t).get r = b.rd (SCH_RFM_ABO_RFM s) :=
  (Tab.get_upd_range t (fun _ => b.rd (SCH_RFM_ABO_RFM s)) _ r).trans (if_pos hr)

theorem Block.alert_of_startsBackoff {b : Block} {s : Nat} (h : b.startsBackoff s) (hs : s < 32) :
    b.alert s = ((b.backoffBegun s).alertNoted s).alertQueued s := by
  have hbegun := (b.alertedTo_backoffBegun s).trans
    ((b.backoffBegun s).alertedTo_updSub s (fun u => { u with classify := u.classify + 1 }))
  rw [Block.alert_eq, if_neg (by simp [h.takes.live, h.awake, h.takes.open_]), if_pos (by rw [h.prac, h.none_]; rfl)]
  exact Block.keeperRequest_of_takes (Block.takesAlert_of_alertedTo hbegun hs hs h.takes)

/-- The registers that show a back-off, against each other and those that an alert writes after them. -/
theorem aboKeys_distinct : ∀ i : Fin 32, (SCH_STATUS_ABO i).key ≠ (SCH_ABO_CNT_CNT i).key
    ∧ ∀ g ∈ [SCH_STATUS_ABO i, SCH_ABO_CNT_CNT i], g.key ≠ GLB_INT_PEND_PEND.key
      ∧ g.key ≠ (PWR_CH_STATUS_WAKE_LATCHED (i / 2)).key ∧ g.key ≠ (PWR_CH_STATUS_MOVING (i / 2)).key := by decide

section
variable {b : Block} {i : Fin 32}

theorem Block.alert_sub (h : b.startsBackoff i) : (b.alert i).subs.get i = { b.subs.get i with
    aboOn := true, aboLate := false, abo := b.aboOwed i (b.subs.get i).abo, classify := (b.subs.get i).classify + 1
    sntQ := (b.subs.get i).sntQ ++ [((b.backoffBegun i).alertNoted i).alertReq i] } := by
  rw [Block.alert_of_startsBackoff h i.isLt, Block.alertQueued, Block.wake_parts]
  dsimp only
  rw [Block.sub_updSub_self, Block.alertNoted, Block.sub_updSub_self, Block.backoffBegun_subs, Block.sub_updSub_self]

/-- After the back-off has begun, the alert writes no register that shows it. -/
theorem Block.alert_rd (h : b.startsBackoff i) {g : Fld} (hg : g ∈ [SCH_STATUS_ABO i, SCH_ABO_CNT_CNT i]) :
    (b.alert i).rd g = ((b.wr (SCH_STATUS_ABO i) 1).bump (SCH_ABO_CNT_CNT i)).rd g := by
  obtain ⟨hpend, hlatched, hmoving⟩ := (aboKeys_distinct i).2 g hg
  rw [Block.alert_of_startsBackoff h i.isLt, Block.alertQueued, Block.wake_rd _ _ hlatched hmoving, Block.rd_updSub,
    Block.alertNoted, Block.rd_updSub, Block.backoffBegun, Block.rd_intr _ _ _ _ hpend]
  rfl

theorem Block.backsOff_alert (h : b.startsBackoff i) : b.backsOff (b.alert i) i := by
  have hne := (aboKeys_distinct i).1
  rw [Block.backsOff, Block.alert_sub h, Block.alert_rd h (by simp), Block.alert_rd h (by simp), Block.rd_bump_of_ne _ _ _ hne,
    Block.rd_wr_self, Block.rd_bump_self, Block.rd_wr_of_ne _ _ _ _ hne.symm]
  exact ⟨rfl, rfl, rfl, fun r hr => b.aboOwed_get i _ hr, rfl, rfl, rfl, rfl⟩

/-- A back-off that starts after an alert on another subchannel is one from the state before it. -/
theorem Block.backsOff_of_alertedTo {t u : Block} {s : Nat} (h : b.alertedTo t s) (hne : i.val ≠ s) (hs : s < 32)
    (hb : t.backsOff u i) : b.backsOff u i := by
  have hsec := h.sec
  obtain ⟨-, hsubs, hregs⟩ := h
  have hranks : t.subRanks i = b.subRanks i := by simp only [Block.subRanks, Block.chDimms, Block.chRanks, Block.topo, hsec]
  rwa [Block.backsOff, hsubs i hne, hranks, hregs _ (not_mem_alertKeys hs i.isLt (SCH_RFM_ABO_RFM i) (by simp)),
    hregs _ (abo_not_mem_alertKeys hne i.isLt).2] at hb

/-- An alert on another subchannel leaves a back-off that has started. -/
theorem Block.backsOff_then_alertedTo {t u : Block} {s : Nat} (h : t.alertedTo u s) (hne : i.val ≠ s) (hb : b.backsOff t i) :
    b.backsOff u i := by
  obtain ⟨-, hsubs, hregs⟩ := h
  obtain ⟨habo, hcnt⟩ := abo_not_mem_alertKeys hne i.isLt
  rwa [Block.backsOff, hsubs i hne, hregs _ habo, hregs _ hcnt]

/-- The ball of the channel is sampled by both subchannels, and each starts its own back-off (R278, R558). -/
theorem Block.backsOff_alertBall (h : b.startsBackoff i) : b.backsOff (b.alertBall (i / 2)) i := by
  have heq : b.alertBall (i / 2) = (b.alert (2 * (i / 2))).alert (2 * (i / 2) + 1) := by
    rw [Block.alertBall, h.takes.single]
    rfl
  have hlt := i.isLt
  rw [heq]
  rcases Nat.mod_two_eq_zero_or_one i with heven | hodd
  · have hi : 2 * (i.val / 2) = i := by omega
    rw [hi]
    exact Block.backsOff_then_alertedTo ((b.alert i).alertedTo_alert _) (by omega) (Block.backsOff_alert h)
  · have hi : 2 * (i.val / 2) + 1 = i := by omega
    have hother := b.alertedTo_alert (2 * (i.val / 2))
    rw [hi]
    exact Block.backsOff_of_alertedTo hother (by omega) (by omega)
      (Block.backsOff_alert (Block.startsBackoff_of_alertedTo hother (by omega) (by omega) hlt h))

end

/-! ## Classified alerts (R279, R280) -/

/-- A retained write that is to be issued again. -/
def WrEnt.reissued (e : WrEnt) : WrEnt := if e.issued.isSome then { e with issued := none, counts := false, replayed := true } else e

/-- A read that is to be issued again. -/
def RdEnt.reissued (e : RdEnt) : RdEnt := { e with counts := false, replayed := true }

/-- A subchannel that replays its retained writes, and with `reads` the reads whose data has not arrived (R280). -/
def SubSt.replayed (u : SubSt) (reads : Bool) : SubSt := { u with
  wq := u.wq.map WrEnt.reissued
  again := if reads then u.inflight.map RdEnt.reissued ++ u.again else u.again
  inflight := if reads then [] else u.inflight }

/-- A subchannel whose reads to be issued again have come back as far as there is room (R249). -/
def SubSt.readsBack (u : SubSt) : SubSt :=
  { u with rq := u.again.take (64 - u.rq.length) ++ u.rq, again := u.again.drop (64 - u.rq.length) }

theorem Block.replay_parts (b : Block) (s : Nat) (reads : Bool) : b.replay s reads = { b with subs := (b.replay s reads).subs } := by
  cases reads <;> rfl

theorem Block.replay_sub (b : Block) (s : Nat) (reads : Bool) : (b.replay s reads).subs.get s =
    if reads then ((b.subs.get s).replayed true).readsBack else (b.subs.get s).replayed false := by
  cases reads
  · exact Block.sub_updSub_self ..
  · exact (Block.sub_updSub_self ..).trans (congrArg SubSt.readsBack (Block.sub_updSub_self ..))

/-- With room for every read in flight, all of them come back before the reads of the queue. -/
theorem SubSt.readsBack_of_room {u : SubSt} (hagain : u.again = []) (hroom : u.rq.length + u.inflight.length ≤ 64) :
    (u.replayed true).readsBack.rq = u.inflight.map RdEnt.reissued ++ u.rq := by
  have hfit : (u.inflight.map RdEnt.reissued ++ []).length ≤ 64 - u.rq.length := by
    rw [List.append_nil, List.length_map]
    omega
  show List.take (64 - u.rq.length) (u.inflight.map RdEnt.reissued ++ u.again) ++ u.rq = _
  rw [hagain, List.take_of_length_le hfit, List.append_nil]

/-- A subchannel on which an alert of class `k` has been classified: it waits no more, and is remembered with its slot. -/
def SubSt.alertClassed (u : SubSt) (k : AlertClass) : SubSt :=
  { u with classify := u.classify - 1, alerts := (alertNum k, u.slot) :: u.alerts.take 16 }

/-- What a classified alert replays (R280). -/
def SubSt.replayedFor (u : SubSt) : AlertClass → SubSt
  | .backoffOnly => u
  | .writeCrc => u.replayed false
  | .caParity => (u.replayed true).readsBack

/-- A class that is not the third in 1,024 slots has only its replay as effect (R280). -/
theorem Block.alertClass_eq {b : Block} {s : Nat} {k : AlertClass} (hc : (b.subs.get s).classify ≠ 0)
    (hfew : ((b.subs.get s).alerts.filter (fun a =>
      a.1 == alertNum k && decide ((b.subs.get s).slot - a.2 < 1024))).length < 2) :
    (b.alertClass s k).subs.get s = ((b.subs.get s).alertClassed k).replayedFor k
    ∧ b.alertClass s k = { b with subs := (b.alertClass s k).subs } := by
  have hsub := b.sub_updSub_self s (fun u => u.alertClassed k)
  unfold Block.alertClass
  dsimp only
  rw [if_neg hc, if_neg (by omega)]
  cases k with
  | backoffOnly => exact ⟨hsub, rfl⟩
  | writeCrc => exact ⟨(Block.replay_sub _ s false).trans (congrArg (fun u => u.replayed false) hsub), Block.replay_parts ..⟩
  | caParity =>
    exact ⟨(Block.replay_sub _ s true).trans (congrArg (fun u => (u.replayed true).readsBack) hsub), Block.replay_parts ..⟩

end Sys2Proof.Machine
end

section
/-! SUPPORT. Refresh ticks, timers and the modes of a scheduler (R255, R256, R268, R269, R279). -/

namespace Sys2Proof.Machine

open Reg

/-! ## Ticks and timers (R268, R269, R279) -/

/-- A refresh tick adds its units to the debt of every rank (R269). -/
theorem refreshTick_answers {s : State} {i : Fin 32} (h : (s.block.subs.get i).ticking = true) :
    s.answers (.refreshTick i) (fun b =>
      (∀ r : Nat, (b.subs.get i).debt.get r = (s.block.subs.get i).debt.get r
          + (if r < s.block.subRanks i then (if s.block.sameBank i then 4 else 1) else 0))
      ∧ (b.subs.get i).tickAt = s.block.now ∧ (b.subs.get i).banks = (s.block.subs.get i).banks
      ∧ (∀ j : Nat, j ≠ i.val → b.subs.get j = s.block.subs.get j) ∧ b = { s.block with subs := b.subs }) := by
  refine State.answers_onBlock (f := fun b => b.refreshTick i) rfl ?_
  rw [Block.refreshTick, if_pos h]
  refine ⟨fun r => ?_, ?_, ?_, fun j hj => ?_, rfl⟩
  · rw [Block.sub_updSub_self, Tab.get_upd_range]
    split
    · rfl
    · exact (Int.add_zero _).symm
  · rw [Block.sub_updSub_self]
  · rw [Block.sub_updSub_self]
  · rw [Block.sub_updSub, if_neg hj]

theorem refreshTick_stopped {s : State} {i : Fin 32} (h : (s.block.subs.get i).ticking = false) :
    exec (.refreshTick i) s = .next s := by
  show onBlock s (fun b => b.refreshTick i) = _
  rw [onBlock_next, Block.refreshTick, if_neg (by rw [h]; decide)]

/-- An idle timer at zero under the adaptive policy makes the precharge of its bank due (R268). -/
theorem pageIdleTimeout_answers {s : State} {i : Fin 32} {rank bg : Fin 8} {bank : Fin 4}
    (hp : 2 ≤ s.block.rd (SCH_CTL_PAGE_POLICY i))
    (hrow : ((s.block.subs.get i).banks.get (bankKey rank bg bank)).row.isSome = true)
    (hidle : ((s.block.subs.get i).banks.get (bankKey rank bg bank)).idle = some 0) :
    s.answers (.pageIdleTimeout i rank bg bank) (fun b =>
      (b.subs.get i).banks.get (bankKey rank bg bank)
        = { (s.block.subs.get i).banks.get (bankKey rank bg bank) with due := true }
      ∧ (∀ k : Nat, k ≠ bankKey rank bg bank → (b.subs.get i).banks.get k = (s.block.subs.get i).banks.get k)
      ∧ b = { s.block with subs := b.subs }) := by
  refine State.answers_onBlock (f := fun b => b.pageIdle i rank bg bank) rfl ?_
  unfold Block.pageIdle
  dsimp only
  rw [if_pos (by rw [hrow, hidle, decide_eq_true hp]; rfl)]
  refine ⟨?_, fun k hk => ?_, rfl⟩
  · rw [Block.sub_updSub_self]
    exact Tab.get_set_self ..
  · rw [Block.sub_updSub_self]
    exact Tab.get_set_of_ne _ _ hk

/-- The oldest issued write leaves once it has been retained, unless an alert is being classified (R279). -/
theorem writeRetentionExpiry_answers {s : State} {i : Fin 32} {e : WrEnt} {rest : List WrEnt} {n : Nat}
    (hwq : (s.block.subs.get i).wq = e :: rest) (hissued : e.issued = some n)
    (hlate : n + max 16 (s.block.rd (SCH_REPLAY_SLOTS i)) < (s.block.subs.get i).slot) :
    s.answers (.writeRetentionExpiry i) (fun b =>
      (b.subs.get i).wq = (if (s.block.subs.get i).classify ≠ 0 then e :: rest else rest) ∧ b = { s.block with subs := b.subs }) := by
  refine State.answers_onBlock (f := fun b => b.retentionEnds i) rfl ⟨?_, rfl⟩
  rw [Block.retentionEnds, Block.sub_updSub_self]
  split
  · exact hwq
  · rw [hwq, takeFirst, hissued]
    dsimp only
    rw [if_pos (decide_eq_true hlate)]

/-! ## Writes of SCH_CTL and SCH_REF -/

/-- The writes of subchannel `i` reach its scheduler: it is not B of a lockstep pair (R255). -/
theorem Block.hearing_of_scheduler {b : Block} {r : RegInfo} {i : Nat} (hl : b.chLockstep (i / 2) = false ∨ i % 2 = 0)
    (hr : r ∈ [reg_SCH_CTL, reg_SCH_REF]) : b.deafInstance r i = false := by
  have hb : (b.chLockstep (i / 2) && i % 2 == 1) = false := by
    rcases hl with h | h
    · rw [h]; rfl
    · rw [h]; exact Bool.and_false _
  simp only [List.mem_cons, List.not_mem_nil, or_false] at hr
  rcases hr with rfl | rfl
  all_goals simp [Block.deafInstance, Block.idleInstance, reg_SCH_CTL, reg_SCH_REF, Bool.and_assoc, hb]

/-- A block into which the fields of a word of SCH_CTL have been stored. -/
def Block.schCtlStored (b : Block) (i : Nat) (w : Word) : Block :=
  (((b.wr (SCH_CTL_AGE_CAP i) (fieldOf w (SCH_CTL_AGE_CAP i))).wr (SCH_CTL_INT_EN i) (fieldOf w (SCH_CTL_INT_EN i))).wr
    (SCH_CTL_PAGE_POLICY i) (fieldOf w (SCH_CTL_PAGE_POLICY i))).wr (SCH_CTL_QUIESCE i) (fieldOf w (SCH_CTL_QUIESCE i))

/-- A block into which the fields of a word of SCH_REF have been stored. -/
def Block.schRefStored (b : Block) (i : Nat) (w : Word) : Block :=
  ((b.wr (SCH_REF_FORCE_AT i) (fieldOf w (SCH_REF_FORCE_AT i))).wr (SCH_REF_PULLIN i) (fieldOf w (SCH_REF_PULLIN i))).wr
    (SCH_REF_MODE i) (fieldOf w (SCH_REF_MODE i))

/-- The fields of SCH_CTL of subchannel `i`. -/
def schCtlKeys (i : Nat) : List Nat :=
  [(SCH_CTL_QUIESCE i).key, (SCH_CTL_AGE_CAP i).key, (SCH_CTL_INT_EN i).key, (SCH_CTL_PAGE_POLICY i).key]

/-- The fields of SCH_REF of subchannel `i`. -/
def schRefKeys (i : Nat) : List Nat := [(SCH_REF_MODE i).key, (SCH_REF_FORCE_AT i).key, (SCH_REF_PULLIN i).key]

theorem Block.schCtlStored_onlyRegs (b : Block) (i : Nat) (w : Word) : b.onlyRegs (b.schCtlStored i w) (schCtlKeys i) :=
  Block.onlyRegs_wr (Block.onlyRegs_wr (Block.onlyRegs_wr (Block.onlyRegs_wr (b.onlyRegs_refl _) _ (by simp [schCtlKeys]))
    _ (by simp [schCtlKeys])) _ (by simp [schCtlKeys])) _ (by simp [schCtlKeys])

theorem Block.schRefStored_onlyRegs (b : Block) (i : Nat) (w : Word) : b.onlyRegs (b.schRefStored i w) (schRefKeys i) :=
  Block.onlyRegs_wr (Block.onlyRegs_wr (Block.onlyRegs_wr (b.onlyRegs_refl _) _ (by simp [schRefKeys]))
    _ (by simp [schRefKeys])) _ (by simp [schRefKeys])

theorem Block.performReg_SCH_CTL {b : Block} {i : Fin 32} (role : Role) (old : Nat) (w : Word) (x : Aux)
    (hl : b.chLockstep (i / 2) = false ∨ i.val % 2 = 0) :
    b.performReg role reg_SCH_CTL [i.val] (SCH_CTL_QUIESCE i).off old w x = b.schCtlStored i w := by
  unfold Block.performReg
  rw [if_neg (by rw [List.headD_cons, Block.hearing_of_scheduler hl (by simp)]; decide), if_neg (by simp [isMnt, reg_SCH_CTL]),
    if_neg (by simp [reg_SCH_CTL])]
  rfl

/-- A change of MODE converts the debts (R269). -/
theorem Block.performReg_SCH_REF {b : Block} {i : Fin 32} (role : Role) (old : Nat) (w : Word) (x : Aux)
    (hl : b.chLockstep (i / 2) = false ∨ i.val % 2 = 0) :
    b.performReg role reg_SCH_REF [i.val] (SCH_REF_MODE i).off old w x =
      if bitOf old 4 != bitOf w.toNat 4 then (b.schRefStored i w).convertDebt i (bitOf w.toNat 4) else b.schRefStored i w := by
  unfold Block.performReg
  rw [if_neg (by rw [List.headD_cons, Block.hearing_of_scheduler hl (by simp)]; decide), if_neg (by simp [isMnt, reg_SCH_REF]),
    if_neg (by simp [reg_SCH_REF])]
  rfl

theorem Block.noted_lockstep (b : Block) (role : Role) (r : RegInfo) (off : Nat) (w : Word) (n : Nat) :
    (b.noted role r off w).chLockstep n = b.chLockstep n := by
  rw [Block.noted_parts]
  rfl

/-! ## QUIESCE (R256) -/

/-- A granted SCH_CTL: recorded, its fields stored, and nothing else. -/
def Block.schCtlNoted (b : Block) (role : Role) (i : Nat) (w : Word) : Block :=
  (b.noted role reg_SCH_CTL (SCH_CTL_QUIESCE i).off w).schCtlStored i w

theorem writeReg_SCH_CTL {s : State} {role : Role} {i : Fin 32} {w : Word} (hg : s.grants role (SCH_CTL_QUIESCE i).off w)
    (hl : s.block.chLockstep (i / 2) = false ∨ i.val % 2 = 0) :
    writeReg role (SCH_CTL_QUIESCE i).off w default s
      = .next { s with block := (s.block.schCtlNoted role i w).mgAnswer false 0 } := by
  have hroom : s.block.recRoom (1 + s.block.fenceRecs reg_SCH_CTL.name w.toNat) = true := hg.2.2.2
  have hoff : (SCH_CTL_QUIESCE i).off = 0x80000 + 0x4000 * i.val := rfl
  exact (writeReg_go default hg (find_SCH_CTL i) (by omega) (by omega) (by decide) hroom).trans
    (by rw [Block.written, Block.performReg_SCH_CTL _ _ _ _ (by rwa [Block.noted_lockstep])]; rfl)

theorem exec_quiesceWrite (s : State) (role : Role) (i : Fin 32) (w : Word) (q : Bool) :
    exec (if q then .quiesce role i w else .quiesceClear role i w) s
      = writeReg role (SCH_CTL_QUIESCE i).off (withField w (SCH_CTL_QUIESCE i) q.toNat) default s := by
  cases q <;> rfl

section
variable {b : Block} {role : Role} {i : Fin 32} {w : Word}

theorem Block.schCtlNoted_parts : b.schCtlNoted role i w = { b with
    regs := (b.schCtlNoted role i w).regs, mg := (b.noted role reg_SCH_CTL (SCH_CTL_QUIESCE i).off w).mg } := by
  rw [Block.schCtlNoted, (Block.schCtlStored_onlyRegs _ _ _).1, Block.noted_parts]

theorem Block.schCtlNoted_regsBut : b.regsBut (b.schCtlNoted role i w) (schCtlKeys i ++ audKeys) := by
  intro g hg
  rw [List.mem_append, not_or] at hg
  rw [Block.schCtlNoted, (Block.schCtlStored_onlyRegs _ _ _).2 g hg.1, Block.noted_rd _ _ _ _ _ _ hg.2]

theorem Block.schCtlNoted_quiesce : (b.schCtlNoted role i w).rd (SCH_CTL_QUIESCE i) = fieldOf w (SCH_CTL_QUIESCE i) :=
  (Block.rd_wr_self _ _ _).trans (Nat.mod_mod _ _)

end

/-- A quiesced subchannel takes no entry (R256). -/
theorem Block.subDoor_of_quiesce {b : Block} {s : Nat} (h : b.on (SCH_CTL_QUIESCE s) = true) : b.subDoor s false ≠ 2 := by
  unfold Block.subDoor
  simp only [h, Bool.false_and, Bool.not_false, Bool.and_true, Bool.true_or, if_true]
  split <;> decide

/-- QUIESCE takes the value written; with 1 the subchannel takes no entry (R256). -/
theorem quiesceWrite_answers {s : State} {role : Role} {i : Fin 32} {w : Word} {q : Bool}
    (hl : s.block.chLockstep (i / 2) = false ∨ i.val % 2 = 0)
    (hg : s.grants role (SCH_CTL_QUIESCE i).off (withField w (SCH_CTL_QUIESCE i) q.toNat)) :
    s.answers (if q then .quiesce role i w else .quiesceClear role i w) (fun b =>
      b.rd (SCH_CTL_QUIESCE i) = q.toNat ∧ (q = true → b.subDoor i false ≠ 2) ∧ b.subs = s.block.subs
      ∧ s.block.wrote b (schCtlKeys i) ∧ b = { s.block with regs := b.regs, mg := b.mg }) := by
  have hfield : fieldOf (withField w (SCH_CTL_QUIESCE i) q.toNat) (SCH_CTL_QUIESCE i) = q.toNat :=
    (fieldOf_withField_self _ _ _ (by simp [SCH_CTL_QUIESCE]) (by simp [SCH_CTL_QUIESCE])).trans
      (Nat.mod_eq_of_lt (Bool.toNat_lt q))
  have hparts := Block.schCtlNoted_parts (b := s.block) (role := role) (i := i) (w := withField w (SCH_CTL_QUIESCE i) q.toNat)
  have hframe := Block.schCtlNoted_regsBut (b := s.block) (role := role) (i := i) (w := withField w (SCH_CTL_QUIESCE i) q.toNat)
  have hquiesce := (Block.schCtlNoted_quiesce (b := s.block) (role := role)).trans hfield
  refine State.answers_next ((exec_quiesceWrite s role i w q).trans (writeReg_SCH_CTL hg hl)) ?_
  generalize s.block.schCtlNoted role i (withField w (SCH_CTL_QUIESCE i) q.toNat) = t at *
  refine ⟨(Block.mgAnswer_rd ..).trans hquiesce, ?_, ?_, ⟨Block.mgAnswer_acked _ _, ?_, ?_, fun g hg =>
    (Block.mgAnswer_rd ..).trans (hframe g hg)⟩, ?_⟩
  · rintro rfl
    exact Block.subDoor_of_quiesce ((Block.on_iff _ _).mpr (by rw [Block.mgAnswer_rd, hquiesce]; decide))
  · show t.subs = s.block.subs
    rw [hparts]
  · show t.mg.held = s.block.mg.held
    rw [hparts, Block.noted_held]
  · show t.mg.latch = s.block.mg.latch
    rw [hparts, Block.noted_latch]
  · simp only [Block.mgAnswer]
    rw [hparts]

/-! ## The refresh mode (R269) -/

/-- A granted SCH_REF: recorded, its fields stored, and the debts converted where bit 4 of the word has changed. -/
def Block.schRefNoted (b : Block) (role : Role) (i : Nat) (w : Word) : Block :=
  let t := (b.noted role reg_SCH_REF (SCH_REF_MODE i).off w).schRefStored i w
  if bitOf (b.readWord (SCH_REF_MODE i).off) 4 != bitOf w.toNat 4 then t.convertDebt i (bitOf w.toNat 4) else t

theorem writeReg_SCH_REF {s : State} {role : Role} {i : Fin 32} {w : Word} (hg : s.grants role (SCH_REF_MODE i).off w)
    (hl : s.block.chLockstep (i / 2) = false ∨ i.val % 2 = 0) :
    writeReg role (SCH_REF_MODE i).off w default s
      = .next { s with block := (s.block.schRefNoted role i w).mgAnswer false 0 } := by
  have hroom : s.block.recRoom (1 + s.block.fenceRecs reg_SCH_REF.name w.toNat) = true := hg.2.2.2
  have hoff : (SCH_REF_MODE i).off = 0x80014 + 0x4000 * i.val := rfl
  exact (writeReg_go default hg (find_SCH_REF i) (by omega) (by omega) (by decide) hroom).trans
    (by rw [Block.written, Block.performReg_SCH_REF _ _ _ _ (by rwa [Block.noted_lockstep])]; rfl)

/-- A debt in the other mode (R269). -/
def debtIn (toSameBank : Bool) (d : Int) : Int := if toSameBank then 4 * d else -((-d) / 4)

/-- A table rebuilt with a changed value in each entry reads the changed values. -/
theorem Tab.get_rebuilt {α : Type} [Inhabited α] [DecidableEq α] (t : Tab α) (f : α → α) (hf : f default = default) (k : Nat) :
    Tab.get (forEach t.reverse ([] : Tab α) (fun u e => Tab.set u e.1 (f e.2))) k = f (t.get k) := by
  unfold forEach
  rw [List.foldl_reverse]
  induction t with
  | nil => exact hf.symm
  | cons e t ih =>
    obtain ⟨j, v⟩ := e
    rw [List.foldr_cons, Tab.get_set, ih, Tab.get]
    by_cases hk : k = j
    · rw [if_pos hk, if_pos hk.symm]
    · rw [if_neg hk, if_neg (Ne.symm hk)]

theorem Block.convertDebt_get (b : Block) (s : Nat) (toSameBank : Bool) (r : Nat) :
    ((b.convertDebt s toSameBank).subs.get s).debt.get r = debtIn toSameBank ((b.subs.get s).debt.get r) := by
  rw [Block.convertDebt, Block.sub_updSub_self]
  exact Tab.get_rebuilt _ (debtIn toSameBank) (by cases toSameBank <;> rfl) r

section
variable {b : Block} {role : Role} {i : Fin 32} {w : Word}

theorem Block.convertDebt_parts (b : Block) (s : Nat) (m : Bool) :
    b.convertDebt s m = { b with subs := (b.convertDebt s m).subs } := rfl

theorem Block.schRefNoted_parts : b.schRefNoted role i w = { b with
    regs := ((b.noted role reg_SCH_REF (SCH_REF_MODE i).off w).schRefStored i w).regs
    mg := (b.noted role reg_SCH_REF (SCH_REF_MODE i).off w).mg, subs := (b.schRefNoted role i w).subs } := by
  have hstored : (b.noted role reg_SCH_REF (SCH_REF_MODE i).off w).schRefStored i w = { b with
      regs := ((b.noted role reg_SCH_REF (SCH_REF_MODE i).off w).schRefStored i w).regs
      mg := (b.noted role reg_SCH_REF (SCH_REF_MODE i).off w).mg } := by
    rw [(Block.schRefStored_onlyRegs _ _ _).1, Block.noted_parts]
  unfold Block.schRefNoted
  dsimp only
  split
  · rw [Block.convertDebt_parts, hstored]
  · rw [hstored]

theorem Block.schRefNoted_rd (g : Fld) :
    (b.schRefNoted role i w).rd g = ((b.noted role reg_SCH_REF (SCH_REF_MODE i).off w).schRefStored i w).rd g := by
  rw [Block.schRefNoted_parts]
  rfl

theorem Block.schRefNoted_regsBut : b.regsBut (b.schRefNoted role i w) (schRefKeys i ++ audKeys) := by
  intro g hg
  rw [List.mem_append, not_or] at hg
  rw [Block.schRefNoted_rd, (Block.schRefStored_onlyRegs _ _ _).2 g hg.1, Block.noted_rd _ _ _ _ _ _ hg.2]

theorem Block.schRefNoted_mode : (b.schRefNoted role i w).rd (SCH_REF_MODE i) = fieldOf w (SCH_REF_MODE i) :=
  (Block.schRefNoted_rd _).trans ((Block.rd_wr_self _ _ _).trans (Nat.mod_mod _ _))

/-- What a granted SCH_REF leaves of the subchannels: those of another index, and of its own all but the debts. -/
theorem Block.schRefNoted_sub (j : Nat) : (b.schRefNoted role i w).subs.get j =
    if j = i.val ∧ bitOf (b.readWord (SCH_REF_MODE i).off) 4 ≠ bitOf w.toNat 4
    then (b.convertDebt i (bitOf w.toNat 4)).subs.get i else b.subs.get j := by
  have hsubs : ((b.noted role reg_SCH_REF (SCH_REF_MODE i).off w).schRefStored i w).subs = b.subs := Block.noted_subs ..
  unfold Block.schRefNoted
  dsimp only
  by_cases hbit : bitOf (b.readWord (SCH_REF_MODE i).off) 4 = bitOf w.toNat 4
  · rw [if_neg (by rw [hbit, bne_self_eq_false]; decide), if_neg (fun h => h.2 hbit), hsubs]
  · rw [if_pos (bne_iff_ne.mpr hbit), Block.convertDebt, Block.sub_updSub, hsubs]
    by_cases hj : j = i.val
    · rw [if_pos hj, if_pos ⟨hj, hbit⟩, Block.convertDebt, Block.sub_updSub_self]
    · rw [if_neg hj, if_neg (fun h => hj h.1)]

end

theorem findReg_SCH_REF (i : Fin 32) : findReg (SCH_REF_MODE i).off = some (reg_SCH_REF, [i.val]) := find_SCH_REF i

/-- SCH_REF lies below the windows of the management space (R8). -/
theorem SCH_REF_off_lt (i : Fin 32) : (SCH_REF_MODE i).off < 0x300000 := by
  have := i.isLt
  simp only [SCH_REF_MODE]
  omega

/-- A write to a register of a domain that is off is not performed (R580, R586). -/
theorem Block.regOff_of_go {b : Block} {role : Role} {r r' : RegInfo} {idx idx' : List Nat} {old w : Nat}
    (h : b.judgeReg role r idx old w = .go r' idx') : b.regOff r (idx.headD 0) = false := by
  by_contra hoff
  rw [Bool.not_eq_false] at hoff
  unfold Block.judgeReg at h
  simp only [hoff, Bool.true_or, if_true] at h
  repeat' split at h
  all_goals cases h

theorem Block.regOff_of_grants {s : State} {role : Role} {i : Fin 32} {w : Word} (hg : s.grants role (SCH_REF_MODE i).off w) :
    s.block.regOff reg_SCH_REF i = false := by
  obtain ⟨-, -, ⟨r, idx, hgo⟩, -⟩ := hg
  have hlow := SCH_REF_off_lt i
  have hjudge : s.block.judgeWrite role (SCH_REF_MODE i).off w = if role = .none then .refuse 3
      else s.block.judgeReg role reg_SCH_REF [i.val] (s.block.regWord reg_SCH_REF [i.val] (SCH_REF_MODE i).off) w.toNat := by
    unfold Block.judgeWrite
    rw [if_neg (show ¬ testSpace ≤ (SCH_REF_MODE i).off by simp only [testSpace]; omega),
      if_neg (show ¬ 0x400000 ≤ (SCH_REF_MODE i).off by omega), if_neg (show ¬ 0x300000 ≤ (SCH_REF_MODE i).off by omega),
      findReg_SCH_REF]
  rw [hjudge] at hgo
  split at hgo
  · cases hgo
  · have hoff := Block.regOff_of_go hgo
    rwa [List.headD_cons] at hoff

/-- The word of SCH_REF gives its three fields (R1). -/
theorem Block.readWord_SCH_REF {b : Block} {i : Fin 32} (hoff : b.regOff reg_SCH_REF i = false)
    (hl : b.chLockstep (i / 2) = false ∨ i.val % 2 = 0) : b.readWord (SCH_REF_MODE i).off =
      0 + b.rd (SCH_REF_FORCE_AT i) * 2 ^ 16 + b.rd (SCH_REF_PULLIN i) * 2 ^ 8 + b.rd (SCH_REF_MODE i) * 2 ^ 4 := by
  have hidle : b.idleInstance reg_SCH_REF i = false := by
    have hdeaf := Block.hearing_of_scheduler (r := reg_SCH_REF) hl (by simp)
    simp only [Block.deafInstance, Bool.or_eq_false_iff] at hdeaf
    exact hdeaf.1.1
  have hlow := SCH_REF_off_lt i
  unfold Block.readWord
  rw [if_neg (show ¬ testSpace ≤ (SCH_REF_MODE i).off by simp only [testSpace]; omega),
    if_neg (show ¬ 0x400000 ≤ (SCH_REF_MODE i).off by omega), findReg_SCH_REF]
  dsimp only
  unfold Block.regWord
  dsimp only
  rw [List.headD_cons, if_neg (by rw [hoff]; decide), if_neg (by rw [hidle]; decide), if_neg (by simp [reg_SCH_REF])]
  rfl

/-- Where MODE holds one bit, bit 4 of the word shows the mode. -/
theorem Block.readWord_mode {b : Block} {i : Fin 32} (hoff : b.regOff reg_SCH_REF i = false)
    (hl : b.chLockstep (i / 2) = false ∨ i.val % 2 = 0) (hm : b.rd (SCH_REF_MODE i) ≤ 1) :
    bitOf (b.readWord (SCH_REF_MODE i).off) 4 = b.sameBank i := by
  rw [Block.readWord_SCH_REF hoff hl, bitOf, Block.sameBank, Block.on, Nat.shiftRight_eq_div_pow]
  generalize b.rd (SCH_REF_MODE i) = m at *
  generalize b.rd (SCH_REF_FORCE_AT i) = x
  generalize b.rd (SCH_REF_PULLIN i) = y
  rcases Nat.le_one_iff_eq_zero_or_eq_one.mp hm with rfl | rfl
  · rw [beq_eq_false_iff_ne.mpr (by omega)]
    rfl
  · rw [beq_iff_eq.mpr (by omega)]
    rfl

theorem fieldOf_modeWord (w : Word) (i : Fin 32) (mode : Bool) :
    fieldOf (withField w (SCH_REF_MODE i) mode.toNat) (SCH_REF_MODE i) = mode.toNat :=
  (fieldOf_withField_self _ _ _ (by simp [SCH_REF_MODE]) (by simp [SCH_REF_MODE])).trans (Nat.mod_eq_of_lt (Bool.toNat_lt mode))

theorem bitOf_modeWord (w : Word) (i : Fin 32) (mode : Bool) :
    bitOf (withField w (SCH_REF_MODE i) mode.toNat).toNat 4 = mode := by
  rw [bitOf_eq_field _ (SCH_REF_MODE i).off 4 0]
  exact (congrArg (· == 1) (fieldOf_modeWord w i mode)).trans (by cases mode <;> rfl)

/-- Where MODE holds one bit, a change of the mode converts the debt of every rank, and a write that keeps it does not (R269). -/
theorem refreshModeChange_answers {s : State} {role : Role} {i : Fin 32} {mode : Bool} {w : Word}
    (hm : s.block.rd (SCH_REF_MODE i) ≤ 1) (hl : s.block.chLockstep (i / 2) = false ∨ i.val % 2 = 0)
    (hg : s.grants role (SCH_REF_MODE i).off (withField w (SCH_REF_MODE i) mode.toNat)) :
    s.answers (.refreshModeChange role i mode w) (fun b =>
      b.rd (SCH_REF_MODE i) = mode.toNat
      ∧ (∀ r : Nat, (b.subs.get i).debt.get r =
          if s.block.sameBank i = mode then (s.block.subs.get i).debt.get r
          else if mode then 4 * (s.block.subs.get i).debt.get r else -((-(s.block.subs.get i).debt.get r) / 4))
      ∧ (b.subs.get i).banks = (s.block.subs.get i).banks ∧ (∀ j : Nat, j ≠ i.val → b.subs.get j = s.block.subs.get j)
      ∧ s.block.wrote b (schRefKeys i) ∧ b = { s.block with regs := b.regs, mg := b.mg, subs := b.subs }) := by
  have hold : bitOf (s.block.readWord (SCH_REF_MODE i).off) 4 = s.block.sameBank i :=
    Block.readWord_mode (Block.regOff_of_grants hg) hl hm
  have hparts := Block.schRefNoted_parts (b := s.block) (role := role) (i := i) (w := withField w (SCH_REF_MODE i) mode.toNat)
  have hframe := Block.schRefNoted_regsBut (b := s.block) (role := role) (i := i) (w := withField w (SCH_REF_MODE i) mode.toNat)
  have hmode := (Block.schRefNoted_mode (b := s.block) (role := role)).trans (fieldOf_modeWord w i mode)
  have hsub := Block.schRefNoted_sub (b := s.block) (role := role) (i := i) (w := withField w (SCH_REF_MODE i) mode.toNat)
  rw [hold, bitOf_modeWord] at hsub
  refine State.answers_next (writeReg_SCH_REF hg hl) ?_
  generalize s.block.schRefNoted role i (withField w (SCH_REF_MODE i) mode.toNat) = t at *
  refine ⟨(Block.mgAnswer_rd ..).trans hmode, fun r => ?_, ?_, fun j hj => (hsub j).trans (if_neg fun h => hj h.1),
    ⟨Block.mgAnswer_acked _ _, ?_, ?_, fun g hg => (Block.mgAnswer_rd ..).trans (hframe g hg)⟩, ?_⟩
  · show (t.subs.get i).debt.get r = _
    by_cases hsame : s.block.sameBank i = mode
    · rw [hsub, if_neg (fun h => h.2 hsame), if_pos hsame]
    · rw [hsub, if_pos ⟨rfl, hsame⟩, if_neg hsame, Block.convertDebt_get]
      rfl
  · show (t.subs.get i).banks = _
    rw [hsub]
    split
    · rw [Block.convertDebt, Block.sub_updSub_self]
    · rfl
  · show t.mg.held = s.block.mg.held
    rw [hparts, Block.noted_held]
  · show t.mg.latch = s.block.mg.latch
    rw [hparts, Block.noted_latch]
  · simp only [Block.mgAnswer]
    rw [hparts]

/-! ## A MODE that holds more than its width -/

/-- Subchannel 0 owes one refresh and is quiesced, and SCH_REF.MODE, a field of one bit, holds 2: it reads as same-bank mode, while
the word of SCH_REF shows a 0 there. No write leaves such a value (`Block.rd_wr_self`), but `State` admits it. -/
def modeTwo : Block :=
  { (default : Block) with
    regs := [((SCH_CTL_QUIESCE 0).key, 2), ((SCH_REF_MODE 0).key, 3)], subs := [(0, { (default : SubSt) with debt := [(0, 1)] })]
    start := { (default : StartSt) with open_ := true } }

theorem modeTwo_grants : State.grants ⟨modeTwo, []⟩ .maker (SCH_REF_MODE 0).off (withField 0 (SCH_REF_MODE 0) 1) :=
  ⟨rfl, rfl, ⟨reg_SCH_REF, [0], by decide +kernel⟩, by decide⟩

theorem modeTwo_sameBank : modeTwo.sameBank 0 = true := by decide

theorem modeTwo_debt : ((modeTwo.schRefNoted .maker 0 (withField 0 (SCH_REF_MODE 0) 1)).subs.get 0).debt.get 0 = 4 := by
  decide +kernel

end Sys2Proof.Machine
end

section
/-! SUPPORT. The slot of a subchannel whose only work is an eligible read of an open row (R250, R260, R266): the selection finds the
read and nothing else. -/

namespace Sys2Proof.Machine

open Reg

/-! ## The lone read -/

/-- The RD of a read entry. -/
def RdEnt.rd (e : RdEnt) : HistCmd := mkCmd cmRD e.at_.rank e.at_.bg e.at_.bank

/-- Subchannel `i` runs, its only work is the eligible read `e` of the open row of its bank, and the clauses allow the RD. -/
structure Block.loneRead (b : Block) (i : Nat) (e : RdEnt) : Prop where
  served : b.chLockstep (i / 2) = false ∨ i % 2 = 0
  rq : (b.subs.get i).rq = [e]
  wq : (b.subs.get i).wq = []
  ripe : e.arrival + 2 ≤ (b.subs.get i).slot
  again : (b.subs.get i).again = []
  row : (b.subs.get i).rowOf e.at_ = some e.at_.row
  policy : b.rd (SCH_CTL_PAGE_POLICY i) = 0
  mode : b.on (SCH_STATUS_MODE i) = false
  level : b.issueLevel i = 2
  loop : b.on (PHY_LOOP_STATUS_BUSY i) = false
  ticking : (b.subs.get i).ticking = false
  abo : (b.subs.get i).aboOn = false
  rfm : b.on (SCH_RFM_RFM_REQ i) = false
  snt : (b.subs.get i).snt = none
  repair : b.ecc.repair.get i = none
  selfRef : (b.subs.get i).selfRef = []
  preFirst : (b.subs.get i).preFirst = []
  preAll : (b.subs.get i).preAll = false
  idleLeft : (b.subs.get i).idleLeft = 0
  due : ∀ x ∈ (b.subs.get i).banks, x.2.due = false
  allowed : b.clausesAllow (clausesOf (b.activeSet i)) i (b.subs.get i).slot (b.subs.get i).hist
    { e.rd with pos := 8 * (b.subs.get i).slot } = true

/-- The candidate that the read is (R260). -/
def Block.readCand (b : Block) (i : Nat) (e : RdEnt) : Cand := ⟨b.entKey i (.rd 0) true, e.rd, .entry (.rd 0)⟩

section
variable {b : Block} {i : Nat} {e : RdEnt}

theorem Block.drainHi_pos (b : Block) (s : Nat) : 0 < b.drainHi s := by unfold Block.drainHi; omega

theorem Block.loneRead.unissued (h : b.loneRead i e) : (b.subs.get i).unissued = [] := by rw [SubSt.unissued, h.wq]; rfl

/-- Without writes the subchannel stays in read mode (R266). -/
theorem Block.loneRead.nextMode (h : b.loneRead i e) : b.nextMode i = false := by
  have haged : b.agedWrite i = false := by
    unfold Block.agedWrite
    dsimp only
    rw [h.unissued]
    exact Bool.and_false _
  have hhi := b.drainHi_pos i
  unfold Block.nextMode
  dsimp only
  rw [h.mode, h.unissued, haged, if_neg Bool.false_ne_true, Bool.or_false]
  exact decide_eq_false (by rw [List.length_nil]; omega)

theorem Block.loneRead.eligibleAll (h : b.loneRead i e) : b.eligibleAll i = [.rd 0] := by
  unfold Block.eligibleAll
  dsimp only
  rw [h.rq, h.wq, h.mode]
  rfl

/-- The read has waited its two slots (R250). -/
theorem Block.loneRead.eligible (h : b.loneRead i e) : b.eligible i = [.rd 0] := by
  have hripe : (b.subs.get i).entArr (.rd 0) + 2 ≤ (b.subs.get i).slot := by
    rw [SubSt.entArr, h.rq]
    exact h.ripe
  unfold Block.eligible
  dsimp only
  rw [h.eligibleAll, List.filter_cons, if_pos (decide_eq_true hripe)]
  rfl

theorem Block.loneRead.place (h : b.loneRead i e) : (b.subs.get i).place (.rd 0) = e.at_ := by rw [SubSt.place, h.rq]; rfl

/-- Its row is open and stays so: the command it needs is the RD (R262). -/
theorem Block.loneRead.nextCmd (h : b.loneRead i e) (elig : List EntRef) : b.nextCmd i elig (.rd 0) = some e.rd := by
  unfold Block.nextCmd
  dsimp only
  rw [h.place, h.row]
  dsimp only
  rw [if_pos rfl, h.policy]
  rfl

theorem Block.loneRead.entryCands (h : b.loneRead i e) : b.entryCands i [.rd 0] = [b.readCand i e] := by
  unfold Block.entryCands
  dsimp only
  rw [List.filterMap_cons, h.nextCmd]
  rfl

/-! ## No other candidate -/

theorem Block.loneRead.preCands (h : b.loneRead i e) : b.preCands i = [] := by
  unfold Block.preCands
  dsimp only
  rw [h.preFirst]
  rfl

/-- Where the ticks are stopped no refresh is pending (R276). -/
theorem Block.refCands_of_stopped (h : (b.subs.get i).ticking = false) (elig : List EntRef) : b.refCands i elig = [] := by
  have hwanted (r : Nat) : b.refreshWanted i elig r = none := by
    unfold Block.refreshWanted
    dsimp only
    rw [if_pos (by rw [h, Bool.not_false, Bool.or_true])]
  unfold Block.refCands
  dsimp only
  exact List.filterMap_eq_nil_iff.mpr fun r _ => by rw [hwanted]

theorem Block.loneRead.rfmCands (h : b.loneRead i e) : b.rfmCands i = [] := by
  unfold Block.rfmCands
  dsimp only
  rw [h.abo, h.rfm]
  rfl

theorem Block.loneRead.stepCands (h : b.loneRead i e) : b.stepCands i = [] := by
  unfold Block.stepCands
  rw [h.snt]

theorem Block.loneRead.idleCands (h : b.loneRead i e) : b.idleCands i = [] :=
  List.filterMap_eq_nil_iff.mpr fun x hx => by rw [h.due x hx]; rfl

/-- A subchannel that may issue everything is not in A1 (R465). -/
theorem Block.chState_of_level (h : b.issueLevel i = 2) : b.chState (i / 2) ≠ pwA1 := by
  intro hst
  unfold Block.issueLevel at h
  dsimp only at h
  split at h
  · exact absurd h (by decide)
  split at h
  · split at h <;> exact absurd h (by decide)
  · rw [if_pos (by rw [hst, beq_self_eq_true, Bool.or_true])] at h
    exact absurd h (by decide)

theorem Block.loneRead.downCands (h : b.loneRead i e) (elig : List EntRef) : b.downCands i elig = [] := by
  unfold Block.downCands
  exact if_pos (bne_iff_ne.mpr (Block.chState_of_level h.level))

/-- The read is the only candidate of the slot. -/
theorem Block.loneRead.topCands (h : b.loneRead i e) : b.topCands i [.rd 0] = [b.readCand i e] := by
  rw [Block.topCands, Block.cands, h.preCands, Block.refCands_of_stopped h.ticking, h.rfmCands, h.stepCands, h.idleCands,
    h.downCands, h.entryCands]
  rfl

/-! ## The selection (R260, R261) -/

theorem Block.loneRead.heldRanks (h : b.loneRead i e) : b.heldRanks i = [] := by
  unfold Block.heldRanks
  dsimp only
  rw [h.snt, h.repair, h.selfRef]
  rfl

/-- Nothing keeps the read from issuing, and the clauses allow it. -/
theorem Block.loneRead.legal (h : b.loneRead i e) : b.legal0 i [.rd 0] (b.readCand i e) = true := by
  refine Block.legal_iff.mpr ⟨?_, h.allowed⟩
  unfold Block.blocked Block.readCand
  dsimp only
  rw [h.level, h.loop, h.preAll, h.preFirst, h.heldRanks, h.idleLeft]
  rfl

theorem Block.loneRead.pick0 (h : b.loneRead i e) : b.pick0 i [.rd 0] = some (b.readCand i e) := by
  have htest : (isColumn (b.readCand i e).cmd.cls && b.legal0 i [.rd 0] (b.readCand i e)) = true := by rw [h.legal]; rfl
  rw [Block.pick0_eq, h.topCands, List.find?_cons, htest]
  rfl

/-- A candidate that phase 0 has taken leaves none for phase 1. -/
theorem Block.pick1_of_alone (b : Block) (i : Nat) (c : Cand) : b.pick1 i [c] (some c) = none := by simp [Block.pick1]

end

/-! ## What precedes the selection -/

/-- `t` is `b` but for the subchannels. -/
def Block.subsOnly (b t : Block) : Prop := t = { b with subs := t.subs }

theorem Block.subsOnly_updSub (b : Block) (s : Nat) (f : SubSt → SubSt) : b.subsOnly (b.updSub s f) := rfl

theorem Block.subsOnly.trans {b t u : Block} (h : b.subsOnly t) (hu : t.subsOnly u) : b.subsOnly u :=
  Eq.trans hu (congrArg (fun x : Block => { x with subs := u.subs }) h)

/-- Another credit leaves a lone read as it is. -/
theorem Block.loneRead.credit {b t : Block} {i : Nat} {e : RdEnt} (h : b.loneRead i e) (hparts : b.subsOnly t) {c : Tab Nat}
    (hsub : t.subs.get i = { b.subs.get i with credit := c }) (hother : ∀ j : Nat, j ≠ i → t.subs.get j = b.subs.get j) :
    t.loneRead i e := by
  unfold Block.subsOnly at hparts
  have hrd (g : Fld) : t.rd g = b.rd g := by rw [hparts]; rfl
  have hhist (j : Nat) : (t.subs.get j).hist = (b.subs.get j).hist := by
    by_cases hj : j = i
    · rw [hj, hsub]
    · rw [hother j hj]
  have hlock : t.chLockstep (i / 2) = b.chLockstep (i / 2) := by rw [hparts]; rfl
  have hlevel : t.issueLevel i = b.issueLevel i := by
    have hst : t.chState (i / 2) = b.chState (i / 2) := hrd _
    have hfence : t.subFenced i = b.subFenced i := by rw [hparts]; rfl
    have htrain : t.training i = b.training i := by rw [hparts]; rfl
    have hpattern : t.trainPattern i = b.trainPattern i := by rw [hparts]; rfl
    have hon (g : Fld) : t.on g = b.on g := by rw [Block.on, hrd, Block.on]
    unfold Block.issueLevel
    rw [hfence, hrd, htrain, hst, hpattern, hon, hon, hon, hlock, hsub]
  have hset : t.activeSet i = b.activeSet i := by rw [Block.activeSet, Block.activeSet, hrd, hsub]
  have hallow (cls : List Clause) (k : Nat) (own : List HistCmd) (x : HistCmd) :
      t.clausesAllow cls i k own x = b.clausesAllow cls i k own x := by
    have hsib : t.sibHist i k = b.sibHist i k := by simp only [Block.sibHist, Block.sibFrom, hlock, hhist]
    rw [Block.clausesAllow, hsib, Block.clausesAllow]
  constructor
  case served => rw [hlock]; exact h.served
  case policy => rw [hrd]; exact h.policy
  case mode => rw [Block.on, hrd]; exact h.mode
  case level => rw [hlevel]; exact h.level
  case loop => rw [Block.on, hrd]; exact h.loop
  case rfm => rw [Block.on, hrd]; exact h.rfm
  case repair => rw [hparts]; exact h.repair
  case allowed => rw [hset, hallow, hsub]; exact h.allowed
  all_goals rw [hsub]
  case rq => exact h.rq
  case wq => exact h.wq
  case ripe => exact h.ripe
  case again => exact h.again
  case row => exact h.row
  case ticking => exact h.ticking
  case abo => exact h.abo
  case snt => exact h.snt
  case selfRef => exact h.selfRef
  case preFirst => exact h.preFirst
  case preAll => exact h.preAll
  case idleLeft => exact h.idleLeft
  case due => exact h.due

/-- A slot before its mode is chosen: retained writes freed, replayed reads back, idle timers judged (R249, R268, R279). -/
def Block.slotReady (b : Block) (i : Nat) : Block := ((b.freeWrites i).readsAgain i).idleDue i

section
variable {b : Block} {i : Nat} {e : RdEnt}

theorem Block.slotReady_other (b : Block) (i : Nat) {j : Nat} (hj : j ≠ i) : (b.slotReady i).subs.get j = b.subs.get j := by
  rw [Block.slotReady, Block.idleDue, Block.sub_updSub, if_neg hj, Block.readsAgain, Block.sub_updSub, if_neg hj, Block.freeWrites,
    Block.sub_updSub, if_neg hj]

theorem Block.slotReady_subsOnly (b : Block) (i : Nat) : b.subsOnly (b.slotReady i) :=
  ((b.subsOnly_updSub i _).trans (Block.subsOnly_updSub _ i _)).trans (Block.subsOnly_updSub _ i _)

/-- Without writes, replayed reads and an adaptive policy nothing of the subchannel changes. -/
theorem Block.loneRead.slotReady_sub (h : b.loneRead i e) : (b.slotReady i).subs.get i = b.subs.get i := by
  have hfree : (b.freeWrites i).subs.get i = b.subs.get i := by
    rw [Block.freeWrites, Block.sub_updSub_self, h.wq]
    split
    · rfl
    · rw [List.filter_nil, ← h.wq]
  have hback : ((b.freeWrites i).readsAgain i).subs.get i = b.subs.get i := by
    rw [Block.readsAgain, Block.sub_updSub_self, hfree]
    dsimp only
    rw [h.again, List.take_nil, List.drop_nil, List.nil_append, ← h.again]
  have hpolicy : decide (2 ≤ ((b.freeWrites i).readsAgain i).rd (SCH_CTL_PAGE_POLICY i)) = false := by
    show decide (2 ≤ b.rd (SCH_CTL_PAGE_POLICY i)) = false
    rw [h.policy]
    rfl
  have hdue (x : Nat × Bank) :
      (if x.2.row.isSome then (x.1, { x.2 with due := x.2.due || (false && x.2.idle == some 0) }) else x) = x := by
    split
    · rw [Bool.false_and, Bool.or_false]
    · rfl
  rw [Block.slotReady, Block.idleDue, Block.sub_updSub_self, hback, hpolicy]
  simp only [hdue, List.map_id']

theorem Block.loneRead.slotReady (h : b.loneRead i e) : (b.slotReady i).loneRead i e :=
  h.credit (b.slotReady_subsOnly i) h.slotReady_sub fun _ hj => b.slotReady_other i hj

/-- The block in which the slot selects: the credits refilled (R265). -/
def Block.slotOpened (b : Block) (i : Nat) : Block := (b.slotReady i).refill i [.rd 0]

/-- A refill changes only the credits of its subchannel (R265). -/
theorem Block.refill_kept (b : Block) (i : Nat) (elig : List EntRef) :
    b.subsOnly (b.refill i elig)
    ∧ (∃ c, (b.refill i elig).subs.get i = { b.subs.get i with credit := c })
    ∧ ∀ j : Nat, j ≠ i → (b.refill i elig).subs.get j = b.subs.get j := by
  unfold Block.refill
  dsimp only
  split
  · exact ⟨rfl, ⟨(b.subs.get i).credit, rfl⟩, fun _ _ => rfl⟩
  · exact ⟨rfl, ⟨_, Block.sub_updSub_self ..⟩, fun _ hj => (Block.sub_updSub ..).trans (if_neg hj)⟩

theorem Block.loneRead.slotOpened (h : b.loneRead i e) : (b.slotOpened i).loneRead i e
    ∧ b.subsOnly (b.slotOpened i) ∧ (∃ c, (b.slotOpened i).subs.get i = { b.subs.get i with credit := c })
    ∧ ∀ j : Nat, j ≠ i → (b.slotOpened i).subs.get j = b.subs.get j := by
  have hsub := h.slotReady_sub
  have hready := b.slotReady_subsOnly i
  have hother (j : Nat) (hj : j ≠ i) := b.slotReady_other i hj
  unfold Block.slotOpened
  generalize b.slotReady i = t at *
  obtain ⟨hparts, ⟨c, hc⟩, hrest⟩ := t.refill_kept i [.rd 0]
  generalize t.refill i [.rd 0] = u at *
  rw [hsub] at hc
  have hparts' := hready.trans hparts
  have hrest' (j : Nat) (hj : j ≠ i) : u.subs.get j = b.subs.get j := (hrest j hj).trans (hother j hj)
  exact ⟨h.credit hparts' hc hrest', hparts', ⟨c, hc⟩, hrest'⟩

end

end Sys2Proof.Machine
end

section
/-! SUPPORT. The slot in which a lone read issues: what it counts, what the replay of an entry shows (R280), the commands that the
checkers of a pair are given (R304), and the read's column command. -/

namespace Sys2Proof.Machine

open Reg

/-! ## What a slot counts -/

/-- `t` is `b` after some of its events have been counted and its slots classified: the subchannels are as they were. -/
def Block.slotCounted (b t : Block) : Prop :=
  t = { b with regs := t.regs, ctr := t.ctr, fresh := t.fresh, regu := t.regu } ∧ b.regsButCounted t []

/-- `t` is `b` but for the subchannels, for what is counted and for the register fields of the keys `ks`. -/
def Block.slotTo (b t : Block) (ks : List Nat) : Prop :=
  t = { b with regs := t.regs, ctr := t.ctr, fresh := t.fresh, subs := t.subs, regu := t.regu } ∧ b.regsButCounted t ks

section
variable {b t u : Block} {i : Nat} {ks : List Nat}

theorem Block.slotCounted_refl (b : Block) : b.slotCounted b := ⟨rfl, fun _ _ _ _ => rfl⟩

theorem Block.slotCounted.trans (h : b.slotCounted t) (hu : t.slotCounted u) : b.slotCounted u := by
  obtain ⟨ht, hregs⟩ := h
  obtain ⟨hu, hregs'⟩ := hu
  exact ⟨hu.trans (congrArg (fun x : Block => { x with regs := u.regs, ctr := u.ctr, fresh := u.fresh, regu := u.regu }) ht),
    fun g hg hc hp => (hregs' g hg hc hp).trans (hregs g hg hc hp)⟩

theorem Block.slotCounted.subs (h : b.slotCounted t) : t.subs = b.subs := (congrArg Block.subs h.1 :)

/-- An event of a subchannel has no master, so no filter samples it into a register. -/
theorem Block.slotCounted.count (h : b.slotCounted t) (i : Fin 32) (code n : Nat) {c : Carry} (hc : c.master = none) :
    b.slotCounted (t.count (ctrSub i) code n c) := by
  refine h.trans ⟨?_, Block.regsButCounted_count hc (by simp only [ctrSub]; omega)⟩
  rw [(Block.countedTo_count ..).1]

theorem Block.slotCounted.count_ite (h : b.slotCounted t) (p : Bool) (i : Fin 32) (code n : Nat) {c : Carry}
    (hc : c.master = none) : b.slotCounted (if p then t.count (ctrSub i) code n c else t) := by
  split
  · exact h.count i code n hc
  · exact h

theorem Block.slotCounted.countSlot (h : b.slotCounted t) (j k : Nat) : b.slotCounted (t.countSlot j k) :=
  h.trans ⟨rfl, fun _ _ _ _ => rfl⟩

theorem Block.slotTo.trans (h : b.slotTo t ks) (hu : t.slotTo u ks) : b.slotTo u ks := by
  obtain ⟨ht, hregs⟩ := h
  obtain ⟨hu, hregs'⟩ := hu
  exact ⟨hu.trans (congrArg (fun x : Block =>
      { x with regs := u.regs, ctr := u.ctr, fresh := u.fresh, subs := u.subs, regu := u.regu }) ht),
    fun g hg hc hp => (hregs' g hg hc hp).trans (hregs g hg hc hp)⟩

theorem Block.slotTo_refl (b : Block) (ks : List Nat) : b.slotTo b ks := ⟨rfl, fun _ _ _ _ => rfl⟩

theorem Block.slotCounted.slotTo (h : b.slotCounted t) (ks : List Nat) : b.slotTo t ks := by
  obtain ⟨ht, hregs⟩ := h
  refine ⟨?_, fun g _ hc hp => hregs g (List.not_mem_nil) hc hp⟩
  rw [ht]

theorem Block.subsOnly.slotTo (h : b.subsOnly t) : b.slotTo t [] := by
  unfold Block.subsOnly at h
  rw [h]
  exact ⟨rfl, fun _ _ _ _ => rfl⟩

theorem Block.subsOnly.pair (h : b.subsOnly t) (i : Nat) : t.pair i = b.pair i := by
  unfold Block.subsOnly at h
  rw [h]
  rfl

theorem Block.slotTo_updSub (b : Block) (j : Nat) (f : SubSt → SubSt) (ks : List Nat) : b.slotTo (b.updSub j f) ks :=
  ⟨rfl, fun _ _ _ _ => rfl⟩

/-! ## A replayed entry (R280) -/

/-- The issue of a replayed entry is counted and shown (R280). -/
def Block.replayShown (b : Block) (i : Nat) : Block :=
  ((b.bump (SCH_REPLAY_CNT_CNT i)).wr (SCH_STATUS_REPLAY i) 1).intr 11 (b.bit (SCH_CTL_INT_EN i) 3)

theorem Block.replayShown_subs (b : Block) (i : Nat) : (b.replayShown i).subs = b.subs := by
  rw [Block.replayShown, Block.intr_subs]
  rfl

theorem Block.replayShown_slotTo (b : Block) (i : Nat) :
    b.slotTo (b.replayShown i) [(SCH_STATUS_REPLAY i).key, (SCH_REPLAY_CNT_CNT i).key] := by
  refine ⟨?_, fun g hg _ hp => ?_⟩
  · rw [Block.replayShown, Block.intr_parts]
    rfl
  · simp only [List.mem_cons, List.not_mem_nil, or_false, not_or] at hg
    obtain ⟨hst, hcnt⟩ := hg
    rw [Block.replayShown, Block.rd_intr _ _ _ _ hp, Block.rd_wr_of_ne _ _ _ _ hst, Block.rd_bump_of_ne _ _ _ hcnt]

theorem Block.replayShown_fields (b : Block) (i : Nat) : (b.replayShown i).rd (SCH_STATUS_REPLAY i) = 1
    ∧ (b.replayShown i).rd (SCH_REPLAY_CNT_CNT i) = min (b.rd (SCH_REPLAY_CNT_CNT i) + 1) 0xFFFFFFFF := by
  have hkeys : (SCH_REPLAY_CNT_CNT i).key ≠ (SCH_STATUS_REPLAY i).key := by
    simp only [SCH_REPLAY_CNT_CNT, SCH_STATUS_REPLAY, Fld.key]; omega
  constructor
  · rw [Block.replayShown, Block.rd_intr _ _ _ _ (by simp only [SCH_STATUS_REPLAY, GLB_INT_PEND_PEND, Fld.key]; omega),
      Block.rd_wr_self]
    rfl
  · rw [Block.replayShown, Block.rd_intr _ _ _ _ (by simp only [SCH_REPLAY_CNT_CNT, GLB_INT_PEND_PEND, Fld.key]; omega),
      Block.rd_wr_of_ne _ _ _ _ hkeys, Block.rd_bump_self]
    rfl

/-! ## The column command of a read -/

/-- What the issue of an entry counts before its replay (R458). -/
def Block.columnCounted (b : Block) (i : Nat) (r : EntRef) (worked owed : Bool) (cls : Nat) : Block :=
  let b := if worked then b else b.count (ctrSub i) 7 1 (clsCarry cls)
  let b := if b.entUrgent i r then b.count (ctrSub i) 8 1 (clsCarry cls) else b
  if owed then b.count (ctrSub i) 9 1 (clsCarry cls) else b

theorem Block.columnCounted_slotCounted (b : Block) (i : Fin 32) (r : EntRef) (worked owed : Bool) (cls : Nat) :
    b.slotCounted (b.columnCounted i r worked owed cls) := by
  refine Block.slotCounted.count_ite (Block.slotCounted.count_ite ?_ _ i 8 1 rfl) _ i 9 1 rfl
  split
  · exact b.slotCounted_refl
  · exact b.slotCounted_refl.count i 7 1 rfl

/-- A subchannel whose read has issued with the command `c`: its bank takes the idle time (R268), a credit is used (R265). -/
def SubSt.readIssued (u : SubSt) (c : HistCmd) (idle cls : Nat) : SubSt :=
  { u with
    banks := u.banks.upd (bankKey c.rank c.bg c.bank) (fun k => { k with row := k.row, idle := some idle, due := false })
    credit := if cls < 8 && decide (0 < u.credit.get cls) then u.credit.upd cls (fun n => n - 1) else u.credit }

/-- An open row stays open under the RD. -/
theorem SubSt.readIssued_rowOf (u : SubSt) (c : HistCmd) (idle cls : Nat) (p : Coord) :
    (u.readIssued c idle cls).rowOf p = u.rowOf p := by
  unfold SubSt.rowOf SubSt.readIssued Tab.upd
  dsimp only
  rw [Tab.get_set]
  split
  · next h => rw [h]
  · rfl

theorem Block.issueColumn_read {e : RdEnt} {c : HistCmd} (h : (b.subs.get i).rq = [e]) (hc : c.cls = cmRD) :
    ∃ (worked owed : Bool) (cls idle : Nat), b.issueColumn i (.rd 0) c =
      let t := b.columnCounted i (.rd 0) worked owed cls
      let t := if e.replayed then t.replayShown i else t
      ((t.updSub i (fun u => u.readIssued c idle cls)).count (ctrSub i) 2 1 (clsCarry cls)).updSub i
        (fun u => { u with rq := u.rq.eraseIdx 0, inflight := u.inflight ++ [{ e with replayed := false }] }) := by
  have hrep : (b.subs.get i).entReplayed (.rd 0) = e.replayed := by rw [SubSt.entReplayed, h]; rfl
  refine ⟨e.worked, (b.subs.get i).entOwed (.rd 0), (b.subs.get i).entCls (.rd 0), max 1 (b.rd (SCH_PAGE_IDLE i)), ?_⟩
  unfold Block.issueColumn
  dsimp only
  rw [hrep, h, hc]
  rfl

end

/-- The fields that the issue of a replayed read shows (R280). -/
def replayKeys (i : Nat) (e : RdEnt) : List Nat :=
  if e.replayed then [(SCH_STATUS_REPLAY i).key, (SCH_REPLAY_CNT_CNT i).key] else []

/-- `t` is `b` but for the subchannels, for what is counted, and for the replay of `e`, counted and shown (R280). -/
def Block.replayedTo (b t : Block) (i : Nat) (e : RdEnt) : Prop :=
  b.slotTo t (replayKeys i e) ∧ (e.replayed = true → t.rd (SCH_STATUS_REPLAY i) = 1
    ∧ t.rd (SCH_REPLAY_CNT_CNT i) = min (b.rd (SCH_REPLAY_CNT_CNT i) + 1) 0xFFFFFFFF)

section
variable {b t u : Block} {i : Fin 32} {e : RdEnt}

theorem schKeys_not_counted : ∀ i : Fin 32,
    ∀ g ∈ [SCH_STATUS_REPLAY i, SCH_REPLAY_CNT_CNT i, SCH_THR_LEVEL i, SCH_THR_FLOOR i, MOD_RPL_STATUS_STATE (i.val / 2)],
      isCtrKey g.key = false ∧ g.key ≠ GLB_INT_PEND_PEND.key := by decide

/-- A register of the scheduler reads as before over a step that only counts. -/
theorem Block.slotTo.rd (h : b.slotTo t []) {g : Fld} (hg : g ∈ [SCH_STATUS_REPLAY i, SCH_REPLAY_CNT_CNT i, SCH_THR_LEVEL i,
    SCH_THR_FLOOR i, MOD_RPL_STATUS_STATE (i.val / 2)]) : t.rd g = b.rd g := by
  obtain ⟨hctr, hpend⟩ := schKeys_not_counted i g hg
  exact h.2 g List.not_mem_nil hctr hpend

theorem Block.slotTo.mono (h : b.slotTo t []) (ks : List Nat) : b.slotTo t ks :=
  ⟨h.1, fun g _ hc hp => h.2 g List.not_mem_nil hc hp⟩

theorem Block.replayedTo.after (h : t.replayedTo u i e) (hb : b.slotTo t []) : b.replayedTo u i e := by
  obtain ⟨hto, hshown⟩ := h
  refine ⟨(hb.mono _).trans hto, fun he => ?_⟩
  rw [← hb.rd (g := SCH_REPLAY_CNT_CNT i) (i := i) (by simp)]
  exact hshown he

theorem Block.replayedTo.before (h : b.replayedTo t i e) (hu : t.slotTo u []) : b.replayedTo u i e := by
  obtain ⟨hto, hshown⟩ := h
  refine ⟨hto.trans (hu.mono _), fun he => ?_⟩
  rw [hu.rd (g := SCH_REPLAY_CNT_CNT i) (i := i) (by simp), hu.rd (g := SCH_STATUS_REPLAY i) (i := i) (by simp)]
  exact hshown he

theorem Block.replayedTo_replayShown (b : Block) (i : Fin 32) (e : RdEnt) :
    b.replayedTo (if e.replayed then b.replayShown i else b) i e := by
  unfold Block.replayedTo replayKeys
  split
  · exact ⟨b.replayShown_slotTo i, fun _ => b.replayShown_fields i⟩
  · next h => exact ⟨b.slotTo_refl _, fun he => absurd he h⟩

/-- A subchannel whose only read has issued with the command `c`. -/
def SubSt.readGone (u : SubSt) (e : RdEnt) (c : HistCmd) (idle cls : Nat) : SubSt :=
  { u.readIssued c idle cls with rq := [], inflight := u.inflight ++ [{ e with replayed := false }] }

/-- The RD of the only read entry: the entry leaves the queue and waits for its data. -/
theorem Block.issueColumn_done {c : HistCmd} (h : (b.subs.get i).rq = [e]) (hc : c.cls = cmRD) :
    b.replayedTo (b.issueColumn i (.rd 0) c) i e
    ∧ (∃ idle cls, (b.issueColumn i (.rd 0) c).subs.get i = (b.subs.get i).readGone e c idle cls)
    ∧ ∀ j : Nat, j ≠ i → (b.issueColumn i (.rd 0) c).subs.get j = b.subs.get j := by
  obtain ⟨worked, owed, cls, idle, heq⟩ := Block.issueColumn_read h hc
  have hcounted := b.columnCounted_slotCounted i (.rd 0) worked owed cls
  rw [heq]
  dsimp only
  generalize b.columnCounted i (.rd 0) worked owed cls = t at *
  have hreplayed := t.replayedTo_replayShown i e
  have hsubs : (if e.replayed then t.replayShown i else t).subs = b.subs := by
    rw [← hcounted.subs]
    split
    · exact t.replayShown_subs i
    · rfl
  generalize (if e.replayed then t.replayShown i else t) = u at *
  have hlast := (u.updSub i (fun u => u.readIssued c idle cls)).slotCounted_refl.count i 2 1 (c := clsCarry cls) rfl
  generalize (u.updSub i (fun u => u.readIssued c idle cls)).count (ctrSub i) 2 1 (clsCarry cls) = v at *
  have hv : v.subs = (u.updSub i (fun u => u.readIssued c idle cls)).subs := hlast.subs
  refine ⟨((hreplayed.after (hcounted.slotTo [])).before (u.slotTo_updSub i _ [])).before ((hlast.slotTo []).trans
    (v.slotTo_updSub i _ [])), ⟨idle, cls, ?_⟩, fun j hj => ?_⟩
  · rw [Block.sub_updSub_self, hv, Block.sub_updSub_self, hsubs]
    have hgone : ((b.subs.get i).readIssued c idle cls).rq.eraseIdx 0 = [] := by
      show (b.subs.get i).rq.eraseIdx 0 = []
      rw [h]
      rfl
    rw [hgone]
    rfl
  · rw [Block.sub_updSub, if_neg hj, hv, Block.sub_updSub, if_neg hj, hsubs]

end

/-! ## The checkers of the pair (R304) -/

/-- The command `h` is given to the checker of a subchannel. -/
def SubSt.checked (u : SubSt) (h : HistCmd) : SubSt := { u with toCheck := u.toCheck ++ [h] }

/-- The command `h` is given to the checkers of the subchannels `l`. -/
def Block.checked (b : Block) (l : List Nat) (h : HistCmd) : Block := forEach l b (fun b t => b.updSub t (fun u => u.checked h))

theorem Block.sub_checked {l : List Nat} (hl : l.Nodup) (b : Block) (h : HistCmd) (j : Nat) :
    (b.checked l h).subs.get j = if j ∈ l then (b.subs.get j).checked h else b.subs.get j := by
  induction l generalizing b with
  | nil => rfl
  | cons a l ih =>
    obtain ⟨ha, hl⟩ := List.nodup_cons.mp hl
    rw [Block.checked, forEach_cons]
    refine (ih hl _).trans ?_
    rw [Block.sub_updSub]
    by_cases hj : j = a
    · subst hj
      rw [if_neg ha, if_pos rfl, if_pos List.mem_cons_self]
    · rw [if_neg hj]
      simp only [List.mem_cons, hj, false_or]

theorem Block.checked_slotTo (b : Block) (l : List Nat) (h : HistCmd) : b.slotTo (b.checked l h) [] :=
  forEach_inv (fun t => b.slotTo t []) _ _ _ (fun t j _ ht => ht.trans (t.slotTo_updSub j _ [])) (b.slotTo_refl [])

theorem Block.pair_nodup (b : Block) (i : Nat) : (b.pair i).Nodup := by
  unfold Block.pair
  split
  · simp
  · simp

theorem Block.mem_pair_self (b : Block) (i : Nat) : i ∈ b.pair i := by
  unfold Block.pair
  split
  · simp only [List.mem_cons, List.not_mem_nil, or_false]
    omega
  · exact List.mem_singleton_self i

/-! ## The issue of the read -/

/-- The start of a slot: the idle timers count down, the steps in progress wait one slot more (R268, R315). -/
def SubSt.started (u : SubSt) : SubSt :=
  { u with
    banks := u.banks.map (fun e => if e.2.row.isSome then (e.1, { e.2 with idle := e.2.idle.map (fun n => n - 1) }) else e)
    lastIssued := [], snt := u.snt.map (fun r => { r with waited := r.waited + 1 }) }

/-- The block at the start of a slot. -/
def Block.started (b : Block) (i : Nat) : Block :=
  (b.idleTimers i).updSub i (fun u => { u with lastIssued := [], snt := u.snt.map (fun r => { r with waited := r.waited + 1 }) })

theorem Block.sub_started (b : Block) (i j : Nat) :
    (b.started i).subs.get j = if j = i then (b.subs.get i).started else b.subs.get j := by
  rw [Block.started, Block.idleTimers, Block.sub_updSub]
  split
  · rw [Block.sub_updSub_self]
    rfl
  · next h => rw [Block.sub_updSub, if_neg h]

/-- A table whose entries change within their indices reads the changed values. -/
theorem Tab.get_map_value {α : Type} [Inhabited α] (t : Tab α) (f : α → α) (hf : f default = default) (k : Nat) :
    Tab.get (t.map (fun e => (e.1, f e.2))) k = f (t.get k) := by
  induction t with
  | nil => exact hf.symm
  | cons e t ih =>
    rw [List.map_cons, Tab.get, Tab.get]
    split
    · rfl
    · exact ih

/-- The countdown of an idle timer: that of an open bank (R268). -/
def Bank.counted (k : Bank) : Bank := if k.row.isSome then { k with idle := k.idle.map (fun n => n - 1) } else k

theorem Bank.counted_row (k : Bank) : k.counted.row = k.row := by
  unfold Bank.counted
  split <;> rfl

theorem SubSt.started_rowOf (u : SubSt) (p : Coord) : u.started.rowOf p = u.rowOf p := by
  have hbank (e : Nat × Bank) : (if e.2.row.isSome then (e.1, { e.2 with idle := e.2.idle.map (fun n => n - 1) }) else e)
      = (e.1, e.2.counted) := by
    unfold Bank.counted
    split <;> rfl
  unfold SubSt.rowOf SubSt.started
  simp only [hbank]
  rw [Tab.get_map_value _ Bank.counted rfl, Bank.counted_row]

/-- The command `h` enters the history and the commands of the slot (R13). -/
def SubSt.recorded (u : SubSt) (h : HistCmd) : SubSt :=
  { u with hist := u.hist.filter (fun e => decide (8 * u.slot + 8 ≤ e.pos + 8184 + 8)) ++ [h], lastIssued := u.lastIssued ++ [h] }

/-- The command `h` of subchannel `i` is recorded and given to the checkers of its pair (R13, R304). -/
def Block.sent (b : Block) (i : Nat) (h : HistCmd) : Block := (b.updSub i (fun u => u.recorded h)).checked (b.pair i) h

theorem Block.sent_slotTo (b : Block) (i : Nat) (h : HistCmd) : b.slotTo (b.sent i h) [] :=
  (b.slotTo_updSub i _ []).trans (Block.checked_slotTo _ _ h)

theorem Block.sub_sent_self (b : Block) (i : Nat) (h : HistCmd) :
    (b.sent i h).subs.get i = ((b.subs.get i).recorded h).checked h := by
  rw [Block.sent, Block.sub_checked (b.pair_nodup i), if_pos (b.mem_pair_self i), Block.sub_updSub_self]

theorem Block.sub_sent_of_ne (b : Block) {i j : Nat} (h : HistCmd) (hj : j ≠ i) :
    (b.sent i h).subs.get j = if j ∈ b.pair i then (b.subs.get j).checked h else b.subs.get j := by
  rw [Block.sent, Block.sub_checked (b.pair_nodup i), Block.sub_updSub, if_neg hj]

/-- A column command of an entry at phase 0 is recorded, given to the checkers of the pair, and issued. -/
theorem Block.issueAt_column (b : Block) (i mrr : Nat) (row : RowRead) {c : Cand} {r : EntRef} (hwho : c.who = .entry r)
    (hcol : isColumn c.cmd.cls = true) : b.issueAt i 0 mrr row (some c) =
      (b.sent i { c.cmd with pos := 8 * (b.subs.get i).slot }).issueColumn i r c.cmd := by
  unfold Block.issueAt Block.issue
  dsimp only
  rw [hwho]
  dsimp only
  rw [if_pos hcol]
  rfl

/-- The RD of a read as it issues in the slot of its subchannel. -/
def Block.readAt (b : Block) (i : Nat) (e : RdEnt) : HistCmd := { e.rd with pos := 8 * (b.subs.get i).slot }

/-- A subchannel after the slot in which the RD `x` of its only read `e` has issued at phase 0. -/
def SubSt.readSlot (u : SubSt) (e : RdEnt) (x : HistCmd) (idle cls : Nat) : SubSt :=
  ((u.started.recorded x).checked x).readGone e e.rd idle cls

theorem SubSt.readSlot_rowOf (u : SubSt) (e : RdEnt) (x : HistCmd) (idle cls : Nat) (p : Coord) :
    (u.readSlot e x idle cls).rowOf p = u.rowOf p :=
  (SubSt.readIssued_rowOf ((u.started.recorded x).checked x) e.rd idle cls p).trans (u.started_rowOf p)

section
variable {b t : Block} {i : Fin 32} {e : RdEnt}

/-- The read issues at phase 0: it leaves the queue, and the checkers of the pair are given its RD. -/
theorem Block.issueAt_read (h : (b.subs.get i).rq = [e]) (mrr : Nat) (row : RowRead) :
    b.replayedTo ((b.started i).issueAt i 0 mrr row (some (b.readCand i e))) i e
    ∧ (∃ idle cls, ((b.started i).issueAt i 0 mrr row (some (b.readCand i e))).subs.get i
        = (b.subs.get i).readSlot e (b.readAt i e) idle cls)
    ∧ ∀ j : Nat, j ≠ i → ((b.started i).issueAt i 0 mrr row (some (b.readCand i e))).subs.get j
        = if j ∈ b.pair i then (b.subs.get j).checked (b.readAt i e) else b.subs.get j := by
  have hstart : (b.started i).subs.get i = (b.subs.get i).started := (b.sub_started i i).trans (if_pos rfl)
  have hslot : ((b.started i).subs.get i).slot = (b.subs.get i).slot := by rw [hstart]; rfl
  have hto : b.slotTo (b.started i) [] := (b.slotTo_updSub i _ []).trans (Block.slotTo_updSub _ i _ [])
  have hsent := (b.started i).sub_sent_self i (b.readAt i e)
  have hsentj (j : Nat) (hj : j ≠ i) : ((b.started i).sent i (b.readAt i e)).subs.get j
      = if j ∈ b.pair i then (b.subs.get j).checked (b.readAt i e) else b.subs.get j := by
    rw [Block.sub_sent_of_ne _ _ hj, b.sub_started, if_neg hj]
    rfl
  rw [hstart] at hsent
  rw [Block.issueAt_column _ _ _ _ (c := b.readCand i e) rfl rfl, hslot]
  obtain ⟨hreplayed, ⟨idle, cls, hsub⟩, hother⟩ := Block.issueColumn_done (b := (b.started i).sent i (b.readAt i e)) (e := e)
    (c := e.rd) (by rw [hsent]; exact h) rfl
  exact ⟨hreplayed.after (hto.trans (Block.sent_slotTo ..)), ⟨idle, cls, hsub.trans (by rw [hsent]; rfl)⟩,
    fun j hj => (hother j hj).trans (hsentj j hj)⟩

/-- The end of a slot that has issued a column command: the throttle's idle slots begin (R284). -/
def Block.columnEnded (b : Block) (i : Nat) : Block :=
  b.updSub i (fun u => { u with idleLeft := thrIdle (b.thrLevel i), slot := u.slot + 1 })

/-- What a counted slot counts: its category for every subchannel of the pair, the slot, and the lengths of the queues
(R456, R458). -/
def Block.slotTallied (b : Block) (s cat reads writes : Nat) (thr : Bool) : Block :=
  let b := forEach (b.pair s) b (fun b t =>
    b.countSlot t (if (b.phy.train.get t).isSome || b.on (PHY_LOOP_STATUS_BUSY t) then 1 else cat))
  let b := b.count (ctrSub s) 0xF 1 default
  let b := (b.count (ctrSub s) 0xA reads default).count (ctrSub s) 0xB writes default
  if thr then b.count (ctrSub s) 0xD 1 default else b

theorem Block.slotTallied_slotCounted (b : Block) (i : Fin 32) (cat reads writes : Nat) (thr : Bool) :
    b.slotCounted (b.slotTallied i cat reads writes thr) := by
  refine Block.slotCounted.count_ite (Block.slotCounted.count (Block.slotCounted.count (Block.slotCounted.count ?_
    i 0xF 1 rfl) i 0xA reads rfl) i 0xB writes rfl) thr i 0xD 1 rfl
  exact forEach_inv (fun t => b.slotCounted t) _ _ _ (fun t j _ ht => ht.countSlot j _) b.slotCounted_refl

/-- The slot of a lone read issues it, and counts. -/
theorem Block.loneRead.slotRun (h : b.loneRead i e) (mrr : Nat) (row : RowRead) :
    ((((b.slotOpened i).started i).issueAt i 0 mrr row (some ((b.slotOpened i).readCand i e))).columnEnded i).slotCounted
      (b.slotRun i mrr row false) := by
  have hlock : (b.chLockstep (i / 2) && i.val % 2 == 1) = false := by
    rcases h.served with h | h
    · rw [h]; rfl
    · rw [h]; exact Bool.and_false _
  have hready := h.slotReady
  have hmode : (b.slotReady i).nextMode i = (b.slotReady i).on (SCH_STATUS_MODE i) := hready.nextMode.trans hready.mode.symm
  have hopen : (b.slotReady i).refill i [.rd 0] = b.slotOpened i := rfl
  have hopened := h.slotOpened.1
  unfold Block.slotRun
  have hreadied : ((b.freeWrites i).readsAgain i).idleDue i = b.slotReady i := rfl
  dsimp only
  rw [hreadied, hlock, if_neg Bool.false_ne_true, if_pos hmode, if_neg Bool.false_ne_true, hready.eligible, hopen, hopened.pick0,
    hopened.topCands, Block.pick1_of_alone, hopened.idleLeft]
  generalize b.slotOpened i = t at *
  unfold Block.started
  generalize Block.issueAt _ _ _ _ _ (some (t.readCand i e)) = v
  split
  · exact Block.slotTallied_slotCounted (v.columnEnded i) i _ _ _ false
  · exact Block.slotCounted_refl _

theorem schKeys_not_replayed : ∀ i : Fin 32, ∀ g ∈ [SCH_THR_LEVEL i, SCH_THR_FLOOR i, MOD_RPL_STATUS_STATE (i.val / 2)],
    g.key ∉ [(SCH_STATUS_REPLAY i).key, (SCH_REPLAY_CNT_CNT i).key] := by decide

theorem Block.replayedTo.rd (h : b.replayedTo t i e) {g : Fld}
    (hg : g ∈ [SCH_THR_LEVEL i, SCH_THR_FLOOR i, MOD_RPL_STATUS_STATE (i.val / 2)]) : t.rd g = b.rd g := by
  obtain ⟨hctr, hpend⟩ := schKeys_not_counted i g (List.mem_cons_of_mem _ (List.mem_cons_of_mem _ hg))
  refine h.1.2 g (fun hk => schKeys_not_replayed i g hg ?_) hctr hpend
  unfold replayKeys at hk
  split at hk
  · exact hk
  · exact absurd hk List.not_mem_nil

theorem Block.replayedTo.thrLevel (h : b.replayedTo t i e) : t.thrLevel i = b.thrLevel i := by
  rw [Block.thrLevel, h.rd (by simp), h.rd (by simp), Block.thrLevel]

/-- A RELEASE that is not draining stays as it is at the slots of its channel (R419). -/
theorem Block.replayedTo.releaseCheck (h : b.replayedTo t i e) (hrpl : b.rplState (i / 2) ≠ rpReleasing) :
    t.releaseCheck (i / 2) = t := by
  have hstate : t.rplState (i / 2) ≠ rpReleasing := by
    rw [Block.rplState, h.rd (by simp)]
    exact hrpl
  exact if_neg fun hc => hstate hc.1

/-- The only work of a subchannel is an eligible read of an open row: its slot issues the RD at phase 0 (R250, R260, R266). -/
theorem Block.loneRead.slotRun_issues (h : b.loneRead i e) (mrr : Nat) (row : RowRead) :
    b.replayedTo (b.slotRun i mrr row false) i e
    ∧ (∃ c idle cls, (b.slotRun i mrr row false).subs.get i
        = { SubSt.readSlot { b.subs.get i with credit := c } e (b.readAt i e) idle cls with
            idleLeft := thrIdle (b.thrLevel i), slot := (b.subs.get i).slot + 1 })
    ∧ ∀ j : Nat, j ≠ i → (b.slotRun i mrr row false).subs.get j
        = if j ∈ b.pair i then (b.subs.get j).checked (b.readAt i e) else b.subs.get j := by
  have hcount := h.slotRun mrr row
  obtain ⟨hopened, hparts, ⟨c, hc⟩, hrest⟩ := h.slotOpened
  generalize b.slotRun i mrr row false = w at *
  generalize b.slotOpened i = t at *
  obtain ⟨hread, ⟨idle, cls, hsub⟩, hother⟩ := Block.issueAt_read hopened.rq mrr row
  generalize (t.started i).issueAt i 0 mrr row (some (t.readCand i e)) = v at *
  have hto : b.slotTo t [] := hparts.slotTo
  have hv := hread.after hto
  have hat : t.readAt i e = b.readAt i e := by rw [Block.readAt, hc, Block.readAt]
  have hpair : t.pair i = b.pair i := hparts.pair i
  rw [hat] at hsub hother
  rw [hcount.subs]
  refine ⟨hv.before ((v.slotTo_updSub i _ []).trans (hcount.slotTo [])), ⟨c, idle, cls, ?_⟩, fun j hj => ?_⟩
  · rw [Block.columnEnded, Block.sub_updSub_self, hv.thrLevel, hsub, hc]
    rfl
  · rw [Block.columnEnded, Block.sub_updSub, if_neg hj, hother j hj, hpair, hrest j hj]

end

end Sys2Proof.Machine
end

section
/-! SUPPORT. The statements of the chapter on the channel scheduler, settled. -/

namespace Sys2Proof

open Machine Machine.Reg

/-- Settles O34: both commands of a slot are found among the best eight by a test that includes the clauses, and phase 0 looks
for column commands first. -/
theorem slotsKeepTheClauses : Obligations.SlotsKeepTheClauses := by
  refine fun b i elig => ⟨fun c hc => ?_, fun top p0 c hc => ?_, fun c => Block.pick0_isColumn, List.length_take_le ..⟩
  · obtain ⟨hmem, hlegal⟩ := Block.pick0_mem hc
    exact ⟨hmem, (Block.legal_iff.mp hlegal).2⟩
  · obtain ⟨hcol, hmem, hlegal⟩ := Block.pick1_mem hc
    exact ⟨hcol, hmem, (Block.legal_iff.mp hlegal).2⟩

/-- Settles O35: the read is the only candidate of its slot and a legal one, so phase 0 issues it and phase 1 nothing; what the
slot counts reaches no register but those of the counters, and shows a replay where the read had one. -/
theorem eligibleReadIssues : Obligations.EligibleReadIssues := by
  rintro s i mrr row e _ rfl hserved hrq hwq hripe hagain hrpl hrow hpolicy hmode hlevel hloop hticking habo hrfm hsnt hrepair
    hself hpre hpreAll hidle hdue hallowed
  have hlone : s.block.loneRead i e := ⟨hserved, hrq, hwq, hripe, hagain, hrow, hpolicy, hmode, hlevel, hloop, hticking, habo,
    hrfm, hsnt, hrepair, hself, hpre, hpreAll, hidle, hdue, hallowed⟩
  obtain ⟨hto, ⟨c, idle, cls, hsub⟩, hother⟩ := hlone.slotRun_issues mrr.toNat row
  refine State.answers_onBlock (f := fun b => (b.slotRun i mrr.toNat row false).releaseCheck (i.val / 2)) rfl ?_
  dsimp only
  rw [hto.releaseCheck hrpl, hsub]
  obtain ⟨⟨hparts, hregs⟩, hreplay⟩ := hto
  refine ⟨rfl, rfl, hwq, rfl, ?_, rfl, rfl, rfl, hother, hreplay, hparts, hregs⟩
  have hkept := SubSt.readSlot_rowOf { s.block.subs.get i with credit := c } e (s.block.readAt i e) idle cls e.at_
  exact hkept.trans hrow

/-- Refutes O36: in the state `modeTwo` the field MODE holds 2, so the subchannel is in same-bank mode while the word of SCH_REF
shows MODE = 0. The write of MODE = 1 is then no change of the mode, yet the word changes and the debt of rank 0 goes from 1 to 4.
The statement speaks of every `State`; where MODE holds a bit its mode clause holds (`refreshModeChange_answers`), and the other
clauses hold of every state (`refreshTick_answers`, `refreshTick_stopped`, `pageIdleTimeout_answers`,
`writeRetentionExpiry_answers`, `quiesceWrite_answers`). -/
theorem not_schedulerTimersAndModes : ¬ Obligations.SchedulerTimersAndModes := by
  intro h
  obtain ⟨-, -, -, -, hmodes⟩ := h ⟨modeTwo, []⟩ 0
  obtain ⟨t, hex, -, -, hdebt, -⟩ := (hmodes .maker 0 (.inr rfl)).2 true modeTwo_grants
  have hwritten : exec (.refreshModeChange .maker 0 true 0) ⟨modeTwo, []⟩ = _ := writeReg_SCH_REF modeTwo_grants (.inr rfl)
  rw [hwritten] at hex
  cases hex
  have hkept := (hdebt 0).trans (if_pos modeTwo_sameBank)
  exact absurd (modeTwo_debt.symm.trans hkept) (by decide)

/-- Settles O37: an alert of one subchannel leaves what its sibling's back-off rests on, so each of the pair starts its own; and a
classified alert that is not the third of its class has only its replay as effect. -/
theorem alertsBackOffAndReplay : Obligations.AlertsBackOffAndReplay := by
  refine fun s i => ⟨fun hprac hnone hs2 hoff hlock hfence hhalt htext => ?_, fun hon => ?_, fun k hc hagain hroom hfew => ?_⟩
  · exact State.answers_onBlock (f := fun b => b.alertBall (i / 2)) rfl
      (Block.backsOff_alertBall ⟨⟨htext, hfence, hhalt, hoff, hlock⟩, hprac, hnone, hs2⟩)
  · refine State.answers_onBlock (f := fun b => b.backoffEnd i) rfl ⟨?_, fun j hj => ?_, rfl⟩
    · rw [Block.backoffEnd, Block.sub_updSub_self, if_pos hon]
    · rw [Block.backoffEnd, Block.sub_updSub, if_neg hj]
  · obtain ⟨hsub, hparts⟩ := Block.alertClass_eq hc hfew
    refine State.answers_onBlock (f := fun b => b.alertClass i k) rfl ?_
    rw [hsub]
    refine ⟨?_, ?_, ?_, ?_, hparts⟩
    · cases k <;> rfl
    · cases k <;> rfl
    · cases k with
      | caParity => exact SubSt.readsBack_of_room (u := (s.block.subs.get i).alertClassed .caParity) hagain hroom
      | backoffOnly => rfl
      | writeCrc => rfl
    · cases k <;> rfl

/-- Settles O42: a WAIT and a POLL that matches end their step, which makes the next one pending or ends the sentence OK; a POLL
that does not match only counts; and a sentence past its limit ends as an abort whose event sets no fence. -/
theorem sentenceStepsEnd : Obligations.SentenceStepsEnd := by
  intro s i run hsnt hfence
  refine ⟨fun hwait hop => ?_, fun bytes hop hout hne hres => ⟨fun hall hleft => ?_, fun hmiss hpolls => ?_⟩, fun hlate => ?_,
    fun hlimit hrepair hsev => ?_⟩
  · refine State.answers_onBlock (f := fun b => b.waitEnd i) rfl ?_
    rw [Block.waitEnd_of_waiting hsnt hwait hop]
    exact Block.stepEnded_passes hsnt hfence
  · refine State.answers_onBlock (f := fun b => b.poll i bytes) rfl ?_
    have hmatch : run.matches bytes = true := by
      simp only [SntRun.matches, Bool.and_eq_true, List.all_eq_true, beq_iff_eq]
      exact ⟨by simpa using hne, hall⟩
    rw [Block.poll_eq hsnt hop hout hres, hmatch]
    dsimp only
    rw [if_pos rfl, if_pos hleft]
    have hpolled := congrArg SubSt.snt (Block.sub_updSub_self s.block i (fun u => { u with snt := some run.polled }))
    exact Block.stepPassed_updSub (run := run.polled) (Block.stepEnded_passes hpolled hfence).1
  · refine State.answers_onBlock (f := fun b => b.poll i bytes) rfl ?_
    have hmatch : run.matches bytes = false := by
      obtain ⟨x, hx, hdiff⟩ := hmiss
      simp only [SntRun.matches, Bool.and_eq_false_iff, List.all_eq_false, beq_iff_eq]
      exact .inr ⟨x, hx, hdiff⟩
    rw [Block.poll_eq hsnt hop hout hres, hmatch]
    dsimp only
    rw [if_neg Bool.false_ne_true, if_neg (by omega)]
    exact ⟨congrArg SubSt.snt (Block.sub_updSub_self ..), rfl⟩
  · refine State.answers_onBlock (f := fun b => b.stepWaited i) rfl ⟨?_, fun j hj => ?_, rfl⟩
    · rw [Block.stepWaited, Block.sub_updSub_self, hsnt, Option.map_some, decide_eq_true hlate, Bool.or_true]
    · rw [Block.stepWaited, Block.sub_updSub, if_neg hj]
  · refine State.answers_onBlock (f := fun b => b.sentenceTimeout i) rfl ?_
    have heq : s.block.sentenceTimeout i = s.block.sentenceEnd i 2 := by
      rw [Block.sentenceTimeout, hsnt]
      exact if_pos hlimit
    obtain ⟨⟨hnone, -, hbusy, hcall⟩, hcount⟩ :=
      Block.sentenceEnd_abort hsnt hfence hrepair (outcome := 2) (by decide) (by decide) hsev
    rw [heq]
    exact ⟨hnone, hbusy, hcount, fun hsw => ⟨(hcall hsw).2.1, (hcall hsw).1⟩⟩

end Sys2Proof
end

section
/-! SUPPORT. Writes of CLS_CTL (R300, R307): its fields stored, its two actions, and the registers that several writes set. -/

namespace Sys2Proof.Machine

open Reg

/-! ## Several fields set one after the other -/

/-- The block with the listed fields set to the listed values. -/
def Block.wrEach (b : Block) (l : List (Fld × Nat)) : Block := forEach l b (fun t e => t.wr e.1 e.2)

theorem Block.wrEach_onlyRegs (b : Block) (l : List (Fld × Nat)) : b.onlyRegs (b.wrEach l) (l.map (fun e => e.1.key)) :=
  forEach_inv (fun t => b.onlyRegs t _) _ _ _ (fun _ _ he ht => Block.onlyRegs_wr ht _ (List.mem_map_of_mem he))
    (b.onlyRegs_refl _)

theorem Block.rd_wrEach_of_not_mem (b : Block) (l : List (Fld × Nat)) {g : Fld} (hg : g.key ∉ l.map (fun e => e.1.key)) :
    (b.wrEach l).rd g = b.rd g := (b.wrEach_onlyRegs l).2 g hg

/-- Where no two of the fields share a key, each reads the value listed for it. -/
theorem Block.rd_wrEach_of_mem (b : Block) {l : List (Fld × Nat)} (hl : (l.map (fun e => e.1.key)).Nodup) {e : Fld × Nat}
    (he : e ∈ l) : (b.wrEach l).rd e.1 = e.2 % 2 ^ e.1.width := by
  induction l generalizing b with
  | nil => cases he
  | cons d l ih =>
    rw [List.map_cons, List.nodup_cons] at hl
    show ((b.wr d.1 d.2).wrEach l).rd e.1 = _
    rcases List.mem_cons.mp he with rfl | he
    · rw [Block.rd_wrEach_of_not_mem _ _ hl.1, Block.rd_wr_self]
    · exact ih _ hl.2 he

theorem Block.wrEach_subs (b : Block) (l : List (Fld × Nat)) : (b.wrEach l).subs = b.subs := by
  rw [(b.wrEach_onlyRegs l).1]

/-! ## A write of CLS_CTL -/

/-- The fields of CLS_CTL of subchannel `i`. -/
def clsCtlKeys (i : Nat) : List Nat := [(CLS_CTL_GO i).key, (CLS_CTL_RESUME i).key, (CLS_CTL_BIN i).key, (CLS_CTL_INT_VIOL i).key]

/-- The fields of CLS_CTL with what a word holds of them. -/
def clsCtlFields (i : Nat) (w : Word) : List (Fld × Nat) :=
  [CLS_CTL_GO i, CLS_CTL_RESUME i, CLS_CTL_BIN i, CLS_CTL_INT_VIOL i].map (fun f => (f, fieldOf w f))

/-- A block into which the fields of a word of CLS_CTL have been stored. -/
def Block.clsCtlStored (b : Block) (i : Nat) (w : Word) : Block := b.wrEach (clsCtlFields i w)

/-- The actions of a word of CLS_CTL: RESUME, then GO with the store's copy as the command says it is read. -/
def Block.clsCtlActed (b : Block) (i : Nat) (w : Word) (up : Option (Fin 16 × Nat)) : Block :=
  let t := if bitOf w.toNat 30 then b.clsResume i else b
  if bitOf w.toNat 31 then (t.storeUpset up).switchGo i else t

/-- Action fields hold nothing after their action. -/
def Block.clsCtlDropped (b : Block) (i : Nat) : Block := b.wrEach [(CLS_CTL_GO i, 0), (CLS_CTL_RESUME i, 0)]

theorem Block.performReg_CLS_CTL (b : Block) (role : Role) (i : Fin 32) (old : Nat) (w : Word) (x : Aux) :
    b.performReg role reg_CLS_CTL [i.val] (CLS_CTL_GO i).off old w x
      = ((b.clsCtlStored i w).clsCtlActed i w x.store).clsCtlDropped i := by
  unfold Block.performReg
  rw [if_neg (by simp [Block.deafInstance, Block.idleInstance, reg_CLS_CTL]), if_neg (by simp [isMnt, reg_CLS_CTL]),
    if_neg (by simp [reg_CLS_CTL])]
  rfl

/-- A granted CLS_CTL: recorded, and its fields stored. -/
def Block.clsCtlNoted (b : Block) (role : Role) (i : Nat) (w : Word) : Block :=
  (b.noted role reg_CLS_CTL (CLS_CTL_GO i).off w).clsCtlStored i w

theorem writeReg_CLS_CTL {s : State} {role : Role} {i : Fin 32} {w : Word} (x : Aux)
    (hg : s.grants role (CLS_CTL_GO i).off w) :
    writeReg role (CLS_CTL_GO i).off w x s = .next { s with block :=
      (((s.block.clsCtlNoted role i w).clsCtlActed i w x.store).clsCtlDropped i).mgAnswer false 0 } := by
  have hroom : s.block.recRoom (1 + s.block.fenceRecs reg_CLS_CTL.name w.toNat) = true := hg.2.2.2
  have hoff : (CLS_CTL_GO i).off = 0x80040 + 0x4000 * i.val := rfl
  exact (writeReg_go x hg (find_CLS_CTL i) (by omega) (by omega) (by decide) hroom).trans
    (by rw [Block.written, Block.performReg_CLS_CTL]; rfl)

section
variable {b : Block} {role : Role} {i : Fin 32} {w : Word}

theorem Block.clsCtlNoted_mg : (b.clsCtlNoted role i w).mg = (b.noted role reg_CLS_CTL (CLS_CTL_GO i).off w).mg := by
  rw [Block.clsCtlNoted, Block.clsCtlStored, (Block.wrEach_onlyRegs _ _).1]

theorem Block.clsCtlNoted_parts :
    b.clsCtlNoted role i w = { b with regs := (b.clsCtlNoted role i w).regs, mg := (b.clsCtlNoted role i w).mg } := by
  rw [Block.clsCtlNoted_mg, Block.clsCtlNoted, Block.clsCtlStored, (Block.wrEach_onlyRegs _ _).1, Block.noted_parts]

theorem Block.clsCtlNoted_regsBut : b.regsBut (b.clsCtlNoted role i w) (clsCtlKeys i ++ audKeys) := by
  intro g hg
  rw [List.mem_append, not_or] at hg
  rw [Block.clsCtlNoted, Block.clsCtlStored, Block.rd_wrEach_of_not_mem _ _ hg.1, Block.noted_rd _ _ _ _ _ _ hg.2]

theorem clsCtlKeys_nodup : ∀ i : Fin 32, (clsCtlKeys i).Nodup := by decide

theorem Block.clsCtlNoted_bin : (b.clsCtlNoted role i w).rd (CLS_CTL_BIN i) = fieldOf w (CLS_CTL_BIN i) :=
  (Block.rd_wrEach_of_mem _ (l := clsCtlFields i w) (clsCtlKeys_nodup i) (e := (CLS_CTL_BIN i, fieldOf w (CLS_CTL_BIN i)))
    (List.mem_map_of_mem (by simp))).trans (Nat.mod_mod _ _)

/-- The fields of CLS_CTL apart, a register reads in the end what the actions have left in it. -/
theorem Block.clsCtlAnswered_rd (t : Block) {g : Fld} (hg : g.key ∉ clsCtlKeys i) :
    ((t.clsCtlDropped i).mgAnswer false 0).rd g = t.rd g := by
  simp only [clsCtlKeys, List.mem_cons, List.not_mem_nil, or_false, not_or] at hg
  rw [Block.mgAnswer_rd, Block.clsCtlDropped]
  exact Block.rd_wrEach_of_not_mem _ _ (by simp [hg.1, hg.2.1])

theorem Block.clsCtlAnswered_parts (t : Block) : (t.clsCtlDropped i).mgAnswer false 0 = { t with
    regs := ((t.clsCtlDropped i).mgAnswer false 0).regs, mg := ((t.clsCtlDropped i).mgAnswer false 0).mg } := by
  simp only [Block.mgAnswer, Block.clsCtlDropped]
  rw [(t.wrEach_onlyRegs _).1]

theorem Block.clsCtlAnswered_subs (t : Block) : ((t.clsCtlDropped i).mgAnswer false 0).subs = t.subs := by
  rw [Block.clsCtlAnswered_parts]

theorem Block.clsCtlAnswered_of_parts {c t : Block} (h : t = { c with regs := t.regs, mg := t.mg, subs := t.subs }) :
    (t.clsCtlDropped i).mgAnswer false 0 = { c with
      regs := ((t.clsCtlDropped i).mgAnswer false 0).regs, mg := ((t.clsCtlDropped i).mgAnswer false 0).mg
      subs := ((t.clsCtlDropped i).mgAnswer false 0).subs } := by
  rw [Block.clsCtlAnswered_subs, Block.clsCtlAnswered_parts]
  exact congrArg (fun c : Block => { c with
    regs := ((t.clsCtlDropped i).mgAnswer false 0).regs, mg := ((t.clsCtlDropped i).mgAnswer false 0).mg }) h

/-- A granted CLS_CTL is answered, where its actions leave the management state, and but for the registers `ks` the others (R540). -/
theorem Block.wrote_clsCtl {t : Block} {ks : List Nat} (hmg : t.mg = (b.clsCtlNoted role i w).mg)
    (hregs : (b.clsCtlNoted role i w).regsBut t ks) : b.wrote ((t.clsCtlDropped i).mgAnswer false 0) (clsCtlKeys i ++ ks) := by
  have hdrop : (t.clsCtlDropped i).mg = t.mg := by rw [Block.clsCtlDropped, (t.wrEach_onlyRegs _).1]
  have hmg' := hdrop.trans (hmg.trans Block.clsCtlNoted_mg)
  refine ⟨Block.mgAnswer_acked _ _, ?_, ?_, fun g hg => ?_⟩
  · exact (congrArg MgmtSt.held hmg').trans (Block.noted_held ..)
  · exact (congrArg MgmtSt.latch hmg').trans (Block.noted_latch ..)
  · simp only [List.mem_append, not_or] at hg
    obtain ⟨⟨hctl, hks⟩, haud⟩ := hg
    rw [Block.clsCtlAnswered_rd _ hctl, hregs g hks, Block.clsCtlNoted_regsBut g (by simp [hctl, haud])]

end

/-! ## The words of its two commands -/

theorem bitOf_clsGo (w : Word) (i : Nat) : bitOf w.toNat 31 = (fieldOf w (CLS_CTL_GO i) == 1) := bitOf_eq_field ..
theorem bitOf_clsResume (w : Word) (i : Nat) : bitOf w.toNat 30 = (fieldOf w (CLS_CTL_RESUME i) == 1) := bitOf_eq_field ..

/-- The word of a clause switch. -/
def switchWord (w : Word) (i : Nat) : Word := withField (withField w (CLS_CTL_GO i) 1) (CLS_CTL_RESUME i) 0

/-- The word of a resume. -/
def resumeWord (w : Word) (i : Nat) : Word := withField (withField w (CLS_CTL_RESUME i) 1) (CLS_CTL_GO i) 0

theorem switchWord_go (w : Word) (i : Nat) : bitOf (switchWord w i).toNat 31 = true := by
  rw [bitOf_clsGo _ i, switchWord,
    fieldOf_withField_of_ne _ _ _ _ (by simp [CLS_CTL_GO]) (by simp [CLS_CTL_RESUME]) (.inr (by simp [CLS_CTL_GO, CLS_CTL_RESUME])),
    fieldOf_withField_self _ _ _ (by simp [CLS_CTL_GO]) (by simp [CLS_CTL_GO])]
  rfl

theorem switchWord_resume (w : Word) (i : Nat) : bitOf (switchWord w i).toNat 30 = false := by
  rw [bitOf_clsResume _ i, switchWord, fieldOf_withField_self _ _ _ (by simp [CLS_CTL_RESUME]) (by simp [CLS_CTL_RESUME])]
  rfl

theorem switchWord_bin (w : Word) (i : Nat) : fieldOf (switchWord w i) (CLS_CTL_BIN i) = bitsOf w.toNat 19 16 := by
  rw [switchWord, fieldOf_withField_of_ne _ _ _ _ (by simp [CLS_CTL_BIN]) (by simp [CLS_CTL_RESUME])
      (.inl (by simp [CLS_CTL_BIN, CLS_CTL_RESUME])),
    fieldOf_withField_of_ne _ _ _ _ (by simp [CLS_CTL_BIN]) (by simp [CLS_CTL_GO]) (.inl (by simp [CLS_CTL_BIN, CLS_CTL_GO]))]
  rfl

theorem resumeWord_go (w : Word) (i : Nat) : bitOf (resumeWord w i).toNat 31 = false := by
  rw [bitOf_clsGo _ i, resumeWord, fieldOf_withField_self _ _ _ (by simp [CLS_CTL_GO]) (by simp [CLS_CTL_GO])]
  rfl

theorem resumeWord_resume (w : Word) (i : Nat) : bitOf (resumeWord w i).toNat 30 = true := by
  rw [bitOf_clsResume _ i, resumeWord,
    fieldOf_withField_of_ne _ _ _ _ (by simp [CLS_CTL_RESUME]) (by simp [CLS_CTL_GO]) (.inl (by simp [CLS_CTL_GO, CLS_CTL_RESUME])),
    fieldOf_withField_self _ _ _ (by simp [CLS_CTL_RESUME]) (by simp [CLS_CTL_RESUME])]
  rfl

end Sys2Proof.Machine
end

section
/-! SUPPORT. Clause switches (R300, R301): the checks of GO, and what the end of a switch puts into force. -/

namespace Sys2Proof.Machine

open Reg

/-! ## A flipped bit of the clause store (R298) -/

section
variable (b : Block) (up : Option (Fin 16 × Nat))

theorem Block.storeUpset_parts : b.storeUpset up = { b with img := (b.storeUpset up).img } := by
  unfold Block.storeUpset Block.storeFlip
  split
  · dsimp only
    split <;> rfl
  · rfl

theorem Block.storeUpset_img_congr {b c : Block} (h : c.img = b.img) : (c.storeUpset up).img = (b.storeUpset up).img := by
  unfold Block.storeUpset Block.storeFlip Block.sec
  split
  · dsimp only
    rw [h]
    split
    · rfl
    · exact h
  · exact h

/-- Registers and management state do not change what flips. -/
theorem Block.storeUpset_of_managed {b n : Block} (h : n = { b with regs := n.regs, mg := n.mg }) :
    n.storeUpset up = { b.storeUpset up with regs := n.regs, mg := n.mg } := by
  have himg : (n.storeUpset up).img = (b.storeUpset up).img := Block.storeUpset_img_congr up (by rw [h])
  rw [n.storeUpset_parts, b.storeUpset_parts, himg]
  exact congrArg (fun c : Block => { c with img := (b.storeUpset up).img }) h

theorem Block.storeUpset_rd (g : Fld) : (b.storeUpset up).rd g = b.rd g := by
  rw [b.storeUpset_parts up]
  rfl

theorem Block.storeUpset_on (g : Fld) : (b.storeUpset up).on g = b.on g := by rw [Block.on, Block.on, Block.storeUpset_rd]

theorem Block.storeUpset_subs : (b.storeUpset up).subs = b.subs := by rw [b.storeUpset_parts up]

/-- Only sections of clauses flip. -/
theorem Block.storeUpset_sec {type inst : Nat} (h : ∀ bin : Fin 16, secKey type inst ≠ secKey tyClauses bin) :
    (b.storeUpset up).sec type inst = b.sec type inst := by
  unfold Block.storeUpset Block.storeFlip
  split
  · next bin _ =>
    dsimp only
    split
    · exact Tab.get_set_of_ne _ _ (h bin)
    · rfl
  · rfl

theorem Block.storeUpset_lockstep (n : Nat) : (b.storeUpset up).chLockstep n = b.chLockstep n := by
  have htopo : (b.storeUpset up).sec tyTopology 0 = b.sec tyTopology 0 := b.storeUpset_sec up (by decide)
  simp only [Block.chLockstep, Block.chEnabled, Block.topo, htopo]

/-- A flipped bit leaves a section as long as it was. -/
theorem Block.storeUpset_isEmpty (bin : Nat) : ((b.storeUpset up).sec tyClauses bin).isEmpty = (b.sec tyClauses bin).isEmpty := by
  unfold Block.storeUpset Block.storeFlip
  split
  · next flipped bit =>
    dsimp only
    split
    · by_cases h : secKey tyClauses bin = secKey tyClauses flipped
      · rw [Block.sec, Block.sec, h]
        dsimp only
        rw [Tab.get_set_self, Bool.eq_iff_iff, List.isEmpty_iff, List.isEmpty_iff, List.set_eq_nil_iff, Block.sec, h]
      · exact congrArg List.isEmpty (Tab.get_set_of_ne _ _ h)
    · rfl
  · rfl

end

/-! ## GO (R300) -/

/-- The code of the first check of a switch that fails, 0 for none. -/
def Block.switchCheck (b : Block) (s bin : Nat) : Nat := if b.harbour then 1 else b.switchCode s bin

theorem Block.switchCheck_lt (b : Block) (s bin : Nat) : b.switchCheck s bin < 16 := by
  unfold Block.switchCheck Block.switchCode
  dsimp only
  repeat' split
  all_goals decide

theorem Block.switchCheck_congr {b c : Block} {s : Nat} (bin : Nat) (himg : c.img = b.img)
    (hstate : c.rd HBR_STATUS_STATE = b.rd HBR_STATUS_STATE) (hrate : c.rd (PHY_STATUS_RATE s) = b.rd (PHY_STATUS_RATE s)) :
    c.switchCheck s bin = b.switchCheck s bin := by
  have hsec : c.sec tyClauses bin = b.sec tyClauses bin := by rw [Block.sec, Block.sec, himg]
  have hok : c.storeOk bin = b.storeOk bin := by rw [Block.storeOk, Block.storeOk, hsec, himg]
  have hharbour : c.harbour = b.harbour := by rw [Block.harbour, Block.harbour, hstate]
  rw [Block.switchCheck, Block.switchCheck, Block.switchCode, Block.switchCode, hsec, hok, hharbour, hrate,
    Block.chLockstep_congr himg]

theorem Block.switchCheck_storeUpset (b : Block) (up : Option (Fin 16 × Nat)) (s bin : Nat) :
    (b.storeUpset up).switchCheck s bin = if b.harbour then 1 else (b.storeUpset up).switchCode s bin := by
  rw [Block.switchCheck, Block.harbour, Block.storeUpset_rd]
  rfl

theorem Block.pair_of_independent {b : Block} {s : Nat} (h : b.chLockstep (s / 2) = false) : b.pair s = [s] := by
  rw [Block.pair, h]
  rfl

/-- A switch of subchannel `s` to `bin` has begun (R301). -/
def Block.switching (b : Block) (s bin : Nat) : Block :=
  (b.updSub s (fun u => { u with switchTo := some bin })).wr (CLS_STATUS_SWITCHING s) 1

theorem Block.switchGo_of_refused {b : Block} {s : Nat} (h : b.switchCheck s (b.rd (CLS_CTL_BIN s)) ≠ 0) :
    b.switchGo s = b.wr (CLS_STATUS_SWITCH_CODE s) (b.switchCheck s (b.rd (CLS_CTL_BIN s))) := if_pos h

theorem Block.switchGo_of_passed {b : Block} {s : Nat} (hl : b.chLockstep (s / 2) = false)
    (h : b.switchCheck s (b.rd (CLS_CTL_BIN s)) = 0) : b.switchGo s = b.switching s (b.rd (CLS_CTL_BIN s)) := by
  have hgo : b.switchGo s = b.switchBegin s (b.rd (CLS_CTL_BIN s)) := if_neg (not_not_intro h)
  rw [hgo, Block.switchBegin, Block.pair_of_independent hl]
  rfl

/-- What GO of a switch leaves: the failing check's code and nothing else, or the switch begun. -/
theorem Block.switchGo_spec {b : Block} {i : Fin 32} {bin code : Nat} (hl : b.chLockstep (i.val / 2) = false)
    (hbin : b.rd (CLS_CTL_BIN i) = bin) (hcode : b.switchCheck i bin = code) :
    (code ≠ 0 → (b.switchGo i).rd (CLS_STATUS_SWITCH_CODE i) = code ∧ (b.switchGo i).subs = b.subs)
    ∧ (code = 0 → (b.switchGo i).rd (CLS_STATUS_SWITCHING i) = 1
        ∧ (b.switchGo i).subs.get i = { b.subs.get i with switchTo := some bin })
    ∧ (∀ j : Nat, j ≠ i.val → (b.switchGo i).subs.get j = b.subs.get j)
    ∧ b.switchGo i = { b with regs := (b.switchGo i).regs, subs := (b.switchGo i).subs }
    ∧ b.regsBut (b.switchGo i) [(CLS_STATUS_SWITCH_CODE i).key, (CLS_STATUS_SWITCHING i).key] := by
  subst hbin
  by_cases h : code = 0
  · rw [Block.switchGo_of_passed hl (hcode.trans h)]
    have hsub := fun j => b.sub_updSub i j (fun u => { u with switchTo := some (b.rd (CLS_CTL_BIN i)) })
    refine ⟨fun hne => absurd h hne, fun _ => ⟨Block.rd_wr_self _ _ _, ?_⟩, fun j hj => ?_, rfl, fun g hg => ?_⟩
    · exact (hsub i).trans (if_pos rfl)
    · exact (hsub j).trans (if_neg hj)
    · exact Block.rd_wr_of_ne _ _ _ _ (fun he => hg (by simp [he]))
  · rw [Block.switchGo_of_refused (hcode ▸ h), hcode]
    refine ⟨fun _ => ⟨?_, rfl⟩, fun h0 => absurd h0 h, fun _ _ => rfl, rfl, fun g hg => ?_⟩
    · exact (Block.rd_wr_self _ _ _).trans (Nat.mod_eq_of_lt (hcode ▸ b.switchCheck_lt i _))
    · exact Block.rd_wr_of_ne _ _ _ _ (fun he => hg (by simp [he]))

/-! ## The end of a switch (R301) -/

theorem leVal_lt (bs : List Byte) : leVal bs < 256 ^ bs.length := by
  induction bs with
  | nil => decide
  | cons x bs ih =>
    have hx := x.isLt
    rw [leVal, List.length_cons, Nat.pow_succ]
    omega

theorem leAt_lt (bs : List Byte) (off n : Nat) : leAt bs off n < 256 ^ n :=
  (leVal_lt _).trans_le (Nat.pow_le_pow_right (by decide) (List.length_take_le ..))

/-- The fields that say what set is in force in slot `j`, with their values for a set of `bin` (R301). -/
def activeFields (s j : Nat) (text : List Byte) (bin : Nat) : List (Fld × Nat) :=
  [((clsSlotFlds s j).1, 1), ((clsSlotFlds s j).2.1, 0), ((clsSlotFlds s j).2.2, bin), (CLS_STATUS_ACTIVE_SLOT s, j),
    (CLS_STATUS_ACTIVE_BIN s, bin), (CLS_STATUS_SWITCHING s, 0), (CLS_STATUS_SWITCH_CODE s, 0),
    (SCH_REF_PARAM_TREFI_NCK s, leAt text 4 2), (SCH_REF_PARAM_P s, leAt text 6 1), (SCH_REF_PARAM_Q s, leAt text 7 1),
    (SCH_ABO_ACT_NCK s, leAt text 0x0A 2), (CLS_BIN_DATA_RATE s, leAt text 0 2), (CLS_BIN_DELIV_PM s, leAt text 0x0C 2),
    (CLS_LAT_RL s, leAt text 0x0E 2), (CLS_LAT_WL s, leAt text 0x10 2)]

/-- A subchannel on which a set that no slot held has been made active in slot `j`: its histories are empty. -/
def SubSt.activated (u : SubSt) (j : Nat) (text : List Byte) : SubSt := { u with
  slots := u.slots.set j text, shadow := text, recent := u.recent.set j (u.recent.foldl (fun m e => max m e.2) 0 + 1)
  hist := [], chkHist := [], toCheck := [], cmp := 0, switchTo := none }

/-- A switch to a set that no slot holds puts it into a slot. -/
theorem Block.activate_of_new {b : Block} {s bin : Nat} (h : (b.switchSlot s bin).2 = false) : b.activate s bin =
    (b.updSub s (fun u => u.activated (b.switchSlot s bin).1 (b.sec tyClauses bin))).wrEach
      (activeFields s (b.switchSlot s bin).1 (b.sec tyClauses bin) bin) := by
  unfold Block.activate
  dsimp only
  rw [h]
  rfl

theorem foldl_mem_of_choice {α : Type} (f : α → α → α) (hf : ∀ a c, f a c = a ∨ f a c = c) (l : List α) (a : α) :
    l.foldl f a = a ∨ l.foldl f a ∈ l := by
  induction l generalizing a with
  | nil => exact .inl rfl
  | cons c l ih =>
    rw [List.foldl_cons, List.mem_cons]
    rcases ih (f a c) with h | h
    · rw [h]
      exact (hf a c).imp_right .inl
    · exact .inr (.inr h)

theorem Block.switchSlot_lt (b : Block) (s bin : Nat) : (b.switchSlot s bin).1 < 4 := by
  unfold Block.switchSlot
  split
  · next j hj => exact List.mem_range.mp (List.mem_of_find?_eq_some hj)
  · dsimp only
    generalize hl : (List.range 4).filter _ = l
    have hlt : ∀ j ∈ l, j < 4 := fun j hj => List.mem_range.mp (List.mem_filter.mp (hl ▸ hj)).1
    have hhead : l.headD 0 < 4 := by
      cases l with
      | nil => decide
      | cons j l => exact hlt j List.mem_cons_self
    rcases foldl_mem_of_choice (fun m j => if (b.subs.get s).recent.get j < (b.subs.get s).recent.get m then j else m)
        (fun m j => (ite_eq_or_eq _ j m).symm) l (l.headD 0) with h | h
    · rw [h]
      exact hhead
    · exact hlt _ h

theorem activeFields_nodup : ∀ (i : Fin 32) (j : Fin 4), ((activeFields i j [] 0).map (fun e => e.1.key)).Nodup := by
  decide +kernel

/-- No two of the fields share a key, whatever is set. -/
theorem activeFields_nodup_of_lt (i : Fin 32) {j : Nat} (hj : j < 4) (text : List Byte) (bin : Nat) :
    ((activeFields i j text bin).map (fun e => e.1.key)).Nodup := activeFields_nodup i ⟨j, hj⟩

section
variable {b : Block} {i : Fin 32} {bin : Nat}

/-- The registers of the active set, by their place in the list, after a switch to a set that no slot holds. -/
theorem Block.rd_activate_of_new (h : (b.switchSlot i bin).2 = false) {f : Fld} {v : Nat} (k : Nat)
    (hf : (activeFields i (b.switchSlot i bin).1 (b.sec tyClauses bin) bin)[k]? = some (f, v)) (hv : v < 2 ^ f.width) :
    (b.activate i bin).rd f = v := by
  rw [Block.activate_of_new h]
  exact (Block.rd_wrEach_of_mem _ (activeFields_nodup_of_lt i (b.switchSlot_lt i bin) _ _)
    (List.mem_of_getElem? hf)).trans (Nat.mod_eq_of_lt hv)

theorem Block.sub_activate_of_new (h : (b.switchSlot i bin).2 = false) (j : Nat) : (b.activate i bin).subs.get j =
    if j = i.val then (b.subs.get i).activated (b.switchSlot i bin).1 (b.sec tyClauses bin) else b.subs.get j := by
  rw [Block.activate_of_new h, Block.wrEach_subs]
  exact Block.sub_updSub ..

theorem Block.activate_parts_of_new (h : (b.switchSlot i bin).2 = false) :
    b.activate i bin = { b with regs := (b.activate i bin).regs, subs := (b.activate i bin).subs } := by
  rw [Block.activate_of_new h, (Block.wrEach_onlyRegs _ _).1]
  rfl

/-- The set that has been made active is the active set. -/
theorem Block.activeSet_activate_of_new (h : (b.switchSlot i bin).2 = false) :
    (b.activate i bin).activeSet i = b.sec tyClauses bin := by
  have hslot : (b.activate i bin).rd (CLS_STATUS_ACTIVE_SLOT i) = (b.switchSlot i bin).1 :=
    Block.rd_activate_of_new h 3 rfl (b.switchSlot_lt i bin)
  rw [Block.activeSet, hslot, Block.sub_activate_of_new h, if_pos rfl]
  exact Tab.get_set_self ..

/-- On a subchannel of its own that is not halted, whose channel changes no speed, a switch ends with its set active. -/
theorem Block.switchDone_of_running (hl : b.chLockstep (i.val / 2) = false) (hto : (b.subs.get i).switchTo = some bin)
    (hrun : b.on (CLS_STATUS_HALTED i) = false) (hnew : (b.switchSlot i bin).2 = false)
    (hspeed : b.phy.speed.contains (i.val / 2) = false) : b.switchDone i = b.activate i bin := by
  have hphy : (b.activate i bin).phy = b.phy := by rw [Block.activate_parts_of_new hnew]
  unfold Block.switchDone
  rw [hto]
  dsimp only
  rw [Block.pair_of_independent hl, forEach_cons, forEach_nil, hrun, if_neg Bool.false_ne_true, Block.speedSwitched, hphy, hspeed]
  rfl

end

theorem clauseSwitchDone_answers {s : State} {i : Fin 32} {bin : Nat} (hl : s.block.chLockstep (i.val / 2) = false)
    (hto : (s.block.subs.get i).switchTo = some bin) (hlt : bin < 16) (hrun : s.block.on (CLS_STATUS_HALTED i) = false)
    (hnew : (s.block.switchSlot i bin).2 = false) (hspeed : s.block.phy.speed.contains (i.val / 2) = false) :
    s.answers (.clauseSwitchDone i) (fun b =>
      b.rd (CLS_STATUS_ACTIVE_BIN i) = bin ∧ b.activeSet i = s.block.sec tyClauses bin
      ∧ (b.subs.get i).shadow = s.block.sec tyClauses bin ∧ (b.subs.get i).hist = [] ∧ (b.subs.get i).chkHist = []
      ∧ (b.subs.get i).switchTo = none ∧ b.rd (CLS_STATUS_SWITCHING i) = 0 ∧ b.rd (CLS_STATUS_SWITCH_CODE i) = 0
      ∧ b.rd (SCH_REF_PARAM_TREFI_NCK i) = leAt (s.block.sec tyClauses bin) 4 2
      ∧ b.rd (CLS_BIN_DATA_RATE i) = setRate (s.block.sec tyClauses bin)
      ∧ b.rd (CLS_LAT_RL i) = leAt (s.block.sec tyClauses bin) 0x0E 2
      ∧ (b.subs.get i).rq = (s.block.subs.get i).rq ∧ (b.subs.get i).wq = (s.block.subs.get i).wq
      ∧ (∀ j : Nat, j ≠ i.val → b.subs.get j = s.block.subs.get j) ∧ b = { s.block with regs := b.regs, subs := b.subs }) := by
  refine State.answers_onBlock (f := fun b => b.switchDone i) rfl ?_
  have hrd {f : Fld} {v : Nat} := Block.rd_activate_of_new hnew (f := f) (v := v)
  have hhalf := fun off => leAt_lt (s.block.sec tyClauses bin) off 2
  have hsub : ((s.block.activate i bin).subs.get i) = _ := (Block.sub_activate_of_new hnew i).trans (if_pos rfl)
  dsimp only
  rw [Block.switchDone_of_running hl hto hrun hnew hspeed, hsub]
  exact ⟨hrd 4 rfl hlt, Block.activeSet_activate_of_new hnew, rfl, rfl, rfl, rfl, hrd 5 rfl (Nat.two_pow_pos _),
    hrd 6 rfl (Nat.two_pow_pos _), hrd 7 rfl (hhalf _), hrd 11 rfl (hhalf _), hrd 13 rfl (hhalf _), rfl, rfl,
    fun j hj => (Block.sub_activate_of_new hnew j).trans (if_neg hj), Block.activate_parts_of_new hnew⟩

/-! ## The command -/

theorem switchKeys_distinct : ∀ i : Fin 32, (∀ f ∈ [HBR_STATUS_STATE, PHY_STATUS_RATE i], f.key ∉ clsCtlKeys i ++ audKeys)
    ∧ (CLS_STATUS_SWITCH_CODE i).key ∉ clsCtlKeys i ∧ (CLS_STATUS_SWITCHING i).key ∉ clsCtlKeys i := by decide +kernel

theorem Block.clsCtlActed_switchWord (b : Block) (w : Word) (i : Nat) (up : Option (Fin 16 × Nat)) :
    b.clsCtlActed i (switchWord w i) up = (b.storeUpset up).switchGo i := by
  rw [Block.clsCtlActed, switchWord_go, switchWord_resume]
  rfl

section
variable {s : State} {i : Fin 32} {role : Role} {w : Word} {up : Option (Fin 16 × Nat)}

theorem exec_clauseSwitch (hg : s.grants role (CLS_CTL_GO i).off (switchWord w i)) :
    exec (.clauseSwitch role ⟨i, up⟩ w) s = .next { s with block :=
      (((((s.block.clsCtlNoted role i (switchWord w i)).storeUpset up).switchGo i).clsCtlDropped i).mgAnswer false 0) } := by
  rw [← Block.clsCtlActed_switchWord]
  exact writeReg_CLS_CTL { (default : Aux) with store := up } hg

/-- A granted GO checks the bin of the write, with the store's copy as the command says it is read (R300). -/
theorem clauseSwitch_answers {bin code : Nat} (hl : s.block.chLockstep (i.val / 2) = false) (hbin : bin = bitsOf w.toNat 19 16)
    (hcode : code = if s.block.harbour then 1 else (s.block.storeUpset up).switchCode i bin)
    (hg : s.grants role (CLS_CTL_GO i).off (switchWord w i)) :
    s.answers (.clauseSwitch role ⟨i, up⟩ w) (fun b =>
      (code ≠ 0 → b.rd (CLS_STATUS_SWITCH_CODE i) = code ∧ b.subs = s.block.subs)
      ∧ (code = 0 → b.rd (CLS_STATUS_SWITCHING i) = 1 ∧ b.subs.get i = { s.block.subs.get i with switchTo := some bin })
      ∧ (∀ j : Nat, j ≠ i.val → b.subs.get j = s.block.subs.get j)
      ∧ s.block.wrote b (clsCtlKeys i ++ [(CLS_STATUS_SWITCH_CODE i).key, (CLS_STATUS_SWITCHING i).key])
      ∧ b = { s.block.storeUpset up with regs := b.regs, mg := b.mg, subs := b.subs }) := by
  refine State.answers_next (exec_clauseSwitch hg) ?_
  obtain ⟨hkeep, hcode', hsw⟩ := switchKeys_distinct i
  have hnoted := s.block.clsCtlNoted_parts (role := role) (i := i) (w := switchWord w i)
  have hnbin := s.block.clsCtlNoted_bin (role := role) (i := i) (w := switchWord w i)
  have hnregs := s.block.clsCtlNoted_regsBut (role := role) (i := i) (w := switchWord w i)
  have hwrote {t ks} := Block.wrote_clsCtl (b := s.block) (role := role) (i := i) (w := switchWord w i) (t := t) (ks := ks)
  generalize s.block.clsCtlNoted role i (switchWord w i) = n at *
  have himg : n.img = s.block.img := by rw [hnoted]
  have hread (f : Fld) (hf : f.key ∉ clsCtlKeys i ++ audKeys) : (n.storeUpset up).rd f = (s.block.storeUpset up).rd f := by
    rw [Block.storeUpset_rd, Block.storeUpset_rd, hnregs f hf]
  have hcheck : (n.storeUpset up).switchCheck i bin = code := by
    rw [hcode, ← Block.switchCheck_storeUpset]
    exact Block.switchCheck_congr bin (Block.storeUpset_img_congr up himg) (hread _ (hkeep _ (by simp))) (hread _ (hkeep _ (by simp)))
  have hbin' : (n.storeUpset up).rd (CLS_CTL_BIN i) = bin := by
    rw [Block.storeUpset_rd, hnbin, switchWord_bin, hbin]
  have hl' : (n.storeUpset up).chLockstep (i.val / 2) = false := by
    rw [Block.storeUpset_lockstep, Block.chLockstep_congr himg, hl]
  have hsubs : (n.storeUpset up).subs = s.block.subs := by rw [Block.storeUpset_subs, hnoted]
  obtain ⟨hfail, hpass, hother, hparts, hregs⟩ := Block.switchGo_spec hl' hbin' hcheck
  rw [hsubs] at hfail hpass hother
  generalize (n.storeUpset up).switchGo i = t at *
  have hrest : t = { s.block.storeUpset up with regs := t.regs, mg := n.mg, subs := t.subs } :=
    hparts.trans (congrArg (fun c : Block => { c with regs := t.regs, subs := t.subs }) (Block.storeUpset_of_managed up hnoted))
  have hmg : t.mg = n.mg := by rw [hrest]
  rw [Block.clsCtlAnswered_rd _ hcode', Block.clsCtlAnswered_rd _ hsw, Block.clsCtlAnswered_subs]
  refine ⟨hfail, hpass, hother, hwrote hmg (fun g hg => (hregs g hg).trans (Block.storeUpset_rd ..)), ?_⟩
  rw [← hmg] at hrest
  rw [← Block.clsCtlAnswered_subs (i := i) t]
  exact Block.clsCtlAnswered_of_parts hrest

end

end Sys2Proof.Machine
end

section
/-! SUPPORT. Halts (R306, R307): the reload that ends one, and RESUME. -/

namespace Sys2Proof.Machine

open Reg

/-! ## The reload (R306) -/

theorem clsSlotFlds_stale_key (s j : Nat) :
    (0x80048 + 0x4000 * s) * 32 ≤ (clsSlotFlds s j).2.1.key ∧ (clsSlotFlds s j).2.1.key < (0x80048 + 0x4000 * s) * 32 + 32 := by
  unfold clsSlotFlds
  split
  all_goals simp only [CLS_SLOT_STALE0, CLS_SLOT_STALE1, CLS_SLOT_STALE2, CLS_SLOT_STALE3, Fld.key]; omega

/-- The set of the active bin as the store holds it. -/
def Block.storedSet (b : Block) (s : Nat) : List Byte := b.sec tyClauses (b.rd (CLS_STATUS_ACTIVE_BIN s))

/-- A subchannel into whose slot `j` and shadow a set has been loaded. -/
def SubSt.loaded (u : SubSt) (j : Nat) (text : List Byte) : SubSt := { u with slots := u.slots.set j text, shadow := text }

/-- The block with the stored set in the active slot and the shadow. -/
def Block.setLoaded (b : Block) (s : Nat) : Block :=
  (b.updSub s (fun u => u.loaded (b.rd (CLS_STATUS_ACTIVE_SLOT s)) (b.storedSet s))).wr
    (clsSlotFlds s (b.rd (CLS_STATUS_ACTIVE_SLOT s))).2.1 0

theorem Block.reloadClauses_of_sound {b : Block} {s : Nat} (he : (b.storedSet s).isEmpty = false)
    (hok : b.storeOk (b.rd (CLS_STATUS_ACTIVE_BIN s)) = true) : b.reloadClauses s = (b.setLoaded s, true) := by
  have hsound : ((b.storedSet s).isEmpty || !b.storeOk (b.rd (CLS_STATUS_ACTIVE_BIN s))) = false := by rw [he, hok]; rfl
  exact if_neg (Bool.eq_false_iff.mp hsound)

theorem Block.reloadClauses_of_unsound {b : Block} {s : Nat} (hok : b.storeOk (b.rd (CLS_STATUS_ACTIVE_BIN s)) = false) :
    b.reloadClauses s = (b, false) := by
  have hunsound : ((b.storedSet s).isEmpty || !b.storeOk (b.rd (CLS_STATUS_ACTIVE_BIN s))) = true := by
    rw [hok, Bool.not_false, Bool.or_true]
  exact if_pos hunsound

/-- The ranks of subchannel `s` that are not in self-refresh. -/
def Block.awakeRanks (b : Block) (s : Nat) : List Nat :=
  (List.range (b.subRanks s)).filter (fun r => !(b.subs.get s).selfRef.contains r)

/-- A subchannel whose banks count as closed, and that precharges the listed ranks first. -/
def SubSt.ranksClosed (u : SubSt) (ranks : List Nat) : SubSt := { u with
  preAll := !ranks.isEmpty, preFirst := ranks ++ u.preFirst.filter (fun r => !ranks.contains r)
  banks := u.banks.map (fun e => (e.1, { e.2 with row := none, due := false })) }

theorem Block.closeRanks_eq (b : Block) (s : Nat) : b.closeRanks s = b.updSub s (fun u => u.ranksClosed (b.awakeRanks s)) := rfl

theorem SubSt.ranksClosed_row (u : SubSt) (ranks : List Nat) (k : Nat) : ((u.ranksClosed ranks).banks.get k).row = none := by
  rw [SubSt.ranksClosed, Tab.get_map_value u.banks (fun e => { e with row := none, due := false }) rfl]

/-- A subchannel whose reload is over. -/
def SubSt.reloadOver (u : SubSt) : SubSt := { u with reload := false, lastReload := some u.slot }

/-- The block with the stored set loaded by a reload that is over, and every bank closed. -/
def Block.reclosed (b : Block) (s : Nat) : Block := ((b.setLoaded s).updSub s SubSt.reloadOver).closeRanks s

section
variable {b : Block} {s : Nat}

theorem Block.reclosed_rd {g : Fld} (hg : g.key ≠ (clsSlotFlds s (b.rd (CLS_STATUS_ACTIVE_SLOT s))).2.1.key) :
    (b.reclosed s).rd g = b.rd g := Block.rd_wr_of_ne _ _ _ _ hg

theorem Block.reclosed_sub : ∃ ranks, (b.reclosed s).subs.get s =
    ((b.subs.get s).loaded (b.rd (CLS_STATUS_ACTIVE_SLOT s)) (b.storedSet s)).reloadOver.ranksClosed ranks := by
  have hloaded : (b.setLoaded s).subs.get s = (b.subs.get s).loaded (b.rd (CLS_STATUS_ACTIVE_SLOT s)) (b.storedSet s) :=
    Block.sub_updSub_self b s (fun u => u.loaded _ _)
  exact ⟨_, by rw [Block.reclosed, Block.closeRanks_eq, Block.sub_updSub_self, Block.sub_updSub_self, hloaded]⟩

/-- A reload with a sound copy closes every bank and, unless a repeat holds the halt, replays and ends the halt (R306). -/
theorem Block.reloadDone_of_sound (hl : b.chLockstep (s / 2) = false) (hhalt : b.on (CLS_STATUS_HALTED s) = true)
    (hreload : (b.subs.get s).reload = true) (hset : (b.subs.get s).noSet = false) (he : (b.storedSet s).isEmpty = false)
    (hok : b.storeOk (b.rd (CLS_STATUS_ACTIVE_BIN s)) = true) : b.reloadDone s =
    if (b.subs.get s).stay then b.reclosed s else ((b.reclosed s).replay s true).wr (CLS_STATUS_HALTED s) 0 := by
  unfold Block.reloadDone
  rw [Block.pair_of_independent hl, forEach_cons, forEach_nil]
  dsimp only
  rw [hreload, hhalt, Block.reloadClauses_of_sound he hok, hset]
  rfl

/-- A subchannel that stays halted without a trusted set. -/
def SubSt.distrusted (u : SubSt) : SubSt := { u with reload := false, stay := true, noSet := true }

/-- The block on which a reload has found the store's copy unsound, before it tells so. -/
def Block.storeRefused (b : Block) (s : Nat) : Block :=
  ((b.updSub s SubSt.distrusted).wr (CLS_STATUS_STORE_ERR s) 1).intr 12 (b.on (CLS_CTL_INT_VIOL s))

theorem Block.reloadDone_of_unsound (hl : b.chLockstep (s / 2) = false) (hhalt : b.on (CLS_STATUS_HALTED s) = true)
    (hreload : (b.subs.get s).reload = true) (hok : b.storeOk (b.rd (CLS_STATUS_ACTIVE_BIN s)) = false) :
    b.reloadDone s = (b.storeRefused s).event (subEvent 48 4 s) := by
  unfold Block.reloadDone
  rw [Block.pair_of_independent hl, forEach_cons, forEach_nil]
  dsimp only
  rw [hreload, hhalt, Block.reloadClauses_of_unsound hok]
  rfl

end

theorem reloadKeys_distinct : ∀ i : Fin 32, (CLS_STATUS_STORE_ERR i).key ∉ eventKeys
    ∧ (CLS_STATUS_HALTED i).key ∉ (CLS_STATUS_STORE_ERR i).key :: eventKeys
    ∧ (FLT_SEV_SEV 48).key ≠ (CLS_STATUS_STORE_ERR i).key := by decide

theorem staleKey_distinct (i j : Nat) : (CLS_STATUS_ACTIVE_SLOT i).key ≠ (clsSlotFlds i j).2.1.key
    ∧ (CLS_STATUS_HALTED i).key ≠ (clsSlotFlds i j).2.1.key := by
  have hle := (clsSlotFlds_stale_key i j).1
  generalize (clsSlotFlds i j).2.1.key = k at *
  simp only [CLS_STATUS_ACTIVE_SLOT, CLS_STATUS_HALTED, Fld.key]
  omega

theorem WrEnt.reissued_issued (e : WrEnt) : e.reissued.issued = none := by
  unfold WrEnt.reissued
  split
  · rfl
  · next h => exact Option.not_isSome_iff_eq_none.mp h

/-- What a reload with a sound copy leaves of subchannel `i` of `b`. -/
def Block.reloadedTo (b t : Block) (i : Nat) : Prop :=
  t.activeSet i = b.storedSet i ∧ (t.subs.get i).shadow = b.storedSet i ∧ (t.subs.get i).reload = false
  ∧ (∀ k : Nat, ((t.subs.get i).banks.get k).row = none)
  ∧ ((b.subs.get i).stay = false → t.rd (CLS_STATUS_HALTED i) = 0 ∧ (∀ e ∈ (t.subs.get i).wq, e.issued = none)
      ∧ (t.subs.get i).inflight = [])
  ∧ ((b.subs.get i).stay = true → t.rd (CLS_STATUS_HALTED i) = b.rd (CLS_STATUS_HALTED i))

section
variable {b : Block} {i : Fin 32}

theorem Block.activeSet_of_loaded {t : Block} {text : List Byte}
    (hslot : t.rd (CLS_STATUS_ACTIVE_SLOT i) = b.rd (CLS_STATUS_ACTIVE_SLOT i))
    (hslots : (t.subs.get i).slots = (b.subs.get i).slots.set (b.rd (CLS_STATUS_ACTIVE_SLOT i)) text) : t.activeSet i = text := by
  rw [Block.activeSet, hslot, hslots]
  exact Tab.get_set_self ..

theorem Block.reloadedTo_reclosed (hstay : (b.subs.get i).stay = true) : b.reloadedTo (b.reclosed i) i := by
  obtain ⟨hslot, hhalted⟩ := staleKey_distinct i (b.rd (CLS_STATUS_ACTIVE_SLOT i))
  obtain ⟨ranks, hsub⟩ := b.reclosed_sub (s := i)
  refine ⟨Block.activeSet_of_loaded (Block.reclosed_rd hslot) (congrArg SubSt.slots hsub), ?_⟩
  rw [hsub]
  exact ⟨rfl, rfl, SubSt.ranksClosed_row _ _, fun h => absurd (hstay.symm.trans h) (by decide), fun _ => Block.reclosed_rd hhalted⟩

theorem Block.reloadedTo_of_replayed {t : Block} {ranks : List Nat} (hstay : (b.subs.get i).stay = false)
    (hslot : t.rd (CLS_STATUS_ACTIVE_SLOT i) = b.rd (CLS_STATUS_ACTIVE_SLOT i)) (hzero : t.rd (CLS_STATUS_HALTED i) = 0)
    (hsub : t.subs.get i = ((((b.subs.get i).loaded (b.rd (CLS_STATUS_ACTIVE_SLOT i)) (b.storedSet i)).reloadOver.ranksClosed
      ranks).replayed true).readsBack) : b.reloadedTo t i := by
  refine ⟨Block.activeSet_of_loaded hslot (congrArg SubSt.slots hsub), ?_⟩
  rw [hsub]
  refine ⟨rfl, rfl, SubSt.ranksClosed_row _ ranks, fun _ => ⟨hzero, fun e he => ?_, rfl⟩,
    fun h => absurd (hstay.symm.trans h) (by decide)⟩
  obtain ⟨e', -, rfl⟩ := List.mem_map.mp he
  exact e'.reissued_issued

theorem Block.reloadedTo_replay (hstay : (b.subs.get i).stay = false) :
    b.reloadedTo (((b.reclosed i).replay i true).wr (CLS_STATUS_HALTED i) 0) i := by
  obtain ⟨ranks, hsub⟩ := b.reclosed_sub (s := i)
  have hslot : (b.reclosed i).rd (CLS_STATUS_ACTIVE_SLOT i) = _ := Block.reclosed_rd (staleKey_distinct i _).1
  have hreplayed := (b.reclosed i).replay_sub i true
  have hparts := (b.reclosed i).replay_parts i true
  rw [if_pos rfl, hsub] at hreplayed
  generalize (b.reclosed i).replay i true = t at *
  refine Block.reloadedTo_of_replayed hstay ?_ (Block.rd_wr_self _ _ _) hreplayed
  rw [Block.rd_wr_of_ne _ _ _ _ (by simp [CLS_STATUS_ACTIVE_SLOT, CLS_STATUS_HALTED, Fld.key]), hparts]
  exact hslot

end

section
variable {s : State} {i : Fin 32} {up : Option (Fin 16 × Nat)}

/-- A reload with a sound copy puts it into force and, unless a repeat holds the halt, ends the halt (R306). -/
theorem haltReloadDone_of_sound_answers (hl : s.block.chLockstep (i.val / 2) = false)
    (hhalt : s.block.on (CLS_STATUS_HALTED i) = true) (hreload : (s.block.subs.get i).reload = true)
    (hset : (s.block.subs.get i).noSet = false)
    (he : (s.block.sec tyClauses (s.block.rd (CLS_STATUS_ACTIVE_BIN i))).isEmpty = false)
    (hok : (s.block.storeUpset up).storeOk (s.block.rd (CLS_STATUS_ACTIVE_BIN i)) = true) :
    s.answers (.haltReloadDone ⟨i, up⟩) (fun b => (s.block.storeUpset up).reloadedTo b i) := by
  refine State.answers_onBlock (f := fun b => (b.storeUpset up).reloadDone i) rfl ?_
  have hbin := s.block.storeUpset_rd up (CLS_STATUS_ACTIVE_BIN i)
  rw [← s.block.storeUpset_subs up] at hreload hset
  rw [← s.block.storeUpset_on up] at hhalt
  rw [← s.block.storeUpset_lockstep up] at hl
  rw [← s.block.storeUpset_isEmpty up, ← hbin] at he
  rw [← hbin] at hok
  rw [Block.reloadDone_of_sound hl hhalt hreload hset he hok]
  split
  · next h => exact Block.reloadedTo_reclosed h
  · next h => exact Block.reloadedTo_replay (Bool.eq_false_iff.mpr h)

/-- With an unsound copy the subchannel stays halted, with STORE_ERR and without a trusted set (R306). -/
theorem haltReloadDone_of_unsound_answers (hl : s.block.chLockstep (i.val / 2) = false)
    (hhalt : s.block.on (CLS_STATUS_HALTED i) = true) (hreload : (s.block.subs.get i).reload = true)
    (hok : (s.block.storeUpset up).storeOk (s.block.rd (CLS_STATUS_ACTIVE_BIN i)) = false) (hsev : s.block.rd (FLT_SEV_SEV 48) ≠ 3) :
    s.answers (.haltReloadDone ⟨i, up⟩) (fun b => b.rd (CLS_STATUS_STORE_ERR i) = 1
      ∧ b.rd (CLS_STATUS_HALTED i) = s.block.rd (CLS_STATUS_HALTED i) ∧ b.subs.get i = (s.block.subs.get i).distrusted) := by
  refine State.answers_onBlock (f := fun b => (b.storeUpset up).reloadDone i) rfl ?_
  rw [← s.block.storeUpset_subs up] at hreload ⊢
  rw [← s.block.storeUpset_on up] at hhalt
  rw [← s.block.storeUpset_lockstep up] at hl
  rw [← s.block.storeUpset_rd up] at hok hsev ⊢
  generalize s.block.storeUpset up = b at *
  obtain ⟨herr, hhalted, hkey⟩ := reloadKeys_distinct i
  simp only [List.mem_cons, not_or] at hhalted
  have hrd (g : Fld) (hg : g.key ∉ eventKeys) : (b.storeRefused i).rd g = (b.wr (CLS_STATUS_STORE_ERR i) 1).rd g :=
    Block.rd_intr _ _ _ _ (fun h => hg (by simp [h, eventKeys]))
  have hevent : (b.storeRefused i).event (subEvent 48 4 i) = (b.storeRefused i).eventAt (subEvent 48 4 i) (b.storeRefused i).now := by
    refine Block.event_of_not_severe rfl ?_
    show (b.storeRefused i).rd (FLT_SEV_SEV 48) ≠ 3
    rwa [hrd _ (sevKey_not_event 48), Block.rd_wr_of_ne _ _ _ _ hkey]
  rw [Block.reloadDone_of_unsound hl hhalt hreload hok, hevent, Block.eventAt_rd _ _ _ _ herr, Block.eventAt_rd _ _ _ _ hhalted.2,
    hrd _ herr, hrd _ hhalted.2, Block.rd_wr_self, Block.rd_wr_of_ne _ _ _ _ hhalted.1, Block.eventAt_parts, Block.storeRefused,
    Block.intr_parts]
  exact ⟨rfl, rfl, Block.sub_updSub_self b i SubSt.distrusted⟩

end

/-! ## RESUME (R307) -/

theorem Block.clsCtlActed_resumeWord (b : Block) (w : Word) (i : Nat) (up : Option (Fin 16 × Nat)) :
    b.clsCtlActed i (resumeWord w i) up = b.clsResume i := by
  rw [Block.clsCtlActed, resumeWord_go, resumeWord_resume]
  rfl

/-- A subchannel whose reload has begun again. -/
def SubSt.resumed (u : SubSt) : SubSt := { u with reload := true, stay := false, dead := false }

theorem Block.clsResume_of_halted {b : Block} {s : Nat} (hl : b.chLockstep (s / 2) = false)
    (hhalt : b.on (CLS_STATUS_HALTED s) = true) (hreload : (b.subs.get s).reload = false) :
    b.clsResume s = b.updSub s SubSt.resumed := by
  unfold Block.clsResume
  rw [Block.pair_of_independent hl, forEach_cons, forEach_nil, hhalt, hreload]
  rfl

theorem haltedKey_not_clsCtl : ∀ i : Fin 32, (CLS_STATUS_HALTED i).key ∉ clsCtlKeys i ++ audKeys := by decide

section
variable {s : State} {i : Fin 32} {role : Role} {w : Word}

theorem exec_resume (hg : s.grants role (CLS_CTL_RESUME i).off (resumeWord w i)) :
    exec (.resume role i w) s = .next { s with block :=
      ((((s.block.clsCtlNoted role i (resumeWord w i)).clsResume i).clsCtlDropped i).mgAnswer false 0) } := by
  rw [← Block.clsCtlActed_resumeWord _ w _ default]
  exact writeReg_CLS_CTL default hg

/-- RESUME begins another reload (R307). -/
theorem resume_answers (hl : s.block.chLockstep (i.val / 2) = false) (hhalt : s.block.on (CLS_STATUS_HALTED i) = true)
    (hg : s.grants role (CLS_CTL_RESUME i).off (resumeWord w i)) (hreload : (s.block.subs.get i).reload = false) :
    s.answers (.resume role i w) (fun b =>
      b.subs.get i = (s.block.subs.get i).resumed ∧ (∀ j : Nat, j ≠ i.val → b.subs.get j = s.block.subs.get j)
      ∧ s.block.wrote b (clsCtlKeys i) ∧ b = { s.block with regs := b.regs, mg := b.mg, subs := b.subs }) := by
  refine State.answers_next (exec_resume hg) ?_
  have hnoted := s.block.clsCtlNoted_parts (role := role) (i := i) (w := resumeWord w i)
  have hnhalt := (s.block.clsCtlNoted_regsBut (role := role) (i := i) (w := resumeWord w i)) _ (haltedKey_not_clsCtl i)
  have hwrote {t ks} := Block.wrote_clsCtl (b := s.block) (role := role) (i := i) (w := resumeWord w i) (t := t) (ks := ks)
  generalize s.block.clsCtlNoted role i (resumeWord w i) = n at *
  have himg : n.img = s.block.img := by rw [hnoted]
  have hsubs : n.subs = s.block.subs := by rw [hnoted]
  rw [← Block.chLockstep_congr himg] at hl
  rw [Block.on, ← hnhalt] at hhalt
  rw [← hsubs] at hreload ⊢
  rw [Block.clsResume_of_halted hl hhalt hreload]
  have hrest := hwrote (t := n.updSub i SubSt.resumed) (ks := []) (Block.updSub_mg ..) (fun _ _ => Block.rd_updSub ..)
  have hsub (j : Nat) := n.sub_updSub i j SubSt.resumed
  have hparts : n.updSub i SubSt.resumed = { s.block with
      regs := n.regs, mg := n.mg, subs := (n.updSub i SubSt.resumed).subs } :=
    congrArg (fun c : Block => { c with subs := (n.updSub i SubSt.resumed).subs }) hnoted
  rw [List.append_nil] at hrest
  rw [← n.updSub_regs (n := i) SubSt.resumed, ← n.updSub_mg (n := i) SubSt.resumed] at hparts
  generalize n.updSub i SubSt.resumed = t at *
  refine ⟨?_, fun j hj => ?_, hrest, Block.clsCtlAnswered_of_parts hparts⟩
  · rw [Block.clsCtlAnswered_subs, hsub, if_pos rfl]
  · rw [Block.clsCtlAnswered_subs, hsub, if_neg hj]

end

end Sys2Proof.Machine
end

section
/-! SUPPORT. The clause checker (R304 to R307): the commands it lets pass, and the halt that a fault of it begins. -/

namespace Sys2Proof.Machine

open Reg

/-! ## A fault is recorded (R306) -/

/-- The fields of CLS_VIOL with their values for a fault. -/
def violFields (s : Nat) (v : Viol) : List (Fld × Nat) :=
  [(CLS_VIOL_CLAUSE s, v.clause), (CLS_VIOL_KIND s, if v.mismatch then 1 else 0), (CLS_VIOL_CMD s, v.cls),
    (CLS_VIOL_PHASE s, v.phase), (CLS_VIOL_RANK s, v.rank)]

theorem Block.loadViol_eq (b : Block) (s : Nat) (v : Viol) : b.loadViol s v = b.wrEach (violFields s v) := rfl

/-- A block that shows and counts a fault, before the event of it. -/
def Block.violated (b : Block) (s : Nat) (v : Viol) : Block :=
  (((b.wr (v.bit s) 1).intr 12 (b.on (CLS_CTL_INT_VIOL s))).loadViol s v).bump (CLS_VIOL_CNT_CNT s)

/-- What tells a fault: a violation or a mismatch, and no repeat. -/
def Viol.event (v : Viol) (s : Nat) : Event := subEvent 48 (if v.mismatch then 1 else 0) s

/-- A subchannel that has halted, and whose reload has begun. -/
def SubSt.halted (u : SubSt) : SubSt := { u with reload := true, stay := false }

/-- A block whose subchannel `s` a fault has halted. -/
def Block.haltedBy (b : Block) (s : Nat) (v : Viol) : Block :=
  (((b.violated s v).event0 (v.event s)).updSub s SubSt.halted).wr (CLS_STATUS_HALTED s) 1

/-- Registers that show a fault. -/
def violKeys (v : Viol) (s : Nat) : List Nat :=
  (v.bit s).key :: GLB_INT_PEND_PEND.key :: (CLS_VIOL_CNT_CNT s).key :: (violFields s v).map (fun e => e.1.key)

theorem violKeys_nodup : ∀ (i : Fin 32) (m : Bool), (violKeys ⟨0, m, 0, 0, 0⟩ i).Nodup
    ∧ (CLS_STATUS_HALTED i).key ∉ violKeys ⟨0, m, 0, 0, 0⟩ i ++ eventKeys
    ∧ (FLT_SEV_SEV 48).key ∉ violKeys ⟨0, m, 0, 0, 0⟩ i
    ∧ ∀ k ∈ violKeys ⟨0, m, 0, 0, 0⟩ i, k ≠ GLB_INT_PEND_PEND.key → k ∉ (CLS_STATUS_HALTED i).key :: eventKeys := by decide +kernel

section
variable {b : Block} {i : Fin 32} {v : Viol}

theorem violKeys_distinct : (violKeys v i).Nodup ∧ (CLS_STATUS_HALTED i).key ∉ violKeys v i ++ eventKeys
    ∧ (FLT_SEV_SEV 48).key ∉ violKeys v i
    ∧ ∀ k ∈ violKeys v i, k ≠ GLB_INT_PEND_PEND.key → k ∉ (CLS_STATUS_HALTED i).key :: eventKeys := violKeys_nodup i v.mismatch

theorem Block.violated_rd {g : Fld} (hg : g.key ∉ violKeys v i) : (b.violated i v).rd g = b.rd g := by
  simp only [violKeys, List.mem_cons, not_or] at hg
  obtain ⟨hbit, hpend, hcnt, hfields⟩ := hg
  rw [Block.violated, Block.rd_bump_of_ne _ _ _ hcnt, Block.loadViol_eq, Block.rd_wrEach_of_not_mem _ _ hfields,
    Block.rd_intr _ _ _ _ hpend, Block.rd_wr_of_ne _ _ _ _ hbit]

theorem Block.violated_parts : b.violated i v = { b with regs := (b.violated i v).regs } := by
  rw [Block.violated, Block.loadViol_eq, (Block.wrEach_onlyRegs _ _).1, Block.intr_parts]
  rfl

theorem Block.violated_bit : (b.violated i v).rd (v.bit i) = 1 := by
  have hd := (violKeys_distinct (i := i) (v := v)).1
  simp only [violKeys, List.nodup_cons, List.mem_cons, not_or] at hd
  obtain ⟨⟨hpend, hcnt, hfields⟩, -⟩ := hd
  rw [Block.violated, Block.rd_bump_of_ne _ _ _ hcnt, Block.loadViol_eq, Block.rd_wrEach_of_not_mem _ _ hfields,
    Block.rd_intr _ _ _ _ hpend, Block.rd_wr_self]
  unfold Viol.bit
  split <;> rfl

theorem Block.violated_count : (b.violated i v).rd (CLS_VIOL_CNT_CNT i) = min (b.rd (CLS_VIOL_CNT_CNT i) + 1) 0xFFFFFFFF := by
  have hd := (violKeys_distinct (i := i) (v := v)).1
  simp only [violKeys, List.nodup_cons, List.mem_cons, not_or] at hd
  obtain ⟨⟨-, hbit, -⟩, ⟨hpend, -⟩, hfields, -⟩ := hd
  rw [Block.violated, Block.rd_bump_self, Block.loadViol_eq, Block.rd_wrEach_of_not_mem _ _ hfields,
    Block.rd_intr _ _ _ _ (Ne.symm hpend), Block.rd_wr_of_ne _ _ _ _ (Ne.symm hbit)]
  rfl

theorem Block.violated_field {e : Fld × Nat} (he : e ∈ violFields i v) : (b.violated i v).rd e.1 = e.2 % 2 ^ e.1.width := by
  have hd := (violKeys_distinct (i := i) (v := v)).1
  simp only [violKeys, List.nodup_cons] at hd
  obtain ⟨-, -, hcnt, hfields⟩ := hd
  rw [Block.violated, Block.rd_bump_of_ne _ _ _ (fun h => hcnt (h ▸ List.mem_map_of_mem he)), Block.loadViol_eq]
  exact Block.rd_wrEach_of_mem _ hfields he

/-! ## The halt (R306, R307) -/

theorem Block.sentenceEnd_of_none {b : Block} {s : Nat} (h : (b.subs.get s).snt = none) (outcome : Nat) :
    b.sentenceEnd s outcome = b := by
  rw [Block.sentenceEnd, h]

theorem Block.sevFence_of_not_severe {b : Block} {e : Event} (he : e.sev = none) (h : b.rd (FLT_SEV_SEV e.code) ≠ 3) :
    b.sevFence e = b := by
  have hsev : b.sevOf e = b.rd (FLT_SEV_SEV e.code) := by rw [Block.sevOf, he]
  rw [Block.sevFence, hsev, if_neg h]

/-- A block whose subchannel `s` a fault halts, when the event is told: a sentence ends, and the reload begins. -/
def Block.haltFrom (t : Block) (s : Nat) (v : Viol) : Block :=
  let t := t.sentenceEnd (t.schedOf s) 7
  (forEach (t.pair s) t (fun t j => (t.updSub j SubSt.halted).wr (CLS_STATUS_HALTED j) 1)).sevFence (v.event s)

/-- A fault on a running subchannel without a reload before. -/
theorem Block.haltSub_of_first (hrun : b.on (CLS_STATUS_HALTED i) = false) (hlast : (b.subs.get i).lastReload = none) :
    b.haltSub i v = ((b.violated i v).event0 (v.event i)).haltFrom i v := by
  have hhalted : ((b.wr (v.bit i) 1).intr 12 (b.on (CLS_CTL_INT_VIOL i))).on (CLS_STATUS_HALTED i) = false := by
    have hkey := (violKeys_distinct (i := i) (v := v)).2.1
    simp only [violKeys, List.cons_append, List.mem_cons, not_or] at hkey
    rw [Block.on, Block.rd_intr _ _ _ _ hkey.2.1, Block.rd_wr_of_ne _ _ _ _ hkey.1]
    exact hrun
  unfold Block.haltSub
  dsimp only
  rw [hhalted, hlast]
  rfl

theorem Block.haltFrom_of_running {t : Block} (hl : t.chLockstep (i.val / 2) = false) (hsnt : (t.subs.get i).snt = none)
    (hsev : t.rd (FLT_SEV_SEV 48) ≠ 3) : t.haltFrom i v = (t.updSub i SubSt.halted).wr (CLS_STATUS_HALTED i) 1 := by
  have hsched : t.schedOf i = i := by
    rw [Block.schedOf, hl]
    rfl
  unfold Block.haltFrom
  dsimp only
  rw [hsched, Block.sentenceEnd_of_none hsnt, Block.pair_of_independent hl, forEach_cons, forEach_nil]
  refine Block.sevFence_of_not_severe rfl ?_
  rw [Block.rd_wr_of_ne _ _ _ _ (by simp only [CLS_STATUS_HALTED, FLT_SEV_SEV, Fld.key]; omega), Block.rd_updSub]
  exact hsev

/-- The halt of a running subchannel of its own by a fault: a reload begins, and no repeat is shown. -/
theorem Block.haltSub_of_running (hl : b.chLockstep (i.val / 2) = false) (hrun : b.on (CLS_STATUS_HALTED i) = false)
    (hsnt : (b.subs.get i).snt = none) (hsev : b.rd (FLT_SEV_SEV 48) ≠ 3) (hlast : (b.subs.get i).lastReload = none) :
    b.haltSub i v = b.haltedBy i v := by
  have htold : (b.violated i v).event0 (v.event i) = { b with
      regs := ((b.violated i v).event0 (v.event i)).regs, flt := ((b.violated i v).event0 (v.event i)).flt } := by
    rw [Block.event0, Block.eventAt_parts, Block.violated_parts]
  have hrd : ((b.violated i v).event0 (v.event i)).rd (FLT_SEV_SEV 48) = b.rd (FLT_SEV_SEV 48) := by
    rw [Block.event0, Block.eventAt_rd _ _ _ _ (sevKey_not_event 48), Block.violated_rd violKeys_distinct.2.2.1]
  rw [Block.haltSub_of_first hrun hlast, Block.haltedBy]
  generalize (b.violated i v).event0 (v.event i) = t at *
  refine Block.haltFrom_of_running ?_ ?_ (by rwa [hrd])
  · rwa [Block.chLockstep_congr (by rw [htold])]
  · rwa [htold]

/-- What a fault leaves of subchannel `i` of `b` when it halts it. -/
def Block.haltedFor (b t : Block) (i : Nat) (v : Viol) : Prop :=
  t.rd (CLS_STATUS_HALTED i) = 1 ∧ t.rd (v.bit i) = 1 ∧ t.rd (CLS_VIOL_CLAUSE i) = v.clause % 128
  ∧ t.rd (CLS_VIOL_KIND i) = (if v.mismatch then 1 else 0) % 2 ∧ t.rd (CLS_VIOL_CMD i) = v.cls % 32
  ∧ t.rd (CLS_VIOL_RANK i) = v.rank % 8
  ∧ t.rd (CLS_VIOL_CNT_CNT i) = min (b.rd (CLS_VIOL_CNT_CNT i) + 1) 0xFFFFFFFF ∧ (t.flt.recs.get 48).valid = true
  ∧ t.subs.get i = (b.subs.get i).halted

theorem Block.haltedBy_rd {g : Fld} (hg : g.key ∉ (CLS_STATUS_HALTED i).key :: eventKeys) :
    (b.haltedBy i v).rd g = (b.violated i v).rd g := by
  rw [List.mem_cons, not_or] at hg
  rw [Block.haltedBy, Block.rd_wr_of_ne _ _ _ _ hg.1, Block.rd_updSub]
  exact Block.eventAt_rd _ _ _ _ hg.2

theorem Block.haltedBy_rec : ((b.haltedBy i v).flt.recs.get 48).valid = true := by
  rw [Block.haltedBy, Block.wr_flt, Block.updSub_flt]
  exact (Block.eventAt_rec _ (v.event i) _).1

theorem Block.haltedBy_sub : (b.haltedBy i v).subs.get i = (b.subs.get i).halted := by
  have hsubs : ((b.violated i v).event0 (v.event i)).subs = b.subs := by
    rw [Block.event0, Block.eventAt_parts, Block.violated_parts]
  rw [Block.haltedBy]
  generalize (b.violated i v).event0 (v.event i) = t at *
  exact (Block.sub_updSub_self t i SubSt.halted).trans (by rw [hsubs])

theorem Block.haltedBy_violField {e : Fld × Nat} (he : e ∈ violFields i v) : (b.haltedBy i v).rd e.1 = e.2 % 2 ^ e.1.width := by
  obtain ⟨hnodup, -, -, hkeep⟩ := violKeys_distinct (i := i) (v := v)
  simp only [violKeys, List.nodup_cons, List.mem_cons, not_or] at hnodup
  obtain ⟨-, ⟨-, hfields⟩, -⟩ := hnodup
  have hmem : e.1.key ∈ (violFields i v).map (fun e => e.1.key) := List.mem_map_of_mem he
  have hkey : e.1.key ∈ violKeys v i := List.mem_cons_of_mem _ (List.mem_cons_of_mem _ (List.mem_cons_of_mem _ hmem))
  rw [Block.haltedBy_rd (hkeep _ hkey (fun h => hfields (h ▸ hmem))), Block.violated_field he]

/-- A field of CLS_VIOL, by its place in the list. -/
theorem Block.haltedBy_field {f : Fld} {x : Nat} (k : Nat) (hf : (violFields i v)[k]? = some (f, x)) :
    (b.haltedBy i v).rd f = x % 2 ^ f.width := Block.haltedBy_violField (e := (f, x)) (List.mem_of_getElem? hf)

theorem Block.haltedFor_haltedBy : b.haltedFor (b.haltedBy i v) i v := by
  obtain ⟨hnodup, -, -, hkeep⟩ := violKeys_distinct (i := i) (v := v)
  simp only [violKeys, List.nodup_cons, List.mem_cons, not_or] at hnodup
  obtain ⟨⟨hbit, -⟩, ⟨hcnt, -⟩, -⟩ := hnodup
  refine ⟨Block.rd_wr_self _ _ _, ?_, Block.haltedBy_field 0 rfl, Block.haltedBy_field 1 rfl, Block.haltedBy_field 2 rfl,
    Block.haltedBy_field 4 rfl, ?_, Block.haltedBy_rec, Block.haltedBy_sub⟩
  · rw [Block.haltedBy_rd (hkeep _ (by simp [violKeys]) hbit), Block.violated_bit]
  · rw [Block.haltedBy_rd (hkeep _ (by simp [violKeys]) (Ne.symm hcnt)), Block.violated_count]

end

/-! ## The checker (R304, R305) -/

/-- A subchannel whose checker has taken the command `c`, the only one it had not seen. -/
def SubSt.clauseChecked (u : SubSt) (c : HistCmd) : SubSt :=
  { u with toCheck := [], chkHist := u.chkHist.filter (fun e => decide (c.pos ≤ e.pos + 8184)) ++ [c] }

/-- What the checker says to the command `c` of subchannel `s`: the clause that forbids it, if any does. -/
def Block.checkVerdict (b : Block) (s : Nat) (c : HistCmd) : Option Nat :=
  clauseAgainst (clausesOf (b.subs.get s).shadow) s (b.subs.get s).chkHist (b.sibChecked s (c.pos / 8)) c

/-- The fault of a command `c` that clause `k` forbids. -/
def HistCmd.viol (c : HistCmd) (k : Nat) : Viol := ⟨k, false, c.cls, c.pos % 8 / 4, c.rank⟩

section
variable {b : Block} {i : Fin 32} {c : HistCmd}

theorem Block.clauseCheck_of_single (hc : (b.subs.get i).toCheck = [c]) : b.clauseCheck i =
    match b.checkVerdict i c with
    | none => b.updSub i (fun u => u.clauseChecked c)
    | some k => (b.updSub i (fun u => u.clauseChecked c)).haltSub i (c.viol k) := by
  have htaken : takeFirst (fun x => x == c) [c] = some (c, []) := if_pos (beq_self_eq_true c)
  unfold Block.clauseCheck
  dsimp only
  rw [hc]
  dsimp only [List.foldl]
  rw [htaken]
  rfl

/-- A subchannel whose comparison has moved on by a clause. -/
def SubSt.compared (u : SubSt) : SubSt := { u with cmp := (u.cmp + 1) % 128 }

theorem Block.clauseCompare_eq (b : Block) (s : Nat) (parity : Bool) : b.clauseCompare s parity =
    if parity || clauseWord (b.activeSet s) (b.subs.get s).cmp != clauseWord (b.subs.get s).shadow (b.subs.get s).cmp then
      (b.updSub s SubSt.compared).haltSub s ⟨(b.subs.get s).cmp, true, 0, 0, 0⟩
    else b.updSub s SubSt.compared := rfl

/-- A fault that a change of subchannel `i` comes with halts it, where the change begins no sentence and tells no reload. -/
theorem Block.haltedFor_updSub {f : SubSt → SubSt} {v : Viol} (hl : b.chLockstep (i.val / 2) = false)
    (hrun : b.on (CLS_STATUS_HALTED i) = false) (hsev : b.rd (FLT_SEV_SEV 48) ≠ 3) (hsnt : (f (b.subs.get i)).snt = none)
    (hlast : (f (b.subs.get i)).lastReload = none) : (b.updSub i f).haltedFor ((b.updSub i f).haltSub i v) i v := by
  rw [← Block.chLockstep_congr (b.updSub_img i f)] at hl
  rw [← b.sub_updSub_self i f] at hsnt hlast
  rw [Block.haltSub_of_running hl hrun hsnt hsev hlast]
  exact Block.haltedFor_haltedBy

end

section
variable {s : State} {i : Fin 32}

/-- The checker takes an allowed command into its history, and changes nothing else (R304). -/
theorem clauseCheck_of_allowed_answers {c : HistCmd} (hc : (s.block.subs.get i).toCheck = [c])
    (h : s.block.checkVerdict i c = none) : s.answers (.clauseCheck i) (fun b =>
      b.subs.get i = (s.block.subs.get i).clauseChecked c ∧ (∀ j : Nat, j ≠ i.val → b.subs.get j = s.block.subs.get j)
      ∧ b = { s.block with subs := b.subs }) := by
  refine State.answers_onBlock (f := fun b => b.clauseCheck i) rfl ?_
  rw [Block.clauseCheck_of_single hc, h]
  exact ⟨Block.sub_updSub_self .., fun j hj => (Block.sub_updSub ..).trans (if_neg hj), rfl⟩

/-- An equal clause only moves the comparison on (R305). -/
theorem clauseCompare_of_equal_answers
    (h : clauseWord (s.block.activeSet i) (s.block.subs.get i).cmp = clauseWord (s.block.subs.get i).shadow (s.block.subs.get i).cmp) :
    s.answers (.clauseCompare i false) (fun b =>
      b.subs.get i = (s.block.subs.get i).compared ∧ b = { s.block with subs := b.subs }) := by
  refine State.answers_onBlock (f := fun b => b.clauseCompare i false) rfl ?_
  rw [Block.clauseCompare_eq, Bool.false_or, if_neg (by simpa using h)]
  exact ⟨Block.sub_updSub_self .., rfl⟩

/-- A command that the shadow forbids halts the subchannel (R306). -/
theorem clauseCheck_of_forbidden_answers (hl : s.block.chLockstep (i.val / 2) = false)
    (hrun : s.block.on (CLS_STATUS_HALTED i) = false) (hsnt : (s.block.subs.get i).snt = none)
    (hsev : s.block.rd (FLT_SEV_SEV 48) ≠ 3)
    (hlast : (s.block.subs.get i).lastReload = none) {c : HistCmd} {k : Nat} (hc : (s.block.subs.get i).toCheck = [c])
    (h : s.block.checkVerdict i c = some k) : s.answers (.clauseCheck i) (fun b =>
      (s.block.updSub i (fun u => u.clauseChecked c)).haltedFor b i (c.viol k)) := by
  refine State.answers_onBlock (f := fun b => b.clauseCheck i) rfl ?_
  rw [Block.clauseCheck_of_single hc, h]
  exact Block.haltedFor_updSub hl hrun hsev hsnt hlast

/-- A difference between the active slot and the shadow halts the subchannel (R305, R306). -/
theorem clauseCompare_of_different_answers (hl : s.block.chLockstep (i.val / 2) = false)
    (hrun : s.block.on (CLS_STATUS_HALTED i) = false) (hsnt : (s.block.subs.get i).snt = none)
    (hsev : s.block.rd (FLT_SEV_SEV 48) ≠ 3)
    (hlast : (s.block.subs.get i).lastReload = none) (parity : Bool)
    (h : clauseWord (s.block.activeSet i) (s.block.subs.get i).cmp
      ≠ clauseWord (s.block.subs.get i).shadow (s.block.subs.get i).cmp) :
    s.answers (.clauseCompare i parity) (fun b =>
      (s.block.updSub i SubSt.compared).haltedFor b i ⟨(s.block.subs.get i).cmp, true, 0, 0, 0⟩) := by
  refine State.answers_onBlock (f := fun b => b.clauseCompare i parity) rfl ?_
  rw [Block.clauseCompare_eq, if_pos (by simp [h])]
  exact Block.haltedFor_updSub hl hrun hsev hsnt hlast

end

end Sys2Proof.Machine
end

section
/-! SUPPORT. Sentence calls and starts (R312, R313). -/

namespace Sys2Proof.Machine

open Reg

/-! ## A write of SNT_CALL_CTL -/

/-- The fields of SNT_CALL_CTL of subchannel `i` with what a word holds of them. -/
def sntCallFields (i : Nat) (w : Word) : List (Fld × Nat) :=
  [SNT_CALL_CTL_GO i, SNT_CALL_CTL_RANKS i, SNT_CALL_CTL_URGENT i, SNT_CALL_CTL_SENTENCE i].map (fun f => (f, fieldOf w f))

theorem Block.performReg_SNT_CALL_CTL (b : Block) (role : Role) (i : Fin 32) (old : Nat) (w : Word) (x : Aux) :
    b.performReg role reg_SNT_CALL_CTL [i.val] (SNT_CALL_CTL_GO i).off old w x
      = (if bitOf w.toNat 31 then (b.wrEach (sntCallFields i w)).sentenceCall i else b.wrEach (sntCallFields i w)).wr
          (SNT_CALL_CTL_GO i) 0 := by
  unfold Block.performReg
  rw [if_neg (by simp [Block.deafInstance, Block.idleInstance, reg_SNT_CALL_CTL]), if_neg (by simp [isMnt, reg_SNT_CALL_CTL]),
    if_neg (by simp [reg_SNT_CALL_CTL])]
  rfl

/-- A granted SNT_CALL_CTL: recorded, and its fields stored. -/
def Block.sntCallNoted (b : Block) (role : Role) (i : Nat) (w : Word) : Block :=
  (b.noted role reg_SNT_CALL_CTL (SNT_CALL_CTL_GO i).off w).wrEach (sntCallFields i w)

/-- The word of a call. -/
def callWord (w : Word) (i : Nat) : Word := withField w (SNT_CALL_CTL_GO i) 1

theorem callWord_go (w : Word) (i : Nat) : bitOf (callWord w i).toNat 31 = true := by
  have hgo : bitOf (callWord w i).toNat 31 = (fieldOf (callWord w i) (SNT_CALL_CTL_GO i) == 1) := bitOf_eq_field ..
  rw [hgo, callWord, fieldOf_withField_self _ _ _ (by simp [SNT_CALL_CTL_GO]) (by simp [SNT_CALL_CTL_GO])]
  rfl

theorem callWord_field (w : Word) (i : Nat) (f : Fld) (hoff : f.lo + f.width ≤ 31) : fieldOf (callWord w i) f = fieldOf w f :=
  fieldOf_withField_of_ne _ _ _ _ (by omega) (by simp [SNT_CALL_CTL_GO]) (.inl hoff)

section
variable {s : State} {b : Block} {role : Role} {i : Fin 32} {w : Word}

theorem exec_sentenceCall (hg : s.grants role (SNT_CALL_CTL_GO i).off (callWord w i)) :
    exec (.sentenceCall role i w) s = .next { s with block :=
      (((s.block.sntCallNoted role i (callWord w i)).sentenceCall i).wr (SNT_CALL_CTL_GO i) 0).mgAnswer false 0 } := by
  have hroom : s.block.recRoom (1 + s.block.fenceRecs reg_SNT_CALL_CTL.name (callWord w i).toNat) = true := hg.2.2.2
  have hoff : (SNT_CALL_CTL_GO i).off = 0x78000 + 0x20 * i.val := rfl
  exact (writeReg_go default hg (find_SNT_CALL_CTL i) (by omega) (by omega) (by decide) hroom).trans
    (by rw [Block.written, Block.performReg_SNT_CALL_CTL, if_pos (callWord_go w i)]; rfl)

theorem Block.sntCallNoted_parts : b.sntCallNoted role i w
    = { b with regs := (b.sntCallNoted role i w).regs, mg := (b.sntCallNoted role i w).mg } := by
  rw [Block.sntCallNoted, (Block.wrEach_onlyRegs _ _).1, Block.noted_parts]

/-- The fields of SNT_CALL_CTL. -/
def sntCallKeys (i : Nat) : List Nat :=
  [(SNT_CALL_CTL_GO i).key, (SNT_CALL_CTL_RANKS i).key, (SNT_CALL_CTL_URGENT i).key, (SNT_CALL_CTL_SENTENCE i).key]

/-- The registers that say whether subchannel `i` takes a call, and the arguments of one. -/
def callRegs (i : Nat) : List Fld :=
  [SNT_CALL_STATUS_BUSY i, SNT_CALL_ARG_ARG i, FLT_FENCE_SUB_U, PWR_CH_STATUS_STATE (i / 2), CLS_STATUS_HALTED i]

theorem callFields_distinct : ∀ i : Fin 32, (sntCallKeys i).Nodup ∧ (∀ f ∈ callRegs i, f.key ∉ sntCallKeys i ++ audKeys)
    ∧ (SNT_CALL_STATUS_BUSY i).key ≠ (PWR_CH_STATUS_WAKE_LATCHED (i.val / 2)).key
    ∧ (SNT_CALL_STATUS_BUSY i).key ≠ (PWR_CH_STATUS_MOVING (i.val / 2)).key
    ∧ [(SNT_CALL_STATUS_BUSY i).key, (SNT_CALL_STATUS_OUTCOME i).key, (SNT_CALL_STATUS_STEP i).key, GLB_INT_PEND_PEND.key,
        (SNT_CALL_CTL_GO i).key].Nodup := by
  decide +kernel

theorem callGo_distinct (i : Nat) : (SNT_CALL_STATUS_BUSY i).key ≠ (SNT_CALL_CTL_GO i).key
    ∧ (SNT_CALL_STATUS_OUTCOME i).key ≠ (SNT_CALL_CTL_GO i).key := by
  simp only [SNT_CALL_STATUS_BUSY, SNT_CALL_STATUS_OUTCOME, SNT_CALL_CTL_GO, Fld.key]
  omega

theorem Block.sntCallNoted_rd {g : Fld} (hg : g.key ∉ sntCallKeys i ++ audKeys) : (b.sntCallNoted role i w).rd g = b.rd g := by
  rw [List.mem_append, not_or] at hg
  rw [Block.sntCallNoted, Block.rd_wrEach_of_not_mem _ _ hg.1, Block.noted_rd _ _ _ _ _ _ hg.2]

theorem Block.sntCallNoted_field {f : Fld} (k : Nat) (hf : (sntCallFields i w)[k]? = some (f, fieldOf w f)) :
    (b.sntCallNoted role i w).rd f = fieldOf w f :=
  (Block.rd_wrEach_of_mem _ (l := sntCallFields i w) (callFields_distinct i).1 (e := (f, fieldOf w f))
    (List.mem_of_getElem? hf)).trans (Nat.mod_mod _ _)

end

/-! ## Calls (R312, R313) -/

/-- The request that SNT_CALL_CTL and SNT_CALL_ARG of subchannel `s` show. -/
def Block.callReq (b : Block) (s : Nat) : SntReq :=
  ⟨b.rd (SNT_CALL_CTL_SENTENCE s), b.rd (SNT_CALL_CTL_RANKS s), b.rd (SNT_CALL_ARG_ARG s), b.on (SNT_CALL_CTL_URGENT s), .software⟩

/-- Subchannel `s` takes a call: none of software runs, the queue has room, and no sentence is refused on it (R313). -/
structure Block.takesCall (b : Block) (s : Nat) : Prop where
  idle : b.rd (SNT_CALL_STATUS_BUSY s) = 0
  room : (b.subs.get s).sntQ.length < 4
  unfenced : b.subFenced s = false
  powered : b.chState (s / 2) ≠ pwOFF
  running : b.on (CLS_STATUS_HALTED s) = false
  alone : b.chLockstep (s / 2) = false

/-- A subchannel with one more request in its queue. -/
def SubSt.withRequest (u : SubSt) (q : SntReq) : SubSt := { u with sntQ := u.sntQ ++ [q] }

/-- The block with a call of software in the queue of subchannel `s`. -/
def Block.callQueued (b : Block) (s : Nat) : Block :=
  ((b.updSub s (fun u => u.withRequest (b.callReq s))).wr (SNT_CALL_STATUS_BUSY s) 1).wake (s / 2)

theorem Block.sentenceCall_of_idle {b : Block} {s : Nat} (h : b.rd (SNT_CALL_STATUS_BUSY s) = 0) :
    b.sentenceCall s = b.sntRequest s (b.callReq s) := by
  have hoff : b.on (SNT_CALL_STATUS_BUSY s) = false := by
    rw [Block.on, h]
    rfl
  rw [Block.sentenceCall, hoff]
  rfl

theorem Block.sentenceCall_of_held {b : Block} {s : Nat} (h : b.takesCall s)
    (ht : (b.sentence (b.rd (SNT_CALL_CTL_SENTENCE s))).isEmpty = false) : b.sentenceCall s = b.callQueued s := by
  have hroom : ¬ 4 ≤ (b.subs.get s).sntQ.length := Nat.not_le.mpr h.room
  have htext : (b.sentence (b.callReq s).num).isEmpty = false := ht
  rw [Block.sentenceCall_of_idle h.idle]
  unfold Block.sntRequest
  dsimp only
  rw [if_neg (by simp [hroom]), htext, if_neg Bool.false_ne_true, if_neg (by simp [h.unfenced, h.powered, h.running, h.alone])]
  rfl

theorem Block.sentenceCall_of_missing {b : Block} {s : Nat} (h : b.takesCall s)
    (ht : (b.sentence (b.rd (SNT_CALL_CTL_SENTENCE s))).isEmpty = true) : b.sentenceCall s = b.sntRefused s 4 .software := by
  have hroom : ¬ 4 ≤ (b.subs.get s).sntQ.length := Nat.not_le.mpr h.room
  have htext : (b.sentence (b.callReq s).num).isEmpty = true := ht
  rw [Block.sentenceCall_of_idle h.idle]
  unfold Block.sntRequest
  dsimp only
  rw [if_neg (by simp [hroom]), htext, if_pos rfl]
  rfl

section
variable {b : Block} {i : Fin 32}

theorem Block.callQueued_busy : (b.callQueued i).rd (SNT_CALL_STATUS_BUSY i) = 1 := by
  obtain ⟨-, -, hlatched, hmoving, -⟩ := callFields_distinct i
  exact (Block.wake_rd _ _ hlatched hmoving).trans (Block.rd_wr_self _ _ _)

theorem Block.callQueued_sub (j : Nat) : (b.callQueued i).subs.get j =
    if j = i.val then (b.subs.get i).withRequest (b.callReq i) else b.subs.get j := by
  rw [Block.callQueued, Block.wake_parts]
  exact b.sub_updSub i j (fun u => u.withRequest (b.callReq i))

/-- A refused call of software ends at once: its outcome shows, and nothing is queued (R313). -/
theorem Block.sntRefused_call : (b.sntRefused i 4 .software).rd (SNT_CALL_STATUS_BUSY i) = 0
    ∧ (b.sntRefused i 4 .software).rd (SNT_CALL_STATUS_OUTCOME i) = 4 ∧ (b.sntRefused i 4 .software).subs = b.subs := by
  have hkeys := (callFields_distinct i).2.2.2.2
  simp only [List.nodup_cons, List.mem_cons, not_or] at hkeys
  obtain ⟨⟨hbo, hbs, hbp, -⟩, ⟨hos, hop, -⟩, -⟩ := hkeys
  have hself := ((b.wr (SNT_CALL_STATUS_BUSY i) 0).rd_wr_self (SNT_CALL_STATUS_OUTCOME i) 4)
  rw [Block.sntRefused, if_pos rfl]
  dsimp only
  rw [Block.rd_intr _ _ _ _ hbp, Block.rd_intr _ _ _ _ hop, Block.rd_wr_of_ne _ _ _ _ hbs, Block.rd_wr_of_ne _ _ _ _ hos,
    Block.rd_wr_of_ne _ _ _ _ hbo, Block.rd_wr_self, hself, Block.intr_parts]
  exact ⟨rfl, rfl, rfl⟩

end

section
variable {s : State} {role : Role} {i : Fin 32} {w : Word}

/-- The facts of a call stand as they were when its word has been stored. -/
theorem Block.takesCall_noted {b : Block} (h : b.takesCall i) : (b.sntCallNoted role i w).takesCall i := by
  have hrd (f : Fld) (hf : f ∈ callRegs i) : (b.sntCallNoted role i w).rd f = b.rd f :=
    Block.sntCallNoted_rd ((callFields_distinct i).2.1 f hf)
  have hparts := b.sntCallNoted_parts (role := role) (i := i) (w := w)
  generalize b.sntCallNoted role i w = n at *
  have hsubs : n.subs = b.subs := by rw [hparts]
  have himg : n.img = b.img := by rw [hparts]
  constructor
  · rw [hrd _ (by simp [callRegs])]
    exact h.idle
  · rw [hsubs]
    exact h.room
  · rw [Block.subFenced, Block.bit, hrd _ (by simp [callRegs])]
    exact h.unfenced
  · rw [Block.chState, hrd _ (by simp [callRegs])]
    exact h.powered
  · rw [Block.on, hrd _ (by simp [callRegs])]
    exact h.running
  · rw [Block.chLockstep_congr himg]
    exact h.alone

/-- The request of a call, as the word and SNT_CALL_ARG give it (R312). -/
theorem Block.callReq_noted {b : Block} : (b.sntCallNoted role i (callWord w i)).callReq i =
    ⟨w.toNat % 64, bitsOf w.toNat 23 16, b.rd (SNT_CALL_ARG_ARG i), bitOf w.toNat 8, .software⟩ := by
  have hfield {f : Fld} (k : Nat) (hf : (sntCallFields i (callWord w i))[k]? = some (f, fieldOf (callWord w i) f))
      (hoff : f.lo + f.width ≤ 31) : (b.sntCallNoted role i (callWord w i)).rd f = fieldOf w f :=
    (Block.sntCallNoted_field k hf).trans (callWord_field w i f hoff)
  have hranks := hfield (f := SNT_CALL_CTL_RANKS i) 1 rfl (by simp [SNT_CALL_CTL_RANKS])
  have hurgent := hfield (f := SNT_CALL_CTL_URGENT i) 2 rfl (by simp [SNT_CALL_CTL_URGENT])
  have hnum := hfield (f := SNT_CALL_CTL_SENTENCE i) 3 rfl (by simp [SNT_CALL_CTL_SENTENCE])
  have harg := b.sntCallNoted_rd (role := role) (w := callWord w i)
    ((callFields_distinct i).2.1 (SNT_CALL_ARG_ARG i) (by simp [callRegs]))
  have hbit : (fieldOf w (SNT_CALL_CTL_URGENT i) != 0) = bitOf w.toNat 8 := by
    show (w.toNat >>> 8 % 2 != 0) = (w.toNat >>> 8 % 2 == 1)
    rcases Nat.mod_two_eq_zero_or_one (w.toNat >>> 8) with h | h <;> rw [h] <;> rfl
  rw [Block.callReq, Block.on, hranks, hurgent, hnum, harg, hbit]
  rfl

/-- The block `n`, into which the word `w` of a call has been stored, takes it as `b` would, and shows its request. -/
def Block.callStored (b n : Block) (i : Nat) (w : Word) : Prop :=
  n.takesCall i ∧ n.callReq i = ⟨w.toNat % 64, bitsOf w.toNat 23 16, b.rd (SNT_CALL_ARG_ARG i), bitOf w.toNat 8, .software⟩
  ∧ n.subs = b.subs ∧ ∀ k : Nat, n.sentence k = b.sentence k

theorem Block.callStored_noted {b : Block} (h : b.takesCall i) : b.callStored (b.sntCallNoted role i (callWord w i)) i w := by
  have hparts := b.sntCallNoted_parts (role := role) (i := i) (w := callWord w i)
  refine ⟨Block.takesCall_noted h, Block.callReq_noted, ?_, fun k => ?_⟩
  · rw [hparts]
  · rw [Block.sentence, Block.sentence, Block.sec, Block.sec, hparts]

theorem Block.callAnswered_rd (t : Block) {g : Fld} (hg : g.key ≠ (SNT_CALL_CTL_GO i).key) :
    ((t.wr (SNT_CALL_CTL_GO i) 0).mgAnswer false 0).rd g = t.rd g := by
  rw [Block.mgAnswer_rd, Block.rd_wr_of_ne _ _ _ _ hg]

theorem Block.callAnswered_subs (t : Block) : ((t.wr (SNT_CALL_CTL_GO i) 0).mgAnswer false 0).subs = t.subs := by
  rw [Block.mgAnswer, Block.wr_subs]

/-- A held sentence joins the queue and sets BUSY (R312, R313). -/
theorem sentenceCall_of_held_answers (hg : s.grants role (SNT_CALL_CTL_GO i).off (callWord w i)) (h : s.block.takesCall i)
    (ht : (s.block.sentence (w.toNat % 64)).isEmpty = false) : s.answers (.sentenceCall role i w) (fun b =>
      b.acked ∧ b.rd (SNT_CALL_STATUS_BUSY i) = 1
      ∧ b.subs.get i = (s.block.subs.get i).withRequest
          ⟨w.toNat % 64, bitsOf w.toNat 23 16, s.block.rd (SNT_CALL_ARG_ARG i), bitOf w.toNat 8, .software⟩
      ∧ ∀ j : Nat, j ≠ i.val → b.subs.get j = s.block.subs.get j) := by
  refine State.answers_next (exec_sentenceCall hg) ?_
  obtain ⟨hbusy, -⟩ := callGo_distinct i
  have hstored := Block.callStored_noted (role := role) (w := w) h
  generalize s.block.sntCallNoted role i (callWord w i) = n at *
  obtain ⟨htakes, hreq, hsubs, hsentence⟩ := hstored
  have hnum : n.rd (SNT_CALL_CTL_SENTENCE i) = w.toNat % 64 := congrArg SntReq.num hreq
  rw [Block.sentenceCall_of_held htakes (by rw [hsentence, hnum, ht])]
  refine ⟨Block.mgAnswer_acked .., by rw [Block.callAnswered_rd _ hbusy, Block.callQueued_busy], ?_, fun j hj => ?_⟩
  · rw [Block.callAnswered_subs, Block.callQueued_sub, if_pos rfl, hreq, hsubs]
  · rw [Block.callAnswered_subs, Block.callQueued_sub, if_neg hj, hsubs]

/-- A missing sentence ends at once with outcome 4 (R313). -/
theorem sentenceCall_of_missing_answers (hg : s.grants role (SNT_CALL_CTL_GO i).off (callWord w i)) (h : s.block.takesCall i)
    (ht : (s.block.sentence (w.toNat % 64)).isEmpty = true) : s.answers (.sentenceCall role i w) (fun b =>
      b.acked ∧ b.rd (SNT_CALL_STATUS_BUSY i) = 0 ∧ b.rd (SNT_CALL_STATUS_OUTCOME i) = 4 ∧ b.subs = s.block.subs) := by
  refine State.answers_next (exec_sentenceCall hg) ?_
  obtain ⟨hbusy, houtcome⟩ := callGo_distinct i
  have hstored := Block.callStored_noted (role := role) (w := w) h
  generalize s.block.sntCallNoted role i (callWord w i) = n at *
  obtain ⟨htakes, hreq, hsubs, hsentence⟩ := hstored
  have hnum : n.rd (SNT_CALL_CTL_SENTENCE i) = w.toNat % 64 := congrArg SntReq.num hreq
  rw [Block.sentenceCall_of_missing htakes (by rw [hsentence, hnum, ht])]
  obtain ⟨hidle, hout, hrefused⟩ := n.sntRefused_call (i := i)
  exact ⟨Block.mgAnswer_acked .., by rw [Block.callAnswered_rd _ hbusy, hidle], by rw [Block.callAnswered_rd _ houtcome, hout],
    by rw [Block.callAnswered_subs, hrefused, hsubs]⟩

end

/-! ## The start of a sentence (R312, R313) -/

/-- The run of a request that begins: its urgency fixed, and its text that of the image. -/
def Block.runOf (b : Block) (q : SntReq) : SntRun :=
  { (default : SntRun) with req := { q with urgent := b.sntIsUrgent q }, text := b.sentence q.num }

/-- The fields of SNT_RUN with their values for a request that begins. -/
def startFields (b : Block) (s : Nat) (q : SntReq) : List (Fld × Nat) :=
  [(SNT_RUN_BUSY s, 1), (SNT_RUN_SOURCE s, if decide (q.why = .software) then 1 else 0),
    (SNT_RUN_URGENT s, if b.sntIsUrgent q then 1 else 0), (SNT_RUN_SENTENCE s, q.num), (SNT_RUN_STEP s, 0)]

/-- A subchannel on which a run has left its queue to the requests `rest`. -/
def SubSt.running (u : SubSt) (run : SntRun) (rest : List SntReq) : SubSt := { u with sntQ := rest, snt := some run }

/-- The block on which the request `q` has begun. -/
def Block.sentenceBegun (b : Block) (s : Nat) (q : SntReq) (rest : List SntReq) : Block :=
  (b.updSub s (fun u => u.running (b.runOf q) rest)).wrEach (startFields b s q)

/-- The block on which the request `q` runs, its step in progress that of `run`. -/
def Block.sentenceRuns (b : Block) (s : Nat) (q : SntReq) (run : SntRun) (rest : List SntReq) : Block :=
  ((b.sentenceBegun s q rest).updSub s (fun u => { u with snt := some run })).wr (SNT_RUN_STEP s) run.step

/-- The first request of the queue is the one that starts: it is urgent, or alone, and nothing holds it (R312). -/
theorem find_of_first {q : SntReq} {rest : List SntReq} {urgent free : SntReq → Bool} (h : urgent q = true ∨ rest = [])
    (hfree : free q = true) :
    ((q :: rest).filter urgent ++ (q :: rest).filter (fun r => !urgent r)).find? free = some q := by
  by_cases hu : urgent q = true
  · rw [List.filter_cons_of_pos hu, List.cons_append, List.find?_cons_of_pos hfree]
  · obtain rfl := h.resolve_left hu
    rw [List.filter_cons_of_neg hu, List.filter_cons_of_pos (by simpa using hu), List.filter_nil, List.nil_append,
      List.find?_cons_of_pos hfree]

section
variable {b : Block} {s : Nat} {q : SntReq} {rest : List SntReq} {run : SntRun}

theorem Block.sentenceStart_of_first (hq : (b.subs.get s).sntQ = q :: rest) (hfirst : b.sntIsUrgent q = true ∨ rest = [])
    (hheld : b.sntHeld s q = false) (hsnt : (b.subs.get s).snt = none) (hfence : q.why.ofTraining = true ∨ b.subFenced s = false)
    (hrun : b.on (CLS_STATUS_HALTED s) = false) (hseek : b.seekStep s 257 (b.runOf q) = some run) :
    b.sentenceStart s = b.sentenceRuns s q run rest := by
  have hfree : (!b.sntHeld s q && (q.why.ofTraining || !b.subFenced s)) = true := by
    rw [hheld]
    rcases hfence with h | h <;> simp [h]
  have htaken : takeFirst (fun x => x == q) (q :: rest) = some (q, rest) := if_pos (beq_self_eq_true q)
  have hranks : (b.sentenceBegun s q rest).subRanks s = b.subRanks s := by
    rw [Block.sentenceBegun, (Block.wrEach_onlyRegs _ _).1]
    rfl
  have hseek' := (Block.seekStep_congr hranks 257 (b.runOf q)).trans hseek
  unfold Block.sentenceStart
  dsimp only
  rw [hq, hsnt, hrun, find_of_first hfirst hfree]
  dsimp only
  rw [htaken]
  change (match (b.sentenceBegun s q rest).seekStep s 257 (b.runOf q) with
    | some r => ((b.sentenceBegun s q rest).updSub s (fun u => { u with snt := some r })).wr (SNT_RUN_STEP s) r.step
    | none => (b.sentenceBegun s q rest).sentenceEnd s 0) = _
  rw [hseek']
  rfl

end

/-- The fields of SNT_RUN that a start sets. -/
def startKeys (i : Nat) : List Nat :=
  [(SNT_RUN_BUSY i).key, (SNT_RUN_SOURCE i).key, (SNT_RUN_URGENT i).key, (SNT_RUN_SENTENCE i).key, (SNT_RUN_STEP i).key]

theorem runKeys_ne_step (i : Nat) : (SNT_RUN_BUSY i).key ≠ (SNT_RUN_STEP i).key
    ∧ (SNT_RUN_SOURCE i).key ≠ (SNT_RUN_STEP i).key ∧ (SNT_RUN_SENTENCE i).key ≠ (SNT_RUN_STEP i).key := by
  simp only [SNT_RUN_BUSY, SNT_RUN_SOURCE, SNT_RUN_SENTENCE, SNT_RUN_STEP, Fld.key]
  omega

theorem startKeys_nodup : ∀ i : Fin 32, (startKeys i).Nodup := by decide

section
variable {b : Block} {i : Fin 32} {q : SntReq} {rest : List SntReq} {run : SntRun}

theorem Block.sentenceRuns_field {f : Fld} {v : Nat} (k : Nat) (hf : (startFields b i q)[k]? = some (f, v))
    (hne : f.key ≠ (SNT_RUN_STEP i).key) : (b.sentenceRuns i q run rest).rd f = v % 2 ^ f.width := by
  rw [Block.sentenceRuns, Block.rd_wr_of_ne _ _ _ _ hne, Block.rd_updSub, Block.sentenceBegun]
  exact Block.rd_wrEach_of_mem _ (l := startFields b i q) (startKeys_nodup i) (e := (f, v)) (List.mem_of_getElem? hf)

theorem Block.sentenceRuns_regsBut : b.regsBut (b.sentenceRuns i q run rest) (startKeys i) := by
  intro g hg
  rw [Block.sentenceRuns, Block.rd_wr_of_ne _ _ _ _ (fun h => hg (by simp [startKeys, h])), Block.rd_updSub, Block.sentenceBegun,
    Block.rd_wrEach_of_not_mem _ _ hg, Block.rd_updSub]

theorem Block.sentenceRuns_sub (j : Nat) : (b.sentenceRuns i q run rest).subs.get j =
    if j = i.val then (b.subs.get i).running run rest else b.subs.get j := by
  have hbegun (j : Nat) : (b.sentenceBegun i q rest).subs.get j =
      if j = i.val then (b.subs.get i).running (b.runOf q) rest else b.subs.get j := by
    rw [Block.sentenceBegun, Block.wrEach_subs]
    exact b.sub_updSub i j (fun u => u.running (b.runOf q) rest)
  rw [Block.sentenceRuns, Block.wr_subs, Block.sub_updSub, hbegun j, hbegun i, if_pos rfl]
  split <;> rfl

theorem Block.sentenceRuns_parts : b.sentenceRuns i q run rest =
    { b with regs := (b.sentenceRuns i q run rest).regs, subs := (b.sentenceRuns i q run rest).subs } := by
  rw [Block.sentenceRuns, Block.sentenceBegun, (Block.wrEach_onlyRegs _ _).1]
  rfl

end

/-- The first request that nothing holds starts when none runs (R312, R313). -/
theorem sentenceStart_answers {s : State} {i : Fin 32} {q : SntReq} {rest : List SntReq} {run : SntRun}
    (hq : (s.block.subs.get i).sntQ = q :: rest) (hfirst : s.block.sntIsUrgent q = true ∨ rest = [])
    (hheld : s.block.sntHeld i q = false) (hsnt : (s.block.subs.get i).snt = none)
    (hfence : q.why.ofTraining = true ∨ s.block.subFenced i = false) (hrun : s.block.on (CLS_STATUS_HALTED i) = false)
    (hnum : q.num < 64) (hseek : s.block.seekStep i 257 (s.block.runOf q) = some run) : s.answers (.sentenceStart i) (fun b =>
      (b.subs.get i).snt = some run ∧ (b.subs.get i).sntQ = rest ∧ b.rd (SNT_RUN_BUSY i) = 1 ∧ b.rd (SNT_RUN_SENTENCE i) = q.num
      ∧ b.rd (SNT_RUN_SOURCE i) = (if q.why = .software then 1 else 0) ∧ b.rd (SNT_RUN_STEP i) = run.step % 2 ^ 8
      ∧ (∀ j : Nat, j ≠ i.val → b.subs.get j = s.block.subs.get j) ∧ b = { s.block with regs := b.regs, subs := b.subs }
      ∧ s.block.regsBut b (startKeys i)) := by
  refine State.answers_onBlock (f := fun b => b.sentenceStart i) rfl ?_
  rw [Block.sentenceStart_of_first hq hfirst hheld hsnt hfence hrun hseek]
  obtain ⟨hbusy, hsource, hsentence⟩ := runKeys_ne_step i
  have hsub := s.block.sentenceRuns_sub (i := i) (q := q) (run := run) (rest := rest)
  refine ⟨?_, ?_, Block.sentenceRuns_field 0 rfl hbusy, ?_, ?_, Block.rd_wr_self _ _ _, fun j hj => ?_, Block.sentenceRuns_parts,
    Block.sentenceRuns_regsBut⟩
  · rw [hsub, if_pos rfl, SubSt.running]
  · rw [hsub, if_pos rfl, SubSt.running]
  · exact (Block.sentenceRuns_field 3 rfl hsentence).trans (Nat.mod_eq_of_lt hnum)
  · refine (Block.sentenceRuns_field 1 rfl hsource).trans ?_
    by_cases h : q.why = .software
    · rw [if_pos h, if_pos (by simp [h])]
      rfl
    · rw [if_neg h, if_neg (by simp [h])]
      rfl
  · rw [hsub, if_neg hj]

end Sys2Proof.Machine
end

section
/-! SUPPORT. The leak of the bucket of corrected errors (R376), and a level that holds more than its width. -/

namespace Sys2Proof.Machine

open Reg

/-- A leak lowers a level of 16 bits by one (R376). -/
theorem bucketLeak_answers {s : State} {i : Fin 32} (h : s.block.rd (ECC_STATUS_LEVEL i) ≤ 2 ^ 16) :
    s.answers (.bucketLeak i) (fun b => b.rd (ECC_STATUS_LEVEL i) = s.block.rd (ECC_STATUS_LEVEL i) - 1
      ∧ s.block.onlyRegs b [(ECC_STATUS_LEVEL i).key]) := by
  refine State.answers_onBlock (f := fun b => b.bucketLeak i) rfl ⟨?_, ?_⟩
  · exact (Block.rd_wr_self _ _ _).trans (Nat.mod_eq_of_lt (show _ < 2 ^ 16 by omega))
  · exact Block.onlyRegs_wr (s.block.onlyRegs_refl _) _ (List.mem_singleton_self _)

/-- LEVEL of subchannel 0, a field of 16 bits, holds 2^17. No write leaves such a value (`Block.rd_wr_self`), but `State` admits it. -/
def levelWide : Block := { (default : Block) with regs := [((ECC_STATUS_LEVEL 0).key, 2 ^ 17 + 1)] }

theorem levelWide_rd : levelWide.rd (ECC_STATUS_LEVEL 0) = 2 ^ 17 := by decide

/-- The leak writes 2^17 - 1, of which the field keeps 16 bits. -/
theorem levelWide_leak : (levelWide.bucketLeak 0).rd (ECC_STATUS_LEVEL 0) = 2 ^ 16 - 1 := by
  rw [Block.bucketLeak, Block.rd_wr_self, levelWide_rd]
  rfl

end Sys2Proof.Machine
end

section
/-! SUPPORT. The statements of the chapter on timing clauses and sentences, settled. -/

namespace Sys2Proof

open Machine Machine.Reg

/-- Settles O38: GO either fails its first failing check or begins the switch, and its end makes the image's set active. -/
theorem clauseSwitches : Obligations.ClauseSwitches := fun _ _ hl =>
  ⟨fun _ _ _ _ _ hbin hcode hg => clauseSwitch_answers hl hbin hcode hg,
    fun _ hto hlt hrun hnew hspeed => clauseSwitchDone_answers hl hto hlt hrun hnew hspeed⟩

/-- Settles O39: a fault of the checker halts the running subchannel; an allowed command and an equal clause do not. -/
theorem checkerHaltsOnFaults : Obligations.CheckerHaltsOnFaults := by
  intro s i hl hrun hsnt hsev hlast
  refine ⟨fun c hc => ⟨clauseCheck_of_allowed_answers hc, fun k hk h => ?_⟩, clauseCompare_of_equal_answers, fun h parity => ?_⟩
  · refine State.answers_mono (clauseCheck_of_forbidden_answers hl hrun hsnt hsev hlast hc h) ?_
    rintro b ⟨hhalted, hbit, hclause, hkind, hcmd, hrank, hcnt, hrec, hsub⟩
    rw [Block.sub_updSub_self] at hsub
    exact ⟨hhalted, hbit, congrArg SubSt.reload hsub, hclause.trans (Nat.mod_eq_of_lt hk), hkind, hcmd, hrank, hcnt, hrec,
      by rw [hsub, SubSt.halted, SubSt.clauseChecked]⟩
  · refine State.answers_mono (clauseCompare_of_different_answers hl hrun hsnt hsev hlast parity h) ?_
    rintro b ⟨hhalted, hbit, hclause, hkind, -, -, -, -, hsub⟩
    rw [Block.sub_updSub_self] at hsub
    exact ⟨hhalted, hbit, hkind, congrArg SubSt.reload hsub, hclause⟩

/-- Settles O40: the reload puts a sound copy into force and ends the halt, or keeps it with STORE_ERR. -/
theorem haltsEndByReload : Obligations.HaltsEndByReload := by
  intro s i up hl hhalt
  refine ⟨fun hreload hset he hok => ?_, fun hreload hok hsev => ?_, fun role w hg hreload => resume_answers hl hhalt hg hreload⟩
  · refine State.answers_mono (haltReloadDone_of_sound_answers hl hhalt hreload hset he hok) fun b hb => ?_
    rwa [Block.reloadedTo, Block.storedSet, Block.storeUpset_subs, Block.storeUpset_rd, Block.storeUpset_rd] at hb
  · refine State.answers_mono (haltReloadDone_of_unsound_answers hl hhalt hreload hok hsev) fun b ⟨herr, hhalted, hsub⟩ => ?_
    exact ⟨herr, hhalted, by rw [hsub]; exact ⟨rfl, rfl, rfl⟩⟩

/-- Settles O41: the call joins the queue or ends with outcome 4, and the first unheld request becomes the run. -/
theorem sentencesQueueAndStart : Obligations.SentencesQueueAndStart := by
  intro s i
  refine ⟨fun role w hg hbusy hroom hfence hpower hrun hl => ?_, fun q rest run hq hfirst hheld hsnt hfence hrun hnum hseek => ?_⟩
  · have htakes : s.block.takesCall i := ⟨hbusy, hroom, hfence, hpower, hrun, hl⟩
    refine ⟨fun ht => ?_, sentenceCall_of_missing_answers hg htakes⟩
    refine State.answers_mono (sentenceCall_of_held_answers hg htakes ht) ?_
    rintro b ⟨hack, hone, hsub, hother⟩
    exact ⟨hack, hone, by rw [hsub, SubSt.withRequest], by rw [hsub, SubSt.withRequest], hother⟩
  · refine State.answers_mono (sentenceStart_answers hq hfirst hheld hsnt hfence hrun hnum hseek) ?_
    rintro b ⟨hrunning, hrest, hone, hsentence, hsource, hstep, hother, hparts, hregs⟩
    refine ⟨hrunning, hrest, hone, hsentence, hsource, hstep, hother, hparts, fun g hg => hregs g fun hm => hg ?_⟩
    simp only [startKeys, List.mem_cons, List.not_mem_nil, or_false] at hm ⊢
    tauto

/-- Refutes O48: in the state `levelWide` the 16-bit field LEVEL holds 2^17, and a leak leaves 2^16 - 1 where the statement has
2^17 - 1. The statement quantifies over every `State`, that one too; where LEVEL holds at most 2^16 its first clause is
`bucketLeak_answers`. -/
theorem not_logErasureAndRepair : ¬ Obligations.LogErasureAndRepair := by
  intro h
  obtain ⟨⟨t, hex, -, hlevel, -⟩, -⟩ := h ⟨levelWide, []⟩ 0
  cases hex
  have hleak : levelWide.rd (ECC_STATUS_LEVEL 0) - 1 = 2 ^ 16 - 1 := hlevel.symm.trans levelWide_leak
  rw [levelWide_rd] at hleak
  exact absurd hleak (by decide)

end Sys2Proof
end
